-- ==== Sys2Proof/Word.lean ====
section
/-!
DEFINITION. Word.lean: the word types of the module (R4, R5) and the type of a sparse table keyed by a number.
-/
namespace Sys2Proof

abbrev Byte := BitVec 8
abbrev W16 := BitVec 16
abbrev W32 := BitVec 32
abbrev W64 := BitVec 64

/-- Unit numbers of Table 00-3. -/
abbrev BoardNo := Fin 16
abbrev FrameNo := Fin 8
abbrev StackNo := Fin 12
abbrev PortNo := Fin 24
abbrev DomainNo := Fin 256
abbrev GroupNo := Fin 1024
abbrev LinkNo := Fin 256

/-- A sparse table keyed by a number: rising keys, one entry a key. What a missing key holds is said by its reader. -/
abbrev Tbl (α : Type) := List (Nat × α)

end Sys2Proof
end

