-- ==== Sys2Proof/Syntax.lean ====
section
/-!
DEFINITION. Syntax.lean: the commands of the PT16 module, one constructor for each row of spec/opcode_table.json, and the
operand types they carry. A command carries what comes from outside the module: the bytes of a request, the packet that
arrived, the value on a pin, the outcome of a read of host memory, the result of a physical test.
-/
namespace Sys2Proof

/-- The three dictionary paths (R262). -/
inductive Path where
  | mailbox | can | fabric
  deriving DecidableEq, Repr

/-- How a directed-route request reached the module (R214): its arrival port, its HOP and the line that holds its paths. -/
structure Directed where
  port : Nat
  hop : Nat
  line : List Byte
  deriving DecidableEq, Repr

/-- Who sent a dictionary request that a row stands for: its path, its TXN and, on Ehrerlink, its source, the address it was sent to and, of a
directed request, its way (R210, R264). -/
structure Via where
  path : Path
  txn  : Nat := 0
  src  : Nat := 0
  dest : Nat := 0
  directed : Option Directed := none
  deriving DecidableEq, Repr

/-- A dictionary request as it arrives (R264): the mailbox holds its own bytes; the two other paths carry one line. -/
inductive ReqSource where
  | mailbox
  | can (line : List Byte)
  | fabric (src dest : Nat) (txnId : Nat) (directed : Option Directed) (line : List Byte)
  deriving DecidableEq, Repr

/-- The registers of configuration space that the spec names (R244 to R246): the IDs, the class code, the BARs, the controls and status of
the options that the module has, and the DVSECs by their ID. -/
inductive ConfigReg where
  | vendorId | deviceId | classCode | bar0 | bar2 | maxReadRequest | tag10 | ats | aerStatus | cacheEnable | memEnable
  | dvsec (id : Nat)
  deriving DecidableEq, Repr

/-- The component registers in BAR2 (R246): the HDM decoder's, and the RAS and Link Capabilities. -/
inductive ComponentReg where
  | decoderCount | decoderBase | decoderSize | decoderWays | rasStatus | linkCapability
  deriving DecidableEq, Repr

/-- A register access of R8 that has no behaviour of its own: a write to a dictionary entry, or to a BAR0 register; a read of BAR0; and the
accesses to configuration space and to the component registers in BAR2, reads where no value is written. -/
inductive RegAccess where
  | dict (via : Via) (index sub : Nat) (data : List Byte)
  | bar0 (offset size value : Nat)
  | bar0Read (offset size : Nat)
  | config (r : ConfigReg) (value : Option Nat)
  | component (r : ComponentReg) (value : Option Nat)
  deriving DecidableEq, Repr

/-- The two ways to clear a cause (R263). -/
inductive Front where
  | bar0
  | dict (via : Via)
  deriving DecidableEq, Repr

/-- What a DOMAIN_CAUSE write clears (R263): domain bits of one 64-bit word, or detail bits of one domain. -/
inductive CauseTarget where
  | domains (word : Fin 4) (mask : W64)
  | details (d : DomainNo) (mask : Byte)
  deriving DecidableEq, Repr

/-- An Ehrerlink packet (Table 09-7) with its payload. `dateline` is VC bit 0 (R206), `group` the DEST bits of a multicast. -/
structure Pkt where
  dest     : Nat
  src      : Nat
  opcode   : Nat
  flits    : Nat
  mc       : Bool := false
  dr       : Bool := false
  hop      : Nat := 0
  lines    : Nat := 0
  txn      : Nat := 0
  addr     : Nat := 0
  dateline : Bool := false
  payload  : List Byte := []
  deriving DecidableEq, Repr

/-- A stream of a Board's sequencer (R135). -/
inductive StreamSel where
  | main | filler
  deriving DecidableEq, Repr

/-- The two FETCH groups (Table 06-5). -/
inductive FetchSel where
  | a | b
  deriving DecidableEq, Repr

/-- Element formats of R25. -/
inductive Fmt where
  | fp32 | bf16 | f8 | g8 | f4 | m24 | s16s | s16u
  deriving DecidableEq, Repr

/-- What a read of the job image in host memory gave (R280, R281). The section bodies whose binary layout the spec leaves
open are carried as fields; `bytes` is the whole image. -/
structure StashPlan where
  domain : Nat
  poolMiB : Nat
  fixedKiB : Nat
  unitKiB : Nat
  region : Option Nat      -- none: the pool lies in board store (R83)
  deriving DecidableEq, Repr

structure DomainDecl where
  domain : Nat
  mbPerStep : Nat
  lenLimit : Nat
  initTag : Nat
  group : Nat
  deriving DecidableEq, Repr

/-- The content of one section of a job image (Table 12-16). The spec says of two facts that the image records them without a
section of their own: the Board's GATHER region (R228) comes with its partitions, and the epoch of each Beam semaphore (R238)
with the Beam semaphore table. -/
inductive SectionData where
  | partitions (tally stash gather stream : Nat) (gatherRegion : Option Nat)
  | buffers (es : List W64)
  | links (es : List (BitVec 128))
  | slices (es : List (BitVec 128))
  | bank (words : List W32)
  | beamSems (es : List (Nat × Nat × Nat)) (owners : List (Nat × Nat))   -- target address, target semaphore, epoch; owners: semaphore, epoch
  | shardMap (es : List W64)
  | stashPlans (es : List StashPlan)
  | regions (es : List (BitVec 128))
  | runs (es : List (BitVec 128))
  | pgroups (es : List W64)
  | updatesExpected (es : List (Nat × Nat))
  | rules (es : List (Nat × List W32))
  | groups (es : List (Nat × BitVec 192))
  | members (es : List (Nat × Nat))
  | domains (es : List DomainDecl)
  | epochs (es : List (Nat × Nat))
  | logical (es : List (Nat × Nat))
  | jobArea (region : Nat)
  deriving DecidableEq, Repr

/-- The read of the image: an error completion, or its bytes with the sections in directory order. The content of a section whose layout
the spec gives (tables, banks, groups, members) is what its bytes say; the list carries that of the others. -/
inductive ImageRead where
  | error
  | image (bytes : List Byte) (sections : List SectionData)
  deriving DecidableEq, Repr

/-- What the boot finds of the two flash devices and of the parts that it starts (R292, R296, R299): whether each device's counter value
authenticates; the devices that cannot be read; the DATA copies that are not valid (2k: the newer of device k, 2k + 1: the older); the
stacks whose initialisation and the lanes whose training fails (Table 15-2). -/
structure BootRead where
  authA : Bool := true
  authB : Bool := true
  failA : Bool := false
  failB : Bool := false
  badCopies : List Nat := []
  stackFails : List Nat := []
  laneFails : List Nat := []
  deriving DecidableEq, Repr

/-- The firmware package as the staging met it (R304): an error completion of a host read, a flash erase or write that failed, and the
bytes read from host memory; with FW_SOURCE 1 the bytes are those of the chunks. -/
structure PackageRead where
  readError : Bool := false
  flashError : Bool := false
  bytes : List Byte := []
  deriving DecidableEq, Repr

/-- What a scrub finds of a line of a stack or of a word of a board store (R100, R165): clean, corrected, or uncorrectable; `weak`: clean
now, but struck by a single-bit error before its next read, which will be a corrected one; `versionWord`: the word that holds the version
record of the line's square is uncorrectable (R168). -/
inductive LineOutcome where
  | clean | corrected | uncorrectable | weak | versionWord
  deriving DecidableEq, Repr

/-- The faults of a Frame cell that a pass meets: (row, Rod, value drained instead of the computed one). Row 256 is the
proof row (R70). -/
abbrev CellFaults := List (Nat × Nat × W32)

/-- A push that missed its cycle (R103, R117): Frame, Rod side, queue, pass and beat. -/
structure MissedPush where
  frame : FrameNo
  rodSide : Bool
  queue : Nat
  pass : Nat
  beat : Nat
  deriving DecidableEq, Repr

/-- A trigger of the hardware throttle (R315). -/
inductive ThrottleTrigger where
  | overCurrent (half : Fin 2)
  | inputPower
  | longExcursion
  | repeatExcursion
  deriving DecidableEq, Repr

/-- A rail fault (R317). -/
inductive RailKind where
  | outOfTolerance | overCurrent | overVoltage
  deriving DecidableEq, Repr

/-- The processors of Table 13-1 (CORE_SEL numbering, R308). -/
inductive Core where
  | security | power | scheduler
  | control (b : BoardNo)
  deriving DecidableEq, Repr

/-- How the writing of a snapshot stream ended (R337): written, or a write to host memory at a byte offset ended in an error completion. -/
inductive StreamEnd where
  | done
  | error (offset : Nat)
  deriving DecidableEq, Repr

/-- One square of a restored region: its index, whether it is a LASTC square, its committed bytes and its other bytes. -/
structure RestoredSquare where
  square : Nat
  lastc : Bool
  committed : List Byte
  other : List Byte
  deriving DecidableEq, Repr

/-- One domain of a restore source (Table 15-9, Table 15-13). -/
structure RestoredDomain where
  domain : Nat
  replayable : Bool
  tag : Nat
  record : BitVec 128                  -- step record of `tag`
  lossDigest : W64
  lossCount : Nat
  positions : List (Nat × Nat × Nat × Nat)   -- Board, BANK_SEQ, MAIN_POS, FILLER_POS
  strict : Bool
  frozen : List Nat
  rules : List (Nat × List W32)
  squares : List (Nat × List RestoredSquare) -- region-table entry, squares
  deriving DecidableEq, Repr

/-- What a restore read from host memory (R339, SNAP_TARGET 0): the byte offset of a read that ended in an error completion, and the bytes. The
two other sources are the module's own stacks and the packets of its mirror partner. -/
structure RestoreSource where
  failure : Option Nat
  stream : List Byte
  deriving DecidableEq, Repr

/-- A read that a unit makes of a stack (R171): the requester, its step tag and the lines. -/
structure StackReadReq where
  board : Nat
  dpa : Nat
  lines : Nat
  tag : Nat
  deriving DecidableEq, Repr

/-- Instructions shifted into the JTAG TAP (R303). -/
inductive TapInstr where
  | idcode | bypass | sample | extest | extestPulse | extestTrain
  | hidden (code : Nat)      -- one of the module's own, locked until a debug unlock
  deriving DecidableEq, Repr

/-- The link parameters of a port's peer (R199): device and port number, width, and its lane map: the positions of this port whose lanes
are good at the peer. Its credits are those of Table 09-5. -/
structure LinkParams where
  device : Nat
  port : Nat
  width : Nat
  lanes : Nat := 15
  deriving DecidableEq, Repr

/-- What the peer of a port states at the credit resynchronisation after a retrain (R201, R204): the next flit that it expects, and the
flits that its receive buffer still holds, by pool. -/
structure PeerResync where
  next : Nat
  held : List Nat := []
  deriving DecidableEq, Repr

/-- What comes with a TB_SYNC beside its line (R212, R218): its HOP, and what the arrival stamp shows beyond a whole ns, in ps. -/
structure SyncStamp where
  ps : Nat
  hop : Nat := 1
  deriving DecidableEq, Repr

/-- The commands of the module: one constructor for each row of spec/opcode_table.json, in its order. -/
inductive Instr where
  -- dictionary and BAR0
  | odRead (src : ReqSource)
  | odWrite (src : ReqSource)
  | odInfo (src : ReqSource)
  | registerWrite (w : RegAccess)
  | stagingTimeout (p : Path)
  | mbGo (v : W32)
  | irqCauseClear (f : Front) (mask : W64)
  | domainCauseClear (f : Front) (t : CauseTarget)
  | ringBaseWrite (d : DomainNo) (v : W64)
  | dbLineWrite (d : DomainNo) (v : W64)
  | feedDoorbell (d : DomainNo) (count : W32)
  | doorbellLineInvalidation (d : DomainNo) (count : W32)
  | feedRecord (d : DomainNo) (slot : List Byte)
  | microBatchAdmit (d : DomainNo)
  | admitWatchdog (d : DomainNo)
  | openingComplete (d : DomainNo)
  | payloadRead (b : BoardNo) (link : LinkNo) (fill line : Nat) (data : Option (List Byte))
  | windowMapWrite (i : Fin 256) (v : W64)
  | hdmRead (offset : Nat)
  | hdmWrite (offset : Nat) (line : List Byte)
  | functionLevelReset
  | hotReset
  | perstAssert
  | perstDeassert (refclk : Bool)
  | stepRecord (via : Via) (d : DomainNo) (data : List Byte)
  -- job and device control
  | load (via : Via)
  | jobLoadDone (rd : ImageRead)
  | start (via : Via)
  | abort (via : Via)
  | unload (via : Via)
  | stateRequestStandby (via : Via)
  | stateRequestService (via : Via)
  | stateRequestReady (via : Via)
  | warmReset (via : Via)
  | coldReset (via : Via)
  | cwClear (via : Via) (d : DomainNo) (v : Byte)
  | ruleSlotWrite (via : Via) (slot : Fin 256) (sub : Nat) (v : W32)
  | groupEntry (via : Via) (data : List Byte)
  | memberAddr (via : Via) (v : W16)
  | barrierStart (via : Via) (g : W16)
  | fabricDevice (via : Via) (v : W16)
  | portRestore (via : Via) (v : Byte)
  | nodeIdWrite (via : Via) (v : Byte)
  | halfClock (via : Via) (v : Byte)
  -- firmware, attestation, debug
  | stage (via : Via)
  | fwChunk (via : Via) (data : List Byte)
  | stagingComplete (pkg : PackageRead)
  | activate (via : Via)
  | activationSwitch
  | confirm (via : Via)
  | cancel (via : Via)
  | actInhibitClear (bit : Fin 4)
  | attestNonce (via : Via) (data : List Byte)
  | attestReportReady
  | debugResponse (via : Via) (data : List Byte)
  -- snapshots
  | snapshot (via : Via)
  | captureStart (d : DomainNo)
  | snapshotDone (r : StreamEnd)
  | exportCmd (via : Via)
  | restore (via : Via)
  | restoreComplete (r : RestoreSource)
  | snapCancel (via : Via)
  | logClear (via : Via) (v : Byte)
  -- Nines units, counters, freeze, beads
  | ninesInit (via : Via)
  | ninesRun (via : Via)
  | ninesRunDone (unit : Fin 22) (bad : Option Nat)
  | ninesFinish (via : Via)
  | ninesAbort (via : Via) (done : Nat)
  | ninesRunningWrite (via : Via) (v : W64)
  | cntControl (via : Via) (v : W32)
  | cntClear (via : Via) (v : Byte)
  | blkClear (via : Via) (v : Byte)
  | readerStart (via : Via)
  | readerStop (via : Via)
  | readerSample
  | freezeModule (via : Via)
  | thawModule (via : Via)
  | freezeFabric (via : Via)
  | thawFabric (via : Via)
  | freezeTick
  | beadNWrite (via : Via) (v : Byte)
  -- field bus
  | clearIds (frame : List Byte)
  | offer (frame : List Byte) (chainFor : Nat)
  | chainInChange (level : Bool)
  | idConflict (canId : Nat)
  | heartbeat
  | canBusOffRecovery
  -- power, boot, cores
  | inputPowerUp
  | inputUndervoltage
  | pwrEnAssert
  | pwrEnDeassert
  | boot (rd : BootRead)
  | watchdog (core : Core)
  | coreRestartDone (core : Core)
  | imageIntegrity (core : Core)
  | faultLogFlush
  | throttle (t : ThrottleTrigger)
  | throttleDutyStep (stillOn : Bool)
  | throttleHandover
  | powerControllerTick (p1 p100 : Nat)
  | railFault (k : RailKind)
  | railFaultClear
  | thermalSample (temps : List (Nat × Int))
  | thermalThrottleEnd (half : Fin 2)
  | thermalTripEnd
  | refreshRestore (s : StackNo)
  -- Ehrerlink ports and packets
  | portTrainingDone (p : PortNo) (peer : Option LinkParams)
  | laneFailover (p : PortNo) (pos : Fin 4)
  | retrainDone (p : PortNo) (ok : Bool) (peer : PeerResync)
  | lanePatternTestDone (p : PortNo) (pos : Fin 4) (pass : Bool)
  | routeSwitch (p : PortNo)
  | flitArrival (p : PortNo) (flit : List Byte)
  | nak (p : PortNo) (ack : Nat)
  | packetForward (arrival : Option PortNo) (pkt : Pkt)
  | directedRoute (p : PortNo) (pkt : Pkt)
  | rdReq (pkt : Pkt)
  | wr (pkt : Pkt)
  | gatherReq (pkt : Pkt)
  | rendezvousTimeout (b : BoardNo) (entry : Nat)
  | mcData (p : Option PortNo) (pkt : Pkt)
  | mcHoldTimeout (die : Fin 4) (slot : Nat)
  | mcAck (p : Option PortNo) (pkt : Pkt)
  | gatherData (pkt : Pkt)
  | stale (pkt : Pkt)
  | rdData (pkt : Pkt)
  | wrAck (pkt : Pkt)
  | err (pkt : Pkt)
  | fabricTimeout (txn : Nat)
  | reduceVal (pkt : Pkt)
  | reduceVote (p : Option PortNo) (pkt : Pkt)
  | reduceHopSend (b : BoardNo)
  | updateCmd (s : StackNo) (pkt : Pkt)
  | noStepRecord (s : StackNo) (d : DomainNo)
  | squareUpdate (s : StackNo)
  | updateMissing (d : DomainNo) (s : StackNo)
  | mirrorWr (pkt : Pkt)
  | mirrorPass (s : StackNo) (d : DomainNo) (region : Fin 64)
  -- the Beam
  | semSignal (pkt : Pkt)
  | barrier (p : PortNo) (pkt : Pkt)
  | commitTok (p : PortNo) (pkt : Pkt)
  | voidTok (p : PortNo) (pkt : Pkt)
  | tokenResend (g : GroupNo)
  | beamTimeout (d : DomainNo)
  | localOffer (d : DomainNo)
  | tbSync (p : PortNo) (masterTime correction : W64) (stamp : SyncStamp)
  | tbSyncSend
  | tbEcho (p : PortNo) (t1 t2 t3 t4 : Int)
  | tbHoldover
  | freeze (p : PortNo) (pkt : Pkt)
  -- stacks
  | openCmd (s : StackNo)
  | commit (s : StackNo)
  | closeApply (s : StackNo) (d : DomainNo)
  | settleWalkDone (s : StackNo) (d : DomainNo)
  | stackRead (s : StackNo) (req : StackReadReq)
  | aheadHoldTimeout (s : StackNo) (held : Nat)
  | rowTest (s : StackNo) (pass : Bool)
  | patrolScrub (s : StackNo) (line : Nat) (r : LineOutcome)
  | boardStoreScrub (b : BoardNo) (word : Nat) (r : LineOutcome)
  | marchTest (b : BoardNo) (pass : Bool)
  | stackSelfTest (s : StackNo) (pass : Bool)
  -- sequencer
  | loadBegin (b : BoardNo)
  | loadWord (b : BoardNo) (bank : Bool) (offset : W16) (w : W32)
  | loadEnd (b : BoardNo)
  | bankSwap (b : BoardNo)
  | fetch (b : BoardNo) (st : StreamSel) (g : FetchSel)
  | rearmTakeEffect (b : BoardNo) (link : LinkNo)
  | fetchLineLand (b : BoardNo) (link : LinkNo) (fill line : Nat)
  | stashWrite (b : BoardNo) (st : StreamSel)
  | stashRead (b : BoardNo) (st : StreamSel)
  | stashReadRelease (b : BoardNo) (st : StreamSel)
  | stashRelease (b : BoardNo) (st : StreamSel)
  | gather (b : BoardNo) (st : StreamSel)
  | reduce (b : BoardNo) (st : StreamSel)
  | sliceReadout (b : BoardNo)
  | sem (b : BoardNo) (st : StreamSel)
  | nop (b : BoardNo) (st : StreamSel)
  | run (b : BoardNo) (st : StreamSel) (missed : Option MissedPush)
  | stepDone (b : BoardNo) (st : StreamSel)
  | boardStepDone (b : BoardNo) (d : DomainNo)
  | swap (b : BoardNo) (st : StreamSel)
  | stop (b : BoardNo) (st : StreamSel)
  -- Frames
  | passVerdict (b : BoardNo) (f : FrameNo) (faults : CellFaults)
  | frameSelfTest (b : BoardNo) (f : FrameNo) (pass : Bool)
  | proofReplay (b : BoardNo) (f : FrameNo) (faults : CellFaults)
  | storeWriteOut (b : BoardNo) (f : FrameNo)
  | drainAdd (b : BoardNo) (f : FrameNo)
  | slateHandoff (b : BoardNo) (f : FrameNo)
  | tallyContribution (b : BoardNo) (f : FrameNo)
  | tallyHold (b : BoardNo) (f : FrameNo)
  | layerComplete (b : BoardNo) (st : StreamSel)
  | layerBoundaryHalt (b : BoardNo)
  | streamRestart (b : BoardNo)
  | streamStall (b : BoardNo) (link : LinkNo)
  -- the Slate; the source formats are the stored formats of operands a, b and c
  | fma (b : BoardNo) (st : StreamSel) (fa fb fc : Fmt)
  | add (b : BoardNo) (st : StreamSel) (fa fb : Fmt)
  | mul (b : BoardNo) (st : StreamSel) (fa fb : Fmt)
  | max (b : BoardNo) (st : StreamSel) (fa fb : Fmt)
  | min (b : BoardNo) (st : StreamSel) (fa fb : Fmt)
  | cvt (b : BoardNo) (st : StreamSel) (fa : Fmt)
  | exp (b : BoardNo) (st : StreamSel) (fa : Fmt)
  | log (b : BoardNo) (st : StreamSel) (fa : Fmt)
  | rsqrt (b : BoardNo) (st : StreamSel) (fa : Fmt)
  | tanh (b : BoardNo) (st : StreamSel) (fa : Fmt)
  | rcp (b : BoardNo) (st : StreamSel) (fa : Fmt)
  | rsum (b : BoardNo) (st : StreamSel) (fa : Fmt)
  | rmax (b : BoardNo) (st : StreamSel) (fa : Fmt)
  | softmax (b : BoardNo) (st : StreamSel) (fa : Fmt)
  | lnorm (b : BoardNo) (st : StreamSel) (fa fgamma fbeta : Fmt)
  | rmsnorm (b : BoardNo) (st : StreamSel) (fa fgamma : Fmt)
  | xent (b : BoardNo) (st : StreamSel) (fa : Fmt)
  | dropout (b : BoardNo) (st : StreamSel) (fa : Fmt)
  -- later rows of the table
  | stackVoid (s : StackNo)
  | cxlLinkUp (cxl : Bool) (width rate : Nat) (cache mem : Bool)
  | cxlLinkDown
  | hdmDecoderCommit (base size : Nat)
  | portEnable (via : Via) (v : Byte)
  | tapInstruction (i : TapInstr)
  | canError (transmit : Bool) (delta : Int)
  | canIgnored (canId : Nat)
  | identityKeyDerived (seed : Option (List Byte))
  deriving DecidableEq, Repr

end Sys2Proof
end

