-- ==== Sys2Proof/Decode.lean ====
section
/-!
DEFINITION. Decode.lean: the reading of a command from a word numbered as spec/opcode_table.json numbers its bits. No row of the
table gives bits, so no word spells a command.
-/
namespace Sys2Proof

/-- The command that a word of the table's bits spells: none, for every word, since the table gives no row any bits. -/
def decodeTableWord (_nbits _w : Nat) : Option Instr := none

end Sys2Proof
end

