-- ==== Sys2Proof/Config.lean ====
section
/-!
DEFINITION. Config.lean: the values that the spec leaves open. Each is a constant without a body, so nothing can be proved of
the value it takes: a statement that mentions one holds for every value.
-/
namespace Sys2Proof

/-- The n-th free value that the model draws: a result that the spec does not state (log entry 4). -/
opaque Config.freeValue : Nat → W64

/-- The loss of XENT on a row whose label names no element of it: a function of the row and the label (log entry 4). -/
opaque Config.strayLoss : List W32 → Nat → W32

/-- The Deck of a pass that popped wrong beats under the right tags (R156): a function of FEED, FRAME and the tile, of its operand
buffers and of what its queues held before (log entry 4). -/
opaque Config.strayDeck : Nat → Nat → Nat → List Byte → List Byte → List Nat → List W32

/-- What a surplus beat left in a feeder queue (R155): a function of the job's seed and of the place of the entry (log entry 4). -/
opaque Config.strayBeat : W64 → List Nat → Nat

/-- The random bytes of the security core: challenge number n (R303; log entry 5). -/
opaque Config.randomBytes : Nat → List Byte

/-- Falcon-1024 key generation, seeded by SHAKE256 over a string: the public and the private key (R300; log entry 5). -/
opaque Config.falconPublic : List Byte → List Byte
opaque Config.falconPrivate : List Byte → List Byte

/-- The key of a flash device's counter area, derived from the PUF's seed (R300; log entry 5). -/
opaque Config.counterKey : Nat → List Byte → List Byte

/-- A Falcon signature under a private key over a report (R302; log entry 5). -/
opaque Config.signReport : List Byte → List Byte → List Byte

/-- Whether a Falcon-1024 signature verifies: public key, message, signature (R293; log entry 5). -/
opaque Config.falcon : List Byte → List Byte → List Byte → Bool

/-- Where the firmware manifest and the signer certificate lie in SLOT_HEADER (Table 13-6; log entry 5). -/
opaque Config.headerManifest : Nat
opaque Config.headerSigner : Nat

end Sys2Proof
end

