-- ==== Sys2Proof/Machine/State.lean ====
section
/-!
DEFINITION. Machine/State.lean: everything the spec gives the module to hold, as plain data; the reasons a step can stop; and the
module right after reset. Tables are sparse: a missing key holds the value of its type's defaults.
-/
namespace Sys2Proof.Machine

/-- Memory as address and byte pairs, addresses strictly rising, no entry equal to what an unlisted address reads as. -/
abbrev Mem := List Host.Cell

/-- What stops a step with a fault: nothing does. Every command of the table has an effect that the spec gives it. -/
inductive Fault where
  deriving DecidableEq, Repr

/-- What a step refuses. -/
inductive Refusal where
  /-- A command without a meaning yet, named by its mnemonic. Raised by exec's arm of that command only. Safe. -/
  | notModelled (mnemonic : String)
  deriving DecidableEq, Repr

/-! ### What leaves the module (the model's own record, newest first) -/

inductive Out where
  /-- An MSI-X vector is signalled (R259). -/
  | msix (vector : Nat)
  /-- A packet is sent: on a port, or on the package (`none`, R22). -/
  | packet (port : Option Nat) (pkt : Pkt)
  /-- A field-bus frame is sent: identifier and bytes (Table 12-8). -/
  | canFrame (id : Nat) (bytes : List Byte)
  /-- A write of the module into host memory (R253, R337, R354). -/
  | hostWrite (addr : Nat) (bytes : List Byte)
  /-- What a read of the host over CXL.io returns: a register, or what a DVSEC holds (R245, R248). -/
  | hostData (value : Nat)
  | hostDvsec (id : Nat) (vendor : Option Nat) (fields : List Nat)
  /-- The line that answers a window read (R258). -/
  | hdmData (line : List Byte)
  /-- A window write is completed (R258). -/
  | hdmDone
  /-- A whole packet has been received on a port (R203); the command of its opcode carries it. -/
  | received (port : Nat) (pkt : Pkt)
  /-- A port sends its link parameters (R199), with the credits of the three classes (Table 09-5). -/
  | linkParams (port : Nat) (own : LinkParams) (credits : List Nat)
  /-- What a port states to its peer at the credit resynchronisation: the next flit that it expects, and the flits in its receive buffer by
  pool (R201, R204). -/
  | linkResync (port : Nat) (own : PeerResync)
  /-- A flit is sent on a port (R204). -/
  | flit (port : Nat) (bytes : List Byte)
  /-- The answer to a stack read (R171): data, stale OLD (1), stale AHEAD (2), or an error completion. -/
  | readData (bytes : List Byte)
  | readStale (cause : Nat)
  | readError (code : Nat)
  /-- A TAP instruction is accepted or treated as BYPASS (R303); IDCODE shifts the code out (R375). -/
  | tap (accepted : Bool) (value : Nat)
  deriving DecidableEq, Repr

/-- A fault: the fields of its record (Table 15-5) that the raiser knows. -/
structure Flt where
  code : Nat
  flags : Nat := 0
  kind : Nat := 0
  unit : Nat := 0
  layer : Nat := 0
  mb : Nat := 0xFFFF
  domain : Option Nat := none
  user : Nat := 0
  detail : Nat := 0
  deriving DecidableEq, Repr

/-! ### Identity, flash and firmware (chapters 12, 13) -/

/-- The FACTORY area, identical in both devices (Table 13-6), and the ROM (R293). The fields from `serial` to `signature` are those of the
device manifest (Table 13-9), which is the one source of the identity entries (R295). -/
structure Ident where
  serial : List Byte := List.replicate 16 0x30#8
  grade : Nat := 16
  hwRevision : Nat := 1
  disabled : Nat := 0
  pciVendor : Nat := 0
  issuer : List Byte := []
  identityDigest : List Byte := []
  signature : List Byte := []
  /-- The certificates of the root, the product CA and the firmware signer in FACTORY (Tables 13-6, 13-7). -/
  rootCert : List Byte := []
  productCa : List Byte := []
  signerCert : List Byte := []
  pufHelper : List Byte := []
  calibration : List Byte := []
  /-- The digest of the root public key in ROM. -/
  romRoot : List Byte := []
  deriving DecidableEq, Repr

/-- A firmware slot: SLOT_HEADER and IMAGES of one device (Table 13-6): its state (0 EMPTY to 5 CONFIRMED), its firmware manifest (Table
13-8), its signer certificate and its images. -/
structure Slot where
  state : Nat := 0
  manifest : List Byte := []
  signer : List Byte := []
  images : List Byte := []
  deriving DecidableEq, Repr

/-- What a copy of the DATA area holds (Table 13-6). -/
structure Data where
  od : Tbl Nat := []
  retiredFrames : Nat := 0
  retiredBoards : Nat := 0
  retiredStacks : Nat := 0
  retiredLanes : Nat := 0
  /-- Spare rows in use per stack bank, key stack × 2^20 + bank; per board-store bank, key board × 32 + bank. -/
  stackSpares : Tbl Nat := []
  storeSpares : Tbl Nat := []
  /-- The rows remapped, by the line or word that was tested: (bank key, line of the stack), (bank key, word of the store) (R166, R324). -/
  stackRemaps : List (Nat × Nat) := []
  storeRemaps : List (Nat × Nat) := []
  log : List (Nat × BitVec 512) := []
  bootPref : Nat := 0
  trialBoots : Nat := 0
  fallbacks : Nat := 0
  nodeId : Nat := 0
  deriving DecidableEq, Repr

/-- The two devices (R291, R292): the newer DATA copy, which every write is made to, and its generation number; the older copy; the slots;
and the counter areas. -/
structure Flash extends Data where
  gen : Nat := 0
  older : Option (Nat × Data) := none
  slotA : Slot := {}
  slotB : Slot := {}
  counterA : Nat := 0
  counterB : Nat := 0
  failA : Bool := false
  failB : Bool := false
  /-- The copies, newer first, that a device has been left with since it failed. -/
  leftA : Option (List (Nat × Data)) := none
  leftB : Option (List (Nat × Data)) := none
  deriving DecidableEq, Repr

/-- Measurement entry (Table 13-11). -/
structure Meas where
  kind : Nat
  detail : Nat
  secVersion : Nat
  time : Nat
  digest : List Byte
  deriving DecidableEq, Repr

/-- Staging, activation, attestation and debug (R301 to R307). -/
structure Firmware where
  booted : Nat := 0
  active : Nat := 0
  /-- Whether the counter value of each device authenticated at the last boot (R299). -/
  authA : Bool := true
  authB : Bool := true
  /-- The verified image in each core's write-protected SRAM, in CORE_SEL numbering; 32: the PHY sequencers (R283, R284). -/
  code : Tbl (List Byte) := []
  /-- The data memory of each processor (R283), by its number. No rule of the spec reads or writes it. -/
  data : Tbl (List Byte) := []
  stageState : Nat := 0
  stageError : Nat := 0
  progress : Nat := 0
  chunks : List Byte := []
  stageSource : Nat := 0
  actState : Nat := 0
  /-- BOOT_PREF before the ACTIVATE under way (R307). -/
  prefBefore : Nat := 0
  inhibit : Nat := 0
  /-- Condition of each inhibit bit still present (R306). -/
  inhibitOn : Nat := 0
  actReq : Nat := 0
  actDone : Nat := 0
  meas : List Meas := []
  attest : Nat := 0
  nonce : List Byte := []
  report : List Byte := []
  keyReady : Bool := false
  keyBad : Bool := false
  /-- The identity key pair and the keys of the counter areas, derived from the PUF's seed at each boot (R300). -/
  publicKey : List Byte := []
  privateKey : List Byte := []
  counterKeys : List (List Byte) := []
  debugState : Nat := 0
  debugFails : Nat := 0
  /-- Number of random challenges drawn since the first power-up. -/
  challengeNo : Nat := 0
  deriving DecidableEq, Repr

/-! ### Device state (chapters 12, 13, 14, 17) -/

inductive DevState where
  | off | standby | service | ready | running | halted | safe
  deriving DecidableEq, Repr

inductive JobState where
  | none | loading | loaded | running | failed
  deriving DecidableEq, Repr

/-- Device state, pins and cores. -/
structure Dev where
  state : DevState := .standby
  jobState : JobState := .none
  /-- When the state was entered, in the time since reset. -/
  since : Nat := 0
  safeCause : Nat := 0
  inputOk : Bool := true
  pwrEn : Bool := false
  pgood : Bool := false
  perst : Bool := true
  refclk : Bool := false
  booting : Bool := false
  bootFailed : Bool := false
  lastReset : Nat := 0
  /-- When the last boot began, in the time since reset. -/
  bootAt : Nat := 0
  bootServiceMs : Nat := 0
  bootReadyMs : Nat := 0
  /-- Stacks whose initialisation fails and lanes that do not train, as the boot finds them when Boards and stacks come up. -/
  initFails : List Nat := []
  laneFails : List Nat := []
  thermTrip : Bool := false
  /-- The state that a change of the rails under way leads to (Table 13-4, R12, R284). -/
  moving : Option DevState := none
  /-- Time since reset, ns (Table 12-9). -/
  up : Nat := 0
  /-- Cores that restart at present, in CORE_SEL numbering, and their watchdog records: (last expiry, expiries). -/
  restarting : List Nat := []
  wdog : Tbl (Nat × Nat) := []
  deriving DecidableEq, Repr

/-! ### Host link (chapter 11) -/

inductive MbState where
  | idle | busy | done
  deriving DecidableEq, Repr

structure HostLink where
  mode : Nat := 0
  width : Nat := 0
  rate : Nat := 0
  inL0 : Bool := false
  cacheEn : Bool := false
  memEn : Bool := false
  memActive : Bool := false
  hdmBase : Nat := 0
  hdmSize : Nat := 0
  /-- Interleave ways of the HDM decoder (R246). -/
  hdmWays : Nat := 1
  windowMap : Tbl W64 := []
  /-- Configuration space (R245, R246): the BARs, Max_Read_Request_Size, 10-bit tags, ATS, and AER's and the CXL RAS Capability's status. -/
  bar0 : Nat := 0
  bar2 : Nat := 0
  maxRead : Nat := 512
  tag10 : Bool := false
  ats : Bool := false
  aerStatus : Nat := 0
  rasStatus : Nat := 0
  reqLen : Nat := 0
  mbState : MbState := .idle
  overlap : Bool := false
  irqEn : Bool := false
  rspLen : Nat := 0
  reqBuf : Mem := []
  rspBuf : Mem := []
  /-- The request taken at GO. -/
  mbReq : List Byte := []
  irqCause : W64 := 0#64
  msixTable : Tbl Nat := []
  msixPba : Nat := 0
  deriving DecidableEq, Repr

/-- A staged value of a path (R265). -/
structure Staged where
  src : Nat
  index : Nat
  sub : Nat
  count : Nat
  bytes : List Byte
  deriving DecidableEq, Repr

/-- A dictionary request whose service waits for the scheduler core (R284). -/
structure WaitReq where
  path : Path
  src : Nat
  dest : Nat
  txnId : Nat
  directed : Option Directed
  bytes : List Byte
  deriving DecidableEq, Repr

structure Paths where
  stagedMb : Option Staged := none
  stagedCan : Option Staged := none
  stagedFab : Option Staged := none
  waiting : List WaitReq := []
  deriving DecidableEq, Repr

/-! ### Field bus (R270 to R275) -/

structure Can where
  nodeId : Nat := 0
  chainIn : Bool := false
  chainSince : W64 := 0#64
  tec : Nat := 0
  recCount : Nat := 0
  busOff : Bool := false
  passive : Bool := false
  /-- Responses held while bus-off, and NOTIFY frames queued, oldest first. -/
  heldRsp : List (Nat × List Byte) := []
  notify : List (Nat × List Byte) := []
  deriving DecidableEq, Repr

/-! ### Power and thermal (chapter 14) -/

structure Half where
  /-- Clock-down wanted by: the host, the power controller, the thermal throttle, the hardware throttle. -/
  wantHost : Bool := false
  wantPower : Bool := false
  wantThermal : Bool := false
  wantHw : Bool := false
  down : Bool := false
  cap : Nat := 16
  /-- ms at a cap of 8/16 or less, and ms at 16/16 below 75 % while clocked down by the controller. -/
  lowMs : Nat := 0
  calmMs : Nat := 0
  /-- FCLK cycles into the duty window (R315). -/
  dutyPos : Nat := 0
  hwOn : Bool := false
  hwDuty : Nat := 16
  /-- When the last trigger acted, in the time since reset; an excursion has set the throttle off (R315). -/
  hwSince : Nat := 0
  hwExc : Bool := false
  deriving DecidableEq, Repr

structure Power where
  east : Half := {}
  west : Half := {}
  excursion : Bool := false
  /-- Length of the excursion under way and of the longest, in ms (R314). -/
  excMs : Nat := 0
  excLongest : Nat := 0
  raiseWait : Nat := 0
  power : Nat := 0
  avg100 : Nat := 0
  temps : Tbl Int := []
  /-- The temperatures that telemetry shows: the power-management core's (Table 13-2). -/
  shown : Tbl Int := []
  /-- Stacks whose refresh rate is doubled. -/
  refresh : List Nat := []
  changes : Nat := 0
  deriving DecidableEq, Repr

/-! ### Commit domains: the hub's view (chapters 02, 04, 07, 08, 10, 11, 15) -/

inductive Phase where
  | closed | opening | open | closing
  deriving DecidableEq, Repr

inductive RingState where
  | disabled | active | held | stopped
  deriving DecidableEq, Repr

/-- An admitted micro-batch (R84, R85): its record, and per Board (board, first, size) its stash reservation and (board, first,
end) the ranges of it still held, in units of 256 bytes from the pool's start. -/
structure MBatch where
  index : Nat
  len : Nat
  record : BitVec 512
  slotAddr : Nat
  reserved : List (Nat × Nat × Nat)
  held : List (Nat × Nat × Nat) := []
  statusWritten : Bool := false
  deriving DecidableEq, Repr

/-- A token of a child in the commit exchange (R240). -/
structure Tok where
  commit : Bool
  tag : Nat
  firstVoider : Nat
  modules : Nat
  deriving DecidableEq, Repr

/-- Feed ring of a domain (Table 11-5). -/
structure Ring where
  base : Nat := 0
  log2 : Nat := 0
  dbLine : Nat := 0
  prodSeen : Nat := 0
  cons : Nat := 0
  lastStatus : Nat := 0
  state : RingState := .disabled
  /-- The record at the head that waits for its reservation: its bits, the time the wait began, whether it was reported. -/
  head : Option (BitVec 512) := none
  waitSince : W64 := 0#64
  reported : Bool := false
  /-- The tag whose remaining records are marked skipped (R86). -/
  skipTag : Option Nat := none
  deriving DecidableEq, Repr

/-- Carry watch of a domain (Table 02-9). -/
structure Watch where
  stepOvf : Nat := 0
  stepInf : Nat := 0
  stepNan : Nat := 0
  totOvf : Nat := 0
  totInf : Nat := 0
  totNan : Nat := 0
  firstTensor : Nat := 0xFFFF
  firstInfo : Nat := 0
  firstTime : Nat := 0
  sticky : Nat := 0
  voidMark : Bool := false
  deriving DecidableEq, Repr

/-- Commit record (R332). -/
structure CommitRec where
  tag : Nat := 0
  record : BitVec 128 := 0#128
  lossDigest : W64 := 0#64
  lossCount : Nat := 0
  /-- Board, BANK_SEQ, MAIN_POS, FILLER_POS. -/
  positions : List (Nat × Nat × Nat × Nat) := []
  deriving DecidableEq, Repr

/-- A mirror pass of a region (R334): its set, what its state block and seal hold, the next square, the squares sent, and those whose
packets are not all acknowledged. `phase`: 0 due, 1 squares, 2 state block, 3 seal. -/
structure MPass where
  stack : Nat
  region : Nat
  set : Nat
  phase : Nat := 0
  crec : CommitRec := {}
  block : List Byte := []
  next : Nat := 0
  sent : Nat := 0
  going : List (Nat × Nat) := []
  deriving DecidableEq, Repr

/-- The commit exchange of a domain (R240 to R242). -/
structure Exch where
  /-- 0 idle, 1 offered, 2 decided (Table 10-8). -/
  state : Nat := 0
  /-- 0 none, 1 commit, 2 void. -/
  offer : Nat := 0
  offerAt : W64 := 0#64
  offerTag : Nat := 0
  /-- Tokens of the child ports that arrived, by port. -/
  childs : Tbl Tok := []
  sentUp : Bool := false
  firstVoider : Nat := 0xFFFF
  timeoutRaised : Bool := false
  time : Nat := 0
  deriving DecidableEq, Repr

/-- A commit domain as the hub holds it. -/
structure Dom where
  used : Bool := false
  mbPerStep : Nat := 0
  lenLimit : Nat := 0
  initTag : Nat := 0
  group : Nat := 0
  boards : Nat := 0
  phase : Phase := .closed
  /-- A settle walk of the last close still runs in some stack. -/
  settling : Bool := false
  openTag : Nat := 0
  committedTag : Nat := 0
  lastTag : Nat := 0
  lastOutcome : Nat := 0
  commits : Nat := 0
  voids : Nat := 0
  lastClose : Nat := 0
  settleLast : Nat := 0
  lost : Bool := false
  mbs : List MBatch := []
  ring : Ring := {}
  armed : Option (BitVec 128) := none
  armTime : Nat := 0
  watch : Watch := {}
  updFault : Bool := false
  updFaultCode : Nat := 0
  /-- FROZEN groups and STRICT as the last step opening took them (R191). -/
  frozen : List Nat := []
  strict : Bool := false
  openedAt : W64 := 0#64
  doneTime : Nat := 0
  boardsDone : Nat := 0
  stacksDone : Nat := 0
  /-- Stacks that have applied the message under way (OPEN, COMMIT or VOID), and those whose settle walk has ended. -/
  appliedBy : Nat := 0
  settledBy : Nat := 0
  missingRaised : Bool := false
  /-- A step voided at once (R86): its cause for R380 is 5. -/
  immediate : Bool := false
  /-- Outcome of the step under decision, for its VOID record: cause of R380. -/
  voidCause : Nat := 0
  exch : Exch := {}
  cause : Nat := 0
  lossDigest : W64 := 0#64
  lossCount : Nat := 0
  stepPositions : List (Nat × Nat × Nat × Nat) := []
  commitRec : CommitRec := {}
  preIntact : Bool := false
  /-- A square of the last committed step has been written in the open step (R331). -/
  preDirty : Bool := false
  restoreState : Nat := 0
  /-- The commit record that a replay must reproduce (R342). -/
  replay : Option CommitRec := none
  /-- Stream positions that a restore recorded for START (R339). -/
  startPos : List (Nat × Nat × Nat × Nat) := []
  barrierDone : Bool := true
  snapPending : Bool := false
  /-- A commit has been closed since the capture was asked for (R336). -/
  snapCommitted : Bool := false
  snapCapturing : Bool := false
  snapReplayable : Bool := false
  /-- Mirror passes due or under way (R334). -/
  passes : List MPass := []
  holdSince : Option W64 := none
  deriving DecidableEq, Repr

/-- Mirror passes read the domain's committed planes (R333). -/
def Dom.mirrorActive (x : Dom) : Bool := !x.passes.isEmpty

/-! ### Job tables (chapters 08, 10, 12) -/

/-- A BANK section as the job area holds it, and its place in the image. -/
structure BankImg where
  board : Nat
  words : List W32
  offset : Nat := 0
  deriving DecidableEq, Repr

structure Job where
  id : Nat := 0
  seed : W64 := 0#64
  loadError : Nat := 0
  loadAt : W64 := 0#64
  loadTime : Nat := 0
  regions : Tbl (BitVec 128) := []
  pgroups : Tbl W64 := []
  rules : Tbl (List W32) := []
  groups : Tbl (BitVec 192) := []
  members : Tbl Nat := []
  epochs : Tbl Nat := []
  logical : Tbl Nat := []
  banks : List BankImg := []
  jobArea : Nat := 0
  /-- Digest of the loaded image (Table 13-12). -/
  digest : List Byte := []
  /-- Failed targets of each group: (group, fabric address). -/
  failed : List (Nat × Nat) := []
  /-- Host barriers started on each group since LOAD (R239). -/
  barriers : Tbl Nat := []
  deriving DecidableEq, Repr

/-! ### Stacks and Reckoners (chapters 07, 08) -/

/-- A version record (Table 07-4), the TAG8 that a void puts back (Table 07-7; log entry 19), and the three bits kept beside it (R331). -/
structure VRec where
  dirty : Bool := false
  p : Bool := false
  tag8 : Nat := 0
  was : Nat := 0
  lastc : Bool := false
  m0 : Bool := true
  m1 : Bool := true
  deriving DecidableEq, Repr

/-- Domain version register of a stack (Table 07-5). -/
structure DReg where
  isOpen : Bool := false
  openTag : Nat := 0
  committedTag : Nat := 0
  lastTag : Nat := 0
  lastOut : Nat := 0
  settling : Bool := false
  lost : Bool := false
  deriving DecidableEq, Repr

/-- A message of the scheduler core to a stack (R168). -/
inductive HubMsg where
  | openStep (d t : Nat)
  | commit (d t : Nat)
  | void (d t : Nat)
  deriving DecidableEq, Repr

/-- An update command (R176): header fields, payload, and where its WR_ACK goes (`none`: a local delivery). -/
structure Upd where
  tag : Nat
  group : Nat
  q : Nat
  mode : Bool
  voteW : Bool
  payload : List Byte
  reply : Option (Nat × Nat × Nat) := none     -- SRC, DEST, TXN_ID of the packet
  since : W64 := 0#64
  deriving DecidableEq, Repr

/-- A read held while it runs ahead of its domain (R171), or while all channels of the stack are tested (Table 15-2), and who asked for it:
a fetch, a stash read, a Board's own read, a gather, a rendezvous, another module, or the host's window. -/
inductive ReadFor where
  | fetch (b link fill line : Nat)
  | stash (b link fill line : Nat)
  | board (b : Nat)
  | gather (pkt : Pkt)
  | rendezvous (b entry : Nat)
  | remote (pkt : Pkt)
  | window (offset : Nat)
  deriving DecidableEq, Repr

structure HeldRead where
  who : ReadFor
  dpa : Nat
  lines : Nat
  tag : Nat
  domain : Nat
  since : W64
  deriving DecidableEq, Repr

structure Stack where
  vt : Tbl VRec := []
  regs : Tbl DReg := []
  inbox : List HubMsg := []
  held : List HubMsg := []
  reads : List HeldRead := []
  runs : List (BitVec 128) := []
  expected : Tbl Nat := []
  disposed : Tbl Nat := []
  doneSent : List Nat := []
  /-- Commands accepted and not yet processed; parked; held by the network while the park buffer is full (R190). -/
  queue : List Upd := []
  park : List Upd := []
  inq : List Upd := []
  /-- Uncorrectable lines, and lines whose next read will be a corrected one (R166, R167). -/
  bad : List Nat := []
  soft : List Nat := []
  /-- Uncorrectable 64-bit words of the version table (R168): record / 4. -/
  vtBad : List Nat := []
  rowTests : List Nat := []
  /-- Corrected lines whose rows have passed their test (R166). -/
  transients : Nat := 0
  /-- Channels with an uncorrectable line and the time of it (Table 15-2). -/
  ueTimes : List (Nat × W64) := []
  /-- The test of all channels is due (Table 15-2). -/
  testDue : Bool := false
  deriving DecidableEq, Repr

/-! ### Boards (chapters 03 to 06, 10, 16) -/

/-- Buffer-table entry (Table 05-4). State: 0 FREE, 1 FILLING, 2 FULL, 3 IN_USE, 4 QUARANTINED. -/
structure Buf where
  base : Nat := 0
  size : Nat := 0
  epoch : Nat := 0
  state : Nat := 0
  link : Nat := 0
  outstanding : Nat := 0
  deriving DecidableEq, Repr

/-- Link-table entry (Table 05-5). State: 0 IDLE, 1 ACTIVE, 2 SQUASHING. -/
structure Link where
  bufFirst : Nat := 0
  bufCount : Nat := 0
  mode : Nat := 0
  /-- The mode that the control core wants, taken up while the link is IDLE, and the mode of the job image (R118, R119). -/
  want : Nat := 0
  image : Nat := 0
  producer : Nat := 0
  consumer : Nat := 0
  fullSem : Nat := 0
  emptySem : Nat := 0
  epoch : Nat := 0
  filler : Bool := false
  persist : Bool := false
  fillPos : Nat := 0
  usePos : Nat := 0
  state : Nat := 0
  fills : Nat := 0
  /-- Handles pushed and not popped in handle-queue mode, oldest first (R118). -/
  handles : List Nat := []
  /-- Buffers being filled, in fill order: each is passed on only after those before it (R115, R118). -/
  filling : List Nat := []
  deriving DecidableEq, Repr

/-- Slice-table entry (Table 04-3). State: 0 IDLE, 1 FILLING, 2 COMPLETE, 3 REDUCING. -/
structure Slice where
  mCount : Nat := 0
  uCount : Nat := 0
  pCount : Nat := 0
  space : Nat := 0
  domain : Nat := 0
  fold : Bool := false
  tensor : Nat := 0
  nextMb : Nat := 0
  nextUse : Nat := 0
  nextPart : Nat := 0
  state : Nat := 0
  tag : Nat := 0
  deriving DecidableEq, Repr

/-- A bundle that a stream issues (R136): where it stands, and the actions still to come, by mask bit. -/
structure Issue where
  offset : Nat
  header : Nat
  acts : List Nat
  launch : Option Nat := none
  deriving DecidableEq, Repr

/-- A stream of the sequencer (R135, R148). -/
structure Stream where
  pos : Nat := 0
  /-- The twelve register groups, by mask bit. -/
  groups : Tbl Nat := []
  issue : Option Issue := none
  atSwap : Bool := false
  stopped : Bool := false
  /-- The wait of the next bundle has begun (R351). -/
  semWait : Bool := false
  deriving DecidableEq, Repr

/-- Identity of work launched by a bundle: `bundle` numbers the bundle on its Board. -/
structure Work where
  bundle : Nat := 0
  epoch : Nat := 0
  domain : Nat := 0
  tag : Nat := 0
  mb : Nat := 0
  layer : Nat := 0
  filler : Bool := false
  deriving DecidableEq, Repr

/-- A SEM signal that waits for the completion of its bundle's work (R136). -/
structure SemSig where
  kind : Nat
  sem : Nat
  n : Nat
  deriving DecidableEq, Repr

/-- A launch (R147): copies of FEED, FRAME, DRAIN and START; the operand buffers in use; tiles verdicted and written out. -/
structure Launch where
  id : Nat
  work : Work := {}
  feed : Nat := 0
  frame : Nat := 0
  drain : Nat := 0
  rowBufs : Tbl Nat := []
  rodBufs : Tbl Nat := []
  dstBufs : Tbl Nat := []
  verdicts : List Nat := []
  written : List Nat := []
  /-- Tiles discarded or abandoned. -/
  dropped : List Nat := []
  /-- A wrong beat met its pop under the expected tag (R156): the results of the launch are free values. -/
  garbled : Bool := false
  sig : Option SemSig := none
  deriving DecidableEq, Repr

/-- A drained tile (R67, R68): its drain buffer (0, 1), element values with a flag that an operand was an infinity, whether its verdict
has passed, and whether it waited under R95. -/
structure Tile where
  launch : Nat
  tile : Nat
  values : List W32 := []
  infIn : List Bool := []
  waited : Bool := false
  buf : Nat := 0
  ok : Bool := true
  deriving DecidableEq, Repr

/-- An entry of a feeder queue (R63): the beat's sequence tag, the block exponent, and the operand elements of one cycle. -/
structure FEntry where
  tag : Nat
  exp : Nat
  elems : List Nat
  deriving DecidableEq, Repr

/-- Frame state: passes not yet verdicted, in order (launch, tile), and what the Frame's units hold. -/
structure Frame where
  passes : List (Nat × Nat) := []
  /-- The tiles in the two drain buffers, oldest first. -/
  drains : List Tile := []
  gated : Bool := true
  /-- The 256 row feeder queues and the 32 Rod feeder queues, by queue, oldest entry first (R63). -/
  rowQ : Tbl (List FEntry) := []
  rodQ : Tbl (List FEntry) := []
  /-- The turn buffers (R65): the two squares of row group g under 2g and 2g + 1, those of the Rods under 8 and 9. -/
  turn : Tbl (List Byte) := []
  /-- The Deck, and drain buffer, of the next pass to drain (R66, R67). -/
  sel : Nat := 0
  /-- The accumulators of Deck 0 and 1, and beside each its proof row and its magnitude registers (R55, R70); a missing Deck is +0 in
  every cell. -/
  decks : Tbl (List W32) := []
  proofs : Tbl (List W32) := []
  mags : Tbl (List W32) := []
  /-- The proof check registers: proof cell and magnitude of each Rod (R66). -/
  checks : List (W32 × W32) := []
  deriving DecidableEq, Repr

/-- A Frame in a proof hold (R72): its pass, the mismatching Rods, the time of the verdict, and whether the self-test has passed. -/
structure ProofHold where
  frame : Nat
  launch : Nat
  tile : Nat
  rods : Nat
  tested : Bool := false
  since : W64 := 0#64
  deriving DecidableEq, Repr

/-- A stream hold (R117): the Frame and the launch whose pass waits for an operand buffer, or whose write-out for a destination. -/
structure StreamHold where
  frame : Nat
  launch : Nat
  write : Bool
  deriving DecidableEq, Repr

/-- A fill under way: its number in the run, its buffer, its lines, the first byte of a stash read's part, the lines that have
landed, and whether a line ended in an error. -/
structure Filling where
  fill : Nat
  handle : Nat
  lines : Nat
  base : Nat := 0
  landed : List Nat := []
  failed : Bool := false
  deriving DecidableEq, Repr

/-- The source of a stash read (R142): stack or board store, next byte, units left, and the range that it releases at its end. -/
structure StashRd where
  region : Bool
  addr : Nat
  left : Nat
  off : Nat
  size : Nat
  release : Bool
  deriving DecidableEq, Repr

/-- A fetch run (R138). -/
structure FetchRun where
  link : Nat
  src : Nat
  base : Nat
  runs : Nat
  run : Nat
  stride : Nat
  fills : Nat
  fabric : Nat
  work : Work := {}
  /-- Next fill to start, and the fills under way. -/
  next : Nat := 0
  going : List Filling := []
  stash : Option StashRd := none
  /-- Its epoch was squashed: what still lands is never read (R124). -/
  squashed : Bool := false
  deriving DecidableEq, Repr

/-- A stash write under way (R142): link, next destination byte (board store or DPA), units left. -/
structure StashWr where
  link : Nat
  region : Bool
  addr : Nat
  left : Nat
  work : Work := {}
  /-- Buffers of the link that the consumer has still to take up before the copies start. -/
  skip : Nat := 0
  deriving DecidableEq, Repr

/-- A Slate operation in its queue (R141): formats of its operands, the next band of 64 rows, its place in each link (a buffer and the
squares, or mask bytes, used of it), gamma and beta, and whether it repeats work that was counted. -/
structure SlateOp where
  id : Nat
  grp : Nat
  work : Work := {}
  fa : Fmt := .fp32
  fb : Fmt := .fp32
  fc : Fmt := .fp32
  band : Nat := 0
  curA : Option (Nat × Nat) := none
  curB : Option (Nat × Nat) := none
  curC : Option (Nat × Nat) := none
  curD : Option (Nat × Nat) := none
  curE : Option (Nat × Nat) := none
  vecB : List W32 := []
  vecC : List W32 := []
  /-- Buffers of gamma and beta: (link, handle), released at the end. -/
  keep : List (Nat × Nat) := []
  /-- The drained tiles handed over (tile, values, infinity flags), and FRAME of their launch. -/
  tiles : List (Nat × List W32 × List Bool) := []
  frame : Nat := 0
  again : Bool := false
  deriving DecidableEq, Repr

/-- A gather run (R225) and a pending slot. -/
structure GRun where
  id : Nat
  first : Nat
  count : Nat
  group : Nat
  dest : Nat
  sem : Nat
  copy : Nat
  keep : Bool
  work : Work := {}
  next : Nat := 0
  landed : Nat := 0
  deriving DecidableEq, Repr

structure GSlot where
  run : Nat
  k : Nat
  pgroup : Nat
  q : Nat
  owner : Nat
  txn : Nat
  deriving DecidableEq, Repr

/-- A rendezvous entry (R227), under the group's epoch of its requests. Waiting members: (source, TXN_ID, DEST). -/
structure Rdv where
  id : Nat
  group : Nat
  gepoch : Nat
  fan : Nat
  tag : Nat
  comp : Nat
  pgroup : Nat
  q : Nat
  stack : Nat
  waiting : List (Nat × Nat × Nat)
  since : W64
  sent : Bool := false
  txn : Nat := 0
  deriving DecidableEq, Repr

/-- A reduction under way (R144, R231 to R237): the slices read out so far and their values; the square being worked on, its sum once
formed, whether the sum has been sent, and at the owner of a split sum the next part and the sum of those before it. -/
structure RJob where
  id : Nat
  first : Nat
  count : Nat
  group : Nat
  vote : Bool
  wire : Nat
  sem : Nat
  work : Work := {}
  read : Nat := 0
  held : List (Nat × List W32) := []
  sigma : Nat
  sum : Option (List W32) := none
  sent : Bool := false
  part : Nat := 0
  acc : List W32 := []
  /-- A square named no usable entry of the shard map, or met a wrong hop (R232): nothing more is sent or added. -/
  stuck : Bool := false
  deriving DecidableEq, Repr

/-- A hop held in a reduce receive buffer (R235). -/
structure RHop where
  pkt : Pkt
  epoch : Nat
  sigma : Nat
  deriving DecidableEq, Repr

/-- A bead entry being followed (Table 16-9). -/
structure Bead where
  k : Nat
  bundle : Nat
  /-- The bundle launched a layer. -/
  layered : Bool := false
  tIssue : Nat
  fetchIssue : Nat := 0xFFFFFFFF
  fetchDone : Nat := 0xFFFFFFFF
  execStart : Nat := 0xFFFFFFFF
  execEnd : Nat := 0xFFFFFFFF
  /-- FCLK cycles of holds since EXEC_START. -/
  held : Nat := 0
  layer : Nat
  mb : Nat
  offset : Nat
  epoch : Nat
  filler : Bool
  deriving DecidableEq, Repr

/-- A Board's halt (R150): asked for; its domains voided and squashed, other work running to its end; HALTED. -/
inductive HaltState where
  | none | halting | ending | halted
  deriving DecidableEq, Repr

/-- Work of a Board's control core (Table 13-2): a write of the loading of a bank (R130), or the record of a fault. -/
inductive LoadReq where
  | begin
  | word (bank : Bool) (offset : Nat) (w : W32)
  | finish
  | fault (f : Flt)
  deriving DecidableEq, Repr

/-- The fault whose record waits. -/
def LoadReq.flt : LoadReq → Option Flt
  | .fault f => some f
  | _ => none

/-- A Board. -/
structure Board where
  partTally : Nat := 0
  partStash : Nat := 0
  partGather : Nat := 0
  partStream : Nat := 0
  bufs : Tbl Buf := []
  links : Tbl Link := []
  slices : Tbl Slice := []
  sems : Tbl Nat := []
  bsems : Tbl Nat := []
  bsemOut : List (Nat × Nat × Nat) := []
  bsemEpoch : Tbl Nat := []
  /-- Epochs whose Beam signals are discarded until a bundle of the epoch issues (R238). -/
  bsemShut : List Nat := []
  stash : List StashPlan := []
  mapDpa : Nat := 0
  mapCount : Nat := 0
  gatherRegion : Option Nat := none
  bank0 : Tbl W32 := []
  bank1 : Tbl W32 := []
  active : Nat := 0
  /-- 0 EMPTY, 1 LOADING, 2 READY, 3 INVALID. -/
  inactState : Nat := 0
  started : Bool := false
  firstBank : Bool := true
  main : Stream := {}
  fill : Stream := {}
  launches : List Launch := []
  /-- SEM signals that wait for the work of a bundle without a launch: bundle number, epoch, signal (R136). -/
  sigs : List (Nat × Nat × SemSig) := []
  nextId : Nat := 0
  frames : Tbl Frame := []
  /-- The Frames of the proof hold in force, in the order in which they are handled (Table 03-5). -/
  hold : List ProofHold := []
  streamHold : Option StreamHold := none
  /-- The waiting contributions (launch, tile) of the Tally hold in force (R95). -/
  tallyFor : List (Nat × Nat) := []
  /-- The held part of a duty window has come (R315). -/
  dutyHold : Bool := false
  fetches : List FetchRun := []
  rearms : List FetchRun := []
  stashWrs : List StashWr := []
  slates : List SlateOp := []
  gruns : List GRun := []
  gslots : List GSlot := []
  kept : List (Nat × Nat × Nat × Nat) := []
  rdv : List Rdv := []
  /-- Gather requests that wait on their credits while the rendezvous table is full (R227). -/
  rdvWait : List Pkt := []
  rjobs : List RJob := []
  hops : List RHop := []
  /-- Reduce credits held: (member, epoch, count); buffers granted: (member, epoch). -/
  credits : List (Nat × Nat × Nat) := []
  granted : List (Nat × Nat × Nat) := []
  /-- Squashed epochs whose hops are discarded until a REDUCE is issued under them again (R235). -/
  hopShut : List Nat := []
  /-- Domains whose STEP_DONE the main stream has passed in the open step, and those reported. -/
  stepDone : List Nat := []
  reported : List Nat := []
  halt : HaltState := .none
  /-- Faults whose records the control core writes when the Board enters HALTED (R150), oldest first, and their domains. -/
  haltFaults : List Flt := []
  haltDomains : List Nat := []
  seqFaultInfo : Nat := 0
  /-- Tiles already written out in the step: (domain, tag, micro-batch, tile or operation number, slate). -/
  seen : List (Nat × Nat × Nat × Nat × Bool) := []
  /-- Uncorrectable words, and words whose next read will be a corrected one (R100). -/
  storeBad : List Nat := []
  storeSoft : List Nat := []
  storeTests : List Nat := []
  /-- Words whose rows have passed their March test (R324). -/
  transients : Nat := 0
  /-- Buffers withdrawn from their link's pool: a row of theirs was spared (R118). -/
  withdrawn : List Nat := []
  /-- The last squash has not completed (R124, R128). -/
  squashing : Bool := false
  lastChange : W64 := 0#64
  squashAt : W64 := 0#64
  wakeMask : Nat := 0
  slot : Tbl (Nat × Nat × Nat × Nat × Nat) := []
  /-- In DEEP_SLEEP (R311). -/
  asleep : Bool := true
  cycles : W64 := 0#64
  counters : Tbl (Nat × Bool) := []
  ctl : Tbl Nat := []
  beadK : Nat := 0
  beadOff : Nat := 0
  beads : List Bead := []
  beadBuf : Tbl (BitVec 512) := []
  /-- Table loads and fault records that wait for a control core that restarts (R285), oldest first. -/
  loadWaits : List LoadReq := []
  deriving DecidableEq, Repr

/-! ### Ports and fabric (chapter 09) -/

inductive PortState where
  | disabled | training | up | retrain | down
  deriving DecidableEq, Repr

/-- A flit that has been sent and not acknowledged; the last flit of a packet carries the packet. -/
structure Sent where
  seq : Nat
  bytes : List Byte
  pool : Nat
  pkt : Option Pkt := none
  deriving DecidableEq, Repr

/-- A packet routed to a port and not yet sent. One that came by another port keeps its place in that port's receive buffer, in the pool
`pool`, until it leaves (R206). -/
structure Queued where
  pkt : Pkt
  arrival : Option Nat := none
  pool : Nat := 0
  /-- The packet is for this port and no other: no unicast route chose it (R213 to R218). -/
  bound : Bool := false
  deriving DecidableEq, Repr

/-- A packet under transmission: the number of its next flit (R203, R207). -/
structure Sending where
  q : Queued
  next : Nat
  deriving DecidableEq, Repr

structure Port where
  state : PortState := .disabled
  width : Nat := 0
  failed : Nat := 0
  /-- The lane map of the peer's link parameters (R199). -/
  peerLanes : Nat := 15
  peerDevice : Nat := 0xFFFF
  peerPort : Nat := 0xFF
  txSeq : Nat := 0
  rxNext : Nat := 0
  /-- Flits sent and not acknowledged, oldest first. -/
  replay : List Sent := []
  credits : Tbl Nat := []
  /-- Packets routed to the port and not yet sent, oldest first. -/
  queue : List Queued := []
  /-- Packets whose flits are going out, at most one in a pool. -/
  sending : List Sending := []
  /-- Flits in the receive buffer, by pool; the credits still to be returned for those that have left it; and an acknowledgement that is
  still to be sent (R206, R207). -/
  rx : Tbl Nat := []
  owed : Tbl Nat := []
  owesAck : Bool := false
  /-- Pools whose packet under reception has a flit with a nonzero reserved field (R208). -/
  badWord : List Nat := []
  /-- Bulk flits sent since the last control flit, up to 3, and per class whether the last flit was of a response (R207). -/
  bulkRun : Nat := 3
  lastRsp : Tbl Bool := []
  /-- Payload of the packet being received on each virtual channel. -/
  partialPkts : Tbl (List (List Byte)) := []
  failAt : W64 := 0#64
  /-- The retrain under way is a lane failover (R201), not a PORT_RESTORE. -/
  failover : Bool := false
  /-- Lane faults that the pattern test found transient (R202). -/
  transients : Nat := 0
  deriving DecidableEq, Repr

/-- A request that the module sent and that has no answer yet (R209). -/
inductive TxnKind where
  | fetch (b link fill line : Nat)
  | gather (b run k : Nat)
  | write (b link handle : Nat)
  | reduce (b : Nat) (epoch : Nat)
  | update (b : Nat)
  | mirror (s d region square : Nat)
  | multicast (b entry : Nat)
  | vote (group : Nat)
  /-- A read of the mirror partner's lines for a restore (R338). -/
  | restore (region line : Nat)
  | other
  deriving DecidableEq, Repr

structure Txn where
  id : Nat
  kind : TxnKind
  since : W64
  deriving DecidableEq, Repr

/-- A multicast forked at a port die and not acknowledged by every branch (R215). -/
structure McFork where
  group : Nat
  src : Nat
  txn : Nat
  upPort : Option Nat
  left : Nat
  failedCount : Nat := 0
  firstFailed : Nat := 0
  code : Nat := 0
  deriving DecidableEq, Repr

/-- A copy in a hold slot (R216). -/
structure Held where
  die : Nat
  port : Nat
  pkt : Pkt
  since : W64
  deriving DecidableEq, Repr

/-- A square open at the module's combine point of a vote (R237): the counts so far, the elements that carry the reserved code, and the
contributors (Boards 0 to 15, ports 32 + p) with the address that gets the credit back. -/
structure Vote where
  group : Nat
  sigma : Nat
  tag : Nat
  pgroup : Nat
  q : Nat
  counts : List Int
  reserved : List Bool
  came : List (Nat × Nat) := []
  deriving DecidableEq, Repr

/-- A Beam message sent and not acknowledged (R241), and the last message acted on per sender. -/
structure Beam where
  port : Nat
  pkt : Pkt
  deriving DecidableEq, Repr

/-- A packet at the input of a port die whose router has stopped taking input (R216): its arrival port, and output ports at which its copy
is to be discarded as failed (R217). -/
structure Stalled where
  arrival : Option Nat
  pkt : Pkt
  dead : List Nat := []
  deriving DecidableEq, Repr

structure Fabric where
  txns : List Txn := []
  nextTxn : Nat := 0
  /-- Transaction numbers used, and when (R209). -/
  txnUsed : List (Nat × W64) := []
  forks : List McFork := []
  holds : List Held := []
  votes : List Vote := []
  /-- Squares sent up to the next module and not yet closed there: (group, domain) (R237). -/
  voteSent : List (Nat × Nat) := []
  /-- Vote packets that wait for a free square of their combine point: contributor and packet. -/
  voteWait : List (Nat × Pkt) := []
  unacked : List Beam := []
  /-- ROUND per (group, direction: 1 down) sent, and per (group, direction, sender port) acted on. -/
  roundOut : List (Nat × Nat × Nat) := []
  roundIn : List (Nat × Nat × Nat × Nat) := []
  /-- Barrier arrivals: (group, barrier number, port; 24 the module itself; modules combined). -/
  barriers : List (Nat × Nat × Nat × Nat) := []
  /-- Ports that came into service or left it, whose groups switch to a new set, and the packets that wait for it: arrival port and
  packet (R213). -/
  switching : List Nat := []
  routeWait : List (Option Nat × Pkt) := []
  /-- Packets that wait at the input of a port die (R216), oldest first. -/
  stalled : List Stalled := []
  /-- Requests handed to the package and not yet taken up there, with their arrival port: they keep their place in its buffer (R190,
  R206, R227). -/
  onPackage : List (Nat × Pkt) := []
  tbState : Nat := 0
  tbGood : Nat := 0
  /-- Last offset from the master, ps; the rate of the last slew, ps per second; time of the last sync; what was left to slew, ps; and the
  part of a ns that HOLDOVER has gathered, in 10^-12 ns (R218, R219). -/
  tbOffset : Int := 0
  tbRate : Int := 0
  tbLast : W64 := 0#64
  tbSlew : Int := 0
  tbFrac : Int := 0
  deriving DecidableEq, Repr

/-! ### Fault log, snapshots, counters (chapters 15, 16) -/

structure FaultLog where
  /-- Records in hub RAM, oldest first. -/
  ram : List (Nat × BitVec 512) := []
  nextSeq : Nat := 1
  dropped : Nat := 0
  /-- Last record of each (code, unit kind, unit): its SEQ and time. -/
  last : List (Nat × Nat × Nat × Nat × W64) := []
  deriving DecidableEq, Repr

/-- A section of the snapshot stream (Table 15-9): TYPE, TARGET and its bytes. -/
structure SnapPart where
  type : Nat
  target : Nat := 0
  bytes : List Byte
  deriving DecidableEq, Repr

structure Snap where
  /-- 0 IDLE to 5 RESTORING (Table 15-12). -/
  state : Nat := 0
  error : Nat := 0
  length : Nat := 0
  isExport : Bool := false
  replayDiff : Nat := 0
  holdMax : Nat := 0
  /-- What the accepted SNAP_CONTROL names: domains, target, address, capacity, and of a restore its point, epoch, groups and retag. -/
  domains : List Nat := []
  target : Nat := 0
  addr : Nat := 0
  bytes : Nat := 0
  point : Nat := 0
  epoch : Nat := 0
  keepGroups : Bool := false
  retag : Bool := false
  /-- SNAP_STATE before a restore was accepted. -/
  before : Nat := 0
  /-- What the engine has read for the stream: its parts, and the rule slots of the domains captured; the squares that it has still to read,
  and those that it has read, by region (R336). -/
  parts : List SnapPart := []
  rules : List (Nat × List W32) := []
  left : List (Nat × Nat) := []
  got : List (Nat × RestoredSquare) := []
  /-- A restore from the mirror partner (R338): lines still to be asked for, (region, line, lines); those that came, (region, line, bytes);
  and the set chosen for each domain. -/
  want : List (Nat × Nat × Nat) := []
  came : List (Nat × Nat × List Byte) := []
  sets : List (Nat × Nat) := []
  deriving DecidableEq, Repr

structure Nines where
  width : Nat := 64
  poly : W64 := 0x42F0E1EBA9EA3693#64
  init : W64 := 0xFFFFFFFFFFFFFFFF#64
  xorout : W64 := 0xFFFFFFFFFFFFFFFF#64
  flags : Nat := 0
  expected : W64 := 0#64
  src : Nat := 0
  bytes : Nat := 0
  /-- 0 IDLE, 1 RUNNING, 2 DONE, 3 ERROR; OWNED is derived (R349). -/
  state : Nat := 0
  running : W64 := 0xFFFFFFFFFFFFFFFF#64
  result : W64 := 0#64
  mismatch : Bool := false
  bytesDone : Nat := 0
  mismatches : Nat := 0
  deriving DecidableEq, Repr

structure Freeze where
  frozen : Bool := false
  /-- Freezes and thaws that wait for their tick, in order of it: (tick, freeze). -/
  due : List (Nat × Bool) := []
  freezeTick : Nat := 0
  thawTick : Nat := 0
  late : Nat := 0
  deriving DecidableEq, Repr

structure Counters where
  nines : Tbl Nines := []
  block : Tbl (Nat × Bool) := []
  readerOn : Bool := false
  readerProd : Nat := 0
  readerSkipped : Nat := 0
  freeze : Freeze := {}
  deriving DecidableEq, Repr

/-! ### The module -/

structure State where
  /-- The commands that wait, first in, first out. -/
  pending : List Instr := []
  /-- The 64-bit time counter (Table 14-1), ns. -/
  time : W64 := 0#64
  /-- The model's own counter of free values drawn. -/
  fresh : Nat := 0
  /-- The model's own record of what left the module, newest first. -/
  out : List Out := []
  ident : Ident := {}
  /-- Dictionary entries held as plain registers, by unit, index and subindex; a missing key holds the entry's default. -/
  regs : Tbl Nat := []
  /-- STR and BLOB values that software writes, and their change counts (R266). -/
  blobs : Tbl (List Byte) := []
  vers : Tbl Nat := []
  flash : Flash := {}
  fw : Firmware := {}
  dev : Dev := {}
  host : HostLink := {}
  paths : Paths := {}
  can : Can := {}
  pwr : Power := {}
  doms : Tbl Dom := []
  job : Job := {}
  stks : Tbl Stack := []
  boards : Tbl Board := []
  /-- Stack memory by DPA, and the board stores: key board × 2^27 + address. -/
  dram : Mem := []
  store : Mem := []
  ports : Tbl Port := []
  fab : Fabric := {}
  log : FaultLog := {}
  snap : Snap := {}
  cnt : Counters := {}
  deriving DecidableEq, Repr

/-- The module right after reset (power-on): the always-on domain runs, DEVICE_STATE is STANDBY, every register holds its reset
value, no job is loaded and no memory is listed. -/
def State.reset : State := {}

end Sys2Proof.Machine
end

