-- ==== Sys2Proof/Machine/Table.lean ====
section
/-!
DEFINITION. Machine/Table.lean: reading and writing sparse tables and byte memories, and the module's unit tables.
-/
namespace Sys2Proof.Machine

/-- The entry of a key, or the default. -/
def tget {α : Type} (t : Tbl α) (k : Nat) (d : α) : α := (t.lookup k).getD d

/-- The table with one entry replaced; keys stay in rising order. -/
def tset {α : Type} (t : Tbl α) (k : Nat) (v : α) : Tbl α :=
  t.filter (fun e => e.1 < k) ++ (k, v) :: t.filter (fun e => k < e.1)

def tdel {α : Type} (t : Tbl α) (k : Nat) : Tbl α := t.filter (fun e => e.1 != k)

def tmod {α : Type} (t : Tbl α) (k : Nat) (d : α) (f : α → α) : Tbl α := tset t k (f (tget t k d))

/-! ### Memory -/

/-- What an unlisted address reads as: 0 (DESIGN CHOICE, log entry 3). -/
def Mem.blank : Byte := 0#8

/-- The byte at an address. -/
def Mem.get (m : Mem) (a : Nat) : Byte := (m.lookup a).getD Mem.blank

/-- The cells of a run of bytes, without those that equal what an unlisted address reads as. -/
def Mem.cells : Nat → List Byte → Mem
  | _, [] => []
  | a, b :: bs => if b = Mem.blank then Mem.cells (a + 1) bs else (a, b) :: Mem.cells (a + 1) bs

/-- Bytes written from an address on. -/
def Mem.write (m : Mem) (a : Nat) (bs : List Byte) : Mem :=
  m.filter (fun e => e.1 < a) ++ Mem.cells a bs ++ m.filter (fun e => a + bs.length ≤ e.1)

/-- n bytes from an address on. -/
def Mem.read (m : Mem) (a n : Nat) : List Byte := (List.range n).map (fun i => m.get (a + i))

/-- A memory with no cell in a range. -/
def Mem.clear (m : Mem) (a n : Nat) : Mem := m.filter (fun e => e.1 < a || a + n ≤ e.1)

/-- The canonical form: addresses strictly rising, no entry equal to what an unlisted address reads as. -/
def Mem.wf : Mem → Bool
  | [] => true
  | [e] => e.2 != Mem.blank
  | e :: f :: m => e.2 != Mem.blank && e.1 < f.1 && Mem.wf (f :: m)

/-! ### Unit tables -/

def State.dom (s : State) (d : Nat) : Dom := tget s.doms d {}
def State.setDom (s : State) (d : Nat) (x : Dom) : State := { s with doms := tset s.doms d x }
def State.modDom (s : State) (d : Nat) (f : Dom → Dom) : State := s.setDom d (f (s.dom d))

def State.stack (s : State) (k : Nat) : Stack := tget s.stks k {}
def State.setStack (s : State) (k : Nat) (x : Stack) : State := { s with stks := tset s.stks k x }
def State.modStack (s : State) (k : Nat) (f : Stack → Stack) : State := s.setStack k (f (s.stack k))

def State.board (s : State) (b : Nat) : Board := tget s.boards b {}
def State.setBoard (s : State) (b : Nat) (x : Board) : State := { s with boards := tset s.boards b x }
def State.modBoard (s : State) (b : Nat) (f : Board → Board) : State := s.setBoard b (f (s.board b))

def State.port (s : State) (p : Nat) : Port := tget s.ports p {}
def State.setPort (s : State) (p : Nat) (x : Port) : State := { s with ports := tset s.ports p x }
def State.modPort (s : State) (p : Nat) (f : Port → Port) : State := s.setPort p (f (s.port p))

def State.emit (s : State) (o : Out) : State := { s with out := o :: s.out }

/-- Apply a state change for each element of a list, in order. -/
def forEach {α : Type} (l : List α) (f : α → State → State) (s : State) : State := l.foldl (fun s a => f a s) s

/-- A saturating sum. -/
def satAdd (bits a b : Nat) : Nat := min (a + b) (2 ^ bits - 1)

def testBit (n i : Nat) : Bool := (n >>> i) % 2 == 1

/-- Bit i of n set. -/
def orBit (n i : Nat) : Nat := if testBit n i then n else n + 2 ^ i

/-- Bit i of n cleared. -/
def clrBit (n i : Nat) : Nat := if testBit n i then n - 2 ^ i else n

/-- n without the bits of m. -/
def andNot (n m : Nat) : Nat := n - (n &&& m)

def bitList (n width : Nat) : List Nat := (List.range width).filter (testBit n)

def popCount (n width : Nat) : Nat := (bitList n width).length

/-- A list with the element at an index replaced. -/
def setAt {α : Type} (l : List α) (i : Nat) (v : α) : List α := l.set i v

end Sys2Proof.Machine
end

