-- ==== Sys2Proof/Machine/Dict.lean ====
section
/-!
DEFINITION. Machine/Dict.lean: the entries of the object dictionary, one constant for each, from the dictionary tables of the
chapters (R7, R8, R282): index, subindex, indices the row stands for, type and access codes of Table 12-4, default,
persistence, largest length.
-/
namespace Sys2Proof.Machine

/-- A dictionary entry. `span` is the number of indices that the row stands for (0x2400+d: 256). -/
structure Reg where
  index : Nat
  sub : Nat
  span : Nat
  ty : Nat
  acc : Nat
  dflt : Nat
  persist : Bool
  maxLen : Nat
  deriving DecidableEq, Repr

def Reg.vendor : Reg := ⟨0x1000, 0x01, 1, 8, 1, 0, false, 8⟩
def Reg.product : Reg := ⟨0x1000, 0x02, 1, 8, 1, 0, false, 13⟩
def Reg.orderCode : Reg := ⟨0x1000, 0x03, 1, 8, 1, 0, false, 8⟩
def Reg.grade : Reg := ⟨0x1000, 0x04, 1, 2, 1, 0, false, 1⟩
def Reg.disabledBoards : Reg := ⟨0x1000, 0x05, 1, 3, 1, 0, false, 2⟩
def Reg.retiredBoards : Reg := ⟨0x1000, 0x06, 1, 3, 1, 0, true, 2⟩
def Reg.serial : Reg := ⟨0x1000, 0x07, 1, 8, 1, 0, false, 16⟩
def Reg.hwRevision : Reg := ⟨0x1000, 0x08, 1, 2, 1, 0, false, 1⟩
def Reg.pciVendorId : Reg := ⟨0x1000, 0x09, 1, 3, 1, 0, false, 2⟩
def Reg.pciDeviceId : Reg := ⟨0x1000, 0x0A, 1, 3, 1, 0x0016, false, 2⟩
def Reg.manifest : Reg := ⟨0x1000, 0x0B, 1, 9, 1, 0, false, 8192⟩
def Reg.nodeId : Reg := ⟨0x1100, 0x01, 1, 2, 4, 0, true, 1⟩
def Reg.nodeIdPersist : Reg := ⟨0x1100, 0x02, 1, 1, 4, 0, true, 1⟩
def Reg.canEnable : Reg := ⟨0x1100, 0x03, 1, 1, 4, 1, true, 1⟩
def Reg.canArbRate : Reg := ⟨0x1100, 0x04, 1, 4, 1, 1000000, false, 4⟩
def Reg.canDataRate : Reg := ⟨0x1100, 0x05, 1, 4, 1, 5000000, false, 4⟩
def Reg.heartbeatPeriod : Reg := ⟨0x1100, 0x06, 1, 3, 4, 1000, true, 2⟩
def Reg.notifyMaskCan : Reg := ⟨0x1100, 0x07, 1, 3, 2, 0x01FE, true, 2⟩
def Reg.canState : Reg := ⟨0x1100, 0x08, 1, 2, 1, 0, false, 1⟩
def Reg.canTec : Reg := ⟨0x1100, 0x09, 1, 2, 1, 0, false, 1⟩
def Reg.canRec : Reg := ⟨0x1100, 0x0A, 1, 2, 1, 0, false, 1⟩
def Reg.canBusoffCount : Reg := ⟨0x1100, 0x0B, 1, 4, 1, 0, false, 4⟩
def Reg.canIgnored : Reg := ⟨0x1100, 0x0C, 1, 4, 1, 0, false, 4⟩
def Reg.chainIn : Reg := ⟨0x1100, 0x0D, 1, 1, 1, 0, false, 1⟩
def Reg.chainOut : Reg := ⟨0x1100, 0x0E, 1, 1, 1, 0, false, 1⟩
def Reg.writePaths : Reg := ⟨0x1100, 0x0F, 1, 2, 4, 0x07, true, 1⟩
def Reg.hostMode : Reg := ⟨0x1110, 0x01, 1, 2, 1, 0, false, 1⟩
def Reg.linkWidth : Reg := ⟨0x1110, 0x02, 1, 2, 1, 0, false, 1⟩
def Reg.linkRate : Reg := ⟨0x1110, 0x03, 1, 2, 1, 0, false, 1⟩
def Reg.cacheEnabled : Reg := ⟨0x1110, 0x04, 1, 1, 1, 0, false, 1⟩
def Reg.memEnabled : Reg := ⟨0x1110, 0x05, 1, 1, 1, 0, false, 1⟩
def Reg.memoryActive : Reg := ⟨0x1110, 0x06, 1, 1, 1, 0, false, 1⟩
def Reg.hdmSize : Reg := ⟨0x1110, 0x07, 1, 5, 1, 0, false, 8⟩
def Reg.windowFaults : Reg := ⟨0x1110, 0x08, 1, 4, 1, 0, false, 4⟩
def Reg.fabricDevice : Reg := ⟨0x1120, 0x01, 1, 3, 5, 0xFFFF, false, 2⟩
def Reg.fmAddress : Reg := ⟨0x1120, 0x02, 1, 3, 4, 0xFFFF, true, 2⟩
def Reg.notifyMaskFabric : Reg := ⟨0x1120, 0x03, 1, 3, 2, 0x0020, true, 2⟩
def Reg.deviceState : Reg := ⟨0x2000, 0x01, 1, 2, 1, 1, false, 1⟩
def Reg.stateRequest : Reg := ⟨0x2000, 0x02, 1, 2, 3, 0, false, 1⟩
def Reg.stateTime : Reg := ⟨0x2000, 0x03, 1, 5, 1, 0, false, 8⟩
def Reg.resetRequest : Reg := ⟨0x2000, 0x04, 1, 2, 3, 0, false, 1⟩
def Reg.autoReady : Reg := ⟨0x2000, 0x05, 1, 1, 4, 1, true, 1⟩
def Reg.safeCause : Reg := ⟨0x2000, 0x06, 1, 2, 1, 0, false, 1⟩
def Reg.bootServiceTime : Reg := ⟨0x2000, 0x07, 1, 4, 1, 0, false, 4⟩
def Reg.bootReadyTime : Reg := ⟨0x2000, 0x08, 1, 4, 1, 0, false, 4⟩
def Reg.coreSel : Reg := ⟨0x2000, 0x09, 1, 2, 2, 0, false, 1⟩
def Reg.coreState : Reg := ⟨0x2000, 0x0A, 1, 2, 1, 0, false, 1⟩
def Reg.wdogExpiries : Reg := ⟨0x2000, 0x0B, 1, 4, 1, 0, false, 4⟩
def Reg.wdogLastTime : Reg := ⟨0x2000, 0x0C, 1, 5, 1, 0, false, 8⟩
def Reg.lastReset : Reg := ⟨0x2000, 0x0D, 1, 2, 1, 0, false, 1⟩
def Reg.irqCause : Reg := ⟨0x2010, 0x01, 1, 5, 2, 0, false, 8⟩
def Reg.domainCause0 : Reg := ⟨0x2010, 0x02, 1, 5, 2, 0, false, 8⟩
def Reg.domainCause1 : Reg := ⟨0x2010, 0x03, 1, 5, 2, 0, false, 8⟩
def Reg.domainCause2 : Reg := ⟨0x2010, 0x04, 1, 5, 2, 0, false, 8⟩
def Reg.domainCause3 : Reg := ⟨0x2010, 0x05, 1, 5, 2, 0, false, 8⟩
def Reg.jobControl : Reg := ⟨0x2100, 0x01, 1, 2, 3, 0, false, 1⟩
def Reg.jobState : Reg := ⟨0x2100, 0x02, 1, 2, 1, 0, false, 1⟩
def Reg.jobImageAddr : Reg := ⟨0x2100, 0x03, 1, 5, 4, 0, false, 8⟩
def Reg.jobImageBytes : Reg := ⟨0x2100, 0x04, 1, 4, 4, 0, false, 4⟩
def Reg.jobSeed : Reg := ⟨0x2100, 0x05, 1, 5, 4, 0, false, 8⟩
def Reg.jobId : Reg := ⟨0x2100, 0x06, 1, 5, 1, 0, false, 8⟩
def Reg.jobLoadError : Reg := ⟨0x2100, 0x07, 1, 4, 1, 0, false, 4⟩
def Reg.jobLoadTime : Reg := ⟨0x2100, 0x08, 1, 4, 1, 0, false, 4⟩
def Reg.domainSel : Reg := ⟨0x2101, 0x01, 1, 2, 2, 0, false, 1⟩
def Reg.domainUsed : Reg := ⟨0x2101, 0x02, 1, 1, 1, 0, false, 1⟩
def Reg.mbPerStep : Reg := ⟨0x2101, 0x03, 1, 3, 1, 0, false, 2⟩
def Reg.initTag : Reg := ⟨0x2101, 0x04, 1, 4, 1, 0, false, 4⟩
def Reg.domainBoards : Reg := ⟨0x2101, 0x05, 1, 3, 1, 0, false, 2⟩
def Reg.domainEpochs : Reg := ⟨0x2101, 0x06, 1, 9, 1, 0, false, 32⟩
def Reg.admitWatchdog : Reg := ⟨0x2110, 0x01, 1, 4, 4, 50, true, 4⟩
def Reg.streamWatchdog : Reg := ⟨0x2110, 0x02, 1, 4, 4, 10, true, 4⟩
def Reg.updateWait : Reg := ⟨0x2110, 0x03, 1, 4, 4, 20, true, 4⟩
def Reg.rendezvousWait : Reg := ⟨0x2110, 0x04, 1, 4, 4, 200, true, 4⟩
def Reg.commitWait : Reg := ⟨0x2110, 0x05, 1, 4, 4, 100, true, 4⟩
def Reg.barrierStart : Reg := ⟨0x2110, 0x06, 1, 3, 3, 0, false, 2⟩
def Reg.pgroupSel : Reg := ⟨0x2120, 0x01, 1, 3, 2, 0, false, 2⟩
def Reg.pgroupEntry : Reg := ⟨0x2120, 0x02, 1, 5, 1, 0, false, 8⟩
def Reg.pgroupFrozen : Reg := ⟨0x2120, 0x03, 1, 1, 5, 0, false, 1⟩
def Reg.stepRecord : Reg := ⟨0x2200, 0x01, 256, 9, 3, 0, false, 16⟩
def Reg.srTag : Reg := ⟨0x2200, 0x02, 256, 4, 1, 0, false, 4⟩
def Reg.srEta : Reg := ⟨0x2200, 0x03, 256, 7, 1, 0, false, 4⟩
def Reg.srK1 : Reg := ⟨0x2200, 0x04, 256, 7, 1, 0, false, 4⟩
def Reg.srK2 : Reg := ⟨0x2200, 0x05, 256, 7, 1, 0, false, 4⟩
def Reg.srArmTime : Reg := ⟨0x2200, 0x06, 256, 5, 1, 0, false, 8⟩
def Reg.ruleWord1 : Reg := ⟨0x2300, 0x01, 256, 7, 5, 0, false, 4⟩
def Reg.ruleWord2 : Reg := ⟨0x2300, 0x02, 256, 7, 5, 0, false, 4⟩
def Reg.ruleWord3 : Reg := ⟨0x2300, 0x03, 256, 7, 5, 0, false, 4⟩
def Reg.ruleWord4 : Reg := ⟨0x2300, 0x04, 256, 7, 5, 0, false, 4⟩
def Reg.ruleWord5 : Reg := ⟨0x2300, 0x05, 256, 7, 5, 0, false, 4⟩
def Reg.ruleWord6 : Reg := ⟨0x2300, 0x06, 256, 7, 5, 0, false, 4⟩
def Reg.ruleWord7 : Reg := ⟨0x2300, 0x07, 256, 7, 5, 0, false, 4⟩
def Reg.ruleWord8 : Reg := ⟨0x2300, 0x08, 256, 7, 5, 0, false, 4⟩
def Reg.ruleWord9 : Reg := ⟨0x2300, 0x09, 256, 7, 5, 0, false, 4⟩
def Reg.ruleWord10 : Reg := ⟨0x2300, 0x0A, 256, 7, 5, 0, false, 4⟩
def Reg.ruleWord11 : Reg := ⟨0x2300, 0x0B, 256, 7, 5, 0, false, 4⟩
def Reg.ruleWord12 : Reg := ⟨0x2300, 0x0C, 256, 7, 5, 0, false, 4⟩
def Reg.ruleWord13 : Reg := ⟨0x2300, 0x0D, 256, 7, 5, 0, false, 4⟩
def Reg.ruleWord14 : Reg := ⟨0x2300, 0x0E, 256, 7, 5, 0, false, 4⟩
def Reg.ruleWord15 : Reg := ⟨0x2300, 0x0F, 256, 7, 5, 0, false, 4⟩
def Reg.ruleWord16 : Reg := ⟨0x2300, 0x10, 256, 7, 5, 0, false, 4⟩
def Reg.ruleMode : Reg := ⟨0x2300, 0x11, 256, 4, 5, 0, false, 4⟩
def Reg.domainState : Reg := ⟨0x2400, 0x01, 256, 2, 1, 0, false, 1⟩
def Reg.openTag : Reg := ⟨0x2400, 0x02, 256, 4, 1, 0, false, 4⟩
def Reg.committedTag : Reg := ⟨0x2400, 0x03, 256, 4, 1, 0, false, 4⟩
def Reg.lastTag : Reg := ⟨0x2400, 0x04, 256, 4, 1, 0, false, 4⟩
def Reg.lastOutcome : Reg := ⟨0x2400, 0x05, 256, 2, 1, 0, false, 1⟩
def Reg.commits : Reg := ⟨0x2400, 0x06, 256, 5, 1, 0, false, 8⟩
def Reg.voids : Reg := ⟨0x2400, 0x07, 256, 4, 1, 0, false, 4⟩
def Reg.lost : Reg := ⟨0x2400, 0x08, 256, 1, 1, 0, false, 1⟩
def Reg.lastCloseTime : Reg := ⟨0x2400, 0x09, 256, 5, 1, 0, false, 8⟩
def Reg.settleLast : Reg := ⟨0x2400, 0x0A, 256, 4, 1, 0, false, 4⟩
def Reg.cwStepOvf : Reg := ⟨0x2400, 0x10, 256, 4, 1, 0, false, 4⟩
def Reg.cwStepInf : Reg := ⟨0x2400, 0x11, 256, 4, 1, 0, false, 4⟩
def Reg.cwStepNan : Reg := ⟨0x2400, 0x12, 256, 4, 1, 0, false, 4⟩
def Reg.cwTotalOvf : Reg := ⟨0x2400, 0x13, 256, 5, 1, 0, false, 8⟩
def Reg.cwTotalInf : Reg := ⟨0x2400, 0x14, 256, 5, 1, 0, false, 8⟩
def Reg.cwTotalNan : Reg := ⟨0x2400, 0x15, 256, 5, 1, 0, false, 8⟩
def Reg.cwFirstTensor : Reg := ⟨0x2400, 0x16, 256, 3, 1, 0xFFFF, false, 2⟩
def Reg.cwFirstInfo : Reg := ⟨0x2400, 0x17, 256, 5, 1, 0, false, 8⟩
def Reg.cwFirstTime : Reg := ⟨0x2400, 0x18, 256, 5, 1, 0, false, 8⟩
def Reg.cwSticky : Reg := ⟨0x2400, 0x19, 256, 2, 1, 0, false, 1⟩
def Reg.cwClear : Reg := ⟨0x2400, 0x1A, 256, 1, 5, 0, false, 1⟩
def Reg.cwVoidMark : Reg := ⟨0x2400, 0x1B, 256, 1, 1, 0, false, 1⟩
def Reg.lenLimit : Reg := ⟨0x2400, 0x20, 256, 4, 1, 0, false, 4⟩
def Reg.stashPool : Reg := ⟨0x2400, 0x21, 256, 4, 1, 0, false, 4⟩
def Reg.stashInUse : Reg := ⟨0x2400, 0x22, 256, 4, 1, 0, false, 4⟩
def Reg.mbAdmitted : Reg := ⟨0x2400, 0x23, 256, 3, 1, 0, false, 2⟩
def Reg.admitWaitTime : Reg := ⟨0x2400, 0x24, 256, 4, 1, 0, false, 4⟩
def Reg.stashDeniedCount : Reg := ⟨0x2400, 0x25, 256, 4, 1, 0, false, 4⟩
def Reg.lenExceededCount : Reg := ⟨0x2400, 0x26, 256, 4, 1, 0, false, 4⟩
def Reg.skippedRecords : Reg := ⟨0x2400, 0x27, 256, 4, 1, 0, false, 4⟩
def Reg.strict : Reg := ⟨0x2400, 0x30, 256, 1, 5, 0, false, 1⟩
def Reg.updatesExpected : Reg := ⟨0x2400, 0x31, 256, 4, 1, 0, false, 4⟩
def Reg.updatesApplied : Reg := ⟨0x2400, 0x32, 256, 5, 1, 0, false, 8⟩
def Reg.frozenDrops : Reg := ⟨0x2400, 0x33, 256, 5, 1, 0, false, 8⟩
def Reg.updateParked : Reg := ⟨0x2400, 0x34, 256, 4, 1, 0, false, 4⟩
def Reg.updateFault : Reg := ⟨0x2400, 0x35, 256, 1, 1, 0, false, 1⟩
def Reg.updateFaultCode : Reg := ⟨0x2400, 0x36, 256, 3, 1, 0, false, 2⟩
def Reg.updateDoneTime : Reg := ⟨0x2400, 0x37, 256, 4, 1, 0, false, 4⟩
def Reg.commitGroup : Reg := ⟨0x2400, 0x40, 256, 3, 1, 0, false, 2⟩
def Reg.exchangeState : Reg := ⟨0x2400, 0x41, 256, 2, 1, 0, false, 1⟩
def Reg.localOffer : Reg := ⟨0x2400, 0x42, 256, 2, 1, 0, false, 1⟩
def Reg.firstVoider : Reg := ⟨0x2400, 0x43, 256, 3, 1, 0xFFFF, false, 2⟩
def Reg.exchangeTime : Reg := ⟨0x2400, 0x44, 256, 4, 1, 0, false, 4⟩
def Reg.tokenResends : Reg := ⟨0x2400, 0x45, 256, 4, 1, 0, false, 4⟩
def Reg.domainCauseBits : Reg := ⟨0x2400, 0x50, 256, 2, 2, 0, false, 1⟩
def Reg.powerLimit : Reg := ⟨0x3000, 0x01, 1, 3, 2, 1800, true, 2⟩
def Reg.inputVoltage : Reg := ⟨0x3000, 0x02, 1, 7, 1, 0, false, 4⟩
def Reg.inputPower : Reg := ⟨0x3000, 0x03, 1, 7, 1, 0, false, 4⟩
def Reg.powerAvg100ms : Reg := ⟨0x3000, 0x04, 1, 7, 1, 0, false, 4⟩
def Reg.energy : Reg := ⟨0x3000, 0x05, 1, 5, 1, 0, false, 8⟩
def Reg.throttleState : Reg := ⟨0x3000, 0x06, 1, 2, 1, 0, false, 1⟩
def Reg.throttleEvents : Reg := ⟨0x3000, 0x07, 1, 4, 1, 0, false, 4⟩
def Reg.excursionMax : Reg := ⟨0x3000, 0x08, 1, 4, 1, 0, false, 4⟩
def Reg.railFaults : Reg := ⟨0x3000, 0x09, 1, 4, 1, 0, false, 4⟩
def Reg.halfPower : Reg := ⟨0x3001, 0x01, 2, 7, 1, 0, false, 4⟩
def Reg.dutyCap : Reg := ⟨0x3001, 0x02, 2, 2, 1, 16, false, 1⟩
def Reg.tempMax : Reg := ⟨0x3010, 0x01, 1, 7, 1, 0, false, 4⟩
def Reg.tempSensorSel : Reg := ⟨0x3010, 0x02, 1, 2, 2, 0, false, 1⟩
def Reg.tempSensor : Reg := ⟨0x3010, 0x03, 1, 7, 1, 0, false, 4⟩
def Reg.thermalState : Reg := ⟨0x3010, 0x04, 1, 2, 1, 0, false, 1⟩
def Reg.thermalEvents : Reg := ⟨0x3010, 0x05, 1, 4, 1, 0, false, 4⟩
def Reg.halfClock : Reg := ⟨0x3020, 0x01, 1, 2, 2, 0, false, 1⟩
def Reg.halfClockState : Reg := ⟨0x3020, 0x02, 1, 2, 1, 0, false, 1⟩
def Reg.clockChanges : Reg := ⟨0x3020, 0x03, 1, 4, 1, 0, false, 4⟩
def Reg.boardPowerState : Reg := ⟨0x3020, 0x04, 1, 4, 1, 0, false, 4⟩
def Reg.dutyHoldCycles : Reg := ⟨0x3020, 0x05, 1, 5, 1, 0, false, 8⟩
def Reg.topoDims : Reg := ⟨0x4000, 0x01, 1, 2, 4, 0, false, 1⟩
def Reg.sizeX : Reg := ⟨0x4000, 0x02, 1, 2, 4, 1, false, 1⟩
def Reg.sizeY : Reg := ⟨0x4000, 0x03, 1, 2, 4, 1, false, 1⟩
def Reg.sizeZ : Reg := ⟨0x4000, 0x04, 1, 2, 4, 1, false, 1⟩
def Reg.wrap : Reg := ⟨0x4000, 0x05, 1, 2, 4, 0, false, 1⟩
def Reg.tbMaster : Reg := ⟨0x4000, 0x06, 1, 3, 4, 0xFFFF, false, 2⟩
def Reg.tbState : Reg := ⟨0x4000, 0x07, 1, 2, 1, 0, false, 1⟩
def Reg.tbOffset : Reg := ⟨0x4000, 0x08, 1, 6, 1, 0, false, 4⟩
def Reg.reqTimeout : Reg := ⟨0x4000, 0x09, 1, 4, 4, 4, true, 4⟩
def Reg.portSel : Reg := ⟨0x4010, 0x01, 1, 2, 2, 0, false, 1⟩
def Reg.portState : Reg := ⟨0x4010, 0x02, 1, 2, 1, 0, false, 1⟩
def Reg.portWidth : Reg := ⟨0x4010, 0x03, 1, 2, 1, 0, false, 1⟩
def Reg.portDir : Reg := ⟨0x4010, 0x04, 1, 2, 4, 0, true, 1⟩
def Reg.portEnable : Reg := ⟨0x4010, 0x05, 1, 1, 4, 1, true, 1⟩
def Reg.lanesGood : Reg := ⟨0x4010, 0x06, 1, 2, 1, 0x0F, false, 1⟩
def Reg.peerDevice : Reg := ⟨0x4010, 0x07, 1, 3, 1, 0xFFFF, false, 2⟩
def Reg.peerPort : Reg := ⟨0x4010, 0x08, 1, 2, 1, 0xFF, false, 1⟩
def Reg.fecCorrected : Reg := ⟨0x4010, 0x09, 1, 5, 1, 0, false, 8⟩
def Reg.fecUncorrected : Reg := ⟨0x4010, 0x0A, 1, 4, 1, 0, false, 4⟩
def Reg.replays : Reg := ⟨0x4010, 0x0B, 1, 4, 1, 0, false, 4⟩
def Reg.failovers : Reg := ⟨0x4010, 0x0C, 1, 4, 1, 0, false, 4⟩
def Reg.lastFailover : Reg := ⟨0x4010, 0x0D, 1, 4, 1, 0, false, 4⟩
def Reg.linkDelay : Reg := ⟨0x4010, 0x0E, 1, 4, 1, 0, false, 4⟩
def Reg.portRestore : Reg := ⟨0x4010, 0x0F, 1, 1, 3, 0, false, 1⟩
def Reg.routeSel : Reg := ⟨0x4020, 0x01, 1, 3, 2, 0, false, 2⟩
def Reg.routeEntry : Reg := ⟨0x4020, 0x02, 1, 4, 5, 0, false, 4⟩
def Reg.holdInUse : Reg := ⟨0x4030, 0x01, 1, 2, 1, 0, false, 1⟩
def Reg.holdMax : Reg := ⟨0x4030, 0x02, 1, 2, 1, 0, false, 1⟩
def Reg.mcHoldTimeouts : Reg := ⟨0x4030, 0x03, 1, 4, 1, 0, false, 4⟩
def Reg.failedTarget : Reg := ⟨0x4030, 0x04, 1, 3, 1, 0xFFFF, false, 2⟩
def Reg.fabricErrs : Reg := ⟨0x4030, 0x05, 1, 4, 1, 0, false, 4⟩
def Reg.groupSel : Reg := ⟨0x4040, 0x01, 1, 3, 2, 0, false, 2⟩
def Reg.groupEntry : Reg := ⟨0x4040, 0x02, 1, 9, 5, 0, false, 24⟩
def Reg.memberSel : Reg := ⟨0x4040, 0x03, 1, 3, 2, 0, false, 2⟩
def Reg.memberAddr : Reg := ⟨0x4040, 0x04, 1, 3, 5, 0xFFFF, false, 2⟩
def Reg.groupFailed : Reg := ⟨0x4040, 0x05, 1, 3, 1, 0, false, 2⟩
def Reg.staleEpochDrops : Reg := ⟨0x4040, 0x06, 1, 4, 1, 0, false, 4⟩
def Reg.collBoardSel : Reg := ⟨0x4050, 0x01, 1, 2, 2, 0, false, 1⟩
def Reg.shardMapDpa : Reg := ⟨0x4050, 0x02, 1, 5, 1, 0, false, 8⟩
def Reg.gathersServed : Reg := ⟨0x4050, 0x03, 1, 5, 1, 0, false, 8⟩
def Reg.rendezvousTimeouts : Reg := ⟨0x4050, 0x04, 1, 4, 1, 0, false, 4⟩
def Reg.staleGathers : Reg := ⟨0x4050, 0x05, 1, 4, 1, 0, false, 4⟩
def Reg.gatherUnmatched : Reg := ⟨0x4050, 0x06, 1, 4, 1, 0, false, 4⟩
def Reg.reduceHops : Reg := ⟨0x4050, 0x07, 1, 5, 1, 0, false, 8⟩
def Reg.voteSquares : Reg := ⟨0x4050, 0x08, 1, 5, 1, 0, false, 8⟩
def Reg.stackSel : Reg := ⟨0x5000, 0x01, 1, 2, 2, 0, false, 1⟩
def Reg.stackState : Reg := ⟨0x5000, 0x02, 1, 2, 1, 0, false, 1⟩
def Reg.eccCorrected : Reg := ⟨0x5000, 0x03, 1, 5, 1, 0, false, 8⟩
def Reg.eccUncorrected : Reg := ⟨0x5000, 0x04, 1, 4, 1, 0, false, 4⟩
def Reg.rowsSpared : Reg := ⟨0x5000, 0x05, 1, 4, 1, 0, false, 4⟩
def Reg.sparesLeftMin : Reg := ⟨0x5000, 0x06, 1, 2, 1, 16, false, 1⟩
def Reg.spareStallMax : Reg := ⟨0x5000, 0x07, 1, 4, 1, 0, false, 4⟩
def Reg.lastUeDpa : Reg := ⟨0x5000, 0x08, 1, 5, 1, 0, false, 8⟩
def Reg.scrubPassTime : Reg := ⟨0x5000, 0x09, 1, 4, 1, 0, false, 4⟩
def Reg.vtRecords : Reg := ⟨0x5000, 0x0A, 1, 4, 1, 0, false, 4⟩
def Reg.regionFaults : Reg := ⟨0x5000, 0x0B, 1, 4, 1, 0, false, 4⟩
def Reg.regionSel : Reg := ⟨0x5010, 0x01, 1, 2, 2, 0, false, 1⟩
def Reg.regionLo : Reg := ⟨0x5010, 0x02, 1, 5, 1, 0, false, 8⟩
def Reg.regionHi : Reg := ⟨0x5010, 0x03, 1, 5, 1, 0, false, 8⟩
def Reg.reckonerSel : Reg := ⟨0x5020, 0x01, 1, 2, 2, 0, false, 1⟩
def Reg.rkSquares : Reg := ⟨0x5020, 0x02, 1, 5, 1, 0, false, 8⟩
def Reg.rkBusyCycles : Reg := ⟨0x5020, 0x03, 1, 5, 1, 0, false, 8⟩
def Reg.rkParkMax : Reg := ⟨0x5020, 0x04, 1, 2, 1, 0, false, 1⟩
def Reg.rkRuns : Reg := ⟨0x5020, 0x05, 1, 3, 1, 0, false, 2⟩
def Reg.cntBoardSel : Reg := ⟨0x6000, 0x01, 1, 2, 2, 0, false, 1⟩
def Reg.cycles : Reg := ⟨0x6000, 0x02, 1, 5, 1, 0, false, 8⟩
def Reg.cntSel : Reg := ⟨0x6000, 0x03, 1, 2, 2, 0, false, 1⟩
def Reg.cntControl : Reg := ⟨0x6000, 0x04, 1, 4, 2, 0x00FFFF00, false, 4⟩
def Reg.cntValue : Reg := ⟨0x6000, 0x05, 1, 5, 1, 0, false, 8⟩
def Reg.cntClear : Reg := ⟨0x6000, 0x06, 1, 2, 3, 0, false, 1⟩
def Reg.blkSel : Reg := ⟨0x6010, 0x01, 1, 3, 2, 0, false, 2⟩
def Reg.blkValue : Reg := ⟨0x6010, 0x02, 1, 5, 1, 0, false, 8⟩
def Reg.blkClear : Reg := ⟨0x6010, 0x03, 1, 1, 3, 0, false, 1⟩
def Reg.readerKinds : Reg := ⟨0x6010, 0x04, 1, 2, 2, 0x0F, false, 1⟩
def Reg.readerPeriod : Reg := ⟨0x6010, 0x05, 1, 4, 2, 1000, false, 4⟩
def Reg.readerMode : Reg := ⟨0x6010, 0x06, 1, 2, 2, 1, false, 1⟩
def Reg.readerRingAddr : Reg := ⟨0x6010, 0x07, 1, 5, 2, 0, false, 8⟩
def Reg.readerRingBytes : Reg := ⟨0x6010, 0x08, 1, 4, 2, 0, false, 4⟩
def Reg.readerControl : Reg := ⟨0x6010, 0x09, 1, 2, 3, 0, false, 1⟩
def Reg.readerState : Reg := ⟨0x6010, 0x0A, 1, 2, 1, 0, false, 1⟩
def Reg.readerProd : Reg := ⟨0x6010, 0x0B, 1, 4, 1, 0, false, 4⟩
def Reg.readerCons : Reg := ⟨0x6010, 0x0C, 1, 4, 2, 0, false, 4⟩
def Reg.readerSkipped : Reg := ⟨0x6010, 0x0D, 1, 4, 1, 0, false, 4⟩
def Reg.readerRecordBytes : Reg := ⟨0x6010, 0x0E, 1, 4, 1, 0, false, 4⟩
def Reg.freezeControl : Reg := ⟨0x6020, 0x01, 1, 2, 3, 0, false, 1⟩
def Reg.freezeLead : Reg := ⟨0x6020, 0x02, 1, 4, 2, 100, false, 4⟩
def Reg.freezeGroup : Reg := ⟨0x6020, 0x03, 1, 3, 2, 0, false, 2⟩
def Reg.freezeState : Reg := ⟨0x6020, 0x04, 1, 2, 1, 0, false, 1⟩
def Reg.freezeTick : Reg := ⟨0x6020, 0x05, 1, 5, 1, 0, false, 8⟩
def Reg.thawTick : Reg := ⟨0x6020, 0x06, 1, 5, 1, 0, false, 8⟩
def Reg.freezeLate : Reg := ⟨0x6020, 0x07, 1, 4, 1, 0, false, 4⟩
def Reg.beadN : Reg := ⟨0x6030, 0x01, 1, 2, 2, 0, false, 1⟩
def Reg.beadOffset : Reg := ⟨0x6030, 0x02, 1, 4, 2, 0xFFFFFFFF, false, 4⟩
def Reg.beadFullMode : Reg := ⟨0x6030, 0x03, 1, 2, 2, 0, false, 1⟩
def Reg.beadBoardSel : Reg := ⟨0x6030, 0x04, 1, 2, 2, 0, false, 1⟩
def Reg.beadOffsetUsed : Reg := ⟨0x6030, 0x05, 1, 4, 1, 0, false, 4⟩
def Reg.beadHead : Reg := ⟨0x6030, 0x06, 1, 4, 1, 0, false, 4⟩
def Reg.beadAcked : Reg := ⟨0x6030, 0x07, 1, 4, 2, 0, false, 4⟩
def Reg.beadReadSel : Reg := ⟨0x6030, 0x08, 1, 3, 2, 0, false, 2⟩
def Reg.beadEntry : Reg := ⟨0x6030, 0x09, 1, 9, 1, 0, false, 64⟩
def Reg.beadMissed : Reg := ⟨0x6030, 0x0A, 1, 4, 1, 0, false, 4⟩
def Reg.beadDropped : Reg := ⟨0x6030, 0x0B, 1, 4, 1, 0, false, 4⟩
def Reg.ninesSel : Reg := ⟨0x6040, 0x01, 1, 2, 2, 0, false, 1⟩
def Reg.ninesWidth : Reg := ⟨0x6040, 0x02, 1, 2, 2, 64, false, 1⟩
def Reg.ninesPoly : Reg := ⟨0x6040, 0x03, 1, 5, 2, 0x42F0E1EBA9EA3693, false, 8⟩
def Reg.ninesInit : Reg := ⟨0x6040, 0x04, 1, 5, 2, 0xFFFFFFFFFFFFFFFF, false, 8⟩
def Reg.ninesXorout : Reg := ⟨0x6040, 0x05, 1, 5, 2, 0xFFFFFFFFFFFFFFFF, false, 8⟩
def Reg.ninesFlags : Reg := ⟨0x6040, 0x06, 1, 2, 2, 0, false, 1⟩
def Reg.ninesExpected : Reg := ⟨0x6040, 0x07, 1, 5, 2, 0, false, 8⟩
def Reg.ninesSrc : Reg := ⟨0x6040, 0x08, 1, 5, 2, 0, false, 8⟩
def Reg.ninesBytes : Reg := ⟨0x6040, 0x09, 1, 5, 2, 0, false, 8⟩
def Reg.ninesControl : Reg := ⟨0x6040, 0x0A, 1, 2, 3, 0, false, 1⟩
def Reg.ninesState : Reg := ⟨0x6040, 0x0B, 1, 2, 1, 0, false, 1⟩
def Reg.ninesRunning : Reg := ⟨0x6040, 0x0C, 1, 5, 2, 0xFFFFFFFFFFFFFFFF, false, 8⟩
def Reg.ninesResult : Reg := ⟨0x6040, 0x0D, 1, 5, 1, 0, false, 8⟩
def Reg.ninesMismatch : Reg := ⟨0x6040, 0x0E, 1, 1, 1, 0, false, 1⟩
def Reg.ninesBytesDone : Reg := ⟨0x6040, 0x0F, 1, 5, 1, 0, false, 8⟩
def Reg.ninesMismatches : Reg := ⟨0x6040, 0x10, 1, 4, 1, 0, false, 4⟩
def Reg.cwBoardSel : Reg := ⟨0x6100, 0x01, 1, 2, 2, 0, false, 1⟩
def Reg.cwSlotSel : Reg := ⟨0x6100, 0x02, 1, 2, 2, 0, false, 1⟩
def Reg.cwSlotTensor : Reg := ⟨0x6100, 0x03, 1, 3, 1, 0xFFFF, false, 2⟩
def Reg.cwSlotDomain : Reg := ⟨0x6100, 0x04, 1, 2, 1, 0, false, 1⟩
def Reg.cwSlotOvf : Reg := ⟨0x6100, 0x05, 1, 4, 1, 0, false, 4⟩
def Reg.cwSlotInf : Reg := ⟨0x6100, 0x06, 1, 4, 1, 0, false, 4⟩
def Reg.cwSlotNan : Reg := ⟨0x6100, 0x07, 1, 4, 1, 0, false, 4⟩
def Reg.frameSel : Reg := ⟨0x6120, 0x01, 1, 2, 2, 0, false, 1⟩
def Reg.frameState : Reg := ⟨0x6120, 0x02, 1, 2, 1, 0, false, 1⟩
def Reg.proofVerdicts : Reg := ⟨0x6120, 0x03, 1, 5, 1, 0, false, 8⟩
def Reg.proofTransient : Reg := ⟨0x6120, 0x04, 1, 4, 1, 0, false, 4⟩
def Reg.proofSkips : Reg := ⟨0x6120, 0x05, 1, 4, 1, 0, false, 4⟩
def Reg.proofLastTime : Reg := ⟨0x6120, 0x06, 1, 5, 1, 0, false, 8⟩
def Reg.proofLastLayer : Reg := ⟨0x6120, 0x07, 1, 3, 1, 0, false, 2⟩
def Reg.selftestRuns : Reg := ⟨0x6120, 0x08, 1, 4, 1, 0, false, 4⟩
def Reg.tallyBoardSel : Reg := ⟨0x6130, 0x01, 1, 2, 2, 0, false, 1⟩
def Reg.tallySize : Reg := ⟨0x6130, 0x02, 1, 4, 1, 0, false, 4⟩
def Reg.slicesFilling : Reg := ⟨0x6130, 0x03, 1, 3, 1, 0, false, 2⟩
def Reg.tallyWaits : Reg := ⟨0x6130, 0x04, 1, 4, 1, 0, false, 4⟩
def Reg.tallyHolds : Reg := ⟨0x6130, 0x05, 1, 4, 1, 0, false, 4⟩
def Reg.tallyHoldCycles : Reg := ⟨0x6130, 0x06, 1, 5, 1, 0, false, 8⟩
def Reg.tallyOrderCount : Reg := ⟨0x6130, 0x07, 1, 4, 1, 0, false, 4⟩
def Reg.streamBoardSel : Reg := ⟨0x6140, 0x01, 1, 2, 2, 0, false, 1⟩
def Reg.storeCorrected : Reg := ⟨0x6140, 0x02, 1, 4, 1, 0, false, 4⟩
def Reg.storeUncorrected : Reg := ⟨0x6140, 0x03, 1, 4, 1, 0, false, 4⟩
def Reg.storeSparedRows : Reg := ⟨0x6140, 0x04, 1, 3, 1, 0, false, 2⟩
def Reg.partTally : Reg := ⟨0x6140, 0x05, 1, 4, 1, 0, false, 4⟩
def Reg.partStash : Reg := ⟨0x6140, 0x06, 1, 4, 1, 0, false, 4⟩
def Reg.partGather : Reg := ⟨0x6140, 0x07, 1, 4, 1, 0, false, 4⟩
def Reg.partStream : Reg := ⟨0x6140, 0x08, 1, 4, 1, 0, false, 4⟩
def Reg.streamHolds : Reg := ⟨0x6140, 0x09, 1, 4, 1, 0, false, 4⟩
def Reg.streamHoldCycles : Reg := ⟨0x6140, 0x0A, 1, 5, 1, 0, false, 8⟩
def Reg.squashes : Reg := ⟨0x6140, 0x0B, 1, 4, 1, 0, false, 4⟩
def Reg.squashLastEpoch : Reg := ⟨0x6140, 0x0C, 1, 2, 1, 0, false, 1⟩
def Reg.squashLastDuration : Reg := ⟨0x6140, 0x0D, 1, 4, 1, 0, false, 4⟩
def Reg.linkSel : Reg := ⟨0x6140, 0x0E, 1, 2, 2, 0, false, 1⟩
def Reg.linkEntryLo : Reg := ⟨0x6140, 0x0F, 1, 5, 1, 0, false, 8⟩
def Reg.linkEntryHi : Reg := ⟨0x6140, 0x10, 1, 5, 1, 0, false, 8⟩
def Reg.semSel : Reg := ⟨0x6140, 0x11, 1, 2, 2, 0, false, 1⟩
def Reg.semCount : Reg := ⟨0x6140, 0x12, 1, 3, 1, 0, false, 2⟩
def Reg.streamStalls : Reg := ⟨0x6140, 0x13, 1, 4, 1, 0, false, 4⟩
def Reg.slateOps : Reg := ⟨0x6140, 0x14, 1, 5, 1, 0, false, 8⟩
def Reg.storeConflictCycles : Reg := ⟨0x6140, 0x15, 1, 5, 1, 0, false, 8⟩
def Reg.seqBoardSel : Reg := ⟨0x6150, 0x01, 1, 2, 2, 0, false, 1⟩
def Reg.seqState : Reg := ⟨0x6150, 0x02, 1, 2, 1, 0, false, 1⟩
def Reg.activeBank : Reg := ⟨0x6150, 0x03, 1, 2, 1, 0, false, 1⟩
def Reg.inactiveState : Reg := ⟨0x6150, 0x04, 1, 2, 1, 0, false, 1⟩
def Reg.activeSeq : Reg := ⟨0x6150, 0x05, 1, 4, 1, 0, false, 4⟩
def Reg.mainPos : Reg := ⟨0x6150, 0x06, 1, 3, 1, 0, false, 2⟩
def Reg.fillerPos : Reg := ⟨0x6150, 0x07, 1, 3, 1, 0, false, 2⟩
def Reg.bundlesIssued : Reg := ⟨0x6150, 0x08, 1, 5, 1, 0, false, 8⟩
def Reg.fillerIssued : Reg := ⟨0x6150, 0x09, 1, 5, 1, 0, false, 8⟩
def Reg.mainBlockedCycles : Reg := ⟨0x6150, 0x0A, 1, 5, 1, 0, false, 8⟩
def Reg.swapWaitCycles : Reg := ⟨0x6150, 0x0B, 1, 5, 1, 0, false, 8⟩
def Reg.wakeLate : Reg := ⟨0x6150, 0x0C, 1, 4, 1, 0, false, 4⟩
def Reg.loadRefusals : Reg := ⟨0x6150, 0x0D, 1, 4, 1, 0, false, 4⟩
def Reg.lastRefusal : Reg := ⟨0x6150, 0x0E, 1, 4, 1, 0, false, 4⟩
def Reg.seqFaultInfo : Reg := ⟨0x6150, 0x0F, 1, 5, 1, 0, false, 8⟩
def Reg.seqFaultTime : Reg := ⟨0x6150, 0x10, 1, 5, 1, 0, false, 8⟩
def Reg.seqFaults : Reg := ⟨0x6150, 0x11, 1, 4, 1, 0, false, 4⟩
def Reg.logNewest : Reg := ⟨0x7000, 0x01, 1, 4, 1, 0, false, 4⟩
def Reg.logOldest : Reg := ⟨0x7000, 0x02, 1, 4, 1, 0, false, 4⟩
def Reg.logSel : Reg := ⟨0x7000, 0x03, 1, 4, 2, 0, false, 4⟩
def Reg.logRecord : Reg := ⟨0x7000, 0x04, 1, 9, 1, 0, false, 64⟩
def Reg.logAcked : Reg := ⟨0x7000, 0x05, 1, 4, 2, 0, true, 4⟩
def Reg.logDropped : Reg := ⟨0x7000, 0x06, 1, 4, 1, 0, true, 4⟩
def Reg.logClear : Reg := ⟨0x7000, 0x07, 1, 1, 4, 0, false, 1⟩
def Reg.retiredFrames : Reg := ⟨0x7000, 0x10, 1, 9, 1, 0, true, 16⟩
def Reg.retiredStacks : Reg := ⟨0x7000, 0x11, 1, 3, 1, 0, true, 2⟩
def Reg.retiredLanes : Reg := ⟨0x7000, 0x12, 1, 9, 1, 0, true, 12⟩
def Reg.crDomainSel : Reg := ⟨0x7000, 0x20, 1, 2, 2, 0, false, 1⟩
def Reg.crTag : Reg := ⟨0x7000, 0x21, 1, 4, 1, 0, false, 4⟩
def Reg.crLossDigest : Reg := ⟨0x7000, 0x22, 1, 5, 1, 0, false, 8⟩
def Reg.crLossCount : Reg := ⟨0x7000, 0x23, 1, 5, 1, 0, false, 8⟩
def Reg.preIntact : Reg := ⟨0x7000, 0x24, 1, 1, 1, 0, false, 1⟩
def Reg.restoreState : Reg := ⟨0x7000, 0x25, 1, 2, 1, 0, false, 1⟩
def Reg.mirrorPartner : Reg := ⟨0x7000, 0x30, 1, 3, 4, 0xFFFF, true, 2⟩
def Reg.mirrorK : Reg := ⟨0x7000, 0x31, 1, 3, 5, 0, false, 2⟩
def Reg.mirrorRegionSel : Reg := ⟨0x7000, 0x32, 1, 2, 2, 0, false, 1⟩
def Reg.mirrorDpa : Reg := ⟨0x7000, 0x33, 1, 5, 5, 0, false, 8⟩
def Reg.mirrorSealed : Reg := ⟨0x7000, 0x34, 1, 5, 1, 0, false, 8⟩
def Reg.mirrorDomains : Reg := ⟨0x7000, 0x35, 1, 9, 5, 0, false, 32⟩
def Reg.mirrorPasses : Reg := ⟨0x7000, 0x36, 1, 4, 1, 0, false, 4⟩
def Reg.snapControl : Reg := ⟨0x7000, 0x40, 1, 2, 3, 0, false, 1⟩
def Reg.snapDomains : Reg := ⟨0x7000, 0x41, 1, 9, 2, 0, false, 32⟩
def Reg.snapTarget : Reg := ⟨0x7000, 0x42, 1, 2, 2, 0, false, 1⟩
def Reg.snapAddr : Reg := ⟨0x7000, 0x43, 1, 5, 2, 0, false, 8⟩
def Reg.snapBytes : Reg := ⟨0x7000, 0x44, 1, 5, 2, 0, false, 8⟩
def Reg.snapState : Reg := ⟨0x7000, 0x45, 1, 2, 1, 0, false, 1⟩
def Reg.snapError : Reg := ⟨0x7000, 0x46, 1, 3, 1, 0, false, 2⟩
def Reg.snapLength : Reg := ⟨0x7000, 0x47, 1, 5, 1, 0, false, 8⟩
def Reg.snapHoldTime : Reg := ⟨0x7000, 0x48, 1, 4, 1, 0, false, 4⟩
def Reg.restorePoint : Reg := ⟨0x7000, 0x49, 1, 2, 2, 0, false, 1⟩
def Reg.restoreEpoch : Reg := ⟨0x7000, 0x4A, 1, 3, 2, 0, false, 2⟩
def Reg.restoreGroups : Reg := ⟨0x7000, 0x4B, 1, 2, 2, 0, false, 1⟩
def Reg.replayDiff : Reg := ⟨0x7000, 0x4C, 1, 5, 1, 0, false, 8⟩
def Reg.restoreRetag : Reg := ⟨0x7000, 0x4D, 1, 2, 2, 0, false, 1⟩
def Reg.slotSel : Reg := ⟨0x8000, 0x01, 1, 2, 2, 0, false, 1⟩
def Reg.slotState : Reg := ⟨0x8000, 0x02, 1, 2, 1, 0, true, 1⟩
def Reg.slotVersion : Reg := ⟨0x8000, 0x03, 1, 8, 1, 0, false, 64⟩
def Reg.slotSecVersion : Reg := ⟨0x8000, 0x04, 1, 4, 1, 0, false, 4⟩
def Reg.slotManifest : Reg := ⟨0x8000, 0x05, 1, 9, 1, 0, false, 65535⟩
def Reg.bootedSlot : Reg := ⟨0x8000, 0x06, 1, 2, 1, 0, false, 1⟩
def Reg.activeSlot : Reg := ⟨0x8000, 0x07, 1, 2, 1, 0, false, 1⟩
def Reg.bootPref : Reg := ⟨0x8000, 0x08, 1, 2, 1, 0, true, 1⟩
def Reg.rollbackCounter : Reg := ⟨0x8000, 0x09, 1, 4, 1, 0, false, 4⟩
def Reg.trialBoots : Reg := ⟨0x8000, 0x0A, 1, 2, 1, 0, true, 1⟩
def Reg.bootFallbacks : Reg := ⟨0x8000, 0x0B, 1, 4, 1, 0, true, 4⟩
def Reg.flashState : Reg := ⟨0x8000, 0x0C, 1, 2, 1, 0, false, 1⟩
def Reg.fwControl : Reg := ⟨0x8010, 0x01, 1, 2, 3, 0, false, 1⟩
def Reg.fwSource : Reg := ⟨0x8010, 0x02, 1, 2, 2, 0, false, 1⟩
def Reg.fwPackageAddr : Reg := ⟨0x8010, 0x03, 1, 5, 2, 0, false, 8⟩
def Reg.fwPackageBytes : Reg := ⟨0x8010, 0x04, 1, 4, 2, 0, false, 4⟩
def Reg.fwChunkOffset : Reg := ⟨0x8010, 0x05, 1, 4, 2, 0, false, 4⟩
def Reg.fwChunk : Reg := ⟨0x8010, 0x06, 1, 9, 3, 0, false, 32768⟩
def Reg.fwStageState : Reg := ⟨0x8010, 0x07, 1, 2, 1, 0, false, 1⟩
def Reg.fwStageError : Reg := ⟨0x8010, 0x08, 1, 3, 1, 0, false, 2⟩
def Reg.fwStageProgress : Reg := ⟨0x8010, 0x09, 1, 4, 1, 0, false, 4⟩
def Reg.actState : Reg := ⟨0x8010, 0x0A, 1, 2, 1, 0, false, 1⟩
def Reg.actInhibit : Reg := ⟨0x8010, 0x0B, 1, 2, 1, 0, false, 1⟩
def Reg.actInhibitHold : Reg := ⟨0x8010, 0x0C, 1, 4, 4, 1000, true, 4⟩
def Reg.actRequestTime : Reg := ⟨0x8010, 0x0D, 1, 5, 1, 0, false, 8⟩
def Reg.actDoneTime : Reg := ⟨0x8010, 0x0E, 1, 5, 1, 0, false, 8⟩
def Reg.attestNonce : Reg := ⟨0x9000, 0x01, 1, 9, 3, 0, false, 32⟩
def Reg.attestState : Reg := ⟨0x9000, 0x02, 1, 2, 1, 0, false, 1⟩
def Reg.attestReport : Reg := ⟨0x9000, 0x03, 1, 9, 1, 0, false, 65535⟩
def Reg.identityKey : Reg := ⟨0x9000, 0x04, 1, 9, 1, 0, false, 1793⟩
def Reg.certChain : Reg := ⟨0x9000, 0x05, 1, 9, 1, 0, false, 65535⟩
def Reg.measCount : Reg := ⟨0x9000, 0x06, 1, 2, 1, 0, false, 1⟩
def Reg.debugChallenge : Reg := ⟨0x9010, 0x01, 1, 9, 1, 0, false, 48⟩
def Reg.debugResponse : Reg := ⟨0x9010, 0x02, 1, 9, 3, 0, false, 65535⟩
def Reg.debugState : Reg := ⟨0x9010, 0x03, 1, 4, 1, 0, false, 4⟩
def Reg.debugFails : Reg := ⟨0x9010, 0x04, 1, 4, 1, 0, false, 4⟩

def dictPart0 : List Reg := [
  .vendor, .product, .orderCode, .grade, .disabledBoards, .retiredBoards, .serial, .hwRevision, .pciVendorId,
  .pciDeviceId, .manifest, .nodeId, .nodeIdPersist, .canEnable, .canArbRate, .canDataRate, .heartbeatPeriod,
  .notifyMaskCan, .canState, .canTec, .canRec, .canBusoffCount, .canIgnored, .chainIn, .chainOut, .writePaths,
  .hostMode, .linkWidth, .linkRate, .cacheEnabled, .memEnabled, .memoryActive, .hdmSize, .windowFaults, .fabricDevice,
  .fmAddress, .notifyMaskFabric, .deviceState, .stateRequest, .stateTime, .resetRequest, .autoReady, .safeCause,
  .bootServiceTime, .bootReadyTime, .coreSel, .coreState, .wdogExpiries, .wdogLastTime, .lastReset]

def dictPart1 : List Reg := [
  .irqCause, .domainCause0, .domainCause1, .domainCause2, .domainCause3, .jobControl, .jobState, .jobImageAddr,
  .jobImageBytes, .jobSeed, .jobId, .jobLoadError, .jobLoadTime, .domainSel, .domainUsed, .mbPerStep, .initTag,
  .domainBoards, .domainEpochs, .admitWatchdog, .streamWatchdog, .updateWait, .rendezvousWait, .commitWait,
  .barrierStart, .pgroupSel, .pgroupEntry, .pgroupFrozen, .stepRecord, .srTag, .srEta, .srK1, .srK2, .srArmTime,
  .ruleWord1, .ruleWord2, .ruleWord3, .ruleWord4, .ruleWord5, .ruleWord6, .ruleWord7, .ruleWord8, .ruleWord9,
  .ruleWord10, .ruleWord11, .ruleWord12, .ruleWord13, .ruleWord14, .ruleWord15, .ruleWord16]

def dictPart2 : List Reg := [
  .ruleMode, .domainState, .openTag, .committedTag, .lastTag, .lastOutcome, .commits, .voids, .lost, .lastCloseTime,
  .settleLast, .cwStepOvf, .cwStepInf, .cwStepNan, .cwTotalOvf, .cwTotalInf, .cwTotalNan, .cwFirstTensor,
  .cwFirstInfo, .cwFirstTime, .cwSticky, .cwClear, .cwVoidMark, .lenLimit, .stashPool, .stashInUse, .mbAdmitted,
  .admitWaitTime, .stashDeniedCount, .lenExceededCount, .skippedRecords, .strict, .updatesExpected, .updatesApplied,
  .frozenDrops, .updateParked, .updateFault, .updateFaultCode, .updateDoneTime, .commitGroup, .exchangeState,
  .localOffer, .firstVoider, .exchangeTime, .tokenResends, .domainCauseBits, .powerLimit, .inputVoltage, .inputPower,
  .powerAvg100ms]

def dictPart3 : List Reg := [
  .energy, .throttleState, .throttleEvents, .excursionMax, .railFaults, .halfPower, .dutyCap, .tempMax,
  .tempSensorSel, .tempSensor, .thermalState, .thermalEvents, .halfClock, .halfClockState, .clockChanges,
  .boardPowerState, .dutyHoldCycles, .topoDims, .sizeX, .sizeY, .sizeZ, .wrap, .tbMaster, .tbState, .tbOffset,
  .reqTimeout, .portSel, .portState, .portWidth, .portDir, .portEnable, .lanesGood, .peerDevice, .peerPort,
  .fecCorrected, .fecUncorrected, .replays, .failovers, .lastFailover, .linkDelay, .portRestore, .routeSel,
  .routeEntry, .holdInUse, .holdMax, .mcHoldTimeouts, .failedTarget, .fabricErrs, .groupSel, .groupEntry]

def dictPart4 : List Reg := [
  .memberSel, .memberAddr, .groupFailed, .staleEpochDrops, .collBoardSel, .shardMapDpa, .gathersServed,
  .rendezvousTimeouts, .staleGathers, .gatherUnmatched, .reduceHops, .voteSquares, .stackSel, .stackState,
  .eccCorrected, .eccUncorrected, .rowsSpared, .sparesLeftMin, .spareStallMax, .lastUeDpa, .scrubPassTime, .vtRecords,
  .regionFaults, .regionSel, .regionLo, .regionHi, .reckonerSel, .rkSquares, .rkBusyCycles, .rkParkMax, .rkRuns,
  .cntBoardSel, .cycles, .cntSel, .cntControl, .cntValue, .cntClear, .blkSel, .blkValue, .blkClear, .readerKinds,
  .readerPeriod, .readerMode, .readerRingAddr, .readerRingBytes, .readerControl, .readerState, .readerProd,
  .readerCons, .readerSkipped]

def dictPart5 : List Reg := [
  .readerRecordBytes, .freezeControl, .freezeLead, .freezeGroup, .freezeState, .freezeTick, .thawTick, .freezeLate,
  .beadN, .beadOffset, .beadFullMode, .beadBoardSel, .beadOffsetUsed, .beadHead, .beadAcked, .beadReadSel, .beadEntry,
  .beadMissed, .beadDropped, .ninesSel, .ninesWidth, .ninesPoly, .ninesInit, .ninesXorout, .ninesFlags,
  .ninesExpected, .ninesSrc, .ninesBytes, .ninesControl, .ninesState, .ninesRunning, .ninesResult, .ninesMismatch,
  .ninesBytesDone, .ninesMismatches, .cwBoardSel, .cwSlotSel, .cwSlotTensor, .cwSlotDomain, .cwSlotOvf, .cwSlotInf,
  .cwSlotNan, .frameSel, .frameState, .proofVerdicts, .proofTransient, .proofSkips, .proofLastTime, .proofLastLayer,
  .selftestRuns]

def dictPart6 : List Reg := [
  .tallyBoardSel, .tallySize, .slicesFilling, .tallyWaits, .tallyHolds, .tallyHoldCycles, .tallyOrderCount,
  .streamBoardSel, .storeCorrected, .storeUncorrected, .storeSparedRows, .partTally, .partStash, .partGather,
  .partStream, .streamHolds, .streamHoldCycles, .squashes, .squashLastEpoch, .squashLastDuration, .linkSel,
  .linkEntryLo, .linkEntryHi, .semSel, .semCount, .streamStalls, .slateOps, .storeConflictCycles, .seqBoardSel,
  .seqState, .activeBank, .inactiveState, .activeSeq, .mainPos, .fillerPos, .bundlesIssued, .fillerIssued,
  .mainBlockedCycles, .swapWaitCycles, .wakeLate, .loadRefusals, .lastRefusal, .seqFaultInfo, .seqFaultTime,
  .seqFaults, .logNewest, .logOldest, .logSel, .logRecord, .logAcked]

def dictPart7 : List Reg := [
  .logDropped, .logClear, .retiredFrames, .retiredStacks, .retiredLanes, .crDomainSel, .crTag, .crLossDigest,
  .crLossCount, .preIntact, .restoreState, .mirrorPartner, .mirrorK, .mirrorRegionSel, .mirrorDpa, .mirrorSealed,
  .mirrorDomains, .mirrorPasses, .snapControl, .snapDomains, .snapTarget, .snapAddr, .snapBytes, .snapState,
  .snapError, .snapLength, .snapHoldTime, .restorePoint, .restoreEpoch, .restoreGroups, .replayDiff, .restoreRetag,
  .slotSel, .slotState, .slotVersion, .slotSecVersion, .slotManifest, .bootedSlot, .activeSlot, .bootPref,
  .rollbackCounter, .trialBoots, .bootFallbacks, .flashState, .fwControl, .fwSource, .fwPackageAddr, .fwPackageBytes,
  .fwChunkOffset, .fwChunk]

def dictPart8 : List Reg := [
  .fwStageState, .fwStageError, .fwStageProgress, .actState, .actInhibit, .actInhibitHold, .actRequestTime,
  .actDoneTime, .attestNonce, .attestState, .attestReport, .identityKey, .certChain, .measCount, .debugChallenge,
  .debugResponse, .debugState, .debugFails]

/-- The dictionary (R282). -/
def dictionary : List Reg :=
  dictPart0 ++ dictPart1 ++ dictPart2 ++ dictPart3 ++ dictPart4 ++ dictPart5 ++ dictPart6 ++ dictPart7 ++ dictPart8

/-- The entry of an index and subindex. -/
def regAt (index sub : Nat) : Option Reg :=
  dictionary.find? (fun r => r.index ≤ index && index < r.index + r.span && r.sub == sub)

/-- Whether the index is in use. -/
def indexUsed (index : Nat) : Bool := dictionary.any (fun r => r.index ≤ index && index < r.index + r.span)

/-- Subindex 0x00: the highest subindex in use at the index (R7). -/
def highestSub (index : Nat) : Nat :=
  dictionary.foldl (fun a r => if r.index ≤ index && index < r.index + r.span then max a r.sub else a) 0

/-- The size of a fixed-size type, 0 for STR and BLOB (Table 00-4). -/
def tySize : Nat → Nat
  | 1 => 1
  | 2 => 1
  | 3 => 2
  | 4 => 4
  | 5 => 8
  | 6 => 4
  | 7 => 4
  | _ => 0

/-- Whether the entry's name ends in _SEL (R267). -/
def Reg.isSelect (r : Reg) : Bool :=
  [Reg.coreSel, Reg.domainSel, Reg.pgroupSel, Reg.tempSensorSel, Reg.portSel, Reg.routeSel, Reg.groupSel,
    Reg.memberSel, Reg.collBoardSel, Reg.stackSel, Reg.regionSel, Reg.reckonerSel, Reg.cntBoardSel, Reg.cntSel,
    Reg.blkSel, Reg.beadBoardSel, Reg.beadReadSel, Reg.ninesSel, Reg.cwBoardSel, Reg.cwSlotSel, Reg.frameSel,
    Reg.tallyBoardSel, Reg.streamBoardSel, Reg.linkSel, Reg.semSel, Reg.seqBoardSel, Reg.logSel, Reg.crDomainSel,
    Reg.mirrorRegionSel, Reg.slotSel].contains r

/-! ### Reading and writing registers -/

/-- The key of an entry's register of one unit. -/
def Reg.key (r : Reg) (unit : Nat) : Nat := unit * 2 ^ 24 + r.index * 2 ^ 8 + r.sub

def State.rd (s : State) (r : Reg) (unit : Nat := 0) : Nat := tget s.regs (r.key unit) r.dflt

/-- A register's new value; a persistent entry is stored in flash too (R11). -/
def State.wr (s : State) (r : Reg) (v : Nat) (unit : Nat := 0) : State :=
  { s with
    regs := tset s.regs (r.key unit) v
    flash := if r.persist then { s.flash with od := tset s.flash.od (r.key unit) v } else s.flash }

/-- Bits that a count of the entry's type holds. -/
def Reg.bits (r : Reg) : Nat := 8 * tySize r.ty

/-- A saturating count. -/
def State.bumpBy (s : State) (r : Reg) (n : Nat) (unit : Nat := 0) : State :=
  s.wr r (satAdd r.bits (s.rd r unit) n) unit

def State.bump (s : State) (r : Reg) (unit : Nat := 0) : State := s.bumpBy r 1 unit

/-- The largest value seen so far. -/
def State.maxReg (s : State) (r : Reg) (v : Nat) (unit : Nat := 0) : State := s.wr r (max (s.rd r unit) v) unit

/-- STR and BLOB values that software or the module writes, with their change count (R266). -/
def State.blob (s : State) (r : Reg) (unit : Nat := 0) : List Byte := tget s.blobs (r.key unit) []

/-- The VERSION of an STR or BLOB value counts a change (R266). -/
def State.bumpVer (s : State) (r : Reg) (unit : Nat := 0) : State :=
  { s with vers := tset s.vers (r.key unit) ((tget s.vers (r.key unit) 0 + 1) % 2 ^ 16) }

def State.wrBlob (s : State) (r : Reg) (bs : List Byte) (unit : Nat := 0) : State :=
  { s with blobs := tset s.blobs (r.key unit) bs }.bumpVer r unit

end Sys2Proof.Machine
end

