-- ==== Sys2Proof/Machine/Operands.lean ====
section
/-!
DEFINITION. Machine/Operands.lean: the element formats of chapter 02, their exact values, the two roundings, the conversions of
Table 02-5, the block encoding of R35, the square layout of R32 and R33, and the rounding-noise generator of R43.
-/
namespace Sys2Proof

/-- The exact value of an element: NaN, an infinity, or a signed dyadic number m × 2^e (zero keeps its sign, R26). -/
inductive Val where
  | nan
  | inf (neg : Bool)
  | fin (neg : Bool) (m : Nat) (e : Int)
  deriving DecidableEq, Repr

def Val.isNan : Val → Bool
  | .nan => true
  | _ => false

def Val.isInf : Val → Bool
  | .inf _ => true
  | _ => false

def Val.isFin : Val → Bool
  | .fin .. => true
  | _ => false

def Val.neg : Val → Val
  | .nan => .nan
  | .inf n => .inf (!n)
  | .fin n m e => .fin (!n) m e

def Val.abs : Val → Val
  | .nan => .nan
  | .inf _ => .inf false
  | .fin _ m e => .fin false m e

/-- m × 2^(e − t) as a natural number, for t ≤ e. -/
def scaleTo (m : Nat) (e t : Int) : Nat := m <<< (e - t).toNat

/-- The exact sum (R59): infinities of both signs give NaN; an exact zero of two different signs is +0 (RNE). -/
def Val.add : Val → Val → Val
  | .nan, _ => .nan
  | _, .nan => .nan
  | .inf a, .inf b => if a = b then .inf a else .nan
  | .inf a, .fin .. => .inf a
  | .fin .., .inf b => .inf b
  | .fin na ma ea, .fin nb mb eb =>
    let t := min ea eb
    let a := scaleTo ma ea t
    let b := scaleTo mb eb t
    if na = nb then .fin na (a + b) t
    else if a = b then .fin false 0 t
    else if b < a then .fin na (a - b) t
    else .fin nb (b - a) t

/-- The exact product (R59): zero times infinity is NaN. -/
def Val.mul : Val → Val → Val
  | .nan, _ => .nan
  | _, .nan => .nan
  | .inf a, .inf b => .inf (a != b)
  | .inf a, .fin b m _ => if m = 0 then .nan else .inf (a != b)
  | .fin a m _, .inf b => if m = 0 then .nan else .inf (a != b)
  | .fin a m e, .fin b m' e' => .fin (a != b) (m * m') (e + e')

/-- x × 2^k. -/
def Val.scale (v : Val) (k : Int) : Val :=
  match v with
  | .fin n m e => .fin n m (e + k)
  | w => w

/-- |x| > |y| for finite values. -/
def Val.absGt : Val → Val → Bool
  | .fin _ m e, .fin _ m' e' =>
    let t := min e e'
    scaleTo m' e' t < scaleTo m e t
  | _, _ => false

/-- x < y for values that are not NaN (−0 and +0 are equal here). -/
def Val.lt : Val → Val → Bool
  | .inf true, .inf false => true
  | .inf true, .fin .. => true
  | .fin .., .inf false => true
  | .fin n m e, .fin n' m' e' =>
    let t := min e e'
    let a := scaleTo m e t
    let b := scaleTo m' e' t
    match n, n' with
    | false, false => a < b
    | true, true => b < a
    | true, false => 0 < a || 0 < b
    | false, true => false
  | _, _ => false

/-! ### Rounding (R40, R41) -/

/-- A rounding of one element: to nearest even, or stochastic with the upper 32 bits of its draw. -/
inductive Rnd where
  | rne
  | sr (n32 : Nat)
  deriving DecidableEq, Repr

/-- The rounded magnitude of m × 2^e on the grid 2^g, as a multiple of the grid step. -/
def roundMag (r : Rnd) (m : Nat) (e g : Int) : Nat :=
  if g ≤ e then m <<< (e - g).toNat
  else
    let s := (g - e).toNat
    let q := m >>> s
    let rem := m % 2 ^ s
    match r with
    | .rne =>
      if 2 * rem > 2 ^ s then q + 1
      else if 2 * rem = 2 ^ s then q + q % 2
      else q
    | .sr n32 =>
      let f := (rem <<< 32) >>> s
      if n32 < f then q + 1 else q

/-- floor(log2 |x|) of a nonzero m × 2^e. -/
def floorLog2 (m : Nat) (e : Int) : Int := (Nat.log2 m : Int) + e

/-- A floating element grid: fraction bits, smallest normal exponent. -/
structure FGrid where
  p : Nat
  emin : Int
  deriving DecidableEq, Repr

/-- The code (without sign) of the rounded magnitude on a floating grid; codes past the largest are handled by the caller. -/
def FGrid.code (g : FGrid) (r : Rnd) (m : Nat) (e : Int) : Nat :=
  if m = 0 then 0
  else
    let x := max (floorLog2 m e) g.emin
    let q := roundMag r m e (x - g.p)
    ((x - g.emin).toNat <<< g.p) + q

def gridFp32 : FGrid := ⟨23, -126⟩
def gridBf16 : FGrid := ⟨7, -126⟩
def gridF8 : FGrid := ⟨3, -6⟩
def gridG8 : FGrid := ⟨2, -14⟩
def gridF4 : FGrid := ⟨1, 0⟩

/-- The value of a floating code without sign, for an exponent that is not special. -/
def FGrid.val (g : FGrid) (neg : Bool) (c : Nat) : Val :=
  let ex := c >>> g.p
  let fr := c % 2 ^ g.p
  if ex = 0 then .fin neg fr (g.emin - g.p)
  else .fin neg (fr + 2 ^ g.p) (g.emin - g.p + (ex - 1 : Nat))

/-! ### FP32 and BF16 -/

def nan32 : W32 := 0x7FC00000#32
def nan16 : Nat := 0x7FC0
def zero32 : W32 := 0#32

/-- IEEE 754 binary32 (Table 02-1). -/
def decFp32 (w : W32) : Val :=
  let n := w.toNat
  let neg := decide (2 ^ 31 ≤ n)
  let c := n % 2 ^ 31
  if c > 0x7F800000 then .nan
  else if c = 0x7F800000 then .inf neg
  else gridFp32.val neg c

/-- One rounding to FP32; overflow gives an infinity of the sign (R59), NaN the canonical NaN (R27). -/
def encFp32 (r : Rnd) (v : Val) : W32 :=
  match v with
  | .nan => nan32
  | .inf neg => BitVec.ofNat 32 (0x7F800000 + if neg then 2 ^ 31 else 0)
  | .fin neg m e =>
    let c := gridFp32.code r m e
    BitVec.ofNat 32 (min c 0x7F800000 + if neg then 2 ^ 31 else 0)

/-- rne_fp32 of R58. -/
def rne32 (v : Val) : W32 := encFp32 .rne v

/-- BF16 (R29). -/
def decBf16 (n : Nat) : Val :=
  let neg := decide (2 ^ 15 ≤ n % 2 ^ 16)
  let c := n % 2 ^ 15
  if c > 0x7F80 then .nan
  else if c = 0x7F80 then .inf neg
  else gridBf16.val neg c

/-- Narrowing to BF16 (R39, R42). -/
def encBf16 (r : Rnd) (v : Val) : Nat :=
  match v with
  | .nan => nan16
  | .inf neg => 0x7F80 + if neg then 2 ^ 15 else 0
  | .fin neg m e => min (gridBf16.code r m e) 0x7F80 + if neg then 2 ^ 15 else 0

def fadd (a b : W32) : W32 := rne32 ((decFp32 a).add (decFp32 b))
def fsub (a b : W32) : W32 := rne32 ((decFp32 a).add (decFp32 b).neg)
def fmul (a b : W32) : W32 := rne32 ((decFp32 a).mul (decFp32 b))
/-- One rounding of the exact a·b + c (Table 05-2). -/
def ffma (a b c : W32) : W32 := rne32 (((decFp32 a).mul (decFp32 b)).add (decFp32 c))
def fabs (a : W32) : W32 := rne32 (decFp32 a).abs

def isNan32 (a : W32) : Bool := (decFp32 a).isNan
def isInf32 (a : W32) : Bool := (decFp32 a).isInf
def isFin32 (a : W32) : Bool := (decFp32 a).isFin

/-- MAX of R105: a canonical NaN if either input is NaN; +0 is greater than −0. -/
def fmax (a b : W32) : W32 :=
  let x := decFp32 a
  let y := decFp32 b
  if x.isNan || y.isNan then nan32
  else if x.lt y then b
  else if y.lt x then a
  else a &&& b

/-- MIN of R105. -/
def fmin (a b : W32) : W32 :=
  let x := decFp32 a
  let y := decFp32 b
  if x.isNan || y.isNan then nan32
  else if x.lt y then a
  else if y.lt x then b
  else a ||| b

/-! ### Block-scaled elements (R28 to R31) -/

/-- Formats with a shared exponent per 8 × 8 block (Table 02-1). -/
def Fmt.scaled : Fmt → Bool
  | .fp32 => false
  | .bf16 => false
  | _ => true

/-- Bits of an element (Table 02-1). -/
def Fmt.bits : Fmt → Nat
  | .fp32 => 32
  | .bf16 => 16
  | .f8 => 8
  | .g8 => 8
  | .f4 => 4
  | .m24 => 24
  | .s16s => 16
  | .s16u => 16

/-- emax of Table 02-2 and Table 02-3. -/
def Fmt.emax : Fmt → Int
  | .f8 => 8
  | .g8 => 15
  | .f4 => 2
  | _ => 0

/-- Format codes of Table 06-6. -/
def fmtOfCode : Nat → Option Fmt
  | 0 => some .fp32
  | 1 => some .bf16
  | 2 => some .f8
  | 3 => some .g8
  | 4 => some .f4
  | _ => none

/-- The element value before the block scale. -/
def elemVal (f : Fmt) (c : Nat) : Val :=
  match f with
  | .fp32 => decFp32 (BitVec.ofNat 32 c)
  | .bf16 => decBf16 c
  | .f8 =>
    let neg := decide (0x80 ≤ c % 256)
    if c % 128 = 0x7F then .nan else gridF8.val neg (c % 128)
  | .g8 =>
    let neg := decide (0x80 ≤ c % 256)
    if c % 128 > 0x7C then .nan
    else if c % 128 = 0x7C then .inf neg
    else gridG8.val neg (c % 128)
  | .f4 => gridF4.val (decide (8 ≤ c % 16)) (c % 8)
  | .m24 =>
    let n := c % 2 ^ 24
    if n < 2 ^ 23 then .fin false n (-22) else .fin true (2 ^ 24 - n) (-22)
  | .s16s =>
    let n := c % 2 ^ 16
    if n < 2 ^ 15 then .fin false n (-14) else .fin true (2 ^ 16 - n) (-14)
  | .s16u => .fin false (c % 2 ^ 16) (-15)

/-- dec(): an element with its block scale (R30); E = 0xFF makes every element NaN. -/
def decElem (f : Fmt) (E c : Nat) : Val :=
  if f.scaled then
    if E = 0xFF then .nan else (elemVal f c).scale ((E : Int) - 127)
  else elemVal f c

/-- Widening to FP32 (R38): exact, but a decoded magnitude of 2^128 or more becomes an infinity. -/
def widen (v : Val) : W32 := rne32 v

/-- The largest element code (without sign) a finite value is clamped to (R36), and the one of M24 and S16. -/
def Fmt.maxCode : Fmt → Nat
  | .fp32 => 0x7F7FFFFF
  | .bf16 => 0x7F7F
  | .f8 => 0x7E
  | .g8 => 0x7B
  | .f4 => 7
  | .m24 => 2 ^ 23 - 1
  | .s16s => 2 ^ 15 - 1
  | .s16u => 2 ^ 16 - 1

/-- The sign bit's weight of a sign-and-magnitude element. -/
def Fmt.signBit : Fmt → Nat
  | .fp32 => 2 ^ 31
  | .bf16 => 2 ^ 15
  | .f8 => 0x80
  | .g8 => 0x80
  | .f4 => 8
  | _ => 0

/-- Two's complement of a magnitude; −0 gives code 0 (R26). -/
def twos (w : Nat) (neg : Bool) (q : Nat) : Nat := if neg then (2 ^ w - q) % 2 ^ w else q

/-- Rounding of a finite scaled value onto the element grid, with the clamp of R36. A negative value of an unsigned S16
element gives code 0: the format has no code for it. -/
def encScaledFin (f : Fmt) (r : Rnd) (neg : Bool) (m : Nat) (e : Int) : Nat :=
  match f with
  | .f8 => min (gridF8.code r m e) f.maxCode + if neg then f.signBit else 0
  | .g8 => min (gridG8.code r m e) f.maxCode + if neg then f.signBit else 0
  | .f4 => min (gridF4.code r m e) f.maxCode + if neg then f.signBit else 0
  | .m24 => twos 24 neg (min (roundMag r m e (-22)) f.maxCode)
  | .s16s => twos 16 neg (min (roundMag r m e (-14)) f.maxCode)
  | .s16u => if neg then 0 else min (roundMag r m e (-15)) f.maxCode
  | .fp32 => (encFp32 r (.fin neg m e)).toNat
  | .bf16 => encBf16 r (.fin neg m e)

/-- The largest |x| among the finite inputs, as m × 2^e (m = 0: none or all zero). -/
def amaxOf : List W32 → Nat × Int
  | [] => (0, 0)
  | w :: ws =>
    let a := amaxOf ws
    match decFp32 w with
    | .fin _ m e => if Val.absGt (.fin false m e) (.fin false a.1 a.2) then (m, e) else a
    | _ => a

/-- The shared exponent of R35: fixed before any element is rounded. -/
def blockExp (f : Fmt) (xs : List W32) : Nat :=
  if xs.any isNan32 then 0xFF
  else if (f != .g8) && xs.any isInf32 then 0xFF
  else
    let a := amaxOf xs
    if a.1 = 0 then 0
    else (min (max (floorLog2 a.1 a.2 - f.emax + 127) 0) 254).toNat

/-- Encoding of one element of a block of exponent E (R35). -/
def encBlockElem (f : Fmt) (E : Nat) (r : Rnd) (w : W32) : Nat :=
  if E = 0xFF then 0
  else
    match decFp32 w with
    | .nan => 0
    | .inf neg => 0x7C + if neg then 0x80 else 0
    | .fin neg m e => encScaledFin f r neg m (e - ((E : Int) - 127))

/-- Encoding of an element of any output format of Table 02-5; E is the block's exponent (0 for FP32 and BF16). -/
def encElem (f : Fmt) (E : Nat) (r : Rnd) (w : W32) : Nat :=
  match f with
  | .fp32 => w.toNat
  | .bf16 => encBf16 r (decFp32 w)
  | _ => encBlockElem f E r w

/-! ### The rounding-noise generator (R43, R44) -/

def weyl : W64 := 0x9E3779B97F4A7C15#64

/-- mix() of R43. -/
def mix (z0 : W64) : W64 :=
  let z1 := (z0 ^^^ (z0 >>> 30)) * 0xBF58476D1CE4E5B9#64
  let z2 := (z1 ^^^ (z1 >>> 27)) * 0x94D049BB133111EB#64
  z2 ^^^ (z2 >>> 31)

/-- stream_key() of R43: job seed, step tag, site and use (8 bits), p (16 bits), q (32 bits). -/
def streamKey (seed : W64) (tag siteUse p q : Nat) : W64 :=
  let k0 := mix (seed + weyl)
  let k1 := mix (k0 ^^^ BitVec.ofNat 64 (tag % 2 ^ 32))
  mix (k1 ^^^ BitVec.ofNat 64 ((siteUse % 256) <<< 56 ^^^ (p % 2 ^ 16) <<< 32 ^^^ (q % 2 ^ 32)))

/-- noise() of R43. -/
def noise (seed : W64) (tag siteUse p q element : Nat) : W64 :=
  mix (streamKey seed tag siteUse p q + BitVec.ofNat 64 (element + 1) * weyl)

/-- The draw of one element under a stream key already formed. -/
def draw32 (key : W64) (element : Nat) : Nat := (mix (key + BitVec.ofNat 64 (element + 1) * weyl) >>> 32).toNat

/-- The rounding of one element: RNE, or SR keyed by the element's own index (R41). -/
def rndAt (key : Option W64) (element : Nat) : Rnd :=
  match key with
  | none => .rne
  | some k => .sr (draw32 k element)

/-! ### Bytes, blocks and squares (R6, R30, R32, R33) -/

/-- Little-endian bytes of a number. -/
def leBytes : Nat → Nat → List Byte
  | 0, _ => []
  | k + 1, n => BitVec.ofNat 8 n :: leBytes k (n / 256)

/-- The number of little-endian bytes. -/
def leNat : List Byte → Nat
  | [] => 0
  | b :: bs => b.toNat + 256 * leNat bs

/-- n bytes from offset o (missing bytes read 0). -/
def byteAt (bs : List Byte) (o : Nat) : Nat := (bs.getD o 0#8).toNat

def leAt (bs : List Byte) (o n : Nat) : Nat := leNat ((bs.drop o).take n)

/-- Bytes of the element area of one block (Table 02-4). -/
def Fmt.blockBytes (f : Fmt) : Nat := 8 * f.bits

/-- Bytes of a square (Table 02-4). -/
def Fmt.squareBytes : Fmt → Nat
  | .f8 => 4160
  | .g8 => 4160
  | .f4 => 2112
  | .bf16 => 8192
  | .fp32 => 16384
  | .m24 => 12352
  | .s16s => 8256
  | .s16u => 8256

/-- Lines of 64 bytes of a square (Table 02-4). -/
def Fmt.squareLines (f : Fmt) : Nat := f.squareBytes / 64

/-- Block number of element (r, c) of a square, and its index within the block (R32). -/
def blockOf (r c : Nat) : Nat := 8 * (r / 8) + c / 8
def inBlock (r c : Nat) : Nat := 8 * (r % 8) + c % 8

/-- Byte offset of the byte that holds element k of block b, and the bit offset in it (F4 packs two to a byte). -/
def elemByteOff (f : Fmt) (b k : Nat) : Nat := b * f.blockBytes + k * f.bits / 8

/-- Offset of the exponent area (Table 02-4). -/
def Fmt.expOff (f : Fmt) : Nat := 64 * f.blockBytes

/-- The code of element k of block b in a square held as bytes. -/
def sqCode (f : Fmt) (sq : List Byte) (b k : Nat) : Nat :=
  let o := elemByteOff f b k
  match f with
  | .f4 => if k % 2 = 0 then byteAt sq o % 16 else byteAt sq o / 16
  | _ => leAt sq o (f.bits / 8)

/-- The exponent byte of block b. -/
def sqExp (f : Fmt) (sq : List Byte) (b : Nat) : Nat := if f.scaled then byteAt sq (f.expOff + b) else 0

/-- The value of element (r, c) of a square held as bytes. -/
def sqVal (f : Fmt) (sq : List Byte) (r c : Nat) : Val :=
  decElem f (sqExp f sq (blockOf r c)) (sqCode f sq (blockOf r c) (inBlock r c))

/-- The bytes of the element area of a block from its 64 codes in block order. -/
def packCodes (f : Fmt) : List Nat → List Byte
  | [] => []
  | [c] => if f == .f4 then [BitVec.ofNat 8 (c % 16)] else leBytes (f.bits / 8) c
  | c :: d :: cs =>
    if f == .f4 then BitVec.ofNat 8 (c % 16 + 16 * (d % 16)) :: packCodes f cs
    else leBytes (f.bits / 8) c ++ leBytes (f.bits / 8) d ++ packCodes f cs

/-- One encoded block: exponent and codes in block order. -/
structure Block where
  exp : Nat
  codes : List Nat
  deriving DecidableEq, Repr

/-- Encoding of a whole block (R35); `elt k` is the element index of R44 that keys element k's draw. -/
def encBlock (f : Fmt) (key : Option W64) (elt : Nat → Nat) (xs : List W32) : Block :=
  let E := blockExp f xs
  ⟨E, xs.zipIdx.map (fun (w, k) => encElem f E (rndAt key (elt k)) w)⟩

/-- A square from its 64 blocks, in ascending block number (R32). -/
def squareOf (f : Fmt) (bs : List Block) : List Byte :=
  bs.flatMap (fun b => packCodes f b.codes) ++
  if f.scaled then bs.map (fun b => BitVec.ofNat 8 b.exp) else []

/-- The turn of R33 on block numbers or on elements of a block: (I, J) to (J, I). -/
def turnIdx (k : Nat) : Nat := 8 * (k % 8) + k / 8

def turnBlock (b : Block) : Block := ⟨b.exp, (List.range 64).map (fun k => b.codes.getD (turnIdx k) 0)⟩

/-- A square as blocks. -/
def sqBlocks (f : Fmt) (sq : List Byte) : List Block :=
  (List.range 64).map (fun b => ⟨sqExp f sq b, (List.range 64).map (fun k => sqCode f sq b k)⟩)

def turnBlocks (bs : List Block) : List Block :=
  (List.range 64).map (fun b => turnBlock (bs.getD (turnIdx b) ⟨0, []⟩))

/-- The turn of a square (R33): the same bits in the other order. -/
def turnSquare (f : Fmt) (sq : List Byte) : List Byte := squareOf f (turnBlocks (sqBlocks f sq))

/-- Bits hi:lo of a number. -/
def bitsOf (n hi lo : Nat) : Nat := (n >>> lo) % 2 ^ (hi + 1 - lo)

/-- n with bits hi:lo replaced by v. -/
def setBits (n hi lo v : Nat) : Nat :=
  n - (bitsOf n hi lo <<< lo) + ((v % 2 ^ (hi + 1 - lo)) <<< lo)

def ceilDiv (a b : Nat) : Nat := (a + b - 1) / b

end Sys2Proof
end

