-- ==== Sys2Proof/Machine/Flags.lean ====
section
/-!
DEFINITION. Machine/Flags.lean: interrupt causes, NOTIFY frames and packets, the fault log and the raising of a fault
(R259, R263, R272, R328, R329).
-/
namespace Sys2Proof.Machine

/-- The time counter as a number of ns. -/
def State.now (s : State) : Nat := s.time.toNat

/-- Fields packed at byte offsets: (offset, bytes, value). -/
def packAt (fs : List (Nat × Nat × Nat)) : Nat :=
  fs.foldl (fun a f => a + ((f.2.2 % 2 ^ (8 * f.2.1)) <<< (8 * f.1))) 0

/-- FLITS of a packet with a payload of P bytes (R208). -/
def flitsFor (n : Nat) : Nat := ceilDiv (n - 224) 240

/-- Bytes of a line of n bytes, zero-padded. -/
def padTo (n : Nat) (bs : List Byte) : List Byte := (bs ++ List.replicate n 0#8).take n

/-! ### Causes -/

/-- The sixteen bytes of a NOTIFY (Table 12-9). -/
def notifyBytes (s : State) (code v dom seq : Nat) : List Byte :=
  leBytes 2 code ++ leBytes 1 v ++ leBytes 1 dom ++ leBytes 8 s.now ++ leBytes 4 seq

/-- Whether the module may send on the field bus (R271, Table 12-11). -/
def canSends (s : State) : Bool := s.rd .canEnable == 1

/-- A NOTIFY frame: queued behind at most 16; a full queue drops the oldest and counts it (R272). Only a controller that is
bus-off keeps frames queued. -/
def canNotify (s : State) (bs : List Byte) : State :=
  if s.can.nodeId = 0 || !canSends s then s
  else if s.can.busOff then
    let q := s.can.notify
    let s := if q.length < 16 then s else s.bump .canIgnored
    { s with can := { s.can with notify := (if q.length < 16 then q else q.drop 1) ++ [(0x100 + s.can.nodeId, bs)] } }
  else s.emit (.canFrame (0x100 + s.can.nodeId) bs)

/-- The module's own device number, 0xFFFF unassigned. -/
def State.device (s : State) : Nat := s.rd .fabricDevice

/-- A packet that the module originates: its SRC is Board 0 of the module unless a Board sends it. It travels the network of
its class on the package; a packet for another module meets PACKET_FORWARD at a port die (R22). -/
def State.send (s : State) (p : Pkt) : State := s.emit (.packet none p)

/-- A fabric address of the module's Board b. -/
def State.addrOf (s : State) (b : Nat) : Nat := s.device * 16 + b

/-- A Board in service: enabled and not retired (R3, R16, R325). -/
def State.boardOk (s : State) (b : Nat) : Bool :=
  b < 16 && !testBit s.ident.disabled b && !testBit s.flash.retiredBoards b

def State.boardsOk (s : State) : List Nat := (List.range 16).filter s.boardOk

/-- The address that hub, port dies and stacks put in SRC: that of the lowest-numbered Board in service (R210). -/
def State.ownAddr (s : State) : Nat := s.addrOf (s.boardsOk.headD 0)

/-- The Ehrerlink NOTIFY (opcode 0x11) of R272; nothing is sent while FM_ADDRESS is 0xFFFF. -/
def fabricNotify (s : State) (bs : List Byte) : State :=
  if s.rd .fmAddress = 0xFFFF then s
  else
    s.send { dest := s.rd .fmAddress, src := s.ownAddr, opcode := 0x11, flits := 0, lines := 1, payload := padTo 64 bs }

/-- The reports of a rising cause of vector v, 1 to 8 (R272). -/
def report (s : State) (code v dom seq : Nat) : State :=
  if v = 0 || 8 < v then s
  else
    let bs := notifyBytes s code v dom seq
    let s := if testBit (s.rd .notifyMaskCan) v then canNotify s bs else s
    if testBit (s.rd .notifyMaskFabric) v then fabricNotify s bs else s

/-- The mask bit of a vector, bit 0 of the last word of its entry in the MSI-X table (PRESUMED, log entry 49). -/
def State.masked (s : State) (v : Nat) : Bool := testBit (tget s.host.msixTable (4 * v + 3) 0) 0

/-- A vector is signalled; one that is masked becomes pending in the MSI-X pending-bit array (Table 11-2; log entry 49). -/
def State.vector (s : State) (v : Nat) : State :=
  if s.masked v then { s with host := { s.host with msixPba := orBit s.host.msixPba v } } else s.emit (.msix v)

/-- A cause of vector v (0 to 15) rises: its bit is set, its vector signalled, and it is reported (R259, R263, R272). -/
def State.signal (s : State) (v : Nat) (code : Nat := 0) (dom : Nat := 0xFF) (seq : Nat := 0) : State :=
  let s := { s with host := { s.host with irqCause := s.host.irqCause ||| BitVec.ofNat 64 (2 ^ v) } }
  report (s.vector v) code v dom seq

/-- A detail bit of a domain's cause rises (Table 12-1): vector 16 + (d mod 48) is signalled. -/
def State.domCause (s : State) (d bit : Nat) : State :=
  (s.wr .domainCauseBits (orBit (s.rd .domainCauseBits d) bit) d).vector (16 + d % 48)

/-! ### The fault log -/

/-- FLAGS bits of Table 15-5. -/
def fLasting : Nat := 0x80
def fTransient : Nat := 0x40
def fRetired : Nat := 0x20
def fVoided : Nat := 0x10
def fHalted : Nat := 0x08
def fSafe : Nat := 0x04

/-- The further vectors of the column "Also" of Table 15-4. -/
def alsoVectors (code : Nat) : List Nat :=
  if [0x0201, 0x0701, 0x0702, 0x0704].contains code then [4]
  else if [0x0401, 0x0403, 0x0705].contains code then [2]
  else if [0x0602, 0x0603, 0x0605].contains code then [5]
  else if [0x0706, 0x0707].contains code then [7]
  else if code = 0x0803 then [8]
  else if [0x0804, 0x0807, 0x0809].contains code then [3]
  else if [0x0901, 0x0902, 0x0903, 0x0904].contains code then [6]
  else []

/-- The detail bit that a fault sets at once in its domain (R328). -/
def domainBitOf (code : Nat) : Option Nat :=
  if code = 0x0202 || code = 0x0702 then some 2
  else if code = 0x0701 then some 3
  else none

/-- The open step's tag of a domain, or 0: a step is open once its opening is complete (R9). -/
def openTagOf (s : State) (d : Nat) : Nat :=
  if d < 256 && ((s.dom d).phase == .open || (s.dom d).phase == .closing) then (s.dom d).openTag else 0

/-- The record of a fault (Table 15-5). -/
def faultRecord (s : State) (f : Flt) (seq : Nat) : BitVec 512 :=
  BitVec.ofNat 512 (
    (seq % 2 ^ 32) <<< 480 + s.now <<< 416 + (f.code % 2 ^ 16) <<< 400 + (f.flags % 256) <<< 392
    + (f.kind % 256) <<< 384 + (f.unit % 2 ^ 16) <<< 368 + (f.layer % 2 ^ 16) <<< 352 + (f.mb % 2 ^ 16) <<< 336
    + (f.domain.getD 0xFF % 256) <<< 328 + (openTagOf s (f.domain.getD 256) % 2 ^ 32) <<< 288
    + (f.user % 2 ^ 64) <<< 224 + f.detail % 2 ^ 224)

/-- REPEATS of a record plus one, saturating at 255 (R329). -/
def addRepeat (r : BitVec 512) : BitVec 512 :=
  BitVec.ofNat 512 (setBits r.toNat 327 320 (min (bitsOf r.toNat 327 320 + 1) 255))

def repeatIn (l : List (Nat × BitVec 512)) (seq : Nat) : List (Nat × BitVec 512) :=
  l.map (fun e => if e.1 = seq then (e.1, addRepeat e.2) else e)

/-- The last record of a code on a unit, not more than 1 ms old (R329). -/
def recentRecord (s : State) (f : Flt) : Option Nat :=
  match s.log.last.find? (fun e => e.1 = f.code && e.2.1 = f.kind && e.2.2.1 = f.unit) with
  | some e => if s.now ≤ e.2.2.2.2.toNat + 1000000 then some e.2.2.2.1 else none
  | none => none

/-- A new record, or a repeat, or a drop (R329); the record's SEQ, or 0. -/
def logFault (s : State) (f : Flt) : State × Nat :=
  match recentRecord s f with
  | some seq =>
    (({ s with
      log := { s.log with ram := repeatIn s.log.ram seq }
      flash := { s.flash with log := repeatIn s.flash.log seq } } : State).bumpVer .logRecord seq, seq)
  | none =>
    if 256 ≤ s.log.ram.length && f.code != 0x0808 then
      (s.wr .logDropped (satAdd 32 (s.rd .logDropped) 1), 0)
    else
      let seq := s.log.nextSeq
      let last := s.log.last.filter (fun e => !(e.1 == f.code && e.2.1 == f.kind && e.2.2.1 == f.unit))
      (({ s with log := { s.log with
          ram := s.log.ram ++ [(seq, faultRecord s f seq)]
          nextSeq := seq + 1
          last := (f.code, f.kind, f.unit, seq, s.time) :: last } } : State).bumpVer .logRecord seq, seq)

/-- The Board whose control core writes a fault's record (Table 13-1): that of the Board, Frame or board-store bank that it names. -/
def Flt.board (f : Flt) : Option Nat :=
  match f.kind with
  | 1 => some f.unit
  | 2 => some (f.unit / 8)
  | 3 => some (f.unit / 32)
  | _ => none

/-- The record of a fault waits for a control core that restarts (Table 13-2). -/
def State.recordWaits (s : State) (f : Flt) : Bool := f.board.any (fun b => s.dev.restarting.contains (16 + b))

/-- A fault is reported (R328): its record, vector 1, the further vectors of its row, and its domain's detail bits. -/
def reportFault (f : Flt) (s : State) : State :=
  let r := logFault s f
  let s := r.1.signal 1 f.code (f.domain.getD 0xFF) r.2
  let s := forEach (alsoVectors f.code) (fun v s => s.signal v f.code (f.domain.getD 0xFF) r.2) s
  match domainBitOf f.code, f.domain with
  | some b, some d => s.domCause d b
  | _, _ => s

/-- Raise a fault: it is reported now, or once its Board's control core runs again (R285). -/
def State.raise (s : State) (f : Flt) : State :=
  if s.recordWaits f then s.modBoard (f.board.getD 0) (fun x => { x with loadWaits := x.loadWaits ++ [.fault f] })
  else reportFault f s

end Sys2Proof.Machine
end

