-- ==== Sys2Proof/Machine/Ops.lean ====
section
/-!
DEFINITION. Machine/Ops.lean: the named operations of the module: units in service, device state and pins, regions and stack
memory, job tables, semaphores and links.
-/
namespace Sys2Proof.Machine

/-! ### Free values -/

/-- A draw of the model's free values. -/
def State.draw (s : State) (bits : Nat) : Nat × State :=
  ((Config.freeValue s.fresh).toNat % 2 ^ bits, { s with fresh := s.fresh + 1 })

/-- A measured value that no operand carries takes a free value (log entry 4). -/
def wrFree (r : Reg) (unit : Nat) (s : State) : State :=
  let d := s.draw r.bits
  d.2.wr r d.1 unit

/-- A register returns to its default for every unit. -/
def State.clearReg (s : State) (r : Reg) : State :=
  { s with regs := s.regs.filter (fun e => e.1 % 2 ^ 24 != r.key 0) }

/-! ### Units in service (R3, R16, R325) -/

def State.frameOk (s : State) (b f : Nat) : Bool := s.boardOk b && f < 8 && !testBit s.flash.retiredFrames (8 * b + f)

def State.stackOk (s : State) (k : Nat) : Bool := k < 12 && !testBit s.flash.retiredStacks k

def State.stacksOk (s : State) : List Nat := (List.range 12).filter s.stackOk

/-- Table 01-1. -/
def boardHalf (b : Nat) : Nat := b / 8
def stackHalf (k : Nat) : Nat := k / 6
def portHalf (p : Nat) : Nat := p / 12

/-- Position k of a port is not retired (R202, Table 09-11). -/
def State.laneGood (s : State) (p k : Nat) : Bool := !testBit s.flash.retiredLanes (4 * p + k)

/-! ### Device state and pins (chapters 13, 17) -/

/-- The states in which Boards, stacks and port dies are powered (Table 13-3). -/
def State.powered (s : State) : Bool :=
  s.dev.state == .ready || s.dev.state == .running || s.dev.state == .halted

/-- The states in which the hub runs. -/
def State.hubUp (s : State) : Bool := s.powered || s.dev.state == .service || s.dev.state == .safe

/-- A new device state; each change is a cause of vector 3 (Table 11-10). -/
def State.setState (s : State) (st : DevState) : State :=
  if s.dev.state = st then s
  else ({ s with dev := { s.dev with state := st, since := s.dev.up } }).signal 3

def State.setJob (s : State) (j : JobState) : State := { s with dev := { s.dev with jobState := j } }

/-- DEVICE_STATE (Table 12-12). -/
def devCode : DevState → Nat
  | .off => 0
  | .standby => 1
  | .service => 2
  | .ready => 3
  | .running => 4
  | .halted => 5
  | .safe => 6

def jobCode : JobState → Nat
  | .none => 0
  | .loading => 1
  | .loaded => 2
  | .running => 3
  | .failed => 4

/-- ALERT# (R366): asserted in SAFE, with THERMTRIP#, and while a failed boot holds the module in STANDBY. -/
def State.alert (s : State) : Bool :=
  s.dev.state == .safe || s.dev.thermTrip || (s.dev.state == .standby && s.dev.bootFailed && s.dev.pwrEn)

/-- WAKE# (R366). -/
def State.wake (s : State) : Bool :=
  !s.host.inL0 && s.hubUp && (s.host.irqCause.toNat &&& 0x1FE) != 0

/-- CHAIN_OUT (R273). -/
def State.chainOut (s : State) : Bool := s.dev.state != .off && s.can.chainIn && s.can.nodeId != 0

/-! ### Commit domains -/

/-- A step of the domain is open for every rule (R9): its opening is complete and its close is not applied. -/
def Dom.isOpen (d : Dom) : Bool := d.phase == .open || d.phase == .closing

/-- A step has been started and is not closed. -/
def Dom.busy (d : Dom) : Bool := d.isOpen || d.phase == .opening

/-- A Board carries a domain of the job (DOMAIN_BOARDS). -/
def State.carries (s : State) (b : Nat) : Bool := s.doms.any (fun e => e.2.used && testBit e.2.boards b)

/-- A Board's store can be accessed: that of a Board in DEEP_SLEEP is in retention (R16, R311). -/
def State.storeUp (s : State) (b : Nat) : Bool := s.boardOk b && !(s.board b).asleep

def State.usedDoms (s : State) : List Nat := (s.doms.filter (fun e => e.2.used)).map (·.1)

def State.anyOpen (s : State) : Bool := s.doms.any (fun e => e.2.isOpen)

/-- The epochs of a domain (R122). -/
def State.epochsOf (s : State) (d : Nat) : List Nat := (s.job.epochs.filter (fun e => e.2 == d)).map (·.1)

/-- The domain of an epoch. -/
def State.domOfEpoch (s : State) (e : Nat) : Option Nat := s.job.epochs.lookup e

/-- An admitted micro-batch of the open step. -/
def Dom.mb (d : Dom) (m : Nat) : Option MBatch := d.mbs.find? (fun x => x.index == m)

/-! ### Groups (Table 10-1) -/

def State.grp (s : State) (g : Nat) : BitVec 192 := tget s.job.groups g 0#192

def gEpoch (e : BitVec 192) : Nat := bitsOf e.toNat 191 176
def gKind (e : BitVec 192) : Nat := bitsOf e.toNat 175 172
def gMembers (e : BitVec 192) : Nat := bitsOf e.toNat 171 156
def gRoot (e : BitVec 192) : Nat := bitsOf e.toNat 155 140
def gBase (e : BitVec 192) : Nat := bitsOf e.toNat 139 124
def gForkPorts (e : BitVec 192) : Nat := bitsOf e.toNat 123 100
def gForkBoards (e : BitVec 192) : Nat := bitsOf e.toNat 99 84
def gUpPort (e : BitVec 192) : Nat := bitsOf e.toNat 83 79
def gFanFirst (e : BitVec 192) : Nat := bitsOf e.toNat 78 69
def gFanCount (e : BitVec 192) : Nat := bitsOf e.toNat 68 65
def gRmapBase (e : BitVec 192) : Nat := bitsOf e.toNat 64 45
def gDomain (e : BitVec 192) : Nat := bitsOf e.toNat 44 37
def gParts (e : BitVec 192) : Nat := bitsOf e.toNat 36 35

/-- The members of a group, in list order (R222). -/
def State.membersOf (s : State) (e : BitVec 192) : List Nat :=
  (List.range (gMembers e)).map (fun i => tget s.job.members ((gBase e + i) % 65536) 0xFFFF)

/-- The ports that lead away from the root. -/
def gChildren (e : BitVec 192) : List Nat := bitList (gForkPorts e) 24

/-! ### Parameter groups (Table 08-2) -/

def State.pgroup (s : State) (g : Nat) : W64 := tget s.job.pgroups g 0#64

def pgSlot (e : W64) : Nat := bitsOf e.toNat 63 56
def pgDomain (e : W64) : Nat := bitsOf e.toNat 55 48
def pgTensor (e : W64) : Nat := bitsOf e.toNat 47 32
def pgWatch (e : W64) : Nat := bitsOf e.toNat 31 24
def pgLayer (e : W64) : Nat := bitsOf e.toNat 23 8
def pgFrozen (e : W64) : Bool := testBit e.toNat 7
def pgUsed (e : W64) : Bool := testBit e.toNat 6

/-- The domain of a rule slot: that of the groups that name it (R180). -/
def State.slotDomain (s : State) (slot : Nat) : Option Nat :=
  (s.job.pgroups.find? (fun g => pgUsed g.2 && pgSlot g.2 == slot)).map (fun g => pgDomain g.2)

/-! ### Regions and stack memory (R161 to R164) -/

def stackBytes : Nat := 0x1800000000

def stackOf (dpa : Nat) : Nat := dpa / stackBytes

/-- The channel of a DPA (R161). -/
def channelOf (dpa : Nat) : Nat :=
  let o := dpa % stackBytes
  (bitsOf o 12 8 ^^^ bitsOf o 17 13) ^^^ bitsOf o 22 18

/-- The bank of a board-store address (R99). -/
def storeBank (a : Nat) : Nat := (bitsOf a 12 8 ^^^ bitsOf a 17 13) ^^^ bitsOf a 22 18

def storeBytes : Nat := 0x6000000

def rDomain (e : BitVec 128) : Nat := bitsOf e.toNat 127 120
def rKind (e : BitVec 128) : Nat := bitsOf e.toNat 119 116
def rComp (e : BitVec 128) : Nat := bitsOf e.toNat 115 111
def rVtBase (e : BitVec 128) : Nat := bitsOf e.toNat 110 89
def rSquares (e : BitVec 128) : Nat := bitsOf e.toNat 88 67
def rBase (e : BitVec 128) : Nat := bitsOf e.toNat 55 31 * 65536
def rSize (e : BitVec 128) : Nat := bitsOf e.toNat 30 10 * 65536

def State.region (s : State) (r : Nat) : BitVec 128 := tget s.job.regions r 0#128

/-- Run-table fields (Table 08-3). -/
def nGroup (e : BitVec 128) : Nat := bitsOf e.toNat 127 116
def nRegion (e : BitVec 128) : Nat := bitsOf e.toNat 115 110
def nFirstSq (e : BitVec 128) : Nat := bitsOf e.toNat 109 88
def nQFirst (e : BitVec 128) : Nat := bitsOf e.toNat 87 66
def nCount (e : BitVec 128) : Nat := bitsOf e.toNat 65 44
def nOwner (e : BitVec 128) : Nat := bitsOf e.toNat 43 28

/-- The region-table entry that holds a DPA. -/
def State.regionAt (s : State) (dpa : Nat) : Option (Nat × BitVec 128) :=
  s.job.regions.find? (fun e => rKind e.2 != 0 && rBase e.2 ≤ dpa && dpa < rBase e.2 + rSize e.2)

/-- Lines of a component (R163). -/
def compLines : Nat → Nat
  | 0 => 193
  | 1 => 129
  | 2 => 129
  | 3 => 65
  | _ => 65

/-- The slot size S in bytes (R163). -/
def slotBytes (e : BitVec 128) : Nat :=
  64 * ((List.range 5).foldl (fun a c => if testBit (rComp e) c then a + compLines c else a) 0)

/-- The offset of a component in a plane, in bytes; none if the region lacks it. -/
def compOffset (e : BitVec 128) (c : Nat) : Option Nat :=
  if testBit (rComp e) c then
    some (64 * ((List.range c).foldl (fun a k => if testBit (rComp e) k then a + compLines k else a) 0))
  else none

/-- The first byte of plane p of square i (R163). -/
def planeAddr (e : BitVec 128) (i p : Nat) : Nat := rBase e + (2 * i + p) * slotBytes e

/-- Reading and writing stack memory by DPA, and a Board's store by address. -/
def State.dramRead (s : State) (a n : Nat) : List Byte := s.dram.read a n
def State.dramWrite (s : State) (a : Nat) (bs : List Byte) : State := { s with dram := s.dram.write a bs }
def storeKey (b a : Nat) : Nat := b * 2 ^ 27 + a
def State.storeRead (s : State) (b a n : Nat) : List Byte := s.store.read (storeKey b a) n
def State.storeWrite (s : State) (b a : Nat) (bs : List Byte) : State := { s with store := s.store.write (storeKey b a) bs }

/-- A block counter (R353): 40 bits and its sticky flag; nothing counts while the counters are frozen (R356). -/
def countBlock (id n : Nat) (s : State) : State :=
  if n = 0 || s.cnt.freeze.frozen then s
  else
    let old := tget s.cnt.block id (0, false)
    { s with cnt := { s.cnt with block := tset s.cnt.block id (satAdd 40 old.1 n, old.2 || decide (2 ^ 40 - 1 ≤ old.1 + n)) } }

/-! ### The bulk mesh (R18, Table 01-4) -/

/-- A router's place: half, column x and row y. Column 3 faces the seam; the router at (3, y) of one half is linked to that of the other. -/
structure MeshPos where
  half : Nat
  x : Nat
  y : Nat
  deriving DecidableEq, Repr

def boardPos (b : Nat) : MeshPos := ⟨boardHalf b, 1 + b % 2, b % 8 / 2⟩

def stackPos (k : Nat) : MeshPos :=
  let at_ := [(3, 0), (0, 1), (3, 1), (0, 2), (3, 2), (3, 3)].getD (k % 6) (0, 0)
  ⟨stackHalf k, at_.1, at_.2⟩

def portDiePos (d : Nat) : MeshPos := ⟨d / 2, 0, 3 * (d % 2)⟩

/-- The hub die attaches to the seam routers of rows 1 and 2 in both halves. -/
def hubPos : List MeshPos := [⟨0, 3, 1⟩, ⟨0, 3, 2⟩, ⟨1, 3, 1⟩, ⟨1, 3, 2⟩]

/-- The number of a router (Table 16-5). -/
def MeshPos.router (p : MeshPos) : Nat := 16 * p.half + 4 * p.y + p.x

/-- The numbers from a to b, in either direction. -/
def walkFrom (a b : Nat) : List Nat :=
  if a ≤ b then (List.range (b + 1 - a)).map (a + ·) else (List.range (a + 1 - b)).map (a - ·)

/-- Inside a half: first along x, then along y. -/
def halfRoute (p : MeshPos) (x y : Nat) : List MeshPos :=
  (walkFrom p.x x).map (fun i => { p with x := i }) ++ ((walkFrom p.y y).drop 1).map (fun j => { p with x := x, y := j })

/-- The routers on the way; traffic to the other half runs to the seam router of its own row, crosses, and goes on there. -/
def meshRoute (p q : MeshPos) : List MeshPos :=
  if p.half = q.half then halfRoute p q.x q.y else halfRoute p 3 p.y ++ halfRoute ⟨q.half, 3, p.y⟩ q.x q.y

/-- Flits of a packet forwarded by each router on its way (Table 16-5). -/
def countRoute (p q : MeshPos) (flits : Nat) (s : State) : State :=
  forEach (meshRoute p q) (fun r s => countBlock (0x60 + 2 * r.router) flits s) s

/-- 64-byte reads (0) or writes (1) of n bytes from a, on their channels (Table 16-5). -/
def countLines (k a n : Nat) (s : State) : State :=
  let ls := (List.range ((a + n + 63) / 64 - a / 64)).map (fun i => channelOf (64 * (a / 64 + i)))
  forEach (List.range 32) (fun c s => countBlock (0xA0 + 96 * stackOf a + 3 * c + k) (ls.count c) s) s

/-- Flits of a transfer of n bytes on the package: those of a packet (R203, R208; DEDUCED, log entry 50). -/
def meshFlits (n : Nat) : Nat := flitsFor n + 1

/-- The seam router by which hub and stack meet: that of row 1 or 2 in the stack's half, whichever is nearer (DESIGN CHOICE, log entry 50). -/
def hubFor (k : Nat) : MeshPos := hubPos.getD (2 * stackHalf k + (stackPos k).y / 2) ⟨0, 3, 1⟩

/-- A read of n bytes of stack k from a place: a flit of request, and the data. -/
def meshRead (p : MeshPos) (k n : Nat) (s : State) : State :=
  if k < 12 then countRoute (stackPos k) p (meshFlits n) (countRoute p (stackPos k) 1 s) else s

/-- A write of n bytes of stack k from a place: the data, and a flit of answer. -/
def meshWrite (p : MeshPos) (k n : Nat) (s : State) : State :=
  if k < 12 then countRoute (stackPos k) p 1 (countRoute p (stackPos k) (meshFlits n) s) else s

/-- A line that is written whole reads clean again (R167, R100). -/
def clearBad (bad : List Nat) (a n : Nat) : List Nat := bad.filter (fun l => l < (a + 63) / 64 || (a + n) / 64 ≤ l)

def State.stackWrite (s : State) (a : Nat) (bs : List Byte) : State :=
  (countLines 1 a bs.length (s.dramWrite a bs)).modStack (stackOf a) (fun k => { k with
    bad := clearBad k.bad a bs.length, soft := clearBad k.soft a bs.length })

/-- A corrected read of stack lines: counted, written back, and their rows queued for the targeted test (R166). -/
def correctLines (k : Nat) (ls : List Nat) (s : State) : State :=
  (forEach ls (fun _ s => s.bump .eccCorrected k) s).modStack k (fun x => { x with
    soft := x.soft.filter (fun l => !ls.contains l), rowTests := x.rowTests ++ ls.filter (fun l => !x.rowTests.contains l) })

/-- A read of n bytes of stack memory from a has been served: its lines are counted, and those with a single-bit error corrected. -/
def stackServed (a n : Nat) (s : State) : State :=
  let k := stackOf a
  let ls := (s.stack k).soft.filter (fun l => decide (a / 64 ≤ l) && decide (l < (a + n + 63) / 64))
  countLines 0 a n (if ls.isEmpty then s else correctLines k ls s)

/-- A Board, and the hub, have read or write n bytes of stack memory: what the stack does, and the way there and back (R18). -/
def boardServed (b a n : Nat) (s : State) : State := meshRead (boardPos b) (stackOf a) n (stackServed a n s)
def hubServed (a n : Nat) (s : State) : State := meshRead (hubFor (stackOf a)) (stackOf a) n (stackServed a n s)
def State.boardStackWrite (s : State) (b a : Nat) (bs : List Byte) : State :=
  meshWrite (boardPos b) (stackOf a) bs.length (s.stackWrite a bs)
def State.hubStackWrite (s : State) (a : Nat) (bs : List Byte) : State :=
  meshWrite (hubFor (stackOf a)) (stackOf a) bs.length (s.stackWrite a bs)

/-- An uncorrectable line among n bytes from a (R167). -/
def State.badLine (s : State) (a n : Nat) : Option Nat :=
  (s.stack (stackOf a)).bad.find? (fun l => a / 64 ≤ l && l < (a + n + 63) / 64)

/-- The version record of a square (R168). -/
def State.vrec (s : State) (k i : Nat) : VRec := tget (s.stack k).vt i {}
def State.setVrec (s : State) (k i : Nat) (v : VRec) : State := s.modStack k (fun x => { x with vt := tset x.vt i v })

/-- The word that holds a version record is uncorrectable (R168). -/
def State.vrecBad (s : State) (k i : Nat) : Bool := (s.stack k).vtBad.contains (i / 4)

/-- The 16 bits of a record (Table 07-4). -/
def VRec.bits (v : VRec) : Nat := (if v.dirty then 2 ^ 15 else 0) + (if v.p then 2 ^ 14 else 0) + v.tag8 % 256

def State.dreg (s : State) (k d : Nat) : DReg := tget (s.stack k).regs d {}
def State.setDreg (s : State) (k d : Nat) (r : DReg) : State := s.modStack k (fun x => { x with regs := tset x.regs d r })

/-- committed_plane() of R171. -/
def committedPlane (v : VRec) (ds : DReg) : Bool :=
  if !v.dirty then v.p
  else if ds.settling && ds.lastOut == 1 then v.p
  else !v.p

/-- What the read rule decides (R171). -/
inductive ReadRule where
  | plane (p : Bool)
  | ahead
  | old
  deriving DecidableEq, Repr

/-- resolve_read() of R171. -/
def resolveRead (v : VRec) (ds : DReg) (g : Nat) : ReadRule :=
  if ds.isOpen && g == ds.openTag then .plane (committedPlane v ds)
  else if ds.isOpen && ds.openTag < g then .ahead
  else if !ds.isOpen && ds.committedTag < g then .plane (committedPlane v ds)
  else .old

/-- The square and component offset of a line of a VERSIONED region; none if the line is not at a square address (R171). -/
def squareAt (e : BitVec 128) (dpa : Nat) : Option (Nat × Nat) :=
  let S := slotBytes e
  if S = 0 then none
  else
    let o := dpa - rBase e
    let i := o / (2 * S)
    let off := o % (2 * S)
    if off < S && i < rSquares e then some (i, off) else none

/-- The record of an uncorrectable line or version word (Table 15-6). `reader`: 1 Board, 2 Reckoner, 3 scrub, 4 snapshot engine,
5 host. The unit is the channel (32 × stack + channel) or the board-store bank (32 × Board + bank); the row is a free value. -/
def ueFlt (code : Nat) (store : Option Nat) (addr reader : Nat) (dom : Option Nat) (s : State) : Flt × State :=
  let row := s.draw 32
  let k := match store with | some _ => 0 | none => stackOf addr
  let ch := match store with | some _ => storeBank addr | none => channelOf addr
  ({ code := code, kind := (match store with | some _ => 3 | none => 5)
     unit := (match store with | some b => 32 * b + ch | none => 32 * k + ch)
     domain := dom
     detail := packAt [(0, 8, addr), (8, 1, k), (9, 1, ch), (10, 4, row.1), (14, 1, reader)] }, row.2)

/-- An uncorrectable line of a stack is counted, and the test of all its channels falls due once lines on two channels failed
within 1 s (R167, Table 15-2). -/
def noteUe (dpa : Nat) (s : State) : State :=
  let k := stackOf dpa
  let ch := channelOf dpa
  let s := (s.bump .eccUncorrected k).wr .lastUeDpa dpa k
  s.modStack k (fun x =>
    let recent := x.ueTimes.filter (fun e => e.1 != ch && decide (s.now ≤ e.2.toNat + 1000000000))
    { x with ueTimes := (ch, s.time) :: x.ueTimes.filter (fun e => e.1 != ch)
             testDue := x.testDue || !recent.isEmpty })

/-- UE_MEM on a stack line, raised at once. -/
def raiseUe (dpa reader : Nat) (dom : Option Nat) (s : State) : State :=
  let r := ueFlt 0x0401 none dpa reader dom s
  noteUe dpa (r.2.raise r.1)

/-! ### Frames and holds (R63 to R77, R95, R117) -/

def Board.frame (x : Board) (f : Nat) : Frame := tget x.frames f {}
def Board.setFrame (x : Board) (f : Nat) (v : Frame) : Board := { x with frames := tset x.frames f v }

/-- Tags of the beats that were pushed into a Frame's queues and not popped, oldest first (R155). -/
def Frame.left (y : Frame) : List Nat := (tget y.rowQ 0 []).map (·.tag)

/-- The drain buffer that the Frame's next pass drains into is free (R67). -/
def Frame.drainFree (y : Frame) : Bool := !y.drains.any (fun t => t.buf == y.sel)

/-- A Tally hold is in force (R95): it lasts until the contributions that caused it have been written. -/
def Board.tallyHold (x : Board) : Bool := !x.tallyFor.isEmpty

/-- The Board's statically scheduled units stand still: in a proof hold, a stream hold, a Tally hold or a duty hold (R72, R95, R117,
R315). -/
def Board.held (x : Board) : Bool := !x.hold.isEmpty || x.streamHold.isSome || x.tallyHold || x.dutyHold

/-- The waiting contributions of a Tally hold that are still in their drain buffers. -/
def Board.tallyLeft (x : Board) : List (Nat × Nat) :=
  x.tallyFor.filter (fun t => x.frames.any (fun f => f.2.drains.any (fun d => d.launch == t.1 && d.tile == t.2)))

/-- The Board's power state: 0 ACTIVE while a Frame is ungated, 1 IDLE, 2 DEEP_SLEEP (R311). -/
def Board.powerState (x : Board) : Nat :=
  if x.asleep then 2 else if (List.range 8).any (fun f => !(x.frame f).gated) then 0 else 1

/-- A Frame is awake: a pass of it has no verdict yet (DESIGN CHOICE, log entry 47), or it was woken for the next launch (R77, R154). -/
def Board.awake (x : Board) (f : Nat) : Bool :=
  !(x.frame f).passes.isEmpty || testBit x.wakeMask f || testBit x.wakeMask (8 + f)

/-- Frames that nothing keeps awake are gated, and the others are not (R77, R154). -/
def regate (x : Board) : Board :=
  (List.range 8).foldl (fun x f =>
    if (x.frame f).gated == !x.awake f then x else x.setFrame f { x.frame f with gated := !x.awake f }) x

/-- A slice that is empty again (R96, R97). -/
def Slice.idle (z : Slice) : Slice := { z with nextMb := 0, nextUse := 0, nextPart := 0, state := 0, tag := 0 }

/-! ### Semaphores and links (R113, R114) -/

/-- A change of a semaphore, handle or hold on the Board (R127). -/
def touch (s : State) (b : Nat) : State := s.modBoard b (fun x => { x with lastChange := s.time })

def Board.sem (x : Board) (i : Nat) : Nat := tget x.sems i 0
def Board.bsem (x : Board) (i : Nat) : Nat := tget x.bsems i 0
def Board.link (x : Board) (i : Nat) : Link := tget x.links i {}
def Board.buf (x : Board) (h : Nat) : Buf := tget x.bufs h {}
def Board.setLink (x : Board) (i : Nat) (l : Link) : Board := { x with links := tset x.links i l }
def Board.setBuf (x : Board) (h : Nat) (u : Buf) : Board := { x with bufs := tset x.bufs h u }
def Board.setSem (x : Board) (i n : Nat) : Board := { x with sems := tset x.sems i n }
def Board.setBsem (x : Board) (i n : Nat) : Board := { x with bsems := tset x.bsems i n }

/-- The handles of a link, in rotation order. -/
def Link.bufNos (l : Link) : List Nat := (List.range l.bufCount).map (fun j => l.bufFirst + j)

def Board.linkBufs (x : Board) (i : Nat) : List Buf := (x.link i).bufNos.map x.buf

/-- SIZE of the smallest buffer of a link, in bytes. -/
def Board.minBuf (x : Board) (i : Nat) : Nat :=
  match (x.linkBufs i).map (fun u => u.size * 256) with
  | [] => 0
  | a :: as => as.foldl min a

/-- Every buffer of a link is FREE. -/
def Board.linkFree (x : Board) (i : Nat) : Bool := (x.linkBufs i).all (fun u => u.state == 0)

/-- A link without a fill or use: positions and queues at 0; it takes up the mode that the control core wants (R119). -/
def Link.cleared (l : Link) : Link := { l with fillPos := 0, usePos := 0, fills := 0, handles := [], filling := [], mode := l.want }

/-- A change of the link's mode is pending (R119). -/
def Link.pending (l : Link) : Bool := l.mode != l.want

/-- A remote producer or consumer is paced by Beam semaphores (R113). -/
def Link.remoteProducer (l : Link) : Bool := l.producer == 5
def Link.remoteConsumer (l : Link) : Bool := l.consumer == 5

/-- FULL_SEM at 0 and EMPTY_SEM at BUF_COUNT (R114). A link that crosses to another Board is paced by Beam semaphores: each side sets the
one that it waits on, and the other field names an entry of its Beam semaphore table (R113, R238; DEDUCED, log entry 48). -/
def Board.initSems (x : Board) (l : Link) : Board :=
  let x := if l.remoteProducer then x.setBsem l.fullSem 0 else if l.remoteConsumer then x else x.setSem l.fullSem 0
  if l.remoteConsumer then x.setBsem l.emptySem l.bufCount else if l.remoteProducer then x else x.setSem l.emptySem l.bufCount

/-- A link leaves IDLE under an epoch (R114), or passes to a new epoch once every buffer of the old one is free (R122). -/
def Board.activate (x : Board) (i e : Nat) : Board :=
  let l := x.link i
  if l.state = 0 then (x.setLink i { l.cleared with state := 1, epoch := e }).initSems l
  else if l.epoch != e && x.linkFree i then x.setLink i { l with epoch := e }
  else x

/-- A fetch run of the link has not ended. -/
def Board.running (x : Board) (i : Nat) : Bool :=
  x.fetches.any (fun r => r.link == i && !r.squashed) || x.rearms.any (fun r => r.link == i)

/-- A squashed link whose buffers are all FREE returns to IDLE, its semaphores set as in R114 (R124); a link whose mode change is pending
does so once nothing runs on it (R119; DESIGN CHOICE, log entry 48). -/
def Board.settleLink (x : Board) (i : Nat) : Board :=
  let l := x.link i
  if x.linkFree i && (l.state == 2 || (l.state == 1 && l.pending && !x.running i)) then
    (x.setLink i { l.cleared with state := 0 }).initSems l
  else if l.state = 0 && l.pending then x.setLink i l.cleared
  else x

/-- A replay of a restored step runs on a Board: its links work in handle-queue mode (R118). -/
def State.replaying (s : State) (b : Nat) : Bool := s.doms.any (fun e => testBit e.2.boards b && e.2.replay.isSome)

/-- The control core wants the links in handle-queue mode, or in the mode of the image (R118). A link that crosses to another Board has
no handle queue. -/
def Board.wantModes (x : Board) (handles : Bool) : Board :=
  x.links.foldl (fun x l =>
    (x.setLink l.1 { x.link l.1 with
      want := if handles && !l.2.remoteProducer && !l.2.remoteConsumer then 1 else l.2.image }).settleLink l.1) x

/-- The Beam semaphore's epoch (R238). -/
def Board.bsemEpochOf (x : Board) (i : Nat) : Option Nat := x.bsemEpoch.lookup i

end Sys2Proof.Machine
end

