-- ==== Sys2Proof/Machine/Probe.lean ====
section
/-!
DEFINITION. Machine/Probe.lean: the programmable counters of a Board and the writing of beads (R351, R352, R357, R358).
-/
namespace Sys2Proof.Machine

/-- CNT_CONTROL of counter k (Table 16-3). -/
def Board.cntCtl (x : Board) (k : Nat) : Nat := tget x.ctl k 0x00FFFF00

/-- A counter word counts n occurrences of an event of a domain's work, or of work of no domain, on a Frame. -/
def cntTakes (w ev : Nat) (dom frame : Option Nat) : Bool :=
  testBit w 31 && bitsOf w 7 0 == ev
    && (bitsOf w 23 16 == 0xFF || (match dom with | some d => bitsOf w 23 16 == d | none => false))
    && (match frame with | some f => testBit (bitsOf w 15 8) f | none => true)

/-- A 48-bit counter and its sticky flag after n more events (R352). -/
def cntAdd (c : Nat × Bool) (n : Nat) : Nat × Bool :=
  (satAdd 48 c.1 n, c.2 || decide (2 ^ 48 - 1 ≤ c.1 + n))

/-- A Board's counters count an event (R351); saturation with IRQ_EN is a cause of vector 7 (R352). Nothing counts while the
counters are frozen (R356). -/
def countEvent (b ev : Nat) (dom frame : Option Nat) (n : Nat) (s : State) : State :=
  if n = 0 || s.cnt.freeze.frozen then s
  else
    forEach (List.range 8) (fun k s =>
      let x := s.board b
      if cntTakes (x.cntCtl k) ev dom frame then
        let old := tget x.counters k (0, false)
        let new := cntAdd old n
        let s := s.modBoard b (fun x => { x with counters := tset x.counters k new })
        if new.2 && !old.2 && testBit (x.cntCtl k) 30 then s.signal 7 else s
      else s) s

/-- A duration in ns from a bead's T_ISSUE, saturating. -/
def beadDelta (s : State) (b : Bead) : Nat := min (s.now - b.tIssue) 0xFFFFFFFE

/-- A bead entry (Table 16-9). -/
def beadEntry (b : Bead) (drained flags : Nat) : BitVec 512 :=
  BitVec.ofNat 512 (
    (b.tIssue % 2 ^ 64) <<< 448 + (b.fetchIssue % 2 ^ 32) <<< 416 + (b.fetchDone % 2 ^ 32) <<< 384
    + (b.execStart % 2 ^ 32) <<< 352 + (b.execEnd % 2 ^ 32) <<< 320 + (drained % 2 ^ 32) <<< 288 + (b.k % 2 ^ 32) <<< 256
    + (b.layer % 2 ^ 16) <<< 240 + (b.mb % 2 ^ 16) <<< 224 + (b.offset % 2 ^ 16) <<< 208 + (b.epoch % 2 ^ 8) <<< 200
    + (if b.filler then 1 else 0) <<< 199 + (flags % 2 ^ 7) <<< 192 + (b.held % 2 ^ 32) <<< 160)

/-- A bead is written to its Board's tag buffer, or dropped when the buffer is full and BEAD_FULL_MODE is 0 (R358). -/
def writeBead (b : Nat) (k : Bead) (flags : Nat) (s : State) : State :=
  let head := s.rd .beadHead b
  if (head + 2 ^ 32 - s.rd .beadAcked b) % 2 ^ 32 = 1024 && s.rd .beadFullMode = 0 then s.bump .beadDropped b
  else
    let e := beadEntry k (if k.layered && flags = 0 then beadDelta s k else 0xFFFFFFFF) flags
    ((s.modBoard b (fun x => { x with beadBuf := tset x.beadBuf (head % 1024) e })).wr .beadHead ((head + 1) % 2 ^ 32) b).bumpVer
      .beadEntry (1024 * b + head % 1024)

/-- The open beads that satisfy a test are written and closed. -/
def endBeads (b : Nat) (p : Bead → Bool) (flags : Nat) (s : State) : State :=
  let mine := (s.board b).beads.filter p
  let s := s.modBoard b (fun x => { x with beads := x.beads.filter (fun k => !p k) })
  forEach mine (fun k s => writeBead b k flags s) s

/-- A point of the bead of a bundle. -/
def markBead (b bundle : Nat) (f : Nat → Bead → Bead) (s : State) : State :=
  s.modBoard b (fun x => { x with beads := x.beads.map (fun k => if k.bundle = bundle then f (beadDelta s k) k else k) })

/-- The bundle count of bead tagging restarts on every Board: k at 0, and the offset of BEAD_OFFSET or one drawn for the Board
(R357). -/
def restartBeads (s : State) : State :=
  let n := s.rd .beadN
  if n = 0 then s
  else
    forEach s.boardsOk (fun b s =>
      let o := s.rd .beadOffset
      let d := if o = 0xFFFFFFFF then s.draw n else (o % 2 ^ n, s)
      d.2.modBoard b (fun x => { x with beadK := 0, beadOff := d.1 })) s

/-- A cycle count that depends on timing grows by a free value (log entry 4). -/
def bumpFree (r : Reg) (unit : Nat) (s : State) : State :=
  let d := s.draw 16
  d.2.bumpBy r d.1 unit

end Sys2Proof.Machine
end

