-- ==== Sys2Proof/Machine/Link.lean ====
section
/-!
DEFINITION. Machine/Link.lean: the link layer of a port: flits, the CRC, credits, sequence numbers and the replay buffer (R200, R203 to
R208).
-/
namespace Sys2Proof.Machine

/-! ### CRC-64 (R203) -/

/-- One bit of the CRC, most significant bit first. -/
def crcBit (poly : W64) (c : W64) : W64 := if c.getLsbD 63 then (c <<< 1) ^^^ poly else c <<< 1

def crcByte (poly : W64) (c : W64) (b : Byte) : W64 :=
  let c := c ^^^ ((b.zeroExtend 64) <<< 56)
  crcBit poly (crcBit poly (crcBit poly (crcBit poly (crcBit poly (crcBit poly (crcBit poly (crcBit poly c)))))))

/-- The CRC-64 of R203. -/
def crc64 (bs : List Byte) : W64 :=
  (bs.foldl (crcByte 0x42F0E1EBA9EA3693#64) 0xFFFFFFFFFFFFFFFF#64) ^^^ 0xFFFFFFFFFFFFFFFF#64

/-! ### Packets as bits (Tables 09-5 to 09-8) -/

/-- The class of an opcode: 0 bulk, 1 control, 2 Beam. -/
def classOf (op : Nat) : Nat :=
  if op == 0x10 || op == 0x11 || op == 0x90 then 1 else if 0x20 ≤ op && op ≤ 0x26 then 2 else 0

/-- The virtual channel: bit 1 response, bit 0 dateline (R206). -/
def vcOf (p : Pkt) : Nat := (if 0x80 ≤ p.opcode then 2 else 0) + (if p.dateline then 1 else 0)

def poolOf (p : Pkt) : Nat := 4 * classOf p.opcode + vcOf p

/-- Credits of a pool. -/
def poolSize (k : Nat) : Nat := if k < 4 then 256 else if k < 8 then 32 else 16

/-- The header of a packet as bits. -/
def headerBits (p : Pkt) : Nat :=
  p.dest % 65536 * 2 ^ 112 + p.src % 65536 * 2 ^ 96 + p.opcode % 256 * 2 ^ 88 + p.flits % 128 * 2 ^ 81 + (if p.mc then 2 ^ 80 else 0)
    + (if p.dr then 2 ^ 79 else 0) + p.hop % 32 * 2 ^ 74 + p.lines % 1024 * 2 ^ 64 + p.txn % 65536 * 2 ^ 48 + p.addr % 2 ^ 48

/-- Payload bytes that a header announces: LINES lines, none for a read request. -/
def payloadBytes (opcode lines : Nat) : Nat := if opcode = 0x01 then 0 else 64 * lines

/-- A packet from its header, its dateline bit and its bodies' payload. -/
def packetOf (h : Nat) (dateline : Bool) (bs : List Byte) : Pkt :=
  { dest := bitsOf h 127 112, src := bitsOf h 111 96, opcode := bitsOf h 95 88, flits := bitsOf h 87 81, mc := testBit h 80
    dr := testBit h 79, hop := bitsOf h 78 74, lines := bitsOf h 73 64, txn := bitsOf h 63 48, addr := bitsOf h 47 0
    dateline := dateline, payload := bs.take (payloadBytes (bitsOf h 95 88) (bitsOf h 73 64)) }

/-- The link word of a flit (Table 09-6), with the credits that it returns: (pool, count), at most two. -/
def linkWord (seq ack : Nat) (nak : Bool) (cls vc : Nat) (head tail : Bool) (crs : List (Nat × Nat)) : Nat :=
  let c0 := crs.getD 0 (0, 0)
  let c1 := crs.getD 1 (0, 0)
  seq % 4096 * 2 ^ 52 + ack % 4096 * 2 ^ 40 + (if nak then 2 ^ 39 else 0) + cls * 2 ^ 37 + vc * 2 ^ 35 + (if head then 2 ^ 34 else 0)
    + (if tail then 2 ^ 33 else 0) + c1.1 % 16 * 2 ^ 20 + c1.2 % 256 * 2 ^ 12 + c0.1 % 16 * 2 ^ 8 + c0.2 % 256

/-- The 256 bytes of a flit. -/
def flitBytes (word : Nat) (body : List Byte) : List Byte :=
  let front := leBytes 8 word ++ padTo 240 body
  front ++ leBytes 8 (crc64 front).toNat

/-- The bodies of a packet's flits: header and 224 bytes, then 240 bytes each. -/
def bodiesOf (p : Pkt) : List (List Byte) :=
  (leBytes 16 (headerBits p) ++ p.payload.take 224) ::
    (List.range p.flits).map (fun k => (p.payload.drop (224 + 240 * k)).take 240)

/-! ### Sending (R204 to R207) -/

/-- A port carries routed traffic (R213). -/
def Port.inService (x : Port) : Bool := x.state == .up || x.state == .retrain

/-- The last number that a port has accepted. -/
def Port.lastTaken (x : Port) : Nat := (x.rxNext + 4095) % 4096

def Port.credit (x : Port) (k : Nat) : Nat := tget x.credits k (poolSize k)

/-- A message between neighbours, or along a group's tree, that no route switch stops (R213). -/
def linkLocal (op : Nat) : Bool := 0x21 ≤ op && op ≤ 0x26

/-- A copy of the same source and class is held for the port (R216). -/
def heldFirst (s : State) (p : Nat) (k : Pkt) : Bool :=
  s.fab.holds.any (fun h => h.port == p && h.pkt.src == k.src && classOf h.pkt.opcode == classOf k.opcode)

/-- PORT_DIR: R211 gives its default. -/
def State.dirOf (s : State) (p : Nat) : Nat := (s.regs.lookup (Reg.portDir.key p)).getD (p / 4 + 1)

/-- The port masks of the valid route-table entries (Table 09-11). -/
def routeMasks (s : State) : List Nat :=
  (s.regs.filter (fun e => e.1 % 2 ^ 24 == Reg.routeEntry.key 0 && testBit e.2 31)).map (fun e => e.2 % 2 ^ 24)

/-- The ports of the groups that a port belongs to: its direction's, and those of the route-table entries that name it (R212, R213). -/
def groupOf (s : State) (p : Nat) : List Nat :=
  (List.range 24).filter (fun q => s.dirOf q == s.dirOf p || (routeMasks s).any (fun m => testBit m p && testBit m q))

/-- Routed packets stop on a port while a group of it switches (R213). -/
def State.stopped (s : State) (q : Nat) : Bool := s.fab.switching.any (fun t => (groupOf s t).contains q)

/-- The port can send a flit of a pool: a credit, and room in the replay buffer of 384 flits (R205, R206). -/
def flitRoom (s : State) (p pool : Nat) : Bool :=
  let x := s.port p
  x.state == .up && decide (1 ≤ x.credit pool) && decide (x.replay.length < 384)

/-- The port can begin a packet: no other of its pool is under transmission, and no route switch stops it. -/
def roomFor (s : State) (p : Nat) (k : Pkt) : Bool :=
  flitRoom s p (poolOf k) && !(s.port p).sending.any (fun g => poolOf g.q.pkt == poolOf k) && (linkLocal k.opcode || !s.stopped p)

/-- Up to two credit returns of a port, 255 credits at most in each, and what it owes after them. -/
def Port.takeOwed (x : Port) : List (Nat × Nat) × Port :=
  let now := (x.owed.take 2).map (fun c => (c.1, min 255 c.2))
  (now, { x with owed := (x.owed.take 2).filterMap (fun c => if 255 < c.2 then some (c.1, c.2 - 255) else none) ++ x.owed.drop 2 })

/-- A link-only flit: an acknowledgement, a NAK, or credit returns. -/
def sendLinkOnly (p : Nat) (nak : Bool) (crs : List (Nat × Nat)) (s : State) : State :=
  let x := s.port p
  s.emit (.flit p (flitBytes (linkWord (x.txSeq + 4095) x.lastTaken nak 3 0 false false crs) []))

/-- Acknowledgement and credits that no numbered flit has carried go in link-only flits; a port that is not UP carries none (R200,
R207). -/
def flushLink (p : Nat) : Nat → State → State
  | 0, s => s
  | n + 1, s =>
    let x := s.port p
    if x.state != .up || (!x.owesAck && x.owed.isEmpty) then s
    else
      let o := x.takeOwed
      flushLink p n (sendLinkOnly p false o.1 (s.setPort p { o.2 with owesAck := false }))

/-- What a port may send next: a flit of a packet under transmission, a queued packet, or a copy from a hold slot. -/
structure Cand where
  q : Queued
  held : Option Held := none
  next : Nat := 0
  deriving DecidableEq, Repr

/-- The candidates of a port. A held copy goes before later packets of its source and class (R216); the packets of a pool go in order. -/
def candidates (s : State) (p : Nat) : List Cand :=
  let hs := s.fab.holds.filter (fun h => h.port == p)
  let same := fun (a b : Pkt) => a.src == b.src && classOf a.opcode == classOf b.opcode
  let held := hs.filter (fun h => hs.find? (fun o => same o.pkt h.pkt) == some h && roomFor s p h.pkt)
  let q := (s.port p).queue
  let may := q.filter (fun k => q.find? (fun o => poolOf o.pkt == poolOf k.pkt) == some k && roomFor s p k.pkt && !heldFirst s p k.pkt)
  ((s.port p).sending.filter (fun g => flitRoom s p (poolOf g.q.pkt))).map (fun g => { q := g.q, next := g.next })
    ++ held.map (fun h => { q := { pkt := h.pkt }, held := some h }) ++ may.map (fun k => { q := k })

def isRsp (k : Pkt) : Bool := decide (0x80 ≤ k.opcode)

/-- The candidate of a class: requests and responses alternate while both are ready (R207). -/
def pickClass (x : Port) (cs : List Cand) (c : Nat) : Option Cand :=
  let mine := cs.filter (fun k => classOf k.q.pkt.opcode == c)
  match mine.find? (fun k => isRsp k.q.pkt != tget x.lastRsp c true) with
  | some k => some k
  | none => mine.head?

/-- The next flit of a port: Beam, then control, then bulk; while bulk flits wait, control takes one flit slot in four (R207). -/
def nextOut (s : State) (p : Nat) : Option Cand :=
  let x := s.port p
  let cs := candidates s p
  match pickClass x cs 2, pickClass x cs 1, pickClass x cs 0 with
  | some k, _, _ => some k
  | none, some c, some b => if 3 ≤ x.bulkRun then some c else some b
  | none, some c, none => some c
  | none, none, b => b

/-- Flits leave the receive buffer of a port, and their credits go back (R206): in the next flits of the port, or at once where none is
ready. -/
def leaveRx (arrival : Option Nat) (pool flits : Nat) (s : State) : State :=
  match arrival with
  | none => s
  | some p =>
    let n := min flits (tget (s.port p).rx pool 0)
    if n = 0 then s
    else
      let s := s.modPort p (fun x => { x with rx := tset x.rx pool (tget x.rx pool 0 - n), owed := tset x.owed pool (tget x.owed pool 0 + n) })
      if (nextOut s p).isNone then flushLink p 12 s else s

/-- A packet that came by a port leaves its buffer. -/
def takenUp (arrival : Option Nat) (k : Pkt) (s : State) : State := leaveRx arrival (poolOf k) (k.flits + 1) s

/-! ### Answers (R208 to R210, R217) -/

/-- An answer to a packet: its SRC is the DEST of what it answers (R210). -/
def answer (p : Pkt) (opcode : Nat) (payload : List Byte) (s : State) : State :=
  s.send { dest := p.src, src := if p.mc then s.ownAddr else p.dest, opcode := opcode, flits := flitsFor payload.length
           lines := ceilDiv payload.length 64, txn := p.txn, payload := payload }

/-- An ERR (R217); none answers an ERR. -/
def sendErr (p : Pkt) (code : Nat) (s : State) : State :=
  if p.opcode = 0x86 then s else answer p 0x86 (padTo 64 (leBytes 2 code)) (s.bump .fabricErrs)

/-- A packet is discarded with a fault and an ERR. -/
def rejectPkt (p : Pkt) (code : Nat) (s : State) : State := sendErr p code (s.raise { code := code })

/-- A packet is dropped without an answer (Table 01-5). -/
def dropPkt (s : State) : State := s.bump .fabricErrs

/-- A request that was handed to the package is taken up there: its place in the receive buffer of its port is free (R206). -/
def claimed (op src dest txn : Nat) (s : State) : State :=
  match s.fab.onPackage.find? (fun e => e.2.opcode == op && e.2.src == src && e.2.dest == dest && e.2.txn == txn) with
  | some e => takenUp (some e.1) e.2 { s with fab := { s.fab with onPackage := s.fab.onPackage.erase e } }
  | none => s

/-! ### The collective header line (Table 10-3) -/

structure Hdr where
  tag : Nat := 0
  comp : Nat := 0
  group : Nat := 0
  gepoch : Nat := 0
  pgroup : Nat := 0
  q : Nat := 0
  stack : Nat := 0
  outcome : Nat := 0
  hop : Nat := 0
  wire : Nat := 0
  err : Nat := 0
  epoch : Nat := 0
  sigma : Nat := 0
  deriving DecidableEq, Repr

def hdrBytes (h : Hdr) : List Byte :=
  padTo 64 (leBytes 4 h.tag ++ leBytes 2 h.comp ++ leBytes 2 h.group ++ leBytes 2 h.gepoch ++ leBytes 2 h.pgroup ++ leBytes 4 h.q
    ++ leBytes 1 h.stack ++ leBytes 1 h.outcome ++ leBytes 2 h.hop ++ leBytes 1 h.wire ++ leBytes 2 h.err ++ leBytes 1 h.epoch
    ++ leBytes 4 h.sigma)

def hdrOf (bs : List Byte) : Hdr :=
  { tag := leAt bs 0 4, comp := leAt bs 4 2, group := leAt bs 6 2, gepoch := leAt bs 8 2, pgroup := leAt bs 10 2, q := leAt bs 12 4
    stack := byteAt bs 16, outcome := byteAt bs 17, hop := leAt bs 18 2, wire := byteAt bs 20, err := leAt bs 21 2
    epoch := byteAt bs 23, sigma := leAt bs 24 4 }

/-- A GATHER_REQ as one member of a rendezvous sent it. -/
def rdvPkt (r : Rdv) (w : Nat × Nat × Nat) : Pkt :=
  { dest := w.2.2, src := w.1, opcode := 0x03, flits := 0, lines := 1, txn := w.2.1
    payload := hdrBytes { tag := r.tag, comp := r.comp, group := r.group, gepoch := r.gepoch, pgroup := r.pgroup
                          q := r.q, stack := r.stack } }

/-! ### Transmission -/

/-- The port's record of a flit that it sent (R207). -/
def Port.sentClass (x : Port) (k : Pkt) : Port :=
  let c := classOf k.opcode
  { x with lastRsp := tset x.lastRsp c (isRsp k)
           bulkRun := if c = 0 then min 3 (x.bulkRun + 1) else if c = 1 then 0 else x.bulkRun }

/-- A packet leaves its queue, or its hold slot on the die that forked it (R18), and its transmission begins. -/
def startPacket (p : Nat) (c : Cand) (s : State) : State :=
  let s := match c.held with
    | some h => countRoute (portDiePos h.die) (portDiePos (p / 6)) (h.pkt.flits + 1) { s with fab := { s.fab with holds := s.fab.holds.erase h } }
    | none => s.modPort p (fun x => { x with queue := x.queue.erase c.q })
  s.emit (.packet (some p) c.q.pkt)

/-- One flit of a packet goes out and is kept until it is acknowledged. -/
def sendFlit (p : Nat) (c : Cand) (s : State) : State :=
  let k := c.q.pkt
  let bodies := bodiesOf k
  let last := bodies.length ≤ c.next + 1
  let s := if c.next = 0 then startPacket p c s else s
  let o := (s.port p).takeOwed
  let x := o.2
  let bs := flitBytes (linkWord x.txSeq x.lastTaken false (classOf k.opcode) (vcOf k) (c.next == 0) last o.1) (bodies.getD c.next [])
  let rest := x.sending.filter (fun g => poolOf g.q.pkt != poolOf k)
  let s := s.setPort p ({ x with
    txSeq := (x.txSeq + 1) % 4096
    owesAck := false
    sending := if last then rest else rest ++ [{ q := c.q, next := c.next + 1 }]
    replay := x.replay ++ [{ seq := x.txSeq, bytes := bs, pool := poolOf k, pkt := if last then some k else none }]
    credits := tset x.credits (poolOf k) (x.credit (poolOf k) - 1) : Port }.sentClass k)
  let s := countBlock (4 * p) 1 (s.emit (.flit p bs))
  if last then leaveRx c.q.arrival c.q.pool (k.flits + 1) s else s

/-- Flits go out while they can; what is left of acknowledgements and credits goes last. -/
def drainPort (p : Nat) : Nat → State → State
  | 0, s => s
  | n + 1, s =>
    match nextOut s p with
    | none => flushLink p 12 s
    | some c => drainPort p n (sendFlit p c s)

/-- A packet is given to a port: sent, or kept until the port can send it. A port that is not in service carries nothing. -/
def transmitFrom (q : Queued) (p : Nat) (s : State) : State :=
  if (s.port p).inService then drainPort p 1024 (s.modPort p (fun x => { x with queue := x.queue ++ [q] }))
  else leaveRx q.arrival q.pool (q.pkt.flits + 1) s

/-- A packet of the module itself is given to the one port that it is for; each module adds 1 to HOP before it sends (R212). -/
def transmit (p : Nat) (k : Pkt) (s : State) : State := transmitFrom { pkt := { k with hop := k.hop + 1 }, bound := true } p s

/-! ### Directed routes (R214) -/

/-- The forward path: port numbers of 5 bits up to the first that names no port (DESIGN CHOICE, log entry 33). -/
def forwardPath (bs : List Byte) : List Nat :=
  let n := leAt bs 0 15
  ((List.range 24).map (fun i => bitsOf n (5 * i + 4) (5 * i))).takeWhile (· < 24)

/-- Entry i of the return path, in bytes 16 to 31. -/
def returnAt (bs : List Byte) (i : Nat) : Nat := bitsOf (leAt bs 16 15) (5 * i + 4) (5 * i)

def setReturn (bs : List Byte) (i p : Nat) : List Byte :=
  bs.take 16 ++ leBytes 15 (setBits (leAt bs 16 15) (5 * i + 4) (5 * i) p) ++ bs.drop 31

/-- A directed packet goes out on a port. One whose path or return path names a port that is absent or not in service is dropped with a
NO_ROUTE fault, and no ERR is sent (DESIGN CHOICE, log entry 33). -/
def directTo (arrival : Option Nat) (q : Nat) (k : Pkt) (s : State) : State :=
  if q < 24 && (s.port q).inService then transmitFrom { pkt := k, arrival := arrival, pool := poolOf k, bound := true } q s
  else leaveRx arrival (poolOf k) (k.flits + 1) (s.raise { code := 0x0608 })

/-! ### Port dies -/

def dieOf (p : Nat) : Nat := p / 6

/-- A router has stopped taking input on a port die: bulk requests wait there behind the first that it could not fork (R216). Responses
have channels of their own and keep flowing (R206; DEDUCED, log entry 32). -/
def dieStalled (s : State) (arrival : Option Nat) (k : Pkt) : Bool :=
  classOf k.opcode == 0 && !isRsp k && s.fab.stalled.any (fun w => w.arrival.map dieOf == arrival.map dieOf)

/-- A packet waits at the input. -/
def stall (arrival : Option Nat) (k : Pkt) (s : State) : State :=
  { s with fab := { s.fab with stalled := s.fab.stalled ++ [{ arrival := arrival, pkt := k }] } }

/-! ### Receiving (R203, R204) -/

/-- Flits up to and including an acknowledged number leave the replay buffer. -/
def Port.acked (x : Port) (ack : Nat) : Port :=
  match x.replay.findIdx? (fun f => f.seq == ack) with
  | some i => { x with replay := x.replay.drop (i + 1) }
  | none => x

/-- The flits of the replay buffer go out again, in order. -/
def replayFlits (p : Nat) (s : State) : State := forEach (s.port p).replay (fun f s => s.emit (.flit p f.bytes)) s

/-- A NAK: every flit after ACK is replayed. -/
def takeNak (p ack : Nat) (s : State) : State := replayFlits p ((s.modPort p (fun x => x.acked ack)).bump .replays p)

/-- Returned credits. -/
def Port.giveCredit (x : Port) (k n : Nat) : Port := { x with credits := tset x.credits k (min (poolSize k) (x.credit k + n)) }

/-- Acknowledgement, NAK and credits of a received flit. -/
def takeLinkWord (p w : Nat) (s : State) : State :=
  let s := s.modPort p (fun x => (((x.acked (bitsOf w 51 40)).giveCredit (bitsOf w 11 8) (bitsOf w 7 0)).giveCredit
    (bitsOf w 23 20) (bitsOf w 19 12)))
  let s := if testBit w 39 then takeNak p (bitsOf w 51 40) s else s
  s

/-- A numbered flit is accepted, and an acknowledgement is due: its body joins its packet in the receive buffer. A whole packet is handed on by `f`,
whose flag says that a reserved field of a link word was not 0. -/
def acceptFlit (p w : Nat) (body : List Byte) (f : Bool → Pkt → State → State) (s : State) : State :=
  let pool := 4 * bitsOf w 38 37 + bitsOf w 36 35
  let s := s.modPort p (fun x =>
    let bad := bitsOf w 32 24 != 0 || (!testBit w 34 && x.badWord.contains pool)
    { x with
      rxNext := (x.rxNext + 1) % 4096
      owesAck := true
      rx := tset x.rx pool (tget x.rx pool 0 + 1)
      badWord := if bad then pool :: x.badWord.filter (· != pool) else x.badWord.filter (· != pool)
      partialPkts := tset x.partialPkts pool ((if testBit w 34 then [] else tget x.partialPkts pool []) ++ [body]) })
  let s := countBlock (4 * p + 1) 1 s
  if testBit w 33 then
    let x := s.port p
    let flits := tget x.partialPkts pool []
    let bs := flits.flatten
    let k := packetOf (leAt bs 0 16) (testBit w 35) (bs.drop 16)
    let s := s.modPort p (fun x => { x with partialPkts := tdel x.partialPkts pool, badWord := x.badWord.filter (· != pool) })
    -- flits beyond those that the header announces hold no buffer
    f (x.badWord.contains pool) k (leaveRx (some p) pool (flits.length - (k.flits + 1)) s)
  else s

end Sys2Proof.Machine
end

