-- ==== Sys2Proof/Machine/Exchange.lean ====
section
/-!
DEFINITION. Machine/Exchange.lean: the shared operations of a step's end: squash of an epoch, immediate void, the commit
exchange up and down the tree, a Board's halt, job abort and unload, and entry into SAFE (R86, R97, R124, R150, R240, R280, R288).
-/
namespace Sys2Proof.Machine

/-! ### Squash (R124) -/

/-- Every buffer of the epoch becomes FREE, or QUARANTINED while reads are outstanding. -/
def squashBufs (e : Nat) (bufs : Tbl Buf) : Tbl Buf :=
  bufs.map (fun x =>
    if x.2.epoch = e && x.2.state != 0 then (x.1, { x.2 with state := if x.2.outstanding = 0 then 0 else 4 }) else x)

/-- Each link of the epoch enters SQUASHING, and returns to IDLE when its buffers are FREE. -/
def squashLinks (e : Nat) (x : Board) : Board :=
  x.links.foldl (fun x l =>
    if l.2.epoch = e && l.2.state != 0 then (x.setLink l.1 { l.2 with state := 2 }).settleLink l.1 else x) x

/-- The launches of an epoch. -/
def Board.launchesOf (x : Board) (e : Nat) : List Nat := (x.launches.filter (fun l => l.work.epoch == e)).map (·.id)

/-- The holds of a Board after a squash: a hold on work that is gone ends (R124), and the Frames without a pass are gated (R77). -/
def settleHolds (ids : List Nat) (x : Board) : Board :=
  regate { x with
    streamHold := x.streamHold.filter (fun h => !ids.contains h.launch)
    tallyFor := x.tallyLeft }

/-- A squash of epoch e on a Board. -/
def squashBoard (e : Nat) (now : W64) (x : Board) : Board :=
  let ids := x.launchesOf e
  let x := { x with
    fetches := x.fetches.map (fun f => if f.work.epoch = e then { f with squashed := true, next := f.fills } else f)
    rearms := x.rearms.filter (fun f => f.work.epoch != e)
    bufs := squashBufs e x.bufs
    launches := x.launches.filter (fun l => l.work.epoch != e)
    frames := x.frames.map (fun f => (f.1, { f.2 with
      passes := f.2.passes.filter (fun p => !ids.contains p.1)
      drains := f.2.drains.filter (fun t => !ids.contains t.launch) }))
    stashWrs := x.stashWrs.filter (fun w => w.work.epoch != e)
    slates := x.slates.filter (fun w => w.work.epoch != e)
    gruns := x.gruns.filter (fun g => g.work.epoch != e)
    gslots := x.gslots.filter (fun q => !(x.gruns.any (fun g => g.id == q.run && g.work.epoch == e)))
    sigs := x.sigs.filter (fun g => g.2.1 != e)
    rjobs := x.rjobs.filter (fun r => r.work.epoch != e)
    hops := x.hops.filter (fun h => h.epoch != e)
    credits := x.credits.filter (fun c => c.2.1 != e)
    granted := x.granted.filter (fun c => c.2.1 != e)
    hopShut := e :: x.hopShut.filter (· != e)
    bsems := x.bsems.map (fun s => if x.bsemEpochOf s.1 = some e then (s.1, 0) else s)
    bsemShut := e :: x.bsemShut.filter (· != e)
    main := if (x.main.issue.map (fun i => bitsOf i.header 31 24)) = some e then { x.main with issue := none } else x.main
    fill := if (x.fill.issue.map (fun i => bitsOf i.header 31 24)) = some e then { x.fill with issue := none } else x.fill
    squashAt := now
    squashing := true
    lastChange := now }
  squashLinks e (settleHolds ids x)

/-- A squash of epoch e on Board b, counted (Table 05-8). The quarantined buffers' fetch runs stay until their lines land. -/
def squash (b e : Nat) (s : State) : State :=
  let s := endBeads b (fun k => k.epoch == e) 1 s
  let s := s.modBoard b (squashBoard e s.time)
  let s := s.modBoard b (fun x => { x with fetches := x.fetches.filter (fun f => !(f.squashed && f.going.isEmpty)) })
  let s := ((s.bump .squashes b).wr .squashLastEpoch e b).wr .squashLastDuration 0 b
  if (s.board b).links.any (fun l => l.2.epoch == e && l.2.state == 2) then s else s.modBoard b (fun x => { x with squashing := false })

/-- Squash of every epoch of a domain on every Board (R123). -/
def squashDomain (d : Nat) (s : State) : State :=
  forEach s.boardsOk (fun b s => forEach (s.epochsOf d) (fun e s => squash b e s) s) s

/-- Slices of a domain return to IDLE with their counters at 0 (R97). -/
def discardSlices (d : Nat) (s : State) : State :=
  forEach s.boardsOk (fun b s => s.modBoard b (fun x => { x with
    slices := x.slices.map (fun e =>
      if e.2.domain = d then (e.1, e.2.idle) else e) })) s

/-! ### Beam tokens and barriers (Table 10-4, R241) -/

/-- The group of a token, barrier or FREEZE message (Tables 10-4, 16-7). -/
def beamGroup (p : Pkt) : Nat := if p.opcode = 0x26 then leAt p.payload 10 2 else leAt p.payload 6 2

/-- The 64 bytes of a token or barrier line. -/
def beamLine (tag d flags g ge fv count bid round : Nat) : List Byte :=
  padTo 64 (leBytes 4 tag ++ leBytes 1 d ++ leBytes 1 flags ++ leBytes 2 g ++ leBytes 2 ge ++ leBytes 2 fv ++ leBytes 2 count
    ++ leBytes 2 bid ++ leBytes 4 round)

/-- The ROUND of the next message of a group in a direction, and the count that remembers it (R241). -/
def nextRound (s : State) (g dir : Nat) : Nat × State :=
  let n := match s.fab.roundOut.find? (fun r => r.1 == g && r.2.1 == dir) with
    | some r => r.2.2 + 1
    | none => 1
  let rest := s.fab.roundOut.filter (fun r => !(r.1 == g && r.2.1 == dir))
  (n % 2 ^ 32, { s with fab := { s.fab with roundOut := (g, dir, n % 2 ^ 32) :: rest } })

/-- Send a token or barrier on a port of the group's tree and keep it until it is acknowledged (R241). -/
def sendBeam (opcode port dir tag d g fv count bid : Nat) (s : State) : State :=
  let e := s.grp g
  let r := nextRound s g dir
  let line := beamLine tag d dir g (gEpoch e) fv count bid r.1
  let p : Pkt := { dest := gRoot e, src := s.ownAddr, opcode := opcode, flits := 0, lines := 1, payload := line }
  let s := r.2
  transmit port p { s with fab := { s.fab with unacked := s.fab.unacked ++ [{ port := port, pkt := p : Beam }] } }

/-! ### The decision (R240) -/

/-- A message of the scheduler core to every stack (R168). -/
def toStacks (m : HubMsg) (s : State) : State :=
  forEach s.stacksOk (fun k s => s.modStack k (fun x => { x with inbox := x.inbox ++ [m] })) s

/-- The VOID record of a step (R380). -/
def raiseVoid (d cause fv : Nat) (s : State) : State :=
  s.raise { code := 0x0301, flags := fVoided, kind := 11, unit := d, domain := some d, detail := packAt [(0, 1, cause), (2, 2, fv)] }

/-- The cause byte of a void that the decision brings (R380). -/
def voidCauseOf (x : Dom) (fv : Nat) : Nat :=
  if x.immediate then 5
  else if x.exch.offer = 2 then
    (if x.watch.voidMark then 1 else if x.updFault && x.updFaultCode != 0x0507 then 2 else if x.lost then 6 else 7)
  else if fv = 0xFFFF then 4
  else 3

/-- The decision for a domain's step is taken or has arrived: it goes down the tree, and COMMIT or VOID to the stacks. -/
def takeDecision (d : Nat) (commit : Bool) (tag fv count : Nat) (down : Bool) (s : State) : State :=
  let x := s.dom d
  let ok := commit && x.exch.offer == 1 && tag == x.openTag
  let s := s.setDom d { x with
    phase := .closing
    appliedBy := 0
    exch := { x.exch with
      state := 2, firstVoider := fv, childs := [], time := min (s.now - x.exch.offerAt.toNat) (2 ^ 32 - 1) } }
  let s := if down then
      forEach (gChildren (s.grp x.group)) (sendBeam (if commit then 0x22 else 0x23) · 1 tag d x.group fv count 0) s
    else s
  if ok then
    toStacks (.commit d x.openTag) (s.modDom d (fun y => { y with
      commitRec := { tag := y.openTag, record := (y.armed.getD 0#128), lossDigest := y.lossDigest, lossCount := y.lossCount,
                     positions := y.stepPositions } }))
  else
    let s := discardSlices d s
    let s := if x.immediate then s else raiseVoid d (voidCauseOf x fv) fv s
    toStacks (.void d x.openTag) (s.modDom d (fun y => { y with voidCause := voidCauseOf x fv }))

/-- A mismatch of tags at a hub (Table 10-7). -/
def tagMismatch (d childTag : Nat) (s : State) : State :=
  s.raise { code := 0x0501, kind := 11, unit := d, domain := some d,
            detail := packAt [(6, 4, childTag), (10, 4, (s.dom d).openTag)] }

/-- The tokens of a hub are combined and sent up, or at the root decided (R240). UP_PORT 25 to 31 is no way to the root: no group of a domain
that the module carries has it (R222). -/
def combine (d : Nat) (s : State) : State :=
  let x := s.dom d
  let e := s.grp x.group
  let kids := gChildren e
  if x.exch.state != 1 || x.exch.sentUp || kids.any (fun p => (x.exch.childs.lookup p).isNone) then s
  else
    let toks := kids.filterMap (fun p => x.exch.childs.lookup p)
    let commit := x.exch.offer == 1 && toks.all (fun t => t.commit && t.tag == x.openTag)
    let fv := toks.foldl (fun a t => if t.commit then a else min a t.firstVoider)
      (if x.exch.offer = 1 then 0xFFFF else s.device)
    let count := toks.foldl (fun a t => a + t.modules) 1
    let s := forEach toks (fun t s => if t.tag = x.openTag then s else tagMismatch d t.tag s) s
    let s := s.modDom d (fun y => { y with exch := { y.exch with sentUp := true } })
    if gUpPort e = 24 then takeDecision d commit x.openTag fv count true s
    else if 24 < gUpPort e then s
    else sendBeam (if commit then 0x22 else 0x23) (gUpPort e) 0 x.openTag d x.group fv count 0 s

/-- The module's local offer for the open step (R240). -/
def offer (d : Nat) (commit : Bool) (s : State) : State :=
  let s := s.modDom d (fun x => { x with
    phase := .closing
    exch := { x.exch with
      state := 1, offer := (if commit then 1 else 2), offerAt := s.time, offerTag := x.openTag, sentUp := false
      timeoutRaised := false } })
  combine d s

/-- A step is voided at once (R86 steps 2 to 4): not when its offer has been made (R240). -/
def voidNow (d : Nat) (s : State) : State :=
  let x := s.dom d
  if x.busy && x.exch.state = 0 then
    let s := s.modDom d (fun y => { y with immediate := true })
    let s := discardSlices d (squashDomain d s)
    offer d false (raiseVoid d 5 s.device s)
  else s

/-! ### A Board's halt (R150) -/

/-- The Board halts at its layer boundary for a fault whose record is already written. -/
def haltQuiet (b : Nat) (s : State) : State :=
  s.modBoard b (fun x => { x with halt := if x.halt == .none then .halting else x.halt })

/-- A fault halts the Board at its layer boundary: neither stream issues from here on, and the fault is reported when the Board
enters HALTED. -/
def haltBoard (b : Nat) (f : Flt) (s : State) : State :=
  s.modBoard b (fun x => { x with
    halt := if x.halt == .none then .halting else x.halt
    haltFaults := x.haltFaults ++ [{ f with flags := f.flags ||| fHalted }]
    haltDomains := match f.domain with
      | some d => if x.haltDomains.contains d then x.haltDomains else x.haltDomains ++ [d]
      | none => x.haltDomains })

/-- The domains of a Board whose step is open and not yet marked STEP_DONE there (R150). -/
def openDomsOn (b : Nat) (s : State) : List Nat :=
  (s.doms.filter (fun e => e.2.used && testBit e.2.boards b && e.2.busy && !(s.board b).stepDone.contains e.1)).map (·.1)

/-! ### Update commands: their faults and their end (R179, R190, Table 15-6) -/

/-- A fault of an update command, in the layout of Table 15-6; it sets the update fault flag of its domain. -/
def updFlt (k : Nat) (u : Upd) (code expected slot layer : Nat) (d : Option Nat) : Flt :=
  { code := code, kind := 4, unit := k, layer := layer, domain := d
    detail := packAt [(0, 2, u.group), (2, 4, u.q), (6, 4, u.tag), (10, 4, expected), (14, 1, slot)] }

/-- The answer to a command that is disposed of (R379). -/
def updAck (u : Upd) (s : State) : State :=
  match u.reply with
  | some r => s.send { dest := r.1, src := r.2.1, opcode := 0x82, flits := 0, txn := r.2.2 }
  | none => s

/-- Commands dropped by a Reckoner (Table 16-5). -/
def countDrop (k : Nat) (s : State) : State := countBlock (0x520 + 3 * k + 2) 1 s

/-- A command is taken from the network (R190, R206). -/
def takenCmd (u : Upd) (s : State) : State :=
  match u.reply with
  | some r => claimed 0x07 r.1 r.2.1 r.2.2 s
  | none => s

/-- Update commands that a stack still has when the job is unloaded meet no run (R179): each is dropped with REGION_FAULT, and answered; one
that the network held leaves it (R190). -/
def endCommands (k : Nat) (x : Stack) (s : State) : State :=
  let fin := fun (u : Upd) (s : State) => updAck u (countDrop k ((s.bump .regionFaults k).raise (updFlt k u 0x0402 0 0 0 none)))
  forEach x.inq (fun u s => fin u (takenCmd u s)) (forEach (x.queue ++ x.park) fin s)

/-! ### Abort, unload, power-down (R256, R280, R287 to R290) -/

/-- Every record between CONS and PROD_SEEN is marked discarded (R256). -/
def abortRing (d : Nat) (s : State) : State :=
  let r := (s.dom d).ring
  let n := (r.prodSeen + 2 ^ 32 - r.cons) % 2 ^ 32
  let s := forEach (List.range (min n 65536)) (fun i s =>
    let slot := ((r.cons + i) % 2 ^ 32) % 2 ^ r.log2
    s.emit (.hostWrite (r.base + 64 * slot) (leBytes 4 5))) s
  s.modDom d (fun x => { x with ring := { r with
    cons := r.prodSeen
    head := none
    skipTag := none
    lastStatus := if 0 < n then 5 else r.lastStatus
    state := if r.state == .held then .active else r.state } })

/-- A Board after a job abort: streams stopped, the inactive bank EMPTY, halts ended. -/
def abortBoard (b : Nat) (s : State) : State :=
  s.modBoard b (fun x => { x with
    started := false
    inactState := 0
    main := { x.main with stopped := true, issue := none, atSwap := false }
    fill := { x.fill with stopped := true, issue := none, atSwap := false }
    halt := .none
    haltFaults := []
    haltDomains := []
    streamHold := none
    tallyFor := []
    stepDone := []
    reported := [] })

/-- The ABORT actions on a running job (Table 12-13). -/
def abortJob (s : State) : State :=
  let s := forEach s.boardsOk (fun b s => forEach (s.job.epochs.map (·.1)) (fun e s => squash b e s) s) s
  let s := forEach s.boardsOk (fun b s => forEach (s.board b).haltFaults (fun f s => s.raise f) s) s
  let s := forEach s.usedDoms (fun d s =>
    if (s.dom d).busy && (s.dom d).exch.state != 2 then
      let s := s.modDom d (fun x => { x with immediate := true, exch := { x.exch with state := 1, offer := 2, offerAt := s.time } })
      let s := raiseVoid d 5 0xFFFF s
      takeDecision d false (s.dom d).openTag 0xFFFF 1 false s
    else s) s
  let s := forEach (s.doms.map (·.1)) abortRing s
  let s := forEach s.boardsOk abortBoard s
  (s.setJob .loaded).setState .ready

/-- Boards sleep in READY (R311). -/
def sleepBoards (s : State) : State := forEach s.boardsOk (fun b s => s.modBoard b (fun x => { x with asleep := true })) s

/-- A domain without its job: its ring registers and its carry watch, of the last step and in total, stay (R54). -/
def Dom.noJob (x : Dom) : Dom :=
  { ring := { x.ring with head := none, skipTag := none, reported := false }, watch := x.watch, commitRec := x.commitRec }

/-- A Board without its job: counters, tests and the watch slots' history stay. -/
def Board.noJob (x : Board) : Board :=
  { storeBad := x.storeBad, storeSoft := x.storeSoft, storeTests := x.storeTests, transients := x.transients
    seqFaultInfo := x.seqFaultInfo, asleep := x.asleep, cycles := x.cycles, counters := x.counters
    ctl := x.ctl, beadK := x.beadK, beadOff := x.beadOff, beadBuf := x.beadBuf, slot := x.slot, frames := []
    loadWaits := x.loadWaits.filter (fun r => r.flt.isSome) }

/-- A Board without power: what its store holds and what works there ends; its registers, the watch slots among them, keep their values
until a reset (R11, R54). -/
def Board.dark (x : Board) : Board :=
  { x.noJob with storeBad := [], storeSoft := [], storeTests := [], asleep := true, loadWaits := [] }

/-- A stack without its job. -/
def Stack.noJob (x : Stack) : Stack :=
  { bad := x.bad, soft := x.soft, rowTests := x.rowTests, transients := x.transients, ueTimes := x.ueTimes, testDue := x.testDue }

/-- The BLOB entries that show the job's tables change: the epochs of domains and the group entries (R266). -/
def noteTables (s : State) : State :=
  forEach (s.job.epochs.map (·.2)).eraseDups (fun d s => s.bumpVer .domainEpochs d)
    (forEach (s.job.groups.map (·.1)) (fun g s => s.bumpVer .groupEntry g) s)

/-- UNLOAD (Table 12-13): every table loaded from the image is cleared. -/
def unloadJob (s : State) : State :=
  { noteTables s with
    job := { loadTime := s.job.loadTime }
    doms := s.doms.map (fun e => (e.1, e.2.noJob))
    boards := s.boards.map (fun e => (e.1, e.2.noJob))
    stks := s.stks.map (fun e => (e.1, e.2.noJob))
    dev := { s.dev with jobState := .none } }

/-- Boards, stacks and port dies lose their power, and with it what they hold. Records that waited for a control core are written. -/
def powerDown (s : State) : State :=
  let fs := s.boards.flatMap (fun e => e.2.loadWaits.filterMap LoadReq.flt)
  let s := { s with
    boards := s.boards.map (fun e => (e.1, e.2.dark)), stks := [], dram := [], store := [], ports := []
    fab := { s.fab with
      holds := [], forks := [], txns := [], votes := [], voteSent := [], voteWait := [], unacked := [], switching := []
      routeWait := [], stalled := [], onPackage := [] }
    dev := { s.dev with restarting := s.dev.restarting.filter (· < 16) }
    host := { s.host with memActive := false } }
  forEach fs reportFault s

/-- An open snapshot, export or restore ends with reason 9 at a reset (R341). -/
def snapFail (reason : Nat) (s : State) : State :=
  { s with snap := { s.snap with state := 4, error := reason, left := [], got := [], want := [], came := [], sets := [] }
           fab := { s.fab with txns := s.fab.txns.filter (fun t => match t.kind with
             | .restore .. => false
             | _ => true) }
           doms := s.doms.map (fun e => (e.1, { e.2 with snapPending := false, snapCapturing := false, holdSince := none })) }

/-- The step from READY to a lower state (Table 13-4). -/
def leaveReady (s : State) : State :=
  let s := if s.dev.jobState == .loaded || s.dev.jobState == .failed then unloadJob s else s
  powerDown s

/-- Staging is under way (R304). -/
def Firmware.staging (f : Firmware) : Bool := f.stageState == 1 || f.stageState == 2 || f.stageState == 3

/-- The slot that staging writes: the one that is not ACTIVE_SLOT. -/
def State.stageSlot (s : State) : Nat := 1 - s.fw.active

def Flash.slot (f : Flash) (k : Nat) : Slot := if k = 0 then f.slotA else f.slotB
def Flash.setSlot (f : Flash) (k : Nat) (x : Slot) : Flash := if k = 0 then { f with slotA := x } else { f with slotB := x }

/-- The flash at a reset: FLASH_STATE is judged anew (R292), and the target slot of an abandoned staging is INVALID (Table 13-5). -/
def flashAfterReset (s : State) : Flash :=
  let f := { s.flash with failA := false, failB := false }
  if s.fw.staging then f.setSlot s.stageSlot { f.slot s.stageSlot with state := 2 } else f

/-- A reset of the module (R290): flash, persistent entries, the fault log, retirements, a persisted NODE_ID and the pins stay;
every other register takes its default, the field bus's error counters among them (R11). THERMTRIP# and SAFE_CAUSE bits 0 and 1 last until
their conditions end (R288, R366). -/
def resetModule (cause : Nat) (st : DevState) (s : State) : State :=
  { (State.reset) with
    pending := s.pending
    fresh := s.fresh
    out := s.out
    ident := s.ident
    regs := s.flash.od
    flash := flashAfterReset s
    log := { s.log with last := [] }
    can := { nodeId := s.flash.nodeId, chainIn := s.can.chainIn, chainSince := s.can.chainSince }
    fw := { challengeNo := s.fw.challengeNo + 1
            stageState := if s.fw.staging then 5 else 0
            stageError := if s.fw.staging then 10 else 0 }
    snap := { error := if s.snap.state = 1 || s.snap.state = 2 || s.snap.state = 5 then 9 else 0
              state := if s.snap.state = 1 || s.snap.state = 2 || s.snap.state = 5 then 4 else 0 }
    dev := { inputOk := s.dev.inputOk, pwrEn := s.dev.pwrEn, pgood := s.dev.pgood, perst := s.dev.perst
             refclk := s.dev.refclk, state := st, lastReset := cause, thermTrip := s.dev.thermTrip
             safeCause := s.dev.safeCause % 4 } }

/-- No domain has an open step any more: ACT_STATE is SWITCHING, which nothing interrupts (R305, R306). -/
def State.switching (s : State) : Bool := s.fw.actState == 2 && !s.doms.any (fun e => e.2.busy)

/-- An inhibit condition begins (R306): a drain returns to DEFERRED and admission resumes. -/
def setInhibit (bit : Nat) (s : State) : State :=
  { s with fw := { s.fw with
      inhibit := orBit s.fw.inhibit bit
      inhibitOn := orBit s.fw.inhibitOn bit
      actState := if s.fw.actState = 2 && !s.switching then 1 else s.fw.actState } }

/-- An inhibit condition has ended; its bit stays for ACT_INHIBIT_HOLD (R306). -/
def endInhibit (bit : Nat) (s : State) : State := { s with fw := { s.fw with inhibitOn := clrBit s.fw.inhibitOn bit } }

/-- A SAFE cause arises (R288): SAFE_CAUSE bit, and from SERVICE to HALTED the entry into SAFE. -/
def enterSafe (bit : Nat) (s : State) : State :=
  let s := { s with dev := { s.dev with safeCause := orBit s.dev.safeCause bit } }
  if s.dev.state == .service || s.powered then
    let s := if s.dev.jobState == .running then abortJob s else s
    let s := unloadJob s
    let s := powerDown s
    (setInhibit 2 { s with dev := { s.dev with moving := none } }).setState .safe
  else s

/-- Retirement of a unit is stored in flash before its record is written (R325). Kinds of Table 15-5. -/
def unitRetired (kind unit : Nat) (s : State) : State :=
  s.raise { code := 0x0808, flags := fLasting ||| fRetired, kind := kind, unit := unit }

/-- The compute working set without the link (R327): an enabled Board that is not retired and a stack in service in its half. -/
def State.pairLeft (s : State) : Bool :=
  s.boardsOk.any (fun b => s.stacksOk.any (fun k => stackHalf k == boardHalf b))

/-- After a retirement in READY, RUNNING or HALTED (R327). -/
def checkWorkingSet (s : State) : State :=
  if s.powered && !s.pairLeft then enterSafe 3 (s.raise { code := 0x0809, flags := fSafe })
  else s

/-- A Board is retired (R325): treated as a disabled Board from here on. -/
def retireBoard (b : Nat) (s : State) : State :=
  if testBit s.flash.retiredBoards b then s
  else
    let s := { s with flash := { s.flash with retiredBoards := orBit s.flash.retiredBoards b } }
    checkWorkingSet (unitRetired 1 b s)

/-- A Frame is retired; four retired Frames retire their Board (R325). -/
def retireFrame (b f : Nat) (s : State) : State :=
  let F := 8 * b + f
  if testBit s.flash.retiredFrames F then s
  else
    let s := ({ s with flash := { s.flash with retiredFrames := orBit s.flash.retiredFrames F } } : State).bumpVer .retiredFrames
    let s := unitRetired 2 F s
    if 4 ≤ popCount (bitsOf s.flash.retiredFrames (8 * b + 7) (8 * b)) 8 then retireBoard b s else s

/-- LOST is set for a domain (R167): in the hub's view and in every stack's register. -/
def setLost (d : Nat) (s : State) : State :=
  let s := s.modDom d (fun x => { x with lost := true })
  forEach s.stacksOk (fun k s => s.setDreg k d { s.dreg k d with lost := true }) s

/-- A stack is retired: every domain with a region in it is LOST (R325). -/
def retireStack (k : Nat) (s : State) : State :=
  if testBit s.flash.retiredStacks k then s
  else
    let ds := ((s.job.regions.filter (fun e => (rKind e.2 == 1 || rKind e.2 == 3 || rKind e.2 == 4) && stackOf (rBase e.2) == k)).map (fun e =>
      rDomain e.2)).eraseDups
    let s := { s with flash := { s.flash with retiredStacks := orBit s.flash.retiredStacks k } }
    let s := s.raise { code := 0x0406, flags := fLasting ||| fRetired, kind := 4, unit := k }
    let s := unitRetired 4 k s
    let s := forEach ds setLost s
    let s : State := { s with doms := s.doms.map (fun e => (e.1, { e.2 with passes := e.2.passes.filter (fun m => m.stack != k) })) }
    checkWorkingSet (s.setStack k {})

end Sys2Proof.Machine
end

