-- ==== Sys2Proof/Machine/Access.lean ====
section
/-!
DEFINITION. Machine/Access.lean: the object dictionary's requests and responses, the checks a write meets before its entry's own
rule, and the three paths (R7 to R12, R16, R262 to R269).
-/
namespace Sys2Proof.Machine

/-! ### Status codes (Table 12-5) -/

def stOk : Nat := 0x00
def stNoEntry : Nat := 0x01
def stNoSub : Nat := 0x02
def stReadOnly : Nat := 0x03
def stLength : Nat := 0x04
def stRange : Nat := 0x05
def stState : Nat := 0x06
def stRefused : Nat := 0x07
def stSegment : Nat := 0x08
def stBusy : Nat := 0x09
def stDenied : Nat := 0x0A
def stStore : Nat := 0x0B
def stNotReady : Nat := 0x0C
def stBadRequest : Nat := 0x0D

/-- Numbers of the paths: the bits of WRITE_PATHS. -/
def pathNo : Path → Nat
  | .mailbox => 0
  | .can => 1
  | .fabric => 2

/-- The sender of a request, and where its answer goes. -/
structure Client where
  path : Path
  src : Nat := 0
  dest : Nat := 0
  txnId : Nat := 0
  directed : Option Directed := none
  deriving DecidableEq, Repr

def viaClient (v : Via) : Client := { path := v.path, src := v.src, dest := v.dest, txnId := v.txn, directed := v.directed }

/-- A dictionary request (Table 12-2). -/
structure Req where
  op : Nat
  sub : Nat
  index : Nat
  txn : Nat
  rsv : Nat
  off : Nat
  count : Nat
  data : List Byte
  deriving DecidableEq, Repr

def parseReq (bs : List Byte) : Req :=
  { op := byteAt bs 0, sub := byteAt bs 1, index := leAt bs 2 2, txn := leAt bs 4 2, rsv := leAt bs 6 2, off := leAt bs 8 4
    count := leAt bs 12 4, data := bs.drop 16 }

/-- The bytes of a WRITE request of a whole value. -/
def writeReqBytes (index sub txn : Nat) (data : List Byte) : List Byte :=
  leBytes 1 2 ++ leBytes 1 sub ++ leBytes 2 index ++ leBytes 2 txn ++ leBytes 2 0 ++ leBytes 4 0 ++ leBytes 4 data.length ++ data

/-! ### Responses (Table 12-3, R268) -/

def rspBytes (status : Nat) (q : Req) (ver total : Nat) (data : List Byte) : List Byte :=
  leBytes 1 status ++ leBytes 1 q.sub ++ leBytes 2 q.index ++ leBytes 2 q.txn ++ leBytes 2 ver ++ leBytes 4 q.off
    ++ leBytes 4 total ++ data

/-- The mailbox completes: response buffer and RSP_LEN first, then DONE, and vector 0 with IRQ_EN (R249). The buffer's bytes past the response
become 0 (DESIGN CHOICE, log entry 51). -/
def mailboxDone (bs : List Byte) (s : State) : State :=
  let s := { s with host := { s.host with rspBuf := Mem.write [] 0 bs, rspLen := bs.length, mbState := .done } }
  if s.host.irqEn then s.signal 0 else s

/-- An OD_RSP frame; a controller that is bus-off holds it (R275). A module whose NODE_ID is 0 answers no OD_REQ, one that waited for its core
included (R271). -/
def canRespond (bs : List Byte) (s : State) : State :=
  let f := (0x200 + s.can.nodeId, padTo 64 bs)
  if s.can.nodeId = 0 then s
  else if s.can.busOff then { s with can := { s.can with heldRsp := s.can.heldRsp ++ [f] } }
  else s.emit (.canFrame f.1 f.2)

/-- The OD_RSP to a directed request: on the port by which the request came, with the paths of the request in its first line and the response
in the second, and a HOP that leads back through the return path (R214; log entry 33). SRC is the DEST of the request (R210). -/
def directedRsp (c : Client) (d : Directed) (bs : List Byte) : Pkt :=
  { dest := c.src, src := c.dest, opcode := 0x90, flits := 0, dr := true, hop := d.hop - 1, lines := 2, txn := c.txnId
    payload := padTo 64 d.line ++ padTo 64 bs }

/-- The OD_RSP to a routed request (R210, R268). -/
def routedRsp (c : Client) (bs : List Byte) : Pkt :=
  { dest := c.src, src := c.dest, opcode := 0x90, flits := 0, lines := 1, txn := c.txnId, payload := padTo 64 bs }

/-- The answer to a request leaves along its path. -/
def respond (c : Client) (bs : List Byte) (s : State) : State :=
  match c.path with
  | .mailbox => mailboxDone bs s
  | .can => canRespond bs s
  | .fabric =>
    match c.directed with
    | some d => directTo none d.port (directedRsp c d bs) s
    | none => s.send (routedRsp c bs)

/-- A refusal before the request has reached an entry: a status without data. -/
def refuseReq (c : Client) (q : Req) (st : Nat) (s : State) : State := respond c (rspBytes st q 0 0 []) s

/-- VERSION in a response (R266). -/
def verOf (s : State) (r : Reg) (unit : Nat) : Nat := if tySize r.ty = 0 then tget s.vers (r.key unit) 0 else 0

/-- A WRITE that its entry refuses: nothing stays staged, and VERSION is the value's (Table 12-3). -/
def refuseWrite (c : Client) (q : Req) (st : Nat) (r : Reg) (unit : Nat) (s : State) : State :=
  respond c (rspBytes st q (verOf s r unit) 0 []) s

/-! ### Units that entries refer to -/

/-- The unit of an entry on a path: the copy of a select entry is the path's own (R267); the others follow the select entry of
their table. -/
def unitOf (s : State) (p : Path) (r : Reg) (index : Nat) : Nat :=
  let k := pathNo p
  if r.isSelect then k
  else if r.span != 1 then index - r.index
  else
    match r.index with
    | 0x2000 => if 0x0A ≤ r.sub && r.sub ≤ 0x0C then s.rd .coreSel k else 0
    | 0x2101 => s.rd .domainSel k
    | 0x2120 => s.rd .pgroupSel k
    | 0x3010 => if r.sub = 3 then s.rd .tempSensorSel k else 0
    | 0x4010 => s.rd .portSel k
    | 0x4020 => s.rd .routeSel k
    | 0x4040 => if r.sub = 4 then s.rd .memberSel k else if r.sub = 6 then 0 else s.rd .groupSel k
    | 0x4050 => s.rd .collBoardSel k
    | 0x5000 => s.rd .stackSel k
    | 0x5010 => s.rd .regionSel k
    | 0x5020 => s.rd .reckonerSel k
    | 0x6000 => if r.sub = 4 || r.sub = 5 then s.rd .cntBoardSel k * 8 + s.rd .cntSel k else s.rd .cntBoardSel k
    | 0x6010 => if r.sub = 2 || r.sub = 3 then s.rd .blkSel k else 0
    | 0x6030 => if 4 ≤ r.sub then s.rd .beadBoardSel k else 0
    | 0x6040 => s.rd .ninesSel k
    | 0x6100 => s.rd .cwBoardSel k * 256 + s.rd .cwSlotSel k
    | 0x6120 => s.rd .frameSel k
    | 0x6130 => s.rd .tallyBoardSel k
    | 0x6140 => s.rd .streamBoardSel k
    | 0x6150 => s.rd .seqBoardSel k
    | 0x7000 =>
      if 0x21 ≤ r.sub && r.sub ≤ 0x25 then s.rd .crDomainSel k
      else if r.sub = 0x33 || r.sub = 0x34 then s.rd .mirrorRegionSel k
      else if r.sub = 4 then s.rd .logSel k
      else 0
    | 0x8000 => if 2 ≤ r.sub && r.sub ≤ 5 then s.rd .slotSel k else 0
    | _ => 0

/-- The Board that an entry belongs to (R16); subindex 0x00 belongs to its index (R7). -/
def boardOfEntry (r : Reg) (unit : Nat) : Option Nat :=
  if r.isSelect || r.sub == 0 then none
  else
    match r.index with
    | 0x4050 => some unit
    | 0x6000 => some (if r.sub = 4 || r.sub = 5 then unit / 8 else unit)
    | 0x6040 => if unit < 16 then some unit else none
    | 0x6100 => some (unit / 256)
    | 0x6130 => some unit
    | 0x6140 => some unit
    | 0x6150 => some unit
    | 0x6030 => if 5 ≤ r.sub then some unit else none
    | _ => none

/-- An entry of a disabled or retired Board: reads zero, and a write is refused (R16). -/
def deadBoard (s : State) (r : Reg) (unit : Nat) : Bool :=
  match boardOfEntry r unit with
  | some b => !s.boardOk b
  | none => false

/-! ### Checks of a write -/

/-- The stated range of a fixed-size entry; entries whose own rule judges the value are open here. -/
def inRange (r : Reg) (v : Nat) : Bool :=
  if r.ty = 1 then v ≤ 1
  else
    match r.index, r.sub with
    | 0x1100, 0x01 => v ≤ 127
    | 0x1100, 0x06 => v = 0 || (100 ≤ v && v ≤ 60000)
    | 0x1100, 0x0F => v ≤ 7
    | 0x1120, 0x01 => v ≤ 4095 || v = 0xFFFF
    | 0x2000, 0x02 => 1 ≤ v && v ≤ 3
    | 0x2000, 0x04 => 1 ≤ v && v ≤ 2
    | 0x2000, 0x09 => v ≤ 2 || (16 ≤ v && v ≤ 31)
    | 0x2100, 0x01 => 1 ≤ v && v ≤ 4
    | 0x2100, 0x03 => v % 4096 = 0
    | 0x2110, 0x04 => 10 ≤ v && v ≤ 1000
    | 0x2110, 0x06 => v ≤ 1023
    | 0x2110, _ => 1 ≤ v && v ≤ 10000
    | 0x2120, 0x01 => v ≤ 4095
    | 0x3000, 0x01 => 600 ≤ v && v ≤ 1800
    | 0x3010, 0x02 => v ≤ 93
    | 0x3020, 0x01 => v ≤ 3
    | 0x4000, 0x01 => v ≤ 3
    | 0x4000, 0x02 => 1 ≤ v && v ≤ 16
    | 0x4000, 0x03 => 1 ≤ v && v ≤ 16
    | 0x4000, 0x04 => 1 ≤ v && v ≤ 16
    | 0x4000, 0x05 => v ≤ 7
    | 0x4000, 0x06 => v ≤ 4095 || v = 0xFFFF
    | 0x4000, 0x09 => 3 ≤ v && v ≤ 100
    | 0x4010, 0x01 => v ≤ 23
    | 0x4010, 0x04 => v ≤ 6
    | 0x4020, 0x01 => v ≤ 4095
    | 0x4020, 0x02 => bitsOf v 30 24 = 0
    | 0x4040, 0x01 => v ≤ 1023
    | 0x4050, 0x01 => v ≤ 15
    | 0x5000, 0x01 => v ≤ 11
    | 0x5010, 0x01 => v ≤ 63
    | 0x5020, 0x01 => v ≤ 11
    | 0x6000, 0x01 => v ≤ 15
    | 0x6000, 0x03 => v ≤ 7
    | 0x6010, 0x01 => v ≤ 0x543
    | 0x6010, 0x04 => v ≤ 15
    | 0x6010, 0x05 => 1 ≤ v && v ≤ 60000
    | 0x6010, 0x06 => v ≤ 1
    | 0x6010, 0x07 => v % 4096 = 0
    | 0x6010, 0x09 => 1 ≤ v && v ≤ 2
    | 0x6020, 0x01 => 1 ≤ v && v ≤ 4
    | 0x6020, 0x02 => 1 ≤ v && v ≤ 10000
    | 0x6020, 0x03 => v ≤ 1023
    | 0x6030, 0x01 => v = 0 || (8 ≤ v && v ≤ 20)
    | 0x6030, 0x03 => v ≤ 1
    | 0x6030, 0x04 => v ≤ 15
    | 0x6030, 0x08 => v ≤ 1023
    | 0x6040, 0x01 => v ≤ 21
    | 0x6040, 0x02 => 1 ≤ v && v ≤ 64
    | 0x6040, 0x06 => v ≤ 31
    | 0x6040, 0x0A => 1 ≤ v && v ≤ 4
    | 0x6100, 0x01 => v ≤ 15
    | 0x6120, 0x01 => v ≤ 127
    | 0x6130, 0x01 => v ≤ 15
    | 0x6140, 0x01 => v ≤ 15
    | 0x6150, 0x01 => v ≤ 15
    | 0x7000, 0x32 => v ≤ 63
    | 0x7000, 0x33 => v % 65536 = 0
    | 0x7000, 0x40 => 1 ≤ v && v ≤ 4
    | 0x7000, 0x42 => v ≤ 2
    | 0x7000, 0x49 => v ≤ 1
    | 0x7000, 0x4B => v ≤ 1
    | 0x7000, 0x4D => v ≤ 1
    | 0x8000, 0x01 => v ≤ 1
    | 0x8010, 0x01 => 1 ≤ v && v ≤ 4
    | 0x8010, 0x02 => v ≤ 1
    | 0x8010, 0x03 => v % 4096 = 0
    | 0x8010, 0x0C => 100 ≤ v && v ≤ 60000
    | _, _ => true

/-- The commit domain of an RWJ entry, where it belongs to one (R9, R181). -/
def rwjDomain (s : State) (r : Reg) (unit : Nat) : Option Nat :=
  match r.index with
  | 0x2300 => s.slotDomain unit
  | 0x2400 => some unit
  | 0x2120 => if pgUsed (s.pgroup unit) then some (pgDomain (s.pgroup unit)) else none
  | _ => none

/-- Between steps (R9). -/
def betweenSteps (s : State) (r : Reg) (unit : Nat) : Bool :=
  match rwjDomain s r unit with
  | some d => !(s.dom d).isOpen
  | none => !s.anyOpen

/-- Core numbers of CORE_SEL (R308). -/
def coreSecurity : Nat := 0
def corePower : Nat := 1
def coreScheduler : Nat := 2

/-- The entry is kept over a reset: NODE_ID while NODE_ID_PERSIST is 1 alone (R278). -/
def keeps (s : State) (r : Reg) : Bool := r.persist && (r != .nodeId || s.rd .nodeIdPersist == 1)

/-- Entries that the security core serves: persistent writes, staging, attestation, debug unlock (Table 13-2). -/
def needsSecurityCore (s : State) (r : Reg) : Bool :=
  (keeps s r && r.acc != 1) || (r.index == 0x8010 && (r.sub == 1 || r.sub == 6)) || r.index == 0x9000 || r.index == 0x9010

/-- Entries locked while staging is under way (R304): FW_SOURCE, FW_PACKAGE_ADDR, FW_PACKAGE_BYTES and FW_CHUNK_OFFSET. -/
def lockedEntry (s : State) (r : Reg) : Bool := s.fw.staging && r.index == 0x8010 && 2 ≤ r.sub && r.sub ≤ 5

/-- A state transition out of READY is under way (Table 00-6). -/
def State.leaving (s : State) : Bool := s.dev.state == .ready && s.dev.moving.isSome

/-- The first check that a write of a whole value fails, 0 for none: path, access, lock, length, Board, core, state,
range, and a flash device that takes a persistent value (R292). -/
def writeStatus (s : State) (p : Path) (r : Reg) (unit : Nat) (bytes : List Byte) : Nat :=
  if !testBit (s.rd .writePaths) (pathNo p) then stDenied
  else if r.acc = 1 then stReadOnly
  else if lockedEntry s r then stDenied
  else if (if tySize r.ty = 0 then r.maxLen < bytes.length else bytes.length != tySize r.ty) then stLength
  else if deadBoard s r unit then stRefused
  else if s.dev.restarting.contains coreSecurity && needsSecurityCore s r then stBusy
  else if r.acc = 4 && (!(s.dev.state == .service || s.dev.state == .ready) || s.leaving) then stState
  else if r.acc = 5 && !betweenSteps s r unit then stState
  else if tySize r.ty != 0 && !inRange r (leNat bytes) then stRange
  else if keeps s r && s.flash.failA && s.flash.failB then stStore
  else stOk

/-! ### The paths -/

/-- The link leaves L0: no link, and what is reached over it is not reached until it trains again. -/
def dropLink (s : State) : State := { s with host := { s.host with mode := 0, width := 0, rate := 0, inL0 := false } }


/-- Whether a request can reach the module on a path (R268, R271, Table 13-3). -/
def pathServed (s : State) : Path → Bool
  | .mailbox => s.host.mode != 0 && (s.hubUp || (s.dev.state == .standby && s.dev.booting))
  | .can => s.dev.state != .off && s.can.nodeId != 0 && canSends s && !s.can.busOff
  | .fabric => s.hubUp && s.ports.any (fun p => p.2.state == .up || p.2.state == .retrain)

/-- A routed request finds the module without a device number: it is dropped and counted (R269, Table 01-5). -/
def unaddressed (c : Client) (s : State) : Bool := c.path == .fabric && c.directed.isNone && s.device == 0xFFFF

/-- In STANDBY and during boot three entries are served (R268). -/
def standbyEntry (index sub : Nat) : Bool :=
  (index == 0x1000 && sub == 7) || (index == 0x2000 && (sub == 1 || sub == 2))

def limited (s : State) (index sub : Nat) : Bool := s.dev.state == .standby && !standbyEntry index sub

def stagedOf (s : State) : Path → Option Staged
  | .mailbox => s.paths.stagedMb
  | .can => s.paths.stagedCan
  | .fabric => s.paths.stagedFab

def setStaged (p : Path) (v : Option Staged) (s : State) : State :=
  match p with
  | .mailbox => { s with paths := { s.paths with stagedMb := v } }
  | .can => { s with paths := { s.paths with stagedCan := v } }
  | .fabric => { s with paths := { s.paths with stagedFab := v } }

/-- Another source uses the staging buffer of the Ehrerlink path (R265). -/
def stagingBusy (s : State) (c : Client) : Bool :=
  c.path == .fabric && (match s.paths.stagedFab with | some g => g.src != c.src | none => false)

/-- Places in a path's queue (Table 12-6). -/
def pathQueue : Path → Nat
  | .mailbox => 1
  | .can => 4
  | .fabric => 32

/-- The scheduler core restarts: the request waits in its path's queue, or is answered BUSY (R268, R284). The mailbox's queue is the mailbox
itself, which then is BUSY. -/
def waitRequest (c : Client) (q : Req) (bytes : List Byte) (s : State) : State :=
  let n := (s.paths.waiting.filter (fun w => w.path == c.path)).length
  if n < pathQueue c.path then
    { s with
      host := { s.host with mbState := if c.path == .mailbox then .busy else s.host.mbState }
      paths := { s.paths with waiting := s.paths.waiting ++
        [{ path := c.path, src := c.src, dest := c.dest, txnId := c.txnId, directed := c.directed, bytes := bytes }] } }
  else refuseReq c q stBusy s

/-- The scheduler core serves no request at present. -/
def schedulerBusy (s : State) : Bool := s.dev.restarting.contains coreScheduler

/-- An entry's own rule for a write: a status and the new state. A rule that refuses leaves every entry as it was (R10), but for
the counts that the spec gives a refusal (DEBUG_FAILS). -/
abbrev Rule := List Byte → State → Nat × State

/-- A write of a whole value: the checks, then the entry's own rule; a refused write changes nothing (R10). -/
def applyWrite (c : Client) (q : Req) (r : Reg) (unit : Nat) (bytes : List Byte) (rule : Rule) (s : State) : State :=
  let st := writeStatus s c.path r unit bytes
  if st != 0 then refuseWrite c q st r unit s
  else
    let x := rule bytes s
    if x.1 != 0 then refuseWrite c q x.1 r unit x.2
    else respond c (rspBytes stOk q (verOf x.2 r unit) bytes.length []) x.2

/-- As applyWrite, with the answer sent before the effect (R279, Table 12-7). -/
def applyWriteFirst (c : Client) (q : Req) (r : Reg) (unit : Nat) (bytes : List Byte) (rule : Rule) (s : State) : State :=
  let st := writeStatus s c.path r unit bytes
  if st != 0 then refuseWrite c q st r unit s
  else if (rule bytes s).1 != 0 then refuseWrite c q (rule bytes s).1 r unit (rule bytes s).2
  else (rule bytes (respond c (rspBytes stOk q 0 bytes.length []) s)).2

/-- Entries whose write is answered before it acts. -/
def answersFirst (r : Reg) (v : Nat) : Bool :=
  (r.index == 0x2000 && r.sub == 4) || (r.index == 0x1100 && r.sub == 1) || (r.index == 0x2000 && r.sub == 2 && v == 1)

/-- A request on the mailbox finds it BUSY: the GO is ignored, sets OVERLAP, and has no response (R249, R268). -/
def mailboxTaken (s : State) (c : Client) : Bool := c.path == .mailbox && s.host.mbState == .busy

def setOverlap (s : State) : State := { s with host := { s.host with overlap := true } }

/-- A dictionary WRITE of a whole value that a command stands for: on a path that is served, in the order of R12. -/
def viaWrite (v : Via) (r : Reg) (index : Nat) (bytes : List Byte) (rule : Rule) (s : State) : State :=
  let c := viaClient v
  let q := parseReq (writeReqBytes index r.sub v.txn bytes)
  if !pathServed s c.path then s
  else if mailboxTaken s c then setOverlap s
  else if unaddressed c s then s.bump .fabricErrs
  else if limited s index r.sub then refuseReq c q stNotReady s
  else if schedulerBusy s then waitRequest c q (writeReqBytes index r.sub v.txn bytes) s
  else if stagingBusy s c then refuseReq c q stBusy s
  else
    let s := setStaged c.path none s
    if answersFirst r (leNat bytes) then applyWriteFirst c q r (unitOf s c.path r index) bytes rule s
    else applyWrite c q r (unitOf s c.path r index) bytes rule s

/-- A write to an entry that is one register. -/
def viaReg (v : Via) (r : Reg) (n : Nat) (rule : Rule) (s : State) : State :=
  viaWrite v r r.index (leBytes (tySize r.ty) n) rule s

end Sys2Proof.Machine
end

