-- ==== Sys2Proof/Machine/Power.lean ====
section
/-!
DEFINITION. Machine/Power.lean: half clocks, the hardware throttle, the firmware power controller and the thermal thresholds
(chapter 14).
-/
namespace Sys2Proof.Machine

def Power.half (p : Power) (h : Nat) : Half := if h = 0 then p.east else p.west
def Power.setHalf (p : Power) (h : Nat) (x : Half) : Power := if h = 0 then { p with east := x } else { p with west := x }

def State.modHalf (s : State) (h : Nat) (f : Half → Half) : State :=
  { s with pwr := s.pwr.setHalf h (f (s.pwr.half h)) }

/-- A hold that keeps a half clocked down: the host's request, the controller, the thermal or the hardware throttle. -/
def Half.wantsDown (x : Half) : Bool := x.wantHost || x.wantPower || x.wantThermal || x.wantHw

/-- The dividers follow what is wanted (R310); a switch is counted. -/
def applyClock (h : Nat) (s : State) : State :=
  let x := s.pwr.half h
  if x.wantsDown = x.down then s
  else (s.modHalf h (fun y => { y with down := x.wantsDown })).bump .clockChanges

/-- HALF_CLOCK (R310): the request is recorded and takes effect when no hold remains (Table 14-5). -/
def halfClock : Rule := fun bs s =>
  let v := leNat bs
  let s := s.wr .halfClock v
  let s := s.modHalf 0 (fun x => { x with wantHost := testBit v 0 })
  let s := s.modHalf 1 (fun x => { x with wantHost := testBit v 1 })
  (stOk, applyClock 1 (applyClock 0 s))

def execHalfClock (via : Via) (v : Byte) (s : State) : Host.Outcome State Fault Refusal :=
  .next (viaReg via .halfClock v.toNat halfClock s)

/-! ### The hardware throttle (R315) -/

/-- The halves that a trigger acts for. -/
def triggerHalves : ThrottleTrigger → List Nat
  | .overCurrent h => [h.val]
  | _ => [0, 1]

/-- Whether the trigger is an excursion, or power above the limit. -/
def triggerExcursion : ThrottleTrigger → Bool
  | .overCurrent _ => false
  | _ => true

/-- DUTY 8/16 in every affected half. -/
def execThrottle (t : ThrottleTrigger) (s : State) : Host.Outcome State Fault Refusal :=
  if !s.powered then .next s
  else
    let s := setInhibit 0 (s.bump .throttleEvents)
    let s := forEach (triggerHalves t) (fun h s =>
      s.modHalf h (fun x => { x with hwOn := true, hwDuty := min x.hwDuty 8, hwSince := s.dev.up, hwExc := x.hwExc || triggerExcursion t })) s
    let s := if triggerExcursion t then
        { s with pwr := { s.pwr with excursion := true, excMs := if t = .longExcursion then max 8 s.pwr.excMs else s.pwr.excMs } } else s
    .next (forEach (triggerHalves t) (fun h s => s.raise { code := 0x0901, kind := 10, unit := h }) s)

/-- The throttle of a half has been on for 1 ms, the least time that it stays on. -/
def onForMs (s : State) (h : Nat) : Bool := let x := s.pwr.half h; x.hwOn && decide (x.hwSince + 1000000 ≤ s.dev.up)

/-- While the excursion that set off the throttle persists, from 1 ms on: DUTY falls by 1/16 down to 2/16, then both halves are clocked
down. -/
def execThrottleDutyStep (stillOn : Bool) (s : State) : Host.Outcome State Fault Refusal :=
  let on := fun h => onForMs s h && (s.pwr.half h).hwExc
  if !(stillOn && s.pwr.excursion && (on 0 || on 1)) then .next s
  else if [0, 1].any (fun h => on h && (s.pwr.half h).hwDuty ≤ 2) then
    .next (forEach [0, 1] (fun h s => applyClock h (s.modHalf h (fun x => { x with wantHw := true }))) s)
  else .next (forEach ([0, 1].filter on) (fun h s => s.modHalf h (fun x => { x with hwDuty := x.hwDuty - 1 })) s)

/-- The throttle of a half may end: 1 ms has passed, and an excursion that set it off has ended. That an over-current has ended is the
command's to say. -/
def mayHandOver (s : State) (h : Nat) : Bool := onForMs s h && !((s.pwr.half h).hwExc && s.pwr.excursion)

/-- The throttle ends and hands over to the firmware power controller. -/
def execThrottleHandover (s : State) : Host.Outcome State Fault Refusal :=
  let t := forEach ([0, 1].filter (mayHandOver s)) (fun h s =>
    applyClock h (s.modHalf h (fun x => { x with hwOn := false, hwDuty := 16, wantHw := false, hwExc := false }))) s
  if !(mayHandOver s 0 || mayHandOver s 1) then .next s
  else .next (if t.pwr.excursion || t.pwr.east.hwOn || t.pwr.west.hwOn then t else endInhibit 0 t)

/-! ### The firmware power controller (R316) -/

/-- The duty cap after a run: a sixteenth lower above 97 %, a sixteenth higher below 90 %, at most once in 10 ms. -/
def capAfter (above raise : Bool) (cap : Nat) : Nat := if above then max 2 (cap - 1) else if raise then min 16 (cap + 1) else cap

/-- One run of the controller on one half: the cap, and the whole ms that the half has been at 8/16 or below, or at 16/16 with the average
below 75 %. A run that sets the cap begins the count. -/
def capStep (above raise calm : Bool) (x : Half) : Half :=
  let cap := capAfter above raise x.cap
  let low := if cap ≤ 8 && x.cap ≤ 8 then x.lowMs + 1 else 0
  let quiet := if cap = 16 && x.cap = 16 && calm then x.calmMs + 1 else 0
  if 100 ≤ low then { x with cap := 16, lowMs := 0, calmMs := 0, wantPower := true }
  else if !x.wantPower then { x with cap := cap, lowMs := low, calmMs := 0 }
  else if 1000 ≤ quiet then { x with cap := cap, lowMs := low, calmMs := 0, wantPower := false }
  else { x with cap := cap, lowMs := low, calmMs := quiet }

/-- The bits of an FP32 whole number. -/
def f32Nat (n : Nat) : Nat := (rne32 (.fin false n 0)).toNat

def f32Int (i : Int) : Nat := (rne32 (.fin (decide (i < 0)) i.natAbs 0)).toNat

/-- An excursion begins, goes on or ends with the average of the last ms, which is part of it (R314): its length in ms. The input power is
watched by the hardware, also while the power-management core restarts. -/
def trackExcursion (p1 : Nat) (s : State) : State :=
  if s.rd .powerLimit < p1 then
    let n := if s.pwr.excursion then s.pwr.excMs + 1 else 1
    let s := if s.pwr.excursion then s else setInhibit 0 s
    { s with pwr := { s.pwr with excursion := true, excMs := n, excLongest := max s.pwr.excLongest n } }
  else if s.pwr.excursion then
    let s := { s with pwr := { s.pwr with excursion := false, excMs := 0 } }
    if s.pwr.east.hwOn || s.pwr.west.hwOn then s else endInhibit 0 s
  else s

/-- What the controller measures with one run: the averages, the energy and the longest excursion. -/
def measurePower (p1 p100 : Nat) (s : State) : State :=
  let s := { s with pwr := { s.pwr with power := p1, avg100 := p100 } }
  let s := (s.bumpBy .energy p1).maxReg .excursionMax (min (1000 * s.pwr.excLongest) (2 ^ 32 - 1))
  wrFree .halfPower 1 (wrFree .halfPower 0 s)

/-- What the controller decides for the halves. -/
def controlPower (p1 p100 : Nat) (s : State) : State :=
  let lim := s.rd .powerLimit
  let above := 97 * lim < 100 * p1 || 97 * lim < 100 * p100
  let under := 100 * p1 < 90 * lim && 100 * p100 < 90 * lim
  let calm := 100 * p100 < 75 * lim
  let raise := under && s.pwr.raiseWait = 0 && (decide (s.pwr.east.cap < 16) || decide (s.pwr.west.cap < 16))
  let s := { s with pwr := { s.pwr with
    raiseWait := if raise then 9 else s.pwr.raiseWait - 1
    east := capStep above raise calm s.pwr.east
    west := capStep above raise calm s.pwr.west } }
  applyClock 1 (applyClock 0 s)

/-- One run of the controller with the averages P1 and P100 in W, in every state in which its core runs; without compute rails there is no
half to control. What waits for the core's restart is its telemetry and its control. -/
def execPowerControllerTick (p1 p100 : Nat) (s : State) : Host.Outcome State Fault Refusal :=
  if !s.hubUp then .next s
  else
    let s := trackExcursion p1 s
    if s.dev.restarting.contains corePower then .next s
    else
      let s := measurePower p1 p100 s
      .next (if s.powered then controlPower p1 p100 s else s)

/-! ### Thermal limits (R318) -/

/-- Sensors of a half: a hub sensor counts for both (TEMP_SENSOR_SEL numbering). -/
def sensorIn (h i : Nat) : Bool :=
  if i < 64 then boardHalf (i / 4) == h
  else if i < 88 then stackHalf ((i - 64) / 2) == h
  else if i < 92 then (i - 88) / 2 == h
  else true

/-- The sensors that stay powered in SAFE and SERVICE: those of the hub. -/
def sensorPowered (s : State) (i : Nat) : Bool := s.powered || 92 ≤ i

/-- Every powered sensor that satisfies p reads below t. -/
def allBelow (s : State) (t : Int) (p : Nat → Bool) : Bool :=
  s.pwr.temps.all (fun e => !p e.1 || !sensorPowered s e.1 || decide (e.2 < t))

def thermalThrottle (h : Nat) (s : State) : State :=
  if (s.pwr.half h).wantThermal then s
  else
    let s := setInhibit 1 (s.bump .thermalEvents)
    let s := s.raise { code := 0x0902, kind := 10, unit := h }
    applyClock h (s.modHalf h (fun x => { x with wantThermal := true }))

/-- THERMTRIP#, compute rails off, SAFE_CAUSE bit 0. -/
def thermalTrip (s : State) : State :=
  if s.dev.thermTrip then s
  else
    let s := { (s.bump .thermalEvents) with dev := { s.dev with thermTrip := true } }
    enterSafe 0 (s.raise { code := 0x0903, flags := fSafe })

/-- Telemetry of a sample: the power-management core's. -/
def showSample (s : State) : State :=
  if s.dev.restarting.contains corePower then s else wrFree .inputVoltage 0 { s with pwr := { s.pwr with shown := s.pwr.temps } }

/-- The 100 µs comparison of every sensor in hardware, temperatures in °C. -/
def execThermalSample (temps : List (Nat × Int)) (s : State) : Host.Outcome State Fault Refusal :=
  if !s.hubUp then .next s
  else
    let ts := temps.filter (fun e => e.1 < 94 && sensorPowered s e.1)
    let s := { s with pwr := { s.pwr with temps := ts.foldl (fun m e => tset m e.1 e.2) s.pwr.temps } }
    let s := showSample s
    let hot := ts.filter (fun e => decide (85 ≤ e.2) && 64 ≤ e.1 && e.1 < 88 && e.1 % 2 == 1)
    let s := forEach hot (fun e s =>
      let k := (e.1 - 64) / 2
      if s.pwr.refresh.contains k then s else { s with pwr := { s.pwr with refresh := k :: s.pwr.refresh } }) s
    let s := forEach [0, 1] (fun h s =>
      if ts.any (fun e => sensorIn h e.1 && decide (100 ≤ e.2)) then thermalThrottle h s else s) s
    .next (if ts.any (fun e => decide (115 ≤ e.2)) then thermalTrip s else s)

/-- The throttle of a half ends when its sensors have been below 95 °C for 1 s. -/
def execThermalThrottleEnd (half : Fin 2) (s : State) : Host.Outcome State Fault Refusal :=
  if (s.pwr.half half.val).wantThermal && allBelow s 95 (sensorIn half.val) then
    let s := applyClock half.val (s.modHalf half.val (fun x => { x with wantThermal := false }))
    .next (if s.pwr.east.wantThermal || s.pwr.west.wantThermal then s else endInhibit 1 s)
  else .next s

/-- THERMTRIP# is deasserted, and SAFE_CAUSE bit 0 clears. -/
def execThermalTripEnd (s : State) : Host.Outcome State Fault Refusal :=
  if s.dev.thermTrip && allBelow s 90 (fun _ => true) then
    .next { s with dev := { s.dev with thermTrip := false, safeCause := clrBit s.dev.safeCause 0 } }
  else .next s

/-- The doubled refresh of a stack ends when its top die has been below 80 °C for 1 s. -/
def execRefreshRestore (k : StackNo) (s : State) : Host.Outcome State Fault Refusal :=
  if tget s.pwr.temps (65 + 2 * k.val) 0 < 80 then
    .next { s with pwr := { s.pwr with refresh := s.pwr.refresh.filter (· != k.val) } }
  else .next s

end Sys2Proof.Machine
end

