-- ==== Sys2Proof/Machine/Bundle.lean ====
section
/-!
DEFINITION. Machine/Bundle.lean: banks, bundles and register groups of the sequencer: their fields, the scaling by length, and the
checks of Table 06-2 (R129 to R147, R378).
-/
namespace Sys2Proof.Machine

/-! ### Groups (Table 06-5) -/

/-- Words of a group; a FETCH group in its short form has 2. -/
def groupWords (rearm : Bool) : Nat → Nat
  | 0 => if rearm then 2 else 5
  | 1 => if rearm then 2 else 5
  | 4 => 4
  | 5 => 8
  | 7 => 3
  | 11 => 3
  | _ => 2

/-- Header fields (Table 06-4). -/
def hEpoch (h : Nat) : Nat := bitsOf h 31 24
def hMask (h : Nat) : Nat := bitsOf h 23 12
def hFiller (h : Nat) : Bool := testBit h 11
def hRearm (h : Nat) : Bool := testBit h 10
def hLength (h : Nat) : Nat := bitsOf h 5 0

/-- The groups present, by ascending mask bit. -/
def hGroups (h : Nat) : List Nat := bitList (hMask h) 12

/-- LENGTH as the mask and REARM give it (R134). -/
def lengthOf (h : Nat) : Nat := (hGroups h).foldl (fun a g => a + groupWords (hRearm h) g) 1

/-- k words from an offset, word 0 lowest (R6). -/
def wordsAt (bank : Nat → Nat) (o k : Nat) : Nat :=
  (List.range k).foldl (fun a i => a + bank (o + i) <<< (32 * i)) 0

/-- The values of the groups of a bundle whose header stands at an offset (R133). -/
def groupsAt (bank : Nat → Nat) (rearm : Bool) : List Nat → Nat → Tbl Nat
  | [], _ => []
  | g :: gs, o => (g, wordsAt bank o (groupWords rearm g)) :: groupsAt bank rearm gs (o + groupWords rearm g)

def bundleGroups (bank : Nat → Nat) (o : Nat) : Tbl Nat :=
  groupsAt bank (hRearm (bank o)) (hGroups (bank o)) (o + 1)

def grpAt (gs : Tbl Nat) (g : Nat) : Nat := tget gs g 0

/-! ### Fields (Tables 06-7 to 06-17) -/

def fLink (g : Nat) : Nat := bitsOf g 159 152
def fSrc (g : Nat) : Nat := bitsOf g 151 149
def fFills (g : Nat) : Nat := bitsOf g 147 132
def fRuns (g : Nat) : Nat := bitsOf g 131 116
def fRun (g : Nat) : Nat := bitsOf g 115 104
def fStride (g : Nat) : Nat := bitsOf g 103 84
def fFabric (g : Nat) : Nat := bitsOf g 63 48
def fBase (g : Nat) : Nat := bitsOf g 47 0

def eRowLink (g : Nat) : Nat := bitsOf g 63 56
def eRodLink (g : Nat) : Nat := bitsOf g 55 48
def eRowPerBuf (g : Nat) : Nat := bitsOf g 47 40
def eRodPerBuf (g : Nat) : Nat := bitsOf g 39 32
def eBeats (g : Nat) : Nat := bitsOf g 31 16
def eTagBase (g : Nat) : Nat := bitsOf g 15 12

def aMask (g : Nat) : Nat := bitsOf g 63 56
def aKLen (g : Nat) : Nat := bitsOf g 55 38
def aRowTiles (g : Nat) : Nat := bitsOf g 37 26
def aRodTiles (g : Nat) : Nat := bitsOf g 25 14
def aRowFmt (g : Nat) : Nat := bitsOf g 13 11
def aRodFmt (g : Nat) : Nat := bitsOf g 10 8
def aProofExp (g : Nat) : Nat := bitsOf g 7 4
def aFold (g : Nat) : Bool := testBit g 3
def aTurnRow (g : Nat) : Bool := testBit g 2
def aTurnRod (g : Nat) : Bool := testBit g 1

def dTileBase (g : Nat) : Nat := bitsOf g 127 96
def dKeyMb (g : Nat) : Nat := bitsOf g 95 80
def dTensor (g : Nat) : Nat := bitsOf g 79 64
def dSlot (g : Nat) : Nat := bitsOf g 63 56
def dClass (g : Nat) : Nat := bitsOf g 55 54
def dMode (g : Nat) : Nat := bitsOf g 53 52
def dFmt (g : Nat) : Nat := bitsOf g 51 49
def dRound (g : Nat) : Bool := testBit g 48
def dOrder (g : Nat) : Bool := testBit g 47
def dTally (g : Nat) : Bool := testBit g 46
def dUse (g : Nat) : Nat := bitsOf g 45 40
def dPart (g : Nat) : Nat := bitsOf g 39 36
def dSlice (g : Nat) : Nat := bitsOf g 35 24
def dLink (g : Nat) : Nat := bitsOf g 23 16
def dTilesPerBuf (g : Nat) : Nat := bitsOf g 15 8

def sOpNumber (g : Nat) : Nat := bitsOf g 255 224
def sParam (g : Nat) : Nat := bitsOf g 223 192
def sParam2 (g : Nat) : Nat := bitsOf g 191 160
def sTensor (g : Nat) : Nat := bitsOf g 159 144
def sTensor2 (g : Nat) : Nat := bitsOf g 143 128
def sSlot (g : Nat) : Nat := bitsOf g 127 120
def sSlot2 (g : Nat) : Nat := bitsOf g 119 112
def sOp (g : Nat) : Nat := bitsOf g 111 104
def sOutFmt (g : Nat) : Nat := bitsOf g 103 101
def sRound (g : Nat) : Bool := testBit g 100
def sClass (g : Nat) : Nat := bitsOf g 99 98
def sADrain (g : Nat) : Bool := testBit g 97
def sSrcA (g : Nat) : Nat := bitsOf g 71 64
def sSrcB (g : Nat) : Nat := bitsOf g 63 56
def sSrcC (g : Nat) : Nat := bitsOf g 55 48
def sDst (g : Nat) : Nat := bitsOf g 47 40
def sDst2 (g : Nat) : Nat := bitsOf g 39 32
def sRowLen (g : Nat) : Nat := bitsOf g 31 16
def sRows (g : Nat) : Nat := bitsOf g 15 0

def tAction (g : Nat) : Nat := bitsOf g 63 62
def tLink (g : Nat) : Nat := bitsOf g 61 54
def tOffset (g : Nat) : Nat := bitsOf g 53 30
def tSize (g : Nat) : Nat := bitsOf g 29 6

def gMapFirst (g : Nat) : Nat := bitsOf g 95 76
def gMapCount (g : Nat) : Nat := bitsOf g 75 60
def gGroup (g : Nat) : Nat := bitsOf g 59 50
def gLandSem (g : Nat) : Nat := bitsOf g 49 42
def gCopy (g : Nat) : Nat := bitsOf g 41 40
def gKeep (g : Nat) : Bool := testBit g 39
def gDest (g : Nat) : Nat := bitsOf g 23 0

def rSliceFirst (g : Nat) : Nat := bitsOf g 63 52
def rSliceCount (g : Nat) : Nat := bitsOf g 51 40
def rGroup (g : Nat) : Nat := bitsOf g 39 30
def rVote (g : Nat) : Bool := testBit g 29
def rWire (g : Nat) : Nat := bitsOf g 28 28
def rDoneSem (g : Nat) : Nat := bitsOf g 27 20

def mWaitKind (g : Nat) : Nat := bitsOf g 63 63
def mWaitSem (g : Nat) : Nat := bitsOf g 62 53
def mWaitN (g : Nat) : Nat := bitsOf g 47 32
def mSigKind (g : Nat) : Nat := bitsOf g 31 31
def mSigSem (g : Nat) : Nat := bitsOf g 30 21
def mSigAt (g : Nat) : Bool := testBit g 20
def mSigN (g : Nat) : Nat := bitsOf g 15 0

/-- Queue code, SEL and DEPTH of PACE condition k (Table 06-16). -/
def pQueue (g k : Nat) : Nat := bitsOf g (32 * k + 31) (32 * k + 28)
def pSel (g k : Nat) : Nat := bitsOf g (32 * k + 27) (32 * k + 20)
def pDepth (g k : Nat) : Nat := bitsOf g (32 * k + 19) (32 * k + 8)

def oLayer (g : Nat) : Nat := bitsOf g 95 80
def oMb (g : Nat) : Nat := bitsOf g 79 64
def oWakeLead (g : Nat) : Nat := bitsOf g 63 48
def oWakeMask (g : Nat) : Nat := bitsOf g 47 40
def oScale (g : Nat) : Nat := bitsOf g 39 33
def oUnit (g : Nat) : Nat := bitsOf g 32 31
def oOp (g : Nat) : Nat := bitsOf g 30 28

def opNop : Nat := 0
def opRun : Nat := 1
def opStepDone : Nat := 2
def opSwap : Nat := 3
def opStop : Nat := 4

/-! ### Scaling (R137, Table 06-17) -/

/-- The scaled fields, by SCALE bit: group, high and low bit. -/
def scaledField : Nat → Nat × Nat × Nat
  | 0 => (0, 147, 132)
  | 1 => (1, 147, 132)
  | 2 => (3, 37, 26)
  | 3 => (3, 25, 14)
  | 4 => (3, 55, 38)
  | 5 => (2, 31, 16)
  | _ => (5, 15, 0)

/-- field × ceil(LEN / unit), the unit being 64, 128 or 256 tokens. -/
def scaledBy (field len unit : Nat) : Nat := field * ceilDiv len (64 * 2 ^ unit)

/-- The groups with every field that START.SCALE marks at its scaled value; a value past the field's width is kept modulo it. -/
def scaleGroups (gs : Tbl Nat) (len : Nat) : Tbl Nat :=
  let st := grpAt gs 11
  (bitList (oScale st) 7).foldl (fun gs b =>
    let f := scaledField b
    match gs.lookup f.1 with
    | some v => tset gs f.1 (setBits v f.2.1 f.2.2 (scaledBy (bitsOf v f.2.1 f.2.2) len (oUnit st)))
    | none => gs) gs

/-! ### Slate links (Table 06-24) -/

/-- The links that a Slate operation reads: SRC_A, SRC_B, SRC_C in use. -/
def slateUses : Nat → Bool × Bool × Bool
  | 0x01 => (true, true, true)
  | 0x02 => (true, true, false)
  | 0x03 => (true, true, false)
  | 0x04 => (true, true, false)
  | 0x05 => (true, true, false)
  | 0x13 => (true, true, true)
  | 0x14 => (true, true, false)
  | 0x15 => (true, true, false)
  | _ => (true, false, false)

def slateOpOk (op : Nat) : Bool := (1 ≤ op && op ≤ 0x0B) || (0x10 ≤ op && op ≤ 0x16)

/-- XENT and DROPOUT use DST2. -/
def slateUsesDst2 (op : Nat) : Bool := op == 0x15 || op == 0x16

/-- Every link field that a SLATE group uses (R378). -/
def slateLinks (g : Nat) : List Nat :=
  let u := slateUses (sOp g)
  (if u.1 && !sADrain g then [sSrcA g] else []) ++ (if u.2.1 then [sSrcB g] else []) ++ (if u.2.2 then [sSrcC g] else [])
    ++ [sDst g] ++ (if slateUsesDst2 (sOp g) then [sDst2 g] else [])

/-! ### The checks of Table 06-2 -/

/-- Rank of a format (Table 03-1). -/
def fmtRank : Nat → Nat
  | 1 => 1
  | 4 => 4
  | _ => 2

/-- The rank of a pass (R56). -/
def passRank (frame : Nat) : Nat := min (fmtRank (aRowFmt frame)) (fmtRank (aRodFmt frame))

/-- Rows and Rods of a tile (R62). -/
def tileDims (fold : Bool) : Nat × Nat := if fold then (128, 64) else (256, 32)

/-- Bytes of the squares that n tiles side by side occupy (R140): (rows across squares) × (columns across squares). -/
def tileSquares (fold order : Bool) (n : Nat) : Nat :=
  let d := tileDims fold
  let r := if order then d.2 else d.1
  let c := if order then d.1 else d.2
  if order then ceilDiv (n * r) 64 * ceilDiv c 64 else ceilDiv r 64 * ceilDiv (n * c) 64

def fmtBytes (code : Nat) : Nat :=
  match fmtOfCode code with
  | some f => f.squareBytes
  | none => 0

/-- What a bank is checked against: the Board's tables as the image loads them. -/
structure BankEnv where
  state : State
  board : Nat
  bank : Nat → Nat

def BankEnv.brd (v : BankEnv) : Board := v.state.board v.board

/-- Start of each partition (Table 05-1). -/
def Board.stashStart (x : Board) : Nat := x.partTally
def Board.gatherStart (x : Board) : Nat := x.partTally + x.partStash
def Board.streamStart (x : Board) : Nat := x.partTally + x.partStash + x.partGather

/-- A range that lies in a partition. -/
def inPart (start size a n : Nat) : Bool := decide (start ≤ a) && decide (a + n ≤ start + size)

def linkDefined (x : Board) (l : Nat) : Bool := (x.links.lookup l).isSome

/-- The domain of an epoch and its LEN_LIMIT. -/
def BankEnv.limit (v : BankEnv) (h : Nat) : Option (Nat × Nat) :=
  match v.state.domOfEpoch (hEpoch h) with
  | some d => some (d, (v.state.dom d).lenLimit)
  | none => none

/-- A marked field. -/
def isScaled (gs : Tbl Nat) (b : Nat) : Bool := testBit (oScale (grpAt gs 11)) b

/-- A field in range, unless it is scaled. -/
def unscaledIn (gs : Tbl Nat) (b : Nat) (ok : Bool) : Bool := isScaled gs b || ok

/-- The fetch group in full form: reserved bits and codes, ranges. -/
def fetchFieldsOk (gs : Tbl Nat) (k : Nat) : Bool :=
  let g := grpAt gs k
  fSrc g < 4 && bitsOf g 148 148 == 0 && bitsOf g 83 64 == 0 && unscaledIn gs k (1 ≤ fFills g) && 1 ≤ fRuns g && 1 ≤ fRun g

def drainFieldsOk (g : Nat) : Bool :=
  dMode g < 3 && dFmt g < 5 && bitsOf g 7 0 == 0 && !(dMode g == 1 && dFmt g != 0) &&
  (if dTally g then dLink g == 0 && dTilesPerBuf g == 0 else dMode g == 2 || 1 ≤ dTilesPerBuf g)

def paceOk (g k : Nat) : Bool := pQueue g k < 10 && !(pQueue g k == 9 && 8 ≤ pSel g k)

/-- Reason 3 for a group that the bundle carries. -/
def groupFieldsOk (h : Nat) (gs : Tbl Nat) (b : Nat) : Bool :=
  let g := grpAt gs b
  match b with
  | 0 => if hRearm h then bitsOf g 63 48 == 0 else fetchFieldsOk gs 0
  | 1 => if hRearm h then bitsOf g 63 48 == 0 else fetchFieldsOk gs 1
  | 2 => bitsOf g 11 0 == 0 && 1 ≤ eRowPerBuf g && 1 ≤ eRodPerBuf g
  | 3 => bitsOf g 0 0 == 0 && unscaledIn gs 2 (1 ≤ aRowTiles g) && unscaledIn gs 3 (1 ≤ aRodTiles g)
         && 1 ≤ aRowFmt g && aRowFmt g ≤ 4 && 1 ≤ aRodFmt g && aRodFmt g ≤ 4
  | 4 => drainFieldsOk g
  | 5 => bitsOf g 96 72 == 0 && sOutFmt g < 5 && unscaledIn gs 6 (1 ≤ sRows g)
  | 6 => bitsOf g 5 0 == 0
  | 7 => bitsOf g 38 24 == 0 && gCopy g < 2 && 1 ≤ gMapCount g
  | 8 => bitsOf g 19 0 == 0 && 1 ≤ rSliceCount g && !(rVote g && rWire g == 1)
  | 9 => bitsOf g 52 48 == 0 && bitsOf g 19 16 == 0
  | 10 => bitsOf g 39 32 == 0 && bitsOf g 7 0 == 0 && paceOk g 0 && paceOk g 1
  | _ => bitsOf g 27 0 == 0 && oUnit g < 3 && oOp g < 5

/-- A fabric address that names a disabled or retired Board of this module, or that is named before the device number (R3,
Table 01-5). -/
def fabricBad (s : State) (a : Nat) : Bool := s.device == 0xFFFF || (a / 16 == s.device && !s.boardOk (a % 16))

/-- Frames that a bundle names. -/
def namedFrames (gs : Tbl Nat) : List Nat :=
  let p := grpAt gs 10
  bitList (aMask (grpAt gs 3) ||| oWakeMask (grpAt gs 11)) 8
    ++ (if pQueue p 0 = 9 then [pSel p 0] else []) ++ (if pQueue p 1 = 9 then [pSel p 1] else [])

/-- Reason 4. -/
def namesDead (v : BankEnv) (h : Nat) (gs : Tbl Nat) : Bool :=
  ([0, 1].any (fun k => (gs.lookup k).isSome && !hRearm h && (fSrc (grpAt gs k) == 0 || fSrc (grpAt gs k) == 2)
    && fabricBad v.state (fFabric (grpAt gs k))))
  || (namedFrames gs).any (fun f => !v.state.frameOk v.board f)

/-- Reason 5, on the groups as scaled at LEN_LIMIT. -/
def kLenBad (sc : Tbl Nat) : Bool :=
  match sc.lookup 3 with
  | some g => aKLen g == 0 || aKLen g % 64 != 0 || decide (32768 < aKLen g / passRank g)
  | none => false

/-- A fetch reads a Board's STASH or GATHER partition (Table 05-1). -/
def fetchPart (x : Board) (a n : Nat) : Bool := inPart x.stashStart x.partStash a n || inPart x.gatherStart x.partGather a n

/-- The board-store range of a FETCH group lies in a partition that fetches read: of the Board itself (SRC 1) or of the Board that FABRIC
names (SRC 2). Of a Board of another module only the size of its store is known here. -/
def fetchStoreOk (v : BankEnv) (g : Nat) : Bool :=
  let a := 64 * fBase g
  let n := 64 * (((fFills g * fRuns g - 1) * fStride g) + fRun g)
  if fSrc g = 1 then fetchPart v.brd a n
  else if fSrc g = 2 then
    (if fFabric g / 16 == v.state.device then fetchPart (v.state.board (fFabric g % 16)) a n else decide (a + n ≤ storeBytes))
  else true

/-- Reason 6. A STORE-mode DRAIN group whose bundle carries no FRAME group is checked for tiles of normal mode, since values retained are
not followed (DESIGN CHOICE, log entry 48). -/
def storeBad6 (v : BankEnv) (h : Nat) (sc : Tbl Nat) : Bool :=
  let x := v.brd
  let fetchBad := fun (k : Nat) =>
    match sc.lookup k with
    | some g => !hRearm h && (!fetchStoreOk v g || (linkDefined x (fLink g) && decide (x.minBuf (fLink g) < fRuns g * fRun g * 64)))
    | none => false
  let gatherBad := match sc.lookup 7 with
    | some g => decide (gDest g < 0x180000) && !inPart x.gatherStart x.partGather (64 * gDest g) 64
    | none => false
  let drainBad := match sc.lookup 4 with
    | some g =>
      dMode g == 0 && !dTally g && linkDefined x (dLink g)
        && decide (x.minBuf (dLink g) < tileSquares (aFold (grpAt sc 3)) (dOrder g) (dTilesPerBuf g) * fmtBytes (dFmt g))
    | none => false
  fetchBad 0 || fetchBad 1 || gatherBad || drainBad

/-- Reason 7 (R153). -/
def fillerBad (h : Nat) (gs : Tbl Nat) : Bool :=
  hFiller h && ((match gs.lookup 4 with | some g => dTally g | none => false) || (gs.lookup 8).isSome
    || oOp (grpAt gs 11) == opStepDone)

/-- Reason 8 (R93, R140). -/
def tallyBad (v : BankEnv) (h : Nat) (sc : Tbl Nat) : Bool :=
  match sc.lookup 4 with
  | some g =>
    dTally g &&
    (dMode g != 1 || dOrder g ||
     (let n := match sc.lookup 3 with | some f => aRowTiles f * aRodTiles f | none => 1
      decide (4096 < dSlice g + n) || (List.range n).any (fun i =>
        match v.brd.slices.lookup (dSlice g + i) with
        | some e =>
          v.state.domOfEpoch (hEpoch h) != some e.domain || e.mCount ≤ dKeyMb g || e.uCount ≤ dUse g || e.pCount ≤ dPart g
            || (match sc.lookup 3 with | some f => e.fold != aFold f | none => false)
        | none => true)))
  | none => false

/-- The links that a bundle uses. -/
def usedLinks (h : Nat) (gs : Tbl Nat) : List Nat :=
  let p := grpAt gs 10
  (if hRearm h then [] else ([0, 1].filter (fun k => (gs.lookup k).isSome)).map (fun k => fLink (grpAt gs k)))
    ++ (match gs.lookup 2 with | some g => [eRowLink g, eRodLink g] | none => [])
    ++ (match gs.lookup 4 with | some g => if !dTally g && dMode g < 2 then [dLink g] else [] | none => [])
    ++ (match gs.lookup 5 with | some g => if slateOpOk (sOp g) then slateLinks g else [] | none => [])
    ++ (match gs.lookup 6 with | some g => if tAction g = 3 then [] else [tLink g] | none => [])
    ++ (if pQueue p 0 = 2 || pQueue p 0 = 3 then [pSel p 0] else []) ++ (if pQueue p 1 = 2 || pQueue p 1 = 3 then [pSel p 1] else [])

/-- Reason 9. A number above 255 of a local semaphore is refused with a count of 0 too: only the Beam case asks for a nonzero SIG_N. -/
def semLinkBad (v : BankEnv) (h : Nat) (gs : Tbl Nat) : Bool :=
  let m := grpAt gs 9
  (mWaitKind m == 0 && 255 < mWaitSem m) || (mSigKind m == 0 && 255 < mSigSem m)
    || (mSigKind m == 1 && mSigN m != 0 && v.brd.bsemOut.length ≤ mSigSem m)
    || (usedLinks h gs).any (fun l => !linkDefined v.brd l)

/-- Reason 10. -/
def scaleBad (lim : Nat) (h : Nat) (gs : Tbl Nat) : Bool :=
  (bitList (oScale (grpAt gs 11)) 7).any (fun b =>
    let f := scaledField b
    match gs.lookup f.1 with
    | none => true
    | some v =>
      (hRearm h && f.1 < 2) ||
      (let n := scaledBy (bitsOf v f.2.1 f.2.2) lim (oUnit (grpAt gs 11))
       decide (2 ^ (f.2.1 + 1 - f.2.2) ≤ n) || (n == 0 && b != 5)))

/-- The reason of Table 06-2 for which one bundle is refused; 0 for none. Of several the lowest is reported, but for 11 and 12, which are the
walk's (DESIGN CHOICE, log entry 48: the spec gives no order). -/
def checkBundle (v : BankEnv) (filler : Bool) (o : Nat) : Nat :=
  let h := v.bank o
  let gs := bundleGroups v.bank o
  if hLength h != lengthOf h then 1
  else
    let lim := v.limit h
    let sc := match lim with
      | some l => if oUnit (grpAt gs 11) < 3 then scaleGroups gs l.2 else gs
      | none => gs
    if hFiller h != filler then 2
    else if bitsOf h 9 6 != 0 || (hGroups h).any (fun b => !groupFieldsOk h gs b) then 3
    else if namesDead v h gs then 4
    else if kLenBad sc then 5
    else if storeBad6 v h sc then 6
    else if fillerBad h gs then 7
    else if tallyBad v h sc then 8
    else if semLinkBad v h gs then 9
    else if (match lim with | some l => scaleBad l.2 h gs | none => false) then 10
    else if (match gs.lookup 5 with | some g => !slateOpOk (sOp g) | none => false) then 13
    else if lim.isNone then 14
    else if (match gs.lookup 4 with
             | some g => dMode g == 2 && !((gs.lookup 5).isSome && sADrain (grpAt gs 5))
             | none => false) then 15
    else if (oOp (grpAt gs 11) == opSwap || oOp (grpAt gs 11) == opStop) && hMask h != 2 ^ 11 then 16
    else 0

/-- A walk from an offset (R131): the words it covers, or the offset and reason of the first failing bundle. `taken` are the
words of the main stream's walk. -/
def walk (v : BankEnv) (filler : Bool) (taken : List (Nat × Nat)) : Nat → Nat → Nat → Sum (Nat × Nat) (List (Nat × Nat))
  | 0, o, _ => .inl (o, 11)
  | fuel + 1, o, last =>
    if 65535 < o then .inl (last, 11)
    else
      let n := lengthOf (v.bank o)
      let r := checkBundle v filler o
      if r = 1 then .inl (o, 1)
      else if 65536 < o + n then .inl (o, 11)
      else if r != 0 then .inl (o, r)
      else if taken.any (fun t => decide (t.1 < o + n) && decide (o < t.2)) then .inl (o, 11)
      else
        let op := oOp (grpAt (bundleGroups v.bank o) 11)
        if op = opSwap || op = opStop then .inr [(o, o + n)]
        else
          match walk v filler taken fuel (o + n) o with
          | .inl e => .inl e
          | .inr l => .inr ((o, o + n) :: l)

/-- The check of a bank: the header, then both walks; the offset and reason of the first failure. `prev` is the BANK_SEQ that the
bank follows; none for the job's first bank. -/
def checkBank (s : State) (b : Nat) (bank : Nat → Nat) (prev : Option Nat) : Option (Nat × Nat) :=
  let v : BankEnv := { state := s, board := b, bank := bank }
  let main := bank 0 % 65536
  let fill := bank 0 / 65536
  if bank 2 != 0 || bank 3 != 0 || main < 4 || fill < 4 then some (0, 3)
  else if (match prev with | some p => bank 1 != (p + 1) % 2 ^ 32 | none => false) then some (0, 12)
  else
    match walk v false [] 65536 main main with
    | .inl e => some e
    | .inr l =>
      match walk v true l 65536 fill fill with
      | .inl e => some e
      | .inr _ => none

/-- A bank held as a table or as the words of a section. -/
def bankOf (t : Tbl W32) : Nat → Nat := fun o => (tget t o 0#32).toNat
def bankOfWords (l : List W32) : Nat → Nat := fun o => (l.getD o 0#32).toNat

/-- The active bank of a Board. -/
def Board.activeBank (x : Board) : Tbl W32 := if x.active = 0 then x.bank0 else x.bank1
def Board.inactiveBank (x : Board) : Tbl W32 := if x.active = 0 then x.bank1 else x.bank0
def Board.setInactive (x : Board) (t : Tbl W32) : Board := if x.active = 0 then { x with bank1 := t } else { x with bank0 := t }

end Sys2Proof.Machine
end

