-- ==== Sys2Proof/Machine/Digest.lean ====
section
/-!
DEFINITION. Machine/Digest.lean: SHAKE256 with 512 bits of output, the digest of R293 (FIPS 202), and what certificates, firmware manifests
and signatures hold (Tables 13-7 and 13-8).
-/
namespace Sys2Proof.Machine

/-! ### Keccak (FIPS 202; PRESUMED, log entry 5) -/

/-- The 25 lanes of the sponge's state; lane (x, y) is number x + 5 y. -/
abbrev Lanes := List W64

def lane (a : Lanes) (x y : Nat) : W64 := a.getD (x % 5 + 5 * (y % 5)) 0#64

/-- Lanes made from their coordinates. -/
def lanesOf (f : Nat → Nat → W64) : Lanes := (List.range 25).map (fun i => f (i % 5) (i / 5))

/-- The rotation of lane i in step rho: six bits of this number for each lane. -/
def rhoBits (i : Nat) : Nat := bitsOf 0xEE3D0922153EDA6766B2835371AC91B73E040 (6 * i + 5) (6 * i)

/-- The shift register from which step iota takes its constants, one step on. -/
def lfsr (r : Nat) : Nat := if 128 ≤ r then (2 * r) ^^^ 0x171 else 2 * r

/-- The constant of a round from the register before it, and the register after it: of the seven bits taken, bit j stands at 2^j − 1. -/
def iotaRound (r : Nat) : Nat × Nat := (List.range 7).foldl (fun a j => (a.1 + a.2 % 2 * 2 ^ (2 ^ j - 1), lfsr a.2)) (0, r)

/-- Step theta. -/
def theta (a : Lanes) : Lanes :=
  let c := (List.range 5).map (fun x => lane a x 0 ^^^ lane a x 1 ^^^ lane a x 2 ^^^ lane a x 3 ^^^ lane a x 4)
  let d := (List.range 5).map (fun x => c.getD ((x + 4) % 5) 0#64 ^^^ (c.getD ((x + 1) % 5) 0#64).rotateLeft 1)
  lanesOf (fun x y => lane a x y ^^^ d.getD x 0#64)

/-- Steps rho and pi. -/
def rhoPi (a : Lanes) : Lanes :=
  lanesOf (fun x y => (lane a (x + 3 * y) x).rotateLeft (rhoBits ((x + 3 * y) % 5 + 5 * x)))

/-- Step chi, and iota on lane (0, 0). -/
def chiIota (rc : W64) (a : Lanes) : Lanes :=
  lanesOf (fun x y =>
    let v := lane a x y ^^^ (~~~(lane a (x + 1) y) &&& lane a (x + 2) y)
    if x = 0 && y = 0 then v ^^^ rc else v)

/-- n rounds, from a register of the constants on. -/
def keccakRounds : Nat → Nat → Lanes → Lanes
  | 0, _, a => a
  | n + 1, r, a =>
    let c := iotaRound r
    keccakRounds n c.2 (chiIota (BitVec.ofNat 64 c.1) (rhoPi (theta a)))

/-- The permutation of 24 rounds. -/
def keccak (a : Lanes) : Lanes := keccakRounds 24 1 a

/-- Bytes of a block, added to the first lanes. -/
def absorb (a : Lanes) (block : List Byte) : Lanes :=
  keccak (lanesOf (fun x y => lane a x y ^^^ BitVec.ofNat 64 (leNat ((block.drop (8 * (x + 5 * y))).take 8))))

/-- The padding of SHAKE to a multiple of the rate, 136 bytes. -/
def shakePad (bs : List Byte) : List Byte :=
  let n := 136 - bs.length % 136
  if n = 1 then bs ++ [0x9F#8] else bs ++ 0x1F#8 :: List.replicate (n - 2) 0#8 ++ [0x80#8]

/-- The blocks of the rate, in order. -/
def shakeBlocks (bs : List Byte) : List (List Byte) := (List.range (bs.length / 136)).map (fun i => (bs.drop (136 * i)).take 136)

/-- SHAKE256 with 512 bits of output (R293). -/
def digest (bs : List Byte) : List Byte :=
  let a := (shakeBlocks (shakePad bs)).foldl absorb (List.replicate 25 0#64)
  (a.take 8).flatMap (fun l => leBytes 8 l.toNat)

end Sys2Proof.Machine
end

