-- ==== Sys2Proof/Machine/Feed.lean ====
section
/-!
DEFINITION. Machine/Feed.lean: feed rings, the decisions at the head of a ring, stash reservation, admission and the opening of a
step (R9, R83 to R89, R168, R250 to R254).
-/
namespace Sys2Proof.Machine

/-! ### The record (Table 11-6) -/

def recPayloadAddr (r : BitVec 512) : Nat := bitsOf r.toNat 511 448
def recPayloadBytes (r : BitVec 512) : Nat := bitsOf r.toNat 447 416
def recLenMax (r : BitVec 512) : Nat := bitsOf r.toNat 415 384
def recLen (r : BitVec 512) : Nat := bitsOf r.toNat 383 352
def recTag (r : BitVec 512) : Nat := bitsOf r.toNat 351 320
def recSeq (r : BitVec 512) : Nat := bitsOf r.toNat 319 288
def recUser (r : BitVec 512) : Nat := bitsOf r.toNat 287 224
def recKind (r : BitVec 512) : Nat := bitsOf r.toNat 32 32
def recReserved (r : BitVec 512) : Bool := bitsOf r.toNat 223 33 != 0 || bitsOf r.toNat 15 8 != 0

/-- The address in host memory of the slot at the head (R251). -/
def Ring.slotAddr (r : Ring) : Nat := r.base + 64 * (r.cons % 2 ^ r.log2)

/-! ### Ring registers (R250 to R252) -/

/-- A write to a ring or doorbell register that is ignored (R250, R251). -/
def ringIgnored (d : Nat) (s : State) : State := s.domCause d 0

/-- RING_BASE and DB_LINE accept writes: no open step, ring DISABLED or STOPPED. -/
def ringWritable (d : Nat) (s : State) : Bool :=
  let x := s.dom d
  !x.isOpen && (x.ring.state == .disabled || x.ring.state == .stopped)

def writeRingBase (d : Nat) (v : W64) (s : State) : State :=
  let lg := bitsOf v.toNat 4 0
  if !ringWritable d s || (1 ≤ lg && lg ≤ 3) || 16 < lg then ringIgnored d s
  else s.modDom d (fun x => { x with ring := { x.ring with
    base := v.toNat - v.toNat % 4096, log2 := lg, prodSeen := 0, cons := 0
    head := none, skipTag := none, reported := false
    state := if lg = 0 then .disabled else .active } })

def writeDbLine (d : Nat) (v : W64) (s : State) : State :=
  if !ringWritable d s then ringIgnored d s
  else s.modDom d (fun x => { x with ring := { x.ring with dbLine := v.toNat - v.toNat % 64 } })

/-- The doorbell line is in use (R251, R260). -/
def State.lineInUse (s : State) (d : Nat) : Bool := (s.dom d).ring.dbLine != 0 && s.host.mode == 2 && s.host.cacheEn

/-- A producer count is taken; one out of range stops the ring and voids an open step not yet offered (R252). -/
def takeCount (d count : Nat) (s : State) : State :=
  let x := s.dom d
  if x.ring.state == .active || x.ring.state == .held then
    let s := s.modDom d (fun x => { x with ring := { x.ring with prodSeen := count } })
    if 2 ^ x.ring.log2 < (count + 2 ^ 32 - x.ring.cons) % 2 ^ 32 then
      let s := s.modDom d (fun x => { x with ring := { x.ring with state := .stopped, head := none } })
      let voids := x.busy && x.exch.state == 0
      let s := s.raise { code := 0x0701, flags := if voids then fVoided else 0, kind := 11, unit := d, domain := some d
                         detail := packAt [(0, 4, x.ring.cons)] }
      voidNow d s
    else s
  else s

/-- A write of a count to the doorbell register (R251). -/
def writeDoorbell (d count : Nat) (s : State) : State := if s.lineInUse d then ringIgnored d s else takeCount d count s

def execRingBaseWrite (d : DomainNo) (v : W64) (s : State) : Host.Outcome State Fault Refusal :=
  if pathServed s .mailbox then .next (writeRingBase d.val v s) else .next s

def execDbLineWrite (d : DomainNo) (v : W64) (s : State) : Host.Outcome State Fault Refusal :=
  if pathServed s .mailbox then .next (writeDbLine d.val v s) else .next s

def execFeedDoorbell (d : DomainNo) (count : W32) (s : State) : Host.Outcome State Fault Refusal :=
  if pathServed s .mailbox then .next (writeDoorbell d.val count.toNat s) else .next s

/-- The host's write invalidates the agent's copy, and the agent rereads the line: `count` is what bytes 0 to 3 hold. -/
def execDoorbellLineInvalidation (d : DomainNo) (count : W32) (s : State) : Host.Outcome State Fault Refusal :=
  if s.lineInUse d.val then .next (takeCount d.val count.toNat s) else .next s

/-! ### Opening a step (R9, R168) -/

/-- The watch slots of a domain are cleared when it opens a step (R54). -/
def clearSlots (d : Nat) (x : Board) : Board :=
  { x with slot := x.slot.map (fun e => if e.2.2.1 = d then (e.1, (e.2.1, d, 0, 0, 0)) else e) }

/-- A Board's own notes of a domain's step. -/
def clearStepNotes (d : Nat) (x : Board) : Board :=
  clearSlots d { x with
    stepDone := x.stepDone.filter (· != d)
    reported := x.reported.filter (· != d)
    seen := x.seen.filter (fun e => e.1 != d) }

/-- FROZEN and STRICT of a domain take effect (R191): at a step opening, and with the tables that a load or a restore writes. -/
def latchFrozen (d : Nat) (s : State) : State :=
  s.modDom d (fun x => { x with
    frozen := (s.job.pgroups.filter (fun g => pgUsed g.2 && pgDomain g.2 == d && pgFrozen g.2)).map (·.1)
    strict := s.rd .strict d == 1 })

/-- The step of tag t is started: what belongs to one step is cleared, and OPEN goes to every stack. -/
def openStep (d t : Nat) (s : State) : State :=
  let s := s.modDom d (fun x => { x with
    phase := .opening, openTag := t, mbs := [], openedAt := s.time, appliedBy := 0
    watch := { totOvf := x.watch.totOvf, totInf := x.watch.totInf, totNan := x.watch.totNan, sticky := x.watch.sticky }
    updFault := false, updFaultCode := 0
    boardsDone := 0, stacksDone := 0, missingRaised := false, immediate := false, voidCause := 0
    lossDigest := 0#64, lossCount := 0, stepPositions := []
    exch := { x.exch with state := 0, offer := 0, sentUp := false, timeoutRaised := false } })
  let s := forEach s.boardsOk (fun b s => s.modBoard b (clearStepNotes d)) s
  toStacks (.openStep d t) (latchFrozen d s)

/-- The domain may start a step: the job runs, its barrier has passed, and no activation drains the module (R239, R305). -/
def State.mayOpen (s : State) (d : Nat) : Bool :=
  s.dev.jobState == .running && (s.dom d).used && (s.dom d).barrierDone && s.fw.actState != 2 && s.fw.actState != 3

/-! ### Stash reservations (R83, R84) -/

/-- The plan of a domain on a Board. -/
def Board.plan (x : Board) (d : Nat) : Option StashPlan := x.stash.find? (fun p => p.domain == d)

/-- The stash need of a micro-batch, in units of 256 bytes. -/
def planNeed (p : StashPlan) (lenMax : Nat) : Nat := 4 * (p.fixedKiB + p.unitKiB * ceilDiv lenMax 64)

/-- The ranges of a pool that are reserved. -/
def Dom.usedRanges (x : Dom) (b : Nat) : List (Nat × Nat) :=
  x.mbs.flatMap (fun m => (m.held.filter (fun h => h.1 == b)).map (fun h => h.2))

/-- The lowest-addressed free range that holds the need. -/
def lowestFree (used : List (Nat × Nat)) (pool need : Nat) : Option Nat :=
  let fits := (0 :: used.map (·.2)).filter (fun c =>
    decide (c + need ≤ pool) && used.all (fun u => decide (c + need ≤ u.1) || decide (u.2 ≤ c)))
  match fits with
  | [] => none
  | a :: as => some (as.foldl min a)

/-- The Boards on which a domain has a stash plan. -/
def State.stashBoards (s : State) (d : Nat) : List Nat := s.boardsOk.filter (fun b => ((s.board b).plan d).isSome)

/-- The need of a micro-batch on a Board. -/
def State.stashNeed (s : State) (b d lenMax : Nat) : Nat :=
  match (s.board b).plan d with
  | some p => planNeed p lenMax
  | none => 0

/-- The reservation of a micro-batch on every Board at once, or on none (R84): (Board, first, size). -/
def State.reservation (s : State) (d lenMax : Nat) : Option (List (Nat × Nat × Nat)) :=
  (s.stashBoards d).foldr (fun b acc =>
    match acc, (s.board b).plan d with
    | some l, some p =>
      (lowestFree ((s.dom d).usedRanges b) (p.poolMiB * 4096) (planNeed p lenMax)).map (fun o => (b, o, planNeed p lenMax) :: l)
    | _, _ => none) (some [])

/-! ### Decisions at the head (R254, Table 11-7) -/

/-- A record is disposed of: CONS counts it. `write` says whether its STATUS is written at once. A skipped record sets its domain's detail
bit here; of a refused one its fault does (R328). -/
def dispose (d status index : Nat) (write : Bool) (s : State) : State :=
  let r := (s.dom d).ring
  let s := if write then s.emit (.hostWrite r.slotAddr (leBytes 4 (status + index <<< 16))) else s
  let s := s.modDom d (fun x => { x with ring := { x.ring with
    cons := (r.cons + 1) % 2 ^ 32, lastStatus := status, head := none, reported := false, state := .active } })
  if status = 3 then s.domCause d 2 else s

/-- A refusal of format: STATUS 0x04 and RECORD_FORMAT. -/
def refuseFormat (d : Nat) (r : BitVec 512) (flags : Nat) (s : State) : State :=
  let s := dispose d 4 0 true s
  s.raise { code := 0x0702, flags := flags, kind := 11, unit := d, domain := some d, user := recUser r
            detail := packAt [(0, 4, recSeq r)] }

/-- Row 1 of Table 11-7. -/
def formatOk (s : State) (ring : Ring) (r : BitVec 512) : Bool :=
  recSeq r == ring.cons && !recReserved r && recPayloadBytes r != 0 &&
  (if recKind r = 0 then recPayloadAddr r % 64 == 0
   else match s.regionAt (recPayloadAddr r) with
     | some e => rKind e.2 == 7 && decide (recPayloadAddr r + recPayloadBytes r ≤ rBase e.2 + rSize e.2)
     | none => false)

/-- The open step has admitted its declared number of micro-batches. -/
def Dom.full (x : Dom) : Bool := decide (x.mbPerStep ≤ x.mbs.length)

def setRing (d : Nat) (f : Ring → Ring) (s : State) : State := s.modDom d (fun x => { x with ring := f x.ring })

/-- The record at the head is held (R24, R242). -/
def holdRecord (d : Nat) (s : State) : State := setRing d (fun r => { r with state := .held }) s

/-- A record whose length breaks R86: its step is opened if none is, the record is refused, and the step voided at once. -/
def refuseLen (d : Nat) (r : BitVec 512) (s : State) : State :=
  if !(s.dom d).busy && !s.mayOpen d then s
  else
    let s := if (s.dom d).busy then s else openStep d (recTag r) s
    let s := (dispose d 2 0 true s).bump .lenExceededCount d
    let s := s.raise { code := 0x0202, flags := fVoided, kind := 11, unit := d, domain := some d, user := recUser r }
    setRing d (fun x => { x with skipTag := some (recTag r) }) (voidNow d s)

/-- The rows of Table 11-7 after format and skips. -/
def decideRecord (d : Nat) (r : BitVec 512) (s : State) : State :=
  let x := s.dom d
  if recTag r ≤ x.committedTag then refuseFormat d r 0 s
  else if x.busy && recTag r != x.openTag then
    if x.full || x.exch.state != 0 then holdRecord d s
    else
      let s := s.raise { code := 0x0703, flags := fVoided, kind := 11, unit := d, domain := some d, user := recUser r
                         detail := packAt [(0, 4, recSeq r)] }
      holdRecord d (voidNow d s)
  else if x.busy && x.full then refuseFormat d r 0 s
  else if x.busy && x.exch.state != 0 then holdRecord d s
  else if recLen r = 0 || recLenMax r < recLen r || x.lenLimit < recLenMax r then refuseLen d r s
  else setRing d (fun q => { q with head := some r, waitSince := s.time, reported := false, state := .active }) s

/-- A record from the 64 bytes of its slot, little-endian (R6). -/
def recOf (slot : List Byte) : BitVec 512 := BitVec.ofNat 512 (leNat slot)

/-- The module reads the record at the head of a ring and decides it. -/
def execFeedRecord (d : DomainNo) (slot : List Byte) (s : State) : Host.Outcome State Fault Refusal :=
  let d := d.val
  let r := recOf slot
  let x := s.dom d
  if !((x.ring.state == .active || x.ring.state == .held) && x.ring.prodSeen != x.ring.cons && x.ring.head.isNone
      && s.dev.jobState == .running && x.used && x.barrierDone && !schedulerBusy s) then .next s
  else if !formatOk s x.ring r then
    if x.busy && x.openTag = recTag r && x.exch.state = 0 then
      .next (setRing d (fun q => { q with skipTag := some (recTag r) }) (voidNow d (refuseFormat d r fVoided s)))
    else .next (refuseFormat d r 0 s)
  else if x.ring.skipTag = some (recTag r) then .next ((dispose d 3 0 true s).bump .skippedRecords d)
  else .next (decideRecord d r (setRing d (fun q => { q with skipTag := none }) s))

/-- The record that waits is admitted once its reservation fits on every Board; the first admission opens the step. Its STATUS is
written when the opening is complete (R168). -/
def execMicroBatchAdmit (d : DomainNo) (s : State) : Host.Outcome State Fault Refusal :=
  let d := d.val
  let x := s.dom d
  match x.ring.head with
  | none => .next s
  | some r =>
    if schedulerBusy s || x.exch.state != 0 && x.busy || (!x.busy && !s.mayOpen d) then .next s
    else
      match s.reservation d (recLenMax r) with
      | none => .next s
      | some res =>
        let s := if x.busy then s else openStep d (recTag r) s
        let now := (s.dom d).phase == .open
        let m : MBatch := { index := (s.dom d).mbs.length, len := recLen r, record := r, slotAddr := x.ring.slotAddr
                            reserved := res, held := res.map (fun e => (e.1, e.2.1, e.2.1 + e.2.2)), statusWritten := now }
        let s := dispose d 1 m.index now s
        .next (s.modDom d (fun y => { y with mbs := y.mbs ++ [m] }))

/-- STASH_DENIED with cause WAIT, once per micro-batch (R89). -/
def execAdmitWatchdog (d : DomainNo) (s : State) : Host.Outcome State Fault Refusal :=
  let d := d.val
  let x := s.dom d
  match x.ring.head with
  | none => .next s
  | some r =>
    if x.ring.reported || (s.reservation d (recLenMax r)).isSome then .next s
    else
      let need := (s.stashBoards d).foldl (fun a b => max a (s.stashNeed b d (recLenMax r))) 0
      let s := (setRing d (fun q => { q with reported := true }) s).bump .stashDeniedCount d
      .next (s.raise { code := 0x0201, kind := 11, unit := d, domain := some d, mb := (if x.busy then x.mbs.length else 0)
                       user := recUser r, detail := packAt [(0, 1, 1), (4, 4, ceilDiv need 4)] })

/-- The STATUS of every admitted record whose opening is complete. -/
def writeStatuses (d : Nat) (s : State) : State :=
  let s := forEach ((s.dom d).mbs.filter (fun m => !m.statusWritten)) (fun m s =>
    s.emit (.hostWrite m.slotAddr (leBytes 4 (1 + m.index <<< 16)))) s
  s.modDom d (fun x => { x with mbs := x.mbs.map (fun m => { m with statusWritten := true }) })

/-- Every stack has applied OPEN: the step counts as open (R168). -/
def execOpeningComplete (d : DomainNo) (s : State) : Host.Outcome State Fault Refusal :=
  let d := d.val
  let x := s.dom d
  if x.phase == .opening && s.stacksOk.all (fun k => (s.dreg k d).isOpen && (s.dreg k d).openTag == x.openTag) then
    .next (writeStatuses d (s.modDom d (fun x => { x with phase := .open })))
  else .next s

end Sys2Proof.Machine
end

