-- ==== Sys2Proof/Machine/Job.lean ====
section
/-!
DEFINITION. Machine/Job.lean: the job image, its load-time checks, JOB_CONTROL, the job-start barriers, and the dictionary writes of
job state (R54, R181, R222, R239, R280, R281).
-/
namespace Sys2Proof.Machine

/-! ### Rules of the tables -/

/-- The words of a rule slot: twelve coefficients, four reserved words and the mode. -/
def slotOk (ws : List W32) : Bool :=
  let c := fun k => ws.getD k 0#32
  ((List.range 12).all (fun k => isFin32 (c k))) && ((List.range 4).all (fun k => c (12 + k) == 0#32))
    && !((decFp32 (c 8)).lt (.fin false 0 0)) && decide ((c 16).toNat < 64) && (c 16).toNat % 4 != 3

def modeInput (m : Nat) : Bool := testBit m 3
def modeUsesS1 (m : Nat) : Bool := testBit m 4
def modeUsesS2 (m : Nat) : Bool := testBit m 5

/-- The words of a slot; a slot that nothing has written holds +0 and mode 0. -/
def State.slotWords (s : State) (k : Nat) : List W32 := tget s.job.rules k (List.replicate 17 0#32)

/-- A group names a slot. -/
def State.slotNamed (s : State) (slot : Nat) : Bool := (s.slotDomain slot).isSome

/-- Every run of the module: its stack and entry. -/
def State.allRuns (s : State) : List (Nat × BitVec 128) :=
  s.stks.flatMap (fun k => (k.2.runs.filter (fun e => nCount e != 0)).map (fun e => (k.1, e)))

def overlaps (a n b m : Nat) : Bool := decide (a < b + m) && decide (b < a + n)

def allPairs {α : Type} (r : α → α → Bool) : List α → Bool
  | [] => true
  | a :: as => as.all (r a) && allPairs r as

/-- R180 on the runs of the module. -/
def runsOk (s : State) : Bool :=
  let rs := s.allRuns
  allPairs (fun a b =>
    !(nRegion a.2 == nRegion b.2 && overlaps (nFirstSq a.2) (nCount a.2) (nFirstSq b.2) (nCount b.2))
    && !(nGroup a.2 == nGroup b.2 && overlaps (nQFirst a.2) (nCount a.2) (nQFirst b.2) (nCount b.2))) rs
  && rs.all (fun r =>
    let e := r.2
    let g := s.region (nRegion e)
    let p := s.pgroup (nGroup e)
    let m := ((s.slotWords (pgSlot p)).getD 16 0#32).toNat
    rKind g == 1 && stackOf (rBase g) == r.1 && rDomain g == pgDomain p && testBit (rComp g) 0 && testBit (rComp g) 3
      && (!modeUsesS1 m || testBit (rComp g) 1) && (!modeUsesS2 m || testBit (rComp g) 2))

/-- The groups of two domains never name one rule slot (R180). -/
def slotsOk (s : State) : Bool :=
  s.job.pgroups.all (fun a => s.job.pgroups.all (fun b =>
    !(pgUsed a.2 && pgUsed b.2 && pgSlot a.2 == pgSlot b.2 && pgDomain a.2 != pgDomain b.2)))

/-- Squares of a domain's groups that a stack holds (R180). -/
def State.derivedExpected (s : State) (k d : Nat) : Nat :=
  (((s.stack k).runs.filter (fun e => nCount e != 0 && pgUsed (s.pgroup (nGroup e)) && pgDomain (s.pgroup (nGroup e)) == d)).map
    nCount).foldl (· + ·) 0

/-- The members of a group's fans. -/
def State.fanMembers (s : State) (e : BitVec 192) : List Nat :=
  (List.range (gFanCount e)).flatMap (fun k => s.membersOf (s.grp ((gFanFirst e + k) % 1024)))

/-- The members of a GATHER group's fans are the group's own members, each in one fan (R222). -/
def fansOk (s : State) (e : BitVec 192) : Bool :=
  let ms := s.membersOf e
  let fans := s.fanMembers e
  gKind e != 2 || gFanCount e == 0 || (fans.eraseDups.length == fans.length && fans.length == ms.length && ms.all fans.contains)

/-- Group g is one of the fans of a GATHER group. -/
def hasFan (e : BitVec 192) (g : Nat) : Bool :=
  gKind e == 2 && (List.range (gFanCount e)).any (fun k => (gFanFirst e + k) % 1024 == g)

/-- The fabric addresses and the Boards that an entry in use names: the module has its device number (Table 01-5), and no disabled or
retired Board of it is named (R3). ROOT is an address in FAN, VOTE and MODULES groups alone (Table 10-1). -/
def groupNamesOk (s : State) (e : BitVec 192) : Bool :=
  let here := fun (a : Nat) => !fabricBad s a
  s.device != 0xFFFF && (gKind e == 2 || gKind e == 3 || here (gRoot e)) && (s.membersOf e).all here && (bitList (gForkBoards e) 16).all s.boardOk

/-- The limits of R222 on the entry of group g, as the table holds it; a GATHER group is checked again with each of its fans. -/
def groupOk (s : State) (g : Nat) (e : BitVec 192) : Bool :=
  let ms := s.membersOf e
  gKind e ≤ 5 && !(25 ≤ gUpPort e && gUpPort e ≤ 30) && bitsOf e.toNat 34 0 == 0
    && (gKind e == 0 || (groupNamesOk s e && ms.eraseDups.length == ms.length))
    && !(gKind e == 1 && 64 < gMembers e) && !(gKind e == 2 && 960 < gMembers e) && !(gKind e == 4 && 32767 < gMembers e)
    && (if gKind e = 3 then gMembers e % 2 ^ gParts e == 0 else gParts e == 0)
    && fansOk s e && s.job.groups.all (fun h => !hasFan h.2 g || fansOk s h.2)
    && s.doms.all (fun d => !(d.2.used && d.2.boards != 0 && d.2.group == g)
        || (gKind e == 5 && gDomain e == d.1 && gUpPort e != 31))

/-! ### Sections (Table 12-16) -/

structure DirEntry where
  type : Nat
  target : Nat
  offset : Nat
  bytes : Nat
  param : Nat
  deriving DecidableEq, Repr

def dirEntry (bs : List Byte) (k : Nat) : DirEntry :=
  let o := 64 + 16 * k
  { type := leAt bs o 2, target := leAt bs (o + 2) 2, offset := leAt bs (o + 4) 4, bytes := leAt bs (o + 8) 4
    param := leAt bs (o + 12) 4 }

def sectionType : SectionData → Nat
  | .partitions .. => 0x01
  | .buffers _ => 0x02
  | .links _ => 0x03
  | .slices _ => 0x04
  | .bank _ => 0x05
  | .beamSems _ _ => 0x06
  | .shardMap _ => 0x07
  | .stashPlans _ => 0x08
  | .regions _ => 0x10
  | .runs _ => 0x11
  | .pgroups _ => 0x12
  | .updatesExpected _ => 0x13
  | .rules _ => 0x14
  | .groups _ => 0x18
  | .members _ => 0x19
  | .domains _ => 0x20
  | .epochs _ => 0x21
  | .logical _ => 0x22
  | .jobArea _ => 0x23

/-- Bytes of one entry of a section whose layout the spec gives; 0 for the other types. -/
def entrySize (t : Nat) : Nat :=
  if t = 0x05 then 4
  else if t = 0x02 || t = 0x07 || t = 0x12 then 8
  else if t = 0x03 || t = 0x04 || t = 0x10 || t = 0x11 then 16
  else if t = 0x18 then 24
  else if t = 0x19 then 2
  else 0

/-- The entries of a section, little-endian (R6), as the image holds them from its OFFSET on. -/
def entriesOf (w n : Nat) (bs : List Byte) (e : DirEntry) : List (BitVec w) :=
  (List.range (e.bytes / n)).map (fun i => BitVec.ofNat w (leAt bs (e.offset + n * i) n))

/-- Entries by their number. -/
def numbered {α : Type} (l : List α) : List (Nat × α) := l.zipIdx.map (fun (v, i) => (i, v))

/-- The content of a section: read from the image's bytes where the spec lays it out, else as the command carries it (log entry 39). -/
def sectionFrom (bs : List Byte) (e : DirEntry) (x : SectionData) : SectionData :=
  match e.type with
  | 0x02 => .buffers (entriesOf 64 8 bs e)
  | 0x03 => .links (entriesOf 128 16 bs e)
  | 0x04 => .slices (entriesOf 128 16 bs e)
  | 0x05 => .bank (entriesOf 32 4 bs e)
  | 0x07 => .shardMap (entriesOf 64 8 bs e)
  | 0x10 => .regions (entriesOf 128 16 bs e)
  | 0x11 => .runs (entriesOf 128 16 bs e)
  | 0x12 => .pgroups (entriesOf 64 8 bs e)
  | 0x18 => .groups ((numbered (entriesOf 192 24 bs e)).filter (fun g => g.2 != 0#192))
  | 0x19 => .members ((numbered (entriesOf 16 2 bs e)).map (fun m => (m.1, m.2.toNat)))
  | _ => x

/-- Target of a type: 1 Board, 2 stack, 3 module, 0 a reserved type. -/
def typeTarget (t : Nat) : Nat :=
  if 0x01 ≤ t && t ≤ 0x08 then 1
  else if t = 0x11 || t = 0x13 then 2
  else if [0x10, 0x12, 0x14, 0x18, 0x19, 0x20, 0x21, 0x22, 0x23].contains t then 3
  else 0

def targetOk (s : State) (e : DirEntry) : Bool :=
  match typeTarget e.type with
  | 1 => s.boardOk e.target
  | 2 => s.stackOk e.target
  | _ => e.target == 0xFFFF

def tblOf {α : Type} (l : List (Nat × α)) : Tbl α := l.foldl (fun t e => tset t e.1 e.2) []

/-- Entries of a dense section, without those that are all zero. -/
def dense {w : Nat} (es : List (BitVec w)) : List (Nat × BitVec w) := (es.zipIdx.map (fun (e, i) => (i, e))).filter (fun e => e.2.toNat != 0)

def bufOf (e : W64) : Buf := { base := bitsOf e.toNat 63 45, size := bitsOf e.toNat 44 31, link := bitsOf e.toNat 19 12 }

def linkOf (e : BitVec 128) : Link :=
  let n := e.toNat
  { bufFirst := bitsOf n 127 118, bufCount := bitsOf n 117 112, mode := bitsOf n 111 110, producer := bitsOf n 109 107
    consumer := bitsOf n 106 104, fullSem := bitsOf n 103 96, emptySem := bitsOf n 95 88, filler := testBit n 79
    persist := testBit n 78, want := bitsOf n 111 110, image := bitsOf n 111 110 }

def sliceOf (e : BitVec 128) : Slice :=
  let n := e.toNat
  { mCount := bitsOf n 127 112, uCount := bitsOf n 111 106, pCount := bitsOf n 105 102, space := bitsOf n 101 91
    domain := bitsOf n 90 83, fold := testBit n 82, tensor := bitsOf n 79 64 }

/-- A section's content put into the module's tables. -/
def applySection (e : DirEntry) (x : SectionData) (s : State) : State :=
  let b := e.target
  match x with
  | .partitions t st g sr r =>
    s.modBoard b (fun y => { y with partTally := t, partStash := st, partGather := g, partStream := sr, gatherRegion := r })
  | .buffers es => s.modBoard b (fun y => { y with bufs := (dense es).map (fun z => (z.1, bufOf z.2)) })
  | .links es => s.modBoard b (fun y => { y with links := (dense es).map (fun z => (z.1, linkOf z.2)) })
  | .slices es => s.modBoard b (fun y => { y with slices := (dense es).map (fun z => (z.1, sliceOf z.2)) })
  | .bank ws => { s with job := { s.job with banks := s.job.banks ++ [⟨b, ws, e.offset⟩] } }
  | .beamSems es os => s.modBoard b (fun y => { y with bsemOut := es, bsemEpoch := tblOf os })
  | .shardMap es =>
    (s.hubStackWrite (e.param * 65536) (es.flatMap (fun w => leBytes 8 w.toNat))).modBoard b (fun y => { y with
      mapDpa := e.param * 65536, mapCount := es.length })
  | .stashPlans es => s.modBoard b (fun y => { y with stash := es })
  | .regions es => { s with job := { s.job with regions := dense es } }
  | .runs es => s.modStack b (fun y => { y with runs := es })
  | .pgroups es => { s with job := { s.job with pgroups := dense es } }
  | .updatesExpected es => s.modStack b (fun y => { y with expected := tblOf es })
  | .rules es => { s with job := { s.job with rules := tblOf es } }
  | .groups es => { s with job := { s.job with groups := tblOf es } }
  | .members es => { s with job := { s.job with members := tblOf es } }
  | .domains es =>
    forEach es (fun d s => s.modDom d.domain (fun y => { y with
      used := true, mbPerStep := d.mbPerStep, lenLimit := d.lenLimit, initTag := d.initTag, group := d.group })) s
  | .epochs es => { s with job := { s.job with epochs := tblOf es } }
  | .logical es => { s with job := { s.job with logical := tblOf es } }
  | .jobArea r => { s with job := { s.job with jobArea := r } }

/-- DOMAIN_BOARDS: the Boards with a stash plan of the domain (R83). -/
def domainBoards (s : State) (d : Nat) : Nat :=
  s.boardsOk.foldl (fun a b => if (s.board b).stash.any (fun p => p.domain == d) then a + 2 ^ b else a) 0

/-- Links share no buffer (R113). -/
def linksDisjoint (x : Board) : Bool :=
  allPairs (fun (a b : Nat × Link) => !overlaps a.2.bufFirst a.2.bufCount b.2.bufFirst b.2.bufCount) x.links

/-- R83 for one Board's plans; a Board whose plans all place their pools in stacks has no STASH partition (Table 05-1; DEDUCED, log entry
48). -/
def plansOk (s : State) (b : Nat) (ps : List StashPlan) : Bool :=
  let x := s.board b
  let inStore := ((ps.filter (fun p => p.region.isNone)).map (fun p => p.poolMiB * 2 ^ 20)).foldl (· + ·) 0
  decide (inStore ≤ x.partStash) && (ps.isEmpty || x.partStash == 0 || ps.any (fun p => p.region.isNone))
    && allPairs (fun (p q : StashPlan) => p.domain != q.domain) ps
    && ps.all (fun p =>
      (s.dom p.domain).used && decide (planNeed p (s.dom p.domain).lenLimit ≤ p.poolMiB * 4096) &&
      (match p.region with
       | none => true
       | some r =>
         let g := s.region r
         let all := (s.boardsOk.flatMap (fun c => ((s.board c).stash.filter (fun q => q.domain == p.domain && q.region == some r)).map
           (fun q => q.poolMiB * 2 ^ 20))).foldl (· + ·) 0
         rKind g == 3 && rDomain g == p.domain && decide (all ≤ rSize g)))

/-- R162, R163 for the region table. -/
def regionsOk (s : State) : Bool :=
  let rs := s.job.regions
  rs.length ≤ 64 && rs.all (fun r =>
    let e := r.2
    r.1 < 64 && 1 ≤ rKind e && rKind e ≤ 7 && bitsOf e.toNat 66 56 == 0 && bitsOf e.toNat 9 0 == 0 && 0 < rSize e
      && stackOf (rBase e) == stackOf (rBase e + rSize e - 1) && s.stackOk (stackOf (rBase e))
      && (rKind e != 1 || (decide (2 * rSquares e * slotBytes e ≤ rSize e) && decide (rVtBase e + rSquares e ≤ 4194304))))
    && allPairs (fun (a b : Nat × BitVec 128) => !overlaps (rBase a.2) (rSize a.2) (rBase b.2) (rSize b.2)) rs

/-- The BANK_SEQ of the section that precedes a BANK section of the same Board: the sections stand in BANK_SEQ order (Table 12-16), which
runs on modulo 2^32 (R131; DEDUCED, log entry 48). -/
def prevSeq (s : State) (b offset : Nat) : Option Nat :=
  ((s.job.banks.filter (fun i => i.board == b)).takeWhile (fun i => i.offset != offset)).getLast?.map (fun i => bankOfWords i.words 1)

/-- The load-time rules of one section's table (reason 7). -/
def sectionOk (s : State) (e : DirEntry) (x : SectionData) : Bool :=
  let b := e.target
  let y := s.board b
  sectionType x == e.type && e.bytes % max 1 (entrySize e.type) == 0 &&
  match x with
  | .partitions t st g sr r =>
    t % 32768 == 0 && decide (t ≤ 48 * 2 ^ 20) && st % 65536 == 0 && g % 65536 == 0 && sr % 65536 == 0
      && decide (t + st + g + sr ≤ storeBytes)
      && (match r with | some k => rKind (s.region k) == 4 | none => true)
  | .buffers es =>
    decide (es.length ≤ 1024) && (y.bufs.all (fun u =>
      1 ≤ u.2.size && inPart y.streamStart y.partStream (u.2.base * 256) (u.2.size * 256)))
  | .links es =>
    decide (es.length ≤ 256) && linksDisjoint y && (dense es).all (fun z => bitsOf z.2.toNat 63 32 == 0) &&
    y.links.all (fun l => 1 ≤ l.2.bufCount && l.2.mode < 2 && l.2.producer < 6 && l.2.consumer < 6
      && l.2.bufNos.all (fun h => (y.bufs.lookup h).isSome))
  | .slices es =>
    decide (es.length ≤ 4096) && (dense es).all (fun z => bitsOf z.2.toNat 81 80 == 0) &&
    y.slices.all (fun l => 1 ≤ l.2.mCount && 1 ≤ l.2.uCount && 1 ≤ l.2.pCount && l.2.space < 1536
      && decide ((l.2.space + 1) * 32768 ≤ y.partTally))
  | .bank ws => decide (ws.length ≤ 65536) && (checkBank s b (bankOfWords ws) (prevSeq s b e.offset)).isNone
  | .beamSems es _ => decide (es.length ≤ 1024) && es.all (fun t => !fabricBad s t.1 && t.2.1 < 1024)
  | .shardMap es =>
    decide (es.length ≤ 1048576) && es.all (fun w => bitsOf w.toNat 9 0 == 0 && !fabricBad s (bitsOf w.toNat 63 48))
      && stackHalf (stackOf (e.param * 65536)) == boardHalf b
      && (match s.regionAt (e.param * 65536) with
          | some r => rKind r.2 == 2 && decide (e.param * 65536 + 8 * es.length ≤ rBase r.2 + rSize r.2)
          | none => false)
  | .stashPlans es => plansOk s b es
  | .regions es => decide (es.length ≤ 64) && regionsOk s
  | .runs es =>
    -- a stack with runs needs stated counts: none stated are counts of 0
    decide (es.length ≤ 1024) && runsOk s
      && (!(s.stack b).expected.isEmpty || s.usedDoms.all (fun d => s.derivedExpected b d == 0))
  | .pgroups es => decide (es.length ≤ 4096) && slotsOk s && runsOk s
  | .updatesExpected es =>
    es.all (fun p => s.derivedExpected b p.1 == p.2) &&
      s.usedDoms.all (fun d => s.derivedExpected b d == tget (s.stack b).expected d 0)
  | .rules es => es.all (fun r => r.1 < 256 && slotOk r.2)
  | .groups es => es.all (fun g => g.1 < 1024 && groupOk s g.1 g.2)
  | .members es => es.all (fun m => m.1 < 65536 && m.2 < 65536) && (es.isEmpty || s.device != 0xFFFF)
  | .domains es =>
    es.all (fun d => d.domain < 256 && 1 ≤ d.mbPerStep && d.mbPerStep < 65536 && d.group < 1024
      && groupOk s d.group (s.grp d.group)
      && (domainBoards s d.domain == 0 || gKind (s.grp d.group) == 5))
  | .epochs es =>
    es.all (fun p => p.1 < 256 && (s.dom p.2).used) && (es.map (·.1)).eraseDups.length == es.length
  | .logical es => es.all (fun p => p.1 < 16 && p.2 < 65536)
  | .jobArea r => r < 64 && rKind (s.region r) == 2

/-- The lowest type code of a required section that is missing, 0 for none (reason 8). -/
def missingType (s : State) (ds : List DirEntry) : Nat :=
  let has := fun t => ds.any (fun e => e.type == t)
  if s.boardsOk.any (fun b => !ds.any (fun e => e.type == 0x01 && e.target == b)) then 0x01
  else if s.boardsOk.any (fun b => ds.any (fun e => e.type == 0x08 && e.target == b && e.bytes != 0)
      && !ds.any (fun e => e.type == 0x05 && e.target == b)) then 0x05
  else if !has 0x10 then 0x10
  else if !has 0x20 then 0x20
  else if !has 0x21 then 0x21
  else if !has 0x22 then 0x22
  else if !has 0x23 then 0x23
  else 0

/-- Header checks (reason 2). -/
def headerOk (n : Nat) (bs : List Byte) : Bool :=
  leAt bs 0 4 == 0x494A5450 && leAt bs 4 2 == 1 && 1 ≤ leAt bs 6 2 && leAt bs 6 2 ≤ 4096 && leAt bs 8 8 == n

/-- The directory's first failure: entry and reason 4, 5 or 6. -/
def dirFail (s : State) (n : Nat) (ds : List DirEntry) : Option (Nat × Nat) :=
  let bad := fun (e : DirEntry) (i : Nat) =>
    if n < e.offset + e.bytes || ds.zipIdx.any (fun (f, j) => decide (j < i) && overlaps e.offset e.bytes f.offset f.bytes) then 4
    else if typeTarget e.type = 0 then 5
    else if !targetOk s e then 6
    else 0
  (ds.zipIdx.map (fun (e, i) => (i, bad e i))).find? (fun p => p.2 != 0)

/-- What was kept of the messages of every group ends (R241). -/
def dropGroups (s : State) : State :=
  { s with fab := { s.fab with roundOut := [], roundIn := [], unacked := [], votes := [], voteSent := [], voteWait := [], barriers := [] }
           job := { s.job with failed := [] } }

/-- The module with every section of an image in its tables; records, tags and counts as LOAD leaves them (Table 12-13). -/
def withImage (ds : List DirEntry) (xs : List SectionData) (s : State) : State :=
  let s := forEach (ds.zip xs) (fun p s => applySection p.1 p.2 s) (dropGroups s)
  let s := forEach s.usedDoms (fun d s => (latchFrozen d s).modDom d (fun y => { y with
    boards := domainBoards s d, committedTag := y.initTag, lastTag := 0, lastOutcome := 0, commits := 0, voids := 0, lost := false })) s
  let s := ((s.clearReg .updatesApplied).clearReg .frozenDrops).clearReg .updateParked
  let s := forEach s.stacksOk (fun k s => s.modStack k (fun y => { y with
    vt := [], vtBad := [], regs := s.usedDoms.map (fun d => (d, { committedTag := (s.dom d).initTag : DReg })) })) s
  forEach s.boardsOk (fun b s => s.modBoard b (fun y => { y.wantModes true with slot := [], main := {}, fill := {} })) s

/-- The outcome of the checks of R281 on an image: the error word and reason, or the loaded module. -/
def loadImage (n : Nat) (bs : List Byte) (carried : List SectionData) (s : State) : Sum Nat State :=
  let err := fun (hi reason : Nat) => Sum.inl (hi * 65536 + reason)
  if bs.length != n then err 0 1
  else if !headerOk n bs then err 0 2
  else if (crc64 (bs.drop 32)).toNat != leAt bs 24 8 then err 0 3
  else
    let ds := (List.range (leAt bs 6 2)).map (dirEntry bs)
    match dirFail s n ds with
    | some f => err f.1 f.2
    | none =>
      let m := missingType s ds
      if m != 0 then err m 8
      else
        let xs := (ds.zip carried).map (fun p => sectionFrom bs p.1 p.2)
        let s' := withImage ds xs s
        match ((ds.zip xs).zipIdx.find? (fun (p, _) => !sectionOk s' p.1 p.2)) with
        | some (_, i) => err i 7
        | none => if carried.length != ds.length then err xs.length 7 else .inr s'

/-! ### Barriers (R239) -/

/-- The module is done with a group's barrier: the job-start and restore barriers let its domain open steps. -/
def releaseBarrier (g id : Nat) (s : State) : State :=
  let s := { s with fab := { s.fab with barriers := s.fab.barriers.filter (fun a => !(a.1 == g && a.2.1 == id)) } }
  if id = 0 then { s with doms := s.doms.map (fun e => (e.1, if e.2.used && e.2.group = g then { e.2 with barrierDone := true } else e.2)) }
  else s

/-- A release is passed down and taken. -/
def barrierDown (g id count : Nat) (s : State) : State :=
  releaseBarrier g id (forEach (gChildren (s.grp g)) (sendBeam 0x21 · 1 0 0 g 0xFFFF count id) s)

/-- The module itself (24) or a child port has arrived at a barrier. -/
def State.arrived (s : State) (g id who : Nat) : Bool := s.fab.barriers.any (fun a => a.1 == g && a.2.1 == id && a.2.2.1 == who)

/-- An arrival of the module itself (24) or of a child port, with the modules that it combines; once all have arrived the barrier goes up,
or at the root down, with their sum (Table 10-4). -/
def barrierArrive (g id who n : Nat) (s : State) : State :=
  let e := s.grp g
  let s := if s.arrived g id who then s
    else { s with fab := { s.fab with barriers := s.fab.barriers ++ [(g, id, who, n)] } }
  if (24 :: gChildren e).all (fun w => s.arrived g id w) then
    let sum := ((s.fab.barriers.filter (fun a => a.1 == g && a.2.1 == id)).map (fun a => a.2.2.2)).foldl (· + ·) 0
    if gUpPort e = 24 then barrierDown g id sum s
    else if 24 < gUpPort e then s
    else sendBeam 0x21 (gUpPort e) 0 0 0 g 0xFFFF sum id s
  else s

/-! ### JOB_CONTROL (R280, Table 12-13) -/

/-- A Board's bundle refusal at LOAD_END (R131). -/
def bundleRefused (b o reason : Nat) (s : State) : State :=
  let s := (s.bump .loadRefusals b).wr .lastRefusal (o * 65536 + reason) b
  s.raise { code := 0x0104, kind := 1, unit := b, detail := packAt [(0, 2, o), (2, 1, reason)] }

/-- The first bank of a Board: that of its first BANK section, or the one a restore recorded. -/
def firstBankOf (s : State) (b : Nat) : Option (List W32 × Option (Nat × Nat)) :=
  let mine := (s.job.banks.filter (fun i => i.board == b)).map (·.words)
  let pos := (s.doms.flatMap (fun e => e.2.startPos)).find? (fun p => p.1 == b)
  match pos with
  | some p => (mine.find? (fun w => bankOfWords w 1 == p.2.1)).map (fun w => (w, some (p.2.2.1, p.2.2.2)))
  | none =>
    mine.head?.map (fun w => (w, none))

/-- A Board's first bank is loaded, checked and made active (R131, R132). START wakes the Boards that carry a domain of the job; the others
stay in DEEP_SLEEP, where no bundle issues (R154, R311). -/
def startBoard (b : Nat) (s : State) : State :=
  match firstBankOf s b with
  | none => s.modBoard b (fun x => { x with inactState := 0 })
  | some (ws, pos) =>
    match checkBank s b (bankOfWords ws) none with
    | some f => bundleRefused b f.1 f.2 (s.modBoard b (fun x => { x with inactState := 3 }))
    | none =>
      let p := pos.getD (bankOfWords ws 0 % 65536, bankOfWords ws 0 / 65536)
      s.modBoard b (fun x => { x.wantModes (s.replaying b) with
        bank0 := (ws.zipIdx.map (fun (w, i) => (i, w))).filter (fun e => e.2 != 0#32)
        active := 0, inactState := 0, firstBank := false, started := s.carries b, asleep := !s.carries b
        main := { x.main with pos := p.1, stopped := false, issue := none, atSwap := false }
        fill := { x.fill with pos := p.2, stopped := false, issue := none, atSwap := false } })

def startJob (s : State) : State :=
  let s := { s with job := { s.job with seed := BitVec.ofNat 64 (s.rd .jobSeed) } }
  let s := (s.setJob .running).setState .running
  let s := restartBeads (forEach s.boardsOk startBoard s)
  if s.boardsOk.any (fun b => (s.board b).inactState == 3) then sleepBoards (abortJob s)
  else
    let s := { s with doms := s.doms.map (fun e => (e.1, { e.2 with barrierDone := !e.2.used, startPos := [] })) }
    forEach (s.usedDoms.filter (fun d => (s.dom d).boards != 0)) (fun d s => barrierArrive (s.dom d).group 0 24 1 s) s

/-- The rule of JOB_CONTROL. -/
def jobControl : Rule := fun bs s =>
  let v := leNat bs
  let j := s.dev.jobState
  if v = 1 then
    if s.dev.state == .ready && s.dev.moving.isNone && (j == .none || j == .failed) then
      (stOk, (({ s with job := { s.job with loadAt := s.time, loadError := 0, barriers := [] } }).setJob .loading))
    else (stRefused, s)
  else if v = 2 then
    if s.dev.state == .ready && s.dev.moving.isNone && j == .loaded then (stOk, startJob s) else (stRefused, s)
  else if v = 3 then
    if j == .loading then (stOk, s.setJob .none)
    else if j == .running then (stOk, sleepBoards (abortJob s))
    else (stRefused, s)
  else if j == .loaded || j == .failed then (stOk, forEach s.stks (fun e s => endCommands e.1 e.2 s) (unloadJob s))
  else (stRefused, s)

def execLoad (via : Via) (s : State) : Host.Outcome State Fault Refusal := .next (viaReg via .jobControl 1 jobControl s)
def execStart (via : Via) (s : State) : Host.Outcome State Fault Refusal := .next (viaReg via .jobControl 2 jobControl s)
def execAbort (via : Via) (s : State) : Host.Outcome State Fault Refusal := .next (viaReg via .jobControl 3 jobControl s)
def execUnload (via : Via) (s : State) : Host.Outcome State Fault Refusal := .next (viaReg via .jobControl 4 jobControl s)

/-- The image read ends (R281): LOADED, or FAILED with JOB_LOAD_ERROR and nothing of the image in force. -/
def execJobLoadDone (rd : ImageRead) (s : State) : Host.Outcome State Fault Refusal :=
  if s.dev.jobState != .loading then .next s
  else
    let t := (s.now - s.job.loadAt.toNat) / 1000
    match rd with
    | .error => .next (({ s with job := { s.job with loadError := 1, loadTime := t } }).setJob .failed)
    | .image bs xs =>
      match loadImage (s.rd .jobImageBytes) bs xs s with
      | .inl e => .next (({ s with job := { s.job with loadError := e, loadTime := t } }).setJob .failed)
      | .inr s1 =>
        let s' := noteTables s1
        .next (({ s' with job := { s'.job with
          id := leAt bs 16 8, loadError := 0, loadTime := t, digest := digest bs } }).setJob .loaded)

/-! ### Dictionary writes of job state -/

/-- CW_CLEAR (R54). -/
def cwClear (d : Nat) : Rule := fun bs s =>
  if leNat bs = 1 then
    (stOk, s.modDom d (fun x => { x with watch := { x.watch with totOvf := 0, totInf := 0, totNan := 0, sticky := 0 } }))
  else (stOk, s)

def execCwClear (via : Via) (d : DomainNo) (v : Byte) (s : State) : Host.Outcome State Fault Refusal :=
  .next (viaWrite via .cwClear (0x2400 + d.val) (leBytes 1 v.toNat) (cwClear d.val) s)

/-- A rule-slot write (R181): coefficient, reserved word or RULE_MODE. -/
def ruleSlot (slot sub : Nat) : Rule := fun bs s =>
  let w := BitVec.ofNat 32 (leNat bs)
  let old := s.slotWords slot
  let new := old.set (sub - 1) w
  let om := (old.getD 16 0#32).toNat
  let nm := w.toNat
  if 1 ≤ sub && sub ≤ 12 && !isFin32 w then (stRefused, s)
  else if 13 ≤ sub && sub ≤ 16 && w != 0#32 then (stRefused, s)
  else if sub = 9 && (decFp32 w).lt (.fin false 0 0) then (stRefused, s)
  else if sub = 17 && (64 ≤ nm || nm % 4 = 3) then (stRefused, s)
  else if sub = 17 && s.slotNamed slot && (modeInput om != modeInput nm || modeUsesS1 om != modeUsesS1 nm || modeUsesS2 om != modeUsesS2 nm) then
    (stRefused, s)
  else (stOk, { s with job := { s.job with rules := tset s.job.rules slot new } })

/-- The entry of a rule-slot subindex. -/
def ruleReg (sub : Nat) : Reg := { Reg.ruleWord1 with sub := sub, ty := if sub = 17 then 4 else 7 }

def execRuleSlotWrite (via : Via) (slot : Fin 256) (sub : Nat) (v : W32) (s : State) : Host.Outcome State Fault Refusal :=
  if 1 ≤ sub && sub ≤ 17 then
    .next (viaWrite via (ruleReg sub) (0x2300 + slot.val) (leBytes 4 v.toNat) (ruleSlot slot.val sub) s)
  else .next s

/-- A group's entry is loaded: what was kept of its messages ends (R223, R241). Requests of the old epoch that wait, for a member of their
rendezvous, for the rendezvous table or for a combine point's square, are answered with GROUP_EPOCH. -/
def dropGroup (g : Nat) (s : State) : State :=
  let late := fun (p : Pkt) => (hdrOf p.payload).group == g
  let s := { s with
    job := { s.job with failed := s.job.failed.filter (fun f => f.1 != g) }
    fab := { s.fab with
      roundOut := s.fab.roundOut.filter (fun r => r.1 != g), roundIn := s.fab.roundIn.filter (fun r => r.1 != g)
      unacked := s.fab.unacked.filter (fun u => beamGroup u.pkt != g), votes := s.fab.votes.filter (fun v => v.group != g)
      voteSent := s.fab.voteSent.filter (fun v => v.1 != g), barriers := s.fab.barriers.filter (fun a => a.1 != g) } }
  let s := forEach s.boardsOk (fun b s =>
    let x := s.board b
    let gone := fun (r : Rdv) => r.group == g && !r.sent
    let s := s.modBoard b (fun y => { y with rdv := y.rdv.filter (fun r => !gone r), rdvWait := y.rdvWait.filter (fun p => !late p) })
    let s := forEach ((x.rdv.filter gone).flatMap (fun r => r.waiting.map (rdvPkt r))) (rejectPkt · 0x060B) s
    forEach (x.rdvWait.filter late) (fun p s => rejectPkt p 0x060B (claimed 0x03 p.src p.dest p.txn s)) s) s
  forEach (s.fab.voteWait.filter (fun w => late w.2)) (fun w s =>
    rejectPkt w.2 0x060B (takenUp (if 32 ≤ w.1 then some (w.1 - 32) else none) w.2 s))
    { s with fab := { s.fab with voteWait := s.fab.voteWait.filter (fun w => !late w.2) } }

/-- GROUP_ENTRY (R222, R223): the limits, a changed EPOCH; loading it clears the group's failed targets. -/
def groupEntry (g : Nat) : Rule := fun bs s =>
  let e := BitVec.ofNat 192 (leNat bs)
  let s' : State := { s with job := { s.job with groups := tset s.job.groups g e } }
  if bs.length != 24 then (stLength, s)
  else if gEpoch e = gEpoch (s.grp g) || !groupOk s' g e then (stRefused, s)
  else (stOk, (dropGroup g s').bumpVer .groupEntry g)

def execGroupEntry (via : Via) (data : List Byte) (s : State) : Host.Outcome State Fault Refusal :=
  .next (viaWrite via .groupEntry 0x4040 data (groupEntry (s.rd .groupSel (pathNo via.path))) s)

/-- MEMBER_ADDR (R222): refused before the module has its device number (Table 01-5), and if a group that lists the entry would break its
limits. -/
def memberAddr (m : Nat) : Rule := fun bs s =>
  let s' := { s with job := { s.job with members := tset s.job.members m (leNat bs) } }
  let holds := fun (e : BitVec 192) => gKind e != 0 && decide ((m + 65536 - gBase e) % 65536 < gMembers e)
  if (s.device = 0xFFFF && leNat bs != 0xFFFF) || s.job.groups.any (fun g => holds g.2 && !groupOk s' g.1 g.2) then (stRefused, s)
  else (stOk, s')

def execMemberAddr (via : Via) (v : W16) (s : State) : Host.Outcome State Fault Refusal :=
  .next (viaReg via .memberAddr v.toNat (memberAddr (s.rd .memberSel (pathNo via.path))) s)

/-- The module is a member of a MODULES group. -/
def isMember (s : State) (e : BitVec 192) : Bool := (s.membersOf e).any (fun m => m / 16 == s.device && s.boardOk (m % 16))

/-- BARRIER_START (R239): the nth barrier on the group since LOAD, counting from 1 and wrapping from 65,535 to 1. -/
def barrierStart : Rule := fun bs s =>
  let g := leNat bs
  let e := s.grp g
  if gKind e != 5 || !isMember s e then (stRefused, s)
  else
    let n := tget s.job.barriers g 0 % 65535 + 1
    (stOk, barrierArrive g n 24 1 { s with job := { s.job with barriers := tset s.job.barriers g n } })

def execBarrierStart (via : Via) (g : W16) (s : State) : Host.Outcome State Fault Refusal :=
  .next (viaReg via .barrierStart g.toNat barrierStart s)

end Sys2Proof.Machine
end

