-- ==== Sys2Proof/Machine/Stream.lean ====
section
/-!
DEFINITION. Machine/Stream.lean: semaphores, links and buffers, fetch runs, stash copies and payload reads of a Board (R83, R87, R111 to
R124, R138, R142, R145, R255).
-/
namespace Sys2Proof.Machine

/-! ### Halts with a cause -/

/-- A fault of work on a Board that halts it at the layer boundary (R150). -/
def haltWork (b : Nat) (w : Work) (f : Flt) (s : State) : State :=
  haltBoard b { f with layer := w.layer, mb := w.mb, domain := some w.domain } s

/-- Every domain whose work a Board carries is voided with its halt (R100, R114). -/
def haltAll (b : Nat) (f : Flt) (s : State) : State :=
  let ds := s.usedDoms.filter (fun d => testBit (s.dom d).boards b)
  (haltBoard b f s).modBoard b (fun x => { x with haltDomains := (x.haltDomains ++ ds).eraseDups })

/-! ### Buffers of a link (R114 to R118) -/

def Board.linkSem (x : Board) (beam : Bool) (i : Nat) : Nat := if beam then x.bsem i else x.sem i
def Board.setLinkSem (x : Board) (beam : Bool) (i n : Nat) : Board := if beam then x.setBsem i n else x.setSem i n

/-- A buffer of a link starts to be filled under an epoch. -/
def Board.beginFill (x : Board) (l h e : Nat) : Board :=
  let k := x.link l
  (x.setBuf h { x.buf h with state := 1, epoch := e, outstanding := 0 }).setLink l
    { k with fillPos := (if k.mode = 0 then (k.fillPos + 1) % max 1 k.bufCount else k.fillPos), filling := k.filling ++ [h] }

/-- The producer takes the next empty buffer of a link. -/
def takeEmpty (b l e : Nat) (s : State) : Option (Nat × State) :=
  let x := (s.board b).activate l e
  let k := x.link l
  if k.state != 1 || k.epoch != e then none
  else if k.mode = 0 then
    let n := x.linkSem k.remoteConsumer k.emptySem
    let h := k.bufFirst + k.fillPos
    if n = 0 then none
    else some (h, touch (s.setBoard b ((x.setLinkSem k.remoteConsumer k.emptySem (n - 1)).beginFill l h e)) b)
  else
    match k.bufNos.find? (fun h => (x.buf h).state == 0 && !x.withdrawn.contains h) with
    | some h => if k.handles.length + k.filling.length < 16 then some (h, touch (s.setBoard b (x.beginFill l h e)) b) else none
    | none => none

/-! ### Fetch runs (R138, R121) -/

/-- The first number from i on that is not in a list; with all 65,536 in it, the one after them (DESIGN CHOICE, log entry 31). -/
def freeNo (used : List Nat) : Nat → Nat → Nat
  | 0, i => i
  | n + 1, i => if used.contains i then freeNo used n ((i + 1) % 65536) else i

/-- A new transaction; its number is not one used within 2 × REQ_TIMEOUT or still outstanding (R209). -/
def newTxn (k : TxnKind) (s : State) : Nat × State :=
  let recent := s.fab.txnUsed.filter (fun u => decide (s.now < u.2.toNat + 2000000 * s.rd .reqTimeout))
  let i := freeNo (recent.map (·.1) ++ s.fab.txns.map (·.id)) (recent.length + s.fab.txns.length) s.fab.nextTxn
  (i, { s with fab := { s.fab with
    nextTxn := (i + 1) % 65536, txns := s.fab.txns ++ [⟨i, k, s.time⟩], txnUsed := recent ++ [(i, s.time)] } })

/-- A fabric address of this module. Before it has a device number, which no loaded job lacks (R22), every address counts as its own
(DESIGN CHOICE, log entry 29). -/
def State.isHere (s : State) (a : Nat) : Bool := a / 16 == s.device || s.device == 0xFFFF

/-- The run still has fills to start. -/
def FetchRun.more (r : FetchRun) : Bool :=
  !r.squashed && (match r.stash with
    | some q => q.left != 0
    | none => decide (r.next < r.fills))

/-- The first line of run k of a fill. -/
def FetchRun.runStart (r : FetchRun) (fill k : Nat) : Nat := r.base + (fill * r.runs + k) * r.stride

/-- ADDR names a line of the Board's store, not of a stack (DESIGN CHOICE, log entry 31). -/
def storeFlag : Nat := 2 ^ 47

/-- Read requests of one remote fill, at most 479 lines each (Table 09-7). -/
def sendReads (b : Nat) (r : FetchRun) (fill : Nat) (s : State) : State :=
  forEach (List.range r.runs) (fun k s =>
    forEach (List.range (ceilDiv r.run 479)) (fun c s =>
      let t := newTxn (.fetch b r.link fill (k * r.run + 479 * c)) s
      t.2.send { dest := r.fabric, src := t.2.addrOf b, opcode := 0x01, flits := 0, lines := min 479 (r.run - 479 * c)
                 txn := t.1, addr := (if r.src = 2 then storeFlag else 0) + r.runStart fill k + 479 * c }) s) s

/-- The run of a link that is still issuing. -/
def Board.issuing (x : Board) (l : Nat) : Option FetchRun := x.fetches.find? (fun r => r.link == l && r.more)

/-- One run of a link replaced. -/
def Board.setRun (x : Board) (old new : FetchRun) : Board :=
  { x with fetches := x.fetches.map (fun r => if r == old then new else r) }

/-- Fills start while the link has an empty buffer. -/
def startFills (b l : Nat) : Nat → State → State
  | 0, s => s
  | n + 1, s =>
    match (s.board b).issuing l with
    | none => s
    | some r =>
      match takeEmpty b l r.work.epoch s with
      | none => s
      | some (h, s) =>
        let size := ((s.board b).buf h).size
        match r.stash with
        | some q =>
          let u := min size q.left
          let g : Filling := { fill := r.next, handle := h, lines := 4 * u, base := q.addr }
          let r' := { r with next := r.next + 1, going := r.going ++ [g]
                             stash := some { q with addr := q.addr + 256 * u, left := q.left - u } }
          let s := s.modBoard b (fun x => (x.setRun r r').setBuf h { x.buf h with outstanding := 4 * u })
          startFills b l n s
        | none =>
          let s := if r.next = 0 then markBead b r.work.bundle (fun t k => if k.fetchIssue = 0xFFFFFFFF then { k with fetchIssue := t } else k) s
            else s
          let lines := r.runs * r.run
          let r' := { r with next := r.next + 1, going := r.going ++ [{ fill := r.next, handle := h, lines := lines : Filling }] }
          let s := s.modBoard b (fun x => (x.setRun r r').setBuf h { x.buf h with outstanding := min lines 4095 })
          let s := if (r.src = 0 || r.src = 2) && !s.isHere r.fabric then sendReads b r r.next s else s
          startFills b l n s

/-! ### Semaphores (R114, R238) -/

/-- A signal that would carry a count past 65,535 (R114). -/
def semOverflow (b : Nat) (s : State) : State := haltAll b { code := 0x0204, kind := 1, unit := b } s

/-- Fetch runs that wait for an empty buffer of the links that a semaphore paces go on (R115, R126). -/
def resumeFills (b : Nat) (beam : Bool) (sem : Nat) (s : State) : State :=
  forEach (((s.board b).links.filter (fun l => l.2.remoteConsumer == beam && !l.2.remoteProducer && l.2.emptySem == sem)).map (·.1))
    (fun l s => startFills b l 64 s) s

def signalSem (b sem n : Nat) (s : State) : State :=
  if n = 0 then s
  else if 65535 < (s.board b).sem sem + n then semOverflow b s
  else resumeFills b false sem (touch (s.modBoard b (fun x => x.setSem sem (x.sem sem + n))) b)

/-- The next n buffers of a link, in use order, are free again. -/
def Board.freeNext (l : Nat) : Nat → Board → Board
  | 0, x => x
  | n + 1, x =>
    let k := x.link l
    let h := k.bufFirst + k.usePos
    if (x.buf h).state = 2 then
      Board.freeNext l n ((x.setBuf h { x.buf h with state := 0 }).setLink l { k with usePos := (k.usePos + 1) % max 1 k.bufCount })
    else x

/-- A consumer on another Board has finished with the next n buffers of the link whose Beam EMPTY semaphore it signals (R112, R113). -/
def remoteFree (b sem n : Nat) (s : State) : State :=
  match (s.board b).links.find? (fun l => l.2.remoteConsumer && l.2.emptySem == sem) with
  | none => s
  | some (i, _) => s.modBoard b (Board.freeNext i (min n 64))

/-- A squashed link whose buffers have come free is IDLE again (R124). -/
def remoteSettle (b sem : Nat) (s : State) : State :=
  match (s.board b).links.find? (fun l => l.2.remoteConsumer && l.2.emptySem == sem) with
  | none => s
  | some (i, _) => s.modBoard b (fun x => x.settleLink i)

def signalBsem (b sem n : Nat) (s : State) : State :=
  if n = 0 then s
  else if 65535 < (s.board b).bsem sem + n then semOverflow b s
  else resumeFills b true sem
    (remoteSettle b sem (remoteFree b sem n (touch (s.modBoard b (fun x => x.setBsem sem (x.bsem sem + n))) b)))

/-- A SEM_SIGNAL packet (Table 10-4). Kind 0 adds to a Beam semaphore, kind 1 grants reduce credits. -/
def sendSemSignal (b dest sem n kind e g ge : Nat) (s : State) : State :=
  s.send { dest := dest, src := s.addrOf b, opcode := 0x20, flits := 0, lines := 1
           payload := padTo 64 (leBytes 2 sem ++ leBytes 2 n ++ leBytes 1 kind ++ leBytes 1 e ++ leBytes 2 g ++ leBytes 2 ge) }

/-- A signal through entry k of the Board's Beam semaphore table. It names the group on which the domain of its epoch commits
(DEDUCED, log entry 25). -/
def signalEntry (b k n e : Nat) (s : State) : State :=
  match (s.board b).bsemOut[k]? with
  | some t =>
    let g := ((s.domOfEpoch e).map (fun d => (s.dom d).group)).getD 0
    if n = 0 then s else sendSemSignal b t.1 t.2.1 n 0 e g (gEpoch (s.grp g)) s
  | none => s

/-- The signal of a SEM group (R145). -/
def sendSig (b e : Nat) (g : SemSig) (s : State) : State :=
  if g.kind = 0 then signalSem b g.sem g.n s else signalEntry b g.sem g.n e s

/-- Tiles of a launch; a launch that names no Frame runs none (DESIGN CHOICE, log entry 20). -/
def tilesOf (frame : Nat) : Nat := if aMask frame = 0 then 0 else aRowTiles frame * aRodTiles frame

/-- Every tile of a launch is written or dropped, and no Slate operation of its bundle is left (R149). -/
def Board.launchOver (x : Board) (l : Launch) : Bool :=
  decide (tilesOf l.frame ≤ l.written.length + l.dropped.length) && !x.slates.any (fun w => w.work.bundle == l.work.bundle)

/-- Launched work has not completed: layers, Slate operations, stash writes, gathers, reductions and fetch runs. What still lands of a
squashed run is no work (R124). -/
def Board.workBusy (x : Board) (mine : Work → Bool) : Bool :=
  x.launches.any (fun l => mine l.work && !x.launchOver l) || x.slates.any (fun w => mine w.work)
    || x.stashWrs.any (fun w => mine w.work) || x.gruns.any (fun g => mine g.work) || x.rjobs.any (fun r => mine r.work)
    || x.fetches.any (fun f => !f.squashed && mine f.work) || x.rearms.any (fun f => mine f.work)

/-- Work that a bundle started and that has not completed (R136). -/
def Board.bundleBusy (x : Board) (id : Nat) : Bool := x.workBusy (fun w => w.bundle == id)

/-- A bundle under issue. -/
def Board.issuingBundle (x : Board) (id : Nat) : Bool :=
  (match x.main.issue with | some i => i.launch == some id | none => false)
    || (match x.fill.issue with | some i => i.launch == some id | none => false)

/-- The signals whose work has completed are sent (R136). -/
def settleSigs (b : Nat) (s : State) : State :=
  let x := s.board b
  let open' := fun (id : Nat) => x.bundleBusy id || x.issuingBundle id
  let ready := x.sigs.filter (fun g => !open' g.1)
  let s := s.modBoard b (fun y => { y with sigs := y.sigs.filter (fun g => open' g.1) })
  forEach ready (fun g s => sendSig b g.2.1 g.2.2 s) s

/-- Beads are written when the layer of their bundle is complete (R149, R358), and those of bundles without a layer when their work is
over. -/
def settleBeads (b : Nat) (s : State) : State :=
  let x := s.board b
  endBeads b (fun k => !(x.issuingBundle k.bundle
    || (if k.layered then x.launches.any (fun l => l.work.bundle == k.bundle) else x.bundleBusy k.bundle))) 0 s

/-- Work of a Board has ended: signals and beads follow. -/
def settleWork (b : Nat) (s : State) : State := settleBeads b (settleSigs b s)

/-- Full buffers are passed on in fill order: FULL_SEM, or the handle queue. -/
def passFull (b l : Nat) : Nat → State → State
  | 0, s => s
  | n + 1, s =>
    let k := (s.board b).link l
    match k.filling with
    | [] => s
    | h :: rest =>
      if ((s.board b).buf h).state != 2 then s
      else
        let s := s.modBoard b (fun x => x.setLink l { k with
          filling := rest, fills := (k.fills + 1) % 2 ^ 32, handles := (if k.mode = 0 then k.handles else k.handles ++ [h]) })
        let s := if k.mode = 1 then touch s b
          else if k.remoteConsumer then signalEntry b k.fullSem 1 k.epoch s
          else signalSem b k.fullSem 1 s
        passFull b l n s

/-- The consumer takes the next full buffer of a link. -/
def takeFull (b l : Nat) (s : State) : Option (Nat × State) :=
  let x := s.board b
  let k := x.link l
  if k.state != 1 then none
  else if k.mode = 0 then
    let n := x.linkSem k.remoteProducer k.fullSem
    let h := k.bufFirst + k.usePos
    if n = 0 then none
    else
      let x := (x.setLinkSem k.remoteProducer k.fullSem (n - 1)).setBuf h { x.buf h with state := 3 }
      some (h, touch (s.setBoard b (x.setLink l { k with usePos := (k.usePos + 1) % max 1 k.bufCount })) b)
  else
    match k.handles with
    | [] => none
    | h :: rest => some (h, touch (s.setBoard b ((x.setBuf h { x.buf h with state := 3 }).setLink l { k with handles := rest })) b)

/-! ### Board-store access (R100, R102) -/

/-- The aligned units of `unit` bytes that an access of n bytes from a touches: its reads of 256 bytes, or writes of 128 (Table 16-4;
DEDUCED, log entry 46). -/
def accesses (unit a n : Nat) : Nat := if n = 0 then 0 else (a + n - 1) / unit + 1 - a / unit

/-- Bytes go into a Board's store; the words that they cover whole are clear. -/
def putStore (b a : Nat) (bs : List Byte) (s : State) : State :=
  let left := fun (w : Nat) => decide (8 * w < a) || decide (a + bs.length < 8 * w + 8)
  (s.storeWrite b a bs).modBoard b (fun x => { x with storeBad := x.storeBad.filter left, storeSoft := x.storeSoft.filter left })

/-- A write of a Board's store, counted (Table 16-4). -/
def boardWrite (b a : Nat) (bs : List Byte) (s : State) : State :=
  countEvent b 0x0E none none (accesses 128 a bs.length) (putStore b a bs s)

/-- An uncorrectable word among n bytes from a. -/
def boardBad (s : State) (b a n : Nat) : Option Nat :=
  (s.board b).storeBad.find? (fun w => decide (8 * w < a + n) && decide (a < 8 * w + 8))

/-- A word's row is to be given a March test (R100, Table 15-2); the word stands for its row. -/
def queueMarch (b w : Nat) (s : State) : State :=
  s.modBoard b (fun x => { x with storeTests := if x.storeTests.contains w then x.storeTests else x.storeTests ++ [w] })

/-- Corrected reads of words: counted, written back, and their rows queued for a March test (R100). -/
def correctWords (b : Nat) (ws : List Nat) (s : State) : State :=
  forEach ws (fun w s => queueMarch b w (s.bump .storeCorrected b))
    (s.modBoard b (fun x => { x with storeSoft := x.storeSoft.filter (fun w => !ws.contains w) }))

/-- A read of n bytes of a Board's store from a has been served. -/
def storeServed (b a n : Nat) (s : State) : State :=
  let s := countEvent b 0x0D none none (accesses 256 a n) s
  let ws := (s.board b).storeSoft.filter (fun w => decide (8 * w < a + n) && decide (a < 8 * w + 8))
  if ws.isEmpty then s else correctWords b ws s

/-- An uncorrectable read of a Board's store: the Board halts, and every domain whose work it carries is voided. -/
def storeUe (b w reader : Nat) (s : State) : State :=
  let r := ueFlt 0x0401 (some b) (8 * w) reader none (queueMarch b w s)
  haltAll b r.1 (r.2.bump .storeUncorrected b)

/-! ### Stash (R83, R87, R142) -/

/-- The start of a domain's pool on a Board: in a stack region or in the STASH partition. -/
def poolBase (s : State) (b d : Nat) : Option (Bool × Nat) :=
  match (s.board b).plan d with
  | none => none
  | some p =>
    match p.region with
    | none =>
      let below := (s.board b).stash.filter (fun q => q.region.isNone && decide (q.domain < d))
      some (false, (s.board b).stashStart + (below.map (fun q => q.poolMiB * 2 ^ 20)).foldl (· + ·) 0)
    | some r =>
      let below := s.boardsOk.filter (fun c => decide (c < b))
      let sum := (below.map (fun c => match (s.board c).plan d with
        | some q => if q.region = some r then q.poolMiB * 2 ^ 20 else 0
        | none => 0)).foldl (· + ·) 0
      some (true, rBase (s.region r) + sum)

/-- The reservation of a micro-batch on a Board: first unit and size. -/
def reservedOn (s : State) (b d m : Nat) : Option (Nat × Nat) :=
  match (s.dom d).mb m with
  | some x => x.reserved.lookup b
  | none => none

/-- Where a range of a reservation lies, if it lies within what the micro-batch still holds. -/
def stashPlace (s : State) (b d m off size : Nat) : Option (Bool × Nat) :=
  match (s.dom d).mb m, reservedOn s b d m, poolBase s b d with
  | some x, some r, some p =>
    let a := r.1 + off
    if decide (off + size ≤ r.2) && (size == 0 || x.held.any (fun h => h.1 == b && decide (h.2.1 ≤ a) && decide (a + size ≤ h.2.2))) then
      some (p.1, p.2 + 256 * a)
    else none
  | _, _, _ => none

/-- A range outside the reservation: STASH_DENIED with cause BOUNDS (R87). -/
def stashDenied (b : Nat) (w : Work) (s : State) : State :=
  haltWork b w { code := 0x0201, kind := 1, unit := b, detail := packAt [(0, 1, 2)] } (s.bump .stashDeniedCount w.domain)

/-- Space of a reservation is released (R87). -/
def stashRelease (b d m off size : Nat) (s : State) : State :=
  match reservedOn s b d m with
  | none => s
  | some r =>
    if size = 0 then s else
    let lo := r.1 + off
    let hi := lo + size
    s.modDom d (fun x => { x with mbs := x.mbs.map (fun y =>
      if y.index = m then { y with held := y.held.flatMap (fun h =>
        if h.1 != b then [h]
        else (if h.2.1 < lo then [(b, h.2.1, min h.2.2 lo)] else []) ++ (if hi < h.2.2 then [(b, max h.2.1 hi, h.2.2)] else [])) }
      else y) })

/-- Stash writes on a link take a copy of the buffer that its consumer has finished with, before it is released. -/
def stashCopies (b l h : Nat) (s : State) : State :=
  let u := (s.board b).buf h
  let mine := (s.board b).stashWrs.filter (fun w => w.link == l && w.skip == 0)
  let s := forEach mine (fun w s =>
    let n := 256 * min u.size w.left
    match boardBad s b (u.base * 256) n with
    | some bad => storeUe b bad 1 s
    | none =>
      let bs := s.storeRead b (u.base * 256) n
      let s := storeServed b (u.base * 256) n s
      if w.region then s.boardStackWrite b w.addr bs else boardWrite b w.addr bs s) s
  let s := s.modBoard b (fun x => { x with stashWrs := (x.stashWrs.map (fun w =>
    if w.link != l then w
    else if w.skip != 0 then { w with skip := w.skip - 1 }
    else { w with addr := w.addr + 256 * min u.size w.left, left := w.left - min u.size w.left })).filter (fun w => w.left != 0) })
  settleWork b s

/-- A squash is complete when every link of its epoch is IDLE (R124): the time that it took (R128). -/
def noteSquash (b : Nat) (s : State) : State :=
  let x := s.board b
  if x.squashing && !x.links.any (fun l => l.2.epoch == s.rd .squashLastEpoch b && l.2.state == 2) then
    (s.modBoard b (fun x => { x with squashing := false })).wr .squashLastDuration
      (min (s.now - x.squashAt.toNat) (2 ^ 32 - 1)) b
  else s

/-- A buffer is released by its consumer: copies for the stash, then FREE; EMPTY_SEM is signalled; a waiting fetch goes on. -/
def freeBuf (b l h : Nat) (s : State) : State :=
  let s := stashCopies b l h s
  let k := (s.board b).link l
  let s := s.modBoard b (fun x => x.setBuf h { x.buf h with state := 0 })
  let s := if k.mode = 1 then touch s b
    else if k.remoteProducer then signalEntry b k.emptySem 1 k.epoch s
    else signalSem b k.emptySem 1 s
  noteSquash b (startFills b l 64 (s.modBoard b (fun x => x.settleLink l)))

/-! ### Store-out (R111, R120, R164) -/

/-- A store-out to a stack of this module goes into a PLAIN region; any other is not performed, and the Board halts (R164). -/
def storeOutStack (b a : Nat) (e : Nat) (bs : List Byte) (s : State) : State :=
  match s.regionAt a with
  | some r =>
    if rKind r.2 = 2 && a + bs.length ≤ rBase r.2 + rSize r.2 then s.boardStackWrite b a bs
    else
      let f := ueFlt 0x0402 none a 1 (s.domOfEpoch e) s
      haltBoard b f.1 (f.2.bump .regionFaults (stackOf a))
  | none =>
    let f := ueFlt 0x0402 none a 1 (s.domOfEpoch e) s
    haltBoard b f.1 (f.2.bump .regionFaults (stackOf a))

/-- WR packets for a buffer that goes to another module, at most 479 lines each. -/
def sendWrites (b l h dest addr : Nat) (bs : List Byte) (s : State) : State :=
  forEach (List.range (ceilDiv bs.length (64 * 479))) (fun c s =>
    let pl := (bs.drop (64 * 479 * c)).take (64 * 479)
    let t := newTxn (.write b l h) s
    t.2.send { dest := dest, src := t.2.addrOf b, opcode := 0x02, flits := flitsFor pl.length, lines := ceilDiv pl.length 64
               txn := t.1, addr := addr + 479 * c, payload := pl }) s

/-- A store-out to the store of a Board of this module. The store of a Board that is disabled, retired or in DEEP_SLEEP is not available (R16, R311):
nothing is written, and the sender halts as on an answer from a Board that does not exist (R217; DEDUCED, log entry 48). -/
def storeOutBoard (b dest a e : Nat) (bs : List Byte) (s : State) : State :=
  if !s.storeUp dest then haltBoard b { code := 0x060A, kind := 1, unit := b, domain := s.domOfEpoch e } s
  else boardWrite dest a (bs.take (storeBytes - a)) s

/-- The drain engine sends a full buffer to a stack or to another Board, and releases it when it has read it (R116). Where it goes no
descriptor of the spec names: a fabric address and a line, which are free values (DESIGN CHOICE, log entry 29). -/
def storeOutBuf (b l h : Nat) (s : State) : State :=
  let u := (s.board b).buf h
  match boardBad s b (u.base * 256) (u.size * 256) with
  | some w => storeUe b w 1 (freeBuf b l h s)
  | none =>
    let bs := s.storeRead b (u.base * 256) (u.size * 256)
    let dest := (storeServed b (u.base * 256) (u.size * 256) s).draw 16
    let addr := dest.2.draw 48
    freeBuf b l h (if !addr.2.isHere dest.1 then sendWrites b l h dest.1 addr.1 bs addr.2
      else if storeFlag ≤ addr.1 then storeOutBoard b (dest.1 % 16) (64 * (addr.1 - storeFlag) % storeBytes) u.epoch bs addr.2
      else storeOutStack b (64 * addr.1) u.epoch bs addr.2)

/-- The full buffers of a store-out link leave, in order. -/
def storeOut (b l : Nat) : Nat → State → State
  | 0, s => s
  | n + 1, s =>
    if ((s.board b).link l).consumer != 4 then s
    else match takeFull b l s with
      | some (h, s) => storeOut b l n (storeOutBuf b l h s)
      | none => s

/-- A buffer has been filled. -/
def bufferFull (b l h : Nat) (s : State) : State :=
  let s := s.modBoard b (fun x => x.setBuf h { x.buf h with state := 2 })
  storeOut b l 64 (passFull b l 64 s)

/-- A remote producer signals that it has filled the next n buffers of its link (R113, R115); the link leaves IDLE with the first. -/
def remoteFull (b sem n e : Nat) (s : State) : State :=
  match (s.board b).links.find? (fun l => l.2.remoteProducer && l.2.fullSem == sem) with
  | none => s
  | some (i, _) =>
    forEach (List.range (min n 64)) (fun _ s => s.modBoard b (fun x =>
      let x := x.activate i e
      let k := x.link i
      let h := k.bufFirst + k.fillPos
      if k.state != 1 then x
      else (x.setBuf h { x.buf h with state := 2, epoch := e }).setLink i
        { k with fillPos := (k.fillPos + 1) % max 1 k.bufCount, fills := (k.fills + 1) % 2 ^ 32 })) s

/-- Full buffers that a remote producer has announced leave by the store-out, if that is their consumer (R111). -/
def remoteOut (b sem : Nat) (s : State) : State :=
  match (s.board b).links.find? (fun l => l.2.remoteProducer && l.2.fullSem == sem) with
  | some (i, _) => storeOut b i 64 s
  | none => s

/-- A run whose fills have all ended leaves the queue; a READ_RELEASE releases its space. -/
def endRuns (b : Nat) (s : State) : State :=
  let x := s.board b
  let done := x.fetches.filter (fun r => !r.more && r.going.isEmpty)
  let s := s.modBoard b (fun x => { x with fetches := x.fetches.filter (fun r => r.more || !r.going.isEmpty) })
  let s := forEach done (fun r s => match r.stash with
    | some q => if q.release && !r.squashed then stashRelease b r.work.domain r.work.mb q.off q.size s else s
    | none => if r.squashed then s else markBead b r.work.bundle (fun t k => { k with fetchDone := t }) s) s
  let s := forEach (done.map (·.link)).eraseDups (fun l s => s.modBoard b (fun x => x.settleLink l)) s
  settleWork b (noteSquash b s)

/-- A line of a fill ends: with its bytes, or in an error completion, which leaves its buffer unfilled. -/
def landLine (b : Nat) (r : FetchRun) (g : Filling) (line : Nat) (data : Option (List Byte)) (s : State) : State :=
  let u := (s.board b).buf g.handle
  let s := if data.isSome && !r.squashed then countEvent b 0x13 (some r.work.domain) none 1 s else s
  let s := match data with
    | some bs => if r.squashed && u.state != 4 then s else boardWrite b (u.base * 256 + 64 * line) (padTo 64 bs) s
    | none => s
  let g' := { g with landed := line :: g.landed, failed := g.failed || data.isNone }
  let ended := decide (g'.lines ≤ g'.landed.length)
  let r' := { r with going := if ended then r.going.filter (· != g) else r.going.map (fun f => if f == g then g' else f) }
  let s := s.modBoard b (fun x => (x.setRun r r').setBuf g.handle { u with outstanding := min 4095 (g'.lines - g'.landed.length) })
  let s :=
    if !ended then s
    else if u.state = 4 then s.modBoard b (fun x => (x.setBuf g.handle { x.buf g.handle with state := 0 }).settleLink r.link)
    else if g'.failed then s
    else bufferFull b r.link g.handle s
  endRuns b s

/-! ### Reading a line for a Board (R164, R167, R171) -/

inductive LineRead where
  | data (dpa : Nat) (bs : List Byte)
  | held
  | stale (cause : Nat)
  | region
  | bad (dpa : Nat)
  deriving DecidableEq, Repr

/-- The accesses of a stack are held while all its channels are tested (Table 15-2). -/
def State.underTest (s : State) (k : Nat) : Bool := (s.stack k).testDue

/-- A line of stack memory as it lies there. -/
def plainLine (s : State) (a : Nat) : LineRead :=
  if s.underTest (stackOf a) then .held
  else if (s.badLine a 64).isSome then .bad a
  else .data a (s.dramRead a 64)

/-- What a Board's fetch of one stack line with tag g returns. -/
def fetchStackLine (s : State) (dpa g : Nat) : LineRead :=
  match s.regionAt dpa with
  | none => .region
  | some (_, e) =>
    if rKind e = 1 then
      match squareAt e dpa with
      | none => .region
      | some (i, _) =>
        if s.underTest (stackOf dpa) then .held
        else if s.vrecBad (stackOf dpa) (rVtBase e + i) then .bad dpa
        else match resolveRead (s.vrec (stackOf dpa) (rVtBase e + i)) (s.dreg (stackOf dpa) (rDomain e)) g with
        | .ahead => .held
        | .old => .stale 1
        | .plane p => plainLine s (dpa + if p then slotBytes e else 0)
    else if rKind e = 2 || rKind e = 4 then plainLine s dpa
    else .region

/-- The record of a REGION_FAULT of an access: the layout of UE_MEM (Table 15-6); `reader` as there. -/
def regionFaultFlt (dpa reader : Nat) (s : State) : Flt × State := ueFlt 0x0402 none dpa reader none s

/-- PGROUP and Q of a line of a VERSIONED region, by the run that placed its square; zero where none did. -/
def lineSquare (s : State) (dpa : Nat) : Nat × Nat :=
  match s.regionAt dpa with
  | none => (0, 0)
  | some (r, e) =>
    match squareAt e dpa with
    | none => (0, 0)
    | some (i, _) =>
      match (s.stack (stackOf dpa)).runs.find? (fun n => nCount n != 0 && nRegion n == r && decide (nFirstSq n ≤ i)
          && decide (i < nFirstSq n + nCount n)) with
      | some n => (nGroup n, nQFirst n + i - nFirstSq n)
      | none => (0, 0)

/-- A stack holds a read. -/
def holdRead (who : ReadFor) (dpa lines tag : Nat) (s : State) : State :=
  s.modStack (stackOf dpa) (fun x => { x with reads := x.reads ++
    [{ who := who, dpa := dpa, lines := lines, tag := tag, domain := ((s.regionAt dpa).map (fun e => rDomain e.2)).getD 0xFF
       since := s.time }] })

/-- A board read of a stack line ends: its line lands, or its fault halts the Board. One that runs ahead of its domain is held by the
stack (R171). -/
def landStackRead (b : Nat) (r : FetchRun) (g : Filling) (line dpa : Nat) (res : LineRead) (s : State) : State :=
  match res with
  | .data a bs => landLine b r g line (some bs) (boardServed b a 64 s)
  | .held =>
    let who : ReadFor := if r.stash.isSome then .stash b r.link g.fill line else .fetch b r.link g.fill line
    if (s.stack (stackOf dpa)).reads.any (fun h => h.who == who) then s else holdRead who dpa 1 r.work.tag s
  | .stale c =>
    let s := landLine b r g line none s
    let q := lineSquare s dpa
    if r.squashed then s
    else haltWork b r.work { code := 0x0205, kind := 1, unit := b
                             detail := packAt [(0, 1, c), (2, 2, s.addrOf b), (4, 2, q.1), (6, 4, q.2)] } (s.bump .staleGathers b)
  | .region =>
    let s := landLine b r g line none s
    let f := regionFaultFlt dpa 1 s
    let s := f.2.bump .regionFaults (stackOf dpa)
    if r.squashed then s else haltWork b r.work f.1 s
  | .bad a =>
    let s := noteUe a (landLine b r g line none s)
    let f := ueFlt 0x0401 none a 1 (some r.work.domain) s
    if r.squashed then f.2.raise f.1 else haltAll b { f.1 with layer := r.work.layer, mb := r.work.mb } f.2

/-- A read of a Board's store for a fetch. The store of a Board that is disabled, retired or in DEEP_SLEEP is not available (R16, R311):
the read ends in an error completion with the code of a Board that does not exist, and halts the reader (R217; DEDUCED, log entry 48). -/
def landStoreRead (b : Nat) (r : FetchRun) (g : Filling) (line owner a : Nat) (s : State) : State :=
  if !s.storeUp owner then
    let s := landLine b r g line none s
    if r.squashed then s else haltWork b r.work { code := 0x060A, kind := 1, unit := b } s
  else
    match boardBad s owner a 64 with
    | some w => storeUe owner w 1 (landLine b r g line none s)
    | none => landLine b r g line (some (s.storeRead owner a 64)) (storeServed owner a 64 s)

/-- The run and the fill of a link in which a line has still to land. -/
def Board.awaited (x : Board) (link fill line : Nat) (ok : FetchRun → Bool) : Option (FetchRun × Filling) :=
  match x.fetches.find? (fun r => r.link == link && ok r
      && r.going.any (fun g => g.fill == fill && decide (line < g.lines) && !g.landed.contains line)) with
  | some r => (r.going.find? (fun g => g.fill == fill)).map (fun g => (r, g))
  | none => none

/-- The record of the micro-batch that a payload run reads. -/
def payloadRec (s : State) (w : Work) : Option (BitVec 512) := ((s.dom w.domain).mb w.mb).map (·.record)

/-- A fetched line lands (R115). Lines of another module land with RD_DATA, payload in host memory with PAYLOAD_READ. -/
def execFetchLineLand (b : BoardNo) (link : LinkNo) (fill line : Nat) (s : State) : Host.Outcome State Fault Refusal :=
  let b := b.val
  match (s.board b).awaited link.val fill line (fun _ => true) with
  | none => .next s
  | some (r, g) =>
    if !s.boardOk b then .next s
    else
      match r.stash with
      | some q =>
        let a := g.base + 64 * line
        if q.region then .next (landStackRead b r g line a (plainLine s a) s) else .next (landStoreRead b r g line b a s)
      | none =>
        let l := r.runStart fill (line / max 1 r.run) + line % max 1 r.run
        if r.src = 0 then
          (if s.isHere r.fabric then .next (landStackRead b r g line (64 * l) (fetchStackLine s (64 * l) r.work.tag) s) else .next s)
        else if r.src = 1 then .next (landStoreRead b r g line b (64 * l) s)
        else if r.src = 2 then
          (if s.isHere r.fabric then .next (landStoreRead b r g line (r.fabric % 16) (64 * l) s) else .next s)
        else
          match payloadRec s r.work with
          | none => .next s
          | some p =>
            if ceilDiv (recPayloadBytes p) 64 ≤ l then .next (landLine b r g line (some []) s)
            else if recKind p = 1 then
              let a := recPayloadAddr p + 64 * l
              .next (landStackRead b r g line a (plainLine s a) s)
            else .next s

/-- A read of payload in host memory completes (R255): its line, or an error completion, which raises PAYLOAD_FAULT and halts the
Board. -/
def execPayloadRead (b : BoardNo) (link : LinkNo) (fill line : Nat) (data : Option (List Byte)) (s : State) :
    Host.Outcome State Fault Refusal :=
  let b := b.val
  match (s.board b).awaited link.val fill line (fun r => r.src == 3 && r.stash.isNone) with
  | none => .next s
  | some (r, g) =>
    match payloadRec s r.work with
    | some p =>
      if recKind p = 1 || !s.boardOk b || ceilDiv (recPayloadBytes p) 64 ≤ r.runStart fill (line / max 1 r.run) + line % max 1 r.run then
        .next s
      else
        match data with
        | some bs => .next (landLine b r g line (some bs) s)
        | none =>
          let s := landLine b r g line none s
          if r.squashed then .next s
          else
            .next (haltWork b r.work { code := 0x0704, kind := 1, unit := b, user := recUser p, detail := packAt [(0, 4, recSeq p)] } s)
    | none => .next s

/-- A held re-arm takes effect once the previous run has issued its last request (R121). -/
def execRearmTakeEffect (b : BoardNo) (link : LinkNo) (s : State) : Host.Outcome State Fault Refusal :=
  let b := b.val
  match (s.board b).rearms.find? (fun r => r.link == link.val) with
  | none => .next s
  | some r =>
    if ((s.board b).issuing link.val).isSome then .next s
    else
      let s := s.modBoard b (fun x => { x with rearms := x.rearms.filter (· != r), fetches := x.fetches ++ [r] })
      .next (endRuns b (startFills b link.val 64 s))

end Sys2Proof.Machine
end

