-- ==== Sys2Proof/Machine/Watch.lean ====
section
/-!
DEFINITION. Machine/Watch.lean: the carry watch and the loss digest (R48 to R54, R332).
-/
namespace Sys2Proof.Machine

/-- A watch point at work (Table 02-7): where its results are counted, and under what. -/
structure WatchAt where
  board : Nat
  domain : Nat
  layer : Nat
  mb : Nat
  tensor : Nat
  slot : Nat
  cls : Nat
  site : Nat
  /-- The logical Board, where it is not that of `board`: a Reckoner result whose OWNER lies on no Board here (board 255). -/
  owner : Option Nat := none
  deriving DecidableEq, Repr

/-- What a result counts as (R48): 0 nothing, 1 an overflow and an infinity, 2 an infinity only, 3 a NaN; 4 a saturation (R183). -/
def watchCode (v : Val) (infIn : Bool) : Nat :=
  match v with
  | .nan => 3
  | .inf _ => if infIn then 2 else 1
  | .fin .. => 0

/-- The number of overflows, infinities and NaNs among codes. -/
def watchSums (codes : List Nat) : Nat × Nat × Nat :=
  (codes.countP (fun c => c == 1 || c == 4), codes.countP (fun c => c == 1 || c == 2), codes.countP (· == 3))

/-- The logical number of a Board (R44). -/
def State.logicalOf (s : State) (b : Nat) : Nat := tget s.job.logical b 0

/-- The logical Board of a watch point. -/
def WatchAt.lb (w : WatchAt) (s : State) : Nat := w.owner.getD (s.logicalOf w.board)

/-- CW_FIRST_INFO (Table 02-11). -/
def firstInfo (s : State) (w : WatchAt) (kind : Nat) : Nat :=
  (w.layer % 65536) <<< 48 + (w.mb % 65536) <<< 32 + (w.lb s % 65536) <<< 16 + (w.site % 16) <<< 12
    + (w.cls % 4) <<< 10 + (kind % 4) <<< 8 + w.slot % 256

/-- The sticky bit of a counter that has reached its largest value (R53). -/
def stickyOf (bit step total : Nat) : Nat :=
  if step = 2 ^ 32 - 1 || total = 2 ^ 64 - 1 then 2 ^ bit else 0

/-- A domain's counters take new results (R53). -/
def Watch.add (x : Watch) (n : Nat × Nat × Nat) : Watch :=
  let x := { x with
    stepOvf := satAdd 32 x.stepOvf n.1, stepInf := satAdd 32 x.stepInf n.2.1, stepNan := satAdd 32 x.stepNan n.2.2
    totOvf := satAdd 64 x.totOvf n.1, totInf := satAdd 64 x.totInf n.2.1, totNan := satAdd 64 x.totNan n.2.2 }
  { x with sticky := x.sticky ||| stickyOf 0 x.stepOvf x.totOvf ||| stickyOf 1 x.stepInf x.totInf ||| stickyOf 2 x.stepNan x.totNan }

/-- An event precedes the one recorded (R52): earlier tick, then lower logical Board, then lower tensor. -/
def firstBefore (x : Watch) (t lb tensor : Nat) : Bool :=
  x.firstInfo == 0 || decide (t < x.firstTime) ||
  (t == x.firstTime &&
    (decide (lb < bitsOf x.firstInfo 31 16) || (lb == bitsOf x.firstInfo 31 16 && decide (tensor < x.firstTensor))))

/-- An infinity or NaN of class 1, 2 or 3 sets the void mark and enters the first-event record (R50, R52). -/
def watchMark (w : WatchAt) (kind : Nat) (s : State) : State :=
  s.modDom w.domain (fun d =>
    let x := { d.watch with voidMark := true }
    if firstBefore x s.now (w.lb s) w.tensor then
      { d with watch := { x with firstTensor := w.tensor, firstInfo := firstInfo s w kind, firstTime := s.now } }
    else { d with watch := x })

/-- A watch slot of a Board (Table 02-10): the tensor last written there, and its counts, which go on when another tensor is written there
(DESIGN CHOICE, log entry 46). -/
def watchSlot (w : WatchAt) (n : Nat × Nat × Nat) (s : State) : State :=
  if 16 ≤ w.board then s
  else s.modBoard w.board (fun x =>
    let o := tget x.slot w.slot (0xFFFF, 0, 0, 0, 0)
    let v := (w.tensor, w.domain, satAdd 32 o.2.2.1 n.1, satAdd 32 o.2.2.2.1 n.2.1, satAdd 32 o.2.2.2.2 n.2.2)
    { x with slot := tset x.slot w.slot v })

/-- The results of a watch point are counted; `codes` in the order in which they are written. -/
def watchCount (w : WatchAt) (codes : List Nat) (s : State) : State :=
  let n := watchSums codes
  let s := watchSlot w n (s.modDom w.domain (fun d => { d with watch := d.watch.add n }))
  match codes.find? (fun c => 1 ≤ c && c ≤ 3) with
  | some c => if w.cls = 0 then s else watchMark w (if c = 3 then 2 else 1) s
  | none => s

/-- The loss digest takes class-1 results (R332): (element index, code bits). -/
def lossAdd (w : WatchAt) (es : List (Nat × Nat)) (s : State) : State :=
  if w.cls != 1 then s
  else
    let h := fun (e : Nat × Nat) =>
      mix (mix (BitVec.ofNat 64 ((w.tensor % 65536) <<< 48 ^^^ (w.mb % 65536) <<< 32 ^^^ (e.1 % 2 ^ 32))) ^^^ BitVec.ofNat 64 e.2)
    s.modDom w.domain (fun d => { d with
      lossDigest := es.foldl (fun a e => a + h e) d.lossDigest, lossCount := (d.lossCount + es.length) % 2 ^ 64 })

/-- Written elements at a watch point: (element index, code bits, watch code). -/
def watchPut (w : WatchAt) (es : List (Nat × Nat × Nat)) (s : State) : State :=
  lossAdd w (es.map (fun e => (e.1, e.2.1))) (watchCount w (es.map (fun e => e.2.2)) s)

end Sys2Proof.Machine
end

