-- ==== Sys2Proof/Machine/Sequencer.lean ====
section
/-!
DEFINITION. Machine/Sequencer.lean: table loads, the issue of bundles, launches and their schedule, stash actions, the ends of
steps and streams, halts, restarts and stalls (R127, R129 to R158).
-/
namespace Sys2Proof.Machine

def Board.strm (x : Board) : StreamSel → Stream
  | .main => x.main
  | .filler => x.fill

def Board.setStrm (x : Board) (st : StreamSel) (v : Stream) : Board :=
  match st with
  | .main => { x with main := v }
  | .filler => { x with fill := v }

def isFiller : StreamSel → Bool
  | .main => false
  | .filler => true

/-! ### Table loads (R130, R131) -/

/-- A refused load or load write. -/
def loadRefused (b : Nat) (s : State) : State := s.bump .loadRefusals b

/-- A Board's sequencer is there to be loaded. -/
def seqPresent (s : State) (b : Nat) : Bool := s.boardOk b && s.powered

/-- The control core restarts: what it has to do waits (R285). -/
def controlBusy (s : State) (b : Nat) : Bool := s.dev.restarting.contains (16 + b)

def beginLoad (b : Nat) (s : State) : State :=
  let x := s.board b
  if x.inactState = 0 || x.inactState = 3 then s.modBoard b (fun x => { x with inactState := 1 }) else loadRefused b s

def loadOneWord (b : Nat) (bank : Bool) (offset : Nat) (w : W32) (s : State) : State :=
  let x := s.board b
  if x.inactState = 1 && (if bank then 1 else 0) != x.active then
    s.modBoard b (fun x => x.setInactive (tset x.inactiveBank offset w))
  else loadRefused b s

/-- The inactive bank becomes active (R132). -/
def swapBanks (x : Board) : Board :=
  let h := bankOf x.inactiveBank 0
  { x with
    active := 1 - x.active
    inactState := 0
    firstBank := false
    main := { x.main with pos := h % 65536, atSwap := false }
    fill := { x.fill with pos := h / 65536, atSwap := false } }

/-- LOAD_END: the bank is checked (R131). A bank that fails aborts the job; a job's first READY bank becomes active at once (R132). -/
def finishLoad (b : Nat) (s : State) : State :=
  let x := s.board b
  if x.inactState != 1 then loadRefused b s
  else
    let prev := if x.firstBank then none else some (bankOf x.activeBank 1)
    match checkBank s b (bankOf x.inactiveBank) prev with
    | some f =>
      let s := bundleRefused b f.1 f.2 (s.modBoard b (fun x => { x with inactState := 3 }))
      if s.dev.jobState == .running then sleepBoards (abortJob s) else s
    | none =>
      let s := s.modBoard b (fun x => { x with inactState := 2 })
      if x.firstBank && s.dev.jobState == .running then
        s.modBoard b (fun x => { swapBanks (x.wantModes (s.replaying b)) with started := s.carries b, asleep := !s.carries b })
      else s

/-- A write of a load is performed, or the record of a fault written. -/
def performLoad (b : Nat) (r : LoadReq) (s : State) : State :=
  match r with
  | .begin => beginLoad b s
  | .word bank offset w => loadOneWord b bank offset w s
  | .finish => finishLoad b s
  | .fault f => s.raise f

/-- A write of a load arrives: at once, or once the control core runs again. -/
def takeLoad (b : Nat) (r : LoadReq) (s : State) : State :=
  if !seqPresent s b then s
  else if controlBusy s b then s.modBoard b (fun x => { x with loadWaits := x.loadWaits ++ [r] })
  else performLoad b r s

def execLoadBegin (b : BoardNo) (s : State) : Host.Outcome State Fault Refusal := .next (takeLoad b.val .begin s)

def execLoadWord (b : BoardNo) (bank : Bool) (offset : W16) (w : W32) (s : State) : Host.Outcome State Fault Refusal :=
  .next (takeLoad b.val (.word bank offset.toNat w) s)

def execLoadEnd (b : BoardNo) (s : State) : Host.Outcome State Fault Refusal := .next (takeLoad b.val .finish s)

/-- What waited for a control core is performed in arrival order (R285). -/
def performWaiting (b : Nat) (s : State) : State :=
  let rs := (s.board b).loadWaits
  forEach rs (fun r s => performLoad b r s) (s.modBoard b (fun x => { x with loadWaits := [] }))

/-! ### Work of a bundle -/

/-- A stream's next bundle: its offset, header and groups. -/
structure Next where
  off : Nat
  header : Nat
  gs : Tbl Nat
  deriving DecidableEq, Repr

def nextBundle (x : Board) (st : StreamSel) : Next :=
  let bank := bankOf x.activeBank
  let o := (x.strm st).pos
  { off := o, header := bank o, gs := bundleGroups bank o }

def Next.has (n : Next) (g : Nat) : Bool := (n.gs.lookup g).isSome

/-- START.OP of the bundle; a bundle without START launches nothing. -/
def Next.op (n : Next) : Nat := if n.has 11 then oOp (grpAt n.gs 11) else 0

/-- START as the bundle writes it, or as the stream retains it. -/
def Next.start (n : Next) (x : Stream) : Nat := if n.has 11 then grpAt n.gs 11 else grpAt x.groups 11

/-- The register groups after a bundle has written its own, scaled by the length of its micro-batch (R135 to R138). -/
def Next.groups (n : Next) (x : Stream) (len : Nat) : Tbl Nat :=
  (scaleGroups n.gs len).foldl (fun t e =>
    tset t e.1 (if e.1 < 2 && hRearm n.header then setBits (grpAt x.groups e.1) 47 0 (e.2 % 2 ^ 48) else e.2)) x.groups

/-- The acting groups of a bundle in the order in which they act: SEM's wait first, then by mask (R136). -/
def Next.acts (n : Next) : List Nat := [9, 0, 1, 5, 6, 7, 8, 11].filter n.has

/-- The length of a micro-batch of the open step. -/
def mbLen (s : State) (d m : Nat) : Option Nat := ((s.dom d).mb m).map (·.len)

/-- The bundle needs its micro-batch (R151), or its length (R137; DEDUCED, log entry 20). -/
def Next.needsMb (n : Next) (x : Stream) : Bool :=
  n.op == opRun || n.has 6 || oScale (grpAt n.gs 11) != 0
    || [0, 1].any (fun k => n.has k && fSrc (grpAt (n.groups x 64) k) == 3)

/-! ### Depths (R120, R146) -/

/-- Entries in the fullest of a Frame's feeder queues between two passes. -/
def Frame.queued (y : Frame) : Nat := ((y.rowQ ++ y.rodQ).map (fun q => q.2.length)).foldl max 0

/-- The depth of a queue of Table 05-6. Of the feeder queues only the bound of R146 is known while the Frame has a pass: 2 above what
was left in them. -/
def Board.depth (x : Board) (code sel : Nat) : Nat :=
  match code with
  | 1 => x.fetches.length + x.rearms.length
  | 2 => (x.buf ((x.link sel).bufFirst + (x.link sel).usePos)).outstanding
  | 3 => x.linkSem (x.link sel).remoteProducer (x.link sel).fullSem
  | 4 => (x.frames.map (fun f => f.2.drains.length)).foldl (· + ·) 0
  | 5 => min 32 (((x.links.filter (fun l => l.2.consumer == 4)).map (fun l =>
      ((l.2.bufNos.map x.buf).filter (fun u => u.state == 2)).length)).foldl (· + ·) 0)
  | 6 => x.slates.length
  | 7 => x.rjobs.length
  | 8 => x.gruns.length
  | 9 => min 16 ((x.frame sel).queued + if (x.frame sel).passes.isEmpty then 0 else 2)
  | _ => 0

def paceMet (x : Board) (g k : Nat) : Bool := pQueue g k == 0 || decide (x.depth (pQueue g k) (pSel g k) ≤ pDepth g k)

/-! ### Conditions of issue (R136, R151, R152) -/

/-- The SEM wait of a bundle holds. -/
def semMet (x : Board) (n : Next) : Bool :=
  let g := grpAt n.gs 9
  mWaitN g == 0 || decide (mWaitN g ≤ if mWaitKind g = 0 then x.sem (mWaitSem g) else x.bsem (mWaitSem g))

/-- A run may be requested on a link under an epoch (R119 to R122, R138). -/
def fetchMay (x : Board) (l e : Nat) : Bool :=
  let k := x.link l
  k.state != 2 && (k.state == 0 || k.epoch == e || x.linkFree l)
    && decide (x.fetches.length + x.rearms.length < 64)
    && (if k.persist then !(x.rearms.any (fun r => r.link == l)) else (x.issuing l).isNone)

/-- The links that a bundle's work uses, its retained groups included. -/
def Next.links (n : Next) (gs : Tbl Nat) : List Nat :=
  ([0, 1].filter n.has).map (fun k => fLink (grpAt gs k))
    ++ (if n.has 5 then slateLinks (grpAt gs 5) else [])
    ++ (if n.has 6 && tAction (grpAt gs 6) != 3 then [tLink (grpAt gs 6)] else [])
    ++ (if n.op = opRun then
        let d := grpAt gs 4
        [eRowLink (grpAt gs 2), eRodLink (grpAt gs 2)] ++ (if !dTally d && dMode d < 2 then [dLink d] else [])
      else [])

/-- No link of the bundle has a mode change pending (R119). -/
def modesSettled (x : Board) (n : Next) (gs : Tbl Nat) : Bool := (n.links gs).all (fun l => !(x.link l).pending)

/-- The launch wait (R147): every named Frame has at most the pass that its last swap front ended still before its verdict; in a hold no
pass starts (R72, R95, R117). -/
def launchMay (x : Board) (mask : Nat) : Bool :=
  !x.held && (bitList mask 8).all (fun f => decide ((x.frame f).passes.length ≤ 1))

/-- The main stream is blocked (R152); a stream that has stopped blocks nothing (DEDUCED, log entry 20). -/
def mainBlocked (x : Board) : Bool :=
  x.main.issue.isNone &&
  (x.main.stopped || (x.main.atSwap && x.inactState == 2 && !x.fill.atSwap && !x.fill.stopped)
    || (!x.main.atSwap && !semMet x (nextBundle x .main)))

/-- The main stream of a Board that runs is blocked now, and it waits at SWAP for a READY bank (R152, R159). -/
def Board.mainWaits (x : Board) : Bool := x.started && x.halt == .none && !x.main.stopped && mainBlocked x
def Board.swapWaits (x : Board) : Bool := x.started && x.halt == .none && x.main.atSwap && x.inactState != 2

/-- The domain of the bundle, if it has an open step that the Board has not passed with STEP_DONE (R151). -/
def stepFor (s : State) (x : Board) (n : Next) : Option Nat :=
  match s.domOfEpoch (hEpoch n.header) with
  | some d => if (s.dom d).phase == .open && !x.stepDone.contains d then some d else none
  | none => none

/-- A Frame that the bundle names has been retired since its bank became READY (Table 06-3). -/
def namesRetired (s : State) (b : Nat) (n : Next) (x : Stream) : Bool :=
  (namedFrames n.gs ++ (if n.op = opRun then bitList (aMask (grpAt (n.groups x 64) 3)) 8 else [])).any
    (fun f => !s.frameOk b f)

/-- The conditions that hold a bundle at issue: those of its stream, its step, its waits and its queues. -/
def mayIssue (s : State) (b : Nat) (st : StreamSel) (n : Next) (d : Nat) : Bool :=
  let x := s.board b
  let y := x.strm st
  let e := hEpoch n.header
  let len := mbLen s d (oMb (n.start y))
  let gs := n.groups y (len.getD 0)
  (!n.needsMb y || len.isSome) && semMet x n && (!n.has 10 || (paceMet x (grpAt n.gs 10) 0 && paceMet x (grpAt n.gs 10) 1))
    && !x.links.any (fun l => l.2.epoch == e && l.2.state == 2)
    && [0, 1].all (fun k => !n.has k || fetchMay x (fLink (grpAt gs k)) e)
    && (!n.has 5 || decide (x.slates.length < 8)) && (!n.has 8 || decide (x.rjobs.length < 16))
    && (!n.has 7 || decide (x.gruns.length < 64)) && modesSettled x n gs
    && (st == .main || (mainBlocked x && (n.op != opRun || launchMay x (aMask (grpAt gs 3)))))

/-- A stream that can issue at all: the sequencer issues a bundle whole before the next one of either stream (R152). -/
def streamLive (s : State) (b : Nat) (st : StreamSel) : Bool :=
  let x := s.board b
  let y := x.strm st
  x.started && x.halt == .none && !y.stopped && !y.atSwap && x.main.issue.isNone && x.fill.issue.isNone && s.dev.jobState == .running
    && s.boardOk b

/-! ### Issue -/

/-- The work of the bundle under issue. -/
def issueWork (s : State) (b : Nat) (st : StreamSel) (i : Issue) : Work :=
  let y := (s.board b).strm st
  let e := hEpoch i.header
  let d := (s.domOfEpoch e).getD 0
  { bundle := i.launch.getD 0, epoch := e, domain := d, tag := (s.dom d).openTag, mb := oMb (grpAt y.groups 11)
    layer := oLayer (grpAt y.groups 11), filler := isFiller st }

/-- A bead is opened for a tagged bundle (R357). -/
def openBead (b : Nat) (st : StreamSel) (n : Next) (id layer mb : Nat) (layered : Bool) (s : State) : State :=
  let bn := s.rd .beadN
  if bn = 0 then s
  else
    let x := s.board b
    let k := x.beadK
    let s := s.modBoard b (fun y => { y with beadK := (k + 1) % 2 ^ 32 })
    if (k + 2 ^ 32 - x.beadOff) % 2 ^ bn != 0 then s
    else if x.beads.length < 8 then
      s.modBoard b (fun y => { y with beads := y.beads ++ [{ k := k, bundle := id, layered := layered, tIssue := s.now, layer := layer
                                                             mb := mb, offset := n.off, epoch := hEpoch n.header, filler := isFiller st }] })
    else s.bump .beadMissed b

/-- Counts of an issued bundle. -/
def countIssue (b : Nat) (st : StreamSel) (d : Option Nat) (s : State) : State :=
  let s := s.bump .bundlesIssued b
  match st with
  | .main => countEvent b 0x06 d none 1 s
  | .filler => countEvent b 0x07 d none 1 (s.bump .fillerIssued b)

/-- The bundle issues: its SEM wait is subtracted, its groups are written, and its actions stand ready (R136, R238). -/
def beginIssue (b : Nat) (st : StreamSel) (n : Next) (d : Nat) (s : State) : State :=
  let x := s.board b
  let y := x.strm st
  let m := grpAt n.gs 9
  let gs := n.groups y ((mbLen s d (oMb (n.start y))).getD 0)
  let id := x.nextId
  let s := if mWaitN m = 0 then s
    else
      touch (s.modBoard b (fun x => if mWaitKind m = 0 then x.setSem (mWaitSem m) (x.sem (mWaitSem m) - mWaitN m)
        else x.setBsem (mWaitSem m) (x.bsem (mWaitSem m) - mWaitN m))) b
  let s := s.modBoard b (fun x => ({ x with nextId := id + 1, bsemShut := x.bsemShut.filter (· != hEpoch n.header) }).setStrm st
    { y with groups := gs, pos := (n.off + lengthOf n.header) % 65536, semWait := false
             issue := some { offset := n.off, header := n.header, acts := n.acts, launch := some id } })
  let s := countIssue b st (some d) s
  openBead b st n id (oLayer (grpAt gs 11)) (oMb (grpAt gs 11)) (n.op == opRun) s

/-- A bundle that names a retired Frame does not issue: the Board halts (Table 06-3; DEDUCED, log entry 20). -/
def refuseRetired (b : Nat) (st : StreamSel) (n : Next) (d : Nat) (s : State) : State :=
  let y := (s.board b).strm st
  haltWork b { domain := d, layer := oLayer (n.start y), mb := oMb (n.start y) }
    { code := 0x0104, kind := 1, unit := b, detail := packAt [(0, 2, n.off), (2, 1, 4)] } s

/-- How a command meets its stream: its action is the next one, the Board halts at issue, or it is not its turn. -/
inductive Turn where
  | act (i : Issue) (s : State)
  | halted (s : State)
  | none

/-- The action of a group (and, for START, of an operation) is the next one of the bundle under issue or of the next bundle. -/
def isAct (gs : Tbl Nat) (acts : List Nat) (a : Nat) (op : Nat) : Bool :=
  match acts with
  | [] => a == 12
  | g :: _ => g == a && (a != 11 || oOp (grpAt gs 11) == op)

/-- The turn of action `a` (12: a bundle with no acting group); `op` is the operation for START. -/
def turn (b : Nat) (st : StreamSel) (a op : Nat) (s : State) : Turn :=
  let x := s.board b
  let y := x.strm st
  match y.issue with
  | some i => if isAct y.groups i.acts a op then .act i s else .none
  | none =>
    let n := nextBundle x st
    if !streamLive s b st || n.op == opSwap || n.op == opStop || !isAct n.gs n.acts a op then .none
    else
      match stepFor s x n with
      | none => .none
      | some d =>
        if !mayIssue s b st n d then .none
        else if namesRetired s b n y then .halted (refuseRetired b st n d s)
        else
          let s := beginIssue b st n d s
          match ((s.board b).strm st).issue with
          | some i => .act i s
          | none => .none

/-- The action at the head of a bundle is done. At the last one the bundle leaves issue, and its SEM signal waits for its work. -/
def popAct (b : Nat) (st : StreamSel) (s : State) : State :=
  let y := (s.board b).strm st
  match y.issue with
  | none => s
  | some i =>
    match i.acts.drop 1 with
    | a :: as => s.modBoard b (fun x => x.setStrm st { y with issue := some { i with acts := a :: as } })
    | [] =>
      let m := grpAt y.groups 9
      let sig : Option SemSig :=
        if testBit (hMask i.header) 9 && !mSigAt m && mSigN m != 0 then
          some { kind := mSigKind m, sem := mSigSem m, n := mSigN m } else none
      let s := s.modBoard b (fun x => ({ x with sigs := match sig with
          | some g => x.sigs ++ [(i.launch.getD 0, hEpoch i.header, g)]
          | none => x.sigs }).setStrm st { y with issue := none })
      settleWork b s

/-- A command's action on the bundle whose turn it is. -/
def onTurn (b : BoardNo) (st : StreamSel) (a op : Nat) (f : Issue → State → State) (s : State) : Host.Outcome State Fault Refusal :=
  match turn b.val st a op s with
  | .act i s' => .next (popAct b.val st (f i s'))
  | .halted s' => .next s'
  | .none => .next s

/-- As onTurn, for an action that can still have to wait: then nothing changes. -/
def onTurnIf (b : BoardNo) (st : StreamSel) (a op : Nat) (ok : Issue → State → Bool) (f : Issue → State → State) (s : State) :
    Host.Outcome State Fault Refusal :=
  match turn b.val st a op s with
  | .act i s' => if ok i s' then .next (popAct b.val st (f i s')) else .next s
  | .halted s' => .next s'
  | .none => .next s

/-- The register group that acts. -/
def actGroup (s : State) (b : Nat) (st : StreamSel) (g : Nat) : Nat := grpAt ((s.board b).strm st).groups g

/-! ### The actions -/

/-- SEM: the wait was met at issue; a signal at issue is sent now (R136, R145). -/
def execSem (b : BoardNo) (st : StreamSel) (s : State) : Host.Outcome State Fault Refusal :=
  onTurn b st 9 0 (fun i s =>
    let m := actGroup s b.val st 9
    if mSigAt m then sendSig b.val (hEpoch i.header) { kind := mSigKind m, sem := mSigSem m, n := mSigN m } s else s) s

/-- A fetch run or a stash read starts on its link, or is held behind the run that still issues (R121). -/
def startRun (b : Nat) (r : FetchRun) (s : State) : State :=
  let x := s.board b
  if (x.issuing r.link).isSome then s.modBoard b (fun x => { x with rearms := x.rearms ++ [r] })
  else endRuns b (startFills b r.link 64 (s.modBoard b (fun x => { x with fetches := x.fetches ++ [r] })))

/-- FETCH_A or FETCH_B (R138). -/
def execFetch (b : BoardNo) (st : StreamSel) (g : FetchSel) (s : State) : Host.Outcome State Fault Refusal :=
  let k := match g with | .a => 0 | .b => 1
  onTurnIf b st k 0 (fun i s => fetchMay (s.board b.val) (fLink (actGroup s b.val st k)) (hEpoch i.header)) (fun i s =>
    let v := actGroup s b.val st k
    startRun b.val { link := fLink v, src := fSrc v, base := fBase v, runs := fRuns v, run := fRun v, stride := fStride v
                     fills := fFills v, fabric := fFabric v, work := issueWork s b.val st i } s) s

/-- The STASH group holds this action. -/
def isStash (a : Nat) (v : Nat) : Bool := tAction v == a

/-- STASH WRITE: from the first buffer that the link's consumer takes up after this (R142). -/
def execStashWrite (b : BoardNo) (st : StreamSel) (s : State) : Host.Outcome State Fault Refusal :=
  onTurnIf b st 6 0 (fun _ s => isStash 0 (actGroup s b.val st 6)) (fun i s =>
    let v := actGroup s b.val st 6
    let w := issueWork s b.val st i
    match stashPlace s b.val w.domain w.mb (tOffset v) (tSize v) with
    | none => stashDenied b.val w s
    | some p =>
      if tSize v = 0 then s
      else
        s.modBoard b.val (fun x => { x with stashWrs := x.stashWrs ++
          [{ link := tLink v, region := p.1, addr := p.2, left := tSize v, work := w
             skip := ((x.linkBufs (tLink v)).filter (fun u => u.state == 3)).length }] })) s

/-- The stash reads of R142. -/
def stashReadAct (b : BoardNo) (st : StreamSel) (release : Bool) (s : State) : Host.Outcome State Fault Refusal :=
  onTurnIf b st 6 0 (fun i s =>
      let v := actGroup s b.val st 6
      isStash (if release then 2 else 1) v && fetchMay (s.board b.val) (tLink v) (hEpoch i.header)) (fun i s =>
    let v := actGroup s b.val st 6
    let w := issueWork s b.val st i
    match stashPlace s b.val w.domain w.mb (tOffset v) (tSize v) with
    | none => stashDenied b.val w s
    | some p =>
      startRun b.val { link := tLink v, src := 1, base := 0, runs := 1, run := 1, stride := 0, fills := 0, fabric := 0, work := w
                       stash := some { region := p.1, addr := p.2, left := tSize v, off := tOffset v, size := tSize v
                                       release := release } } s) s

def execStashRead (b : BoardNo) (st : StreamSel) (s : State) : Host.Outcome State Fault Refusal := stashReadAct b st false s
def execStashReadRelease (b : BoardNo) (st : StreamSel) (s : State) : Host.Outcome State Fault Refusal := stashReadAct b st true s

def execStashRelease (b : BoardNo) (st : StreamSel) (s : State) : Host.Outcome State Fault Refusal :=
  onTurnIf b st 6 0 (fun _ s => isStash 3 (actGroup s b.val st 6)) (fun i s =>
    let v := actGroup s b.val st 6
    let w := issueWork s b.val st i
    stashRelease b.val w.domain w.mb (tOffset v) (tSize v) s) s

/-- START.OP NOP, and a bundle that has no acting group (R134, R148). -/
def execNop (b : BoardNo) (st : StreamSel) (s : State) : Host.Outcome State Fault Refusal :=
  match turn b.val st 12 0 s with
  | .act _ s' => .next (popAct b.val st s')
  | .halted s' => .next s'
  | .none => onTurn b st 11 opNop (fun _ s => s) s

/-! ### A launch (R139, R147, R155 to R158) -/

/-- The Frames of a launch, ascending. -/
def framesOf (frame : Nat) : List Nat := bitList (aMask frame) 8

/-- Update cycles of a pass. -/
def passCycles (frame : Nat) : Nat := aKLen frame / passRank frame

/-! ### Operand buffers and the start of passes (R117, R139) -/

/-- The buffer index and position in the buffer of a tile's row operand. -/
def rowPlace (l : Launch) (tile : Nat) : Nat × Nat :=
  let rt := tile / max 1 (aRodTiles l.frame)
  let n := max 1 (eRowPerBuf l.feed)
  (rt / n, rt % n)

/-- The buffer index and position of a tile's Rod operand. -/
def rodPlace (l : Launch) (tile : Nat) : Nat × Nat :=
  let cts := max 1 (aRodTiles l.frame)
  let rt := tile / cts
  let ct := tile % cts
  let n := max 1 (eRodPerBuf l.feed)
  if cts ≤ n then (0, ct) else (rt * ceilDiv cts n + ct / n, ct % n)

/-- A handle as a launch holds it; a released one is marked past the last handle. -/
def spent : Nat := 1024

/-- The next full buffers of a link are taken until buffer `idx` of the launch's sequence is held. -/
def takeUpTo (b l : Nat) (idx : Nat) : Nat → Tbl Nat → State → Option (Tbl Nat × State)
  | 0, t, s => if idx < t.length then some (t, s) else none
  | fuel + 1, t, s =>
    if idx < t.length then some (t, s)
    else
      match takeFull b l s with
      | some (h, s) => takeUpTo b l idx fuel (tset t t.length h) s
      | none => none

/-- The operand buffers of a pass, held by its launch; none while one of them is not full (R117). -/
def acquire (b : Nat) (l : Launch) (tile : Nat) (s : State) : Option (Launch × State) :=
  match takeUpTo b (eRowLink l.feed) (rowPlace l tile).1 64 l.rowBufs s with
  | none => none
  | some (rows, s) =>
    match takeUpTo b (eRodLink l.feed) (rodPlace l tile).1 64 l.rodBufs s with
    | none => none
    | some (rods, s) => some ({ l with rowBufs := rows, rodBufs := rods }, s)

def Board.setLaunch (x : Board) (l : Launch) : Board :=
  { x with launches := x.launches.map (fun k => if k.id = l.id then l else k) }

def Board.launchAt (x : Board) (id : Nat) : Option Launch := x.launches.find? (fun l => l.id == id)

/-- A stream hold begins, or goes on. -/
def beginStreamHold (b : Nat) (h : StreamHold) (s : State) : State :=
  if (s.board b).streamHold.isSome then s
  else touch ((s.modBoard b (fun x => { x with streamHold := some h })).bump .streamHolds b) b

/-- The wait of a stream hold is met. -/
def endStreamHold (b : Nat) (s : State) : State :=
  if (s.board b).streamHold.isSome then
    touch (s.modBoard b (fun x => { x with streamHold := none })) b
  else s

/-- The passes of a Frame that have started by now find their operand buffers, each tested before its pass starts, or the Board is in a
stream hold for the first that does not (R117): whether all have, and the state. -/
def enterPasses (b f : Nat) : List (Nat × Nat) → State → Bool × State
  | [], s => (true, endStreamHold b s)
  | p :: ps, s =>
    match (s.board b).launchAt p.1 with
    | none => enterPasses b f ps s
    | some l =>
      match acquire b l p.2 s with
      | none => (false, beginStreamHold b { frame := f, launch := p.1, write := false } s)
      | some (l, s) => enterPasses b f ps (s.modBoard b (fun x => x.setLaunch l))

/-- The passes of a Frame up to the first one of a launch. -/
def Frame.upTo (y : Frame) (id : Nat) : List (Nat × Nat) :=
  y.passes.take ((y.passes.takeWhile (fun p => p.1 != id)).length + 1)

/-- The Frames of a layer start their first passes, up to one that waits. -/
def startLayer (b id : Nat) : List Nat → State → State
  | [], s => s
  | f :: fs, s =>
    let r := enterPasses b f (((s.board b).frame f).upTo id) s
    if r.1 then startLayer b id fs r.2 else r.2

/-! ### The schedule (R155 to R158) -/

/-- Operand formats of a pass. -/
def rowFmt (frame : Nat) : Fmt := (fmtOfCode (aRowFmt frame)).getD .bf16
def rodFmt (frame : Nat) : Fmt := (fmtOfCode (aRodFmt frame)).getD .bf16

/-- What a feeder queue keeps after a layer: entries of n elements under their tags; which operand elements a surplus beat carries the
spec does not say, so they are free values (log entry 4). -/
def restQueue (f : Fmt) (n : Nat) (seed : W64) (key : List Nat) (tags : List Nat) : List FEntry :=
  tags.zipIdx.map (fun (t, i) =>
    let v := fun (k : Nat) => Config.strayBeat seed (key ++ [i, k])
    { tag := t, exp := v n % 256, elems := (List.range n).map (fun k => v k % 2 ^ f.bits) })

/-- The queues of a Frame after a layer: an entry holds the operand elements of one cycle, which for a Rod in fold mode are those of two
columns (R62, R63). -/
def Frame.rest (y : Frame) (frame : Nat) (seed : W64) (key : List Nat) (tags : List Nat) : Frame :=
  if tags.isEmpty then { y with rowQ := [], rodQ := [] }
  else
    let q := passRank frame
    { y with
      rowQ := (List.range 256).map (fun r => (r, restQueue (rowFmt frame) q seed (key ++ [r]) tags))
      rodQ := (List.range 32).map (fun c => (c, restQueue (rodFmt frame) (if aFold frame then 2 * q else q) seed (key ++ [256 + c]) tags)) }

/-- The first schedule fault of a Frame (cycle from c0, kind, expected and found tag), the tags left in its queues, and whether a
wrong beat was popped under the right tag. -/
structure Sched where
  fault : Option (Nat × Nat × Nat × Nat) := none
  left : List Nat := []
  garbled : Bool := false
  deriving DecidableEq, Repr

/-- The queues of a Frame cycle by cycle from c0 − 2: beats are pushed and popped as R155 says, in one cycle the pop before the push
(DESIGN CHOICE, log entry 47). The record of an OVERRUN, which meets no pop, gives the tag of the beat that is pushed as the expected one
(DESIGN CHOICE, log entry 47). A queue holds (tag, serial). -/
def runSched (tagBase beats n passes : Nat) : Nat → Nat → List (Nat × Nat) → Bool → Sched
  | 0, _, q, g => { left := q.map (·.1), garbled := g }
  | fuel + 1, t, q, g =>
    -- t counts from c0 − 2
    let pe := max beats 256
    let ne := max n 256
    let sp := t / pe
    let j := t % pe
    let push := decide (sp < passes) && decide (j < beats)
    let u := t - 2
    let s := u / ne
    let k := u % ne
    let pop := decide (2 ≤ t) && decide (s < passes) && decide (k < n)
    let exp := (tagBase + k + 8 * (s % 2)) % 16
    if pop && q.isEmpty then { fault := some (u, 1, exp, 0), garbled := g }
    else if pop && (q.headD (0, 0)).1 != exp then { fault := some (u, 3, exp, (q.headD (0, 0)).1), garbled := g }
    else
      let g := g || (pop && (q.headD (0, 0)).2 != s * n + k + 1)
      let q := if pop then q.drop 1 else q
      if push && 16 ≤ q.length then { fault := some (u, 2, (tagBase + j + 8 * (sp % 2)) % 16, 0), garbled := g }
      else
        let q := if push then q ++ [((tagBase + j + 8 * (sp % 2)) % 16, sp * n + j + 1)] else q
        if passes ≤ s && passes ≤ sp && 2 ≤ t then { left := q.map (·.1), garbled := g }
        else runSched tagBase beats n passes fuel (t + 1) q g

/-- The schedule of a Frame's passes in a launch; equal beat counts and empty queues meet every check (R155). -/
def schedOf (tagBase beats n passes : Nat) (left : List Nat) : Sched :=
  if beats = n && left.isEmpty || passes = 0 then { left := left }
  else runSched tagBase beats n passes (passes * (max beats 256 + max n 256) + 32) 0 (left.map (fun t => (t, 0))) false

/-- A schedule fault with its place: cycle, Frame, side, queue, kind, expected and found tag. -/
structure SchedFault where
  cycle : Nat
  frame : Nat
  rod : Bool
  queue : Nat
  kind : Nat
  expected : Nat
  found : Nat
  deriving DecidableEq, Repr

/-- Whether one fault is recorded rather than another: the earlier cycle, then the lower Frame, rows before Rods, the lower queue. -/
def SchedFault.before (a b : SchedFault) : Bool :=
  let k := fun (f : SchedFault) => (f.frame * 2 + (if f.rod then 1 else 0)) * 256 + f.queue
  decide (a.cycle < b.cycle) || (a.cycle == b.cycle && decide (k a ≤ k b))

/-- SEQ_FAULT_INFO (Table 06-20). -/
def seqFaultInfo (layer : Nat) (f : SchedFault) : Nat :=
  (layer % 65536) <<< 48 + (min f.cycle 0xFFFFFF) <<< 24 + (f.kind % 16) <<< 20 + (f.frame % 8) <<< 17
    + (if f.rod then 1 else 0) <<< 16 + (f.queue % 256) <<< 8 + (f.expected % 16) <<< 4 + f.found % 16

/-- Passes of the k-th named Frame. -/
def passesOf (frame k : Nat) : Nat :=
  let F := (framesOf frame).length
  (List.range (tilesOf frame)).countP (fun i => F != 0 && i % F == k)

/-- The schedule faults of a launch, by Frame, and the fault of a push that missed its cycle (R103, R117). -/
def schedFaults (feed frame : Nat) (scheds : List (Nat × Sched)) (missed : Option MissedPush) : List SchedFault :=
  let ne := max (passCycles frame) 256
  let own := scheds.filterMap (fun p => p.2.fault.map (fun f =>
    { cycle := f.1, frame := p.1, rod := false, queue := 0, kind := f.2.1, expected := f.2.2.1, found := f.2.2.2 : SchedFault }))
  let miss := match missed with
    | some m =>
      if (framesOf frame).contains m.frame.val && decide (m.beat < passCycles frame)
          && decide (m.pass < passesOf frame ((framesOf frame).idxOf m.frame.val)) && decide (m.queue < if m.rodSide then 32 else 256) then
        [{ cycle := m.pass * ne + m.beat + (if m.rodSide then m.queue / 8 else 0), frame := m.frame.val, rod := m.rodSide
           queue := m.queue, kind := 1, expected := (eTagBase feed + m.beat + 8 * (m.pass % 2)) % 16, found := 0 : SchedFault }]
      else []
    | none => []
  own ++ miss

/-- The fault that is recorded. -/
def firstFault : List SchedFault → Option SchedFault
  | [] => none
  | f :: fs => some (fs.foldl (fun a c => if a.before c then a else c) f)

/-- Faults that fall in the recorded cycle: every row queue and the Rod queues of group 0 of a Frame fail together, a missed push
alone. Those that other Frames meet in later cycles are not counted (DESIGN CHOICE, log entry 47). -/
def faultCount (fs : List SchedFault) (missed : Option MissedPush) (cycle : Nat) : Nat :=
  let n := (fs.filter (fun f => f.cycle == cycle)).length
  let own := if missed.isSome && (fs.getLast?.map (·.cycle)) == some cycle then n - 1 else n
  264 * own + (n - own)

/-- WAKE_MASK of a launch replaces that of the stream's last launch: bits 7:0 main, 15:8 filler. -/
def newWake (old mask : Nat) : StreamSel → Nat
  | .main => old / 256 * 256 + mask % 256
  | .filler => old % 256 + (mask % 256) * 256

/-- The passes of a launch enter their Frames; the schedule decides which tiles are discarded. A pass that began by the cycle of the
fault still comes to its check, though its tile is discarded (Table 06-21; DESIGN CHOICE, log entry 47). -/
def launchOn (b : Nat) (st : StreamSel) (i : Issue) (missed : Option MissedPush) (s : State) : State :=
  let x := s.board b
  let y := x.strm st
  let feed := grpAt y.groups 2
  let frame := grpAt y.groups 3
  let fs := framesOf frame
  let F := fs.length
  let T := tilesOf frame
  let n := passCycles frame
  let w := issueWork s b st i
  let late := fs.any (fun f => (x.frame f).gated)
  let scheds := fs.zipIdx.map (fun (f, k) => (f, schedOf (eTagBase feed) (eBeats feed) n (passesOf frame k) (x.frame f).left))
  let faults := schedFaults feed frame scheds missed
  let first := firstFault faults
  -- a pass whose last write-out falls after the fault is discarded (R158)
  let drop := match first with
    | some c => (List.range T).filter (fun t => decide (c.cycle < (t / max 1 F + 1) * max n 256 + 515))
    | none => []
  let l : Launch := { id := i.launch.getD 0, work := w, feed := feed, frame := frame, drain := grpAt y.groups 4, dropped := drop
                      garbled := scheds.any (fun p => p.2.garbled) }
  let begun := fun (t : Nat) => match first with
    | some c => decide (t / max 1 F * max n 256 ≤ c.cycle)
    | none => true
  let s := if late then s.bump .wakeLate b else s
  let s := s.modBoard b (fun x =>
    let x := fs.zipIdx.foldl (fun x (f, k) =>
      let mine := (List.range T).filter (fun t => t % max 1 F == k && (begun t || !drop.contains t))
      x.setFrame f ({ x.frame f with passes := (x.frame f).passes ++ mine.map (fun t => (l.id, t)) : Frame }.rest frame
        s.job.seed [w.tag, w.mb, w.layer, feed, frame, b, f] (tget scheds f {}).left)) x
    regate { x with launches := x.launches ++ [l], wakeMask := newWake x.wakeMask (oWakeMask (grpAt y.groups 11)) st })
  let s := markBead b l.id (fun t k => { k with execStart := t }) (startLayer b l.id fs s)
  match first with
  | none => s
  | some c =>
    let info := seqFaultInfo w.layer c
    let s := s.modBoard b (fun x => { x with seqFaultInfo := info })
    let s := ((s.wr .seqFaultInfo info b).wr .seqFaultTime s.now b).bumpBy .seqFaults (faultCount faults missed c.cycle) b
    haltWork b w { code := (if c.kind = 1 then 0x0101 else if c.kind = 2 then 0x0102 else 0x0103), kind := 1, unit := b
                   detail := packAt [(0, 8, info)] } s

/-- START.OP RUN. -/
def execRun (b : BoardNo) (st : StreamSel) (missed : Option MissedPush) (s : State) : Host.Outcome State Fault Refusal :=
  onTurnIf b st 11 opRun (fun _ s => launchMay (s.board b.val) (aMask (actGroup s b.val st 3)))
    (fun i s => launchOn b.val st i missed s) s

/-! ### Ends of steps and streams -/

/-- START.OP STEP_DONE: the main stream passes the end of its work in the open step. -/
def execStepDone (b : BoardNo) (st : StreamSel) (s : State) : Host.Outcome State Fault Refusal :=
  onTurn b st 11 opStepDone (fun i s =>
    match s.domOfEpoch (hEpoch i.header) with
    | some d => s.modBoard b.val (fun x => { x with
        stepDone := d :: x.stepDone.filter (· != d)
        kept := x.kept.filter (fun k => k.2.2.1 != d) })
    | none => s) s

/-- Work of a domain on a Board that has not completed: its layers, the rest of its work, its SEM signals, a bundle under issue (R148). -/
def Board.domainBusy (x : Board) (d : Nat) (epochs : List Nat) : Bool :=
  x.launches.any (fun l => l.work.domain == d) || x.workBusy (fun w => w.domain == d) || x.sigs.any (fun g => epochs.contains g.2.1)
    || (match x.main.issue with | some i => epochs.contains (hEpoch i.header) | none => false)
    || (match x.fill.issue with | some i => epochs.contains (hEpoch i.header) | none => false)

/-- The control core reports the Board's step done; the positions of its streams are kept for the commit record (R332). -/
def execBoardStepDone (b : BoardNo) (d : DomainNo) (s : State) : Host.Outcome State Fault Refusal :=
  let b := b.val
  let d := d.val
  let x := s.board b
  if !x.stepDone.contains d || x.reported.contains d || x.domainBusy d (s.epochsOf d) || x.halt != .none
      || (s.dom d).phase != .open || controlBusy s b then .next s
  else
    let s := s.modBoard b (fun x => { x with reported := d :: x.reported })
    .next (s.modDom d (fun y => { y with
      boardsDone := orBit y.boardsDone b
      stepPositions := y.stepPositions ++ [(b, bankOf x.activeBank 1, x.main.pos, x.fill.pos)] }))

/-- Every stream of every Board has executed STOP and no domain has an open step: the job has ended (Table 13-4). -/
def checkJobEnd (s : State) : State :=
  if s.dev.state == .running && s.boardsOk.any (fun b => (s.board b).started)
      && s.boardsOk.all (fun b => !(s.board b).started || ((s.board b).main.stopped && (s.board b).fill.stopped))
      && s.doms.all (fun d => !d.2.busy) then
    sleepBoards ((s.setJob .loaded).setState .ready)
  else s

/-- The stream's next bundle is a stream operation that waits for nothing of a step (R132, R148; DEDUCED, log entry 20). -/
def atOp (s : State) (b : Nat) (st : StreamSel) (op : Nat) : Bool :=
  let x := s.board b
  streamLive s b st && (nextBundle x st).op == op

/-- START.OP SWAP: the stream waits at the end of its bank. -/
def execSwap (b : BoardNo) (st : StreamSel) (s : State) : Host.Outcome State Fault Refusal :=
  if atOp s b.val st opSwap then
    .next (s.modBoard b.val (fun x => x.setStrm st { x.strm st with atSwap := true }))
  else .next s

/-- A bundle of a stream operation issues: it is counted, and tagged as any other (R357). -/
def issueOp (b : Nat) (st : StreamSel) (n : Next) (s : State) : State :=
  let id := (s.board b).nextId
  let s := countIssue b st (s.domOfEpoch (hEpoch n.header)) (s.modBoard b (fun x => { x with nextId := id + 1 }))
  settleBeads b (openBead b st n id (oLayer (grpAt n.gs 11)) (oMb (grpAt n.gs 11)) false s)

/-- START.OP STOP ends the stream for the job. -/
def execStop (b : BoardNo) (st : StreamSel) (s : State) : Host.Outcome State Fault Refusal :=
  if atOp s b.val st opStop then
    let n := nextBundle (s.board b.val) st
    let s := s.modBoard b.val (fun x => x.setStrm st { x.strm st with
      stopped := true, groups := tset (x.strm st).groups 11 (grpAt n.gs 11) })
    .next (checkJobEnd (issueOp b.val st n s))
  else .next s

/-- The banks swap (R132): both streams' SWAP bundles issue. -/
def execBankSwap (b : BoardNo) (s : State) : Host.Outcome State Fault Refusal :=
  let b := b.val
  let x := s.board b
  if x.inactState = 2 && x.main.atSwap && (x.fill.atSwap || x.fill.stopped) && x.halt == .none && s.dev.jobState == .running then
    let note := fun (st : StreamSel) (s : State) =>
      if ((s.board b).strm st).atSwap then
        let n := nextBundle (s.board b) st
        issueOp b st n
          (s.modBoard b (fun x => x.setStrm st { x.strm st with groups := tset (x.strm st).groups 11 (grpAt n.gs 11) }))
      else s
    .next ((note .filler (note .main s)).modBoard b swapBanks)
  else .next s

/-! ### Layers, halts and stalls -/

/-- A layer is complete: its last write-out, its last Slate output and its SEM signal are done (R149). -/
def Board.layerDone (x : Board) (l : Launch) : Bool := x.launchOver l && !x.sigs.any (fun g => g.1 == l.work.bundle)

/-- The oldest layer of a stream that is complete ends. -/
def execLayerComplete (b : BoardNo) (st : StreamSel) (s : State) : Host.Outcome State Fault Refusal :=
  let b := b.val
  let s := settleSigs b s
  let x := s.board b
  match x.launches.find? (fun l => l.work.filler == isFiller st && x.layerDone l) with
  | none => .next s
  | some l =>
    let s := s.modBoard b (fun x => regate { x with
      launches := x.launches.filter (fun k => k.id != l.id)
      frames := x.frames.map (fun f => (f.1, { f.2 with passes := f.2.passes.filter (fun p => p.1 != l.id) })) })
    .next (settleWork b s)

/-- The voids and squashes of a halt (R150): the faulting domains, and every domain with work on the Board not marked STEP_DONE. -/
def haltVoids (b : Nat) (s : State) : State :=
  let x := s.board b
  let ds := (x.haltDomains ++ (if x.halt == .halting then openDomsOn b s else [])).eraseDups
  let voided := ds.filter (fun d => (s.dom d).busy && (s.dom d).exch.state == 0)
  let s := endBeads b (fun _ => true) 2 s
  let s := forEach ds (fun d s => voidNow d s) s
  let s := forEach ds (fun d s => forEach (s.epochsOf d) (fun e s => squash b e s) s) s
  s.modBoard b (fun x => { x with
    halt := .ending
    haltDomains := []
    haltFaults := x.haltFaults.map (fun f => match f.domain with
      | some d => if voided.contains d then { f with flags := f.flags ||| fVoided } else f
      | none => if voided.isEmpty then f else { f with flags := f.flags ||| fVoided }) })

/-- A bundle is under issue, or launched work, a layer or a SEM signal has not come to its end. -/
def Board.unended (x : Board) : Bool :=
  x.main.issue.isSome || x.fill.issue.isSome || !x.launches.isEmpty || !x.sigs.isEmpty || x.workBusy (fun _ => true)

/-- The halt at the layer boundary: voids and squashes; once no launched work is left, HALTED and the fault records. -/
def execLayerBoundaryHalt (b : BoardNo) (s : State) : Host.Outcome State Fault Refusal :=
  let b := b.val
  if ((s.board b).halt != .halting && (s.board b).halt != .ending) || controlBusy s b then .next s
  else
    let s := haltVoids b s
    let x := s.board b
    if x.unended then .next s
    else
      let fs := x.haltFaults
      let s := s.modBoard b (fun x => { x with halt := .halted, haltFaults := [] })
      let s := forEach fs (fun f s => s.raise f) s
      .next (if s.dev.state == .running then s.setState .halted else s)

/-- The scheduler core restarts a halted Board's streams: the register groups are cleared (R135), and each stream goes on at its next
bundle (DEDUCED, log entry 21). A Board with a row under test waits (Table 15-7). -/
def execStreamRestart (b : BoardNo) (s : State) : Host.Outcome State Fault Refusal :=
  let b := b.val
  let x := s.board b
  if x.halt != .halted || !s.boardOk b || !x.storeTests.isEmpty || s.dev.jobState != .running || schedulerBusy s then .next s
  else
    let s := s.modBoard b (fun x => { x with
      halt := .none
      main := { x.main with groups := [], issue := none }
      fill := { x.fill with groups := [], issue := none } })
    .next (if s.dev.state == .halted && s.boardsOk.all (fun c => (s.board c).halt != .halted) then s.setState .running else s)

end Sys2Proof.Machine
end

