-- ==== Sys2Proof/Machine/Frames.lean ====
section
/-!
DEFINITION. Machine/Frames.lean: passes, the proof check, write-outs and drain-adds, and the Tally (R55 to R73, R92 to R96, R139, R140).
-/
namespace Sys2Proof.Machine

/-! ### Operands (R139) -/

/-- The bytes of a buffer. -/
def bufBytes (s : State) (b h : Nat) : List Byte :=
  let u := (s.board b).buf h
  s.storeRead b (u.base * 256) (u.size * 256)

/-- The squares of a buffer, decoded to blocks' codes only when read: element (across x, index k) of an operand that lies in strips of
whole squares with K along each strip; `turned` says that K runs along the square's columns. -/
def operandVal (f : Fmt) (kLen : Nat) (turned : Bool) (bytes : List Byte) (x k : Nat) : Val :=
  let sq := (bytes.drop (((x / 64) * (kLen / 64) + k / 64) * f.squareBytes)).take f.squareBytes
  if turned then sqVal f sq (x % 64) (k % 64) else sqVal f sq (k % 64) (x % 64)

/-- The rows of one side of a tile: w rows of K values. -/
def operandRows (f : Fmt) (kLen w : Nat) (turned : Bool) (bytes : List Byte) (pos : Nat) : List (List Val) :=
  (List.range w).map (fun i => (List.range kLen).map (fun k => operandVal f kLen turned bytes (pos * w + i) k))

/-! ### Cell arithmetic (R58, R59) -/

/-- The exact sum of q products. -/
def dotExact : List Val → List Val → Val
  | a :: as, b :: bs => (a.mul b).add (dotExact as bs)
  | _, _ => .fin false 0 0

/-- acc := rne_fp32(acc + s) over the cycles of a pass. -/
def cellSum (q : Nat) : Nat → List Val → List Val → W32 → W32
  | 0, _, _, acc => acc
  | n + 1, as, bs, acc =>
    cellSum q n (as.drop q) (bs.drop q) (rne32 ((decFp32 acc).add (dotExact (as.take q) (bs.take q))))

/-- A cell whose Rod carries several columns: the proof cell in fold mode adds them in one exact sum (R70). -/
def cellSumMany (q : Nat) : Nat → List Val → List (List Val) → W32 → W32
  | 0, _, _, acc => acc
  | n + 1, as, bss, acc =>
    let s := bss.foldl (fun v bs => v.add (dotExact (as.take q) (bs.take q))) (.fin false 0 0)
    cellSumMany q n (as.drop q) (bss.map (·.drop q)) (rne32 ((decFp32 acc).add s))

/-- The operands of a tile. -/
structure TileOps where
  rows : List (List Val)
  cols : List (List Val)
  deriving Repr

def tileOps (s : State) (b : Nat) (l : Launch) (tile : Nat) : TileOps :=
  let f := l.frame
  let d := tileDims (aFold f)
  let r := rowPlace l tile
  let c := rodPlace l tile
  { rows := operandRows (rowFmt f) (aKLen f) d.1 (aTurnRow f) (bufBytes s b (tget l.rowBufs r.1 spent)) r.2
    cols := operandRows (rodFmt f) (aKLen f) d.2 (aTurnRod f) (bufBytes s b (tget l.rodBufs c.1 spent)) c.2 }

/-- The Deck of a fault-free pass, row-major. -/
def deckOf (q n : Nat) (o : TileOps) : List W32 :=
  o.rows.flatMap (fun r => o.cols.map (fun c => cellSum q n r c zero32))

/-- Whether an input of a drained element is an infinity (R48): in STORE mode the inputs are the operands of its pass, in ADD mode the
sum in the buffer and the drained value (DESIGN CHOICE, log entry 46). -/
def deckInf (o : TileOps) : List Bool :=
  let ci := o.cols.map (fun c => c.any Val.isInf)
  o.rows.flatMap (fun r => let ri := r.any Val.isInf; ci.map (fun c => ri || c))

/-- The logical element that a physical cell holds (R62). -/
def logicalIndex (fold : Bool) (row rod : Nat) : Nat :=
  if fold then (if row < 128 then 64 * row + rod else 64 * (row - 128) + rod + 32) else 32 * row + rod

/-- The Deck with the cells that drain another value. -/
def withFaults (fold : Bool) (faults : CellFaults) (deck : List W32) : List W32 :=
  faults.foldl (fun d e => if e.1 < 256 && e.2.1 < 32 then d.set (logicalIndex fold e.1 e.2.1) e.2.2 else d) deck

/-! ### The proof check (R70) -/

/-- p[k] and m[k]: the running sum of a column of row operands and of its magnitudes, each rounded to BF16. -/
def proofOperand (rows : List (List Val)) (k : Nat) : Val × Val :=
  let col := rows.map (fun r => r.getD k .nan)
  let sa := col.foldl (fun a v => rne32 ((decFp32 a).add v)) zero32
  let sm := col.foldl (fun a v => rne32 ((decFp32 a).add v.abs)) zero32
  (decBf16 (encBf16 .rne (decFp32 sa)), decBf16 (encBf16 .rne (decFp32 sm)))

/-- The outcome of one Rod: passed, mismatched, or skipped. -/
inductive RodCheck where
  | pass | mismatch | skip
  deriving DecidableEq, Repr

/-- |s − proof| > mag · 2^(−exp) + 2^−126, exactly. -/
def rodCheck (s proof mag : W32) (exp : Nat) : RodCheck :=
  if !isFin32 s || !isFin32 proof || !isFin32 mag then .skip
  else
    let diff := ((decFp32 s).add (decFp32 proof).neg).abs
    let tol := ((decFp32 mag).scale (-(exp : Int))).add (.fin false 1 (-126))
    if tol.lt diff then .mismatch else .pass

/-- The proof row and the magnitude registers of a pass, by Rod. -/
def proofCells (frame : Nat) (o : TileOps) (faults : CellFaults) : List (W32 × W32) :=
  let fold := aFold frame
  let q := passRank frame
  let n := passCycles frame
  let pm := (List.range (aKLen frame)).map (proofOperand o.rows)
  let p := pm.map (·.1)
  let m := pm.map (·.2)
  (List.range 32).map (fun c =>
    let bs := [o.cols.getD c []] ++ (if fold then [o.cols.getD (c + 32) []] else [])
    let proof := match faults.find? (fun e => e.1 == 256 && e.2.1 == c) with
      | some e => e.2.2
      | none => cellSumMany q n p bs zero32
    (proof, cellSumMany q n m (bs.map (fun b => b.map Val.abs)) zero32))

/-- The check of every Rod of a drained Deck against the check registers. -/
def checkRods (frame : Nat) (deck : List W32) (checks : List (W32 × W32)) : List RodCheck :=
  checks.zipIdx.map (fun (k, c) =>
    let s := (List.range 256).foldl (fun a r => fadd a (deck.getD (logicalIndex (aFold frame) r c) zero32)) zero32
    rodCheck s k.1 k.2 (aProofExp frame))

/-- The outcome of the check of a pass. -/
def proofChecks (frame : Nat) (o : TileOps) (deck : List W32) (faults : CellFaults) : List RodCheck :=
  checkRods frame deck (proofCells frame o faults)

/-- Bit c set for a mismatching Rod. -/
def mismatchBits (cs : List RodCheck) : Nat :=
  (cs.zipIdx.map (fun (c, i) => if c = .mismatch then 2 ^ i else 0)).foldl (· + ·) 0

/-! ### Verdicts -/

/-- The Deck of a pass of a launch that popped wrong beats unnoticed (R156): a free value of its operands and of what its queues held
(log entry 4); a NaN in it is canonical (R27). -/
def strayDeck (s : State) (b : Nat) (y : Frame) (l : Launch) (tile : Nat) : List W32 :=
  let d := Config.strayDeck l.feed l.frame tile (bufBytes s b (tget l.rowBufs (rowPlace l tile).1 spent))
    (bufBytes s b (tget l.rodBufs (rodPlace l tile).1 spent)) ((y.rowQ ++ y.rodQ).flatMap (fun q => q.2.flatMap (fun e => e.exp :: e.elems)))
  (List.range 8192).map (fun i => rne32 (decFp32 (d.getD i zero32)))

/-! ### A pass in its Frame (R65 to R67) -/

/-- The squares of one strip of a turned operand that its turn buffer still holds at the end of a pass: one in each half. -/
def turnHalves (f : Fmt) (kLen : Nat) (bytes : List Byte) (strip buffer : Nat) (t : Tbl (List Byte)) : Tbl (List Byte) :=
  let n := kLen / 64
  (List.range (min 2 n)).foldl (fun t i =>
    let k := n - 1 - i
    tset t (2 * buffer + k % 2) ((bytes.drop ((strip * n + k) * f.squareBytes)).take f.squareBytes)) t

/-- The turned squares of a pass go through the turn buffers of its side: four row groups of 64 physical rows, and the Rods (R65). In
fold mode row groups 2 and 3 carry the rows of groups 0 and 1 (R62). -/
def Frame.takeTurns (y : Frame) (s : State) (b : Nat) (l : Launch) (tile : Nat) : Frame :=
  let f := l.frame
  let r := rowPlace l tile
  let c := rodPlace l tile
  let d := tileDims (aFold f)
  let t := if aTurnRow f then
      (List.range 4).foldl (fun t g => turnHalves (rowFmt f) (aKLen f) (bufBytes s b (tget l.rowBufs r.1 spent))
        (r.2 * (d.1 / 64) + g % (d.1 / 64)) g t) y.turn
    else y.turn
  { y with turn := if aTurnRod f then
      turnHalves (rodFmt f) (aKLen f) (bufBytes s b (tget l.rodBufs c.1 spent)) (c.2 * d.2 / 64) 4 t else t }

/-- The update cycles of a pass have filled the Deck selected and its proof and magnitude cells (R58, R70). -/
def Frame.fillDeck (y : Frame) (deck : List W32) (cells : List (W32 × W32)) : Frame :=
  { y with decks := tset y.decks y.sel deck, proofs := tset y.proofs y.sel (cells.map (·.1)), mags := tset y.mags y.sel (cells.map (·.2)) }

/-- The swap front: the other Deck is selected, and the proof cells are copied into the check registers and cleared (R66). -/
def Frame.swapFront (y : Frame) : Frame :=
  { y with sel := 1 - y.sel, checks := (tget y.proofs y.sel []).zip (tget y.mags y.sel [])
           proofs := tdel y.proofs y.sel, mags := tdel y.mags y.sel }

/-- Deck k drains into drain buffer k, and its cells are cleared to +0 (R67). -/
def Frame.drainDeck (y : Frame) (k launch tile : Nat) (infs : List Bool) : Frame :=
  { y with
    decks := tdel y.decks k
    drains := y.drains ++ [{ launch := launch, tile := tile, values := tget y.decks k [], infIn := infs, buf := k, ok := false }] }

/-- A pass runs to its verdict: its tile lies in a drain buffer, and its Rods' checks are known. The results of a launch that popped
wrong beats unnoticed are free values (R156; log entry 4). -/
def runPass (b f : Nat) (l : Launch) (tile : Nat) (faults : CellFaults) (s : State) : List RodCheck × State :=
  let o := tileOps s b l tile
  let y := (s.board b).frame f
  let deck := if l.garbled then strayDeck s b y l tile
    else withFaults (aFold l.frame) faults (deckOf (passRank l.frame) (passCycles l.frame) o)
  let cells := if l.garbled then [] else proofCells l.frame o faults
  let infs := if l.garbled then List.replicate 8192 false else deckInf o
  let y' := (((y.takeTurns s b l tile).fillDeck deck cells).swapFront).drainDeck y.sel l.id tile infs
  (checkRods l.frame deck y'.checks, s.modBoard b (fun x => x.setFrame f y'))

/-- The tiles of a launch that read a row buffer, or a Rod buffer. -/
def rowUsers (l : Launch) (idx : Nat) : List Nat := (List.range (tilesOf l.frame)).filter (fun t => (rowPlace l t).1 == idx)
def rodUsers (l : Launch) (idx : Nat) : List Nat := (List.range (tilesOf l.frame)).filter (fun t => (rodPlace l t).1 == idx)

def Launch.past (l : Launch) (t : Nat) : Bool := l.verdicts.contains t || l.dropped.contains t

/-- The operand buffers whose last pass has its verdict are released (R116). -/
def releaseOperands (b : Nat) (l : Launch) (tile : Nat) (s : State) : State :=
  let ri := (rowPlace l tile).1
  let ci := (rodPlace l tile).1
  let rh := tget l.rowBufs ri spent
  let ch := tget l.rodBufs ci spent
  let rDone := rh != spent && (rowUsers l ri).all l.past
  let cDone := ch != spent && (rodUsers l ci).all l.past
  let l := { l with rowBufs := if rDone then tset l.rowBufs ri spent else l.rowBufs
                    rodBufs := if cDone then tset l.rodBufs ci spent else l.rodBufs }
  let s := s.modBoard b (fun x => x.setLaunch l)
  let s := if rDone then freeBuf b (eRowLink l.feed) rh s else s
  if cDone then freeBuf b (eRodLink l.feed) ch s else s

/-- A pass's verdict has passed: its tile in the drain buffer may be written out, and its operand buffers are released. -/
def passOk (b f : Nat) (l : Launch) (tile : Nat) (s : State) : State :=
  let l := { l with verdicts := tile :: l.verdicts }
  let s := s.modBoard b (fun x =>
    let y := x.frame f
    regate ((x.setFrame f { y with
      passes := y.passes.filter (· != (l.id, tile))
      drains := y.drains.map (fun t => if t.launch == l.id && t.tile == tile then { t with ok := true } else t) }).setLaunch l))
  releaseOperands b l tile (markBead b l.work.bundle (fun d k => { k with execEnd := d }) s)

/-- A Frame is rid of a pass and of its tile. -/
def Board.forgetPass (x : Board) (f lid tile : Nat) : Board :=
  let y := x.frame f
  x.setFrame f { y with passes := y.passes.filter (· != (lid, tile)), drains := y.drains.filter (fun t => !(t.launch == lid && t.tile == tile)) }

/-- A pass is abandoned and its tile discarded. -/
def dropTile (b f : Nat) (lid tile : Nat) (s : State) : State :=
  s.modBoard b (fun x =>
    let x := x.forgetPass f lid tile
    regate { x with launches := x.launches.map (fun l => if l.id = lid then { l with dropped := tile :: l.dropped } else l) })

/-- The verdict of a pass whose tile a schedule fault has discarded: a mismatch is counted only (Table 06-21). -/
def discardedVerdict (b f : Nat) (l : Launch) (tile rods : Nat) (s : State) : State :=
  let s := if rods = 0 then s else countEvent b 0x05 (some l.work.domain) (some f) 1 s
  releaseOperands b l tile (s.modBoard b (fun x => regate (x.forgetPass f l.id tile)))

/-- Whether an operand of a tile lies on an uncorrectable word. -/
def operandBad (s : State) (b : Nat) (l : Launch) (tile : Nat) : Option Nat :=
  let bad := fun (h : Nat) => let u := (s.board b).buf h; boardBad s b (u.base * 256) (u.size * 256)
  (bad (tget l.rowBufs (rowPlace l tile).1 spent)).orElse (fun _ => bad (tget l.rodBufs (rodPlace l tile).1 spent))

/-- The operand buffers of a tile have been read. -/
def operandsServed (b : Nat) (l : Launch) (tile : Nat) (s : State) : State :=
  let read := fun (h : Nat) (s : State) => let u := (s.board b).buf h; storeServed b (u.base * 256) (u.size * 256) s
  read (tget l.rodBufs (rodPlace l tile).1 spent) (read (tget l.rowBufs (rowPlace l tile).1 spent) s)

/-- The Frames of a proof hold, a new one in its place: ascending Frame number, behind the one that is under way (Table 03-5). -/
def joinHold (h : ProofHold) : List ProofHold → List ProofHold
  | [] => [h]
  | k :: ks => if k.tested || k.frame < h.frame then k :: joinHold h ks else h :: k :: ks

/-- A Frame's pass can go on to its verdict now. The hold of a proof check begins in the cycle after its verdict, so another Frame's
verdict of the same cycle still comes (R72, Table 03-5); in a stream hold only the Frame whose pass waits is tried again (R117); none passes in a Tally or duty hold (R95, R315). -/
def verdictMay (x : Board) (f : Nat) (now : W64) : Bool :=
  !x.tallyHold && !x.dutyHold && x.hold.all (fun h => h.since == now && h.frame != f && !h.tested)
    && (match x.streamHold with
        | some h => h.frame == f && !h.write
        | none => true)

/-- The counts of a verdict: that of a replay is none of them (DESIGN CHOICE, log entry 47). -/
def countVerdict (b f : Nat) (l : Launch) (checks : List RodCheck) (s : State) : State :=
  let d := some l.work.domain
  let n := passCycles l.frame
  let s := (s.bump .proofVerdicts (8 * b + f)).bumpBy .proofSkips ((checks.filter (· == .skip)).length) (8 * b + f)
  countEvent b 0x04 d (some f) 1 (countEvent b 0x02 d (some f) n (countEvent b 0x03 d (some f) (256 - n) s))

/-- A mismatch: the Board stops its scheduled units in a proof hold (R72). -/
def proofMismatch (b f : Nat) (l : Launch) (tile rods : Nat) (s : State) : State :=
  let s := (s.wr .proofLastTime s.now (8 * b + f)).wr .proofLastLayer l.work.layer (8 * b + f)
  let s := countEvent b 0x05 (some l.work.domain) (some f) 1 s
  s.modBoard b (fun x => { x with
    hold := joinHold { frame := f, launch := l.id, tile := tile, rods := rods, since := s.time } x.hold })

/-- The verdict of the pass at a Frame's head. -/
def execPassVerdict (b : BoardNo) (f : FrameNo) (faults : CellFaults) (s : State) : Host.Outcome State Fault Refusal :=
  let b := b.val
  let f := f.val
  let x := s.board b
  let y := x.frame f
  match y.passes with
  | [] => .next s
  | (lid, tile) :: _ =>
    if !verdictMay x f s.time || (x.launchAt lid).isNone then .next s
    else
      -- the next pass starts before this verdict
      let r := enterPasses b f (y.passes.take 2) s
      match r.1, (r.2.board b).launchAt lid with
      | true, some l =>
        let s := r.2
        if !y.drainFree then .next s
        else
        match operandBad s b l tile with
        | some w => .next (storeUe b w 1 (dropTile b f lid tile s))
        | none =>
          let r := runPass b f l tile faults (operandsServed b l tile s)
          let s := countVerdict b f l r.1 r.2
          if l.dropped.contains tile then .next (discardedVerdict b f l tile (mismatchBits r.1) s)
          else if mismatchBits r.1 = 0 then .next (passOk b f l tile s) else .next (proofMismatch b f l tile (mismatchBits r.1) s)
      | _, _ => .next r.2

/-- PROOF_MISMATCH on a Frame (Table 15-6). -/
def proofFlt (b : Nat) (h : ProofHold) (w : Work) (flags test second : Nat) : Flt :=
  { code := 0x0302, flags := flags, kind := 2, unit := 8 * b + h.frame, layer := w.layer, mb := w.mb, domain := some w.domain
    detail := packAt [(0, 4, h.rods), (4, 1, test), (5, 1, second)] }

/-- The Board's hold goes on with its next Frame, or is released. -/
def nextHold (b : Nat) (s : State) : State := s.modBoard b (fun x => { x with hold := x.hold.drop 1 })

/-- A lasting fault of a Frame (R73): its passes are abandoned, it is retired, and the Board halts. -/
def lastingFault (b : Nat) (h : ProofHold) (test second : Nat) (s : State) : State :=
  let x := s.board b
  let w := match x.launchAt h.launch with
    | some l => l.work
    | none => {}
  let gone := (x.launchAt h.launch).isNone
  let s := nextHold b s
  let s := forEach ((s.board b).frame h.frame).passes (fun p s => dropTile b h.frame p.1 p.2 s) s
  let s := retireFrame b h.frame s
  let f := proofFlt b h w (fLasting ||| fRetired) test second
  haltBoard b (if gone then { f with domain := none } else f) s

/-- The self-test ends (R72, R73). -/
def execFrameSelfTest (b : BoardNo) (f : FrameNo) (pass : Bool) (s : State) : Host.Outcome State Fault Refusal :=
  let b := b.val
  match (s.board b).hold with
  | [] => .next s
  | h :: _ =>
    if h.frame != f.val || h.tested then .next s
    else
      let s := s.bump .selftestRuns (8 * b + h.frame)
      if !pass then .next (lastingFault b h 1 0 s)
      else if ((s.board b).launchAt h.launch).isNone then .next (nextHold b s)
      else .next (s.modBoard b (fun x => { x with hold := { h with tested := true } :: x.hold.drop 1 }))

/-- The Frame clears its Decks, its proof and magnitude registers and the drain buffer of the tile, and stands before its pass again (R72);
what the other drain buffer holds is recreated. -/
def Frame.rewind (y : Frame) (launch tile : Nat) : Frame :=
  { y with
    decks := [], proofs := [], mags := [], checks := []
    sel := ((y.drains.find? (fun t => t.launch == launch && t.tile == tile)).map (·.buf)).getD y.sel
    drains := y.drains.filter (fun t => !(t.launch == launch && t.tile == tile)) }

/-- The replay ends with the second verdict (R72), which is not counted as a verdict (DESIGN CHOICE, log entry 47). -/
def execProofReplay (b : BoardNo) (f : FrameNo) (faults : CellFaults) (s : State) : Host.Outcome State Fault Refusal :=
  let b := b.val
  match (s.board b).hold with
  | [] => .next s
  | h :: _ =>
    if h.frame != f.val || !h.tested then .next s
    else
      match (s.board b).launchAt h.launch with
      | none => .next (nextHold b s)
      | some l =>
        match operandBad s b l h.tile with
        | some w => .next (storeUe b w 1 (dropTile b h.frame h.launch h.tile (nextHold b s)))
        | none =>
        let r := runPass b h.frame l h.tile faults
          ((operandsServed b l h.tile s).modBoard b (fun x => x.setFrame h.frame ((x.frame h.frame).rewind h.launch h.tile)))
        if mismatchBits r.1 = 0 then
          let s := nextHold b r.2
          let s := (s.bump .proofTransient (8 * b + h.frame)).raise (proofFlt b h l.work fTransient 0 0)
          .next (passOk b h.frame l h.tile s)
        else .next (lastingFault b h 0 1 r.2)

/-! ### Write-out (R68, R69, R79, R140) -/

/-- The next empty buffers of the destination link are taken until buffer `idx` of the launch's sequence is held. -/
def takeDst (b l e idx : Nat) : Nat → Tbl Nat → State → Option (Tbl Nat × State)
  | 0, t, s => if idx < t.length then some (t, s) else none
  | fuel + 1, t, s =>
    if idx < t.length then some (t, s)
    else
      match takeEmpty b l e s with
      | some (h, s) => takeDst b l e idx fuel (tset t t.length h) s
      | none => none

/-- Where block (I, J) of a drained tile lies: the square's number in its buffer, and the block's row and column in the square. -/
def blockPlace (fold order : Bool) (tpb pos I J : Nat) : Nat × Nat × Nat :=
  let d := tileDims fold
  if order then
    let y := pos * d.2 + 8 * J
    let x := 8 * I
    ((y / 64) * ceilDiv d.1 64 + x / 64, y % 64 / 8, x % 64 / 8)
  else
    let y := 8 * I
    let x := pos * d.2 + 8 * J
    ((y / 64) * ceilDiv (tpb * d.2) 64 + x / 64, y % 64 / 8, x % 64 / 8)

/-- The elements of block (I, J) of a drained tile, in drained order: index and value. -/
def blockElems (C I J : Nat) (vs : List W32) : List (Nat × W32) :=
  (List.range 64).map (fun k => let i := (8 * I + k / 8) * C + 8 * J + k % 8; (i, vs.getD i zero32))

/-- A block is written into a square of a buffer. -/
def writeBlock (b base : Nat) (f : Fmt) (place : Nat × Nat × Nat) (blk : Block) (s : State) : State :=
  let sq := base + place.1 * f.squareBytes
  let n := 8 * place.2.1 + place.2.2
  let s := boardWrite b (sq + n * f.blockBytes) (packCodes f blk.codes) s
  if f.scaled then boardWrite b (sq + f.expOff + n) [BitVec.ofNat 8 blk.exp] s else s

/-- The blocks of a tile. -/
def tileBlocks (fold : Bool) : List (Nat × Nat) :=
  let d := tileDims fold
  (List.range (d.1 / 8)).flatMap (fun I => (List.range (d.2 / 8)).map (fun J => (I, J)))

/-- A tile has been written out: its drain buffer is free, and a destination buffer whose tiles are all written is full. -/
def tileWritten (b f : Nat) (l : Launch) (t : Tile) (s : State) : State :=
  let l := { l with written := t.tile :: l.written }
  let s := s.modBoard b (fun x =>
    let y := x.frame f
    (x.setFrame f { y with drains := y.drains.filter (fun d => !(d.launch == t.launch && d.tile == t.tile)) }).setLaunch l)
  if dTally l.drain || dMode l.drain = 2 then s
  else
    let tpb := max 1 (dTilesPerBuf l.drain)
    let idx := t.tile / tpb
    let mine := (List.range (min tpb (tilesOf l.frame - idx * tpb))).map (fun j => idx * tpb + j)
    if mine.all l.written.contains then bufferFull b (dLink l.drain) (tget l.dstBufs idx spent) s else s

/-- Results that were counted already in this step are recompute results (R90): the domain's tag, micro-batch and tile, and of a part
of a sum its USE and PART too. The first write under a key is counted (DESIGN CHOICE, log entry 46). -/
def seenKey (l : Launch) (tile : Nat) : Nat × Nat × Nat × Nat × Bool :=
  (l.work.domain, l.work.tag, l.work.mb,
    (dTileBase l.drain + tile) % 2 ^ 32 + (if dMode l.drain = 1 then 2 ^ 32 * (1 + dPart l.drain + 16 * dUse l.drain) else 0), false)

/-- Results of a launch's tile at a watch point, counted unless they are recompute results. -/
def putOnce (b : Nat) (w : WatchAt) (key : Nat × Nat × Nat × Nat × Bool) (es : List (Nat × Nat × Nat)) (s : State) : State :=
  if (s.board b).seen.contains key then s
  else watchPut w es (s.modBoard b (fun x => { x with seen := key :: x.seen }))

def drainWatch (b : Nat) (l : Launch) (site : Nat) : WatchAt :=
  { board := b, domain := l.work.domain, layer := l.work.layer, mb := l.work.mb, tensor := dTensor l.drain, slot := dSlot l.drain
    cls := dClass l.drain, site := site }

/-- The noise key of a drained tile (Table 02-6, site 1); none for RNE. -/
def drainKey (s : State) (b : Nat) (l : Launch) (tile : Nat) : Option W64 :=
  if dRound l.drain then some (streamKey s.job.seed l.work.tag 0x10 (s.logicalOf b) ((dTileBase l.drain + tile) % 2 ^ 32)) else none

/-- A tile is written in STORE mode. -/
def storeTile (b : Nat) (l : Launch) (t : Tile) (s : State) : State :=
  let fold := aFold l.frame
  let C := (tileDims fold).2
  let f := (fmtOfCode (dFmt l.drain)).getD .fp32
  let tpb := max 1 (dTilesPerBuf l.drain)
  let base := ((s.board b).buf (tget l.dstBufs (t.tile / tpb) spent)).base * 256
  let key := drainKey s b l t.tile
  let done := (tileBlocks fold).map (fun p =>
    let es := blockElems C p.1 p.2 t.values
    (p, es, encBlock f key (fun k => (es.getD k (0, zero32)).1) (es.map (·.2))))
  let s := forEach done (fun d s =>
    let blk := if dOrder l.drain then turnBlock d.2.2 else d.2.2
    writeBlock b base f (blockPlace fold (dOrder l.drain) tpb (t.tile % tpb) d.1.1 d.1.2) blk s) s
  let out := done.flatMap (fun d => (d.2.1.zip d.2.2.codes).map (fun e =>
    (e.1.1, e.2, watchCode (decElem f d.2.2.exp e.2) (t.infIn.getD e.1.1 false))))
  putOnce b (drainWatch b l 1) (seenKey l t.tile) out s

/-- A tile is added to FP32 squares of its destination buffer (R69). -/
def addTile (b : Nat) (l : Launch) (t : Tile) (s : State) : State :=
  let fold := aFold l.frame
  let C := (tileDims fold).2
  let tpb := max 1 (dTilesPerBuf l.drain)
  let base := ((s.board b).buf (tget l.dstBufs (t.tile / tpb) spent)).base * 256
  let done := (tileBlocks fold).map (fun p =>
    let pl := blockPlace fold (dOrder l.drain) tpb (t.tile % tpb) p.1 p.2
    let a := base + pl.1 * 16384 + (8 * pl.2.1 + pl.2.2) * 256
    let bytes := s.storeRead b a 256
    let es := blockElems C p.1 p.2 t.values
    let olds := (List.range 64).map (fun k => BitVec.ofNat 32 (leAt bytes (4 * (if dOrder l.drain then turnIdx k else k)) 4))
    (pl, (es.zip olds).map (fun e => (e.1.1, fadd e.2 e.1.2, isInf32 e.2 || isInf32 e.1.2))))
  let s := forEach done (fun d s =>
    let blk : Block := ⟨0, d.2.map (fun e => e.2.1.toNat)⟩
    writeBlock b base .fp32 d.1 (if dOrder l.drain then turnBlock blk else blk) s) s
  let out := done.flatMap (fun d => d.2.map (fun e => (e.1, e.2.1.toNat, watchCode (decFp32 e.2.1) e.2.2)))
  putOnce b (drainWatch b l 2) (seenKey l t.tile) out s

/-- The drained tiles of a Frame whose verdict has passed, with their launches, oldest first. -/
def drainedTiles (x : Board) (f : Nat) : List (Launch × Tile) :=
  (x.frame f).drains.filterMap (fun t => if t.ok then (x.launchAt t.launch).map (fun l => (l, t)) else none)

/-- The first drained tile of a Frame in a write-out mode. -/
def drainedTile (x : Board) (f : Nat) (ok : Launch → Bool) : Option (Launch × Tile) :=
  (drainedTiles x f).find? (fun p => ok p.1)

/-- A Frame's write-outs go on: in a Tally hold they do, in a proof or duty hold none does, and in a stream hold the one that waits is tried
again (R72, R95, R117, R315). -/
def writeMay (x : Board) (f : Nat) : Bool :=
  x.hold.isEmpty && !x.dutyHold && (match x.streamHold with
    | some h => h.frame == f && h.write
    | none => true)

/-- A write-out into the destination link's buffers: it waits for its buffer in a stream hold (R117). -/
def writeOut (b f : Nat) (mode : Nat) (event : Nat) (write : Nat → Launch → Tile → State → State) (s : State) :
    Host.Outcome State Fault Refusal :=
  match drainedTile (s.board b) f (fun l => dMode l.drain == mode && !dTally l.drain) with
  | none => .next s
  | some (l, t) =>
    if !writeMay (s.board b) f then .next s
    else
      match takeDst b (dLink l.drain) l.work.epoch (t.tile / max 1 (dTilesPerBuf l.drain)) 64 l.dstBufs s with
      | none => .next (beginStreamHold b { frame := f, launch := l.id, write := true } s)
      | some (ds, s) =>
        let l := { l with dstBufs := ds }
        let s := endStreamHold b (s.modBoard b (fun x => x.setLaunch l))
        let u := (s.board b).buf (tget ds (t.tile / max 1 (dTilesPerBuf l.drain)) spent)
        match (if mode = 1 then boardBad s b (u.base * 256) (u.size * 256) else none) with
        | some w => .next (storeUe b w 1 (dropTile b f t.launch t.tile s))
        | none =>
          let s := if mode = 1 then storeServed b (u.base * 256) (u.size * 256) s else s
          .next (tileWritten b f l t (write b l t (countEvent b event (some l.work.domain) (some f) 256 s)))

def execStoreWriteOut (b : BoardNo) (f : FrameNo) (s : State) : Host.Outcome State Fault Refusal :=
  writeOut b.val f.val 0 0x11 storeTile s

def execDrainAdd (b : BoardNo) (f : FrameNo) (s : State) : Host.Outcome State Fault Refusal :=
  writeOut b.val f.val 1 0x12 addTile s

/-! ### The Tally (R92 to R96) -/

def Board.slice (x : Board) (e : Nat) : Slice := tget x.slices e {}
def Board.setSlice (x : Board) (e : Nat) (v : Slice) : Board := { x with slices := tset x.slices e v }

/-- The REDUCE at the head of the queue starts reading its next slice out, once that is COMPLETE: it is REDUCING (R96). -/
def beginReadout (b : Nat) (s : State) : State :=
  match (s.board b).rjobs with
  | [] => s
  | j :: _ =>
    let k := j.first + j.read
    if j.stuck || j.count ≤ j.read || ((s.board b).slice k).state != 2 then s
    else s.modBoard b (fun x => x.setSlice k { x.slice k with state := 3 })

/-- The slice and the contribution key of a drained tile. -/
def sliceNo (l : Launch) (t : Tile) : Nat := dSlice l.drain + t.tile
def contribKey (l : Launch) : Nat × Nat × Nat := (dKeyMb l.drain, dUse l.drain, dPart l.drain)
def Slice.nextKey (z : Slice) : Nat × Nat × Nat := (z.nextMb, z.nextUse, z.nextPart)

/-- Another slice still occupies the space. -/
def spaceTaken (x : Board) (e : Nat) : Bool :=
  x.slices.any (fun z => z.1 != e && z.2.space == (x.slice e).space && z.2.state != 0)

/-- The contribution is the next expected one, and its space is free for it. -/
def contribMay (x : Board) (l : Launch) (t : Tile) : Bool :=
  let z := x.slice (sliceNo l t)
  contribKey l == z.nextKey &&
  (if contribKey l == (0, 0, 0) then z.state == 0 && !spaceTaken x (sliceNo l t) else z.state == 1)

/-- The key after a contribution; after the last one NEXT_MB stands one past the end (DESIGN CHOICE, log entry 22). -/
def Slice.advance (z : Slice) (tag : Nat) : Slice :=
  let z := { z with state := if z.state = 0 then 1 else z.state, tag := tag }
  if z.nextPart + 1 < z.pCount then { z with nextPart := z.nextPart + 1 }
  else if z.nextUse + 1 < z.uCount then { z with nextPart := 0, nextUse := z.nextUse + 1 }
  else if z.nextMb + 1 < z.mCount then { z with nextPart := 0, nextUse := 0, nextMb := z.nextMb + 1 }
  else { z with nextPart := 0, nextUse := 0, nextMb := z.nextMb + 1, state := 2 }

/-- Elements of a space: FP32, row-major in the tile's shape (DESIGN CHOICE, log entry 22). -/
def spaceAddr (z : Slice) : Nat := z.space * 32768

def readSpace (s : State) (b : Nat) (z : Slice) : List W32 :=
  let bs := s.storeRead b (spaceAddr z) 32768
  (List.range 8192).map (fun i => BitVec.ofNat 32 (leAt bs (4 * i) 4))

/-- The words of a contribution and their flags: the first is rne_fp32(+0 + new), a later one rne_fp32(old + new). -/
def contribWords (first : Bool) (olds news : List W32) : List (W32 × Bool) :=
  if first then news.map (fun n => (fadd zero32 n, isInf32 n))
  else (olds.zip news).map (fun e => (fadd e.1 e.2, isInf32 e.1 || isInf32 e.2))

/-- A Tally hold ends when the contributions that caused it have been written. -/
def endTallyHold (b : Nat) (s : State) : State :=
  if (s.board b).tallyLeft == (s.board b).tallyFor then s
  else
    let s := s.modBoard b (fun x => { x with tallyFor := x.tallyLeft })
    if (s.board b).tallyHold then s else touch s b

/-- A contribution that is not yet the next expected one waits in its drain buffer (R95). -/
def contribWait (b f : Nat) (t : Tile) (s : State) : State :=
  if t.waited then s
  else (s.modBoard b (fun x =>
    let y := x.frame f
    x.setFrame f { y with drains := y.drains.map (fun d => if d == t then { d with waited := true } else d) })).bump .tallyWaits b

/-- A launch whose tiles go into the Tally. -/
def isContrib (l : Launch) : Bool := dMode l.drain == 1 && dTally l.drain

/-- The contribution of a Frame that is tried: one that is the next expected, else one that does not wait yet (R95). -/
def contribTile (x : Board) (f : Nat) : Option (Launch × Tile) :=
  let ts := (drainedTiles x f).filter (fun p => isContrib p.1)
  (ts.find? (fun p => contribMay x p.1 p.2)).orElse (fun _ => ts.find? (fun p => !p.2.waited))

def execTallyContribution (b : BoardNo) (f : FrameNo) (s : State) : Host.Outcome State Fault Refusal :=
  let b := b.val
  let f := f.val
  let x := s.board b
  match contribTile x f with
  | none => .next s
  | some (l, t) =>
    if !x.hold.isEmpty || x.streamHold.isSome || x.dutyHold then .next s
    else if !contribMay x l t then .next (contribWait b f t s)
    else
      let e := sliceNo l t
      let z := x.slice e
      let first := contribKey l == (0, 0, 0)
      match (if first then none else boardBad s b (spaceAddr z) 32768) with
      | some w => .next (storeUe b w 1 (endTallyHold b (dropTile b f t.launch t.tile s)))
      | none =>
        let ws := contribWords first (readSpace s b z) t.values
        let s := if first then s else storeServed b (spaceAddr z) 32768 s
        let s := boardWrite b (spaceAddr z) (ws.flatMap (fun w => leBytes 4 w.1.toNat)) s
        let s := s.modBoard b (fun x => x.setSlice e (z.advance l.work.tag))
        let w := { drainWatch b l 2 with tensor := z.tensor, cls := 2 }
        let s := watchPut w (ws.zipIdx.map (fun (v, i) =>
          (i, v.1.toNat, watchCode (decFp32 v.1) v.2))) s
        let s := countEvent b 0x12 (some l.work.domain) (some f) 256 s
        .next (beginReadout b (endTallyHold b (tileWritten b f l t s)))

/-- The awaited contribution of a slice has passed its verdict: it lies in a drain buffer of the Board. -/
def awaitedVerdicted (x : Board) (e : Nat) : Bool :=
  x.frames.any (fun f => (drainedTiles x f.1).any (fun p =>
    dTally p.1.drain && sliceNo p.1 p.2 == e && contribKey p.1 == (x.slice e).nextKey))

/-- A Frame's next pass needs the drain buffer of a waiting contribution (R95): the Board holds, or the wait can never end. Another Frame
that comes to this in the same cycle joins the hold. -/
def execTallyHold (b : BoardNo) (f : FrameNo) (s : State) : Host.Outcome State Fault Refusal :=
  let b := b.val
  let f := f.val
  let x := s.board b
  let y := x.frame f
  match (drainedTiles x f).find? (fun p => isContrib p.1 && p.2.buf == y.sel) with
  | none => .next s
  | some (l, t) =>
    if !t.waited || contribMay x l t || y.passes.isEmpty || !x.hold.isEmpty || x.streamHold.isSome || x.dutyHold
        || x.tallyFor.contains (t.launch, t.tile) then .next s
    else if awaitedVerdicted x (sliceNo l t) then
      let s := s.modBoard b (fun x => { x with tallyFor := x.tallyFor ++ [(t.launch, t.tile)] })
      .next (if x.tallyHold then s else touch (s.bump .tallyHolds b) b)
    else
      let s := (endTallyHold b (dropTile b f t.launch t.tile s)).bump .tallyOrderCount b
      .next (haltWork b l.work { code := 0x0105, kind := 1, unit := b
                                 detail := packAt [(0, 2, sliceNo l t), (2, 2, dKeyMb l.drain), (4, 1, dUse l.drain), (5, 1, dPart l.drain)] } s)

end Sys2Proof.Machine
end

