-- ==== Sys2Proof/Machine/Net.lean ====
section
/-!
DEFINITION. Machine/Net.lean: what every packet meets where it is delivered (R21, R22, R208 to R210, R217, R223, R379, Table 01-5), and
the epochs of groups.
-/
namespace Sys2Proof.Machine

/-! ### Form and delivery -/

/-- Opcodes of Table 09-8. -/
def opcodeKnown (o : Nat) : Bool :=
  (1 ≤ o && o ≤ 8) || o == 0x10 || o == 0x11 || (0x20 ≤ o && o ≤ 0x26) || (0x81 ≤ o && o ≤ 0x86) || o == 0x90

/-- Bytes of a payload are 0. -/
def zeroIn (bs : List Byte) (first last : Nat) : Bool := ((bs.take (last + 1)).drop first).all (· == 0#8)

/-- The fault codes of Table 15-4; all others are reserved (R328). -/
def faultCode (c : Nat) : Bool :=
  match c / 256 with
  | 1 => 1 ≤ c % 256 && c % 256 ≤ 5
  | 2 => 1 ≤ c % 256 && c % 256 ≤ 9
  | 3 => 1 ≤ c % 256 && c % 256 ≤ 2
  | 4 => 1 ≤ c % 256 && c % 256 ≤ 6
  | 5 => 1 ≤ c % 256 && c % 256 ≤ 8
  | 6 => 1 ≤ c % 256 && c % 256 ≤ 14
  | 7 => 1 ≤ c % 256 && c % 256 ≤ 8
  | 8 => 1 ≤ c % 256 && c % 256 ≤ 9
  | 9 => 1 ≤ c % 256 && c % 256 ≤ 4
  | _ => false

/-- The reserved bytes of a payload line are 0: those of the collective header (Table 10-3), of the update command's header (Table 08-1), of
the Beam line (Table 10-4) and of FREEZE (Table 16-7). The code that an ERR carries is none of those that Table 15-4 leaves reserved (R328). -/
def reservedOk (op : Nat) (bs : List Byte) : Bool :=
  if (3 ≤ op && op ≤ 6) || op == 0x83 || op == 0x84 then zeroIn bs 28 63
  else if op = 0x07 then zeroIn bs 0 6
  else if 0x20 ≤ op && op ≤ 0x23 then zeroIn bs 20 63
  else if op = 0x26 then zeroIn bs 17 19 && zeroIn bs 24 63
  else if op = 0x86 then faultCode (leAt bs 0 2)
  else true

/-- The payload is as long as the header says, FLITS and the opcode are those of R208, the control and Beam opcodes travel in one flit, DR
is of the control class only, and no reserved field is set. -/
def pktOk (p : Pkt) : Bool :=
  opcodeKnown p.opcode && p.payload.length == payloadBytes p.opcode p.lines && p.flits == flitsFor p.payload.length
    && !(0x10 ≤ p.opcode && p.opcode ≤ 0x26 && p.flits != 0) && !(p.dr && classOf p.opcode != 1) && reservedOk p.opcode p.payload

/-- A packet of an opcode reaches one of the module's Boards. -/
def deliver (op : Nat) (p : Pkt) (f : Nat → State → State) (s : State) : State :=
  if p.opcode != op || !s.powered then s
  else if s.device = 0xFFFF then dropPkt s
  else if p.dest / 16 != s.device then s
  else if !pktOk p then rejectPkt p 0x0606 s
  else if !s.boardOk (p.dest % 16) then rejectPkt p 0x060A s
  else f (p.dest % 16) s

/-! ### Epochs of groups (R223) -/

/-- The group's entry is in use and has the epoch of the packet (R223). -/
def epochOk (s : State) (g ge : Nat) : Bool := g < 1024 && gKind (s.grp g) != 0 && gEpoch (s.grp g) == ge

/-- A response, copy or token of a stale epoch is discarded and counted (R223). -/
def staleDrop (s : State) : State := s.bump .staleEpochDrops

/-! ### Requests that end -/

/-- The request of a transaction number, and the state without it (R209). -/
def takeTxn (id : Nat) (s : State) : Option Txn × State :=
  (s.fab.txns.find? (fun t => t.id == id), { s with fab := { s.fab with txns := s.fab.txns.filter (fun t => t.id != id) } })

/-- An error completion halts the Board at its layer boundary with the code that the answer carried (R217). -/
def errorHalt (b : Nat) (w : Work) (code : Nat) (s : State) : State := haltWork b w { code := code, kind := 1, unit := b } s

/-- The lines of one read request end in an error completion. -/
def failFetch (b link fill line : Nat) (code : Nat) (s : State) : State :=
  match (s.board b).fetches.find? (fun r => r.link == link && r.stash.isNone && r.going.any (fun g => g.fill == fill && !g.landed.contains line)) with
  | none => s
  | some r =>
    let n := min 479 (r.run - line % max 1 r.run)
    let s := forEach (List.range n) (fun k s =>
      match (s.board b).fetches.find? (fun q => q.link == link && q.stash.isNone && q.going.any (fun g => g.fill == fill)) with
      | some q =>
        (match q.going.find? (fun g => g.fill == fill) with
        | some g => landLine b q g (line + k) none s
        | none => s)
      | none => s) s
    if r.squashed then s else errorHalt b r.work code s

end Sys2Proof.Machine
end

