-- ==== Sys2Proof/Machine/Gather.lean ====
section
/-!
DEFINITION. Machine/Gather.lean: gathers at the Board that asks and at the owner (R143, R171, R224 to R230).
-/
namespace Sys2Proof.Machine

/-! ### Squares of a parameter group (R179, R226) -/

/-- The run of a stack that holds square q of a group. -/
def findRun (s : State) (k group q : Nat) : Option (BitVec 128) :=
  (s.stack k).runs.find? (fun e => nCount e != 0 && nGroup e == group && decide (nQFirst e ≤ q) && decide (q < nQFirst e + nCount e))

/-- The square of a run that (GROUP, Q) addresses. -/
def runSquare (e : BitVec 128) (q : Nat) : Nat := nFirstSq e + q - nQFirst e

/-- What the read rule gives for n bytes of a component (R164, R167, R171). -/
inductive SquareRead where
  | data (dpa : Nat) (bs : List Byte)
  | ahead
  | old
  | bad (dpa : Nat)
  | region (dpa : Nat)
  deriving DecidableEq, Repr

/-- A read of a component of square i of a region with tag g; `off` is the component's offset in a plane. One of a stack under test is held
as one that runs ahead. -/
def readSquare (s : State) (e : BitVec 128) (i off n g : Nat) : SquareRead :=
  let k := stackOf (rBase e)
  if rSquares e ≤ i then .region (planeAddr e i 0 + off)
  else if s.underTest k then .ahead
  else if s.vrecBad k (rVtBase e + i) then .bad (planeAddr e i 0 + off)
  else match resolveRead (s.vrec k (rVtBase e + i)) (s.dreg k (rDomain e)) g with
  | .ahead => .ahead
  | .old => .old
  | .plane p =>
    let a := planeAddr e i (if p then 1 else 0) + off
    match s.badLine a n with
    | some l => .bad (64 * l)
    | none => .data a (s.dramRead a n)

/-! ### The owner (R226, R227) -/

/-- A reply to one gather request. -/
def gatherReply (p : Pkt) (outcome err : Nat) (data : List Byte) (s : State) : State :=
  let h := { hdrOf p.payload with outcome := outcome, err := err }
  answer p (if outcome = 1 || outcome = 2 then 0x84 else 0x83) (hdrBytes h ++ data) s

def Board.rdvAt (x : Board) (id : Nat) : Option Rdv := x.rdv.find? (fun r => r.id == id)
def Board.dropRdv (x : Board) (id : Nat) : Board := { x with rdv := x.rdv.filter (fun r => r.id != id) }

/-- The read of a served gather has ended. `fan`: the rendezvous entry that multicasts it. GATHERS_SERVED counts the read, also where several
members get unicast answers (R243; DESIGN CHOICE, log entry 25). -/
def gatherServed (b : Nat) (fan : Option Nat) (reqs : List Pkt) (res : SquareRead) (s : State) : State :=
  let close := fun (s : State) => match fan with
    | some id => s.modBoard b (fun x => x.dropRdv id)
    | none => s
  match res with
  | .data a bs =>
    let s := boardServed b a bs.length (s.bump .gathersServed b)
    (match fan with
    | none => forEach reqs (fun p s => gatherReply p 0 0 bs s) s
    | some id =>
      match (s.board b).rdvAt id, reqs with
      | some r, p :: _ =>
        let t := newTxn (.multicast b id) s
        let s := t.2.modBoard b (fun x => { x with rdv := x.rdv.map (fun q => if q.id = id then { r with sent := true, txn := t.1 } else q) })
        let h := hdrOf p.payload
        let pl := hdrBytes { h with group := r.fan, gepoch := gEpoch (s.grp r.fan), outcome := 0, err := 0 } ++ bs
        s.send { dest := r.fan, src := s.addrOf b, opcode := 0x04, flits := flitsFor pl.length, mc := true
                 lines := ceilDiv pl.length 64, txn := t.1, payload := pl }
      | _, _ => s)
  | .old => close (forEach reqs (fun p s => gatherReply p 1 0 [] s) s)
  | .ahead => close (forEach reqs (fun p s => gatherReply p 2 0 [] s) s)
  | .bad a => close (forEach reqs (fun p s => gatherReply p 3 0x0401 [] s) (raiseUe a 1 none s))
  | .region a =>
    let f := regionFaultFlt a 1 s
    close (forEach reqs (fun p s => gatherReply p 3 0x0402 [] s) ((f.2.bump .regionFaults (stackOf a)).raise f.1))

/-- A read is served for one or more requests of the same square. One that runs ahead of its domain is held (R171). -/
def serveGather (b : Nat) (fan : Option Nat) (reqs : List Pkt) (s : State) : State :=
  match reqs with
  | [] => s
  | p :: _ =>
    let h := hdrOf p.payload
    let fail := fun (code : Nat) (s : State) =>
      let s := match fan with
        | some id => s.modBoard b (fun x => x.dropRdv id)
        | none => s
      forEach reqs (fun p s => gatherReply p 3 code [] s) s
    match (if s.stackOk h.stack then findRun s h.stack h.pgroup h.q else none) with
    | none => fail 0x0402 s
    | some n =>
      let e := s.region (nRegion n)
      let i := runSquare n h.q
      match compOffset e (3 + h.comp) with
      | none => fail 0x060D (s.raise { code := 0x060D, kind := 1, unit := b })
      | some off =>
        match readSquare s e i off 4160 h.tag with
        | .ahead =>
          let hold := fun (w : ReadFor) (s : State) => holdRead w (planeAddr e i 0 + off) 65 h.tag s
          (match fan with
          | some id => hold (.rendezvous b id)
              (s.modBoard b (fun x => { x with rdv := x.rdv.map (fun q => if q.id = id then { q with sent := true } else q) }))
          | none => forEach reqs (fun p s => hold (.gather p) s) s)
        | r => gatherServed b fan reqs r s

/-- The fan of a GATHER group that a Board belongs to. -/
def fanOf (s : State) (e : BitVec 192) (a : Nat) : Option Nat :=
  ((List.range (gFanCount e)).map (fun j => gFanFirst e + j)).find? (fun f => (s.membersOf (s.grp f)).contains a)

/-- A gather request at its owner, once its form has been checked. -/
def joinGather (b : Nat) (p : Pkt) (s : State) : State :=
  let h := hdrOf p.payload
  let e := s.grp h.group
  match fanOf s e p.src with
  | none => serveGather b none [p] s
  | some f =>
    let same := fun (r : Rdv) => !r.sent && r.group == h.group && r.gepoch == h.gepoch && r.fan == f && r.tag == h.tag && r.comp == h.comp
      && r.pgroup == h.pgroup && r.q == h.q
    let s :=
      if (s.board b).rdv.any same then
        s.modBoard b (fun x => { x with rdv := x.rdv.map (fun r =>
          if same r then { r with waiting := r.waiting ++ [(p.src, p.txn, p.dest)] } else r) })
      else
        s.modBoard b (fun x => { x with
          nextId := x.nextId + 1
          rdv := x.rdv ++ [{ id := x.nextId, group := h.group, gepoch := h.gepoch, fan := f, tag := h.tag, comp := h.comp, pgroup := h.pgroup, q := h.q
                             stack := h.stack, waiting := [(p.src, p.txn, p.dest)], since := s.time }] })
    match (s.board b).rdv.find? same with
    | some r =>
      if (s.membersOf (s.grp f)).all (fun m => r.waiting.any (fun w => w.1 == m)) then
        serveGather b (some r.id) (r.waiting.map (rdvPkt r)) s
      else s
    | none => s

/-- The owner takes a request: it joins an entry of the rendezvous table, opens one, or is served alone. While the table is full the owner
takes no further request: it waits, on its credits (R227). -/
def takeGather (b : Nat) (p : Pkt) (s : State) : State :=
  let x := s.board b
  if 256 ≤ x.rdv.length || !x.rdvWait.isEmpty then s.modBoard b (fun x => { x with rdvWait := x.rdvWait ++ [p] })
  else joinGather b p (claimed 0x03 p.src p.dest p.txn s)

/-- Requests that waited for the table go on. -/
def retryGathers (b : Nat) : Nat → State → State
  | 0, s => s
  | n + 1, s =>
    match (s.board b).rdvWait with
    | [] => s
    | p :: ps =>
      if 256 ≤ (s.board b).rdv.length then s
      else retryGathers b n (joinGather b p (claimed 0x03 p.src p.dest p.txn (s.modBoard b (fun x => { x with rdvWait := ps }))))

def execGatherReq (pkt : Pkt) (s : State) : Host.Outcome State Fault Refusal :=
  .next (deliver 0x03 pkt (fun b s =>
    let h := hdrOf pkt.payload
    let e := s.grp h.group
    let refuse := fun (code : Nat) => rejectPkt pkt code (claimed 0x03 pkt.src pkt.dest pkt.txn s)
    if 1024 ≤ h.group || gKind e != 2 || !(s.membersOf e).contains pkt.src then refuse 0x060C
    else if gEpoch e != h.gepoch then refuse 0x060B
    else if 1 < h.comp then refuse 0x0606
    else takeGather b pkt s) s)

/-- RENDEZVOUS_WAIT has passed: the waiting members get unicast answers (R227). -/
def execRendezvousTimeout (b : BoardNo) (entry : Nat) (s : State) : Host.Outcome State Fault Refusal :=
  let b := b.val
  match (s.board b).rdvAt entry with
  | some r =>
    if r.sent || !s.powered then .next s
    else
      let ps := r.waiting.map (rdvPkt r)
      let s := (s.modBoard b (fun x => x.dropRdv entry)).bump .rendezvousTimeouts b
      .next (retryGathers b 256 (serveGather b none ps s))
  | none => .next s

/-! ### Reads of a Board, and of another module (R164, R167, R171) -/

/-- The lines of a read, each resolved on its own; one that is not in the stack is at no address of it. -/
def readLines (s : State) (k dpa lines g : Nat) : List LineRead :=
  (List.range lines).map (fun i => if stackOf (dpa + 64 * i) = k then fetchStackLine s (dpa + 64 * i) g else .region)

def lineBytes : LineRead → List Byte
  | .data _ bs => bs
  | _ => []

/-- The first uncorrectable line of a read. -/
def badAmong (ls : List LineRead) : Option Nat :=
  ls.findSome? (fun l => match l with
    | .bad a => some a
    | _ => none)

/-- Lines that were read: the stack's part of it, and the way to the reader. -/
def countRead (f : Nat → State → State) (ls : List LineRead) (s : State) : State :=
  forEach ls (fun l s => match l with
    | .data a _ => f a s
    | _ => s) s

/-- The answer to a Board's own stack read: stale. -/
def readStaleOut (cause : Nat) (s : State) : State := s.emit (.readStale cause)

/-- A Board's read of stack lines that nothing holds is answered: a REGION_FAULT or an uncorrectable line halts it. -/
def boardRead (b k dpa lines g : Nat) (s : State) : State :=
  let ls := readLines s k dpa lines g
  match ls.zipIdx.find? (fun l => l.1 == .region) with
  | some l =>
    let f := regionFaultFlt (dpa + 64 * l.2) 1 s
    (haltBoard b f.1 (f.2.bump .regionFaults k)).emit (.readError 0x0402)
  | none =>
    if ls.contains (.stale 1) then readStaleOut 1 s
    else
      match badAmong ls with
      | some a =>
        let f := ueFlt 0x0401 none a 1 none s
        (haltAll b f.1 (noteUe a f.2)).emit (.readError 0x0401)
      | none => (countRead (fun a => boardServed b a 64) ls s).emit (.readData (ls.flatMap lineBytes))

/-- The tag under which a stack serves a remote read of a domain: that of the step it serves (R171; DEDUCED, log entry 35). -/
def ownTag (s : State) (k d : Nat) : Nat :=
  let r := s.dreg k d
  if r.isOpen then r.openTag else r.committedTag + 1

/-- A line as a remote read meets it: as a Board's fetch, or a MIRROR region for a restore (Table 07-2). -/
def remoteLine (s : State) (dpa : Nat) : LineRead :=
  match s.regionAt dpa with
  | none => .region
  | some (_, e) =>
    if rKind e = 5 then plainLine s dpa else fetchStackLine s dpa (ownTag s (stackOf dpa) (rDomain e))

/-- An access to a stack that its region's kind forbids: not performed, REGION_FAULT, ERR. -/
def rejectAccess (p : Pkt) (dpa : Nat) (s : State) : State :=
  let f := regionFaultFlt dpa 1 s
  sendErr p 0x0402 ((f.2.bump .regionFaults (stackOf dpa)).raise f.1)

/-- A read of stack lines for another module. -/
def serveStackRead (p : Pkt) (s : State) : State :=
  let ls := (List.range p.lines).map (fun i => (64 * (p.addr + i), remoteLine s (64 * (p.addr + i))))
  match ls.find? (fun l => l.2 == .region) with
  | some l => rejectAccess p l.1 s
  | none =>
    match ls.find? (fun l => l.2 == .held) with
    | some l =>
      if (s.stack (stackOf l.1)).reads.any (fun h => h.who == .remote p) then s else holdRead (.remote p) l.1 p.lines 0 s
    | none =>
      match badAmong (ls.map (·.2)) with
      | some a => sendErr p 0x0401 (raiseUe a 1 none s)
      | none => answer p 0x81 (ls.flatMap (fun l => lineBytes l.2)) (countRead (fun a => stackServed a 64) (ls.map (·.2)) s)

/-- A read of the host's window that nothing holds (R258). -/
def windowRead (dpa : Nat) (s : State) : State :=
  if (s.badLine dpa 64).isSome then (raiseUe dpa 5 none s).emit (.hdmData (List.replicate 64 0#8))
  else (hubServed dpa 64 s).emit (.hdmData (s.dramRead dpa 64))

/-! ### Reads that were held (R171, Table 15-2) -/

/-- A held read of one square, resolved again. -/
def heldSquare (s : State) (h : HeldRead) : SquareRead :=
  match s.regionAt h.dpa with
  | none => .region h.dpa
  | some (_, e) =>
    match squareAt e h.dpa with
    | none => .region h.dpa
    | some (i, off) => readSquare s e i off (64 * h.lines) h.tag

/-- A held line of a fetch, resolved again: of a VERSIONED region by its square, of another as it lies there. -/
def heldLine (s : State) (h : HeldRead) : LineRead :=
  if (s.regionAt h.dpa).any (fun e => rKind e.2 == 1) then fetchStackLine s h.dpa h.tag else plainLine s h.dpa

/-- A held read has still to wait. -/
def heldStill (s : State) (h : HeldRead) : Bool :=
  match h.who with
  | .fetch .. => heldLine s h == .held
  | .stash .. => plainLine s h.dpa == .held
  | .board _ => (readLines s (stackOf h.dpa) h.dpa h.lines h.tag).contains .held
  | .gather _ => heldSquare s h == .ahead
  | .rendezvous .. => heldSquare s h == .ahead
  | .remote p => (List.range p.lines).any (fun i => remoteLine s (64 * (p.addr + i)) == .held)
  | .window _ => s.underTest (stackOf h.dpa)

/-- The line of a held fetch ends. -/
def heldFetch (stash : Bool) (b link fill line : Nat) (h : HeldRead) (res : LineRead) (s : State) : State :=
  match (s.board b).awaited link fill line (fun r => r.stash.isSome == stash) with
  | some (r, g) => landStackRead b r g line h.dpa res s
  | none => s

/-- A rendezvous that was held ends. -/
def heldRdv (b id : Nat) (res : SquareRead) (s : State) : State :=
  match (s.board b).rdvAt id with
  | some r => retryGathers b 256 (gatherServed b (some id) (r.waiting.map (rdvPkt r)) res s)
  | none => s

/-- A held read that has no more to wait is served. -/
def heldEnd (h : HeldRead) (s : State) : State :=
  match h.who with
  | .fetch b link fill line => heldFetch false b link fill line h (heldLine s h) s
  | .stash b link fill line => heldFetch true b link fill line h (plainLine s h.dpa) s
  | .board b => boardRead b (stackOf h.dpa) h.dpa h.lines h.tag s
  | .gather p => gatherServed (p.dest % 16) none [p] (heldSquare s h) s
  | .rendezvous b id => heldRdv b id (heldSquare s h) s
  | .remote p => serveStackRead p s
  | .window _ => windowRead h.dpa s

/-- A read held for 1 ms is answered stale, cause AHEAD (R171). -/
def heldLate (h : HeldRead) (s : State) : State :=
  match h.who with
  | .fetch b link fill line => heldFetch false b link fill line h (.stale 2) s
  | .board _ => readStaleOut 2 s
  | .gather p => gatherServed (p.dest % 16) none [p] .ahead s
  | .rendezvous b id => heldRdv b id .ahead s
  | _ => s

/-- The reads that a stack holds and that have no more to wait are served, in order. -/
def retryReads (k : Nat) (s : State) : State :=
  let rs := (s.stack k).reads
  forEach (rs.filter (fun h => !heldStill s h)) heldEnd (s.modStack k (fun x => { x with reads := rs.filter (heldStill s) }))

/-! ### The Board that gathers -/

/-- Shard-map entry n of a Board (Table 10-2): owner, stack, group, square; none if its line is uncorrectable. A GATHER that names an entry
beyond the map, or on a Board without one, takes what the stack holds there (DESIGN CHOICE, log entry 25); of a REDUCE see `mapAt`. -/
def shardEntry (s : State) (b n : Nat) : Option (Nat × Nat × Nat × Nat) :=
  let a := (s.board b).mapDpa + 8 * n
  match s.badLine (a / 64 * 64) 64 with
  | some _ => none
  | none =>
    let w := leNat (s.dramRead a 8)
    some (bitsOf w 63 48, bitsOf w 47 44, bitsOf w 43 32, bitsOf w 31 10)

/-- One request of a run is sent, or the Board halts on an unreadable map entry. -/
def sendGather (b : Nat) (r : GRun) (s : State) : State :=
  let s := s.modBoard b (fun x => { x with gruns := x.gruns.map (fun g => if g.id = r.id then { g with next := g.next + 1 } else g) })
  match shardEntry s b (r.first + r.next) with
  | none =>
    let f := ueFlt 0x0401 none ((s.board b).mapDpa + 8 * (r.first + r.next)) 1 none s
    haltWork b r.work f.1 (noteUe ((s.board b).mapDpa + 8 * (r.first + r.next)) f.2)
  | some m =>
    let t := newTxn (.gather b r.id r.next) (boardServed b ((s.board b).mapDpa + 8 * (r.first + r.next)) 8 s)
    let s := t.2.modBoard b (fun x => { x with gslots := x.gslots ++
      [{ run := r.id, k := r.next, pgroup := m.2.2.1, q := m.2.2.2, owner := m.1, txn := t.1 }] })
    s.send { dest := m.1, src := s.addrOf b, opcode := 0x03, flits := 0, lines := 1, txn := t.1
             payload := hdrBytes { tag := r.work.tag, comp := r.copy, group := r.group, gepoch := gEpoch (s.grp r.group)
                                   pgroup := m.2.2.1, q := m.2.2.2, stack := m.2.1 } }

/-- Runs issue, in order, while a pending slot is free (R225). -/
def issueGathers (b : Nat) : Nat → State → State
  | 0, s => s
  | n + 1, s =>
    match (s.board b).gruns.find? (fun r => decide (r.next < r.count)) with
    | none => s
    | some r => if 256 ≤ (s.board b).gslots.length then s else issueGathers b n (sendGather b r s)

/-- The lines of entry k of a run start here: in board store, or in the GATHER region. -/
def landAt (s : State) (b : Nat) (dest k : Nat) : Bool × Nat :=
  if dest < 0x180000 then (false, 64 * (dest + 65 * k))
  else
    let base := match (s.board b).gatherRegion with
      | some r => rBase (s.region r)
      | none => 0
    (true, base + 64 * (dest - 0x180000 + 65 * k))

/-- The run lands within the GATHER partition or the Board's GATHER region (R228). -/
def gatherFits (s : State) (b dest count : Nat) : Bool :=
  let x := s.board b
  let n := 64 * 65 * count
  if dest < 0x180000 then inPart x.gatherStart x.partGather (64 * dest) n
  else match x.gatherRegion with
    | some r => decide (64 * (dest - 0x180000) + n ≤ rSize (s.region r))
    | none => false

/-- The landing range meets lines kept for an open step (R229). -/
def meetsKept (x : Board) (dest count : Nat) : Bool :=
  x.kept.any (fun k => decide (k.1 < dest + 65 * count) && decide (dest < k.1 + k.2.1))

/-- A GATHER group (R143). -/
def execGather (b : BoardNo) (st : StreamSel) (s : State) : Host.Outcome State Fault Refusal :=
  onTurn b st 7 0 (fun i s =>
    let g := actGroup s b.val st 7
    let w := issueWork s b.val st i
    if !gatherFits s b.val (gDest g) (gMapCount g) then errorHalt b.val w 0x0206 s
    else if meetsKept (s.board b.val) (gDest g) (gMapCount g) then errorHalt b.val w 0x0207 s
    else
      let s := s.modBoard b.val (fun x => { x with
        nextId := x.nextId + 1
        gruns := x.gruns ++ [{ id := x.nextId, first := gMapFirst g, count := gMapCount g, group := gGroup g, dest := gDest g
                               sem := gLandSem g, copy := gCopy g, keep := gKeep g, work := w }] })
      issueGathers b.val 256 s) s

/-- A slot is freed; the next requests go out (R225). -/
def freeSlot (b : Nat) (q : GSlot) (s : State) : State :=
  let s := (takeTxn q.txn s).2
  issueGathers b 256 (s.modBoard b (fun x => { x with gslots := x.gslots.filter (fun g => g != q) }))

/-- A square lands (R228, R229). -/
def landGather (b : Nat) (q : GSlot) (r : GRun) (data : List Byte) (s : State) : State :=
  let p := landAt s b r.dest q.k
  let s := if p.1 then s.boardStackWrite b p.2 (padTo 4160 data) else boardWrite b p.2 (padTo 4160 data) s
  let s := countEvent b 0x14 (some r.work.domain) none 1 (freeSlot b q s)
  let s := if r.keep && !(s.board b).stepDone.contains r.work.domain then
      s.modBoard b (fun x => { x with kept := x.kept ++ [(r.dest + 65 * q.k, 65, r.work.domain, r.work.tag)] })
    else s
  let n := r.landed + 1
  let s := s.modBoard b (fun x => { x with gruns := x.gruns.map (fun g => if g.id = r.id then { g with landed := n } else g) })
  if n = r.count then
    let s := s.modBoard b (fun x => { x with gruns := x.gruns.filter (fun g => g.id != r.id) })
    settleWork b (signalSem b r.sem 1 s)
  else s

/-- The slot that an answer matches, and its run: by tag, component, PGROUP and Q (R228). -/
def matchSlot (x : Board) (h : Hdr) : Option (GSlot × GRun) :=
  x.gslots.findSome? (fun q =>
    match x.gruns.find? (fun r => r.id == q.run) with
    | some r => if q.pgroup == h.pgroup && q.q == h.q && r.work.tag == h.tag && r.copy == h.comp then some (q, r) else none
    | none => none)

/-- An answer to a gather, of either form, at a Board. -/
def gatherAnswer (b : Nat) (h : Hdr) (data : List Byte) (s : State) : State :=
  match matchSlot (s.board b) h with
  | none => s.bump .gatherUnmatched b
  | some (q, r) =>
    if h.outcome = 0 then landGather b q r data s
    else if h.outcome = 3 then errorHalt b r.work h.err (freeSlot b q s)
    else
      haltWork b r.work { code := 0x0205, kind := 1, unit := b
                          detail := packAt [(0, 1, h.outcome), (2, 2, q.owner), (4, 2, h.pgroup), (6, 4, h.q)] }
        ((freeSlot b q s).bump .staleGathers b)

/-- A unicast answer: one of a stale group epoch is discarded (R223). -/
def gatherAnswerPkt (pkt : Pkt) (b : Nat) (s : State) : State :=
  let h := hdrOf pkt.payload
  if !epochOk s h.group h.gepoch then staleDrop s else gatherAnswer b h (pkt.payload.drop 64) s

def execGatherData (pkt : Pkt) (s : State) : Host.Outcome State Fault Refusal := .next (deliver 0x83 pkt (gatherAnswerPkt pkt) s)

def execStale (pkt : Pkt) (s : State) : Host.Outcome State Fault Refusal := .next (deliver 0x84 pkt (gatherAnswerPkt pkt) s)

end Sys2Proof.Machine
end

