-- ==== Sys2Proof/Machine/Memory.lean ====
section
/-!
DEFINITION. Machine/Memory.lean: what the stacks do with the messages of the hub, the settle walk, the reads of a Board, and the
checks and repairs of stack and board-store rows (R100, R164 to R174, R324, R331).
-/
namespace Sys2Proof.Machine

/-! ### Opening (R168, R192) -/

/-- The squares of frozen groups of a domain in a stack. -/
def frozenCount (s : State) (k d : Nat) : Nat :=
  ((s.stack k).runs.filter (fun e => let g := s.pgroup (nGroup e); nCount e != 0 && pgUsed g && pgDomain g == d && (s.dom d).frozen.contains (nGroup e))).foldl
    (fun a e => a + nCount e) 0

/-- The stack reports a domain's updates done once every expected square is disposed of. -/
def checkUpdates (k d : Nat) (s : State) : State :=
  let x := s.stack k
  if !(s.dreg k d).isOpen || x.doneSent.contains d || tget x.disposed d 0 < tget x.expected d 0 then s
  else
    let s := s.modStack k (fun x => { x with doneSent := d :: x.doneSent })
    s.modDom d (fun y =>
      let done := orBit y.stacksDone k
      { y with
        stacksDone := done
        doneTime := if s.stacksOk.all (testBit done) then min ((s.now - y.openedAt.toNat) / 1000) (2 ^ 32 - 1) else y.doneTime })

/-- A stack applies OPEN(d, t): its register opens, and the squares of frozen groups count as disposed of. -/
def applyOpen (k d t : Nat) (s : State) : State :=
  let s := s.setDreg k d { s.dreg k d with isOpen := true, openTag := t }
  let n := frozenCount s k d
  let s := s.modStack k (fun x => { x with disposed := tset x.disposed d n, doneSent := x.doneSent.filter (· != d) })
  checkUpdates k d s

/-- The message at the head of a stack's queue, if it is served. -/
def nextMsg (s : State) (k : Nat) : Option HubMsg := if s.stackOk k && s.powered then (s.stack k).inbox.head? else none

def popMsg (k : Nat) (s : State) : State := s.modStack k (fun x => { x with inbox := x.inbox.drop 1 })

def execOpen (k : StackNo) (s : State) : Host.Outcome State Fault Refusal :=
  match nextMsg s k.val with
  | some (.openStep d t) => .next (applyOpen k.val d t (popMsg k.val s))
  | _ => .next s

/-- COMMIT(d, t) is held until its conditions hold (R173). -/
def execCommit (k : StackNo) (s : State) : Host.Outcome State Fault Refusal :=
  match nextMsg s k.val with
  | some (.commit d t) => .next ((popMsg k.val s).modStack k.val (fun x => { x with held := x.held ++ [.commit d t] }))
  | _ => .next s

/-- VOID(d, t) is held until its conditions hold (R173). -/
def execStackVoid (k : StackNo) (s : State) : Host.Outcome State Fault Refusal :=
  match nextMsg s k.val with
  | some (.void d t) => .next ((popMsg k.val s).modStack k.val (fun x => { x with held := x.held ++ [.void d t] }))
  | _ => .next s

/-! ### Close (R173, R174, R280, R328, R334) -/

/-- The VERSIONED regions of a domain in a stack. -/
def domRegions (s : State) (k d : Nat) : List (Nat × BitVec 128) :=
  s.job.regions.filter (fun e => rKind e.2 == 1 && rDomain e.2 == d && stackOf (rBase e.2) == k)

/-- Records that a settle walk of a domain visits in a stack. -/
def walkLength (s : State) (k d : Nat) : Nat := (domRegions s k d).foldl (fun a e => a + rSquares e.2) 0

/-- Bit d of a 32-byte BLOB entry. -/
def blobBit (bs : List Byte) (d : Nat) : Bool := testBit (byteAt bs (d / 8)) (d % 8)

/-- A mirror pass of the domain starts with this commit (R334). -/
def mirrorDue (s : State) (d : Nat) : Bool :=
  s.rd .mirrorK != 0 && blobBit (s.blob .mirrorDomains) d && (s.dom d).commits % s.rd .mirrorK == 0

/-- The passes that a commit starts: one for each VERSIONED region of the domain, into set (COMMITS / MIRROR_K) mod 2 (R334). -/
def startPasses (d : Nat) (s : State) : State :=
  let set := (s.dom d).commits / s.rd .mirrorK % 2
  s.modDom d (fun x => { x with passes := s.stacksOk.flatMap (fun k =>
    (domRegions s k d).map (fun e => { stack := k, region := e.1, set := set })) })

/-- The last stack has applied the close: the hub's view follows, the step's reservations and kept lines end, and the ring goes on. -/
def hubClose (d t : Nat) (commit : Bool) (s : State) : State :=
  let s := writeStatuses d s
  let s := s.modDom d (fun x => { x with
    phase := .closed
    settling := s.stacksOk.any (fun k => (s.dreg k d).settling)
    settledBy := (s.stacksOk.filter (fun k => !(s.dreg k d).settling)).foldl orBit 0
    committedTag := if commit then t else x.committedTag
    lastTag := t
    lastOutcome := if commit then 1 else 2
    commits := if commit then (x.commits + 1) % 2 ^ 64 else x.commits
    voids := if commit then x.voids else satAdd 32 x.voids 1
    lastClose := s.now
    settleLast := s.stacksOk.foldl (fun a k => max a (ceilDiv (walkLength s k d) 64)) 0
    preDirty := false
    snapCommitted := x.snapCommitted || (commit && x.snapPending)
    mbs := x.mbs.map (fun m => { m with held := [] })
    ring := { x.ring with state := if x.ring.state == .held then .active else x.ring.state } })
  let s := forEach s.boardsOk (fun b s => s.modBoard b (fun x => { x with kept := x.kept.filter (fun k => k.2.2.1 != d) })) s
  let s := if commit && mirrorDue s d then startPasses d s else s
  let late := fun (w : Nat × Pkt) => pgDomain (s.pgroup (hdrOf w.2.payload).pgroup) == d
  let s := forEach (s.fab.voteWait.filter late) (fun w s => takenUp (if 32 ≤ w.1 then some (w.1 - 32) else none) w.2 s) s
  let s := { s with fab := { s.fab with votes := s.fab.votes.filter (fun v => pgDomain (s.pgroup v.pgroup) != d)
                                        voteSent := s.fab.voteSent.filter (fun v => v.2 != d)
                                        voteWait := s.fab.voteWait.filter (fun w => !late w) } }
  checkJobEnd (s.domCause d 1)

/-- The close of a stack's register in one change (R173), and the reads that waited for it. -/
def applyClose (k d t : Nat) (commit : Bool) (s : State) : State :=
  let r := s.dreg k d
  let s := s.setDreg k d { r with
    isOpen := false, settling := true, lastTag := t, lastOut := if commit then 1 else 2
    committedTag := if commit then t else r.committedTag }
  let s := retryReads k s
  let s := s.modDom d (fun y => { y with appliedBy := orBit y.appliedBy k })
  if s.stacksOk.all (testBit (s.dom d).appliedBy) then hubClose d t commit s else s

/-- The message that a stack holds for a domain: tag and outcome. -/
def heldFor (x : Stack) (d : Nat) : Option (Nat × Bool) :=
  x.held.findSome? (fun m => match m with
    | .commit e t => if e = d then some (t, true) else none
    | .void e t => if e = d then some (t, false) else none
    | .openStep _ _ => none)

/-- Reckoner writes of a domain have completed in a stack. -/
def writesDone (s : State) (k d : Nat) : Bool := !(s.stack k).queue.any (fun u => pgDomain (s.pgroup u.group) == d)

def execCloseApply (k : StackNo) (d : DomainNo) (s : State) : Host.Outcome State Fault Refusal :=
  let k := k.val
  let d := d.val
  match heldFor (s.stack k) d with
  | none => .next s
  | some (t, commit) =>
    let r := s.dreg k d
    if r.isOpen && r.openTag == t && writesDone s k d && !r.settling && s.powered then
      .next (applyClose k d t commit (s.modStack k (fun x => { x with
        held := x.held.filter (fun m => match m with
          | .commit e _ => e != d
          | .void e _ => e != d
          | .openStep _ _ => true) })))
    else .next s

/-- One record of the walk, with the bits beside it (R173, R174, R331). -/
def walkRec (committed : Bool) (v : VRec) : VRec :=
  if committed then { v with dirty := false, lastc := v.dirty, m0 := v.m0 || v.dirty, m1 := v.m1 || v.dirty }
  else if v.dirty then { v with dirty := false, p := !v.p, tag8 := v.was }
  else v

/-- The walk over the domain's records. -/
def settleWalk (k d : Nat) (s : State) : State :=
  let regs := domRegions s k d
  let c := (s.dreg k d).lastOut == 1
  s.modStack k (fun x => { x with vt := x.vt.map (fun e =>
    if regs.any (fun r => rVtBase r.2 ≤ e.1 && e.1 < rVtBase r.2 + rSquares r.2) then (e.1, walkRec c e.2) else e) })

/-- The walk of a stack ends. The domain is settled once every stack's walk of the last close has ended; not while a later close has been
applied by some stacks only. -/
def execSettleWalkDone (k : StackNo) (d : DomainNo) (s : State) : Host.Outcome State Fault Refusal :=
  let k := k.val
  let d := d.val
  if !(s.dreg k d).settling then .next s
  else
    let s := settleWalk k d s
    let s := s.setDreg k d { s.dreg k d with settling := false }
    .next (s.modDom d (fun x =>
      let by_ := orBit x.settledBy k
      let above := s.stacksOk.all (testBit by_)
      { x with
        settledBy := by_
        settling := x.settling && !(above && !(x.phase == .closing && x.appliedBy != 0))
        preIntact := if above && (s.dreg k d).lastOut == 1 then !x.preDirty else x.preIntact }))

/-! ### Reads of a Board (R164, R167, R171) -/

def execStackRead (k : StackNo) (req : StackReadReq) (s : State) : Host.Outcome State Fault Refusal :=
  if !s.stackOk k.val || !s.powered || !s.boardOk req.board then .next s
  else
    let ls := readLines s k.val req.dpa req.lines req.tag
    .next (if ls.contains .held && !ls.contains .region then holdRead (.board req.board) req.dpa req.lines req.tag s
      else boardRead req.board k.val req.dpa req.lines req.tag s)

/-- A read has been held for 1 ms (R171); while all channels are tested it waits on (Table 15-2). -/
def execAheadHoldTimeout (k : StackNo) (held : Nat) (s : State) : Host.Outcome State Fault Refusal :=
  match (s.stack k.val).reads[held]? with
  | none => .next s
  | some h =>
    if s.underTest k.val then .next s
    else .next (heldLate h (s.modStack k.val (fun x => { x with reads := x.reads.eraseIdx held })))

/-! ### Rows of a stack (R166, R167, R324) -/

/-- A line lies in the committed plane of a square of a VERSIONED region: the region's domain. -/
def inCommitted (s : State) (dpa : Nat) : Option Nat :=
  match s.regionAt dpa with
  | none => none
  | some (_, e) =>
    let S := slotBytes e
    if rKind e != 1 || S = 0 then none
    else
      let o := dpa - rBase e
      let i := o / (2 * S)
      let k := stackOf dpa
      if i < rSquares e && committedPlane (s.vrec k (rVtBase e + i)) (s.dreg k (rDomain e)) == decide (S ≤ o % (2 * S)) then
        some (rDomain e)
      else none

/-- The version word of a square's record is uncorrectable (Table 07-3, last row): LOST is set for the region's domain, and the square is
not read again until a restore or a job load writes its record. A line of another kind of region has no record. -/
def loseRecord (dpa : Nat) (s : State) : State :=
  match s.regionAt dpa with
  | none => s
  | some (_, e) =>
    match (if rKind e = 1 then squareAt e dpa else none) with
    | none => s
    | some (i, _) =>
      let w := (rVtBase e + i) / 4
      let s := s.modStack (stackOf dpa) (fun x => { x with vtBad := if x.vtBad.contains w then x.vtBad else x.vtBad ++ [w] })
      setLost (rDomain e) (raiseUe dpa 3 (some (rDomain e)) s)

/-- What a scrub's read of a line gives: one that has failed stays uncorrectable until it is written whole, and a single-bit error that
waits for its next read is corrected by this one. -/
def scrubOutcome (bad soft : Bool) (r : LineOutcome) : LineOutcome :=
  if bad then .uncorrectable
  else if soft && r != .uncorrectable then .corrected
  else r

/-- Patrol scrub treats each line as a read. There is no line beyond the stack's last. -/
def execPatrolScrub (k : StackNo) (line : Nat) (r : LineOutcome) (s : State) : Host.Outcome State Fault Refusal :=
  let k := k.val
  let dpa := k * stackBytes + 64 * line
  if stackBytes ≤ 64 * line || !s.stackOk k || !s.powered || s.underTest k then .next s
  else
    let s := countLines 0 dpa 64 s
    let l := dpa / 64
    let s :=
      match scrubOutcome ((s.stack k).bad.contains l) ((s.stack k).soft.contains l) r with
      | .clean => s
      | .weak => s.modStack k (fun x => { x with soft := x.soft ++ [l] })
      | .versionWord => loseRecord dpa s
      | .corrected => correctLines k [l] s
      | .uncorrectable =>
        let s := s.modStack k (fun x => { x with
          bad := if x.bad.contains l then x.bad else x.bad ++ [l], soft := x.soft.filter (· != l) })
        let d := inCommitted s dpa
        let s := raiseUe dpa 3 d s
        (match d with
        | some d => setLost d s
        | none => s)
    .next (if 64 * line + 64 = stackBytes then wrFree .scrubPassTime k s else s)

/-- The targeted test of a corrected line's row (R166). Which bank holds the row is a free value: the spec gives no bank layout
of the stacks. `17` marks a bank whose SPARES_EXHAUSTED has been raised. -/
def execRowTest (k : StackNo) (pass : Bool) (s : State) : Host.Outcome State Fault Refusal :=
  let k := k.val
  match (if s.underTest k then [] else (s.stack k).rowTests) with
  | [] => .next s
  | l :: ls =>
    let s := s.modStack k (fun x => { x with rowTests := ls })
    if !s.stackOk k then .next s
    else if pass then .next (s.modStack k (fun x => { x with transients := satAdd 32 x.transients 1 }))
    else
      let d := s.draw 20
      let s := d.2
      let key := k * 2 ^ 20 + d.1
      let used := tget s.flash.stackSpares key 0
      let f : Flt := { code := 0x0404, flags := fLasting, kind := 5, unit := 32 * k + channelOf (64 * l) }
      if used < 16 then
        let s := { s with flash := { s.flash with stackSpares := tset s.flash.stackSpares key (used + 1), stackRemaps := s.flash.stackRemaps ++ [(key, l)] } }
        let stall := s.draw 32
        .next ((stall.2.maxReg .spareStallMax (min stall.1 30000) k).raise f)
      else if used = 16 then
        .next (({ s with flash := { s.flash with stackSpares := tset s.flash.stackSpares key 17 } } : State).raise { f with code := 0x0405 })
      else .next s

/-- The test of all channels of a stack ends (Table 15-2): the accesses that it held go on. -/
def execStackSelfTest (k : StackNo) (pass : Bool) (s : State) : Host.Outcome State Fault Refusal :=
  let k := k.val
  if !(s.stack k).testDue || !s.powered then .next s
  else
    let s := s.modStack k (fun x => { x with testDue := false, ueTimes := [] })
    let s := retryReads k s
    .next (if pass then s else retireStack k s)

/-! ### Rows of a board store (R100) -/

/-- The background scrubber reads a word. There is none beyond the store's last, and none can be read in retention (R311). -/
def execBoardStoreScrub (b : BoardNo) (word : Nat) (r : LineOutcome) (s : State) : Host.Outcome State Fault Refusal :=
  let b := b.val
  if storeBytes ≤ 8 * word || !s.storeUp b || !s.powered then .next s
  else
    match scrubOutcome ((s.board b).storeBad.contains word) ((s.board b).storeSoft.contains word) r with
    | .clean => .next s
    | .versionWord => .next s
    | .weak => .next (s.modBoard b (fun x => { x with storeSoft := x.storeSoft ++ [word] }))
    | .corrected => .next (correctWords b [word] s)
    | .uncorrectable =>
      .next (storeUe b word 3 (s.modBoard b (fun x =>
        { x with storeBad := if x.storeBad.contains word then x.storeBad else x.storeBad ++ [word]
                 storeSoft := x.storeSoft.filter (· != word) })))

/-- The buffers of a Board that hold a word. -/
def Board.bufsAt (x : Board) (w : Nat) : List Nat :=
  (x.bufs.filter (fun u => decide (256 * u.2.base < 8 * w + 8) && decide (8 * w < 256 * (u.2.base + u.2.size)))).map (·.1)

/-- The March test of a row keeps it, spares it, or, when its bank has no spare left, retires the Board, which halts with the open steps
that its work carries (R324, R330). A buffer on a spared row is withdrawn from its link's pool (R118); the tested word stands for its row
(log entry 48). -/
def execMarchTest (b : BoardNo) (pass : Bool) (s : State) : Host.Outcome State Fault Refusal :=
  let b := b.val
  match (if (s.board b).asleep then [] else (s.board b).storeTests) with
  | [] => .next s
  | w :: ws =>
    let s := s.modBoard b (fun x => { x with storeTests := ws })
    if !s.boardOk b then .next s
    else if pass then .next (s.modBoard b (fun x => { x with transients := satAdd 32 x.transients 1 }))
    else
      let bank := 32 * b + storeBank (8 * w)
      let used := tget s.flash.storeSpares bank 0
      if used < 64 then
        let s := s.modBoard b (fun x => { x with withdrawn := x.withdrawn ++ x.bufsAt w })
        .next (({ s with flash := { s.flash with storeSpares := tset s.flash.storeSpares bank (used + 1), storeRemaps := s.flash.storeRemaps ++ [(bank, w)] } } : State).raise
          { code := 0x0404, flags := fLasting, kind := 3, unit := bank })
      else .next (retireBoard b (haltQuiet b (s.modBoard b (fun x => { x with haltDomains := (x.haltDomains ++ openDomsOn b s).eraseDups }))))

end Sys2Proof.Machine
end

