-- ==== Sys2Proof/Machine/Capture.lean ====
section
/-!
DEFINITION. Machine/Capture.lean: the reading of squares by the snapshot engine (R167, R336, R337, R341).
-/
namespace Sys2Proof.Machine

/-- A snapshot, export or restore ends: FAILED, with the reason and the byte offset (Table 15-6). -/
def snapEnd (code reason offset : Nat) (s : State) : State :=
  (snapFail reason s).raise { code := code, detail := packAt [(0, 2, reason), (4, 8, offset)] }

/-- The reason of a copy that meets an uncorrectable line, or a line outside its region: Table 15-10 names none for it. A free value among its
reasons (log entry 34). -/
def drawReason (s : State) : Nat × State :=
  let d := s.draw 16
  (1 + d.1 % 9, d.2)

/-- An uncorrectable line of a plane that a copy reads: LOST if the plane is the committed one (Table 07-3). -/
def copyUe (dpa : Nat) (s : State) : State :=
  match inCommitted s dpa with
  | some d => setLost d (raiseUe dpa 4 (some d) s)
  | none => raiseUe dpa 4 none s

/-- A square's committed plane: its address. -/
def committedAddr (s : State) (k : Nat) (e : BitVec 128) (i : Nat) : Nat :=
  planeAddr e i (if committedPlane (s.vrec k (rVtBase e + i)) (s.dreg k (rDomain e)) then 1 else 0)

/-- An uncorrectable line among n bytes from a of a square, its version record counted with it (R167). -/
def squareBad (s : State) (e : BitVec 128) (i a n : Nat) : Option Nat :=
  if s.vrecBad (stackOf (rBase e)) (rVtBase e + i) then some (a / 64) else s.badLine a n

/-- VERSIONED regions of a domain, in every stack. -/
def allRegions (s : State) (d : Nat) : List (Nat × BitVec 128) :=
  s.job.regions.filter (fun e => rKind e.2 == 1 && rDomain e.2 == d)

/-- The other plane of a square. -/
def otherAddr (s : State) (k : Nat) (e : BitVec 128) (i : Nat) : Nat :=
  planeAddr e i (if committedPlane (s.vrec k (rVtBase e + i)) (s.dreg k (rDomain e)) then 0 else 1)

/-- The engine reads an export (the F8 copy alone), or the square with the other plane where it was in the last commit. -/
def captureSpan (s : State) (r i : Nat) : Nat × Nat × Option Nat :=
  let e := s.region r
  let k := stackOf (rBase e)
  let S := slotBytes e
  if s.snap.isExport then (committedAddr s k e i + (compOffset e 3).getD 0, 4160, none)
  else
    let both := (s.vrec k (rVtBase e + i)).lastc && (s.dom (rDomain e)).snapReplayable
    (committedAddr s k e i, S, if both then some (otherAddr s k e i) else none)

/-- The engine reads a square. One that it cannot read ends the copy (Table 07-3). -/
def captureOne (r i : Nat) (s : State) : State :=
  let e := s.region r
  let k := stackOf (rBase e)
  let p := captureSpan s r i
  if s.underTest k then s
  else
    let bad := match squareBad s e i p.1 p.2.1, p.2.2 with
      | some l, _ => some l
      | none, some a => s.badLine a p.2.1
      | none, none => none
    match bad with
    | some l =>
      let c := drawReason (copyUe (64 * l) s)
      snapEnd 0x0706 c.1 0 c.2
    | none =>
      let q : RestoredSquare := { square := i, lastc := (s.vrec k (rVtBase e + i)).lastc, committed := s.dramRead p.1 p.2.1
                                  other := (p.2.2.map (fun a => s.dramRead a p.2.1)).getD [] }
      let s := hubServed p.1 p.2.1 s
      let s := match p.2.2 with
        | some a => hubServed a p.2.1 s
        | none => s
      { s with snap := { s.snap with left := s.snap.left.erase (r, i), got := s.snap.got ++ [(r, q)] } }

/-- A write to the square waits for the engine (R336). -/
def captureWaits (s : State) (r i : Nat) : Bool :=
  s.snap.state == 2 && !s.snap.isExport && s.snap.left.contains (r, i) && (s.vrec (stackOf (rBase (s.region r))) (rVtBase (s.region r) + i)).lastc

end Sys2Proof.Machine
end

