-- ==== Sys2Proof/Machine/Elem.lean ====
section
/-!
DEFINITION. Machine/Elem.lean: the functions of the Slate that are rounded once from the exact mathematical value (R106), the
quotient of R108, and the row sum and row maximum of R107. RCP, RSQRT and the quotient are formed exactly; EXP, LOG and TANH
are formed in fixed point of 320 bits, of which the last digit only says that the value lies off the grid.
-/
namespace Sys2Proof

/-- Integer square root, digit by digit. -/
def isqrtStep : Nat → Nat → Nat → Nat
  | 0, _, r => r
  | k + 1, n, r =>
    let t := r + 2 ^ k
    if t * t ≤ n then isqrtStep k n t else isqrtStep k n r

/-- floor(√n) for n < 2^512. -/
def isqrt (n : Nat) : Nat := isqrtStep 256 n 0

/-- A magnitude with a last digit that marks an inexact tail. -/
def sticky (q : Nat) (inexact : Bool) : Nat := 2 * q + if inexact then 1 else 0

/-- The quotient x / y of finite values, y ≠ 0, rounded once to FP32. -/
def quotVal (x y : Val) : Val :=
  match x, y with
  | .fin n m e, .fin n' m' e' =>
    if m' = 0 then .nan
    else if m = 0 then .fin (n != n') 0 0
    else
      let a := m <<< 200
      .fin (n != n') (sticky (a / m') (a % m' != 0)) (e - e' - 201)
  | _, _ => .nan

/-- rne_fp32(x / l) for a row length l (R108). -/
def fdivNat (x : W32) (l : Nat) : W32 :=
  match decFp32 x with
  | .fin n m e => rne32 (quotVal (.fin n m e) (.fin false l 0))
  | v => rne32 v

/-- Division of FP32 values, exact and rounded once (R183); by zero it gives an infinity, 0 / 0 and ∞ / ∞ give NaN. -/
def fdiv (a b : W32) : W32 :=
  match decFp32 a, decFp32 b with
  | .nan, _ => nan32
  | _, .nan => nan32
  | .inf _, .inf _ => nan32
  | .inf n, .fin n' _ _ => rne32 (.inf (n != n'))
  | .fin n _ _, .inf n' => rne32 (.fin (n != n') 0 0)
  | .fin n m e, .fin n' m' e' =>
    if m' = 0 then (if m = 0 then nan32 else rne32 (.inf (n != n')))
    else rne32 (quotVal (.fin n m e) (.fin n' m' e'))

/-- The square root rounded once (R183): −0 stays −0 and negative values give NaN. -/
def fsqrt (a : W32) : W32 :=
  match decFp32 a with
  | .nan => nan32
  | .inf n => if n then nan32 else a
  | .fin n m e =>
    if m = 0 then a
    else if n then nan32
    else
      let m' := (if e % 2 = 0 then m else 2 * m) <<< 200
      let k := (if e % 2 = 0 then e else e - 1) / 2
      let r := isqrt m'
      rne32 (.fin false (sticky r (r * r != m')) (k - 101))

/-- sgn of R183. -/
def fsgn (a : W32) : W32 :=
  match decFp32 a with
  | .nan => nan32
  | .inf n => rne32 (.fin n 1 0)
  | .fin n m _ => if m = 0 then zero32 else rne32 (.fin n 1 0)

/-- RCP (R106, Table 05-3). -/
def frcp (a : W32) : W32 :=
  match decFp32 a with
  | .nan => nan32
  | .inf n => rne32 (.fin n 0 0)
  | .fin n m e => if m = 0 then rne32 (.inf n) else rne32 (quotVal (.fin false 1 0) (.fin n m e))

/-- RSQRT (R106, Table 05-3). -/
def frsqrt (a : W32) : W32 :=
  match decFp32 a with
  | .nan => nan32
  | .inf true => nan32
  | .inf false => zero32
  | .fin n m e =>
    if m = 0 then rne32 (.inf n)
    else if n then nan32
    else
      -- a = m' × 4^k with m' = m or 2m
      let m' := if e % 2 = 0 then m else 2 * m
      let k := (if e % 2 = 0 then e else e - 1) / 2
      let s := isqrt (2 ^ 400 / m')
      rne32 (.fin false (sticky s (s * s * m' != 2 ^ 400)) (-k - 201))

/-- Fraction bits of the fixed-point forms. -/
def fxBits : Nat := 320

/-- Σ z^(2i+1) / (2i+1), n terms from index i, for a power p = z^(2i+1) in fixed point (the series of atanh). -/
def atanhSum : Nat → Nat → Nat → Nat → Nat
  | 0, _, _, _ => 0
  | n + 1, i, p, z2 => p / (2 * i + 1) + atanhSum n (i + 1) ((p * z2) >>> fxBits) z2

/-- atanh of num / den in fixed point, for num / den ≤ 1/3. -/
def fxAtanh (num den : Nat) : Nat :=
  let z := (num <<< fxBits) / den
  atanhSum 110 0 z ((z * z) >>> fxBits)

/-- ln 2 = 2 atanh(1/3). -/
def fxLn2 : Nat := 2 * fxAtanh 1 3

/-- Σ r^i / i! from a term t = r^i / i! on, n terms. -/
def expSum : Nat → Nat → Nat → Nat → Nat
  | 0, _, _, _ => 0
  | n + 1, i, t, r => t + expSum n (i + 1) ((t * r / (i + 1)) >>> fxBits) r

/-- e^x for a fixed-point x (of any sign): mantissa in fixed point and power of two. -/
def fxExp (x : Int) : Nat × Int :=
  let k := x / (fxLn2 : Int)
  let r := (x % (fxLn2 : Int)).toNat
  (expSum 80 0 (2 ^ fxBits) r, k)

/-- A finite value as fixed point (exact: no FP32 value has a finer bit than 2^−149). -/
def toFx (neg : Bool) (m : Nat) (e : Int) : Int :=
  let a := ((m <<< (e + fxBits).toNat : Nat) : Int)
  if neg then -a else a

/-- |x| ≥ 2^8: past every input whose EXP or TANH is not already at its limit. -/
def isHuge (m : Nat) (e : Int) : Bool := m != 0 && decide (8 ≤ floorLog2 m e)

/-- EXP (R106, Table 05-3). -/
def fexp (a : W32) : W32 :=
  match decFp32 a with
  | .nan => nan32
  | .inf n => if n then zero32 else rne32 (.inf false)
  | .fin n m e =>
    if m = 0 then rne32 (.fin false 1 0)
    else if isHuge m e then (if n then zero32 else rne32 (.inf false))
    else
      let r := fxExp (toFx n m e)
      rne32 (.fin false (sticky r.1 true) (r.2 - fxBits - 1))

/-- LOG (R106, Table 05-3). -/
def flog (a : W32) : W32 :=
  match decFp32 a with
  | .nan => nan32
  | .inf n => if n then nan32 else rne32 (.inf false)
  | .fin n m e =>
    if m = 0 then rne32 (.inf true)
    else if n then nan32
    else
      -- a = f × 2^k with f = m / 2^b in [1, 2)
      let b := Nat.log2 m
      let k := (b : Int) + e
      if m = 2 ^ b && k = 0 then zero32
      else
        let l : Int := k * (fxLn2 : Int) + (2 * fxAtanh (m - 2 ^ b) (m + 2 ^ b) : Nat)
        rne32 (.fin (decide (l < 0)) (sticky l.natAbs true) (-(fxBits : Int) - 1))

/-- TANH (R106, Table 05-3). -/
def ftanh (a : W32) : W32 :=
  match decFp32 a with
  | .nan => nan32
  | .inf n => rne32 (.fin n 1 0)
  | .fin n m e =>
    if m = 0 then a
    else if isHuge m e then rne32 (.fin n 1 0)
    else
      let r := fxExp (2 * toFx false m e)
      let y := r.1 <<< r.2.toNat
      let one := 2 ^ fxBits
      rne32 (.fin n (sticky (((y - one) <<< fxBits) / (y + one)) true) (-(fxBits : Int) - 1))

/-- The 512 partial sums of R107 after the elements `v`, whose first goes to position i. -/
def rsumLanes : List W32 → Nat → List W32 → List W32
  | [], _, p => p
  | x :: xs, i, p => rsumLanes xs (i + 1) (p.modify (i % 512) (fun y => fadd y x))

/-- One level of the pairwise tree of R107. -/
def pairSums : List W32 → List W32
  | a :: b :: r => fadd a b :: pairSums r
  | r => r

def rsumTree : Nat → List W32 → W32
  | 0, p => p.headD zero32
  | k + 1, p => rsumTree k (pairSums p)

/-- rsum() of R107. -/
def rsum (v : List W32) : W32 := rsumTree 9 (rsumLanes v 0 (List.replicate 512 zero32))

/-- RMAX of R107: the largest element by the rules of R105. -/
def rmax : List W32 → W32
  | [] => nan32
  | x :: xs => xs.foldl fmax x

end Sys2Proof
end

