-- ==== Sys2Proof/Machine/Reckoner.lean ====
section
/-!
DEFINITION. Machine/Reckoner.lean: step records, update commands and their checks, the recurrence, and the writing of the next plane
(R172, R176 to R193).
-/
namespace Sys2Proof.Machine

/-! ### Update commands (R176, R189 to R192) -/

/-- The step record armed for a domain: tag, or 0. -/
def armedTag (x : Dom) : Nat :=
  match x.armed with
  | some r => bitsOf r.toNat 31 0
  | none => 0

/-- The update fault flag is set; the first code of the step is kept. -/
def setUpdFault (d code : Nat) (s : State) : State :=
  s.modDom d (fun x => { x with updFault := true, updFaultCode := if x.updFault then x.updFaultCode else code })

def raiseUpd (k : Nat) (u : Upd) (code expected : Nat) (s : State) : State :=
  let g := s.pgroup u.group
  let d := if pgUsed g then some (pgDomain g) else none
  let s := s.raise (updFlt k u code expected (if pgUsed g then pgSlot g else 0) (if pgUsed g then pgLayer g else 0) d)
  match d with
  | some d => setUpdFault d code s
  | none => s

/-- A command is disposed of: it counts for the open step if it carries its tag (R192). -/
def disposeUpd (k d : Nat) (u : Upd) (s : State) : State :=
  let s := updAck u s
  let r := s.dreg k d
  if r.isOpen && r.openTag == u.tag then
    checkUpdates k d (s.modStack k (fun x => { x with disposed := tset x.disposed d (tget x.disposed d 0 + 1) }))
  else s

/-- A command is dropped. -/
def dropUpd (k d : Nat) (u : Upd) (s : State) : State := disposeUpd k d u (countDrop k s)

/-- The square's record shows a write of this step, or a command for it waits already (Table 08-8). While the settle walk of the step
before goes on, a dirty record is that step's (R168; DEDUCED, log entry 24). -/
def duplicate (s : State) (k : Nat) (n : BitVec 128) (u : Upd) : Bool :=
  let v := s.vrec k (rVtBase (s.region (nRegion n)) + runSquare n u.q)
  (v.dirty && v.tag8 == u.tag % 256 && !(s.dreg k (pgDomain (s.pgroup u.group))).settling) || (s.stack k).queue.any (fun w => w.group == u.group && w.q == u.q)

/-- The checks of Table 08-8, R179 and R191, in this order: run, frozen group, step, flag, record, mode, square. -/
def takeUpd (k : Nat) (u : Upd) (s : State) : State :=
  let g := s.pgroup u.group
  let d := pgDomain g
  match (if s.dev.jobState == .loaded || s.dev.jobState == .running then findRun s k u.group u.q else none) with
  | none =>
    let x := s.dom d
    let s := raiseUpd k u 0x0402 (if pgUsed g && (s.dreg k d).isOpen then x.openTag else 0) (s.bump .regionFaults k)
    if pgUsed g && !x.frozen.contains u.group then dropUpd k d u s else updAck u (countDrop k s)
  | some n =>
    let x := s.dom d
    let r := s.dreg k d
    if x.frozen.contains u.group then
      let s := s.bump .frozenDrops d
      let s := if x.strict then raiseUpd k u 0x0503 (armedTag x) s else s
      updAck u (countDrop k s)
    else if !r.isOpen || r.openTag != u.tag then dropUpd k d u (raiseUpd k u 0x0501 (if r.isOpen then r.openTag else 0) s)
    else if x.updFault then dropUpd k d u s
    else if armedTag x < u.tag then
      let s := (s.bump .updateParked d).modStack k (fun y => { y with park := y.park ++ [{ u with since := s.time }] })
      (countBlock (0x520 + 3 * k + 1) 1 s).maxReg .rkParkMax (s.stack k).park.length k
    else if u.tag < armedTag x then dropUpd k d u (raiseUpd k u 0x0501 (armedTag x) s)
    else if u.mode != modeInput ((s.slotWords (pgSlot g)).getD 16 0#32).toNat then dropUpd k d u (raiseUpd k u 0x0504 (armedTag x) s)
    else if duplicate s k n u then dropUpd k d u (raiseUpd k u 0x0505 (armedTag x) s)
    else s.modStack k (fun y => { y with queue := y.queue ++ [u] })

/-- Commands that the network held while the park buffer was full go on (R190). -/
def drainInq (k : Nat) : Nat → State → State
  | 0, s => s
  | n + 1, s =>
    match (s.stack k).inq with
    | [] => s
    | u :: us =>
      if 32 ≤ (s.stack k).park.length then s
      else drainInq k n (takeUpd k u (takenCmd u (s.modStack k (fun x => { x with inq := us }))))

/-- The header of an update command (Table 08-1), and its payload. -/
def updOf (p : Pkt) : Nat × Upd :=
  let h := leAt p.payload 0 16
  (h, { tag := bitsOf h 127 96, group := bitsOf h 95 84, q := bitsOf h 83 62, mode := testBit h 57, voteW := testBit h 56
        payload := p.payload.drop 64, reply := some (p.src, p.dest, p.txn) })

def execUpdateCmd (k : StackNo) (pkt : Pkt) (s : State) : Host.Outcome State Fault Refusal :=
  let h := updOf pkt
  let st := bitsOf h.1 61 58
  if st < 12 && st != k.val then .next s
  else
    .next (deliver 0x07 pkt (fun _ s =>
      if bitsOf h.1 55 0 != 0 then rejectPkt pkt 0x0606 (takenCmd h.2 s)
      else if !s.stackOk st then takeUpd st h.2 (takenCmd h.2 s)
      else if 32 ≤ (s.stack st).park.length || !(s.stack st).inq.isEmpty then
        s.modStack st (fun x => { x with inq := x.inq ++ [h.2] })
      else takeUpd st h.2 (takenCmd h.2 s)) s)

/-- A parked command belongs to a domain. -/
def updDomain (s : State) (u : Upd) : Nat := pgDomain (s.pgroup u.group)

/-- The hold has lasted 1 ms without the record: the parked commands of the domain are dropped (R190). -/
def execNoStepRecord (k : StackNo) (d : DomainNo) (s : State) : Host.Outcome State Fault Refusal :=
  let k := k.val
  let d := d.val
  let mine := (s.stack k).park.filter (fun u => updDomain s u == d)
  match mine with
  | [] => .next s
  | u :: _ =>
    let s := s.modStack k (fun x => { x with park := x.park.filter (fun u => updDomain s u != d) })
    let s := raiseUpd k u 0x0502 (armedTag (s.dom d)) s
    .next (drainInq k 4096 (forEach mine (fun u s => dropUpd k d u s) s))

/-! ### Step records (R187, R188) -/

/-- The parked commands of a step whose record has arrived run in arrival order. -/
def releaseParked (d : Nat) (s : State) : State :=
  let r := armedTag (s.dom d)
  forEach s.stacksOk (fun k s =>
    let go := (s.stack k).park.filter (fun u => updDomain s u == d && decide (u.tag ≤ r))
    let s := s.modStack k (fun x => { x with park := x.park.filter (fun u => !(updDomain s u == d && decide (u.tag ≤ r))) })
    drainInq k 4096 (forEach go (fun u s => takeUpd k u s) s)) s

/-- The rule of STEP_RECORD. -/
def stepRecord (d : Nat) : Rule := fun bs s =>
  let v := leNat bs
  let t := bitsOf v 31 0
  let x := s.dom d
  let fin := fun (hi lo : Nat) => isFin32 (BitVec.ofNat 32 (bitsOf v hi lo))
  if bs.length != 16 then (stLength, s)
  else if (s.dev.jobState == .loaded || s.dev.jobState == .running) && x.used && fin 63 32 && fin 95 64 && fin 127 96
      && decide (x.committedTag < t) && (!x.isOpen || (x.openTag == t && armedTag x != t)) then
    (stOk, releaseParked d (s.modDom d (fun x => { x with armed := some (BitVec.ofNat 128 v), armTime := s.now })))
  else (stRefused, s)

def execStepRecord (via : Via) (d : DomainNo) (data : List Byte) (s : State) : Host.Outcome State Fault Refusal :=
  .next (viaWrite via .stepRecord (0x2200 + d.val) data (stepRecord d.val) s)

/-! ### The recurrence (R182, R183) -/

/-- What one element takes: the twelve coefficients, the mode word, and the step record. -/
structure RuleIn where
  c : List W32
  mode : Nat
  eta : W32
  k1 : W32
  k2 : W32
  deriving DecidableEq, Repr

def RuleIn.coef (r : RuleIn) (i : Nat) : Val := decFp32 (r.c.getD i zero32)

/-- x of one element: value mode, or the sign of a count, whose reserved code gives NaN (R177). The flag says that g is infinite. -/
def inputX (r : RuleIn) (u : Upd) (e : Nat) : W32 × Bool :=
  if u.mode then
    let w := if u.voteW then 2 else 1
    let v := leAt u.payload (w * e) w
    let half := 2 ^ (8 * w - 1)
    (if v = half then nan32 else if v = 0 then zero32 else rne32 (.fin (decide (half < v)) 1 0), false)
  else
    let g := BitVec.ofNat 32 (leAt u.payload (4 * e) 4)
    (rne32 ((r.coef 11).mul (decFp32 g)), isInf32 g)

/-- The results of one element: s1', s2', f, w', and their watch codes. -/
structure RuleOut where
  s1 : W32
  s2 : W32
  f : W32
  w : W32
  codes : List Nat
  deriving DecidableEq, Repr

/-- The recurrence for one element. Infinite inputs of f are those of s1, x, s1' and s2', of w' those of w and f (R48; DEDUCED, log
entry 24). -/
def recurrence (r : RuleIn) (w s1 s2 x : W32) (gInf : Bool) : RuleOut :=
  let X := decFp32 x
  let S1 := decFp32 s1
  let s1n := if modeUsesS1 r.mode then rne32 (((r.coef 0).mul S1).add ((r.coef 1).mul X)) else zero32
  let raw := if modeUsesS2 r.mode then rne32 (((r.coef 2).mul (decFp32 s2)).add (((r.coef 3).mul X).mul X)) else zero32
  let neg := (decFp32 raw).lt (.fin false 0 0)
  let s2n := if neg then zero32 else raw
  let t := rne32 ((((r.coef 4).mul S1).add ((r.coef 5).mul X)).add ((r.coef 6).mul (decFp32 s1n)))
  let u := fmul r.k1 t
  let f0 :=
    match r.mode % 4 with
    | 0 => rne32 (decFp32 u)
    | 1 => fsgn u
    | _ => fdiv u (rne32 ((decFp32 (fsqrt (fmul r.k2 s2n))).add (r.coef 7)))
  let clip := r.c.getD 8 zero32
  let f := if testBit r.mode 2 then fmin (fmax f0 (rne32 (decFp32 clip).neg)) clip else f0
  let e := rne32 ((decFp32 r.eta).mul (r.coef 10))
  let d := rne32 ((decFp32 f).add ((r.coef 9).mul (decFp32 w)))
  let wn := rne32 ((decFp32 w).add ((decFp32 e).mul (decFp32 d)).neg)
  let inf1 := isInf32 s1 || isInf32 x
  let inf2 := isInf32 s2 || isInf32 x
  { s1 := s1n, s2 := s2n, f := f, w := wn
    codes := [watchCode X gInf, watchCode (decFp32 s1n) inf1, if neg then 4 else watchCode (decFp32 s2n) inf2,
              watchCode (decFp32 f) (inf1 || isInf32 s1n || isInf32 s2n), watchCode (decFp32 wn) (isInf32 w || isInf32 f)] }

/-- The row-major element index of element k of block b (R176). -/
def elemIndex (b k : Nat) : Nat := 64 * (8 * (b / 8) + k / 8) + 8 * (b % 8) + k % 8

/-! ### The next plane (R172, R184, R185) -/

/-- A component widened: the value, and whether widening overflowed (R38). -/
def widened (f : Fmt) (sq : List Byte) (b k : Nat) : W32 × Bool :=
  let v := decElem f (sqExp f sq b) (sqCode f sq b k)
  let w := rne32 v
  (w, v.isFin && isInf32 w)

/-- The new components of a square, in COMP order, and the watch codes of widening and of results. -/
def newSquare (s : State) (u : Upd) (r : RuleIn) (old : Nat → List Byte) (has : Nat → Bool) : List (Nat × List Byte) × List Nat × List Nat :=
  let key := fun (use : Nat) => some (streamKey s.job.seed u.tag (0x40 + use) u.group u.q)
  let use1 := modeUsesS1 r.mode
  let use2 := modeUsesS2 r.mode
  let o0 := old 0
  let o1 := old 1
  let o2 := old 2
  let blocks := (List.range 64).map (fun b =>
    let es := (List.range 64).map (fun k =>
      let w := widened .m24 o0 b k
      let s1 := if use1 then widened .s16s o1 b k else (zero32, false)
      let s2 := if use2 then widened .s16u o2 b k else (zero32, false)
      let x := inputX r u (elemIndex b k)
      (recurrence r w.1 s1.1 s2.1 x.1 x.2, [w.2, s1.2, s2.2].map (fun o => if o then 1 else 0)))
    let el := fun k => elemIndex b k
    let ws := es.map (fun e => e.1.w)
    (es, encBlock .m24 (key 0) el ws, encBlock .s16s (key 1) el (es.map (fun e => e.1.s1)),
      encBlock .s16u (key 2) el (es.map (fun e => e.1.s2)), encBlock .f8 (key 3) el ws))
  let nan := fun (bk : Block) => List.replicate 64 (if bk.exp = 0xFF then 3 else 0)
  let codes := blocks.flatMap (fun b => b.1.flatMap (fun e => e.1.codes) ++ nan b.2.1 ++ (if use1 then nan b.2.2.1 else [])
    ++ (if use2 then nan b.2.2.2.1 else []) ++ nan b.2.2.2.2)
  let f8 := blocks.map (fun b => b.2.2.2.2)
  let comps := [(0, squareOf .m24 (blocks.map (fun b => b.2.1))),
    (1, if use1 then squareOf .s16s (blocks.map (fun b => b.2.2.1)) else o1),
    (2, if use2 then squareOf .s16u (blocks.map (fun b => b.2.2.2.1)) else o2),
    (3, squareOf .f8 f8), (4, squareOf .f8 (turnBlocks f8))].filter (fun c => has c.1)
  (comps, blocks.flatMap (fun b => b.1.flatMap (fun e => e.2)), codes)

/-- The 32-bit words in which two byte lists of one length differ (R342). -/
def wordDiff (a b : List Byte) : Nat :=
  ((List.range (ceilDiv a.length 4)).filter (fun i => (a.drop (4 * i)).take 4 != (b.drop (4 * i)).take 4)).length

/-- Bytes of a component. -/
def compBytes (c : Nat) : Nat := 64 * compLines c

/-- The components of a square are written into plane p, in ascending COMP order; a replay counts the words that differ (R342). -/
def writeSquare (d : Nat) (e : BitVec 128) (i : Nat) (p : Bool) (comps : List (Nat × List Byte)) (s : State) : State :=
  let base := planeAddr e i (if p then 1 else 0)
  forEach comps (fun c s =>
    match compOffset e c.1 with
    | none => s
    | some o =>
      let n := if (s.dom d).replay.isSome then wordDiff (s.dramRead (base + o) (compBytes c.1)) c.2 else 0
      ({ s with snap := { s.snap with replayDiff := s.snap.replayDiff + n } } : State).stackWrite (base + o) c.2) s

/-- The physical Board with a logical number on this module. -/
def State.physicalOf (s : State) (l : Nat) : Option Nat := (s.job.logical.find? (fun e => e.2 == l)).map (·.1)

/-- The watch point of a Reckoner's results (R54, R183). -/
def rkWatch (s : State) (n : BitVec 128) (g : W64) (site : Nat) : WatchAt :=
  { board := (s.physicalOf (nOwner n)).getD 255, domain := pgDomain g, layer := pgLayer g, mb := 0xFFFF, tensor := pgTensor g
    slot := pgWatch g, cls := 3, site := site, owner := some (nOwner n) }

/-- VT_FAULT or an uncorrectable line at the Reckoner: nothing is written, and the domain is LOST (R167, R172). -/
def rkLost (code k dpa d : Nat) (u : Upd) (s : State) : State :=
  let f := ueFlt code none dpa 2 (some d) s
  let s := if code = 0x0401 then noteUe dpa f.2 else f.2
  disposeUpd k d u (setLost d (s.raise f.1))

/-- A command's square is computed and written under the write rule. A run that reaches beyond the SQUARES of its region names no square there:
nothing is read or written (R164, R171). -/
def updateSquare (k : Nat) (u : Upd) (n : BitVec 128) (s : State) : State :=
  let g := s.pgroup u.group
  let d := pgDomain g
  let e := s.region (nRegion n)
  let i := runSquare n u.q
  let vi := rVtBase e + i
  let v := s.vrec k vi
  let reg := s.dreg k d
  let has := fun (c : Nat) => testBit (rComp e) c
  let cp := committedPlane v reg
  let base := planeAddr e i (if cp then 1 else 0)
  let place := fun (c : Nat) => base + (compOffset e c).getD 0
  if rSquares e ≤ i then
    dropUpd k d u (raiseUpd k u 0x0402 (armedTag (s.dom d)) (s.bump .regionFaults k))
  else match ([0, 1, 2].filter has).findSome? (fun c => s.badLine (place c) (compBytes c)) with
  | some l => rkLost 0x0401 k (64 * l) d u s
  | none =>
    if s.vrecBad k vi then rkLost 0x0401 k (planeAddr e i 0) d u s
    else if v.dirty && v.tag8 != u.tag % 256 then rkLost 0x0403 k (planeAddr e i 0) d u s
    else if v.dirty then dropUpd k d u (raiseUpd k u 0x0505 (armedTag (s.dom d)) s)
    else
      let w := s.slotWords (pgSlot g)
      let rec_ := ((s.dom d).armed.getD 0#128).toNat
      let word := fun (hi lo : Nat) => BitVec.ofNat 32 (bitsOf rec_ hi lo)
      let r : RuleIn := { c := w, mode := (w.getD 16 0#32).toNat, eta := word 63 32, k1 := word 95 64, k2 := word 127 96 }
      let out := newSquare s u r (fun c => s.dramRead (place c) (compBytes c)) has
      let s := forEach ([0, 1, 2].filter has) (fun c s => stackServed (place c) (compBytes c) s) s
      let s := watchCount (rkWatch s n g 5) out.2.2 (watchCount (rkWatch s n g 6) out.2.1 s)
      let s := s.setVrec k vi { v with p := !v.p, dirty := true, tag8 := u.tag % 256, was := v.tag8 }
      let s := if v.lastc then s.modDom d (fun x => { x with preIntact := false, preDirty := true }) else s
      let s := writeSquare d e i (!v.p) out.1 s
      disposeUpd k d u ((countBlock (0x520 + 3 * k) 64 (((s.bump .updatesApplied d).bump .rkSquares k).bumpBy .rkBusyCycles 64 k)))

/-- The first accepted command whose domain is not settling (R172) is processed, unless the stack's accesses are held for a test. One whose
square a capture has still to read waits, and the engine takes that square first (R336). -/
def execSquareUpdate (k : StackNo) (s : State) : Host.Outcome State Fault Refusal :=
  let k := k.val
  if !s.stackOk k || !s.powered || s.underTest k then .next s
  else
    match (s.stack k).queue.find? (fun u => !(s.dreg k (updDomain s u)).settling) with
    | none => .next s
    | some u =>
      let taken := s.modStack k (fun x => { x with queue := x.queue.erase u })
      match findRun s k u.group u.q with
      | some n =>
        if captureWaits s (nRegion n) (runSquare n u.q) then .next (captureOne (nRegion n) (runSquare n u.q) s)
        else .next (updateSquare k u n taken)
      | none => .next (updAck u taken)

/-- UPDATE_WAIT has passed since every Board's STEP_DONE, and the stack has not reported done (R193). -/
def execUpdateMissing (d : DomainNo) (k : StackNo) (s : State) : Host.Outcome State Fault Refusal :=
  let d := d.val
  let k := k.val
  let x := s.dom d
  if (x.phase == .open) && x.exch.state == 0 && x.boardsDone == x.boards && !testBit x.stacksDone k && s.stackOk k && !x.missingRaised
      && !schedulerBusy s then
    let s := s.raise { code := 0x0506, kind := 11, unit := d, domain := some d
                       detail := packAt [(0, 1, k), (4, 4, tget (s.stack k).disposed d 0)] }
    .next ((setUpdFault d 0x0506 s).modDom d (fun x => { x with missingRaised := true }))
  else .next s

end Sys2Proof.Machine
end

