-- ==== Sys2Proof/Machine/Reduce.lean ====
section
/-!
DEFINITION. Machine/Reduce.lean: reductions in value mode around a ring, whole or in parts, and in vote mode up a tree (R96, R144, R231
to R237).
-/
namespace Sys2Proof.Machine

/-! ### The parts of a ring (R233, R234) -/

/-- Members, position of an address, and members of each part; parts are 1, 2, 4 or 8. -/
def ringParts (e : BitVec 192) : Nat := 2 ^ gParts e
def partLen (e : BitVec 192) : Nat := gMembers e / ringParts e
def posOf (ms : List Nat) (a : Nat) : Option Nat := ms.findIdx? (· == a)

/-- The last member of each part. -/
def partEnds (e : BitVec 192) : List Nat := (List.range (ringParts e)).map (fun j => j * partLen e + partLen e - 1)

/-- The reduce receive buffers that the member at position x grants, as (position, buffers) (R235). -/
def grantsOf (e : BitVec 192) (x : Nat) : List (Nat × Nat) :=
  let n := gMembers e
  let P := ringParts e
  let all := if P = 1 then [((x + n - 1) % max 1 n, 16)]
    else if x % max 1 (partLen e) = 0 then (partEnds e).map (fun j => (j, 16 / P))
    else (x - 1, 8) :: (partEnds e).map (fun j => (j, 8 / P))
  all.filter (fun g => g.1 != x && g.2 != 0)

/-- What a REDUCE of group g under epoch ep grants from this Board: (member, epoch, buffers). -/
def grantsUnder (s : State) (b g ep : Nat) : List (Nat × Nat × Nat) :=
  let e := s.grp g
  let ms := s.membersOf e
  match posOf ms (s.addrOf b) with
  | none => []
  | some x => (grantsOf e x).map (fun r => (ms.getD r.1 0xFFFF, ep, r.2))

/-- Buffers granted to a member under an epoch. -/
def grantedTo (l : List (Nat × Nat × Nat)) (m ep : Nat) : Nat :=
  ((l.filter (fun h => h.1 == m && h.2.1 == ep)).map (·.2.2)).foldl (· + ·) 0

/-- The buffers of a group are granted under the epoch of the REDUCE that is issued, as far as the Board's 16 are free; what a member
holds already stays with it, until a squash of its epoch (R235; DESIGN CHOICE, log entry 25). -/
def grantBuffers (b g ep : Nat) (s : State) : State :=
  let s := s.modBoard b (fun y => { y with hopShut := y.hopShut.filter (· != ep) })
  forEach (grantsUnder s b g ep) (fun r s =>
    let l := (s.board b).granted
    let free := 16 - (l.map (·.2.2)).foldl (· + ·) 0
    let n := min free (r.2.2 - grantedTo l r.1 ep)
    if n = 0 then s
    else sendSemSignal b r.1 0 n 1 ep g (gEpoch (s.grp g)) (s.modBoard b (fun y => { y with granted := y.granted ++ [(r.1, ep, n)] }))) s

/-! ### The job at the head of the reduce queue -/

def Board.setRJob (x : Board) (j : RJob) : Board := { x with rjobs := x.rjobs.map (fun r => if r.id = j.id then j else r) }

/-- The slices of a job are folded. -/
def RJob.fold (j : RJob) (x : Board) : Bool := (x.slice j.first).fold

/-- The slices that square σ lies in (R232). -/
def squareSlices (fold : Bool) (σ : Nat) : List Nat := if fold then [σ / 2] else [2 * (σ / 4), 2 * (σ / 4) + 1]

/-- The member's own values of square σ, in forward order (R232). -/
def squareValues (fold : Bool) (σ : Nat) (held : List (Nat × List W32)) : List W32 :=
  let sl := fun (k : Nat) => (held.lookup k).getD []
  if fold then ((sl (σ / 2)).drop (4096 * (σ % 2))).take 4096
  else
    let l := (sl (2 * (σ / 4))).drop (2048 * (σ % 4))
    let r := (sl (2 * (σ / 4) + 1)).drop (2048 * (σ % 4))
    (List.range 64).flatMap (fun i => (l.drop (32 * i)).take 32 ++ (r.drop (32 * i)).take 32)

/-- One past the last square of a job. -/
def RJob.endSquare (j : RJob) : Nat := 2 * (j.first + j.count)

/-- The values of the square being worked on, once its slices have been read out. -/
def RJob.values (j : RJob) (x : Board) : Option (List W32) :=
  if j.sigma < j.endSquare && (squareSlices (j.fold x) j.sigma).all (fun k => decide (k < j.first + j.read)) then
    some (squareValues (j.fold x) j.sigma j.held)
  else none

/-- A REDUCE whose entry names no square or a stranger, or that met a wrong hop (R232, R233). -/
def reduceMap (b : Nat) (j : RJob) (s : State) : State :=
  errorHalt b j.work 0x0209 (s.modBoard b (fun x => x.setRJob { j with stuck := true }))

/-- Entry RMAP_BASE + σ of a Board: outside its map, unreadable, or the square (R232). -/
inductive MapAt where
  | outside
  | bad (dpa : Nat)
  | square (owner stack pgroup q : Nat)
  deriving DecidableEq, Repr

def mapAt (s : State) (b g σ : Nat) : MapAt :=
  let n := gRmapBase (s.grp g) + σ
  if (s.board b).mapCount ≤ n then .outside
  else match shardEntry s b n with
    | none => .bad ((s.board b).mapDpa + 8 * n)
    | some m => .square m.1 m.2.1 m.2.2.1 m.2.2.2

/-- An uncorrectable line of the shard map (R167). -/
def mapUe (b : Nat) (j : RJob) (dpa : Nat) (s : State) : State :=
  let f := ueFlt 0x0401 none dpa 1 (some j.work.domain) (s.modBoard b (fun x => x.setRJob { j with stuck := true }))
  haltWork b j.work f.1 (noteUe dpa f.2)

/-! ### Arithmetic of a hop (R233, R234) -/

/-- The format of a value-mode wire. -/
def wireFmt (wire : Nat) : Fmt := if wire = 0 then .g8 else .bf16

/-- A square of FP32 values in forward order, quantised for the wire: its bytes and the watch codes of its elements. -/
def quantSquare (s : State) (wire tag g q σ : Nat) (z : List W32) : List Byte × List Nat :=
  let f := wireFmt wire
  let key := some (streamKey s.job.seed tag 0x30 g q)
  let bs := (List.range 64).map (fun b =>
    let es := (List.range 64).map (fun k => z.getD (elemIndex b k) zero32)
    (es, encBlock f key (fun k => 4096 * σ + elemIndex b k) es))
  (squareOf f (bs.map (·.2)),
   bs.flatMap (fun b => (b.1.zip b.2.codes).map (fun e => watchCode (decElem f b.2.exp e.2) (isInf32 e.1))))

/-- A square of the wire widened, in forward order; the flag is an overflow of the widening (R38). -/
def dequantSquare (wire : Nat) (sq : List Byte) : List (W32 × Bool) :=
  let f := wireFmt wire
  (List.range 4096).map (fun e =>
    let v := sqVal f sq (e / 64) (e % 64)
    (rne32 v, v.isFin && isInf32 (rne32 v)))

/-- Sums of two lists, one rounding each, with their watch codes. -/
def sumSquare (a v : List W32) : List W32 × List Nat :=
  let r := a.zip v
  (r.map (fun e => fadd e.1 e.2), r.map (fun e => watchCode (decFp32 (fadd e.1 e.2)) (isInf32 e.1 || isInf32 e.2)))

/-- The watch point of a hop (R49, R54). -/
def hopWatch (s : State) (b pg site : Nat) : WatchAt :=
  let g := s.pgroup pg
  { board := b, domain := pgDomain g, layer := pgLayer g, mb := 0xFFFF, tensor := pgTensor g, slot := pgWatch g, cls := 2, site := site }

/-- A hop's values are added to others. -/
def addHop (b pg wire : Nat) (data : List Byte) (v : List W32) (s : State) : List W32 × State :=
  let d := dequantSquare wire data
  let r := sumSquare (d.map (·.1)) v
  (r.1, watchCount (hopWatch s b pg 4) r.2 (watchCount (hopWatch s b pg 6) (d.map (fun e => if e.2 then 1 else 0)) s))

/-! ### Working through the squares -/

/-- The square is finished at this member; the next one begins. -/
def nextSquare (b : Nat) (j : RJob) (s : State) : State :=
  let σ := j.sigma + 1
  let keep := (if j.fold (s.board b) then σ / 2 else 2 * (σ / 4))
  s.modBoard b (fun x => x.setRJob { j with sigma := σ, sum := none, sent := false, part := 0, acc := []
                                            held := j.held.filter (fun h => decide (keep ≤ h.1)) })

/-- A reduction is over: DONE_SEM (R235). -/
def endReduce (b : Nat) (j : RJob) (s : State) : State :=
  let s := s.modBoard b (fun x => { x with rjobs := x.rjobs.filter (fun r => r.id != j.id) })
  settleWork b (signalSem b j.sem 1 s)

/-- UPDATE_CMD to the stack of the square's owner (Table 08-1). -/
def sendUpdate (b owner stack tag pg q : Nat) (mode voteW : Bool) (payload : List Byte) (s : State) : State :=
  let h := tag * 2 ^ 96 + pg * 2 ^ 84 + q * 2 ^ 62 + stack * 2 ^ 58 + (if mode then 2 ^ 57 else 0) + (if voteW then 2 ^ 56 else 0)
  let pl := padTo 64 (leBytes 16 h) ++ payload
  let t := newTxn (.update b) s
  t.2.send { dest := owner, src := s.addrOf b, opcode := 0x07, flits := flitsFor pl.length, lines := ceilDiv pl.length 64
             txn := t.1, payload := pl }

/-- The owner delivers a square's sum. -/
def deliverSum (b : Nat) (j : RJob) (stack pg q : Nat) (g : List W32) (s : State) : State :=
  nextSquare b j (sendUpdate b (s.addrOf b) stack j.work.tag pg q false false (g.flatMap (fun w => leBytes 4 w.toNat)) s)

/-- The oldest hop held for a square with a given HOP field. -/
def Board.hopFor (x : Board) (j : RJob) (h : Nat) : Option RHop :=
  x.hops.find? (fun k => k.sigma == j.sigma && (hdrOf k.pkt.payload).group == j.group && (hdrOf k.pkt.payload).hop == h)

/-- A hop has been added: its buffer is free, its sender gets the credit back, and the hop is acknowledged (R235, R379). A part that the
owner kept for itself took no buffer. -/
def hopAdded (b : Nat) (k : RHop) (s : State) : State :=
  let h := hdrOf k.pkt.payload
  let s := s.modBoard b (fun x => { x with hops := x.hops.erase k })
  if k.pkt.src = s.addrOf b then s
  else sendSemSignal b k.pkt.src 0 1 1 k.epoch h.group h.gepoch (answer k.pkt 0x82 [] s)

/-- A hop does not match: another square, or another wire format, which is answered with ERR (R232, R233). -/
def hopWrong (b : Nat) (j : RJob) (k : RHop) (wire : Bool) (s : State) : State :=
  let s := s.modBoard b (fun x => { x with hops := x.hops.erase k })
  reduceMap b j (if wire then sendErr k.pkt 0x0209 s else s)

/-- What one member does next for its square. -/
inductive Hop where
  /-- It waits: for its slices, for a hop, or for a credit. -/
  | wait
  /-- It starts a chain. -/
  | start
  /-- It adds the hop with this HOP field to its own values. -/
  | add (h : Nat)
  /-- As the owner of a split sum, it adds the next part, with this HOP field. -/
  | addPart (h : Nat)
  /-- As the owner, it delivers. -/
  | deliver
  /-- It keeps its part sum for itself. -/
  | keep
  /-- It has nothing more to do for the square. -/
  | done
  deriving DecidableEq, Repr

/-- The order of R233 (one part) and R234, at position x of n with the owner at position o. -/
def nextHop (e : BitVec 192) (x o : Nat) (j : RJob) : Hop :=
  let n := gMembers e
  let P := ringParts e
  if P = 1 then
    let rel := (x + n - o) % max 1 n
    if j.sent then .done
    else if j.sum.isSome then (if rel = 0 then .deliver else .wait)
    else if n = 1 || rel = 1 then .start
    else .add ((rel + n - 2) % n)
  else
    let m := partLen e
    if j.sum.isNone then (if x % max 1 m = 0 then .start else .add (x - 1))
    else if !j.sent then (if x = o && x % max 1 m = m - 1 then .keep else .wait)
    else if x != o then .done
    else if j.part < P then .addPart (j.part * m + m - 1)
    else .deliver

/-- Where a member sends its sum, and the HOP field and q of its key (R233, R234). -/
def hopTarget (e : BitVec 192) (x o : Nat) : Nat × Nat :=
  let n := gMembers e
  if ringParts e = 1 then ((x + 1) % max 1 n, (x + 2 * n - o - 1) % max 1 n)
  else (if x % max 1 (partLen e) + 1 = partLen e then o else x + 1, x)

/-- A square's packet as this member sends it. -/
def hopPkt (s : State) (b : Nat) (j : RJob) (dest hop pg q stack ep txn : Nat) (data : List Byte) : Pkt :=
  let pl := hdrBytes { tag := j.work.tag, group := j.group, gepoch := gEpoch (s.grp j.group), pgroup := pg, q := q, stack := stack
                       hop := hop, wire := j.wire, epoch := ep, sigma := j.sigma } ++ data
  { dest := dest, src := s.addrOf b, opcode := 0x05, flits := flitsFor pl.length, lines := ceilDiv pl.length 64, txn := txn, payload := pl }

/-- A hop is added, or found wrong. -/
def takeHop (b pg q : Nat) (j : RJob) (k : RHop) (v : List W32) (f : List W32 → RJob) (s : State) : State × Bool :=
  let h := hdrOf k.pkt.payload
  if h.wire != j.wire then (hopWrong b j k true s, false)
  else if h.pgroup != pg || h.q != q then (hopWrong b j k false s, false)
  else
    let r := addHop b pg j.wire (k.pkt.payload.drop 64) v s
    (hopAdded b k (r.2.modBoard b (fun x => x.setRJob (f r.1))), true)

/-- One action of the member for its square, or none. -/
def hopAct (b : Nat) (j : RJob) (v : List W32) (s : State) : State × Bool :=
  let e := s.grp j.group
  let ms := s.membersOf e
  match mapAt s b j.group j.sigma with
  | .outside => (reduceMap b j s, false)
  | .bad a => (mapUe b j a s, false)
  | .square owner stack pg q =>
    match posOf ms owner, posOf ms (s.addrOf b) with
    | some o, some x =>
      let put := fun (j : RJob) => s.modBoard b (fun y => y.setRJob j)
      (match nextHop e x o j with
      | .wait => (s, false)
      | .start => (put { j with sum := some v }, true)
      | .add h =>
        (match (s.board b).hopFor j h with
        | some k => takeHop b pg q j k v (fun z => { j with sum := some z }) s
        | none => (s, false))
      | .addPart h =>
        (match (s.board b).hopFor j h with
        | some k =>
          let acc := if j.part = 0 then List.replicate 4096 zero32 else j.acc
          takeHop b pg q j k acc (fun z => { j with part := j.part + 1, acc := z }) s
        | none => (s, false))
      | .keep =>
        let d := quantSquare s j.wire j.work.tag j.group x j.sigma (j.sum.getD [])
        let p := hopPkt s b j (s.addrOf b) x pg q stack j.work.epoch 0 d.1
        let s := watchCount (hopWatch s b pg 4) d.2 s
        (s.modBoard b (fun y => Board.setRJob { y with hops := y.hops ++ [{ pkt := p, epoch := j.work.epoch, sigma := j.sigma }] }
          { j with sent := true }), true)
      | .deliver => (deliverSum b j stack pg q (if ringParts e = 1 then j.sum.getD [] else j.acc) s, true)
      | .done => (nextSquare b j s, true))
    | _, _ => (reduceMap b j s, false)

/-- The job at the head of the queue goes on as far as it can. -/
def advance (b : Nat) : Nat → State → State
  | 0, s => s
  | n + 1, s =>
    match (s.board b).rjobs with
    | [] => s
    | j :: _ =>
      if j.stuck then s
      else if j.endSquare ≤ j.sigma then advance b n (endReduce b j s)
      else if j.vote then s
      else
        match j.values (s.board b) with
        | none => s
        | some v =>
          let r := hopAct b j v s
          if r.2 then advance b n r.1 else r.1

/-- Actions that one arrival can set free. -/
def advanceSpan : Nat := 32768

/-- The queue goes on, and the REDUCE that heads it then starts reading its next slice, if that is COMPLETE (R96). -/
def goOn (b : Nat) (s : State) : State := beginReadout b (advance b advanceSpan s)

/-! ### REDUCE and the read-out -/

/-- Vote credits are keyed beside the members (R237). -/
def voteKey (g : Nat) : Nat := 0x10000 + g

/-- Sixteen vote credits of a group, held from the issue on (DESIGN CHOICE, log entry 30); those that the Board holds already pass to the
REDUCE that is issued. -/
def grantVotes (b g ep : Nat) (s : State) : State :=
  if (s.board b).credits.any (fun c => c.1 == voteKey g) then
    s.modBoard b (fun x => { x with credits := x.credits.map (fun c => if c.1 == voteKey g then (c.1, ep, c.2.2) else c) })
  else s.modBoard b (fun x => { x with credits := x.credits ++ [(voteKey g, ep, 16)] })

/-- The checks of R231 and R232 at issue. -/
def reduceShape (s : State) (b : Nat) (w : Work) (g : Nat) : Bool :=
  let x := s.board b
  let e := s.grp (rGroup g)
  let zs := (List.range (rSliceCount g)).map (fun i => x.slice (rSliceFirst g + i))
  gKind e != (if rVote g then 4 else 3) || zs.any (fun z => z.mCount == 0) || zs.any (fun z => z.fold != (x.slice (rSliceFirst g)).fold)
    || zs.any (fun z => z.domain != w.domain) || !(s.membersOf e).contains (s.addrOf b)
    || (!(x.slice (rSliceFirst g)).fold && (rSliceFirst g % 2 != 0 || rSliceCount g % 2 != 0))

/-- A REDUCE group (R144, R231). -/
def execReduce (b : BoardNo) (st : StreamSel) (s : State) : Host.Outcome State Fault Refusal :=
  onTurn b st 8 0 (fun i s =>
    let g := actGroup s b.val st 8
    let w := issueWork s b.val st i
    if reduceShape s b.val w g then errorHalt b.val w 0x0208 s
    else
      let s := s.modBoard b.val (fun x => { x with
        nextId := x.nextId + 1
        rjobs := x.rjobs ++ [{ id := x.nextId, first := rSliceFirst g, count := rSliceCount g, group := rGroup g, vote := rVote g
                               wire := if rVote g then 2 else rWire g, sem := rDoneSem g, work := w, sigma := 2 * rSliceFirst g }] })
      let s := if rVote g then grantVotes b.val (rGroup g) w.epoch s else grantBuffers b.val (rGroup g) w.epoch s
      goOn b.val s) s

/-- The next slice of the REDUCE at the head of the queue has been read out; its reading started once it was COMPLETE (R96). -/
def execSliceReadout (b : BoardNo) (s : State) : Host.Outcome State Fault Refusal :=
  let b := b.val
  let x := s.board b
  match x.rjobs with
  | [] => .next s
  | j :: _ =>
    let k := j.first + j.read
    let z := x.slice k
    if j.stuck || j.count ≤ j.read || (z.state != 2 && z.state != 3) || !s.boardOk b || !s.powered then .next s
    else
      match boardBad s b (spaceAddr z) 32768 with
      | some w => .next (storeUe b w 1 (s.modBoard b (fun y => (y.setSlice k { z with state := 3 }).setRJob { j with stuck := true })))
      | none =>
        let v := readSpace s b z
        let s := (storeServed b (spaceAddr z) 32768 s).modBoard b (fun y => (y.setSlice k z.idle).setRJob
          { j with read := j.read + 1, held := j.held ++ [(k, v)] })
        .next (goOn b (touch s b))

/-! ### Sending (R235) -/

/-- A credit of a member is used up: its epoch. -/
def useCredit (b m : Nat) (s : State) : Option (Nat × State) :=
  match (s.board b).credits.find? (fun c => c.1 == m && decide (0 < c.2.2)) with
  | some c => some (c.2.1, s.modBoard b (fun x => { x with
      credits := x.credits.map (fun d => if d == c then (c.1, c.2.1, c.2.2 - 1) else d) }))
  | none => none

/-- A credit comes back or is granted. -/
def giveCredit (b m ep n : Nat) (s : State) : State :=
  let cs := (s.board b).credits
  let same := fun (c : Nat × Nat × Nat) => c.1 == m && c.2.1 == ep
  let next := if cs.any same then cs.map (fun c => if same c then (m, ep, c.2.2 + n) else c) else cs ++ [(m, ep, n)]
  s.modBoard b (fun x => { x with credits := next })

/-- The trit of a slice element (Table 10-6). -/
def tritOf (w : W32) : Nat :=
  match decFp32 w with
  | .nan => 2
  | .inf neg => if neg then 3 else 1
  | .fin neg m _ => if m = 0 then 0 else if neg then 3 else 1

/-- Trits, four to a byte (R236). -/
def packTrits : List Nat → List Byte
  | a :: b :: c :: d :: ts => BitVec.ofNat 8 (a + 4 * b + 16 * c + 64 * d) :: packTrits ts
  | ts => [BitVec.ofNat 8 (ts.foldr (fun t acc => t + 4 * acc) 0)].take ts.length

/-- A member sends the trits of its next square. -/
def sendTrits (b : Nat) (j : RJob) (v : List W32) (s : State) : State :=
  match useCredit b (voteKey j.group) s with
  | none => s
  | some (ep, s) =>
    let m := match mapAt s b j.group j.sigma with
      | .square _ _ pg q => (pg, q)
      | _ => (0, 0)
    let pl := hdrBytes { tag := j.work.tag, group := j.group, gepoch := gEpoch (s.grp j.group), pgroup := m.1, q := m.2, wire := 2
                         sigma := j.sigma } ++ packTrits (v.map tritOf)
    let t := newTxn (.reduce b ep) s
    let s := (t.2.bump .voteSquares b).send { dest := gRoot (s.grp j.group), src := s.addrOf b, opcode := 0x06
                                              flits := flitsFor pl.length, lines := ceilDiv pl.length 64, txn := t.1, payload := pl }
    nextSquare b j (countEvent b 0x15 (some j.work.domain) none 1 s)

/-- A member sends its sum of a square on. -/
def sendHop (b : Nat) (j : RJob) (s : State) : State :=
  let e := s.grp j.group
  let ms := s.membersOf e
  match mapAt s b j.group j.sigma, posOf ms (s.addrOf b) with
  | .square owner stack pg q, some x =>
    (match posOf ms owner with
    | none => s
    | some o =>
      if nextHop e x o j != .wait then s
      else
        let t := hopTarget e x o
        let dest := ms.getD t.1 0xFFFF
        match useCredit b dest s with
        | none => s
        | some (ep, s) =>
          let d := quantSquare s j.wire j.work.tag j.group t.2 j.sigma (j.sum.getD [])
          let s := watchCount (hopWatch s b pg 4) d.2 s
          let n := newTxn (.reduce b ep) s
          let s := (n.2.bump .reduceHops b).send (hopPkt s b j dest t.2 pg q stack ep n.1 d.1)
          let s := countEvent b 0x15 (some j.work.domain) none 1 s
          s.modBoard b (fun y => y.setRJob { j with sent := true }))
  | _, _ => s

/-- With a credit for the next square in order, the member sends it. -/
def execReduceHopSend (b : BoardNo) (s : State) : Host.Outcome State Fault Refusal :=
  let b := b.val
  if !s.boardOk b || !s.powered then .next s
  else
    match (s.board b).rjobs with
    | [] => .next s
    | j :: _ =>
      if j.stuck then .next s
      else
        match j.values (s.board b) with
        | none => .next s
        | some v =>
          if j.vote then .next (goOn b (sendTrits b j v s))
          else if j.sum.isSome && !j.sent then .next (goOn b (sendHop b j s))
          else .next s

/-- A value-mode hop arrives (R223, R233, R235). -/
def execReduceVal (pkt : Pkt) (s : State) : Host.Outcome State Fault Refusal :=
  .next (deliver 0x05 pkt (fun b s =>
    let h := hdrOf pkt.payload
    if 1 < h.wire then rejectPkt pkt 0x0606 s
    else if !epochOk s h.group h.gepoch then rejectPkt pkt 0x060B s
    else if (s.board b).hopShut.contains h.epoch then s
    else
      let s := s.modBoard b (fun x => { x with hops := x.hops ++ [{ pkt := pkt, epoch := h.epoch, sigma := h.sigma }] })
      goOn b s) s)

/-! ### Votes (R236, R237) -/

/-- The count format of a group's counts. -/
def countWire (e : BitVec 192) : Nat := if gMembers e ≤ 127 then 3 else 4

/-- The contributors of a module: Boards 0 to 15, ports 32 + p. -/
def contributors (e : BitVec 192) : List Nat := bitList (gForkBoards e) 16 ++ (gChildren e).map (32 + ·)

/-- The elements of a vote packet: a count, or the reserved code. -/
def voteElems (wire : Nat) (data : List Byte) : List (Option Int) :=
  (List.range 4096).map (fun e =>
    if wire = 2 then
      match byteAt data (e / 4) / 4 ^ (e % 4) % 4 with
      | 0 => some 0
      | 1 => some 1
      | 3 => some (-1)
      | _ => none
    else
      let w := if wire = 3 then 1 else 2
      let v := leAt data (w * e) w
      let half := 2 ^ (8 * w - 1)
      if v = half then none else some (if half < v then (v : Int) - 2 * half else v))

/-- The bytes of counts. -/
def countBytes (wire : Nat) (v : Vote) : List Byte :=
  let w := if wire = 3 then 1 else 2
  (v.counts.zip v.reserved).flatMap (fun e =>
    if e.2 then leBytes w (2 ^ (8 * w - 1)) else leBytes w ((e.1 % (2 ^ (8 * w) : Int)).toNat))

/-- A contribution enters its square. -/
def Vote.add (v : Vote) (who back : Nat) (es : List (Option Int)) : Vote :=
  { v with counts := (v.counts.zip es).map (fun e => e.1 + e.2.getD 0), reserved := (v.reserved.zip es).map (fun e => e.1 || e.2.isNone)
           came := v.came ++ [(who, back)] }

/-- A closed square gives its contributors their credits back (R235, R237). -/
def returnVotes (v : Vote) (s : State) : State :=
  forEach v.came (fun c s =>
    s.send { dest := c.2, src := s.ownAddr, opcode := 0x20, flits := 0, lines := 1
             payload := padTo 64 (leBytes 2 0 ++ leBytes 2 1 ++ leBytes 1 1 ++ leBytes 1 0 ++ leBytes 2 v.group
               ++ leBytes 2 (gEpoch (s.grp v.group))) }) s

/-- The root's finished count goes to the owner's stack (R237). -/
def voteAtRoot (v : Vote) (s : State) : State :=
  let e := s.grp v.group
  let b := gRoot e % 16
  let w := match (s.board b).rjobs.find? (fun j => j.group == v.group) with
    | some j => j.work
    | none => { domain := pgDomain (s.pgroup v.pgroup), tag := v.tag : Work }
  match mapAt s b v.group v.sigma with
  | .outside => errorHalt b w 0x0209 s
  | .bad a =>
    let f := ueFlt 0x0401 none a 1 (some w.domain) s
    haltWork b w f.1 (noteUe a f.2)
  | .square owner stack pg q => sendUpdate b owner stack v.tag pg q true (countWire e == 4) (countBytes (countWire e) v) s

/-- A square whose contributions have all arrived leaves the combine point. -/
def closeVote (v : Vote) (s : State) : State :=
  let e := s.grp v.group
  let s := returnVotes v { s with fab := { s.fab with votes := s.fab.votes.filter (fun x =>
    !(x.group == v.group && x.sigma == v.sigma && x.tag == v.tag)) } }
  if gUpPort e = 24 then voteAtRoot v s
  else
    let pl := hdrBytes { tag := v.tag, group := v.group, gepoch := gEpoch e, pgroup := v.pgroup, q := v.q, wire := countWire e
                         sigma := v.sigma } ++ countBytes (countWire e) v
    let t := newTxn (.vote v.group) s
    let s := { t.2 with fab := { t.2.fab with voteSent := t.2.fab.voteSent ++ [(v.group, pgDomain (s.pgroup v.pgroup))] } }
    transmit (gUpPort e) { dest := gRoot e, src := s.ownAddr, opcode := 0x06, flits := flitsFor pl.length
                           lines := ceilDiv pl.length 64, txn := t.1, payload := pl } s

/-- The square may leave: it is complete, and the module above has a square free for it. -/
def voteMay (s : State) (v : Vote) : Bool :=
  let e := s.grp v.group
  (contributors e).all (fun c => v.came.any (fun w => w.1 == c))
    && (gUpPort e == 24 || decide (s.fab.voteSent.countP (fun w => w.1 == v.group) < 16))

/-- Complete squares leave in ascending order of arrival. -/
def closeVotes : Nat → State → State
  | 0, s => s
  | n + 1, s =>
    match s.fab.votes.find? (voteMay s) with
    | some v => closeVotes n (closeVote v s)
    | none => s

/-- A combine point holds 16 squares open per group (R237). -/
def voteRoom (s : State) (h : Hdr) : Bool :=
  s.fab.votes.any (fun v => v.group == h.group && v.sigma == h.sigma && v.tag == h.tag)
    || decide (s.fab.votes.countP (fun v => v.group == h.group) < 16)

/-- A contribution is combined, and acknowledged (R379). -/
def combineVote (who : Nat) (pkt : Pkt) (h : Hdr) (s : State) : State :=
  let es := voteElems h.wire (pkt.payload.drop 64)
  let same := fun (v : Vote) => v.group == h.group && v.sigma == h.sigma && v.tag == h.tag
  let fresh : Vote := { group := h.group, sigma := h.sigma, tag := h.tag, pgroup := h.pgroup, q := h.q
                        counts := List.replicate 4096 0, reserved := List.replicate 4096 false }
  let vs := if s.fab.votes.any same then s.fab.votes else s.fab.votes ++ [fresh]
  let s := { s with fab := { s.fab with votes := vs.map (fun v => if same v then v.add who pkt.src es else v) } }
  closeVotes 4096 (answer pkt 0x82 [] s)

/-- Packets that find a square go on, in order of arrival. -/
def retryVotes : Nat → State → State
  | 0, s => s
  | n + 1, s =>
    match s.fab.voteWait.find? (fun w => voteRoom s (hdrOf w.2.payload)) with
    | none => s
    | some w =>
      retryVotes n (combineVote w.1 w.2 (hdrOf w.2.payload)
        (takenUp (if 32 ≤ w.1 then some (w.1 - 32) else none) w.2 { s with fab := { s.fab with voteWait := s.fab.voteWait.erase w } }))

/-- A contribution is combined, or waits for a square. -/
def takeVote (who : Nat) (pkt : Pkt) (s : State) : State :=
  retryVotes 4096 { s with fab := { s.fab with voteWait := s.fab.voteWait ++ [(who, pkt)] } }

/-- A vote packet at the combine point, from a Board here or from a port. -/
def voteIn (a : Option Nat) (pkt : Pkt) (s : State) : State :=
  let h := hdrOf pkt.payload
  let e := s.grp h.group
  let who := match a with
    | none => pkt.src % 16
    | some p => 32 + p
  let refuse := fun (code : Nat) => rejectPkt pkt code (takenUp a pkt s)
  if s.device = 0xFFFF then dropPkt (takenUp a pkt s)
  else if !pktOk pkt then refuse 0x0606
  else if a.isSome && pkt.hop = 31 then refuse 0x0609
  else if !epochOk s h.group h.gepoch then refuse 0x060B
  else if gKind e != 4 || !(contributors e).contains who then refuse 0x060C
  else if h.wire != (if a.isNone then 2 else countWire e) then refuse 0x0606
  else takeVote who pkt s

/-- A vote packet reaches the combine point of its group on this module: from a member Board (trits), or from a child port (counts). -/
def execReduceVote (p : Option PortNo) (pkt : Pkt) (s : State) : Host.Outcome State Fault Refusal :=
  let a := p.map (·.val)
  if pkt.opcode != 0x06 || !s.powered || (p.isNone && pkt.src / 16 != s.device) then .next s
  else if a.isSome && dieStalled s a pkt then .next (stall a pkt s)
  else .next (voteIn a pkt s)

end Sys2Proof.Machine
end

