-- ==== Sys2Proof/Machine/Beam.lean ====
section
/-!
DEFINITION. Machine/Beam.lean: Beam semaphore signals, barriers, and the commit exchange (R238 to R242, R333, R342).
-/
namespace Sys2Proof.Machine

/-! ### Semaphore signals (R235, R238) -/

/-- A vote credit from the module above: one square that it held is closed (R237). -/
def voteReturned (g : Nat) (s : State) : State :=
  match s.fab.voteSent.find? (fun v => v.1 == g) with
  | some v => retryVotes 4096 (closeVotes 4096 { s with fab := { s.fab with voteSent := s.fab.voteSent.erase v } })
  | none => s

/-- Reduce credits (Table 10-4, kind 1): from a member of a ring, or of a vote's combine point. -/
def takeCredits (b : Nat) (pkt : Pkt) (g ep n : Nat) (s : State) : State :=
  if gKind (s.grp g) = 4 then
    if pkt.src / 16 = s.device then
      match (s.board b).credits.find? (fun c => c.1 == voteKey g) with
      | some c => giveCredit b (voteKey g) c.2.1 n s
      | none => s
    else voteReturned g s
  else giveCredit b pkt.src ep n s

/-- A signal of a stale group epoch is discarded (R223); one to a Beam semaphore of a remote producer's link announces its full buffers
(R113). -/
def execSemSignal (pkt : Pkt) (s : State) : Host.Outcome State Fault Refusal :=
  .next (deliver 0x20 pkt (fun b s =>
    let sem := leAt pkt.payload 0 2
    let n := leAt pkt.payload 2 2
    let kind := byteAt pkt.payload 4
    let ep := byteAt pkt.payload 5
    let g := leAt pkt.payload 6 2
    let ge := leAt pkt.payload 8 2
    if 1 < kind || (kind == 0 && 1024 ≤ sem) then rejectPkt pkt 0x0606 s
    else if kind = 0 then
      if 1024 ≤ g || gEpoch (s.grp g) != ge then staleDrop s
      else if (s.board b).bsemShut.contains ep then s
      else remoteOut b sem (signalBsem b sem n (remoteFull b sem n ep s))
    else if !epochOk s g ge then staleDrop s
    else takeCredits b pkt g ep n s) s)

/-! ### Delivery of tokens and barriers (R241) -/

/-- The fields of Table 10-4. -/
structure Line where
  tag : Nat
  domain : Nat
  down : Bool
  ack : Bool
  group : Nat
  gepoch : Nat
  firstVoider : Nat
  modules : Nat
  barrier : Nat
  round : Nat
  deriving DecidableEq, Repr

def lineOf (bs : List Byte) : Line :=
  { tag := leAt bs 0 4, domain := byteAt bs 4, down := testBit (byteAt bs 5) 0, ack := testBit (byteAt bs 5) 1, group := leAt bs 6 2
    gepoch := leAt bs 8 2, firstVoider := leAt bs 10 2, modules := leAt bs 12 2, barrier := leAt bs 14 2, round := leAt bs 16 4 }

/-- A line with ACK set. -/
def ackLine (bs : List Byte) : List Byte := setAt bs 5 (BitVec.ofNat 8 (byteAt bs 5 ||| 2))

/-- The receiver acknowledges a message on the port it came by. -/
def sendAck (p : Nat) (pkt : Pkt) (s : State) : State :=
  transmit p { dest := pkt.src, src := s.ownAddr, opcode := pkt.opcode, flits := 0, lines := 1, payload := ackLine pkt.payload } s

/-- The message that an acknowledgement names is no longer resent. -/
def takeAck (p : Nat) (pkt : Pkt) (s : State) : State :=
  let rest := s.fab.unacked.filter (fun u => !(u.port == p && u.pkt.opcode == pkt.opcode && ackLine u.pkt.payload == pkt.payload))
  { s with fab := { s.fab with unacked := rest } }

def dirOf (l : Line) : Nat := if l.down then 1 else 0

/-- The message repeats the last one acted on, by group, direction and sender. -/
def isRepeat (s : State) (p : Nat) (l : Line) : Bool := s.fab.roundIn.contains (l.group, dirOf l, p, l.round)

def noteRound (p : Nat) (l : Line) (s : State) : State :=
  let rest := s.fab.roundIn.filter (fun r => !(r.1 == l.group && r.2.1 == dirOf l && r.2.2.1 == p))
  { s with fab := { s.fab with roundIn := (l.group, dirOf l, p, l.round) :: rest } }

/-- A token or barrier message arrives on a port. -/
def beamIn (op p : Nat) (pkt : Pkt) (ok : Line → BitVec 192 → Bool) (f : Line → State → State) (s : State) : State :=
  let l := lineOf pkt.payload
  if pkt.opcode != op || !s.powered then s
  else
  let s := takenUp (some p) pkt s
  if s.device = 0xFFFF then dropPkt s
  else if !pktOk pkt then rejectPkt pkt 0x0606 s
  else if pkt.hop = 31 then rejectPkt pkt 0x0609 s
  else if !epochOk s l.group l.gepoch || !ok l (s.grp l.group) then staleDrop s
  else if l.ack then takeAck p pkt s
  else
    let s := sendAck p pkt s
    if isRepeat s p l then s else f l (noteRound p l s)

/-- A barrier from a child goes into the module's arrivals; one from the port toward the root releases (R239). -/
def barrierIn (p : Nat) (l : Line) (s : State) : State :=
  let e := s.grp l.group
  if l.down then (if p = gUpPort e then barrierDown l.group l.barrier l.modules s else s)
  else if testBit (gForkPorts e) p then barrierArrive l.group l.barrier p l.modules s
  else s

def execBarrier (p : PortNo) (pkt : Pkt) (s : State) : Host.Outcome State Fault Refusal :=
  .next (beamIn 0x21 p.val pkt (fun _ e => gKind e == 5) (barrierIn p.val) s)

/-! ### Tokens (R240) -/

/-- A token is taken: an offer of a child, or the decision. -/
def tokenIn (commit : Bool) (p : Nat) (l : Line) (s : State) : State :=
  let e := s.grp l.group
  let x := s.dom l.domain
  if !x.used || x.group != l.group then s
  else if l.down then
    if p = gUpPort e && x.exch.state = 1 && x.exch.sentUp then takeDecision l.domain commit l.tag l.firstVoider l.modules true s
    else s
  else if testBit (gForkPorts e) p then
    let t : Tok := { commit := commit, tag := l.tag, firstVoider := l.firstVoider, modules := l.modules }
    combine l.domain (s.modDom l.domain (fun y => { y with exch := { y.exch with childs := tset y.exch.childs p t } }))
  else s

/-- The group on which a token arrives carries the token's domain. -/
def tokenOk (l : Line) (e : BitVec 192) : Bool := gKind e == 5 && gDomain e == l.domain

def execCommitTok (p : PortNo) (pkt : Pkt) (s : State) : Host.Outcome State Fault Refusal :=
  .next (beamIn 0x22 p.val pkt tokenOk (tokenIn true p.val) s)

def execVoidTok (p : PortNo) (pkt : Pkt) (s : State) : Host.Outcome State Fault Refusal :=
  .next (beamIn 0x23 p.val pkt tokenOk (tokenIn false p.val) s)

/-- 1 µs has passed without the acknowledgement: the same messages go out again (R241). -/
def execTokenResend (g : GroupNo) (s : State) : Host.Outcome State Fault Refusal :=
  .next (forEach (s.fab.unacked.filter (fun u => beamGroup u.pkt == g.val)) (fun u s =>
    let s := transmit u.port u.pkt s
    if u.pkt.opcode = 0x21 || u.pkt.opcode = 0x26 then s else s.bump .tokenResends (byteAt u.pkt.payload 4)) s)

/-- COMMIT_WAIT has passed since the local offer without a decision: reported once (R242). -/
def execBeamTimeout (d : DomainNo) (s : State) : Host.Outcome State Fault Refusal :=
  let d := d.val
  let x := s.dom d
  if x.exch.state != 1 || x.exch.timeoutRaised then .next s
  else
    .next ((s.raise { code := 0x0605, kind := 11, unit := d, domain := some d }).modDom d (fun y => { y with
      exch := { y.exch with timeoutRaised := true } }))

/-! ### The local offer (R240, R333, R342) -/

/-- The conditions of an offer: every Board and every stack is done, or an update is missing. -/
def offerDue (s : State) (d : Nat) : Bool :=
  let x := s.dom d
  x.used && x.phase == .open && x.exch.state == 0 && x.boardsDone == x.boards
    && (x.missingRaised || s.stacksOk.all (fun k => testBit x.stacksDone k))

/-- A replayed step that reproduced its record (R342). -/
def replayOk (s : State) (x : Dom) (r : CommitRec) : Bool :=
  x.lossDigest == r.lossDigest && x.lossCount == r.lossCount && s.snap.replayDiff == 0

/-- The replay of a restored step is judged: VERIFIED, or REPLAY_MISMATCH and the update fault flag (R342). -/
def judgeReplay (d : Nat) (s : State) : State :=
  let x := s.dom d
  match x.replay with
  | none => s
  | some r =>
    let ok := replayOk s x r
    let s := s.modDom d (fun y => { y with replay := none, restoreState := if ok then 2 else 3 })
    -- the links leave handle-queue mode as each falls IDLE (R118, R119)
    let s := forEach s.boardsOk (fun b s => if testBit x.boards b then s.modBoard b (·.wantModes (s.replaying b)) else s) s
    if ok then s
    else setUpdFault d 0x0507 (s.raise { code := 0x0507, kind := 11, unit := d, domain := some d })

/-- A withheld offer is over: SNAP_HOLD_TIME keeps the longest, in µs. -/
def endHold (d : Nat) (s : State) : State :=
  match (s.dom d).holdSince with
  | none => s
  | some t =>
    let s := s.modDom d (fun x => { x with holdSince := none })
    { s with snap := { s.snap with holdMax := max s.snap.holdMax (min ((s.now - t.toNat) / 1000) (2 ^ 32 - 1)) } }

/-- A void mark, an update fault, a lost domain or a failed replay makes the offer VOID; a COMMIT is withheld while copies read. -/
def execLocalOffer (d : DomainNo) (s : State) : Host.Outcome State Fault Refusal :=
  let d := d.val
  if !offerDue s d || !s.powered || schedulerBusy s then .next s
  else
    let x := s.dom d
    let commit := !x.watch.voidMark && !x.updFault && !x.lost && (match x.replay with
      | some r => replayOk s x r
      | none => true)
    if commit && (x.mirrorActive || x.snapCapturing) then
      .next (if x.holdSince.isSome then s else s.modDom d (fun y => { y with holdSince := if y.snapCapturing then some s.time else none }))
    else .next (offer d commit (judgeReplay d (endHold d s)))

end Sys2Proof.Machine
end

