-- ==== Sys2Proof/Machine/Snapshot.lean ====
section
/-!
DEFINITION. Machine/Snapshot.lean: mirror passes, snapshots, exports and restores (R167, R170, R223, R331 to R343, R349).
-/
namespace Sys2Proof.Machine

/-! ### Mirror passes (R334, R335) -/

/-- What a mirror packet carries, beside the squares by number: the seal WRITING, the state block, the seal SEALED. -/
def mWriting : Nat := 2 ^ 22
def mBlock : Nat := 2 ^ 22 + 1
def mSealed : Nat := 2 ^ 22 + 2

def findPass (s : State) (d k r : Nat) : Option MPass := (s.dom d).passes.find? (fun m => m.stack == k && m.region == r)

def setPass (d : Nat) (m : MPass) (s : State) : State :=
  s.modDom d (fun x => { x with passes := x.passes.map (fun n => if n.stack = m.stack && n.region = m.region then m else n) })

/-- A pass leaves the domain, and its requests with it: a later answer is discarded by its TXN_ID (R209). -/
def dropPass (d k r : Nat) (s : State) : State :=
  let s := s.modDom d (fun x => { x with passes := x.passes.filter (fun n => !(n.stack == k && n.region == r)) })
  { s with fab := { s.fab with txns := s.fab.txns.filter (fun t => match t.kind with
      | .mirror k' d' r' _ => !(k' == k && d' == d && r' == r)
      | _ => true) } }

/-- A pass ends without its seal. -/
def failPass (d k r : Nat) (s : State) : State :=
  (dropPass d k r s).raise { code := 0x0508, kind := 4, unit := k, domain := some d }

/-- A MIRROR_WR of bytes to a DPA on the partner. -/
def sendMirror (d k r what dpa : Nat) (bs : List Byte) (s : State) : State :=
  let t := newTxn (.mirror k d r what) s
  t.2.send { dest := s.rd .mirrorPartner, src := s.ownAddr, opcode := 0x08, flits := flitsFor bs.length
             lines := bs.length / 64, txn := t.1, addr := dpa / 64, payload := bs }

/-- ASCII "PTMS" and "PTMB", P at the lowest address. -/
def magicPTMS : Nat := 0x534D5450
def magicPTMB : Nat := 0x424D5450

/-- The seal line (Table 15-8); the fields after SOURCE are those of a sealed set. -/
def sealLine (s : State) (d : Nat) (m : MPass) (isSealed : Bool) : List Byte :=
  leBytes 64 (magicPTMS <<< 480 + d <<< 472 + m.set <<< 464 + (if isSealed then 1 else 0) <<< 456 + m.region <<< 448
    + (s.device % 65536) <<< 432
    + (if isSealed then m.crec.tag <<< 400 + m.sent <<< 368 + m.crec.lossDigest.toNat <<< 304 + (m.crec.lossCount % 2 ^ 64) <<< 240
        + m.crec.record.toNat <<< 112 else 0))

/-- The last 64 KiB of a region's mirror. -/
def mirrorTail (s : State) (r : Nat) : Nat := s.rd .mirrorDpa r + rSize (s.region r)

/-- Rule slots that belong to a domain. -/
def domSlots (s : State) (d : Nat) : List Nat := (List.range 256).filter (fun k => s.slotDomain k == some d)

/-- Parameter groups of a domain whose FROZEN is 1. -/
def frozenGroups (s : State) (d : Nat) : List Nat :=
  (s.job.pgroups.filter (fun g => pgUsed g.2 && pgDomain g.2 == d && pgFrozen g.2)).map (·.1)

def bitmap (l : List Nat) : Nat := l.foldl orBit 0

/-- The state block of a set (Table 15-13). -/
def stateBlock (s : State) (d : Nat) (c : CommitRec) : List Byte :=
  let pos := fun (b : Nat) => match c.positions.find? (fun p => p.1 == b) with
    | some p => leBytes 4 p.2.1 ++ leBytes 2 p.2.2.1 ++ leBytes 2 p.2.2.2
    | none => leBytes 8 0
  padTo 32640 (leBytes 4 magicPTMB ++ leBytes 4 c.tag ++ leBytes 8 s.job.seed.toNat ++ leBytes 16 c.record.toNat
    ++ leBytes 8 c.lossDigest.toNat ++ leBytes 8 c.lossCount ++ leBytes 16 (s.rd .strict d)
    ++ (List.range 16).flatMap pos ++ leBytes 512 (bitmap (frozenGroups s d)) ++ leBytes 32 (bitmap (domSlots s d))
    ++ (domSlots s d).flatMap (fun k => (s.slotWords k).flatMap (fun w => leBytes 4 w.toNat)))

/-- Bit Ms of a square. -/
def VRec.mBit (v : VRec) (set : Nat) : Bool := if set = 0 then v.m0 else v.m1
def VRec.clearM (v : VRec) (set : Nat) : VRec := if set = 0 then { v with m0 := false } else { v with m1 := false }

/-- The first square from n on whose bit Ms is 1. -/
def nextMirror (s : State) (m : MPass) : Option Nat :=
  let e := s.region m.region
  ((List.range (rSquares e - m.next)).find? (fun i => (s.vrec m.stack (rVtBase e + (m.next + i))).mBit m.set)).map (m.next + ·)

/-- A square goes out, one packet for each component. -/
def sendSquare (d : Nat) (m : MPass) (i : Nat) (s : State) : State :=
  let e := s.region m.region
  let a := committedAddr s m.stack e i
  match squareBad s e i a (slotBytes e) with
  | some l => failPass d m.stack m.region (copyUe (64 * l) s)
  | none =>
    let cs := bitList (rComp e) 5
    let s := setPass d { m with next := i + 1, sent := m.sent + 1, going := m.going ++ [(i, cs.length)] } s
    forEach cs (fun c s =>
      let off := (compOffset e c).getD 0
      let n := 64 * compLines c
      sendMirror d m.stack m.region i (s.rd .mirrorDpa m.region + (2 * i + m.set) * slotBytes e + off) (s.dramRead (a + off) n)
        (stackServed (a + off) n s)) s

/-- Every square has been acknowledged: the state block. -/
def sendBlock (d : Nat) (m : MPass) (s : State) : State :=
  let a := mirrorTail s m.region + 64 * (2 + 510 * m.set)
  let s := setPass d { m with phase := 2, going := [(mBlock, 2)] } s
  sendMirror d m.stack m.region mBlock (a + 16320) (m.block.drop 16320)
    (sendMirror d m.stack m.region mBlock a (m.block.take 16320) s)

/-- The seal, once the state block is acknowledged. -/
def sendSeal (d : Nat) (m : MPass) (s : State) : State :=
  sendMirror d m.stack m.region mSealed (mirrorTail s m.region + 64 * m.set) (sealLine s d m true)
    (setPass d { m with phase := 3, going := [(mSealed, 1)] } s)

/-- Squares go out while fewer than 64 wait for their acknowledgement (DESIGN CHOICE, log entry 34), and while the stack's accesses are not
held for a test. -/
def runMirror (d k r : Nat) : Nat → State → State
  | 0, s => s
  | n + 1, s =>
    match findPass s d k r with
    | none => s
    | some m =>
      if m.phase != 1 || 64 ≤ m.going.length || s.underTest k then s
      else
        match nextMirror s m with
        | some i => runMirror d k r n (sendSquare d m i s)
        | none => if m.going.isEmpty then sendBlock d m s else s

/-- The tag that MIRROR_SEALED shows for a set. -/
def setSealed (r set tag : Nat) (s : State) : State :=
  s.wr .mirrorSealed (setBits (s.rd .mirrorSealed r) (32 * set + 31) (32 * set) tag) r

/-- MIRROR_PASS: the seal is written with WRITING, then the squares. -/
def execMirrorPass (k : StackNo) (d : DomainNo) (region : Fin 64) (s : State) : Host.Outcome State Fault Refusal :=
  let k := k.val
  let d := d.val
  let r := region.val
  match findPass s d k r with
  | none => .next s
  | some m =>
    if m.phase != 0 || (s.dreg k d).settling || !s.powered then .next s
    else
      let s := setSealed r m.set 0 s
      if s.rd .mirrorPartner = 0xFFFF then .next (failPass d k r s)
      else
        let x := s.dom d
        let m := { m with phase := 1, crec := x.commitRec, block := stateBlock s d x.commitRec }
        .next (runMirror d k r 65 (sendMirror d k r mWriting (mirrorTail s r + 64 * m.set) (sealLine s d m false) (setPass d m s)))

/-- Passes of a stack whose test has ended go on, and the engine reads on. -/
def passesOn (s : State) : State :=
  forEach (s.doms.flatMap (fun e => e.2.passes.map (fun m => (e.1, m)))) (fun p s => runMirror p.1 p.2.stack p.2.region 65 s) s

/-- A packet of a pass is acknowledged. -/
def mirrorAck (k d r what : Nat) (s : State) : State :=
  match findPass s d k r with
  | none => s
  | some m =>
    match m.going.find? (fun g => g.1 == what) with
    | none => s
    | some g =>
      if 1 < g.2 then setPass d { m with going := m.going.map (fun h => if h.1 = what then (what, h.2 - 1) else h) } s
      else
        let m := { m with going := m.going.filter (fun h => h.1 != what) }
        if what = mBlock then sendSeal d m s
        else if what = mSealed then (setSealed r m.set m.crec.tag (dropPass d k r s)).bump .mirrorPasses
        else
          let i := rVtBase (s.region r) + what
          runMirror d k r 65 ((setPass d m s).setVrec k i ((s.vrec k i).clearM m.set))

/-- An ERR or a timeout of a packet of a pass. -/
def mirrorFailed (k d r : Nat) (s : State) : State :=
  match findPass s d k r with
  | some _ => failPass d k r s
  | none => s

/-- A copy at the partner: its lines are written into a MIRROR region and acknowledged (R164, R379). -/
def execMirrorWr (pkt : Pkt) (s : State) : Host.Outcome State Fault Refusal :=
  .next (deliver 0x08 pkt (fun _ s =>
    let a := 64 * pkt.addr
    let inside := match s.regionAt a with
      | some e => rKind e.2 == 5 && decide (a + pkt.payload.length ≤ rBase e.2 + rSize e.2)
      | none => false
    if inside then answer pkt 0x82 [] (s.stackWrite a pkt.payload)
    else
      let f := regionFaultFlt a 1 s
      sendErr pkt 0x0402 ((f.2.bump .regionFaults (stackOf a)).raise f.1)) s)

/-! ### The snapshot engine (R336, R337, R343) -/

/-- SNAP_STATE lets a snapshot or export start. -/
def Snap.idle (x : Snap) : Bool := x.state == 0 || x.state == 3 || x.state == 4

/-- The domains of the job that SNAP_DOMAINS names. -/
def namedDomains (s : State) : List Nat := s.usedDoms.filter (blobBit (s.blob .snapDomains))

/-- Device and job state in which a copy is taken. -/
def copyState (s : State) : Bool := s.powered && (s.dev.jobState == .loaded || s.dev.jobState == .running)

/-- A DPA lies in a SNAPSHOT region. -/
def snapRegion (s : State) (a : Nat) : Bool := match s.regionAt a with | some e => rKind e.2 == 6 | none => false

/-- The destination of a stream: host memory, or a SNAPSHOT region. -/
def snapPlaceOk (s : State) : Bool := s.rd .snapTarget == 0 || (s.rd .snapTarget == 1 && snapRegion s (s.rd .snapAddr))

/-- What an accepted SNAP_CONTROL takes from the entries. -/
def takeSnap (s : State) (state : Nat) : Snap :=
  { s.snap with
    state := state, error := 0, before := s.snap.state, domains := namedDomains s, target := s.rd .snapTarget
    addr := s.rd .snapAddr, bytes := s.rd .snapBytes, point := s.rd .restorePoint, epoch := s.rd .restoreEpoch
    keepGroups := s.rd .restoreGroups == 1, retag := s.rd .restoreRetag == 1
    left := [], got := [], want := [], came := [], sets := [] }

/-! ### The sections whose layout Table 15-9 leaves open (DESIGN CHOICE, log entry 34)

Numbers are little-endian, and each list stands after its length. -/

def packList (xs : List (List Byte)) : List Byte := leBytes 4 xs.length ++ xs.flatten

/-- The entries of w bytes of a list that starts at byte o. -/
def unpackList (w : Nat) (bs : List Byte) (o : Nat) : List (List Byte) :=
  (List.range (min (leAt bs o 4) (bs.length / max 1 w))).map (fun i => (bs.drop (o + 4 + w * i)).take w)

/-- One past the list of entries of w bytes that starts at byte o. -/
def afterList (w : Nat) (bs : List Byte) (o : Nat) : Nat := o + 4 + w * leAt bs o 4

def packPairs (l : List (Nat × Nat)) : List Byte := packList (l.map (fun e => leBytes 4 e.1 ++ leBytes 4 e.2))
def unpackPairs (bs : List Byte) (o : Nat) : List (Nat × Nat) := (unpackList 8 bs o).map (fun e => (leAt e 0 4, leAt e 4 4))

/-- SEEDS: the job seed, the logical Boards and the epochs. -/
def seedsBytes (seed : W64) (logical epochs : List (Nat × Nat)) : List Byte := leBytes 8 seed.toNat ++ packPairs logical ++ packPairs epochs

/-- GROUPS: the entries with their numbers, and the member list. -/
def groupsBytes (gs : List (Nat × BitVec 192)) (ms : List (Nat × Nat)) : List Byte :=
  packList (gs.map (fun g => leBytes 2 g.1 ++ leBytes 24 g.2.toNat)) ++ packPairs ms

def groupsOf (bs : List Byte) : List (Nat × BitVec 192) × List (Nat × Nat) :=
  ((unpackList 26 bs 0).map (fun e => (leAt e 0 2, BitVec.ofNat 192 (leAt e 2 24))), unpackPairs bs (afterList 26 bs 0))

/-- DOMAIN: number, flags, COMMITTED_TAG, the commit record, STRICT, and the frozen groups. -/
def domainBytes (x : RestoredDomain) : List Byte :=
  leBytes 1 x.domain ++ leBytes 1 (if x.replayable then 1 else 0) ++ leBytes 4 x.tag ++ leBytes 16 x.record.toNat
    ++ leBytes 8 x.lossDigest.toNat ++ leBytes 8 x.lossCount ++ leBytes 1 (if x.strict then 1 else 0)
    ++ packList (x.positions.map (fun p => leBytes 1 p.1 ++ leBytes 4 p.2.1 ++ leBytes 2 p.2.2.1 ++ leBytes 2 p.2.2.2))
    ++ packList (x.frozen.map (leBytes 2 ·))

def domainOf (bs : List Byte) : RestoredDomain :=
  { domain := leAt bs 0 1, replayable := testBit (leAt bs 1 1) 0, tag := leAt bs 2 4, record := BitVec.ofNat 128 (leAt bs 6 16)
    lossDigest := BitVec.ofNat 64 (leAt bs 22 8), lossCount := leAt bs 30 8, strict := leAt bs 38 1 == 1
    positions := (unpackList 9 bs 39).map (fun e => (leAt e 0 1, leAt e 1 4, leAt e 5 2, leAt e 7 2))
    frozen := (unpackList 2 bs (afterList 9 bs 39)).map (leAt · 0 2), rules := [], squares := [] }

/-- RULES: slot numbers, each with its 17 words. -/
def rulesBytes (l : List (Nat × List W32)) : List Byte :=
  packList (l.map (fun r => leBytes 1 r.1 ++ (List.range 17).flatMap (fun i => leBytes 4 (r.2.getD i 0#32).toNat)))

def wordsOf (bs : List Byte) (n : Nat) : List W32 := (List.range n).map (fun i => BitVec.ofNat 32 (leAt bs (4 * i) 4))

def rulesOf (bs : List Byte) : List (Nat × List W32) := (unpackList 69 bs 0).map (fun e => (leAt e 0 1, wordsOf (e.drop 1) 17))

/-- SEEDS and GROUPS. -/
def headParts (s : State) : List SnapPart :=
  [{ type := 1, bytes := seedsBytes s.job.seed s.job.logical s.job.epochs }, { type := 2, bytes := groupsBytes s.job.groups s.job.members }]

/-! ### Snapshot and export -/

/-- SNAP_CONTROL 1. -/
def snapshotRule : Rule := fun _ s =>
  if !copyState s || !s.snap.idle || !snapPlaceOk s then (stRefused, s)
  else
    let ds := namedDomains s
    let s := { s with snap := { takeSnap s (if ds.isEmpty then 2 else 1) with
      isExport := false, holdMax := 0, parts := headParts s, rules := [] } }
    (stOk, forEach ds (fun d s => s.modDom d (fun x => { x with
      snapPending := true, snapCommitted := false, snapCapturing := false, snapReplayable := false })) s)

def execSnapshot (via : Via) (s : State) : Host.Outcome State Fault Refusal := .next (viaReg via .snapControl 1 snapshotRule s)

/-- The capture of a domain may start (R336). -/
def captureDue (s : State) (x : Dom) : Bool :=
  x.snapPending && s.snap.state != 0 &&
    ((!x.busy && !x.settling && x.preIntact) || s.dev.jobState != .running || (x.snapCommitted && !x.settling))

/-- What DOMAIN holds of a domain. -/
def captureDomain (s : State) (d : Nat) : RestoredDomain :=
  let x := s.dom d
  { domain := d, replayable := x.preIntact, tag := x.committedTag, record := x.commitRec.record, lossDigest := x.commitRec.lossDigest
    lossCount := x.commitRec.lossCount, positions := x.commitRec.positions, strict := s.rd .strict d == 1
    frozen := frozenGroups s d, rules := [], squares := [] }

/-- The rule slots of a domain with their 17 words. -/
def captureRules (s : State) (d : Nat) : List (Nat × List W32) := (domSlots s d).map (fun k => (k, s.slotWords k))

/-- Bytes of a LASTC bitmap of n squares, padded to 64. -/
def bitmapBytes (n : Nat) : Nat := ceilDiv n 512 * 64

/-- SQUARES of a region: the bitmap, the committed planes, and the other planes of the LASTC squares. -/
def squaresBytes (qs : List RestoredSquare) : List Byte :=
  leBytes (bitmapBytes qs.length) (bitmap ((qs.filter (·.lastc)).map (·.square)))
    ++ qs.flatMap (·.committed) ++ qs.flatMap (·.other)

/-- The squares of a region, in ascending order. -/
def squaresOf (s : State) (r : Nat) : List (Nat × Nat) := (List.range (rSquares (s.region r))).map (fun i => (r, i))

/-- The sections of the squares that the engine has read: SQUARES, or EXPORT. -/
def squareParts (x : Snap) : List SnapPart :=
  let rs := (x.got.map (·.1)).eraseDups
  rs.map (fun r =>
    let mine := (x.got.filter (·.1 == r)).map (·.2)
    let qs := (List.range mine.length).filterMap (fun i => mine.find? (fun q => q.square == i))
    if x.isExport then { type := 6, target := r, bytes := qs.flatMap (·.committed) }
    else { type := 5, target := r, bytes := squaresBytes qs })

/-- The engine reads its next square (DESIGN CHOICE, log entry 34: one in a tick, in ascending order). -/
def captureNext (s : State) : State :=
  match s.snap.left with
  | (r, i) :: _ => if s.powered && s.snap.state == 2 then captureOne r i s else s
  | [] => s

/-- The capture of a domain starts: its DOMAIN section and its rule slots are read, and its squares are still to be read (R336). -/
def execCaptureStart (d : DomainNo) (s : State) : Host.Outcome State Fault Refusal :=
  let d := d.val
  let x := s.dom d
  if !captureDue s x || !s.powered then .next s
  else
    let part : SnapPart := { type := 3, target := d, bytes := domainBytes (captureDomain s d) }
    .next { s.modDom d (fun y => { y with snapPending := false, snapCapturing := true, snapReplayable := y.preIntact }) with
            snap := { s.snap with
              state := 2, parts := s.snap.parts ++ [part], rules := s.snap.rules ++ captureRules s d
              left := s.snap.left ++ (allRegions s d).flatMap (fun e => squaresOf s e.1) } }

/-- SNAP_CONTROL 2: the committed F8 copies of every VERSIONED region that holds them, one after another. -/
def exportRule : Rule := fun _ s =>
  if !copyState s || !s.snap.idle || !snapPlaceOk s then (stRefused, s)
  else
    let s := { s with snap := { takeSnap s 2 with isExport := true, holdMax := 0, parts := [], rules := [] } }
    let f8 := fun (d : Nat) => (allRegions s d).filter (fun e => testBit (rComp e.2) 3)
    let s := forEach s.snap.domains (fun d s => s.modDom d (fun x => { x with snapCapturing := true })) s
    (stOk, { s with snap := { s.snap with left := s.snap.domains.flatMap (fun d => (f8 d).flatMap (fun e => squaresOf s e.1)) } })

def execExport (via : Via) (s : State) : Host.Outcome State Fault Refusal := .next (viaReg via .snapControl 2 exportRule s)

/-- n bytes of free values. -/
def freeBytes (n : Nat) (s : State) : List Byte × State :=
  ((List.range (ceilDiv n 8)).flatMap (fun k => leBytes 8 (Config.freeValue (s.fresh + k)).toNat) |>.take n,
   { s with fresh := s.fresh + ceilDiv n 8 })

/-- ASCII "PTSN", P at the lowest address. -/
def magicPTSN : Nat := 0x4E535450

/-- The sections in the order of Table 15-9, RULES among them. -/
def orderedParts (x : Snap) : List SnapPart :=
  let ps := (if x.isExport then x.parts else x.parts ++ [{ type := 4, bytes := rulesBytes x.rules }]) ++ squareParts x
  (List.range 7).flatMap (fun t => ps.filter (fun p => p.type == t))

/-- The directory: each section follows the one before it. -/
def dirBytes : Nat → List SnapPart → List Byte
  | _, [] => []
  | off, p :: ps =>
    leBytes 2 p.type ++ leBytes 2 p.target ++ leBytes 4 0 ++ leBytes 8 off ++ leBytes 8 p.bytes.length ++ dirBytes (off + p.bytes.length) ps

/-- The i-th MiB of the bytes that the CRC table covers. -/
def crcChunk (bs : List Byte) (i : Nat) : List Byte := (bs.drop (i * 2 ^ 20)).take (2 ^ 20)

def crcTable (bs : List Byte) : List Byte :=
  (List.range (ceilDiv bs.length (2 ^ 20))).flatMap (fun i => leBytes 8 (crc64 (crcChunk bs i)).toNat)

/-- The header (Table 15-9). -/
def snapHeader (s : State) (sections crcAt : Nat) : List Byte :=
  padTo 64 (leBytes 4 magicPTSN ++ leBytes 2 1 ++ leBytes 2 sections ++ leBytes 8 (crcAt + 8 * ceilDiv crcAt (2 ^ 20))
    ++ leBytes 8 s.job.id ++ padTo 16 s.ident.serial ++ leBytes 8 s.now ++ leBytes 8 crcAt
    ++ leBytes 1 (if s.snap.isExport then 2 else 1))

/-- The whole stream: header, directory, sections, CRC table. -/
def snapStream (s : State) : List Byte :=
  let ps := orderedParts s.snap
  let start := 64 + 24 * ps.length
  let body := ps.flatMap (·.bytes)
  let front := snapHeader s ps.length (start + body.length) ++ dirBytes start ps ++ body
  front ++ crcTable front

/-- One past the SNAPSHOT region that holds SNAP_ADDR. -/
def snapLimit (s : State) : Nat :=
  match s.regionAt s.snap.addr with
  | some e => if rKind e.2 = 6 then rBase e.2 + rSize e.2 else 0
  | none => 0

/-- n bytes from SNAP_ADDR lie in the SNAPSHOT region; those of host memory lie where they must. -/
def snapFits (s : State) (n : Nat) : Bool := s.snap.target != 1 || decide (s.snap.addr + n ≤ snapLimit s)

/-- An access of the engine that leaves its region is not performed (R164). -/
def snapRegionFault (s : State) : State :=
  let f := ueFlt 0x0402 none (max s.snap.addr (snapLimit s)) 4 none s
  (f.2.bump .regionFaults (stackOf s.snap.addr)).raise f.1

/-- A stream stands at its destination: in host memory, or in its SNAPSHOT region, as far as that reaches. -/
def placeStream (bs : List Byte) (s : State) : State :=
  if s.snap.target = 1 then s.hubStackWrite s.snap.addr (bs.take (snapLimit s - s.snap.addr)) else s.emit (.hostWrite s.snap.addr bs)

/-- A capture is over: offers are no longer withheld for it. -/
def endCaptures (s : State) : State :=
  forEach (s.doms.map (·.1)) (fun d s =>
    (endHold d s).modDom d (fun x => { x with snapPending := false, snapCapturing := false })) s

/-- The stream and its CRC table are written once every square has been read, or a write to host memory has failed (R337, R341). -/
def execSnapshotDone (r : StreamEnd) (s : State) : Host.Outcome State Fault Refusal :=
  let waiting := s.doms.any (fun e => e.2.snapPending)
  match r with
  | .done =>
    let bs := snapStream s
    let n := min bs.length s.snap.bytes
    let t := placeStream (bs.take n) (endCaptures s)
    if s.snap.state != 2 || waiting || !s.snap.left.isEmpty then .next s
    else if !snapFits s n then
      let c := drawReason (snapRegionFault t)
      .next (snapEnd 0x0706 c.1 0 c.2)
    else if s.snap.bytes < bs.length then .next (snapEnd 0x0706 2 0 t)
    else .next (({ t with snap := { t.snap with state := 3, length := bs.length, got := [] } } : State).signal 7)
  | .error offset =>
    if (s.snap.state != 1 && s.snap.state != 2) || s.snap.target != 0 then .next s
    else .next (snapEnd 0x0706 1 offset (endCaptures s))

/-! ### Restore (R338 to R341) -/

/-- A restore that cannot complete: every named domain is LOST. -/
def restoreFault (reason offset : Nat) (s : State) : State :=
  forEach s.snap.domains setLost (snapEnd 0x0707 reason offset s)

/-- A directory entry: TYPE, TARGET, OFFSET, BYTES. -/
def streamEntry (bs : List Byte) (i : Nat) : Nat × Nat × Nat × Nat :=
  let o := 64 + 24 * i
  (leAt bs o 2, leAt bs (o + 2) 2, leAt bs (o + 8) 8, leAt bs (o + 16) 8)

def streamDir (bs : List Byte) : List (Nat × Nat × Nat × Nat) := (List.range (leAt bs 6 2)).map (streamEntry bs)

/-- The header and the directory of a snapshot are right: MAGIC, FORMAT, KIND, and every section and the CRC table within the stream. -/
def streamFormOk (bs : List Byte) : Bool :=
  let crcAt := leAt bs 48 8
  leAt bs 0 4 == magicPTSN && leAt bs 4 2 == 1 && byteAt bs 56 == 1
    && decide (leAt bs 8 8 = crcAt + 8 * ceilDiv crcAt (2 ^ 20)) && decide (leAt bs 8 8 ≤ bs.length)
    && decide (64 + 24 * leAt bs 6 2 ≤ crcAt)
    && (streamDir bs).all (fun e => decide (64 + 24 * leAt bs 6 2 ≤ e.2.2.1) && decide (e.2.2.1 + e.2.2.2 ≤ crcAt))

/-- The first MiB whose CRC-64 is not that of the table. -/
def streamCrcBad (bs : List Byte) : Option Nat :=
  let crcAt := leAt bs 48 8
  let front := bs.take crcAt
  (List.range (ceilDiv crcAt (2 ^ 20))).find? (fun i => leAt bs (crcAt + 8 * i) 8 != (crc64 (crcChunk front i)).toNat)

/-- The squares of a SQUARES section, none where its size is not that of the region. -/
def streamSquares (e : BitVec 128) (replayable : Bool) (c : List Byte) : List RestoredSquare :=
  let n := rSquares e
  let S := slotBytes e
  let bit := fun (i : Nat) => testBit (byteAt c (i / 8)) (i % 8)
  let last := (List.range n).filter bit
  let base := bitmapBytes n
  if c.length != base + n * S + (if replayable then last.length * S else 0) then []
  else (List.range n).map (fun i =>
    { square := i, lastc := bit i, committed := (c.drop (base + i * S)).take S
      other := if bit i && replayable then (c.drop (base + n * S + (last.filter (· < i)).length * S)).take S else [] })

/-- The sections of a type: TARGET and bytes. -/
def sectionsOf (bs : List Byte) (type : Nat) : List (Nat × List Byte) :=
  ((streamDir bs).filter (·.1 == type)).map (fun e => (e.2.1, (bs.drop e.2.2.1).take e.2.2.2))

def sectionOf (bs : List Byte) (type : Nat) : List Byte := ((sectionsOf bs type).map (·.2)).headD []

/-- What a restore has read (R339): the seed; of a snapshot, the logical Boards, the epochs, the group table and the member list; and the
domains. -/
structure Source where
  seed : W64
  logical : List (Nat × Nat) := []
  epochs : List (Nat × Nat) := []
  groups : List (Nat × BitVec 192) := []
  members : List (Nat × Nat) := []
  domains : List RestoredDomain
  deriving DecidableEq, Repr

/-- The content of a snapshot stream. -/
def streamSource (s : State) (bs : List Byte) : Source :=
  let seeds := sectionOf bs 1
  let gs := groupsOf (sectionOf bs 2)
  let rules := rulesOf (sectionOf bs 4)
  { seed := BitVec.ofNat 64 (leAt seeds 0 8), logical := unpackPairs seeds 8, epochs := unpackPairs seeds (afterList 8 seeds 8)
    groups := gs.1, members := gs.2
    domains := (sectionsOf bs 3).map (fun p =>
      let x := domainOf p.2
      { x with
        rules := rules.filter (fun r => s.slotDomain r.1 == some x.domain)
        squares := ((sectionsOf bs 5).filter (fun e => rDomain (s.region e.1) == x.domain)).map (fun e =>
          (e.1, streamSquares (s.region e.1) x.replayable e.2)) }) }

/-! ### The mirror partner as a source (R334, R335, R338) -/

/-- A line of a region's mirror that has come from the partner. -/
def mirrorLine (x : Snap) (r l : Nat) : List Byte :=
  match x.came.find? (fun p => p.1 == r && decide (p.2.1 ≤ l) && decide (l < p.2.1 + p.2.2.length / 64)) with
  | some p => (p.2.2.drop (64 * (l - p.2.1))).take 64
  | none => []

def mirrorBytes (x : Snap) (r l n : Nat) : List Byte := (List.range n).flatMap (fun i => mirrorLine x r (l + i))

/-- The first of the last 1,024 lines of a region's mirror. -/
def tailLine (s : State) (r : Nat) : Nat := rSize (s.region r) / 64

/-- TAG of a set that is SEALED in a region's mirror: the set of this domain, region and module. -/
def sealedTag (s : State) (d r set : Nat) : Option Nat :=
  let v := leNat (mirrorLine s.snap r (tailLine s r + set))
  if bitsOf v 511 480 = magicPTMS && bitsOf v 479 472 = d && bitsOf v 471 464 = set && bitsOf v 463 456 = 1 && bitsOf v 455 448 = r
      && bitsOf v 447 432 = s.device then some (bitsOf v 431 400)
  else none

/-- TAG of a usable set of a domain: every region has it sealed with one TAG. -/
def usableTag (s : State) (d set : Nat) : Option Nat :=
  match (allRegions s d).map (fun e => sealedTag s d e.1 set) with
  | some t :: ts => if ts.all (· == some t) then some t else none
  | _ => none

/-- The newest usable set of a domain. -/
def newestSet (s : State) (d : Nat) : Option Nat :=
  match usableTag s d 0, usableTag s d 1 with
  | some a, some b => some (if a < b then 1 else 0)
  | some _, none => some 0
  | none, some _ => some 1
  | none, none => none

/-- Requests of at most 479 lines, the most that one packet carries (R208). -/
def inChunks (r : Nat) : Nat → Nat → Nat → List (Nat × Nat × Nat)
  | 0, _, _ => []
  | fuel + 1, l, n => if n = 0 then [] else (r, l, min 479 n) :: inChunks r fuel (l + 479) (n - 479)

/-- The state block of a domain's lowest-numbered region. -/
def lowestRegion (s : State) (d : Nat) : Nat := ((allRegions s d).map (·.1)).foldl min 63

/-- The lines of the chosen sets: the state block, and every square. -/
def setWants (s : State) (d set : Nat) : List (Nat × Nat × Nat) :=
  let r := lowestRegion s d
  inChunks r 2 (tailLine s r + 2 + 510 * set) 510
    ++ (allRegions s d).flatMap (fun e => (List.range (rSquares e.2)).flatMap (fun i =>
      let n := slotBytes e.2 / 64
      inChunks e.1 2 ((2 * i + set) * n) n))

/-- The reads of the partner that have no answer yet. -/
def State.restoreReads (s : State) : Nat :=
  s.fab.txns.countP (fun t => match t.kind with
    | .restore .. => true
    | _ => false)

/-- RD_REQs go to the partner while fewer than 64 wait (DESIGN CHOICE, log entry 34). -/
def askPartner : Nat → State → State
  | 0, s => s
  | n + 1, s =>
    match s.snap.want with
    | [] => s
    | (r, l, k) :: ws =>
      if 64 ≤ s.restoreReads then s
      else
        let t := newTxn (.restore r l) { s with snap := { s.snap with want := ws } }
        askPartner n (t.2.send { dest := s.rd .mirrorPartner, src := s.ownAddr, opcode := 0x01, flits := 0, lines := k, txn := t.1
                                 addr := s.rd .mirrorDpa r / 64 + l })

/-- The seals have come: the newest usable set of each domain is read, or the restore ends with reason 8. -/
def chooseSets (s : State) : State :=
  let cs := s.snap.domains.map (fun d => (d, newestSet s d))
  if cs.any (fun c => c.2.isNone) then restoreFault 8 0 s
  else
    let sets := cs.map (fun c => (c.1, c.2.getD 0))
    askPartner 64 { s with snap := { s.snap with sets := sets, want := sets.flatMap (fun c => setWants s c.1 c.2) } }

/-- A restore from the partner starts with the two seals of every region. -/
def startMirrorRead (s : State) : State :=
  let ws := s.snap.domains.flatMap (fun d => (allRegions s d).map (fun e => (e.1, tailLine s e.1, 2)))
  if s.rd .mirrorPartner = 0xFFFF || ws.isEmpty then restoreFault 8 0 s
  else askPartner 64 { s with snap := { s.snap with want := ws } }

/-- Lines of the partner have come. -/
def landRestore (r l : Nat) (bs : List Byte) (s : State) : State :=
  let s := { s with snap := { s.snap with came := s.snap.came ++ [(r, l, bs)] } }
  if s.snap.want.isEmpty && s.restoreReads = 0 && s.snap.sets.isEmpty then chooseSets s else askPartner 64 s

/-- Every line of the chosen sets has come. -/
def mirrorRead (s : State) : Bool := !s.snap.sets.isEmpty && s.snap.want.isEmpty && s.restoreReads == 0

/-- A domain of a mirror set: its state block (Table 15-13), and its squares. -/
def mirrorDomain (s : State) (d set : Nat) : RestoredDomain :=
  let r := lowestRegion s d
  let bs := mirrorBytes s.snap r (tailLine s r + 2 + 510 * set) 510
  let pos := (List.range 16).map (fun b => (b, leAt bs (64 + 8 * b) 4, leAt bs (68 + 8 * b) 2, leAt bs (70 + 8 * b) 2))
  let slots := bitList (leAt bs 704 32) 256
  { domain := d, replayable := false, tag := leAt bs 4 4, record := BitVec.ofNat 128 (leAt bs 16 16)
    lossDigest := BitVec.ofNat 64 (leAt bs 32 8), lossCount := leAt bs 40 8
    positions := pos.filter (fun p => testBit (s.dom d).boards p.1), strict := leAt bs 48 1 == 1
    frozen := bitList (leAt bs 192 512) 4096
    rules := slots.zipIdx.map (fun e => (e.1, wordsOf (bs.drop (736 + 68 * e.2)) 17))
    squares := (allRegions s d).map (fun e =>
      let n := slotBytes e.2 / 64
      (e.1, (List.range (rSquares e.2)).map (fun i =>
        { square := i, lastc := false, committed := mirrorBytes s.snap e.1 ((2 * i + set) * n) n, other := [] }))) }

/-- What the chosen sets hold. -/
def mirrorSource (s : State) : Source :=
  let seed := match s.snap.sets with
    | c :: _ =>
      let r := lowestRegion s c.1
      BitVec.ofNat 64 (leAt (mirrorLine s.snap r (tailLine s r + 2 + 510 * c.2)) 8 8)
    | [] => s.job.seed
  { seed := seed, domains := s.snap.sets.map (fun c => mirrorDomain s c.1 c.2) }

/-- The state block of each set is there, with the TAG of its seal. -/
def blocksOk (s : State) : Bool :=
  s.snap.sets.all (fun c =>
    let r := lowestRegion s c.1
    let bs := mirrorLine s.snap r (tailLine s r + 2 + 510 * c.2)
    leAt bs 0 4 == magicPTMB && usableTag s c.1 c.2 == some (leAt bs 4 4))

/-! ### The restore -/

/-- The bytes of a snapshot: those of host memory, or SNAP_BYTES of a SNAPSHOT region. -/
def sourceBytes (s : State) (r : RestoreSource) : List Byte :=
  if s.snap.target = 1 then (if snapRegion s s.snap.addr then s.dramRead s.snap.addr s.snap.bytes else []) else r.stream

def sourceOf (s : State) (r : RestoreSource) : Source :=
  if s.snap.target = 2 then mirrorSource s else streamSource s (sourceBytes s r)

/-- A SQUARES section names a region that the loaded image does not have. -/
def sourceAbsent (s : State) (r : RestoreSource) : Bool :=
  s.snap.target != 2 && (sectionsOf (sourceBytes s r) 5).any (fun e => rKind (s.region e.1) != 1)

/-- RESTORE_EPOCH is an epoch of the source's group table (R340). -/
def epochTaken (s : State) (x : Source) : Bool := (x.groups.map (fun g => gEpoch g.2)).contains s.snap.epoch

/-- SNAP_CONTROL 3. A refusal for the chosen point carries reason 7 (R341). The group table of a snapshot in the module's own stacks is at hand,
and RESTORE_EPOCH is held against it here (R340); of one in host memory it is once it has been read. -/
def restoreRule : Rule := fun _ s =>
  if s.dev.state != .ready || s.dev.jobState != .loaded || !s.snap.idle then (stRefused, s)
  else if s.rd .restorePoint = 0 && (s.rd .snapTarget = 2 || s.rd .restoreRetag = 1) then
    (stRefused, { s with snap := { s.snap with error := 7 } })
  else
    let t := { s with snap := takeSnap s 5 }
    if t.snap.target = 2 then (stOk, startMirrorRead t)
    else if t.snap.target = 1 && epochTaken t (sourceOf t ⟨none, []⟩) then (stRefused, s)
    else (stOk, t)

def execRestore (via : Via) (s : State) : Host.Outcome State Fault Refusal := .next (viaReg via .snapControl 3 restoreRule s)

/-- A region of the source fits the loaded image. -/
def regionFits (s : State) (d : Nat) (r : Nat × List RestoredSquare) : Bool :=
  let e := s.region r.1
  rKind e == 1 && rDomain e == d && r.2.length == rSquares e
    && r.2.all (fun q => decide (q.square < rSquares e) && q.committed.length == slotBytes e)

/-- The checks of a snapshot's header, directory, CRC table and JOB_ID (R339): a reason and the byte offset of the chunk, 0 for none. -/
def streamReason (s : State) (bs : List Byte) : Nat × Nat :=
  if !streamFormOk bs then (3, 0)
  else
    match streamCrcBad bs with
    | some i => (4, i * 2 ^ 20)
    | none => if leAt bs 16 8 != s.job.id then (5, 0) else (0, 0)

/-- The first reason that stops a restore with its byte offset, 0 for none. -/
def restoreReason (s : State) (r : RestoreSource) : Nat × Nat :=
  let named := s.snap.domains.map (fun d => (d, (sourceOf s r).domains.find? (fun x => x.domain == d)))
  let form := if s.snap.target = 2 then (if blocksOk s then (0, 0) else (8, 0)) else streamReason s (sourceBytes s r)
  if form.1 != 0 then form
  else if sourceAbsent s r || named.any (fun p => match p.2 with
      | none => true
      | some x => x.squares.length != (allRegions s p.1).length || x.squares.any (fun q => !regionFits s p.1 q)) then
    (if s.snap.target = 2 then 8 else 6, 0)
  else if s.snap.point = 0 && named.any (fun p => match p.2 with | some x => !x.replayable | none => false) then (7, 0)
  else (0, 0)

/-- Groups, logical Boards and epochs (R339 step 1): every group has EPOCH := RESTORE_EPOCH, and nothing is kept of its messages. -/
def restoreGroups (x : Source) (s : State) : State :=
  let gs := if s.snap.target = 2 || s.snap.keepGroups then s.job.groups else tblOf x.groups
  let ms := if s.snap.target = 2 || s.snap.keepGroups then s.job.members else tblOf x.members
  noteTables <| dropGroups { s with job := { s.job with
    groups := gs.map (fun g => (g.1, BitVec.ofNat 192 (setBits g.2.toNat 191 176 s.snap.epoch)))
    members := ms
    logical := if s.snap.target = 2 then s.job.logical else tblOf x.logical
    epochs := if s.snap.target = 2 then s.job.epochs else tblOf x.epochs } }

/-- The groups of a source keep the limits of R222, as they do at every load (R3). -/
def groupsFit (s : State) : Bool := s.job.groups.all (fun g => groupOk s g.1 g.2)

/-- A square's two planes and its record (R339 step 2). A pre-step value that the source does not hold is a free value. -/
def restoreSquare (e : BitVec 128) (point tag : Nat) (q : RestoredSquare) (s : State) : State :=
  let S := slotBytes e
  let o := if !q.lastc then (q.committed, s) else if q.other.length = S then (q.other, s) else freeBytes S s
  let even := if q.lastc && point = 0 then o.1 else q.committed
  let odd := if q.lastc && point = 0 then q.committed else o.1
  let k := stackOf (rBase e)
  (((o.2.hubStackWrite (planeAddr e q.square 0) even).hubStackWrite (planeAddr e q.square 1) odd).setVrec k
    (rVtBase e + q.square) { dirty := false, p := false, tag8 := tag % 256, was := tag % 256, lastc := true, m0 := true, m1 := true }).modStack k
    (fun x => { x with vtBad := x.vtBad.filter (· != (rVtBase e + q.square) / 4) })

/-- COMMITTED_TAG after the restore of a domain. -/
def restoredTag (s : State) (x : RestoredDomain) : Nat :=
  if s.snap.point = 0 then (x.tag + 2 ^ 32 - 1) % 2 ^ 32
  else if s.snap.retag then (s.dom x.domain).initTag
  else x.tag

/-- FROZEN of the domain's groups. -/
def restoreFrozen (x : RestoredDomain) (s : State) : State :=
  { s with job := { s.job with pgroups := s.job.pgroups.map (fun g =>
      if pgUsed g.2 && pgDomain g.2 = x.domain then
        (g.1, BitVec.ofNat 64 (setBits g.2.toNat 7 7 (if x.frozen.contains g.1 then 1 else 0)))
      else g) } }

/-- A domain is restored. -/
def restoreDomain (x : RestoredDomain) (s : State) : State :=
  let d := x.domain
  let tag := restoredTag s x
  let s := forEach x.squares (fun r s => forEach r.2 (restoreSquare (s.region r.1) s.snap.point tag) s) s
  let s := forEach s.stacksOk (fun k s => s.setDreg k d { s.dreg k d with committedTag := tag, lost := false }) s
  let s := restoreFrozen x s
  let s := { s with job := { s.job with rules := x.rules.foldl (fun (t : Tbl (List W32)) (r : Nat × List W32) => tset t r.1 r.2) s.job.rules } }
  let s := s.wr .strict (if x.strict then 1 else 0) d
  let rec_ : CommitRec :=
    { tag := x.tag, record := x.record, lossDigest := x.lossDigest, lossCount := x.lossCount, positions := x.positions }
  let zero := s.snap.point = 0
  latchFrozen d <| s.modDom d (fun y => { y with
    committedTag := tag
    lost := false
    preIntact := true
    commitRec := rec_
    startPos := x.positions
    armed := if zero then some x.record else y.armed
    armTime := if zero then s.now else y.armTime
    replay := if zero then some rec_ else none
    restoreState := 1 })

/-- An uncorrectable line of a snapshot that a restore reads from a SNAPSHOT region. -/
def sourceBad (s : State) : Option Nat :=
  if s.snap.target = 1 && s.snap.bytes != 0 then s.badLine s.snap.addr s.snap.bytes else none

/-- Every domain named is restored from its source. -/
def restoreAll (x : Source) (s : State) : State :=
  let s := if s.snap.target = 1 && s.snap.bytes != 0 then hubServed s.snap.addr s.snap.bytes s else s
  let s := restoreGroups x s
  let s := forEach (x.domains.filter (fun y => s.snap.domains.contains y.domain)) restoreDomain s
  -- restore and replay use handle-queue mode (R118)
  let s := forEach s.boardsOk (fun b s => s.modBoard b (·.wantModes true)) s
  let s := ({ s with job := { s.job with seed := x.seed } } : State).wr .jobSeed x.seed.toNat
  ({ s with snap := { s.snap with state := 3, replayDiff := 0, came := [], sets := [] } } : State).signal 7

/-- The source can be read: nothing of it is outstanding, and no stack holds its accesses for a test. -/
def sourceReady (s : State) : Bool := s.snap.state == 5 && (s.snap.target != 2 || mirrorRead s) && !s.stacksOk.any s.underTest

/-- The source has been read (R339): a host read that ended in an error completion, or a line or region that cannot be read, stops the
restore. A RESTORE_EPOCH that the snapshot's groups have refuses it (R340): nothing changes, and SNAP_STATE is as before. Groups that break a
limit of R222 stop it with reason 3 (DESIGN CHOICE, log entry 34). -/
def execRestoreComplete (r : RestoreSource) (s : State) : Host.Outcome State Fault Refusal :=
  let x := sourceOf s r
  let reason := restoreReason s r
  if !sourceReady s then .next s
  else if s.snap.target = 0 && r.failure.isSome then .next (restoreFault 1 (r.failure.getD 0) s)
  else if !snapFits s s.snap.bytes then
    let c := drawReason (snapRegionFault s)
    .next (restoreFault c.1 0 c.2)
  else
    match sourceBad s with
    | some l =>
      let c := drawReason (copyUe (64 * l) s)
      .next (restoreFault c.1 (64 * l - s.snap.addr) c.2)
    | none =>
      if reason.1 != 0 then .next (restoreFault reason.1 reason.2 s)
      else if s.snap.target != 2 && epochTaken s x then .next { s with snap := { s.snap with state := s.snap.before } }
      else if !groupsFit (restoreGroups x s) then .next (restoreFault 3 0 s)
      else .next (restoreAll x s)

/-- SNAP_CONTROL 4. -/
def snapCancelRule : Rule := fun _ s =>
  if s.snap.state = 1 || s.snap.state = 2 then (stOk, snapEnd 0x0706 9 0 (endCaptures s))
  else if s.snap.state = 5 then (stOk, restoreFault 9 0 s)
  else (stOk, s)

def execSnapCancel (via : Via) (s : State) : Host.Outcome State Fault Refusal := .next (viaReg via .snapControl 4 snapCancelRule s)

end Sys2Proof.Machine
end

