-- ==== Sys2Proof/Machine/Clock.lean ====
section
/-!
DEFINITION. Machine/Clock.lean: one tick of the TB clock, which is what a step on an empty queue does (R309, R350; log entry 2).
-/
namespace Sys2Proof.Machine

/-- FCLK cycles of a half in one tick of TB (Table 14-1): two at full rate, one while it is clocked down. -/
def halfCycles (s : State) (h : Nat) : Nat := if (s.pwr.half h).down then 1 else 2

/-- FCLK cycles of a Board in one tick; none in DEEP_SLEEP. -/
def fclkPerTick (s : State) (b : Nat) : Nat :=
  if !s.boardOk b || (s.board b).asleep then 0 else halfCycles s (boardHalf b)

/-- The TB clock runs in every state but OFF and STANDBY. -/
def tbRuns (s : State) : Bool := s.dev.state != .off && s.dev.state != .standby

/-- The cycle counters of the Boards run while FCLK runs and the counters are not frozen (R350, R356). -/
def tickCycles (s : State) : State :=
  if s.powered && !s.cnt.freeze.frozen then
    { s with boards := s.boards.map (fun e => (e.1, { e.2 with cycles := e.2.cycles + BitVec.ofNat 64 (fclkPerTick s e.1) })) }
  else s

/-- A statistics entry and an event of the programmable counters count n cycles. -/
def countCycles (b : Nat) (r : Reg) (ev n : Nat) (s : State) : State := countEvent b ev none none n (s.bumpBy r n b)

/-- Beads whose execution has begun count the cycles of a hold (Table 16-9). -/
def Board.beadHolds (x : Board) (n : Nat) : Board :=
  { x with beads := x.beads.map (fun k => if k.execStart = 0xFFFFFFFF then k else { k with held := min (k.held + n) (2 ^ 32 - 1) }) }

/-- The cycles of a Board's holds (Table 16-4, R98, R128, R322). -/
def tickHolds (b n : Nat) (s : State) : State :=
  let x := s.board b
  let s := if x.hold.isEmpty then s else countEvent b 0x09 none none n s
  let s := if x.tallyHold then countCycles b .tallyHoldCycles 0x0A n s else s
  let s := if x.streamHold.isSome then countCycles b .streamHoldCycles 0x0B n s else s
  let s := if x.dutyHold then countEvent b 0x0C none none n (s.bumpBy .dutyHoldCycles n) else s
  if x.held then s.modBoard b (·.beadHolds n) else s

/-- The next bundle of a stream waits on its semaphore: the wait is counted when it begins (R351; DEDUCED, log entry 46). -/
def tickWait (b : Nat) (st : StreamSel) (s : State) : State :=
  let x := s.board b
  let n := nextBundle x st
  if streamLive s b st && !(x.strm st).semWait && !semMet x n then
    (countEvent b 0x16 (s.domOfEpoch (hEpoch n.header)) none 1 s).modBoard b (fun x => x.setStrm st { x.strm st with semWait := true })
  else s

/-- The cycles of a Board's main stream that is blocked or waits at SWAP (R152, R159). -/
def tickStreams (b n : Nat) (s : State) : State :=
  let s := if (s.board b).mainWaits then countCycles b .mainBlockedCycles 0x08 n s else s
  let s := if (s.board b).swapWaits then s.bumpBy .swapWaitCycles n b else s
  tickWait b .filler (tickWait b .main s)

/-- What n FCLK cycles bring to a Board's counts (Table 16-4). -/
def tickBoard (b : Nat) (s : State) : State :=
  let n := fclkPerTick s b
  if n = 0 then s else tickStreams b n (tickHolds b n (countEvent b 0x01 none none n s))

/-- Gather runs whose slots came free issue again (R225). -/
def tickEvents (s : State) : State :=
  if s.powered then forEach s.boardsOk (fun b s => issueGathers b 256 (tickBoard b s)) s else s

/-- Mirror passes and the snapshot engine go on (R334, R336; log entry 34). -/
def tickEngines (s : State) : State := if s.powered then captureNext (passesOn s) else s

/-- The lowest of the firmware cap and the hardware throttle's duty (R316). -/
def Half.duty (x : Half) : Nat := min x.cap (if x.hwOn then x.hwDuty else 16)

/-- The duty windows of 1,024 FCLK cycles go on; a Board's scheduled units are held in the last part of each (R315). -/
def tickDuty (s : State) : State :=
  if !s.powered then s
  else
    let s := forEach [0, 1] (fun h s => s.modHalf h (fun x => { x with dutyPos := (x.dutyPos + halfCycles s h) % 1024 })) s
    let off := fun (b : Nat) => let x := s.pwr.half (boardHalf b); decide (64 * x.duty ≤ x.dutyPos)
    { s with boards := s.boards.map (fun e => (e.1, { e.2 with dutyHold := !e.2.asleep && off e.1 })) }

/-- The time counter counts a tick; in HOLDOVER it keeps its last rate (R219). -/
def tickTime (s : State) : State :=
  if s.fab.tbState = 3 then
    let f := s.fab.tbFrac + s.fab.tbRate
    { s with time := s.time + 1 + BitVec.ofInt 64 (f / 1000000000000), fab := { s.fab with tbFrac := f % 1000000000000 } }
  else { s with time := s.time + 1 }

/-- Staging goes from ERASING to RECEIVING, and from there, with the package in host memory, to VERIFYING, a tick apart (R304; DESIGN CHOICE, log
entry 44). -/
def tickStaging (s : State) : State :=
  if s.dev.restarting.contains coreSecurity then s
  else if s.fw.stageState = 1 then { s with fw := { s.fw with stageState := 2 } }
  else if s.fw.stageState = 2 && s.fw.stageSource = 0 then
    { s with fw := { s.fw with stageState := 3, progress := s.rd .fwPackageBytes } }
  else s

/-- The time since reset: the always-on domain counts it in every state but OFF (Table 12-9). -/
def tickUp (s : State) : State := if s.dev.state = .off then s else { s with dev := { s.dev with up := s.dev.up + 1 } }

/-- One nanosecond passes. -/
def tick (s : State) : State := tickUp (if tbRuns s then tickTime (tickDuty (tickStaging (tickEngines (tickEvents (tickCycles s))))) else s)

end Sys2Proof.Machine
end

