-- ==== Sys2Proof/Machine/Ports.lean ====
section
/-!
DEFINITION. Machine/Ports.lean: ports and their lanes, routing, multicast, directed routes and the fabric time base (R198 to R202, R210 to
R219).
-/
namespace Sys2Proof.Machine

/-! ### Lanes and widths (R198, R201) -/

/-- Positions of a port that are neither retired nor failed, as a mask. -/
def goodLanes (s : State) (p : Nat) : Nat :=
  ((List.range 4).filter (fun k => s.laneGood p k && !testBit (s.port p).failed k)).foldl (fun a k => a + 2 ^ k) 0

/-- The widest width of Table 09-1 whose lane set is good. -/
def widthOf (m : Nat) : Nat :=
  if m % 16 = 15 then 4 else if m % 4 = 3 || m / 4 % 4 = 3 then 2 else if m % 16 = 0 then 0 else 1

/-- LANES_GOOD (Table 09-11). -/
def lanesGood (s : State) (p : Nat) : Nat := ((List.range 4).filter (s.laneGood p)).foldl (fun a k => a + 2 ^ k) 0

/-! ### Routing (R211 to R213) -/

def topoSize (s : State) (i : Nat) : Nat := s.rd (if i = 0 then .sizeX else if i = 1 then .sizeY else .sizeZ)

/-- Coordinates of a device number, one for each dimension. -/
def coordsOf (s : State) (n : Nat) : List Nat :=
  let x := topoSize s 0
  let y := topoSize s 1
  [n % max 1 x, n / max 1 x % max 1 y, n / max 1 (x * y)].take (s.rd .topoDims)

/-- Modules of the topology. -/
def topoModules (s : State) : Nat := ((List.range (s.rd .topoDims)).map (topoSize s)).foldl (· * ·) 1

/-- The hop that dimension order chooses: dimension, direction (1 to 6), and whether it crosses the dateline. -/
def dimHop (s : State) (dst : Nat) : Option (Nat × Nat × Bool) :=
  let here := coordsOf s s.device
  let there := coordsOf s dst
  ((here.zip there).zipIdx.find? (fun e => e.1.1 != e.1.2)).map (fun e =>
    let a : Int := e.1.1
    let n : Int := topoSize s e.2
    let wrap := testBit (s.rd .wrap) e.2
    let d0 : Int := (e.1.2 : Int) - a
    let d1 := if wrap && decide (n < 2 * d0.natAbs) then d0 - (if 0 < d0 then n else -n) else d0
    let d2 := if wrap && 2 * (d1.natAbs : Int) == n then (d1.natAbs : Int) else d1
    let next := if 0 < d2 then (if a == n - 1 then 0 else a + 1) else if a == 0 then n - 1 else a - 1
    (e.2, 2 * e.2 + (if 0 < d2 then 1 else 2), (a == n - 1 && next == 0) || (a == 0 && next == n - 1)))

/-- A way out: the ports of the group, and the dateline bit (none: unchanged). -/
structure Way where
  ports : List Nat
  dateline : Option Bool := none
  deriving DecidableEq, Repr

/-- The dimension of the hop by which a packet came; a port of no direction gives none. -/
def cameBy (s : State) (arrival : Option Nat) : Option Nat :=
  arrival.bind (fun p => if s.dirOf p = 0 then none else some ((s.dirOf p - 1) / 2))

/-- The group of ports for a device (R212): the route-table entry, or dimension order. -/
def wayTo (s : State) (dst : Nat) (arrival : Option Nat) (dateline : Bool) : Way :=
  let r := s.rd .routeEntry dst
  if testBit r 31 then { ports := bitList r 24 }
  else if topoModules s ≤ dst then { ports := [] }
  else
    match dimHop s dst with
    | none => { ports := [] }
    | some h =>
      let b := if cameBy s arrival == some h.1 then dateline else false
      { ports := (List.range 24).filter (fun p => s.dirOf p == h.2.1), dateline := some (b || h.2.2) }

/-- The port among those in service, by the hash of R212. -/
def pickPort (s : State) (ports : List Nat) (src target : Nat) : Option Nat :=
  let use := ports.filter (fun p => (s.port p).inService)
  let h := src ^^^ target
  let h := h ^^^ (h / 256)
  use[h % max 1 use.length]?

/-- The address a packet is routed for: DEST, or the root of a multicast's group. -/
def routeTarget (s : State) (k : Pkt) : Nat := if k.mc then gRoot (s.grp (k.dest % 1024)) else k.dest

/-- The place on the package from which a packet comes: the die of its arrival port, or the Board that SRC names. -/
def placeOf (arrival : Option Nat) (k : Pkt) : MeshPos :=
  match arrival with
  | some p => portDiePos (p / 6)
  | none => boardPos (k.src % 16)

/-- The place on the package for which a packet of this module is: a stack, for its reads, writes and update commands, or the Board that
DEST names. -/
def targetPos (k : Pkt) : MeshPos :=
  let stack := if k.opcode = 0x07 then bitsOf (leAt k.payload 0 16) 61 58 else stackOf (64 * k.addr)
  if (k.opcode = 0x01 || k.opcode = 0x02 || k.opcode = 0x07 || k.opcode = 0x08) && stack < 12 then stackPos stack
  else boardPos (k.dest % 16)

/-- A bulk packet crosses the package to a place; the other classes have networks of their own (R17, R18). -/
def crossMesh (arrival : Option Nat) (k : Pkt) (q : MeshPos) (s : State) : State :=
  if classOf k.opcode = 0 then countRoute (placeOf arrival k) q (k.flits + 1) s else s

/-- A packet goes toward its target: on a port of the way's group, into the wait for a group that switches, or dropped with NO_ROUTE. -/
def routeOut (arrival : Option Nat) (k : Pkt) (s : State) : State :=
  let t := routeTarget s k
  let w := wayTo s (t / 16) arrival k.dateline
  match pickPort s w.ports k.src t with
  | none => rejectPkt k 0x0608 (takenUp arrival k s)
  | some p =>
    if s.stopped p then { s with fab := { s.fab with routeWait := s.fab.routeWait ++ [(arrival, k)] } }
    else
      transmitFrom { pkt := { k with hop := k.hop + 1, dateline := w.dateline.getD k.dateline }, arrival := arrival, pool := poolOf k } p
        (crossMesh arrival k (portDiePos (p / 6)) s)

/-- The package takes up a packet. An arriving NOTIFY is a cause of vector 5 (Table 11-10), reported with the code and the domain that it carries
(DEDUCED, log entry 51). -/
def takeIn (k : Pkt) (s : State) : State :=
  let s := s.send k
  if k.opcode = 0x11 then s.signal 5 (leAt k.payload 0 2) (byteAt k.payload 3) else s

/-- A packet of this module is handed to the package. A gather request or an update command keeps its place in the receive buffer until it
is taken up there (R190, R227). -/
def handOver (arrival : Option Nat) (k : Pkt) (s : State) : State :=
  let s := crossMesh arrival k (targetPos k) s
  match arrival with
  | some p =>
    if k.opcode = 0x03 || k.opcode = 0x07 then
      { s.send k with fab := { s.fab with onPackage := s.fab.onPackage ++ [(p, k)] } }
    else takenUp arrival k (takeIn k s)
  | none => s

/-- A packet that the module originates or passes on (R212). One for a Board here is handed to the package, also while no topology is
written: R210 discards then what has to be routed on (DESIGN CHOICE, log entry 33). -/
def forward (a : Option Nat) (pkt : Pkt) (s : State) : State :=
  let t := routeTarget s pkt
  let refuse := fun (code : Nat) => rejectPkt pkt code (takenUp a pkt s)
  if s.device = 0xFFFF then dropPkt (takenUp a pkt s)
  else if !pktOk pkt then refuse 0x0606
  else if a.isSome && pkt.hop = 31 then refuse 0x0609
  else if t / 16 = s.device then
    (if pkt.mc then s
     else if a.isSome && !s.boardOk (pkt.dest % 16) then refuse 0x060A
     else handOver a pkt s)
  else if s.rd .topoDims = 0 then refuse 0x0607
  else routeOut a pkt s

/-- PACKET_FORWARD (R212). -/
def execPacketForward (arrival : Option PortNo) (pkt : Pkt) (s : State) : Host.Outcome State Fault Refusal :=
  let a := arrival.map (·.val)
  if !s.powered || pkt.dr then .next s
  else if a.isSome && dieStalled s a pkt then .next (stall a pkt s)
  else .next (forward a pkt s)

/-! ### Multicast (R215 to R217) -/

/-- The hold slots of a die, in order. -/
def holdsOn (s : State) (die : Nat) : List Held := s.fab.holds.filter (fun h => h.die == die)

/-- A die can hold n more copies of a packet: 64 slots, 2,048 flits. -/
def holdRoom (s : State) (die n : Nat) (k : Pkt) : Bool :=
  let hs := holdsOn s die
  decide (hs.length + n ≤ 64) && decide ((hs.map (fun h => h.pkt.flits + 1)).foldl (· + ·) 0 + n * (k.flits + 1) ≤ 2048)

/-- The die whose hold slots the copy for port p takes: that of the arrival port, which forks (R215); for a packet of this module, that of
the output port (DESIGN CHOICE, log entry 32). -/
def forkDie (arrival : Option Nat) (p : Nat) : Nat := (arrival.map dieOf).getD (dieOf p)

/-- A copy goes into a hold slot. At the root module a packet without an arrival port takes the slots of the output port's die (DESIGN
CHOICE, log entry 32). -/
def putHold (arrival : Option Nat) (p : Nat) (k : Pkt) (s : State) : State :=
  let s := if arrival.isNone then crossMesh none k (portDiePos (p / 6)) s else s
  let h : Held := { die := forkDie arrival p, port := p, pkt := k, since := s.time }
  let s := { s with fab := { s.fab with holds := s.fab.holds ++ [h] } }
  countBlock (4 * p + 3) 1 (s.maxReg .holdMax (holdsOn s h.die).length)

/-- A copy can leave at once on a port: there is credit for all its flits (DEDUCED, log entry 32). -/
def copyGoes (s : State) (p : Nat) (k : Pkt) : Bool :=
  roomFor s p k && decide (k.flits + 1 ≤ (s.port p).credit (poolOf k)) && !heldFirst s p k && !(s.port p).queue.any (fun q => poolOf q.pkt == poolOf k)

/-- The targets behind a branch: the group's members on the peer's module, and those whose unicast route leaves by the port's group; a
branch without one is named by the peer's Board 0 (DESIGN CHOICE, log entry 32). -/
def branchTargets (s : State) (g p : Nat) : List Nat :=
  let d := (s.port p).peerDevice
  match (s.membersOf (s.grp g)).filter (fun m =>
      m / 16 != s.device && (m / 16 == d || (wayTo s (m / 16) none false).ports.contains p)) with
  | [] => [d * 16]
  | ts => ts

/-- The first target behind a branch. -/
def branchTarget (s : State) (g p : Nat) : Nat := (branchTargets s g p).headD 0

/-- The combined acknowledgement of a fork goes upstream, or to the sender. -/
def sendMcAck (f : McFork) (s : State) : State :=
  let k : Pkt := { dest := f.src, src := s.ownAddr, opcode := 0x85, flits := 0, lines := 1, txn := f.txn
                   payload := padTo 64 (leBytes 2 f.failedCount ++ leBytes 2 f.firstFailed ++ leBytes 2 f.code) }
  match f.upPort with
  | some p => transmit p k s
  | none => s.send k

/-- A branch of a fork has acknowledged: failed targets, the first, and its code. -/
def branchAck (src txn n first code : Nat) (s : State) : State :=
  match s.fab.forks.find? (fun f => f.src == src && f.txn == txn) with
  | none => s
  | some f =>
    let f' := { f with left := f.left - 1, failedCount := f.failedCount + n
                       firstFailed := if f.failedCount = 0 && n != 0 then first else f.firstFailed
                       code := if f.failedCount = 0 && n != 0 then code else f.code }
    if f'.left = 0 then sendMcAck f' { s with fab := { s.fab with forks := s.fab.forks.filter (fun x => x != f) } }
    else { s with fab := { s.fab with forks := s.fab.forks.map (fun x => if x == f then f' else x) } }

/-- The copy for a local Board crosses the package and lands (R18, R228), or names a Board that is not there (Table 01-5). -/
def copyToBoard (arrival : Option Nat) (b : Nat) (k : Pkt) (s : State) : State :=
  let s := crossMesh arrival k (boardPos b) s
  if !s.boardOk b then branchAck k.src k.txn 1 (s.addrOf b) 0x060A (s.raise { code := 0x060A })
  else branchAck k.src k.txn 0 0 0 (gatherAnswer b (hdrOf k.payload) (k.payload.drop 64) s)

/-- A branch toward a port has failed for all its targets (R217, Table 09-9). -/
def branchFails (p : Nat) (k : Pkt) (code : Nat) (s : State) : State :=
  branchAck k.src k.txn (branchTargets s (k.dest % 1024) p).length (branchTarget s (k.dest % 1024) p) code s

/-- The copy for an output port: sent, held, or failed. -/
def copyToPort (arrival : Option Nat) (dead : List Nat) (p : Nat) (k : Pkt) (s : State) : State :=
  let c := { k with hop := k.hop + 1 }
  if !(s.port p).inService then branchFails p k 0x0602 s
  else if dead.contains p || s.job.failed.contains (k.dest % 1024, branchTarget s (k.dest % 1024) p) then branchFails p k 0x0603 s
  else if copyGoes s p c then transmitFrom { pkt := c, bound := true } p (crossMesh arrival k (portDiePos (p / 6)) s)
  else putHold arrival p c s

/-- The ports whose copy must be held. -/
def mustHold (s : State) (dead : List Nat) (k : Pkt) : List Nat :=
  let g := k.dest % 1024
  (gChildren (s.grp g)).filter (fun p =>
    (s.port p).inService && !dead.contains p && !s.job.failed.contains (g, branchTarget s g p) && !copyGoes s p { k with hop := k.hop + 1 })

/-- Every copy of a packet has a place: the dies have room to hold, together, those that cannot leave (R216). -/
def forkMay (s : State) (arrival : Option Nat) (dead : List Nat) (k : Pkt) : Bool :=
  let wait := mustHold s dead k
  (List.range 4).all (fun d =>
    let n := (wait.filter (fun p => forkDie arrival p == d)).length
    n == 0 || holdRoom s d n k)

/-- A multicast is forked (R215); it leaves its input. -/
def forkCopies (arrival : Option Nat) (dead : List Nat) (k : Pkt) (s : State) : State :=
  let e := s.grp (k.dest % 1024)
  let bs := bitList (gForkBoards e) 16
  let ps := gChildren e
  let f : McFork := { group := k.dest % 1024, src := k.src, txn := k.txn
                      upPort := if gUpPort e = 24 then none else arrival, left := bs.length + ps.length }
  let s := takenUp arrival k s
  if f.left = 0 then sendMcAck f s
  else
    let s := { s with fab := { s.fab with forks := s.fab.forks ++ [f] } }
    forEach ps (fun p s => copyToPort arrival dead p k s) (forEach bs (fun b s => copyToBoard arrival b k s) s)

/-- The packet at the head of a die's input may go on. -/
def stalledMay (s : State) (w : Stalled) : Bool :=
  s.fab.stalled.find? (fun o => o.arrival.map dieOf == w.arrival.map dieOf) == some w
    && (!w.pkt.mc || forkMay s w.arrival w.dead w.pkt)

/-- A waiting vote packet is for the module's own combine point (R237). -/
def votesHere (s : State) (w : Stalled) : Bool :=
  let e := s.grp (hdrOf w.pkt.payload).group
  w.pkt.opcode == 0x06 && gKind e == 4 && (match w.arrival with
    | some p => (contributors e).contains (32 + p)
    | none => false)

/-- Packets that waited at an input go on, in order of arrival. -/
def retryForks : Nat → State → State
  | 0, s => s
  | n + 1, s =>
    match s.fab.stalled.find? (stalledMay s) with
    | none => s
    | some w =>
      let s := { s with fab := { s.fab with stalled := s.fab.stalled.erase w } }
      retryForks n (if w.pkt.mc then forkCopies w.arrival w.dead w.pkt s
        else if votesHere s w then voteIn w.arrival w.pkt s
        else forward w.arrival w.pkt s)

/-- A port may be able to send again: queued packets and held copies go out, and what waited at the inputs follows. -/
def wakePort (p : Nat) (s : State) : State := retryForks 64 (drainPort p 1024 s)

/-- MC_DATA at a module of its tree (R215): from the port toward the root, or at the root's module. -/
def execMcData (p : Option PortNo) (pkt : Pkt) (s : State) : Host.Outcome State Fault Refusal :=
  let a := p.map (·.val)
  let g := pkt.dest % 1024
  let e := s.grp g
  let h := hdrOf pkt.payload
  let refuse := fun (code : Nat) => rejectPkt pkt code (takenUp a pkt s)
  if pkt.opcode != 0x04 || !pkt.mc || !s.powered then .next s
  else if s.device = 0xFFFF then .next (dropPkt (takenUp a pkt s))
  else if !pktOk pkt then .next (refuse 0x0606)
  else if a.isSome && pkt.hop = 31 then .next (refuse 0x0609)
  else if gKind e != 0 && gEpoch e != h.gepoch then .next (staleDrop (takenUp a pkt s))
  else if gUpPort e != 24 && a != some (gUpPort e) then .next s
  else if !epochOk s g h.gepoch || h.group != g || gKind e != 1 then .next (staleDrop (takenUp a pkt s))
  else if !dieStalled s a pkt && forkMay s a [] pkt then .next (forkCopies a [] pkt s)
  else .next (stall a pkt s)

/-- A failed multicast or request at its sender: the Board halts with the answer's code (R217). -/
def senderFails (b domain code : Nat) (s : State) : State :=
  haltBoard b { code := code, kind := 1, unit := b, domain := some domain } s

/-- The combined acknowledgement reaches the owner that sent the multicast (R215, R227). -/
def mcDone (txn n code : Nat) (s : State) : State :=
  match takeTxn txn s with
  | (some { kind := .multicast b id, .. }, s) =>
    let d := match (s.board b).rdvAt id with
      | some r => pgDomain (s.pgroup r.pgroup)
      | none => 0
    let s := retryGathers b 256 (s.modBoard b (fun x => x.dropRdv id))
    if n = 0 then s else senderFails b d code s
  | (_, _) => s

def execMcAck (p : Option PortNo) (pkt : Pkt) (s : State) : Host.Outcome State Fault Refusal :=
  let n := leAt pkt.payload 0 2
  let first := leAt pkt.payload 2 2
  let code := leAt pkt.payload 4 2
  if pkt.opcode != 0x85 || !s.powered then .next s
  else
  let s := takenUp (p.map (·.val)) pkt s
  if s.device = 0xFFFF then .next (dropPkt s)
  else if !pktOk pkt then .next (rejectPkt pkt 0x0606 s)
  else if p.isSome && pkt.hop = 31 then .next (rejectPkt pkt 0x0609 s)
  else if s.fab.forks.any (fun f => f.src == pkt.dest && f.txn == pkt.txn) then .next (branchAck pkt.dest pkt.txn n first code s)
  else if pkt.dest / 16 = s.device then .next (mcDone pkt.txn n code s)
  else .next s

/-- The targets of a branch are declared failed for its group, and the first is reported (R217, R272). -/
def declareFailed (g : Nat) (ts : List Nat) (s : State) : State :=
  let t := ts.headD 0
  let s := s.raise { code := 0x0603, detail := packAt [(0, 2, t), (2, 2, g)] }
  let s := if testBit (s.rd .notifyMaskFabric) 5 then s else fabricNotify s (notifyBytes s 0x0603 5 0xFF (s.log.nextSeq - 1))
  let s := (s.bump .mcHoldTimeouts).wr .failedTarget t
  { s with job := { s.job with failed := s.job.failed ++ (ts.map (g, ·)).filter (fun e => !s.job.failed.contains e) } }

/-- A packet discarded behind a copy that timed out: a copy is acknowledged as failed, a request is answered with ERR. -/
def discardBehind (p : Nat) (k : Pkt) (s : State) : State :=
  if k.mc then branchFails p k 0x0603 s else if k.opcode ≤ 0x08 then sendErr k 0x0603 s else s

/-- The output port that a packet at an input needs. -/
def needsPort (s : State) (w : Stalled) : Option Nat :=
  let t := routeTarget s w.pkt
  pickPort s (wayTo s (t / 16) w.arrival w.pkt.dateline).ports w.pkt.src t

/-- A copy has been held for 30 µs: it and the packets behind it for the same output, in a hold slot, in the port's queue or at an input,
are discarded, each copy as failed. A multicast that waits at an input loses its copy for that output. -/
def execMcHoldTimeout (die : Fin 4) (slot : Nat) (s : State) : Host.Outcome State Fault Refusal :=
  match (holdsOn s die.val)[slot]? with
  | none => .next s
  | some h =>
    let g := h.pkt.dest % 1024
    let p := h.port
    let ts := branchTargets s g p
    let behind := fun (k : Pkt) => k.src == h.pkt.src && classOf k.opcode == classOf h.pkt.opcode
    let gone := (s.fab.holds.filter (fun x => x.port == p && behind x.pkt)).map (·.pkt)
    let queued := (s.port p).queue.filter (fun q => behind q.pkt)
    let waits := s.fab.stalled.filter (fun w => behind w.pkt && !w.pkt.mc && needsPort s w == some p)
    let loses := fun (w : Stalled) => behind w.pkt && w.pkt.mc && testBit (gForkPorts (s.grp (w.pkt.dest % 1024))) p
    let rest := s.fab.stalled.filter (fun w => !waits.contains w)
    let s := { s with fab := { s.fab with
      holds := s.fab.holds.filter (fun x => !(x.port == p && behind x.pkt))
      stalled := rest.map (fun (w : Stalled) => if loses w then { w with dead := w.dead ++ [p] } else w) } }
    let s := s.modPort p (fun x => { x with queue := x.queue.filter (fun q => !behind q.pkt) })
    let s := declareFailed g ts s
    let s := forEach gone (discardBehind p) s
    let s := forEach queued (fun q s => discardBehind p q.pkt (leaveRx q.arrival q.pool (q.pkt.flits + 1) s)) s
    let s := forEach waits (fun w s => discardBehind p w.pkt (takenUp w.arrival w.pkt s)) s
    .next (wakePort p s)

/-! ### Port states (R199 to R202, R213) -/

/-- A port has come into service or left it: its groups switch (R213). -/
def startSwitch (p : Nat) (s : State) : State :=
  { s with fab := { s.fab with switching := s.fab.switching.filter (· != p) ++ [p] } }

/-- A packet that a port can no longer carry (R217). -/
def endPacket (p : Nat) (k : Pkt) (s : State) : State :=
  if k.mc && s.fab.forks.any (fun f => f.src == k.src && f.txn == k.txn) then branchFails p k 0x0602 s
  else if k.opcode ≤ 0x10 then sendErr k 0x0602 s
  else s

/-- A port stops for good: its traffic is ended (R217). -/
def endTraffic (p : Nat) (st : PortState) (s : State) : State :=
  let x := s.port p
  let waits := x.sending.map (·.q) ++ x.queue
  let ks := x.replay.filterMap (·.pkt) ++ waits.map (·.pkt) ++ (s.fab.holds.filter (fun h => h.port == p)).map (·.pkt)
  let s := s.setPort p { x with state := st, width := 0, queue := [], sending := [], replay := [], partialPkts := [], credits := [], rx := []
                                owed := [], owesAck := false, badWord := [], failover := false }
  let s := forEach waits (fun q s => leaveRx q.arrival q.pool (q.pkt.flits + 1) s) s
  let s := { s with fab := { s.fab with holds := s.fab.holds.filter (fun h => h.port != p) } }
  startSwitch p (forEach ks (endPacket p) s)

/-- PORT_DOWN. -/
def portDown (p : Nat) (s : State) : State :=
  let s := s.raise { code := 0x0602, kind := 7, unit := p, detail := packAt [(0, 1, p), (1, 1, lanesGood s p), (2, 1, 0)] }
  endTraffic p .down s

/-- The lanes of a port that are good at both ends (R199). -/
def commonLanes (s : State) (p : Nat) : Nat := goodLanes s p &&& (s.port p).peerLanes

/-- The port retrains at the widest width that the lanes good at both ends allow, or goes DOWN (R199, R201). -/
def retrain (p : Nat) (s : State) : State :=
  if widthOf (commonLanes s p) = 0 then portDown p s
  else s.modPort p (fun x => { x with state := .retrain, width := widthOf (commonLanes s p) })

/-- The module sends the link parameters of a port (R199). -/
def sendParams (p : Nat) (s : State) : State :=
  s.emit (.linkParams p { device := s.device, port := p, width := widthOf (goodLanes s p), lanes := goodLanes s p } [256, 32, 16])

/-- The first training ends with the peer's link parameters (R199); on a port that is UP they are exchanged again. The width is the widest
whose lane set is good at both ends. -/
def execPortTrainingDone (p : PortNo) (peer : Option LinkParams) (s : State) : Host.Outcome State Fault Refusal :=
  let p := p.val
  let x := s.port p
  let w := widthOf (goodLanes s p &&& (match peer with
    | some l => l.lanes
    | none => 15))
  match peer with
  | none => if x.state == .training && w == 0 then .next (portDown p s) else .next s
  | some l =>
    if x.state == .training then
      if min w l.width = 0 then .next (portDown p s)
      else
        .next (startSwitch p ((sendParams p s).setPort p
          { state := .up, width := min w l.width, failed := x.failed, failAt := x.failAt, transients := x.transients
            peerLanes := l.lanes, peerDevice := l.device, peerPort := l.port }))
    else if x.inService then .next (s.setPort p { x with peerLanes := l.lanes, peerDevice := l.device, peerPort := l.port })
    else .next s

/-- A lane is declared failed (R201). -/
def execLaneFailover (p : PortNo) (pos : Fin 4) (s : State) : Host.Outcome State Fault Refusal :=
  let p := p.val
  let x := s.port p
  if !x.inService || testBit x.failed pos.val || !s.laneGood p pos.val then .next s
  else
    let s := s.setPort p { x with failed := orBit x.failed pos.val, failAt := if x.failover then x.failAt else s.time, failover := true }
    let s := (s.bump .failovers p).raise { code := 0x0601, kind := 6, unit := 4 * p + pos.val
                                           detail := packAt [(0, 1, p), (1, 1, lanesGood s p), (2, 1, widthOf (commonLanes s p))] }
    .next (retrain p s)

/-- Credits after resynchronisation: full pools less the flits still to be taken by the peer, and less those in its receive buffer, whose
credits come back when they leave it (R206). -/
def resyncCredits (fs : List Sent) (held : List Nat) : Tbl Nat :=
  (List.range 12).map (fun k => (k, poolSize k - fs.countP (fun f => f.pool == k) - held.getD k 0))

/-- The peer states its next expected flit, those before it have arrived, and what its receive buffer holds. What this port owes is in its
own statement. -/
def Port.resync (x : Port) (peer : PeerResync) : Port :=
  let fs := match x.replay.findIdx? (fun f => f.seq == peer.next) with
    | some i => x.replay.drop i
    | none => []
  { x with replay := fs, txSeq := if fs.isEmpty then peer.next % 4096 else x.txSeq, credits := resyncCredits fs peer.held
           owed := [], owesAck := false }

/-- What the port states to its peer at the resynchronisation. -/
def Port.resyncOut (x : Port) : PeerResync := { next := x.rxNext, held := (List.range 12).map (fun k => tget x.rx k 0) }

/-- A retrain has ended (R201, R204). -/
def execRetrainDone (p : PortNo) (ok : Bool) (peer : PeerResync) (s : State) : Host.Outcome State Fault Refusal :=
  let p := p.val
  let x := s.port p
  if x.state != .retrain then .next s
  else if !ok then .next (portDown p s)
  else
    let s := (s.setPort p { x.resync peer with state := .up, failover := false }).emit (.linkResync p x.resyncOut)
    let s := if x.failover then s.wr .lastFailover (min (s.now - x.failAt.toNat) (2 ^ 32 - 1)) p else s
    .next (wakePort p (replayFlits p s))

/-- The failed lane's pattern test (R202): a pass is counted and leaves the lane out until PORT_RESTORE, a fail retires it (R325). -/
def execLanePatternTestDone (p : PortNo) (pos : Fin 4) (pass : Bool) (s : State) : Host.Outcome State Fault Refusal :=
  let l := 4 * p.val + pos.val
  if !testBit (s.port p.val).failed pos.val || testBit s.flash.retiredLanes l then .next s
  else if pass then .next (s.modPort p.val (fun x => { x with transients := x.transients + 1 }))
  else .next (unitRetired 6 l
    (({ s with flash := { s.flash with retiredLanes := orBit s.flash.retiredLanes l } } : State).bumpVer .retiredLanes))

/-- PORT_ENABLE (R199): 0 powers the lanes down, 1 lets the port train. A transiently failed lane stays out (R202). -/
def portEnable (p : Nat) : Rule := fun bs s =>
  let v := leNat bs
  let s := s.wr .portEnable v p
  if v = 0 then (stOk, if s.powered then endTraffic p .disabled s else s)
  else if (s.port p).state == .disabled && s.powered then (stOk, s.modPort p (fun x => { x with state := .training }))
  else (stOk, s)

def execPortEnable (via : Via) (v : Byte) (s : State) : Host.Outcome State Fault Refusal :=
  .next (viaReg via .portEnable v.toNat (portEnable (s.rd .portSel (pathNo via.path))) s)

/-- PORT_RESTORE (R202): the transiently failed lanes rejoin; a port that is DOWN comes back into service. -/
def portRestore (p : Nat) : Rule := fun bs s =>
  let x := s.port p
  if leNat bs != 1 || !(x.inService || x.state == .down) then (stOk, s)
  else
    let s := s.setPort p { x with failed := 0 }
    if x.state == .down then
      (stOk, if widthOf (commonLanes s p) = 0 then s else startSwitch p (retrain p s))
    else (stOk, retrain p s)

def execPortRestore (via : Via) (v : Byte) (s : State) : Host.Outcome State Fault Refusal :=
  .next (viaReg via .portRestore v.toNat (portRestore (s.rd .portSel (pathNo via.path))) s)

/-- Every flit sent on a port in service has been acknowledged and its credit is back (R213). -/
def Port.quiet (x : Port) : Bool :=
  !x.inService || (x.replay.isEmpty && (List.range 12).all (fun k => x.credit k == poolSize k))

/-- The ports of a switching port's groups: they carry no routed packets (R213). -/
def switchPorts (s : State) (ts : List Nat) : List Nat := (ts.flatMap (groupOf s)).eraseDups

/-- A queued packet goes out by the new set: on a port of its way's group. -/
def reroute (q : Queued) (s : State) : State :=
  let t := routeTarget s q.pkt
  match pickPort s (wayTo s (t / 16) q.arrival q.pkt.dateline).ports q.pkt.src t with
  | some p => transmitFrom q p s
  | none => rejectPkt q.pkt 0x0608 (leaveRx q.arrival q.pool (q.pkt.flits + 1) s)

/-- The switch of a port's groups ends once every flit sent on their ports in service is acknowledged and its credit is back: their packets
go on with the new set (R213). -/
def execRouteSwitch (p : PortNo) (s : State) : Host.Outcome State Fault Refusal :=
  let ts := s.fab.switching.filter (fun t => (groupOf s t).contains p.val)
  let ps := switchPorts s ts
  if ts.isEmpty || !ps.all (fun q => (s.port q).quiet) then .next s
  else
    let s := { s with fab := { s.fab with switching := s.fab.switching.filter (fun q => !ts.contains q) } }
    let queued := ps.flatMap (fun q => (s.port q).queue.filter (fun k => !k.bound))
    let s := forEach ps (fun q s => s.modPort q (fun x => { x with queue := x.queue.filter (·.bound) })) s
    let s := forEach queued reroute s
    let w := s.fab.routeWait
    let s := forEach w (fun e s => routeOut e.1 e.2 s) { s with fab := { s.fab with routeWait := [] } }
    .next (forEach ps wakePort s)

/-- FABRIC_DEVICE (R210): the neighbours learn the number by the link parameters, which each port sends again (R214). -/
def fabricDevice : Rule := fun bs s =>
  let s := s.wr .fabricDevice (leNat bs)
  (stOk, forEach ((List.range 24).filter (fun p => (s.port p).inService)) sendParams s)

def execFabricDevice (via : Via) (v : W16) (s : State) : Host.Outcome State Fault Refusal :=
  .next (viaReg via .fabricDevice v.toNat fabricDevice s)

/-! ### Flits (R204) -/

/-- TB_ECHO of a peer is answered on its link (R218). The spec gives the line no layout: its bytes are free values (log entry 33). -/
def sendEcho (p : Nat) (s : State) : State :=
  let d := s.draw 64
  transmit p { dest := (s.port p).peerDevice * 16, src := s.ownAddr, opcode := 0x25, flits := 0, lines := 1
               payload := leBytes 64 d.1 } d.2

/-- A whole packet has been received on a port. One with a reserved link-word bit set is discarded (R208), a peer's TB_ECHO is answered
there; the command of its opcode carries any other further. Without a device number neither is answered (R210, Table 01-5). -/
def received (p : Nat) (bad : Bool) (k : Pkt) (s : State) : State :=
  if !bad && k.opcode != 0x25 then s.emit (.received p k)
  else
    let s := takenUp (some p) k s
    if s.device = 0xFFFF then dropPkt s
    else if bad || !pktOk k then rejectPkt k 0x0606 s
    else if k.hop = 31 then rejectPkt k 0x0609 s
    else sendEcho p s

/-- A flit arrives (R204). -/
def execFlitArrival (p : PortNo) (flit : List Byte) (s : State) : Host.Outcome State Fault Refusal :=
  let p := p.val
  if (s.port p).state != .up then .next s
  else if flit.length != 256 || (crc64 (flit.take 248)).toNat != leAt flit 248 8 then .next (sendLinkOnly p true [] s)
  else
    let w := leAt flit 0 8
    if bitsOf w 38 37 = 3 then .next (wakePort p (takeLinkWord p w s))
    else if bitsOf w 63 52 = (s.port p).rxNext then
      .next (wakePort p (acceptFlit p w ((flit.drop 8).take 240) (received p) (takeLinkWord p w s)))
    else .next s

/-- A NAK from the peer. -/
def execNak (p : PortNo) (ack : Nat) (s : State) : Host.Outcome State Fault Refusal :=
  if (s.port p.val).state != .up then .next s else .next (takeNak p.val ack s)

/-! ### Directed routes (R214) -/

/-- A directed packet that has arrived on a port (R214): a request on its way or at its end, one whose HOP is past the length of its path
too, or a response, which goes back by the entry of the return path at its HOP (DESIGN CHOICE, log entry 33). Without a device number the
module answers dictionary requests only, and drops other control frames (Table 01-5). -/
def execDirectedRoute (p : PortNo) (pkt : Pkt) (s : State) : Host.Outcome State Fault Refusal :=
  let a := some p.val
  if !pkt.dr || classOf pkt.opcode != 1 || !s.powered then .next s
  else if s.device = 0xFFFF && (pkt.opcode = 0x11 || !pktOk pkt) then .next (takenUp a pkt (dropPkt s))
  else if !pktOk pkt then .next (rejectPkt pkt 0x0606 (takenUp a pkt s))
  else if pkt.hop = 31 then .next (rejectPkt pkt 0x0609 (takenUp a pkt s))
  else
    let path := forwardPath pkt.payload
    if pkt.opcode = 0x90 then
      (if pkt.hop = 0 then .next (takenUp a pkt (s.send pkt))
       else .next (directTo a (returnAt pkt.payload pkt.hop) { pkt with hop := pkt.hop - 1 } s))
    else
      let k := { pkt with payload := setReturn pkt.payload pkt.hop p.val, hop := pkt.hop + 1 }
      if path.length ≤ pkt.hop then .next (takenUp a pkt (takeIn pkt s))
      else .next (directTo a (path.getD pkt.hop 31) k s)

/-! ### The fabric time base (R218, R219) -/

/-- TB_SYNC on a port: the master's time and the accumulated correction; `hop`: the HOP with which it came. -/
def sendSync (q hop : Nat) (t c : Nat) (s : State) : State :=
  transmit q { dest := s.rd .tbMaster * 16, src := s.ownAddr, opcode := 0x24, flits := 0, lines := 1, hop := hop
               payload := padTo 64 (leBytes 8 t ++ leBytes 8 c) } s

def upPorts (s : State) : List Nat := (List.range 24).filter (fun q => (s.port q).state == .up)

/-- The counter moves against an offset in ps (R218): a step by the whole offset if it exceeds 1 µs and no step is open, else at most 200
ppm of the time since the last sync. The rate of the slew, in ps per second, is kept (R219). -/
def steer (ps : Int) (s : State) : State :=
  if 1000000 < ps.natAbs && !s.anyOpen then
    { s with time := BitVec.ofInt 64 ((s.now : Int) - ps.tdiv 1000), fab := { s.fab with tbSlew := 0, tbRate := 0 } }
  else
    let since := s.now - s.fab.tbLast.toNat
    let most : Int := since * 200 / 1000
    let move := (max (-most) (min most ps)).tdiv 1000
    { s with time := BitVec.ofInt 64 ((s.now : Int) - move)
             fab := { s.fab with tbSlew := ps - 1000 * move, tbRate := if since = 0 then 0 else (-(move * 1000000000000)).tdiv since } }

/-- TB_SYNC (R218): taken only from the port toward the master. The received time is the master's, with the accumulated correction and the
delay of the link, in ps. The master itself takes none and stays FREE (DESIGN CHOICE, log entry 33). -/
def execTbSync (p : PortNo) (masterTime correction : W64) (stamp : SyncStamp) (s : State) : Host.Outcome State Fault Refusal :=
  let p := p.val
  let m := s.rd .tbMaster
  let w := wayTo s m none false
  if !s.powered || (s.port p).state != .up then .next s
  else if s.device = 0xFFFF then .next (leaveRx (some p) 8 1 (dropPkt s))
  else
  let s := leaveRx (some p) 8 1 s
  if stamp.hop = 31 then
    .next (rejectPkt { dest := m * 16, src := (s.port p).peerDevice * 16, opcode := 0x24, flits := 0, lines := 1, hop := 31 } 0x0609 s)
  else if m = 0xFFFF || m = s.device || pickPort s w.ports s.ownAddr (m * 16) != some p then .next s
  else
    let c := correction.toNat + s.rd .linkDelay p
    let off : Int := 1000 * (s.now : Int) + (stamp.ps % 1000 : Nat) - (1000 * (masterTime.toNat : Int) + c)
    let n := if off.natAbs ≤ 4000 then min 16 (s.fab.tbGood + 1) else 0
    let s := steer off s
    let s := { s with fab := { s.fab with
      tbOffset := off, tbGood := n, tbState := if n = 16 then 2 else 1, tbLast := s.time, tbFrac := 0 } }
    let d := s.draw 16
    .next (forEach ((upPorts s).filter (· != p)) (fun q s => sendSync q stamp.hop masterTime.toNat (c + d.1) s) d.2)

/-- The master's TB_SYNC every 10 µs. -/
def execTbSyncSend (s : State) : Host.Outcome State Fault Refusal :=
  if !s.powered || s.device = 0xFFFF || s.rd .tbMaster != s.device then .next s
  else .next (forEach (upPorts s) (fun q s => sendSync q 0 s.now 0 s) s)

/-- TB_ECHO (R218): the port's exchange with its peer, and the link delay that it shows, timestamps in ps. -/
def execTbEcho (p : PortNo) (t1 t2 t3 t4 : Int) (s : State) : Host.Outcome State Fault Refusal :=
  if (s.port p.val).state != .up then .next s
  else .next ((sendEcho p.val s).wr .linkDelay (min (((t4 - t1) - (t3 - t2)) / 2).toNat (2 ^ 32 - 1)) p.val)

/-- No sync for 100 µs (R219): the rate is held. -/
def execTbHoldover (s : State) : Host.Outcome State Fault Refusal :=
  if s.fab.tbState != 2 then .next s
  else .next ({ s with fab := { s.fab with tbState := 3, tbGood := 0 } }.raise { code := 0x060E })

end Sys2Proof.Machine
end

