-- ==== Sys2Proof/Machine/Packets.lean ====
section
/-!
DEFINITION. Machine/Packets.lean: reads and writes from other modules, the answers to the module's own requests, error answers and
requests without an answer (R115, R124, R164, R171, R209, R217, R379).
-/
namespace Sys2Proof.Machine

/-! ### Remote reads and writes -/

/-- A read of a Board's store for another module. The store of a Board in DEEP_SLEEP cannot be accessed (R311): the answer is that of a
Board that is disabled (DEDUCED, log entry 48). -/
def serveStoreRead (b : Nat) (p : Pkt) (s : State) : State :=
  let a := 64 * (p.addr - storeFlag)
  if !s.storeUp b then sendErr p 0x060A s
  else if storeBytes < a + 64 * p.lines then rejectAccess p a s
  else
    match boardBad s b a (64 * p.lines) with
    | some w => sendErr p 0x0401 (storeUe b w 1 s)
    | none => answer p 0x81 (s.storeRead b a (64 * p.lines)) (storeServed b a (64 * p.lines) s)

def execRdReq (pkt : Pkt) (s : State) : Host.Outcome State Fault Refusal :=
  .next (deliver 0x01 pkt (fun b s => if storeFlag ≤ pkt.addr then serveStoreRead b pkt s else serveStackRead pkt s) s)

/-- A write goes into a PLAIN region, or into the Board's store. -/
def execWr (pkt : Pkt) (s : State) : Host.Outcome State Fault Refusal :=
  .next (deliver 0x02 pkt (fun b s =>
    let n := pkt.payload.length
    if storeFlag ≤ pkt.addr then
      let a := 64 * (pkt.addr - storeFlag)
      (if !s.storeUp b then sendErr pkt 0x060A s
       else if storeBytes < a + n then rejectAccess pkt a s else answer pkt 0x82 [] (boardWrite b a pkt.payload s))
    else
      let a := 64 * pkt.addr
      match s.regionAt a with
      | some e =>
        if rKind e.2 = 2 && a + n ≤ rBase e.2 + rSize e.2 then answer pkt 0x82 [] (s.stackWrite a pkt.payload)
        else rejectAccess pkt a s
      | none => rejectAccess pkt a s) s)

/-! ### Answers (R209) -/

/-- The lines of a read response land in their buffer (R115). -/
def landRead (b link fill line : Nat) (bs : List Byte) (s : State) : State :=
  forEach (List.range (bs.length / 64)) (fun k s =>
    match (s.board b).fetches.find? (fun q => q.link == link && q.stash.isNone
        && q.going.any (fun g => g.fill == fill && !g.landed.contains (line + k))) with
    | some q =>
      (match q.going.find? (fun g => g.fill == fill) with
      | some g => landLine b q g (line + k) (some ((bs.drop (64 * k)).take 64)) s
      | none => s)
    | none => s) s

def execRdData (pkt : Pkt) (s : State) : Host.Outcome State Fault Refusal :=
  .next (deliver 0x81 pkt (fun b s =>
    match takeTxn pkt.txn s with
    | (some t, s') =>
      (match t.kind with
      | .fetch b' link fill line => if b' = b then landRead b link fill line pkt.payload s' else s
      | .restore r l => landRestore r l pkt.payload s'
      | _ => s)
    | (none, _) => s) s)

def execWrAck (pkt : Pkt) (s : State) : Host.Outcome State Fault Refusal :=
  .next (deliver 0x82 pkt (fun _ s =>
    match takeTxn pkt.txn s with
    | (some t, s') =>
      (match t.kind with
      | .mirror k d r square => mirrorAck k d r square s'
      | .write _ _ _ => s'
      | .reduce _ _ => s'
      | .vote _ => s'
      | .update _ => s'
      | .other => s'
      | _ => s)
    | (none, _) => s) s)

/-! ### Error completions (R217) -/

/-- A request of a Board ends in an error completion, with the code that the answer carried; a mirror pass ends; a multicast's sender
acts as on a failed acknowledgement. -/
def failTxn (t : Txn) (code : Nat) (s : State) : State :=
  match t.kind with
  | .fetch b link fill line => failFetch b link fill line code s
  | .gather b run _ =>
    (match (s.board b).gslots.find? (fun q => q.txn == t.id) with
    | some q =>
      (match (s.board b).gruns.find? (fun r => r.id == run) with
      | some r => errorHalt b r.work code (freeSlot b q s)
      | none => freeSlot b q s)
    | none => s)
  | .write b _ _ => haltBoard b { code := code, kind := 1, unit := b } s
  | .reduce b ep =>
    (match (s.board b).rjobs.find? (fun j => j.work.epoch == ep) with
    | some j => errorHalt b j.work code s
    | none => haltBoard b { code := code, kind := 1, unit := b, domain := s.domOfEpoch ep } s)
  | .update b => haltBoard b { code := code, kind := 1, unit := b } s
  | .mirror k d r _ => mirrorFailed k d r s
  | .multicast b id =>
    let d := match (s.board b).rdvAt id with
      | some r => pgDomain (s.pgroup r.pgroup)
      | none => 0
    senderFails b d code (retryGathers b 256 (s.modBoard b (fun x => x.dropRdv id)))
  | .vote g =>
    -- the combine point's sender is the module: its contributing Boards halt
    forEach (bitList (gForkBoards (s.grp g)) 16) (fun b s =>
      match (s.board b).rjobs.find? (fun j => j.group == g) with
      | some j => errorHalt b j.work code s
      | none => haltBoard b { code := code, kind := 1, unit := b } s) s
  | .restore _ _ => restoreFault 8 0 s
  | .other => s

def execErr (pkt : Pkt) (s : State) : Host.Outcome State Fault Refusal :=
  .next (deliver 0x86 pkt (fun _ s =>
    match takeTxn pkt.txn s with
    | (some t, s') => failTxn t (leAt pkt.payload 0 2) s'
    | (none, _) => s) s)

/-- A request without an answer within REQ_TIMEOUT ends as on ERR. Where no Board reports it with its halt, it is raised here. -/
def execFabricTimeout (txn : Nat) (s : State) : Host.Outcome State Fault Refusal :=
  match takeTxn txn s with
  | (some t, s') =>
    let s' := s'.bump .fabricErrs
    let s' := match t.kind with
      | .mirror _ _ _ _ => s'.raise { code := 0x0604 }
      | .restore _ _ => s'.raise { code := 0x0604 }
      | .vote g => if gForkBoards (s'.grp g) = 0 then s'.raise { code := 0x0604 } else s'
      | .other => s'.raise { code := 0x0604 }
      | _ => s'
    .next (failTxn t 0x0604 s')
  | (none, _) => .next s

end Sys2Proof.Machine
end

