-- ==== Sys2Proof/Machine/Counters.lean ====
section
/-!
DEFINITION. Machine/Counters.lean: the Nines units, the counters, the central reader, the freeze and the control of bead tagging
(R345 to R357).
-/
namespace Sys2Proof.Machine

/-! ### Nines units (R345 to R349) -/

def State.nines (s : State) (u : Nat) : Nines := tget s.cnt.nines u {}
def State.setNines (s : State) (u : Nat) (x : Nines) : State := { s with cnt := { s.cnt with nines := tset s.cnt.nines u x } }

/-- The snapshot engine holds hub units 16 and 17 (R349). -/
def ninesOwned (s : State) (u : Nat) : Bool := (u == 16 || u == 17) && (s.snap.state == 2 || s.snap.state == 5)

/-- NINES_STATE as it reads. -/
def ninesStateOf (s : State) (u : Nat) : Nat := if ninesOwned s u then 4 else (s.nines u).state

/-- The unit takes no configuration, no value and no command but ABORT. -/
def ninesBusy (s : State) (u : Nat) : Bool := ninesStateOf s u == 1 || ninesStateOf s u == 4

def Nines.mask (x : Nines) : Nat := 2 ^ x.width

/-- The low w bits of a value in reverse order. -/
def reflect (w v : Nat) : Nat := (List.range w).foldl (fun a i => if testBit v i then a + 2 ^ (w - 1 - i) else a) 0

/-- One bit of nines_byte. -/
def ninesBit (x : Nines) (c : Nat) (b : Bool) : Nat :=
  let top := testBit c (x.width - 1)
  let c := (2 * c) % x.mask
  if top != b then c ^^^ (x.poly.toNat % x.mask) else c

/-- nines_byte() of R346. -/
def ninesByte (x : Nines) (c : Nat) (b : Byte) : Nat :=
  let v := if testBit x.flags 0 then reflect 8 b.toNat else b.toNat
  [7, 6, 5, 4, 3, 2, 1, 0].foldl (fun c i => ninesBit x c (testBit v i)) c

/-- nines_finish() of R346. -/
def ninesFinish (x : Nines) (c : Nat) : Nat :=
  let c := c % x.mask
  (if testBit x.flags 1 then reflect x.width c else c) ^^^ (x.xorout.toNat % x.mask)

/-- Bytes into RUNNING; RUN leaves the bits at and above WIDTH at 0. -/
def Nines.take (x : Nines) (bs : List Byte) : Nines :=
  { x with running := BitVec.ofNat 64 (bs.foldl (ninesByte x) (x.running.toNat % x.mask)) }

/-- The range of a run lies in its source (Table 16-1). -/
def ninesInSource (s : State) (u : Nat) (x : Nines) : Bool :=
  if u < 16 then decide (x.src + x.bytes ≤ storeBytes)
  else
    let mine := s.job.regions.filter (fun e => (rKind e.2 == 2 || rKind e.2 == 5 || rKind e.2 == 6 || rKind e.2 == 7)
      && (u < 18 || stackHalf (stackOf (rBase e.2)) == (u - 18) / 2))
    (mine.map (fun e => min (x.src + x.bytes) (rBase e.2 + rSize e.2) - max x.src (rBase e.2))).foldl (· + ·) 0 == x.bytes

/-- FINISH: RESULT, and the comparison (R348). -/
def finishNines (u : Nat) (s : State) : State :=
  let x := s.nines u
  let r := ninesFinish x x.running.toNat
  let bad := testBit x.flags 2 && r != x.expected.toNat % x.mask
  let s := s.setNines u { x with
    result := BitVec.ofNat 64 r, mismatch := bad, mismatches := if bad then satAdd 32 x.mismatches 1 else x.mismatches }
  if bad && testBit x.flags 4 then s.signal 7 else s

/-- The n bytes that a unit reads from its source, counted on their channels. -/
def ninesRead (s : State) (u : Nat) (x : Nines) (n : Nat) : List Byte × State :=
  if u < 16 then (s.storeRead u x.src n, storeServed u x.src n s)
  else (s.dramRead x.src n, if n = 0 then s else stackServed x.src n s)

/-- The first uncorrectable line of a run that is known: the address of its first byte. -/
def ninesBad (s : State) (u : Nat) (x : Nines) : Option Nat :=
  let lines := if u < 16 then
      ((s.board u).storeBad.filter (fun w => decide (8 * w < x.src + x.bytes) && decide (x.src < 8 * w + 8))).map (· / 8)
    else ((List.range 12).flatMap (fun k => (s.stack k).bad)).filter (fun l =>
      decide (x.src / 64 ≤ l) && decide (l < (x.src + x.bytes + 63) / 64))
  if x.bytes = 0 then none
  else match lines with
    | [] => none
    | l :: ls => some (64 * ls.foldl min l)

/-- The refusal of a command, 0 for none. -/
def ninesRefusal (s : State) (u : Nat) : Nat := if ninesBusy s u then stBusy else 0

/-- NINES_CONTROL of a unit (R347): INIT, RUN, FINISH, ABORT after `done` bytes. -/
def ninesControl (u done : Nat) : Rule := fun bs s =>
  let v := leNat bs
  let x := s.nines u
  if v = 4 then
    if x.state = 1 then
      let n := min done x.bytes
      let r := ninesRead s u x n
      (stOk, r.2.setNines u { x.take r.1 with state := 0, bytesDone := n })
    else (stOk, s)
  else if ninesBusy s u then (stBusy, s)
  else if v = 1 then (stOk, s.setNines u { x with running := BitVec.ofNat 64 (x.init.toNat % x.mask) })
  else if v = 2 then
    if !s.powered || (u < 16 && !s.storeUp u) then (stRefused, s)
    else if !ninesInSource s u x then (stRange, s)
    else (stOk, s.setNines u { x with state := 1, bytesDone := 0 })
  else (stOk, finishNines u s)

def execNinesInit (via : Via) (s : State) : Host.Outcome State Fault Refusal :=
  .next (viaReg via .ninesControl 1 (ninesControl (s.rd .ninesSel (pathNo via.path)) 0) s)

def execNinesRun (via : Via) (s : State) : Host.Outcome State Fault Refusal :=
  .next (viaReg via .ninesControl 2 (ninesControl (s.rd .ninesSel (pathNo via.path)) 0) s)

def execNinesFinish (via : Via) (s : State) : Host.Outcome State Fault Refusal :=
  .next (viaReg via .ninesControl 3 (ninesControl (s.rd .ninesSel (pathNo via.path)) 0) s)

def execNinesAbort (via : Via) (done : Nat) (s : State) : Host.Outcome State Fault Refusal :=
  .next (viaReg via .ninesControl 4 (ninesControl (s.rd .ninesSel (pathNo via.path)) done) s)

/-- A run ends on an uncorrectable line. One of a Board's store halts the Board as any uncorrectable read does (R100). -/
def ninesUe (u a : Nat) (s : State) : State := if u < 16 then storeUe u (a / 8) 1 s else raiseUe a 4 none s

/-- A run ends: all its bytes taken, or at an uncorrectable line (`bad`: its byte address). -/
def execNinesRunDone (unit : Fin 22) (bad : Option Nat) (s : State) : Host.Outcome State Fault Refusal :=
  let u := unit.val
  let x := s.nines u
  if x.state != 1 || ninesOwned s u then .next s
  else
    let given := bad.filter (fun a => decide (x.src ≤ a + 63) && decide (a < x.src + x.bytes))
    let at' := match ninesBad s u x, given with
      | some a, some c => some (min a (c / 64 * 64))
      | some a, none => some a
      | none, some c => some (c / 64 * 64)
      | none, none => none
    match at' with
    | some a =>
      let n := a - x.src
      let r := ninesRead s u x n
      .next (ninesUe u a (r.2.setNines u { x.take r.1 with state := 3, bytesDone := n }))
    | none =>
      let r := ninesRead s u x x.bytes
      let s := r.2.setNines u { x.take r.1 with state := 2, bytesDone := x.bytes }
      .next (if testBit x.flags 3 then finishNines u s else s)

/-- A write of a configuration entry or of RUNNING. -/
def ninesSet (u : Nat) (f : Nat → Nines → Nines) : Rule := fun bs s =>
  if ninesBusy s u then (stBusy, s) else (stOk, s.setNines u (f (leNat bs) (s.nines u)))

def ninesRunningRule (u : Nat) : Rule := ninesSet u (fun v x => { x with running := BitVec.ofNat 64 v })

def execNinesRunningWrite (via : Via) (v : W64) (s : State) : Host.Outcome State Fault Refusal :=
  .next (viaReg via .ninesRunning v.toNat (ninesRunningRule (s.rd .ninesSel (pathNo via.path))) s)

/-! ### Board counters (R351, R352) -/

/-- The event whose count depends on timing that no command carries: bank-cycles with a request waiting (R103). -/
def timedEvent (ev : Nat) : Bool := ev == 0x0F

/-- A counter of such an event has grown by a free value since it was last looked at (log entry 4). -/
def settleCounter (b k : Nat) (s : State) : State :=
  let w := (s.board b).cntCtl k
  if s.cnt.freeze.frozen || !timedEvent (bitsOf w 7 0) || !cntTakes w (bitsOf w 7 0) none none then s
  else
    let d := s.draw 48
    let old := tget (d.2.board b).counters k (0, false)
    let new := cntAdd old d.1
    let s := d.2.modBoard b (fun x => { x with counters := tset x.counters k new })
    if new.2 && !old.2 && testBit w 30 then s.signal 7 else s

/-- CNT_VALUE as it reads. -/
def cntValue (s : State) (b k : Nat) : Nat :=
  let c := tget (s.board b).counters k (0, false)
  c.1 + (if c.2 then 2 ^ 63 else 0)

/-- A control word (Table 16-3): a reserved event is refused; the counter and its flag are cleared. -/
def cntControlRule (b k : Nat) : Rule := fun bs s =>
  let v := leNat bs
  if 0x16 < bitsOf v 7 0 then (stRange, s)
  else (stOk, s.modBoard b (fun x => { x with ctl := tset x.ctl k (setBits v 29 24 0), counters := tset x.counters k (0, false) }))

def execCntControl (via : Via) (v : W32) (s : State) : Host.Outcome State Fault Refusal :=
  let p := pathNo via.path
  .next (viaReg via .cntControl v.toNat (cntControlRule (s.rd .cntBoardSel p) (s.rd .cntSel p)) s)

def cntClearRule (b : Nat) : Rule := fun bs s =>
  (stOk, s.modBoard b (fun x => { x with counters := x.counters.filter (fun c => !testBit (leNat bs) c.1) }))

def execCntClear (via : Via) (v : Byte) (s : State) : Host.Outcome State Fault Refusal :=
  .next (viaReg via .cntClear v.toNat (cntClearRule (s.rd .cntBoardSel (pathNo via.path))) s)

/-! ### Block counters and the reader (R353, R354) -/

/-- The kind of a counter ID: 0 ports, 1 routers, 2 channels, 3 Reckoners. -/
def blkKind (id : Nat) : Nat := if id < 0x60 then 0 else if id < 0xA0 then 1 else if id < 0x520 then 2 else 3

/-- The unit of a counter is disabled or retired: a port that PORT_ENABLE has disabled, or the stack of a channel or Reckoner. -/
def blkDead (s : State) (id : Nat) : Bool :=
  if blkKind id = 0 then s.rd .portEnable (id / 4) = 0
  else if blkKind id = 2 then !s.stackOk ((id - 0xA0) / 96) else if blkKind id = 3 then !s.stackOk ((id - 0x520) / 3) else false

/-- Counters of credit waits and of channel cycles: no command carries their events. -/
def blkTimed (id : Nat) : Bool :=
  (blkKind id == 1 && id % 2 == 1) || (blkKind id == 0 && id % 4 == 2) || (blkKind id == 2 && (id - 0xA0) % 3 == 2)

/-- Such a counter has grown by a free value since it was last looked at (log entry 4). -/
def settleBlock (id : Nat) (s : State) : State :=
  if s.cnt.freeze.frozen || !blkTimed id || blkDead s id || !s.powered then s
  else
    let d := s.draw 40
    countBlock id d.1 d.2

def blkPair (s : State) (id : Nat) : Nat × Bool := if blkDead s id then (0, false) else tget s.cnt.block id (0, false)

/-- BLK_VALUE as it reads. -/
def blkValue (s : State) (id : Nat) : Nat := (blkPair s id).1 + (if (blkPair s id).2 then 2 ^ 63 else 0)

def blkClearOne (id : Nat) (s : State) : State := { s with cnt := { s.cnt with block := tdel s.cnt.block id } }

def blkClearRule (id : Nat) : Rule := fun bs s => (stOk, if leNat bs = 1 then blkClearOne id s else s)

def execBlkClear (via : Via) (v : Byte) (s : State) : Host.Outcome State Fault Refusal :=
  .next (viaReg via .blkClear v.toNat (blkClearRule (s.rd .blkSel (pathNo via.path))) s)

/-- The counters that READER_KINDS selects, in ascending ID. -/
def readerIds (kinds : Nat) : List Nat := (List.range 0x544).filter (fun id => testBit kinds (blkKind id))

/-- READER_RECORD_BYTES. -/
def recordBytes (kinds : Nat) : Nat := ceilDiv (64 + 8 * (readerIds kinds).length) 64 * 64

/-- READER_CONTROL. -/
def readerRule : Rule := fun bs s =>
  if leNat bs = 1 then
    (stOk, ({ s with cnt := { s.cnt with readerOn := true } } : State).wr .readerRecordBytes (recordBytes (s.rd .readerKinds)))
  else (stOk, { s with cnt := { s.cnt with readerOn := false } })

def execReaderStart (via : Via) (s : State) : Host.Outcome State Fault Refusal := .next (viaReg via .readerControl 1 readerRule s)
def execReaderStop (via : Via) (s : State) : Host.Outcome State Fault Refusal := .next (viaReg via .readerControl 2 readerRule s)

/-- The reader's configuration is accepted only while it is stopped. -/
def readerConfig (r : Reg) : Rule := fun bs s =>
  if s.cnt.readerOn then (stRefused, s) else (stOk, s.wr r (leNat bs))

/-- A record (Table 16-6). -/
def readerRecord (s : State) (kinds : Nat) : List Byte :=
  let ids := readerIds kinds
  let entry := fun (id : Nat) =>
    let c := blkPair s id
    leBytes 8 (c.1 + id * 2 ^ 40 + (if c.2 then 2 ^ 63 else 0))
  padTo (recordBytes kinds) (leBytes 4 s.cnt.readerProd ++ leBytes 4 ids.length ++ leBytes 8 s.now
    ++ leBytes 1 ((if s.cnt.freeze.frozen then 1 else 0) + (if s.rd .readerMode = 1 then 2 else 0)) ++ leBytes 1 kinds
    ++ leBytes 46 0 ++ ids.flatMap entry)

/-- READER_PERIOD has passed: a record is written, its first four bytes last, or the sample is skipped when the ring is full. -/
def execReaderSample (s : State) : Host.Outcome State Fault Refusal :=
  if !s.cnt.readerOn || !s.hubUp then .next s
  else
    let kinds := s.rd .readerKinds
    let bytes := recordBytes kinds
    let slots := s.rd .readerRingBytes / bytes
    if (s.cnt.readerProd + 2 ^ 32 - s.rd .readerCons) % 2 ^ 32 = slots then
      .next { s with cnt := { s.cnt with readerSkipped := satAdd 32 s.cnt.readerSkipped 1 } }
    else
      let s := forEach (readerIds kinds) settleBlock s
      let rec_ := readerRecord s kinds
      let a := s.rd .readerRingAddr + s.cnt.readerProd % max 1 slots * bytes
      let s := (s.emit (.hostWrite (a + 4) (rec_.drop 4))).emit (.hostWrite a (rec_.take 4))
      let s := if s.rd .readerMode = 1 then forEach (readerIds kinds) blkClearOne s else s
      .next { s with cnt := { s.cnt with readerProd := (s.cnt.readerProd + 1) % 2 ^ 32 } }

/-! ### Freeze (R355, R356) -/

/-- Insert a freeze or thaw in order of its tick. -/
def insertDue (t : Nat) (freeze : Bool) (l : List (Nat × Bool)) : List (Nat × Bool) :=
  l.filter (fun e => decide (e.1 ≤ t)) ++ (t, freeze) :: l.filter (fun e => decide (t < e.1))

/-- Every counter stands still, or counts again. -/
def applyFreeze (t : Nat) (freeze : Bool) (s : State) : State :=
  if freeze then
    if s.cnt.freeze.frozen then s
    else
      let s := forEach s.boardsOk (fun b s => forEach (List.range 8) (settleCounter b) s) s
      let s := forEach (List.range 0x544) settleBlock s
      { s with cnt := { s.cnt with freeze := { s.cnt.freeze with frozen := true, freezeTick := t } } }
  else { s with cnt := { s.cnt with freeze := { s.cnt.freeze with frozen := false, thawTick := t } } }

/-- A freeze or thaw for tick T: kept until then, or in effect at once and counted when T has passed. -/
def scheduleFreeze (t : Nat) (freeze : Bool) (s : State) : State :=
  if t < s.now then
    applyFreeze t freeze { s with cnt := { s.cnt with freeze := { s.cnt.freeze with late := satAdd 32 s.cnt.freeze.late 1 } } }
  else { s with cnt := { s.cnt with freeze := { s.cnt.freeze with due := insertDue t freeze s.cnt.freeze.due } } }

/-- FREEZE_STATE as it reads. -/
def freezeStateOf (f : Freeze) : Nat :=
  if f.frozen then (if f.due.any (fun e => !e.2) then 3 else 2) else if f.due.any (·.2) then 1 else 0

/-- The line of Table 16-7. -/
def freezeLine (t action g ge src flags round : Nat) : List Byte :=
  padTo 64 (leBytes 8 t ++ leBytes 1 action ++ leBytes 1 1 ++ leBytes 2 g ++ leBytes 2 ge ++ leBytes 2 src ++ leBytes 1 flags
    ++ leBytes 3 0 ++ leBytes 4 round)

/-- A FREEZE message of a group on a port, kept until it is acknowledged (R241). -/
def sendFreeze (port dir t action g src : Nat) (s : State) : State :=
  let e := s.grp g
  let r := nextRound s g dir
  let p : Pkt := { dest := gRoot e, src := s.ownAddr, opcode := 0x26, flits := 0, lines := 1
                   payload := freezeLine t action g (gEpoch e) src dir r.1 }
  transmit port p { r.2 with fab := { r.2.fab with unacked := r.2.fab.unacked ++ [{ port := port, pkt := p : Beam }] } }

/-- At the root, or on the way down: the module takes the freeze and passes it to its children. -/
def freezeDown (t action g src : Nat) (s : State) : State :=
  scheduleFreeze t (action == 1) (forEach (gChildren (s.grp g)) (fun p s => sendFreeze p 1 t action g src s) s)

/-- On the way up. A module without a member of the group has no way to its root (Table 10-1). -/
def freezeUp (t action g src : Nat) (s : State) : State :=
  let e := s.grp g
  if gUpPort e = 24 then freezeDown t action g src s
  else if gUpPort e < 24 then sendFreeze (gUpPort e) 0 t action g src s
  else s

/-- FREEZE_CONTROL. The group's codes are refused where no member of it is on the module (DESIGN CHOICE, log entry 28). -/
def freezeRule : Rule := fun bs s =>
  let v := leNat bs
  let t := s.now + 1000 * s.rd .freezeLead
  let g := s.rd .freezeGroup
  if v = 1 || v = 2 then (stOk, scheduleFreeze t (v == 1) s)
  else if gKind (s.grp g) != 5 || 24 < gUpPort (s.grp g) then (stRefused, s)
  else (stOk, freezeUp t (v - 2) g s.device s)

def execFreezeModule (via : Via) (s : State) : Host.Outcome State Fault Refusal := .next (viaReg via .freezeControl 1 freezeRule s)
def execThawModule (via : Via) (s : State) : Host.Outcome State Fault Refusal := .next (viaReg via .freezeControl 2 freezeRule s)
def execFreezeFabric (via : Via) (s : State) : Host.Outcome State Fault Refusal := .next (viaReg via .freezeControl 3 freezeRule s)
def execThawFabric (via : Via) (s : State) : Host.Outcome State Fault Refusal := .next (viaReg via .freezeControl 4 freezeRule s)

/-- The tick of the first freeze or thaw that waits has come. -/
def execFreezeTick (s : State) : Host.Outcome State Fault Refusal :=
  match s.cnt.freeze.due with
  | [] => .next s
  | e :: rest =>
    if s.now < e.1 then .next s
    else .next (applyFreeze e.1 e.2 { s with cnt := { s.cnt with freeze := { s.cnt.freeze with due := rest } } })

/-- A line with ACK set. -/
def ackFreeze (bs : List Byte) : List Byte := setAt bs 16 (BitVec.ofNat 8 (byteAt bs 16 ||| 2))

/-- A FREEZE message arrives on a port. -/
def execFreeze (p : PortNo) (pkt : Pkt) (s : State) : Host.Outcome State Fault Refusal :=
  let bs := pkt.payload
  let g := leAt bs 10 2
  let flags := byteAt bs 16
  let l : Line := { tag := 0, domain := 0, down := testBit flags 0, ack := testBit flags 1, group := g, gepoch := leAt bs 12 2
                    firstVoider := 0, modules := 0, barrier := 0, round := leAt bs 20 4 }
  if pkt.opcode != 0x26 || !s.powered then .next s
  else
  let s := takenUp (some p.val) pkt s
  if s.device = 0xFFFF then .next (dropPkt s)
  else if !pktOk pkt || byteAt bs 8 = 0 || 2 < byteAt bs 8 then .next (rejectPkt pkt 0x0606 s)
  else if pkt.hop = 31 then .next (rejectPkt pkt 0x0609 s)
  else if !epochOk s g l.gepoch || gKind (s.grp g) != 5 then .next (staleDrop s)
  else if l.ack then
    .next { s with fab := { s.fab with unacked := s.fab.unacked.filter (fun u =>
      !(u.port == p.val && u.pkt.opcode == 0x26 && ackFreeze u.pkt.payload == bs)) } }
  else
    let s := transmit p.val { dest := pkt.src, src := s.ownAddr, opcode := 0x26, flits := 0, lines := 1, payload := ackFreeze bs } s
    if isRepeat s p.val l then .next s
    else
      let s := noteRound p.val l s
      let e := s.grp g
      if l.down then .next (if p.val = gUpPort e then freezeDown (leAt bs 0 8) (byteAt bs 8) g (leAt bs 14 2) s else s)
      else if testBit (gForkPorts e) p.val then .next (freezeUp (leAt bs 0 8) (byteAt bs 8) g (leAt bs 14 2) s)
      else .next s

/-! ### Bead tagging (R357) -/

/-- BEAD_N: an offset of 2^n or more is refused; a nonzero value restarts k on every Board. -/
def beadNRule : Rule := fun bs s =>
  let n := leNat bs
  let o := s.rd .beadOffset
  if n != 0 && o != 0xFFFFFFFF && 2 ^ n ≤ o then (stRange, s) else (stOk, restartBeads (s.wr .beadN n))

def beadOffsetRule : Rule := fun bs s =>
  let n := s.rd .beadN
  let o := leNat bs
  if n != 0 && o != 0xFFFFFFFF && 2 ^ n ≤ o then (stRange, s) else (stOk, s.wr .beadOffset o)

def execBeadNWrite (via : Via) (v : Byte) (s : State) : Host.Outcome State Fault Refusal :=
  .next (viaReg via .beadN v.toNat beadNRule s)

end Sys2Proof.Machine
end

