-- ==== Sys2Proof/Machine/FieldBus.lean ====
section
/-!
DEFINITION. Machine/FieldBus.lean: the field bus and the chain of node IDs (R270 to R275), and NODE_ID in the dictionary (R278).
-/
namespace Sys2Proof.Machine

/-- The controller takes part in the bus: not OFF, enabled, not bus-off (Table 12-11). -/
def canActive (s : State) : Bool := s.dev.state != .off && canSends s && !s.can.busOff

/-- The newest record's SEQ, 0 if none. -/
def State.logNewest (s : State) : Nat := s.log.nextSeq - 1

/-- Erase the persisted ID and NODE_ID_PERSIST. -/
def forgetId (s : State) : State :=
  let s := s.wr .nodeIdPersist 0
  { s with flash := { s.flash with nodeId := 0 } }

/-- Frames of BROADCAST and OFFER are 8 bytes (Table 12-8); another length is counted (R271), another byte 0 is no command. -/
def frameLenOk (bs : List Byte) : Bool := bs.length == 8
def frameOk (bs : List Byte) : Bool := byteAt bs 0 == 1

/-- CLEAR_IDS (R273). -/
def execClearIds (frame : List Byte) (s : State) : Host.Outcome State Fault Refusal :=
  if !canActive s then .next s
  else if !frameLenOk frame then .next (s.bump .canIgnored)
  else if !frameOk frame then .next s
  else
    let all := testBit (byteAt frame 1) 0
    let kept := s.rd .nodeIdPersist = 1
    if all then .next { (forgetId s) with can := { s.can with nodeId := 0 } }
    else if kept then .next s
    else .next { s with can := { s.can with nodeId := 0 } }

/-- ASSIGN_ACK (Table 12-8). -/
def assignAck (s : State) (persisted : Bool) : State :=
  s.emit (.canFrame (0x080 + s.can.nodeId) (leBytes 1 0x81 ++ leBytes 1 s.can.nodeId ++ leBytes 1 (if persisted then 1 else 0)
    ++ leBytes 1 0 ++ padTo 16 s.ident.serial ++ leBytes 2 s.device ++ leBytes 2 0))

/-- A node ID that is kept over reset (R11). -/
def keepId (n : Nat) (s : State) : State :=
  let s := s.wr .nodeIdPersist 1
  { s with flash := { s.flash with nodeId := n } }

/-- OFFER (R273): taken by an eligible module; `chainFor` is how long CHAIN_IN has been asserted, in µs. The ID is persistent if the frame
asks for it, or while NODE_ID_PERSIST is 1 (R278). -/
def execOffer (frame : List Byte) (chainFor : Nat) (s : State) : Host.Outcome State Fault Refusal :=
  if !canActive s then .next s
  else if !frameLenOk frame then .next (s.bump .canIgnored)
  else if !frameOk frame then .next s
  else
    let id := byteAt frame 1
    if s.can.nodeId = 0 && s.can.chainIn && decide (1000 ≤ chainFor) && 1 ≤ id && id ≤ 127 then
      let s := { s with can := { s.can with nodeId := id } }
      if testBit (byteAt frame 2) 0 || s.rd .nodeIdPersist = 1 then .next (assignAck (keepId id s) true)
      else .next (assignAck s false)
    else .next s

/-- CHAIN_IN changes; CHAIN_OUT follows by State.chainOut; NODE_ID stays (R273). -/
def execChainInChange (level : Bool) (s : State) : Host.Outcome State Fault Refusal :=
  .next { s with can := { s.can with chainIn := level, chainSince := s.time } }

/-- The identifiers under a module's own node ID that only it sends (Table 12-8). -/
def ownIds (n : Nat) : List Nat := [0x080 + n, 0x100 + n, 0x200 + n, 0x280 + n]

/-- A frame under the module's own node ID that it did not send (R274). -/
def execIdConflict (canId : Nat) (s : State) : Host.Outcome State Fault Refusal :=
  if canActive s && s.can.nodeId != 0 && (ownIds s.can.nodeId).contains canId then
    let s := s.raise { code := 0x0708 }
    .next { (forgetId s) with can := { s.can with nodeId := 0 } }
  else .next s

/-- HEARTBEAT (Table 12-9). -/
def heartbeatBytes (s : State) : List Byte :=
  leBytes 1 (devCode s.dev.state)
    ++ leBytes 1 ((if s.rd .logAcked < s.logNewest then 1 else 0) + (if s.alert then 2 else 0))
    ++ leBytes 2 s.device ++ leBytes 4 (s.dev.up / 1000000000)

/-- Every HEARTBEAT_PERIOD (R272); one that cannot be sent is replaced by the next. -/
def execHeartbeat (s : State) : Host.Outcome State Fault Refusal :=
  if canActive s && s.can.nodeId != 0 && s.rd .heartbeatPeriod != 0 then
    .next (s.emit (.canFrame (0x280 + s.can.nodeId) (heartbeatBytes s)))
  else .next s

/-- Recovery after 128 occurrences of 11 recessive bits (R275): the held responses are sent in order, then the queued NOTIFY
frames. -/
def execCanBusOffRecovery (s : State) : Host.Outcome State Fault Refusal :=
  if !s.can.busOff then .next s
  else
    let fs := s.can.heldRsp ++ s.can.notify
    let s := (s.bump .canBusoffCount)
    let s := { s with can := { s.can with busOff := false, passive := false, tec := 0, recCount := 0, heldRsp := [], notify := [] } }
    .next (forEach fs (fun f s => s.emit (.canFrame f.1 f.2)) s)

/-- An error or a success on the bus changes TEC or REC (ISO 11898-1): error-passive above 127, bus-off when TEC passes 255. -/
def execCanError (transmit : Bool) (delta : Int) (s : State) : Host.Outcome State Fault Refusal :=
  if !canActive s then .next s
  else
    let t : Int := if transmit then max 0 ((s.can.tec : Int) + delta) else s.can.tec
    let r : Int := if transmit then s.can.recCount else max 0 ((s.can.recCount : Int) + delta)
    let off := decide (255 < t)
    .next { s with can := { s.can with
      tec := (min t 255).toNat
      recCount := (min r 255).toNat
      passive := decide (127 < t) || decide (127 < r)
      busOff := off } }

/-- A frame with another identifier or length, or not of CAN FD base format (R270, R271). -/
def execCanIgnored (canId : Nat) (s : State) : Host.Outcome State Fault Refusal :=
  if canActive s && canId < 2 ^ 29 then .next (s.bump .canIgnored) else .next s

/-- NODE_ID (Table 12-11): the new ID, kept in flash while NODE_ID_PERSIST is 1. -/
def nodeIdWrite : Rule := fun bs s =>
  let n := leNat bs
  let s := { s with can := { s.can with nodeId := n } }
  (stOk, if s.rd .nodeIdPersist = 1 then { s with flash := { s.flash with nodeId := n } } else s)

/-- NODE_ID_PERSIST: 1 keeps the present NODE_ID over reset, 0 keeps none. -/
def nodeIdPersistWrite : Rule := fun bs s =>
  if leNat bs = 1 then (stOk, keepId s.can.nodeId s) else (stOk, forgetId s)

/-- NODE_ID is answered under the old node ID (Table 12-7). -/
def execNodeIdWrite (via : Via) (v : Byte) (s : State) : Host.Outcome State Fault Refusal :=
  .next (viaReg via .nodeId v.toNat nodeIdWrite s)

end Sys2Proof.Machine
end

