-- ==== Sys2Proof/Machine/Trust.lean ====
section
/-!
DEFINITION. Machine/Trust.lean: certificates, the firmware manifest, the device manifest and what makes each valid (R293 to R295, Tables
13-7 to 13-9).
-/
namespace Sys2Proof.Machine

/-- ASCII bytes. -/
def ascii (s : String) : List Byte := s.toList.map (fun c => BitVec.ofNat 8 c.toNat)

/-! ### Certificates (Table 13-7) -/

/-- ISSUER and PUBLIC_KEY. -/
def certIssuer (c : List Byte) : List Byte := (c.drop 8).take 64
def certKey (c : List Byte) : List Byte := (c.drop 72).take 1793

/-- MAGIC, KIND, FORMAT and SIG_LEN are those of the table. -/
def certForm (kind : Nat) (c : List Byte) : Bool :=
  let n := leAt c 6 2
  c.take 4 == ascii "PTCK" && byteAt c 4 == kind && byteAt c 5 == 1 && 1 ≤ n && n ≤ 1280 && c.length == 1865 + n

/-- A certificate is valid under its issuer's: ISSUER is the digest of the issuer's PUBLIC_KEY, and SIGNATURE verifies under that key over
bytes 0 to 1,864 (R293). -/
def certValid (issuer c : List Byte) : Bool :=
  certIssuer c == digest (certKey issuer) && Config.falcon (certKey issuer) (c.take 1865) (c.drop 1865)

/-- The root certificate is its own issuer, and its key is the one whose digest the ROM holds. -/
def Ident.rootOk (i : Ident) : Bool :=
  certForm 1 i.rootCert && digest (certKey i.rootCert) == i.romRoot && certValid i.rootCert i.rootCert

/-- A certificate of a kind issued by the root. -/
def Ident.issued (i : Ident) (kind : Nat) (c : List Byte) : Bool := certForm kind c && certValid i.rootCert c

/-! ### The device manifest (Table 13-9) -/

/-- ORDER_CODE of a grade (Table 12-10). -/
def orderCodeOf (grade : Nat) : List Byte :=
  if grade = 14 then ascii "PT16-A14" else if grade = 12 then ascii "PT16-A12" else ascii "PT16-A16"

/-- Bytes 0 to 191. -/
def Ident.body (i : Ident) : List Byte :=
  ascii "PTDM" ++ leBytes 2 1 ++ leBytes 2 i.signature.length ++ padTo 16 i.serial ++ padTo 16 (orderCodeOf i.grade)
    ++ leBytes 1 i.grade ++ leBytes 1 i.hwRevision ++ leBytes 2 i.disabled ++ leBytes 2 i.pciVendor ++ leBytes 2 0x0016
    ++ padTo 64 i.issuer ++ padTo 64 i.identityDigest ++ List.replicate 16 0#8

/-- The signed manifest, as 0x1000:0B reads it. -/
def Ident.manifest (i : Ident) : List Byte := i.body ++ i.signature

/-- The product-CA certificate is issued by the root, and its key signs bytes 0 to 191 (R295, R296 step 4). -/
def Ident.manifestOk (i : Ident) : Bool :=
  i.issued 2 i.productCa && i.issuer == digest (certKey i.productCa) && 1 ≤ i.signature.length && i.signature.length ≤ 1280
    && Config.falcon (certKey i.productCa) i.body i.signature

/-! ### The firmware manifest (Table 13-8) -/

def Slot.secVersion (k : Slot) : Nat := leAt k.manifest 8 4
def Slot.hwMin (k : Slot) : Nat := leAt k.manifest 12 4
def Slot.version (k : Slot) : List Byte := ((k.manifest.drop 16).take 32).takeWhile (· != 0#8)

/-- Image entry k, 96 bytes. -/
def Slot.entry (x : Slot) (k : Nat) : List Byte := (x.manifest.drop (64 + 96 * k)).take 96

/-- The entry of an image type. -/
def Slot.entryOf (x : Slot) (type : Nat) : List Byte := (((List.range 5).map x.entry).find? (fun e => leAt e 0 4 == type)).getD []

/-- MAGIC, FORMAT, IMAGES, the reserved bytes, one image of each type 1 to 5 of at most 2 MiB, and SIG_LEN (R294). -/
def Slot.formOk (x : Slot) : Bool :=
  let m := x.manifest
  let n := leAt m 544 2
  m.take 4 == ascii "PTFW" && leAt m 4 2 == 1 && leAt m 6 2 == 5 && leAt m 48 16 == 0
    && [1, 2, 3, 4, 5].all (fun t => ((List.range 5).map x.entry).any (fun e => leAt e 0 4 == t))
    && (List.range 5).all (fun k => leAt (x.entry k) 8 4 ≤ 0x200000 && leAt (x.entry k) 80 16 == 0)
    && 1 ≤ n && n ≤ 1280 && m.length == 546 + n

/-- The bytes that the manifest's signature covers, and the signature. -/
def Slot.signedOk (x : Slot) : Bool := Config.falcon (certKey x.signer) (x.manifest.take 544) (x.manifest.drop 546)

/-- An image of the slot, and the digest that its manifest gives it. -/
def Slot.image (x : Slot) (type : Nat) : List Byte := (x.images.drop (leAt (x.entryOf type) 4 4)).take (leAt (x.entryOf type) 8 4)
def Slot.imageDigest (x : Slot) (type : Nat) : List Byte := ((x.entryOf type).drop 16).take 64

/-- The image is whole and matches its digest. -/
def Slot.imageOk (x : Slot) (type : Nat) : Bool :=
  (x.image type).length == leAt (x.entryOf type) 8 4 && digest (x.image type) == x.imageDigest type

/-! ### The slot's verification (R296 step 3, R299) -/

/-- The rollback counter: the higher of the two devices' counter values that authenticate (R299). -/
def State.rollback (s : State) : Nat :=
  max (if s.fw.authA then s.flash.counterA else 0) (if s.fw.authB then s.flash.counterB else 0)

/-- The signer certificate is valid, under a root certificate that is. -/
def State.chainOk (s : State) (k : Slot) : Bool := s.ident.rootOk && s.ident.issued 3 k.signer

/-- Step 3 of R296 on a slot, in its order. -/
def State.slotVerifies (s : State) (k : Slot) : Bool :=
  s.chainOk k && (k.formOk && k.signedOk) && decide (s.rollback ≤ k.secVersion) && decide (k.hwMin ≤ s.ident.hwRevision) && k.imageOk 1

/-! ### Packages (R304) -/

/-- The slot that a package holds: its first 65,536 bytes are the SLOT_HEADER area, the rest the IMAGES area. Where the manifest and the
signer certificate lie in SLOT_HEADER is open (log entry 5). -/
def slotOf (state : Nat) (package : List Byte) : Slot :=
  let header := package.take 65536
  let m := header.drop Config.headerManifest
  let c := header.drop Config.headerSigner
  { state := state
    manifest := m.take (546 + leAt m 544 2)
    signer := c.take (1865 + leAt c 6 2)
    images := package.drop 65536 }

end Sys2Proof.Machine
end

