-- ==== Sys2Proof/Machine/Device.lean ====
section
/-!
DEFINITION. Machine/Device.lean: device states, resets, power input, boot, the fault log's way to flash (chapters 12, 13, 14, 17).
-/
namespace Sys2Proof.Machine

/-! ### Boot (R296, R297) -/

/-- The DATA copies of a device with their generation numbers, newer first (R292). -/
def Flash.copies (f : Flash) (k : Nat) : List (Nat × Data) :=
  (if k = 0 then f.leftA else f.leftB).getD ((f.gen, f.toData) :: f.older.toList)

/-- A new generation: the copy in force becomes the older one (DESIGN CHOICE, log entry 5). -/
def Flash.newGen (f : Flash) : Flash := { f with gen := f.gen + 1, older := some (f.gen, f.toData) }

/-- A device that is left with the copies that it holds. -/
def Flash.leave (f : Flash) (k : Nat) : Flash :=
  if k = 0 then { f with leftA := some (f.copies 0) } else { f with leftB := some (f.copies 1) }

/-- A flash device is marked failed (R292, Table 15-2): FLASH_STATE and FLASH_DEGRADED, once. What is written from here on is of a new
generation, which the device does not get. -/
def flashFailed (k : Nat) (s : State) : State :=
  if (if k = 0 then s.flash.failA else s.flash.failB) then s
  else
    let f := (s.flash.leave k).newGen
    let s := { s with flash := if k = 0 then { f with failA := true } else { f with failB := true } }
    s.raise { code := 0x0806, flags := fLasting, kind := 9, unit := k }

/-- A failed check of the boot, with its step of R296. The spec gives the step no place in DETAIL: byte 0 (DESIGN CHOICE, log entry 5). -/
def bootVerifyFault (slot step : Nat) (s : State) : State :=
  s.raise { code := 0x0802, kind := 9, unit := slot, detail := packAt [(0, 1, step)] }

/-- The valid DATA copies that the boot can read, device A first. -/
def readCopies (rd : BootRead) (f : Flash) : List (Nat × Data) :=
  (List.range 2).flatMap (fun k =>
    if (if k = 0 then rd.failA else rd.failB) then []
    else ((f.copies k).zipIdx.filter (fun c => !rd.badCopies.contains (2 * k + c.2))).map (·.1))

/-- The copy with the highest generation number (R292). -/
def highestCopy : List (Nat × Data) → Option (Nat × Data)
  | [] => none
  | c :: cs => some (cs.foldl (fun a b => if a.1 < b.1 then b else a) c)

/-- The persistent entries of a DATA copy in place of those in force. -/
def applyEntries (old new : Tbl Nat) (regs : Tbl Nat) : Tbl Nat :=
  new.foldl (fun m e => tset m e.1 e.2) (regs.filter (fun e => (old.lookup e.1).isNone))

/-- The boot reads the DATA area (R296 step 2, R292): the chosen copy is in force from here on, in the devices that can be read. -/
def bootData (rd : BootRead) (s : State) : Option State :=
  (highestCopy (readCopies rd s.flash)).map (fun c =>
    let f := s.flash
    { s with
      regs := if c.2.od = f.od then s.regs else applyEntries f.od c.2.od s.regs
      fw := { s.fw with authA := rd.authA, authB := rd.authB }
      flash := ({ f with
        toData := c.2, gen := c.1
        leftA := if rd.failA then some (f.copies 0) else none
        leftB := if rd.failB then some (f.copies 1) else none } : Flash).newGen })

/-- SLOT_FALLBACK: BOOT_PREF names the other slot from here on (R297). -/
def slotFallback (slot : Nat) (s : State) : State :=
  let s := { s with flash := { s.flash with
    bootPref := slot, fallbacks := satAdd 32 s.flash.fallbacks 1 } }
  s.raise { code := 0x0803, kind := 9, unit := 1 - slot }

/-- boot_slot() of R297: the slot, or none. -/
def bootSlot (rd : BootRead) (s : State) : Option Nat × State :=
  let p0 := s.flash.bootPref % 2
  let back := (s.flash.slot p0).state == 4 && decide (3 ≤ s.flash.trialBoots)
  let s := if back then
      slotFallback (1 - p0) { s with flash := s.flash.setSlot p0 { s.flash.slot p0 with state := 3 } }
    else s
  let p := if back then 1 - p0 else p0
  let try' := fun (k : Nat) (s : State) =>
    if ((s.flash.slot k).state == 3 || (s.flash.slot k).state == 4 || (s.flash.slot k).state == 5)
        && !(if k = 0 then rd.failA else rd.failB) && s.slotVerifies (s.flash.slot k) then
      let s := if (s.flash.slot k).state = 4 then
          { s with flash := { s.flash with trialBoots := (s.flash.trialBoots + 1) % 256 } } else s
      some (if k = p then s else slotFallback k s)
    else none
  match try' p s with
  | some s1 => (some p, s1)
  | none =>
    let s1 := bootVerifyFault p 3 s
    match try' (1 - p) s1 with
    | some s2 => (some (1 - p), s2)
    | none => (none, bootVerifyFault (1 - p) 3 s1)

/-- A measurement (R301): the last entry of 64 is of KIND 6, and nothing follows it. -/
def measure (kind detail sv : Nat) (digest : List Byte) (s : State) : State :=
  let n := s.fw.meas.length
  if n < 63 then
    { s with fw := { s.fw with meas := s.fw.meas ++ [⟨kind, detail, sv, s.now, digest⟩] } }
  else if n = 63 then
    { s with fw := { s.fw with meas := s.fw.meas ++ [⟨6, 0, 0, s.now, []⟩] } }
  else s

/-- Images of a slot are measured (R301). -/
def measureImages (kind k : Nat) (types : List Nat) (s : State) : State :=
  forEach types (fun t s => measure kind (k * 16 + t) (s.flash.slot k).secVersion ((s.flash.slot k).imageDigest t) s) s

/-- The manifest of a slot is measured. -/
def measureManifest (k : Nat) (s : State) : State :=
  measure 1 (k * 16) (s.flash.slot k).secVersion (digest (s.flash.slot k).manifest) s

/-- Verified images in the protected SRAM of their cores (R283): core and image type. -/
def loadCode (k : Nat) (cores : List (Nat × Nat)) (s : State) : State :=
  { s with fw := { s.fw with code := cores.foldl (fun m c => tset m c.1 ((s.flash.slot k).image c.2)) s.fw.code } }

/-- The control cores of the Boards in service, with their image type. -/
def controlCores (s : State) : List (Nat × Nat) := s.boardsOk.map (fun b => (16 + b, 4))

/-- The compute working set at entry to READY (R327); the cores run, or restart. -/
def State.readySet (s : State) : Bool := s.pairLeft && s.host.mode != 0

/-- What the boot found of the units that come up: stacks whose initialisation failed are due their test, lanes that do not train wait for
theirs (Table 15-2). -/
def unitsFail (s : State) : State :=
  let s := forEach s.dev.initFails (fun j s => if s.stackOk j then s.modStack j (fun x => { x with testDue := true }) else s) s
  forEach s.dev.laneFails (fun l s => if l < 96 then s.modPort (l / 4) (fun x => { x with failed := orBit x.failed (l % 4) }) else s) s

/-- BOOT_READY_TIME, at the first READY of a boot (R298). -/
def readyTime (s : State) : State :=
  { s with dev := { s.dev with
      initFails := [], laneFails := []
      bootReadyMs := if s.dev.bootReadyMs = 0 then (s.dev.up - s.dev.bootAt) / 1000000 else s.dev.bootReadyMs } }

/-- The type-4 image is verified and copied into the protected SRAM of the control cores; Boards, stacks and port dies come up, ports train,
and the module enters READY (R287, R296 step 6). Without the working set: READY_FAIL (R327). An image that fails its check leaves the
module in SERVICE (DESIGN CHOICE, log entry 5). -/
def bringUp (s : State) : State :=
  let s := { s with dev := { s.dev with moving := none } }
  if !s.readySet then s.raise { code := 0x0804 }
  else if !(s.flash.slot s.fw.active).imageOk 4 then bootVerifyFault s.fw.active 6 s
  else
    let s := loadCode s.fw.active (controlCores s) s
    let s := { s with
      host := { s.host with memActive := true }
      boards := (List.range 16).map (fun b => (b, { (s.board b) with asleep := true }))
      ports := (List.range 24).map (fun p =>
        (p, { (s.port p) with state := if s.rd .portEnable p = 1 then .training else .disabled })) }
    readyTime ((unitsFail s).setState .ready)

/-- The entry into READY that AUTO_READY asks for waits for the link, which trains only after SERVICE (Table 17-4); READY_FAIL comes with the
end of the change of the rails, when the queue is empty (DESIGN CHOICE, log entry 6). -/
def autoReady (s : State) : State :=
  if s.pairLeft && s.host.mode = 0 then { s with dev := { s.dev with moving := some .ready } } else bringUp s

/-- The link has trained. -/
def linkForReady (s : State) : State :=
  if s.dev.moving = some .ready && s.dev.state == .service && !s.dev.restarting.contains corePower then bringUp s else s

/-- The boot ends in STANDBY (R297). -/
def bootFails (s : State) : State := { s with dev := { s.dev with booting := false, bootFailed := true } }

/-- SERVICE is reached from slot k. -/
def bootEnds (k : Nat) (rd : BootRead) (s : State) : State :=
  { s with
    fw := { s.fw with booted := k, active := k }
    dev := { s.dev with
      booting := false, bootFailed := false, bootServiceMs := (s.dev.up - s.dev.bootAt) / 1000000
      initFails := rd.stackFails, laneFails := rd.laneFails } }

/-- Steps 4 to 6 of R296, after the ROM's jump to the type-1 image of slot k. -/
def bootFrom (k : Nat) (rd : BootRead) (s : State) : State :=
  let sl := s.flash.slot k
  let s := loadCode k [(coreSecurity, 1)] (measureImages 2 k [1] (measureManifest k s))
  if !(s.ident.manifestOk && sl.imageOk 2 && sl.imageOk 3 && sl.imageOk 5) then bootFails (bootVerifyFault k 4 s)
  else
    let s := measureImages 2 k [2, 3, 5] (measure 4 0 0 (digest s.ident.manifest) s)
    let s := loadCode k [(corePower, 2), (coreScheduler, 3), (32, 5)] s
    let s := (bootEnds k rd s).setState .service
    if s.rd .autoReady = 1 then autoReady s else s

/-- The boot (R296): PGOOD is asserted, the DATA area is read and a slot chosen; SERVICE, then READY with AUTO_READY, or a boot that fails in
STANDBY, as one without a valid copy of DATA does (R326). It waits for a security core that restarts. -/
def execBoot (rd : BootRead) (s : State) : Host.Outcome State Fault Refusal :=
  if !(s.dev.state == .standby && s.dev.booting) || s.dev.restarting.contains coreSecurity then .next s
  else
    let s := { s with dev := { s.dev with pgood := true } }
    match bootData rd s with
    | none => .next (bootFails s)
    | some s =>
      let s := if rd.failA then flashFailed 0 s else s
      let s := if rd.failB then flashFailed 1 s else s
      let r := bootSlot rd s
      match r.1 with
      | none => .next (bootFails r.2)
      | some k => .next (bootFrom k rd r.2)

/-! ### STATE_REQUEST and RESET_REQUEST (R279, R287, R290) -/

/-- The hub rails rise, PGOOD is asserted and the boot starts (Table 13-4). -/
def startBoot (s : State) : State :=
  { s with dev := { s.dev with pgood := true, booting := true, bootFailed := false, bootAt := s.dev.up, bootServiceMs := 0, bootReadyMs := 0 } }

/-- Records that are no longer kept read as zero from here on. -/
def forgetRecords (l : List (Nat × BitVec 512)) (s : State) : State := forEach l (fun e s => s.bumpVer .logRecord e.1) s

/-- The hub stops; what waits in its RAM reaches flash first (R329). -/
def flushLog (s : State) : State :=
  let l := s.flash.log ++ s.log.ram
  forgetRecords (l.take (l.length - 4096))
    { s with log := { s.log with ram := [] }, flash := { s.flash with log := l.drop (l.length - 4096) } }

/-- To STANDBY: as from READY to SERVICE, and then the hub cores stop (Table 13-4). The field-bus controller, in the always-on domain,
keeps what it holds, and the time since reset goes on. -/
def toStandby (s : State) : State :=
  let s := (flushLog s).setState .standby
  let c := s.can
  let t := s.dev.up
  let s := resetModule s.dev.lastReset .standby s
  { s with
    can := c
    dev := { s.dev with pgood := false, up := t, since := t } }

/-- A change of the rails that can take its effect: none is under way while the power-management core restarts (Table 13-2). -/
def moveTo (st : DevState) (s : State) : State :=
  match st with
  | .standby => toStandby s
  | .ready => bringUp s
  | _ => (leaveReady { s with dev := { s.dev with moving := none } }).setState .service

/-- A change of the rails ends once the power-management core runs (DESIGN CHOICE: when the queue is empty; log entry 6). -/
def settleMove (s : State) : State :=
  match s.dev.moving with
  | some st => if s.dev.restarting.contains corePower then s else moveTo st s
  | none => s

/-- A change of the rails begins: one out of READY is under way until it ends (Table 00-6), and every one while the power-management core
restarts. -/
def startMove (st : DevState) (s : State) : State :=
  if s.dev.state == .ready || s.dev.restarting.contains corePower then { s with dev := { s.dev with moving := some st } }
  else moveTo st s

/-- The effect of an accepted STATE_REQUEST, or REFUSED; none is accepted while a change of the rails is under way (DESIGN CHOICE, log
entry 6). -/
def stateRequest : Rule := fun bs s =>
  let v := leNat bs
  let job := s.dev.jobState
  if s.dev.moving.isSome then (stRefused, s)
  else if v = 1 then
    if (s.dev.state == .service || s.dev.state == .ready) && job != .running && job != .loading then (stOk, startMove .standby s)
    else (stRefused, s)
  else if v = 2 then
    if s.dev.state == .standby && s.dev.pwrEn && !s.dev.booting then (stOk, startBoot s)
    else if s.dev.state == .ready && job != .loading then (stOk, startMove .service s)
    else if s.dev.state == .safe && s.dev.safeCause = 0 then
      (stOk, (endInhibit 2 s).setState .service)
    else (stRefused, s)
  else if s.dev.state == .service then (stOk, startMove .ready s)
  else (stRefused, s)

/-- A reset of the module by a request or by the always-on domain: what waits in hub RAM is kept, the state is STANDBY, and the module boots
(R290). -/
def resetAndBoot (cause : Nat) (s : State) : State := startBoot (resetModule cause .standby ((flushLog s).setState .standby))

/-- RESET_REQUEST (R279, R290): a cold reset also cycles the rails, with PGOOD deasserted until the boot begins. -/
def resetRequest : Rule := fun bs s =>
  let v := leNat bs
  if s.dev.jobState == .running then (stRefused, s)
  else
    let s := resetAndBoot v s
    (stOk, if v = 2 then { s with dev := { s.dev with pgood := false } } else s)

def execStateRequestStandby (via : Via) (s : State) : Host.Outcome State Fault Refusal :=
  .next (viaReg via .stateRequest 1 stateRequest s)

def execStateRequestService (via : Via) (s : State) : Host.Outcome State Fault Refusal :=
  .next (viaReg via .stateRequest 2 stateRequest s)

def execStateRequestReady (via : Via) (s : State) : Host.Outcome State Fault Refusal :=
  .next (viaReg via .stateRequest 3 stateRequest s)

def execWarmReset (via : Via) (s : State) : Host.Outcome State Fault Refusal :=
  .next (viaReg via .resetRequest 1 resetRequest s)

def execColdReset (via : Via) (s : State) : Host.Outcome State Fault Refusal :=
  .next (viaReg via .resetRequest 2 resetRequest s)

/-! ### Power input and PWR_EN (R287, R313, R367 to R369) -/

def execInputPowerUp (s : State) : Host.Outcome State Fault Refusal :=
  if s.dev.state == .off then
    let s := resetModule 0 .standby { s with dev := { s.dev with inputOk := true } }
    .next (if s.dev.pwrEn then startBoot s else s)
  else .next { s with dev := { s.dev with inputOk := true } }

/-- Input below 46 V for 100 µs: every rail off, PGOOD deasserted, OFF (R313). What still waits in hub RAM is lost. -/
def execInputUndervoltage (s : State) : Host.Outcome State Fault Refusal :=
  let s := resetModule 0 .off s
  .next { s with
    log := { s.log with ram := [] }
    dev := { s.dev with inputOk := false, pgood := false, thermTrip := false, safeCause := 0 } }

def execPwrEnAssert (s : State) : Host.Outcome State Fault Refusal :=
  let s := { s with dev := { s.dev with pwrEn := true } }
  .next (if s.dev.state == .standby && !s.dev.booting then startBoot s else s)

/-- PWR_EN deasserted (Table 13-4): ABORT if a job runs, then to STANDBY, where the link drops (Table 17-5); a boot stops without a log entry.
The change of the rails waits for a power-management core that restarts (Table 13-2). -/
def execPwrEnDeassert (s : State) : Host.Outcome State Fault Refusal :=
  let s := { s with dev := { s.dev with pwrEn := false } }
  if s.dev.state == .off then .next s
  else if s.dev.state == .standby then
    .next (dropLink { s with dev := { s.dev with booting := false, bootFailed := false, pgood := false } })
  else
    let s := if s.dev.jobState == .running then abortJob s else s
    .next (if s.dev.restarting.contains corePower then { s with dev := { s.dev with moving := some .standby } } else toStandby s)

/-! ### SAFE causes (R288, R317) -/

def coreNo : Core → Nat
  | .security => 0
  | .power => 1
  | .scheduler => 2
  | .control b => 16 + b.val

/-- A cause of SAFE arises with its fault: in every state but OFF (R288). -/
def safeFault (bit : Nat) (f : Flt) (s : State) : State :=
  if s.dev.state == .off then s
  else enterSafe bit (s.raise { f with flags := if s.dev.state == .service || s.powered then fSafe else 0 })

/-- A code image in SRAM fails its periodic check: SAFE_CAUSE bit 4 (R288). No core has code in STANDBY, but in the boot. -/
def execImageIntegrity (core : Core) (s : State) : Host.Outcome State Fault Refusal :=
  if s.hubUp || s.dev.booting then .next (safeFault 4 { code := 0x0807, kind := 8, unit := coreNo core } s)
  else .next s

/-- Rail faults (R317), in every state but OFF: the input is watched by the always-on domain. -/
def execRailFault (k : RailKind) (s : State) : Host.Outcome State Fault Refusal :=
  match k with
  | .outOfTolerance => .next (safeFault 1 { code := 0x0904 } (s.bump .railFaults))
  | .overCurrent => .next (safeFault 1 { code := 0x0904 } (s.bump .railFaults))
  | .overVoltage => .next (safeFault 1 { code := 0x0904 } (s.bump .railFaults))

def execRailFaultClear (s : State) : Host.Outcome State Fault Refusal :=
  .next { s with dev := { s.dev with safeCause := clrBit s.dev.safeCause 1 } }

/-! ### The fault log's way to flash (R329) -/

/-- The devices that a write leaves failed, read from a free value, since the spec does not say when a device fails (log entry 5): the write
failed (bits 0 and 1), and then the read-back of the area (bits 2 and 3), or the one retry (bits 4 and 5; Table 15-2). -/
def failingDevices (d : Nat) : List Nat := (List.range 2).filter (fun k => testBit d k && (testBit d (2 + k) || testBit d (4 + k)))

/-- A record is written to the DATA area by the security core, once it runs (Table 13-2). A device in which the write fails is marked so
(R292); a record that no device takes stays in hub RAM. -/
def execFaultLogFlush (s : State) : Host.Outcome State Fault Refusal :=
  if s.log.ram.isEmpty || s.dev.restarting.contains coreSecurity then .next s
  else
    let d := s.draw 6
    let s := forEach (failingDevices d.1) flashFailed d.2
    if s.flash.failA && s.flash.failB then .next s
    else
      let l := s.flash.log ++ s.log.ram.take 1
      .next (forgetRecords (l.take (l.length - 4096))
        { s with log := { s.log with ram := s.log.ram.drop 1 }, flash := { s.flash with log := l.drop (l.length - 4096) } })

/-- LOG_CLEAR (R344): writing 1 erases the log; SEQ continues. -/
def logClear : Rule := fun bs s =>
  if leNat bs = 1 then
    (stOk, forgetRecords (s.flash.log ++ s.log.ram)
      { s with log := { s.log with ram := [], last := [] }, flash := { s.flash with log := [] } })
  else (stOk, s)

def execLogClear (via : Via) (v : Byte) (s : State) : Host.Outcome State Fault Refusal :=
  .next (viaReg via .logClear v.toNat logClear s)

end Sys2Proof.Machine
end

