-- ==== Sys2Proof/Machine/Firmware.lean ====
section
/-!
DEFINITION. Machine/Firmware.lean: staging and activation of firmware, attestation, debug unlock and the TAP (R300 to R307, R375).
-/
namespace Sys2Proof.Machine

/-- The largest package (R304). -/
def packageLimit : Nat := 50266112

def setSlotState (k st : Nat) (s : State) : State :=
  { s with flash := s.flash.setSlot k { s.flash.slot k with state := st } }

/-- Staging ends in FAILED with a reason of Table 13-13; the slot is INVALID; vector 8. -/
def stageFail (reason : Nat) (s : State) : State :=
  let s := setSlotState s.stageSlot 2 s
  ({ s with fw := { s.fw with stageState := 5, stageError := reason } }).signal 8

/-- FW_CONTROL STAGE (R304). -/
def stageRule (s : State) : Nat × State :=
  if s.fw.actState != 0 || s.fw.staging then (stRefused, s)
  else
    let n := s.rd .fwPackageBytes
    if n = 0 || packageLimit < n then (stOk, stageFail 2 s)
    else
      let s := setSlotState s.stageSlot 1 s
      (stOk, { s with fw := { s.fw with
        stageState := 1, stageError := 0, progress := 0, chunks := [], stageSource := s.rd .fwSource } })

/-- FW_CONTROL ACTIVATE (R305). -/
def activateRule (s : State) : Nat × State :=
  if s.fw.stageState != 4 then (stRefused, s)
  else
    let k := s.stageSlot
    let s := setSlotState k 4 s
    (stOk, { s with
      flash := { s.flash with trialBoots := 0, bootPref := k }
      fw := { s.fw with prefBefore := s.flash.bootPref, actState := if s.fw.inhibit = 0 then 2 else 1, actReq := s.now } })

/-- The slot in TRIAL that runs, if any (R307). -/
def State.trialSlot (s : State) : Option Nat :=
  if (s.flash.slot s.fw.active).state = 4 then some s.fw.active
  else if (s.flash.slot s.fw.booted).state = 4 then some s.fw.booted
  else none

/-- FW_CONTROL CONFIRM (R307): the rollback counter rises to the slot's SECURITY_VERSION and never falls (R299). -/
def confirmRule (s : State) : Nat × State :=
  match s.trialSlot with
  | none => (stRefused, s)
  | some k =>
    let n := max s.rollback (s.flash.slot k).secVersion
    let s := setSlotState k 5 s
    let s := if (s.flash.slot (1 - k)).state = 5 then setSlotState (1 - k) 3 s else s
    (stOk, { s with
      flash := { s.flash with counterA := n, counterB := n }
      fw := { s.fw with authA := true, authB := true, actState := if s.fw.actState = 4 then 0 else s.fw.actState } })

/-- FW_CONTROL CANCEL (R307). -/
def cancelRule (s : State) : Nat × State :=
  if s.fw.staging then
    (stOk, stageFail 10 s)
  else if s.fw.actState = 1 || (s.fw.actState = 2 && !s.switching) then
    let s := setSlotState s.stageSlot 3 s
    (stOk, { s with flash := { s.flash with bootPref := s.fw.prefBefore }, fw := { s.fw with actState := 0 } })
  else
    match s.trialSlot with
    | some k =>
      let s := setSlotState k 3 s
      (stOk, { s with flash := { s.flash with bootPref := 1 - k } })
    | none => (stRefused, s)

def fwControl : Rule := fun bs s =>
  match leNat bs with
  | 1 => stageRule s
  | 2 => activateRule s
  | 3 => confirmRule s
  | 4 => cancelRule s
  | _ => (stRange, s)

def execStage (via : Via) (s : State) : Host.Outcome State Fault Refusal := .next (viaReg via .fwControl 1 fwControl s)
def execActivate (via : Via) (s : State) : Host.Outcome State Fault Refusal := .next (viaReg via .fwControl 2 fwControl s)
def execConfirm (via : Via) (s : State) : Host.Outcome State Fault Refusal := .next (viaReg via .fwControl 3 fwControl s)
def execCancel (via : Via) (s : State) : Host.Outcome State Fault Refusal := .next (viaReg via .fwControl 4 fwControl s)

/-- FW_CHUNK (R304): bytes at FW_CHUNK_OFFSET, in ascending offset; the offset advances. With the last one the package is verified. -/
def fwChunk : Rule := fun bs s =>
  let off := s.rd .fwChunkOffset
  if !((s.fw.stageState == 1 || s.fw.stageState == 2) && s.fw.stageSource == 1) || off != s.fw.chunks.length
      || s.rd .fwPackageBytes < off + bs.length then (stRefused, s)
  else
    let s := s.wr .fwChunkOffset ((off + bs.length) % 2 ^ 32)
    (stOk, { s with fw := { s.fw with
      stageState := if off + bs.length = s.rd .fwPackageBytes then 3 else 2
      chunks := s.fw.chunks ++ bs, progress := s.fw.chunks.length + bs.length } })

def execFwChunk (via : Via) (data : List Byte) (s : State) : Host.Outcome State Fault Refusal :=
  .next (viaWrite via .fwChunk 0x8010 data fwChunk s)

/-- The bytes of the package: from host memory, or the chunks. -/
def packageBytes (s : State) (p : PackageRead) : List Byte := if s.fw.stageSource = 1 then s.fw.chunks else p.bytes

/-- The first check of the staged package that fails (Table 13-13), 0 for none: as R296 step 3, for every image (R304). -/
def packageError (s : State) (p : PackageRead) : Nat :=
  let k := slotOf 3 (packageBytes s p)
  if p.readError then 1
  else if p.flashError then 9
  else if !k.formOk then 3
  else if !s.chainOk k then 4
  else if !k.signedOk then 5
  else if k.secVersion < s.rollback then 7
  else if s.ident.hwRevision < k.hwMin then 8
  else if !([1, 2, 3, 4, 5].all k.imageOk) then 6
  else 0

/-- Chunks are still to come: the package is not whole (R304). -/
def awaitsChunks (s : State) (p : PackageRead) : Bool :=
  s.fw.stageSource == 1 && !p.flashError && s.fw.chunks.length != s.rd .fwPackageBytes

/-- The package has been received and verified (R304); vector 8. A flash write that fails after its retry marks the device failed
(Table 15-2). -/
def execStagingComplete (pkg : PackageRead) (s : State) : Host.Outcome State Fault Refusal :=
  if !s.fw.staging || s.dev.restarting.contains coreSecurity || awaitsChunks s pkg then .next s
  else
    let e := packageError s pkg
    if e = 9 then .next (flashFailed s.stageSlot (stageFail e s))
    else if e != 0 then .next (stageFail e s)
    else
      let k := s.stageSlot
      let s := { s with
        flash := s.flash.setSlot k (slotOf 3 (packageBytes s pkg))
        fw := { s.fw with
          stageState := 4, stageError := 0, progress := (packageBytes s pkg).length, chunks := [] } }
      .next (((s.bumpVer .slotVersion k).bumpVer .slotManifest k).signal 8)

/-- The switch to the trial images (R305 steps 4 and 5). An image that fails its digest ends the activation as a failed staging would:
reason 6, the slot INVALID, BOOT_PREF back (DESIGN CHOICE, log entry 5). The switch restarts the power-management core, the scheduler core and
the control cores, which sets inhibit bit 3; it begins once no core restarts for another reason (DESIGN CHOICE, log entry 44). -/
def execActivationSwitch (s : State) : Host.Outcome State Fault Refusal :=
  if !s.switching || !s.dev.restarting.isEmpty then .next s
  else
    let k := s.stageSlot
    if !([2, 3, 4].all (s.flash.slot k).imageOk) then
      .next (stageFail 6 { s with flash := { s.flash with bootPref := s.fw.prefBefore }, fw := { s.fw with actState := 0 } })
    else
      let s := measureImages 3 k [2, 3, 4] (measureManifest k s)
      let s := loadCode k ([(corePower, 2), (coreScheduler, 3)] ++ if s.powered then controlCores s else []) s
      let s := { s with fw := { s.fw with active := k, actState := 4, actDone := s.now, stageState := 0 } }
      .next ((endInhibit 3 (setInhibit 3 (s.bumpVer .certChain))).signal 8)

/-- ACT_INHIBIT_HOLD after its condition last ended, an inhibit bit clears (R306); a deferred activation drains. -/
def execActInhibitClear (bit : Fin 4) (s : State) : Host.Outcome State Fault Refusal :=
  if testBit s.fw.inhibit bit.val && !testBit s.fw.inhibitOn bit.val then
    let n := clrBit s.fw.inhibit bit.val
    .next { s with fw := { s.fw with
      inhibit := n, actState := if n = 0 && s.fw.actState = 1 then 2 else s.fw.actState } }
  else .next s

/-! ### Attestation (R300 to R302) -/

/-- ATTEST_NONCE: 32 bytes start a report; before the key is derived BUSY. -/
def attestNonce : Rule := fun bs s =>
  if bs.length != 32 then (stLength, s)
  else if s.fw.keyBad then (stRefused, s)
  else if !s.fw.keyReady then (stBusy, s)
  else (stOk, ({ s with fw := { s.fw with attest := 1, nonce := bs, report := [] } } : State).bumpVer .attestReport)

def execAttestNonce (via : Via) (data : List Byte) (s : State) : Host.Outcome State Fault Refusal :=
  .next (viaWrite via .attestNonce 0x9000 data attestNonce s)

/-- A measurement entry (Table 13-11). -/
def measBytes (n : Nat) (m : Meas) : List Byte :=
  leBytes 2 n ++ leBytes 1 m.kind ++ leBytes 1 m.detail ++ leBytes 4 m.secVersion ++ leBytes 8 m.time ++ padTo 64 m.digest

/-- The report without its signature (Table 13-12). -/
def reportBody (s : State) : List Byte :=
  ascii "PTAR" ++ leBytes 2 1 ++ leBytes 2 s.fw.meas.length ++ padTo 32 s.fw.nonce ++ padTo 16 s.ident.serial
    ++ leBytes 1 (devCode s.dev.state) ++ leBytes 1 (jobCode s.dev.jobState) ++ leBytes 1 s.fw.booted ++ leBytes 1 s.fw.active
    ++ leBytes 4 s.rollback ++ leBytes 4 s.fw.debugState ++ leBytes 8 s.now ++ padTo 64 s.ident.identityDigest
    ++ padTo 64 s.job.digest ++ (s.fw.meas.zipIdx.flatMap (fun m => measBytes m.2 m.1))

/-- The report is signed and READY (R302). -/
def execAttestReportReady (s : State) : Host.Outcome State Fault Refusal :=
  if s.fw.attest != 1 || s.dev.restarting.contains coreSecurity then .next s
  else
    let body := reportBody s
    let sig := (Config.signReport s.fw.privateKey body).take 1280
    let r := body ++ leBytes 2 sig.length ++ sig
    .next (({ s with fw := { s.fw with attest := 2, report := r } } : State).bumpVer .attestReport)

/-- The keys derived from a seed (R300). -/
def deriveKeys (seed : List Byte) (f : Firmware) : Firmware :=
  let x := ascii "PT16-ID" ++ padTo 32 seed
  { f with publicKey := Config.falconPublic x, privateKey := Config.falconPrivate x
           counterKeys := [Config.counterKey 0 (padTo 32 seed), Config.counterKey 1 (padTo 32 seed)] }

/-- The identity key fails: IDENTITY_FAULT, and attestation is UNAVAILABLE. -/
def identityFails (s : State) : State := ({ s with fw := { s.fw with keyBad := true, attest := 3 } } : State).raise { code := 0x0805 }

/-- The key pair is derived within 1.0 s of PGOOD (R300) from the seed that the PUF's content gives with the helper data; the digest of the
public key is compared with IDENTITY. A seed that is not recovered gives no key (DESIGN CHOICE, log entry 5). -/
def execIdentityKeyDerived (seed : Option (List Byte)) (s : State) : Host.Outcome State Fault Refusal :=
  if !s.dev.pgood || s.fw.keyReady || s.fw.keyBad then .next s
  else
    match seed with
    | none => .next (identityFails s)
    | some x =>
      let s := ({ s with fw := deriveKeys x s.fw } : State).bumpVer .identityKey
      if digest s.fw.publicKey == s.ident.identityDigest then .next { s with fw := { s.fw with keyReady := true } }
      else .next (identityFails s)

/-! ### Debug unlock and the TAP (R303, R375) -/

/-- DEBUG_CHALLENGE: serial number and 32 fresh random bytes. -/
def debugChallenge (s : State) : List Byte :=
  padTo 16 s.ident.serial ++ padTo 32 (Config.randomBytes s.fw.challengeNo)

/-- A token: layout and challenge, a KIND 4 certificate issued by the root, and the signature by its key over what stands before it. -/
def tokenValid (s : State) (t : List Byte) : Bool :=
  let n := leAt t 56 2
  let cert := (t.drop 60).take n
  t.take 4 == ascii "PTDU" && (t.drop 8).take 48 == debugChallenge s && 60 ≤ t.length && 60 + n + leAt t 58 2 == t.length
    && s.ident.issued 4 cert && Config.falcon (certKey cert) (t.take (60 + n)) (t.drop (60 + n))

/-- DEBUG_RESPONSE: a valid token in SERVICE or READY unlocks its SCOPE; any other is refused and counted. -/
def debugResponse : Rule := fun bs s =>
  let ok := (s.dev.state == .service || s.dev.state == .ready) && tokenValid s bs
  let s := ({ s with fw := { s.fw with challengeNo := s.fw.challengeNo + 1 } } : State).bumpVer .debugChallenge
  if ok then
    let s := measure 5 0 0 (digest bs) s
    (stOk, { s with fw := { s.fw with debugState := leAt bs 4 4 } })
  else (stRefused, { s with fw := { s.fw with debugFails := satAdd 32 s.fw.debugFails 1 } })

def execDebugResponse (via : Via) (data : List Byte) (s : State) : Host.Outcome State Fault Refusal :=
  .next (viaWrite via .debugResponse 0x9010 data debugResponse s)

/-- An instruction is shifted into the TAP. -/
def execTapInstruction (i : TapInstr) (s : State) : Host.Outcome State Fault Refusal :=
  if s.dev.state == .off then .next s
  else
    let low := s.dev.state == .standby || s.dev.state == .service
    match i with
    | .idcode => .next (s.emit (.tap true 0x1016A8B3))
    | .bypass => .next (s.emit (.tap true 0))
    | .sample => .next (s.emit (.tap true 0))
    | .extest => .next (s.emit (.tap low 0))
    | .extestPulse => .next (s.emit (.tap low 0))
    | .extestTrain => .next (s.emit (.tap low 0))
    | .hidden _ => .next (s.emit (.tap (testBit s.fw.debugState 0) 0))

end Sys2Proof.Machine
end

