-- ==== Sys2Proof/Machine/HostLink.lean ====
section
/-!
DEFINITION. Machine/HostLink.lean: the host link, the mailbox's GO, the cause registers, the HDM window and the resets of the
function (R244 to R263, R366, R368).
-/
namespace Sys2Proof.Machine

/-! ### The mailbox (R249) -/

/-- A write to MB_REQ. REQ_LEN is stored; GO takes the request, completes it at once, or sets OVERLAP: the write is then ignored whole, REQ_LEN
with it (DESIGN CHOICE, log entry 51). -/
def execMbGo (v : W32) (s : State) : Host.Outcome State Fault Refusal :=
  if !pathServed s .mailbox then .next s
  else
    let n := bitsOf v.toNat 16 0
    let go := testBit v.toNat 31
    if s.host.mbState == .busy then
      .next (if go then { s with host := { s.host with overlap := true } } else { s with host := { s.host with reqLen := n } })
    else
      let s := { s with host := { s.host with reqLen := n } }
      if !go then .next s
      else if n = 0 || 65536 < n then .next (mailboxDone [] s)
      else if n < 16 then .next (mailboxDone (leBytes 1 stBadRequest ++ List.replicate 15 0#8) s)
      else .next { s with host := { s.host with mbState := .busy, mbReq := s.host.reqBuf.read 0 n } }

/-! ### Causes (R259, R263) -/

/-- The rule of IRQ_CAUSE: the bits written as one clear. -/
def irqCauseRule : Rule := fun bs s =>
  (stOk, { s with host := { s.host with irqCause := s.host.irqCause &&& ~~~(BitVec.ofNat 64 (leNat bs)) } })

/-- The rule of DOMAIN_CAUSE_BITS of a domain. -/
def domainBitsRule (d : Nat) : Rule := fun bs s =>
  (stOk, s.wr .domainCauseBits (andNot (s.rd .domainCauseBits d) (leNat bs)) d)

/-- The rule of DOMAIN_CAUSE_k: every detail bit of a domain named by a one clears. -/
def domainCauseRule (k : Nat) : Rule := fun bs s =>
  (stOk, forEach (bitList (leNat bs) 64) (fun i s => s.wr .domainCauseBits 0 (64 * k + i)) s)

def domainCauseReg : Nat → Reg
  | 0 => .domainCause0
  | 1 => .domainCause1
  | 2 => .domainCause2
  | _ => .domainCause3

/-- DOMAIN_CAUSE_k as it reads: the OR of each domain's detail bits. -/
def State.domainCause (s : State) (k : Nat) : Nat :=
  (List.range 64).foldl (fun a i => if s.rd .domainCauseBits (64 * k + i) = 0 then a else a + 2 ^ i) 0

def execIrqCauseClear (f : Front) (mask : W64) (s : State) : Host.Outcome State Fault Refusal :=
  match f with
  | .bar0 => if pathServed s .mailbox then .next (irqCauseRule (leBytes 8 mask.toNat) s).2 else .next s
  | .dict v => .next (viaReg v .irqCause mask.toNat irqCauseRule s)

/-- DOMAIN_CAUSE in BAR0 holds one bit per domain; the detail bits are cleared through the dictionary alone. -/
def execDomainCauseClear (f : Front) (t : CauseTarget) (s : State) : Host.Outcome State Fault Refusal :=
  match f, t with
  | .bar0, .domains k m => if pathServed s .mailbox then .next (domainCauseRule k.val (leBytes 8 m.toNat) s).2 else .next s
  | .bar0, .details _ _ => .next s
  | .dict v, .domains k m => .next (viaReg v (domainCauseReg k.val) m.toNat (domainCauseRule k.val) s)
  | .dict v, .details d m =>
    .next (viaWrite v .domainCauseBits (0x2400 + d.val) (leBytes 1 m.toNat) (domainBitsRule d.val) s)

/-! ### The window (R257, R258) -/

/-- VALID and DPA_BASE of Table 11-8; the reserved bits read 0. -/
def windowEntry (v : W64) : W64 := v &&& 0x8000000001FFFFFF#64

def execWindowMapWrite (i : Fin 256) (v : W64) (s : State) : Host.Outcome State Fault Refusal :=
  if pathServed s .mailbox then
    .next { s with host := { s.host with windowMap := tset s.host.windowMap i.val (windowEntry v) } }
  else .next s

/-- The module decodes the offset: CXL.mem is on and the committed window holds it. -/
def State.inWindow (s : State) (offset : Nat) : Bool := s.host.mode == 2 && s.host.memEn && decide (offset < s.host.hdmSize)

/-- The DPA of a window offset whose access is performed. -/
def State.windowDpa (s : State) (offset : Nat) : Option Nat :=
  let e := (tget s.host.windowMap (offset / 2 ^ 30) 0#64).toNat
  let dpa := bitsOf e 24 0 * 65536 + offset % 2 ^ 30
  if s.host.memActive && testBit e 63 then
    match s.regionAt dpa with
    | some r => if rKind r.2 = 6 || rKind r.2 = 7 then some dpa else none
    | none => none
  else none

/-- WINDOW_FAULT with the offset. -/
def windowFault (offset : Nat) (s : State) : State :=
  (s.bump .windowFaults).raise { code := 0x0705, detail := packAt [(0, 8, offset)] }

def zeroLine : List Byte := List.replicate 64 0#8

/-- A read of the window. A write to a stack whose channels are tested takes effect at once: no read is served before the test ends
(DEDUCED, log entry 35). -/
def execHdmRead (offset : Nat) (s : State) : Host.Outcome State Fault Refusal :=
  let o := offset - offset % 64
  if !s.inWindow o then .next s
  else
    match s.windowDpa o with
    | none => .next ((windowFault o s).emit (.hdmData zeroLine))
    | some dpa =>
      .next (if s.underTest (stackOf dpa) then holdRead (.window o) dpa 1 0 s else windowRead dpa s)

def execHdmWrite (offset : Nat) (line : List Byte) (s : State) : Host.Outcome State Fault Refusal :=
  let o := offset - offset % 64
  if !s.inWindow o then .next s
  else
    match s.windowDpa o with
    | none => .next ((windowFault o s).emit .hdmDone)
    | some dpa => .next ((s.hubStackWrite dpa (padTo 64 line)).emit .hdmDone)

/-- The decoder's commit: interleave ways 1, a multiple of 256 MiB up to 256 GiB (R246, R257). -/
def execHdmDecoderCommit (base size : Nat) (s : State) : Host.Outcome State Fault Refusal :=
  if s.host.mode = 2 && s.host.hdmWays = 1 && size % 2 ^ 28 = 0 && 0 < size && size ≤ 2 ^ 38 then
    .next { s with host := { s.host with hdmBase := base, hdmSize := size } }
  else .next s

/-! ### Configuration space and component registers (R244 to R246) -/

/-- The DVSECs of Table 11-1, by ID; the others are absent. 0x0000: Cache_Capable, IO_Capable, Mem_Capable, Mem_HwInit_Mode, HDM_Count, Range
1 Size, Memory_Class (0: volatile), Media_Type (0: volatile DRAM), Range 2 size. 0x0007: Cache, IO and Mem capable, flit bytes. 0x0008: the
BAR, offset and Register Block Identifier of its one entry. -/
def dvsec : Nat → List Nat
  | 0x0000 => [1, 1, 1, 0, 1, 2 ^ 38, 0, 0, 0]
  | 0x0007 => [1, 1, 1, 68]
  | 0x0008 => [2, 0, 1]
  | _ => []

/-- The DVSECs present carry the CXL DVSEC vendor ID (R245), which is 0x1E98 (PRESUMED, CXL 2.0 specification; log entry 49). -/
def dvsecVendor (id : Nat) : Option Nat := if (dvsec id).isEmpty then none else some 0x1E98

def flag (b : Bool) : Nat := if b then 1 else 0

/-- What a read of configuration space gives. -/
def State.configRead (s : State) : ConfigReg → Out
  | .vendorId => .hostData s.ident.pciVendor
  | .deviceId => .hostData 0x0016
  | .classCode => .hostData 0x120000
  | .bar0 => .hostData s.host.bar0
  | .bar2 => .hostData s.host.bar2
  | .maxReadRequest => .hostData s.host.maxRead
  | .tag10 => .hostData (flag s.host.tag10)
  | .ats => .hostData (flag s.host.ats)
  | .aerStatus => .hostData s.host.aerStatus
  | .cacheEnable => .hostData (flag s.host.cacheEn)
  | .memEnable => .hostData (flag s.host.memEn)
  | .dvsec id => .hostDvsec id (dvsecVendor id) (dvsec id)

/-- A write to configuration space: BARs of 1 MiB and 64 KiB, Max_Read_Request_Size up to 4,096 bytes, status cleared by ones; Cache_Enable
and Mem_Enable cannot be set in the fallback (R260). -/
def configWrite (r : ConfigReg) (v : Nat) (h : HostLink) : HostLink :=
  match r with
  | .bar0 => { h with bar0 := v / 2 ^ 20 * 2 ^ 20 }
  | .bar2 => { h with bar2 := v / 2 ^ 16 * 2 ^ 16 }
  | .maxReadRequest => if [128, 256, 512, 1024, 2048, 4096].contains v then { h with maxRead := v } else h
  | .tag10 => { h with tag10 := testBit v 0 }
  | .ats => { h with ats := testBit v 0 }
  | .aerStatus => { h with aerStatus := andNot h.aerStatus v }
  | .cacheEnable => { h with cacheEn := h.mode == 2 && testBit v 0 }
  | .memEnable => { h with memEn := h.mode == 2 && testBit v 0 }
  | .vendorId => h
  | .deviceId => h
  | .classCode => h
  | .dvsec _ => h

/-- A read of a component register; what the CXL Link Capability holds is open (log entry 4). -/
def componentRead (r : ComponentReg) (s : State) : State :=
  match r with
  | .decoderCount => s.emit (.hostData 1)
  | .decoderBase => s.emit (.hostData s.host.hdmBase)
  | .decoderSize => s.emit (.hostData s.host.hdmSize)
  | .decoderWays => s.emit (.hostData s.host.hdmWays)
  | .rasStatus => s.emit (.hostData s.host.rasStatus)
  | .linkCapability => (s.draw 64).2.emit (.hostData (s.draw 64).1)

/-- A write to a component register: the ways of the decoder, which commits with 1 only, and the RAS status; base and size are written by the
commit. -/
def componentWrite (r : ComponentReg) (v : Nat) (h : HostLink) : HostLink :=
  match r with
  | .decoderWays => { h with hdmWays := v }
  | .rasStatus => { h with rasStatus := andNot h.rasStatus v }
  | .decoderCount => h
  | .decoderBase => h
  | .decoderSize => h
  | .linkCapability => h

/-! ### BAR0 as it reads (R248) -/

def ringCode : RingState → Nat
  | .disabled => 0
  | .active => 1
  | .held => 2
  | .stopped => 3

def mbCode : MbState → Nat
  | .idle => 0
  | .busy => 1
  | .done => 2

/-- MB_NEXT: the index that the next admitted micro-batch takes (R85, Table 11-5). -/
def Dom.mbNext (x : Dom) : Nat := if x.busy then x.mbs.length else 0

/-- A word of a domain's feed-ring registers (Table 11-5); a ring reads HELD while an activation drains (R305). -/
def ringWord (drains : Bool) (x : Dom) (o : Nat) : Nat :=
  match o with
  | 0x00 => bitsOf (x.ring.base + x.ring.log2) 31 0
  | 0x04 => bitsOf (x.ring.base + x.ring.log2) 63 32
  | 0x08 => bitsOf x.ring.dbLine 31 0
  | 0x0C => bitsOf x.ring.dbLine 63 32
  | 0x10 => x.ring.prodSeen
  | 0x14 => x.ring.cons
  | 0x18 => x.mbNext % 2 ^ 16 * 2 ^ 16 + x.ring.lastStatus * 2 ^ 8
      + ringCode (if drains && x.ring.state == .active then .held else x.ring.state)
  | _ => 0

/-- A 32-bit word of BAR0; an offset that Table 11-2 does not list reads zero. -/
def State.barWord (s : State) (o : Nat) : Nat :=
  if o < 8 then bitsOf s.host.irqCause.toNat (8 * o + 31) (8 * o)
  else if 0x80 ≤ o && o < 0xA0 then bitsOf (s.domainCause ((o - 0x80) / 8)) (8 * (o % 8) + 31) (8 * (o % 8))
  else if o = 0x1000 then flag (s.host.mbState == .busy) * 2 ^ 31 + s.host.reqLen
  else if o = 0x1004 then
    mbCode s.host.mbState * 2 ^ 30 + flag s.host.overlap * 2 ^ 29 + flag s.host.irqEn * 2 ^ 28 + s.host.rspLen
  else if 0x10000 ≤ o && o < 0x20000 then leNat (s.host.reqBuf.read (o - 0x10000) 4)
  else if 0x20000 ≤ o && o < 0x30000 then leNat (s.host.rspBuf.read (o - 0x20000) 4)
  else if 0x30000 ≤ o && o < 0x34000 then
    ringWord (s.fw.actState == 2) (s.dom ((o - 0x30000) / 64)) ((o - 0x30000) % 64)
  else if 0x50000 ≤ o && o < 0x50800 then
    bitsOf (tget s.host.windowMap ((o - 0x50000) / 8) 0#64).toNat (8 * (o % 8) + 31) (8 * (o % 8))
  else if 0x80000 ≤ o && o < 0x80400 then tget s.host.msixTable ((o - 0x80000) / 4) 0
  else if 0x81000 ≤ o && o < 0x81008 then bitsOf s.host.msixPba (8 * (o % 8) + 31) (8 * (o % 8))
  else 0

/-- A read of BAR0: 32-bit or 64-bit and aligned, else zero. What a doorbell register reads as is open (log entry 4). -/
def barRead (o size : Nat) (s : State) : State :=
  if !((size = 4 || size = 8) && o % size = 0) then s.emit (.hostData 0)
  else if 0x40000 ≤ o && o < 0x40400 then (s.draw (8 * size)).2.emit (.hostData (s.draw (8 * size)).1)
  else s.emit (.hostData (s.barWord o + if size = 8 then s.barWord (o + 4) * 2 ^ 32 else 0))

/-- A word of the MSI-X table; a vector that is pending and no longer masked is signalled (log entry 49). -/
def writeMsix (i v : Nat) (s : State) : State :=
  let s := { s with host := { s.host with msixTable := tset s.host.msixTable i v } }
  if testBit s.host.msixPba (i / 4) && !s.masked (i / 4) then
    ({ s with host := { s.host with msixPba := clrBit s.host.msixPba (i / 4) } }).emit (.msix (i / 4))
  else s

/-! ### Resets of the function (R261, Table 11-11) -/

/-- The scope of a function-level reset: configuration registers but the sticky status; the rings are cleared before the abort, so that no
STATUS is written, of an opening step neither. -/
def functionReset (s : State) : State :=
  let s := { s with doms := s.doms.map (fun e => (e.1, { e.2 with
    ring := {}, mbs := e.2.mbs.map (fun m => { m with statusWritten := true }) })) }
  let s := if s.dev.jobState == .running then sleepBoards (abortJob s) else s
  { s with
    host := { s.host with
      msixTable := [], msixPba := 0, mbState := .idle, mbReq := [], bar0 := 0, bar2 := 0, maxRead := 512, tag10 := false, ats := false }
    paths := { s.paths with waiting := s.paths.waiting.filter (fun w => w.path != .mailbox) } }

/-- The further scope of a hot reset: CXL controls, decoder, window map and the sticky status; the link retrains after release. -/
def hotScope (s : State) : State :=
  let s := functionReset s
  { s with host := { s.host with
      mode := 0, width := 0, rate := 0, inL0 := false, cacheEn := false, memEn := false
      hdmBase := 0, hdmSize := 0, hdmWays := 1, windowMap := [], aerStatus := 0, rasStatus := 0 } }

/-- The CXL controller is powered: from the boot on, also before SERVICE (R268, R296). -/
def State.hostUp (s : State) : Bool := s.hubUp || (s.dev.state == .standby && s.dev.booting)

def execFunctionLevelReset (s : State) : Host.Outcome State Fault Refusal :=
  if s.hostUp then .next (functionReset s) else .next s

def execHotReset (s : State) : Host.Outcome State Fault Refusal :=
  if s.hostUp then .next (hotScope s) else .next s

def execPerstAssert (s : State) : Host.Outcome State Fault Refusal :=
  let s := { s with dev := { s.dev with perst := true } }
  .next (if s.hostUp then hotScope s else dropLink s)

/-- Deassertion starts link training; without REFCLK the link does not train (Table 17-5). -/
def execPerstDeassert (refclk : Bool) (s : State) : Host.Outcome State Fault Refusal :=
  .next { s with dev := { s.dev with perst := false, refclk := refclk } }

/-! ### Link training (R244, R260, R366) -/

/-- The link can train: PERST# is deasserted with REFCLK, and the PHY sequencers run, which step 4 of R296 has started (Table 17-5). -/
def State.linkTrains (s : State) : Bool := !s.dev.perst && s.dev.refclk && s.dev.pgood && s.hubUp

/-- The link trains. An entry into READY that AUTO_READY has left waiting for it goes on (Table 17-4). -/
def execCxlLinkUp (cxl : Bool) (width rate : Nat) (cache mem : Bool) (s : State) : Host.Outcome State Fault Refusal :=
  if s.linkTrains && (width = 4 || width = 8 || width = 16) && (rate = 8 || rate = 16 || rate = 32) then
    .next <| linkForReady { s with host := { s.host with
      mode := if cxl then 2 else 1
      width := width, rate := rate, inL0 := true
      cacheEn := cxl && cache
      memEn := cxl && mem } }
  else .next s

/-- The link leaves L0. -/
def execCxlLinkDown (s : State) : Host.Outcome State Fault Refusal := .next (dropLink s)

end Sys2Proof.Machine
end

