-- ==== Sys2Proof/Machine/Views.lean ====
section
/-!
DEFINITION. Machine/Views.lean: what each entry of the dictionary reads as (R7 to R9 and the dictionary tables of the chapters).
Entries that are registers of their own read from State.regs; the others show state that the module keeps elsewhere.
-/
namespace Sys2Proof.Machine

def bit (b : Bool) : Nat := if b then 1 else 0

/-! ### Entries of the module -/

/-- CORE_STATE: 0 running, 1 restarting, 2 held in reset. -/
def coreStateOf (s : State) (c : Nat) : Nat :=
  if s.dev.restarting.contains c then 1
  else if 16 ≤ c && !(s.boardOk (c - 16) && s.powered) then 2
  else 0

/-- Table 12-10, from the device manifest's fields (R295). -/
def viewIdentity (s : State) (r : Reg) : Nat :=
  match r.sub with
  | 0x04 => s.ident.grade
  | 0x05 => s.ident.disabled
  | 0x06 => s.flash.retiredBoards
  | 0x08 => s.ident.hwRevision
  | 0x09 => s.ident.pciVendor
  | _ => r.dflt

/-- Table 12-11, field bus. -/
def viewCan (s : State) (r : Reg) : Nat :=
  match r.sub with
  | 0x01 => s.can.nodeId
  | 0x08 => if s.can.busOff then 2 else if s.can.passive then 1 else 0
  | 0x09 => s.can.tec
  | 0x0A => s.can.recCount
  | 0x0D => bit s.can.chainIn
  | 0x0E => bit s.chainOut
  | _ => s.rd r

/-- Table 12-11, host link. -/
def viewHost (s : State) (r : Reg) : Nat :=
  match r.sub with
  | 0x01 => s.host.mode
  | 0x02 => s.host.width
  | 0x03 => s.host.rate
  | 0x04 => bit s.host.cacheEn
  | 0x05 => bit s.host.memEn
  | 0x06 => bit s.host.memActive
  | 0x07 => s.host.hdmSize
  | _ => s.rd r

/-- Tables 12-12 and 13-15, device state and cores. -/
def viewDevice (s : State) (r : Reg) (unit : Nat) : Nat :=
  match r.sub with
  | 0x01 => devCode s.dev.state
  | 0x03 => s.dev.up - s.dev.since
  | 0x06 => s.dev.safeCause
  | 0x07 => s.dev.bootServiceMs
  | 0x08 => s.dev.bootReadyMs
  | 0x0A => coreStateOf s unit
  | 0x0B => (tget s.dev.wdog unit (0, 0)).2
  | 0x0C => (tget s.dev.wdog unit (0, 0)).1
  | 0x0D => s.dev.lastReset
  | _ => s.rd r unit

/-- Table 12-12, the job. -/
def viewJob (s : State) (r : Reg) : Nat :=
  match r.sub with
  | 0x02 => jobCode s.dev.jobState
  | 0x06 => s.job.id
  | 0x07 => s.job.loadError
  | 0x08 => s.job.loadTime
  | _ => s.rd r

/-- Table 12-12, the selected domain. -/
def viewJobDomain (s : State) (r : Reg) (d : Nat) : Nat :=
  match r.sub with
  | 0x02 => bit (s.dom d).used
  | 0x03 => (s.dom d).mbPerStep
  | 0x04 => (s.dom d).initTag
  | 0x05 => (s.dom d).boards
  | _ => s.rd r d

/-- Table 08-2. -/
def viewPgroup (s : State) (r : Reg) (g : Nat) : Nat :=
  match r.sub with
  | 0x02 => (s.pgroup g).toNat
  | 0x03 => bit (pgFrozen (s.pgroup g))
  | _ => s.rd r g

/-- The armed step record of a domain. -/
def viewArmed (s : State) (r : Reg) (d : Nat) : Nat :=
  let v := ((s.dom d).armed.getD 0#128).toNat
  match r.sub with
  | 0x02 => bitsOf v 31 0
  | 0x03 => bitsOf v 63 32
  | 0x04 => bitsOf v 95 64
  | 0x05 => bitsOf v 127 96
  | 0x06 => (s.dom d).armTime
  | _ => 0

/-- DOMAIN_STATE: 0 closed, 1 open, 2 closing (from the module's offer until the last stack has applied the decision, R242), 3 settling. -/
def domainStateOf (x : Dom) : Nat :=
  match x.phase with
  | .closing => 2
  | .open => 1
  | .opening => 0
  | .closed => if x.settling then 3 else 0

/-- The stash plans of a domain: Board and plan. -/
def State.plansOf (s : State) (d : Nat) : List (Nat × StashPlan) :=
  s.boardsOk.flatMap (fun b => ((s.board b).stash.filter (fun p => p.domain == d)).map (fun p => (b, p)))

/-- The smallest of a list, 0 if it is empty. -/
def leastOf : List Nat → Nat
  | [] => 0
  | a :: as => as.foldl min a

def largestOf (l : List Nat) : Nat := l.foldl max 0

/-- Bytes of the stash of a domain held on a Board. -/
def stashHeld (x : Dom) (b : Nat) : Nat :=
  (x.mbs.flatMap (fun m => (m.held.filter (fun h => h.1 == b)).map (fun h => 256 * (h.2.2 - h.2.1)))).foldl (· + ·) 0

/-- The record at the head of a ring waits for its reservation (R85, R98). -/
def reservationWaits (s : State) (d : Nat) : Bool :=
  match (s.dom d).ring.head with
  | some r => (s.reservation d (recLenMax r)).isNone
  | none => false

/-- 0x2400+d. -/
def viewDomain (s : State) (r : Reg) (d : Nat) : Nat :=
  let x := s.dom d
  match r.sub with
  | 0x01 => domainStateOf x
  | 0x02 => openTagOf s d
  | 0x03 => x.committedTag
  | 0x04 => x.lastTag
  | 0x05 => x.lastOutcome
  | 0x06 => x.commits
  | 0x07 => x.voids
  | 0x08 => bit x.lost
  | 0x09 => x.lastClose
  | 0x0A => x.settleLast
  | 0x10 => x.watch.stepOvf
  | 0x11 => x.watch.stepInf
  | 0x12 => x.watch.stepNan
  | 0x13 => x.watch.totOvf
  | 0x14 => x.watch.totInf
  | 0x15 => x.watch.totNan
  | 0x16 => x.watch.firstTensor
  | 0x17 => x.watch.firstInfo
  | 0x18 => x.watch.firstTime
  | 0x19 => x.watch.sticky
  | 0x1B => bit x.watch.voidMark
  | 0x20 => x.lenLimit
  | 0x21 => leastOf ((s.plansOf d).map (fun p => 1024 * p.2.poolMiB))
  | 0x22 => largestOf ((s.plansOf d).map (fun p => stashHeld x p.1 / 1024))
  | 0x23 => x.mbs.length
  | 0x24 => if reservationWaits s d then (s.now - x.ring.waitSince.toNat) / 1000 else 0
  | 0x31 => (s.stacksOk.map (fun k => tget (s.stack k).expected d 0)).foldl (· + ·) 0
  | 0x35 => bit x.updFault
  | 0x36 => x.updFaultCode
  | 0x37 => x.doneTime
  | 0x40 => x.group
  | 0x41 => x.exch.state
  | 0x42 => x.exch.offer
  | 0x43 => x.exch.firstVoider
  | 0x44 => x.exch.time
  | _ => s.rd r d

/-! ### Power, heat and clocks (chapter 14) -/

def viewPower (s : State) (r : Reg) : Nat :=
  match r.sub with
  | 0x03 => f32Nat s.pwr.power
  | 0x04 => f32Nat s.pwr.avg100
  | 0x06 => bit s.pwr.east.hwOn + 2 * bit s.pwr.west.hwOn + 4 * bit s.pwr.excursion
  | _ => s.rd r

def viewHalf (s : State) (r : Reg) (h : Nat) : Nat :=
  match r.sub with
  | 0x02 => (s.pwr.half h).cap
  | _ => s.rd r h

def hottest (l : Tbl Int) : Int :=
  match l with
  | [] => 0
  | e :: es => es.foldl (fun a x => max a x.2) e.2

def viewThermal (s : State) (r : Reg) (unit : Nat) : Nat :=
  match r.sub with
  | 0x01 => f32Int (hottest s.pwr.shown)
  | 0x03 => f32Int (tget s.pwr.shown unit 0)
  | 0x04 => bit s.pwr.east.wantThermal + 2 * bit s.pwr.west.wantThermal + 4 * bit s.dev.thermTrip
      + 8 * bit (!s.pwr.refresh.isEmpty)
  | _ => s.rd r unit

/-- Two bits per Board: 0 ACTIVE, 1 IDLE, 2 DEEP_SLEEP, 3 disabled or retired. -/
def boardPowers (s : State) : Nat :=
  if !s.powered then 0
  else (List.range 16).foldl (fun a b => a + (if s.boardOk b then (s.board b).powerState else 3) * 4 ^ b) 0

def viewClock (s : State) (r : Reg) : Nat :=
  match r.sub with
  | 0x02 => bit s.pwr.east.down + 2 * bit s.pwr.west.down
  | 0x04 => boardPowers s
  | _ => s.rd r

/-! ### Fabric and collectives (chapters 09, 10) -/

/-- An offset that no I32 of picoseconds holds reads modulo 2^32 (DESIGN CHOICE, log entry 28: R220 states no saturation). -/
def viewTopology (s : State) (r : Reg) : Nat :=
  match r.sub with
  | 0x07 => if s.rd .tbMaster = 0xFFFF then 0 else s.fab.tbState
  | 0x08 => (s.fab.tbOffset % 2 ^ 32).toNat
  | _ => s.rd r

def portCode : PortState → Nat
  | .disabled => 0
  | .training => 1
  | .up => 2
  | .retrain => 3
  | .down => 4

def viewPort (s : State) (r : Reg) (p : Nat) : Nat :=
  let x := s.port p
  match r.sub with
  | 0x02 => portCode x.state
  | 0x03 => x.width
  | 0x04 => s.dirOf p
  | 0x06 => (List.range 4).foldl (fun a k => a + bit (s.laneGood p k) * 2 ^ k) 0
  | 0x07 => x.peerDevice
  | 0x08 => x.peerPort
  | _ => s.rd r p

/-- Table 09-11, the hold slots. HOLD_IN_USE is a U8: 256 slots in use read as 0 (DESIGN CHOICE, log entry 32). -/
def viewHolds (s : State) (r : Reg) : Nat :=
  match r.sub with
  | 0x01 => s.fab.holds.length
  | _ => s.rd r

def viewGroup (s : State) (r : Reg) (unit : Nat) : Nat :=
  match r.sub with
  | 0x04 => tget s.job.members unit 0xFFFF
  | 0x05 => (s.job.failed.filter (fun f => f.1 == unit)).length
  | _ => s.rd r unit

def viewCollective (s : State) (r : Reg) (b : Nat) : Nat :=
  match r.sub with
  | 0x02 => (s.board b).mapDpa
  | _ => s.rd r b

/-! ### Stacks (chapters 07, 08) -/

/-- Spare rows in use in each bank of a stack that uses some. -/
def sparesOf (s : State) (k : Nat) : List Nat :=
  (s.flash.stackSpares.filter (fun e => e.1 / 2 ^ 20 == k)).map (fun e => min 16 e.2)

/-- Table 07-10: a retired stack reads zero in 0x5000:03 to 0B (R175). -/
def viewStack (s : State) (r : Reg) (k : Nat) : Nat :=
  if 3 ≤ r.sub && testBit s.flash.retiredStacks k then 0
  else
  match r.sub with
  | 0x02 => bit (testBit s.flash.retiredStacks k)
  | 0x05 => (sparesOf s k).foldl (· + ·) 0
  | 0x06 => 16 - largestOf (sparesOf s k)
  | 0x0A => ((s.job.regions.filter (fun e => rKind e.2 == 1 && stackOf (rBase e.2) == k)).map (fun e => rSquares e.2)).foldl (· + ·) 0
  | _ => s.rd r k

def viewRegion (s : State) (r : Reg) (unit : Nat) : Nat :=
  match r.sub with
  | 0x02 => bitsOf (s.region unit).toNat 63 0
  | 0x03 => bitsOf (s.region unit).toNat 127 64
  | _ => s.rd r unit

/-- Table 08-11: a retired stack reads zero in 0x5020:02 to 05 (R195). -/
def viewReckoner (s : State) (r : Reg) (k : Nat) : Nat :=
  if 2 ≤ r.sub && testBit s.flash.retiredStacks k then 0
  else
  match r.sub with
  | 0x05 => ((s.stack k).runs.filter (fun e => nCount e != 0)).length
  | _ => s.rd r k

/-! ### Counters, reader, freeze, beads, Nines units (chapter 16) -/

def viewBoardCounter (s : State) (r : Reg) (unit : Nat) : Nat :=
  match r.sub with
  | 0x02 => (s.board unit).cycles.toNat
  | 0x04 => (s.board (unit / 8)).cntCtl (unit % 8)
  | 0x05 => cntValue s (unit / 8) (unit % 8)
  | _ => s.rd r unit

def viewReader (s : State) (r : Reg) (unit : Nat) : Nat :=
  match r.sub with
  | 0x02 => blkValue s unit
  | 0x0A => bit s.cnt.readerOn
  | 0x0B => s.cnt.readerProd
  | 0x0D => s.cnt.readerSkipped
  | _ => s.rd r unit

def viewFreeze (s : State) (r : Reg) : Nat :=
  match r.sub with
  | 0x04 => freezeStateOf s.cnt.freeze
  | 0x05 => s.cnt.freeze.freezeTick
  | 0x06 => s.cnt.freeze.thawTick
  | 0x07 => s.cnt.freeze.late
  | _ => s.rd r

def viewBead (s : State) (r : Reg) (unit : Nat) : Nat :=
  match r.sub with
  | 0x05 => (s.board unit).beadOff
  | _ => s.rd r unit

def viewNines (s : State) (r : Reg) (u : Nat) : Nat :=
  let x := s.nines u
  -- the engine has configured a unit that it holds for the CRC-64 of R203, which is the default (R349)
  let c : Nines := if ninesOwned s u then {} else x
  match r.sub with
  | 0x02 => c.width
  | 0x03 => c.poly.toNat
  | 0x04 => c.init.toNat
  | 0x05 => c.xorout.toNat
  | 0x06 => c.flags
  | 0x07 => x.expected.toNat
  | 0x08 => x.src
  | 0x09 => x.bytes
  | 0x0B => ninesStateOf s u
  | 0x0C => x.running.toNat
  | 0x0D => x.result.toNat
  | 0x0E => bit x.mismatch
  | 0x0F => x.bytesDone
  | 0x10 => x.mismatches
  | _ => s.rd r u

/-! ### Boards (chapters 02 to 06) -/

/-- The owner watch slot of the selected Board. -/
def viewSlot (s : State) (r : Reg) (unit : Nat) : Nat :=
  let e := tget (s.board (unit / 256)).slot (unit % 256) (0xFFFF, 0, 0, 0, 0)
  match r.sub with
  | 0x03 => e.1
  | 0x04 => e.2.1
  | 0x05 => e.2.2.1
  | 0x06 => e.2.2.2.1
  | 0x07 => e.2.2.2.2
  | _ => s.rd r unit

/-- FRAME_STATE: 0 enabled, 1 disabled by grade, 2 retired, 3 held for self-test or replay. -/
def frameStateOf (s : State) (f : Nat) : Nat :=
  let b := f / 8
  if testBit s.ident.disabled b then 1
  else if testBit s.flash.retiredBoards b || testBit s.flash.retiredFrames f then 2
  else if (s.board b).hold.any (fun h => h.frame == f % 8) then 3
  else 0

/-- Table 03-6: the counters of a disabled or retired Frame read zero (R75). -/
def viewFrame (s : State) (r : Reg) (f : Nat) : Nat :=
  match r.sub with
  | 0x01 => s.rd r f
  | 0x02 => frameStateOf s f
  | _ => if frameStateOf s f = 1 || frameStateOf s f = 2 then 0 else s.rd r f

def viewTally (s : State) (r : Reg) (b : Nat) : Nat :=
  let x := s.board b
  match r.sub with
  | 0x02 => x.partTally / 1024
  | 0x03 => (x.slices.filter (fun e => e.2.state == 1 || e.2.state == 2)).length
  | _ => s.rd r b

/-- A link-table entry's 128 bits (Table 05-5). -/
def linkBits (l : Link) : Nat :=
  (l.bufFirst % 2 ^ 10) <<< 118 + (l.bufCount % 2 ^ 6) <<< 112 + (l.mode % 4) <<< 110 + (l.producer % 8) <<< 107
    + (l.consumer % 8) <<< 104 + (l.fullSem % 256) <<< 96 + (l.emptySem % 256) <<< 88 + (l.epoch % 256) <<< 80
    + (bit l.filler) <<< 79 + (bit l.persist) <<< 78 + (l.fillPos % 64) <<< 72 + (l.usePos % 64) <<< 66
    + (l.state % 4) <<< 64 + l.fills % 2 ^ 32

def viewStream (s : State) (p : Path) (r : Reg) (b : Nat) : Nat :=
  let x := s.board b
  let l := linkBits (x.link (s.rd .linkSel (pathNo p)))
  match r.sub with
  | 0x04 => ((s.flash.storeSpares.filter (fun e => e.1 / 32 == b)).map (fun e => e.2)).foldl (· + ·) 0
  | 0x05 => x.partTally / 1024
  | 0x06 => x.partStash / 1024
  | 0x07 => x.partGather / 1024
  | 0x08 => x.partStream / 1024
  | 0x0F => bitsOf l 63 0
  | 0x10 => bitsOf l 127 64
  | 0x12 => x.sem (s.rd .semSel (pathNo p))
  | _ => s.rd r b

/-- SEQ_STATE: 0 IDLE, 1 RUNNING, 2 WAITING, 3 HALTING, 4 HALTED. -/
def seqStateOf (x : Board) : Nat :=
  match x.halt with
  | .halting => 3
  | .ending => 3
  | .halted => 4
  | .none =>
    if !x.started || (x.main.stopped && x.fill.stopped) then 0
    else if x.main.atSwap || x.held then 2
    else 1

def viewSequencer (s : State) (r : Reg) (b : Nat) : Nat :=
  let x := s.board b
  match r.sub with
  | 0x02 => seqStateOf x
  | 0x03 => x.active
  | 0x04 => x.inactState
  | 0x05 => (tget (if x.active = 0 then x.bank0 else x.bank1) 1 0#32).toNat
  | 0x06 => x.main.pos
  | 0x07 => x.fill.pos
  | 0x0F => x.seqFaultInfo
  | _ => s.rd r b

/-! ### Fault log, retirement, commit records, mirrors, snapshots (chapter 15) -/

/-- The records kept, oldest first. -/
def keptRecords (s : State) : List (Nat × BitVec 512) := s.flash.log ++ s.log.ram

def viewFaults (s : State) (r : Reg) (unit : Nat) : Nat :=
  let x := s.dom unit
  match r.sub with
  | 0x01 => s.logNewest
  | 0x02 => ((keptRecords s).headD (0, 0#512)).1
  | 0x11 => s.flash.retiredStacks
  | 0x21 => x.commitRec.tag
  | 0x22 => x.commitRec.lossDigest.toNat
  | 0x23 => x.commitRec.lossCount
  | 0x24 => bit x.preIntact
  | 0x25 => x.restoreState
  | 0x45 => s.snap.state
  | 0x46 => s.snap.error
  | 0x47 => s.snap.length
  | 0x48 => s.snap.holdMax
  | 0x4C => s.snap.replayDiff
  | _ => s.rd r unit

/-! ### Firmware, attestation, debug (chapter 13) -/

def viewSlots (s : State) (r : Reg) (k : Nat) : Nat :=
  let x := s.flash.slot k
  match r.sub with
  | 0x02 => x.state
  | 0x04 => x.secVersion
  | 0x06 => s.fw.booted
  | 0x07 => s.fw.active
  | 0x08 => s.flash.bootPref
  | 0x09 => s.rollback
  | 0x0A => s.flash.trialBoots
  | 0x0B => s.flash.fallbacks
  | 0x0C => bit s.flash.failA + 2 * bit s.flash.failB
  | _ => s.rd r k

def viewFirmware (s : State) (r : Reg) : Nat :=
  match r.sub with
  | 0x07 => s.fw.stageState
  | 0x08 => s.fw.stageError
  | 0x09 => s.fw.progress
  | 0x0A => if s.switching then 3 else s.fw.actState
  | 0x0B => s.fw.inhibit
  | 0x0D => s.fw.actReq
  | 0x0E => s.fw.actDone
  | _ => s.rd r

def viewSecurity (s : State) (r : Reg) : Nat :=
  if r.index = 0x9000 then (if r.sub = 2 then s.fw.attest else s.fw.meas.length)
  else if r.sub = 3 then s.fw.debugState else s.fw.debugFails

/-! ### All entries -/

/-- The value of an entry of a fixed-size type; subindex 0x00 holds the highest subindex of its index (R7). -/
def viewNum (s : State) (p : Path) (r : Reg) (unit : Nat) : Nat :=
  if r.sub = 0 then r.dflt
  else
  match r.index with
  | 0x1000 => viewIdentity s r
  | 0x1100 => viewCan s r
  | 0x1110 => viewHost s r
  | 0x2000 => viewDevice s r unit
  | 0x2010 => if r.sub = 1 then s.host.irqCause.toNat else s.domainCause (r.sub - 2)
  | 0x2100 => viewJob s r
  | 0x2101 => viewJobDomain s r unit
  | 0x2120 => viewPgroup s r unit
  | 0x2200 => viewArmed s r unit
  | 0x2300 => ((s.slotWords unit).getD (r.sub - 1) 0#32).toNat
  | 0x2400 => viewDomain s r unit
  | 0x3000 => viewPower s r
  | 0x3001 => viewHalf s r unit
  | 0x3010 => viewThermal s r unit
  | 0x3020 => viewClock s r
  | 0x4000 => viewTopology s r
  | 0x4010 => viewPort s r unit
  | 0x4030 => viewHolds s r
  | 0x4040 => viewGroup s r unit
  | 0x4050 => viewCollective s r unit
  | 0x5000 => viewStack s r unit
  | 0x5010 => viewRegion s r unit
  | 0x5020 => viewReckoner s r unit
  | 0x6000 => viewBoardCounter s r unit
  | 0x6010 => viewReader s r unit
  | 0x6020 => viewFreeze s r
  | 0x6030 => viewBead s r unit
  | 0x6040 => viewNines s r unit
  | 0x6100 => viewSlot s r unit
  | 0x6120 => viewFrame s r unit
  | 0x6130 => viewTally s r unit
  | 0x6140 => viewStream s p r unit
  | 0x6150 => viewSequencer s r unit
  | 0x7000 => viewFaults s r unit
  | 0x8000 => viewSlots s r unit
  | 0x8010 => viewFirmware s r
  | 0x9000 => viewSecurity s r
  | 0x9010 => viewSecurity s r
  | _ => s.rd r unit

/-- The bit map of a list of numbers. -/
def bitMap (n : Nat) (l : List Nat) : List Byte := leBytes n (l.eraseDups.foldl (fun a i => a + 2 ^ i) 0)

/-- The value of an STR or BLOB entry. -/
def viewBytes (s : State) (p : Path) (r : Reg) (unit : Nat) : List Byte :=
  match r.index, r.sub with
  | 0x1000, 0x01 => ascii "Ohmunmar"
  | 0x1000, 0x02 => ascii "Phitriaz PT16"
  | 0x1000, 0x03 => orderCodeOf s.ident.grade
  | 0x1000, 0x07 => padTo 16 s.ident.serial
  | 0x1000, 0x0B => s.ident.manifest
  | 0x2101, 0x06 => bitMap 32 (s.epochsOf unit)
  | 0x4040, 0x02 => leBytes 24 (s.grp unit).toNat
  | 0x6030, 0x09 => leBytes 64 (tget (s.board unit).beadBuf (s.rd .beadReadSel (pathNo p)) 0#512).toNat
  | 0x7000, 0x04 => leBytes 64 (((keptRecords s).lookup unit).getD 0#512).toNat
  | 0x7000, 0x10 => leBytes 16 s.flash.retiredFrames
  | 0x7000, 0x12 => leBytes 12 s.flash.retiredLanes
  | 0x8000, 0x03 => (s.flash.slot unit).version
  | 0x8000, 0x05 => (s.flash.slot unit).manifest
  | 0x9000, 0x03 => s.fw.report
  | 0x9000, 0x04 => s.fw.publicKey
  | 0x9000, 0x05 => s.ident.rootCert ++ s.ident.productCa ++ (s.flash.slot s.fw.active).signer
  | 0x9010, 0x01 => debugChallenge s
  | _, _ => s.blob r unit

/-- What a read of an entry answers: a WO entry reads as zero of its type (R8), and so does an entry of a Board that is disabled
or retired (R16). The zero of a write-only BLOB is a value of length 0 (DESIGN CHOICE, log entry 45). -/
def entryBytes (s : State) (p : Path) (r : Reg) (unit : Nat) : List Byte :=
  if r.acc = 3 then List.replicate (tySize r.ty) 0#8
  else if tySize r.ty = 0 then
    if deadBoard s r unit then List.replicate r.maxLen 0#8 else viewBytes s p r unit
  else if deadBoard s r unit then List.replicate (tySize r.ty) 0#8
  else leBytes (tySize r.ty) (viewNum s p r unit)

/-- Counts of events that no command carries have grown by a free value when they are looked at (log entry 4). -/
def settleEntry (r : Reg) (unit : Nat) (s : State) : State :=
  match r.index, r.sub with
  | 0x6000, 0x05 => settleCounter (unit / 8) (unit % 8) s
  | 0x6010, 0x02 => settleBlock unit s
  | 0x4010, 0x09 => if s.powered then bumpFree r unit s else s
  | 0x4010, 0x0A => if s.powered then bumpFree r unit s else s
  | 0x6140, 0x15 => if s.powered then bumpFree r unit s else s
  | _, _ => s

end Sys2Proof.Machine
end

