-- ==== Sys2Proof/Machine/Dictionary.lean ====
section
/-!
DEFINITION. Machine/Dictionary.lean: the service of dictionary requests on the three paths (R7 to R12, R262 to R269), and the register
writes of R8 and R248.
-/
namespace Sys2Proof.Machine

/-! ### Finding an entry (R7) -/

/-- Subindex 0x00 of an index in use. -/
def highestReg (index : Nat) : Reg := ⟨index, 0, 1, 2, 1, highestSub index, false, 1⟩

def entryAt (index sub : Nat) : Option Reg := if sub = 0 then (if indexUsed index then some (highestReg index) else none) else regAt index sub

/-- The status of an entry that is not there. -/
def missingStatus (index : Nat) : Nat := if indexUsed index then stNoSub else stNoEntry

/-- The unit under which an entry counts its VERSION: of BEAD_ENTRY, the slot of the tag buffer (R266). -/
def versionUnit (s : State) (p : Path) (r : Reg) (unit : Nat) : Nat :=
  if r.index = 0x6030 && r.sub = 9 then 1024 * unit + s.rd .beadReadSel (pathNo p) else unit

/-- DATA that a path can carry (Table 12-6). -/
def pathData : Path → Nat
  | .mailbox => 65520
  | _ => 48

/-! ### The rule of each entry -/

/-- PGROUP_FROZEN (Table 08-10): refused for a group with USED = 0. -/
def frozenRule (g : Nat) : Rule := fun bs s =>
  if !pgUsed (s.pgroup g) then (stRefused, s)
  else (stOk, { s with job := { s.job with
    pgroups := tset s.job.pgroups g (BitVec.ofNat 64 (setBits (s.pgroup g).toNat 7 7 (leNat bs))) } })

/-- WRITE_PATHS: the bit of the path that carries the write is not cleared (Table 12-7). -/
def writePathsRule (p : Path) : Rule := fun bs s =>
  if testBit (leNat bs) (pathNo p) then (stOk, s.wr .writePaths (leNat bs)) else (stRefused, s)

/-- SNAP_CONTROL. -/
def snapRule : Rule := fun bs s =>
  match leNat bs with
  | 1 => snapshotRule bs s
  | 2 => exportRule bs s
  | 3 => restoreRule bs s
  | _ => snapCancelRule bs s

/-- NINES_CONTROL of a dictionary write: how far an ABORT's run has come is a free value. -/
def ninesAnyRule (u : Nat) : Rule := fun bs s =>
  if leNat bs = 4 && (s.nines u).state = 1 then
    let d := s.draw 38
    ninesControl u (d.1 % ((s.nines u).bytes + 1)) bs d.2
  else ninesControl u 0 bs s

/-- The configuration of a Nines unit. -/
def ninesConfigRule (sub u : Nat) : Rule :=
  match sub with
  | 0x02 => ninesSet u (fun v x => { x with width := v })
  | 0x03 => ninesSet u (fun v x => { x with poly := BitVec.ofNat 64 v })
  | 0x04 => ninesSet u (fun v x => { x with init := BitVec.ofNat 64 v })
  | 0x05 => ninesSet u (fun v x => { x with xorout := BitVec.ofNat 64 v })
  | 0x06 => ninesSet u (fun v x => { x with flags := v })
  | 0x07 => ninesSet u (fun v x => { x with expected := BitVec.ofNat 64 v })
  | 0x08 => ninesSet u (fun v x => { x with src := v })
  | _ => ninesSet u (fun v x => { x with bytes := v })

/-- An entry that keeps what is written to it. -/
def keepRule (r : Reg) (unit : Nat) : Rule := fun bs s =>
  (stOk, if tySize r.ty = 0 then s.wrBlob r bs unit else s.wr r (leNat bs) unit)

/-- The rule of an entry's write. -/
def entryRule (s : State) (p : Path) (r : Reg) (unit : Nat) : Rule :=
  match r.index, r.sub with
  | 0x1100, 0x01 => nodeIdWrite
  | 0x1100, 0x02 => nodeIdPersistWrite
  | 0x1100, 0x0F => writePathsRule p
  | 0x1120, 0x01 => fabricDevice
  | 0x2000, 0x02 => stateRequest
  | 0x2000, 0x04 => resetRequest
  | 0x2010, 0x01 => irqCauseRule
  | 0x2010, k => domainCauseRule (k - 2)
  | 0x2100, 0x01 => jobControl
  | 0x2110, 0x06 => barrierStart
  | 0x2120, 0x03 => frozenRule unit
  | 0x2200, 0x01 => stepRecord unit
  | 0x2300, sub => ruleSlot unit sub
  | 0x2400, 0x1A => cwClear unit
  | 0x2400, 0x50 => domainBitsRule unit
  | 0x3020, 0x01 => halfClock
  | 0x4010, 0x05 => portEnable unit
  | 0x4010, 0x0F => portRestore unit
  | 0x4040, 0x02 => groupEntry unit
  | 0x4040, 0x04 => memberAddr unit
  | 0x6000, 0x04 => cntControlRule (unit / 8) (unit % 8)
  | 0x6000, 0x06 => cntClearRule unit
  | 0x6010, 0x03 => blkClearRule unit
  | 0x6010, 0x04 => readerConfig r
  | 0x6010, 0x05 => readerConfig r
  | 0x6010, 0x06 => readerConfig r
  | 0x6010, 0x07 => readerConfig r
  | 0x6010, 0x08 => readerConfig r
  | 0x6010, 0x09 => readerRule
  | 0x6020, 0x01 => freezeRule
  | 0x6030, 0x01 => beadNRule
  | 0x6030, 0x02 => beadOffsetRule
  | 0x6040, 0x01 => keepRule r unit
  | 0x6040, 0x0A => ninesAnyRule (s.rd .ninesSel (pathNo p))
  | 0x6040, 0x0C => ninesRunningRule unit
  | 0x6040, sub => ninesConfigRule sub unit
  | 0x7000, 0x07 => logClear
  | 0x7000, 0x40 => snapRule
  | 0x8010, 0x01 => fwControl
  | 0x8010, 0x06 => fwChunk
  | 0x9000, 0x01 => attestNonce
  | 0x9010, 0x02 => debugResponse
  | _, _ => keepRule r unit

/-! ### Serving a request -/

/-- Default in an INFO answer (Table 12-4). -/
def infoDefault (s : State) (r : Reg) (unit : Nat) : Nat :=
  if tySize r.ty = 0 then 0
  else if r.index = 0x1000 && r.sub != 6 then viewIdentity s r
  else if r.index = 0x4010 && r.sub = 4 then unit / 4 + 1
  else r.dflt

def perDomain (r : Reg) : Bool := r.index == 0x2200 || r.index == 0x2400

def infoBytes (s : State) (r : Reg) (unit : Nat) : List Byte :=
  leBytes 1 r.ty ++ leBytes 1 r.acc ++ leBytes 1 (bit (keeps s r) + 2 * bit r.isSelect + 4 * bit (perDomain r)) ++ leBytes 1 0
    ++ leBytes 4 r.maxLen ++ leBytes 8 (infoDefault s r unit)

/-- A refusal of a request that names an entry: VERSION is the value's, and TOTAL of a READ or INFO its length (Table 12-3). -/
def refuseAt (c : Client) (q : Req) (st : Nat) (r : Reg) (s : State) : State :=
  let u := unitOf s c.path r q.index
  respond c (rspBytes st q (verOf s r (versionUnit s c.path r u)) (if q.op = 2 then 0 else (entryBytes s c.path r u).length) []) s

/-- INFO. -/
def serveInfo (c : Client) (q : Req) (r : Reg) (s : State) : State :=
  let u := unitOf s c.path r q.index
  if q.off != 0 || q.count != 0 then refuseAt c q stBadRequest r s
  else respond c (rspBytes stOk q (verOf s r (versionUnit s c.path r u)) (entryBytes s c.path r u).length (infoBytes s r u)) s

/-- READ (R266). -/
def serveRead (c : Client) (q : Req) (r : Reg) (s : State) : State :=
  let u := unitOf s c.path r q.index
  let s := settleEntry r u s
  let v := entryBytes s c.path r u
  if v.length < q.off then refuseAt c q stBadRequest r s
  else
    let n := min (if q.count = 0 then v.length else q.count) (pathData c.path)
    respond c (rspBytes stOk q (verOf s r (versionUnit s c.path r u)) v.length ((v.drop q.off).take n)) s

/-- The whole value of a WRITE is applied. -/
def serveValue (c : Client) (q : Req) (r : Reg) (bytes : List Byte) (s : State) : State :=
  let u := unitOf s c.path r q.index
  if answersFirst r (leNat bytes) then applyWriteFirst c q r u bytes (entryRule s c.path r u) s
  else applyWrite c q r u bytes (entryRule s c.path r u) s

/-- Bytes of a WRITE: a line carries at most 48, of which those past COUNT are padding. -/
def writeData (c : Client) (q : Req) : List Byte :=
  match c.path with
  | .mailbox => q.data
  | _ => q.data.take (min 48 (q.count - q.off))

/-- WRITE of a fixed-size entry (R265); an OFFSET beyond the value makes no request (Table 12-5). -/
def serveFixed (c : Client) (q : Req) (r : Reg) (s : State) : State :=
  let bs := writeData c q
  if r.acc = 1 then serveValue c q r bs s
  else if tySize r.ty < q.off then refuseAt c q stBadRequest r s
  else if q.off != 0 || q.count != tySize r.ty || bs.length != q.count then refuseAt c q stLength r s
  else serveValue c q r bs s

/-- WRITE of an STR or BLOB entry: `have_` is what the path has staged of the value. -/
def serveSegment (c : Client) (q : Req) (r : Reg) (have_ : List Byte) (s : State) : State :=
  let bs := have_ ++ writeData c q
  if r.maxLen < q.count || q.count < bs.length then refuseAt c q stLength r s
  else if bs.length < q.count then
    respond c (rspBytes stOk q (verOf s r (unitOf s c.path r q.index)) bs.length [])
      (setStaged c.path (some { src := c.src, index := q.index, sub := q.sub, count := q.count, bytes := bs }) s)
  else serveValue c q r bs s

/-- The segment continues the staged value. -/
def continues (g : Staged) (q : Req) : Bool :=
  g.index == q.index && g.sub == q.sub && g.count == q.count && g.bytes.length == q.off

/-- WRITE (R265). -/
def serveWrite (c : Client) (q : Req) (r : Reg) (staged : Option Staged) (s : State) : State :=
  if tySize r.ty != 0 then serveFixed c q r s
  else if q.off = 0 then serveSegment c q r [] s
  else
    match staged with
    | some g => if continues g q then serveSegment c q r g.bytes s else refuseAt c q stSegment r s
    | none => refuseAt c q stSegment r s

/-- A request at the head of the order of R12; what the path has staged is abandoned unless the request continues it. -/
def serveNow (c : Client) (bs : List Byte) (s : State) : State :=
  let q := parseReq bs
  let staged := stagedOf s c.path
  let s := setStaged c.path none s
  match entryAt q.index q.sub with
  | none => refuseReq c q (if q.rsv != 0 || q.op = 0 || 3 < q.op then stBadRequest else missingStatus q.index) s
  | some r =>
      if q.rsv != 0 || q.op = 0 || 3 < q.op then refuseAt c q stBadRequest r s
      else if q.op = 1 then serveRead c q r s
      else if q.op = 2 then serveWrite c q r staged s
      else serveInfo c q r s

/-- A request reaches the module (R268): NOT_READY, the wait for the scheduler core, BUSY, or its service. -/
def serveRequest (c : Client) (bs : List Byte) (s : State) : State :=
  let q := parseReq bs
  if limited s q.index q.sub then refuseReq c q stNotReady s
  else if schedulerBusy s then waitRequest c q bs s
  else if stagingBusy s c then refuseReq c q stBusy s
  else serveNow c bs s

/-- The sender and the bytes of a request as it arrives, where the path takes it: the mailbox holds one after GO (R249), until it waits for
the scheduler core; a frame of another length than 64 bytes is no OD_REQ (R271). -/
def arrived (src : ReqSource) (s : State) : Option (Client × List Byte) :=
  match src with
  | .mailbox => if s.host.mbState == .busy && s.paths.waiting.all (fun w => w.path != .mailbox) then some ({ path := .mailbox }, s.host.mbReq) else none
  | .can line => if line.length = 64 then some ({ path := .can }, line) else none
  | .fabric a d t dir line => some ({ path := .fabric, src := a, dest := d, txnId := t, directed := dir }, padTo 64 line)

/-- A request whose OP is `op`, or one of the reserved codes, which each of the three commands answers alike. -/
def takeRequest (op : Nat) (src : ReqSource) (s : State) : State :=
  match arrived src s with
  | none =>
    -- a frame of another length is ignored and counted (R271)
    match src with
    | .can _ => if canActive s then s.bump .canIgnored else s
    | _ => s
  | some a =>
    if !pathServed s a.1.path then s
    else if unaddressed a.1 s then s.bump .fabricErrs
    else
      let o := (parseReq a.2).op
      if 1 ≤ o && o ≤ 3 && o != op then s else serveRequest a.1 a.2 s

def execOdRead (src : ReqSource) (s : State) : Host.Outcome State Fault Refusal := .next (takeRequest 1 src s)
def execOdWrite (src : ReqSource) (s : State) : Host.Outcome State Fault Refusal := .next (takeRequest 2 src s)
def execOdInfo (src : ReqSource) (s : State) : Host.Outcome State Fault Refusal := .next (takeRequest 3 src s)

/-- 100 ms without a segment: the staged value is abandoned (R265). -/
def execStagingTimeout (p : Path) (s : State) : Host.Outcome State Fault Refusal := .next (setStaged p none s)

/-! ### Register writes (R8, R248) -/

/-- MB_STS (Table 11-4): OVERLAP clears by a one, IRQ_EN is kept. -/
def writeMbSts (v : Nat) (s : State) : State :=
  { s with host := { s.host with overlap := s.host.overlap && !testBit v 29, irqEn := testBit v 28 } }

/-- MB_REQ without GO, in a 64-bit write whose lower half it is. -/
def writeMbReq (v : Nat) (s : State) : State :=
  match execMbGo (BitVec.ofNat 32 v) s with
  | .next s' => s'
  | _ => s

/-- DOMAIN_CAUSE in BAR0: bits of 32 domains from `first`. -/
def writeDomainCause (first v : Nat) (s : State) : State :=
  forEach (bitList v 32) (fun i s => s.wr .domainCauseBits 0 (first + i)) s

/-- One aligned 32-bit word written to BAR0. GO is taken after the other words of the access. -/
def writeWord (o v : Nat) (s : State) : State :=
  if o = 0 then (irqCauseRule (leBytes 4 v) s).2
  else if 0x80 ≤ o && o < 0xA0 then writeDomainCause (8 * (o - 0x80)) v s
  else if o = 0x1004 then writeMbSts v s
  else if 0x10000 ≤ o && o < 0x20000 then
    { s with host := { s.host with reqBuf := s.host.reqBuf.write (o - 0x10000) (leBytes 4 v) } }
  else if 0x30000 ≤ o && o < 0x34000 then
    let x := (s.dom ((o - 0x30000) / 64)).ring
    match (o - 0x30000) % 64 with
    | 0x00 => writeRingBase ((o - 0x30000) / 64) (BitVec.ofNat 64 (setBits (x.base + x.log2) 31 0 v)) s
    | 0x04 => writeRingBase ((o - 0x30000) / 64) (BitVec.ofNat 64 (setBits (x.base + x.log2) 63 32 v)) s
    | 0x08 => writeDbLine ((o - 0x30000) / 64) (BitVec.ofNat 64 (setBits x.dbLine 31 0 v)) s
    | 0x0C => writeDbLine ((o - 0x30000) / 64) (BitVec.ofNat 64 (setBits x.dbLine 63 32 v)) s
    | _ => s
  else if 0x40000 ≤ o && o < 0x40400 then writeDoorbell ((o - 0x40000) / 4) v s
  else if 0x50000 ≤ o && o < 0x50800 then
    let i := (o - 0x50000) / 8
    let old := (tget s.host.windowMap i 0#64).toNat
    let new := if o % 8 = 0 then setBits old 31 0 v else setBits old 63 32 v
    { s with host := { s.host with windowMap := tset s.host.windowMap i (windowEntry (BitVec.ofNat 64 new)) } }
  else if 0x80000 ≤ o && o < 0x80400 then writeMsix ((o - 0x80000) / 4) v s
  else s

/-- A 64-bit write to a 64-bit register acts as one write. -/
def writeLong (o v : Nat) (s : State) : State :=
  if 0x30000 ≤ o && o < 0x34000 && (o - 0x30000) % 64 = 0 then writeRingBase ((o - 0x30000) / 64) (BitVec.ofNat 64 v) s
  else if 0x30000 ≤ o && o < 0x34000 && (o - 0x30000) % 64 = 8 then writeDbLine ((o - 0x30000) / 64) (BitVec.ofNat 64 v) s
  else if o = 0x1000 then writeMbReq (bitsOf v 31 0) (writeWord 0x1004 (bitsOf v 63 32) s)
  else writeWord (o + 4) (bitsOf v 63 32) (writeWord o (bitsOf v 31 0) s)

/-- A write of the host to BAR0: 32-bit or 64-bit and aligned, or nothing is written (R248). -/
def barWrite (o size v : Nat) (s : State) : State :=
  if size = 4 && o % 4 = 0 then (if o = 0x1000 then writeMbReq (v % 2 ^ 32) s else writeWord o (v % 2 ^ 32) s)
  else if size = 8 && o % 8 = 0 then writeLong o (v % 2 ^ 64) s
  else s

/-- A register access. The host reaches BAR0, configuration space and BAR2 over its link, in CXL mode and in the PCIe fallback alike
(R260). -/
def execRegisterWrite (w : RegAccess) (s : State) : Host.Outcome State Fault Refusal :=
  match w with
  | .dict via index sub data =>
    let c := viaClient via
    if !pathServed s c.path then .next s
    else if mailboxTaken s c then .next (setOverlap s)
    else if unaddressed c s then .next (s.bump .fabricErrs)
    else .next (serveRequest c (writeReqBytes index sub via.txn data) s)
  | .bar0 offset size v => if pathServed s .mailbox then .next (barWrite offset size v s) else .next s
  | .bar0Read offset size => if pathServed s .mailbox then .next (barRead offset size s) else .next s
  | .config r none => if pathServed s .mailbox then .next (s.emit (s.configRead r)) else .next s
  | .config r (some v) => if pathServed s .mailbox then .next { s with host := configWrite r v s.host } else .next s
  | .component r none => if pathServed s .mailbox then .next (componentRead r s) else .next s
  | .component r (some v) => if pathServed s .mailbox then .next { s with host := componentWrite r v s.host } else .next s

end Sys2Proof.Machine
end

