-- ==== Sys2Proof/Machine/Cores.lean ====
section
/-!
DEFINITION. Machine/Cores.lean: the watchdogs of the processors and their restarts (R284, R285, Table 13-2).
-/
namespace Sys2Proof.Machine

/-- The core is powered: the hub's cores in every state with hub power, a control core with its Board; the security core runs in the boot
too (R296). -/
def coreRuns (s : State) (c : Nat) : Bool :=
  if 16 ≤ c then s.powered && s.boardOk (c - 16) else s.hubUp || (c == coreSecurity && s.dev.booting)

/-- The last column of Table 13-2: a second expiry within 1 s. What waited for a control core is performed before its Board is retired. -/
def lastingExpiry (c : Nat) (s : State) : State :=
  if 16 ≤ c then
    let s := { s with dev := { s.dev with restarting := s.dev.restarting.filter (· != c) } }
    retireBoard (c - 16) (haltQuiet (c - 16) (performWaiting (c - 16) s))
  else if c = coreSecurity then resetAndBoot 3 s
  else enterSafe 2 s

/-- A core's watchdog expires (R284): WATCHDOG, and the restart or its lasting action. -/
def execWatchdog (core : Core) (s : State) : Host.Outcome State Fault Refusal :=
  let c := coreNo core
  if !coreRuns s c then .next s
  else
    let w := tget s.dev.wdog c (0, 0)
    let second := decide (0 < w.2) && decide (s.now ≤ w.1 + 1000000000)
    let f : Flt :=
      { code := 0x0801, kind := 8, unit := c, flags := if second then fLasting else fTransient
        detail := packAt [(0, 1, c), (1, 1, if second then 2 else 1)] }
    let s := { s with dev := { s.dev with wdog := tset s.dev.wdog c (s.now, satAdd 32 w.2 1) } }
    let f := if second && (c = coreScheduler || c = corePower) then { f with flags := f.flags ||| fSafe }
      else if second && 16 ≤ c then { f with flags := f.flags ||| fHalted } else f
    let s := s.raise f
    if second then .next (lastingExpiry c s)
    else
      let s := { s with dev := { s.dev with
        restarting := if s.dev.restarting.contains c then s.dev.restarting else s.dev.restarting ++ [c] } }
      .next (if c = corePower || c = coreScheduler then setInhibit 3 s else s)

/-- The dictionary requests that waited are served in order (R268, R285). -/
def serveWaiting (s : State) : State :=
  let ws := s.paths.waiting
  forEach ws (fun w s => serveRequest { path := w.path, src := w.src, dest := w.dest, txnId := w.txnId, directed := w.directed } w.bytes s)
    { s with paths := { s.paths with waiting := [] } }

/-- A restart completes (R285): what waited for the core is performed in arrival order. -/
def execCoreRestartDone (core : Core) (s : State) : Host.Outcome State Fault Refusal :=
  let c := coreNo core
  if !s.dev.restarting.contains c then .next s
  else
    let s := { s with dev := { s.dev with restarting := s.dev.restarting.filter (fun k => k != c) } }
    let s := if (c = corePower || c = coreScheduler)
        && !(s.dev.restarting.contains corePower || s.dev.restarting.contains coreScheduler) then endInhibit 3 s else s
    if c = coreScheduler then .next (serveWaiting s)
    else if 16 ≤ c then .next (performWaiting (c - 16) s)
    else .next s

end Sys2Proof.Machine
end

