-- ==== Sys2Proof/Machine/Slate.lean ====
section
/-!
DEFINITION. Machine/Slate.lean: the operations of the Slate (R104 to R110, R141, R378). An operand is a matrix of whole squares, row of
squares after row of squares, in consecutive buffers of its link; gamma and beta are matrices of one row; labels and values per row are
matrices of one column; a mask is a run of bytes (DESIGN CHOICE, log entry 23). The operation goes on in bands of 64 rows.
-/
namespace Sys2Proof.Machine

/-! ### Rows (R105 to R109) -/

/-- What one row gives: the first output, the second output, and the mask. -/
structure RowOut where
  out : List W32
  out2 : List W32 := []
  mask : List Bool := []

def softmaxRow (x : List W32) : List W32 × W32 × W32 :=
  let m := rmax x
  let e := x.map (fun v => fexp (fsub v m))
  let t := rsum e
  let r := frcp t
  (e.map (fun v => fmul v r), m, t)

def lnormRow (x gamma beta : List W32) (eps : W32) : List W32 :=
  let l := x.length
  let mu := fdivNat (rsum x) l
  let d := x.map (fun v => fsub v mu)
  let q := d.map (fun v => fmul v v)
  let r := frsqrt (fadd (fdivNat (rsum q) l) eps)
  (d.zip (gamma.zip beta)).map (fun e => ffma (fmul e.1 r) e.2.1 e.2.2)

def rmsnormRow (x gamma : List W32) (eps : W32) : List W32 :=
  let q := x.map (fun v => fmul v v)
  let r := frsqrt (fadd (fdivNat (rsum q) x.length) eps)
  (x.zip gamma).map (fun e => fmul (fmul e.1 r) e.2)

def one32 : W32 := 0x3F800000#32

/-- The loss of a row whose label names no element: a free value that the row and the label decide (R45), and canonical where it is a
NaN (R27). -/
def strayLoss (x : List W32) (label : Nat) : W32 := rne32 (decFp32 (Config.strayLoss x label))

/-- XENT on one row. -/
def xentRow (x : List W32) (label : Nat) (gscale : W32) : RowOut :=
  if label = 0xFFFFFFFF then { out := [zero32], out2 := x.map (fun _ => zero32) }
  else
    let y := softmaxRow x
    let g := y.1.zipIdx.map (fun (v, i) => fmul (fsub v (if i = label then one32 else zero32)) gscale)
    let loss := if label < x.length then fsub (fadd (flog y.2.2) y.2.1) (x.getD label zero32) else strayLoss x label
    { out := [loss], out2 := g }

/-- DROPOUT on one row whose first element has index `first`. -/
def dropoutRow (x : List W32) (key : W64) (thr first : Nat) (scale : W32) : RowOut :=
  let keep := (List.range x.length).map (fun i => decide (thr ≤ draw32 key (first + i)))
  { out := (x.zip keep).map (fun e => if e.2 then fmul e.1 scale else zero32), mask := keep }

/-- One row of an operation: rows of a, b and c, the label, and the index of its first element. -/
def slateRow (g : Nat) (key : W64) (first : Nat) (a b c : List W32) (label : Nat) : RowOut :=
  let p := BitVec.ofNat 32 (sParam g)
  match sOp g with
  | 0x01 => { out := (a.zip (b.zip c)).map (fun e => ffma e.1 e.2.1 e.2.2) }
  | 0x02 => { out := (a.zip b).map (fun e => fadd e.1 e.2) }
  | 0x03 => { out := (a.zip b).map (fun e => fmul e.1 e.2) }
  | 0x04 => { out := (a.zip b).map (fun e => fmax e.1 e.2) }
  | 0x05 => { out := (a.zip b).map (fun e => fmin e.1 e.2) }
  | 0x07 => { out := a.map fexp }
  | 0x08 => { out := a.map flog }
  | 0x09 => { out := a.map frsqrt }
  | 0x0A => { out := a.map ftanh }
  | 0x0B => { out := a.map frcp }
  | 0x10 => { out := [rsum a] }
  | 0x11 => { out := [rmax a] }
  | 0x12 => { out := (softmaxRow a).1 }
  | 0x13 => { out := lnormRow a b c p }
  | 0x14 => { out := rmsnormRow a b p }
  | 0x15 => xentRow a label p
  | 0x16 => dropoutRow a key (sParam g) first (BitVec.ofNat 32 (sParam2 g))
  | _ => { out := a }

/-- Operations whose result of an element depends on that element's operands alone. -/
def elementwise (op : Nat) : Bool := op ≤ 0x0B || op == 0x16

/-- One value a row: RSUM, RMAX, and the loss of XENT. -/
def perRow (op : Nat) : Bool := op == 0x10 || op == 0x11 || op == 0x15

/-- Whether the SLATE group's parameter is an infinite input of an output: eps of LNORM and RMSNORM, gscale of XENT's gradient, scale
of DROPOUT. -/
def paramInf (g : Nat) (second : Bool) : Bool :=
  match sOp g with
  | 0x13 => isInf32 (BitVec.ofNat 32 (sParam g))
  | 0x14 => isInf32 (BitVec.ofNat 32 (sParam g))
  | 0x15 => second && isInf32 (BitVec.ofNat 32 (sParam g))
  | 0x16 => isInf32 (BitVec.ofNat 32 (sParam2 g))
  | _ => false

/-- Whether an input of each element of a row's output was an infinity (R48): a row operation takes every element of x, and of gamma and
beta the element's own. -/
def rowInf (g : Nat) (second : Bool) (w : Nat) (a b c : List W32) : List Bool :=
  let op := sOp g
  let row := !elementwise op && a.any isInf32
  (List.range w).map (fun i =>
    row || paramInf g second || (elementwise op && isInf32 (a.getD i zero32))
      || isInf32 (b.getD i zero32) || isInf32 (c.getD i zero32))

/-! ### Places in links -/

/-- Squares of a format that a buffer holds. -/
def capacity (s : State) (b h n : Nat) : Nat := ((s.board b).buf h).size * 256 / max 1 n

/-- The addresses of the next n units (of `size` bytes) of a link's full buffers; the buffers used up; the place reached. -/
def takeUnits (b l size : Nat) : Nat → Option (Nat × Nat) → State → Option (List Nat × List Nat × Option (Nat × Nat) × State)
  | 0, cur, s => some ([], [], cur, s)
  | n + 1, cur, s =>
    match (match cur with | some c => some (c, s) | none => (takeFull b l s).map (fun (r : Nat × State) => ((r.1, 0), r.2))) with
    | none => none
    | some (c, s) =>
      let cap := capacity s b c.1 size
      if cap ≤ c.2 then none
      else
        let a := ((s.board b).buf c.1).base * 256 + c.2 * size
        let above := decide (cap ≤ c.2 + 1)
        match takeUnits b l size n (if above then none else some (c.1, c.2 + 1)) s with
        | none => none
        | some (as, hs, cur, s) => some (a :: as, (if above then c.1 :: hs else hs), cur, s)

/-- The addresses of the next n units of a link's empty buffers; the buffers filled by them; the place reached. -/
def giveUnits (b l e size : Nat) : Nat → Option (Nat × Nat) → State → Option (List Nat × List Nat × Option (Nat × Nat) × State)
  | 0, cur, s => some ([], [], cur, s)
  | n + 1, cur, s =>
    match (match cur with | some c => some (c, s) | none => (takeEmpty b l e s).map (fun (r : Nat × State) => ((r.1, 0), r.2))) with
    | none => none
    | some (c, s) =>
      let cap := capacity s b c.1 size
      if cap ≤ c.2 then none
      else
        let a := ((s.board b).buf c.1).base * 256 + c.2 * size
        let above := decide (cap ≤ c.2 + 1)
        match giveUnits b l e size n (if above then none else some (c.1, c.2 + 1)) s with
        | none => none
        | some (as, hs, cur, s) => some (a :: as, (if above then c.1 :: hs else hs), cur, s)

/-- Rows of a band read from its squares; each value widened to FP32, with a flag that the widening overflowed (R38). -/
def readBand (s : State) (b : Nat) (f : Fmt) (rows width : Nat) (addrs : List Nat) : List (List (W32 × Bool)) :=
  let sqs := addrs.map (fun a => s.storeRead b a f.squareBytes)
  (List.range rows).map (fun r => (List.range width).map (fun c =>
    let v := sqVal f (sqs.getD (c / 64) []) r (c % 64)
    let w := widen v
    (w, v.isFin && isInf32 w)))

/-- One U32 a row, from a square of 32-bit words of one column. -/
def readWords (s : State) (b rows : Nat) (a : Nat) : List Nat :=
  let sq := s.storeRead b a 16384
  (List.range rows).map (fun r => sqCode .fp32 sq (blockOf r 0) (inBlock r 0))

/-- A square of a band's result: values with their element index; what lies past the matrix is +0 (DESIGN CHOICE, log entry 23). -/
def bandBlock (width : Nat) (rows : List (List W32)) (sc blk : Nat) : List W32 :=
  (List.range 64).map (fun k =>
    let r := 8 * (blk / 8) + k / 8
    let c := 64 * sc + 8 * (blk % 8) + k % 8
    if c < width then (rows.getD r []).getD c zero32 else zero32)

def blockIndex (width row0 sc blk k : Nat) : Nat :=
  (row0 + 8 * (blk / 8) + k / 8) * width + 64 * sc + 8 * (blk % 8) + k % 8

/-- A band's result as encoded squares. -/
def encodeBand (f : Fmt) (key : Option W64) (row0 width : Nat) (rows : List (List W32)) : List (List Block) :=
  (List.range (ceilDiv width 64)).map (fun sc =>
    (List.range 64).map (fun blk => encBlock f key (blockIndex width row0 sc blk) (bandBlock width rows sc blk)))

/-- The matrix's elements as they are written: index, code, watch code. Padding is no element of the tensor, so that a NaN block's padding is not
counted (DESIGN CHOICE, log entry 46). -/
def bandElems (f : Fmt) (row0 width nrows : Nat) (sqs : List (List Block)) (infs : List (List Bool)) : List (Nat × Nat × Nat) :=
  (List.range nrows).flatMap (fun r => (List.range width).map (fun c =>
    let blk := (sqs.getD (c / 64) []).getD (blockOf r (c % 64)) ⟨0, []⟩
    let code := blk.codes.getD (inBlock r (c % 64)) 0
    ((row0 + r) * width + c, code, watchCode (decElem f blk.exp code) ((infs.getD r []).getD c false))))

/-- Bits as bytes, bit i mod 8 of byte i / 8 (R109). -/
def packBits : List Bool → List Byte
  | [] => []
  | b0 :: b1 :: b2 :: b3 :: b4 :: b5 :: b6 :: b7 :: bs =>
    BitVec.ofNat 8 ((if b0 then 1 else 0) + (if b1 then 2 else 0) + (if b2 then 4 else 0) + (if b3 then 8 else 0)
      + (if b4 then 16 else 0) + (if b5 then 32 else 0) + (if b6 then 64 else 0) + (if b7 then 128 else 0)) :: packBits bs
  | bs => [BitVec.ofNat 8 ((bs.zipIdx.map (fun (b, i) => if b then 2 ^ i else 0)).foldl (· + ·) 0)]

/-! ### One band -/

def SlateOp.width (o : SlateOp) : Nat := sRowLen o.grp + 1

/-- Rows of the next band. -/
def SlateOp.bandRows (o : SlateOp) : Nat := min 64 (sRows o.grp - 64 * o.band)

/-- The drained rows of a band have been handed over. -/
def SlateOp.drained (o : SlateOp) : Bool :=
  let d := tileDims (aFold o.frame)
  let rt := 64 * o.band / d.1
  let cts := min (aRodTiles o.frame) (ceilDiv o.width d.2)
  o.frame != 0 && (List.range cts).all (fun c => o.tiles.any (fun t => t.1 == rt * aRodTiles o.frame + c))

/-- Rows of operand a as drained; elements past the product are +0 (DESIGN CHOICE, log entry 23). -/
def SlateOp.drainRows (o : SlateOp) : List (List (W32 × Bool)) :=
  let d := tileDims (aFold o.frame)
  (List.range o.bandRows).map (fun r => (List.range o.width).map (fun c =>
    let row := 64 * o.band + r
    let tile := row / d.1 * aRodTiles o.frame + c / d.2
    match (if c / d.2 < aRodTiles o.frame then o.tiles.find? (fun t => t.1 == tile) else none) with
    | some t => (t.2.1.getD (row % d.1 * d.2 + c % d.2) zero32, false)
    | none => (zero32, false)))

def SlateOp.usesVec (o : SlateOp) : Bool × Bool := (sOp o.grp == 0x13 || sOp o.grp == 0x14, sOp o.grp == 0x13)

/-- An operand of a band: its rows, the buffers used up, the place reached. -/
structure Fetched where
  rows : List (List (W32 × Bool))
  addrs : List Nat
  done : List Nat
  cur : Option (Nat × Nat)

def fetchBand (b l : Nat) (f : Fmt) (rows width : Nat) (cur : Option (Nat × Nat)) (s : State) : Option (Fetched × State) :=
  match takeUnits b l f.squareBytes (ceilDiv width 64) cur s with
  | none => none
  | some (as, hs, cur, s) => some ({ rows := readBand s b f rows width as, addrs := as, done := hs, cur := cur }, s)

/-- The operands of a band, before anything is written: a, b, c, the labels, and the operation with its new places. -/
structure BandIn where
  op : SlateOp
  a : List (List (W32 × Bool))
  b : List (List (W32 × Bool))
  c : List (List (W32 × Bool))
  labels : List Nat := []
  /-- Buffers used up: (link, handle). -/
  done : List (Nat × Nat)
  /-- Squares read: (address, bytes). -/
  read : List (Nat × Nat)

def noRows : List (List (W32 × Bool)) := []

/-- Operand a of the next band. -/
def bandA (b : Nat) (o : SlateOp) (s : State) : Option (BandIn × State) :=
  if sADrain o.grp then
    (if o.drained then some ({ op := o, a := o.drainRows, b := noRows, c := noRows, done := [], read := [] }, s) else none)
  else
    match fetchBand b (sSrcA o.grp) o.fa o.bandRows o.width o.curA s with
    | none => none
    | some (f, s) =>
      some ({ op := { o with curA := f.cur }, a := f.rows, b := noRows, c := noRows
              done := f.done.map (fun h => (sSrcA o.grp, h)), read := f.addrs.map (fun a => (a, o.fa.squareBytes)) }, s)

/-- A vector operand is read with the first band and its buffers are kept to the end. -/
def vecOperand (b l : Nat) (f : Fmt) (width : Nat) (s : State) : Option (List (W32 × Bool) × List Nat × List (Nat × Nat) × State) :=
  match fetchBand b l f 1 width none s with
  | none => none
  | some (r, s) =>
    some (r.rows.headD [], r.done ++ (match r.cur with | some c => [c.1] | none => []), r.addrs.map (fun a => (a, f.squareBytes)), s)

/-- The rows that a vector operand gives a band: its widening is counted once (R38). -/
def vecRows (n : Nat) (v : List (W32 × Bool)) : List (List (W32 × Bool)) :=
  v :: List.replicate (n - 1) (v.map (fun e => (e.1, false)))

/-- Operand b: a matrix, gamma, or labels. -/
def bandB (b : Nat) (i : BandIn) (s : State) : Option (BandIn × State) :=
  let o := i.op
  let l := sSrcB o.grp
  if !(slateUses (sOp o.grp)).2.1 then some (i, s)
  else if sOp o.grp = 0x15 then
    match takeUnits b l 16384 1 o.curB s with
    | none => none
    | some (as, hs, cur, s) =>
      some ({ i with op := { o with curB := cur }, labels := readWords s b o.bandRows (as.headD 0)
                     done := i.done ++ hs.map (fun h => (l, h)), read := i.read ++ as.map (fun a => (a, 16384)) }, s)
  else if o.usesVec.1 then
    if o.band != 0 then some ({ i with b := List.replicate o.bandRows (o.vecB.map (fun v => (v, false))) }, s)
    else
      match vecOperand b l o.fb o.width s with
      | none => none
      | some (v, hs, rd, s) =>
        some ({ i with op := { o with vecB := v.map (·.1), keep := o.keep ++ hs.map (fun h => (l, h)) }
                       b := vecRows o.bandRows v, read := i.read ++ rd }, s)
  else
    match fetchBand b l o.fb o.bandRows o.width o.curB s with
    | none => none
    | some (f, s) =>
      some ({ i with op := { o with curB := f.cur }, b := f.rows, done := i.done ++ f.done.map (fun h => (l, h))
                     read := i.read ++ f.addrs.map (fun a => (a, o.fb.squareBytes)) }, s)

/-- Operand c: a matrix, or beta. -/
def bandC (b : Nat) (i : BandIn) (s : State) : Option (BandIn × State) :=
  let o := i.op
  let l := sSrcC o.grp
  if !(slateUses (sOp o.grp)).2.2 then some (i, s)
  else if o.usesVec.2 then
    if o.band != 0 then some ({ i with c := List.replicate o.bandRows (o.vecC.map (fun v => (v, false))) }, s)
    else
      match vecOperand b l o.fc o.width s with
      | none => none
      | some (v, hs, rd, s) =>
        some ({ i with op := { o with vecC := v.map (·.1), keep := o.keep ++ hs.map (fun h => (l, h)) }
                       c := vecRows o.bandRows v, read := i.read ++ rd }, s)
  else
    match fetchBand b l o.fc o.bandRows o.width o.curC s with
    | none => none
    | some (f, s) =>
      some ({ i with op := { o with curC := f.cur }, c := f.rows, done := i.done ++ f.done.map (fun h => (l, h))
                     read := i.read ++ f.addrs.map (fun a => (a, o.fc.squareBytes)) }, s)

/-- Every row of a band. -/
def bandOut (i : BandIn) (key : W64) : List RowOut :=
  let o := i.op
  (List.range o.bandRows).map (fun r =>
    let row := fun (m : List (List (W32 × Bool))) => (m.getD r []).map (·.1)
    slateRow o.grp key ((64 * o.band + r) * o.width) (row i.a) (row i.b) (row i.c) (i.labels.getD r 0))

/-- A watch point of the Slate for one of its outputs. -/
def slateWatch (b : Nat) (o : SlateOp) (tensor slot cls site : Nat) : WatchAt :=
  { board := b, domain := o.work.domain, layer := o.work.layer, mb := o.work.mb, tensor := tensor, slot := slot, cls := cls, site := site }

/-- The class of the first output: XENT writes its loss with class 1 (R108). -/
def firstClass (g : Nat) : Nat := if sOp g = 0x15 then 1 else sClass g

/-- Encoded squares are written at their addresses. -/
def writeSquares (b : Nat) (f : Fmt) (sqs : List (List Block)) (addrs : List Nat) (s : State) : State :=
  forEach (sqs.zip addrs) (fun e s => boardWrite b e.2 (squareOf f e.1) s) s

/-- One output of a band: written, counted, its full buffers passed on. -/
def putBand (b l : Nat) (o : SlateOp) (tensor slot cls width : Nat) (rows : List (List W32)) (infs : List (List Bool))
    (addrs done : List Nat) (s : State) : State :=
  let f := (fmtOfCode (sOutFmt o.grp)).getD .fp32
  let key := if sRound o.grp then some (streamKey s.job.seed o.work.tag 0x20 (s.logicalOf b) (sOpNumber o.grp)) else none
  let sqs := encodeBand f key (64 * o.band) width rows
  let es := bandElems f (64 * o.band) width rows.length sqs infs
  let s := writeSquares b f sqs addrs s
  let s := countEvent b 0x10 (some o.work.domain) none es.length s
  let s := if o.again then s else watchPut (slateWatch b o tensor slot cls 3) es s
  forEach done (fun h s => bufferFull b l h s) s

/-- Mask bytes are written at their addresses (one unit is one byte). -/
def putMask (b l : Nat) (bs : List Byte) (addrs done : List Nat) (s : State) : State :=
  let s := forEach (bs.zip addrs) (fun e s => boardWrite b e.2 [e.1] s) s
  forEach done (fun h s => bufferFull b l h s) s

/-- The band past every row: an operation with an uncorrectable operand goes on to no other. -/
def badBand : Nat := 2 ^ 16

/-- One band of the operation at the head of the queue: none if an operand or a destination is not there yet. -/
def slateBand (b : Nat) (o : SlateOp) (s : State) : Option (SlateOp × State) :=
  match bandA b o s with
  | none => none
  | some (i, s) =>
    match bandB b i s with
    | none => none
    | some (i, s) =>
      match bandC b i s with
      | none => none
      | some (i, s) =>
        let o := i.op
        let g := o.grp
        let w1 := if perRow (sOp g) then 1 else o.width
        let f := (fmtOfCode (sOutFmt g)).getD .fp32
        match giveUnits b (sDst g) o.work.epoch f.squareBytes (ceilDiv w1 64) o.curD s with
        | none => none
        | some (as1, hs1, cur1, s) =>
          let n2 := if sOp g = 0x15 then ceilDiv o.width 64 else if sOp g = 0x16 then ceilDiv (o.bandRows * o.width) 8 else 0
          match giveUnits b (sDst2 g) o.work.epoch (if sOp g = 0x16 then 1 else f.squareBytes) n2 o.curE s with
          | none => none
          | some (as2, hs2, cur2, s) =>
            match i.read.findSome? (fun r => boardBad s b r.1 r.2) with
            | some w => some ({ o with band := badBand }, storeUe b w 1 s)
            | none =>
              let s := forEach i.read (fun r s => storeServed b r.1 r.2 s) s
              let key := streamKey s.job.seed o.work.tag 0x50 (s.logicalOf b) (sOpNumber g)
              let rows := bandOut i key
              let widened := ((i.a ++ i.b ++ i.c).map (fun row => row.countP (·.2))).foldl (· + ·) 0
              let s := if o.again || widened = 0 then s
                else watchCount (slateWatch b o (sTensor g) (sSlot g) (firstClass g) 6) (List.replicate widened 1) s
              let infOf := fun (second : Bool) (w : Nat) => (List.range o.bandRows).map (fun k =>
                rowInf g second w ((i.a.getD k []).map (·.1)) ((i.b.getD k []).map (·.1)) ((i.c.getD k []).map (·.1)))
              let s := putBand b (sDst g) o (sTensor g) (sSlot g) (firstClass g) w1 (rows.map (·.out)) (infOf false w1) as1 hs1 s
              let s := if sOp g = 0x15 then
                  putBand b (sDst2 g) o (sTensor2 g) (sSlot2 g) 2 o.width (rows.map (·.out2)) (infOf true o.width) as2 hs2 s
                else if sOp g = 0x16 then putMask b (sDst2 g) (packBits (rows.flatMap (·.mask))) as2 hs2 s
                else s
              let s := forEach i.done (fun h s => freeBuf b h.1 h.2 s) s
              some ({ o with band := o.band + 1, curD := cur1, curE := cur2 }, s)

/-- The operation ends: what it still holds of its links is passed on or released. -/
def slateEnd (b : Nat) (o : SlateOp) (s : State) : State :=
  let g := o.grp
  let full := fun (l : Nat) (c : Option (Nat × Nat)) (s : State) => match c with
    | some c => bufferFull b l c.1 s
    | none => s
  let free := fun (l : Nat) (c : Option (Nat × Nat)) (s : State) => match c with
    | some c => freeBuf b l c.1 s
    | none => s
  let s := full (sDst g) o.curD (full (sDst2 g) o.curE s)
  let s := free (sSrcA g) o.curA (free (sSrcB g) o.curB (free (sSrcC g) o.curC s))
  let s := forEach o.keep (fun k s => freeBuf b k.1 k.2 s) s
  let s := markBead b o.work.bundle (fun t k => if k.layered then k else { k with execEnd := t }) s
  let s := (s.modBoard b (fun x => { x with slates := x.slates.filter (fun q => q.id != o.id) })).bump .slateOps b
  settleWork b s

/-- The queue goes on while its head finds its operands and its destinations; an uncorrectable operand ends its operation. -/
def slateRun (b : Nat) : Nat → State → State
  | 0, s => s
  | n + 1, s =>
    match (s.board b).slates with
    | [] => s
    | o :: _ =>
      match slateBand b o s with
      | none => s
      | some (o, s) =>
        let s := if o.band = 1 then markBead b o.work.bundle (fun t k => if k.layered then k else { k with execStart := t }) s else s
        if badBand ≤ o.band then s.modBoard b (fun x => { x with slates := x.slates.filter (fun q => q.id != o.id) })
        else if ceilDiv (sRows o.grp) 64 ≤ o.band then slateRun b n (slateEnd b o s)
        else slateRun b n (s.modBoard b (fun x => { x with slates := x.slates.map (fun q => if q.id = o.id then o else q) }))

/-- Bands that one command lets the queue go on by at most. -/
def slateSpan : Nat := 8192

/-- A Slate group is queued at issue. -/
def queueSlate (b : Nat) (st : StreamSel) (i : Issue) (fa fb fc : Fmt) (s : State) : State :=
  let g := actGroup s b st 5
  let w := issueWork s b st i
  let key := (w.domain, w.tag, w.mb, sOpNumber g, true)
  s.modBoard b (fun x => { x with
    slates := x.slates ++ [{ id := x.nextId, grp := g, work := w, fa := fa, fb := fb, fc := fc, again := x.seen.contains key }]
    nextId := x.nextId + 1
    seen := if x.seen.contains key then x.seen else key :: x.seen })

/-- A Slate command: the group is queued when its bundle's turn has come, and the queue goes on. -/
def slateCmd (b : BoardNo) (st : StreamSel) (op : Nat) (fa fb fc : Fmt) (s : State) : Host.Outcome State Fault Refusal :=
  match turn b.val st 5 0 s with
  | .act i s' =>
    if sOp (actGroup s' b.val st 5) = op then
      .next (slateRun b.val slateSpan (popAct b.val st (queueSlate b.val st i fa fb fc s')))
    else .next s
  | .halted s' => .next s'
  | .none =>
    match (s.board b.val).slates with
    | o :: _ => if sOp o.grp = op && o.work.filler = isFiller st then .next (slateRun b.val slateSpan s) else .next s
    | [] => .next s

def execFma (b : BoardNo) (st : StreamSel) (fa fb fc : Fmt) (s : State) : Host.Outcome State Fault Refusal :=
  slateCmd b st 0x01 fa fb fc s
def execAdd (b : BoardNo) (st : StreamSel) (fa fb : Fmt) (s : State) : Host.Outcome State Fault Refusal :=
  slateCmd b st 0x02 fa fb .fp32 s
def execMul (b : BoardNo) (st : StreamSel) (fa fb : Fmt) (s : State) : Host.Outcome State Fault Refusal :=
  slateCmd b st 0x03 fa fb .fp32 s
def execMax (b : BoardNo) (st : StreamSel) (fa fb : Fmt) (s : State) : Host.Outcome State Fault Refusal :=
  slateCmd b st 0x04 fa fb .fp32 s
def execMin (b : BoardNo) (st : StreamSel) (fa fb : Fmt) (s : State) : Host.Outcome State Fault Refusal :=
  slateCmd b st 0x05 fa fb .fp32 s
def execCvt (b : BoardNo) (st : StreamSel) (fa : Fmt) (s : State) : Host.Outcome State Fault Refusal :=
  slateCmd b st 0x06 fa .fp32 .fp32 s
def execExp (b : BoardNo) (st : StreamSel) (fa : Fmt) (s : State) : Host.Outcome State Fault Refusal :=
  slateCmd b st 0x07 fa .fp32 .fp32 s
def execLog (b : BoardNo) (st : StreamSel) (fa : Fmt) (s : State) : Host.Outcome State Fault Refusal :=
  slateCmd b st 0x08 fa .fp32 .fp32 s
def execRsqrt (b : BoardNo) (st : StreamSel) (fa : Fmt) (s : State) : Host.Outcome State Fault Refusal :=
  slateCmd b st 0x09 fa .fp32 .fp32 s
def execTanh (b : BoardNo) (st : StreamSel) (fa : Fmt) (s : State) : Host.Outcome State Fault Refusal :=
  slateCmd b st 0x0A fa .fp32 .fp32 s
def execRcp (b : BoardNo) (st : StreamSel) (fa : Fmt) (s : State) : Host.Outcome State Fault Refusal :=
  slateCmd b st 0x0B fa .fp32 .fp32 s
def execRsum (b : BoardNo) (st : StreamSel) (fa : Fmt) (s : State) : Host.Outcome State Fault Refusal :=
  slateCmd b st 0x10 fa .fp32 .fp32 s
def execRmax (b : BoardNo) (st : StreamSel) (fa : Fmt) (s : State) : Host.Outcome State Fault Refusal :=
  slateCmd b st 0x11 fa .fp32 .fp32 s
def execSoftmax (b : BoardNo) (st : StreamSel) (fa : Fmt) (s : State) : Host.Outcome State Fault Refusal :=
  slateCmd b st 0x12 fa .fp32 .fp32 s
def execLnorm (b : BoardNo) (st : StreamSel) (fa fgamma fbeta : Fmt) (s : State) : Host.Outcome State Fault Refusal :=
  slateCmd b st 0x13 fa fgamma fbeta s
def execRmsnorm (b : BoardNo) (st : StreamSel) (fa fgamma : Fmt) (s : State) : Host.Outcome State Fault Refusal :=
  slateCmd b st 0x14 fa fgamma .fp32 s
def execXent (b : BoardNo) (st : StreamSel) (fa : Fmt) (s : State) : Host.Outcome State Fault Refusal :=
  slateCmd b st 0x15 fa .fp32 .fp32 s
def execDropout (b : BoardNo) (st : StreamSel) (fa : Fmt) (s : State) : Host.Outcome State Fault Refusal :=
  slateCmd b st 0x16 fa .fp32 .fp32 s

/-- Drained FP32 rows are handed to the Slate operation of the same bundle (R68, R141); in a proof, stream or duty hold none is (R72,
R117, R315). -/
def execSlateHandoff (b : BoardNo) (f : FrameNo) (s : State) : Host.Outcome State Fault Refusal :=
  let b := b.val
  let f := f.val
  let x := s.board b
  match drainedTile x f (fun l => dMode l.drain == 2) with
  | none => .next s
  | some (l, t) =>
    if !x.hold.isEmpty || x.streamHold.isSome || x.dutyHold then .next s
    else
      match x.slates.find? (fun o => o.work.bundle == l.work.bundle && sADrain o.grp) with
      | none => .next (dropTile b f t.launch t.tile s)
      | some o =>
        let o' := { o with tiles := o.tiles ++ [(t.tile, t.values, t.infIn)], frame := l.frame }
        let s := s.modBoard b (fun x => { x with slates := x.slates.map (fun q => if q.id = o.id then o' else q) })
        let s := countEvent b 0x11 (some l.work.domain) (some f) 256 s
        .next (slateRun b slateSpan (tileWritten b f l t s))

/-! ### Stalls (R127) -/

/-- The Slate operation at the head waits for a buffer of an operand or of a destination: on a semaphore or a handle queue. One that waits
for drained rows waits on its launch. -/
def slateWaits (s : State) (b : Nat) (o : SlateOp) : Bool := (!sADrain o.grp || o.drained) && (slateBand b o s).isNone

/-- Epochs whose work on a Board waits on a semaphore, a hold or a handle queue (R127). -/
def waitingEpochs (s : State) (b : Nat) : List Nat :=
  let x := s.board b
  let waits := fun (st : StreamSel) =>
    let y := x.strm st
    if y.issue.isNone && !y.stopped && !y.atSwap && !semMet x (nextBundle x st) then [hEpoch (nextBundle x st).header] else []
  ((if x.started then waits .main ++ waits .filler else [])
    ++ (if x.streamHold.isSome then x.launches.map (fun l => l.work.epoch) else [])
    ++ (match x.slates with | o :: _ => if slateWaits s b o then [o.work.epoch] else [] | [] => [])
    ++ (x.fetches.filter (fun f => f.more)).map (fun f => f.work.epoch)).eraseDups

/-- STREAM_STALL at the expiry of STREAM_WATCHDOG: `link` is the waiting link. -/
def execStreamStall (b : BoardNo) (link : LinkNo) (s : State) : Host.Outcome State Fault Refusal :=
  let b := b.val
  let x := s.board b
  let es := waitingEpochs s b
  if x.halt == .halted || es.isEmpty then .next s
  else
    let k := x.link link.val
    let ds := (es.filterMap s.domOfEpoch).eraseDups
    let f : Flt := { code := 0x0203, kind := 1, unit := b, domain := ds.head?
                     detail := packAt [(0, 1, link.val), (2, 2, x.linkSem k.remoteProducer k.fullSem), (4, 2, x.linkSem k.remoteConsumer k.emptySem)] }
    let s := haltBoard b f (s.bump .streamStalls b)
    .next (s.modBoard b (fun x => { x with haltDomains := (x.haltDomains ++ ds).eraseDups, streamHold := none }))

end Sys2Proof.Machine
end

