-- ==== Sys2Proof/Machine/Dispatch.lean ====
section
/-!
DEFINITION. Machine/Dispatch.lean: one arm for each command; each arm is one call of the command's meaning.
-/
namespace Sys2Proof.Machine

def exec (i : Instr) (s : State) : Host.Outcome State Fault Refusal :=
  match i with
  | .odRead src => Sys2Proof.Machine.execOdRead src s
  | .odWrite src => Sys2Proof.Machine.execOdWrite src s
  | .odInfo src => Sys2Proof.Machine.execOdInfo src s
  | .registerWrite w => Sys2Proof.Machine.execRegisterWrite w s
  | .stagingTimeout p => Sys2Proof.Machine.execStagingTimeout p s
  | .mbGo v => Sys2Proof.Machine.execMbGo v s
  | .irqCauseClear f mask => Sys2Proof.Machine.execIrqCauseClear f mask s
  | .domainCauseClear f t => Sys2Proof.Machine.execDomainCauseClear f t s
  | .ringBaseWrite d v => Sys2Proof.Machine.execRingBaseWrite d v s
  | .dbLineWrite d v => Sys2Proof.Machine.execDbLineWrite d v s
  | .feedDoorbell d count => Sys2Proof.Machine.execFeedDoorbell d count s
  | .doorbellLineInvalidation d count => Sys2Proof.Machine.execDoorbellLineInvalidation d count s
  | .feedRecord d slot => Sys2Proof.Machine.execFeedRecord d slot s
  | .microBatchAdmit d => Sys2Proof.Machine.execMicroBatchAdmit d s
  | .admitWatchdog d => Sys2Proof.Machine.execAdmitWatchdog d s
  | .openingComplete d => Sys2Proof.Machine.execOpeningComplete d s
  | .payloadRead b link fill line data => Sys2Proof.Machine.execPayloadRead b link fill line data s
  | .windowMapWrite n v => Sys2Proof.Machine.execWindowMapWrite n v s
  | .hdmRead offset => Sys2Proof.Machine.execHdmRead offset s
  | .hdmWrite offset line => Sys2Proof.Machine.execHdmWrite offset line s
  | .functionLevelReset => Sys2Proof.Machine.execFunctionLevelReset s
  | .hotReset => Sys2Proof.Machine.execHotReset s
  | .perstAssert => Sys2Proof.Machine.execPerstAssert s
  | .perstDeassert refclk => Sys2Proof.Machine.execPerstDeassert refclk s
  | .stepRecord via d data => Sys2Proof.Machine.execStepRecord via d data s
  | .load via => Sys2Proof.Machine.execLoad via s
  | .jobLoadDone rd => Sys2Proof.Machine.execJobLoadDone rd s
  | .start via => Sys2Proof.Machine.execStart via s
  | .abort via => Sys2Proof.Machine.execAbort via s
  | .unload via => Sys2Proof.Machine.execUnload via s
  | .stateRequestStandby via => Sys2Proof.Machine.execStateRequestStandby via s
  | .stateRequestService via => Sys2Proof.Machine.execStateRequestService via s
  | .stateRequestReady via => Sys2Proof.Machine.execStateRequestReady via s
  | .warmReset via => Sys2Proof.Machine.execWarmReset via s
  | .coldReset via => Sys2Proof.Machine.execColdReset via s
  | .cwClear via d v => Sys2Proof.Machine.execCwClear via d v s
  | .ruleSlotWrite via slot sub v => Sys2Proof.Machine.execRuleSlotWrite via slot sub v s
  | .groupEntry via data => Sys2Proof.Machine.execGroupEntry via data s
  | .memberAddr via v => Sys2Proof.Machine.execMemberAddr via v s
  | .barrierStart via g => Sys2Proof.Machine.execBarrierStart via g s
  | .fabricDevice via v => Sys2Proof.Machine.execFabricDevice via v s
  | .portRestore via v => Sys2Proof.Machine.execPortRestore via v s
  | .nodeIdWrite via v => Sys2Proof.Machine.execNodeIdWrite via v s
  | .halfClock via v => Sys2Proof.Machine.execHalfClock via v s
  | .stage via => Sys2Proof.Machine.execStage via s
  | .fwChunk via data => Sys2Proof.Machine.execFwChunk via data s
  | .stagingComplete pkg => Sys2Proof.Machine.execStagingComplete pkg s
  | .activate via => Sys2Proof.Machine.execActivate via s
  | .activationSwitch => Sys2Proof.Machine.execActivationSwitch s
  | .confirm via => Sys2Proof.Machine.execConfirm via s
  | .cancel via => Sys2Proof.Machine.execCancel via s
  | .actInhibitClear bit => Sys2Proof.Machine.execActInhibitClear bit s
  | .attestNonce via data => Sys2Proof.Machine.execAttestNonce via data s
  | .attestReportReady => Sys2Proof.Machine.execAttestReportReady s
  | .debugResponse via data => Sys2Proof.Machine.execDebugResponse via data s
  | .snapshot via => Sys2Proof.Machine.execSnapshot via s
  | .captureStart d => Sys2Proof.Machine.execCaptureStart d s
  | .snapshotDone r => Sys2Proof.Machine.execSnapshotDone r s
  | .exportCmd via => Sys2Proof.Machine.execExport via s
  | .restore via => Sys2Proof.Machine.execRestore via s
  | .restoreComplete r => Sys2Proof.Machine.execRestoreComplete r s
  | .snapCancel via => Sys2Proof.Machine.execSnapCancel via s
  | .logClear via v => Sys2Proof.Machine.execLogClear via v s
  | .ninesInit via => Sys2Proof.Machine.execNinesInit via s
  | .ninesRun via => Sys2Proof.Machine.execNinesRun via s
  | .ninesRunDone unit bad => Sys2Proof.Machine.execNinesRunDone unit bad s
  | .ninesFinish via => Sys2Proof.Machine.execNinesFinish via s
  | .ninesAbort via done => Sys2Proof.Machine.execNinesAbort via done s
  | .ninesRunningWrite via v => Sys2Proof.Machine.execNinesRunningWrite via v s
  | .cntControl via v => Sys2Proof.Machine.execCntControl via v s
  | .cntClear via v => Sys2Proof.Machine.execCntClear via v s
  | .blkClear via v => Sys2Proof.Machine.execBlkClear via v s
  | .readerStart via => Sys2Proof.Machine.execReaderStart via s
  | .readerStop via => Sys2Proof.Machine.execReaderStop via s
  | .readerSample => Sys2Proof.Machine.execReaderSample s
  | .freezeModule via => Sys2Proof.Machine.execFreezeModule via s
  | .thawModule via => Sys2Proof.Machine.execThawModule via s
  | .freezeFabric via => Sys2Proof.Machine.execFreezeFabric via s
  | .thawFabric via => Sys2Proof.Machine.execThawFabric via s
  | .freezeTick => Sys2Proof.Machine.execFreezeTick s
  | .beadNWrite via v => Sys2Proof.Machine.execBeadNWrite via v s
  | .clearIds frame => Sys2Proof.Machine.execClearIds frame s
  | .offer frame chainFor => Sys2Proof.Machine.execOffer frame chainFor s
  | .chainInChange level => Sys2Proof.Machine.execChainInChange level s
  | .idConflict canId => Sys2Proof.Machine.execIdConflict canId s
  | .heartbeat => Sys2Proof.Machine.execHeartbeat s
  | .canBusOffRecovery => Sys2Proof.Machine.execCanBusOffRecovery s
  | .inputPowerUp => Sys2Proof.Machine.execInputPowerUp s
  | .inputUndervoltage => Sys2Proof.Machine.execInputUndervoltage s
  | .pwrEnAssert => Sys2Proof.Machine.execPwrEnAssert s
  | .pwrEnDeassert => Sys2Proof.Machine.execPwrEnDeassert s
  | .boot rd => Sys2Proof.Machine.execBoot rd s
  | .watchdog core => Sys2Proof.Machine.execWatchdog core s
  | .coreRestartDone core => Sys2Proof.Machine.execCoreRestartDone core s
  | .imageIntegrity core => Sys2Proof.Machine.execImageIntegrity core s
  | .faultLogFlush => Sys2Proof.Machine.execFaultLogFlush s
  | .throttle t => Sys2Proof.Machine.execThrottle t s
  | .throttleDutyStep stillOn => Sys2Proof.Machine.execThrottleDutyStep stillOn s
  | .throttleHandover => Sys2Proof.Machine.execThrottleHandover s
  | .powerControllerTick p1 p100 => Sys2Proof.Machine.execPowerControllerTick p1 p100 s
  | .railFault k => Sys2Proof.Machine.execRailFault k s
  | .railFaultClear => Sys2Proof.Machine.execRailFaultClear s
  | .thermalSample temps => Sys2Proof.Machine.execThermalSample temps s
  | .thermalThrottleEnd half => Sys2Proof.Machine.execThermalThrottleEnd half s
  | .thermalTripEnd => Sys2Proof.Machine.execThermalTripEnd s
  | .refreshRestore k => Sys2Proof.Machine.execRefreshRestore k s
  | .portTrainingDone p peer => Sys2Proof.Machine.execPortTrainingDone p peer s
  | .laneFailover p pos => Sys2Proof.Machine.execLaneFailover p pos s
  | .retrainDone p ok peer => Sys2Proof.Machine.execRetrainDone p ok peer s
  | .lanePatternTestDone p pos pass => Sys2Proof.Machine.execLanePatternTestDone p pos pass s
  | .routeSwitch p => Sys2Proof.Machine.execRouteSwitch p s
  | .flitArrival p flit => Sys2Proof.Machine.execFlitArrival p flit s
  | .nak p ack => Sys2Proof.Machine.execNak p ack s
  | .packetForward arrival pkt => Sys2Proof.Machine.execPacketForward arrival pkt s
  | .directedRoute p pkt => Sys2Proof.Machine.execDirectedRoute p pkt s
  | .rdReq pkt => Sys2Proof.Machine.execRdReq pkt s
  | .wr pkt => Sys2Proof.Machine.execWr pkt s
  | .gatherReq pkt => Sys2Proof.Machine.execGatherReq pkt s
  | .rendezvousTimeout b entry => Sys2Proof.Machine.execRendezvousTimeout b entry s
  | .mcData p pkt => Sys2Proof.Machine.execMcData p pkt s
  | .mcHoldTimeout die slot => Sys2Proof.Machine.execMcHoldTimeout die slot s
  | .mcAck p pkt => Sys2Proof.Machine.execMcAck p pkt s
  | .gatherData pkt => Sys2Proof.Machine.execGatherData pkt s
  | .stale pkt => Sys2Proof.Machine.execStale pkt s
  | .rdData pkt => Sys2Proof.Machine.execRdData pkt s
  | .wrAck pkt => Sys2Proof.Machine.execWrAck pkt s
  | .err pkt => Sys2Proof.Machine.execErr pkt s
  | .fabricTimeout txn => Sys2Proof.Machine.execFabricTimeout txn s
  | .reduceVal pkt => Sys2Proof.Machine.execReduceVal pkt s
  | .reduceVote p pkt => Sys2Proof.Machine.execReduceVote p pkt s
  | .reduceHopSend b => Sys2Proof.Machine.execReduceHopSend b s
  | .updateCmd k pkt => Sys2Proof.Machine.execUpdateCmd k pkt s
  | .noStepRecord k d => Sys2Proof.Machine.execNoStepRecord k d s
  | .squareUpdate k => Sys2Proof.Machine.execSquareUpdate k s
  | .updateMissing d k => Sys2Proof.Machine.execUpdateMissing d k s
  | .mirrorWr pkt => Sys2Proof.Machine.execMirrorWr pkt s
  | .mirrorPass k d region => Sys2Proof.Machine.execMirrorPass k d region s
  | .semSignal pkt => Sys2Proof.Machine.execSemSignal pkt s
  | .barrier p pkt => Sys2Proof.Machine.execBarrier p pkt s
  | .commitTok p pkt => Sys2Proof.Machine.execCommitTok p pkt s
  | .voidTok p pkt => Sys2Proof.Machine.execVoidTok p pkt s
  | .tokenResend g => Sys2Proof.Machine.execTokenResend g s
  | .beamTimeout d => Sys2Proof.Machine.execBeamTimeout d s
  | .localOffer d => Sys2Proof.Machine.execLocalOffer d s
  | .tbSync p masterTime correction stamp => Sys2Proof.Machine.execTbSync p masterTime correction stamp s
  | .tbSyncSend => Sys2Proof.Machine.execTbSyncSend s
  | .tbEcho p t1 t2 t3 t4 => Sys2Proof.Machine.execTbEcho p t1 t2 t3 t4 s
  | .tbHoldover => Sys2Proof.Machine.execTbHoldover s
  | .freeze p pkt => Sys2Proof.Machine.execFreeze p pkt s
  | .openCmd k => Sys2Proof.Machine.execOpen k s
  | .commit k => Sys2Proof.Machine.execCommit k s
  | .closeApply k d => Sys2Proof.Machine.execCloseApply k d s
  | .settleWalkDone k d => Sys2Proof.Machine.execSettleWalkDone k d s
  | .stackRead k req => Sys2Proof.Machine.execStackRead k req s
  | .aheadHoldTimeout k held => Sys2Proof.Machine.execAheadHoldTimeout k held s
  | .rowTest k pass => Sys2Proof.Machine.execRowTest k pass s
  | .patrolScrub k line r => Sys2Proof.Machine.execPatrolScrub k line r s
  | .boardStoreScrub b word r => Sys2Proof.Machine.execBoardStoreScrub b word r s
  | .marchTest b pass => Sys2Proof.Machine.execMarchTest b pass s
  | .stackSelfTest k pass => Sys2Proof.Machine.execStackSelfTest k pass s
  | .loadBegin b => Sys2Proof.Machine.execLoadBegin b s
  | .loadWord b bank offset w => Sys2Proof.Machine.execLoadWord b bank offset w s
  | .loadEnd b => Sys2Proof.Machine.execLoadEnd b s
  | .bankSwap b => Sys2Proof.Machine.execBankSwap b s
  | .fetch b st g => Sys2Proof.Machine.execFetch b st g s
  | .rearmTakeEffect b link => Sys2Proof.Machine.execRearmTakeEffect b link s
  | .fetchLineLand b link fill line => Sys2Proof.Machine.execFetchLineLand b link fill line s
  | .stashWrite b st => Sys2Proof.Machine.execStashWrite b st s
  | .stashRead b st => Sys2Proof.Machine.execStashRead b st s
  | .stashReadRelease b st => Sys2Proof.Machine.execStashReadRelease b st s
  | .stashRelease b st => Sys2Proof.Machine.execStashRelease b st s
  | .gather b st => Sys2Proof.Machine.execGather b st s
  | .reduce b st => Sys2Proof.Machine.execReduce b st s
  | .sliceReadout b => Sys2Proof.Machine.execSliceReadout b s
  | .sem b st => Sys2Proof.Machine.execSem b st s
  | .nop b st => Sys2Proof.Machine.execNop b st s
  | .run b st missed => Sys2Proof.Machine.execRun b st missed s
  | .stepDone b st => Sys2Proof.Machine.execStepDone b st s
  | .boardStepDone b d => Sys2Proof.Machine.execBoardStepDone b d s
  | .swap b st => Sys2Proof.Machine.execSwap b st s
  | .stop b st => Sys2Proof.Machine.execStop b st s
  | .passVerdict b f faults => Sys2Proof.Machine.execPassVerdict b f faults s
  | .frameSelfTest b f pass => Sys2Proof.Machine.execFrameSelfTest b f pass s
  | .proofReplay b f faults => Sys2Proof.Machine.execProofReplay b f faults s
  | .storeWriteOut b f => Sys2Proof.Machine.execStoreWriteOut b f s
  | .drainAdd b f => Sys2Proof.Machine.execDrainAdd b f s
  | .slateHandoff b f => Sys2Proof.Machine.execSlateHandoff b f s
  | .tallyContribution b f => Sys2Proof.Machine.execTallyContribution b f s
  | .tallyHold b f => Sys2Proof.Machine.execTallyHold b f s
  | .layerComplete b st => Sys2Proof.Machine.execLayerComplete b st s
  | .layerBoundaryHalt b => Sys2Proof.Machine.execLayerBoundaryHalt b s
  | .streamRestart b => Sys2Proof.Machine.execStreamRestart b s
  | .streamStall b link => Sys2Proof.Machine.execStreamStall b link s
  | .fma b st fa fb fc => Sys2Proof.Machine.execFma b st fa fb fc s
  | .add b st fa fb => Sys2Proof.Machine.execAdd b st fa fb s
  | .mul b st fa fb => Sys2Proof.Machine.execMul b st fa fb s
  | .max b st fa fb => Sys2Proof.Machine.execMax b st fa fb s
  | .min b st fa fb => Sys2Proof.Machine.execMin b st fa fb s
  | .cvt b st fa => Sys2Proof.Machine.execCvt b st fa s
  | .exp b st fa => Sys2Proof.Machine.execExp b st fa s
  | .log b st fa => Sys2Proof.Machine.execLog b st fa s
  | .rsqrt b st fa => Sys2Proof.Machine.execRsqrt b st fa s
  | .tanh b st fa => Sys2Proof.Machine.execTanh b st fa s
  | .rcp b st fa => Sys2Proof.Machine.execRcp b st fa s
  | .rsum b st fa => Sys2Proof.Machine.execRsum b st fa s
  | .rmax b st fa => Sys2Proof.Machine.execRmax b st fa s
  | .softmax b st fa => Sys2Proof.Machine.execSoftmax b st fa s
  | .lnorm b st fa fgamma fbeta => Sys2Proof.Machine.execLnorm b st fa fgamma fbeta s
  | .rmsnorm b st fa fgamma => Sys2Proof.Machine.execRmsnorm b st fa fgamma s
  | .xent b st fa => Sys2Proof.Machine.execXent b st fa s
  | .dropout b st fa => Sys2Proof.Machine.execDropout b st fa s
  | .stackVoid k => Sys2Proof.Machine.execStackVoid k s
  | .cxlLinkUp cxl width rate cache mem => Sys2Proof.Machine.execCxlLinkUp cxl width rate cache mem s
  | .cxlLinkDown => Sys2Proof.Machine.execCxlLinkDown s
  | .hdmDecoderCommit base size => Sys2Proof.Machine.execHdmDecoderCommit base size s
  | .portEnable via v => Sys2Proof.Machine.execPortEnable via v s
  | .tapInstruction n => Sys2Proof.Machine.execTapInstruction n s
  | .canError transmit delta => Sys2Proof.Machine.execCanError transmit delta s
  | .canIgnored canId => Sys2Proof.Machine.execCanIgnored canId s
  | .identityKeyDerived seed => Sys2Proof.Machine.execIdentityKeyDerived seed s

end Sys2Proof.Machine
end

