-- ==== Sys2Proof/Safety.lean ====
section
/-!
DEFINITION. Safety.lean: what counts as a safe state, and a safe run, of the module: the invariants that claims are made of.
-/
namespace Sys2Proof.Machine

/-- Both memories are in their canonical form. -/
def State.memWf (s : State) : Bool := s.dram.wf && s.store.wf && s.host.reqBuf.wf && s.host.rspBuf.wf

/-- The keys of a table rise strictly, so that a key names one entry. -/
def Tbl.rising {α : Type} : Tbl α → Bool
  | [] => true
  | [_] => true
  | e :: f :: t => e.1 < f.1 && Tbl.rising (f :: t)

/-! ### A dictionary write that a command stands for -/

/-- A WRITE of a whole value, sent on the path `v`, reaches the entry `r` at `index` and passes every check that comes before the
entry's own rule (R8 to R12, R264 to R269): the path is served, the mailbox is not BUSY, a request of the fabric meets a module with its
number, the request need not wait, and no check refuses the value. -/
def Accepted (v : Via) (r : Reg) (index : Nat) (bytes : List Byte) (s : State) : Prop :=
  pathServed s v.path = true ∧ mailboxTaken s (viaClient v) = false ∧ unaddressed (viaClient v) s = false ∧ limited s index r.sub = false ∧ schedulerBusy s = false
    ∧ stagingBusy s (viaClient v) = false ∧ writeStatus s v.path r (unitOf s v.path r index) bytes = stOk

/-- The response OK to that request (Table 12-3). -/
def okResponse (v : Via) (r : Reg) (index : Nat) (bytes : List Byte) (version : Nat) : List Byte :=
  rspBytes stOk (parseReq (writeReqBytes index r.sub v.txn bytes)) version bytes.length []

/-- The value that the path had staged is dropped (R265). -/
def unstaged (v : Via) (s : State) : State := setStaged v.path none s

/-- The state u with the response OK sent along the path of the request (R268). -/
def answeredOk (v : Via) (r : Reg) (index : Nat) (bytes : List Byte) (s u : State) : State :=
  respond (viaClient v) (okResponse v r index bytes (verOf u r (unitOf s v.path r index))) u

/-- The same for an entry that is one register, whose value is n. -/
def AcceptedReg (v : Via) (r : Reg) (n : Nat) (s : State) : Prop := Accepted v r r.index (leBytes (tySize r.ty) n) s

def answeredReg (v : Via) (r : Reg) (n : Nat) (s u : State) : State := answeredOk v r r.index (leBytes (tySize r.ty) n) s u

/-- A write that is answered before it acts (R279): the state when it acts. -/
def answeredFirst (v : Via) (r : Reg) (n : Nat) (s : State) : State :=
  respond (viaClient v) (okResponse v r r.index (leBytes (tySize r.ty) n) 0) (unstaged v s)

/-- Running a number of steps; none at a fault or a refusal. -/
def runSteps : Nat → State → Option State
  | 0, s => some s
  | n + 1, s =>
    match step s with
    | .next t => runSteps n t
    | _ => none

/-- A run of n steps meets no fault and no refusal. -/
def RunsSafely (n : Nat) (s : State) : Prop := (runSteps n s).isSome

end Sys2Proof.Machine
end

