-- ==== Sys2Proof/Certificates/Slice0/Obligations.lean ====
section
/-!
DEFINITION. Certificates/Slice0/Obligations.lean: the statements about the module that are to be proved.
-/
set_option linter.unusedVariables false

open Sys2Proof Sys2Proof.Machine

/-! ### The queue, the clock and reset -/

/-- A step with a command at the front of the queue is exec of that command on the state with the queue's rest. -/
def Obligations.StepRunsTheFrontCommand : Prop :=
  ∀ (c : Instr) (rest : List Instr) (s : State), step { s with pending := c :: rest } = exec c { s with pending := rest }

/-- The Board y is x but for what a tick counts: its cycles, its programmable counters, the hold of its duty window, the mark of a wait that
has been counted, and the hold cycles of its beads. -/
def OnlyCounts (x y : Board) : Prop :=
  y = { x with cycles := y.cycles, counters := y.counters, dutyHold := y.dutyHold, beads := y.beads
               main := { x.main with semWait := y.main.semWait }, fill := { x.fill with semWait := y.fill.semWait } }
    ∧ y.beads.map (fun k => { k with held := 0 }) = x.beads.map (fun k => { k with held := 0 })

/-- No gather run, no mirror pass and no capture goes on with the next tick (log entries 25, 34). -/
def Quiet (s : State) : Prop := (∀ b, (s.board b).gruns = []) ∧ (∀ e ∈ s.doms, e.2.passes = []) ∧ s.snap.left = []

/-- All that a programmable counter that saturates changes outside the counters: it is a cause of vector 7, with its message, its reports, and
a NOTIFY frame that finds no place counted (R352, R272). -/
def SaturationOnly (s t : State) : Prop :=
  t.host = { s.host with irqCause := t.host.irqCause, msixPba := t.host.msixPba }
    ∧ (∀ v, v ≠ 7 → testBit t.host.irqCause.toNat v = testBit s.host.irqCause.toNat v
        ∧ testBit t.host.msixPba v = testBit s.host.msixPba v)
    ∧ t.can = { s.can with notify := t.can.notify }

/-- The record of a fault carries its code (Table 15-5), where the log has room and holds no record that it could repeat (R329). -/
def LogsCode (code : Nat) (s t : State) : Prop :=
  s.log.last = [] → s.log.ram.length < 256 → ∃ e ∈ t.log.ram, e.1 = s.log.nextSeq ∧ bitsOf e.2.toNat 415 400 = code

/-- On an empty queue one tick of the TB clock passes (the model's choice, log entry 2), after a change of the rails that can end has ended
(log entry 6). Without one that can end: in OFF nothing changes; in every other state the time since reset counts one nanosecond, and in
STANDBY nothing else changes. In the states in which TB runs TIME counts one nanosecond, or what the last rate gives in HOLDOVER (R219,
R309), and staging goes from ERASING to RECEIVING and, from host memory, to VERIFYING (log entry 44); without compute rails that is all.
With them, where no engine goes on with its work, each half's duty window goes on by its FCLK cycles, Boards change in their counts alone,
the statistics of holds and waits are the only registers that change, and a counter that saturates is a cause of vector 7, with its
message and its reports (R350 to R352); nothing else changes. -/
def Obligations.EmptyQueueTicks : Prop :=
  ∀ s : State, s.pending = [] →
    ∃ t, step s = .next t
      ∧ (∀ st, s.dev.moving = some st → s.dev.restarting.contains corePower = false → t = tick (moveTo st s))
      ∧ (s.dev.moving = none ∨ s.dev.restarting.contains corePower = true →
          (s.dev.state = .off → t = s)
          ∧ (s.dev.state ≠ .off → t.dev = { s.dev with up := s.dev.up + 1 })
          ∧ (s.dev.state = .standby → t = { s with dev := t.dev })
          ∧ (s.dev.state ≠ .off → s.dev.state ≠ .standby → s.powered = false ∨ Quiet s →
              (s.fab.tbState ≠ 3 → t.time = s.time + 1 ∧ t.fab = s.fab)
              ∧ (s.fab.tbState = 3 →
                  t.time = s.time + 1 + BitVec.ofInt 64 ((s.fab.tbFrac + s.fab.tbRate) / 1000000000000)
                    ∧ t.fab = { s.fab with tbFrac := (s.fab.tbFrac + s.fab.tbRate) % 1000000000000 })
              ∧ t.fw = (if s.dev.restarting.contains coreSecurity then s.fw
                  else if s.fw.stageState = 1 then { s.fw with stageState := 2 }
                  else if s.fw.stageState = 2 ∧ s.fw.stageSource = 0 then
                    { s.fw with stageState := 3, progress := s.rd .fwPackageBytes }
                  else s.fw)
              ∧ (s.powered = false → t = { s with time := t.time, fab := t.fab, dev := t.dev, fw := t.fw })
              ∧ (s.powered = true →
                  t = { s with time := t.time, fab := t.fab, dev := t.dev, fw := t.fw, pwr := t.pwr, boards := t.boards
                               host := t.host, can := t.can, regs := t.regs, out := t.out }
                  ∧ (∀ h < 2, (t.pwr.half h) = { (s.pwr.half h) with
                      dutyPos := ((s.pwr.half h).dutyPos + if (s.pwr.half h).down then 1 else 2) % 1024 })
                  ∧ t.pwr = { s.pwr with east := t.pwr.east, west := t.pwr.west }
                  ∧ (∀ b, OnlyCounts (s.board b) (t.board b))
                  ∧ SaturationOnly s t
                  ∧ (∀ key, key ≠ Reg.dutyHoldCycles.key 0 → key ≠ Reg.canIgnored.key 0 →
                      (∀ b < 16, key ≠ Reg.tallyHoldCycles.key b ∧ key ≠ Reg.streamHoldCycles.key b
                        ∧ key ≠ Reg.mainBlockedCycles.key b ∧ key ≠ Reg.swapWaitCycles.key b) →
                      t.regs.lookup key = s.regs.lookup key))))

/-- The bounds that every step keeps. A ring has 2^4 to 2^16 slots or is DISABLED without a record at its head, and its counts are 32-bit numbers. A
domain whose step opens or is open has made no offer; one that closes has offered, or its decision is there. No semaphore counts past 65,535, and
the places in a link lie within its buffers. A port has no more credits than a pool's size, and at most 384 flits in its replay buffer. -/
structure InBounds (s : State) : Prop where
  rings : ∀ d, let r := (s.dom d).ring
    (r.log2 = 0 ∨ (4 ≤ r.log2 ∧ r.log2 ≤ 16)) ∧ (r.log2 = 0 ↔ r.state = .disabled) ∧ (r.log2 = 0 → r.head = none)
      ∧ r.cons < 2 ^ 32 ∧ r.prodSeen < 2 ^ 32
  exchange : ∀ d, let x := s.dom d
    (x.phase = .opening ∨ x.phase = .open → x.exch.state = 0) ∧ (x.phase = .closing → x.exch.state = 1 ∨ x.exch.state = 2)
      ∧ (x.exch.state = 1 → x.exch.offer = 1 ∨ x.exch.offer = 2)
  sems : ∀ b i, (s.board b).sem i ≤ 65535 ∧ (s.board b).bsem i ≤ 65535
  links : ∀ b l, let k := (s.board b).link l
    k.bufCount < 64 ∧ k.fillPos < max 1 k.bufCount ∧ k.usePos < max 1 k.bufCount
  ports : ∀ p, (∀ k, (s.port p).credit k ≤ poolSize k) ∧ (s.port p).replay.length ≤ 384

/-- Right after reset every dictionary entry reads its default (R11: nothing is stored in flash), DEVICE_STATE is STANDBY and JOB_STATE
NONE, the mailbox is idle, every feed ring DISABLED, every port DISABLED, no cause is pending, no command waits, and both memories
and both mailbox buffers list nothing; the bounds that every step keeps hold. That they list nothing, and so read as zero, and that the ports are DISABLED are the model's choices
(log entries 3 and 6). -/
def Obligations.ResetState : Prop :=
  (∀ (r : Reg) (unit : Nat), State.reset.rd r unit = r.dflt)
    ∧ devCode State.reset.dev.state = 1 ∧ jobCode State.reset.dev.jobState = 0
    ∧ State.reset.host.mbState = .idle ∧ State.reset.host.mode = 0 ∧ State.reset.host.irqCause = 0#64
    ∧ (∀ d, (State.reset.dom d).ring.state = .disabled ∧ (State.reset.dom d).phase = .closed)
    ∧ (∀ p, (State.reset.port p).state = .disabled)
    ∧ State.reset.pending = [] ∧ State.reset.dram = [] ∧ State.reset.store = []
    ∧ State.reset.host.reqBuf = [] ∧ State.reset.host.rspBuf = [] ∧ State.reset.memWf = true
    ∧ InBounds State.reset

/-! ### Causes, mailbox and dictionary -/

/-- The detail bits of the domains of word k that a mask names are 0 in t; every other register, and all else, is as in s. -/
def DomainsCleared (k : Fin 4) (mask : W64) (s t : State) : Prop :=
  t = { s with regs := t.regs }
    ∧ (∀ d, t.rd .domainCauseBits d =
        if d / 64 = k.val ∧ testBit mask.toNat (d % 64) = true then 0 else s.rd .domainCauseBits d)
    ∧ (∀ key, (∀ d, d < 256 → key ≠ Reg.domainCauseBits.key d) → t.regs.lookup key = s.regs.lookup key)

/-- A vector is signalled between s and t: its message is sent, or it is pending where its mask bit is set (Table 11-2, R259). -/
def Signalled (v : Nat) (s t : State) : Prop :=
  if s.masked v then testBit t.host.msixPba v = true else Out.msix v ∈ t.out

/-- IRQ_CAUSE, written on BAR0 or on a dictionary path, loses the bits written as one, and nothing else changes but the answer. A word of
DOMAIN_CAUSE, written on either front, clears all detail bits of each domain whose bit is written as one; no other register changes.
The detail bits of one domain clear by ones through the dictionary; BAR0 has no such register, and a write of that form changes nothing. A
domain's bit reads as the OR of its detail bits (R263). -/
def Obligations.CausesClearByOnes : Prop :=
  (∀ (mask : W64) (s : State), pathServed s .mailbox = true →
      exec (.irqCauseClear .bar0 mask) s = .next { s with host := { s.host with irqCause := s.host.irqCause &&& ~~~mask } })
    ∧ (∀ (v : Via) (mask : W64) (s : State), AcceptedReg v .irqCause mask.toNat s →
      exec (.irqCauseClear (.dict v) mask) s = .next (answeredReg v .irqCause mask.toNat s
        { unstaged v s with host := { s.host with irqCause := s.host.irqCause &&& ~~~mask } }))
    ∧ (∀ (k : Fin 4) (mask : W64) (s : State), pathServed s .mailbox = true →
      ∃ t, exec (.domainCauseClear .bar0 (.domains k mask)) s = .next t ∧ DomainsCleared k mask s t)
    ∧ (∀ (v : Via) (k : Fin 4) (mask : W64) (s : State), AcceptedReg v (domainCauseReg k.val) mask.toNat s →
      ∃ u, exec (.domainCauseClear (.dict v) (.domains k mask)) s = .next (answeredReg v (domainCauseReg k.val) mask.toNat s u)
        ∧ DomainsCleared k mask (unstaged v s) u)
    ∧ (∀ (v : Via) (d : DomainNo) (m : Byte) (s : State), Accepted v .domainCauseBits (0x2400 + d.val) (leBytes 1 m.toNat) s →
      exec (.domainCauseClear (.dict v) (.details d m)) s =
        .next (answeredOk v .domainCauseBits (0x2400 + d.val) (leBytes 1 m.toNat) s
          ((unstaged v s).wr .domainCauseBits (andNot (s.rd .domainCauseBits d.val) m.toNat) d.val)))
    ∧ (∀ (d : DomainNo) (m : Byte) (s : State), exec (.domainCauseClear .bar0 (.details d m)) s = .next s)
    ∧ (∀ (s : State) (k i : Nat), i < 64 →
      testBit (s.domainCause k) i = (s.rd .domainCauseBits (64 * k + i) != 0))

/-- A write to MB_REQ (R249). While BUSY, a GO sets OVERLAP and leaves the request in progress as it is. Otherwise REQ_LEN is taken,
and a GO with a length of 0 or above 65,536 completes at once with STATE DONE and RSP_LEN 0; one of 1 to 15 completes with BAD_REQUEST
and 15 zero bytes; and one of 16 to 65,536 sets BUSY with the bytes of the request buffer. Completion sets cause 0 and signals vector 0
when IRQ_EN is set. -/
def Obligations.MailboxGo : Prop :=
  ∀ (v : W32) (s : State), pathServed s .mailbox = true →
    let n := bitsOf v.toNat 16 0
    let go := testBit v.toNat 31
    let done (bs : List Byte) : State :=
      let h := { s.host with reqLen := n, mbState := .done, rspLen := bs.length, rspBuf := Mem.write [] 0 bs }
      if s.host.irqEn then ({ s with host := { h with irqCause := s.host.irqCause ||| 1#64 } } : State).vector 0
      else { s with host := h }
    (s.host.mbState = .busy → go = true → exec (.mbGo v) s = .next { s with host := { s.host with overlap := true } })
      ∧ (s.host.mbState = .busy → go = false → exec (.mbGo v) s = .next { s with host := { s.host with reqLen := n } })
      ∧ (s.host.mbState ≠ .busy → go = false → exec (.mbGo v) s = .next { s with host := { s.host with reqLen := n } })
      ∧ (s.host.mbState ≠ .busy → go = true → n = 0 ∨ 65536 < n → exec (.mbGo v) s = .next (done []))
      ∧ (s.host.mbState ≠ .busy → go = true → 1 ≤ n → n ≤ 15 →
          exec (.mbGo v) s = .next (done (0x0D#8 :: List.replicate 15 0#8)))
      ∧ (s.host.mbState ≠ .busy → go = true → 16 ≤ n → n ≤ 65536 →
          exec (.mbGo v) s = .next { s with host := { s.host with
            reqLen := n, mbState := .busy, mbReq := s.host.reqBuf.read 0 n } })

/-- A request arrives from a client on a path that is served, is of the given operation, and can be served at once. -/
def Arrives (op : Nat) (src : ReqSource) (c : Client) (bs : List Byte) (r : Reg) (s : State) : Prop :=
  arrived src s = some (c, bs) ∧ pathServed s c.path = true ∧ unaddressed c s = false
    ∧ (parseReq bs).op = op ∧ (parseReq bs).rsv = 0 ∧ entryAt (parseReq bs).index (parseReq bs).sub = some r
    ∧ limited s (parseReq bs).index (parseReq bs).sub = false ∧ schedulerBusy s = false ∧ stagingBusy s c = false

/-- A WRITE of an entry of fixed size brings its whole value. -/
def WholeFixed (c : Client) (q : Req) (r : Reg) : Prop :=
  tySize r.ty ≠ 0 ∧ q.off = 0 ∧ q.count = tySize r.ty ∧ (writeData c q).length = q.count

/-- What a path has staged and the bytes that a WRITE of an STR or BLOB entry adds make the bytes `all` of a value of COUNT bytes: the
request starts a value, or continues the staged one. -/
def Segments (c : Client) (q : Req) (r : Reg) (s : State) (all : List Byte) : Prop :=
  tySize r.ty = 0 ∧ q.count ≤ r.maxLen ∧ all.length ≤ q.count
    ∧ ((q.off = 0 ∧ all = writeData c q)
      ∨ (q.off ≠ 0 ∧ ∃ g, stagedOf s c.path = some g ∧ continues g q = true ∧ all = g.bytes ++ writeData c q))

/-- A READ is answered with the bytes of the entry from OFFSET on: COUNT of them, or all that follow with COUNT 0, and no more than the
path carries; TOTAL is the length of the whole value; an OFFSET past the end is answered BAD_REQUEST (R266, Table 12-5). A WRITE whose value is whole
and passes the checks and the entry's rule is answered OK, with the effect of the rule; an entry without a rule of its own then holds the
value. A segment of an STR or BLOB value that is not yet whole is staged, and one that does not continue what is staged is answered
SEGMENT (R265); a WRITE of an entry of fixed size with an OFFSET beyond the value is answered BAD_REQUEST. INFO is answered with the entry's type, access, flags, length and default. 100 ms without a segment abandon what a path
had staged, and the other paths keep theirs. A register write on a dictionary path is served as that WRITE request; on a mailbox that is BUSY it sets OVERLAP (R249, R268). On BAR0 (R248) a word
of the request buffer or of the MSI-X table is stored, an offset without a writable register, a wrong size and an unaligned access write
nothing, and a read returns the word, or zero where it is unaligned or of a wrong size. Configuration space reads the vendor, device and
class codes and the DVSECs of Table 11-1 (their vendor ID from the CXL specification, log entry 49), takes the two BARs at their size, and the decoder reports one window of the base and size
committed (R244 to R246). -/
def Obligations.DictionaryRequestsServed : Prop :=
  (∀ (src : ReqSource) (c : Client) (bs : List Byte) (r : Reg) (s : State), Arrives 1 src c bs r s →
      let q := parseReq bs
      let u := unitOf s c.path r q.index
      let t := settleEntry r u (setStaged c.path none s)
      let value := entryBytes t c.path r u
      (q.off ≤ value.length →
        exec (.odRead src) s = .next (respond c (rspBytes stOk q (verOf t r (versionUnit t c.path r u)) value.length
          ((value.drop q.off).take (min (if q.count = 0 then value.length else q.count) (pathData c.path)))) t))
      ∧ (value.length < q.off → 
        exec (.odRead src) s = .next (respond c (rspBytes stBadRequest q (verOf t r (versionUnit t c.path r (unitOf t c.path r q.index)))
          (entryBytes t c.path r (unitOf t c.path r q.index)).length []) t)))
    ∧ (∀ (src : ReqSource) (c : Client) (bs : List Byte) (r : Reg) (s : State), Arrives 2 src c bs r s →
      let q := parseReq bs
      let u := unitOf s c.path r q.index
      let t := setStaged c.path none s
      (∀ all, WholeFixed c q r ∧ all = writeData c q ∨ Segments c q r s all ∧ all.length = q.count →
        writeStatus s c.path r u all = stOk → answersFirst r (leNat all) = false → (entryRule t c.path r u all t).1 = stOk →
        let x := (entryRule t c.path r u all t).2
        exec (.odWrite src) s = .next (respond c (rspBytes stOk q (verOf x r u) all.length []) x)
          ∧ (entryRule t c.path r u = keepRule r u → x = if tySize r.ty = 0 then t.wrBlob r all u else t.wr r (leNat all) u))
      ∧ (WholeFixed c q r → writeStatus s c.path r u (writeData c q) = stOk → answersFirst r (leNat (writeData c q)) = true →
        (entryRule t c.path r u (writeData c q) t).1 = stOk →
        exec (.odWrite src) s = .next (entryRule t c.path r u (writeData c q)
          (respond c (rspBytes stOk q 0 (writeData c q).length []) t)).2)
      ∧ (∀ all, Segments c q r s all → all.length < q.count →
        exec (.odWrite src) s = .next (respond c (rspBytes stOk q (verOf t r u) all.length [])
          (setStaged c.path (some { src := c.src, index := q.index, sub := q.sub, count := q.count, bytes := all }) t)))
      ∧ (tySize r.ty = 0 → q.off ≠ 0 → (∀ g, stagedOf s c.path = some g → continues g q = false) →
        exec (.odWrite src) s = .next (respond c (rspBytes stSegment q (verOf t r (versionUnit t c.path r u)) 0 []) t))
      ∧ (tySize r.ty ≠ 0 → r.acc ≠ 1 → tySize r.ty < q.off →
        exec (.odWrite src) s = .next (respond c (rspBytes stBadRequest q 0 0 []) t)))
    ∧ (∀ (src : ReqSource) (c : Client) (bs : List Byte) (r : Reg) (s : State), Arrives 3 src c bs r s →
      let q := parseReq bs
      let u := unitOf s c.path r q.index
      let t := setStaged c.path none s
      q.off = 0 → q.count = 0 →
      exec (.odInfo src) s = .next (respond c (rspBytes stOk q (verOf t r (versionUnit t c.path r u))
        (entryBytes t c.path r u).length (infoBytes t r u)) t))
    ∧ (∀ (p : Path) (s : State), ∃ t, exec (.stagingTimeout p) s = .next t ∧ stagedOf t p = none
      ∧ (∀ q, q ≠ p → stagedOf t q = stagedOf s q) ∧ t = { s with paths := t.paths } ∧ t.paths.waiting = s.paths.waiting)
    ∧ (∀ (v : Via) (index sub : Nat) (data : List Byte) (s : State), pathServed s v.path = true →
      (mailboxTaken s (viaClient v) = false → unaddressed (viaClient v) s = false →
        exec (.registerWrite (.dict v index sub data)) s = .next (serveRequest (viaClient v) (writeReqBytes index sub v.txn data) s))
      ∧ (v.path = .mailbox → s.host.mbState = .busy →
        exec (.registerWrite (.dict v index sub data)) s = .next { s with host := { s.host with overlap := true } }))
    ∧ (∀ (o v : Nat) (s : State), pathServed s .mailbox = true → o % 4 = 0 →
      (0x10000 ≤ o → o < 0x20000 → exec (.registerWrite (.bar0 o 4 v)) s =
        .next { s with host := { s.host with reqBuf := s.host.reqBuf.write (o - 0x10000) (leBytes 4 (v % 2 ^ 32)) } })
      ∧ (0x80000 ≤ o → o < 0x80400 → ∃ t, exec (.registerWrite (.bar0 o 4 v)) s = .next t
          ∧ tget t.host.msixTable ((o - 0x80000) / 4) 0 = v % 2 ^ 32
          ∧ (∀ i, i ≠ (o - 0x80000) / 4 → tget t.host.msixTable i 0 = tget s.host.msixTable i 0))
      ∧ ((8 ≤ o ∧ o < 0x80) ∨ (0xA0 ≤ o ∧ o < 0x1000) ∨ (0x1008 ≤ o ∧ o < 0x10000) ∨ (0x20000 ≤ o ∧ o < 0x30000)
          ∨ (0x34000 ≤ o ∧ o < 0x40000) ∨ (0x40400 ≤ o ∧ o < 0x50000) ∨ (0x50800 ≤ o ∧ o < 0x80000) ∨ 0x80400 ≤ o →
        exec (.registerWrite (.bar0 o 4 v)) s = .next s)
      ∧ (o < 0x40000 ∨ 0x40400 ≤ o →
        exec (.registerWrite (.bar0Read o 4)) s = .next (s.emit (.hostData (s.barWord o)))))
    ∧ (∀ (o n v : Nat) (s : State), pathServed s .mailbox = true → (n = 4 ∧ o % 4 ≠ 0) ∨ (n = 8 ∧ o % 8 ≠ 0) ∨ (n ≠ 4 ∧ n ≠ 8) →
      exec (.registerWrite (.bar0 o n v)) s = .next s
        ∧ exec (.registerWrite (.bar0Read o n)) s = .next (s.emit (.hostData 0)))
    ∧ (∀ (s : State), pathServed s .mailbox = true →
      exec (.registerWrite (.config .vendorId none)) s = .next (s.emit (.hostData s.ident.pciVendor))
        ∧ exec (.registerWrite (.config .deviceId none)) s = .next (s.emit (.hostData 0x0016))
        ∧ exec (.registerWrite (.config .classCode none)) s = .next (s.emit (.hostData 0x120000))
        ∧ (∀ id, exec (.registerWrite (.config (.dvsec id) none)) s = .next (s.emit (.hostDvsec id
          (if id = 0 ∨ id = 7 ∨ id = 8 then some 0x1E98 else none) (dvsec id))))
        ∧ (∀ v, exec (.registerWrite (.config .bar0 (some v))) s =
            .next { s with host := { s.host with bar0 := v / 2 ^ 20 * 2 ^ 20 } })
        ∧ (∀ v, exec (.registerWrite (.config .bar2 (some v))) s =
            .next { s with host := { s.host with bar2 := v / 2 ^ 16 * 2 ^ 16 } })
        ∧ exec (.registerWrite (.component .decoderCount none)) s = .next (s.emit (.hostData 1))
        ∧ exec (.registerWrite (.component .decoderBase none)) s = .next (s.emit (.hostData s.host.hdmBase))
        ∧ exec (.registerWrite (.component .decoderSize none)) s = .next (s.emit (.hostData s.host.hdmSize)))

/-- A refused write leaves every entry as it was and is reported as refused on the path that carried it (R10): a WRITE request whose
value fails a check is answered with that check's status, and apart from the answer and the path's staged value nothing changes; one
that the entry's own rule refuses is answered with the rule's status, and no entry and nothing that flash holds changes. -/
def Obligations.RefusedWriteChangesNothing : Prop :=
  ∀ (src : ReqSource) (c : Client) (bs : List Byte) (r : Reg) (s : State) (all : List Byte), Arrives 2 src c bs r s →
    let q := parseReq bs
    let u := unitOf s c.path r q.index
    let st := writeStatus s c.path r u all
    let t0 := setStaged c.path none s
    WholeFixed c q r ∧ all = writeData c q ∨ Segments c q r s all ∧ all.length = q.count →
    (st ≠ stOk →
      ∃ t, exec (.odWrite src) s = .next t
        ∧ t = respond c (rspBytes st q (verOf t0 r u) 0 []) t0
        ∧ (c.directed = none → t = { s with host := t.host, can := t.can, out := t.out, paths := t.paths })
        ∧ (∀ d, c.directed = some d → (s.port d.port).inService = true → d.port < 24 →
            t = { s with ports := t.ports, fab := t.fab, cnt := t.cnt, out := t.out, paths := t.paths }))
    ∧ (st = stOk → (entryRule t0 c.path r u all t0).1 ≠ stOk →
      ∃ t, exec (.odWrite src) s = .next t
        ∧ t = respond c (rspBytes (entryRule t0 c.path r u all t0).1 q (verOf (entryRule t0 c.path r u all t0).2 r u) 0 [])
            (entryRule t0 c.path r u all t0).2
        ∧ (c.directed = none → t = { s with host := t.host, can := t.can, out := t.out, paths := t.paths
                                            fresh := t.fresh, fw := t.fw, vers := t.vers, snap := t.snap }))

/-- A rule of an entry that refuses a value writes no register: whichever entry it is, a status other than OK leaves every register and
every stored value as it was (R10). The draw of a free value apart, only two entries leave a trace of a refusal: DEBUG_RESPONSE a new
challenge and a count (R303), and SNAP_CONTROL the reason in SNAP_ERROR (R339). -/
def Obligations.RefusingRuleWritesNoEntry : Prop :=
  ∀ (p : Path) (r : Reg) (unit : Nat) (bs : List Byte) (s : State),
    (entryRule s p r unit bs s).1 ≠ stOk →
    let t := (entryRule s p r unit bs s).2
    t = { s with fresh := t.fresh, fw := t.fw, vers := t.vers, snap := t.snap }
      ∧ (r.index ≠ 0x9010 → t.fw = s.fw ∧ t.vers = s.vers)
      ∧ (r.index ≠ 0x7000 → t.snap = s.snap)

/-! ### Faults -/

/-- Flash keeps all that it holds, but for the REPEATS of its fault records and LOG_DROPPED. -/
def FlashKept (s t : State) : Prop :=
  t.flash = { s.flash with log := t.flash.log, od := t.flash.od }
    ∧ t.flash.log.map (fun e => (e.1, setBits e.2.toNat 327 320 0)) = s.flash.log.map (fun e => (e.1, setBits e.2.toNat 327 320 0))
    ∧ ∀ key, key ≠ Reg.logDropped.key 0 → t.flash.od.lookup key = s.flash.od.lookup key

/-- A fault that is raised (R328, R329). One whose record is the work of a Board's control core waits, whole, while that core restarts
(R285). Any other sets IRQ_CAUSE bit 1 and the bits of the further vectors of its row of Table 15-4, signals vector 1, and sets at once the
detail bit that its row gives its domain. Without a record of the same code and unit in the last millisecond, and with room in the log, one
record is appended, with the next SEQ, and SEQ counts on; a repeat within a millisecond appends none; with 256 records in RAM a record is
dropped and counted, one of a retired unit excepted. Nothing changes but these causes, with what is pending of their vectors and the NOTIFY frames
that wait, the log in RAM and the REPEATS of a record in flash, LOG_DROPPED (which flash keeps), CAN_IGNORED, the detail bits of the fault's domain, and the
VERSION of log records. -/
def Obligations.RaisingAFault : Prop :=
  ∀ (f : Flt) (s : State),
    let t := s.raise f
    (s.recordWaits f = true →
      t = s.modBoard (f.board.getD 0) (fun x => { x with loadWaits := x.loadWaits ++ [.fault f] }))
    ∧ (s.recordWaits f = false →
      testBit t.host.irqCause.toNat 1 = true
      ∧ (∀ v ∈ alsoVectors f.code, testBit t.host.irqCause.toNat v = true)
      ∧ Signalled 1 s t
      ∧ (recentRecord s f = none → s.log.ram.length < 256 ∨ f.code = 0x0808 →
          t.log.ram = s.log.ram ++ [(s.log.nextSeq, faultRecord s f s.log.nextSeq)] ∧ t.log.nextSeq = s.log.nextSeq + 1)
      ∧ (∀ seq, recentRecord s f = some seq → t.log.ram.length = s.log.ram.length ∧ t.log.nextSeq = s.log.nextSeq)
      ∧ (recentRecord s f = none → 256 ≤ s.log.ram.length → f.code ≠ 0x0808 →
          t.log = s.log ∧ t.rd .logDropped = satAdd 32 (s.rd .logDropped) 1)
      ∧ t = { s with host := t.host, can := t.can, out := t.out, log := t.log, regs := t.regs, flash := t.flash, vers := t.vers }
      ∧ t.host = { s.host with irqCause := t.host.irqCause, msixPba := t.host.msixPba }
      ∧ (∀ v, v ≠ 1 → v ∉ alsoVectors f.code → testBit t.host.irqCause.toNat v = testBit s.host.irqCause.toNat v)
      ∧ t.can = { s.can with notify := t.can.notify }
      ∧ FlashKept s t ∧ (recentRecord s f = none → t.flash.log = s.flash.log)
      ∧ (∀ key, key ≠ Reg.logDropped.key 0 → key ≠ Reg.canIgnored.key 0 →
          (∀ d, f.domain = some d → key ≠ Reg.domainCauseBits.key d) → t.regs.lookup key = s.regs.lookup key)
      ∧ (∀ key, (∀ seq, key ≠ Reg.logRecord.key seq) → t.vers.lookup key = s.vers.lookup key)
      ∧ (∀ d b, domainBitOf f.code = some b → f.domain = some d → testBit (t.rd .domainCauseBits d) b = true))

/-! ### Feed rings -/

/-- RING_BASE and DB_LINE accept a write only while the domain has no open step and the ring is DISABLED or STOPPED. -/
def RingOpen (d : DomainNo) (s : State) : Prop :=
  (s.dom d.val).isOpen = false ∧ ((s.dom d.val).ring.state = .disabled ∨ (s.dom d.val).ring.state = .stopped)

/-- A ring or doorbell write that is ignored sets bit 0 of the domain's DOMAIN_CAUSE_BITS, with its vector. -/
def ringWriteIgnored (d : DomainNo) (s : State) : State :=
  (s.wr .domainCauseBits (orBit (s.rd .domainCauseBits d.val) 0) d.val).vector (16 + d.val % 48)

/-- Feed-ring registers (R250, R251). An accepted RING_BASE write takes BASE (bits 63:12) and LOG2_ENTRIES, clears PROD_SEEN and CONS, and
makes the ring DISABLED or ACTIVE; one with LOG2_ENTRIES 1 to 3 or 17 to 31, or outside its time, is ignored as a whole with cause bit 0.
DB_LINE keeps bits 63:6. A doorbell write is ignored with cause bit 0 while the doorbell line is in use; otherwise, like a reread of the
line while it is in use, it becomes PROD_SEEN of a ring that is ACTIVE or HELD when it is in range. Only the domain's ring changes. -/
def Obligations.RingRegisters : Prop :=
  (∀ (d : DomainNo) (v : W64) (s : State), pathServed s .mailbox = true →
      let lg := v.toNat % 32
      (RingOpen d s → lg = 0 ∨ (4 ≤ lg ∧ lg ≤ 16) →
        exec (.ringBaseWrite d v) s = .next (s.modDom d.val (fun x => { x with ring := { x.ring with
          base := v.toNat / 4096 * 4096, log2 := lg, prodSeen := 0, cons := 0
          state := if lg = 0 then .disabled else .active
          head := none, skipTag := none, reported := false } })))
      ∧ (¬ RingOpen d s ∨ (1 ≤ lg ∧ lg ≤ 3) ∨ 17 ≤ lg → exec (.ringBaseWrite d v) s = .next (ringWriteIgnored d s)))
    ∧ (∀ (d : DomainNo) (v : W64) (s : State), pathServed s .mailbox = true →
      (RingOpen d s → exec (.dbLineWrite d v) s =
          .next (s.modDom d.val (fun x => { x with ring := { x.ring with dbLine := v.toNat / 64 * 64 } })))
      ∧ (¬ RingOpen d s → exec (.dbLineWrite d v) s = .next (ringWriteIgnored d s)))
    ∧ (∀ (d : DomainNo) (n : W32) (s : State), pathServed s .mailbox = true → s.lineInUse d.val = true →
      exec (.feedDoorbell d n) s = .next (ringWriteIgnored d s))
    ∧ (∀ (d : DomainNo) (n : W32) (s : State),
      let r := (s.dom d.val).ring
      r.state = .active ∨ r.state = .held → (n.toNat + 2 ^ 32 - r.cons) % 2 ^ 32 ≤ 2 ^ r.log2 →
      let t := s.modDom d.val (fun x => { x with ring := { x.ring with prodSeen := n.toNat } })
      (pathServed s .mailbox = true → s.lineInUse d.val = false → exec (.feedDoorbell d n) s = .next t)
        ∧ (s.lineInUse d.val = true → exec (.doorbellLineInvalidation d n) s = .next t))

/-- A producer count more than the ring's slots ahead of CONS, or behind it, taken from a doorbell write or from the doorbell line, raises
RING_FAULT, stops the ring, and voids at once an open step whose offer has not been made; a step whose offer has been made goes on. No
count and no record moves a stopped ring on: nothing more is read from it (R252). The raised fault is a cause of vectors 1 and 4 and sets
detail bit 3 of the domain; the other domains' rings and steps stay as they are. -/
def Obligations.ProducerCountOutOfRange : Prop :=
  (∀ (d : DomainNo) (n : W32) (c : Instr) (s : State),
    (c = .feedDoorbell d n ∧ pathServed s .mailbox = true ∧ s.lineInUse d.val = false)
      ∨ (c = .doorbellLineInvalidation d n ∧ s.lineInUse d.val = true) →
    let x := s.dom d.val
    x.ring.state = .active ∨ x.ring.state = .held → 2 ^ x.ring.log2 < (n.toNat + 2 ^ 32 - x.ring.cons) % 2 ^ 32 →
    ∃ t, exec c s = .next t
      ∧ (t.dom d.val).ring.state = .stopped ∧ (t.dom d.val).ring.prodSeen = n.toNat
      ∧ testBit t.host.irqCause.toNat 1 = true ∧ testBit t.host.irqCause.toNat 4 = true
      ∧ testBit (t.rd .domainCauseBits d.val) 3 = true
      ∧ (x.busy = true → x.exch.state = 0 → (t.dom d.val).phase = .closing ∧ (t.dom d.val).exch.offer = 2)
      ∧ (x.busy = false ∨ x.exch.state ≠ 0 → (t.dom d.val).phase = x.phase ∧ (t.dom d.val).exch = x.exch)
      ∧ (∀ e, e ≠ d.val → (t.dom e).ring = (s.dom e).ring ∧ (t.dom e).phase = (s.dom e).phase))
    ∧ (∀ (d : DomainNo) (n : W32) (slot : List Byte) (s : State), (s.dom d.val).ring.state = .stopped →
      exec (.feedRecord d slot) s = .next s
        ∧ (∃ t, exec (.feedDoorbell d n) s = .next t ∧ (t.dom d.val).ring = (s.dom d.val).ring)
        ∧ exec (.doorbellLineInvalidation d n) s = .next s)

/-- The module reads the record at the head of a ring: the ring is ACTIVE or HELD, its producer count is ahead, no record waits at its head,
and the job runs. -/
def ReadsHead (d : DomainNo) (s : State) : Prop :=
  ((s.dom d.val).ring.state = .active ∨ (s.dom d.val).ring.state = .held)
    ∧ (s.dom d.val).ring.prodSeen ≠ (s.dom d.val).ring.cons ∧ (s.dom d.val).ring.head = none
    ∧ s.dev.jobState = .running ∧ (s.dom d.val).used = true ∧ (s.dom d.val).barrierDone = true ∧ schedulerBusy s = false

/-- The record passes the first row of Table 11-7: the expected SEQ, no reserved bit, a payload, and an address that suits its KIND. -/
def WellFormedRecord (d : DomainNo) (r : BitVec 512) (s : State) : Prop :=
  recSeq r = (s.dom d.val).ring.cons ∧ recReserved r = false ∧ recPayloadBytes r ≠ 0
    ∧ (recKind r = 0 → recPayloadAddr r % 64 = 0)
    ∧ (recKind r ≠ 0 → ∃ e, s.regionAt (recPayloadAddr r) = some e ∧ rKind e.2 = 7
        ∧ recPayloadAddr r + recPayloadBytes r ≤ rBase e.2 + rSize e.2)

/-- CONS counts the record, LAST_STATUS takes its STATUS, which is written into its slot, and nothing else of the domain changes. -/
def DisposedOf (d : DomainNo) (status : Nat) (s t : State) : Prop :=
  let r := (s.dom d.val).ring
  (t.dom d.val).ring = { r with
      cons := (r.cons + 1) % 2 ^ 32, lastStatus := status, head := none, reported := false, state := .active
      skipTag := (t.dom d.val).ring.skipTag }
    ∧ Out.hostWrite r.slotAddr (leBytes 4 status) ∈ t.out

/-- The decisions at the head of a ring, in the order of Table 11-7 (R254, R86, R24): a bad record is refused with 0x04 and RECORD_FORMAT;
a record of the tag just voided is skipped with 0x03; one whose tag is not above COMMITTED_TAG is refused with 0x04 and voids nothing;
one of another tag than that of an open step that is full, or whose offer has been made, is held; one of another tag than that of a short
open step voids that step and is held; one of a full open step's own tag is refused with 0x04, and one of its own tag after the offer is
held; one with a bad LEN is refused with 0x02 and its step voided at once; any other waits at the head for its reservation. -/
def Obligations.DecisionsAtTheHead : Prop :=
  ∀ (d : DomainNo) (slot : List Byte) (s : State), ReadsHead d s →
    let r := recOf slot
    let x := s.dom d.val
    let badLen := recLen r = 0 ∨ recLenMax r < recLen r ∨ x.lenLimit < recLenMax r
    let held := s.modDom d.val (fun y => { y with ring := { y.ring with state := .held, skipTag := none } })
    ∃ t, exec (.feedRecord d slot) s = .next t
      ∧ (¬ WellFormedRecord d r s →
          DisposedOf d 4 s t ∧ testBit t.host.irqCause.toNat 4 = true
            ∧ (x.busy = true → x.openTag = recTag r → x.exch.state = 0 → (t.dom d.val).exch.offer = 2)
            ∧ (x.busy = false → (t.dom d.val).phase = x.phase))
      ∧ (WellFormedRecord d r s →
          (x.ring.skipTag = some (recTag r) → DisposedOf d 3 s t ∧ (t.dom d.val).phase = x.phase)
          ∧ (x.ring.skipTag ≠ some (recTag r) →
              (recTag r ≤ x.committedTag →
                DisposedOf d 4 s t ∧ (t.dom d.val).phase = x.phase ∧ (t.dom d.val).exch = x.exch)
              ∧ (x.committedTag < recTag r → x.busy = true → recTag r ≠ x.openTag →
                  x.mbPerStep ≤ x.mbs.length ∨ x.exch.state ≠ 0 → t = held)
              ∧ (x.committedTag < recTag r → x.busy = true → recTag r ≠ x.openTag → x.mbs.length < x.mbPerStep → x.exch.state = 0 →
                (t.dom d.val).ring.state = .held ∧ (t.dom d.val).ring.cons = x.ring.cons
                  ∧ (t.dom d.val).phase = .closing ∧ (t.dom d.val).exch.offer = 2 ∧ testBit t.host.irqCause.toNat 1 = true)
              ∧ (x.committedTag < recTag r → x.busy = true → recTag r = x.openTag → x.mbPerStep ≤ x.mbs.length →
                DisposedOf d 4 s t ∧ (t.dom d.val).phase = x.phase ∧ (t.dom d.val).exch = x.exch)
              ∧ (x.committedTag < recTag r → x.busy = true → recTag r = x.openTag → x.mbs.length < x.mbPerStep → x.exch.state ≠ 0 →
                t = held)
              ∧ (x.committedTag < recTag r → (x.busy = true → recTag r = x.openTag ∧ x.mbs.length < x.mbPerStep ∧ x.exch.state = 0) →
                badLen → x.busy = true ∨ s.mayOpen d.val = true →
                DisposedOf d 2 s t ∧ (t.dom d.val).openTag = recTag r ∧ (t.dom d.val).exch.offer = 2
                  ∧ (t.dom d.val).phase = .closing ∧ (t.dom d.val).ring.skipTag = some (recTag r))
              ∧ (x.committedTag < recTag r → (x.busy = true → recTag r = x.openTag ∧ x.mbs.length < x.mbPerStep ∧ x.exch.state = 0) →
                ¬ badLen →
                t = s.modDom d.val (fun y => { y with ring := { y.ring with
                  head := some r, waitSince := s.time, reported := false, state := .active, skipTag := none } }))))

/-- Admission (R84, R85, R9, R168). The record that waits at the head is admitted once its reservation fits on every Board: its index is
its position in the step, CONS counts it, and in a step whose opening is complete STATUS 0x01 with the index is written at once; in an
opening step it is not. If no
step is open the first admission opens the step of the record's tag: the domain is OPENING with one micro-batch of index 0, every stack
receives OPEN of the tag, no STATUS is written, and the step takes FROZEN and STRICT as they are (R191). When every stack has applied OPEN, the step counts as open and the held-back STATUS
words are written. A reservation that has waited is reported once as STASH_DENIED and the wait goes on (R89). -/
def Obligations.AdmissionOfAMicroBatch : Prop :=
  (∀ (d : DomainNo) (r : BitVec 512) (res : List (Nat × Nat × Nat)) (s : State),
      let x := s.dom d.val
      x.ring.head = some r → schedulerBusy s = false → s.reservation d.val (recLenMax r) = some res →
      (x.phase = .open → x.exch.state = 0 →
        exec (.microBatchAdmit d) s = .next
          ((s.emit (.hostWrite x.ring.slotAddr (leBytes 4 (1 + x.mbs.length <<< 16)))).modDom d.val (fun y => { y with
            ring := { y.ring with
              cons := (x.ring.cons + 1) % 2 ^ 32, lastStatus := 1, head := none, reported := false, state := .active }
            mbs := y.mbs ++ [{
              index := x.mbs.length, len := recLen r, record := r, slotAddr := x.ring.slotAddr
              reserved := res, held := res.map (fun e => (e.1, e.2.1, e.2.1 + e.2.2)), statusWritten := true }] })))
      ∧ (x.phase = .opening → x.exch.state = 0 →
        exec (.microBatchAdmit d) s = .next
          (s.modDom d.val (fun y => { y with
            ring := { y.ring with
              cons := (x.ring.cons + 1) % 2 ^ 32, lastStatus := 1, head := none, reported := false, state := .active }
            mbs := y.mbs ++ [{
              index := x.mbs.length, len := recLen r, record := r, slotAddr := x.ring.slotAddr
              reserved := res, held := res.map (fun e => (e.1, e.2.1, e.2.1 + e.2.2)), statusWritten := false }] })))
      ∧ (x.phase = .closed → s.mayOpen d.val = true →
        ∃ t, exec (.microBatchAdmit d) s = .next t
          ∧ (t.dom d.val).phase = .opening ∧ (t.dom d.val).openTag = recTag r ∧ t.out = s.out
          ∧ (t.dom d.val).mbs.map (fun m => (m.index, m.record, m.reserved, m.statusWritten)) = [(0, r, res, false)]
          ∧ (t.dom d.val).ring.cons = (x.ring.cons + 1) % 2 ^ 32
          ∧ (t.dom d.val).strict = (s.rd .strict d.val == 1)
          ∧ (∀ g, g ∈ (t.dom d.val).frozen ↔
              ∃ e, (g, e) ∈ s.job.pgroups ∧ pgUsed e = true ∧ pgDomain e = d.val ∧ pgFrozen e = true)
          ∧ (∀ k, s.stackOk k = true → (t.stack k).inbox = (s.stack k).inbox ++ [.openStep d.val (recTag r)])
          ∧ (∀ e, e ≠ d.val → t.dom e = s.dom e)))
    ∧ (∀ (d : DomainNo) (s : State),
      let x := s.dom d.val
      x.phase = .opening → (∀ k, s.stackOk k = true → (s.dreg k d.val).isOpen = true ∧ (s.dreg k d.val).openTag = x.openTag) →
      ∃ t, exec (.openingComplete d) s = .next t
        ∧ (t.dom d.val).phase = .open ∧ (∀ m ∈ (t.dom d.val).mbs, m.statusWritten = true)
        ∧ (∀ m ∈ x.mbs, m.statusWritten = false → Out.hostWrite m.slotAddr (leBytes 4 (1 + m.index <<< 16)) ∈ t.out)
        ∧ t = { s with doms := t.doms, out := t.out } ∧ (∀ e, e ≠ d.val → t.dom e = s.dom e))
    ∧ (∀ (d : DomainNo) (r : BitVec 512) (s : State),
      let x := s.dom d.val
      x.ring.head = some r → x.ring.reported = false → s.reservation d.val (recLenMax r) = none →
      ∃ t, exec (.admitWatchdog d) s = .next t
        ∧ t.rd .stashDeniedCount d.val = satAdd 32 (s.rd .stashDeniedCount d.val) 1
        ∧ testBit t.host.irqCause.toNat 1 = true ∧ testBit t.host.irqCause.toNat 4 = true
        ∧ t.dom d.val = { x with ring := { x.ring with reported := true } }
        ∧ exec (.admitWatchdog d) t = .next t)

/-! ### The window and the host link -/

/-- A window access is performed: CXL.mem decodes it, Memory_Active is 1, the entry is VALID, and the DPA lies in a SNAPSHOT or FEED region. -/
def Performed (offset dpa : Nat) (s : State) : Prop :=
  s.inWindow offset = true ∧ s.host.memActive = true
    ∧ testBit (tget s.host.windowMap (offset / 2 ^ 30) 0#64).toNat 63 = true
    ∧ dpa = (tget s.host.windowMap (offset / 2 ^ 30) 0#64).toNat % 2 ^ 25 * 65536 + offset % 2 ^ 30
    ∧ ∃ e, s.regionAt dpa = some e ∧ (rKind e.2 = 6 ∨ rKind e.2 = 7)

/-- The HDM window (R257, R258). A window-map write keeps VALID and DPA_BASE. A performed read returns the line at
DPA_BASE × 64 KiB + (o mod 1 GiB), counting a single-bit error as corrected, and a performed write stores it there and nowhere else; a read
of a stack whose channels are tested waits, and is answered with nothing yet (log entry 35). An access
that is not performed reads 64 bytes of zero or is dropped, completes normally, and logs WINDOW_FAULT. An uncorrectable line reads as zeros and
raises UE_MEM. An offset that the module does not decode changes nothing. A decoder commit takes a size that is a multiple of 256 MiB up
to 256 GiB, with one interleave way, and any other changes nothing (R246). -/
def Obligations.WindowAccess : Prop :=
  (∀ (i : Fin 256) (v : W64) (s : State), pathServed s .mailbox = true →
      exec (.windowMapWrite i v) s = .next { s with host := { s.host with
        windowMap := tset s.host.windowMap i.val (v &&& 0x8000000001FFFFFF#64) } })
    ∧ (∀ (o dpa : Nat) (s : State), o % 64 = 0 → Performed o dpa s →
      (s.underTest (stackOf dpa) = false → s.badLine dpa 64 = none →
        ∃ t, exec (.hdmRead o) s = .next t ∧ t.out = .hdmData (s.dram.read dpa 64) :: s.out
          ∧ t = { s with out := t.out, cnt := t.cnt, regs := t.regs, stks := t.stks }
          ∧ ((s.stack (stackOf dpa)).soft.contains (dpa / 64) = false → t = { s with out := t.out, cnt := t.cnt })
          ∧ ((s.stack (stackOf dpa)).soft.filter (· == dpa / 64) = [dpa / 64] →
              t.rd .eccCorrected (stackOf dpa) = satAdd 64 (s.rd .eccCorrected (stackOf dpa)) 1))
      ∧ (s.underTest (stackOf dpa) = true →
        ∃ t, exec (.hdmRead o) s = .next t ∧ t = { s with stks := t.stks }
          ∧ t.stack (stackOf dpa) = { s.stack (stackOf dpa) with reads := (t.stack (stackOf dpa)).reads }
          ∧ (t.stack (stackOf dpa)).reads.map (fun h => (h.who, h.dpa, h.lines)) =
              (s.stack (stackOf dpa)).reads.map (fun h => (h.who, h.dpa, h.lines)) ++ [(.window o, dpa, 1)])
      ∧ (s.underTest (stackOf dpa) = false → (s.badLine dpa 64).isSome = true →
        ∃ t, exec (.hdmRead o) s = .next t ∧ t.out.head? = some (.hdmData (List.replicate 64 0#8))
          ∧ testBit t.host.irqCause.toNat 2 = true ∧ t.dram = s.dram ∧ t.doms = s.doms))
    ∧ (∀ (o dpa : Nat) (line : List Byte) (s : State), o % 64 = 0 → line.length = 64 → Performed o dpa s →
      ∃ t, exec (.hdmWrite o line) s = .next t ∧ t.out = .hdmDone :: s.out
        ∧ t.dram.read dpa 64 = line
        ∧ (∀ a, a < dpa ∨ dpa + 64 ≤ a → t.dram.get a = s.dram.get a)
        ∧ t = { s with out := t.out, cnt := t.cnt, dram := t.dram, stks := t.stks })
    ∧ (∀ (o : Nat) (line : List Byte) (s : State), o % 64 = 0 → s.inWindow o = true → (¬ ∃ dpa, Performed o dpa s) →
      (∃ t, exec (.hdmRead o) s = .next t ∧ t.out.head? = some (.hdmData (List.replicate 64 0#8))
        ∧ t.rd .windowFaults = satAdd 32 (s.rd .windowFaults) 1 ∧ testBit t.host.irqCause.toNat 2 = true ∧ t.dram = s.dram)
      ∧ (∃ t, exec (.hdmWrite o line) s = .next t ∧ t.out.head? = some .hdmDone
        ∧ t.rd .windowFaults = satAdd 32 (s.rd .windowFaults) 1 ∧ testBit t.host.irqCause.toNat 2 = true ∧ t.dram = s.dram))
    ∧ (∀ (o : Nat) (line : List Byte) (s : State), o % 64 = 0 → s.inWindow o = false →
      exec (.hdmRead o) s = .next s ∧ exec (.hdmWrite o line) s = .next s)
    ∧ (∀ (base size : Nat) (s : State),
      (s.host.mode = 2 ∧ s.host.hdmWays = 1 ∧ size % 2 ^ 28 = 0 ∧ 0 < size ∧ size ≤ 2 ^ 38 →
        exec (.hdmDecoderCommit base size) s = .next { s with host := { s.host with hdmBase := base, hdmSize := size } })
      ∧ (¬ (s.host.mode = 2 ∧ s.host.hdmWays = 1 ∧ size % 2 ^ 28 = 0 ∧ 0 < size ∧ size ≤ 2 ^ 38) →
        exec (.hdmDecoderCommit base size) s = .next s))

/-- The scope of a function-level reset (Table 11-11): the mailbox is idle and keeps no request, the MSI-X tables, the BARs, the read size,
the 10-bit tags and ATS return to their defaults, every ring is cleared and no STATUS is written, and a running job is aborted with the
committed tags, the step records, the tables and both memories unchanged. -/
def FunctionScope (s t : State) : Prop :=
  t.host.mbState = .idle ∧ t.host.mbReq = [] ∧ (∀ w ∈ t.paths.waiting, w.path ≠ .mailbox)
    ∧ t.host.msixTable = [] ∧ t.host.msixPba = 0 ∧ t.host.bar0 = 0 ∧ t.host.bar2 = 0 ∧ t.host.maxRead = 512
    ∧ t.host.tag10 = false ∧ t.host.ats = false ∧ (∀ d, (t.dom d).ring = {})
    ∧ (∀ a bs, Out.hostWrite a bs ∈ t.out → Out.hostWrite a bs ∈ s.out)
    ∧ (s.dev.jobState = .running → t.dev.jobState = .loaded ∧ t.dev.state = .ready)
    ∧ (s.dev.jobState ≠ .running → t.dev = s.dev ∧ t.boards = s.boards)
    ∧ t.dram = s.dram ∧ t.store = s.store ∧ t.job = s.job ∧ t.ports = s.ports
    ∧ (∀ d, (t.dom d).committedTag = (s.dom d).committedTag ∧ (t.dom d).armed = (s.dom d).armed)

/-- What a hot reset and PERST# clear besides (Table 11-11): the CXL controls, the decoder with its ways, the window map and the sticky
status; the link is down. -/
def LinkCleared (t : State) : Prop :=
  t.host.windowMap = [] ∧ t.host.hdmBase = 0 ∧ t.host.hdmSize = 0 ∧ t.host.hdmWays = 1 ∧ t.host.mode = 0 ∧ t.host.inL0 = false
    ∧ t.host.memEn = false ∧ t.host.cacheEn = false ∧ t.host.aerStatus = 0 ∧ t.host.rasStatus = 0

/-- The module has come up: READY with Memory_Active set and the enabled ports in training (R287, Table 13-4). -/
def CameUp (s t : State) : Prop :=
  t.dev.state = .ready ∧ t.host.memActive = true
    ∧ ∀ p, p < 24 → (t.port p).state = if s.rd .portEnable p = 1 then .training else .disabled

/-- Function-level reset, hot reset and PERST# (R261, Table 11-11), and the link (R244, R260). The read size of 512 bytes and the unmasked
MSI-X table that a function-level reset leaves are the model's choices (log entry 49). A hot reset and PERST# also clear the CXL
controls, the decoder, the window map and the sticky status, and the link is down until it trains again; a function-level reset leaves them.
While the CXL controller is not powered, the two resets change nothing, and PERST# takes the link down. A link that trains takes its mode, width
and rate, with CXL.cache and CXL.mem on only in CXL mode, and an entry into READY that has waited for it goes on (Table 17-4; log entry 6);
one that cannot train, or a width or rate that the link does not have, changes nothing; a link that goes down reads as no link. -/
def Obligations.FunctionResetsAndLink : Prop :=
  (∀ s : State, s.hostUp = true →
      (∃ t, exec .functionLevelReset s = .next t ∧ FunctionScope s t
        ∧ t.host.windowMap = s.host.windowMap ∧ t.host.hdmBase = s.host.hdmBase ∧ t.host.hdmSize = s.host.hdmSize
        ∧ t.host.hdmWays = s.host.hdmWays ∧ t.host.mode = s.host.mode ∧ t.host.inL0 = s.host.inL0
        ∧ t.host.memEn = s.host.memEn ∧ t.host.cacheEn = s.host.cacheEn
        ∧ t.host.aerStatus = s.host.aerStatus ∧ t.host.rasStatus = s.host.rasStatus)
      ∧ (∃ t, exec .hotReset s = .next t ∧ FunctionScope s t ∧ LinkCleared t)
      ∧ (∃ t, exec .perstAssert s = .next t ∧ FunctionScope { s with dev := { s.dev with perst := true } } t ∧ LinkCleared t
        ∧ t.dev.perst = true))
    ∧ (∀ s : State, s.hostUp = false →
      exec .functionLevelReset s = .next s ∧ exec .hotReset s = .next s
        ∧ exec .perstAssert s = .next { s with
            dev := { s.dev with perst := true }, host := { s.host with mode := 0, width := 0, rate := 0, inL0 := false } })
    ∧ (∀ (refclk : Bool) (s : State),
      exec (.perstDeassert refclk) s = .next { s with dev := { s.dev with perst := false, refclk := refclk } })
    ∧ (∀ (cxl : Bool) (width rate : Nat) (cache mem : Bool) (s : State),
      (s.linkTrains = true → width ∈ [4, 8, 16] → rate ∈ [8, 16, 32] →
          s.dev.moving ≠ some .ready ∨ s.dev.state ≠ .service ∨ s.dev.restarting.contains corePower = true →
        exec (.cxlLinkUp cxl width rate cache mem) s = .next { s with host := { s.host with
          mode := if cxl then 2 else 1, width := width, rate := rate, inL0 := true
          cacheEn := cxl && cache, memEn := cxl && mem } })
      ∧ (s.linkTrains = true → width ∈ [4, 8, 16] → rate ∈ [8, 16, 32] →
          s.dev.moving = some .ready → s.dev.state = .service → s.dev.restarting.contains corePower = false →
        ∃ t, exec (.cxlLinkUp cxl width rate cache mem) s = .next t ∧ t.dev.moving = none
          ∧ t.host.mode = (if cxl then 2 else 1) ∧ t.host.width = width ∧ t.host.rate = rate ∧ t.host.inL0 = true
          ∧ t.host.cacheEn = (cxl && cache) ∧ t.host.memEn = (cxl && mem)
          ∧ (s.pairLeft = true → (s.flash.slot s.fw.active).imageOk 4 = true → CameUp s t))
      ∧ (s.linkTrains = false ∨ width ∉ [4, 8, 16] ∨ rate ∉ [8, 16, 32] →
        exec (.cxlLinkUp cxl width rate cache mem) s = .next s))
    ∧ (∀ s : State, exec .cxlLinkDown s =
      .next { s with host := { s.host with mode := 0, width := 0, rate := 0, inL0 := false } })

/-! ### Job control -/

/-- A write was answered and changed nothing else: the answer went out on its path, and what the path had staged is dropped. -/
def AnswerOnly (v : Via) (s t : State) : Prop := ∃ bs, t = respond (viaClient v) bs (unstaged v s)

/-- LOAD and the end of the image read (R280, R281). LOAD sets LOADING in READY without a job, or with one whose load failed, and is
refused elsewhere. The read ends in LOADED or FAILED: in LOADED for an image of the stated length whose header, CRC and directory
are in order, that has every section the job needs, and whose every section passes its rules. FAILED leaves nothing of the image in force. In LOADED the version records of every
stack in service are cleared, each domain's COMMITTED_TAG is its INIT_TAG, and no domain of the job is LOST. A read error, a wrong length and
a bad header fail with reasons 1, 1 and 2; an end of the read outside LOADING changes nothing. -/
def Obligations.JobLoad : Prop :=
  (∀ (v : Via) (s : State), AcceptedReg v .jobControl 1 s → s.dev.state = .ready → s.dev.moving = none →
      s.dev.jobState = .none ∨ s.dev.jobState = .failed →
      exec (.load v) s = .next (answeredReg v .jobControl 1 s { unstaged v s with
        job := { s.job with loadAt := s.time, loadError := 0, barriers := [] }
        dev := { s.dev with jobState := .loading } }))
    ∧ (∀ (v : Via) (s : State), AcceptedReg v .jobControl 1 s →
      ¬ (s.dev.state = .ready ∧ s.dev.moving = none ∧ (s.dev.jobState = .none ∨ s.dev.jobState = .failed)) →
      ∃ t, exec (.load v) s = .next t ∧ AnswerOnly v s t)
    ∧ (∀ (rd : ImageRead) (s : State), s.dev.jobState = .loading →
      ∃ t, exec (.jobLoadDone rd) s = .next t
        ∧ (t.dev.jobState = .loaded ∨ t.dev.jobState = .failed)
        ∧ (t.dev.jobState = .failed → t.job.loadError ≠ 0 ∧ t = { s with
            job := { s.job with loadError := t.job.loadError, loadTime := t.job.loadTime }
            dev := { s.dev with jobState := .failed } })
        ∧ (t.dev.jobState = .loaded → t.job.loadError = 0
            ∧ (∀ k, s.stackOk k = true → (t.stack k).vt = [] ∧ (t.stack k).vtBad = [])
            ∧ (∀ d, (t.dom d).used = true → (t.dom d).committedTag = (t.dom d).initTag ∧ (t.dom d).lost = false)
            ∧ t.flash = s.flash ∧ t.dev = { s.dev with jobState := .loaded }))
    ∧ (∀ (bs : List Byte) (xs : List SectionData) (s : State), s.dev.jobState = .loading →
      (∃ t, exec (.jobLoadDone .error) s = .next t ∧ t.job.loadError = 1)
      ∧ (bs.length ≠ s.rd .jobImageBytes → ∃ t, exec (.jobLoadDone (.image bs xs)) s = .next t ∧ t.job.loadError = 1)
      ∧ (bs.length = s.rd .jobImageBytes → leAt bs 0 4 ≠ 0x494A5450 →
          ∃ t, exec (.jobLoadDone (.image bs xs)) s = .next t ∧ t.job.loadError = 2))
    ∧ (∀ (bs : List Byte) (xs : List SectionData) (s : State), s.dev.jobState = .loading →
      let ds := (List.range (leAt bs 6 2)).map (dirEntry bs)
      let secs := (ds.zip xs).map (fun p => sectionFrom bs p.1 p.2)
      bs.length = s.rd .jobImageBytes → headerOk bs.length bs = true → (crc64 (bs.drop 32)).toNat = leAt bs 24 8 →
      xs.length = ds.length →
      (dirFail s bs.length ds = none → missingType s ds = 0 →
          (∀ p ∈ ds.zip secs, sectionOk (withImage ds secs s) p.1 p.2 = true) →
        ∃ t, exec (.jobLoadDone (.image bs xs)) s = .next t ∧ t.dev.jobState = .loaded ∧ t.job.id = leAt bs 16 8
          ∧ t.job.digest = digest bs)
      ∧ (∀ f, dirFail s bs.length ds = some f →
        ∃ t, exec (.jobLoadDone (.image bs xs)) s = .next t ∧ t.dev.jobState = .failed ∧ t.job.loadError = f.1 * 65536 + f.2)
      ∧ (dirFail s bs.length ds = none → missingType s ds ≠ 0 →
        ∃ t, exec (.jobLoadDone (.image bs xs)) s = .next t ∧ t.dev.jobState = .failed
          ∧ t.job.loadError = missingType s ds * 65536 + 8)
      ∧ (dirFail s bs.length ds = none → missingType s ds = 0 →
          (∃ p ∈ ds.zip secs, sectionOk (withImage ds secs s) p.1 p.2 = false) →
        ∃ t, exec (.jobLoadDone (.image bs xs)) s = .next t ∧ t.dev.jobState = .failed ∧ t.job.loadError % 65536 = 7))
    ∧ (∀ (rd : ImageRead) (s : State), s.dev.jobState ≠ .loading → exec (.jobLoadDone rd) s = .next s)

/-- The first bank of a Board fails the checks of R131. -/
def firstBankBad (s : State) (b : Nat) : Bool :=
  match firstBankOf s b with
  | some (ws, _) => (checkBank s b (bankOfWords ws) none).isSome
  | none => false

/-- START, ABORT and UNLOAD (R280). START takes JOB_SEED. Where the first bank of every Board in service passes the checks of R131,
each is loaded and made active, the Boards that carry a domain of the job wake, and the job enters RUNNING; where that of some Board does
not, each refusal is counted, the job is aborted, and the Boards sleep. ABORT of a load sets NONE. ABORT of a running
job stops the streams, empties the inactive banks, marks every feed record between CONS and PROD_SEEN discarded in its slot, voids the open
steps, and sets LOADED and READY, with committed tags, tables, step records and both memories unchanged. UNLOAD clears every table loaded from the image, ends the update commands that stacks still have, and sets NONE. Each is refused in
the states in which it is not accepted, and a refusal changes nothing but the answer. -/
def Obligations.JobControl : Prop :=
  (∀ (v : Via) (s : State), AcceptedReg v .jobControl 2 s → s.dev.state = .ready → s.dev.moving = none → s.dev.jobState = .loaded →
      ∃ u, exec (.start v) s = .next (answeredReg v .jobControl 2 s u)
        ∧ u.job.seed = BitVec.ofNat 64 (s.rd .jobSeed)
        ∧ ((∀ b, s.boardOk b = true → firstBankBad s b = false) →
            u.dev.jobState = .running ∧ u.dev.state = .running
            ∧ (∀ b, s.boardOk b = true → u.rd .loadRefusals b = s.rd .loadRefusals b)
            ∧ (∀ b ws pos, s.boardOk b = true → firstBankOf s b = some (ws, pos) →
                (u.board b).started = s.carries b ∧ (u.board b).active = 0 ∧ (u.board b).asleep = !s.carries b
                ∧ (u.board b).bank0 = (ws.zipIdx.map (fun (w, i) => (i, w))).filter (fun e => e.2 != 0#32)
                ∧ (u.board b).main.stopped = false ∧ (u.board b).fill.stopped = false))
        ∧ ((∃ b, s.boardOk b = true ∧ firstBankBad s b = true) →
            u.dev.jobState = .loaded ∧ u.dev.state = .ready ∧ (∀ b, s.boardOk b = true → (u.board b).asleep = true)
            ∧ ∀ b, s.boardOk b = true → u.rd .loadRefusals b =
                if firstBankBad s b then satAdd 32 (s.rd .loadRefusals b) 1 else s.rd .loadRefusals b))
    ∧ (∀ (v : Via) (s : State), AcceptedReg v .jobControl 3 s → s.dev.jobState = .loading →
      exec (.abort v) s = .next (answeredReg v .jobControl 3 s
        { unstaged v s with dev := { s.dev with jobState := .none } }))
    ∧ (∀ (v : Via) (s : State), AcceptedReg v .jobControl 3 s → s.dev.jobState = .running →
      ∃ u, exec (.abort v) s = .next (answeredReg v .jobControl 3 s u)
        ∧ u.dev.jobState = .loaded ∧ u.dev.state = .ready
        ∧ (∀ b, s.boardOk b = true → (u.board b).started = false ∧ (u.board b).main.stopped = true ∧ (u.board b).fill.stopped = true
            ∧ (u.board b).inactState = 0 ∧ (u.board b).asleep = true)
        ∧ (∀ d, (u.dom d).ring.cons = (s.dom d).ring.prodSeen)
        ∧ (∀ d ∈ s.doms.map (·.1), let r := (s.dom d).ring
            ∀ i, i < (r.prodSeen + 2 ^ 32 - r.cons) % 2 ^ 32 → i < 65536 →
              Out.hostWrite (r.base + 64 * (((r.cons + i) % 2 ^ 32) % 2 ^ r.log2)) (leBytes 4 5) ∈ u.out)
        ∧ (∀ d, d ∈ s.usedDoms → (s.dom d).busy = true → (s.dom d).exch.state ≠ 2 →
            (u.dom d).exch.offer = 2 ∧ (∀ k, s.stackOk k = true → HubMsg.void d (s.dom d).openTag ∈ (u.stack k).inbox))
        ∧ (∀ d, (u.dom d).committedTag = (s.dom d).committedTag ∧ (u.dom d).armed = (s.dom d).armed)
        ∧ u.dram = s.dram ∧ u.store = s.store ∧ u.job = s.job)
    ∧ (∀ (v : Via) (s : State), AcceptedReg v .jobControl 4 s → s.dev.jobState = .loaded ∨ s.dev.jobState = .failed →
      ∃ u, exec (.unload v) s = .next (answeredReg v .jobControl 4 s u)
        ∧ u.dev = { s.dev with jobState := .none } ∧ u.job = { loadTime := s.job.loadTime }
        ∧ (∀ d, (u.dom d).used = false ∧ (u.dom d).mbs = [] ∧ (u.dom d).armed = none)
        ∧ (∀ b, (u.board b).links = [] ∧ (u.board b).bufs = [] ∧ (u.board b).bank0 = [] ∧ (u.board b).stash = [])
        ∧ (∀ k, (u.stack k).runs = [] ∧ (u.stack k).vt = [] ∧ (u.stack k).inq = [] ∧ (u.stack k).queue = [] ∧ (u.stack k).park = [])
        ∧ u.dram = s.dram ∧ u.store = s.store ∧ FlashKept s u)
    ∧ (∀ (v : Via) (s : State),
      (AcceptedReg v .jobControl 2 s → ¬ (s.dev.state = .ready ∧ s.dev.moving = none ∧ s.dev.jobState = .loaded) →
        ∃ t, exec (.start v) s = .next t ∧ AnswerOnly v s t)
      ∧ (AcceptedReg v .jobControl 3 s → s.dev.jobState ≠ .loading → s.dev.jobState ≠ .running →
        ∃ t, exec (.abort v) s = .next t ∧ AnswerOnly v s t)
      ∧ (AcceptedReg v .jobControl 4 s → s.dev.jobState ≠ .loaded → s.dev.jobState ≠ .failed →
        ∃ t, exec (.unload v) s = .next t ∧ AnswerOnly v s t))

/-! ### Device states -/

/-- What a reset of the module and the way to STANDBY leave (R11, R290): every persistent entry holds the value stored in flash, and every
other entry its default; flash keeps its retirements and the stored values; the job, the Boards, the stacks and both memories are gone; and
the measurement log, the identity key and a debug unlock are lost. -/
def ResetScope (s t : State) : Prop :=
  t.regs = s.flash.od ∧ t.ident = s.ident
    ∧ t.flash.retiredBoards = s.flash.retiredBoards ∧ t.flash.retiredFrames = s.flash.retiredFrames
    ∧ t.flash.retiredStacks = s.flash.retiredStacks ∧ t.flash.retiredLanes = s.flash.retiredLanes
    ∧ t.flash.bootPref = s.flash.bootPref ∧ t.flash.od = s.flash.od
    ∧ t.job = {} ∧ t.boards = [] ∧ t.stks = [] ∧ t.doms = [] ∧ t.ports = [] ∧ t.dram = [] ∧ t.store = []
    ∧ t.fw.meas = [] ∧ t.fw.keyReady = false ∧ t.fw.debugState = 0 ∧ t.dev.jobState = .none
    ∧ t.log.nextSeq = s.log.nextSeq

/-- Boards, stacks and ports are without power: nothing of what they held or worked on is left (Table 13-4). -/
def WithoutPower (t : State) : Prop :=
  t.host.memActive = false ∧ t.stks = [] ∧ t.ports = [] ∧ t.dram = [] ∧ t.store = []
    ∧ ∀ e ∈ t.boards, e.2.asleep = true ∧ e.2.links = [] ∧ e.2.bufs = [] ∧ e.2.bank0 = [] ∧ e.2.bank1 = [] ∧ e.2.storeBad = []

/-- STATE_REQUEST and RESET_REQUEST (R287, R290, R327). Out of READY, and while the power-management core restarts, an accepted request
begins a change of the rails, which is under way until it ends: at a step of an empty queue (the model's choice, log entry 6). Value 1 leads
from SERVICE or READY to STANDBY after its answer, with PGOOD deasserted; 2 from READY to SERVICE, with an UNLOAD, Memory_Active
cleared and Boards, stacks and ports without power, the time of the last LOAD apart, from SAFE with SAFE_CAUSE 0 to SERVICE, and in STANDBY, while PWR_EN is asserted, it
starts the boot; 3 leads from SERVICE to READY, with Memory_Active set, the enabled ports in training, and the stacks whose
initialisation failed due their test (Table 15-2), or logs READY_FAIL and stays; that it also stays where the type-4 image fails its check is
the model's choice (log entry 5).
A warm and a cold reset, refused while a job runs, answer first, and then reset the module and start its boot; a cold one with
PGOOD deasserted. A request that the table does not accept is refused and changes nothing but the answer. -/
def Obligations.DeviceStates : Prop :=
  (∀ (v : Via) (s : State), AcceptedReg v .stateRequest 1 s → s.dev.moving = none → s.dev.state = .service ∨ s.dev.state = .ready →
      s.dev.jobState ≠ .running → s.dev.jobState ≠ .loading →
      let a := answeredFirst v .stateRequest 1 s
      (s.dev.state = .ready ∨ s.dev.restarting.contains corePower = true →
        exec (.stateRequestStandby v) s = .next { a with dev := { a.dev with moving := some .standby } })
      ∧ (s.dev.state = .service → s.dev.restarting.contains corePower = false →
        ∃ t, exec (.stateRequestStandby v) s = .next t ∧ t.dev.state = .standby ∧ t.dev.pgood = false ∧ ResetScope a t
          ∧ a.out <:+ t.out))
    ∧ (∀ (v : Via) (s : State), AcceptedReg v .stateRequest 2 s → s.dev.moving = none →
      (s.dev.state = .ready → s.dev.jobState ≠ .loading →
        exec (.stateRequestService v) s = .next (answeredReg v .stateRequest 2 s
          { unstaged v s with dev := { s.dev with moving := some .service } }))
      ∧ (s.dev.state = .safe → s.dev.safeCause = 0 →
        ∃ u, exec (.stateRequestService v) s = .next (answeredReg v .stateRequest 2 s u)
          ∧ u.dev.state = .service ∧ testBit u.fw.inhibitOn 2 = false ∧ u.flash = s.flash)
      ∧ (s.dev.state = .standby → s.dev.pwrEn = true → s.dev.booting = false →
        exec (.stateRequestService v) s = .next (answeredReg v .stateRequest 2 s
          { unstaged v s with dev := { s.dev with
            pgood := true, booting := true, bootFailed := false
            bootAt := s.dev.up, bootServiceMs := 0, bootReadyMs := 0 } })))
    ∧ (∀ (v : Via) (s : State), AcceptedReg v .stateRequest 3 s → s.dev.moving = none → s.dev.state = .service →
      (s.dev.restarting.contains corePower = true →
        exec (.stateRequestReady v) s = .next (answeredReg v .stateRequest 3 s
          { unstaged v s with dev := { s.dev with moving := some .ready } }))
      ∧ (s.dev.restarting.contains corePower = false →
        ∃ u, exec (.stateRequestReady v) s = .next (answeredReg v .stateRequest 3 s u)
          ∧ (s.readySet = true → (s.flash.slot s.fw.active).imageOk 4 = true →
              CameUp s u ∧ testBit u.host.irqCause.toNat 3 = true
              ∧ (∀ b, b < 16 → u.board b = { s.board b with asleep := true })
              ∧ (∀ k ∈ s.dev.initFails, s.stackOk k = true → (u.stack k).testDue = true)
              ∧ (s.dev.bootReadyMs = 0 → u.dev.bootReadyMs = (s.dev.up - s.dev.bootAt) / 1000000) ∧ u.log = s.log)
          ∧ (s.readySet = false → testBit u.host.irqCause.toNat 3 = true)
          ∧ (s.readySet = false ∨ (s.flash.slot s.fw.active).imageOk 4 = false →
              u.dev.state = .service ∧ testBit u.host.irqCause.toNat 1 = true ∧ u.boards = s.boards ∧ u.ports = s.ports)))
    ∧ (∀ s : State, s.pending = [] → s.dev.restarting.contains corePower = false →
      (s.dev.moving = some .standby →
        ∃ t, step s = .next t ∧ t.dev.state = .standby ∧ t.dev.pgood = false ∧ t.dev.moving = none ∧ ResetScope s t)
      ∧ (s.dev.moving = some .service → s.dev.state = .ready →
        ∃ t, step s = .next t ∧ t.dev.state = .service ∧ t.dev.moving = none ∧ WithoutPower t
          ∧ (s.dev.jobState = .loaded ∨ s.dev.jobState = .failed →
              t.dev.jobState = .none ∧ t.job = { loadTime := s.job.loadTime })
          ∧ testBit t.host.irqCause.toNat 3 = true)
      ∧ (s.dev.moving = some .ready → s.dev.state = .service → s.readySet = true → (s.flash.slot s.fw.active).imageOk 4 = true →
        ∃ t, step s = .next t ∧ t.dev.moving = none ∧ CameUp s t))
    ∧ (∀ (v : Via) (s : State), s.dev.jobState ≠ .running →
      (AcceptedReg v .resetRequest 1 s →
        let a := answeredFirst v .resetRequest 1 s
        ∃ t, exec (.warmReset v) s = .next t ∧ t.dev.state = .standby ∧ t.dev.booting = true ∧ t.dev.pgood = true ∧ t.dev.lastReset = 1
          ∧ ResetScope a t ∧ a.out <:+ t.out)
      ∧ (AcceptedReg v .resetRequest 2 s →
        let a := answeredFirst v .resetRequest 2 s
        ∃ t, exec (.coldReset v) s = .next t ∧ t.dev.state = .standby ∧ t.dev.booting = true ∧ t.dev.pgood = false ∧ t.dev.lastReset = 2
          ∧ ResetScope a t ∧ a.out <:+ t.out))
    ∧ (∀ (v : Via) (s : State),
      (AcceptedReg v .stateRequest 1 s → s.dev.moving ≠ none ∨ ¬ (s.dev.state = .service ∨ s.dev.state = .ready)
          ∨ s.dev.jobState = .running ∨ s.dev.jobState = .loading →
        ∃ t, exec (.stateRequestStandby v) s = .next t ∧ AnswerOnly v s t)
      ∧ (AcceptedReg v .stateRequest 2 s → s.dev.moving ≠ none ∨ (s.dev.state = .ready ∧ s.dev.jobState = .loading)
          ∨ s.dev.state = .service ∨ s.dev.state = .running ∨ s.dev.state = .halted ∨ (s.dev.state = .safe ∧ s.dev.safeCause ≠ 0)
          ∨ (s.dev.state = .standby ∧ (s.dev.pwrEn = false ∨ s.dev.booting = true)) →
        ∃ t, exec (.stateRequestService v) s = .next t ∧ AnswerOnly v s t)
      ∧ (AcceptedReg v .stateRequest 3 s → s.dev.moving ≠ none ∨ s.dev.state ≠ .service →
        ∃ t, exec (.stateRequestReady v) s = .next t ∧ AnswerOnly v s t)
      ∧ (AcceptedReg v .resetRequest 1 s → s.dev.jobState = .running → ∃ t, exec (.warmReset v) s = .next t ∧ AnswerOnly v s t)
      ∧ (AcceptedReg v .resetRequest 2 s → s.dev.jobState = .running → ∃ t, exec (.coldReset v) s = .next t ∧ AnswerOnly v s t))

/-! ### Dictionary writes with an effect of their own -/

/-- The word that a write puts at subindex `sub` of a rule slot breaks R181: a non-finite coefficient, a nonzero reserved word, a negative
CLIP, a mode word with a reserved bit or code, or a change of INPUT, USES_S1 or USES_S2 (bits 5:3) in a slot that a group names. -/
def RuleWordRefused (slot : Fin 256) (sub : Nat) (w : W32) (s : State) : Prop :=
  (sub ≤ 12 ∧ isFin32 w = false) ∨ (13 ≤ sub ∧ sub ≤ 16 ∧ w ≠ 0#32)
    ∨ (sub = 9 ∧ (decFp32 w).lt (.fin false 0 0) = true)
    ∨ (sub = 17 ∧ (64 ≤ w.toNat ∨ w.toNat % 4 = 3))
    ∨ (sub = 17 ∧ s.slotNamed slot.val = true ∧ (w.toNat / 8) % 8 ≠ (((s.slotWords slot.val).getD 16 0#32).toNat / 8) % 8)

/-- CW_CLEAR, written as 1, clears the total counters and CW_STICKY of its domain and nothing else; written as 0 it clears nothing (R54). A
rule-slot write between steps puts its word at its subindex, and one that breaks R181 is refused and changes nothing but the answer; a
subindex that a rule slot does not have is no write. -/
def Obligations.CarryWatchAndRuleSlots : Prop :=
  (∀ (v : Via) (d : DomainNo) (s : State), Accepted v .cwClear (0x2400 + d.val) (leBytes 1 1) s →
      exec (.cwClear v d 1#8) s = .next (answeredOk v .cwClear (0x2400 + d.val) (leBytes 1 1) s
        ((unstaged v s).modDom d.val (fun x => { x with
          watch := { x.watch with totOvf := 0, totInf := 0, totNan := 0, sticky := 0 } }))))
    ∧ (∀ (v : Via) (d : DomainNo) (s : State), Accepted v .cwClear (0x2400 + d.val) (leBytes 1 0) s →
      exec (.cwClear v d 0#8) s = .next (answeredOk v .cwClear (0x2400 + d.val) (leBytes 1 0) s (unstaged v s)))
    ∧ (∀ (v : Via) (slot : Fin 256) (sub : Nat) (w : W32) (s : State), sub = 0 ∨ 17 < sub →
      exec (.ruleSlotWrite v slot sub w) s = .next s)
    ∧ (∀ (v : Via) (slot : Fin 256) (sub : Nat) (w : W32) (s : State), 1 ≤ sub → sub ≤ 17 →
      Accepted v (ruleReg sub) (0x2300 + slot.val) (leBytes 4 w.toNat) s →
      (¬ RuleWordRefused slot sub w s →
        exec (.ruleSlotWrite v slot sub w) s = .next (answeredOk v (ruleReg sub) (0x2300 + slot.val) (leBytes 4 w.toNat) s
          { unstaged v s with job := { s.job with
            rules := tset s.job.rules slot.val ((s.slotWords slot.val).set (sub - 1) w) } }))
      ∧ (RuleWordRefused slot sub w s → ∃ t, exec (.ruleSlotWrite v slot sub w) s = .next t ∧ AnswerOnly v s t))

/-- Groups and barriers (R222, R223, R239, R210). A GROUP_ENTRY of 24 bytes with a new EPOCH within the limits becomes the selected group's
entry, clears that group's failed targets and ends what was kept of its messages, its waiting requests with GROUP_EPOCH (R223); one with the old EPOCH, beyond the limits or of another length is refused. A MEMBER_ADDR within
the limits of every group that lists it becomes the selected entry; one that breaks them, or that names a module before this one has
its device number, is refused. BARRIER_START on a group of kind MODULES that the module belongs to starts barrier n + 1 after the nth: the
module has arrived, and while a child port has not, nothing is sent; at the root, once all have arrived, the barrier is released. On
another group it is refused. FABRIC_DEVICE takes the device number, and every port in service sends its link parameters with it. -/
def Obligations.GroupsAndBarriers : Prop :=
  (∀ (v : Via) (data : List Byte) (s : State), Accepted v .groupEntry 0x4040 data s →
      let g := s.rd .groupSel (pathNo v.path)
      let e := BitVec.ofNat 192 (leNat data)
      let w := { unstaged v s with job := { s.job with groups := tset s.job.groups g e } }
      (data.length = 24 → gEpoch e ≠ gEpoch (s.grp g) → groupOk w g e = true →
        ∃ u, exec (.groupEntry v data) s = .next (answeredOk v .groupEntry 0x4040 data s u)
          ∧ u.grp g = e ∧ (∀ t, (g, t) ∉ u.job.failed) ∧ (∀ h, h ≠ g → u.grp h = s.grp h)
          ∧ (∀ h t, h ≠ g → (h, t) ∈ s.job.failed → (h, t) ∈ u.job.failed)
          ∧ (∀ b, u.board b = { s.board b with rdv := (u.board b).rdv, rdvWait := (u.board b).rdvWait })
          ∧ (∀ b, s.boardOk b = true →
              (u.board b).rdv = (s.board b).rdv.filter (fun r => r.group != g || r.sent)
              ∧ (u.board b).rdvWait = (s.board b).rdvWait.filter (fun p => (hdrOf p.payload).group != g))
          ∧ u.fab.voteWait = s.fab.voteWait.filter (fun w => (hdrOf w.2.payload).group != g)
          ∧ u = { unstaged v s with
            fab := u.fab, vers := u.vers, job := { s.job with groups := u.job.groups, failed := u.job.failed }
            boards := u.boards, ports := u.ports, cnt := u.cnt, out := u.out, regs := u.regs, flash := u.flash, log := u.log
            host := u.host, can := u.can }
          ∧ ((∀ b, s.boardOk b = true → (∀ r ∈ (s.board b).rdv, r.group = g → r.sent = true)
                ∧ ∀ p ∈ (s.board b).rdvWait, (hdrOf p.payload).group ≠ g) →
              (∀ w ∈ s.fab.voteWait, (hdrOf w.2.payload).group ≠ g) →
              u = { unstaged v s with fab := u.fab, vers := u.vers, job := u.job, boards := u.boards }))
      ∧ (data.length ≠ 24 ∨ gEpoch e = gEpoch (s.grp g) ∨ groupOk w g e = false →
        ∃ t, exec (.groupEntry v data) s = .next t ∧ AnswerOnly v s t))
    ∧ (∀ (v : Via) (a : W16) (s : State), AcceptedReg v .memberAddr a.toNat s →
      let m := s.rd .memberSel (pathNo v.path)
      let u := { unstaged v s with job := { s.job with members := tset s.job.members m a.toNat } }
      let within := ∀ g ∈ s.job.groups,
        gKind g.2 = 0 ∨ gMembers g.2 ≤ (m + 65536 - gBase g.2) % 65536 ∨ groupOk u g.1 g.2 = true
      (s.device ≠ 0xFFFF ∨ a.toNat = 0xFFFF → within → exec (.memberAddr v a) s = .next (answeredReg v .memberAddr a.toNat s u))
      ∧ (s.device = 0xFFFF ∧ a.toNat ≠ 0xFFFF ∨ ¬ within → ∃ t, exec (.memberAddr v a) s = .next t ∧ AnswerOnly v s t))
    ∧ (∀ (v : Via) (g : W16) (s : State), AcceptedReg v .barrierStart g.toNat s →
      let e := s.grp g.toNat
      (gKind e ≠ 5 ∨ isMember s e = false → ∃ t, exec (.barrierStart v g) s = .next t ∧ AnswerOnly v s t)
      ∧ (gKind e = 5 → isMember s e = true →
        let n := tget s.job.barriers g.toNat 0 % 65535 + 1
        ∃ u, exec (.barrierStart v g) s = .next (answeredReg v .barrierStart g.toNat s u)
          ∧ tget u.job.barriers g.toNat 0 = n
          ∧ ((∃ p ∈ gChildren e, s.arrived g.toNat n p = false) →
              u.arrived g.toNat n 24 = true ∧ u.out = s.out ∧ u.ports = s.ports)
          ∧ ((∀ p ∈ gChildren e, s.arrived g.toNat n p = true) → gUpPort e = 24 →
              ∀ p, u.arrived g.toNat n p = false)))
    ∧ (∀ (v : Via) (n : W16) (s : State), AcceptedReg v .fabricDevice n.toNat s →
      ∃ u, exec (.fabricDevice v n) s = .next (answeredReg v .fabricDevice n.toNat s u)
        ∧ u = { (unstaged v s).wr .fabricDevice n.toNat with out := u.out } ∧ u.device = n.toNat
        ∧ ∀ p, p < 24 → (s.port p).inService = true →
            ∃ k cr, Out.linkParams p k cr ∈ u.out ∧ k.device = n.toNat ∧ k.port = p ∧ k.lanes = goodLanes s p)

/-- PORT_ENABLE, PORT_RESTORE, NODE_ID and HALF_CLOCK (R199, R202, R273, R310; how a lane rejoins is the model's reading, log entry 26). In the powered states, writing 0 to PORT_ENABLE ends the
port's traffic and disables it; writing 1 lets a disabled port train, with the lanes that failed still out, and changes only the register of another; without power it
changes only the register. PORT_RESTORE, written as 1, brings the transiently failed lanes of a port in service, or of one that is DOWN, back
with a further retrain at the widest width of the lanes that are not retired and good at the peer; a port without such a width, one that is not in service and a
write of 0 stay as they are. NODE_ID is answered under the old node ID and then taken, and stored while NODE_ID_PERSIST is 1. HALF_CLOCK
sets what the host wants for each half, and a half is clocked down while anything holds it down. -/
def Obligations.PortNodeAndClockWrites : Prop :=
  (∀ (v : Via) (s : State),
      let p := s.rd .portSel (pathNo v.path)
      -- the widest width of the lanes that are not retired here and are good at the peer
      let w := widthOf (lanesGood s p &&& (s.port p).peerLanes)
      (s.powered = true → AcceptedReg v .portEnable 0 s →
        ∃ u, exec (.portEnable v 0#8) s = .next (answeredReg v .portEnable 0 s u)
          ∧ (u.port p).state = .disabled ∧ (u.port p).queue = [] ∧ (u.port p).replay = [] ∧ u.rd .portEnable p = 0
          ∧ (∀ h ∈ u.fab.holds, h.port ≠ p) ∧ u.boards = s.boards ∧ u.doms = s.doms)
      ∧ (s.powered = true → AcceptedReg v .portEnable 1 s → (s.port p).state = .disabled →
        exec (.portEnable v 1#8) s = .next (answeredReg v .portEnable 1 s
          (((unstaged v s).wr .portEnable 1 p).modPort p (fun x => { x with state := .training }))))
      ∧ (AcceptedReg v .portEnable 1 s → s.powered = false ∨ (s.port p).state ≠ .disabled →
        exec (.portEnable v 1#8) s = .next (answeredReg v .portEnable 1 s ((unstaged v s).wr .portEnable 1 p)))
      ∧ (AcceptedReg v .portEnable 0 s → s.powered = false →
        exec (.portEnable v 0#8) s = .next (answeredReg v .portEnable 0 s ((unstaged v s).wr .portEnable 0 p)))
      ∧ (AcceptedReg v .portRestore 1 s → (s.port p).inService = true → w ≠ 0 →
        exec (.portRestore v 1#8) s = .next (answeredReg v .portRestore 1 s
          ((unstaged v s).setPort p { s.port p with
            failed := 0, state := .retrain, width := w })))
      ∧ (AcceptedReg v .portRestore 1 s → (s.port p).state = .down → w ≠ 0 →
        ∃ u, exec (.portRestore v 1#8) s = .next (answeredReg v .portRestore 1 s u)
          ∧ u.port p = { s.port p with failed := 0, state := .retrain, width := w }
          ∧ p ∈ u.fab.switching ∧ u = { unstaged v s with ports := u.ports, fab := { s.fab with switching := u.fab.switching } })
      ∧ (AcceptedReg v .portRestore 1 s → (s.port p).state = .down → w = 0 →
        exec (.portRestore v 1#8) s = .next (answeredReg v .portRestore 1 s
          ((unstaged v s).setPort p { s.port p with failed := 0 })))
      ∧ (AcceptedReg v .portRestore 1 s → (s.port p).inService = false → (s.port p).state ≠ .down →
        exec (.portRestore v 1#8) s = .next (answeredReg v .portRestore 1 s (unstaged v s)))
      ∧ (AcceptedReg v .portRestore 0 s →
        exec (.portRestore v 0#8) s = .next (answeredReg v .portRestore 0 s (unstaged v s))))
    ∧ (∀ (v : Via) (n : Byte) (s : State), AcceptedReg v .nodeId n.toNat s →
      let a := answeredFirst v .nodeId n.toNat s
      exec (.nodeIdWrite v n) s = .next { a with
        can := { a.can with nodeId := n.toNat }
        flash := if s.rd .nodeIdPersist = 1 then { a.flash with nodeId := n.toNat } else a.flash })
    ∧ (∀ (v : Via) (m : Byte) (s : State), AcceptedReg v .halfClock m.toNat s →
      ∃ u, exec (.halfClock v m) s = .next (answeredReg v .halfClock m.toNat s u)
        ∧ u.rd .halfClock = m.toNat
        ∧ u.pwr.east = { s.pwr.east with wantHost := testBit m.toNat 0, down := u.pwr.east.wantsDown }
        ∧ u.pwr.west = { s.pwr.west with wantHost := testBit m.toNat 1, down := u.pwr.west.wantsDown }
        ∧ u = { unstaged v s with regs := u.regs, flash := u.flash, pwr := u.pwr })

/-! ### The field bus -/

/-- CLEAR_IDS, OFFER and the chain (R271, R273). CLEAR_IDS clears NODE_ID where it is not persisted; with byte 1 bit 0 it clears a persisted
ID too, from flash and NODE_ID_PERSIST. An eligible module takes an OFFER of 1 to 127, sets NODE_ID, stores it with PERSIST or while
NODE_ID_PERSIST is 1, and sends ASSIGN_ACK; a module that is not eligible, and every other byte 0, is passed over. A frame of another length
is counted in CAN_IGNORED. A controller that is off or bus-off hears nothing. CHAIN_IN never changes NODE_ID, and CHAIN_OUT is asserted
exactly while CHAIN_IN is and NODE_ID is not 0. -/
def Obligations.NodeIdAssignment : Prop :=
  (∀ (frame : List Byte) (s : State), canActive s = true → frame.length = 8 → byteAt frame 0 = 1 →
      (testBit (byteAt frame 1) 0 = false → s.rd .nodeIdPersist ≠ 1 →
        exec (.clearIds frame) s = .next { s with can := { s.can with nodeId := 0 } })
      ∧ (testBit (byteAt frame 1) 0 = false → s.rd .nodeIdPersist = 1 → exec (.clearIds frame) s = .next s)
      ∧ (testBit (byteAt frame 1) 0 = true →
        ∃ t, exec (.clearIds frame) s = .next t ∧ t.can.nodeId = 0 ∧ t.flash.nodeId = 0 ∧ t.rd .nodeIdPersist = 0
          ∧ t = { s with can := t.can, flash := t.flash, regs := t.regs }))
    ∧ (∀ (frame : List Byte) (us : Nat) (s : State), canActive s = true → frame.length = 8 → byteAt frame 0 = 1 →
      let id := byteAt frame 1
      let keep := testBit (byteAt frame 2) 0 = true ∨ s.rd .nodeIdPersist = 1
      let ack (k : Nat) : Out := .canFrame (0x080 + id) (leBytes 1 0x81 ++ leBytes 1 id ++ leBytes 1 k ++ leBytes 1 0
        ++ padTo 16 s.ident.serial ++ leBytes 2 s.device ++ leBytes 2 0)
      (s.can.nodeId = 0 → s.can.chainIn = true → 1000 ≤ us → 1 ≤ id → id ≤ 127 →
        (keep → ∃ t, exec (.offer frame us) s = .next t ∧ t.can = { s.can with nodeId := id } ∧ t.out = ack 1 :: s.out
          ∧ t.flash.nodeId = id ∧ t.rd .nodeIdPersist = 1
          ∧ t = { s with can := t.can, out := t.out, flash := t.flash, regs := t.regs })
        ∧ (¬ keep → exec (.offer frame us) s = .next { s with can := { s.can with nodeId := id }, out := ack 0 :: s.out }))
      ∧ (s.can.nodeId ≠ 0 ∨ s.can.chainIn = false ∨ us < 1000 ∨ id = 0 ∨ 127 < id → exec (.offer frame us) s = .next s))
    ∧ (∀ (frame : List Byte) (us : Nat) (s : State), canActive s = true → frame.length ≠ 8 →
      exec (.clearIds frame) s = .next (s.bump .canIgnored) ∧ exec (.offer frame us) s = .next (s.bump .canIgnored))
    ∧ (∀ (frame : List Byte) (us : Nat) (s : State), canActive s = false ∨ (frame.length = 8 ∧ byteAt frame 0 ≠ 1) →
      exec (.clearIds frame) s = .next s ∧ exec (.offer frame us) s = .next s)
    ∧ (∀ (level : Bool) (s : State),
      exec (.chainInChange level) s = .next { s with can := { s.can with chainIn := level, chainSince := s.time } })
    ∧ (∀ s : State, s.dev.state ≠ .off → (s.chainOut = true ↔ s.can.chainIn = true ∧ s.can.nodeId ≠ 0))

/-- The field bus under way (R271, R272, R274, R275). A frame under the module's own node ID raises ID_CONFLICT, sets NODE_ID to 0 and clears
the persisted ID. HEARTBEAT carries DEVICE_STATE, the flags, the device number and the uptime; none is sent without a node ID, with period 0
or off the bus. A transmit error count above 255 makes the controller bus-off, and either count above 127 makes it error-passive; it recovers
with its counts at 0, counts the bus-off, and sends what it holds in order. A frame with another identifier is counted. -/
def Obligations.FieldBusUnderWay : Prop :=
  (∀ (id : Nat) (s : State), canActive s = true → s.can.nodeId ≠ 0 →
      id ∈ [0x080 + s.can.nodeId, 0x100 + s.can.nodeId, 0x200 + s.can.nodeId, 0x280 + s.can.nodeId] →
      ∃ t, exec (.idConflict id) s = .next t ∧ t.can.nodeId = 0 ∧ t.flash.nodeId = 0 ∧ t.rd .nodeIdPersist = 0 ∧ t.chainOut = false
        ∧ testBit t.host.irqCause.toNat 1 = true)
    ∧ (∀ s : State, canActive s = true → s.can.nodeId ≠ 0 → s.rd .heartbeatPeriod ≠ 0 →
      exec .heartbeat s = .next (s.emit (.canFrame (0x280 + s.can.nodeId)
        (leBytes 1 (devCode s.dev.state)
          ++ leBytes 1 ((if s.rd .logAcked < s.log.nextSeq - 1 then 1 else 0) + (if s.alert then 2 else 0))
          ++ leBytes 2 s.device ++ leBytes 4 (s.dev.up / 1000000000)))))
    ∧ (∀ s : State, canActive s = false ∨ s.can.nodeId = 0 ∨ s.rd .heartbeatPeriod = 0 → exec .heartbeat s = .next s)
    ∧ (∀ s : State, s.can.busOff = true →
      ∃ t, exec .canBusOffRecovery s = .next t
        ∧ t.can = { s.can with busOff := false, passive := false, tec := 0, recCount := 0, heldRsp := [], notify := [] }
        ∧ t.rd .canBusoffCount = satAdd 32 (s.rd .canBusoffCount) 1
        ∧ t.out = ((s.can.heldRsp ++ s.can.notify).map (fun f => Out.canFrame f.1 f.2)).reverse ++ s.out)
    ∧ (∀ (delta : Int) (s : State), canActive s = true → s.can.recCount ≤ 255 → s.can.tec ≤ 255 →
      (∃ t, exec (.canError true delta) s = .next t ∧ t = { s with can := t.can } ∧ t.can.recCount = s.can.recCount
        ∧ (255 < (s.can.tec : Int) + delta ↔ t.can.busOff = true)
        ∧ (0 ≤ (s.can.tec : Int) + delta → (s.can.tec : Int) + delta ≤ 255 → (t.can.tec : Int) = s.can.tec + delta)
        ∧ (127 < (s.can.tec : Int) + delta → t.can.passive = true))
      ∧ (∃ t, exec (.canError false delta) s = .next t ∧ t = { s with can := t.can } ∧ t.can.tec = s.can.tec ∧ t.can.busOff = false
        ∧ (0 ≤ (s.can.recCount : Int) + delta → (s.can.recCount : Int) + delta ≤ 255 →
            (t.can.recCount : Int) = s.can.recCount + delta)
        ∧ (127 < (s.can.recCount : Int) + delta → t.can.passive = true)))
    ∧ (∀ (id : Nat) (s : State), canActive s = true → id < 2 ^ 29 → exec (.canIgnored id) s = .next (s.bump .canIgnored))

/-! ### Firmware, attestation, debug -/

/-- Staging (R304; the order of chunks and a STAGE that is refused are the model's reading, log entry 44). STAGE with a length of 1 to 50,266,112 starts ERASING, and the slot that is not ACTIVE_SLOT is WRITING; a length of 0 or
above the limit fails with reason 2; while staging or an activation is under way it is refused. A chunk at FW_CHUNK_OFFSET is appended and
the offset advances, and with the last one the package is VERIFYING; one at another offset, past the length, or outside staging by chunks is
refused. The end of staging checks the package as R296 step 3 does, for every image: one that passes becomes the slot, VALID, with
FW_STAGE_STATE STAGED and vector 8; one that fails makes the slot INVALID and FW_STAGE_STATE FAILED with the reason of Table 13-13 of the
first check that fails. Before the last chunk, and while the security core restarts, staging does not end. -/
def Obligations.Staging : Prop :=
  (∀ (v : Via) (s : State), AcceptedReg v .fwControl 1 s →
      let n := s.rd .fwPackageBytes
      (s.fw.actState = 0 → s.fw.staging = false → 1 ≤ n → n ≤ 50266112 →
        ∃ u, exec (.stage v) s = .next (answeredReg v .fwControl 1 s u)
          ∧ u.fw = { s.fw with stageState := 1, stageError := 0, progress := 0, chunks := [], stageSource := s.rd .fwSource }
          ∧ (u.flash.slot (1 - s.fw.active)).state = 1 ∧ (s.fw.active ≤ 1 → u.flash.slot s.fw.active = s.flash.slot s.fw.active)
          ∧ u = { unstaged v s with fw := u.fw, flash := u.flash })
      ∧ (s.fw.actState = 0 → s.fw.staging = false → n = 0 ∨ 50266112 < n →
        ∃ u, exec (.stage v) s = .next (answeredReg v .fwControl 1 s u)
          ∧ u.fw.stageState = 5 ∧ u.fw.stageError = 2 ∧ (u.flash.slot (1 - s.fw.active)).state = 2
          ∧ testBit u.host.irqCause.toNat 8 = true)
      ∧ (s.fw.actState ≠ 0 ∨ s.fw.staging = true → ∃ t, exec (.stage v) s = .next t ∧ AnswerOnly v s t))
    ∧ (∀ (v : Via) (data : List Byte) (s : State), Accepted v .fwChunk 0x8010 data s →
      let off := s.rd .fwChunkOffset
      let open_ := (s.fw.stageState = 1 ∨ s.fw.stageState = 2) ∧ s.fw.stageSource = 1
      (open_ → off = s.fw.chunks.length → off + data.length ≤ s.rd .fwPackageBytes →
        exec (.fwChunk v data) s = .next (answeredOk v .fwChunk 0x8010 data s
          { (unstaged v s).wr .fwChunkOffset ((off + data.length) % 2 ^ 32) with fw := { s.fw with
            stageState := if off + data.length = s.rd .fwPackageBytes then 3 else 2
            chunks := s.fw.chunks ++ data, progress := off + data.length } }))
      ∧ (¬ open_ ∨ off ≠ s.fw.chunks.length ∨ s.rd .fwPackageBytes < off + data.length →
        ∃ t, exec (.fwChunk v data) s = .next t ∧ AnswerOnly v s t))
    ∧ (∀ (p : PackageRead) (s : State), s.fw.active ≤ 1 →
      let k := slotOf 3 (if s.fw.stageSource = 1 then s.fw.chunks else p.bytes)
      let waits := s.fw.stageSource = 1 ∧ p.flashError = false ∧ s.fw.chunks.length ≠ s.rd .fwPackageBytes
      let reason := if p.readError then 1 else if p.flashError then 9 else if !k.formOk then 3 else if !s.chainOk k then 4
        else if !k.signedOk then 5 else if k.secVersion < s.rollback then 7 else if s.ident.hwRevision < k.hwMin then 8
        else if !(([1, 2, 3, 4, 5] : List Nat).all k.imageOk) then 6 else 0
      (s.fw.staging = true → s.dev.restarting.contains coreSecurity = false → ¬ waits →
        ∃ t, exec (.stagingComplete p) s = .next t
          ∧ testBit t.host.irqCause.toNat 8 = true
          ∧ t.flash.slot s.fw.active = s.flash.slot s.fw.active
          ∧ (reason = 0 → t.fw.stageState = 4 ∧ t.fw.stageError = 0 ∧ t.flash.slot (1 - s.fw.active) = k)
          ∧ (reason ≠ 0 → t.fw.stageState = 5 ∧ t.fw.stageError = reason ∧ (t.flash.slot (1 - s.fw.active)).state = 2)
          ∧ (reason = 9 → testBit t.host.irqCause.toNat 1 = true ∨ (if s.fw.active = 1 then s.flash.failA else s.flash.failB) = true)
          ∧ t.doms = s.doms ∧ t.boards = s.boards ∧ t.job = s.job ∧ t.dev = s.dev)
      ∧ (s.fw.staging = false ∨ s.dev.restarting.contains coreSecurity = true ∨ waits → exec (.stagingComplete p) s = .next s))

/-- Activation (R305 to R307). ACTIVATE of a STAGED package stores the slot as TRIAL, with TRIAL_BOOTS 0 and BOOT_PREF the slot, and is DEFERRED
while ACT_INHIBIT is not 0, else DRAINING. While no step is open, DRAINING switches: the images of types 2 to 4 match their digests, ACTIVE_SLOT
becomes the slot and ACT_STATE TRIAL_RUNNING, with manifest and images measured and inhibit bit 3 set; or one does not, and the activation
ends with the slot INVALID, reason 6 and BOOT_PREF as before ACTIVATE (the model's choice, log entry 5). It begins once no core restarts (log
entry 44). CONFIRM makes the trial slot CONFIRMED, the other slot VALID if it was CONFIRMED,
and the counter never falls. CANCEL of staging fails it with reason 10; of a deferred or draining activation it makes the slot VALID and
BOOT_PREF what it was before ACTIVATE, with ACT_STATE NONE; of a trial it makes the slot VALID and prefers the other slot. Each is refused where there is nothing of the kind. An inhibit
bit whose condition has ended clears, and when the last clears a deferred activation drains. -/
def Obligations.Activation : Prop :=
  (∀ (v : Via) (s : State), AcceptedReg v .fwControl 2 s → s.fw.active ≤ 1 →
      (s.fw.stageState = 4 →
        ∃ u, exec (.activate v) s = .next (answeredReg v .fwControl 2 s u)
          ∧ (u.flash.slot (1 - s.fw.active)).state = 4 ∧ u.flash.trialBoots = 0 ∧ u.flash.bootPref = 1 - s.fw.active
          ∧ u.fw = { s.fw with
              prefBefore := s.flash.bootPref, actState := if s.fw.inhibit = 0 then 2 else 1, actReq := s.now }
          ∧ u.flash.slot s.fw.active = s.flash.slot s.fw.active ∧ u = { unstaged v s with fw := u.fw, flash := u.flash })
      ∧ (s.fw.stageState ≠ 4 → ∃ t, exec (.activate v) s = .next t ∧ AnswerOnly v s t))
    ∧ (∀ s : State, s.fw.active ≤ 1 →
      let k := 1 - s.fw.active
      let may := s.fw.actState = 2 ∧ s.dev.restarting = [] ∧ ∀ e ∈ s.doms, e.2.busy = false
      (may →
        ∃ t, exec .activationSwitch s = .next t
          ∧ ((∀ i ∈ [2, 3, 4], (s.flash.slot k).imageOk i = true) →
              t.fw.active = k ∧ t.fw.actState = 4 ∧ t.fw.actDone = s.now ∧ t.flash = s.flash
              ∧ testBit t.fw.inhibit 3 = true ∧ testBit t.fw.inhibitOn 3 = false
              ∧ (s.fw.meas.length ≤ 59 → t.fw.meas.map (fun m => (m.kind, m.detail)) =
                  s.fw.meas.map (fun m => (m.kind, m.detail)) ++ [(1, k * 16), (3, k * 16 + 2), (3, k * 16 + 3), (3, k * 16 + 4)]))
          ∧ ((∃ i ∈ [2, 3, 4], (s.flash.slot k).imageOk i = false) →
              t.fw.active = s.fw.active ∧ t.fw.actState = 0 ∧ t.fw.stageState = 5 ∧ t.fw.stageError = 6
              ∧ (t.flash.slot k).state = 2 ∧ t.flash.bootPref = s.fw.prefBefore)
          ∧ testBit t.host.irqCause.toNat 8 = true
          ∧ t.doms = s.doms ∧ t.boards = s.boards ∧ t.job = s.job ∧ t.ports = s.ports ∧ t.store = s.store)
      ∧ (¬ may → exec .activationSwitch s = .next s))
    ∧ (∀ (v : Via) (s : State), AcceptedReg v .fwControl 3 s →
      (∀ k, s.trialSlot = some k → k ≤ 1 →
        ∃ u, exec (.confirm v) s = .next (answeredReg v .fwControl 3 s u)
          ∧ (u.flash.slot k).state = 5
          ∧ ((s.flash.slot (1 - k)).state = 5 → (u.flash.slot (1 - k)).state = 3)
          ∧ ((s.flash.slot (1 - k)).state ≠ 5 → u.flash.slot (1 - k) = s.flash.slot (1 - k))
          ∧ u.rollback = max s.rollback (s.flash.slot k).secVersion
          ∧ u = { unstaged v s with fw := u.fw, flash := u.flash })
      ∧ (s.trialSlot = none → ∃ t, exec (.confirm v) s = .next t ∧ AnswerOnly v s t))
    ∧ (∀ (v : Via) (s : State), AcceptedReg v .fwControl 4 s → s.fw.active ≤ 1 →
      (s.fw.staging = true →
        ∃ u, exec (.cancel v) s = .next (answeredReg v .fwControl 4 s u) ∧ u.fw.stageState = 5 ∧ u.fw.stageError = 10
          ∧ (u.flash.slot (1 - s.fw.active)).state = 2)
      ∧ (s.fw.staging = false → s.fw.actState = 1 ∨ (s.fw.actState = 2 ∧ s.switching = false) →
        ∃ u, exec (.cancel v) s = .next (answeredReg v .fwControl 4 s u) ∧ u.fw.actState = 0
          ∧ (u.flash.slot (1 - s.fw.active)).state = 3 ∧ u.flash.bootPref = s.fw.prefBefore)
      ∧ (∀ k, s.fw.staging = false → s.fw.actState ≠ 1 → (s.fw.actState = 2 → s.switching = true) → s.trialSlot = some k → k ≤ 1 →
        ∃ u, exec (.cancel v) s = .next (answeredReg v .fwControl 4 s u) ∧ (u.flash.slot k).state = 3 ∧ u.flash.bootPref = 1 - k)
      ∧ (s.fw.staging = false → s.fw.actState ≠ 1 → (s.fw.actState = 2 → s.switching = true) → s.trialSlot = none →
        ∃ t, exec (.cancel v) s = .next t ∧ AnswerOnly v s t))
    ∧ (∀ (bit : Fin 4) (s : State),
      (testBit s.fw.inhibit bit.val = true → testBit s.fw.inhibitOn bit.val = false →
        exec (.actInhibitClear bit) s = .next { s with fw := { s.fw with
          inhibit := s.fw.inhibit - 2 ^ bit.val
          actState := if s.fw.inhibit = 2 ^ bit.val ∧ s.fw.actState = 1 then 2 else s.fw.actState } })
      ∧ (testBit s.fw.inhibit bit.val = false ∨ testBit s.fw.inhibitOn bit.val = true → exec (.actInhibitClear bit) s = .next s))

/-- Attestation, debug unlock and the TAP (R300, R302, R303, R375). A nonce of 32 bytes starts a report, which becomes READY with the nonce in
bytes 8 to 39 and the measurements from byte 204 on; before the key is derived a nonce is answered BUSY, and with a bad key or another length
it is refused. The key pair is derived from PT16-ID and the seed, and the counter areas' keys from the seed; a public key whose digest is IDENTITY is
ready; a seed that is not recovered (the model's choice, log entry 5), or a key that does not match, raises IDENTITY_FAULT and makes
attestation UNAVAILABLE. A valid token in SERVICE or READY sets DEBUG_STATE to its SCOPE; any other is refused and counted; the challenge
changes with every response. The TAP accepts IDCODE, BYPASS and SAMPLE always, the EXTEST instructions only in STANDBY and SERVICE, and its
hidden ones only while SCOPE bit 0 is unlocked; in OFF there is no TAP. -/
def Obligations.AttestationAndDebug : Prop :=
  (∀ (v : Via) (nonce : List Byte) (s : State), Accepted v .attestNonce 0x9000 nonce s →
      (nonce.length = 32 → s.fw.keyBad = false → s.fw.keyReady = true →
        ∃ u, exec (.attestNonce v nonce) s = .next (answeredOk v .attestNonce 0x9000 nonce s u)
          ∧ u.fw = { s.fw with attest := 1, nonce := nonce, report := [] } ∧ u = { unstaged v s with fw := u.fw, vers := u.vers })
      ∧ (nonce.length = 32 → s.fw.keyBad = false → s.fw.keyReady = false →
        exec (.attestNonce v nonce) s = .next (respond (viaClient v)
          (rspBytes stBusy (parseReq (writeReqBytes 0x9000 Reg.attestNonce.sub v.txn nonce)) 0 0 []) (unstaged v s)))
      ∧ (nonce.length ≠ 32 ∨ s.fw.keyBad = true → ∃ t, exec (.attestNonce v nonce) s = .next t ∧ AnswerOnly v s t))
    ∧ (∀ s : State,
      (s.fw.attest = 1 → s.dev.restarting.contains coreSecurity = false → s.fw.nonce.length = 32 →
        ∃ t, exec .attestReportReady s = .next t ∧ t.fw.attest = 2 ∧ (t.fw.report.drop 8).take 32 = s.fw.nonce
          ∧ t.fw.report.take 4 = [0x50#8, 0x54#8, 0x41#8, 0x52#8]
          ∧ (t.fw.report.drop 204).take (80 * s.fw.meas.length) = s.fw.meas.zipIdx.flatMap (fun m => measBytes m.2 m.1)
          ∧ t = { s with fw := { s.fw with attest := 2, report := t.fw.report }, vers := t.vers })
      ∧ (s.fw.attest ≠ 1 ∨ s.dev.restarting.contains coreSecurity = true → exec .attestReportReady s = .next s))
    ∧ (∀ (seed : Option (List Byte)) (s : State), s.dev.pgood = true → s.fw.keyReady = false → s.fw.keyBad = false →
      let fails (t : State) :=
        t.fw.attest = 3 ∧ t.fw.keyBad = true ∧ t.fw.keyReady = false ∧ testBit t.host.irqCause.toNat 1 = true
      ∃ t, exec (.identityKeyDerived seed) s = .next t
        ∧ (seed = none → fails t)
        ∧ (∀ x, seed = some x →
          let input := ascii "PT16-ID" ++ padTo 32 x
          t.fw.publicKey = Config.falconPublic input ∧ t.fw.privateKey = Config.falconPrivate input
            ∧ t.fw.counterKeys = [Config.counterKey 0 (padTo 32 x), Config.counterKey 1 (padTo 32 x)]
            ∧ (digest (Config.falconPublic input) = s.ident.identityDigest → t.fw.keyReady = true ∧ t = { s with fw := t.fw, vers := t.vers })
            ∧ (digest (Config.falconPublic input) ≠ s.ident.identityDigest → fails t)))
    ∧ (∀ (seed : Option (List Byte)) (s : State), s.dev.pgood = false ∨ s.fw.keyReady = true ∨ s.fw.keyBad = true →
      exec (.identityKeyDerived seed) s = .next s)
    ∧ (∀ (v : Via) (token : List Byte) (s : State), Accepted v .debugResponse 0x9010 token s →
      let good := (s.dev.state = .service ∨ s.dev.state = .ready) ∧ tokenValid s token = true
      ∃ t, exec (.debugResponse v token) s = .next t ∧ t.fw.challengeNo = s.fw.challengeNo + 1
        ∧ (good → (∃ u, t = answeredOk v .debugResponse 0x9010 token s u) ∧ t.fw.debugState = leAt token 4 4
            ∧ t.fw.debugFails = s.fw.debugFails ∧ (s.fw.meas.length < 63 → t.fw.meas.length = s.fw.meas.length + 1))
        ∧ (¬ good → t.fw.debugState = s.fw.debugState ∧ t.fw.debugFails = satAdd 32 s.fw.debugFails 1 ∧ t.fw.meas = s.fw.meas))
    ∧ (∀ (n : Nat) (s : State), s.dev.state ≠ .off →
      let low := s.dev.state == .standby || s.dev.state == .service
      exec (.tapInstruction .idcode) s = .next (s.emit (.tap true 0x1016A8B3))
        ∧ exec (.tapInstruction .bypass) s = .next (s.emit (.tap true 0))
        ∧ exec (.tapInstruction .sample) s = .next (s.emit (.tap true 0))
        ∧ exec (.tapInstruction .extest) s = .next (s.emit (.tap low 0))
        ∧ exec (.tapInstruction .extestPulse) s = .next (s.emit (.tap low 0))
        ∧ exec (.tapInstruction .extestTrain) s = .next (s.emit (.tap low 0))
        ∧ exec (.tapInstruction (.hidden n)) s = .next (s.emit (.tap (testBit s.fw.debugState 0) 0)))
    ∧ (∀ (i : TapInstr) (s : State), s.dev.state = .off → exec (.tapInstruction i) s = .next s)

/-! ### Boot, power, cores -/

/-- Slot k passes the boot's checks (R296 step 3), its state lets it boot, and its device can be read. -/
def Boots (rd : BootRead) (k : Nat) (s : State) : Prop :=
  (s.flash.slot k).state ∈ [3, 4, 5] ∧ (if k = 0 then rd.failA else rd.failB) = false ∧ s.slotVerifies (s.flash.slot k) = true

/-- Power input, PWR_EN and boot (R287, R296, R297, R313). Input within range takes OFF to STANDBY, and starts the boot while PWR_EN is
asserted; undervoltage takes every state to OFF with PGOOD deasserted; PWR_EN starts the boot from STANDBY; its deassertion stops a boot and
drops the link there, and leads from every other state back to STANDBY, once the power-management core runs. The boot asserts PGOOD and takes the DATA copy in force, or without one ends in STANDBY. A
preferred slot that verifies, with a device manifest and images of types 2, 3 and 5 that do, takes it to SERVICE, and on to READY with
AUTO_READY where the working set is there, or, while the host link is not, with the entry into READY waiting for it (log entry 6), with
BOOTED_SLOT and ACTIVE_SLOT that slot, and a TRIAL slot counts its boot; where only the other slot verifies, that one boots and is preferred
from here on. If neither does, the module stays in STANDBY with ALERT#, as it does where the manifest or an image fails; this end of step 4,
and that without a DATA copy, are read by inference (log entry 15). -/
def Obligations.PowerAndBoot : Prop :=
  (∀ s : State,
      (s.dev.state = .off → ∃ t, exec .inputPowerUp s = .next t ∧ t.dev.state = .standby ∧ t.dev.inputOk = true
        ∧ t.dev.booting = s.dev.pwrEn ∧ t.ident = s.ident ∧ t.regs = s.flash.od ∧ t.flash.retiredBoards = s.flash.retiredBoards)
      ∧ (s.dev.state ≠ .off → exec .inputPowerUp s = .next { s with dev := { s.dev with inputOk := true } }))
    ∧ (∀ s : State, ∃ t, exec .inputUndervoltage s = .next t ∧ t.dev.state = .off ∧ t.dev.pgood = false ∧ t.dev.inputOk = false
        ∧ ResetScope s t)
    ∧ (∀ s : State,
      (s.dev.state = .standby → s.dev.booting = false →
        exec .pwrEnAssert s = .next { s with dev := { s.dev with
          pwrEn := true, pgood := true, booting := true, bootFailed := false, bootAt := s.dev.up,
          bootServiceMs := 0, bootReadyMs := 0 } })
      ∧ (s.dev.state ≠ .standby ∨ s.dev.booting = true →
        exec .pwrEnAssert s = .next { s with dev := { s.dev with pwrEn := true } }))
    ∧ (∀ s : State,
      (s.dev.state = .off → exec .pwrEnDeassert s = .next { s with dev := { s.dev with pwrEn := false } })
      ∧ (s.dev.state = .standby → exec .pwrEnDeassert s = .next { s with
          dev := { s.dev with pwrEn := false, booting := false, bootFailed := false, pgood := false }
          host := { s.host with mode := 0, width := 0, rate := 0, inL0 := false } })
      ∧ (s.dev.state ≠ .off → s.dev.state ≠ .standby → s.dev.restarting.contains corePower = true →
        ∃ t, exec .pwrEnDeassert s = .next t ∧ t.dev.state ≠ .standby ∧ t.dev.pwrEn = false ∧ t.dev.moving = some .standby
          ∧ (s.dev.jobState = .running → t.dev.jobState = .loaded)
          ∧ (s.dev.jobState ≠ .running → t = { s with dev := { s.dev with pwrEn := false, moving := some .standby } }))
      ∧ (s.dev.state ≠ .off → s.dev.state ≠ .standby → s.dev.restarting.contains corePower = false →
        ∃ t, exec .pwrEnDeassert s = .next t ∧ t.dev.state = .standby ∧ t.dev.pgood = false ∧ t.dev.pwrEn = false
          ∧ t.job = {} ∧ t.boards = [] ∧ t.stks = [] ∧ t.doms = [] ∧ t.dram = [] ∧ t.regs = t.flash.od))
    ∧ (∀ (rd : BootRead) (s : State), s.dev.state = .standby → s.dev.booting = true → s.dev.restarting.contains coreSecurity = false →
      let s0 := { s with dev := { s.dev with pgood := true } }
      (bootData rd s0 = none →
        exec (.boot rd) s = .next { s0 with dev := { s0.dev with booting := false, bootFailed := true } })
      ∧ (∀ s1, bootData rd s0 = some s1 → s1.flash.bootPref ≤ 1 →
          (s1.flash.slot s1.flash.bootPref).state ≠ 4 ∨ s1.flash.trialBoots < 3 →
        let p := s1.flash.bootPref
        let rest (k : Nat) := s1.ident.manifestOk = true ∧ ∀ i ∈ [2, 3, 5], (s1.flash.slot k).imageOk i = true
        let up (k : Nat) (t : State) := t.dev.booting = false ∧ t.dev.pgood = true ∧ t.fw.booted = k ∧ t.fw.active = k
          ∧ t.flash.bootPref = k ∧ testBit t.host.irqCause.toNat 3 = true
          ∧ (s1.rd .autoReady ≠ 1 → t.dev.state = .service ∧ t.dev.moving = s.dev.moving)
          ∧ (s1.rd .autoReady = 1 → s1.pairLeft = true → s1.host.mode = 0 → t.dev.state = .service ∧ t.dev.moving = some .ready)
          ∧ (s1.rd .autoReady = 1 → s1.pairLeft = true → s1.host.mode ≠ 0 → (s1.flash.slot k).imageOk 4 = true → CameUp s1 t)
          ∧ (s1.rd .autoReady = 1 → s1.pairLeft = false → t.dev.state = .service)
        let stays (t : State) := t.dev.state = .standby ∧ t.dev.booting = false ∧ t.dev.bootFailed = true
          ∧ (s.dev.pwrEn = true → t.alert = true) ∧ testBit t.host.irqCause.toNat 1 = true
        ∃ t, exec (.boot rd) s = .next t
          ∧ (Boots rd p s1 → rest p → up p t
              ∧ t.flash.trialBoots = (if (s1.flash.slot p).state = 4 then (s1.flash.trialBoots + 1) % 256 else s1.flash.trialBoots))
          ∧ (¬ Boots rd p s1 → Boots rd (1 - p) s1 → rest (1 - p) → up (1 - p) t ∧ testBit t.host.irqCause.toNat 8 = true)
          ∧ (¬ Boots rd 0 s1 → ¬ Boots rd 1 s1 → stays t)
          ∧ (Boots rd p s1 → ¬ rest p → stays t)
          ∧ (¬ Boots rd p s1 → Boots rd (1 - p) s1 → ¬ rest (1 - p) → stays t)))
    ∧ (∀ (rd : BootRead) (s : State), s.dev.state ≠ .standby ∨ s.dev.booting = false ∨ s.dev.restarting.contains coreSecurity = true →
      exec (.boot rd) s = .next s)

/-- Watchdogs and image checks (R284, R285, R288). A first expiry raises WATCHDOG, counts it, and restarts the core; during a restart of the
power-management or the scheduler core ACT_INHIBIT bit 3 is set. A second expiry within 1 s of the scheduler or power-management core takes
the module to SAFE with SAFE_CAUSE bit 2, of a control core retires its Board, and of the security core is a reset of the module. A core
that does not run has no watchdog. When a restart ends the core runs again, and where nothing waited for it nothing else changes. An image
that fails its check sets SAFE_CAUSE bit 4, and takes the module to SAFE from SERVICE to HALTED, without its job and without power. -/
def Obligations.WatchdogsAndImages : Prop :=
  (∀ (core : Core) (s : State), coreRuns s (coreNo core) = true →
      let c := coreNo core
      let w := tget s.dev.wdog c (0, 0)
      let again := 0 < w.2 ∧ s.now ≤ w.1 + 1000000000
      ∃ t, exec (.watchdog core) s = .next t
        ∧ (¬ again ∨ c ≠ 0 → testBit t.host.irqCause.toNat 1 = true)
        ∧ (¬ again → c ∈ t.dev.restarting ∧ tget t.dev.wdog c (0, 0) = (s.now, satAdd 32 w.2 1)
            ∧ (c = 1 ∨ c = 2 → testBit t.fw.inhibit 3 = true)
            ∧ t.boards = s.boards ∧ t.doms = s.doms ∧ t.dev.state = s.dev.state)
        ∧ (again → c = 1 ∨ c = 2 → t.dev.state = .safe ∧ testBit t.dev.safeCause 2 = true ∧ (s.dev.state ≠ .safe → WithoutPower t))
        ∧ (again → c = 0 → t.dev.state = .standby ∧ t.dev.lastReset = 3 ∧ t.dev.booting = true ∧ t.job = {} ∧ t.boards = [] ∧ t.fw.meas = [])
        ∧ (again → 16 ≤ c → testBit t.flash.retiredBoards (c - 16) = true))
    ∧ (∀ (core : Core) (s : State), coreRuns s (coreNo core) = false → exec (.watchdog core) s = .next s)
    ∧ (∀ (core : Core) (s : State),
      ((s.dev.restarting.contains (coreNo core)) = true → s.paths.waiting = [] → (∀ b, (s.board b).loadWaits = []) →
        ∃ t, exec (.coreRestartDone core) s = .next t
          ∧ t.dev = { s.dev with restarting := s.dev.restarting.filter (fun k => k != coreNo core) }
          ∧ t = { s with dev := t.dev, fw := t.fw, boards := t.boards } ∧ (∀ b, t.board b = s.board b))
      ∧ ((s.dev.restarting.contains (coreNo core)) = false → exec (.coreRestartDone core) s = .next s))
    ∧ (∀ (core : Core) (s : State),
      (s.hubUp = true →
        ∃ t, exec (.imageIntegrity core) s = .next t ∧ testBit t.dev.safeCause 4 = true ∧ testBit t.host.irqCause.toNat 1 = true
          ∧ t.dev.state = .safe ∧ (s.dev.state ≠ .safe → WithoutPower t ∧ t.job = { loadTime := s.job.loadTime } ∧ t.dev.jobState = .none))
      ∧ (s.dev.state = .standby → s.dev.booting = true →
        ∃ t, exec (.imageIntegrity core) s = .next t ∧ testBit t.dev.safeCause 4 = true ∧ testBit t.host.irqCause.toNat 1 = true
          ∧ t.dev.state = .standby)
      ∧ (s.hubUp = false → s.dev.booting = false → exec (.imageIntegrity core) s = .next s))

/-! ### Snapshots, exports, restores, the fault log -/

/-- The engine reads square i of a region without an uncorrectable line: of an export the F8 copy, of a snapshot the committed plane, and the
other plane where the square was in the last commit and the domain is replayable. -/
def SquareClean (s : State) (r i : Nat) : Prop :=
  let p := captureSpan s r i
  squareBad s (s.region r) i p.1 p.2.1 = none ∧ ∀ a, p.2.2 = some a → s.badLine a p.2.1 = none

/-- A copy has failed for a cause for which Table 15-10 names no reason: SNAP_ERROR is one of its reasons (a free value: log entry 34). -/
def FailedOpen (t : State) : Prop :=
  t.snap.state = 4 ∧ 1 ≤ t.snap.error ∧ t.snap.error ≤ 9 ∧ testBit t.host.irqCause.toNat 7 = true ∧ testBit t.host.irqCause.toNat 1 = true

/-- Snapshots (R336, R337). SNAPSHOT in a powered module with a loaded or running job, with no copy under way and a place for it, takes the
domains that SNAP_DOMAINS names: SNAP_STATE is WAITING, or CAPTURING with no domain named, every named domain waits for its capture, and
no step is touched; otherwise it is refused. A capture that is due adds the domain's DOMAIN section and its rule slots, and leaves its squares
to the engine; one that is not due does nothing. The engine reads a square in a tick (log entry 34): the committed plane, and of a
square of the last commit of a replayable domain the other plane; an uncorrectable line fails the copy. When every square has been read the
stream of header, directory, sections and CRC table stands at its destination: one that fits SNAP_BYTES ends in SNAP_STATE DONE with
SNAP_LENGTH and vector 7, one that does not fails with reason 2, one that leaves its SNAPSHOT region fails (log entry 34), and an error of a
write to host memory fails it with reason 1. Stack memory outside the destination is unchanged. -/
def Obligations.Snapshots : Prop :=
  (∀ (v : Via) (s : State), AcceptedReg v .snapControl 1 s →
      (copyState s = true → s.snap.idle = true → snapPlaceOk s = true →
        ∃ u, exec (.snapshot v) s = .next (answeredReg v .snapControl 1 s u)
          ∧ u.snap.state = (if namedDomains s = [] then 2 else 1) ∧ u.snap.domains = namedDomains s ∧ u.snap.error = 0
          ∧ u.snap.isExport = false ∧ u.snap.parts = headParts s ∧ u.snap.rules = [] ∧ u.snap.left = [] ∧ u.snap.got = []
          ∧ (∀ d ∈ namedDomains s, (u.dom d).snapPending = true)
          ∧ (∀ d, (u.dom d).phase = (s.dom d).phase ∧ (u.dom d).exch = (s.dom d).exch)
          ∧ u = { unstaged v s with snap := u.snap, doms := u.doms })
      ∧ (copyState s = false ∨ s.snap.idle = false ∨ snapPlaceOk s = false → ∃ t, exec (.snapshot v) s = .next t ∧ AnswerOnly v s t))
    ∧ (∀ (d : DomainNo) (s : State),
      (captureDue s (s.dom d.val) = true → s.powered = true →
        ∃ t, exec (.captureStart d) s = .next t
          ∧ t.snap = { s.snap with
              state := 2, rules := s.snap.rules ++ captureRules s d.val
              parts := s.snap.parts ++ [{ type := 3, target := d.val, bytes := domainBytes (captureDomain s d.val) }]
              left := s.snap.left ++ (allRegions s d.val).flatMap (fun e =>
                (List.range (rSquares (s.region e.1))).map (fun i => (e.1, i))) }
          ∧ t.dom d.val = { s.dom d.val with snapPending := false, snapCapturing := true, snapReplayable := (s.dom d.val).preIntact }
          ∧ (∀ e, e ≠ d.val → t.dom e = s.dom e)
          ∧ t = { s with snap := t.snap, doms := t.doms })
      ∧ (captureDue s (s.dom d.val) = false ∨ s.powered = false → exec (.captureStart d) s = .next s))
    ∧ (∀ (r i : Nat) (rest : List (Nat × Nat)) (s : State), s.pending = [] → s.dev.moving = none → s.powered = true →
      (∀ b, (s.board b).gruns = []) → (∀ e ∈ s.doms, e.2.passes = []) →
      s.snap.state = 2 → s.snap.left = (r, i) :: rest → s.underTest (stackOf (rBase (s.region r))) = false →
      let e := s.region r
      let k := stackOf (rBase e)
      let a := committedAddr s k e i
      let last := (s.vrec k (rVtBase e + i)).lastc
      (SquareClean s r i →
        ∃ t, step s = .next t ∧ t.snap.left = rest ∧ t.snap.state = 2 ∧ t.dram = s.dram ∧ t.doms = s.doms
          ∧ (s.snap.isExport = true → t.snap.got = s.snap.got ++
              [(r, { square := i, lastc := last, committed := s.dram.read (a + (compOffset e 3).getD 0) 4160, other := [] })])
          ∧ (s.snap.isExport = false → t.snap.got = s.snap.got ++
              [(r, { square := i, lastc := last, committed := s.dram.read a (slotBytes e)
                     other := if last && (s.dom (rDomain e)).snapReplayable then s.dram.read (otherAddr s k e i) (slotBytes e) else [] })]))
      ∧ (¬ SquareClean s r i →
        ∃ t, step s = .next t ∧ FailedOpen t ∧ testBit t.host.irqCause.toNat 2 = true ∧ t.dram = s.dram
          ∧ ∀ e ∈ t.doms, e.2.snapPending = false ∧ e.2.snapCapturing = false))
    ∧ (∀ s : State, s.snap.state = 2 → (∀ e ∈ s.doms, e.2.snapPending = false) → s.snap.left = [] →
      let bs := snapStream s
      let n := min bs.length s.snap.bytes
      let fits := s.snap.target ≠ 1 ∨ s.snap.addr + n ≤ snapLimit s
      -- what stands in stack memory
      let out := if s.snap.target = 1 then (bs.take n).take (snapLimit s - s.snap.addr) else []
      ∃ t, exec (.snapshotDone .done) s = .next t
        ∧ (fits → bs.length ≤ s.snap.bytes → t.snap.state = 3 ∧ t.snap.length = bs.length)
        ∧ (fits → s.snap.bytes < bs.length → t.snap.state = 4 ∧ t.snap.error = 2 ∧ testBit t.host.irqCause.toNat 1 = true)
        ∧ (¬ fits → FailedOpen t)
        ∧ testBit t.host.irqCause.toNat 7 = true
        ∧ (∀ d ∈ s.doms.map (·.1), (t.dom d).snapCapturing = false ∧ (t.dom d).holdSince = none)
        ∧ (∀ d, (t.dom d).phase = (s.dom d).phase ∧ (t.dom d).exch = (s.dom d).exch ∧ (t.dom d).committedTag = (s.dom d).committedTag)
        ∧ (s.snap.target ≠ 1 → t.dram = s.dram ∧ Out.hostWrite s.snap.addr (bs.take n) ∈ t.out)
        ∧ t.dram.read s.snap.addr out.length = out
        ∧ (∀ a, a < s.snap.addr ∨ s.snap.addr + out.length ≤ a → t.dram.get a = s.dram.get a))
    ∧ (∀ (offset : Nat) (s : State),
      (s.snap.state = 1 ∨ s.snap.state = 2 → s.snap.target = 0 →
        ∃ t, exec (.snapshotDone (.error offset)) s = .next t ∧ t.snap.state = 4 ∧ t.snap.error = 1
          ∧ testBit t.host.irqCause.toNat 7 = true ∧ t.dram = s.dram)
      ∧ ((s.snap.state ≠ 1 ∧ s.snap.state ≠ 2) ∨ s.snap.target ≠ 0 → exec (.snapshotDone (.error offset)) s = .next s)
      ∧ (s.snap.state ≠ 2 ∨ (∃ e ∈ s.doms, e.2.snapPending = true) ∨ s.snap.left ≠ [] → exec (.snapshotDone .done) s = .next s))

/-- Every domain of the copy is LOST, in the hub's view and in every stack's (R339). -/
def NamedLost (s t : State) : Prop :=
  ∀ d ∈ s.snap.domains, (t.dom d).lost = true ∧ ∀ k, s.stackOk k = true → (t.dreg k d).lost = true

/-- A restore has ended with its domains LOST and SNAP_STATE FAILED; memory and the job's tables are as they were. -/
def RestoreFailed (s t : State) : Prop :=
  t.snap.state = 4 ∧ NamedLost s t ∧ testBit t.host.irqCause.toNat 7 = true ∧ testBit t.host.irqCause.toNat 1 = true
    ∧ t.dram = s.dram ∧ t.job = s.job

/-- The first seven checks of a restore pass: what a host read, the region and the stack lines give can be read. -/
def SourceRead (r : RestoreSource) (s : State) : Prop :=
  ¬ (s.snap.target = 0 ∧ r.failure.isSome = true) ∧ snapFits s s.snap.bytes = true ∧ sourceBad s = none

/-- Export, restore and cancel (R338 to R341, R343). EXPORT is accepted where SNAPSHOT is, and leaves the engine every square of the named
domains' regions that hold F8 copies. RESTORE in READY with a loaded job takes the entries and sets RESTORING; with the restore point before
the step, and a mirror set or a retag, it is refused with reason 7; with a RESTORE_EPOCH that the groups of the snapshot in its own stacks
have, and in another state, it is refused. One from the mirror partner asks it for the seals of every region, and without a partner or a
region fails with reason 8. A restore waits until its source has been read and no stack is under test. One whose source passes its checks
sets every group's EPOCH to RESTORE_EPOCH, takes JOB_SEED, and gives each named domain its COMMITTED_TAG as the point, retag and source
say, no longer LOST; one whose source has RESTORE_EPOCH in its groups changes nothing; one whose host read failed (reason 1), whose source fails
a check (Table 15-10), cannot be read, or whose groups break a limit (log entry 34) leaves its domains LOST and SNAP_STATE FAILED. A restored
square has its planes and its record as the restore point says. CANCEL of a snapshot fails it with reason 9; of a restore it leaves the
domains LOST; with nothing under way it changes nothing. -/
def Obligations.ExportRestoreCancel : Prop :=
  (∀ (v : Via) (s : State), AcceptedReg v .snapControl 2 s →
      (copyState s = true → s.snap.idle = true → snapPlaceOk s = true →
        ∃ u, exec (.exportCmd v) s = .next (answeredReg v .snapControl 2 s u)
          ∧ u.snap.state = 2 ∧ u.snap.isExport = true ∧ u.snap.domains = namedDomains s ∧ u.snap.parts = [] ∧ u.snap.got = []
          ∧ (∀ d ∈ namedDomains s, (u.dom d).snapCapturing = true)
          ∧ u.snap.left = (namedDomains s).flatMap (fun d => ((allRegions s d).filter (fun e => testBit (rComp e.2) 3)).flatMap (fun e =>
              (List.range (rSquares (s.region e.1))).map (fun i => (e.1, i))))
          ∧ u = { unstaged v s with snap := u.snap, doms := u.doms })
      ∧ (copyState s = false ∨ s.snap.idle = false ∨ snapPlaceOk s = false →
        ∃ t, exec (.exportCmd v) s = .next t ∧ AnswerOnly v s t))
    ∧ (∀ (v : Via) (s : State), AcceptedReg v .snapControl 3 s →
      let may := s.dev.state = .ready ∧ s.dev.jobState = .loaded ∧ s.snap.idle = true
      let bad := s.rd .restorePoint = 0 ∧ (s.rd .snapTarget = 2 ∨ s.rd .restoreRetag = 1)
      let w := { s with snap := takeSnap s 5 }
      let taken := s.rd .snapTarget = 1 ∧ epochTaken w (streamSource w (sourceBytes w ⟨none, []⟩)) = true
      let asked := (namedDomains s).flatMap (allRegions s ·)
      (may → ¬ bad → s.rd .snapTarget ≠ 2 → ¬ taken →
        exec (.restore v) s = .next (answeredReg v .snapControl 3 s { unstaged v s with snap := takeSnap s 5 }))
      ∧ (may → ¬ bad → taken → ∃ t, exec (.restore v) s = .next t ∧ AnswerOnly v s t)
      ∧ (may → ¬ bad → s.rd .snapTarget = 2 → s.rd .mirrorPartner = 0xFFFF ∨ asked = [] →
        ∃ u, exec (.restore v) s = .next (answeredReg v .snapControl 3 s u) ∧ u.snap.error = 8 ∧ RestoreFailed w u)
      ∧ (may → ¬ bad → s.rd .snapTarget = 2 → s.rd .mirrorPartner ≠ 0xFFFF → asked ≠ [] → asked.length + s.restoreReads ≤ 64 →
        ∃ u, exec (.restore v) s = .next (answeredReg v .snapControl 3 s u) ∧ u.snap.state = 5 ∧ u.snap.want = []
          ∧ u.doms = s.doms ∧ u.job = s.job ∧ u.dram = s.dram
          ∧ ∀ e ∈ asked, ∃ k, Out.packet none k ∈ u.out ∧ k.opcode = 1 ∧ k.dest = s.rd .mirrorPartner ∧ k.lines = 2
              ∧ k.addr = s.rd .mirrorDpa e.1 / 64 + tailLine s e.1)
      ∧ (may → bad → ∃ bs, exec (.restore v) s =
          .next (respond (viaClient v) bs { unstaged v s with snap := { s.snap with error := 7 } }))
      ∧ (¬ may → ∃ t, exec (.restore v) s = .next t ∧ AnswerOnly v s t))
    ∧ (∀ (r : RestoreSource) (s : State), sourceReady s = true →
      let x := sourceOf s r
      let stale := s.snap.target ≠ 2 ∧ s.snap.epoch ∈ x.groups.map (fun g => gEpoch g.2)
      let open_ (t : State) := RestoreFailed s t ∧ 1 ≤ t.snap.error ∧ t.snap.error ≤ 9
      (s.snap.target = 0 → r.failure.isSome = true →
        ∃ t, exec (.restoreComplete r) s = .next t ∧ RestoreFailed s t ∧ t.snap.error = 1)
      ∧ (¬ (s.snap.target = 0 ∧ r.failure.isSome = true) → ¬ SourceRead r s →
        ∃ t, exec (.restoreComplete r) s = .next t ∧ open_ t)
      ∧ (SourceRead r s → (restoreReason s r).1 ≠ 0 →
        ∃ t, exec (.restoreComplete r) s = .next t ∧ RestoreFailed s t ∧ t.snap.error = (restoreReason s r).1)
      ∧ (SourceRead r s → (restoreReason s r).1 = 0 → stale →
        exec (.restoreComplete r) s = .next { s with snap := { s.snap with state := s.snap.before } })
      ∧ (SourceRead r s → (restoreReason s r).1 = 0 → ¬ stale → groupsFit (restoreGroups x s) = false →
        ∃ t, exec (.restoreComplete r) s = .next t ∧ RestoreFailed s t ∧ t.snap.error = 3)
      ∧ (SourceRead r s → (restoreReason s r).1 = 0 → ¬ stale → groupsFit (restoreGroups x s) = true →
          (x.domains.map (·.domain)).Nodup →
        ∃ t, exec (.restoreComplete r) s = .next t ∧ t.snap.state = 3 ∧ testBit t.host.irqCause.toNat 7 = true ∧ t.job.seed = x.seed
          ∧ (∀ g ∈ t.job.groups, gEpoch g.2 = s.snap.epoch % 65536) ∧ t.job.failed = []
          ∧ (∀ y ∈ x.domains, y.domain ∈ s.snap.domains →
              (t.dom y.domain).committedTag = restoredTag s y ∧ (t.dom y.domain).lost = false ∧ (t.dom y.domain).restoreState = 1
              ∧ (s.snap.point = 0 → (t.dom y.domain).armed = some y.record)
              ∧ ∀ k, s.stackOk k = true → (t.dreg k y.domain).committedTag = restoredTag s y ∧ (t.dreg k y.domain).lost = false)
          ∧ (∀ d, d ∉ s.snap.domains → t.dom d = s.dom d)))
    ∧ (∀ (r : RestoreSource) (s : State), sourceReady s = false → exec (.restoreComplete r) s = .next s)
    ∧ (∀ (e : BitVec 128) (point tag : Nat) (q : RestoredSquare) (s : State), q.committed.length = slotBytes e →
      let t := restoreSquare e point tag q s
      let plane (p : Nat) := t.dram.read (planeAddr e q.square p) (slotBytes e)
      (point ≠ 0 ∨ q.lastc = false → plane 0 = q.committed)
        ∧ (point = 0 → q.lastc = true → plane 1 = q.committed ∧ (q.other.length = slotBytes e → plane 0 = q.other))
        ∧ (point ≠ 0 → q.lastc = true → q.other.length = slotBytes e → plane 1 = q.other)
        ∧ t.vrec (stackOf (rBase e)) (rVtBase e + q.square) =
            { dirty := false, p := false, tag8 := tag % 256, was := tag % 256, lastc := true, m0 := true, m1 := true })
    ∧ (∀ (v : Via) (s : State), AcceptedReg v .snapControl 4 s →
      (s.snap.state = 1 ∨ s.snap.state = 2 →
        ∃ u, exec (.snapCancel v) s = .next (answeredReg v .snapControl 4 s u) ∧ u.snap.state = 4 ∧ u.snap.error = 9
          ∧ testBit u.host.irqCause.toNat 7 = true ∧ u.dram = s.dram)
      ∧ (s.snap.state = 5 →
        ∃ u, exec (.snapCancel v) s = .next (answeredReg v .snapControl 4 s u) ∧ u.snap.state = 4 ∧ u.snap.error = 9 ∧ NamedLost s u)
      ∧ (s.snap.state ≠ 1 → s.snap.state ≠ 2 → s.snap.state ≠ 5 →
        exec (.snapCancel v) s = .next (answeredReg v .snapControl 4 s (unstaged v s))))

/-- The fault log (R329, R344, R292). LOG_CLEAR with 1 erases the log in RAM and flash, and SEQ continues; with another value nothing is
erased. A record that reaches flash leaves RAM, oldest first, and flash keeps the last 4,096. A device in which the write and then its
read-back or its one retry fail (free values: the model's choice, log entry 5) is marked failed (Table 15-2); a record that no device takes
stays in RAM, as do all while the security core restarts. -/
def Obligations.FaultLogToFlash : Prop :=
  (∀ (v : Via) (n : Byte) (s : State), AcceptedReg v .logClear n.toNat s →
      (n = 1#8 → ∃ u, exec (.logClear v n) s = .next (answeredReg v .logClear n.toNat s u)
        ∧ u.log = { s.log with ram := [], last := [] } ∧ u.flash = { s.flash with log := [] }
        ∧ u = { unstaged v s with log := u.log, flash := u.flash, vers := u.vers })
      ∧ (n ≠ 1#8 → exec (.logClear v n) s = .next (answeredReg v .logClear n.toNat s (unstaged v s))))
    ∧ (∀ (r : Nat × BitVec 512) (rest : List (Nat × BitVec 512)) (s : State), s.log.ram = r :: rest →
        s.dev.restarting.contains coreSecurity = false →
      let d := (s.draw 6).1
      let lost (k : Nat) := testBit d k = true ∧ (testBit d (2 + k) = true ∨ testBit d (4 + k) = true)
      let lostA := s.flash.failA = true ∨ lost 0
      let lostB := s.flash.failB = true ∨ lost 1
      -- the state once the devices are marked
      let u := forEach (failingDevices d) flashFailed (s.draw 6).2
      ∃ t, exec .faultLogFlush s = .next t
        ∧ (lostA → t.flash.failA = true) ∧ (lostB → t.flash.failB = true)
        ∧ (if lostA ∧ lostB then t = u ∧ t.log.ram.head?.map (·.1) = some r.1
          else t.log = { u.log with ram := u.log.ram.drop 1 }
            ∧ t.flash = { u.flash with log := (u.flash.log ++ u.log.ram.take 1).drop (u.flash.log.length + 1 - 4096) }
            ∧ t.flash.log.getLast?.map (·.1) = some r.1
            ∧ t = { u with log := t.log, flash := t.flash, vers := t.vers }
            ∧ (d = 0 → t.log = { s.log with ram := rest })))
    ∧ (∀ s : State, s.log.ram = [] ∨ s.dev.restarting.contains coreSecurity = true → exec .faultLogFlush s = .next s)

/-! ### Nines units, counters, freeze, beads -/

/-- A unit after FINISH (R346, R348): RESULT, and the comparison with EXPECTED where FLAGS bit 2 asks for it. -/
def NinesFinished (x : Nines) : Nines :=
  let r := ninesFinish x x.running.toNat
  let bad := testBit x.flags 2 && r != x.expected.toNat % 2 ^ x.width
  { x with result := BitVec.ofNat 64 r, mismatch := bad, mismatches := if bad then satAdd 32 x.mismatches 1 else x.mismatches }

/-- Nines units (R346 to R349; the state after ABORT and the bytes of a plain write are log entry 36), on the unit that NINES_SEL of the path names. INIT sets RUNNING to INIT; RUN in a powered module within its
source starts a run, and is refused without power, on the store of a Board in DEEP_SLEEP, or outside it; a run takes every byte of its range into RUNNING and ends DONE, with a FINISH
where FLAGS bit 3 is set, or ends in ERROR at the lowest uncorrectable line with the bytes before it and UE_MEM, and one of a Board's store
halts the Board (R100); FINISH forms RESULT and
compares it with EXPECTED, a mismatch counting, and signalling vector 7 where FLAGS bit 4 is set; ABORT ends a run after the bytes taken;
RUNNING can be written. A busy unit answers INIT, RUN, FINISH and the write BUSY and changes nothing. -/
def Obligations.NinesUnits : Prop :=
  (∀ (v : Via) (s : State),
      let u := s.rd .ninesSel (pathNo v.path)
      let x := s.nines u
      let c := fun (n : Nat) (t : State) => answeredReg v .ninesControl n s t
      (ninesBusy s u = false →
        (AcceptedReg v .ninesControl 1 s →
          exec (.ninesInit v) s = .next (c 1 ((unstaged v s).setNines u { x with running := BitVec.ofNat 64 (x.init.toNat % 2 ^ x.width) })))
        ∧ (AcceptedReg v .ninesControl 2 s →
          (s.powered = true → (u < 16 → s.storeUp u = true) → ninesInSource s u x = true →
            exec (.ninesRun v) s = .next (c 2 ((unstaged v s).setNines u { x with state := 1, bytesDone := 0 })))
          ∧ (s.powered = false ∨ (u < 16 ∧ s.storeUp u = false) ∨ ninesInSource s u x = false → ∃ t, exec (.ninesRun v) s = .next t ∧ AnswerOnly v s t))
        ∧ (AcceptedReg v .ninesControl 3 s →
          let told := (NinesFinished x).mismatch = true ∧ testBit x.flags 4 = true
          ∃ t, exec (.ninesFinish v) s = .next (c 3 t)
            ∧ t.nines u = NinesFinished x
            ∧ (told → testBit t.host.irqCause.toNat 7 = true) ∧ t.log = s.log
            ∧ (¬ told → t = { unstaged v s with cnt := t.cnt }))
        ∧ (∀ w : W64, AcceptedReg v .ninesRunning w.toNat s →
          exec (.ninesRunningWrite v w) s = .next (answeredReg v .ninesRunning w.toNat s
            ((unstaged v s).setNines u { x with running := w }))))
      ∧ (ninesBusy s u = true →
        (AcceptedReg v .ninesControl 1 s → ∃ t, exec (.ninesInit v) s = .next t ∧ AnswerOnly v s t)
        ∧ (AcceptedReg v .ninesControl 2 s → ∃ t, exec (.ninesRun v) s = .next t ∧ AnswerOnly v s t)
        ∧ (AcceptedReg v .ninesControl 3 s → ∃ t, exec (.ninesFinish v) s = .next t ∧ AnswerOnly v s t)
        ∧ (∀ w : W64, AcceptedReg v .ninesRunning w.toNat s → ∃ t, exec (.ninesRunningWrite v w) s = .next t ∧ AnswerOnly v s t))
      ∧ (∀ done : Nat, AcceptedReg v .ninesControl 4 s →
        (x.state = 1 →
          ∃ t, exec (.ninesAbort v done) s = .next (c 4 t)
            ∧ t.nines u = { x.take (ninesRead s u x (min done x.bytes)).1 with state := 0, bytesDone := min done x.bytes }
            ∧ t = { unstaged v s with
                cnt := t.cnt, regs := t.regs, stks := t.stks, boards := t.boards, host := t.host, can := t.can, out := t.out }
            ∧ SaturationOnly s t)
        ∧ (x.state ≠ 1 → exec (.ninesAbort v done) s = .next (c 4 (unstaged v s)))))
    ∧ (∀ (unit : Fin 22) (s : State),
      let u := unit.val
      let x := s.nines u
      let stops := fun (a : Nat) (t : State) =>
        t.nines u = { x.take (ninesRead s u x (a - x.src)).1 with state := 3, bytesDone := a - x.src }
          ∧ (16 ≤ u → testBit t.host.irqCause.toNat 1 = true ∧ testBit t.host.irqCause.toNat 2 = true)
          ∧ (u < 16 → (t.board u).halt ≠ .none ∧ (∃ f ∈ (t.board u).haltFaults, f.code = 0x0401)
              ∧ ∀ d ∈ s.usedDoms, testBit (s.dom d).boards u = true → d ∈ (t.board u).haltDomains)
          ∧ t.dram = s.dram ∧ t.store = s.store
      (x.state = 1 → ninesOwned s u = false →
        (ninesBad s u x = none →
          let y := { x.take (ninesRead s u x x.bytes).1 with state := 2, bytesDone := x.bytes }
          ∃ t, exec (.ninesRunDone unit none) s = .next t
            ∧ t.nines u = (if testBit x.flags 3 then NinesFinished y else y)
            ∧ (testBit x.flags 3 = false → SaturationOnly s t ∧ t = { s with
                cnt := t.cnt, regs := t.regs, stks := t.stks, boards := t.boards, host := t.host, can := t.can, out := t.out }))
        ∧ (∀ a, ninesBad s u x = some a → ∃ t, exec (.ninesRunDone unit none) s = .next t ∧ stops a t)
        ∧ (∀ a, ninesBad s u x = none → a % 64 = 0 → x.src ≤ a → a < x.src + x.bytes →
          ∃ t, exec (.ninesRunDone unit (some a)) s = .next t ∧ stops a t))
      ∧ (∀ bad, x.state ≠ 1 ∨ ninesOwned s u = true → exec (.ninesRunDone unit bad) s = .next s))

/-- Programmable counters, block counters and the reader (R351 to R354). A control word of an event that exists is stored and its counter and flag are
cleared; a reserved event is refused. CNT_CLEAR clears the counters of the bits written. BLK_CLEAR with 1 clears the selected block counter. The reader
runs between START and STOP; a sample writes one record, its first four bytes last, in the ring's next slot and advances PROD, or is skipped and counted
when the ring is full; in clearing mode the counters of the record are cleared. A stopped reader samples nothing. -/
def Obligations.CountersAndReader : Prop :=
  (∀ (v : Via) (w : W32) (s : State), AcceptedReg v .cntControl w.toNat s →
      let b := s.rd .cntBoardSel (pathNo v.path)
      let k := s.rd .cntSel (pathNo v.path)
      (bitsOf w.toNat 7 0 ≤ 0x16 →
        ∃ u, exec (.cntControl v w) s = .next (answeredReg v .cntControl w.toNat s u)
          ∧ u.board b = { s.board b with ctl := (u.board b).ctl, counters := (u.board b).counters }
          ∧ (u.board b).cntCtl k = setBits w.toNat 29 24 0 ∧ tget (u.board b).counters k (0, false) = (0, false)
          ∧ (∀ j, j ≠ k → (u.board b).cntCtl j = (s.board b).cntCtl j
              ∧ tget (u.board b).counters j (0, false) = tget (s.board b).counters j (0, false))
          ∧ (∀ c, c ≠ b → u.board c = s.board c) ∧ u = { unstaged v s with boards := u.boards })
      ∧ (0x16 < bitsOf w.toNat 7 0 → ∃ t, exec (.cntControl v w) s = .next t ∧ AnswerOnly v s t))
    ∧ (∀ (v : Via) (m : Byte) (s : State), AcceptedReg v .cntClear m.toNat s →
      let b := s.rd .cntBoardSel (pathNo v.path)
      ∃ u, exec (.cntClear v m) s = .next (answeredReg v .cntClear m.toNat s u)
        ∧ (∀ k, tget (u.board b).counters k (0, false) = if testBit m.toNat k then (0, false) else tget (s.board b).counters k (0, false))
        ∧ u.board b = { s.board b with counters := (u.board b).counters }
        ∧ (∀ c, c ≠ b → u.board c = s.board c) ∧ u = { unstaged v s with boards := u.boards })
    ∧ (∀ (v : Via) (n : Byte) (s : State), AcceptedReg v .blkClear n.toNat s →
      let id := s.rd .blkSel (pathNo v.path)
      ∃ u, exec (.blkClear v n) s = .next (answeredReg v .blkClear n.toNat s u)
        ∧ (n = 1#8 → tget u.cnt.block id (0, false) = (0, false))
        ∧ (∀ j, j ≠ id ∨ n ≠ 1#8 → tget u.cnt.block j (0, false) = tget s.cnt.block j (0, false))
        ∧ u = { unstaged v s with cnt := { s.cnt with block := u.cnt.block } })
    ∧ (∀ (v : Via) (s : State),
      (AcceptedReg v .readerControl 1 s →
        ∃ u, exec (.readerStart v) s = .next (answeredReg v .readerControl 1 s u) ∧ u.cnt = { s.cnt with readerOn := true }
          ∧ u.rd .readerRecordBytes = recordBytes (s.rd .readerKinds) ∧ u = { unstaged v s with cnt := u.cnt, regs := u.regs, flash := u.flash })
      ∧ (AcceptedReg v .readerControl 2 s →
        exec (.readerStop v) s = .next (answeredReg v .readerControl 2 s { unstaged v s with cnt := { s.cnt with readerOn := false } })))
    ∧ (∀ s : State, s.cnt.readerOn = true → s.hubUp = true →
      let bytes := recordBytes (s.rd .readerKinds)
      let slots := s.rd .readerRingBytes / bytes
      let ahead := (s.cnt.readerProd + 2 ^ 32 - s.rd .readerCons) % 2 ^ 32
      (ahead = slots → exec .readerSample s =
          .next { s with cnt := { s.cnt with readerSkipped := satAdd 32 s.cnt.readerSkipped 1 } })
      ∧ (ahead ≠ slots →
        ∃ t rec_, exec .readerSample s = .next t
          ∧ t.out = .hostWrite (s.rd .readerRingAddr + s.cnt.readerProd % max 1 slots * bytes) (rec_.take 4)
              :: .hostWrite (s.rd .readerRingAddr + s.cnt.readerProd % max 1 slots * bytes + 4) (rec_.drop 4) :: s.out
          ∧ rec_.length = bytes ∧ leAt rec_ 0 4 = s.cnt.readerProd % 2 ^ 32
          ∧ t.cnt.readerProd = (s.cnt.readerProd + 1) % 2 ^ 32
          ∧ (s.rd .readerMode = 1 → ∀ id ∈ readerIds (s.rd .readerKinds), tget t.cnt.block id (0, false) = (0, false))
          ∧ t = { s with out := t.out, cnt := { s.cnt with block := t.cnt.block, readerProd := t.cnt.readerProd }, fresh := t.fresh }))
    ∧ (∀ s : State, s.cnt.readerOn = false ∨ s.hubUp = false → exec .readerSample s = .next s)

/-- Freeze, thaw and beads (R355 to R357). FREEZE and THAW of the module wait for the tick FREEZE_LEAD µs ahead. On the fabric, at the root of a
group of kind MODULES, the module takes the same tick and sends the message to every child; below the root it sends it toward the root; on
another group, or on a module that has no member of it (log entry 28), it is refused. At its tick a freeze makes every counter stand still and a thaw lets them count again; before it nothing
happens. A FREEZE message from the root's side is taken once, a repeat is only acknowledged; at the root one from a child is taken too; an
acknowledgement ends the message that it acknowledges. While the counters are frozen no block counter, no programmable counter and no cycle
counter of a Board moves (R356). BEAD_N restarts the count of
every Board in use; an offset outside it is refused. -/
def Obligations.FreezeAndBeads : Prop :=
  (∀ (v : Via) (s : State),
      let t := s.now + 1000 * s.rd .freezeLead
      let f := s.cnt.freeze
      let due := fun (on : Bool) => { s.cnt with freeze := { f with due := insertDue t on f.due } }
      (AcceptedReg v .freezeControl 1 s →
        exec (.freezeModule v) s = .next (answeredReg v .freezeControl 1 s { unstaged v s with cnt := due true }))
      ∧ (AcceptedReg v .freezeControl 2 s →
        exec (.thawModule v) s = .next (answeredReg v .freezeControl 2 s { unstaged v s with cnt := due false }))
      ∧ (gKind (s.grp (s.rd .freezeGroup)) ≠ 5 ∨ 24 < gUpPort (s.grp (s.rd .freezeGroup)) →
        (AcceptedReg v .freezeControl 3 s → ∃ t, exec (.freezeFabric v) s = .next t ∧ AnswerOnly v s t)
        ∧ (AcceptedReg v .freezeControl 4 s → ∃ t, exec (.thawFabric v) s = .next t ∧ AnswerOnly v s t))
      ∧ (gKind (s.grp (s.rd .freezeGroup)) = 5 → gUpPort (s.grp (s.rd .freezeGroup)) ≤ 24 →
        let e := s.grp (s.rd .freezeGroup)
        let root := gUpPort e = 24
        (AcceptedReg v .freezeControl 3 s →
          ∃ u, exec (.freezeFabric v) s = .next (answeredReg v .freezeControl 3 s u)
            ∧ (root → u.cnt.freeze = (due true).freeze ∧ ∀ p ∈ gChildren e, ∃ w ∈ u.fab.unacked, w.port = p ∧ w.pkt.opcode = 0x26)
            ∧ (¬ root → u.cnt.freeze = f ∧ ∃ w ∈ u.fab.unacked, w.port = gUpPort e ∧ w.pkt.opcode = 0x26))
        ∧ (AcceptedReg v .freezeControl 4 s →
          ∃ u, exec (.thawFabric v) s = .next (answeredReg v .freezeControl 4 s u)
            ∧ (root → u.cnt.freeze = (due false).freeze ∧ ∀ p ∈ gChildren e, ∃ w ∈ u.fab.unacked, w.port = p ∧ w.pkt.opcode = 0x26)
            ∧ (¬ root → u.cnt.freeze = f ∧ ∃ w ∈ u.fab.unacked, w.port = gUpPort e ∧ w.pkt.opcode = 0x26))))
    ∧ (∀ (t : Nat) (on : Bool) (rest : List (Nat × Bool)) (s : State), s.cnt.freeze.due = (t, on) :: rest → t ≤ s.now →
      ∃ u, exec .freezeTick s = .next u ∧ u.cnt.freeze.frozen = on ∧ u.cnt.freeze.due = rest ∧ u.dram = s.dram ∧ u.doms = s.doms
        ∧ (on = true → s.cnt.freeze.frozen = false → u.cnt.freeze.freezeTick = t)
        ∧ (on = false → u = { s with cnt := { s.cnt with freeze := { s.cnt.freeze with due := rest, frozen := false, thawTick := t } } }))
    ∧ (∀ s : State, (∀ e ∈ s.cnt.freeze.due, s.now < e.1) → exec .freezeTick s = .next s)
    ∧ (∀ (id n : Nat) (s : State), s.cnt.freeze.frozen = true → countBlock id n s = s)
    ∧ (∀ (b ev n : Nat) (d l : Option Nat) (s : State), s.cnt.freeze.frozen = true → countEvent b ev d l n s = s)
    ∧ (∀ s : State, s.pending = [] → s.dev.moving = none → s.cnt.freeze.frozen = true → Quiet s →
      ∃ t, step s = .next t ∧ t.cnt = s.cnt
        ∧ ∀ b, (t.board b).cycles = (s.board b).cycles ∧ (t.board b).counters = (s.board b).counters)
    ∧ (∀ (p : PortNo) (pkt : Pkt) (s : State), pkt.opcode = 0x26 → s.powered = true → s.device ≠ 0xFFFF → pktOk pkt = true → pkt.hop ≠ 31 →
      let g := leAt pkt.payload 10 2
      let t := leAt pkt.payload 0 8
      let act := byteAt pkt.payload 8
      let flags := byteAt pkt.payload 16
      let round := leAt pkt.payload 20 4
      act = 1 ∨ act = 2 → epochOk s g (leAt pkt.payload 12 2) = true → gKind (s.grp g) = 5 →
      (testBit flags 0 = true → testBit flags 1 = false → p.val = gUpPort (s.grp g) → s.now ≤ t →
        ∃ u, exec (.freeze p pkt) s = .next u
          ∧ ((g, 1, p.val, round) ∉ s.fab.roundIn →
              u.cnt.freeze.due = insertDue t (act == 1) s.cnt.freeze.due ∧ (g, 1, p.val, round) ∈ u.fab.roundIn)
          ∧ ((g, 1, p.val, round) ∈ s.fab.roundIn → u.cnt.freeze = s.cnt.freeze))
      ∧ (testBit flags 0 = false → testBit flags 1 = false → testBit (gForkPorts (s.grp g)) p.val = true → s.now ≤ t →
        gUpPort (s.grp g) = 24 → (g, 0, p.val, round) ∉ s.fab.roundIn →
        ∃ u, exec (.freeze p pkt) s = .next u
          ∧ u.cnt.freeze.due = insertDue t (act == 1) s.cnt.freeze.due
          ∧ ∀ q ∈ gChildren (s.grp g), ∃ w ∈ u.fab.unacked, w.port = q ∧ w.pkt.opcode = 0x26)
      ∧ (testBit flags 1 = true →
        ∃ u, exec (.freeze p pkt) s = .next u ∧ u.cnt.freeze = s.cnt.freeze
          ∧ ∀ w ∈ u.fab.unacked, ¬ (w.port = p.val ∧ w.pkt.opcode = 0x26 ∧ ackFreeze w.pkt.payload = pkt.payload)))
    ∧ (∀ (v : Via) (n : Byte) (s : State), AcceptedReg v .beadN n.toNat s →
      let o := s.rd .beadOffset
      (n = 0#8 ∨ o = 0xFFFFFFFF ∨ o < 2 ^ n.toNat →
        ∃ u, exec (.beadNWrite v n) s = .next (answeredReg v .beadN n.toNat s u) ∧ u.rd .beadN = n.toNat
          ∧ (n ≠ 0#8 → ∀ b, s.boardOk b = true → (u.board b).beadK = 0 ∧ (o ≠ 0xFFFFFFFF → (u.board b).beadOff = o))
          ∧ (n = 0#8 → u.boards = s.boards))
      ∧ (n ≠ 0#8 → o ≠ 0xFFFFFFFF → 2 ^ n.toNat ≤ o → ∃ t, exec (.beadNWrite v n) s = .next t ∧ AnswerOnly v s t))

/-! ### Power and temperature -/

/-- The throttle of a half has been on for 1 ms. -/
def OnForMs (s : State) (h : Nat) : Prop := (s.pwr.half h).hwOn = true ∧ (s.pwr.half h).hwSince + 1000000 ≤ s.dev.up

/-- What holds a half clocked down beside the hardware throttle. -/
def heldDown (x : Half) : Bool := x.wantHost || x.wantPower || x.wantThermal

/-- The hardware throttle (R310, R315). A trigger in a powered module sets DUTY to at most 8/16 in every half it acts for, counts, sets ACT_INHIBIT bit 0,
raises THROTTLE for each half, and starts an excursion unless it is an overcurrent. While the excursion that set it off persists, from 1 ms on, each throttled
half loses one sixteenth down to 2/16; then both halves are clocked down. Without power, or with nothing to throttle, nothing happens. The throttle of a half
stays on for at least 1 ms and while the excursion that set it off persists; the handover ends it: DUTY is 16/16, and the half stays clocked down only while
something else holds it. -/
def Obligations.HardwareThrottle : Prop :=
  (∀ (g : ThrottleTrigger) (s : State), s.powered = true →
      ∃ t, exec (.throttle g) s = .next t
        ∧ (∀ h, h < 2 → t.pwr.half h = if h ∈ triggerHalves g then
            { s.pwr.half h with hwOn := true, hwDuty := min (s.pwr.half h).hwDuty 8, hwSince := s.dev.up
                                hwExc := (s.pwr.half h).hwExc || triggerExcursion g } else s.pwr.half h)
        ∧ t.rd .throttleEvents = satAdd 32 (s.rd .throttleEvents) 1
        ∧ testBit t.fw.inhibit 0 = true ∧ testBit t.host.irqCause.toNat 1 = true ∧ testBit t.host.irqCause.toNat 6 = true
        ∧ t.pwr.excursion = (s.pwr.excursion || triggerExcursion g)
        ∧ t.dev = s.dev ∧ t.boards = s.boards ∧ t.doms = s.doms)
    ∧ (∀ (g : ThrottleTrigger) (s : State), s.powered = false → exec (.throttle g) s = .next s)
    ∧ (∀ s : State,
      let on (h : Nat) := OnForMs s h ∧ (s.pwr.half h).hwExc = true
      let lowest := ∃ h < 2, on h ∧ (s.pwr.half h).hwDuty ≤ 2
      (s.pwr.excursion = true → on 0 ∨ on 1 →
        ∃ t, exec (.throttleDutyStep true) s = .next t
          ∧ (lowest → ∀ h < 2, t.pwr.half h = { s.pwr.half h with wantHw := true, down := true })
          ∧ (¬ lowest → ∀ h < 2,
              (on h → t.pwr.half h = { s.pwr.half h with hwDuty := (s.pwr.half h).hwDuty - 1 })
              ∧ (¬ on h → t.pwr.half h = s.pwr.half h))
          ∧ t = { s with pwr := t.pwr, regs := t.regs, flash := t.flash })
      ∧ (s.pwr.excursion = false ∨ (¬ on 0 ∧ ¬ on 1) → exec (.throttleDutyStep true) s = .next s)
      ∧ exec (.throttleDutyStep false) s = .next s)
    ∧ (∀ s : State,
      let may (h : Nat) := OnForMs s h ∧ ¬ ((s.pwr.half h).hwExc = true ∧ s.pwr.excursion = true)
      (¬ may 0 → ¬ may 1 → exec .throttleHandover s = .next s)
      ∧ (may 0 ∨ may 1 →
        ∃ t, exec .throttleHandover s = .next t
          ∧ (∀ h < 2, may h → t.pwr.half h = { s.pwr.half h with
              hwOn := false, hwDuty := 16, wantHw := false, hwExc := false, down := heldDown (s.pwr.half h) })
          ∧ (∀ h < 2, ¬ may h → t.pwr.half h = s.pwr.half h)
          ∧ (s.pwr.excursion = false → t.pwr.east.hwOn = false → t.pwr.west.hwOn = false → testBit t.fw.inhibitOn 0 = false)
          ∧ (s.pwr.excursion = true ∨ t.pwr.east.hwOn = true ∨ t.pwr.west.hwOn = true → t.fw = s.fw)
          ∧ t = { s with pwr := t.pwr, regs := t.regs, flash := t.flash, fw := { s.fw with inhibitOn := t.fw.inhibitOn } }))

/-- What the average of the last ms makes of an excursion: its length counts that ms (R314). -/
def ExcursionAfter (p1 : Nat) (s t : State) : Prop :=
  t.pwr.excursion = decide (s.rd .powerLimit < p1)
    ∧ (s.rd .powerLimit < p1 →
        t.pwr.excMs = (if s.pwr.excursion then s.pwr.excMs + 1 else 1) ∧ t.pwr.excLongest = max s.pwr.excLongest t.pwr.excMs
        ∧ (s.pwr.excursion = false → testBit t.fw.inhibit 0 = true))
    ∧ (p1 ≤ s.rd .powerLimit → t.pwr.excLongest = s.pwr.excLongest ∧ (s.pwr.excursion = true → t.pwr.excMs = 0))

/-- The power controller (R314, R316; which average lets a half clock up is log entry 44), once each ms with the averages of 1 and 100 ms. Above 97 % of POWER_LIMIT a half's cap falls by 1/16, not below 2/16;
with both averages below 90 % it rises by 1/16, not above 16/16 and once in ten runs. A half whose cap has been 8/16 or less for 100 ms is clocked down with
its cap at 16/16, and up again after 1,000 ms at 16/16 with the 100 ms average below 75 %; the run that sets a cap begins its time. Without compute rails
it measures and controls nothing; while the power-management core restarts it does neither, and without hub power nothing happens. An excursion lasts while the 1 ms
average exceeds the limit, holds ACT_INHIBIT bit 0, and the longest is EXCURSION_MAX. -/
def Obligations.PowerController : Prop :=
  ∀ (p1 p100 : Nat) (s : State),
    let lim := s.rd .powerLimit
    let above := 97 * lim < 100 * p1 ∨ 97 * lim < 100 * p100
    let under := 100 * p1 < 90 * lim ∧ 100 * p100 < 90 * lim
    let rises := under ∧ s.pwr.raiseWait = 0 ∧ (s.pwr.east.cap < 16 ∨ s.pwr.west.cap < 16)
    (s.hubUp = false → exec (.powerControllerTick p1 p100) s = .next s)
    ∧ (s.hubUp = true → s.dev.restarting.contains corePower = true →
      ∃ t, exec (.powerControllerTick p1 p100) s = .next t ∧ ExcursionAfter p1 s t
        ∧ t = { s with fw := t.fw, pwr := { s.pwr with
            excursion := t.pwr.excursion, excMs := t.pwr.excMs, excLongest := t.pwr.excLongest } })
    ∧ (s.hubUp = true → s.dev.restarting.contains corePower = false →
      ∃ t, exec (.powerControllerTick p1 p100) s = .next t ∧ ExcursionAfter p1 s t
        ∧ t.pwr.power = p1 ∧ t.pwr.avg100 = p100
        ∧ t.rd .energy = satAdd Reg.energy.bits (s.rd .energy) p1
        ∧ t.rd .excursionMax = max (s.rd .excursionMax) (min (1000 * t.pwr.excLongest) (2 ^ 32 - 1))
        ∧ (s.powered = false → t.pwr.east = s.pwr.east ∧ t.pwr.west = s.pwr.west ∧ t.pwr.raiseWait = s.pwr.raiseWait)
        ∧ (s.powered = true →
          (∀ h < 2,
            let x := s.pwr.half h
            let cap := if above then max 2 (x.cap - 1) else if rises then min 16 (x.cap + 1) else x.cap
            let low := if cap ≤ 8 ∧ x.cap ≤ 8 then x.lowMs + 1 else 0
            (low < 100 → (t.pwr.half h).cap = cap ∧ (t.pwr.half h).lowMs = low ∧ (x.wantPower = false → (t.pwr.half h).wantPower = false)
                ∧ (x.wantPower = true →
                  ((t.pwr.half h).wantPower = false ↔ cap = 16 ∧ x.cap = 16 ∧ 100 * p100 < 75 * lim ∧ 999 ≤ x.calmMs)))
            ∧ (100 ≤ low → (t.pwr.half h).cap = 16 ∧ (t.pwr.half h).wantPower = true ∧ (t.pwr.half h).down = true)
            ∧ (t.pwr.half h).down = (t.pwr.half h).wantsDown
            ∧ (t.pwr.half h).hwOn = x.hwOn ∧ (t.pwr.half h).hwDuty = x.hwDuty ∧ (t.pwr.half h).wantThermal = x.wantThermal)
          ∧ t.pwr.raiseWait = (if rises then 9 else s.pwr.raiseWait - 1))
        ∧ t = { s with pwr := t.pwr, regs := t.regs, flash := t.flash, fresh := t.fresh, fw := t.fw })

/-- Rail faults and temperature limits (R288, R317, R318). A rail fault counts, raises RAIL_FAULT, sets SAFE_CAUSE bit 1, and takes a module
with hub power to SAFE; in STANDBY the module stays there, and in OFF it only counts; the bit clears when the fault is cleared. A sensor at
100 °C or more clocks its half down and sets ACT_INHIBIT bit 1; at 115 °C it asserts THERMTRIP# and takes the module to SAFE with bit 0; a
stack's top die at 85 °C doubles its refresh. Cooler samples change nothing but the readings, and what telemetry shows while the power-management core runs. Each limit ends below its own threshold, 95 °C,
90 °C and 80 °C, and not before. -/
def Obligations.RailsAndTemperature : Prop :=
  (∀ (k : RailKind) (s : State),
      (s.hubUp = true →
        ∃ t, exec (.railFault k) s = .next t ∧ testBit t.dev.safeCause 1 = true ∧ t.dev.state = .safe
          ∧ testBit t.host.irqCause.toNat 1 = true ∧ testBit t.host.irqCause.toNat 6 = true ∧ t.alert = true
          ∧ t.rd .railFaults = satAdd 32 (s.rd .railFaults) 1
          ∧ (s.dev.state ≠ .safe → WithoutPower t ∧ t.job = { loadTime := s.job.loadTime }))
      ∧ (s.dev.state = .standby →
        ∃ t, exec (.railFault k) s = .next t ∧ testBit t.dev.safeCause 1 = true ∧ t.dev.state = .standby
          ∧ testBit t.host.irqCause.toNat 1 = true ∧ testBit t.host.irqCause.toNat 6 = true
          ∧ t.rd .railFaults = satAdd 32 (s.rd .railFaults) 1)
      ∧ (s.dev.state = .off → exec (.railFault k) s = .next (s.bump .railFaults)))
    ∧ (∀ s : State, exec .railFaultClear s = .next { s with dev := { s.dev with safeCause := clrBit s.dev.safeCause 1 } })
    ∧ (∀ (temps : List (Nat × Int)) (s : State), s.hubUp = true →
      let ts := temps.filter (fun e => e.1 < 94 && sensorPowered s e.1)
      ∃ t, exec (.thermalSample temps) s = .next t
        ∧ (∀ h, h < 2 → (∃ e ∈ ts, sensorIn h e.1 = true ∧ 100 ≤ e.2) →
            (t.pwr.half h).wantThermal = true
            ∧ ((s.pwr.half h).wantThermal = false → (t.pwr.half h).down = true ∧ testBit t.fw.inhibit 1 = true
                ∧ testBit t.host.irqCause.toNat 6 = true))
        ∧ ((∃ e ∈ ts, 115 ≤ e.2) → t.dev.thermTrip = true
            ∧ (s.dev.thermTrip = false → testBit t.dev.safeCause 0 = true ∧ t.dev.state = .safe ∧ testBit t.host.irqCause.toNat 6 = true))
        ∧ (∀ k, k < 12 → (∃ x, (65 + 2 * k, x) ∈ ts ∧ 85 ≤ x) → k ∈ t.pwr.refresh)
        ∧ ((∀ e ∈ ts, e.2 < 85) →
            t = { s with pwr := { s.pwr with temps := t.pwr.temps, shown := t.pwr.shown }, regs := t.regs, flash := t.flash, fresh := t.fresh })
        ∧ (s.dev.restarting.contains corePower = true → t.pwr.shown = s.pwr.shown)
        ∧ (s.dev.restarting.contains corePower = false → t.pwr.shown = t.pwr.temps))
    ∧ (∀ (temps : List (Nat × Int)) (s : State), s.hubUp = false → exec (.thermalSample temps) s = .next s)
    ∧ (∀ (h : Fin 2) (s : State), (s.pwr.half h.val).wantThermal = true →
      (∀ e ∈ s.pwr.temps, sensorIn h.val e.1 = true → sensorPowered s e.1 = true → e.2 < 95) →
      ∃ t, exec (.thermalThrottleEnd h) s = .next t
        ∧ t.pwr.half h.val = { s.pwr.half h.val with
            wantThermal := false
            down := (s.pwr.half h.val).wantHost || (s.pwr.half h.val).wantPower || (s.pwr.half h.val).wantHw }
        ∧ t.pwr.half (1 - h.val) = s.pwr.half (1 - h.val)
        ∧ ((s.pwr.half (1 - h.val)).wantThermal = false → testBit t.fw.inhibitOn 1 = false)
        ∧ t = { s with pwr := t.pwr, regs := t.regs, flash := t.flash, fw := { s.fw with inhibitOn := t.fw.inhibitOn } })
    ∧ (∀ s : State, s.dev.thermTrip = true → (∀ e ∈ s.pwr.temps, sensorPowered s e.1 = true → e.2 < 90) →
      exec .thermalTripEnd s = .next { s with dev := { s.dev with thermTrip := false, safeCause := clrBit s.dev.safeCause 0 } })
    ∧ (∀ (k : StackNo) (s : State), tget s.pwr.temps (65 + 2 * k.val) 0 < 80 →
      exec (.refreshRestore k) s = .next { s with pwr := { s.pwr with refresh := s.pwr.refresh.filter (· != k.val) } })
    ∧ (∀ (h : Fin 2) (s : State),
      ((s.pwr.half h.val).wantThermal = false
          ∨ (∃ e ∈ s.pwr.temps, sensorIn h.val e.1 = true ∧ sensorPowered s e.1 = true ∧ 95 ≤ e.2) →
        exec (.thermalThrottleEnd h) s = .next s)
      ∧ (s.dev.thermTrip = false ∨ (∃ e ∈ s.pwr.temps, sensorPowered s e.1 = true ∧ 90 ≤ e.2) → exec .thermalTripEnd s = .next s))
    ∧ (∀ (k : StackNo) (s : State), 80 ≤ tget s.pwr.temps (65 + 2 * k.val) 0 → exec (.refreshRestore k) s = .next s)

/-! ### Ports, flits, routing, multicast -/

/-- Nothing waits for a port: its queue is empty, no packet is under transmission, no copy is held for it, and no fork waits for hold
storage. -/
def NothingWaits (p : Nat) (s : State) : Prop :=
  (s.port p).queue = [] ∧ (s.port p).sending = [] ∧ (∀ h ∈ s.fab.holds, h.port ≠ p) ∧ s.fab.stalled = []

/-- Nothing waits for a port, and it owes its peer no acknowledgement and no credit. -/
def NothingOwed (p : Nat) (s : State) : Prop := NothingWaits p s ∧ (s.port p).owed = [] ∧ (s.port p).owesAck = false

/-- The port with a lane declared failed. -/
def withFailed (p k : Nat) (s : State) : State := s.modPort p (fun x => { x with failed := orBit x.failed k })

/-- Port states (R199 to R202, R213, R217). A training that finds a common width, at most that of the lanes good at both ends, brings the port
UP with the peer's device, port and lanes, sends its own link parameters, and its groups switch to the new set; one without a lane takes it
DOWN with PORT_DOWN; on a port in service the exchange only tells the peer. A lane declared failed is counted and logged, and the port retrains
at the widest width of Table 09-1 that the lanes good at both ends allow, or goes DOWN. A retrain that ends brings it UP, states to the peer
what it expects and holds, replays what the peer has not taken, and records the time of a failover; one that fails takes it DOWN. The credits
after it are full pools less the flits still to be taken and those that the peer holds. A failed pattern test retires the lane; a pass is counted. A switch ends when
the ports of its groups are quiet. Each does nothing on a port, or a lane, that it does not concern. -/
def Obligations.PortStates : Prop :=
  (∀ (p : PortNo) (l : LinkParams) (s : State),
      let w := min (widthOf (goodLanes s p.val &&& l.lanes)) l.width
      ((s.port p.val).state = .training → w ≠ 0 →
        ∃ t, exec (.portTrainingDone p (some l)) s = .next t
          ∧ t.port p.val = { state := .up, width := w, failed := (s.port p.val).failed, failAt := (s.port p.val).failAt
                             transients := (s.port p.val).transients, peerLanes := l.lanes, peerDevice := l.device, peerPort := l.port }
          ∧ p.val ∈ t.fab.switching ∧ (∀ q, q ≠ p.val → t.port q = s.port q)
          ∧ (∃ k cr, t.out = .linkParams p.val k cr :: s.out ∧ k.device = s.device ∧ k.port = p.val ∧ k.lanes = goodLanes s p.val)
          ∧ t = { s with ports := t.ports, out := t.out, fab := { s.fab with switching := t.fab.switching } })
      ∧ ((s.port p.val).state = .training → w = 0 →
        ∃ t, exec (.portTrainingDone p (some l)) s = .next t ∧ (t.port p.val).state = .down
          ∧ testBit t.host.irqCause.toNat 1 = true ∧ testBit t.host.irqCause.toNat 5 = true)
      ∧ ((s.port p.val).inService = true → exec (.portTrainingDone p (some l)) s =
          .next (s.setPort p.val { s.port p.val with peerLanes := l.lanes, peerDevice := l.device, peerPort := l.port }))
      ∧ ((s.port p.val).state = .training → widthOf (goodLanes s p.val &&& 15) = 0 →
        ∃ t, exec (.portTrainingDone p none) s = .next t ∧ (t.port p.val).state = .down
          ∧ testBit t.host.irqCause.toNat 1 = true ∧ testBit t.host.irqCause.toNat 5 = true)
      ∧ ((s.port p.val).state ≠ .training ∨ widthOf (goodLanes s p.val &&& 15) ≠ 0 → exec (.portTrainingDone p none) s = .next s)
      ∧ ((s.port p.val).state ≠ .training → (s.port p.val).inService = false → exec (.portTrainingDone p (some l)) s = .next s))
    ∧ (∀ (p : PortNo) (k : Fin 4) (s : State),
      ((s.port p.val).inService = true → testBit (s.port p.val).failed k.val = false → s.laneGood p.val k.val = true →
        ∃ t, exec (.laneFailover p k) s = .next t
          ∧ testBit (t.port p.val).failed k.val = true ∧ testBit t.host.irqCause.toNat 1 = true
          ∧ t.rd .failovers p.val = satAdd 32 (s.rd .failovers p.val) 1
          ∧ (widthOf (commonLanes (withFailed p.val k.val s) p.val) ≠ 0 →
              (t.port p.val).state = .retrain ∧ (t.port p.val).width = widthOf (commonLanes (withFailed p.val k.val s) p.val)
                ∧ (t.port p.val).replay = (s.port p.val).replay ∧ (t.port p.val).queue = (s.port p.val).queue)
          ∧ (widthOf (commonLanes (withFailed p.val k.val s) p.val) = 0 →
              (t.port p.val).state = .down ∧ testBit t.host.irqCause.toNat 5 = true ∧ (t.port p.val).queue = []))
      ∧ ((s.port p.val).inService = false ∨ testBit (s.port p.val).failed k.val = true ∨ s.laneGood p.val k.val = false →
        exec (.laneFailover p k) s = .next s))
    ∧ (∀ (p : PortNo) (peer : PeerResync) (s : State),
      let y := (s.port p.val).resync peer
      ((s.port p.val).state = .retrain → NothingWaits p.val s →
        ∃ t, exec (.retrainDone p true peer) s = .next t
          ∧ t.port p.val = { y with state := .up, failover := false }
          ∧ (∀ k < 12, (t.port p.val).credit k = poolSize k - y.replay.countP (fun f => f.pool == k) - peer.held.getD k 0)
          ∧ (∃ mine : PeerResync, t.out = (y.replay.map (fun f => Out.flit p.val f.bytes)).reverse ++ .linkResync p.val mine :: s.out
              ∧ mine.next = (s.port p.val).rxNext ∧ ∀ k < 12, mine.held.getD k 0 = tget (s.port p.val).rx k 0)
          ∧ ((s.port p.val).failover = true →
              t.rd .lastFailover p.val = min (s.now - (s.port p.val).failAt.toNat) (2 ^ 32 - 1))
          ∧ ((s.port p.val).failover = false → t.regs = s.regs)
          ∧ t = { s with ports := t.ports, out := t.out, regs := t.regs, flash := t.flash })
      ∧ ((s.port p.val).state = .retrain →
        ∃ t, exec (.retrainDone p false peer) s = .next t ∧ (t.port p.val).state = .down ∧ (t.port p.val).queue = []
          ∧ (t.port p.val).replay = [] ∧ testBit t.host.irqCause.toNat 5 = true)
      ∧ (∀ ok, (s.port p.val).state ≠ .retrain → exec (.retrainDone p ok peer) s = .next s))
    ∧ (∀ (p : PortNo) (k : Fin 4) (s : State),
      (testBit (s.port p.val).failed k.val = true → s.laneGood p.val k.val = true →
        exec (.lanePatternTestDone p k true) s =
          .next (s.modPort p.val (fun x => { x with transients := x.transients + 1 }))
        ∧ ∃ t, exec (.lanePatternTestDone p k false) s = .next t ∧ t.laneGood p.val k.val = false
            ∧ testBit t.host.irqCause.toNat 1 = true ∧ t.ports = s.ports
            ∧ ∀ q j, j < 4 → (q ≠ p.val ∨ j ≠ k.val) → t.laneGood q j = s.laneGood q j)
      ∧ (∀ ok, testBit (s.port p.val).failed k.val = false ∨ s.laneGood p.val k.val = false →
        exec (.lanePatternTestDone p k ok) s = .next s))
    ∧ (∀ (p : PortNo) (s : State),
      let ts := s.fab.switching.filter (fun t => (groupOf s t).contains p.val)
      (ts ≠ [] → s.fab.routeWait = [] → (∀ q ∈ switchPorts s ts, (s.port q).quiet = true ∧ NothingOwed q s) →
        ∃ t, exec (.routeSwitch p) s = .next t ∧ t.fab.switching = s.fab.switching.filter (fun q => !ts.contains q)
          ∧ (∀ q, t.port q = s.port q)
          ∧ t = { s with ports := t.ports, fab := { s.fab with switching := t.fab.switching } })
      ∧ (ts = [] ∨ (∃ q ∈ switchPorts s ts, (s.port q).quiet = false) → exec (.routeSwitch p) s = .next s))

/-- A flit as it arrives: its link word, and whether its CRC is right. -/
def flitWord (flit : List Byte) : Nat := leAt flit 0 8
def crcOk (flit : List Byte) : Prop := flit.length = 256 ∧ (crc64 (flit.take 248)).toNat = leAt flit 248 8

/-- A packet is discarded with a fault, and its sender is told with ERR and the code (R217); nothing answers an ERR. -/
def Rejected (pkt : Pkt) (code : Nat) (t : State) : Prop :=
  testBit t.host.irqCause.toNat 1 = true
    ∧ (pkt.opcode ≠ 0x86 → ∃ k, Out.packet none k ∈ t.out ∧ k.opcode = 0x86 ∧ k.dest = pkt.src ∧ k.txn = pkt.txn ∧ leAt k.payload 0 2 = code)

/-- Flits (R203, R204, R206, R208; what carries an acknowledgement is the model's reading, log entry 26). On a port that is UP: a flit whose CRC is wrong is answered with a NAK and nothing else; a numbered flit that
is not the next expected one is dropped; a link-only flit gives its acknowledgement and credits; the next expected one is accepted,
kept in the receive buffer, and acknowledged with what the port next sends, or in a link-only flit where nothing waits (R207), and a packet of
one flit is handed on, or rejected where a reserved bit of its link word is set (without a device number it is dropped and counted). A NAK takes the acknowledged flits out of the replay buffer, counts, and sends the rest again in order. On another port nothing happens. -/
def Obligations.Flits : Prop :=
  (∀ (p : PortNo) (flit : List Byte) (s : State), (s.port p.val).state = .up →
      let w := flitWord flit
      let x := s.port p.val
      (¬ crcOk flit →
        ∃ bs, exec (.flitArrival p flit) s = .next (s.emit (.flit p.val bs)) ∧ testBit (leAt bs 0 8) 39 = true ∧ bitsOf (leAt bs 0 8) 38 37 = 3)
      ∧ (crcOk flit → bitsOf w 38 37 ≠ 3 → bitsOf w 63 52 ≠ x.rxNext → exec (.flitArrival p flit) s = .next s)
      ∧ (crcOk flit → bitsOf w 38 37 = 3 → testBit w 39 = false → NothingOwed p.val s →
        exec (.flitArrival p flit) s = .next (s.setPort p.val
          (((x.acked (bitsOf w 51 40)).giveCredit (bitsOf w 11 8) (bitsOf w 7 0)).giveCredit (bitsOf w 23 20) (bitsOf w 19 12))))
      ∧ (crcOk flit → bitsOf w 38 37 ≠ 3 → bitsOf w 63 52 = x.rxNext → testBit w 39 = false → NothingOwed p.val s →
        let pool := 4 * bitsOf w 38 37 + bitsOf w 36 35
        let body := (flit.drop 8).take 240
        let k := packetOf (leAt body 0 16) (testBit w 35) (body.drop 16)
        let taken := fun (t : State) (bs : List Byte) => (t.port p.val).rxNext = (x.rxNext + 1) % 4096
          ∧ tget (t.port p.val).rx pool 0 = tget x.rx pool 0 + 1
          ∧ testBit (leAt bs 0 8) 39 = false ∧ bitsOf (leAt bs 0 8) 51 40 = (t.port p.val).lastTaken
          ∧ t = { s with ports := t.ports, out := t.out, cnt := t.cnt }
        (testBit w 33 = false →
          ∃ t bs, exec (.flitArrival p flit) s = .next t ∧ t.out = .flit p.val bs :: s.out ∧ taken t bs)
        ∧ (testBit w 34 = true → testBit w 33 = true → bitsOf w 32 24 = 0 → k.opcode ≠ 0x25 →
          ∃ t bs, exec (.flitArrival p flit) s = .next t ∧ t.out = .flit p.val bs :: .received p.val k :: s.out ∧ taken t bs)
        ∧ (testBit w 34 = true → testBit w 33 = true → bitsOf w 32 24 ≠ 0 → s.device ≠ 0xFFFF →
          ∃ t, exec (.flitArrival p flit) s = .next t ∧ Rejected k 0x0606 t)
        ∧ (testBit w 34 = true → testBit w 33 = true → bitsOf w 32 24 ≠ 0 ∨ k.opcode = 0x25 → s.device = 0xFFFF →
          ∃ t, exec (.flitArrival p flit) s = .next t ∧ t.rd .fabricErrs = satAdd 32 (s.rd .fabricErrs) 1
            ∧ (∀ q k', Out.packet q k' ∈ t.out → Out.packet q k' ∈ s.out) ∧ (Out.received p.val k ∈ t.out → Out.received p.val k ∈ s.out))))
    ∧ (∀ (p : PortNo) (ack : Nat) (s : State), (s.port p.val).state = .up →
      ∃ t, exec (.nak p ack) s = .next t ∧ t.port p.val = (s.port p.val).acked ack
        ∧ t.out = (((s.port p.val).acked ack).replay.map (fun f => Out.flit p.val f.bytes)).reverse ++ s.out
        ∧ t.rd .replays p.val = satAdd 32 (s.rd .replays p.val) 1
        ∧ t = { s with ports := t.ports, out := t.out, regs := t.regs, flash := t.flash })
    ∧ (∀ (p : PortNo) (flit : List Byte) (ack : Nat) (s : State), (s.port p.val).state ≠ .up →
      exec (.flitArrival p flit) s = .next s ∧ exec (.nak p ack) s = .next s)

/-- A port takes a packet at once: nothing waits for it, it has room, and no group of it switches. -/
def Ready (q : Nat) (k : Pkt) (s : State) : Prop := NothingWaits q s ∧ roomFor s q k = true ∧ s.stopped q = false

/-- Forwarding (R206, R210 to R212, R216, R217, Table 01-5). A packet that comes by a port whose die stalls waits there. Any other leaves the
receive buffer: before the device number is set it is counted and dropped; one of a wrong form, past 31 hops, for a Board that is not there,
without a topology, or without a way is discarded with its fault and ERR; one for a Board here is handed to the package, where a gather request
and an update command keep their place until they are taken up. One for elsewhere goes out on the port that the route or dimension order
chooses, with HOP one higher, or waits while that port's groups switch. A directed packet is not forwarded so, nor any without power. -/
def Obligations.Forwarding : Prop :=
  (∀ (a : Option PortNo) (pkt : Pkt) (s : State), s.powered = true → pkt.dr = false →
      a.isNone = true ∨ dieStalled s (a.map (·.val)) pkt = false →
      let got := takenUp (a.map (·.val)) pkt s
      let tgt := routeTarget s pkt
      let here := tgt / 16 = s.device
      let far := a.isSome = true ∧ pkt.hop = 31
      (s.device = 0xFFFF → exec (.packetForward a pkt) s = .next (got.bump .fabricErrs))
        ∧ (s.device ≠ 0xFFFF → pktOk pkt = false → ∃ t, exec (.packetForward a pkt) s = .next t ∧ Rejected pkt 0x0606 t)
        ∧ (s.device ≠ 0xFFFF → pktOk pkt = true → far → ∃ t, exec (.packetForward a pkt) s = .next t ∧ Rejected pkt 0x0609 t)
        ∧ (s.device ≠ 0xFFFF → pktOk pkt = true → ¬ far → here →
          (pkt.mc = true → exec (.packetForward a pkt) s = .next s)
          ∧ (pkt.mc = false → a = none → ∃ t, exec (.packetForward a pkt) s = .next t ∧ t = { s with cnt := t.cnt })
          ∧ (∀ p, a = some p → pkt.mc = false → s.boardOk (pkt.dest % 16) = true →
            ∃ t, exec (.packetForward a pkt) s = .next t ∧ Out.packet none pkt ∈ t.out
              ∧ (pkt.opcode = 0x03 ∨ pkt.opcode = 0x07 → t.fab.onPackage = s.fab.onPackage ++ [(p.val, pkt)] ∧ t.ports = s.ports)
              ∧ (pkt.opcode ≠ 0x03 → pkt.opcode ≠ 0x07 → t.fab = s.fab ∧ ∀ q, t.port q = got.port q)
              ∧ (pkt.opcode = 0x11 → testBit t.host.irqCause.toNat 5 = true ∧ Signalled 5 s t)
              ∧ (pkt.opcode ≠ 0x11 →
                t = { s with ports := t.ports, out := t.out, cnt := t.cnt, fab := { s.fab with onPackage := t.fab.onPackage } }))
          ∧ (a.isSome = true → pkt.mc = false → s.boardOk (pkt.dest % 16) = false →
            ∃ t, exec (.packetForward a pkt) s = .next t ∧ Rejected pkt 0x060A t))
        ∧ (s.device ≠ 0xFFFF → pktOk pkt = true → ¬ far → ¬ here →
          (s.rd .topoDims = 0 → ∃ t, exec (.packetForward a pkt) s = .next t ∧ Rejected pkt 0x0607 t)
          ∧ (s.rd .topoDims ≠ 0 →
            let w := wayTo s (tgt / 16) (a.map (·.val)) pkt.dateline
            let k := { pkt with hop := pkt.hop + 1, dateline := w.dateline.getD pkt.dateline }
            (pickPort s w.ports pkt.src tgt = none → ∃ t, exec (.packetForward a pkt) s = .next t ∧ Rejected pkt 0x0608 t)
            ∧ (∀ q, pickPort s w.ports pkt.src tgt = some q → s.stopped q = true →
              exec (.packetForward a pkt) s =
                .next { s with fab := { s.fab with routeWait := s.fab.routeWait ++ [(a.map (·.val), pkt)] } })
            ∧ (∀ q, pickPort s w.ports pkt.src tgt = some q → Ready q k s →
              ∃ t, exec (.packetForward a pkt) s = .next t ∧ Out.packet (some q) k ∈ t.out ∧ (t.port q).queue = []
                ∧ t = { s with ports := t.ports, out := t.out, cnt := t.cnt }))))
    ∧ (∀ (p : PortNo) (pkt : Pkt) (s : State), s.powered = true → pkt.dr = false → dieStalled s (some p.val) pkt = true →
      exec (.packetForward (some p) pkt) s =
        .next { s with fab := { s.fab with stalled := s.fab.stalled ++ [{ arrival := some p.val, pkt := pkt }] } })
    ∧ (∀ (a : Option PortNo) (pkt : Pkt) (s : State), s.powered = false ∨ pkt.dr = true → exec (.packetForward a pkt) s = .next s)

/-- Directed packets (R212, R214, R259; the end of a path, a HOP past it, and a path to a port that is not in service, are the model's choice,
log entry 33; that an arriving NOTIFY is reported is log entry 51). A control packet whose path ends here, or an answer that has come back, is
handed to the package, and a NOTIFY is a cause of vector 5; one of HOP 31 is discarded with ROUTE_LOOP; else it goes out on the next port of its path, which
an answer takes backward, or is lost with NO_ROUTE. Without a device number a NOTIFY or a packet of a wrong form is dropped and counted; with
one a packet of a wrong form is rejected. -/
def Obligations.DirectedPackets : Prop :=
  ∀ (p : PortNo) (pkt : Pkt) (s : State),
    let path := forwardPath pkt.payload
    let back := pkt.opcode = 0x90
    let q := if back then returnAt pkt.payload pkt.hop else path.getD pkt.hop 31
    let k := if back then { pkt with hop := pkt.hop - 1 } else { pkt with payload := setReturn pkt.payload pkt.hop p.val, hop := pkt.hop + 1 }
    let ends := (back ∧ pkt.hop = 0) ∨ (¬ back ∧ path.length ≤ pkt.hop)
    let directed := pkt.dr = true ∧ classOf pkt.opcode = 1 ∧ s.powered = true
    let unknown := s.device = 0xFFFF ∧ (pkt.opcode = 0x11 ∨ pktOk pkt = false)
    (directed → unknown → exec (.directedRoute p pkt) s = .next (takenUp (some p.val) pkt (s.bump .fabricErrs)))
      ∧ (directed → s.device ≠ 0xFFFF → pktOk pkt = false → ∃ t, exec (.directedRoute p pkt) s = .next t ∧ Rejected pkt 0x0606 t)
      ∧ (directed → ¬ unknown → pktOk pkt = true → pkt.hop = 31 → ∃ t, exec (.directedRoute p pkt) s = .next t ∧ Rejected pkt 0x0609 t)
      ∧ (directed → ¬ unknown → pktOk pkt = true → pkt.hop ≠ 31 →
        (ends → pkt.opcode ≠ 0x11 → exec (.directedRoute p pkt) s = .next (takenUp (some p.val) pkt (s.emit (.packet none pkt))))
        ∧ (ends → pkt.opcode = 0x11 → ∃ t, exec (.directedRoute p pkt) s = .next t ∧ Out.packet none pkt ∈ t.out
            ∧ testBit t.host.irqCause.toNat 5 = true ∧ Signalled 5 s t)
        ∧ (¬ ends → q < 24 → Ready q k s →
          ∃ t, exec (.directedRoute p pkt) s = .next t ∧ Out.packet (some q) k ∈ t.out ∧ t = { s with ports := t.ports, out := t.out, cnt := t.cnt })
        ∧ (¬ ends → 24 ≤ q ∨ (s.port q).inService = false →
          ∃ t, exec (.directedRoute p pkt) s = .next t ∧ testBit t.host.irqCause.toNat 1 = true
            ∧ ∀ r k', Out.packet (some r) k' ∈ t.out → Out.packet (some r) k' ∈ s.out))
      ∧ (¬ directed → exec (.directedRoute p pkt) s = .next s)

/-- A multicast packet arrives in a powered module with its device number, in the right form. -/
def McArrives (a : Option PortNo) (pkt : Pkt) (s : State) : Prop :=
  pkt.opcode = 0x04 ∧ pkt.mc = true ∧ s.powered = true ∧ s.device ≠ 0xFFFF ∧ pktOk pkt = true ∧ (a.isSome = true → pkt.hop ≠ 31)

/-- An acknowledgement of a multicast arrives in a powered module with its device number, in the right form. -/
def AckArrives (a : Option PortNo) (pkt : Pkt) (s : State) : Prop :=
  pkt.opcode = 0x85 ∧ s.powered = true ∧ s.device ≠ 0xFFFF ∧ pktOk pkt = true ∧ (a.isSome = true → pkt.hop ≠ 31)

/-- A port can take an acknowledgement at once. -/
def AckRoom (q : Nat) (s : State) : Prop :=
  NothingWaits q s ∧ ∀ k : Pkt, k.opcode = 0x85 → k.flits = 0 → k.dateline = false → roomFor s q k = true

/-- Multicast (R212, R215 to R217, R223; the hold slots, the room that a copy needs and the targets behind a branch are the model's choice, log
entry 32). A copy of a stale group epoch is counted and dropped on whatever port it comes; another that does not come from the port toward the
root is passed over; one of a wrong form, or of HOP 31, is rejected. A fork waits while its die stalls or hold storage is short. A fork to one port that can take it
sends the copy there with HOP one higher and waits for its acknowledgement. A held copy that has waited 30 µs is discarded with what is behind
it, and the targets of its branch are declared failed for the group. The last acknowledgement of a fork goes toward the sender with the count of
failed targets; that of the module's own multicast ends its rendezvous, and a failed one halts the sending Board. -/
def Obligations.Multicast : Prop :=
  (∀ (a : Option PortNo) (pkt : Pkt) (s : State), McArrives a pkt s →
      let g := pkt.dest % 1024
      let e := s.grp g
      let a' := a.map (·.val)
      let fromRoot := gUpPort e = 24 ∨ a' = some (gUpPort e)
      let good := epochOk s g (hdrOf pkt.payload).gepoch = true ∧ (hdrOf pkt.payload).group = g ∧ gKind e = 1
      let stale := gKind e ≠ 0 ∧ gEpoch e ≠ (hdrOf pkt.payload).gepoch
      (¬ stale → ¬ fromRoot → exec (.mcData a pkt) s = .next s)
      ∧ (stale ∨ (fromRoot ∧ ¬ good) → exec (.mcData a pkt) s = .next ((takenUp a' pkt s).bump .staleEpochDrops))
      ∧ (fromRoot → good → dieStalled s a' pkt = true ∨ forkMay s a' [] pkt = false →
        exec (.mcData a pkt) s = .next { s with fab := { s.fab with stalled := s.fab.stalled ++ [{ arrival := a', pkt := pkt }] } })
      ∧ (∀ q, fromRoot → good → gForkBoards e = 0 → gChildren e = [q] →
        (s.port q).inService = true → (g, branchTarget s g q) ∉ s.job.failed → NothingWaits q s →
        copyGoes s q { pkt with hop := pkt.hop + 1 } = true →
        ∃ t, exec (.mcData a pkt) s = .next t ∧ Out.packet (some q) { pkt with hop := pkt.hop + 1 } ∈ t.out
          ∧ t.fab.forks = s.fab.forks ++ [{ group := g, src := pkt.src, txn := pkt.txn
                                            upPort := if gUpPort e = 24 then none else a', left := 1 }]
          ∧ t.fab.holds = s.fab.holds))
    ∧ (∀ (a : Option PortNo) (pkt : Pkt) (s : State), pkt.opcode = 0x04 → pkt.mc = true → s.powered = true →
      (s.device = 0xFFFF → exec (.mcData a pkt) s = .next ((takenUp (a.map (·.val)) pkt s).bump .fabricErrs))
      ∧ (s.device ≠ 0xFFFF → pktOk pkt = false → ∃ t, exec (.mcData a pkt) s = .next t ∧ Rejected pkt 0x0606 t)
      ∧ (s.device ≠ 0xFFFF → pktOk pkt = true → a.isSome = true → pkt.hop = 31 →
        ∃ t, exec (.mcData a pkt) s = .next t ∧ Rejected pkt 0x0609 t))
    ∧ (∀ (die : Fin 4) (slot : Nat) (s : State),
      (∀ h, (holdsOn s die.val)[slot]? = some h → s.fab.stalled = [] →
        let g := h.pkt.dest % 1024
        ∃ t, exec (.mcHoldTimeout die slot) s = .next t
          ∧ (∀ x ∈ branchTargets s g h.port, (g, x) ∈ t.job.failed) ∧ t.rd .failedTarget = branchTarget s g h.port ∧ h ∉ t.fab.holds
          ∧ testBit t.host.irqCause.toNat 1 = true ∧ testBit t.host.irqCause.toNat 5 = true)
      ∧ ((holdsOn s die.val)[slot]? = none → exec (.mcHoldTimeout die slot) s = .next s))
    ∧ (∀ (a : Option PortNo) (pkt : Pkt) (s : State), pkt.opcode = 0x85 → s.powered = true → s.device ≠ 0xFFFF → pktOk pkt = true →
      a.isSome = true → pkt.hop = 31 → ∃ t, exec (.mcAck a pkt) s = .next t ∧ Rejected pkt 0x0609 t)
    ∧ (∀ (a : Option PortNo) (pkt : Pkt) (f : McFork) (s : State), AckArrives a pkt s →
      s.fab.forks.find? (fun f => f.src == pkt.dest && f.txn == pkt.txn) = some f →
      let got := takenUp (a.map (·.val)) pkt s
      let n := f.failedCount + leAt pkt.payload 0 2
      let combined := fun (k : Pkt) => k.opcode = 0x85 ∧ k.dest = f.src ∧ k.txn = f.txn ∧ leAt k.payload 0 2 = n % 65536
      (f.left = 1 → f.upPort = none →
        ∃ t k, exec (.mcAck a pkt) s = .next t ∧ t.out = .packet none k :: got.out ∧ combined k
          ∧ f ∉ t.fab.forks ∧ t = { got with out := t.out, fab := { got.fab with forks := t.fab.forks } })
      ∧ (∀ q, f.left = 1 → f.upPort = some q → AckRoom q s →
        ∃ t k, exec (.mcAck a pkt) s = .next t ∧ Out.packet (some q) k ∈ t.out ∧ combined k ∧ f ∉ t.fab.forks)
      ∧ (2 ≤ f.left →
        ∃ t, exec (.mcAck a pkt) s = .next t ∧ (∃ f' ∈ t.fab.forks, f'.src = f.src ∧ f'.txn = f.txn ∧ f'.left = f.left - 1 ∧ f'.failedCount = n)
          ∧ t = { got with fab := { got.fab with forks := t.fab.forks } }))
    ∧ (∀ (a : Option PortNo) (pkt : Pkt) (b id : Nat) (x : Txn) (s : State), AckArrives a pkt s →
      pkt.dest / 16 = s.device → (∀ f ∈ s.fab.forks, ¬ (f.src = pkt.dest ∧ f.txn = pkt.txn)) →
      s.fab.txns.find? (fun t => t.id == pkt.txn) = some x → x.kind = .multicast b id → (s.board b).rdvWait = [] →
      ∃ t, exec (.mcAck a pkt) s = .next t ∧ (t.board b).rdvAt id = none ∧ (∀ y ∈ t.fab.txns, y.id ≠ pkt.txn)
        ∧ (leAt pkt.payload 0 2 ≠ 0 → (t.board b).halt ≠ .none)
        ∧ (leAt pkt.payload 0 2 = 0 → (t.board b).halt = (s.board b).halt))

/-! ### Packets that reach a Board -/

/-- A packet of an opcode reaches a Board of the module that is in service. -/
def Delivered (op b : Nat) (pkt : Pkt) (s : State) : Prop :=
  pkt.opcode = op ∧ s.powered = true ∧ s.device ≠ 0xFFFF ∧ pkt.dest / 16 = s.device ∧ pkt.dest % 16 = b ∧ pktOk pkt = true
    ∧ s.boardOk b = true

/-- An answer to a packet has left the module. -/
def Answered (pkt : Pkt) (op : Nat) (payload : List Byte) (t : State) : Prop :=
  ∃ k, Out.packet none k ∈ t.out ∧ k.opcode = op ∧ k.dest = pkt.src ∧ k.txn = pkt.txn ∧ k.payload = payload

/-- Bytes stand in a memory from an address on, and every other byte is as it was. -/
def Stored (m n : Mem) (a : Nat) (bs : List Byte) : Prop :=
  (∀ i, i < bs.length → n.get (a + i) = bs.getD i 0) ∧ (∀ x, x < a ∨ a + bs.length ≤ x → n.get x = m.get x)

/-- Reads, writes and mirror copies from other modules (R100, R164, R166, R209, R217, R379; that the highest address bit names a Board's store,
and the tag of a remote read, are the model's choice, log entries 31 and 35; the answer for the store of a Board in DEEP_SLEEP is log entry 48). A
read of readable lines or words is answered with their
bytes and changes no memory, but for the corrections of single-bit errors; while the stack is under test it is held (Table 15-2). A write into a PLAIN region or a Board's store, and a mirror copy into
a MIRROR region, writes its bytes, leaves every other byte, and is acknowledged. An access that the region's kind forbids, or past the store, is
not performed and ends with REGION_FAULT and ERR. A read of an uncorrectable line ends with ERR; one of an uncorrectable word of a store halts its
Board too. A packet to another module changes nothing. -/
def Obligations.RemoteReadsAndWrites : Prop :=
  (∀ (b : Nat) (pkt : Pkt) (s : State), Delivered 0x01 b pkt s → pkt.addr < storeFlag →
      let line := fun i => remoteLine s (64 * (pkt.addr + i))
      ((∀ i, i < pkt.lines → ∃ a bs, line i = .data a bs) →
        ∃ t, exec (.rdReq pkt) s = .next t ∧ Answered pkt 0x81 ((List.range pkt.lines).flatMap (fun i => lineBytes (line i))) t
          ∧ t = { s with cnt := t.cnt, out := t.out, regs := t.regs, stks := t.stks })
      ∧ ((∃ i, i < pkt.lines ∧ line i = .region) → ∃ t, exec (.rdReq pkt) s = .next t ∧ Rejected pkt 0x0402 t ∧ t.dram = s.dram)
      ∧ ((∀ i, i < pkt.lines → line i ≠ .region) → (∃ i, i < pkt.lines ∧ line i = .held) →
        ∃ t, exec (.rdReq pkt) s = .next t ∧ t = { s with stks := t.stks } ∧ ∃ k, ∃ x ∈ (t.stack k).reads, x.who = .remote pkt)
      ∧ ((∀ i, i < pkt.lines → line i ≠ .region ∧ line i ≠ .held) → (∃ i a, i < pkt.lines ∧ line i = .bad a) →
        ∃ t, exec (.rdReq pkt) s = .next t ∧ Rejected pkt 0x0401 t ∧ testBit t.host.irqCause.toNat 2 = true ∧ t.dram = s.dram))
    ∧ (∀ (b : Nat) (pkt : Pkt) (s : State), (s.board b).asleep = true → storeFlag ≤ pkt.addr →
      (Delivered 0x01 b pkt s → ∃ t, exec (.rdReq pkt) s = .next t ∧ Answered pkt 0x86 (padTo 64 (leBytes 2 0x060A)) t ∧ t.store = s.store)
      ∧ (Delivered 0x02 b pkt s → ∃ t, exec (.wr pkt) s = .next t ∧ Answered pkt 0x86 (padTo 64 (leBytes 2 0x060A)) t ∧ t.store = s.store))
    ∧ (∀ (b : Nat) (pkt : Pkt) (s : State), Delivered 0x01 b pkt s → (s.board b).asleep = false → storeFlag ≤ pkt.addr →
      let a := 64 * (pkt.addr - storeFlag)
      (storeBytes < a + 64 * pkt.lines → ∃ t, exec (.rdReq pkt) s = .next t ∧ Rejected pkt 0x0402 t ∧ t.store = s.store)
      ∧ (a + 64 * pkt.lines ≤ storeBytes → boardBad s b a (64 * pkt.lines) = none →
        ∃ t, exec (.rdReq pkt) s = .next t ∧ Answered pkt 0x81 (s.storeRead b a (64 * pkt.lines)) t
          ∧ t = { s with out := t.out, boards := t.boards, regs := t.regs, host := t.host, can := t.can } ∧ SaturationOnly s t)
      ∧ (∀ w, a + 64 * pkt.lines ≤ storeBytes → boardBad s b a (64 * pkt.lines) = some w →
        ∃ t, exec (.rdReq pkt) s = .next t ∧ Answered pkt 0x86 (padTo 64 (leBytes 2 0x0401)) t ∧ (t.board b).halt ≠ .none ∧ t.store = s.store))
    ∧ (∀ (b : Nat) (pkt : Pkt) (s : State), Delivered 0x02 b pkt s → (s.board b).asleep = false → storeFlag ≤ pkt.addr →
      let a := 64 * (pkt.addr - storeFlag)
      (storeBytes < a + pkt.payload.length → ∃ t, exec (.wr pkt) s = .next t ∧ Rejected pkt 0x0402 t ∧ t.store = s.store)
      ∧ (a + pkt.payload.length ≤ storeBytes →
        ∃ t, exec (.wr pkt) s = .next t ∧ Answered pkt 0x82 [] t ∧ Stored s.store t.store (storeKey b a) pkt.payload
          ∧ t = { s with store := t.store, boards := t.boards, out := t.out, regs := t.regs, host := t.host, can := t.can } ∧ SaturationOnly s t))
    ∧ (∀ (b : Nat) (pkt : Pkt) (s : State), Delivered 0x02 b pkt s → pkt.addr < storeFlag →
      let a := 64 * pkt.addr
      (∀ e, s.regionAt a = some e → rKind e.2 = 2 → a + pkt.payload.length ≤ rBase e.2 + rSize e.2 →
        ∃ t, exec (.wr pkt) s = .next t ∧ Answered pkt 0x82 [] t ∧ Stored s.dram t.dram a pkt.payload
          ∧ t = { s with dram := t.dram, stks := t.stks, cnt := t.cnt, out := t.out })
      ∧ ((∀ e, s.regionAt a = some e → rKind e.2 ≠ 2 ∨ rBase e.2 + rSize e.2 < a + pkt.payload.length) →
        ∃ t, exec (.wr pkt) s = .next t ∧ Rejected pkt 0x0402 t ∧ t.dram = s.dram))
    ∧ (∀ (b : Nat) (pkt : Pkt) (s : State), Delivered 0x08 b pkt s →
      let a := 64 * pkt.addr
      (∀ e, s.regionAt a = some e → rKind e.2 = 5 → a + pkt.payload.length ≤ rBase e.2 + rSize e.2 →
        ∃ t, exec (.mirrorWr pkt) s = .next t ∧ Answered pkt 0x82 [] t ∧ Stored s.dram t.dram a pkt.payload
          ∧ t = { s with dram := t.dram, stks := t.stks, cnt := t.cnt, out := t.out })
      ∧ ((∀ e, s.regionAt a = some e → rKind e.2 ≠ 5 ∨ rBase e.2 + rSize e.2 < a + pkt.payload.length) →
        ∃ t, exec (.mirrorWr pkt) s = .next t ∧ Rejected pkt 0x0402 t ∧ t.dram = s.dram))
    ∧ (∀ (pkt : Pkt) (s : State), s.device ≠ 0xFFFF → pkt.dest / 16 ≠ s.device →
      exec (.rdReq pkt) s = .next s ∧ exec (.wr pkt) s = .next s ∧ exec (.mirrorWr pkt) s = .next s)

/-- The square that a gather request names: its run, and what the read rule gives for it. -/
def GatherReads (s : State) (h : Hdr) (res : SquareRead) : Prop :=
  ∃ n off, s.stackOk h.stack = true ∧ findRun s h.stack h.pgroup h.q = some n
    ∧ compOffset (s.region (nRegion n)) (3 + h.comp) = some off
    ∧ readSquare s (s.region (nRegion n)) (runSquare n h.q) off 4160 h.tag = res

/-- Gather requests at their owner (R171, R223 to R227, R243; that GATHERS_SERVED counts a read once is the model's choice, log entry 25). One of no GATHER group, or from a stranger, is refused with 060Ch, one of another group
epoch with 060Bh, one of a reserved component with 0606h. Without a fan it is answered at once: the square's bytes, stale for a read that is old,
or the fault of an uncorrectable line or of a slot at or past SQUARES; a read ahead of its domain, or of a stack under test, is held. With a fan the first request of a
square opens a rendezvous entry. While the table has 256 entries a request waits. At RENDEZVOUS_WAIT the entry is gone, counted, and each
waiting member is answered or its read held; without such an entry nothing happens. -/
def Obligations.GatherRequests : Prop :=
  (∀ (b : Nat) (pkt : Pkt) (s : State), Delivered 0x03 b pkt s →
      let h := hdrOf pkt.payload
      let e := s.grp h.group
      let good := h.group < 1024 ∧ gKind e = 2 ∧ pkt.src ∈ s.membersOf e
      -- the state once the request has left the receive buffer of its port
      let u := claimed 0x03 pkt.src pkt.dest pkt.txn s
      (¬ good → ∃ t, exec (.gatherReq pkt) s = .next t ∧ Rejected pkt 0x060C t)
      ∧ (good → gEpoch e ≠ h.gepoch → ∃ t, exec (.gatherReq pkt) s = .next t ∧ Rejected pkt 0x060B t)
      ∧ (good → gEpoch e = h.gepoch → 1 < h.comp → ∃ t, exec (.gatherReq pkt) s = .next t ∧ Rejected pkt 0x0606 t)
      ∧ (good → gEpoch e = h.gepoch → h.comp ≤ 1 → 256 ≤ (s.board b).rdv.length ∨ (s.board b).rdvWait ≠ [] →
        exec (.gatherReq pkt) s = .next (s.modBoard b (fun x => { x with rdvWait := x.rdvWait ++ [pkt] })))
      ∧ (good → gEpoch e = h.gepoch → h.comp ≤ 1 → (s.board b).rdv.length < 256 → (s.board b).rdvWait = [] → gFanCount e = 0 →
        (∀ a bs, GatherReads u h (.data a bs) →
          ∃ t, exec (.gatherReq pkt) s = .next t ∧ Answered pkt 0x83 (hdrBytes { h with outcome := 0, err := 0 } ++ bs) t
            ∧ t.rd .gathersServed b = satAdd 64 (s.rd .gathersServed b) 1
            ∧ t = { u with cnt := t.cnt, regs := t.regs, flash := t.flash, stks := t.stks, out := t.out })
        ∧ (GatherReads u h .old →
          ∃ t, exec (.gatherReq pkt) s = .next t ∧ Answered pkt 0x84 (hdrBytes { h with outcome := 1, err := 0 }) t ∧ t = { u with out := t.out })
        ∧ (GatherReads u h .ahead →
          ∃ t, exec (.gatherReq pkt) s = .next t ∧ t = { u with stks := t.stks }
            ∧ ∃ x ∈ (t.stack h.stack).reads, x.who = .gather pkt ∧ x.tag = h.tag ∧ x.since = s.time)
        ∧ (∀ a, GatherReads u h (.bad a) →
          ∃ t, exec (.gatherReq pkt) s = .next t ∧ Answered pkt 0x83 (hdrBytes { h with outcome := 3, err := 0x0401 }) t
            ∧ testBit t.host.irqCause.toNat 2 = true)
        ∧ (∀ a, GatherReads u h (.region a) →
          ∃ t, exec (.gatherReq pkt) s = .next t ∧ Answered pkt 0x83 (hdrBytes { h with outcome := 3, err := 0x0402 }) t
            ∧ testBit t.host.irqCause.toNat 1 = true))
      ∧ (∀ f m, good → gEpoch e = h.gepoch → h.comp ≤ 1 → fanOf s e pkt.src = some f → (s.board b).rdv = [] → (s.board b).rdvWait = [] →
        m ∈ s.membersOf (s.grp f) → m ≠ pkt.src →
        ∃ t r, exec (.gatherReq pkt) s = .next t ∧ (t.board b).rdv = [r] ∧ r.fan = f ∧ r.waiting = [(pkt.src, pkt.txn, pkt.dest)]
          ∧ r.tag = h.tag ∧ r.pgroup = h.pgroup ∧ r.q = h.q ∧ r.since = s.time ∧ t = { u with boards := t.boards }))
    ∧ (∀ (b : BoardNo) (entry : Nat) (s : State),
      (∀ r, (s.board b.val).rdvAt entry = some r → r.sent = false → s.powered = true → (s.board b.val).rdvWait = [] →
        ∃ t, exec (.rendezvousTimeout b entry) s = .next t ∧ (t.board b.val).rdvAt entry = none
          ∧ t.rd .rendezvousTimeouts b.val = satAdd 32 (s.rd .rendezvousTimeouts b.val) 1
          ∧ ∀ w ∈ r.waiting,
              (∃ k, Out.packet none k ∈ t.out ∧ k.dest = w.1 ∧ k.txn = w.2.1 ∧ (k.opcode = 0x83 ∨ k.opcode = 0x84))
                ∨ (∃ d, ∃ x ∈ (t.stack d).reads, x.who = .gather (rdvPkt r w)))
      ∧ ((s.board b.val).rdvAt entry = none → exec (.rendezvousTimeout b entry) s = .next s))

/-- A Board halts with a fault: neither stream issues, and the fault waits for its record (R150). -/
def HaltsWith (b code : Nat) (t : State) : Prop := (t.board b).halt ≠ .none ∧ ∃ f ∈ (t.board b).haltFaults, f.code = code

/-- A line of a fill has landed in its buffer: its bytes are in the Board's store and nowhere else; it is counted among the fill's lines; and with the last
line of the run's last fill the buffer is FULL (before, the next fill may take it once it is empty again). -/
def LineLanded (b : Nat) (q : FetchRun) (g : Filling) (line : Nat) (bs : List Byte) (s t : State) : Prop :=
  Stored s.store t.store (storeKey b (((s.board b).buf g.handle).base * 256 + 64 * line)) (padTo 64 bs)
    ∧ (g.landed.length + 1 < g.lines →
        ∃ q' ∈ (t.board b).fetches, q'.link = q.link ∧ ∃ g' ∈ q'.going, g'.fill = g.fill ∧ g'.landed = line :: g.landed)
    ∧ (g.lines ≤ g.landed.length + 1 → g.failed = false → ((s.board b).buf g.handle).state ≠ 4 → q.more = false →
        ((t.board b).buf g.handle).state = 2)
    ∧ t.dram = s.dram ∧ t.dev = s.dev ∧ t.job = s.job

/-- The fill that awaits a line on a link. The buffer of a squashed run is in quarantine; the link's consumer is not the store-out, which would take
the full buffer at once. -/
def Awaits (b link fill line : Nat) (q : FetchRun) (g : Filling) (s : State) : Prop :=
  (s.board b).fetches = [q] ∧ q.link = link ∧ q.going = [g] ∧ g.fill = fill ∧ line < g.lines ∧ line ∉ g.landed
    ∧ (q.squashed = true → ((s.board b).buf g.handle).state = 4) ∧ ((s.board b).link link).consumer ≠ 4

/-- The state without a request of the module's own. -/
def endedTxn (id : Nat) (s : State) : State :=
  { s with fab := { s.fab with txns := s.fab.txns.filter (fun y => y.id != id) } }

/-- How a request of a Board ends in an error completion with a code (R217): a fetch, a gather, a write, a reduction or an update command halts
the Board that sent it; a vote halts the Boards of its combine point; the sender of a multicast halts, and its rendezvous is over. Nothing is
written for it. -/
def TxnFails (x : Txn) (code : Nat) (s t : State) : Prop :=
  (∀ b link fill line q g, x.kind = .fetch b link fill line → Awaits b link fill line q g s → q.stash = none → q.squashed = false →
      HaltsWith b code t ∧ t.store = s.store ∧ t.dram = s.dram)
    ∧ (∀ b id k q r, x.kind = .gather b id k → (s.board b).gslots.find? (fun q => q.txn == x.id) = some q →
      (s.board b).gruns.find? (fun r => r.id == id) = some r → HaltsWith b code t ∧ t.store = s.store ∧ t.dram = s.dram)
    ∧ (∀ b, (∃ l h, x.kind = .write b l h) ∨ x.kind = .update b ∨ (∃ ep, x.kind = .reduce b ep) → HaltsWith b code t)
    ∧ (∀ g, x.kind = .vote g → ∀ b ∈ bitList (gForkBoards (s.grp g)) 16, HaltsWith b code t)
    ∧ (∀ b id, x.kind = .multicast b id → (s.board b).rdvWait = [] → HaltsWith b code t ∧ (t.board b).rdvAt id = none)

/-- Answers to the module's own requests (R111, R116, R209, R217, R223, R225, R228; the numbers of the reserved transactions and the
discarding of an ERR whose code Table 15-4 leaves reserved are the model's choice, log entries 30 and 31). A gather's answer of a stale group epoch, and one that no pending slot
matches, is discarded and counted. A square lands where its run says, in the store or in the GATHER region, and frees its slot; the last one of a
run ends it and signals its semaphore; a stale or failed gather halts the Board. A read's line lands in its buffer. An acknowledgement ends its
request, of a write too, whose buffer was released when it had been read (R116). An answer whose request is
not known, or is of another kind, changes nothing. ERR, or REQ_TIMEOUT, which is counted, halts the Board that sent the request, or the Boards of a
vote's combine point; without one, the timeout is reported. -/
def Obligations.Answers : Prop :=
  (∀ (b : Nat) (pkt : Pkt) (s : State), Delivered 0x83 b pkt s →
      let h := hdrOf pkt.payload
      let data := padTo 4160 (pkt.payload.drop 64)
      (epochOk s h.group h.gepoch = false → exec (.gatherData pkt) s = .next (s.bump .staleEpochDrops))
      ∧ (epochOk s h.group h.gepoch = true → matchSlot (s.board b) h = none → exec (.gatherData pkt) s = .next (s.bump .gatherUnmatched b))
      ∧ (∀ q r, epochOk s h.group h.gepoch = true → matchSlot (s.board b) h = some (q, r) → h.outcome = 0 →
        (∀ g ∈ (s.board b).gruns, g.count ≤ g.next) → (s.board b).sigs = [] → (s.board b).fetches = [] →
        (s.board b).sem r.sem < 65535 →
        let p := landAt s b r.dest q.k
        ∃ t, exec (.gatherData pkt) s = .next t
          ∧ (p.1 = false → Stored s.store t.store (storeKey b p.2) data ∧ t.dram = s.dram)
          ∧ (p.1 = true → Stored s.dram t.dram p.2 data ∧ t.store = s.store)
          ∧ q ∉ (t.board b).gslots ∧ (∀ x ∈ t.fab.txns, x.id ≠ q.txn)
          ∧ (r.landed + 1 ≠ r.count → ∃ r' ∈ (t.board b).gruns, r'.id = r.id ∧ r'.landed = r.landed + 1)
          ∧ (r.landed + 1 = r.count → (∀ x ∈ (t.board b).gruns, x.id ≠ r.id) ∧ (t.board b).sem r.sem = (s.board b).sem r.sem + 1))
      ∧ (∀ q r, epochOk s h.group h.gepoch = true → matchSlot (s.board b) h = some (q, r) → h.outcome = 3 →
        (∀ g ∈ (s.board b).gruns, g.count ≤ g.next) →
        ∃ t, exec (.gatherData pkt) s = .next t ∧ HaltsWith b h.err t ∧ q ∉ (t.board b).gslots ∧ t.store = s.store ∧ t.dram = s.dram))
    ∧ (∀ (b : Nat) (pkt : Pkt) (s : State), Delivered 0x84 b pkt s →
      let h := hdrOf pkt.payload
      (epochOk s h.group h.gepoch = false → exec (.stale pkt) s = .next (s.bump .staleEpochDrops))
      ∧ (epochOk s h.group h.gepoch = true → matchSlot (s.board b) h = none → exec (.stale pkt) s = .next (s.bump .gatherUnmatched b))
      ∧ (∀ q r, epochOk s h.group h.gepoch = true → matchSlot (s.board b) h = some (q, r) → h.outcome = 1 ∨ h.outcome = 2 →
        (∀ g ∈ (s.board b).gruns, g.count ≤ g.next) →
        ∃ t, exec (.stale pkt) s = .next t ∧ HaltsWith b 0x0205 t ∧ q ∉ (t.board b).gslots
          ∧ t.rd .staleGathers b = satAdd 32 (s.rd .staleGathers b) 1 ∧ t.store = s.store ∧ t.dram = s.dram))
    ∧ (∀ (b link fill line : Nat) (q : FetchRun) (g : Filling) (x : Txn) (pkt : Pkt) (s : State), Delivered 0x81 b pkt s →
      s.fab.txns.find? (fun y => y.id == pkt.txn) = some x → x.kind = .fetch b link fill line → Awaits b link fill line q g s → q.stash = none →
      pkt.payload.length = 64 →
      ∃ t, exec (.rdData pkt) s = .next t ∧ LineLanded b q g line pkt.payload s t ∧ (q.more = false → ∀ y ∈ t.fab.txns, y.id ≠ pkt.txn))
    ∧ (∀ (b : Nat) (x : Txn) (pkt : Pkt) (s : State), Delivered 0x81 b pkt s → s.fab.txns.find? (fun y => y.id == pkt.txn) = some x →
      (∀ c l f i, x.kind ≠ .fetch c l f i) → (∀ r l, x.kind ≠ .restore r l) → exec (.rdData pkt) s = .next s)
    ∧ (∀ (b : Nat) (pkt : Pkt) (s : State), (∀ x ∈ s.fab.txns, x.id ≠ pkt.txn) →
      (Delivered 0x81 b pkt s → exec (.rdData pkt) s = .next s) ∧ (Delivered 0x82 b pkt s → exec (.wrAck pkt) s = .next s)
      ∧ (Delivered 0x86 b pkt s → exec (.err pkt) s = .next s))
    ∧ (∀ (b : Nat) (x : Txn) (pkt : Pkt) (s : State), Delivered 0x82 b pkt s → s.fab.txns.find? (fun y => y.id == pkt.txn) = some x →
      (x.kind = .other ∨ (∃ c, x.kind = .update c) ∨ (∃ g, x.kind = .vote g) ∨ (∃ c ep, x.kind = .reduce c ep) ∨ (∃ c l h, x.kind = .write c l h) →
        exec (.wrAck pkt) s = .next (endedTxn pkt.txn s))
      ∧ ((∃ c l f i, x.kind = .fetch c l f i) ∨ (∃ c r k, x.kind = .gather c r k) ∨ (∃ c n, x.kind = .multicast c n)
          ∨ (∃ r l, x.kind = .restore r l) →
        exec (.wrAck pkt) s = .next s))
    ∧ (∀ (b : Nat) (x : Txn) (pkt : Pkt) (s : State), Delivered 0x86 b pkt s → s.fab.txns.find? (fun y => y.id == pkt.txn) = some x →
      let code := leAt pkt.payload 0 2
      ((∀ k d r n, x.kind ≠ .mirror k d r n) → (∀ r l, x.kind ≠ .restore r l) → ∃ t, exec (.err pkt) s = .next t ∧ TxnFails x code s t)
      ∧ ((∃ c, (∃ l h, x.kind = .write c l h) ∨ x.kind = .update c ∨ ∃ ep, x.kind = .reduce c ep) ∨ (∃ g, x.kind = .vote g) →
        ∃ t, exec (.err pkt) s = .next t ∧ TxnFails x code s t ∧ t = { endedTxn pkt.txn s with boards := t.boards })
      ∧ (x.kind = .other → exec (.err pkt) s = .next (endedTxn pkt.txn s)))
    ∧ (∀ (txn : Nat) (x : Txn) (s : State), s.fab.txns.find? (fun y => y.id == txn) = some x →
      ((∀ k d r n, x.kind ≠ .mirror k d r n) → (∀ r l, x.kind ≠ .restore r l) →
        ∃ t, exec (.fabricTimeout txn) s = .next t ∧ TxnFails x 0x0604 s t)
      ∧ ((∃ c, (∃ l h, x.kind = .write c l h) ∨ x.kind = .update c ∨ ∃ ep, x.kind = .reduce c ep) →
        ∃ t, exec (.fabricTimeout txn) s = .next t ∧ TxnFails x 0x0604 s t ∧ (∀ y ∈ t.fab.txns, y.id ≠ txn)
          ∧ t.rd .fabricErrs = satAdd 32 (s.rd .fabricErrs) 1)
      ∧ (∀ g, x.kind = .vote g → gForkBoards (s.grp g) = 0 →
        ∃ t, exec (.fabricTimeout txn) s = .next t ∧ testBit t.host.irqCause.toNat 1 = true)
      ∧ (x.kind = .other →
        ∃ t, exec (.fabricTimeout txn) s = .next t ∧ testBit t.host.irqCause.toNat 1 = true ∧ (∀ y ∈ t.fab.txns, y.id ≠ txn)
          ∧ t.boards = s.boards))
    ∧ (∀ (txn : Nat) (s : State), (∀ x ∈ s.fab.txns, x.id ≠ txn) → exec (.fabricTimeout txn) s = .next s)

/-! ### Reductions and updates -/

/-- The command's action is the next one of its stream, with bundle i under issue in u: the stream's current bundle, or the next one, which issues now. -/
def Turns (b : BoardNo) (st : StreamSel) (a op : Nat) (i : Issue) (s u : State) : Prop := turn b.val st a op s = .act i u

/-- A REDUCE of a Board is at work on its square σ: its values have been read out, the map names the square, and the Board and its owner are members. -/
def AtSquare (b : Nat) (j : RJob) (js : List RJob) (v : List W32) (owner stack pg q o x : Nat) (s : State) : Prop :=
  (s.board b).rjobs = j :: js ∧ j.stuck = false ∧ j.values (s.board b) = some v ∧ mapAt s b j.group j.sigma = .square owner stack pg q
    ∧ posOf (s.membersOf (s.grp j.group)) owner = some o ∧ posOf (s.membersOf (s.grp j.group)) (s.addrOf b) = some x

/-- An update command as the header of Table 08-1 spells it. -/
def ToReckoner (k : Pkt) (tag pg q stack : Nat) (mode : Bool) : Prop :=
  k.opcode = 0x07 ∧ (updOf k).2.tag = tag % 2 ^ 32 ∧ (updOf k).2.group = pg ∧ (updOf k).2.q = q ∧ bitsOf (updOf k).1 61 58 = stack
    ∧ (updOf k).2.mode = mode

/-- A port can take a vote packet at once. -/
def VoteRoom (q : Nat) (s : State) : Prop :=
  NothingWaits q s ∧ ∀ k : Pkt, k.opcode = 0x06 → k.dateline = false → roomFor s q k = true

/-- What a REDUCE that is issued adds to the Board's queue. -/
def QueuedReduce (w : Work) (g : Nat) (j : RJob) : Prop :=
  j.first = rSliceFirst g ∧ j.count = rSliceCount g ∧ j.group = rGroup g ∧ j.vote = rVote g ∧ j.work = w ∧ j.read = 0
    ∧ j.sigma = 2 * rSliceFirst g

/-- Reductions (R96, R144, R206, R212, R231 to R237; what a Board holds of its 16 buffers and credits from one REDUCE to the next is the model's
choice, log entries 25 and 30). A REDUCE whose group or slices are not of its form halts the Board; any other joins the queue, at
its first square. A COMPLETE slice is read out and returns to IDLE, or stays REDUCING behind an uncorrectable word. An arriving hop waits; one for
the square at work is added to the Board's own values, one rounding for each element, and acknowledged; at the owner the last one completes the sum,
or the last part of a split sum, which goes to the owner's stack as an update command in value mode; one of a squashed epoch is discarded. A sum
or a square of trits goes out with a credit, and waits without one. A vote packet from a stranger, of another group epoch or of another wire format
is refused; a contribution is added to its square's counts, or waits while the group has sixteen squares open; a complete square's counts go to the
owner's stack as an update command in vote mode at the root, and in a packet toward the root elsewhere. -/
def Obligations.Reductions : Prop :=
  (∀ (b : BoardNo) (st : StreamSel) (i : Issue) (s u : State), Turns b st 8 0 i s u →
      let g := actGroup u b.val st 8
      let w := issueWork u b.val st i
      (reduceShape u b.val w g = true →
        ∃ t, exec (.reduce b st) s = .next t ∧ HaltsWith b.val 0x0208 t ∧ (t.board b.val).rjobs = (u.board b.val).rjobs)
      ∧ (reduceShape u b.val w g = false → (∀ j ∈ (u.board b.val).rjobs, j.sigma < j.endSquare ∧ j.values (u.board b.val) = none) →
        (1 ≤ rSliceCount g →
          ∃ t j, exec (.reduce b st) s = .next t ∧ (t.board b.val).rjobs = (u.board b.val).rjobs ++ [j] ∧ QueuedReduce w g j
            ∧ t.store = u.store ∧ t.dram = u.dram)
        ∧ (rSliceCount g = 0 → (u.board b.val).rjobs = [] → ∃ t, exec (.reduce b st) s = .next t ∧ (t.board b.val).rjobs = [])))
    ∧ (∀ (b : BoardNo) (j : RJob) (js : List RJob) (s : State), (s.board b.val).rjobs = j :: js →
      let k := j.first + j.read
      let z := (s.board b.val).slice k
      (j.stuck = false → j.read < j.count → z.state = 2 ∨ z.state = 3 → s.boardOk b.val = true → s.powered = true →
        (boardBad s b.val (spaceAddr z) 32768 = none →
          ∃ t, exec (.sliceReadout b) s = .next t ∧ (t.board b.val).slice k = z.idle ∧ t.store = s.store
            ∧ (j.vote = true → j.sigma < j.endSquare →
                ∃ j' ∈ (t.board b.val).rjobs, j'.id = j.id ∧ j'.read = j.read + 1 ∧ j'.held = j.held ++ [(k, readSpace s b.val z)]))
        ∧ (∀ w, boardBad s b.val (spaceAddr z) 32768 = some w →
          ∃ t, exec (.sliceReadout b) s = .next t ∧ HaltsWith b.val 0x0401 t ∧ (t.board b.val).slice k = { z with state := 3 }))
      ∧ (j.stuck = true ∨ j.count ≤ j.read ∨ (z.state ≠ 2 ∧ z.state ≠ 3) ∨ s.boardOk b.val = false ∨ s.powered = false →
        exec (.sliceReadout b) s = .next s))
    ∧ (∀ (b : BoardNo) (s : State), (s.board b.val).rjobs = [] → exec (.sliceReadout b) s = .next s ∧ exec (.reduceHopSend b) s = .next s)
    ∧ (∀ (b : Nat) (pkt : Pkt) (s : State), Delivered 0x05 b pkt s →
      let h := hdrOf pkt.payload
      (1 < h.wire → ∃ t, exec (.reduceVal pkt) s = .next t ∧ Rejected pkt 0x0606 t ∧ t.boards = s.boards)
      ∧ (h.wire ≤ 1 → epochOk s h.group h.gepoch = false → ∃ t, exec (.reduceVal pkt) s = .next t ∧ Rejected pkt 0x060B t ∧ t.boards = s.boards)
      ∧ (h.wire ≤ 1 → epochOk s h.group h.gepoch = true → h.epoch ∈ (s.board b).hopShut → exec (.reduceVal pkt) s = .next s)
      ∧ (h.wire ≤ 1 → epochOk s h.group h.gepoch = true → h.epoch ∉ (s.board b).hopShut →
        ((s.board b).rjobs = [] →
          exec (.reduceVal pkt) s = .next (s.modBoard b (fun x =>
            { x with hops := x.hops ++ [{ pkt := pkt, epoch := h.epoch, sigma := h.sigma }] })))
        ∧ (∀ j js v owner stack o x, AtSquare b j js v owner stack h.pgroup h.q o x s → j.vote = false → j.sum = none → j.sent = false →
          ringParts (s.grp j.group) = 1 → x ≠ o → nextHop (s.grp j.group) x o j = .add h.hop → h.group = j.group → h.sigma = j.sigma →
          h.wire = j.wire → pkt.src ≠ s.addrOf b → (s.board b).hops = [] →
          ∃ t j', exec (.reduceVal pkt) s = .next t ∧ j' ∈ (t.board b).rjobs ∧ j'.id = j.id ∧ j'.sigma = j.sigma
            ∧ j'.sum = some ((((dequantSquare j.wire (pkt.payload.drop 64)).map (·.1)).zip v).map (fun e => fadd e.1 e.2))
            ∧ (t.board b).hops = [] ∧ Answered pkt 0x82 [] t)
        ∧ (∀ j js v owner stack o, AtSquare b j js v owner stack h.pgroup h.q o o s → j.vote = false → h.group = j.group → h.sigma = j.sigma →
          h.wire = j.wire → pkt.src ≠ s.addrOf b → (s.board b).hops = [] →
          let e := s.grp j.group
          let whole := ringParts e = 1 ∧ j.sum = none ∧ j.sent = false ∧ nextHop e o o j = .add h.hop
          let parts := ringParts e ≠ 1 ∧ j.sum.isSome = true ∧ j.sent = true ∧ j.part + 1 = ringParts e ∧ nextHop e o o j = .addPart h.hop
          whole ∨ parts →
          ∃ t k, exec (.reduceVal pkt) s = .next t ∧ Answered pkt 0x82 [] t ∧ Out.packet none k ∈ t.out
            ∧ ToReckoner k j.work.tag h.pgroup h.q stack false ∧ k.dest = s.addrOf b
            ∧ (updOf k).2.payload = (((dequantSquare j.wire (pkt.payload.drop 64)).map (·.1)).zip (if ringParts e = 1 then v else j.acc)).flatMap
                (fun x => leBytes 4 (fadd x.1 x.2).toNat))))
    ∧ (∀ (b : BoardNo) (j : RJob) (js : List RJob) (v : List W32) (owner stack pg q o x : Nat) (s : State), s.boardOk b.val = true →
      s.powered = true → AtSquare b.val j js v owner stack pg q o x s →
      let e := s.grp j.group
      let dest := (s.membersOf e).getD (hopTarget e x o).1 0xFFFF
      (j.vote = false → j.sum.isSome = true → j.sent = false → nextHop e x o j = .wait →
        ((∀ c ∈ (s.board b.val).credits, c.1 = dest → c.2.2 = 0) → exec (.reduceHopSend b) s = .next (beginReadout b.val s))
        ∧ (∀ ep n, (s.board b.val).credits = [(dest, ep, n + 1)] →
          ∃ t k, exec (.reduceHopSend b) s = .next t ∧ Out.packet none k ∈ t.out ∧ k.opcode = 0x05 ∧ k.dest = dest ∧ k.src = s.addrOf b.val
            ∧ k.payload.drop 64 = (quantSquare s j.wire j.work.tag j.group (hopTarget e x o).2 j.sigma (j.sum.getD [])).1
            ∧ (t.board b.val).credits = [(dest, ep, n)] ∧ t.rd .reduceHops b.val = satAdd 64 (s.rd .reduceHops b.val) 1))
      ∧ (j.vote = false → j.sum = none ∨ j.sent = true → exec (.reduceHopSend b) s = .next s)
      ∧ (j.vote = true →
        ((∀ c ∈ (s.board b.val).credits, c.1 = voteKey j.group → c.2.2 = 0) → exec (.reduceHopSend b) s = .next (beginReadout b.val s))
        ∧ (∀ ep n, (s.board b.val).credits = [(voteKey j.group, ep, n + 1)] →
          ∃ t k, exec (.reduceHopSend b) s = .next t ∧ Out.packet none k ∈ t.out ∧ k.opcode = 0x06 ∧ k.dest = gRoot e ∧ k.src = s.addrOf b.val
            ∧ k.payload.drop 64 = packTrits (v.map tritOf) ∧ (t.board b.val).credits = [(voteKey j.group, ep, n)]
            ∧ t.rd .voteSquares b.val = satAdd 64 (s.rd .voteSquares b.val) 1)))
    ∧ (∀ (p : Option PortNo) (pkt : Pkt) (s : State), pkt.opcode = 0x06 → s.powered = true → (p = none → pkt.src / 16 = s.device) →
      let a := p.map (·.val)
      let h := hdrOf pkt.payload
      let e := s.grp h.group
      let who := match p with
        | none => pkt.src % 16
        | some p => 32 + p.val
      let wire := if p.isNone then 2 else countWire e
      let es := voteElems h.wire (pkt.payload.drop 64)
      let far := a.isSome = true ∧ pkt.hop = 31
      let good := s.device ≠ 0xFFFF ∧ pktOk pkt = true ∧ ¬ far ∧ epochOk s h.group h.gepoch = true ∧ gKind e = 4 ∧ who ∈ contributors e ∧ h.wire = wire
      (a.isSome = true → dieStalled s a pkt = true → exec (.reduceVote p pkt) s = .next (stall a pkt s))
      ∧ (a = none ∨ dieStalled s a pkt = false →
        (s.device = 0xFFFF → exec (.reduceVote p pkt) s = .next (dropPkt (takenUp a pkt s)))
        ∧ (s.device ≠ 0xFFFF → pktOk pkt = true → far →
          ∃ t, exec (.reduceVote p pkt) s = .next t ∧ Rejected pkt 0x0609 t ∧ t.fab.votes = s.fab.votes)
        ∧ (s.device ≠ 0xFFFF → pktOk pkt = true → ¬ far → epochOk s h.group h.gepoch = false →
          ∃ t, exec (.reduceVote p pkt) s = .next t ∧ Rejected pkt 0x060B t ∧ t.fab.votes = s.fab.votes)
        ∧ (s.device ≠ 0xFFFF → pktOk pkt = true → ¬ far → epochOk s h.group h.gepoch = true → gKind e ≠ 4 ∨ who ∉ contributors e →
          ∃ t, exec (.reduceVote p pkt) s = .next t ∧ Rejected pkt 0x060C t ∧ t.fab.votes = s.fab.votes)
        ∧ (s.device ≠ 0xFFFF → pktOk pkt = false ∨ (¬ far ∧ epochOk s h.group h.gepoch = true ∧ gKind e = 4 ∧ who ∈ contributors e ∧ h.wire ≠ wire) →
          ∃ t, exec (.reduceVote p pkt) s = .next t ∧ Rejected pkt 0x0606 t ∧ t.fab.votes = s.fab.votes)
        ∧ (good → s.fab.voteWait = [] → voteRoom s h = false →
          exec (.reduceVote p pkt) s = .next { s with fab := { s.fab with voteWait := [(who, pkt)] } })
        ∧ (good → s.fab.voteWait = [] → s.fab.votes = [] →
          ((∃ c ∈ contributors e, c ≠ who) →
            ∃ t v, exec (.reduceVote p pkt) s = .next t ∧ t.fab.votes = [v] ∧ v.group = h.group ∧ v.sigma = h.sigma ∧ v.tag = h.tag
              ∧ v.counts = es.map (fun c => c.getD 0) ∧ v.reserved = es.map (·.isNone) ∧ v.came = [(who, pkt.src)]
              ∧ Answered pkt 0x82 [] t
              ∧ t = { s with fab := { s.fab with votes := t.fab.votes }, out := t.out, ports := t.ports })
          ∧ (∀ owner stack pg q, contributors e = [who] → gUpPort e = 24 → mapAt s (gRoot e % 16) h.group h.sigma = .square owner stack pg q →
            ∃ t k v, exec (.reduceVote p pkt) s = .next t ∧ t.fab.votes = [] ∧ Out.packet none k ∈ t.out ∧ k.dest = owner
              ∧ ToReckoner k h.tag pg q stack true ∧ (updOf k).2.voteW = (countWire e == 4) ∧ v.counts = es.map (fun c => c.getD 0) ∧ v.reserved = es.map (·.isNone) ∧ k.payload.drop 64 = countBytes (countWire e) v
              ∧ Answered pkt 0x82 [] t)
          ∧ (contributors e = [who] → gUpPort e ≠ 24 → s.fab.voteSent.countP (fun w => w.1 == h.group) < 16 →
            ∃ t, exec (.reduceVote p pkt) s = .next t ∧ t.fab.votes = [] ∧ Answered pkt 0x82 [] t
              ∧ (VoteRoom (gUpPort e) s → ∃ k v, Out.packet (some (gUpPort e)) k ∈ t.out ∧ k.opcode = 0x06 ∧ k.dest = gRoot e ∧ k.hop = 1
                ∧ (hdrOf k.payload).sigma = h.sigma % 2 ^ 32 ∧ (hdrOf k.payload).group = h.group ∧ (hdrOf k.payload).wire = countWire e
                ∧ v.counts = es.map (fun c => c.getD 0) ∧ v.reserved = es.map (·.isNone) ∧ k.payload.drop 64 = countBytes (countWire e) v)
              ∧ t.fab.voteSent = s.fab.voteSent ++ [(h.group, pgDomain (s.pgroup h.pgroup))]))))

/-- An update command at the stack of its square: its run, and the domain's open step of its tag. -/
def UpdateReaches (k : Nat) (u : Upd) (n : BitVec 128) (s : State) : Prop :=
  let d := pgDomain (s.pgroup u.group)
  (s.dev.jobState = .loaded ∨ s.dev.jobState = .running) ∧ findRun s k u.group u.q = some n ∧ pgUsed (s.pgroup u.group) = true
    ∧ (s.dreg k d).isOpen = true

/-- Update commands and step records (R164, R167, R172, R176, R179, R182, R187 to R193, R324, R336, Table 08-8; what a settling domain's dirty
record says, which record counts its infinite inputs, and the order of the checks, are the model's choice, log entries 17 and 24, and the tag that an old
plane gets back is log entry 19). A reserved header bit makes the packet one of a wrong form, which is refused. A command of the armed
step is queued; one that runs ahead of the record is parked; one of another tag, another mode, of a square written or commanded already, or of no
run is dropped with its fault, one of a frozen group with a count, and each is answered; behind a full park buffer it waits in the network. After
1 ms without the record the parked commands are dropped with 0502h. A queued square is computed into the plane that is not committed: its record
turns, the new components stand there, and no byte outside that plane's slot changes. While the stack is under test nothing is computed; a square
that a capture has still to read is read first; one at or past SQUARES is dropped with REGION_FAULT; an uncorrectable line makes the domain LOST. A missing update sets the flag once. An accepted step record
is armed; one that the domain may not take is refused. The new elements are those of the recurrence, one rounding a line. -/
def Obligations.Updates : Prop :=
  (∀ (b : Nat) (k : StackNo) (pkt : Pkt) (s : State), Delivered 0x07 b pkt s →
      let u := (updOf pkt).2
      let head := (updOf pkt).1
      let g := s.pgroup u.group
      let d := pgDomain g
      let x := s.dom d
      -- the state once the command has left the receive buffer of its port
      let v := claimed 0x07 pkt.src pkt.dest pkt.txn s
      bitsOf head 61 58 = k.val →
      (s.stackOk k.val = true → 32 ≤ (s.stack k.val).park.length ∨ (s.stack k.val).inq ≠ [] →
        exec (.updateCmd k pkt) s = .next (s.modStack k.val (fun y => { y with inq := y.inq ++ [u] })))
      ∧ (s.stackOk k.val = true → (s.stack k.val).park.length < 32 → (s.stack k.val).inq = [] →
        let dropped := fun (code : Nat) => ∃ t, exec (.updateCmd k pkt) s = .next t ∧ Answered pkt 0x82 [] t
          ∧ testBit t.host.irqCause.toNat 1 = true ∧ LogsCode code s t ∧ (t.dom d).updFault = true ∧ (t.stack k.val).queue = (s.stack k.val).queue ∧ (t.stack k.val).park = (s.stack k.val).park
        (findRun s k.val u.group u.q = none →
          ∃ t, exec (.updateCmd k pkt) s = .next t ∧ Answered pkt 0x82 [] t ∧ testBit t.host.irqCause.toNat 1 = true ∧ LogsCode 0x0402 s t
            ∧ t.rd .regionFaults k.val = satAdd 32 (s.rd .regionFaults k.val) 1 ∧ (t.stack k.val).queue = (s.stack k.val).queue)
        ∧ (∀ n, UpdateReaches k.val u n s →
          (u.group ∈ x.frozen →
            ∃ t, exec (.updateCmd k pkt) s = .next t ∧ Answered pkt 0x82 [] t ∧ t.rd .frozenDrops d = satAdd 64 (s.rd .frozenDrops d) 1
              ∧ t.stks = s.stks ∧ (x.strict = true → (t.dom d).updFault = true ∧ testBit t.host.irqCause.toNat 1 = true ∧ LogsCode 0x0503 s t))
          ∧ (u.group ∉ x.frozen → (s.dreg k.val d).openTag ≠ u.tag → dropped 0x0501)
          ∧ (u.group ∉ x.frozen → (s.dreg k.val d).openTag = u.tag → x.updFault = true →
            ∃ t, exec (.updateCmd k pkt) s = .next t ∧ Answered pkt 0x82 [] t ∧ (t.stack k.val).queue = (s.stack k.val).queue
              ∧ (t.stack k.val).park = (s.stack k.val).park)
          ∧ (u.group ∉ x.frozen → (s.dreg k.val d).openTag = u.tag → x.updFault = false →
            let mode := modeInput ((s.slotWords (pgSlot g)).getD 16 0#32).toNat
            (armedTag x < u.tag →
              ∃ t, exec (.updateCmd k pkt) s = .next t ∧ (t.stack k.val).park = (s.stack k.val).park ++ [{ u with since := s.time }]
                ∧ (t.stack k.val).queue = (s.stack k.val).queue
                ∧ t = { v with stks := t.stks, regs := t.regs, flash := t.flash, cnt := t.cnt })
            ∧ (u.tag < armedTag x → dropped 0x0501)
            ∧ (armedTag x = u.tag → u.mode ≠ mode → dropped 0x0504)
            ∧ (armedTag x = u.tag → u.mode = mode → duplicate s k.val n u = true → dropped 0x0505)
            ∧ (armedTag x = u.tag → u.mode = mode → duplicate s k.val n u = false →
              exec (.updateCmd k pkt) s = .next (v.modStack k.val (fun y => { y with queue := y.queue ++ [u] }))))))
      ∧ (∀ j : StackNo, j ≠ k → exec (.updateCmd j pkt) s = .next s))
    ∧ (∀ (k : StackNo) (pkt : Pkt) (s : State), pkt.opcode = 0x07 →
      (bitsOf (updOf pkt).1 55 0 ≠ 0 → pktOk pkt = false)
      ∧ (s.powered = true → s.device ≠ 0xFFFF → pkt.dest / 16 = s.device → pktOk pkt = false → bitsOf (updOf pkt).1 61 58 = k.val →
        ∃ t, exec (.updateCmd k pkt) s = .next t ∧ Rejected pkt 0x0606 t ∧ t.stks = s.stks))
    ∧ (∀ (k : StackNo) (d : DomainNo) (s : State),
      let mine := (s.stack k.val).park.filter (fun u => updDomain s u == d.val)
      (mine = [] → exec (.noStepRecord k d) s = .next s)
      ∧ (∀ u us, mine = u :: us → pgUsed (s.pgroup u.group) = true → (s.stack k.val).inq = [] →
        ∃ t, exec (.noStepRecord k d) s = .next t ∧ (t.stack k.val).park = (s.stack k.val).park.filter (fun u => updDomain s u != d.val)
          ∧ (t.dom d.val).updFault = true ∧ testBit t.host.irqCause.toNat 1 = true ∧ LogsCode 0x0502 s t ∧ t.dram = s.dram))
    ∧ (∀ (k : StackNo) (u : Upd) (n : BitVec 128) (s : State), s.stackOk k.val = true → s.powered = true → (s.stack k.val).queue = [u] →
      let g := s.pgroup u.group
      let d := pgDomain g
      let e := s.region (nRegion n)
      let i := runSquare n u.q
      let v := s.vrec k.val (rVtBase e + i)
      let has := fun (c : Nat) => testBit (rComp e) c
      let place := fun (c : Nat) => planeAddr e i (if v.p then 1 else 0) + (compOffset e c).getD 0
      let next := planeAddr e i (if v.p then 0 else 1)
      let w := s.slotWords (pgSlot g)
      let word := fun (hi lo : Nat) => BitVec.ofNat 32 (bitsOf ((s.dom d).armed.getD 0#128).toNat hi lo)
      let rule : RuleIn := { c := w, mode := (w.getD 16 0#32).toNat, eta := word 63 32, k1 := word 95 64, k2 := word 127 96 }
      ((s.dreg k.val d).settling = true ∨ s.underTest k.val = true → exec (.squareUpdate k) s = .next s)
      ∧ ((s.dreg k.val d).settling = false → s.underTest k.val = false → findRun s k.val u.group u.q = some n →
        captureWaits s (nRegion n) i = true → exec (.squareUpdate k) s = .next (captureOne (nRegion n) i s))
      ∧ ((s.dreg k.val d).settling = false → s.underTest k.val = false → findRun s k.val u.group u.q = some n →
        captureWaits s (nRegion n) i = false → rSquares e ≤ i →
        ∃ t, exec (.squareUpdate k) s = .next t ∧ (t.stack k.val).queue = [] ∧ testBit t.host.irqCause.toNat 1 = true ∧ LogsCode 0x0402 s t
          ∧ t.rd .regionFaults k.val = satAdd 32 (s.rd .regionFaults k.val) 1 ∧ t.dram = s.dram)
      ∧ ((s.dreg k.val d).settling = false → s.underTest k.val = false → findRun s k.val u.group u.q = some n →
        captureWaits s (nRegion n) i = false → i < rSquares e → v.dirty = false → (∃ c, c < 3 ∧ has c = true ∧ s.badLine (place c) (compBytes c) ≠ none) →
        ∃ t, exec (.squareUpdate k) s = .next t ∧ (t.dom d).lost = true ∧ testBit t.host.irqCause.toNat 2 = true ∧ LogsCode 0x0401 s t
          ∧ t.dram = s.dram ∧ t.vrec k.val (rVtBase e + i) = v)
      ∧ ((s.dreg k.val d).settling = false → s.underTest k.val = false → findRun s k.val u.group u.q = some n →
        captureWaits s (nRegion n) i = false → i < rSquares e → v.dirty = false →
        s.vrecBad k.val (rVtBase e + i) = false → (∀ c, c < 3 → has c = true → s.badLine (place c) (compBytes c) = none) →
        ∃ t, exec (.squareUpdate k) s = .next t ∧ (t.stack k.val).queue = []
          ∧ t.vrec k.val (rVtBase e + i) = { v with p := !v.p, dirty := true, tag8 := u.tag % 256, was := v.tag8 }
          ∧ t.dram = (writeSquare d e i (!v.p) (newSquare s u rule (fun c => s.dramRead (place c) (compBytes c)) has).1 s).dram
          ∧ (∀ a, a < next ∨ next + slotBytes e ≤ a → t.dram.get a = s.dram.get a)
          ∧ t.store = s.store))
    ∧ (∀ (k : StackNo) (s : State), s.stackOk k.val = false ∨ s.powered = false ∨ (s.stack k.val).queue = [] →
      exec (.squareUpdate k) s = .next s)
    ∧ (∀ (d : DomainNo) (k : StackNo) (s : State),
      let due := (s.dom d.val).phase = .open ∧ (s.dom d.val).exch.state = 0 ∧ (s.dom d.val).boardsDone = (s.dom d.val).boards
        ∧ testBit (s.dom d.val).stacksDone k.val = false ∧ s.stackOk k.val = true ∧ schedulerBusy s = false
        ∧ (s.dom d.val).missingRaised = false
      (due →
        ∃ t, exec (.updateMissing d k) s = .next t ∧ (t.dom d.val).missingRaised = true ∧ (t.dom d.val).updFault = true
          ∧ testBit t.host.irqCause.toNat 1 = true ∧ LogsCode 0x0506 s t ∧ (∀ e, e ≠ d.val → t.dom e = s.dom e) ∧ t.stks = s.stks)
      ∧ (¬ due → exec (.updateMissing d k) s = .next s))
    ∧ (∀ (v : Via) (d : DomainNo) (data : List Byte) (s : State), Accepted v .stepRecord (0x2200 + d.val) data s →
      let r := leNat data
      let x := s.dom d.val
      let due := data.length = 16 ∧ (s.dev.jobState = .loaded ∨ s.dev.jobState = .running) ∧ x.used = true
        ∧ (∀ hi lo, (hi, lo) ∈ [(63, 32), (95, 64), (127, 96)] → isFin32 (BitVec.ofNat 32 (bitsOf r hi lo)) = true)
        ∧ x.committedTag < bitsOf r 31 0
        ∧ (x.isOpen = false ∨ (x.openTag = bitsOf r 31 0 ∧ armedTag x ≠ bitsOf r 31 0))
      (due → (∀ k, (s.stack k).park = [] ∧ (s.stack k).inq = []) →
        ∃ u, exec (.stepRecord v d data) s = .next (answeredOk v .stepRecord (0x2200 + d.val) data s u)
          ∧ (u.dom d.val).armed = some (BitVec.ofNat 128 r) ∧ (u.dom d.val).armTime = s.now ∧ (∀ e, e ≠ d.val → u.dom e = s.dom e)
          ∧ u = { unstaged v s with doms := u.doms, stks := u.stks } ∧ ∀ k, u.stack k = s.stack k)
      ∧ (¬ due → ∃ t, exec (.stepRecord v d data) s = .next t ∧ AnswerOnly v s t))
    ∧ (∀ (r : RuleIn) (w s1 s2 x : W32) (gInf : Bool),
      let y := recurrence r w s1 s2 x gInf
      let c := fun (i : Nat) => decFp32 (r.c.getD i 0#32)
      let clip := r.c.getD 8 0#32
      let raw := rne32 (((c 2).mul (decFp32 s2)).add (((c 3).mul (decFp32 x)).mul (decFp32 x)))
      let t := rne32 ((((c 4).mul (decFp32 s1)).add ((c 5).mul (decFp32 x))).add ((c 6).mul (decFp32 y.s1)))
      let f := if r.mode % 4 = 0 then rne32 (decFp32 (fmul r.k1 t)) else if r.mode % 4 = 1 then fsgn (fmul r.k1 t)
        else fdiv (fmul r.k1 t) (rne32 ((decFp32 (fsqrt (fmul r.k2 y.s2))).add (c 7)))
      let e := rne32 ((decFp32 r.eta).mul (c 10))
      let d := rne32 ((decFp32 y.f).add ((c 9).mul (decFp32 w)))
      y.s1 = (if modeUsesS1 r.mode then rne32 (((c 0).mul (decFp32 s1)).add ((c 1).mul (decFp32 x))) else 0#32)
      ∧ y.s2 = (if modeUsesS2 r.mode && !(decFp32 raw).lt (.fin false 0 0) then raw else 0#32)
      ∧ y.f = (if testBit r.mode 2 then fmin (fmax f (rne32 (decFp32 clip).neg)) clip else f)
      ∧ y.w = rne32 ((decFp32 w).add ((decFp32 e).mul (decFp32 d)).neg))
    ∧ (∀ (s : State) (u : Upd) (r : RuleIn) (old : Nat → List Byte) (has : Nat → Bool),
      let out := fun (b k : Nat) =>
        let x := inputX r u (elemIndex b k)
        recurrence r (widened .m24 (old 0) b k).1 (if modeUsesS1 r.mode then (widened .s16s (old 1) b k).1 else 0#32)
          (if modeUsesS2 r.mode then (widened .s16u (old 2) b k).1 else 0#32) x.1 x.2
      let enc := fun (f : Fmt) (use : Nat) (sel : RuleOut → W32) => (List.range 64).map (fun b =>
        encBlock f (some (streamKey s.job.seed u.tag (0x40 + use) u.group u.q)) (fun k => elemIndex b k) ((List.range 64).map (fun k => sel (out b k))))
      (newSquare s u r old has).1 = ([(0, squareOf .m24 (enc .m24 0 (·.w))),
        (1, if modeUsesS1 r.mode then squareOf .s16s (enc .s16s 1 (·.s1)) else old 1),
        (2, if modeUsesS2 r.mode then squareOf .s16u (enc .s16u 2 (·.s2)) else old 2),
        (3, squareOf .f8 (enc .f8 3 (·.w))), (4, squareOf .f8 (turnBlocks (enc .f8 3 (·.w))))] : List (Nat × List Byte)).filter (fun c => has c.1))

/-! ### The Beam and the time base -/

/-- A token or barrier message that a port takes: of its opcode and form, of the group's epoch, on a group that may carry it. -/
def BeamArrives (op : Nat) (pkt : Pkt) (ok : Line → BitVec 192 → Bool) (s : State) : Prop :=
  pkt.opcode = op ∧ s.powered = true ∧ s.device ≠ 0xFFFF ∧ pktOk pkt = true ∧ pkt.hop ≠ 31
    ∧ epochOk s (lineOf pkt.payload).group (lineOf pkt.payload).gepoch = true
    ∧ ok (lineOf pkt.payload) (s.grp (lineOf pkt.payload).group) = true

/-- No link of the Board pairs a remote producer or a remote consumer with this Beam semaphore. -/
def NoRemoteLink (b sem : Nat) (s : State) : Prop :=
  ∀ l ∈ (s.board b).links, ¬ (l.2.remoteProducer = true ∧ l.2.fullSem = sem) ∧ ¬ (l.2.remoteConsumer = true ∧ l.2.emptySem = sem)

/-- Semaphore signals, barriers and tokens (R112 to R114, R206, R212, R223, R235, R237 to R242, R333; that a decision is judged by the module's own
offer, the group of a signal's epoch, and the credits of votes, are the model's choice, log entries 18, 25 and 30). A signal adds to its Beam semaphore, halts the Board
where it would pass 65,535, and is discarded for a squashed epoch or a stale group epoch; one for a remote producer's link fills its buffer too, one for a remote consumer's link frees the buffer
that was used; one of kind 1 adds credits, or closes a square that this module sent up. A message leaves the receive buffer of its port; one of a stale epoch is
counted and dropped, and one of a wrong form rejected; an acknowledgement ends the resending of its message; a repeat is acknowledged and nothing
else. A child's barrier joins the arrivals, a release ends them. A child's token is kept until the module's own offer; at the root the last one
brings the decision, which goes to every stack: COMMIT only where all offers are COMMIT for the open tag. Unacknowledged messages go out again; a
missing decision is reported once. The local offer is VOID on a void mark, an update fault, a lost domain or a failed replay, else COMMIT, which
waits while copies read. -/
def Obligations.BeamMessages : Prop :=
  (∀ (b : Nat) (pkt : Pkt) (s : State), Delivered 0x20 b pkt s →
      let sem := leAt pkt.payload 0 2
      let n := leAt pkt.payload 2 2
      let kind := byteAt pkt.payload 4
      let ep := byteAt pkt.payload 5
      let g := leAt pkt.payload 6 2
      let ge := leAt pkt.payload 8 2
      let current := g < 1024 ∧ gEpoch (s.grp g) = ge
      (1 < kind ∨ (kind = 0 ∧ 1024 ≤ sem) → ∃ t, exec (.semSignal pkt) s = .next t ∧ Rejected pkt 0x0606 t ∧ t.boards = s.boards)
      ∧ (kind = 0 → sem < 1024 → ¬ current → exec (.semSignal pkt) s = .next (s.bump .staleEpochDrops))
      ∧ (kind = 0 → sem < 1024 → current → ep ∈ (s.board b).bsemShut → exec (.semSignal pkt) s = .next s)
      ∧ (kind = 0 → sem < 1024 → current → ep ∉ (s.board b).bsemShut → NoRemoteLink b sem s →
        (n = 0 → exec (.semSignal pkt) s = .next s)
        ∧ (1 ≤ n → (s.board b).bsem sem + n ≤ 65535 →
          ∃ t, exec (.semSignal pkt) s = .next t ∧ (t.board b).bsem sem = (s.board b).bsem sem + n
            ∧ (∀ k, k ≠ sem → (t.board b).bsem k = (s.board b).bsem k) ∧ t = { s with boards := t.boards })
        ∧ (65535 < (s.board b).bsem sem + n →
          ∃ t, exec (.semSignal pkt) s = .next t ∧ HaltsWith b 0x0204 t ∧ (t.board b).bsems = (s.board b).bsems))
      ∧ (∀ i k, kind = 0 → sem < 1024 → current → ep ∉ (s.board b).bsemShut → (s.board b).links = [(i, k)] → k.remoteProducer = true →
        k.fullSem = sem → k.state = 1 → k.epoch = ep → k.consumer ≠ 4 → k.remoteConsumer = false → n = 1 → (s.board b).bsem sem < 65535 →
        ∃ t, exec (.semSignal pkt) s = .next t ∧ ((t.board b).buf (k.bufFirst + k.fillPos)).state = 2
          ∧ (t.board b).bsem sem = (s.board b).bsem sem + 1 ∧ t = { s with boards := t.boards })
      ∧ (∀ i k, kind = 0 → sem < 1024 → current → ep ∉ (s.board b).bsemShut → (s.board b).links = [(i, k)] → k.remoteConsumer = true →
        k.remoteProducer = false → k.emptySem = sem → k.state = 1 → k.mode = k.want → (s.board b).fetches = [] →
        ((s.board b).buf (k.bufFirst + k.usePos)).state = 2 → n = 1 → (s.board b).bsem sem < 65535 →
        ∃ t, exec (.semSignal pkt) s = .next t ∧ ((t.board b).buf (k.bufFirst + k.usePos)).state = 0
          ∧ (t.board b).bsem sem = (s.board b).bsem sem + 1 ∧ t = { s with boards := t.boards })
      ∧ (kind = 1 → epochOk s g ge = false → exec (.semSignal pkt) s = .next (s.bump .staleEpochDrops))
      ∧ (∀ m, kind = 1 → epochOk s g ge = true → gKind (s.grp g) ≠ 4 → (s.board b).credits = [(pkt.src, ep, m)] →
        ∃ t, exec (.semSignal pkt) s = .next t ∧ (t.board b).credits = [(pkt.src, ep, m + n)] ∧ t = { s with boards := t.boards })
      ∧ (∀ m e, kind = 1 → epochOk s g ge = true → gKind (s.grp g) = 4 → pkt.src / 16 = s.device → (s.board b).credits = [(voteKey g, e, m)] →
        ∃ t, exec (.semSignal pkt) s = .next t ∧ (t.board b).credits = [(voteKey g, e, m + n)] ∧ t = { s with boards := t.boards })
      ∧ (∀ v, kind = 1 → epochOk s g ge = true → gKind (s.grp g) = 4 → pkt.src / 16 ≠ s.device →
        s.fab.voteSent.find? (fun w => w.1 == g) = some v → s.fab.votes = [] → s.fab.voteWait = [] →
        exec (.semSignal pkt) s = .next { s with fab := { s.fab with voteSent := s.fab.voteSent.erase v } }))
    ∧ (∀ (p : PortNo) (pkt : Pkt) (c : Instr) (ok : Line → BitVec 192 → Bool) (s : State),
      (pkt.opcode = 0x21 ∧ c = .barrier p pkt ∧ ok = fun _ e => gKind e == 5) ∨ (pkt.opcode = 0x22 ∧ c = .commitTok p pkt ∧ ok = tokenOk)
        ∨ (pkt.opcode = 0x23 ∧ c = .voidTok p pkt ∧ ok = tokenOk) →
      let l := lineOf pkt.payload
      -- the state once the message has left the receive buffer
      let u := takenUp (some p.val) pkt s
      let good := epochOk s l.group l.gepoch = true ∧ ok l (s.grp l.group) = true
      (s.powered = false → exec c s = .next s)
      ∧ (s.powered = true → s.device = 0xFFFF → exec c s = .next (u.bump .fabricErrs))
      ∧ (s.powered = true → s.device ≠ 0xFFFF → pktOk pkt = false → ∃ t, exec c s = .next t ∧ Rejected pkt 0x0606 t)
      ∧ (s.powered = true → s.device ≠ 0xFFFF → pktOk pkt = true → pkt.hop = 31 → ∃ t, exec c s = .next t ∧ Rejected pkt 0x0609 t)
      ∧ (s.powered = true → s.device ≠ 0xFFFF → pktOk pkt = true → pkt.hop ≠ 31 → ¬ good → exec c s = .next (u.bump .staleEpochDrops))
      ∧ (BeamArrives pkt.opcode pkt ok s → l.ack = true → exec c s = .next (takeAck p.val pkt u))
      ∧ (BeamArrives pkt.opcode pkt ok s → l.ack = false → isRepeat s p.val l = true → exec c s = .next (sendAck p.val pkt u)))
    ∧ (∀ (p : PortNo) (pkt : Pkt) (s : State), BeamArrives 0x21 pkt (fun _ e => gKind e == 5) s →
      let l := lineOf pkt.payload
      let e := s.grp l.group
      l.ack = false → isRepeat s p.val l = false →
      (l.down = false → testBit (gForkPorts e) p.val = true → (∃ w ∈ 24 :: gChildren e, w ≠ p.val ∧ s.arrived l.group l.barrier w = false) →
        ∃ t, exec (.barrier p pkt) s = .next t ∧ t.arrived l.group l.barrier p.val = true ∧ t.doms = s.doms
          ∧ (s.arrived l.group l.barrier p.val = false → (l.group, l.barrier, p.val, l.modules) ∈ t.fab.barriers))
      ∧ (l.down = true → p.val = gUpPort e →
        ∃ t, exec (.barrier p pkt) s = .next t ∧ (∀ w, t.arrived l.group l.barrier w = false)
          ∧ (l.barrier = 0 → ∀ d, (s.dom d).used = true → (s.dom d).group = l.group → (t.dom d).barrierDone = true)))
    ∧ (∀ (commit : Bool) (p : PortNo) (pkt : Pkt) (s : State), BeamArrives (if commit then 0x22 else 0x23) pkt tokenOk s →
      let l := lineOf pkt.payload
      let e := s.grp l.group
      let x := s.dom l.domain
      let c := if commit then Instr.commitTok p pkt else Instr.voidTok p pkt
      let tok : Tok := { commit := commit, tag := l.tag, firstVoider := l.firstVoider, modules := l.modules }
      l.ack = false → isRepeat s p.val l = false → x.used = true → x.group = l.group → l.down = false → testBit (gForkPorts e) p.val = true →
      (x.exch.state = 0 →
        ∃ t, exec c s = .next t ∧ (t.dom l.domain).exch.childs.lookup p.val = some tok ∧ (t.dom l.domain).phase = x.phase
          ∧ (∀ d, d ≠ l.domain → t.dom d = s.dom d) ∧ t.stks = s.stks ∧ t.boards = s.boards)
      ∧ (x.exch.state = 1 → x.exch.sentUp = false → gChildren e = [p.val] → gUpPort e = 24 →
        ∃ t, exec c s = .next t ∧ (t.dom l.domain).exch.state = 2
          ∧ (∀ k, s.stackOk k = true → (t.stack k).inbox = (s.stack k).inbox ++
              [if commit ∧ x.exch.offer = 1 ∧ l.tag = x.openTag then HubMsg.commit l.domain x.openTag else HubMsg.void l.domain x.openTag])))
    ∧ (∀ (g : GroupNo) (u : Beam) (s : State), s.fab.unacked = [u] →
      (beamGroup u.pkt = g.val → (s.port u.port).inService = true → Ready u.port { u.pkt with hop := u.pkt.hop + 1 } s →
        ∃ t, exec (.tokenResend g) s = .next t ∧ Out.packet (some u.port) { u.pkt with hop := u.pkt.hop + 1 } ∈ t.out ∧ t.fab = s.fab
          ∧ t.doms = s.doms)
      ∧ (beamGroup u.pkt ≠ g.val → exec (.tokenResend g) s = .next s))
    ∧ (∀ (d : DomainNo) (s : State),
      ((s.dom d.val).exch.state = 1 → (s.dom d.val).exch.timeoutRaised = false →
        ∃ t, exec (.beamTimeout d) s = .next t ∧ (t.dom d.val).exch = { (s.dom d.val).exch with timeoutRaised := true }
          ∧ testBit t.host.irqCause.toNat 1 = true ∧ testBit t.host.irqCause.toNat 5 = true ∧ t.stks = s.stks)
      ∧ ((s.dom d.val).exch.state ≠ 1 ∨ (s.dom d.val).exch.timeoutRaised = true → exec (.beamTimeout d) s = .next s))
    ∧ (∀ (d : DomainNo) (s : State),
      let x := s.dom d.val
      let commit := x.watch.voidMark = false ∧ x.updFault = false ∧ x.lost = false ∧ (∀ r, x.replay = some r → replayOk s x r = true)
      let due := s.powered = true ∧ schedulerBusy s = false ∧ offerDue s d.val = true
      (¬ due → exec (.localOffer d) s = .next s)
      ∧ (due → commit → x.mirrorActive = true ∨ x.snapCapturing = true →
        ∃ t, exec (.localOffer d) s = .next t ∧ (t.dom d.val).phase = .open ∧ (t.dom d.val).exch = x.exch ∧ t = { s with doms := t.doms })
      ∧ (due → commit → x.mirrorActive = false → x.snapCapturing = false →
        ∃ t, exec (.localOffer d) s = .next t ∧ (t.dom d.val).phase = .closing ∧ (t.dom d.val).exch.offer = 1)
      ∧ (due → ¬ commit →
        ∃ t, exec (.localOffer d) s = .next t ∧ (t.dom d.val).phase = .closing ∧ (t.dom d.val).exch.offer = 2))

/-- The fabric time base (R212, R218 to R220; that the master stays FREE, and what an echo carries, are the model's choice, log entry 33; that
TB_OFFSET wraps is log entry 28). A sync of HOP 31 is discarded with ROUTE_LOOP; one is taken only from the port toward the master, and goes on to the
other ports with HOP one higher: the received time is the master's with the correction and the link's delay; the offset is kept, sixteen good ones in a row lock the time
base, an offset above 1 µs is taken away at once while no step is open, and any other at 200 ppm of the time since the last sync at most. The master
sends its time on its ports. An echo is sent and gives the link delay, half of what the round took beyond the peer's part. Without a sync for
100 µs a locked time base holds over, with a fault. -/
def Obligations.TimeBase : Prop :=
  (∀ (p : PortNo) (mt corr : W64) (stamp : SyncStamp) (s : State),
      let m := s.rd .tbMaster
      let served := s.powered = true ∧ (s.port p.val).state = .up
      -- the state once the sync has left the receive buffer
      let got := leaveRx (some p.val) 8 1 s
      let toward := m ≠ 0xFFFF ∧ m ≠ s.device ∧ pickPort got (wayTo s m none false).ports got.ownAddr (m * 16) = some p.val
      let off : Int := 1000 * (s.now : Int) + (stamp.ps % 1000 : Nat) - (1000 * (mt.toNat : Int) + (corr.toNat + s.rd .linkDelay p.val : Nat))
      let n := if off.natAbs ≤ 4000 then min 16 (s.fab.tbGood + 1) else 0
      let most : Int := ((s.now - s.fab.tbLast.toNat) * 200 / 1000 : Nat)
      (¬ served → exec (.tbSync p mt corr stamp) s = .next s)
      ∧ (served → s.device = 0xFFFF → exec (.tbSync p mt corr stamp) s = .next (leaveRx (some p.val) 8 1 (s.bump .fabricErrs)))
      ∧ (served → s.device ≠ 0xFFFF → stamp.hop = 31 →
        ∃ t, exec (.tbSync p mt corr stamp) s = .next t ∧ testBit t.host.irqCause.toNat 1 = true ∧ LogsCode 0x0609 s t ∧ t.time = s.time ∧ t.fab = s.fab)
      ∧ (served → s.device ≠ 0xFFFF → stamp.hop ≠ 31 → ¬ toward → exec (.tbSync p mt corr stamp) s = .next got)
      ∧ (served → s.device ≠ 0xFFFF → stamp.hop ≠ 31 → toward →
        ∃ t, exec (.tbSync p mt corr stamp) s = .next t ∧ t.fab.tbOffset = off ∧ t.fab.tbGood = n ∧ t.fab.tbState = (if n = 16 then 2 else 1)
          ∧ t.fab.tbLast = t.time
          ∧ (1000000 < off.natAbs → s.anyOpen = false → t.time = BitVec.ofInt 64 ((s.now : Int) - off.tdiv 1000))
          ∧ (off.natAbs ≤ 1000000 ∨ s.anyOpen = true →
              t.time = BitVec.ofInt 64 ((s.now : Int) - (max (-most) (min most off)).tdiv 1000))
          ∧ (∀ q, (List.range 24).filter (fun r => (s.port r).state == .up && r != p.val) = [q] →
              (∀ k : Pkt, k.opcode = 0x24 → k.flits = 0 → k.dateline = false → Ready q k s) →
              ∃ k, Out.packet (some q) k ∈ t.out ∧ k.opcode = 0x24 ∧ k.hop = stamp.hop + 1 ∧ leAt k.payload 0 8 = mt.toNat)
          ∧ t = { s with time := t.time, fresh := t.fresh, fab := t.fab, ports := t.ports, out := t.out, cnt := t.cnt }))
    ∧ (∀ (s : State),
      (s.powered = false ∨ s.device = 0xFFFF ∨ s.rd .tbMaster ≠ s.device → exec .tbSyncSend s = .next s)
      ∧ (∀ q k, s.powered = true → s.device ≠ 0xFFFF → s.rd .tbMaster = s.device →
        (List.range 24).filter (fun q => (s.port q).state == .up) = [q] →
        k.opcode = 0x24 → k.dest = s.device * 16 → k.src = s.ownAddr → k.flits = 0 → k.lines = 1 → k.mc = false → k.dr = false → k.hop = 1 →
        k.txn = 0 → k.addr = 0 → k.dateline = false → k.payload = padTo 64 (leBytes 8 s.now ++ leBytes 8 0) → Ready q k s →
        ∃ t, exec .tbSyncSend s = .next t ∧ Out.packet (some q) k ∈ t.out ∧ t = { s with ports := t.ports, out := t.out, cnt := t.cnt }))
    ∧ (∀ (p : PortNo) (t1 t2 t3 t4 : Int) (s : State),
      ((s.port p.val).state = .up → (∀ k : Pkt, k.opcode = 0x25 → k.flits = 0 → k.dateline = false → Ready p.val k s) →
        ∃ t k, exec (.tbEcho p t1 t2 t3 t4) s = .next t ∧ Out.packet (some p.val) k ∈ t.out ∧ k.opcode = 0x25
          ∧ k.dest = (s.port p.val).peerDevice * 16
          ∧ t.rd .linkDelay p.val = min (((t4 - t1) - (t3 - t2)) / 2).toNat (2 ^ 32 - 1)
          ∧ t = { s with ports := t.ports, out := t.out, cnt := t.cnt, fresh := t.fresh, regs := t.regs })
      ∧ ((s.port p.val).state ≠ .up → exec (.tbEcho p t1 t2 t3 t4) s = .next s))
    ∧ (∀ (s : State),
      (s.fab.tbState = 2 → ∃ t, exec .tbHoldover s = .next t ∧ t.fab = { s.fab with tbState := 3, tbGood := 0 }
        ∧ testBit t.host.irqCause.toNat 1 = true ∧ t.time = s.time)
      ∧ (s.fab.tbState ≠ 2 → exec .tbHoldover s = .next s))

/-! ### Stacks -/

/-- The close of a step in a stack (R168, R170 to R174, R331, R334; the tag that an old plane gets back, and the settling of a domain that some
stacks have closed again, are the model's reading, log entry 19; what of a mirror pass the spec leaves open is log entry 34). OPEN opens the domain's register under its tag. COMMIT and VOID are held until the stack's writes are done; then the register
closes in one change, and the settle walk runs. The last stack's close closes the step for the hub: the committed tag moves only on COMMIT, and
DOMAIN_CAUSE bit 1 is set. The settle walk clears every DIRTY bit, and on VOID turns P and TAG8 back; after the last walk of a commit PRE_INTACT says whether no square of
LASTC was written since. A mirror pass without a partner fails with 0508h; with one it
starts with its seal in state WRITING, and MIRROR_SEALED shows no tag for its set. -/
def Obligations.StackClose : Prop :=
  (∀ (k : StackNo) (d tag : Nat) (s : State), nextMsg s k.val = some (.openStep d tag) →
      ∃ t, exec (.openCmd k) s = .next t ∧ t.dreg k.val d = { s.dreg k.val d with isOpen := true, openTag := tag }
        ∧ (∀ e, e ≠ d → t.dreg k.val e = s.dreg k.val e) ∧ (t.stack k.val).inbox = (s.stack k.val).inbox.drop 1
        ∧ t = { s with stks := t.stks, doms := t.doms })
    ∧ (∀ (k : StackNo) (d tag : Nat) (s : State),
      (nextMsg s k.val = some (.commit d tag) → exec (.commit k) s =
        .next (s.modStack k.val (fun x => { x with inbox := x.inbox.drop 1, held := x.held ++ [.commit d tag] })))
      ∧ (nextMsg s k.val = some (.void d tag) → exec (.stackVoid k) s =
        .next (s.modStack k.val (fun x => { x with inbox := x.inbox.drop 1, held := x.held ++ [.void d tag] })))
      ∧ (nextMsg s k.val = none → exec (.openCmd k) s = .next s ∧ exec (.commit k) s = .next s ∧ exec (.stackVoid k) s = .next s))
    ∧ (∀ (k : StackNo) (d : DomainNo) (tag : Nat) (commit : Bool) (s : State), heldFor (s.stack k.val) d.val = some (tag, commit) →
      let r := s.dreg k.val d.val
      let due := r.isOpen = true ∧ r.openTag = tag ∧ writesDone s k.val d.val = true ∧ r.settling = false ∧ s.powered = true
      let r' : DReg := { r with isOpen := false, settling := true, lastTag := tag, lastOut := if commit then 1 else 2
                                committedTag := if commit then tag else r.committedTag }
      (¬ due → exec (.closeApply k d) s = .next s)
      ∧ (due → (∀ h ∈ (s.stack k.val).reads, heldStill (s.setDreg k.val d.val r') h = true) →
        ((∃ j, s.stackOk j = true ∧ j ≠ k.val ∧ testBit (s.dom d.val).appliedBy j = false) →
          ∃ t, exec (.closeApply k d) s = .next t ∧ t.dreg k.val d.val = r' ∧ (t.dom d.val).phase = (s.dom d.val).phase
            ∧ t = { s with stks := t.stks, doms := t.doms })
        ∧ ((∀ j, s.stackOk j = true → j ≠ k.val → testBit (s.dom d.val).appliedBy j = true) → s.stackOk k.val = true →
          ∃ t, exec (.closeApply k d) s = .next t ∧ t.dreg k.val d.val = r' ∧ (t.dom d.val).phase = .closed
            ∧ (t.dom d.val).committedTag = (if commit then tag else (s.dom d.val).committedTag) ∧ (t.dom d.val).lastTag = tag
            ∧ (t.dom d.val).lastOutcome = (if commit then 1 else 2) ∧ testBit (t.rd .domainCauseBits d.val) 1 = true
            ∧ t.dram = s.dram ∧ t.store = s.store)))
    ∧ (∀ (k : StackNo) (d : DomainNo) (s : State),
      ((s.dreg k.val d.val).settling = false → exec (.settleWalkDone k d) s = .next s)
      ∧ ((s.dreg k.val d.val).settling = true →
        ∃ t, exec (.settleWalkDone k d) s = .next t ∧ t.dreg k.val d.val = { s.dreg k.val d.val with settling := false }
          ∧ (∀ i, (∃ e ∈ domRegions s k.val d.val, rVtBase e.2 ≤ i ∧ i < rVtBase e.2 + rSquares e.2) →
              (t.vrec k.val i).dirty = false
                ∧ (t.vrec k.val i).p = ((s.vrec k.val i).p != ((s.vrec k.val i).dirty && (s.dreg k.val d.val).lastOut != 1))
                ∧ (t.vrec k.val i).tag8 = (if (s.vrec k.val i).dirty && (s.dreg k.val d.val).lastOut != 1 then (s.vrec k.val i).was
                    else (s.vrec k.val i).tag8))
          ∧ ((∀ j, s.stackOk j = true → j ≠ k.val → testBit (s.dom d.val).settledBy j = true) → (s.dreg k.val d.val).lastOut = 1 →
              (t.dom d.val).preIntact = !(s.dom d.val).preDirty)
          ∧ (∀ i, (∀ e ∈ domRegions s k.val d.val, i < rVtBase e.2 ∨ rVtBase e.2 + rSquares e.2 ≤ i) → t.vrec k.val i = s.vrec k.val i)
          ∧ t = { s with stks := t.stks, doms := t.doms }))
    ∧ (∀ (k : StackNo) (d : DomainNo) (r : Fin 64) (s : State),
      (findPass s d.val k.val r.val = none → exec (.mirrorPass k d r) s = .next s)
      ∧ (∀ m, findPass s d.val k.val r.val = some m → m.phase = 0 → (s.dreg k.val d.val).settling = false → s.powered = true →
        let m' := { m with phase := 1, crec := (s.dom d.val).commitRec
                           block := stateBlock (setSealed r.val m.set 0 s) d.val (s.dom d.val).commitRec }
        (s.rd .mirrorPartner = 0xFFFF →
          ∃ t, exec (.mirrorPass k d r) s = .next t ∧ findPass t d.val k.val r.val = none ∧ testBit t.host.irqCause.toNat 1 = true
            ∧ LogsCode 0x0508 s t)
        ∧ (s.rd .mirrorPartner ≠ 0xFFFF →
          ∃ t q, exec (.mirrorPass k d r) s = .next t ∧ Out.packet none q ∈ t.out ∧ q.opcode = 0x08 ∧ q.dest = s.rd .mirrorPartner
            ∧ q.addr = (mirrorTail s r.val + 64 * m.set) / 64 ∧ q.payload = sealLine (setSealed r.val m.set 0 s) d.val m' false
            ∧ bitsOf (t.rd .mirrorSealed r.val) (32 * m.set + 31) (32 * m.set) = 0 ∧ t.dram = s.dram))
      ∧ (∀ m, findPass s d.val k.val r.val = some m → m.phase ≠ 0 ∨ (s.dreg k.val d.val).settling = true ∨ s.powered = false →
        exec (.mirrorPass k d r) s = .next s))

/-- The lines of a Board's read of a stack. -/
def Lines (s : State) (k : Nat) (r : StackReadReq) (P : LineRead → Prop) : Prop := ∀ l ∈ readLines s k r.dpa r.lines r.tag, P l

/-- Reads, scrubs and tests of stacks and board stores (R100, R118, R164 to R168, R171, R324, R325; log entries 4, 16, 25 and 48). A Board's read of
readable lines returns their bytes and changes no memory but for corrections; one ahead of its domain is held, for 1 ms at most; an old one is
stale; one that the region forbids, or that the stack does not have, halts the Board with 0402h, an uncorrectable line with 0401h. A scrub marks a weak line or word, counts a corrected one and queues the test of its row; an uncorrectable one is
reported, and a line of a committed plane, or a version word, makes its domain LOST. A row that passes its test counts a transient event; one that
fails is spared while its bank has a spare; a Board without one halts and is retired, and a stack that fails its test is retired. While all channels of a
stack are tested, its other tests, its scrub and the end of its holds wait, and the store of a Board in DEEP_SLEEP is not tested. Nothing happens on a unit that is
out of service, or without a test that is due. -/
def Obligations.StackReadsAndTests : Prop :=
  (∀ (k : StackNo) (r : StackReadReq) (s : State),
      let served := s.stackOk k.val = true ∧ s.powered = true ∧ s.boardOk r.board = true
      (¬ served → exec (.stackRead k r) s = .next s)
      ∧ (served →
        ((∃ i < r.lines, stackOf (r.dpa + 64 * i) ≠ k.val) → ¬ Lines s k.val r (· ≠ .region))
        ∧ (Lines s k.val r (fun l => ∃ a bs, l = .data a bs) →
          ∃ t, exec (.stackRead k r) s = .next t ∧ t.out = .readData ((readLines s k.val r.dpa r.lines r.tag).flatMap lineBytes) :: s.out
            ∧ t = { s with out := t.out, cnt := t.cnt, regs := t.regs, stks := t.stks })
        ∧ (¬ Lines s k.val r (· ≠ .region) →
          ∃ t, exec (.stackRead k r) s = .next t ∧ HaltsWith r.board 0x0402 t ∧ t.out = .readError 0x0402 :: s.out ∧ t.dram = s.dram)
        ∧ (Lines s k.val r (· ≠ .region) → ¬ Lines s k.val r (· ≠ .held) →
          exec (.stackRead k r) s = .next (s.modStack k.val (fun x => { x with reads := x.reads ++
            [{ who := .board r.board, dpa := r.dpa, lines := r.lines, tag := r.tag, domain := ((s.regionAt r.dpa).map (fun e => rDomain e.2)).getD 0xFF, since := s.time }] })))
        ∧ (Lines s k.val r (fun l => l ≠ .region ∧ l ≠ .held) → ¬ Lines s k.val r (· ≠ .stale 1) → exec (.stackRead k r) s = .next (s.emit (.readStale 1)))
        ∧ (Lines s k.val r (fun l => l ≠ .region ∧ l ≠ .held ∧ l ≠ .stale 1) → ¬ Lines s k.val r (fun l => ∀ a, l ≠ .bad a) →
          ∃ t, exec (.stackRead k r) s = .next t ∧ HaltsWith r.board 0x0401 t ∧ t.out = .readError 0x0401 :: s.out ∧ t.dram = s.dram)))
    ∧ (∀ (k : StackNo) (i : Nat) (s : State),
      ((s.stack k.val).reads[i]? = none ∨ s.underTest k.val = true → exec (.aheadHoldTimeout k i) s = .next s)
      ∧ ∀ h, (s.stack k.val).reads[i]? = some h → s.underTest k.val = false →
      let rest := s.modStack k.val (fun x => { x with reads := x.reads.eraseIdx i })
      (∀ b, h.who = .board b → exec (.aheadHoldTimeout k i) s = .next (rest.emit (.readStale 2)))
      ∧ ((∃ p, h.who = .remote p) ∨ (∃ a, h.who = .window a) ∨ (∃ b l f n, h.who = .stash b l f n) →
        exec (.aheadHoldTimeout k i) s = .next rest)
      ∧ (∀ p, h.who = .gather p →
        ∃ t, exec (.aheadHoldTimeout k i) s = .next t ∧ Answered p 0x84 (hdrBytes { hdrOf p.payload with outcome := 2, err := 0 }) t
          ∧ t = { rest with out := t.out })
      ∧ (∀ b id r, h.who = .rendezvous b id → (s.board b).rdvAt id = some r → (s.board b).rdvWait = [] →
        ∃ t, exec (.aheadHoldTimeout k i) s = .next t ∧ (t.board b).rdvAt id = none
          ∧ ∀ w ∈ r.waiting, ∃ q, Out.packet none q ∈ t.out ∧ q.dest = w.1 ∧ q.txn = w.2.1 ∧ q.opcode = 0x84)
      ∧ (∀ b link fill line r g, h.who = .fetch b link fill line →
        (s.board b).awaited link fill line (fun r => r.stash.isNone) = some (r, g) → r.squashed = false →
        ∃ t, exec (.aheadHoldTimeout k i) s = .next t ∧ HaltsWith b 0x0205 t))
    ∧ (∀ (k : StackNo) (s : State),
      (∀ ok, (s.stack k.val).rowTests = [] ∨ s.underTest k.val = true → exec (.rowTest k ok) s = .next s)
      ∧ ∀ l ls, (s.stack k.val).rowTests = l :: ls → s.underTest k.val = false →
      (s.stackOk k.val = true →
        exec (.rowTest k true) s = .next (s.modStack k.val (fun x => { x with rowTests := ls, transients := satAdd 32 x.transients 1 }))
        ∧ ∃ t key, exec (.rowTest k false) s = .next t ∧ (t.stack k.val).rowTests = ls ∧ t.dram = s.dram
          ∧ tget t.flash.stackSpares key 0 = (if tget s.flash.stackSpares key 0 ≤ 16 then tget s.flash.stackSpares key 0 + 1
              else tget s.flash.stackSpares key 0)
          ∧ (∀ j, j ≠ key → tget t.flash.stackSpares j 0 = tget s.flash.stackSpares j 0)
          ∧ (tget s.flash.stackSpares key 0 < 16 → t.flash.stackRemaps = s.flash.stackRemaps ++ [(key, l)])
          ∧ (tget s.flash.stackSpares key 0 ≤ 16 → testBit t.host.irqCause.toNat 1 = true))
      ∧ (∀ ok, s.stackOk k.val = false → exec (.rowTest k ok) s = .next (s.modStack k.val (fun x => { x with rowTests := ls }))))
    ∧ (∀ (k : StackNo) (line : Nat) (o : LineOutcome) (s : State),
      let dpa := k.val * stackBytes + 64 * line
      let l := dpa / 64
      let x := s.stack k.val
      (stackBytes ≤ 64 * line ∨ s.stackOk k.val = false ∨ s.powered = false ∨ s.underTest k.val = true →
        exec (.patrolScrub k line o) s = .next s)
      ∧ (64 * line + 64 < stackBytes → s.stackOk k.val = true → s.powered = true → s.underTest k.val = false →
        (l ∉ x.bad → l ∉ x.soft →
          (o = .clean → ∃ t, exec (.patrolScrub k line o) s = .next t ∧ t = { s with cnt := t.cnt })
          ∧ (o = .weak → ∃ t, exec (.patrolScrub k line o) s = .next t
              ∧ t = { s.modStack k.val (fun x => { x with soft := x.soft ++ [l] }) with cnt := t.cnt })
          ∧ (∀ e i off, o = .versionWord → s.regionAt dpa = some e → rKind e.2 = 1 → squareAt e.2 dpa = some (i, off) →
            ∃ t, exec (.patrolScrub k line o) s = .next t ∧ (t.dom (rDomain e.2)).lost = true ∧ testBit t.host.irqCause.toNat 1 = true
              ∧ testBit t.host.irqCause.toNat 2 = true ∧ t.vrecBad (stackOf dpa) (rVtBase e.2 + i) = true ∧ t.dram = s.dram))
        ∧ (l ∉ x.bad → o = .corrected ∨ (l ∈ x.soft ∧ o ≠ .uncorrectable) →
          ∃ t, exec (.patrolScrub k line o) s = .next t ∧ t.rd .eccCorrected k.val = satAdd 64 (s.rd .eccCorrected k.val) 1
            ∧ l ∈ (t.stack k.val).rowTests ∧ l ∉ (t.stack k.val).soft ∧ t = { s with regs := t.regs, flash := t.flash, stks := t.stks, cnt := t.cnt })
        ∧ (l ∈ x.bad ∨ o = .uncorrectable →
          ∃ t, exec (.patrolScrub k line o) s = .next t ∧ l ∈ (t.stack k.val).bad
            ∧ testBit t.host.irqCause.toNat 1 = true ∧ testBit t.host.irqCause.toNat 2 = true ∧ t.dram = s.dram
            ∧ (∀ d, inCommitted s dpa = some d → (t.dom d).lost = true)))
      ∧ (64 * line + 64 = stackBytes → s.stackOk k.val = true → s.powered = true → s.underTest k.val = false → l ∉ x.bad → l ∉ x.soft → o = .clean →
        ∃ t, exec (.patrolScrub k line o) s = .next t ∧ t = { s with regs := t.regs, fresh := t.fresh, cnt := t.cnt }))
    ∧ (∀ (b : BoardNo) (w : Nat) (o : LineOutcome) (s : State),
      let x := s.board b.val
      (storeBytes ≤ 8 * w ∨ s.storeUp b.val = false ∨ s.powered = false → exec (.boardStoreScrub b w o) s = .next s)
      ∧ (8 * w < storeBytes → s.storeUp b.val = true → s.powered = true →
        (w ∉ x.storeBad → w ∉ x.storeSoft →
          (o = .clean ∨ o = .versionWord → exec (.boardStoreScrub b w o) s = .next s)
          ∧ (o = .weak → exec (.boardStoreScrub b w o) s = .next (s.modBoard b.val (fun x => { x with storeSoft := x.storeSoft ++ [w] }))))
        ∧ (w ∉ x.storeBad → o = .corrected ∨ (w ∈ x.storeSoft ∧ o ≠ .uncorrectable) →
          ∃ t, exec (.boardStoreScrub b w o) s = .next t ∧ t.rd .storeCorrected b.val = satAdd 32 (s.rd .storeCorrected b.val) 1
            ∧ w ∈ (t.board b.val).storeTests ∧ w ∉ (t.board b.val).storeSoft ∧ t = { s with regs := t.regs, flash := t.flash, boards := t.boards })
        ∧ (w ∈ x.storeBad ∨ o = .uncorrectable →
          ∃ t, exec (.boardStoreScrub b w o) s = .next t ∧ w ∈ (t.board b.val).storeBad ∧ HaltsWith b.val 0x0401 t ∧ t.store = s.store)))
    ∧ (∀ (b : BoardNo) (s : State),
      (∀ ok, (s.board b.val).storeTests = [] ∨ (s.board b.val).asleep = true → exec (.marchTest b ok) s = .next s)
      ∧ ∀ w ws, (s.board b.val).storeTests = w :: ws → (s.board b.val).asleep = false →
      let bank := 32 * b.val + storeBank (8 * w)
      (s.boardOk b.val = true →
        exec (.marchTest b true) s = .next (s.modBoard b.val (fun x => { x with storeTests := ws, transients := satAdd 32 x.transients 1 })))
      ∧ (s.boardOk b.val = true → tget s.flash.storeSpares bank 0 < 64 →
        ∃ t, exec (.marchTest b false) s = .next t ∧ tget t.flash.storeSpares bank 0 = tget s.flash.storeSpares bank 0 + 1
          ∧ t.flash.storeRemaps = s.flash.storeRemaps ++ [(bank, w)] ∧ (t.board b.val).storeTests = ws ∧ (∀ h ∈ (s.board b.val).bufsAt w, h ∈ (t.board b.val).withdrawn)
          ∧ (s.dev.restarting.contains (16 + b.val) = false → testBit t.host.irqCause.toNat 1 = true)
          ∧ t.flash.retiredBoards = s.flash.retiredBoards)
      ∧ (s.boardOk b.val = true → 64 ≤ tget s.flash.storeSpares bank 0 →
        ∃ t, exec (.marchTest b false) s = .next t ∧ testBit t.flash.retiredBoards b.val = true
          ∧ ((t.board b.val).halt ≠ .none ∨ t.dev.state = .safe))
      ∧ (∀ ok, s.boardOk b.val = false → exec (.marchTest b ok) s = .next (s.modBoard b.val (fun x => { x with storeTests := ws }))))
    ∧ (∀ (k : StackNo) (s : State),
      ((s.stack k.val).testDue = true → s.powered = true →
        ((s.stack k.val).reads = [] →
          exec (.stackSelfTest k true) s = .next (s.modStack k.val (fun x => { x with testDue := false, ueTimes := [] })))
        ∧ ∃ t, exec (.stackSelfTest k false) s = .next t ∧ testBit t.flash.retiredStacks k.val = true)
      ∧ (∀ ok, (s.stack k.val).testDue = false ∨ s.powered = false → exec (.stackSelfTest k ok) s = .next s))

/-! ### Sequencer -/

/-- Table loads and the swap of banks (R130 to R132, R280, R285; Table 06-2). LOAD_BEGIN opens an EMPTY or INVALID inactive bank, a word goes into the LOADING inactive bank, and anything else is
refused and counted. LOAD_END makes a bank that passes the checks READY, and the first one of a running job active at once, where the Board carries a domain (else it sleeps on, R154); one that fails is refused with the offset and reason of its bundle, is
INVALID, and aborts a running job, which leaves it EMPTY. While the control core restarts the writes wait; a Board without its sequencer takes none. The banks swap when the inactive one is READY
and both streams stand at SWAP, or the filler has stopped; else BANK_SWAP changes nothing. -/
def Obligations.BankLoads : Prop :=
  (∀ (b : BoardNo) (s : State), seqPresent s b.val = true → controlBusy s b.val = false →
      let x := s.board b.val
      (x.inactState = 0 ∨ x.inactState = 3 → exec (.loadBegin b) s = .next (s.modBoard b.val (fun x => { x with inactState := 1 })))
      ∧ (x.inactState ≠ 0 → x.inactState ≠ 3 → exec (.loadBegin b) s = .next (s.bump .loadRefusals b.val))
      ∧ (∀ bank off w, x.inactState = 1 → (if bank then 1 else 0) ≠ x.active →
        exec (.loadWord b bank off w) s = .next (s.modBoard b.val (fun x => x.setInactive (tset x.inactiveBank off.toNat w))))
      ∧ (∀ bank off w, x.inactState ≠ 1 ∨ (if bank then 1 else 0) = x.active →
        exec (.loadWord b bank off w) s = .next (s.bump .loadRefusals b.val))
      ∧ (x.inactState ≠ 1 → exec (.loadEnd b) s = .next (s.bump .loadRefusals b.val))
      ∧ (x.inactState = 1 →
        let prev := if x.firstBank then none else some (bankOf x.activeBank 1)
        (checkBank s b.val (bankOf x.inactiveBank) prev = none →
          ((x.firstBank = true ∧ s.dev.jobState = .running →
            ∃ t, exec (.loadEnd b) s = .next t ∧ (t.board b.val).active = 1 - x.active ∧ (t.board b.val).inactState = 0
              ∧ (t.board b.val).started = s.carries b.val ∧ (t.board b.val).asleep = !s.carries b.val
              ∧ (t.board b.val).main.pos = bankOf x.inactiveBank 0 % 65536
              ∧ (t.board b.val).fill.pos = bankOf x.inactiveBank 0 / 65536 ∧ t = { s with boards := t.boards })
          ∧ (¬ (x.firstBank = true ∧ s.dev.jobState = .running) →
            exec (.loadEnd b) s = .next (s.modBoard b.val (fun x => { x with inactState := 2 })))))
        ∧ (∀ o reason, checkBank s b.val (bankOf x.inactiveBank) prev = some (o, reason) →
          ∃ t, exec (.loadEnd b) s = .next t ∧ (t.board b.val).inactState = (if s.dev.jobState = .running then 0 else 3)
            ∧ t.rd .lastRefusal b.val = o * 65536 + reason ∧ t.rd .loadRefusals b.val = satAdd 32 (s.rd .loadRefusals b.val) 1
            ∧ testBit t.host.irqCause.toNat 1 = true ∧ (s.dev.jobState = .running → t.dev.jobState = .loaded ∧ t.dev.state = .ready))))
    ∧ (∀ (b : BoardNo) (bank : Bool) (off : W16) (w : W32) (s : State),
      (seqPresent s b.val = true → controlBusy s b.val = true →
        exec (.loadBegin b) s = .next (s.modBoard b.val (fun x => { x with loadWaits := x.loadWaits ++ [.begin] }))
        ∧ exec (.loadWord b bank off w) s = .next (s.modBoard b.val (fun x => { x with loadWaits := x.loadWaits ++ [.word bank off.toNat w] }))
        ∧ exec (.loadEnd b) s = .next (s.modBoard b.val (fun x => { x with loadWaits := x.loadWaits ++ [.finish] })))
      ∧ (seqPresent s b.val = false →
        exec (.loadBegin b) s = .next s ∧ exec (.loadWord b bank off w) s = .next s ∧ exec (.loadEnd b) s = .next s))
    ∧ (∀ (b : BoardNo) (s : State),
      let x := s.board b.val
      let due := x.inactState = 2 ∧ x.main.atSwap = true ∧ (x.fill.atSwap = true ∨ x.fill.stopped = true) ∧ x.halt = .none
        ∧ s.dev.jobState = .running
      (¬ due → exec (.bankSwap b) s = .next s)
      ∧ (due →
        ∃ t, exec (.bankSwap b) s = .next t ∧ (t.board b.val).active = 1 - x.active ∧ (t.board b.val).inactState = 0
          ∧ (t.board b.val).main.pos = bankOf x.inactiveBank 0 % 65536 ∧ (t.board b.val).fill.pos = bankOf x.inactiveBank 0 / 65536
          ∧ (t.board b.val).main.atSwap = false ∧ (t.board b.val).fill.atSwap = false
          ∧ (∀ c, c ≠ b.val → t.board c = s.board c) ∧ t.store = s.store ∧ t.dram = s.dram))

/-- The action at the head of a bundle is done: the next one stands at its head, or the bundle has left issue. -/
def ActionDone (b : BoardNo) (st : StreamSel) (i : Issue) (t : State) : Prop :=
  ((t.board b.val).strm st).issue = (match i.acts.drop 1 with
    | [] => none
    | a :: as => some { i with acts := a :: as })

/-- The commands that perform an action of a bundle: the action's group, its operation, and the command. -/
def BundleAction (b : BoardNo) (st : StreamSel) (a op : Nat) (c : Instr) : Prop :=
  (a = 0 ∧ op = 0 ∧ c = .fetch b st .a) ∨ (a = 1 ∧ op = 0 ∧ c = .fetch b st .b) ∨ (a = 6 ∧ op = 0 ∧ c = .stashWrite b st)
    ∨ (a = 6 ∧ op = 0 ∧ c = .stashRead b st) ∨ (a = 6 ∧ op = 0 ∧ c = .stashReadRelease b st) ∨ (a = 6 ∧ op = 0 ∧ c = .stashRelease b st)
    ∨ (a = 7 ∧ op = 0 ∧ c = .gather b st) ∨ (a = 8 ∧ op = 0 ∧ c = .reduce b st) ∨ (a = 9 ∧ op = 0 ∧ c = .sem b st)
    ∨ (a = 11 ∧ op = opStepDone ∧ c = .stepDone b st) ∨ (a = 11 ∧ op = opRun ∧ ∃ m, c = .run b st m)

/-- The command of each action of a STASH group (Table 06-12). -/
def StashCommand (b : BoardNo) (st : StreamSel) (action : Nat) (c : Instr) : Prop :=
  (action = 0 ∧ c = .stashWrite b st) ∨ (action = 1 ∧ c = .stashRead b st) ∨ (action = 2 ∧ c = .stashReadRelease b st)
    ∨ (action = 3 ∧ c = .stashRelease b st)

/-- The actions of bundles (R83, R87, R121, R136, R138, R142, R143, R145, R147, R148, R155, R158; Table 06-3). A command whose action is not next does nothing; a bundle that names a retired
Frame halts the Board with 0104h (log entry 20). When its turn has come: a fetch or a stash read starts on its link, or waits behind the run that still issues, and does nothing while its link cannot take it;
a stash write stands ready; a read or a write outside the reservation halts with 0201h; a release gives the range back; a gather run is queued, or halts with 0206h outside its partition or region
and with 0207h on kept lines; a SEM signal at issue to a semaphore of the Board is added to it; NOP does no more than its turn; STEP_DONE marks the domain and keeps no line for it. A launch,
under a number that no other one has, waits for its Frames; then its passes enter them, and a push that missed its cycle halts with 0101h. -/
def Obligations.BundleActions : Prop :=
  (∀ (b : BoardNo) (st : StreamSel) (a op : Nat) (c : Instr) (s : State), BundleAction b st a op c →
      (turn b.val st a op s = .none → exec c s = .next s)
      ∧ (∀ u, turn b.val st a op s = .halted u → exec c s = .next u ∧ HaltsWith b.val 0x0104 u))
    ∧ (∀ (b : BoardNo) (st : StreamSel) (s : State),
      (turn b.val st 12 0 s = .none → turn b.val st 11 opNop s = .none → exec (.nop b st) s = .next s)
      ∧ (∀ u, turn b.val st 12 0 s = .halted u ∨ (turn b.val st 12 0 s = .none ∧ turn b.val st 11 opNop s = .halted u) →
        exec (.nop b st) s = .next u ∧ HaltsWith b.val 0x0104 u)
      ∧ (∀ i u, Turns b st 12 0 i s u ∨ (turn b.val st 12 0 s = .none ∧ Turns b st 11 opNop i s u) →
        ∃ t, exec (.nop b st) s = .next t ∧ ActionDone b st i t ∧ (t.board b.val).launches = (u.board b.val).launches
          ∧ t.store = s.store ∧ t.dram = s.dram))
    ∧ (∀ (b : BoardNo) (st : StreamSel) (f : FetchSel) (i : Issue) (s u : State),
      let k := match f with
        | .a => 0
        | .b => 1
      Turns b st k 0 i s u →
      let g := actGroup u b.val st k
      (fetchMay (u.board b.val) (fLink g) (hEpoch i.header) = false → exec (.fetch b st f) s = .next s)
      ∧ (fetchMay (u.board b.val) (fLink g) (hEpoch i.header) = true →
        ∃ t, exec (.fetch b st f) s = .next t ∧ ActionDone b st i t ∧ t.store = s.store
          ∧ (1 ≤ fFills g →
            ∃ r, r ∈ (t.board b.val).fetches ++ (t.board b.val).rearms ∧ r.link = fLink g ∧ r.src = fSrc g ∧ r.base = fBase g
              ∧ r.runs = fRuns g ∧ r.run = fRun g ∧ r.stride = fStride g ∧ r.fills = fFills g ∧ r.fabric = fFabric g ∧ r.stash = none
              ∧ r.work = issueWork u b.val st i)))
    ∧ (∀ (b : BoardNo) (st : StreamSel) (i : Issue) (s u : State), Turns b st 6 0 i s u →
      let g := actGroup u b.val st 6
      let w := issueWork u b.val st i
      let place := stashPlace u b.val w.domain w.mb (tOffset g) (tSize g)
      (∀ a c, StashCommand b st a c → tAction g ≠ a → exec c s = .next s)
      ∧ (∀ a c, StashCommand b st a c → tAction g = a → a = 0 ∨ fetchMay (u.board b.val) (tLink g) (hEpoch i.header) = true → a ≠ 3 →
        place = none → ∃ t, exec c s = .next t ∧ ActionDone b st i t ∧ HaltsWith b.val 0x0201 t)
      ∧ (∀ p, tAction g = 0 → place = some p →
        ∃ t, exec (.stashWrite b st) s = .next t ∧ ActionDone b st i t ∧ t.store = s.store
          ∧ (tSize g = 0 → (t.board b.val).stashWrs = (u.board b.val).stashWrs)
          ∧ (tSize g ≠ 0 → ∃ x, (t.board b.val).stashWrs = (u.board b.val).stashWrs ++ [x] ∧ x.link = tLink g ∧ x.region = p.1
              ∧ x.addr = p.2 ∧ x.left = tSize g ∧ x.work = w))
      ∧ (∀ (release : Bool) (c : Instr), StashCommand b st (if release then 2 else 1) c → tAction g = (if release then 2 else 1) →
        (fetchMay (u.board b.val) (tLink g) (hEpoch i.header) = false → exec c s = .next s)
        ∧ (∀ p, fetchMay (u.board b.val) (tLink g) (hEpoch i.header) = true → place = some p →
          ∃ t, exec c s = .next t ∧ ActionDone b st i t ∧ t.store = s.store
            ∧ (tSize g ≠ 0 → ∃ r q, r ∈ (t.board b.val).fetches ++ (t.board b.val).rearms ∧ r.link = tLink g ∧ r.work = w
                ∧ r.stash = some q ∧ q.region = p.1 ∧ q.off = tOffset g ∧ q.size = tSize g ∧ q.release = release)))
      ∧ (tAction g = 3 →
        ∃ t, exec (.stashRelease b st) s = .next t ∧ ActionDone b st i t ∧ t.store = s.store
          ∧ (tSize g = 0 → t.doms = u.doms)
          ∧ ∀ r, tSize g ≠ 0 → reservedOn u b.val w.domain w.mb = some r → ∀ m ∈ (t.dom w.domain).mbs, m.index = w.mb → ∀ h ∈ m.held, h.1 = b.val →
              h.2.2 ≤ r.1 + tOffset g ∨ r.1 + tOffset g + tSize g ≤ h.2.1))
    ∧ (∀ (b : BoardNo) (st : StreamSel) (i : Issue) (s u : State), Turns b st 7 0 i s u →
      let g := actGroup u b.val st 7
      let w := issueWork u b.val st i
      (gatherFits u b.val (gDest g) (gMapCount g) = false →
        ∃ t, exec (.gather b st) s = .next t ∧ ActionDone b st i t ∧ HaltsWith b.val 0x0206 t)
      ∧ (gatherFits u b.val (gDest g) (gMapCount g) = true → meetsKept (u.board b.val) (gDest g) (gMapCount g) = true →
        ∃ t, exec (.gather b st) s = .next t ∧ ActionDone b st i t ∧ HaltsWith b.val 0x0207 t)
      ∧ (gatherFits u b.val (gDest g) (gMapCount g) = true → meetsKept (u.board b.val) (gDest g) (gMapCount g) = false →
        ∃ t r, exec (.gather b st) s = .next t ∧ ActionDone b st i t ∧ r ∈ (t.board b.val).gruns ∧ r.first = gMapFirst g
          ∧ r.count = gMapCount g ∧ r.group = gGroup g ∧ r.dest = gDest g ∧ r.sem = gLandSem g ∧ r.copy = gCopy g ∧ r.keep = gKeep g
          ∧ r.work = w ∧ r.landed = 0 ∧ t.store = s.store ∧ t.dram = s.dram))
    ∧ (∀ (b : BoardNo) (st : StreamSel) (i : Issue) (s u : State), Turns b st 9 0 i s u →
      let g := actGroup u b.val st 9
      ∃ t, exec (.sem b st) s = .next t ∧ ActionDone b st i t
        ∧ (mSigAt g = true → mSigKind g = 0 → (u.board b.val).sigs = [] → (u.board b.val).sem (mSigSem g) + mSigN g ≤ 65535 →
            (∀ r ∈ (u.board b.val).fetches, r.more = false) →
            (t.board b.val).sem (mSigSem g) = (u.board b.val).sem (mSigSem g) + mSigN g)
        ∧ (mSigAt g = false → (u.board b.val).sigs = [] → i.acts.drop 1 ≠ [] → (t.board b.val).sems = (u.board b.val).sems))
    ∧ (∀ (b : BoardNo) (st : StreamSel) (i : Issue) (s u : State), Turns b st 11 opStepDone i s u →
      ∃ t, exec (.stepDone b st) s = .next t ∧ ActionDone b st i t
        ∧ ∀ d, u.domOfEpoch (hEpoch i.header) = some d → d ∈ (t.board b.val).stepDone ∧ ∀ k ∈ (t.board b.val).kept, k.2.2.1 ≠ d)
    ∧ (∀ (b : BoardNo) (st : StreamSel) (missed : Option MissedPush) (i : Issue) (s u : State), Turns b st 11 opRun i s u →
      let feed := actGroup u b.val st 2
      let frame := actGroup u b.val st 3
      (launchMay (u.board b.val) (aMask frame) = false → exec (.run b st missed) s = .next s)
      ∧ (launchMay (u.board b.val) (aMask frame) = true → (∀ k ∈ (u.board b.val).launches, k.id ≠ i.launch.getD 0) →
        ∃ t l, exec (.run b st missed) s = .next t ∧ ActionDone b st i t ∧ t.store = s.store ∧ l ∈ (t.board b.val).launches
          ∧ l.id = i.launch.getD 0 ∧ l.work = issueWork u b.val st i ∧ l.feed = feed ∧ l.frame = frame ∧ l.drain = actGroup u b.val st 4
          ∧ (eBeats feed = passCycles frame → (∀ f ∈ framesOf frame, ((u.board b.val).frame f).left = []) →
            (missed = none → l.dropped = []
              ∧ ∀ f k tile, (framesOf frame)[k]? = some f → tile < tilesOf frame → tile % (framesOf frame).length = k →
                  (l.id, tile) ∈ ((t.board b.val).frame f).passes)
            ∧ (∀ m, missed = some m → m.frame.val ∈ framesOf frame → m.beat < passCycles frame →
                m.pass < passesOf frame ((framesOf frame).idxOf m.frame.val) → m.queue < (if m.rodSide then 32 else 256) →
                HaltsWith b.val 0x0101 t))))

/-- What a read of a stack line, that ends in r, does to the line of a fill that awaits it. -/
def StackLineEnds (b : BoardNo) (q : FetchRun) (g : Filling) (line dpa : Nat) (c : Instr) (r : LineRead) (s : State) : Prop :=
  (∀ a bs, r = .data a bs → ∃ t, exec c s = .next t ∧ LineLanded b.val q g line bs s t)
    ∧ (r = .held → ∃ t, exec c s = .next t
        ∧ (∃ h ∈ (t.stack (stackOf dpa)).reads,
            h.who = (if q.stash.isSome then .stash b.val q.link g.fill line else .fetch b.val q.link g.fill line))
        ∧ t = { s with stks := t.stks })
    ∧ (q.squashed = false →
        (∀ k, r = .stale k → ∃ t, exec c s = .next t ∧ HaltsWith b.val 0x0205 t)
        ∧ (r = .region → ∃ t, exec c s = .next t ∧ HaltsWith b.val 0x0402 t)
        ∧ (∀ a, r = .bad a → ∃ t, exec c s = .next t ∧ HaltsWith b.val 0x0401 t))

/-- What a read of 64 bytes of a Board's store from a does to the line of a fill that awaits it. -/
def StoreLineEnds (b : BoardNo) (q : FetchRun) (g : Filling) (line owner a : Nat) (c : Instr) (s : State) : Prop :=
  (s.storeUp owner = true → boardBad s owner a 64 = none →
      ∃ t, exec c s = .next t ∧ LineLanded b.val q g line (s.storeRead owner a 64) s t)
    ∧ (∀ w, s.storeUp owner = true → boardBad s owner a 64 = some w → ∃ t, exec c s = .next t ∧ HaltsWith owner 0x0401 t)
    ∧ (s.storeUp owner = false → q.squashed = false → ∃ t, exec c s = .next t ∧ HaltsWith b.val 0x060A t)

/-- Lines that land for a Board (R16, R100, R115, R121, R124, R138, R142, R164, R171, R255). A line of the Board's own store, of another Board's of the module, of a stack, of the stash or of the
payload lands in the buffer of its fill, byte for byte, in a quarantined buffer too; one of a stack that runs ahead of its domain, or that is under test, is held by the stack. Unless the run is squashed, a stale line
halts the Board with 0205h, one that its region forbids with 0402h, an uncorrectable one with 0401h, one of the store of a Board that is out of service or in DEEP_SLEEP with 060Ah (log entry 48), and a failed payload read with
0704h; an uncorrectable word of a store halts the Board that owns it. Past the payload's end a line of zeros lands. A line of another module, of payload in host memory, or that nothing awaits
changes nothing here. A held re-arm takes effect once the run before it has issued its last request. -/
def Obligations.FetchedLines : Prop :=
  (∀ (b : BoardNo) (l : LinkNo) (fill line : Nat) (q : FetchRun) (g : Filling) (s : State), Awaits b.val l.val fill line q g s →
      s.boardOk b.val = true →
      let c := Instr.fetchLineLand b l fill line
      let a := q.runStart fill (line / max 1 q.run) + line % max 1 q.run
      (q.stash = none →
        (q.src = 0 → s.isHere q.fabric = true → StackLineEnds b q g line (64 * a) c (fetchStackLine s (64 * a) q.work.tag) s)
        ∧ (q.src = 1 → StoreLineEnds b q g line b.val (64 * a) c s)
        ∧ (q.src = 2 → s.isHere q.fabric = true → StoreLineEnds b q g line (q.fabric % 16) (64 * a) c s)
        ∧ (q.src = 0 ∨ q.src = 2 → s.isHere q.fabric = false → exec c s = .next s)
        ∧ (q.src = 3 →
          (payloadRec s q.work = none →
            exec c s = .next s ∧ ∀ data, exec (.payloadRead b l fill line data) s = .next s)
          ∧ (∀ p, payloadRec s q.work = some p →
            (ceilDiv (recPayloadBytes p) 64 ≤ a →
              (∃ t, exec c s = .next t ∧ LineLanded b.val q g line [] s t) ∧ ∀ data, exec (.payloadRead b l fill line data) s = .next s)
            ∧ (a < ceilDiv (recPayloadBytes p) 64 → recKind p = 1 →
              StackLineEnds b q g line (recPayloadAddr p + 64 * a) c (plainLine s (recPayloadAddr p + 64 * a)) s
                ∧ ∀ data, exec (.payloadRead b l fill line data) s = .next s)
            ∧ (a < ceilDiv (recPayloadBytes p) 64 → recKind p ≠ 1 →
              exec c s = .next s
                ∧ (∀ bs, ∃ t, exec (.payloadRead b l fill line (some bs)) s = .next t ∧ LineLanded b.val q g line bs s t)
                ∧ (q.squashed = false → ∃ t, exec (.payloadRead b l fill line none) s = .next t ∧ HaltsWith b.val 0x0704 t))))
        ∧ (q.src ≠ 3 → ∀ data, exec (.payloadRead b l fill line data) s = .next s))
      ∧ (∀ k, q.stash = some k →
        (k.region = true → StackLineEnds b q g line (g.base + 64 * line) c (plainLine s (g.base + 64 * line)) s)
        ∧ (k.region = false → StoreLineEnds b q g line b.val (g.base + 64 * line) c s)
        ∧ ∀ data, exec (.payloadRead b l fill line data) s = .next s))
    ∧ (∀ (b : BoardNo) (l : LinkNo) (fill line : Nat) (data : Option (List Byte)) (s : State),
      s.boardOk b.val = false ∨ (s.board b.val).awaited l.val fill line (fun _ => true) = none →
      exec (.fetchLineLand b l fill line) s = .next s ∧ exec (.payloadRead b l fill line data) s = .next s)
    ∧ (∀ (b : BoardNo) (l : LinkNo) (s : State),
      ((s.board b.val).rearms.find? (fun r => r.link == l.val) = none → exec (.rearmTakeEffect b l) s = .next s)
      ∧ (∀ r, (s.board b.val).rearms.find? (fun r => r.link == l.val) = some r →
        (((s.board b.val).issuing l.val).isSome = true → exec (.rearmTakeEffect b l) s = .next s)
        ∧ ((s.board b.val).issuing l.val = none →
          ∃ t, exec (.rearmTakeEffect b l) s = .next t ∧ r ∉ (t.board b.val).rearms ∧ t.store = s.store
            ∧ (r.more = true → ∃ r' ∈ (t.board b.val).fetches, r'.link = r.link ∧ r'.work = r.work ∧ r'.src = r.src ∧ r'.base = r.base
                ∧ r'.fills = r.fills))))

/-- The ends of steps, layers and streams, halts and restarts (R127, R132, R135, R148 to R150, R332; log entries 20 and 21). A Board whose STEP_DONE is passed and whose work of the domain is over is
reported done, with its streams' positions. A stream at a SWAP bundle waits for the banks; one at STOP has ended. A layer whose last result and signal are done leaves the Board. A halting Board voids
and squashes; while work is left it stays ENDING, and with none left it is HALTED, and its faults are recorded. A restart clears the register groups. STREAM_STALL halts a Board whose work waits. In
any other case these commands change nothing, but that LAYER_COMPLETE sends the signals whose work is over. -/
def Obligations.StepsAndHalts : Prop :=
  (∀ (b : BoardNo) (d : DomainNo) (s : State),
      let x := s.board b.val
      let due := d.val ∈ x.stepDone ∧ d.val ∉ x.reported ∧ x.domainBusy d.val (s.epochsOf d.val) = false ∧ x.halt = .none
        ∧ (s.dom d.val).phase = .open ∧ controlBusy s b.val = false
      (¬ due → exec (.boardStepDone b d) s = .next s)
      ∧ (due →
        ∃ t, exec (.boardStepDone b d) s = .next t ∧ testBit (t.dom d.val).boardsDone b.val = true ∧ d.val ∈ (t.board b.val).reported
          ∧ (t.dom d.val).stepPositions = (s.dom d.val).stepPositions ++ [(b.val, bankOf x.activeBank 1, x.main.pos, x.fill.pos)]
          ∧ t = { s with boards := t.boards, doms := t.doms }))
    ∧ (∀ (b : BoardNo) (st : StreamSel) (s : State),
      (atOp s b.val st opSwap = false → exec (.swap b st) s = .next s)
      ∧ (atOp s b.val st opSwap = true →
        exec (.swap b st) s = .next (s.modBoard b.val (fun x => x.setStrm st { x.strm st with atSwap := true })))
      ∧ (atOp s b.val st opStop = false → exec (.stop b st) s = .next s)
      ∧ (atOp s b.val st opStop = true →
        ∃ t, exec (.stop b st) s = .next t ∧ ((t.board b.val).strm st).stopped = true ∧ t.store = s.store ∧ t.dram = s.dram))
    ∧ (∀ (b : BoardNo) (st : StreamSel) (s : State),
      -- the state once the signals whose work is over are sent
      let u := settleSigs b.val s
      let ended := (u.board b.val).launches.find? (fun l => l.work.filler == isFiller st && (u.board b.val).layerDone l)
      (ended = none → exec (.layerComplete b st) s = .next u)
      ∧ (∀ l, ended = some l →
        ∃ t, exec (.layerComplete b st) s = .next t ∧ (t.board b.val).launches = (s.board b.val).launches.filter (fun k => k.id != l.id)
          ∧ t.store = s.store ∧ t.dram = s.dram ∧ t.doms = s.doms))
    ∧ (∀ (b : BoardNo) (s : State),
      ((s.board b.val).halt = .none ∨ (s.board b.val).halt = .halted ∨ controlBusy s b.val = true →
        exec (.layerBoundaryHalt b) s = .next s)
      ∧ ((s.board b.val).halt = .halting ∨ (s.board b.val).halt = .ending → controlBusy s b.val = false →
        ∃ t, exec (.layerBoundaryHalt b) s = .next t
          ∧ (((t.board b.val).halt = .ending ∧ (t.board b.val).unended = true)
            ∨ ((t.board b.val).halt = .halted ∧ (t.board b.val).haltFaults = [] ∧ (s.dev.state = .running → t.dev.state = .halted)))
          ∧ ((s.board b.val).unended = false → (t.board b.val).halt = .halted
              ∧ ((s.board b.val).haltFaults ≠ [] → (∀ f ∈ (s.board b.val).haltFaults, s.recordWaits f = false) →
                testBit t.host.irqCause.toNat 1 = true))))
    ∧ (∀ (b : BoardNo) (s : State),
      let due := (s.board b.val).halt = .halted ∧ s.boardOk b.val = true ∧ (s.board b.val).storeTests = [] ∧ s.dev.jobState = .running
        ∧ schedulerBusy s = false
      (¬ due → exec (.streamRestart b) s = .next s)
      ∧ (due →
        ∃ t, exec (.streamRestart b) s = .next t ∧ (t.board b.val).halt = .none ∧ (t.board b.val).main.groups = []
          ∧ (t.board b.val).fill.groups = [] ∧ (t.board b.val).main.pos = (s.board b.val).main.pos
          ∧ (t.board b.val).fill.pos = (s.board b.val).fill.pos
          ∧ (s.dev.state = .halted → (∀ c, s.boardOk c = true → c ≠ b.val → (s.board c).halt ≠ .halted) → t.dev.state = .running)))
    ∧ (∀ (b : BoardNo) (l : LinkNo) (s : State),
      ((s.board b.val).halt = .halted ∨ waitingEpochs s b.val = [] → exec (.streamStall b l) s = .next s)
      ∧ ((s.board b.val).halt ≠ .halted → waitingEpochs s b.val ≠ [] →
        ∃ t, exec (.streamStall b l) s = .next t ∧ HaltsWith b.val 0x0203 t ∧ (t.board b.val).streamHold = none
          ∧ t.rd .streamStalls b.val = satAdd 32 (s.rd .streamStalls b.val) 1
          ∧ t = { s with regs := t.regs, flash := t.flash, boards := t.boards }))

/-! ### Frames, Tally and Slate -/

/-- A pass stands at the head of a Frame, and may go on to its verdict. -/
def Heads (b : BoardNo) (f : FrameNo) (l : Launch) (tile : Nat) (s : State) : Prop :=
  (∃ ps, ((s.board b.val).frame f.val).passes = (l.id, tile) :: ps) ∧ (s.board b.val).launchAt l.id = some l
    ∧ verdictMay (s.board b.val) f.val s.time = true

/-- A tile whose verdict has passed lies in a drain buffer of a Frame. -/
def Drained (b f lid tile : Nat) (values : List W32) (t : State) : Prop :=
  ∃ y ∈ ((t.board b).frame f).drains, y.launch = lid ∧ y.tile = tile ∧ y.values = values ∧ y.ok = true

/-- A Frame with a lasting fault: only the Frames behind it are still in the hold, it is retired, and its Board halts with 0302h. -/
def FrameLost (b : BoardNo) (f : FrameNo) (hs : List ProofHold) (t : State) : Prop :=
  (∀ k ∈ (t.board b.val).hold, k ∈ hs) ∧ testBit t.flash.retiredFrames (8 * b.val + f.val) = true ∧ HaltsWith b.val 0x0302 t

/-- What a Frame's Deck holds after a pass of a tile, with the values of faulty cells in their places. -/
def deckAfter (s : State) (b : Nat) (l : Launch) (tile : Nat) (faults : CellFaults) : List W32 :=
  withFaults (aFold l.frame) faults (deckOf (passRank l.frame) (passCycles l.frame) (tileOps s b l tile))

/-- The mismatching Rods of that pass. -/
def rodsAfter (s : State) (b : Nat) (l : Launch) (tile : Nat) (faults : CellFaults) : Nat :=
  mismatchBits (proofChecks l.frame (tileOps s b l tile) (deckAfter s b l tile faults) faults)

/-- Verdicts of passes (R55 to R73, R117). A pass one of whose operand buffers is not full, or the pass behind it, begins a stream hold; one whose drain buffer is not free waits; an
uncorrectable operand halts the Board with 0401h. A pass whose tile a schedule fault has discarded ends without it, and without a hold (Table 06-21; log entry 47). One whose Rods all pass drains its tile: the cells' sums, with the values of faulty cells in their places. A mismatch holds the Board, and the
pass stays. In the hold the first Frame is tested: one that fails is retired and the Board halts; one that passes replays. A second mismatch retires it; a second pass is a transient fault, and
its tile drains. The results of a launch that popped wrong beats are open values. A Frame with no pass that may go on, and one whose turn in the hold it is not, change nothing. -/
def Obligations.Verdicts : Prop :=
  (∀ (b : BoardNo) (f : FrameNo) (faults : CellFaults) (s : State),
      (((s.board b.val).frame f.val).passes = [] → exec (.passVerdict b f faults) s = .next s)
      ∧ (verdictMay (s.board b.val) f.val s.time = false → exec (.passVerdict b f faults) s = .next s)
      ∧ (∀ l tile, Heads b f l tile s →
        let y := (s.board b.val).frame f.val
        (∀ u, enterPasses b.val f.val (y.passes.take 2) s = (false, u) →
          exec (.passVerdict b f faults) s = .next u ∧ (u.board b.val).streamHold.isSome = true)
        ∧ (∀ u l', enterPasses b.val f.val (y.passes.take 2) s = (true, u) → (u.board b.val).launchAt l.id = some l' →
          let v := operandsServed b.val l' tile u
          let rods := rodsAfter v b.val l' tile faults
          (y.drainFree = false → exec (.passVerdict b f faults) s = .next u)
          ∧ (∀ w, y.drainFree = true → operandBad u b.val l' tile = some w →
            ∃ t, exec (.passVerdict b f faults) s = .next t ∧ HaltsWith b.val 0x0401 t)
          ∧ (y.drainFree = true → operandBad u b.val l' tile = none → tile ∈ l'.dropped →
            ∃ t, exec (.passVerdict b f faults) s = .next t ∧ (l.id, tile) ∉ ((t.board b.val).frame f.val).passes
              ∧ (∀ z ∈ ((t.board b.val).frame f.val).drains, ¬ (z.launch = l.id ∧ z.tile = tile))
              ∧ (t.board b.val).hold = (s.board b.val).hold
              ∧ t.rd .proofVerdicts (8 * b.val + f.val) = satAdd 64 (s.rd .proofVerdicts (8 * b.val + f.val)) 1)
          ∧ (y.drainFree = true → operandBad u b.val l' tile = none → tile ∉ l'.dropped →
            (l'.garbled = true ∨ rods = 0 →
              ∃ t vs, exec (.passVerdict b f faults) s = .next t ∧ Drained b.val f.val l.id tile vs t
                ∧ (l'.garbled = false → vs = deckAfter v b.val l' tile faults)
                ∧ (l.id, tile) ∉ ((t.board b.val).frame f.val).passes ∧ (t.board b.val).hold = (s.board b.val).hold
                ∧ t.rd .proofVerdicts (8 * b.val + f.val) = satAdd 64 (s.rd .proofVerdicts (8 * b.val + f.val)) 1)
            ∧ (l'.garbled = false → rods ≠ 0 →
              ∃ t, exec (.passVerdict b f faults) s = .next t ∧ (l.id, tile) ∈ ((t.board b.val).frame f.val).passes
                ∧ { frame := f.val, launch := l.id, tile := tile, rods := rods, since := s.time } ∈ (t.board b.val).hold
                ∧ t.store = s.store)))))
    ∧ (∀ (b : BoardNo) (f : FrameNo) (pass : Bool) (s : State),
      ((∀ h ∈ (s.board b.val).hold.head?, h.frame ≠ f.val ∨ h.tested = true) → exec (.frameSelfTest b f pass) s = .next s)
      ∧ (∀ h hs, (s.board b.val).hold = h :: hs → h.frame = f.val → h.tested = false →
        ∃ t, exec (.frameSelfTest b f pass) s = .next t
          ∧ (pass = false → FrameLost b f hs t)
          ∧ (pass = true →
            (t.board b.val).hold = (if ((s.board b.val).launchAt h.launch).isSome then { h with tested := true } :: hs else hs)
              ∧ t.rd .selftestRuns (8 * b.val + f.val) = satAdd 32 (s.rd .selftestRuns (8 * b.val + f.val)) 1
              ∧ t = { s with regs := t.regs, flash := t.flash, boards := t.boards })))
    ∧ (∀ (b : BoardNo) (f : FrameNo) (faults : CellFaults) (s : State),
      ((∀ h ∈ (s.board b.val).hold.head?, h.frame ≠ f.val ∨ h.tested = false) → exec (.proofReplay b f faults) s = .next s)
      ∧ (∀ h hs, (s.board b.val).hold = h :: hs → h.frame = f.val → h.tested = true →
        ((s.board b.val).launchAt h.launch = none →
          exec (.proofReplay b f faults) s = .next (s.modBoard b.val (fun x => { x with hold := hs })))
        ∧ (∀ l, (s.board b.val).launchAt h.launch = some l →
          -- the Frame stands before its pass again
          let v := (operandsServed b.val l h.tile s).modBoard b.val (fun x => x.setFrame f.val ((x.frame f.val).rewind h.launch h.tile))
          let rods := rodsAfter v b.val l h.tile faults
          (∀ w, operandBad s b.val l h.tile = some w → ∃ t, exec (.proofReplay b f faults) s = .next t ∧ HaltsWith b.val 0x0401 t)
          ∧ (operandBad s b.val l h.tile = none →
            (l.garbled = true ∨ rods = 0 →
              ∃ t vs, exec (.proofReplay b f faults) s = .next t ∧ (t.board b.val).hold = hs ∧ Drained b.val f.val l.id h.tile vs t
                ∧ (l.garbled = false → vs = deckAfter v b.val l h.tile faults) ∧ t.flash.retiredFrames = s.flash.retiredFrames
                ∧ (controlBusy s b.val = false → testBit t.host.irqCause.toNat 1 = true))
            ∧ (l.garbled = false → rods ≠ 0 → ∃ t, exec (.proofReplay b f faults) s = .next t ∧ FrameLost b f hs t)))))

/-- A drained tile of a launch has left its drain buffer and is counted as written. -/
def WrittenOut (b f : Nat) (l : Launch) (y : Tile) (t : State) : Prop :=
  (∀ z ∈ ((t.board b).frame f).drains, ¬ (z.launch = y.launch ∧ z.tile = y.tile))
    ∧ ∃ k ∈ (t.board b).launches, k.id = l.id ∧ y.tile ∈ k.written

/-- A slice is as it was, or its read-out has begun. -/
def SliceGoesOn (old new : Slice) : Prop := new = old ∨ (old.state = 2 ∧ new = { old with state := 3 })

/-- Write-outs, hand-overs and contributions (R68, R69, R72, R92 to R96, R117, R140, R141, R315). In a proof hold and in a duty hold none goes on. A tile waits in a stream hold for its destination buffer; then it is stored,
or added to the squares there unless one of their words is uncorrectable, and leaves its drain buffer. A tile for the Slate is handed to its bundle's operation, or dropped without one; what a store-out link does with its full buffer is log entry 29. A
contribution that is not the next one of its slice waits; the next one is added to the slice's space, the first to +0, one rounding for each element, and moves the slice's key on. A Frame that
needs a waiting tile's buffer holds the Board, or joins the hold, while the awaited contribution lies in a drain buffer (log entry 22); else the order can never be met, the tile is dropped and the Board halts with 0105h. -/
def Obligations.WriteOuts : Prop :=
  (∀ (mode : Fin 2) (b : BoardNo) (f : FrameNo) (s : State),
      let c := if mode.val = 0 then Instr.storeWriteOut b f else Instr.drainAdd b f
      let x := s.board b.val
      (drainedTile x f.val (fun l => dMode l.drain == mode.val && !dTally l.drain) = none → exec c s = .next s)
      ∧ (writeMay x f.val = false → exec c s = .next s)
      ∧ (∀ l y, drainedTile x f.val (fun l => dMode l.drain == mode.val && !dTally l.drain) = some (l, y) → writeMay x f.val = true →
        let idx := y.tile / max 1 (dTilesPerBuf l.drain)
        (takeDst b.val (dLink l.drain) l.work.epoch idx 64 l.dstBufs s = none →
          exec c s = .next (beginStreamHold b.val { frame := f.val, launch := l.id, write := true } s))
        ∧ (∀ ds u, takeDst b.val (dLink l.drain) l.work.epoch idx 64 l.dstBufs s = some (ds, u) →
          let buf := (u.board b.val).buf (tget ds idx spent)
          let l' := { l with dstBufs := ds }
          (mode.val = 0 ∨ boardBad u b.val (buf.base * 256) (buf.size * 256) = none →
            ∃ t, exec c s = .next t ∧ WrittenOut b.val f.val l y t
              ∧ (let w := if mode.val = 0 then storeTile b.val l' y u else addTile b.val l' y u
                (x.link (dLink l.drain)).consumer ≠ 4 → t.store = w.store ∧ t.doms = w.doms ∧ t.dram = s.dram))
          ∧ (∀ w, mode.val = 1 → boardBad u b.val (buf.base * 256) (buf.size * 256) = some w →
            ∃ t, exec c s = .next t ∧ HaltsWith b.val 0x0401 t ∧ t.store = s.store))))
    ∧ (∀ (b : BoardNo) (f : FrameNo) (s : State),
      let x := s.board b.val
      (drainedTile x f.val (fun l => dMode l.drain == 2) = none ∨ x.hold ≠ [] ∨ x.streamHold ≠ none ∨ x.dutyHold = true →
        exec (.slateHandoff b f) s = .next s)
      ∧ (∀ l y, drainedTile x f.val (fun l => dMode l.drain == 2) = some (l, y) → x.hold = [] → x.streamHold = none → x.dutyHold = false →
        (∀ o, x.slates.find? (fun o => o.work.bundle == l.work.bundle && sADrain o.grp) = some o →
          ∃ t, exec (.slateHandoff b f) s = .next t ∧ WrittenOut b.val f.val l y t)
        ∧ (x.slates.find? (fun o => o.work.bundle == l.work.bundle && sADrain o.grp) = none →
          exec (.slateHandoff b f) s = .next (dropTile b.val f.val y.launch y.tile s))))
    ∧ (∀ (b : BoardNo) (f : FrameNo) (s : State),
      let x := s.board b.val
      (contribTile x f.val = none ∨ x.hold ≠ [] ∨ x.streamHold ≠ none ∨ x.dutyHold = true → exec (.tallyContribution b f) s = .next s)
      ∧ (∀ l y, contribTile x f.val = some (l, y) → x.hold = [] → x.streamHold = none → x.dutyHold = false →
        let e := sliceNo l y
        let z := x.slice e
        let first := contribKey l == (0, 0, 0)
        let ws := contribWords first (readSpace s b.val z) y.values
        (contribMay x l y = false → exec (.tallyContribution b f) s = .next (contribWait b.val f.val y s))
        ∧ (contribMay x l y = true → first = true ∨ boardBad s b.val (spaceAddr z) 32768 = none →
          ∃ t, exec (.tallyContribution b f) s = .next t ∧ WrittenOut b.val f.val l y t
            ∧ Stored s.store t.store (storeKey b.val (spaceAddr z)) (ws.flatMap (fun w => leBytes 4 w.1.toNat))
            ∧ SliceGoesOn (z.advance l.work.tag) ((t.board b.val).slice e)
            ∧ ∀ k, k ≠ e → SliceGoesOn (x.slice k) ((t.board b.val).slice k))
        ∧ (∀ w, contribMay x l y = true → first = false → boardBad s b.val (spaceAddr z) 32768 = some w →
          ∃ t, exec (.tallyContribution b f) s = .next t ∧ HaltsWith b.val 0x0401 t ∧ t.store = s.store)))
    ∧ (∀ (b : BoardNo) (f : FrameNo) (s : State),
      let x := s.board b.val
      let y := x.frame f.val
      -- the contribution in the drain buffer that the next pass needs
      let inWay := (drainedTiles x f.val).find? (fun p => isContrib p.1 && p.2.buf == y.sel)
      (inWay = none ∨ y.passes = [] ∨ x.hold ≠ [] ∨ x.streamHold ≠ none ∨ x.dutyHold = true → exec (.tallyHold b f) s = .next s)
      ∧ (∀ l t, inWay = some (l, t) → y.passes ≠ [] → x.hold = [] → x.streamHold = none → x.dutyHold = false →
        (t.waited = false ∨ contribMay x l t = true ∨ (t.launch, t.tile) ∈ x.tallyFor → exec (.tallyHold b f) s = .next s)
        ∧ (t.waited = true → contribMay x l t = false → (t.launch, t.tile) ∉ x.tallyFor →
          (awaitedVerdicted x (sliceNo l t) = true →
            ∃ u, exec (.tallyHold b f) s = .next u ∧ (u.board b.val).tallyFor = x.tallyFor ++ [(t.launch, t.tile)]
              ∧ (u.board b.val).tallyHold = true
              ∧ u.rd .tallyHolds b.val = (if x.tallyHold then s.rd .tallyHolds b.val else satAdd 32 (s.rd .tallyHolds b.val) 1)
              ∧ u.store = s.store)
          ∧ (awaitedVerdicted x (sliceNo l t) = false →
            ∃ u, exec (.tallyHold b f) s = .next u ∧ HaltsWith b.val 0x0105 u
              ∧ (∀ z ∈ ((u.board b.val).frame f.val).drains, ¬ (z.launch = t.launch ∧ z.tile = t.tile)) ∧ u.store = s.store))))

/-- The Slate's commands: Board, stream, operation of Table 05-3, formats of the operands. -/
def SlateCommand (c : Instr) (b : BoardNo) (st : StreamSel) (op : Nat) (fa fb fc : Fmt) : Prop :=
  (op = 0x01 ∧ c = .fma b st fa fb fc) ∨ (op = 0x02 ∧ fc = .fp32 ∧ c = .add b st fa fb) ∨ (op = 0x03 ∧ fc = .fp32 ∧ c = .mul b st fa fb)
    ∨ (op = 0x04 ∧ fc = .fp32 ∧ c = .max b st fa fb) ∨ (op = 0x05 ∧ fc = .fp32 ∧ c = .min b st fa fb)
    ∨ (fb = .fp32 ∧ fc = .fp32 ∧
        ((op = 0x06 ∧ c = .cvt b st fa) ∨ (op = 0x07 ∧ c = .exp b st fa) ∨ (op = 0x08 ∧ c = .log b st fa) ∨ (op = 0x09 ∧ c = .rsqrt b st fa)
          ∨ (op = 0x0A ∧ c = .tanh b st fa) ∨ (op = 0x0B ∧ c = .rcp b st fa) ∨ (op = 0x10 ∧ c = .rsum b st fa)
          ∨ (op = 0x11 ∧ c = .rmax b st fa) ∨ (op = 0x12 ∧ c = .softmax b st fa) ∨ (op = 0x15 ∧ c = .xent b st fa)
          ∨ (op = 0x16 ∧ c = .dropout b st fa)))
    ∨ (op = 0x13 ∧ c = .lnorm b st fa fb fc) ∨ (op = 0x14 ∧ fc = .fp32 ∧ c = .rmsnorm b st fa fb)

/-- The operands of a Slate operation's next band have been taken from their links: its rows, with the places reached, and the state. -/
def BandTaken (b : Nat) (o : SlateOp) (s : State) (i : BandIn) (u : State) : Prop :=
  ∃ i1 u1 i2 u2, bandA b o s = some (i1, u1) ∧ bandB b i1 u1 = some (i2, u2) ∧ bandC b i2 u2 = some (i, u)

/-- The store once a band's rows have been written at the places of its two outputs: squares in the output format, under the operation's key
where it rounds stochastically; of XENT the gradient and of DROPOUT the mask, a bit an element, in the second. -/
def bandStored (b : Nat) (o : SlateOp) (rows : List RowOut) (as1 as2 : List Nat) (s : State) : State :=
  let g := o.grp
  let f := (fmtOfCode (sOutFmt g)).getD .fp32
  let key := if sRound g then some (streamKey s.job.seed o.work.tag 0x20 (s.logicalOf b) (sOpNumber g)) else none
  let put := fun (w : Nat) (m : List (List W32)) (as : List Nat) (s : State) => writeSquares b f (encodeBand f key (64 * o.band) w m) as s
  let s := put (if perRow (sOp g) then 1 else o.width) (rows.map (·.out)) as1 s
  if sOp g = 0x15 then put o.width (rows.map (·.out2)) as2 s
  else if sOp g = 0x16 then forEach ((packBits (rows.flatMap (·.mask))).zip as2) (fun e s => boardWrite b e.2 [e.1] s) s
  else s

/-- The operations of the Slate (R104 to R110, R141). A command whose group is not next, or of another operation, does nothing, unless an operation of its kind stands at the head of the queue; a
bundle that names a retired Frame halts the Board (log entry 20). When its bundle's turn has come the group is queued behind those before it, with its formats and the bundle's work, and the action is done. An
operation at the head whose operands or destinations are not there waits; one that writes its last band ends, is counted and leaves the queue, and one with an uncorrectable operand halts the Board
with 0401h. A band's rows are computed from its operands and written, and nothing else, at the next places of its outputs (their layout is the model's choice, log entry 23). The result of a row of
each operation is that of Table 05-2 and R107 to R109; the special values of the functions are those of Table 05-3; an ignored label of XENT gives the loss +0 and a zero gradient. -/
def Obligations.SlateOperations : Prop :=
  (∀ (c : Instr) (b : BoardNo) (st : StreamSel) (op : Nat) (fa fb fc : Fmt) (s : State), SlateCommand c b st op fa fb fc →
      (turn b.val st 5 0 s = .none →
        let x := s.board b.val
        ((∀ o ∈ x.slates.head?, sOp o.grp ≠ op ∨ o.work.filler ≠ isFiller st ∨ slateBand b.val o s = none) → exec c s = .next s)
        ∧ (∀ o o' v, x.slates = [o] → sOp o.grp = op → o.work.filler = isFiller st → slateBand b.val o s = some (o', v) →
          (badBand ≤ o'.band → ∃ t, exec c s = .next t ∧ (t.board b.val).slates = [] ∧ HaltsWith b.val 0x0401 t)
          ∧ (ceilDiv (sRows o.grp) 64 ≤ o'.band → o'.band < badBand →
            ∃ t, exec c s = .next t ∧ (t.board b.val).slates = [] ∧ t.rd .slateOps b.val = satAdd 64 (s.rd .slateOps b.val) 1)))
      ∧ (∀ u, turn b.val st 5 0 s = .halted u → exec c s = .next u ∧ HaltsWith b.val 0x0104 u)
      ∧ (∀ i u, Turns b st 5 0 i s u →
        let g := actGroup u b.val st 5
        -- the state once the group is queued
        let v := popAct b.val st (queueSlate b.val st i fa fb fc u)
        (sOp g ≠ op → exec c s = .next s)
        ∧ (sOp g = op → (∀ o ∈ (v.board b.val).slates.head?, slateBand b.val o v = none) →
          exec c s = .next v ∧ ActionDone b st i v ∧ v.store = s.store
            ∧ ∃ x, (v.board b.val).slates = (u.board b.val).slates ++ [x] ∧ x.grp = g ∧ x.work = issueWork u b.val st i
              ∧ x.fa = fa ∧ x.fb = fb ∧ x.fc = fc ∧ x.band = 0)))
    ∧ (∀ (g : Nat) (key : W64) (first lbl : Nat) (a b c : List W32),
      let r := slateRow g key first a b c lbl
      (sOp g = 0x01 → r.out = (a.zip (b.zip c)).map (fun e => ffma e.1 e.2.1 e.2.2))
      ∧ (sOp g = 0x02 → r.out = (a.zip b).map (fun e => fadd e.1 e.2))
      ∧ (sOp g = 0x03 → r.out = (a.zip b).map (fun e => fmul e.1 e.2))
      ∧ (sOp g = 0x04 → r.out = (a.zip b).map (fun e => fmax e.1 e.2))
      ∧ (sOp g = 0x05 → r.out = (a.zip b).map (fun e => fmin e.1 e.2))
      ∧ (sOp g = 0x06 → r.out = a)
      ∧ (sOp g = 0x07 → r.out = a.map fexp) ∧ (sOp g = 0x08 → r.out = a.map flog) ∧ (sOp g = 0x09 → r.out = a.map frsqrt)
      ∧ (sOp g = 0x0A → r.out = a.map ftanh) ∧ (sOp g = 0x0B → r.out = a.map frcp)
      ∧ (sOp g = 0x10 → r.out = [rsum a]) ∧ (sOp g = 0x11 → r.out = [rmax a])
      ∧ (let l := a.length
        let m := rmax a
        let e := a.map (fun v => fexp (fsub v m))
        let y := e.map (fun v => fmul v (frcp (rsum e)))
        let eps := BitVec.ofNat 32 (sParam g)
        let d := a.map (fun v => fsub v (fdivNat (rsum a) l))
        -- the reciprocal root of a mean square
        let root := fun (q : List W32) => frsqrt (fadd (fdivNat (rsum (q.map (fun v => fmul v v))) l) eps)
        (sOp g = 0x12 → r.out = y)
        ∧ (sOp g = 0x13 → ∀ i, i < l → i < b.length → i < c.length →
            r.out[i]? = some (ffma (fmul (d.getD i 0#32) (root d)) (b.getD i 0#32) (c.getD i 0#32)))
        ∧ (sOp g = 0x14 → ∀ i, i < l → i < b.length → r.out[i]? = some (fmul (fmul (a.getD i 0#32) (root a)) (b.getD i 0#32)))
        ∧ (sOp g = 0x15 → lbl < l → l ≤ 65536 → r.out = [fsub (fadd (flog (rsum e)) m) (a.getD lbl 0#32)]
            ∧ ∀ i, i < l → r.out2[i]? = some (fmul (fsub (y.getD i 0#32) (if i = lbl then 0x3F800000#32 else 0#32)) eps)))
      ∧ (sOp g = 0x15 → lbl = 0xFFFFFFFF → r.out = [0#32] ∧ r.out2 = a.map (fun _ => 0#32))
      ∧ (sOp g = 0x16 → r.mask = (List.range a.length).map (fun i => decide (sParam g ≤ draw32 key (first + i)))
          ∧ r.out.length = a.length
          ∧ ∀ i v, a[i]? = some v → r.out[i]? = some (if sParam g ≤ draw32 key (first + i) then fmul v (BitVec.ofNat 32 (sParam2 g)) else 0#32)))
    ∧ (∀ v ∈ [(0x7FC00000#32, 0x7FC00000#32, 0x7FC00000#32, 0x7FC00000#32, 0x7FC00000#32, 0x7FC00000#32),
          (0x7F800000#32, 0x7F800000#32, 0x7F800000#32, 0#32, 0x3F800000#32, 0#32),
          (0xFF800000#32, 0#32, 0x7FC00000#32, 0x7FC00000#32, 0xBF800000#32, 0x80000000#32),
          (0#32, 0x3F800000#32, 0xFF800000#32, 0x7F800000#32, 0#32, 0x7F800000#32),
          (0x80000000#32, 0x3F800000#32, 0xFF800000#32, 0xFF800000#32, 0x80000000#32, 0xFF800000#32)],
        fexp v.1 = v.2.1 ∧ flog v.1 = v.2.2.1 ∧ frsqrt v.1 = v.2.2.2.1 ∧ ftanh v.1 = v.2.2.2.2.1 ∧ frcp v.1 = v.2.2.2.2.2)
    ∧ (∀ w : W32, isFin32 w = true → 0x80000000 < w.toNat → flog w = nan32 ∧ frsqrt w = nan32)
    ∧ (∀ (b : Nat) (o o' : SlateOp) (s v : State), slateBand b o s = some (o', v) → o'.band < badBand → (s.board b).stashWrs = [] →
        ((s.board b).link (sDst o.grp)).consumer ≠ 4 → ((s.board b).link (sDst2 o.grp)).consumer ≠ 4 →
      let g := o.grp
      let size := ((fmtOfCode (sOutFmt g)).getD .fp32).squareBytes
      ∃ i u as1 hs1 c1 u1 as2 hs2 c2 u2, BandTaken b o s i u
        ∧ giveUnits b (sDst g) o.work.epoch size (ceilDiv (if perRow (sOp g) then 1 else o.width) 64) o.curD u = some (as1, hs1, c1, u1)
        ∧ giveUnits b (sDst2 g) o.work.epoch (if sOp g = 0x16 then 1 else size)
            (if sOp g = 0x15 then ceilDiv o.width 64 else if sOp g = 0x16 then ceilDiv (o.bandRows * o.width) 8 else 0) o.curE u1
          = some (as2, hs2, c2, u2)
        ∧ o'.band = o.band + 1
        ∧ v.store = (bandStored b o (bandOut i (streamKey s.job.seed o.work.tag 0x50 (s.logicalOf b) (sOpNumber g))) as1 as2 s).store
        ∧ v.dram = s.dram)

/-! ### What no command changes -/

/-- t is as s in what no command changes: the identity, the canonical form of the memories, and, where `kept`, every retirement; what has left the module
stays recorded; and no vector outside 0 to 8 and 16 to 63 is signalled. -/
structure Unchanging (kept : Prop) (s t : State) : Prop where
  ident : t.ident = s.ident
  mem : s.memWf = true → t.memWf = true
  record : ∃ os, t.out = os ++ s.out
  vectors : ∀ v, Out.msix v ∈ t.out → Out.msix v ∈ s.out ∨ v ≤ 8 ∨ (16 ≤ v ∧ v < 64)
  frames : kept → ∀ i, testBit s.flash.retiredFrames i = true → testBit t.flash.retiredFrames i = true
  boards : kept → ∀ i, testBit s.flash.retiredBoards i = true → testBit t.flash.retiredBoards i = true
  stks : kept → ∀ i, testBit s.flash.retiredStacks i = true → testBit t.flash.retiredStacks i = true
  lanes : kept → ∀ i, testBit s.flash.retiredLanes i = true → testBit t.flash.retiredLanes i = true

/-- Every step, from every state: the identity of the module does not change (R276), vectors 9 to 15 are never signalled (R259), every memory keeps its canonical form, what has left the module stays
recorded, and the queue loses its first command and nothing else (the queue is the model's own, log entry 1). No step but a boot, which reads the flash's valid copy again (R292), undoes a
retirement (R325). And the bounds hold on: of the feed rings (R250), of the exchange of each domain's step (R240), of every semaphore (R114) and of the places
in a link (R112), and of the credits and the replay buffer of every port (R205, R206). -/
def Obligations.KeptByEveryStep : Prop :=
  ∀ s t : State, step s = .next t →
    Unchanging (∀ rd, s.pending.head? ≠ some (.boot rd)) s t ∧ t.pending = s.pending.drop 1 ∧ (InBounds s → InBounds t)

/-! ### Numbers -/

/-- The exact value of a finite number. -/
def ratOf : Val → ℚ
  | .fin neg m e => (if neg then -1 else 1) * (m : ℚ) * (2 : ℚ) ^ e
  | _ => 0

/-- Rounding and narrowing. RNE returns the point of the grid nearest to x, and of two that are equally near the one with the even last code
bit (R40), on every floating grid and on every fixed-point grid. Narrowing to BF16 gives an infinity of the same sign when the rounded
magnitude exceeds the largest finite value, keeps an infinity, and gives the canonical NaN for a NaN (R39). SR goes up exactly when its
draw lies below the 32 bits under the target's last bit. Widening to FP32 is exact below 2^128 and an infinity from there on. Every NaN
that is written in FP32 or BF16 is canonical. A block with a NaN, or with an infinity that its format cannot hold, is a NaN block; of any other
the exponent is the clamped one of its largest magnitude, an infinity keeps its sign, and a finite element becomes the multiple of its scale that
is nearest of those up to the largest element (R35, R36; unsigned S16 has no code for a negative value). The carry watch counts
the results of a watch point by kind in saturating counters with sticky flags, marks a domain for an infinity or a NaN of class 1 to 3, and keeps
the earliest one's tick and tensor (R48 to R53). -/
def Obligations.RoundingAndNarrowing : Prop :=
  (∀ (g : FGrid) (m : Nat) (e : Int), 1 ≤ g.p →
      let c := g.code .rne m e
      let x := ratOf (.fin false m e)
      ∀ c', |ratOf (g.val false c) - x| ≤ |ratOf (g.val false c') - x|
        ∧ (c' ≠ c → |ratOf (g.val false c') - x| = |ratOf (g.val false c) - x| → c % 2 = 0))
    ∧ (∀ (m : Nat) (e g : Int),
      let q := roundMag .rne m e g
      let x := ratOf (.fin false m e)
      ∀ q' : Nat, |(q : ℚ) * 2 ^ g - x| ≤ |(q' : ℚ) * 2 ^ g - x|
        ∧ (q' ≠ q → |(q' : ℚ) * 2 ^ g - x| = |(q : ℚ) * 2 ^ g - x| → q % 2 = 0))
    ∧ (∀ (m n32 : Nat) (e g : Int),
      let a := ratOf (.fin false m e) / 2 ^ g
      (roundMag (.sr n32) m e g : Int) = ⌊a⌋ + if (n32 : Int) < ⌊(a - ⌊a⌋) * 2 ^ 32⌋ then 1 else 0)
    ∧ (∀ (r : Rnd), encBf16 r .nan = 0x7FC0
      ∧ ∀ neg, encBf16 r (.inf neg) = 0x7F80 + (if neg then 0x8000 else 0)
        ∧ ∀ m e,
          let c := gridBf16.code r m e
          (ratOf (gridBf16.val false 0x7F7F) < ratOf (gridBf16.val false c) →
            encBf16 r (.fin neg m e) = 0x7F80 + (if neg then 0x8000 else 0))
          ∧ (ratOf (gridBf16.val false c) ≤ ratOf (gridBf16.val false 0x7F7F) →
            decBf16 (encBf16 r (.fin neg m e)) = gridBf16.val neg c))
    ∧ (∀ (f : Fmt) (ex c : Nat) (neg : Bool) (m : Nat) (e : Int), ex < 256 → decElem f ex c = .fin neg m e →
      let x := ratOf (.fin false m e)
      (x < 2 ^ 128 → ∃ m' e', decFp32 (widen (decElem f ex c)) = .fin neg m' e' ∧ ratOf (.fin false m' e') = x)
      ∧ (2 ^ 128 ≤ x → decFp32 (widen (decElem f ex c)) = .inf neg))
    ∧ (∀ (r : Rnd) (v : Val), (isNan32 (encFp32 r v) = true → encFp32 r v = nan32)
      ∧ (decBf16 (encBf16 r v) = .nan → encBf16 r v = nan16))
    ∧ (∀ (f : Fmt) (key : Option W64) (elt : Nat → Nat) (xs : List W32), f.scaled = true →
      let y := encBlock f key elt xs
      let nanBlock := (∃ w ∈ xs, decFp32 w = .nan) ∨ (f ≠ .g8 ∧ ∃ w ∈ xs, ∃ neg, decFp32 w = .inf neg)
      (nanBlock → y = ⟨0xFF, xs.map (fun _ => 0)⟩)
      ∧ (¬ nanBlock →
        ((∀ w ∈ xs, ∀ neg m e, decFp32 w = .fin neg m e → m = 0) → y.exp = 0)
        ∧ (∀ w ∈ xs, ∀ neg m e (l : Int), decFp32 w = .fin neg m e →
            (∀ w' ∈ xs, ∀ neg' m' e', decFp32 w' = .fin neg' m' e' → ratOf (.fin false m' e') ≤ ratOf (.fin false m e)) →
            (2 : ℚ) ^ l ≤ ratOf (.fin false m e) → ratOf (.fin false m e) < (2 : ℚ) ^ (l + 1) →
            (y.exp : Int) = min (max (l - f.emax + 127) 0) 254)
        ∧ (∀ (k : Nat) (w : W32) (neg : Bool), xs[k]? = some w → decFp32 w = .inf neg → y.codes[k]? = some (if neg then 0xFC else 0x7C))
        ∧ (∀ (k : Nat) (w : W32) (neg : Bool) (m : Nat) (e : Int), xs[k]? = some w → decFp32 w = .fin neg m e → f ≠ .s16u ∨ neg = false →
          let scale := (2 : ℚ) ^ ((y.exp : Int) - 127)
          let x := ratOf (.fin false m e)
          ∃ c q, y.codes[k]? = some c ∧ q ≤ f.maxCode ∧ ratOf (decElem f y.exp c) = (if neg then -1 else 1) * ratOf (elemVal f q) * scale
            ∧ (key = none → ∀ q', q' ≤ f.maxCode → |ratOf (elemVal f q) * scale - x| ≤ |ratOf (elemVal f q') * scale - x|))))
    ∧ (∀ (v : Val) (infIn : Bool), (v = .nan → watchCode v infIn = 3) ∧ (∀ neg, v = .inf neg → watchCode v infIn = (if infIn then 2 else 1))
      ∧ (v.isFin = true → watchCode v infIn = 0))
    ∧ (∀ (w : WatchAt) (codes : List Nat) (s : State),
      let t := watchCount w codes s
      let x := (s.dom w.domain).watch
      let y := (t.dom w.domain).watch
      let ovf := codes.countP (fun c => c == 1 || c == 4)
      let inf := codes.countP (fun c => c == 1 || c == 2)
      let nan := codes.countP (· == 3)
      let event := w.cls ≠ 0 ∧ ∃ c ∈ codes, 1 ≤ c ∧ c ≤ 3
      y.stepOvf = satAdd 32 x.stepOvf ovf ∧ y.stepInf = satAdd 32 x.stepInf inf ∧ y.stepNan = satAdd 32 x.stepNan nan
      ∧ y.totOvf = satAdd 64 x.totOvf ovf ∧ y.totInf = satAdd 64 x.totInf inf ∧ y.totNan = satAdd 64 x.totNan nan
      ∧ (∀ p ∈ [(0, y.stepOvf, y.totOvf), (1, y.stepInf, y.totInf), (2, y.stepNan, y.totNan)],
          testBit y.sticky p.1 = (testBit x.sticky p.1 || decide (p.2.1 = 2 ^ 32 - 1) || decide (p.2.2 = 2 ^ 64 - 1)))
      ∧ (y.voidMark = true ↔ x.voidMark = true ∨ event)
      ∧ (¬ event → y.firstInfo = x.firstInfo ∧ y.firstTime = x.firstTime ∧ y.firstTensor = x.firstTensor)
      ∧ (event → x.firstInfo = 0 ∨ s.now < x.firstTime → y.firstTime = s.now ∧ y.firstTensor = w.tensor)
      ∧ (event → x.firstInfo ≠ 0 → x.firstTime < s.now →
          y.firstInfo = x.firstInfo ∧ y.firstTime = x.firstTime ∧ y.firstTensor = x.firstTensor)
      ∧ (∀ d, d ≠ w.domain → t.dom d = s.dom d) ∧ t = { s with doms := t.doms, boards := t.boards })
end

