-- ==== Sys2Proof/Laws/State.lean ====
section
/-!
SUPPORT. Laws/State.lean: what each update of the state leaves as it is, one lemma for each field, and what it writes.
-/
namespace Sys2Proof.Machine

section
variable (s : State)

@[simp] theorem State.setDom_pending (d : Nat) (x : Dom) : (s.setDom d x).pending = s.pending := rfl
@[simp] theorem State.setDom_time (d : Nat) (x : Dom) : (s.setDom d x).time = s.time := rfl
@[simp] theorem State.setDom_fresh (d : Nat) (x : Dom) : (s.setDom d x).fresh = s.fresh := rfl
@[simp] theorem State.setDom_out (d : Nat) (x : Dom) : (s.setDom d x).out = s.out := rfl
@[simp] theorem State.setDom_ident (d : Nat) (x : Dom) : (s.setDom d x).ident = s.ident := rfl
@[simp] theorem State.setDom_regs (d : Nat) (x : Dom) : (s.setDom d x).regs = s.regs := rfl
@[simp] theorem State.setDom_blobs (d : Nat) (x : Dom) : (s.setDom d x).blobs = s.blobs := rfl
@[simp] theorem State.setDom_vers (d : Nat) (x : Dom) : (s.setDom d x).vers = s.vers := rfl
@[simp] theorem State.setDom_flash (d : Nat) (x : Dom) : (s.setDom d x).flash = s.flash := rfl
@[simp] theorem State.setDom_fw (d : Nat) (x : Dom) : (s.setDom d x).fw = s.fw := rfl
@[simp] theorem State.setDom_dev (d : Nat) (x : Dom) : (s.setDom d x).dev = s.dev := rfl
@[simp] theorem State.setDom_host (d : Nat) (x : Dom) : (s.setDom d x).host = s.host := rfl
@[simp] theorem State.setDom_paths (d : Nat) (x : Dom) : (s.setDom d x).paths = s.paths := rfl
@[simp] theorem State.setDom_can (d : Nat) (x : Dom) : (s.setDom d x).can = s.can := rfl
@[simp] theorem State.setDom_pwr (d : Nat) (x : Dom) : (s.setDom d x).pwr = s.pwr := rfl
@[simp] theorem State.setDom_job (d : Nat) (x : Dom) : (s.setDom d x).job = s.job := rfl
@[simp] theorem State.setDom_stks (d : Nat) (x : Dom) : (s.setDom d x).stks = s.stks := rfl
@[simp] theorem State.setDom_boards (d : Nat) (x : Dom) : (s.setDom d x).boards = s.boards := rfl
@[simp] theorem State.setDom_dram (d : Nat) (x : Dom) : (s.setDom d x).dram = s.dram := rfl
@[simp] theorem State.setDom_store (d : Nat) (x : Dom) : (s.setDom d x).store = s.store := rfl
@[simp] theorem State.setDom_ports (d : Nat) (x : Dom) : (s.setDom d x).ports = s.ports := rfl
@[simp] theorem State.setDom_fab (d : Nat) (x : Dom) : (s.setDom d x).fab = s.fab := rfl
@[simp] theorem State.setDom_log (d : Nat) (x : Dom) : (s.setDom d x).log = s.log := rfl
@[simp] theorem State.setDom_snap (d : Nat) (x : Dom) : (s.setDom d x).snap = s.snap := rfl
@[simp] theorem State.setDom_cnt (d : Nat) (x : Dom) : (s.setDom d x).cnt = s.cnt := rfl

@[simp] theorem State.modDom_pending (d : Nat) (f : Dom → Dom) : (s.modDom d f).pending = s.pending := rfl
@[simp] theorem State.modDom_time (d : Nat) (f : Dom → Dom) : (s.modDom d f).time = s.time := rfl
@[simp] theorem State.modDom_fresh (d : Nat) (f : Dom → Dom) : (s.modDom d f).fresh = s.fresh := rfl
@[simp] theorem State.modDom_out (d : Nat) (f : Dom → Dom) : (s.modDom d f).out = s.out := rfl
@[simp] theorem State.modDom_ident (d : Nat) (f : Dom → Dom) : (s.modDom d f).ident = s.ident := rfl
@[simp] theorem State.modDom_regs (d : Nat) (f : Dom → Dom) : (s.modDom d f).regs = s.regs := rfl
@[simp] theorem State.modDom_blobs (d : Nat) (f : Dom → Dom) : (s.modDom d f).blobs = s.blobs := rfl
@[simp] theorem State.modDom_vers (d : Nat) (f : Dom → Dom) : (s.modDom d f).vers = s.vers := rfl
@[simp] theorem State.modDom_flash (d : Nat) (f : Dom → Dom) : (s.modDom d f).flash = s.flash := rfl
@[simp] theorem State.modDom_fw (d : Nat) (f : Dom → Dom) : (s.modDom d f).fw = s.fw := rfl
@[simp] theorem State.modDom_dev (d : Nat) (f : Dom → Dom) : (s.modDom d f).dev = s.dev := rfl
@[simp] theorem State.modDom_host (d : Nat) (f : Dom → Dom) : (s.modDom d f).host = s.host := rfl
@[simp] theorem State.modDom_paths (d : Nat) (f : Dom → Dom) : (s.modDom d f).paths = s.paths := rfl
@[simp] theorem State.modDom_can (d : Nat) (f : Dom → Dom) : (s.modDom d f).can = s.can := rfl
@[simp] theorem State.modDom_pwr (d : Nat) (f : Dom → Dom) : (s.modDom d f).pwr = s.pwr := rfl
@[simp] theorem State.modDom_job (d : Nat) (f : Dom → Dom) : (s.modDom d f).job = s.job := rfl
@[simp] theorem State.modDom_stks (d : Nat) (f : Dom → Dom) : (s.modDom d f).stks = s.stks := rfl
@[simp] theorem State.modDom_boards (d : Nat) (f : Dom → Dom) : (s.modDom d f).boards = s.boards := rfl
@[simp] theorem State.modDom_dram (d : Nat) (f : Dom → Dom) : (s.modDom d f).dram = s.dram := rfl
@[simp] theorem State.modDom_store (d : Nat) (f : Dom → Dom) : (s.modDom d f).store = s.store := rfl
@[simp] theorem State.modDom_ports (d : Nat) (f : Dom → Dom) : (s.modDom d f).ports = s.ports := rfl
@[simp] theorem State.modDom_fab (d : Nat) (f : Dom → Dom) : (s.modDom d f).fab = s.fab := rfl
@[simp] theorem State.modDom_log (d : Nat) (f : Dom → Dom) : (s.modDom d f).log = s.log := rfl
@[simp] theorem State.modDom_snap (d : Nat) (f : Dom → Dom) : (s.modDom d f).snap = s.snap := rfl
@[simp] theorem State.modDom_cnt (d : Nat) (f : Dom → Dom) : (s.modDom d f).cnt = s.cnt := rfl

@[simp] theorem State.setStack_pending (k : Nat) (x : Stack) : (s.setStack k x).pending = s.pending := rfl
@[simp] theorem State.setStack_time (k : Nat) (x : Stack) : (s.setStack k x).time = s.time := rfl
@[simp] theorem State.setStack_fresh (k : Nat) (x : Stack) : (s.setStack k x).fresh = s.fresh := rfl
@[simp] theorem State.setStack_out (k : Nat) (x : Stack) : (s.setStack k x).out = s.out := rfl
@[simp] theorem State.setStack_ident (k : Nat) (x : Stack) : (s.setStack k x).ident = s.ident := rfl
@[simp] theorem State.setStack_regs (k : Nat) (x : Stack) : (s.setStack k x).regs = s.regs := rfl
@[simp] theorem State.setStack_blobs (k : Nat) (x : Stack) : (s.setStack k x).blobs = s.blobs := rfl
@[simp] theorem State.setStack_vers (k : Nat) (x : Stack) : (s.setStack k x).vers = s.vers := rfl
@[simp] theorem State.setStack_flash (k : Nat) (x : Stack) : (s.setStack k x).flash = s.flash := rfl
@[simp] theorem State.setStack_fw (k : Nat) (x : Stack) : (s.setStack k x).fw = s.fw := rfl
@[simp] theorem State.setStack_dev (k : Nat) (x : Stack) : (s.setStack k x).dev = s.dev := rfl
@[simp] theorem State.setStack_host (k : Nat) (x : Stack) : (s.setStack k x).host = s.host := rfl
@[simp] theorem State.setStack_paths (k : Nat) (x : Stack) : (s.setStack k x).paths = s.paths := rfl
@[simp] theorem State.setStack_can (k : Nat) (x : Stack) : (s.setStack k x).can = s.can := rfl
@[simp] theorem State.setStack_pwr (k : Nat) (x : Stack) : (s.setStack k x).pwr = s.pwr := rfl
@[simp] theorem State.setStack_doms (k : Nat) (x : Stack) : (s.setStack k x).doms = s.doms := rfl
@[simp] theorem State.setStack_job (k : Nat) (x : Stack) : (s.setStack k x).job = s.job := rfl
@[simp] theorem State.setStack_boards (k : Nat) (x : Stack) : (s.setStack k x).boards = s.boards := rfl
@[simp] theorem State.setStack_dram (k : Nat) (x : Stack) : (s.setStack k x).dram = s.dram := rfl
@[simp] theorem State.setStack_store (k : Nat) (x : Stack) : (s.setStack k x).store = s.store := rfl
@[simp] theorem State.setStack_ports (k : Nat) (x : Stack) : (s.setStack k x).ports = s.ports := rfl
@[simp] theorem State.setStack_fab (k : Nat) (x : Stack) : (s.setStack k x).fab = s.fab := rfl
@[simp] theorem State.setStack_log (k : Nat) (x : Stack) : (s.setStack k x).log = s.log := rfl
@[simp] theorem State.setStack_snap (k : Nat) (x : Stack) : (s.setStack k x).snap = s.snap := rfl
@[simp] theorem State.setStack_cnt (k : Nat) (x : Stack) : (s.setStack k x).cnt = s.cnt := rfl

@[simp] theorem State.modStack_pending (k : Nat) (f : Stack → Stack) : (s.modStack k f).pending = s.pending := rfl
@[simp] theorem State.modStack_time (k : Nat) (f : Stack → Stack) : (s.modStack k f).time = s.time := rfl
@[simp] theorem State.modStack_fresh (k : Nat) (f : Stack → Stack) : (s.modStack k f).fresh = s.fresh := rfl
@[simp] theorem State.modStack_out (k : Nat) (f : Stack → Stack) : (s.modStack k f).out = s.out := rfl
@[simp] theorem State.modStack_ident (k : Nat) (f : Stack → Stack) : (s.modStack k f).ident = s.ident := rfl
@[simp] theorem State.modStack_regs (k : Nat) (f : Stack → Stack) : (s.modStack k f).regs = s.regs := rfl
@[simp] theorem State.modStack_blobs (k : Nat) (f : Stack → Stack) : (s.modStack k f).blobs = s.blobs := rfl
@[simp] theorem State.modStack_vers (k : Nat) (f : Stack → Stack) : (s.modStack k f).vers = s.vers := rfl
@[simp] theorem State.modStack_flash (k : Nat) (f : Stack → Stack) : (s.modStack k f).flash = s.flash := rfl
@[simp] theorem State.modStack_fw (k : Nat) (f : Stack → Stack) : (s.modStack k f).fw = s.fw := rfl
@[simp] theorem State.modStack_dev (k : Nat) (f : Stack → Stack) : (s.modStack k f).dev = s.dev := rfl
@[simp] theorem State.modStack_host (k : Nat) (f : Stack → Stack) : (s.modStack k f).host = s.host := rfl
@[simp] theorem State.modStack_paths (k : Nat) (f : Stack → Stack) : (s.modStack k f).paths = s.paths := rfl
@[simp] theorem State.modStack_can (k : Nat) (f : Stack → Stack) : (s.modStack k f).can = s.can := rfl
@[simp] theorem State.modStack_pwr (k : Nat) (f : Stack → Stack) : (s.modStack k f).pwr = s.pwr := rfl
@[simp] theorem State.modStack_doms (k : Nat) (f : Stack → Stack) : (s.modStack k f).doms = s.doms := rfl
@[simp] theorem State.modStack_job (k : Nat) (f : Stack → Stack) : (s.modStack k f).job = s.job := rfl
@[simp] theorem State.modStack_boards (k : Nat) (f : Stack → Stack) : (s.modStack k f).boards = s.boards := rfl
@[simp] theorem State.modStack_dram (k : Nat) (f : Stack → Stack) : (s.modStack k f).dram = s.dram := rfl
@[simp] theorem State.modStack_store (k : Nat) (f : Stack → Stack) : (s.modStack k f).store = s.store := rfl
@[simp] theorem State.modStack_ports (k : Nat) (f : Stack → Stack) : (s.modStack k f).ports = s.ports := rfl
@[simp] theorem State.modStack_fab (k : Nat) (f : Stack → Stack) : (s.modStack k f).fab = s.fab := rfl
@[simp] theorem State.modStack_log (k : Nat) (f : Stack → Stack) : (s.modStack k f).log = s.log := rfl
@[simp] theorem State.modStack_snap (k : Nat) (f : Stack → Stack) : (s.modStack k f).snap = s.snap := rfl
@[simp] theorem State.modStack_cnt (k : Nat) (f : Stack → Stack) : (s.modStack k f).cnt = s.cnt := rfl

@[simp] theorem State.setBoard_pending (b : Nat) (x : Board) : (s.setBoard b x).pending = s.pending := rfl
@[simp] theorem State.setBoard_time (b : Nat) (x : Board) : (s.setBoard b x).time = s.time := rfl
@[simp] theorem State.setBoard_fresh (b : Nat) (x : Board) : (s.setBoard b x).fresh = s.fresh := rfl
@[simp] theorem State.setBoard_out (b : Nat) (x : Board) : (s.setBoard b x).out = s.out := rfl
@[simp] theorem State.setBoard_ident (b : Nat) (x : Board) : (s.setBoard b x).ident = s.ident := rfl
@[simp] theorem State.setBoard_regs (b : Nat) (x : Board) : (s.setBoard b x).regs = s.regs := rfl
@[simp] theorem State.setBoard_blobs (b : Nat) (x : Board) : (s.setBoard b x).blobs = s.blobs := rfl
@[simp] theorem State.setBoard_vers (b : Nat) (x : Board) : (s.setBoard b x).vers = s.vers := rfl
@[simp] theorem State.setBoard_flash (b : Nat) (x : Board) : (s.setBoard b x).flash = s.flash := rfl
@[simp] theorem State.setBoard_fw (b : Nat) (x : Board) : (s.setBoard b x).fw = s.fw := rfl
@[simp] theorem State.setBoard_dev (b : Nat) (x : Board) : (s.setBoard b x).dev = s.dev := rfl
@[simp] theorem State.setBoard_host (b : Nat) (x : Board) : (s.setBoard b x).host = s.host := rfl
@[simp] theorem State.setBoard_paths (b : Nat) (x : Board) : (s.setBoard b x).paths = s.paths := rfl
@[simp] theorem State.setBoard_can (b : Nat) (x : Board) : (s.setBoard b x).can = s.can := rfl
@[simp] theorem State.setBoard_pwr (b : Nat) (x : Board) : (s.setBoard b x).pwr = s.pwr := rfl
@[simp] theorem State.setBoard_doms (b : Nat) (x : Board) : (s.setBoard b x).doms = s.doms := rfl
@[simp] theorem State.setBoard_job (b : Nat) (x : Board) : (s.setBoard b x).job = s.job := rfl
@[simp] theorem State.setBoard_stks (b : Nat) (x : Board) : (s.setBoard b x).stks = s.stks := rfl
@[simp] theorem State.setBoard_dram (b : Nat) (x : Board) : (s.setBoard b x).dram = s.dram := rfl
@[simp] theorem State.setBoard_store (b : Nat) (x : Board) : (s.setBoard b x).store = s.store := rfl
@[simp] theorem State.setBoard_ports (b : Nat) (x : Board) : (s.setBoard b x).ports = s.ports := rfl
@[simp] theorem State.setBoard_fab (b : Nat) (x : Board) : (s.setBoard b x).fab = s.fab := rfl
@[simp] theorem State.setBoard_log (b : Nat) (x : Board) : (s.setBoard b x).log = s.log := rfl
@[simp] theorem State.setBoard_snap (b : Nat) (x : Board) : (s.setBoard b x).snap = s.snap := rfl
@[simp] theorem State.setBoard_cnt (b : Nat) (x : Board) : (s.setBoard b x).cnt = s.cnt := rfl

@[simp] theorem State.modBoard_pending (b : Nat) (f : Board → Board) : (s.modBoard b f).pending = s.pending := rfl
@[simp] theorem State.modBoard_time (b : Nat) (f : Board → Board) : (s.modBoard b f).time = s.time := rfl
@[simp] theorem State.modBoard_fresh (b : Nat) (f : Board → Board) : (s.modBoard b f).fresh = s.fresh := rfl
@[simp] theorem State.modBoard_out (b : Nat) (f : Board → Board) : (s.modBoard b f).out = s.out := rfl
@[simp] theorem State.modBoard_ident (b : Nat) (f : Board → Board) : (s.modBoard b f).ident = s.ident := rfl
@[simp] theorem State.modBoard_regs (b : Nat) (f : Board → Board) : (s.modBoard b f).regs = s.regs := rfl
@[simp] theorem State.modBoard_blobs (b : Nat) (f : Board → Board) : (s.modBoard b f).blobs = s.blobs := rfl
@[simp] theorem State.modBoard_vers (b : Nat) (f : Board → Board) : (s.modBoard b f).vers = s.vers := rfl
@[simp] theorem State.modBoard_flash (b : Nat) (f : Board → Board) : (s.modBoard b f).flash = s.flash := rfl
@[simp] theorem State.modBoard_fw (b : Nat) (f : Board → Board) : (s.modBoard b f).fw = s.fw := rfl
@[simp] theorem State.modBoard_dev (b : Nat) (f : Board → Board) : (s.modBoard b f).dev = s.dev := rfl
@[simp] theorem State.modBoard_host (b : Nat) (f : Board → Board) : (s.modBoard b f).host = s.host := rfl
@[simp] theorem State.modBoard_paths (b : Nat) (f : Board → Board) : (s.modBoard b f).paths = s.paths := rfl
@[simp] theorem State.modBoard_can (b : Nat) (f : Board → Board) : (s.modBoard b f).can = s.can := rfl
@[simp] theorem State.modBoard_pwr (b : Nat) (f : Board → Board) : (s.modBoard b f).pwr = s.pwr := rfl
@[simp] theorem State.modBoard_doms (b : Nat) (f : Board → Board) : (s.modBoard b f).doms = s.doms := rfl
@[simp] theorem State.modBoard_job (b : Nat) (f : Board → Board) : (s.modBoard b f).job = s.job := rfl
@[simp] theorem State.modBoard_stks (b : Nat) (f : Board → Board) : (s.modBoard b f).stks = s.stks := rfl
@[simp] theorem State.modBoard_dram (b : Nat) (f : Board → Board) : (s.modBoard b f).dram = s.dram := rfl
@[simp] theorem State.modBoard_store (b : Nat) (f : Board → Board) : (s.modBoard b f).store = s.store := rfl
@[simp] theorem State.modBoard_ports (b : Nat) (f : Board → Board) : (s.modBoard b f).ports = s.ports := rfl
@[simp] theorem State.modBoard_fab (b : Nat) (f : Board → Board) : (s.modBoard b f).fab = s.fab := rfl
@[simp] theorem State.modBoard_log (b : Nat) (f : Board → Board) : (s.modBoard b f).log = s.log := rfl
@[simp] theorem State.modBoard_snap (b : Nat) (f : Board → Board) : (s.modBoard b f).snap = s.snap := rfl
@[simp] theorem State.modBoard_cnt (b : Nat) (f : Board → Board) : (s.modBoard b f).cnt = s.cnt := rfl

@[simp] theorem State.setPort_pending (p : Nat) (x : Port) : (s.setPort p x).pending = s.pending := rfl
@[simp] theorem State.setPort_time (p : Nat) (x : Port) : (s.setPort p x).time = s.time := rfl
@[simp] theorem State.setPort_fresh (p : Nat) (x : Port) : (s.setPort p x).fresh = s.fresh := rfl
@[simp] theorem State.setPort_out (p : Nat) (x : Port) : (s.setPort p x).out = s.out := rfl
@[simp] theorem State.setPort_ident (p : Nat) (x : Port) : (s.setPort p x).ident = s.ident := rfl
@[simp] theorem State.setPort_regs (p : Nat) (x : Port) : (s.setPort p x).regs = s.regs := rfl
@[simp] theorem State.setPort_blobs (p : Nat) (x : Port) : (s.setPort p x).blobs = s.blobs := rfl
@[simp] theorem State.setPort_vers (p : Nat) (x : Port) : (s.setPort p x).vers = s.vers := rfl
@[simp] theorem State.setPort_flash (p : Nat) (x : Port) : (s.setPort p x).flash = s.flash := rfl
@[simp] theorem State.setPort_fw (p : Nat) (x : Port) : (s.setPort p x).fw = s.fw := rfl
@[simp] theorem State.setPort_dev (p : Nat) (x : Port) : (s.setPort p x).dev = s.dev := rfl
@[simp] theorem State.setPort_host (p : Nat) (x : Port) : (s.setPort p x).host = s.host := rfl
@[simp] theorem State.setPort_paths (p : Nat) (x : Port) : (s.setPort p x).paths = s.paths := rfl
@[simp] theorem State.setPort_can (p : Nat) (x : Port) : (s.setPort p x).can = s.can := rfl
@[simp] theorem State.setPort_pwr (p : Nat) (x : Port) : (s.setPort p x).pwr = s.pwr := rfl
@[simp] theorem State.setPort_doms (p : Nat) (x : Port) : (s.setPort p x).doms = s.doms := rfl
@[simp] theorem State.setPort_job (p : Nat) (x : Port) : (s.setPort p x).job = s.job := rfl
@[simp] theorem State.setPort_stks (p : Nat) (x : Port) : (s.setPort p x).stks = s.stks := rfl
@[simp] theorem State.setPort_boards (p : Nat) (x : Port) : (s.setPort p x).boards = s.boards := rfl
@[simp] theorem State.setPort_dram (p : Nat) (x : Port) : (s.setPort p x).dram = s.dram := rfl
@[simp] theorem State.setPort_store (p : Nat) (x : Port) : (s.setPort p x).store = s.store := rfl
@[simp] theorem State.setPort_fab (p : Nat) (x : Port) : (s.setPort p x).fab = s.fab := rfl
@[simp] theorem State.setPort_log (p : Nat) (x : Port) : (s.setPort p x).log = s.log := rfl
@[simp] theorem State.setPort_snap (p : Nat) (x : Port) : (s.setPort p x).snap = s.snap := rfl
@[simp] theorem State.setPort_cnt (p : Nat) (x : Port) : (s.setPort p x).cnt = s.cnt := rfl

@[simp] theorem State.modPort_pending (p : Nat) (f : Port → Port) : (s.modPort p f).pending = s.pending := rfl
@[simp] theorem State.modPort_time (p : Nat) (f : Port → Port) : (s.modPort p f).time = s.time := rfl
@[simp] theorem State.modPort_fresh (p : Nat) (f : Port → Port) : (s.modPort p f).fresh = s.fresh := rfl
@[simp] theorem State.modPort_out (p : Nat) (f : Port → Port) : (s.modPort p f).out = s.out := rfl
@[simp] theorem State.modPort_ident (p : Nat) (f : Port → Port) : (s.modPort p f).ident = s.ident := rfl
@[simp] theorem State.modPort_regs (p : Nat) (f : Port → Port) : (s.modPort p f).regs = s.regs := rfl
@[simp] theorem State.modPort_blobs (p : Nat) (f : Port → Port) : (s.modPort p f).blobs = s.blobs := rfl
@[simp] theorem State.modPort_vers (p : Nat) (f : Port → Port) : (s.modPort p f).vers = s.vers := rfl
@[simp] theorem State.modPort_flash (p : Nat) (f : Port → Port) : (s.modPort p f).flash = s.flash := rfl
@[simp] theorem State.modPort_fw (p : Nat) (f : Port → Port) : (s.modPort p f).fw = s.fw := rfl
@[simp] theorem State.modPort_dev (p : Nat) (f : Port → Port) : (s.modPort p f).dev = s.dev := rfl
@[simp] theorem State.modPort_host (p : Nat) (f : Port → Port) : (s.modPort p f).host = s.host := rfl
@[simp] theorem State.modPort_paths (p : Nat) (f : Port → Port) : (s.modPort p f).paths = s.paths := rfl
@[simp] theorem State.modPort_can (p : Nat) (f : Port → Port) : (s.modPort p f).can = s.can := rfl
@[simp] theorem State.modPort_pwr (p : Nat) (f : Port → Port) : (s.modPort p f).pwr = s.pwr := rfl
@[simp] theorem State.modPort_doms (p : Nat) (f : Port → Port) : (s.modPort p f).doms = s.doms := rfl
@[simp] theorem State.modPort_job (p : Nat) (f : Port → Port) : (s.modPort p f).job = s.job := rfl
@[simp] theorem State.modPort_stks (p : Nat) (f : Port → Port) : (s.modPort p f).stks = s.stks := rfl
@[simp] theorem State.modPort_boards (p : Nat) (f : Port → Port) : (s.modPort p f).boards = s.boards := rfl
@[simp] theorem State.modPort_dram (p : Nat) (f : Port → Port) : (s.modPort p f).dram = s.dram := rfl
@[simp] theorem State.modPort_store (p : Nat) (f : Port → Port) : (s.modPort p f).store = s.store := rfl
@[simp] theorem State.modPort_fab (p : Nat) (f : Port → Port) : (s.modPort p f).fab = s.fab := rfl
@[simp] theorem State.modPort_log (p : Nat) (f : Port → Port) : (s.modPort p f).log = s.log := rfl
@[simp] theorem State.modPort_snap (p : Nat) (f : Port → Port) : (s.modPort p f).snap = s.snap := rfl
@[simp] theorem State.modPort_cnt (p : Nat) (f : Port → Port) : (s.modPort p f).cnt = s.cnt := rfl

@[simp] theorem State.emit_pending (o : Out) : (s.emit o).pending = s.pending := rfl
@[simp] theorem State.emit_time (o : Out) : (s.emit o).time = s.time := rfl
@[simp] theorem State.emit_fresh (o : Out) : (s.emit o).fresh = s.fresh := rfl
@[simp] theorem State.emit_ident (o : Out) : (s.emit o).ident = s.ident := rfl
@[simp] theorem State.emit_regs (o : Out) : (s.emit o).regs = s.regs := rfl
@[simp] theorem State.emit_blobs (o : Out) : (s.emit o).blobs = s.blobs := rfl
@[simp] theorem State.emit_vers (o : Out) : (s.emit o).vers = s.vers := rfl
@[simp] theorem State.emit_flash (o : Out) : (s.emit o).flash = s.flash := rfl
@[simp] theorem State.emit_fw (o : Out) : (s.emit o).fw = s.fw := rfl
@[simp] theorem State.emit_dev (o : Out) : (s.emit o).dev = s.dev := rfl
@[simp] theorem State.emit_host (o : Out) : (s.emit o).host = s.host := rfl
@[simp] theorem State.emit_paths (o : Out) : (s.emit o).paths = s.paths := rfl
@[simp] theorem State.emit_can (o : Out) : (s.emit o).can = s.can := rfl
@[simp] theorem State.emit_pwr (o : Out) : (s.emit o).pwr = s.pwr := rfl
@[simp] theorem State.emit_doms (o : Out) : (s.emit o).doms = s.doms := rfl
@[simp] theorem State.emit_job (o : Out) : (s.emit o).job = s.job := rfl
@[simp] theorem State.emit_stks (o : Out) : (s.emit o).stks = s.stks := rfl
@[simp] theorem State.emit_boards (o : Out) : (s.emit o).boards = s.boards := rfl
@[simp] theorem State.emit_dram (o : Out) : (s.emit o).dram = s.dram := rfl
@[simp] theorem State.emit_store (o : Out) : (s.emit o).store = s.store := rfl
@[simp] theorem State.emit_ports (o : Out) : (s.emit o).ports = s.ports := rfl
@[simp] theorem State.emit_fab (o : Out) : (s.emit o).fab = s.fab := rfl
@[simp] theorem State.emit_log (o : Out) : (s.emit o).log = s.log := rfl
@[simp] theorem State.emit_snap (o : Out) : (s.emit o).snap = s.snap := rfl
@[simp] theorem State.emit_cnt (o : Out) : (s.emit o).cnt = s.cnt := rfl

@[simp] theorem State.setNines_pending (u : Nat) (x : Nines) : (s.setNines u x).pending = s.pending := rfl
@[simp] theorem State.setNines_time (u : Nat) (x : Nines) : (s.setNines u x).time = s.time := rfl
@[simp] theorem State.setNines_fresh (u : Nat) (x : Nines) : (s.setNines u x).fresh = s.fresh := rfl
@[simp] theorem State.setNines_out (u : Nat) (x : Nines) : (s.setNines u x).out = s.out := rfl
@[simp] theorem State.setNines_ident (u : Nat) (x : Nines) : (s.setNines u x).ident = s.ident := rfl
@[simp] theorem State.setNines_regs (u : Nat) (x : Nines) : (s.setNines u x).regs = s.regs := rfl
@[simp] theorem State.setNines_blobs (u : Nat) (x : Nines) : (s.setNines u x).blobs = s.blobs := rfl
@[simp] theorem State.setNines_vers (u : Nat) (x : Nines) : (s.setNines u x).vers = s.vers := rfl
@[simp] theorem State.setNines_flash (u : Nat) (x : Nines) : (s.setNines u x).flash = s.flash := rfl
@[simp] theorem State.setNines_fw (u : Nat) (x : Nines) : (s.setNines u x).fw = s.fw := rfl
@[simp] theorem State.setNines_dev (u : Nat) (x : Nines) : (s.setNines u x).dev = s.dev := rfl
@[simp] theorem State.setNines_host (u : Nat) (x : Nines) : (s.setNines u x).host = s.host := rfl
@[simp] theorem State.setNines_paths (u : Nat) (x : Nines) : (s.setNines u x).paths = s.paths := rfl
@[simp] theorem State.setNines_can (u : Nat) (x : Nines) : (s.setNines u x).can = s.can := rfl
@[simp] theorem State.setNines_pwr (u : Nat) (x : Nines) : (s.setNines u x).pwr = s.pwr := rfl
@[simp] theorem State.setNines_doms (u : Nat) (x : Nines) : (s.setNines u x).doms = s.doms := rfl
@[simp] theorem State.setNines_job (u : Nat) (x : Nines) : (s.setNines u x).job = s.job := rfl
@[simp] theorem State.setNines_stks (u : Nat) (x : Nines) : (s.setNines u x).stks = s.stks := rfl
@[simp] theorem State.setNines_boards (u : Nat) (x : Nines) : (s.setNines u x).boards = s.boards := rfl
@[simp] theorem State.setNines_dram (u : Nat) (x : Nines) : (s.setNines u x).dram = s.dram := rfl
@[simp] theorem State.setNines_store (u : Nat) (x : Nines) : (s.setNines u x).store = s.store := rfl
@[simp] theorem State.setNines_ports (u : Nat) (x : Nines) : (s.setNines u x).ports = s.ports := rfl
@[simp] theorem State.setNines_fab (u : Nat) (x : Nines) : (s.setNines u x).fab = s.fab := rfl
@[simp] theorem State.setNines_log (u : Nat) (x : Nines) : (s.setNines u x).log = s.log := rfl
@[simp] theorem State.setNines_snap (u : Nat) (x : Nines) : (s.setNines u x).snap = s.snap := rfl

@[simp] theorem State.wr_pending (r : Reg) (v u : Nat) : (s.wr r v u).pending = s.pending := rfl
@[simp] theorem State.wr_time (r : Reg) (v u : Nat) : (s.wr r v u).time = s.time := rfl
@[simp] theorem State.wr_fresh (r : Reg) (v u : Nat) : (s.wr r v u).fresh = s.fresh := rfl
@[simp] theorem State.wr_out (r : Reg) (v u : Nat) : (s.wr r v u).out = s.out := rfl
@[simp] theorem State.wr_ident (r : Reg) (v u : Nat) : (s.wr r v u).ident = s.ident := rfl
@[simp] theorem State.wr_blobs (r : Reg) (v u : Nat) : (s.wr r v u).blobs = s.blobs := rfl
@[simp] theorem State.wr_vers (r : Reg) (v u : Nat) : (s.wr r v u).vers = s.vers := rfl
@[simp] theorem State.wr_fw (r : Reg) (v u : Nat) : (s.wr r v u).fw = s.fw := rfl
@[simp] theorem State.wr_dev (r : Reg) (v u : Nat) : (s.wr r v u).dev = s.dev := rfl
@[simp] theorem State.wr_host (r : Reg) (v u : Nat) : (s.wr r v u).host = s.host := rfl
@[simp] theorem State.wr_paths (r : Reg) (v u : Nat) : (s.wr r v u).paths = s.paths := rfl
@[simp] theorem State.wr_can (r : Reg) (v u : Nat) : (s.wr r v u).can = s.can := rfl
@[simp] theorem State.wr_pwr (r : Reg) (v u : Nat) : (s.wr r v u).pwr = s.pwr := rfl
@[simp] theorem State.wr_doms (r : Reg) (v u : Nat) : (s.wr r v u).doms = s.doms := rfl
@[simp] theorem State.wr_job (r : Reg) (v u : Nat) : (s.wr r v u).job = s.job := rfl
@[simp] theorem State.wr_stks (r : Reg) (v u : Nat) : (s.wr r v u).stks = s.stks := rfl
@[simp] theorem State.wr_boards (r : Reg) (v u : Nat) : (s.wr r v u).boards = s.boards := rfl
@[simp] theorem State.wr_dram (r : Reg) (v u : Nat) : (s.wr r v u).dram = s.dram := rfl
@[simp] theorem State.wr_store (r : Reg) (v u : Nat) : (s.wr r v u).store = s.store := rfl
@[simp] theorem State.wr_ports (r : Reg) (v u : Nat) : (s.wr r v u).ports = s.ports := rfl
@[simp] theorem State.wr_fab (r : Reg) (v u : Nat) : (s.wr r v u).fab = s.fab := rfl
@[simp] theorem State.wr_log (r : Reg) (v u : Nat) : (s.wr r v u).log = s.log := rfl
@[simp] theorem State.wr_snap (r : Reg) (v u : Nat) : (s.wr r v u).snap = s.snap := rfl
@[simp] theorem State.wr_cnt (r : Reg) (v u : Nat) : (s.wr r v u).cnt = s.cnt := rfl

@[simp] theorem State.bumpBy_pending (r : Reg) (n u : Nat) : (s.bumpBy r n u).pending = s.pending := rfl
@[simp] theorem State.bumpBy_time (r : Reg) (n u : Nat) : (s.bumpBy r n u).time = s.time := rfl
@[simp] theorem State.bumpBy_fresh (r : Reg) (n u : Nat) : (s.bumpBy r n u).fresh = s.fresh := rfl
@[simp] theorem State.bumpBy_out (r : Reg) (n u : Nat) : (s.bumpBy r n u).out = s.out := rfl
@[simp] theorem State.bumpBy_ident (r : Reg) (n u : Nat) : (s.bumpBy r n u).ident = s.ident := rfl
@[simp] theorem State.bumpBy_blobs (r : Reg) (n u : Nat) : (s.bumpBy r n u).blobs = s.blobs := rfl
@[simp] theorem State.bumpBy_vers (r : Reg) (n u : Nat) : (s.bumpBy r n u).vers = s.vers := rfl
@[simp] theorem State.bumpBy_fw (r : Reg) (n u : Nat) : (s.bumpBy r n u).fw = s.fw := rfl
@[simp] theorem State.bumpBy_dev (r : Reg) (n u : Nat) : (s.bumpBy r n u).dev = s.dev := rfl
@[simp] theorem State.bumpBy_host (r : Reg) (n u : Nat) : (s.bumpBy r n u).host = s.host := rfl
@[simp] theorem State.bumpBy_paths (r : Reg) (n u : Nat) : (s.bumpBy r n u).paths = s.paths := rfl
@[simp] theorem State.bumpBy_can (r : Reg) (n u : Nat) : (s.bumpBy r n u).can = s.can := rfl
@[simp] theorem State.bumpBy_pwr (r : Reg) (n u : Nat) : (s.bumpBy r n u).pwr = s.pwr := rfl
@[simp] theorem State.bumpBy_doms (r : Reg) (n u : Nat) : (s.bumpBy r n u).doms = s.doms := rfl
@[simp] theorem State.bumpBy_job (r : Reg) (n u : Nat) : (s.bumpBy r n u).job = s.job := rfl
@[simp] theorem State.bumpBy_stks (r : Reg) (n u : Nat) : (s.bumpBy r n u).stks = s.stks := rfl
@[simp] theorem State.bumpBy_boards (r : Reg) (n u : Nat) : (s.bumpBy r n u).boards = s.boards := rfl
@[simp] theorem State.bumpBy_dram (r : Reg) (n u : Nat) : (s.bumpBy r n u).dram = s.dram := rfl
@[simp] theorem State.bumpBy_store (r : Reg) (n u : Nat) : (s.bumpBy r n u).store = s.store := rfl
@[simp] theorem State.bumpBy_ports (r : Reg) (n u : Nat) : (s.bumpBy r n u).ports = s.ports := rfl
@[simp] theorem State.bumpBy_fab (r : Reg) (n u : Nat) : (s.bumpBy r n u).fab = s.fab := rfl
@[simp] theorem State.bumpBy_log (r : Reg) (n u : Nat) : (s.bumpBy r n u).log = s.log := rfl
@[simp] theorem State.bumpBy_snap (r : Reg) (n u : Nat) : (s.bumpBy r n u).snap = s.snap := rfl
@[simp] theorem State.bumpBy_cnt (r : Reg) (n u : Nat) : (s.bumpBy r n u).cnt = s.cnt := rfl

@[simp] theorem State.bump_pending (r : Reg) (u : Nat) : (s.bump r u).pending = s.pending := rfl
@[simp] theorem State.bump_time (r : Reg) (u : Nat) : (s.bump r u).time = s.time := rfl
@[simp] theorem State.bump_fresh (r : Reg) (u : Nat) : (s.bump r u).fresh = s.fresh := rfl
@[simp] theorem State.bump_out (r : Reg) (u : Nat) : (s.bump r u).out = s.out := rfl
@[simp] theorem State.bump_ident (r : Reg) (u : Nat) : (s.bump r u).ident = s.ident := rfl
@[simp] theorem State.bump_blobs (r : Reg) (u : Nat) : (s.bump r u).blobs = s.blobs := rfl
@[simp] theorem State.bump_vers (r : Reg) (u : Nat) : (s.bump r u).vers = s.vers := rfl
@[simp] theorem State.bump_fw (r : Reg) (u : Nat) : (s.bump r u).fw = s.fw := rfl
@[simp] theorem State.bump_dev (r : Reg) (u : Nat) : (s.bump r u).dev = s.dev := rfl
@[simp] theorem State.bump_host (r : Reg) (u : Nat) : (s.bump r u).host = s.host := rfl
@[simp] theorem State.bump_paths (r : Reg) (u : Nat) : (s.bump r u).paths = s.paths := rfl
@[simp] theorem State.bump_can (r : Reg) (u : Nat) : (s.bump r u).can = s.can := rfl
@[simp] theorem State.bump_pwr (r : Reg) (u : Nat) : (s.bump r u).pwr = s.pwr := rfl
@[simp] theorem State.bump_doms (r : Reg) (u : Nat) : (s.bump r u).doms = s.doms := rfl
@[simp] theorem State.bump_job (r : Reg) (u : Nat) : (s.bump r u).job = s.job := rfl
@[simp] theorem State.bump_stks (r : Reg) (u : Nat) : (s.bump r u).stks = s.stks := rfl
@[simp] theorem State.bump_boards (r : Reg) (u : Nat) : (s.bump r u).boards = s.boards := rfl
@[simp] theorem State.bump_dram (r : Reg) (u : Nat) : (s.bump r u).dram = s.dram := rfl
@[simp] theorem State.bump_store (r : Reg) (u : Nat) : (s.bump r u).store = s.store := rfl
@[simp] theorem State.bump_ports (r : Reg) (u : Nat) : (s.bump r u).ports = s.ports := rfl
@[simp] theorem State.bump_fab (r : Reg) (u : Nat) : (s.bump r u).fab = s.fab := rfl
@[simp] theorem State.bump_log (r : Reg) (u : Nat) : (s.bump r u).log = s.log := rfl
@[simp] theorem State.bump_snap (r : Reg) (u : Nat) : (s.bump r u).snap = s.snap := rfl
@[simp] theorem State.bump_cnt (r : Reg) (u : Nat) : (s.bump r u).cnt = s.cnt := rfl

@[simp] theorem State.maxReg_pending (r : Reg) (v u : Nat) : (s.maxReg r v u).pending = s.pending := rfl
@[simp] theorem State.maxReg_time (r : Reg) (v u : Nat) : (s.maxReg r v u).time = s.time := rfl
@[simp] theorem State.maxReg_fresh (r : Reg) (v u : Nat) : (s.maxReg r v u).fresh = s.fresh := rfl
@[simp] theorem State.maxReg_out (r : Reg) (v u : Nat) : (s.maxReg r v u).out = s.out := rfl
@[simp] theorem State.maxReg_ident (r : Reg) (v u : Nat) : (s.maxReg r v u).ident = s.ident := rfl
@[simp] theorem State.maxReg_blobs (r : Reg) (v u : Nat) : (s.maxReg r v u).blobs = s.blobs := rfl
@[simp] theorem State.maxReg_vers (r : Reg) (v u : Nat) : (s.maxReg r v u).vers = s.vers := rfl
@[simp] theorem State.maxReg_fw (r : Reg) (v u : Nat) : (s.maxReg r v u).fw = s.fw := rfl
@[simp] theorem State.maxReg_dev (r : Reg) (v u : Nat) : (s.maxReg r v u).dev = s.dev := rfl
@[simp] theorem State.maxReg_host (r : Reg) (v u : Nat) : (s.maxReg r v u).host = s.host := rfl
@[simp] theorem State.maxReg_paths (r : Reg) (v u : Nat) : (s.maxReg r v u).paths = s.paths := rfl
@[simp] theorem State.maxReg_can (r : Reg) (v u : Nat) : (s.maxReg r v u).can = s.can := rfl
@[simp] theorem State.maxReg_pwr (r : Reg) (v u : Nat) : (s.maxReg r v u).pwr = s.pwr := rfl
@[simp] theorem State.maxReg_doms (r : Reg) (v u : Nat) : (s.maxReg r v u).doms = s.doms := rfl
@[simp] theorem State.maxReg_job (r : Reg) (v u : Nat) : (s.maxReg r v u).job = s.job := rfl
@[simp] theorem State.maxReg_stks (r : Reg) (v u : Nat) : (s.maxReg r v u).stks = s.stks := rfl
@[simp] theorem State.maxReg_boards (r : Reg) (v u : Nat) : (s.maxReg r v u).boards = s.boards := rfl
@[simp] theorem State.maxReg_dram (r : Reg) (v u : Nat) : (s.maxReg r v u).dram = s.dram := rfl
@[simp] theorem State.maxReg_store (r : Reg) (v u : Nat) : (s.maxReg r v u).store = s.store := rfl
@[simp] theorem State.maxReg_ports (r : Reg) (v u : Nat) : (s.maxReg r v u).ports = s.ports := rfl
@[simp] theorem State.maxReg_fab (r : Reg) (v u : Nat) : (s.maxReg r v u).fab = s.fab := rfl
@[simp] theorem State.maxReg_log (r : Reg) (v u : Nat) : (s.maxReg r v u).log = s.log := rfl
@[simp] theorem State.maxReg_snap (r : Reg) (v u : Nat) : (s.maxReg r v u).snap = s.snap := rfl
@[simp] theorem State.maxReg_cnt (r : Reg) (v u : Nat) : (s.maxReg r v u).cnt = s.cnt := rfl

@[simp] theorem State.bumpVer_pending (r : Reg) (u : Nat) : (s.bumpVer r u).pending = s.pending := rfl
@[simp] theorem State.bumpVer_time (r : Reg) (u : Nat) : (s.bumpVer r u).time = s.time := rfl
@[simp] theorem State.bumpVer_fresh (r : Reg) (u : Nat) : (s.bumpVer r u).fresh = s.fresh := rfl
@[simp] theorem State.bumpVer_out (r : Reg) (u : Nat) : (s.bumpVer r u).out = s.out := rfl
@[simp] theorem State.bumpVer_ident (r : Reg) (u : Nat) : (s.bumpVer r u).ident = s.ident := rfl
@[simp] theorem State.bumpVer_regs (r : Reg) (u : Nat) : (s.bumpVer r u).regs = s.regs := rfl
@[simp] theorem State.bumpVer_blobs (r : Reg) (u : Nat) : (s.bumpVer r u).blobs = s.blobs := rfl
@[simp] theorem State.bumpVer_flash (r : Reg) (u : Nat) : (s.bumpVer r u).flash = s.flash := rfl
@[simp] theorem State.bumpVer_fw (r : Reg) (u : Nat) : (s.bumpVer r u).fw = s.fw := rfl
@[simp] theorem State.bumpVer_dev (r : Reg) (u : Nat) : (s.bumpVer r u).dev = s.dev := rfl
@[simp] theorem State.bumpVer_host (r : Reg) (u : Nat) : (s.bumpVer r u).host = s.host := rfl
@[simp] theorem State.bumpVer_paths (r : Reg) (u : Nat) : (s.bumpVer r u).paths = s.paths := rfl
@[simp] theorem State.bumpVer_can (r : Reg) (u : Nat) : (s.bumpVer r u).can = s.can := rfl
@[simp] theorem State.bumpVer_pwr (r : Reg) (u : Nat) : (s.bumpVer r u).pwr = s.pwr := rfl
@[simp] theorem State.bumpVer_doms (r : Reg) (u : Nat) : (s.bumpVer r u).doms = s.doms := rfl
@[simp] theorem State.bumpVer_job (r : Reg) (u : Nat) : (s.bumpVer r u).job = s.job := rfl
@[simp] theorem State.bumpVer_stks (r : Reg) (u : Nat) : (s.bumpVer r u).stks = s.stks := rfl
@[simp] theorem State.bumpVer_boards (r : Reg) (u : Nat) : (s.bumpVer r u).boards = s.boards := rfl
@[simp] theorem State.bumpVer_dram (r : Reg) (u : Nat) : (s.bumpVer r u).dram = s.dram := rfl
@[simp] theorem State.bumpVer_store (r : Reg) (u : Nat) : (s.bumpVer r u).store = s.store := rfl
@[simp] theorem State.bumpVer_ports (r : Reg) (u : Nat) : (s.bumpVer r u).ports = s.ports := rfl
@[simp] theorem State.bumpVer_fab (r : Reg) (u : Nat) : (s.bumpVer r u).fab = s.fab := rfl
@[simp] theorem State.bumpVer_log (r : Reg) (u : Nat) : (s.bumpVer r u).log = s.log := rfl
@[simp] theorem State.bumpVer_snap (r : Reg) (u : Nat) : (s.bumpVer r u).snap = s.snap := rfl
@[simp] theorem State.bumpVer_cnt (r : Reg) (u : Nat) : (s.bumpVer r u).cnt = s.cnt := rfl

@[simp] theorem State.wrBlob_pending (r : Reg) (bs : List Byte) (u : Nat) : (s.wrBlob r bs u).pending = s.pending := rfl
@[simp] theorem State.wrBlob_time (r : Reg) (bs : List Byte) (u : Nat) : (s.wrBlob r bs u).time = s.time := rfl
@[simp] theorem State.wrBlob_fresh (r : Reg) (bs : List Byte) (u : Nat) : (s.wrBlob r bs u).fresh = s.fresh := rfl
@[simp] theorem State.wrBlob_out (r : Reg) (bs : List Byte) (u : Nat) : (s.wrBlob r bs u).out = s.out := rfl
@[simp] theorem State.wrBlob_ident (r : Reg) (bs : List Byte) (u : Nat) : (s.wrBlob r bs u).ident = s.ident := rfl
@[simp] theorem State.wrBlob_regs (r : Reg) (bs : List Byte) (u : Nat) : (s.wrBlob r bs u).regs = s.regs := rfl
@[simp] theorem State.wrBlob_flash (r : Reg) (bs : List Byte) (u : Nat) : (s.wrBlob r bs u).flash = s.flash := rfl
@[simp] theorem State.wrBlob_fw (r : Reg) (bs : List Byte) (u : Nat) : (s.wrBlob r bs u).fw = s.fw := rfl
@[simp] theorem State.wrBlob_dev (r : Reg) (bs : List Byte) (u : Nat) : (s.wrBlob r bs u).dev = s.dev := rfl
@[simp] theorem State.wrBlob_host (r : Reg) (bs : List Byte) (u : Nat) : (s.wrBlob r bs u).host = s.host := rfl
@[simp] theorem State.wrBlob_paths (r : Reg) (bs : List Byte) (u : Nat) : (s.wrBlob r bs u).paths = s.paths := rfl
@[simp] theorem State.wrBlob_can (r : Reg) (bs : List Byte) (u : Nat) : (s.wrBlob r bs u).can = s.can := rfl
@[simp] theorem State.wrBlob_pwr (r : Reg) (bs : List Byte) (u : Nat) : (s.wrBlob r bs u).pwr = s.pwr := rfl
@[simp] theorem State.wrBlob_doms (r : Reg) (bs : List Byte) (u : Nat) : (s.wrBlob r bs u).doms = s.doms := rfl
@[simp] theorem State.wrBlob_job (r : Reg) (bs : List Byte) (u : Nat) : (s.wrBlob r bs u).job = s.job := rfl
@[simp] theorem State.wrBlob_stks (r : Reg) (bs : List Byte) (u : Nat) : (s.wrBlob r bs u).stks = s.stks := rfl
@[simp] theorem State.wrBlob_boards (r : Reg) (bs : List Byte) (u : Nat) : (s.wrBlob r bs u).boards = s.boards := rfl
@[simp] theorem State.wrBlob_dram (r : Reg) (bs : List Byte) (u : Nat) : (s.wrBlob r bs u).dram = s.dram := rfl
@[simp] theorem State.wrBlob_store (r : Reg) (bs : List Byte) (u : Nat) : (s.wrBlob r bs u).store = s.store := rfl
@[simp] theorem State.wrBlob_ports (r : Reg) (bs : List Byte) (u : Nat) : (s.wrBlob r bs u).ports = s.ports := rfl
@[simp] theorem State.wrBlob_fab (r : Reg) (bs : List Byte) (u : Nat) : (s.wrBlob r bs u).fab = s.fab := rfl
@[simp] theorem State.wrBlob_log (r : Reg) (bs : List Byte) (u : Nat) : (s.wrBlob r bs u).log = s.log := rfl
@[simp] theorem State.wrBlob_snap (r : Reg) (bs : List Byte) (u : Nat) : (s.wrBlob r bs u).snap = s.snap := rfl
@[simp] theorem State.wrBlob_cnt (r : Reg) (bs : List Byte) (u : Nat) : (s.wrBlob r bs u).cnt = s.cnt := rfl

@[simp] theorem State.dramWrite_pending (a : Nat) (bs : List Byte) : (s.dramWrite a bs).pending = s.pending := rfl
@[simp] theorem State.dramWrite_time (a : Nat) (bs : List Byte) : (s.dramWrite a bs).time = s.time := rfl
@[simp] theorem State.dramWrite_fresh (a : Nat) (bs : List Byte) : (s.dramWrite a bs).fresh = s.fresh := rfl
@[simp] theorem State.dramWrite_out (a : Nat) (bs : List Byte) : (s.dramWrite a bs).out = s.out := rfl
@[simp] theorem State.dramWrite_ident (a : Nat) (bs : List Byte) : (s.dramWrite a bs).ident = s.ident := rfl
@[simp] theorem State.dramWrite_regs (a : Nat) (bs : List Byte) : (s.dramWrite a bs).regs = s.regs := rfl
@[simp] theorem State.dramWrite_blobs (a : Nat) (bs : List Byte) : (s.dramWrite a bs).blobs = s.blobs := rfl
@[simp] theorem State.dramWrite_vers (a : Nat) (bs : List Byte) : (s.dramWrite a bs).vers = s.vers := rfl
@[simp] theorem State.dramWrite_flash (a : Nat) (bs : List Byte) : (s.dramWrite a bs).flash = s.flash := rfl
@[simp] theorem State.dramWrite_fw (a : Nat) (bs : List Byte) : (s.dramWrite a bs).fw = s.fw := rfl
@[simp] theorem State.dramWrite_dev (a : Nat) (bs : List Byte) : (s.dramWrite a bs).dev = s.dev := rfl
@[simp] theorem State.dramWrite_host (a : Nat) (bs : List Byte) : (s.dramWrite a bs).host = s.host := rfl
@[simp] theorem State.dramWrite_paths (a : Nat) (bs : List Byte) : (s.dramWrite a bs).paths = s.paths := rfl
@[simp] theorem State.dramWrite_can (a : Nat) (bs : List Byte) : (s.dramWrite a bs).can = s.can := rfl
@[simp] theorem State.dramWrite_pwr (a : Nat) (bs : List Byte) : (s.dramWrite a bs).pwr = s.pwr := rfl
@[simp] theorem State.dramWrite_doms (a : Nat) (bs : List Byte) : (s.dramWrite a bs).doms = s.doms := rfl
@[simp] theorem State.dramWrite_job (a : Nat) (bs : List Byte) : (s.dramWrite a bs).job = s.job := rfl
@[simp] theorem State.dramWrite_stks (a : Nat) (bs : List Byte) : (s.dramWrite a bs).stks = s.stks := rfl
@[simp] theorem State.dramWrite_boards (a : Nat) (bs : List Byte) : (s.dramWrite a bs).boards = s.boards := rfl
@[simp] theorem State.dramWrite_store (a : Nat) (bs : List Byte) : (s.dramWrite a bs).store = s.store := rfl
@[simp] theorem State.dramWrite_ports (a : Nat) (bs : List Byte) : (s.dramWrite a bs).ports = s.ports := rfl
@[simp] theorem State.dramWrite_fab (a : Nat) (bs : List Byte) : (s.dramWrite a bs).fab = s.fab := rfl
@[simp] theorem State.dramWrite_log (a : Nat) (bs : List Byte) : (s.dramWrite a bs).log = s.log := rfl
@[simp] theorem State.dramWrite_snap (a : Nat) (bs : List Byte) : (s.dramWrite a bs).snap = s.snap := rfl
@[simp] theorem State.dramWrite_cnt (a : Nat) (bs : List Byte) : (s.dramWrite a bs).cnt = s.cnt := rfl

@[simp] theorem State.storeWrite_pending (b a : Nat) (bs : List Byte) : (s.storeWrite b a bs).pending = s.pending := rfl
@[simp] theorem State.storeWrite_time (b a : Nat) (bs : List Byte) : (s.storeWrite b a bs).time = s.time := rfl
@[simp] theorem State.storeWrite_fresh (b a : Nat) (bs : List Byte) : (s.storeWrite b a bs).fresh = s.fresh := rfl
@[simp] theorem State.storeWrite_out (b a : Nat) (bs : List Byte) : (s.storeWrite b a bs).out = s.out := rfl
@[simp] theorem State.storeWrite_ident (b a : Nat) (bs : List Byte) : (s.storeWrite b a bs).ident = s.ident := rfl
@[simp] theorem State.storeWrite_regs (b a : Nat) (bs : List Byte) : (s.storeWrite b a bs).regs = s.regs := rfl
@[simp] theorem State.storeWrite_blobs (b a : Nat) (bs : List Byte) : (s.storeWrite b a bs).blobs = s.blobs := rfl
@[simp] theorem State.storeWrite_vers (b a : Nat) (bs : List Byte) : (s.storeWrite b a bs).vers = s.vers := rfl
@[simp] theorem State.storeWrite_flash (b a : Nat) (bs : List Byte) : (s.storeWrite b a bs).flash = s.flash := rfl
@[simp] theorem State.storeWrite_fw (b a : Nat) (bs : List Byte) : (s.storeWrite b a bs).fw = s.fw := rfl
@[simp] theorem State.storeWrite_dev (b a : Nat) (bs : List Byte) : (s.storeWrite b a bs).dev = s.dev := rfl
@[simp] theorem State.storeWrite_host (b a : Nat) (bs : List Byte) : (s.storeWrite b a bs).host = s.host := rfl
@[simp] theorem State.storeWrite_paths (b a : Nat) (bs : List Byte) : (s.storeWrite b a bs).paths = s.paths := rfl
@[simp] theorem State.storeWrite_can (b a : Nat) (bs : List Byte) : (s.storeWrite b a bs).can = s.can := rfl
@[simp] theorem State.storeWrite_pwr (b a : Nat) (bs : List Byte) : (s.storeWrite b a bs).pwr = s.pwr := rfl
@[simp] theorem State.storeWrite_doms (b a : Nat) (bs : List Byte) : (s.storeWrite b a bs).doms = s.doms := rfl
@[simp] theorem State.storeWrite_job (b a : Nat) (bs : List Byte) : (s.storeWrite b a bs).job = s.job := rfl
@[simp] theorem State.storeWrite_stks (b a : Nat) (bs : List Byte) : (s.storeWrite b a bs).stks = s.stks := rfl
@[simp] theorem State.storeWrite_boards (b a : Nat) (bs : List Byte) : (s.storeWrite b a bs).boards = s.boards := rfl
@[simp] theorem State.storeWrite_dram (b a : Nat) (bs : List Byte) : (s.storeWrite b a bs).dram = s.dram := rfl
@[simp] theorem State.storeWrite_ports (b a : Nat) (bs : List Byte) : (s.storeWrite b a bs).ports = s.ports := rfl
@[simp] theorem State.storeWrite_fab (b a : Nat) (bs : List Byte) : (s.storeWrite b a bs).fab = s.fab := rfl
@[simp] theorem State.storeWrite_log (b a : Nat) (bs : List Byte) : (s.storeWrite b a bs).log = s.log := rfl
@[simp] theorem State.storeWrite_snap (b a : Nat) (bs : List Byte) : (s.storeWrite b a bs).snap = s.snap := rfl
@[simp] theorem State.storeWrite_cnt (b a : Nat) (bs : List Byte) : (s.storeWrite b a bs).cnt = s.cnt := rfl

@[simp] theorem State.setDreg_pending (k d : Nat) (r : DReg) : (s.setDreg k d r).pending = s.pending := rfl
@[simp] theorem State.setDreg_time (k d : Nat) (r : DReg) : (s.setDreg k d r).time = s.time := rfl
@[simp] theorem State.setDreg_fresh (k d : Nat) (r : DReg) : (s.setDreg k d r).fresh = s.fresh := rfl
@[simp] theorem State.setDreg_out (k d : Nat) (r : DReg) : (s.setDreg k d r).out = s.out := rfl
@[simp] theorem State.setDreg_ident (k d : Nat) (r : DReg) : (s.setDreg k d r).ident = s.ident := rfl
@[simp] theorem State.setDreg_regs (k d : Nat) (r : DReg) : (s.setDreg k d r).regs = s.regs := rfl
@[simp] theorem State.setDreg_blobs (k d : Nat) (r : DReg) : (s.setDreg k d r).blobs = s.blobs := rfl
@[simp] theorem State.setDreg_vers (k d : Nat) (r : DReg) : (s.setDreg k d r).vers = s.vers := rfl
@[simp] theorem State.setDreg_flash (k d : Nat) (r : DReg) : (s.setDreg k d r).flash = s.flash := rfl
@[simp] theorem State.setDreg_fw (k d : Nat) (r : DReg) : (s.setDreg k d r).fw = s.fw := rfl
@[simp] theorem State.setDreg_dev (k d : Nat) (r : DReg) : (s.setDreg k d r).dev = s.dev := rfl
@[simp] theorem State.setDreg_host (k d : Nat) (r : DReg) : (s.setDreg k d r).host = s.host := rfl
@[simp] theorem State.setDreg_paths (k d : Nat) (r : DReg) : (s.setDreg k d r).paths = s.paths := rfl
@[simp] theorem State.setDreg_can (k d : Nat) (r : DReg) : (s.setDreg k d r).can = s.can := rfl
@[simp] theorem State.setDreg_pwr (k d : Nat) (r : DReg) : (s.setDreg k d r).pwr = s.pwr := rfl
@[simp] theorem State.setDreg_doms (k d : Nat) (r : DReg) : (s.setDreg k d r).doms = s.doms := rfl
@[simp] theorem State.setDreg_job (k d : Nat) (r : DReg) : (s.setDreg k d r).job = s.job := rfl
@[simp] theorem State.setDreg_boards (k d : Nat) (r : DReg) : (s.setDreg k d r).boards = s.boards := rfl
@[simp] theorem State.setDreg_dram (k d : Nat) (r : DReg) : (s.setDreg k d r).dram = s.dram := rfl
@[simp] theorem State.setDreg_store (k d : Nat) (r : DReg) : (s.setDreg k d r).store = s.store := rfl
@[simp] theorem State.setDreg_ports (k d : Nat) (r : DReg) : (s.setDreg k d r).ports = s.ports := rfl
@[simp] theorem State.setDreg_fab (k d : Nat) (r : DReg) : (s.setDreg k d r).fab = s.fab := rfl
@[simp] theorem State.setDreg_log (k d : Nat) (r : DReg) : (s.setDreg k d r).log = s.log := rfl
@[simp] theorem State.setDreg_snap (k d : Nat) (r : DReg) : (s.setDreg k d r).snap = s.snap := rfl
@[simp] theorem State.setDreg_cnt (k d : Nat) (r : DReg) : (s.setDreg k d r).cnt = s.cnt := rfl

@[simp] theorem State.setVrec_pending (k i : Nat) (v : VRec) : (s.setVrec k i v).pending = s.pending := rfl
@[simp] theorem State.setVrec_time (k i : Nat) (v : VRec) : (s.setVrec k i v).time = s.time := rfl
@[simp] theorem State.setVrec_fresh (k i : Nat) (v : VRec) : (s.setVrec k i v).fresh = s.fresh := rfl
@[simp] theorem State.setVrec_out (k i : Nat) (v : VRec) : (s.setVrec k i v).out = s.out := rfl
@[simp] theorem State.setVrec_ident (k i : Nat) (v : VRec) : (s.setVrec k i v).ident = s.ident := rfl
@[simp] theorem State.setVrec_regs (k i : Nat) (v : VRec) : (s.setVrec k i v).regs = s.regs := rfl
@[simp] theorem State.setVrec_blobs (k i : Nat) (v : VRec) : (s.setVrec k i v).blobs = s.blobs := rfl
@[simp] theorem State.setVrec_vers (k i : Nat) (v : VRec) : (s.setVrec k i v).vers = s.vers := rfl
@[simp] theorem State.setVrec_flash (k i : Nat) (v : VRec) : (s.setVrec k i v).flash = s.flash := rfl
@[simp] theorem State.setVrec_fw (k i : Nat) (v : VRec) : (s.setVrec k i v).fw = s.fw := rfl
@[simp] theorem State.setVrec_dev (k i : Nat) (v : VRec) : (s.setVrec k i v).dev = s.dev := rfl
@[simp] theorem State.setVrec_host (k i : Nat) (v : VRec) : (s.setVrec k i v).host = s.host := rfl
@[simp] theorem State.setVrec_paths (k i : Nat) (v : VRec) : (s.setVrec k i v).paths = s.paths := rfl
@[simp] theorem State.setVrec_can (k i : Nat) (v : VRec) : (s.setVrec k i v).can = s.can := rfl
@[simp] theorem State.setVrec_pwr (k i : Nat) (v : VRec) : (s.setVrec k i v).pwr = s.pwr := rfl
@[simp] theorem State.setVrec_doms (k i : Nat) (v : VRec) : (s.setVrec k i v).doms = s.doms := rfl
@[simp] theorem State.setVrec_job (k i : Nat) (v : VRec) : (s.setVrec k i v).job = s.job := rfl
@[simp] theorem State.setVrec_boards (k i : Nat) (v : VRec) : (s.setVrec k i v).boards = s.boards := rfl
@[simp] theorem State.setVrec_dram (k i : Nat) (v : VRec) : (s.setVrec k i v).dram = s.dram := rfl
@[simp] theorem State.setVrec_store (k i : Nat) (v : VRec) : (s.setVrec k i v).store = s.store := rfl
@[simp] theorem State.setVrec_ports (k i : Nat) (v : VRec) : (s.setVrec k i v).ports = s.ports := rfl
@[simp] theorem State.setVrec_fab (k i : Nat) (v : VRec) : (s.setVrec k i v).fab = s.fab := rfl
@[simp] theorem State.setVrec_log (k i : Nat) (v : VRec) : (s.setVrec k i v).log = s.log := rfl
@[simp] theorem State.setVrec_snap (k i : Nat) (v : VRec) : (s.setVrec k i v).snap = s.snap := rfl
@[simp] theorem State.setVrec_cnt (k i : Nat) (v : VRec) : (s.setVrec k i v).cnt = s.cnt := rfl

@[simp] theorem State.setJob_pending (j : JobState) : (s.setJob j).pending = s.pending := rfl
@[simp] theorem State.setJob_time (j : JobState) : (s.setJob j).time = s.time := rfl
@[simp] theorem State.setJob_fresh (j : JobState) : (s.setJob j).fresh = s.fresh := rfl
@[simp] theorem State.setJob_out (j : JobState) : (s.setJob j).out = s.out := rfl
@[simp] theorem State.setJob_ident (j : JobState) : (s.setJob j).ident = s.ident := rfl
@[simp] theorem State.setJob_regs (j : JobState) : (s.setJob j).regs = s.regs := rfl
@[simp] theorem State.setJob_blobs (j : JobState) : (s.setJob j).blobs = s.blobs := rfl
@[simp] theorem State.setJob_vers (j : JobState) : (s.setJob j).vers = s.vers := rfl
@[simp] theorem State.setJob_flash (j : JobState) : (s.setJob j).flash = s.flash := rfl
@[simp] theorem State.setJob_fw (j : JobState) : (s.setJob j).fw = s.fw := rfl
@[simp] theorem State.setJob_host (j : JobState) : (s.setJob j).host = s.host := rfl
@[simp] theorem State.setJob_paths (j : JobState) : (s.setJob j).paths = s.paths := rfl
@[simp] theorem State.setJob_can (j : JobState) : (s.setJob j).can = s.can := rfl
@[simp] theorem State.setJob_pwr (j : JobState) : (s.setJob j).pwr = s.pwr := rfl
@[simp] theorem State.setJob_doms (j : JobState) : (s.setJob j).doms = s.doms := rfl
@[simp] theorem State.setJob_job (j : JobState) : (s.setJob j).job = s.job := rfl
@[simp] theorem State.setJob_stks (j : JobState) : (s.setJob j).stks = s.stks := rfl
@[simp] theorem State.setJob_boards (j : JobState) : (s.setJob j).boards = s.boards := rfl
@[simp] theorem State.setJob_dram (j : JobState) : (s.setJob j).dram = s.dram := rfl
@[simp] theorem State.setJob_store (j : JobState) : (s.setJob j).store = s.store := rfl
@[simp] theorem State.setJob_ports (j : JobState) : (s.setJob j).ports = s.ports := rfl
@[simp] theorem State.setJob_fab (j : JobState) : (s.setJob j).fab = s.fab := rfl
@[simp] theorem State.setJob_log (j : JobState) : (s.setJob j).log = s.log := rfl
@[simp] theorem State.setJob_snap (j : JobState) : (s.setJob j).snap = s.snap := rfl
@[simp] theorem State.setJob_cnt (j : JobState) : (s.setJob j).cnt = s.cnt := rfl

@[simp] theorem State.modHalf_pending (h : Nat) (f : Half → Half) : (s.modHalf h f).pending = s.pending := rfl
@[simp] theorem State.modHalf_time (h : Nat) (f : Half → Half) : (s.modHalf h f).time = s.time := rfl
@[simp] theorem State.modHalf_fresh (h : Nat) (f : Half → Half) : (s.modHalf h f).fresh = s.fresh := rfl
@[simp] theorem State.modHalf_out (h : Nat) (f : Half → Half) : (s.modHalf h f).out = s.out := rfl
@[simp] theorem State.modHalf_ident (h : Nat) (f : Half → Half) : (s.modHalf h f).ident = s.ident := rfl
@[simp] theorem State.modHalf_regs (h : Nat) (f : Half → Half) : (s.modHalf h f).regs = s.regs := rfl
@[simp] theorem State.modHalf_blobs (h : Nat) (f : Half → Half) : (s.modHalf h f).blobs = s.blobs := rfl
@[simp] theorem State.modHalf_vers (h : Nat) (f : Half → Half) : (s.modHalf h f).vers = s.vers := rfl
@[simp] theorem State.modHalf_flash (h : Nat) (f : Half → Half) : (s.modHalf h f).flash = s.flash := rfl
@[simp] theorem State.modHalf_fw (h : Nat) (f : Half → Half) : (s.modHalf h f).fw = s.fw := rfl
@[simp] theorem State.modHalf_dev (h : Nat) (f : Half → Half) : (s.modHalf h f).dev = s.dev := rfl
@[simp] theorem State.modHalf_host (h : Nat) (f : Half → Half) : (s.modHalf h f).host = s.host := rfl
@[simp] theorem State.modHalf_paths (h : Nat) (f : Half → Half) : (s.modHalf h f).paths = s.paths := rfl
@[simp] theorem State.modHalf_can (h : Nat) (f : Half → Half) : (s.modHalf h f).can = s.can := rfl
@[simp] theorem State.modHalf_doms (h : Nat) (f : Half → Half) : (s.modHalf h f).doms = s.doms := rfl
@[simp] theorem State.modHalf_job (h : Nat) (f : Half → Half) : (s.modHalf h f).job = s.job := rfl
@[simp] theorem State.modHalf_stks (h : Nat) (f : Half → Half) : (s.modHalf h f).stks = s.stks := rfl
@[simp] theorem State.modHalf_boards (h : Nat) (f : Half → Half) : (s.modHalf h f).boards = s.boards := rfl
@[simp] theorem State.modHalf_dram (h : Nat) (f : Half → Half) : (s.modHalf h f).dram = s.dram := rfl
@[simp] theorem State.modHalf_store (h : Nat) (f : Half → Half) : (s.modHalf h f).store = s.store := rfl
@[simp] theorem State.modHalf_ports (h : Nat) (f : Half → Half) : (s.modHalf h f).ports = s.ports := rfl
@[simp] theorem State.modHalf_fab (h : Nat) (f : Half → Half) : (s.modHalf h f).fab = s.fab := rfl
@[simp] theorem State.modHalf_log (h : Nat) (f : Half → Half) : (s.modHalf h f).log = s.log := rfl
@[simp] theorem State.modHalf_snap (h : Nat) (f : Half → Half) : (s.modHalf h f).snap = s.snap := rfl
@[simp] theorem State.modHalf_cnt (h : Nat) (f : Half → Half) : (s.modHalf h f).cnt = s.cnt := rfl

@[simp] theorem State.draw_pending (n : Nat) : (s.draw n).2.pending = s.pending := rfl
@[simp] theorem State.draw_time (n : Nat) : (s.draw n).2.time = s.time := rfl
@[simp] theorem State.draw_out (n : Nat) : (s.draw n).2.out = s.out := rfl
@[simp] theorem State.draw_ident (n : Nat) : (s.draw n).2.ident = s.ident := rfl
@[simp] theorem State.draw_regs (n : Nat) : (s.draw n).2.regs = s.regs := rfl
@[simp] theorem State.draw_blobs (n : Nat) : (s.draw n).2.blobs = s.blobs := rfl
@[simp] theorem State.draw_vers (n : Nat) : (s.draw n).2.vers = s.vers := rfl
@[simp] theorem State.draw_flash (n : Nat) : (s.draw n).2.flash = s.flash := rfl
@[simp] theorem State.draw_fw (n : Nat) : (s.draw n).2.fw = s.fw := rfl
@[simp] theorem State.draw_dev (n : Nat) : (s.draw n).2.dev = s.dev := rfl
@[simp] theorem State.draw_host (n : Nat) : (s.draw n).2.host = s.host := rfl
@[simp] theorem State.draw_paths (n : Nat) : (s.draw n).2.paths = s.paths := rfl
@[simp] theorem State.draw_can (n : Nat) : (s.draw n).2.can = s.can := rfl
@[simp] theorem State.draw_pwr (n : Nat) : (s.draw n).2.pwr = s.pwr := rfl
@[simp] theorem State.draw_doms (n : Nat) : (s.draw n).2.doms = s.doms := rfl
@[simp] theorem State.draw_job (n : Nat) : (s.draw n).2.job = s.job := rfl
@[simp] theorem State.draw_stks (n : Nat) : (s.draw n).2.stks = s.stks := rfl
@[simp] theorem State.draw_boards (n : Nat) : (s.draw n).2.boards = s.boards := rfl
@[simp] theorem State.draw_dram (n : Nat) : (s.draw n).2.dram = s.dram := rfl
@[simp] theorem State.draw_store (n : Nat) : (s.draw n).2.store = s.store := rfl
@[simp] theorem State.draw_ports (n : Nat) : (s.draw n).2.ports = s.ports := rfl
@[simp] theorem State.draw_fab (n : Nat) : (s.draw n).2.fab = s.fab := rfl
@[simp] theorem State.draw_log (n : Nat) : (s.draw n).2.log = s.log := rfl
@[simp] theorem State.draw_snap (n : Nat) : (s.draw n).2.snap = s.snap := rfl
@[simp] theorem State.draw_cnt (n : Nat) : (s.draw n).2.cnt = s.cnt := rfl

@[simp] theorem State.emit_out (o : Out) : (s.emit o).out = o :: s.out := rfl
@[simp] theorem State.setJob_jobState (j : JobState) : (s.setJob j).dev.jobState = j := rfl
@[simp] theorem State.setJob_state (j : JobState) : (s.setJob j).dev.state = s.dev.state := rfl
@[simp] theorem State.draw_fresh (n : Nat) : (s.draw n).2.fresh = s.fresh + 1 := rfl
@[simp] theorem State.dramWrite_dram (a : Nat) (bs : List Byte) : (s.dramWrite a bs).dram = s.dram.write a bs := rfl
@[simp] theorem State.storeWrite_store (b a : Nat) (bs : List Byte) :
    (s.storeWrite b a bs).store = s.store.write (storeKey b a) bs := rfl

end

end Sys2Proof.Machine
end

