-- ==== Sys2Proof/Laws/Table.lean ====
section
/-!
SUPPORT. Laws/Table.lean: the laws of sparse tables and of byte memories: a read after a write, and the canonical form that every
memory operation keeps.
-/
namespace Sys2Proof.Machine

/-! ### Tables -/

theorem lookup_append {α : Type} (k : Nat) (a b : Tbl α) :
    List.lookup k (a ++ b) = (List.lookup k a).or (List.lookup k b) := by
  induction a with
  | nil => simp
  | cons e t ih =>
    obtain ⟨x, y⟩ := e
    by_cases h : k = x
    · simp [h]
    · have hb : (k == x) = false := by simpa using h
      simp [List.lookup_cons, hb, ih]

theorem lookup_filter_keep {α : Type} (p : Nat → Bool) (k : Nat) (t : Tbl α) (h : p k = true) :
    List.lookup k (t.filter (fun e => p e.1)) = List.lookup k t := by
  induction t with
  | nil => rfl
  | cons e t ih =>
    obtain ⟨x, y⟩ := e
    by_cases hx : k = x
    · subst hx; simp [h]
    · have hb : (k == x) = false := by simpa using hx
      by_cases hp : p x = true <;> simp [hp, List.lookup_cons, hb, ih]

theorem lookup_filter_drop {α : Type} (p : Nat → Bool) (k : Nat) (t : Tbl α) (h : p k = false) :
    List.lookup k (t.filter (fun e => p e.1)) = none := by
  induction t with
  | nil => rfl
  | cons e t ih =>
    obtain ⟨x, y⟩ := e
    by_cases hx : k = x
    · subst hx; simp [h, ih]
    · have hb : (k == x) = false := by simpa using hx
      by_cases hp : p x = true <;> simp [hp, List.lookup_cons, hb, ih]

@[simp] theorem tget_tset_self {α : Type} (t : Tbl α) (k : Nat) (v d : α) : tget (tset t k v) k d = v := by
  have h := lookup_filter_drop (fun x => decide (x < k)) k t (by simp)
  simp only [tget, tset, lookup_append, h, List.lookup_cons]
  simp

theorem tget_tset_of_ne {α : Type} (t : Tbl α) (k j : Nat) (v d : α) (h : j ≠ k) : tget (tset t k v) j d = tget t j d := by
  simp only [tget, tset, lookup_append, List.lookup_cons]
  rcases Nat.lt_or_gt_of_ne h with lt | gt
  · rw [lookup_filter_keep (fun x => decide (x < k)) j t (by simpa using lt),
      lookup_filter_drop (fun x => decide (k < x)) j t (by simp; omega)]
    have : (j == k) = false := by simpa using h
    simp [this]
  · rw [lookup_filter_drop (fun x => decide (x < k)) j t (by simp; omega),
      lookup_filter_keep (fun x => decide (k < x)) j t (by simpa using gt)]
    have : (j == k) = false := by simpa using h
    simp [this]

@[simp] theorem State.setDom_dom (s : State) (d : Nat) (x : Dom) : (s.setDom d x).dom d = x := by simp [State.dom, State.setDom]
@[simp] theorem State.setStack_stack (s : State) (k : Nat) (x : Stack) : (s.setStack k x).stack k = x := by
  simp [State.stack, State.setStack]
@[simp] theorem State.setBoard_board (s : State) (b : Nat) (x : Board) : (s.setBoard b x).board b = x := by
  simp [State.board, State.setBoard]
@[simp] theorem State.setPort_port (s : State) (p : Nat) (x : Port) : (s.setPort p x).port p = x := by
  simp [State.port, State.setPort]
@[simp] theorem State.modDom_dom (s : State) (d : Nat) (f : Dom → Dom) : (s.modDom d f).dom d = f (s.dom d) := by
  simp [State.modDom]
@[simp] theorem State.modBoard_board (s : State) (b : Nat) (f : Board → Board) : (s.modBoard b f).board b = f (s.board b) := by
  simp [State.modBoard]
@[simp] theorem State.modStack_stack (s : State) (k : Nat) (f : Stack → Stack) : (s.modStack k f).stack k = f (s.stack k) := by
  simp [State.modStack]
@[simp] theorem State.modPort_port (s : State) (p : Nat) (f : Port → Port) : (s.modPort p f).port p = f (s.port p) := by
  simp [State.modPort]

/-- Of two entries set for one key, the later stays. -/
theorem tset_tset {α : Type} (t : Tbl α) (k : Nat) (a b : α) : tset (tset t k a) k b = tset t k b := by
  unfold tset
  have e1 : t.filter (fun x => decide (x.1 < k) && decide (k < x.1)) = [] := by
    rw [List.filter_eq_nil_iff]; intro x _; simp; omega
  have e2 : t.filter (fun x => decide (k < x.1) && decide (x.1 < k)) = [] := by
    rw [List.filter_eq_nil_iff]; intro x _; simp; omega
  simp [List.filter_append, e1, e2]

theorem State.modDom_modDom (s : State) (d : Nat) (f g : Dom → Dom) : (s.modDom d f).modDom d g = s.modDom d (fun x => g (f x)) := by
  simp [State.modDom, State.setDom, State.dom, tset_tset]
theorem State.modBoard_modBoard (s : State) (b : Nat) (f g : Board → Board) :
    (s.modBoard b f).modBoard b g = s.modBoard b (fun x => g (f x)) := by
  simp [State.modBoard, State.setBoard, State.board, tset_tset]
theorem State.modStack_modStack (s : State) (k : Nat) (f g : Stack → Stack) :
    (s.modStack k f).modStack k g = s.modStack k (fun x => g (f x)) := by
  simp [State.modStack, State.setStack, State.stack, tset_tset]
theorem State.modPort_modPort (s : State) (p : Nat) (f g : Port → Port) :
    (s.modPort p f).modPort p g = s.modPort p (fun x => g (f x)) := by
  simp [State.modPort, State.setPort, State.port, tset_tset]

theorem State.modDom_dom_of_ne (s : State) (d e : Nat) (f : Dom → Dom) (h : e ≠ d) : (s.modDom d f).dom e = s.dom e := by
  simp [State.modDom, State.setDom, State.dom, tget_tset_of_ne _ _ _ _ _ h]

theorem State.modBoard_board_of_ne (s : State) (b c : Nat) (f : Board → Board) (h : c ≠ b) :
    (s.modBoard b f).board c = s.board c := by
  simp [State.modBoard, State.setBoard, State.board, tget_tset_of_ne _ _ _ _ _ h]

theorem State.modStack_stack_of_ne (s : State) (b c : Nat) (f : Stack → Stack) (h : c ≠ b) :
    (s.modStack b f).stack c = s.stack c := by
  simp [State.modStack, State.setStack, State.stack, tget_tset_of_ne _ _ _ _ _ h]

/-- A register reads as what was written to it. -/
@[simp] theorem State.wr_rd (s : State) (r : Reg) (v u : Nat) : (s.wr r v u).rd r u = v := by
  simp [State.rd, State.wr]

theorem State.wr_rd_of_ne (s : State) (r q : Reg) (v u w : Nat) (h : q.key w ≠ r.key u) : (s.wr r v u).rd q w = s.rd q w := by
  simp [State.rd, State.wr, tget_tset_of_ne _ _ _ _ _ h]

/-! ### Memories -/

/-- Strictly rising addresses, each with a byte that an unlisted address does not read as. -/
def Mem.canon (m : Mem) : Prop := m.Pairwise (fun e f => e.1 < f.1) ∧ ∀ e ∈ m, e.2 ≠ Mem.blank

theorem Mem.canon_cons (e : Host.Cell) (m : Mem) :
    Mem.canon (e :: m) ↔ (∀ f ∈ m, e.1 < f.1) ∧ e.2 ≠ Mem.blank ∧ Mem.canon m := by
  simp only [Mem.canon, List.pairwise_cons, List.mem_cons, forall_eq_or_imp]
  tauto

theorem Mem.wf_iff (m : Mem) : m.wf = true ↔ m.canon := by
  induction m with
  | nil => simp [Mem.wf, Mem.canon]
  | cons e m ih =>
    rw [Mem.canon_cons]
    cases m with
    | nil => simp [Mem.wf, Mem.canon]
    | cons f m =>
      simp only [Mem.wf, Bool.and_eq_true, bne_iff_ne, decide_eq_true_eq, ih]
      constructor
      · rintro ⟨⟨h1, h2⟩, h3⟩
        refine ⟨?_, h1, h3⟩
        intro g hg
        rcases List.mem_cons.1 hg with rfl | hg
        · exact h2
        · exact lt_trans h2 ((Mem.canon_cons f m).1 h3 |>.1 g hg)
      · rintro ⟨h1, h2, h3⟩
        exact ⟨⟨h2, h1 f (by simp)⟩, h3⟩

theorem Mem.cells_mem (a : Nat) (bs : List Byte) :
    ∀ e ∈ Mem.cells a bs, a ≤ e.1 ∧ e.1 < a + bs.length ∧ e.2 ≠ Mem.blank := by
  induction bs generalizing a with
  | nil => simp [Mem.cells]
  | cons b bs ih =>
    intro e he
    unfold Mem.cells at he
    split at he
    · obtain ⟨h1, h2, h3⟩ := ih (a + 1) e he
      exact ⟨by omega, by simp; omega, h3⟩
    · rename_i hb
      rcases List.mem_cons.1 he with rfl | he
      · exact ⟨by simp, by simp, hb⟩
      · obtain ⟨h1, h2, h3⟩ := ih (a + 1) e he
        exact ⟨by omega, by simp; omega, h3⟩

theorem Mem.cells_canon (a : Nat) (bs : List Byte) : (Mem.cells a bs).canon := by
  refine ⟨?_, fun e he => (Mem.cells_mem a bs e he).2.2⟩
  induction bs generalizing a with
  | nil => simp [Mem.cells]
  | cons b bs ih =>
    unfold Mem.cells
    split
    · exact ih (a + 1)
    · exact List.pairwise_cons.2 ⟨fun e he => by have := (Mem.cells_mem (a + 1) bs e he).1; simp; omega, ih (a + 1)⟩

theorem Mem.canon_filter (m : Mem) (p : Host.Cell → Bool) (h : m.canon) : Mem.canon (m.filter p) :=
  ⟨h.1.filter p, fun e he => h.2 e (List.mem_of_mem_filter he)⟩

/-- A write keeps the canonical form. -/
theorem Mem.write_wf (m : Mem) (a : Nat) (bs : List Byte) (h : m.wf = true) : (m.write a bs).wf = true := by
  rw [Mem.wf_iff] at h ⊢
  refine ⟨?_, ?_⟩
  · unfold Mem.write
    rw [List.pairwise_append, List.pairwise_append]
    refine ⟨⟨(h.1.filter _), (Mem.cells_canon a bs).1, ?_⟩, h.1.filter _, ?_⟩
    · intro e he f hf
      have := (Mem.cells_mem a bs f hf).1
      have h2 := (List.mem_filter.1 he).2
      simp at h2
      omega
    · intro e he f hf
      have h2 := (List.mem_filter.1 hf).2
      simp at h2
      rcases List.mem_append.1 he with he | he
      · have h3 := (List.mem_filter.1 he).2
        simp at h3
        omega
      · have := (Mem.cells_mem a bs e he).2.1
        omega
  · intro e he
    unfold Mem.write at he
    rcases List.mem_append.1 he with he | he
    · rcases List.mem_append.1 he with he | he
      · exact h.2 e (List.mem_of_mem_filter he)
      · exact (Mem.cells_mem a bs e he).2.2
    · exact h.2 e (List.mem_of_mem_filter he)

/-- A cleared range keeps the canonical form. -/
theorem Mem.clear_wf (m : Mem) (a n : Nat) (h : m.wf = true) : (m.clear a n).wf = true := by
  rw [Mem.wf_iff] at h ⊢
  exact Mem.canon_filter m _ h

theorem Mem.cells_lookup (a : Nat) (bs : List Byte) (x : Nat) :
    (List.lookup x (Mem.cells a bs)).getD Mem.blank = if a ≤ x then bs.getD (x - a) Mem.blank else Mem.blank := by
  induction bs generalizing a with
  | nil => simp [Mem.cells]
  | cons b bs ih =>
    unfold Mem.cells
    by_cases hb : b = Mem.blank
    · rw [if_pos hb, ih]
      by_cases h : a = x
      · subst h; simp [hb]
      · by_cases h2 : a ≤ x
        · have : x - a = (x - (a + 1)) + 1 := by omega
          rw [if_pos (by omega), if_pos h2, this]; simp
        · rw [if_neg (by omega), if_neg h2]
    · rw [if_neg hb, List.lookup_cons]
      by_cases h : x = a
      · subst h; simp
      · have hne : (x == a) = false := by simpa using h
        rw [hne]
        simp only [ih]
        by_cases h2 : a ≤ x
        · have : x - a = (x - (a + 1)) + 1 := by omega
          rw [if_pos (by omega), if_pos h2, this]; simp
        · rw [if_neg (by omega), if_neg h2]

theorem Mem.lookup_cells_outside (a : Nat) (bs : List Byte) (x : Nat) (h : x < a ∨ a + bs.length ≤ x) :
    List.lookup x (Mem.cells a bs) = none := by
  rw [List.lookup_eq_none_iff]
  intro e he
  have h1 := Mem.cells_mem a bs e he
  simp only [bne_iff_ne, ne_eq]
  omega

/-- A read after a write: the bytes written, and every other byte as before. -/
theorem Mem.get_write (m : Mem) (a : Nat) (bs : List Byte) (x : Nat) :
    (m.write a bs).get x = if a ≤ x ∧ x < a + bs.length then bs.getD (x - a) Mem.blank else m.get x := by
  unfold Mem.get Mem.write
  rw [lookup_append, lookup_append]
  by_cases h : a ≤ x ∧ x < a + bs.length
  · rw [if_pos h, lookup_filter_drop (fun y => decide (y < a)) x m (by simp; omega),
      lookup_filter_drop (fun y => decide (a + bs.length ≤ y)) x m (by simp; omega)]
    have := Mem.cells_lookup a bs x
    rw [if_pos h.1] at this
    simpa using this
  · rw [if_neg h, Mem.lookup_cells_outside a bs x (by omega)]
    rcases Nat.lt_or_ge x a with lt | ge
    · rw [lookup_filter_keep (fun y => decide (y < a)) x m (by simpa using lt),
        lookup_filter_drop (fun y => decide (a + bs.length ≤ y)) x m (by simp; omega)]
      simp
    · rw [lookup_filter_drop (fun y => decide (y < a)) x m (by simp; omega),
        lookup_filter_keep (fun y => decide (a + bs.length ≤ y)) x m (by simp; omega)]
      simp

end Sys2Proof.Machine
end

