-- ==== Sys2Proof/Laws/Ops.lean ====
section
/-!
SUPPORT. Laws/Ops.lean: what each shared operation can do, said once: reports and packets (causes, fault records, answers), counts, writes
to stacks and stores, semaphores, halts, buffers of a link, the turn of a bundle, and the read rule.
-/
namespace Sys2Proof.Machine

/-! ### Reports: causes, the fault log, packets and frames that leave -/

/-- t is s but for its registers, versions, flash, host link, field bus, fault log, and what has been sent. -/
def Reports (s t : State) : Prop :=
  t = { s with regs := t.regs, vers := t.vers, flash := t.flash, host := t.host, can := t.can, log := t.log, out := t.out }

theorem Reports.refl (s : State) : Reports s s := rfl

theorem Reports.trans {r s t : State} (h : Reports r s) (k : Reports s t) : Reports r t := by
  unfold Reports at *
  rw [h] at k
  exact k

theorem reports_emit (o : Out) (s : State) : Reports s (s.emit o) := rfl

theorem reports_wr (r : Reg) (v u : Nat) (s : State) : Reports s (s.wr r v u) := rfl

theorem reports_send (p : Pkt) (s : State) : Reports s (s.send p) := reports_emit _ s

theorem reports_bump (r : Reg) (u : Nat) (s : State) : Reports s (s.bump r u) := rfl

theorem reports_forEach {α : Type} (l : List α) (f : α → State → State) (h : ∀ a s, Reports s (f a s)) (s : State) :
    Reports s (forEach l f s) := by
  unfold forEach
  induction l generalizing s with
  | nil => exact .refl s
  | cons a l ih => exact (h a s).trans (ih (f a s))

theorem reports_canNotify (bs : List Byte) (s : State) : Reports s (canNotify s bs) := by
  unfold canNotify
  split
  · exact .refl s
  · split
    · dsimp only
      split <;> exact rfl
    · exact reports_emit _ s

theorem reports_fabricNotify (bs : List Byte) (s : State) : Reports s (fabricNotify s bs) := by
  unfold fabricNotify
  split
  · exact .refl s
  · exact reports_send _ s

theorem reports_report (c v d q : Nat) (s : State) : Reports s (report s c v d q) := by
  unfold report
  split
  · exact .refl s
  · have h : Reports s (if testBit (s.rd .notifyMaskCan) v then canNotify s (notifyBytes s c v d q) else s) := by
      split
      · exact reports_canNotify _ s
      · exact .refl s
    refine h.trans ?_
    dsimp only
    generalize (if testBit (s.rd .notifyMaskCan) v then canNotify s (notifyBytes s c v d q) else s) = u
    split
    · exact reports_fabricNotify _ _
    · exact .refl _

/-- A vector changes the pending bits, or what leaves the module. -/
theorem reports_vector (v : Nat) (s : State) : Reports s (s.vector v) := by
  unfold State.vector
  split <;> exact rfl

/-- A cause changes nothing but IRQ_CAUSE, the pending bits and what leaves the module. -/
theorem reports_signal (v c d q : Nat) (s : State) : Reports s (s.signal v c d q) := by
  have h : ∀ w, Reports s { s with host := { s.host with irqCause := w } } := fun _ => rfl
  unfold State.signal
  exact ((h _).trans (reports_vector ..)).trans (reports_report ..)

theorem reports_domCause (d b : Nat) (s : State) : Reports s (s.domCause d b) := (reports_wr ..).trans (reports_vector ..)

theorem reports_logFault (f : Flt) (s : State) : Reports s (logFault s f).1 := by
  unfold logFault
  split
  · exact rfl
  · split
    · exact reports_wr ..
    · exact rfl

/-- A report of a fault changes nothing but its record, the causes, and what leaves the module. -/
theorem reports_reportFault (f : Flt) (s : State) : Reports s (reportFault f s) := by
  unfold reportFault
  have h := ((reports_logFault f s).trans (reports_signal 1 f.code (f.domain.getD 0xFF) (logFault s f).2 _)).trans
    (reports_forEach (alsoVectors f.code) (fun v u => u.signal v f.code (f.domain.getD 0xFF) (logFault s f).2)
      (fun _ _ => reports_signal ..) _)
  dsimp only
  split
  · exact h.trans (reports_domCause ..)
  · exact h

/-- A fault whose record does not wait for a control core is reported at once (R285). -/
theorem raise_reported {f : Flt} {s : State} (h : s.recordWaits f = false) : s.raise f = reportFault f s := by
  simp [State.raise, h]

/-- The record of a fault of no Board waits for no control core. -/
theorem recordWaits_none {f : Flt} (h : f.board = none) (s : State) : s.recordWaits f = false := by
  simp [State.recordWaits, h]

/-- A fault that waits is held by its Board, and changes nothing else. -/
theorem raise_waits {f : Flt} {s : State} (h : s.recordWaits f = true) :
    s.raise f = s.modBoard (f.board.getD 0) (fun x => { x with loadWaits := x.loadWaits ++ [.fault f] }) := by
  simp [State.raise, h]

theorem reports_raise {f : Flt} (h : f.board = none) (s : State) : Reports s (s.raise f) := by
  rw [raise_reported (recordWaits_none h s)]
  exact reports_reportFault f s

theorem reports_answer (p : Pkt) (op : Nat) (bs : List Byte) (s : State) : Reports s (answer p op bs s) := reports_send _ s

theorem reports_sendErr (p : Pkt) (c : Nat) (s : State) : Reports s (sendErr p c s) := by
  unfold sendErr
  split
  · exact .refl s
  · exact (reports_bump ..).trans (reports_answer ..)

/-- A rejected packet changes nothing but reports. -/
theorem reports_rejectPkt (p : Pkt) (c : Nat) (s : State) : Reports s (rejectPkt p c s) :=
  (reports_raise rfl _).trans (reports_sendErr ..)

/-! ### Causes -/

theorem canNotify_host (bs : List Byte) (s : State) : (canNotify s bs).host = s.host := by
  unfold canNotify
  split
  · rfl
  · split
    · dsimp only
      split <;> rfl
    · rfl

theorem report_host (c v d q : Nat) (s : State) : (report s c v d q).host = s.host := by
  unfold report
  split
  · rfl
  · dsimp only
    have h : (if testBit (s.rd .notifyMaskCan) v then canNotify s (notifyBytes s c v d q) else s).host = s.host := by
      split
      · exact canNotify_host _ s
      · rfl
    generalize (if testBit (s.rd .notifyMaskCan) v then canNotify s (notifyBytes s c v d q) else s) = u at h
    unfold fabricNotify
    split
    · split <;> exact h
    · exact h

theorem vector_irqCause (v : Nat) (s : State) : (s.vector v).host.irqCause = s.host.irqCause := by
  unfold State.vector
  split <;> rfl

/-- A cause sets the bit of its vector and no other (R259). -/
theorem signal_irqCause (v c d q : Nat) (s : State) :
    (s.signal v c d q).host.irqCause = s.host.irqCause ||| BitVec.ofNat 64 (2 ^ v) := by
  unfold State.signal
  rw [report_host, vector_irqCause]

theorem logFault_host (f : Flt) (s : State) : (logFault s f).1.host = s.host := by
  unfold logFault
  split
  · rfl
  · split <;> rfl

/-- Bits of IRQ_CAUSE stay set while causes rise. -/
theorem forEach_signal_irqCause (vs : List Nat) (c d q i : Nat) (s : State) (h : s.host.irqCause.getLsbD i = true) :
    (forEach vs (fun v s => s.signal v c d q) s).host.irqCause.getLsbD i = true := by
  unfold forEach
  induction vs generalizing s with
  | nil => exact h
  | cons v vs ih => exact ih _ (by rw [signal_irqCause]; simp [h])

theorem domCause_irqCause (d b : Nat) (s : State) : (s.domCause d b).host.irqCause = s.host.irqCause := by
  unfold State.domCause
  rw [vector_irqCause]
  rfl

/-- Every fault that is reported is a cause of vector 1 (R328). -/
theorem reportFault_irqCause (f : Flt) (s : State) : (reportFault f s).host.irqCause.getLsbD 1 = true := by
  unfold reportFault
  have h := forEach_signal_irqCause (alsoVectors f.code) f.code (f.domain.getD 0xFF) (logFault s f).2 1
    ((logFault s f).1.signal 1 f.code (f.domain.getD 0xFF) (logFault s f).2) (by rw [signal_irqCause]; simp)
  dsimp only
  split
  · rw [domCause_irqCause]; exact h
  · exact h

/-! ### Packets at their Board (R21, R208, R210, Table 01-5) -/

/-- What a packet of an opcode meets: it is not for this command or module, it is dropped before the module has its number, it is
rejected for its form or its Board, or it is delivered. -/
theorem deliver_cases (op : Nat) (p : Pkt) (f : Nat → State → State) (s : State) :
    (deliver op p f s = s ∧ (p.opcode ≠ op ∨ s.powered = false ∨ (s.device ≠ 0xFFFF ∧ p.dest / 16 ≠ s.device)))
    ∨ (deliver op p f s = dropPkt s ∧ s.device = 0xFFFF)
    ∨ (deliver op p f s = rejectPkt p 0x0606 s ∧ pktOk p = false)
    ∨ (deliver op p f s = rejectPkt p 0x060A s ∧ s.boardOk (p.dest % 16) = false)
    ∨ (deliver op p f s = f (p.dest % 16) s ∧ p.opcode = op ∧ s.powered = true ∧ s.device ≠ 0xFFFF ∧ p.dest / 16 = s.device
        ∧ pktOk p = true ∧ s.boardOk (p.dest % 16) = true) := by
  unfold deliver
  by_cases h1 : p.opcode = op
  · cases h2 : s.powered
    · exact .inl ⟨by simp, .inr (.inl rfl)⟩
    · by_cases h3 : s.device = 0xFFFF
      · exact .inr (.inl ⟨by simp [h1, h3], h3⟩)
      · by_cases h4 : p.dest / 16 = s.device
        · cases h5 : pktOk p
          · exact .inr (.inr (.inl ⟨by simp [h1, h3, h4], rfl⟩))
          · cases h6 : s.boardOk (p.dest % 16)
            · exact .inr (.inr (.inr (.inl ⟨by simp [h1, h3, h4], rfl⟩)))
            · exact .inr (.inr (.inr (.inr ⟨by simp [h1, h3, h4], h1, rfl, h3, h4, rfl, rfl⟩)))
        · exact .inl ⟨by simp [h1, h3, h4], .inr (.inr ⟨h3, h4⟩)⟩
  · exact .inl ⟨by simp [h1], .inl h1⟩

/-! ### Counts and memory -/

/-- A block counter changes the counters alone. -/
theorem countBlock_frame (id n : Nat) (s : State) : countBlock id n s = { s with cnt := (countBlock id n s).cnt } := by
  unfold countBlock
  split <;> rfl

theorem countLines_frame (k a n : Nat) (s : State) : countLines k a n s = { s with cnt := (countLines k a n s).cnt } := by
  unfold countLines forEach
  dsimp only
  generalize List.range 32 = l
  induction l generalizing s with
  | nil => rfl
  | cons c l ih =>
    rw [List.foldl_cons, ih, countBlock_frame]

/-- A write to a stack writes its bytes, counts its lines, and clears the marks of lines written whole (R167). -/
theorem stackWrite_frame (a : Nat) (bs : List Byte) (s : State) :
    s.stackWrite a bs = { s with
      dram := s.dram.write a bs, stks := (s.stackWrite a bs).stks, cnt := (s.stackWrite a bs).cnt } := by
  unfold State.stackWrite
  rw [countLines_frame]
  rfl

/-- t is s but for its Boards and what a report may change. -/
def Probes (s t : State) : Prop :=
  t = { s with boards := t.boards, regs := t.regs, vers := t.vers, flash := t.flash, host := t.host, can := t.can, log := t.log
               out := t.out }

theorem Probes.refl (s : State) : Probes s s := rfl

theorem Probes.trans {r s t : State} (h : Probes r s) (k : Probes s t) : Probes r t := by
  unfold Probes at *
  rw [h] at k
  exact k

theorem Reports.probes {s t : State} (h : Reports s t) : Probes s t := by
  unfold Probes Reports at *
  rw [h]

theorem probes_forEach {α : Type} (l : List α) (f : α → State → State) (h : ∀ a s, Probes s (f a s)) (s : State) :
    Probes s (forEach l f s) := by
  unfold forEach
  induction l generalizing s with
  | nil => exact .refl s
  | cons a l ih => exact (h a s).trans (ih (f a s))

/-- An event that a Board's counters count changes that Board, and reports a counter that saturates. -/
theorem probes_countEvent (b ev : Nat) (d f : Option Nat) (n : Nat) (s : State) : Probes s (countEvent b ev d f n s) := by
  unfold countEvent
  split
  · exact .refl s
  · refine probes_forEach _ _ (fun k u => ?_) s
    dsimp only
    split
    · split
      · exact .trans (s := u.modBoard b _) rfl (reports_signal ..).probes
      · rfl
    · exact .refl u

/-- A write to a Board's store writes its bytes, clears the marks of words written whole (R100) and is counted. -/
theorem boardWrite_frame (b a : Nat) (bs : List Byte) (s : State) :
    Probes { s with store := s.store.write (storeKey b a) bs } (boardWrite b a bs s) :=
  .trans (s := putStore b a bs s) rfl (probes_countEvent ..)

theorem boardWrite_store (b a : Nat) (bs : List Byte) (s : State) :
    (boardWrite b a bs s).store = s.store.write (storeKey b a) bs := by
  rw [boardWrite_frame b a bs s]

/-- No byte outside a stack write changes. -/
theorem stackWrite_get (a : Nat) (bs : List Byte) (s : State) (x : Nat) (h : x < a ∨ a + bs.length ≤ x) :
    (s.stackWrite a bs).dram.get x = s.dram.get x := by
  rw [stackWrite_frame]
  rw [Mem.get_write]
  simp
  omega

/-! ### What leaves by a port (R204, R207, R214) -/

/-- t is s but for its ports, its fabric state, its counters, and what a report may change. -/
def Sends (s t : State) : Prop :=
  t = { s with ports := t.ports, fab := t.fab, cnt := t.cnt, regs := t.regs, vers := t.vers, flash := t.flash, host := t.host,
               can := t.can, log := t.log, out := t.out }

theorem Sends.refl (s : State) : Sends s s := rfl

theorem Sends.trans {r s t : State} (h : Sends r s) (k : Sends s t) : Sends r t := by
  unfold Sends at *
  rw [h] at k
  exact k

theorem Reports.sends {s t : State} (h : Reports s t) : Sends s t := by
  unfold Sends Reports at *
  rw [h]

theorem sends_forEach {α : Type} (l : List α) (f : α → State → State) (h : ∀ a s, Sends s (f a s)) (s : State) :
    Sends s (forEach l f s) := by
  unfold forEach
  induction l generalizing s with
  | nil => exact .refl s
  | cons a l ih => exact (h a s).trans (ih (f a s))

theorem sends_countBlock (id n : Nat) (s : State) : Sends s (countBlock id n s) := by
  unfold Sends
  rw [countBlock_frame]

theorem sends_countRoute (p q : MeshPos) (n : Nat) (s : State) : Sends s (countRoute p q n s) :=
  sends_forEach _ _ (fun _ _ => sends_countBlock ..) s

theorem sends_flushLink (p n : Nat) (s : State) : Sends s (flushLink p n s) := by
  induction n generalizing s with
  | zero => rfl
  | succ n ih =>
    unfold flushLink
    dsimp only
    split
    · rfl
    · exact .trans (by rfl) (ih _)

theorem sends_leaveRx (a : Option Nat) (pool n : Nat) (s : State) : Sends s (leaveRx a pool n s) := by
  unfold leaveRx
  cases a with
  | none => rfl
  | some p =>
    dsimp only
    split
    · rfl
    · split
      · exact .trans (by rfl) (sends_flushLink ..)
      · rfl

/-- A packet's transmission begins: it leaves its queue, or its hold slot. -/
theorem sends_startPacket (p : Nat) (c : Cand) (s : State) : Sends s (startPacket p c s) := by
  unfold startPacket
  cases c.held with
  | none => rfl
  | some h => exact .trans (.trans (by rfl) (sends_countRoute ..)) (reports_emit ..).sends

theorem sends_sendFlit (p : Nat) (c : Cand) (s : State) : Sends s (sendFlit p c s) := by
  have h : Sends s (if c.next = 0 then startPacket p c s else s) := by
    split
    · exact sends_startPacket ..
    · rfl
  unfold sendFlit
  dsimp only
  generalize (if c.next = 0 then startPacket p c s else s) = u at h ⊢
  have k : ∀ (x : Port) (bs : List Byte), Sends s (countBlock (4 * p) 1 ((u.setPort p x).emit (.flit p bs))) := fun x bs =>
    h.trans (.trans (s := (u.setPort p x).emit (.flit p bs)) rfl (sends_countBlock ..))
  split
  · exact (k _ _).trans (sends_leaveRx ..)
  · exact k _ _

theorem sends_drainPort (p n : Nat) (s : State) : Sends s (drainPort p n s) := by
  induction n generalizing s with
  | zero => rfl
  | succ n ih =>
    unfold drainPort
    split
    · exact sends_flushLink ..
    · exact (sends_sendFlit ..).trans (ih _)

theorem sends_transmitFrom (q : Queued) (p : Nat) (s : State) : Sends s (transmitFrom q p s) := by
  unfold transmitFrom
  split
  · exact .trans (s := s.modPort p _) rfl (sends_drainPort ..)
  · exact sends_leaveRx ..

theorem sends_directTo (a : Option Nat) (q : Nat) (k : Pkt) (s : State) : Sends s (directTo a q k s) := by
  unfold directTo
  split
  · exact sends_transmitFrom ..
  · exact (reports_raise rfl s).sends.trans (sends_leaveRx ..)

/-! ### Semaphores and halts (R114, R150) -/

/-- A signal adds to its semaphore, and fetch runs that waited for it go on; or it overflows and halts the Board with the count unchanged. -/
theorem signalSem_cases (b k n : Nat) (s : State) :
    (n = 0 ∧ signalSem b k n s = s)
    ∨ (65535 < (s.board b).sem k + n ∧ signalSem b k n s = semOverflow b s)
    ∨ ((s.board b).sem k + n ≤ 65535 ∧ signalSem b k n s
        = resumeFills b false k (touch (s.modBoard b (fun x => x.setSem k (x.sem k + n))) b)) := by
  unfold signalSem
  by_cases h : n = 0
  · exact .inl ⟨h, by simp [h]⟩
  · by_cases g : 65535 < (s.board b).sem k + n
    · exact .inr (.inl ⟨g, by simp [h, g]⟩)
    · exact .inr (.inr ⟨by omega, by simp [h, g]⟩)

/-- A halt changes its Board alone, and asks for the halt. -/
theorem haltBoard_frame (b : Nat) (f : Flt) (s : State) :
    haltBoard b f s = { s with boards := (haltBoard b f s).boards } ∧ ((haltBoard b f s).board b).halt ≠ .none
      ∧ ∀ c, c ≠ b → (haltBoard b f s).board c = s.board c := by
  refine ⟨rfl, ?_, fun c h => State.modBoard_board_of_ne s b c _ h⟩
  unfold haltBoard
  rw [State.modBoard_board]
  dsimp only
  cases (s.board b).halt <;> simp

/-! ### Buffers of a link (R115, R118) -/

/-- A producer takes a buffer of an active link of its epoch. -/
theorem takeEmpty_some {b l e h : Nat} {s t : State} (k : takeEmpty b l e s = some (h, t)) :
    (((s.board b).activate l e).link l).state = 1 ∧ (((s.board b).activate l e).link l).epoch = e := by
  unfold takeEmpty at k
  dsimp only at k
  split at k
  · cases k
  · rename_i g
    simpa using g

/-- A consumer takes a buffer of an active link. -/
theorem takeFull_some {b l h : Nat} {s t : State} (k : takeFull b l s = some (h, t)) : ((s.board b).link l).state = 1 := by
  unfold takeFull at k
  dsimp only at k
  split at k
  · cases k
  · rename_i g
    simpa using g

/-! ### The turn of a bundle (R136) -/

/-- The turn of a bundle under issue: its next action, or nobody's. -/
theorem turn_issued {b : Nat} {st : StreamSel} {a op : Nat} {s : State} {i : Issue} (h : ((s.board b).strm st).issue = some i) :
    turn b st a op s = if isAct ((s.board b).strm st).groups i.acts a op then .act i s else .none := by
  simp [turn, h]

theorem act_of_ite {p : Prop} [Decidable p] {i : Issue} {t : State} {x y : Turn} (hy : y ≠ .act i t)
    (h : (if p then y else x) = .act i t) : ¬p ∧ x = .act i t := by
  by_cases g : p
  · exact absurd ((if_pos g).symm.trans h) hy
  · exact ⟨g, (if_neg g).symm.trans h⟩

/-- What a stream without a bundle under issue needs for its next bundle to issue. -/
def nextMay (s : State) (b : Nat) (st : StreamSel) (d : Nat) : Prop :=
  streamLive s b st = true ∧ stepFor s (s.board b) (nextBundle (s.board b) st) = some d
    ∧ mayIssue s b st (nextBundle (s.board b) st) d = true
    ∧ namesRetired s b (nextBundle (s.board b) st) ((s.board b).strm st) = false

/-- An action whose turn it is belongs to the bundle under issue, or to the next bundle, which issues: its conditions hold, no Frame
that it names is retired, and the state is that after its issue. -/
theorem turn_act {b : Nat} {st : StreamSel} {a op : Nat} {s t : State} {i : Issue} (h : turn b st a op s = .act i t) :
    (((s.board b).strm st).issue = some i ∧ isAct ((s.board b).strm st).groups i.acts a op = true ∧ t = s)
    ∨ (((s.board b).strm st).issue = none ∧ ∃ d, nextMay s b st d ∧ t = beginIssue b st (nextBundle (s.board b) st) d s
        ∧ ((t.board b).strm st).issue = some i) := by
  cases hj : ((s.board b).strm st).issue with
  | some j =>
    rw [turn_issued hj] at h
    by_cases g : isAct ((s.board b).strm st).groups j.acts a op = true
    · simp only [g, if_true, Turn.act.injEq] at h
      exact .inl ⟨congrArg some h.1, h.1 ▸ g, h.2.symm⟩
    · simp [g] at h
  | none =>
    refine .inr ⟨rfl, ?_⟩
    simp only [turn, hj] at h
    obtain ⟨live, h⟩ := act_of_ite (by simp) h
    cases hd : stepFor s (s.board b) (nextBundle (s.board b) st) with
    | none => simp [hd] at h
    | some d =>
      simp only [hd] at h
      obtain ⟨may, h⟩ := act_of_ite (by simp) h
      obtain ⟨named, h⟩ := act_of_ite (by simp) h
      refine ⟨d, ⟨by simp at live; exact live.1.1.1, hd, by simpa using may, by simpa using named⟩, ?_⟩
      generalize beginIssue b st (nextBundle (s.board b) st) d s = u at h ⊢
      cases hk : ((u.board b).strm st).issue with
      | none => simp [hk] at h
      | some k =>
        simp only [hk, Turn.act.injEq] at h
        exact ⟨h.2.symm, by rw [← h.2, hk, h.1]⟩

/-- A command that acts on a turn: its action and the end of the bundle's issue, the halt of Table 06-3, or nothing. -/
theorem onTurn_cases (b : BoardNo) (st : StreamSel) (a op : Nat) (f : Issue → State → State) (s : State) :
    (∃ i t, turn b.val st a op s = .act i t ∧ onTurn b st a op f s = .next (popAct b.val st (f i t)))
    ∨ (∃ t, turn b.val st a op s = .halted t ∧ onTurn b st a op f s = .next t)
    ∨ (turn b.val st a op s = .none ∧ onTurn b st a op f s = .next s) := by
  unfold onTurn
  cases turn b.val st a op s with
  | act i t => exact .inl ⟨i, t, rfl, rfl⟩
  | halted t => exact .inr (.inl ⟨t, rfl, rfl⟩)
  | none => exact .inr (.inr ⟨rfl, rfl⟩)

/-! ### The read rule (R171) -/

/-- A read is given the committed plane, whatever its tag. -/
theorem resolveRead_plane {v : VRec} {ds : DReg} {g : Nat} {p : Bool} (h : resolveRead v ds g = .plane p) :
    p = committedPlane v ds ∧ ((ds.isOpen = true ∧ g = ds.openTag) ∨ (ds.isOpen = false ∧ ds.committedTag < g)) := by
  unfold resolveRead at h
  split at h
  · rename_i c
    simp only [Bool.and_eq_true, beq_iff_eq] at c
    cases h
    exact ⟨rfl, .inl c⟩
  · split at h
    · cases h
    · split at h
      · rename_i c
        simp only [Bool.and_eq_true, Bool.not_eq_eq_eq_not, Bool.not_true, decide_eq_true_eq] at c
        cases h
        exact ⟨rfl, .inr c⟩
      · cases h

/-- The plane that the Reckoner writes is not the one that is read (R172). -/
theorem committedPlane_open (v : VRec) (ds : DReg) (h : v.dirty = true) (g : ds.settling = false) :
    committedPlane v ds = !v.p := by
  simp [committedPlane, h, g]

end Sys2Proof.Machine
end

