-- ==== Sys2Proof/Laws/Access.lean ====
section
/-!
SUPPORT. Laws/Access.lean: what the shared operations of the dictionary can do: a response changes the answering path alone, an
accepted write is its entry's rule with the response OK, and a refused one changes no entry.
-/
namespace Sys2Proof.Machine

/-- Signalling vector 0 sets its bit, and its message is sent or becomes pending; it is reported on no other path. -/
theorem signal_zero (s : State) :
    s.signal 0 = { s with host := (s.signal 0).host, out := (s.signal 0).out } := by
  unfold State.signal State.vector
  dsimp only
  split <;> rfl

/-- A response changes what leaves the module, and what holds it: the mailbox, the field bus's held responses, a port. -/
theorem respond_frame (c : Client) (bs : List Byte) (s : State) : Sends s (respond c bs s) := by
  unfold respond
  split
  · unfold mailboxDone
    dsimp only
    split
    · unfold Sends
      rw [signal_zero]
    · rfl
  · unfold canRespond
    dsimp only
    split
    · rfl
    · split <;> rfl
  · split
    · exact sends_directTo ..
    · exact (reports_send ..).sends

theorem unitOf_unstaged (v : Via) (s : State) (p : Path) (r : Reg) (i : Nat) : unitOf (unstaged v s) p r i = unitOf s p r i := by
  obtain ⟨p', t, u⟩ := v
  cases p' <;> rfl

theorem writeStatus_unstaged (v : Via) (s : State) (p : Path) (r : Reg) (u : Nat) (bs : List Byte) :
    writeStatus (unstaged v s) p r u bs = writeStatus s p r u bs := by
  obtain ⟨p', t, w⟩ := v
  cases p' <;> rfl

/-- An accepted write whose entry's rule takes the value: the rule's effect, answered OK. -/
theorem viaWrite_accepted {v : Via} {r : Reg} {i : Nat} {bs : List Byte} {s : State} {rule : Rule} (h : Accepted v r i bs s)
    (hf : answersFirst r (leNat bs) = false) (hr : (rule bs (unstaged v s)).1 = stOk) :
    viaWrite v r i bs rule s = answeredOk v r i bs s (rule bs (unstaged v s)).2 := by
  obtain ⟨h1, hm, h0, h2, h3, h4, h5⟩ := h
  have hp : (viaClient v).path = v.path := rfl
  have hs : setStaged (viaClient v).path none s = unstaged v s := rfl
  simp only [viaWrite, hp, hm, h0, h1, h2, h3, h4, hf, Bool.not_true, Bool.false_eq_true, if_false]
  rw [show setStaged v.path none s = unstaged v s from rfl, unitOf_unstaged]
  have hw := writeStatus_unstaged v s v.path r (unitOf s v.path r i) bs
  simp only [applyWrite, hp, hw, h5, hr, stOk, bne_self_eq_false, Bool.false_eq_true, if_false]
  rfl

/-- An accepted write that is answered before it acts (R279). -/
theorem viaWrite_answersFirst {v : Via} {r : Reg} {i : Nat} {bs : List Byte} {s : State} {rule : Rule} (h : Accepted v r i bs s)
    (hf : answersFirst r (leNat bs) = true) (hr : (rule bs (unstaged v s)).1 = stOk) :
    viaWrite v r i bs rule s = (rule bs (respond (viaClient v) (okResponse v r i bs 0) (unstaged v s))).2 := by
  obtain ⟨h1, hm, h0, h2, h3, h4, h5⟩ := h
  have hp : (viaClient v).path = v.path := rfl
  simp only [viaWrite, hp, hm, h0, h1, h2, h3, h4, hf, Bool.not_true, Bool.false_eq_true, if_false, if_true]
  rw [show setStaged v.path none s = unstaged v s from rfl, unitOf_unstaged]
  have hw := writeStatus_unstaged v s v.path r (unitOf s v.path r i) bs
  simp only [applyWriteFirst, hp, hw, h5, hr, stOk, bne_self_eq_false, Bool.false_eq_true, if_false]
  rfl

theorem leNat_leBytes (n v : Nat) : leNat (leBytes n v) = v % 2 ^ (8 * n) := by
  induction n generalizing v with
  | zero => simp [leBytes, leNat, Nat.mod_one]
  | succ n ih =>
    simp only [leBytes, leNat, ih]
    have : 2 ^ (8 * (n + 1)) = 256 * 2 ^ (8 * n) := by rw [Nat.mul_succ, Nat.pow_add]; ring
    rw [this, Nat.mod_mul]
    simp

end Sys2Proof.Machine
end

