-- ==== Sys2Proof/Laws/Kept.lean ====
section
/-!
SUPPORT. Laws/Kept.lean: what no command of the module changes: the identity, the rest of the queue, the canonical form of the memories,
retirements, and the vectors that are never signalled. The relation `Kept s t` between a state and a later one, and its lemmas for the
updates of the state.
-/
namespace Sys2Proof.Machine

/-- A vector that the module may signal (R259). -/
def okVector (v : Nat) : Bool := decide (v ≤ 8) || (decide (16 ≤ v) && decide (v < 64))

def Out.ok : Out → Bool
  | .msix v => okVector v
  | _ => true

/-- Bits set in m are set in n. -/
def bitsKept (m n : Nat) : Prop := ∀ i, testBit m i = true → testBit n i = true

/-- Every retirement that the flash of s holds is held by the flash f (R325). -/
def retiredKept (s : State) (f : Flash) : Prop :=
  ∀ g ∈ [fun (x : Flash) => x.retiredFrames, fun x => x.retiredBoards, fun x => x.retiredStacks, fun x => x.retiredLanes],
    bitsKept (g s.flash) (g f)

/-- t is as s in everything that no command changes. -/
structure Kept (s t : State) : Prop where
  ident : t.ident = s.ident
  pending : t.pending = s.pending
  mem : s.memWf = true → t.memWf = true
  retired : retiredKept s t.flash
  out : ∀ o ∈ t.out, o ∈ s.out ∨ o.ok = true

theorem bitsKept.refl (m : Nat) : bitsKept m m := fun _ h => h

theorem bitsKept_orBit (m i : Nat) : bitsKept m (orBit m i) := by
  intro j hj
  unfold orBit
  split
  · exact hj
  · rename_i h
    simp only [testBit, Nat.shiftRight_eq_div_pow, beq_iff_eq, Nat.mod_two_not_eq_one] at h hj ⊢
    rcases Nat.lt_trichotomy j i with lt | rfl | gt
    · have e : (m + 2 ^ i) / 2 ^ j = m / 2 ^ j + 2 * 2 ^ (i - j - 1) := by
        have : 2 ^ i = 2 ^ j * (2 * 2 ^ (i - j - 1)) := by
          rw [← Nat.pow_succ', ← Nat.pow_add]; congr 1; omega
        rw [this, Nat.add_mul_div_left _ _ (by positivity)]
      rw [e]; omega
    · omega
    · have e : (m + 2 ^ i) / 2 ^ j = m / 2 ^ j := by
        have hp : 2 ^ j = 2 ^ i * (2 * 2 ^ (j - i - 1)) := by
          rw [← Nat.pow_succ', ← Nat.pow_add]; congr 1; omega
        rw [hp, ← Nat.div_div_eq_div_mul, ← Nat.div_div_eq_div_mul, ← Nat.div_div_eq_div_mul, ← Nat.div_div_eq_div_mul,
          Nat.add_div_right _ (by positivity)]
        have : (m / 2 ^ i + 1) / 2 = m / 2 ^ i / 2 := by omega
        rw [this]
      rw [e]; exact hj

theorem bitsKept.trans {l m n : Nat} (h : bitsKept l m) (k : bitsKept m n) : bitsKept l n := fun i hi => k i (h i hi)

theorem retiredKept.refl (s : State) : retiredKept s s.flash := fun g _ => bitsKept.refl (g s.flash)

theorem Kept.refl (s : State) : Kept s s where
  ident := rfl
  pending := rfl
  mem := id
  retired := .refl s
  out := fun _ h => .inl h

theorem Kept.trans {r s t : State} (h : Kept r s) (k : Kept s t) : Kept r t where
  ident := by rw [k.ident, h.ident]
  pending := by rw [k.pending, h.pending]
  mem := k.mem ∘ h.mem
  retired := fun g hg => (h.retired g hg).trans (k.retired g hg)
  out := fun o ho => (k.out o ho).elim (h.out o) .inr

/-- The flash of t holds the retirements of the flash of s. -/
def sameRetired (f g : Flash) : Prop :=
  g.retiredFrames = f.retiredFrames ∧ g.retiredBoards = f.retiredBoards ∧ g.retiredStacks = f.retiredStacks
    ∧ g.retiredLanes = f.retiredLanes

theorem retiredKept_of_same {s : State} {f : Flash} (h : sameRetired s.flash f) : retiredKept s f := by
  obtain ⟨h1, h2, h3, h4⟩ := h
  simp only [retiredKept, List.forall_mem_cons, h1, h2, h3, h4]
  exact ⟨.refl _, .refl _, .refl _, .refl _, by simp⟩

/-- An update of fields that Kept does not speak of. -/
theorem Kept.upd {r s t : State} (h : Kept r s) (h1 : t.ident = s.ident ∧ t.pending = s.pending ∧ t.out = s.out)
    (h2 : t.memWf = s.memWf) (h3 : sameRetired s.flash t.flash) : Kept r t :=
  h.trans { ident := h1.1, pending := h1.2.1, mem := fun w => h2.trans w, retired := retiredKept_of_same h3
            out := fun _ ho => .inl (h1.2.2 ▸ ho) }

theorem kept_emit {s0 s : State} (o : Out) (ho : o.ok = true) (h : Kept s0 s) : Kept s0 (s.emit o) :=
  h.trans { ident := rfl, pending := rfl, mem := id, retired := .refl s
            out := List.forall_mem_cons.2 ⟨.inr ho, fun _ hp => .inl hp⟩ }

theorem kept_wr {s0 s : State} (r : Reg) (v u : Nat) (h : Kept s0 s) : Kept s0 (s.wr r v u) := by
  refine h.upd ⟨rfl, rfl, rfl⟩ rfl ?_
  cases hp : r.persist <;> simp [State.wr, sameRetired, hp]

/-- Writes to the two memories keep their canonical form, and everything else. -/
theorem kept_memories {s0 s : State} {d e : Mem} (h : Kept s0 s) (hd : s.dram.wf = true → d.wf = true)
    (he : s.store.wf = true → e.wf = true) : Kept s0 { s with dram := d, store := e } :=
  h.trans { ident := rfl, pending := rfl, retired := .refl s, out := fun _ ho => .inl ho
            mem := fun w => by
              simp only [State.memWf, Bool.and_eq_true] at w ⊢
              exact ⟨⟨⟨hd w.1.1.1, he w.1.1.2⟩, w.1.2⟩, w.2⟩ }

theorem kept_dramWrite {s0 s : State} (a : Nat) (bs : List Byte) (h : Kept s0 s) : Kept s0 (s.dramWrite a bs) :=
  kept_memories h (Mem.write_wf _ _ _) id

theorem kept_storeWrite {s0 s : State} (b a : Nat) (bs : List Byte) (h : Kept s0 s) : Kept s0 (s.storeWrite b a bs) :=
  kept_memories h id (Mem.write_wf _ _ _)

theorem kept_forEach {α : Type} {s0 s : State} (l : List α) (f : α → State → State) (hf : ∀ a t, Kept s0 t → Kept s0 (f a t))
    (h : Kept s0 s) : Kept s0 (forEach l f s) := by
  unfold forEach
  induction l generalizing s with
  | nil => exact h
  | cons a l ih => exact ih (hf a s h)

/-- An outcome's next state, if it is one. -/
def KeptO (s0 : State) : Host.Outcome State Fault Refusal → Prop
  | .next t => Kept s0 t
  | _ => True

theorem keptO_next {s0 t : State} (h : Kept s0 t) : KeptO s0 (.next t) := h
theorem keptO_fault {s0 : State} (f : Fault) : KeptO s0 (.fault f) := trivial

end Sys2Proof.Machine
end

