-- ==== Sys2Proof/WellFormed.lean ====
section
/-!
DEFINITION. WellFormed.lean: which terms of Instr are commands that can reach the module: every field that its type leaves wider than
the wire, the frame or the register that carries it lies in its range.
-/
namespace Sys2Proof

/-- A packet's header fields fit their places in Table 09-7, and its payload the largest packet. -/
def Pkt.wf (p : Pkt) : Bool :=
  decide (p.dest < 2 ^ 16) && decide (p.src < 2 ^ 16) && decide (p.opcode < 2 ^ 8) && decide (p.flits < 128) && decide (p.hop < 32)
    && decide (p.lines < 2 ^ 10) && decide (p.txn < 2 ^ 16) && decide (p.addr < 2 ^ 48) && decide (p.payload.length ≤ 30704)

/-- A directed request came in on a port with a HOP of 5 bits and a line of 64 bytes (R214). -/
def Directed.wf (d : Directed) : Bool := decide (d.port < 24) && decide (d.hop < 32) && d.line.length == 64

/-- A request's sender and number (Table 12-2). -/
def Via.wf (v : Via) : Bool := decide (v.txn < 2 ^ 16) && decide (v.src < 2 ^ 16) && decide (v.dest < 2 ^ 16) && v.directed.all Directed.wf

/-- A field-bus or Ehrerlink line is 64 bytes (R264). -/
def ReqSource.wf : ReqSource → Bool
  | .mailbox => true
  | .can line => line.length == 64
  | .fabric src dest txn d line =>
    line.length == 64 && decide (src < 2 ^ 16) && decide (dest < 2 ^ 16) && decide (txn < 2 ^ 16) && d.all Directed.wf

/-- The peer's next flit has a number of 12 bits (R204). -/
def PeerResync.wf (r : PeerResync) : Bool := decide (r.next < 2 ^ 12) && decide (r.held.length ≤ 12)

/-- An arrival stamp is a fraction of a ns, and a HOP has 5 bits (R212, R218). -/
def SyncStamp.wf (t : SyncStamp) : Bool := decide (t.ps < 1000) && decide (t.hop < 32)

/-- A register access names a dictionary address, an offset in the 1 MiB of BAR0 (R248), or a register of at most 64 bits. -/
def RegAccess.wf : RegAccess → Bool
  | .dict v index sub _ => v.wf && decide (index < 2 ^ 16) && decide (sub < 2 ^ 8)
  | .bar0 offset size v => decide (offset < 2 ^ 20) && decide (size ≤ 8) && decide (v < 2 ^ (8 * size))
  | .bar0Read offset size => decide (offset < 2 ^ 20) && decide (size ≤ 8)
  | .config _ v => v.all (· < 2 ^ 64)
  | .component _ v => v.all (· < 2 ^ 64)

def Front.wf : Front → Bool
  | .bar0 => true
  | .dict v => v.wf

/-- A well-formed command. -/
def Instr.wf : Instr → Bool
  | .odRead src | .odWrite src | .odInfo src => src.wf
  | .registerWrite w => w.wf
  | .irqCauseClear f _ | .domainCauseClear f _ => f.wf
  | .feedRecord _ slot => slot.length == 64
  | .hdmRead offset => decide (offset < 2 ^ 38)
  | .hdmWrite offset line => decide (offset < 2 ^ 38) && line.length == 64
  | .payloadRead _ _ _ _ (some bs) => bs.length == 64
  | .ruleSlotWrite v _ sub _ => v.wf && decide (1 ≤ sub) && decide (sub ≤ 17)
  | .load v | .start v | .abort v | .unload v | .groupEntry v _ | .stepRecord v _ _ => v.wf
  | .fwChunk v bs => v.wf && decide (bs.length ≤ 32768)
  | .clearIds frame | .offer frame _ => decide (frame.length ≤ 64)
  | .idConflict id => decide (id < 2 ^ 11)
  | .canIgnored id => decide (id < 2 ^ 29)
  | .thermalSample ts => ts.all (fun t => decide (t.1 < 94))
  | .flitArrival _ flit => flit.length == 256
  | .retrainDone _ _ peer => peer.wf
  | .tbSync _ _ _ stamp => stamp.wf
  | .directedRoute _ p => p.wf && p.dr
  | .mcData _ p => p.wf && p.mc
  | .fabricTimeout txn => decide (txn < 2 ^ 16)
  | .packetForward _ p | .mcAck _ p | .reduceVote _ p | .barrier _ p | .commitTok _ p | .voidTok _ p | .freeze _ p => p.wf
  | .rdReq p | .wr p | .gatherReq p | .gatherData p | .stale p | .rdData p | .wrAck p | .err p | .reduceVal p | .updateCmd _ p
  | .mirrorWr p | .semSignal p => p.wf
  | .stackRead _ r => decide (1 ≤ r.lines) && decide (r.lines ≤ 479) && decide (r.board < 16) && decide (r.tag < 2 ^ 32)
  | .cxlLinkUp _ width rate _ _ => (width == 4 || width == 8 || width == 16) && (rate == 8 || rate == 16 || rate == 32)
  | _ => true

end Sys2Proof
end

