-- ==== Sys2Proof/Tests/Slice0.lean ====
section
/-!
SUPPORT. Tests/Slice0.lean: ill-formed commands that the check refuses, single steps against the spec's own figures, and for every
statement a small state and operands that meet its hypotheses.
-/
set_option maxRecDepth 100000
set_option Elab.async false

namespace Sys2Proof.Tests
open Sys2Proof Sys2Proof.Machine

/-! ### Small states -/

/-- A module in READY with the link up in CXL mode. -/
def ready : State :=
  { State.reset with
    dev := { state := .ready, pwrEn := true, pgood := true, perst := false, refclk := true }
    host := { mode := 2, width := 16, rate := 32, inL0 := true, cacheEn := true, memEn := true, memActive := true } }

/-- The same in SERVICE. -/
def service : State := { ready with dev := { ready.dev with state := .service } }

/-- The same with a job that runs; domain 0 belongs to it. -/
def running : State :=
  { ready with
    dev := { ready.dev with state := .running, jobState := .running }
    doms := [(0, { used := true, mbPerStep := 2, lenLimit := 256, boards := 1 })] }

def mb : Via := { path := .mailbox }

/-! ### Commands that are not well-formed -/

theorem test_wf_refuses_short_can_line : Instr.wf (.odRead (.can (List.replicate 63 0#8))) = false := by decide
theorem test_wf_refuses_fabric_source : Instr.wf (.odWrite (.fabric 65536 0 0 none (List.replicate 64 0#8))) = false := by decide
theorem test_wf_refuses_fabric_destination : Instr.wf (.odWrite (.fabric 0 65536 0 none (List.replicate 64 0#8))) = false := by decide
theorem test_wf_refuses_fabric_txn : Instr.wf (.odInfo (.fabric 0 0 65536 none (List.replicate 64 0#8))) = false := by decide
theorem test_wf_refuses_bar0_offset : Instr.wf (.registerWrite (.bar0 0x100000 4 0)) = false := by decide
theorem test_wf_refuses_bar0_size : Instr.wf (.registerWrite (.bar0 0 9 0)) = false := by decide
theorem test_wf_refuses_bar0_value : Instr.wf (.registerWrite (.bar0 0 4 0x100000000)) = false := by decide
theorem test_wf_refuses_index : Instr.wf (.registerWrite (.dict mb 65536 0 [])) = false := by decide
theorem test_wf_refuses_subindex : Instr.wf (.registerWrite (.dict mb 0 256 [])) = false := by decide
theorem test_wf_refuses_txn : Instr.wf (.load { path := .mailbox, txn := 65536 }) = false := by decide
theorem test_wf_refuses_via_source : Instr.wf (.irqCauseClear (.dict { path := .fabric, src := 65536 }) 0#64) = false := by decide
theorem test_wf_refuses_via_destination : Instr.wf (.irqCauseClear (.dict { path := .fabric, dest := 65536 }) 0#64) = false := by decide
theorem test_wf_refuses_window_offset : Instr.wf (.hdmRead 0x4000000000) = false := by decide
theorem test_wf_refuses_window_line : Instr.wf (.hdmWrite 0 (List.replicate 63 0#8)) = false := by decide
theorem test_wf_refuses_rule_subindex :
    Instr.wf (.ruleSlotWrite mb 0 0 0#32) = false ∧ Instr.wf (.ruleSlotWrite mb 0 18 0#32) = false := by decide
theorem test_wf_refuses_chunk : Instr.wf (.fwChunk mb (List.replicate 32769 0#8)) = false := by decide +kernel
theorem test_wf_refuses_can_frame :
    Instr.wf (.clearIds (List.replicate 65 0#8)) = false ∧ Instr.wf (.offer (List.replicate 65 0#8) 0) = false := by decide
theorem test_wf_refuses_can_identifier : Instr.wf (.idConflict 0x800) = false ∧ Instr.wf (.canIgnored 0x20000000) = false := by decide
theorem test_wf_refuses_sensor : Instr.wf (.thermalSample [(94, 20)]) = false := by decide
theorem test_wf_refuses_peer_state :
    Instr.wf (.retrainDone 0 true { next := 4096 }) = false ∧ Instr.wf (.retrainDone 0 true { next := 0, held := List.replicate 13 0 }) = false := by
  decide
theorem test_wf_refuses_sync_stamp :
    Instr.wf (.tbSync 0 0#64 0#64 { ps := 1000 }) = false ∧ Instr.wf (.tbSync 0 0#64 0#64 { ps := 0, hop := 32 }) = false := by decide
theorem test_wf_refuses_flit : Instr.wf (.flitArrival 0 (List.replicate 255 0#8)) = false := by decide

def pkt : Pkt := { dest := 0, src := 0, opcode := 1, flits := 0 }

theorem test_wf_refuses_packet_fields :
    [{ pkt with dest := 65536 }, { pkt with src := 65536 }, { pkt with opcode := 256 }, { pkt with flits := 128 }, { pkt with hop := 32 },
      { pkt with lines := 1024 }, { pkt with txn := 65536 }, { pkt with addr := 2 ^ 48 }].all (fun p => !Instr.wf (.rdReq p)) = true := by
  decide
theorem test_wf_refuses_packet_payload : Instr.wf (.wr { pkt with payload := List.replicate 30705 0#8 }) = false := by decide +kernel
theorem test_wf_refuses_directed_bit : Instr.wf (.directedRoute 0 pkt) = false := by decide
theorem test_wf_refuses_multicast_bit : Instr.wf (.mcData none pkt) = false := by decide
theorem test_wf_refuses_link_width :
    Instr.wf (.cxlLinkUp true 2 32 true true) = false ∧ Instr.wf (.cxlLinkUp true 16 64 true true) = false := by decide
theorem test_wf_refuses_payload_line : Instr.wf (.payloadRead 0 0 0 0 (some (List.replicate 63 0#8))) = false := by decide
theorem test_wf_refuses_timeout_txn : Instr.wf (.fabricTimeout 65536) = false := by decide
theorem test_wf_refuses_stack_read :
    [(0, 0, 0), (480, 0, 0), (1, 16, 0), (1, 0, 2 ^ 32)].all (fun x =>
      !Instr.wf (.stackRead 0 { dpa := 0, lines := x.1, board := x.2.1, tag := x.2.2 })) = true := by decide

/-! ### States and operands that meet the hypotheses of the statements: queue, causes, mailbox, dictionary -/

theorem witness_emptyQueue :
    State.reset.pending = [] ∧ State.reset.dev.state = .standby
      ∧ ready.pending = [] ∧ ready.dev.state ≠ .off ∧ ready.dev.state ≠ .standby
      ∧ service.pending = [] ∧ service.dev.state ≠ .standby ∧ service.powered = false := by decide

/-- A change of the rails under way, with the power-management core at work or restarting. -/
def leaving (st : DevState) (cores : List Nat) (s : State) : State :=
  { s with dev := { s.dev with moving := some st, restarting := cores } }

theorem witness_tick :
    (leaving .service [] ready).dev.moving = some .service ∧ (leaving .service [] ready).dev.restarting.contains corePower = false
      ∧ (leaving .service [corePower] ready).dev.restarting.contains corePower = true
      ∧ ({ ready with fab := { ready.fab with tbState := 3, tbRate := -1 } } : State).fab.tbState = 3
      ∧ ({ State.reset with dev := { State.reset.dev with state := .off } } : State).dev.state = .off ∧ ready.dev.moving = none := by
  decide

theorem witness_quiet : Quiet ready ∧ ready.powered = true ∧ Quiet service ∧ service.powered = false := by
  refine ⟨⟨fun _ => rfl, by decide, rfl⟩, by decide, ⟨fun _ => rfl, by decide, rfl⟩, by decide⟩

theorem witness_causes : pathServed ready .mailbox = true ∧ AcceptedReg mb .irqCause 0xFFFFFFFFFFFFFFFF ready
    ∧ AcceptedReg mb (domainCauseReg 3) 0xFFFFFFFFFFFFFFFF ready
    ∧ Accepted mb .domainCauseBits (0x2400 + 255) (leBytes 1 15) ready := by
  unfold AcceptedReg Accepted; decide +kernel

/-- The mailbox while a request is in progress. -/
def mbBusy : State := { ready with host := { ready.host with mbState := .busy } }

/-- MB_REQ with GO and a length. -/
def go (n : Nat) : Nat := 2 ^ 31 + n

theorem witness_mailboxGo :
    pathServed mbBusy .mailbox = true ∧ mbBusy.host.mbState = .busy ∧ testBit (go 16) 31 = true ∧ testBit 16 31 = false
      ∧ pathServed ready .mailbox = true ∧ ready.host.mbState ≠ .busy
      ∧ [0, 1, 15, 16, 65536, 65537].all (fun n => bitsOf (go n) 16 0 == n && testBit (go n) 31) = true := by decide

/-- A request in the mailbox. -/
def asks (bs : List Byte) (s : State) : State := { s with host := { s.host with mbState := .busy, mbReq := bs } }

def readReq (index sub off count : Nat) : List Byte :=
  leBytes 1 1 ++ leBytes 1 sub ++ leBytes 2 index ++ leBytes 2 7 ++ leBytes 2 0 ++ leBytes 4 off ++ leBytes 4 count
def infoReq (index sub : Nat) : List Byte := leBytes 1 3 ++ leBytes 1 sub ++ leBytes 2 index ++ leBytes 12 7

theorem witness_read :
    Arrives 1 .mailbox { path := .mailbox } (readReq 0x3000 0x01 0 0) .powerLimit (asks (readReq 0x3000 0x01 0 0) ready)
      ∧ Arrives 1 .mailbox { path := .mailbox } (readReq 0x3000 0x01 4 0) .powerLimit (asks (readReq 0x3000 0x01 4 0) ready) := by
  unfold Arrives; decide +kernel

theorem witness_write :
    let bs := writeReqBytes 0x7000 0x03 7 (leBytes 4 5)
    let s := asks bs ready
    let q := parseReq bs
    Arrives 2 .mailbox { path := .mailbox } bs .logSel s
      ∧ tySize Reg.logSel.ty ≠ 0 ∧ q.off = 0 ∧ q.count = tySize Reg.logSel.ty ∧ (writeData { path := .mailbox } q).length = q.count
      ∧ writeStatus s .mailbox .logSel (unitOf s .mailbox .logSel q.index) (writeData { path := .mailbox } q) = stOk
      ∧ answersFirst .logSel 5 = false
      ∧ (entryRule (setStaged .mailbox none s) .mailbox .logSel 0 (leBytes 4 5) (setStaged .mailbox none s)).1 = stOk := by
  unfold Arrives; decide +kernel

/-- STATE_REQUEST answers before it acts. -/
theorem witness_answersFirst :
    let bs := writeReqBytes 0x2000 0x02 7 (leBytes 1 1)
    Arrives 2 .mailbox { path := .mailbox } bs .stateRequest (asks bs service) ∧ WholeFixed { path := .mailbox } (parseReq bs) .stateRequest
      ∧ writeStatus (asks bs service) .mailbox .stateRequest 0 (leBytes 1 1) = stOk ∧ answersFirst .stateRequest 1 = true := by
  unfold Arrives WholeFixed; decide +kernel

/-- A WRITE of two bytes of a value of COUNT bytes, from OFFSET on. -/
def segment (off count : Nat) : List Byte :=
  leBytes 1 2 ++ leBytes 1 0x41 ++ leBytes 2 0x7000 ++ leBytes 2 7 ++ leBytes 2 0 ++ leBytes 4 off ++ leBytes 4 count ++ [65#8, 66#8]

/-- The mailbox has staged two bytes of a value of four. -/
def halfStaged (s : State) : State :=
  setStaged .mailbox (some { src := 0, index := 0x7000, sub := 0x41, count := 4, bytes := [65#8, 66#8] }) s

theorem witness_segments :
    Arrives 2 .mailbox { path := .mailbox } (segment 0 4) .snapDomains (asks (segment 0 4) ready)
      ∧ Segments { path := .mailbox } (parseReq (segment 0 4)) .snapDomains (asks (segment 0 4) ready) [65#8, 66#8]
      ∧ Arrives 2 .mailbox { path := .mailbox } (segment 2 4) .snapDomains (asks (segment 2 4) (halfStaged ready))
      ∧ Segments { path := .mailbox } (parseReq (segment 2 4)) .snapDomains (asks (segment 2 4) (halfStaged ready)) [65#8, 66#8, 65#8, 66#8]
      ∧ tySize Reg.snapDomains.ty = 0 ∧ (parseReq (segment 2 4)).off ≠ 0
      ∧ ∀ g, stagedOf (asks (segment 2 4) ready) .mailbox = some g → continues g (parseReq (segment 2 4)) = false := by
  refine ⟨by unfold Arrives; decide +kernel, ⟨by decide, by decide +kernel, by decide +kernel, Or.inl (by decide +kernel)⟩,
    by unfold Arrives; decide +kernel,
    ⟨by decide, by decide +kernel, by decide +kernel, Or.inr ⟨by decide +kernel, _, rfl, by decide +kernel⟩⟩, by decide, by decide +kernel, ?_⟩
  intro g h
  exact absurd (show stagedOf (asks (segment 2 4) ready) .mailbox = none by decide +kernel) (by simp [h])

/-- A WRITE of a value of fixed size that begins behind it. -/
def behind : List Byte := leBytes 1 2 ++ leBytes 1 3 ++ leBytes 2 0x7000 ++ leBytes 2 7 ++ leBytes 2 0 ++ leBytes 4 8 ++ leBytes 4 4

theorem witness_offsetBehind :
    Arrives 2 .mailbox { path := .mailbox } behind .logSel (asks behind ready)
      ∧ tySize Reg.logSel.ty ≠ 0 ∧ Reg.logSel.acc ≠ 1 ∧ tySize Reg.logSel.ty < (parseReq behind).off := by
  unfold Arrives; decide +kernel

theorem witness_mailboxWrite :
    mailboxTaken ready (viaClient mb) = false ∧ unaddressed (viaClient mb) ready = false ∧ pathServed mbBusy .mailbox = true
      ∧ mb.path = .mailbox ∧ mbBusy.host.mbState = .busy := by decide +kernel

theorem witness_info :
    Arrives 3 .mailbox { path := .mailbox } (infoReq 0x3000 0x01) .powerLimit (asks (infoReq 0x3000 0x01) ready)
      ∧ (parseReq (infoReq 0x3000 0x01)).off = 0 ∧ (parseReq (infoReq 0x3000 0x01)).count = 0 := by
  unfold Arrives; decide +kernel

theorem witness_requestBuffer : pathServed ready .mailbox = true ∧ 0x10000 ≤ 0x1FFFC ∧ 0x1FFFC < 0x20000 ∧ 0x1FFFC % 4 = 0 := by decide

/-- A write of a read-only entry fails its check; a CNT_CONTROL word of a reserved event fails the entry's own rule. -/
theorem witness_refusedWrite :
    let bs := writeReqBytes 0x7000 0x01 7 (leBytes 4 5)
    let cs := writeReqBytes 0x6000 0x04 7 (leBytes 4 0x17)
    Arrives 2 .mailbox { path := .mailbox } bs .logNewest (asks bs ready)
      ∧ writeStatus (asks bs ready) .mailbox .logNewest 0 (leBytes 4 5) ≠ stOk
      ∧ Arrives 2 .mailbox { path := .mailbox } cs .cntControl (asks cs ready)
      ∧ (parseReq cs).off = 0 ∧ (parseReq cs).count = tySize Reg.cntControl.ty ∧ (writeData { path := .mailbox } (parseReq cs)).length = 4
      ∧ writeStatus (asks cs ready) .mailbox .cntControl 0 (leBytes 4 0x17) = stOk
      ∧ (entryRule (asks cs ready) .mailbox .cntControl 0 (leBytes 4 0x17) (asks cs ready)).1 ≠ stOk := by
  unfold Arrives; decide +kernel

theorem witness_refusingRule :
    (entryRule ready .mailbox .cntControl 0 (leBytes 4 0x17) ready).1 ≠ stOk
      ∧ (entryRule ready .mailbox .snapControl 0 (leBytes 1 3) ready).1 ≠ stOk
      ∧ Reg.cntControl.index ≠ 0x9010 ∧ Reg.cntControl.index ≠ 0x7000 := by decide +kernel

/-! ### Faults and feed rings -/

def ringFault : Flt := { code := 0x0701, kind := 11, domain := some 0 }

/-- A log whose RAM is full. -/
def logFull : State := { ready with log := { ready.log with ram := List.replicate 256 (1, 0#512), nextSeq := 257 } }

theorem witness_fault :
    recentRecord ready ringFault = none ∧ ready.log.ram.length < 256
      ∧ recentRecord (ready.raise ringFault) ringFault = some 1
      ∧ ready.recordWaits ringFault = false
      ∧ ({ ready with dev := { ready.dev with restarting := [16] } } : State).recordWaits { ringFault with kind := 1, unit := 0 } = true
      ∧ recentRecord logFull ringFault = none ∧ 256 ≤ logFull.log.ram.length ∧ ringFault.code ≠ 0x0808
      ∧ domainBitOf ringFault.code = some 3 ∧ ringFault.domain = some 0 := by decide +kernel

/-- Domain 0 with a ring of 16 slots in a state, and CONS 5. -/
def ringed (x : RingState) (s : State) : State :=
  s.modDom 0 (fun d => { d with ring := { d.ring with state := x, log2 := 4, cons := 5, prodSeen := 5, base := 0x1000 } })

/-- Its doorbell line is in use. -/
def lined (s : State) : State := s.modDom 0 (fun d => { d with ring := { d.ring with dbLine := 0x40 } })

theorem witness_ringRegisters :
    RingOpen 0 ready ∧ RingOpen 0 (ringed .stopped ready) ∧ ¬ RingOpen 0 (ringed .active ready) ∧ pathServed ready .mailbox = true
      ∧ [0, 4, 16].all (fun n => (BitVec.ofNat 64 (0x1000 + n)).toNat % 32 == n) = true
      ∧ [1, 3, 17, 31].all (fun n => decide ((1 ≤ n ∧ n ≤ 3) ∨ 17 ≤ n)) = true
      ∧ (lined ready).lineInUse 0 = true ∧ pathServed (lined ready) .mailbox = true := by
  unfold RingOpen; decide +kernel

theorem witness_producerCount :
    pathServed (ringed .active running) .mailbox = true ∧ (ringed .active running).lineInUse 0 = false
      ∧ (lined (ringed .held running)).lineInUse 0 = true
      ∧ ((ringed .active running).dom 0).ring.state = .active ∧ ((ringed .held running).dom 0).ring.state = .held
      ∧ (21 + 2 ^ 32 - 5) % 2 ^ 32 ≤ 2 ^ ((ringed .active running).dom 0).ring.log2
      ∧ 2 ^ ((ringed .active running).dom 0).ring.log2 < (22 + 2 ^ 32 - 5) % 2 ^ 32
      ∧ 2 ^ ((ringed .active running).dom 0).ring.log2 < (4 + 2 ^ 32 - 5) % 2 ^ 32
      ∧ ((ringed .stopped running).dom 0).ring.state = .stopped := by decide +kernel

/-- A record at the head of that ring: PAYLOAD_BYTES, LEN_MAX, LEN, TAG and SEQ (Table 11-6). -/
def record (bytes lenMax len tag seq : Nat) : BitVec 512 :=
  BitVec.ofNat 512 (0x10000 <<< 448 + bytes <<< 416 + lenMax <<< 384 + len <<< 352 + tag <<< 320 + seq <<< 288)

/-- Domain 0 has tag `tag` open with n micro-batches admitted, and its ring has one more record. -/
def stepOpen (tag n : Nat) (s : State) : State :=
  (ringed .active s).modDom 0 (fun d => { d with
    phase := .open, openTag := tag
    mbs := (List.range n).map (fun i => { index := i, len := 64, record := record 64 64 64 tag i, slotAddr := 0, reserved := [] })
    ring := { d.ring with prodSeen := 6 } })

/-- Its ring has one more record and no step is open. -/
def oneMore (s : State) : State := (ringed .active s).modDom 0 (fun d => { d with ring := { d.ring with prodSeen := 6 } })

theorem witness_head :
    ReadsHead 0 (oneMore running) ∧ ReadsHead 0 (stepOpen 9 1 running) ∧ ReadsHead 0 (stepOpen 9 2 running)
      ∧ ¬ WellFormedRecord 0 (record 64 64 64 9 4) (oneMore running) := by
  unfold ReadsHead WellFormedRecord; decide +kernel

/-- A record that is well-formed at that head. -/
theorem witness_wellFormedRecord (s : State) (h : (s.dom (0 : DomainNo).val).ring.cons = 5) : WellFormedRecord 0 (record 64 64 64 9 5) s := by
  refine ⟨?_, by decide +kernel, by decide +kernel, fun _ => by decide +kernel, fun k => absurd (by decide +kernel) k⟩
  rw [h]; decide +kernel

theorem witness_decisions :
    recTag (record 64 64 64 9 5) = 9 ∧ ((oneMore running).dom 0).committedTag < 9 ∧ ((stepOpen 9 1 running).dom 0).busy = true
      ∧ ((stepOpen 9 1 running).dom 0).mbs.length < ((stepOpen 9 1 running).dom 0).mbPerStep
      ∧ ((stepOpen 9 2 running).dom 0).mbPerStep ≤ ((stepOpen 9 2 running).dom 0).mbs.length
      ∧ ((stepOpen 8 1 running).dom 0).openTag ≠ 9 ∧ ((stepOpen 8 1 running).dom 0).exch.state = 0
      ∧ ((oneMore running).dom 0).busy = false ∧ (oneMore running).mayOpen 0 = true
      ∧ recTag (record 64 64 64 0 5) ≤ ((oneMore running).dom 0).committedTag
      ∧ recLen (record 64 64 0 9 5) = 0 ∧ recLenMax (record 64 64 65 9 5) < recLen (record 64 64 65 9 5)
      ∧ ((oneMore running).dom 0).lenLimit < recLenMax (record 64 257 64 9 5)
      ∧ ¬ (recLen (record 64 256 256 9 5) = 0 ∨ recLenMax (record 64 256 256 9 5) < recLen (record 64 256 256 9 5)
        ∨ ((oneMore running).dom 0).lenLimit < recLenMax (record 64 256 256 9 5)) := by decide +kernel

/-- The record waits at the head. -/
def waits (s : State) : State := s.modDom 0 (fun d => { d with ring := { d.ring with head := some (record 64 64 64 9 5) } })

/-- Board 0 has a stash plan for domain 0 of `mib` MiB. -/
def planned (mib : Nat) (s : State) : State :=
  s.modBoard 0 (fun b => { b with stash := [{ domain := 0, poolMiB := mib, fixedKiB := 1, unitKiB := 1, region := none }] })

/-- Every stack has applied OPEN of tag 9. -/
def opening : State :=
  (List.range 12).foldl (fun s k => s.modStack k (fun x => { x with regs := [(0, { isOpen := true, openTag := 9 })] }))
    ((stepOpen 9 1 running).modDom 0 (fun d => { d with phase := .opening }))

theorem witness_admission :
    ((waits (stepOpen 9 1 running)).dom 0).ring.head = some (record 64 64 64 9 5) ∧ schedulerBusy (waits (stepOpen 9 1 running)) = false
      ∧ (planned 1 (waits (stepOpen 9 1 running))).reservation 0 64 = some [(0, 0, 8)]
      ∧ ((waits (stepOpen 9 1 running)).dom 0).phase = .open ∧ ((waits (stepOpen 9 1 running)).dom 0).exch.state = 0
      ∧ ((waits (oneMore running)).dom 0).phase = .closed ∧ (planned 1 (waits (oneMore running))).mayOpen 0 = true
      ∧ (planned 1 (waits (oneMore running))).reservation 0 64 = some [(0, 0, 8)]
      ∧ (opening.dom 0).phase = .opening
      ∧ (planned 0 (waits (oneMore running))).reservation 0 64 = none ∧ ((waits (oneMore running)).dom 0).ring.reported = false := by
  decide +kernel

theorem witness_openingComplete : ∀ k, k < 12 → (opening.dreg k 0).isOpen = true ∧ (opening.dreg k 0).openTag = (opening.dom 0).openTag := by
  decide +kernel

/-! ### The window, the job and the device -/

/-- A region entry: kind, base and size in units of 64 KiB (Table 07-2). -/
def region (dom kind base size : Nat) : BitVec 128 := BitVec.ofNat 128 (dom <<< 120 + kind <<< 116 + base <<< 31 + size <<< 10)

/-- A window of 256 GiB whose entry 0 is VALID and maps DPA 0, the start of a SNAPSHOT region of 64 KiB. -/
def windowed : State :=
  { ready with
    host := { ready.host with hdmSize := 2 ^ 38, windowMap := [(0, 0x8000000000000000#64)] }
    job := { ready.job with regions := [(0, region 0 6 0 1)] } }

theorem witness_performed : Performed 0 0 windowed ∧ Performed 0xFFC0 0xFFC0 windowed := by
  refine ⟨⟨by decide +kernel, by decide, by decide +kernel, by decide +kernel, (0, region 0 6 0 1), by decide +kernel, Or.inl (by decide +kernel)⟩,
    ⟨by decide +kernel, by decide, by decide +kernel, by decide +kernel, (0, region 0 6 0 1), by decide +kernel, Or.inl (by decide +kernel)⟩⟩

/-- Line 1 of stack 0 is uncorrectable. -/
def oneBad : State := windowed.modStack 0 (fun x => { x with bad := [1] })

theorem witness_window :
    pathServed windowed .mailbox = true ∧ windowed.badLine 0 64 = none ∧ (oneBad.badLine 64 64).isSome = true
      ∧ oneBad.inWindow 64 = true ∧ windowed.inWindow (2 ^ 38 - 64) = true ∧ (2 ^ 38 - 64) % 64 = 0
      ∧ windowed.inWindow (2 ^ 38) = false
      ∧ ((windowed.modStack 0 (fun x => { x with soft := [1] })).stack 0).soft.filter (· == 64 / 64) = [64 / 64]
      ∧ windowed.host.mode = 2 ∧ windowed.host.hdmWays = 1 ∧ 2 ^ 28 % 2 ^ 28 = 0 ∧ 2 ^ 38 % 2 ^ 28 = 0 := by decide +kernel

/-- The last line of the window is not performed: its entry is not VALID. -/
theorem witness_notPerformed : ¬ ∃ dpa, Performed (2 ^ 38 - 64) dpa windowed := by
  rintro ⟨dpa, -, -, h, -⟩
  exact absurd h (by decide +kernel)

/-- The channels of stack 0 are tested, and a line of it is read through the window. -/
def tested (s : State) : State := s.modStack 0 (fun x => { x with testDue := true })

theorem witness_windowUnderTest :
    Performed 0 0 (tested windowed) ∧ (tested windowed).underTest (stackOf 0) = true ∧ windowed.underTest (stackOf 0) = false
      ∧ oneBad.underTest (stackOf 64) = false ∧ (0 : Nat) % 64 = 0 := by
  refine ⟨⟨by decide +kernel, by decide, by decide +kernel, by decide +kernel, (0, region 0 6 0 1), by decide +kernel, Or.inl (by decide +kernel)⟩, ?_⟩
  decide +kernel

theorem witness_linkAndResets :
    service.hostUp = true ∧ ready.hostUp = true ∧ running.hostUp = true ∧ running.dev.jobState = .running ∧ ready.dev.jobState ≠ .running
      ∧ ({ State.reset with dev := { State.reset.dev with booting := true } } : State).hostUp = true
      ∧ ready.linkTrains = true ∧ State.reset.hostUp = false ∧ State.reset.linkTrains = false ∧ ready.dev.moving ≠ some .ready := by decide

/-- The entry into READY waits for the link. -/
theorem witness_linkForReady :
    (leaving .ready [] service).linkTrains = true ∧ (leaving .ready [] service).dev.moving = some .ready
      ∧ (leaving .ready [] service).dev.state = .service ∧ (leaving .ready [] service).dev.restarting.contains corePower = false
      ∧ (leaving .ready [] service).pairLeft = true ∧ (leaving .ready [corePower] service).dev.restarting.contains corePower = true
      ∧ (16 ∈ [4, 8, 16] ∧ 32 ∈ [8, 16, 32]) ∧ 2 ∉ [4, 8, 16] := by decide +kernel

/-- A job whose image read is under way, and one that is loaded. -/
def jobIn (j : JobState) : State := { ready with dev := { ready.dev with jobState := j } }

theorem witness_load :
    AcceptedReg mb .jobControl 1 ready ∧ ready.dev.state = .ready ∧ ready.dev.jobState = .none ∧ ready.dev.moving = none
      ∧ AcceptedReg mb .jobControl 1 running ∧ running.dev.state ≠ .ready
      ∧ AcceptedReg mb .jobControl 1 (jobIn .failed) ∧ (jobIn .failed).dev.jobState = .failed
      ∧ (jobIn .loading).dev.jobState = .loading
      ∧ ([0#8] : List Byte).length ≠ (jobIn .loading).rd .jobImageBytes
      ∧ ((List.replicate 64 0#8).length = ((jobIn .loading).wr .jobImageBytes 64).rd .jobImageBytes
        ∧ leAt (List.replicate 64 0#8) 0 4 ≠ 0x494A5450) := by
  unfold AcceptedReg Accepted; decide +kernel

/-- A job image: a directory of type, target, offset and bytes, and what follows it (Table 12-16), with its CRC. -/
def image (dir : List (Nat × Nat × Nat × Nat)) (data : List Byte) : List Byte :=
  let body := List.replicate 32 0#8
    ++ dir.flatMap (fun e => leBytes 2 e.1 ++ leBytes 2 e.2.1 ++ leBytes 4 e.2.2.1 ++ leBytes 4 e.2.2.2 ++ leBytes 4 0) ++ data
  leBytes 4 0x494A5450 ++ leBytes 2 1 ++ leBytes 2 dir.length ++ leBytes 8 (32 + body.length) ++ leBytes 8 77
    ++ leBytes 8 (crc64 body).toNat ++ body

/-- A module with Board 0 alone, loading an image of a length. -/
def loadsOf (bs : List Byte) : State :=
  { (jobIn .loading).wr .jobImageBytes bs.length with ident := { ready.ident with disabled := 0xFFFE } }

def ownDir : List (Nat × Nat × Nat × Nat) :=
  [(0x01, 0, 0, 0), (0x10, 0xFFFF, 160, 16), (0x20, 0xFFFF, 0, 0), (0x21, 0xFFFF, 0, 0), (0x22, 0xFFFF, 0, 0), (0x23, 0xFFFF, 0, 0)]

/-- An image that loads; its JOB region is region 0, and its tally partition has `tally` bytes. -/
def ownImage : List Byte := image ownDir (leBytes 16 (region 0 2 0 1).toNat)
def ownSections (tally : Nat) : List SectionData :=
  [.partitions tally 0 0 0 none, .regions [], .domains [], .epochs [], .logical [], .jobArea 0]

def dirOf (bs : List Byte) : List DirEntry := (List.range (leAt bs 6 2)).map (dirEntry bs)

theorem witness_image :
    let ds := dirOf ownImage
    let secs := fun x => (ds.zip (ownSections x)).map (fun p => sectionFrom ownImage p.1 p.2)
    ownImage.length = (loadsOf ownImage).rd .jobImageBytes ∧ headerOk ownImage.length ownImage = true
      ∧ (crc64 (ownImage.drop 32)).toNat = leAt ownImage 24 8 ∧ (ownSections 0).length = ds.length
      ∧ dirFail (loadsOf ownImage) ownImage.length ds = none ∧ missingType (loadsOf ownImage) ds = 0
      ∧ (ds.zip (secs 0)).all (fun p => sectionOk (withImage ds (secs 0) (loadsOf ownImage)) p.1 p.2) = true
      ∧ (ds.zip (secs 1)).any (fun p => !sectionOk (withImage ds (secs 1) (loadsOf ownImage)) p.1 p.2) = true
      ∧ (loadsOf ownImage).dev.jobState = .loading := by decide +kernel

/-- Images of one section: the one of a type that no section has, the other without the sections that a job needs. -/
theorem witness_imageFails :
    let a := image [(0x7F, 0xFFFF, 0, 0)] []
    let b := image [(0x10, 0xFFFF, 0, 0)] []
    dirFail (loadsOf a) a.length (dirOf a) = some (0, 5) ∧ headerOk a.length a = true ∧ (crc64 (a.drop 32)).toNat = leAt a 24 8
      ∧ dirFail (loadsOf b) b.length (dirOf b) = none ∧ missingType (loadsOf b) (dirOf b) = 0x01 ∧ headerOk b.length b = true
      ∧ (dirOf a).length = 1 ∧ (dirOf b).length = 1 := by decide +kernel

/-- A bank whose two streams stop at once: MAIN_ENTRY 4, FILLER_ENTRY 8, epoch 0. -/
def stopBank : List W32 :=
  [0x00080004#32, 1#32, 0#32, 0#32, 0x00800004#32, 0x40000000#32, 0#32, 0#32, 0x00800804#32, 0x40000000#32, 0#32, 0#32]

/-- A loaded job with a bank for Board 0. -/
def loadedWith (ws : List W32) : State :=
  { jobIn .loaded with
    doms := [(0, { used := true, mbPerStep := 2, lenLimit := 256, boards := 1 })]
    job := { ready.job with epochs := [(0, 0)], banks := [{ board := 0, words := ws }] } }

/-- The state after START. -/
def startedWith (ws : List W32) : Option State :=
  match exec (.start mb) (loadedWith ws) with
  | .next t => some t
  | _ => none

theorem witness_start :
    AcceptedReg mb .jobControl 2 (loadedWith stopBank) ∧ (loadedWith stopBank).dev.state = .ready
      ∧ (loadedWith stopBank).dev.jobState = .loaded
      ∧ firstBankOf (loadedWith stopBank) 0 = some (stopBank, none) ∧ (loadedWith stopBank).boardOk 0 = true := by
  unfold AcceptedReg Accepted; decide +kernel

theorem witness_firstBanks :
    (List.range 16).all (fun b => !firstBankBad (loadedWith stopBank) b) = true
      ∧ firstBankBad (loadedWith [0#32]) 0 = true ∧ (loadedWith [0#32]).boardOk 0 = true
      ∧ AcceptedReg mb .jobControl 2 (loadedWith [0#32]) ∧ (loadedWith [0#32]).dev.jobState = .loaded
      ∧ (loadedWith [0#32]).dev.moving = none := by
  unfold AcceptedReg Accepted; decide +kernel

theorem witness_startEnters :
    (startedWith stopBank).any (fun t => (List.range 16).all (fun b => (t.board b).inactState != 3) && t.dev.jobState == .running) = true := by
  decide +kernel

theorem witness_startRefused :
    (startedWith [0#32]).any (fun t => t.rd .loadRefusals 0 == 1 && t.dev.jobState == .loaded) = true := by decide +kernel

/-- A running job with a step of domain 0 open. -/
theorem witness_abort :
    AcceptedReg mb .jobControl 3 (jobIn .loading) ∧ AcceptedReg mb .jobControl 3 (stepOpen 9 1 running)
      ∧ (stepOpen 9 1 running).dev.jobState = .running ∧ (0 ∈ (stepOpen 9 1 running).usedDoms)
      ∧ ((stepOpen 9 1 running).dom 0).busy = true ∧ ((stepOpen 9 1 running).dom 0).exch.state ≠ 2
      ∧ (stepOpen 9 1 running).boardOk 15 = true ∧ (stepOpen 9 1 running).stackOk 11 = true := by
  unfold AcceptedReg Accepted; decide +kernel

theorem witness_unload :
    AcceptedReg mb .jobControl 4 (jobIn .loaded) ∧ (jobIn .loaded).dev.jobState = .loaded
      ∧ AcceptedReg mb .jobControl 4 (jobIn .failed) := by
  unfold AcceptedReg Accepted; decide +kernel

theorem witness_jobRefused :
    AcceptedReg mb .jobControl 2 ready ∧ AcceptedReg mb .jobControl 3 ready ∧ AcceptedReg mb .jobControl 4 ready
      ∧ ready.dev.jobState = .none := by
  unfold AcceptedReg Accepted; decide +kernel

/-- STANDBY with PWR_EN asserted, on the field bus with node ID 5. -/
def standby : State :=
  { State.reset with dev := { State.reset.dev with pwrEn := true }, can := { State.reset.can with nodeId := 5 } }

/-- SAFE with every cause ended. -/
def safe : State := { ready with dev := { ready.dev with state := .safe } }

theorem witness_states :
    AcceptedReg mb .stateRequest 1 service ∧ service.dev.state = .service ∧ AcceptedReg mb .stateRequest 1 ready
      ∧ ready.dev.jobState ≠ .running ∧ ready.dev.jobState ≠ .loading
      ∧ ready.dev.moving = none ∧ service.dev.restarting.contains corePower = false := by
  unfold AcceptedReg Accepted; decide +kernel

theorem witness_statesOn :
    AcceptedReg mb .stateRequest 2 ready ∧ AcceptedReg mb .stateRequest 2 safe ∧ safe.dev.state = .safe ∧ safe.dev.safeCause = 0
      ∧ AcceptedReg { path := .can } .stateRequest 2 standby ∧ standby.dev.state = .standby ∧ standby.dev.pwrEn = true
      ∧ standby.dev.booting = false := by
  unfold AcceptedReg Accepted; decide +kernel

/-- SHAKE256 of nothing with 512 bits of output: the figure of FIPS 202's own examples. -/
def emptyDigest : List Byte :=
  leBytes 64 0xBEC4B7B3AC2E294086B49A47491C82FCF692B5679D0105CB00F2C0D8DDC45DD72F76D56E64270CB5821BB862EA52CD3F24EB3E74EB3F3B23138DA80B2BDDB946
theorem test_digest_of_nothing : digest [] = emptyDigest := by decide +kernel

/-- The rotations of step rho follow the walk of FIPS 202 from lane (1, 0): (t + 1)(t + 2)/2 at its t-th lane. -/
theorem test_rho : ((List.range 24).foldl (fun (a : (Nat × Nat) × Bool) t =>
    ((a.1.2, (2 * a.1.1 + 3 * a.1.2) % 5), a.2 && rhoBits (a.1.1 + 5 * a.1.2) == (t + 1) * (t + 2) / 2 % 64)) ((1, 0), true)).2 = true := by decide

/-- A firmware manifest with a SECURITY_VERSION, whose five images are empty, with a signature of one byte (Table 13-8). -/
def fwManifest (version : Nat) : List Byte :=
  ascii "PTFW" ++ leBytes 2 1 ++ leBytes 2 5 ++ leBytes 4 version ++ leBytes 4 0 ++ List.replicate 48 0#8
    ++ [1, 2, 3, 4, 5].flatMap (fun k => leBytes 16 k ++ emptyDigest ++ List.replicate 16 0#8) ++ leBytes 2 1 ++ [0#8]

/-- The active slot holds it. -/
def imaged (s : State) : State :=
  { s with flash := s.flash.setSlot s.fw.active { state := 3, manifest := fwManifest 1 } }

theorem witness_imageOk : ((imaged service).flash.slot service.fw.active).imageOk 4 = true := by
  have e : ((imaged service).flash.slot service.fw.active).image 4 = [] := by decide +kernel
  unfold Slot.imageOk
  rw [e, test_digest_of_nothing]
  decide +kernel

/-- SERVICE with the power-management core restarting. -/
def powerRestarts : State := { service with dev := { service.dev with restarting := [corePower] } }

theorem witness_whilePowerRestarts :
    AcceptedReg mb .stateRequest 1 powerRestarts ∧ AcceptedReg mb .stateRequest 3 powerRestarts
      ∧ powerRestarts.dev.restarting.contains corePower = true ∧ powerRestarts.dev.state = .service ∧ powerRestarts.dev.moving = none := by
  unfold AcceptedReg Accepted; decide +kernel

/-- READY is reached for the first time since the boot, with a stack whose initialisation failed. -/
def withFails : State := { service with dev := { service.dev with initFails := [3], bootReadyMs := 0 } }

theorem witness_initFails :
    AcceptedReg mb .stateRequest 3 withFails ∧ withFails.readySet = true ∧ withFails.stackOk 3 = true ∧ 3 ∈ withFails.dev.initFails
      ∧ withFails.dev.bootReadyMs = 0 := by
  unfold AcceptedReg Accepted; decide +kernel

theorem witness_ready :
    AcceptedReg mb .stateRequest 3 service ∧ service.readySet = true
      ∧ AcceptedReg { path := .can } .stateRequest 3 { service with host := {}, can := { service.can with nodeId := 5 } }
      ∧ ({ service with host := {}, can := { service.can with nodeId := 5 } } : State).readySet = false
      ∧ (service.flash.slot service.fw.active).imageOk 4 = false := by
  unfold AcceptedReg Accepted; decide +kernel

theorem witness_underWay :
    (leaving .standby [] ready).pending = [] ∧ (leaving .standby [] ready).dev.restarting.contains corePower = false
      ∧ (leaving .service [] ready).dev.state = .ready ∧ (leaving .ready [] service).dev.state = .service
      ∧ (leaving .ready [] service).readySet = true ∧ (leaving .ready [corePower] service).dev.restarting.contains corePower = true
      ∧ AcceptedReg mb .stateRequest 1 (leaving .service [] ready) ∧ (leaving .service [] (jobIn .loaded)).dev.jobState = .loaded ∧ AcceptedReg mb .stateRequest 2 service
      ∧ AcceptedReg mb .stateRequest 3 ready ∧ AcceptedReg mb .stateRequest 1 running := by
  unfold AcceptedReg Accepted; decide +kernel

theorem witness_resets :
    ready.dev.jobState ≠ .running ∧ AcceptedReg mb .resetRequest 1 running ∧ AcceptedReg mb .resetRequest 2 running
      ∧ running.dev.jobState = .running
      ∧ AcceptedReg mb .resetRequest 1 ready ∧ AcceptedReg mb .resetRequest 2 ready := by
  unfold AcceptedReg Accepted; decide +kernel

/-! ### Dictionary writes with an effect of their own -/

theorem witness_cwClear : Accepted mb .cwClear (0x2400 + 0) (leBytes 1 1) ready ∧ Accepted mb .cwClear (0x2400 + 255) (leBytes 1 1) ready
    ∧ Accepted mb .cwClear (0x2400 + 255) (leBytes 1 0) ready := by
  unfold Accepted; decide +kernel

theorem witness_ruleSlot :
    [1, 9, 12, 13, 16, 17].all (fun sub => decide (1 ≤ sub ∧ sub ≤ 17)
        && decide (writeStatus ready .mailbox (ruleReg sub) (unitOf ready .mailbox (ruleReg sub) (0x2300 + 255)) (leBytes 4 0) = stOk)) = true
      ∧ Accepted mb (ruleReg 17) (0x2300 + 255) (leBytes 4 0) ready := by
  unfold Accepted; decide +kernel

theorem witness_ruleWord :
    RuleWordRefused 0 1 0x7F800000#32 ready ∧ RuleWordRefused 0 12 0x7FC00000#32 ready ∧ RuleWordRefused 0 13 1#32 ready
      ∧ RuleWordRefused 0 16 1#32 ready ∧ RuleWordRefused 0 9 0x80000001#32 ready ∧ RuleWordRefused 0 17 64#32 ready
      ∧ RuleWordRefused 0 17 3#32 ready ∧ ¬ RuleWordRefused 0 1 0x7F7FFFFF#32 ready ∧ ¬ RuleWordRefused 0 9 0x80000000#32 ready
      ∧ ¬ RuleWordRefused 0 17 0x3E#32 ready := by
  refine ⟨?_, ?_, ?_, ?_, ?_, ?_, ?_, ?_, ?_, ?_⟩ <;> (unfold RuleWordRefused; decide +kernel)

/-- A group entry of kind MODULES with one member, the module's own Board 0, at member-table entry 0, and an epoch. -/
def groupBits (epoch kind members : Nat) : Nat := epoch <<< 176 + kind <<< 172 + members <<< 156 + 31 <<< 79

/-- The module has device number 1; group 0 is that entry. -/
def grouped (epoch kind members : Nat) : State :=
  { ready.wr .fabricDevice 1 with
    job := { ready.job with groups := [(0, BitVec.ofNat 192 (groupBits epoch kind members))], members := [(0, 16)] } }

theorem witness_groupEntry :
    (leBytes 24 (groupBits 2 5 1)).length = 24 ∧ Accepted mb .groupEntry 0x4040 (leBytes 24 (groupBits 2 5 1)) (grouped 1 5 1)
      ∧ gEpoch (BitVec.ofNat 192 (leNat (leBytes 24 (groupBits 2 5 1)))) ≠ gEpoch ((grouped 1 5 1).grp 0)
      ∧ groupOk (grouped 1 5 1) 0 (BitVec.ofNat 192 (leNat (leBytes 24 (groupBits 2 5 1)))) = true
      ∧ gEpoch (BitVec.ofNat 192 (leNat (leBytes 24 (groupBits 1 5 1)))) = gEpoch ((grouped 1 5 1).grp 0)
      ∧ groupOk (grouped 1 5 1) 0 (BitVec.ofNat 192 (leNat (leBytes 24 (groupBits 2 6 1)))) = false
      ∧ groupOk (grouped 1 5 1) 0 (BitVec.ofNat 192 (leNat (leBytes 24 (groupBits 2 1 65)))) = false := by
  unfold Accepted; decide +kernel

/-- Nothing is kept of the messages of group 0. -/
theorem witness_groupKeeps :
    (∀ r ∈ ((grouped 1 5 1).board 0).rdv, r.group = 0 → r.sent = true) ∧ (∀ p ∈ ((grouped 1 5 1).board 0).rdvWait, (hdrOf p.payload).group ≠ 0)
      ∧ (∀ w ∈ (grouped 1 5 1).fab.voteWait, (hdrOf w.2.payload).group ≠ 0) ∧ (grouped 1 5 1).boardOk 0 = true := by decide +kernel

theorem witness_memberAddr :
    AcceptedReg mb .memberAddr 17 (grouped 1 5 1)
      ∧ (grouped 1 5 1).device ≠ 0xFFFF ∧ AcceptedReg mb .memberAddr 17 ready ∧ ready.device = 0xFFFF
      ∧ ∀ g ∈ (grouped 1 5 1).job.groups, gKind g.2 = 0 ∨ gMembers g.2 ≤ (1 + 65536 - gBase g.2) % 65536 := by
  unfold AcceptedReg Accepted; decide +kernel

theorem witness_barrierStart :
    AcceptedReg mb .barrierStart 0 (grouped 1 5 1) ∧ gKind ((grouped 1 5 1).grp 0) = 5 ∧ isMember (grouped 1 5 1) ((grouped 1 5 1).grp 0) = true
      ∧ gKind ((grouped 1 1 1).grp 0) ≠ 5 ∧ isMember (grouped 1 5 0) ((grouped 1 5 0).grp 0) = false
      ∧ AcceptedReg mb .barrierStart 0 (grouped 1 5 0) ∧ AcceptedReg mb .fabricDevice 4095 ready := by
  unfold AcceptedReg Accepted; decide +kernel

/-- Port 0 in a state. -/
def ported (x : PortState) : State := ready.modPort 0 (fun p => { p with state := x, width := 4 })

theorem witness_ports :
    ready.powered = true ∧ AcceptedReg mb .portEnable 0 (ported .up) ∧ AcceptedReg mb .portEnable 1 ready
      ∧ (ready.port (ready.rd .portSel 0)).state = .disabled
      ∧ AcceptedReg mb .portEnable 1 service ∧ service.powered = false ∧ AcceptedReg mb .portEnable 0 service
      ∧ AcceptedReg mb .portRestore 1 (ported .down) ∧ ((ported .down).port 0).state = .down ∧ AcceptedReg mb .portRestore 0 (ported .up)
      ∧ AcceptedReg mb .portRestore 1 (ported .training) ∧ ((ported .training).port 0).inService = false := by
  unfold AcceptedReg Accepted; decide +kernel

theorem witness_portsOn :
    AcceptedReg mb .portRestore 1 (ported .up) ∧ ((ported .up).port 0).inService = true ∧ ((ported .up).port 0).state = .up ∧ ((ported .retrain).port 0).state = .retrain
      ∧ widthOf (lanesGood (ported .up) 0 &&& ((ported .up).port 0).peerLanes) ≠ 0
      ∧ widthOf (lanesGood (ported .down) 0 &&& ((ported .down).port 0).peerLanes) ≠ 0
      ∧ widthOf (lanesGood ((ported .down).modPort 0 (fun p => { p with peerLanes := 0 })) 0 &&& 0) = 0
      ∧ AcceptedReg mb .nodeId 127 ready ∧ AcceptedReg mb .halfClock 3 ready := by
  unfold AcceptedReg Accepted; decide +kernel

/-! ### The field bus, firmware, boot and cores -/

/-- READY on the field bus with a node ID. -/
def onBus (n : Nat) : State := { ready with can := { nodeId := n, chainIn := true } }

theorem witness_clearIds :
    canActive (onBus 5) = true ∧ ([1#8, 0#8] ++ List.replicate 6 0#8).length = 8 ∧ byteAt [1#8, 0#8] 0 = 1
      ∧ testBit (byteAt [1#8, 0#8] 1) 0 = false ∧ testBit (byteAt [1#8, 1#8] 1) 0 = true
      ∧ (onBus 5).rd .nodeIdPersist ≠ 1 ∧ ((onBus 5).wr .nodeIdPersist 1).rd .nodeIdPersist = 1 := by decide +kernel

theorem witness_offer :
    canActive (onBus 0) = true ∧ (onBus 0).can.nodeId = 0 ∧ (onBus 0).can.chainIn = true ∧ (1000 ≤ 1000 ∧ 999 < 1000)
      ∧ byteAt [1#8, 1#8, 0#8] 1 = 1 ∧ byteAt [1#8, 127#8, 1#8] 1 = 127
      ∧ testBit (byteAt [1#8, 1#8, 0#8] 2) 0 = false ∧ testBit (byteAt [1#8, 127#8, 1#8] 2) 0 = true
      ∧ (onBus 5).can.nodeId ≠ 0 ∧ ready.can.chainIn = false ∧ ([1#8] : List Byte).length ≠ 8 ∧ (onBus 5).dev.state ≠ .off := by
  decide +kernel

theorem witness_fieldBus :
    canActive (onBus 127) = true ∧ (onBus 127).can.nodeId ≠ 0 ∧ 0x0FF ∈ [0x080 + 127, 0x100 + 127, 0x200 + 127, 0x280 + 127]
      ∧ 0x2FF ∈ [0x080 + 127, 0x100 + 127, 0x200 + 127, 0x280 + 127]
      ∧ (onBus 5).rd .heartbeatPeriod ≠ 0 ∧ ({ onBus 5 with can := { nodeId := 5, busOff := true } } : State).can.busOff = true
      ∧ (onBus 5).can.recCount ≤ 255 ∧ 0x1FFFFFFF < 2 ^ 29 := by decide +kernel

/-- A package of n bytes is to be staged; then k bytes of it have come through FW_CHUNK. -/
def toStage (n : Nat) : State := ready.wr .fwPackageBytes n
def staged (n k : Nat) : State :=
  { ((toStage n).wr .fwChunkOffset k) with
    fw := { ready.fw with stageState := 1, stageSource := 1, chunks := List.replicate k 0#8 } }

theorem witness_stage :
    AcceptedReg mb .fwControl 1 (toStage 1) ∧ (toStage 1).fw.actState = 0 ∧ (toStage 1).fw.staging = false
      ∧ (toStage 50266112).rd .fwPackageBytes = 50266112 ∧ (toStage 50266113).rd .fwPackageBytes = 50266113
      ∧ (toStage 0).rd .fwPackageBytes = 0 := by
  unfold AcceptedReg Accepted; decide +kernel

theorem witness_chunk :
    Accepted mb .fwChunk 0x8010 [1#8, 2#8] (staged 4 2) ∧ (staged 4 2).rd .fwChunkOffset = (staged 4 2).fw.chunks.length
      ∧ 2 + 2 ≤ (staged 4 2).rd .fwPackageBytes ∧ (staged 3 2).rd .fwPackageBytes < 2 + 2
      ∧ ((staged 4 2).wr .fwChunkOffset 1).rd .fwChunkOffset ≠ ((staged 4 2).wr .fwChunkOffset 1).fw.chunks.length := by
  unfold Accepted; decide +kernel

/-- What it takes to be vouched for: a certificate of a kind under a key of zeros, with a signature of one byte. Whether a signature verifies
is an open value; the witnesses below say so. -/
def zeroKey : List Byte := List.replicate 1793 0#8
def certOf (kind : Nat) : List Byte := ascii "PTCK" ++ leBytes 4 (kind + 256 + 65536) ++ (digest zeroKey ++ (zeroKey ++ [0#8]))

theorem rounds_length (n r : Nat) (a : Lanes) (h : a.length = 25) : (keccakRounds n r a).length = 25 := by
  induction n generalizing r a with
  | zero => exact h
  | succ n ih => exact ih _ _ (by unfold chiIota lanesOf; rw [List.length_map, List.length_range])

theorem absorb_length (a : Lanes) (b : List Byte) : (absorb a b).length = 25 :=
  rounds_length 24 1 _ (by unfold lanesOf; rw [List.length_map, List.length_range])

theorem digest_length (bs : List Byte) : (digest bs).length = 64 := by
  have fold : ∀ (bl : List (List Byte)) (a : Lanes), a.length = 25 → (bl.foldl absorb a).length = 25 := by
    intro bl
    induction bl with
    | nil => exact fun _ h => h
    | cons b bl ih => exact fun a _ => ih _ (absorb_length a b)
  have h := fold (shakeBlocks (shakePad bs)) (List.replicate 25 0#64) List.length_replicate
  unfold digest
  generalize (shakeBlocks (shakePad bs)).foldl absorb (List.replicate 25 0#64) = a at h ⊢
  have g : ∀ l : List W64, (l.flatMap (fun x => leBytes 8 x.toNat)).length = 8 * l.length := by
    intro l
    induction l with
    | nil => rfl
    | cons x l ih => rw [List.flatMap_cons, List.length_append, ih, List.length_cons, show (leBytes 8 x.toNat).length = 8 from rfl]; omega
  simp only [g, List.length_take, h]; rfl

theorem padTo_length (n : Nat) (bs : List Byte) : (padTo n bs).length = n := by
  unfold padTo; simp only [List.length_take, List.length_append, List.length_replicate]; omega

theorem take_padTo {n k : Nat} {bs : List Byte} (h : k ≤ n) (hk : k ≤ bs.length) : (padTo n bs).take k = bs.take k := by
  unfold padTo; rw [List.take_take, min_eq_left h, List.take_append_of_le_length hk]

theorem cert_parts (kind : Nat) :
    certIssuer (certOf kind) = digest zeroKey ∧ certKey (certOf kind) = zeroKey ∧ (certOf kind).length = 1866
      ∧ (certOf kind).take 8 = ascii "PTCK" ++ leBytes 4 (kind + 256 + 65536) := by
  have l8 : (ascii "PTCK" ++ leBytes 4 (kind + 256 + 65536)).length = 8 := by simp [ascii, leBytes]
  have ld := digest_length zeroKey
  have lz : zeroKey.length = 1793 := List.length_replicate
  have d8 : (certOf kind).drop 8 = digest zeroKey ++ (zeroKey ++ [0#8]) := by
    unfold certOf; rw [List.drop_append_of_le_length (by omega), List.drop_eq_nil_of_le (by omega), List.nil_append]
  refine ⟨?_, ?_, ?_, ?_⟩
  · unfold certIssuer; rw [d8, List.take_append_of_le_length (by omega), List.take_of_length_le (by omega)]
  · unfold certKey
    rw [show (72 : Nat) = 8 + 64 from rfl, ← List.drop_drop, d8, List.drop_append_of_le_length (by omega), List.drop_eq_nil_of_le (by omega),
      List.nil_append, List.take_append_of_le_length (by omega), List.take_of_length_le (by omega)]
  · unfold certOf; rw [List.length_append, l8]; simp only [List.length_append, ld, lz, List.length_singleton]
  · unfold certOf; rw [List.take_append_of_le_length (by omega), List.take_of_length_le (by omega)]

theorem cert_form (kind : Fin 5) : certForm kind.val (certOf kind.val) = true := by
  obtain ⟨-, -, hl, h8⟩ := cert_parts kind.val
  have at8 : ∀ i n, i + n ≤ 8 → ((certOf kind.val).drop i).take n = ((ascii "PTCK" ++ leBytes 4 (kind.val + 256 + 65536)).drop i).take n := by
    intro i n h
    rw [← h8, List.drop_take, List.take_take, min_eq_left (by omega)]
  unfold certForm byteAt leAt
  rw [show ((certOf kind.val).drop 6).take 2 = _ from at8 6 2 (by omega), hl]
  have h4 := at8 4 1 (by omega)
  have h5 := at8 5 1 (by omega)
  have h0 := at8 0 4 (by omega)
  rw [List.drop_zero] at h0
  have g : ∀ i, (certOf kind.val).getD i 0#8 = (((certOf kind.val).drop i).take 1).getD 0 0#8 := by
    intro i; simp only [List.getD_eq_getElem?_getD, List.getElem?_take, List.getElem?_drop]; rfl
  rw [h0, g 4, g 5, h4, h5]
  clear hl h8 at8 h4 h5 h0 g
  revert kind; decide +kernel

/-- A module that was made with these certificates, and a slot that holds the package. -/
def made (s : State) : State :=
  { s with ident := { s.ident with
      rootCert := certOf 1, productCa := certOf 2, romRoot := digest zeroKey, issuer := digest zeroKey, signature := [0#8] } }
def goodSlot : Slot := { state := 4, manifest := fwManifest 1, signer := certOf 3 }

theorem made_issues (h : ∀ k m g, Config.falcon k m g = true) (s : State) (kind : Nat) (hk : kind < 5) :
    (made s).ident.issued kind (certOf kind) = true := by
  unfold Ident.issued certValid
  rw [show certForm kind (certOf kind) = true from cert_form ⟨kind, hk⟩, (cert_parts kind).1, show (made s).ident.rootCert = certOf 1 from rfl, (cert_parts 1).2.1, h]
  simp

theorem made_rootOk (h : ∀ k m g, Config.falcon k m g = true) (s : State) : (made s).ident.rootOk = true := by
  have hi := made_issues h s 1 (by decide)
  unfold Ident.issued at hi
  unfold Ident.rootOk
  rw [show (made s).ident.romRoot = digest zeroKey from rfl, show (made s).ident.rootCert = certOf 1 from rfl, (cert_parts 1).2.1]
  simpa [made] using hi

theorem made_manifestOk (h : ∀ k m g, Config.falcon k m g = true) (s : State) : (made s).ident.manifestOk = true := by
  have hi := made_issues h s 2 (by decide)
  unfold Ident.manifestOk
  rw [show (made s).ident.productCa = certOf 2 from rfl, show (made s).ident.issued 2 (certOf 2) = true from hi, (cert_parts 2).2.1, h]
  simp [made]

theorem goodSlot_images : [1, 2, 3, 4, 5].all goodSlot.imageOk = true := by
  have e : ∀ i ∈ [1, 2, 3, 4, 5], goodSlot.image i = [] ∧ leAt (goodSlot.entryOf i) 8 4 = 0 ∧ goodSlot.imageDigest i = emptyDigest := by
    decide +kernel
  rw [List.all_eq_true]
  intro i hi
  obtain ⟨a, b, c⟩ := e i hi
  unfold Slot.imageOk
  rw [a, b, c, test_digest_of_nothing]
  simp

/-- A package that holds that slot. -/
def package : List Byte := padTo 4096 (fwManifest 1) ++ padTo 61440 (certOf 3)

theorem witness_stagingComplete :
    (staged 2 2).fw.staging = true ∧ (staged 2 2).dev.restarting.contains coreSecurity = false ∧ (staged 2 2).fw.stageSource = 1
      ∧ (staged 2 2).fw.chunks.length = (staged 2 2).rd .fwPackageBytes ∧ (staged 2 2).fw.active ≤ 1
      ∧ (staged 4 2).fw.chunks.length ≠ (staged 4 2).rd .fwPackageBytes ∧ ready.fw.staging = false := by decide +kernel

/-- With the headers of the slot where the package has them, and every signature verified, no check of the package fails. -/
theorem witness_goodPackage (h : ∀ k m g, Config.falcon k m g = true) (hm : Config.headerManifest = 0) (hs : Config.headerSigner = 4096)
    (s : State) (hr : s.rollback = 0) (hw : s.ident.hwRevision = 1) :
    let k := slotOf 4 package
    k = goodSlot ∧ k.formOk = true ∧ (made s).chainOk k = true ∧ k.signedOk = true ∧ ¬ k.secVersion < s.rollback
      ∧ ¬ s.ident.hwRevision < k.hwMin ∧ [1, 2, 3, 4, 5].all k.imageOk = true := by
  have lc : (certOf 3).length = 1866 := (cert_parts 3).2.2.1
  have lm : (fwManifest 1).length = 547 := by decide +kernel
  have lp : (padTo 4096 (fwManifest 1)).length = 4096 := padTo_length _ _
  have lq : (padTo 61440 (certOf 3)).length = 61440 := padTo_length _ _
  have e : slotOf 4 package = goodSlot := by
    have hp : package.take 65536 = package := List.take_of_length_le (by unfold package; rw [List.length_append, lp, lq])
    have hd : package.drop 65536 = [] := List.drop_eq_nil_of_le (by unfold package; rw [List.length_append, lp, lq])
    have hc : package.drop 4096 = padTo 61440 (certOf 3) := by
      unfold package; rw [List.drop_append_of_le_length (by omega), List.drop_eq_nil_of_le (by omega), List.nil_append]
    have h1 : leAt package 544 2 = 1 := by
      unfold leAt package
      rw [List.drop_append_of_le_length (by omega), List.take_append_of_le_length (by rw [List.length_drop]; omega), List.take_drop,
        take_padTo (by omega) (by omega)]
      decide +kernel
    have h2 : package.take 547 = fwManifest 1 := by
      unfold package
      rw [List.take_append_of_le_length (by omega), take_padTo (by omega) (by omega), List.take_of_length_le (by omega)]
    have hq : ∀ n, n ≤ 1866 → (padTo 61440 (certOf 3)).take n = (certOf 3).take n :=
      fun n hn => take_padTo (by omega) (by omega)
    have h3 : leAt (padTo 61440 (certOf 3)) 6 2 = 1 := by
      have hf := cert_form 3
      unfold leAt
      rw [show ((padTo 61440 (certOf 3)).drop 6).take 2 = ((certOf 3).drop 6).take 2 by
        rw [List.take_drop, List.take_drop, hq 8 (by omega)]]
      rw [List.take_drop, show 6 + 2 = 8 from rfl, (cert_parts 3).2.2.2]
      decide
    unfold slotOf goodSlot
    simp only [hm, hs, hp, hd, hc, List.drop_zero, h1, h3]
    rw [h2, hq 1866 (by omega), List.take_of_length_le (by omega)]
  simp only [e]
  have hf : goodSlot.formOk = true := by decide +kernel
  have hv : goodSlot.hwMin = 0 := by decide +kernel
  refine ⟨trivial, hf, ?_, h _ _ _, by rw [hr]; omega, by rw [hw, hv]; decide, goodSlot_images⟩
  unfold State.chainOk
  rw [made_rootOk h s, Bool.true_and, show goodSlot.signer = certOf 3 from rfl]
  exact made_issues h s 3 (by decide)

/-- A staged package, a trial in slot 1, and an activation in a state. -/
def fwState (stage act : Nat) (b : Slot) : State :=
  { ready with fw := { ready.fw with stageState := stage, actState := act }, flash := { ready.flash with slotB := b } }

theorem witness_activation :
    AcceptedReg mb .fwControl 2 (fwState 4 0 { state := 3 }) ∧ (fwState 4 0 { state := 3 }).fw.active ≤ 1
      ∧ (fwState 0 2 { state := 4 }).fw.actState = 2 ∧ (fwState 0 2 { state := 4 }).dev.restarting.contains coreSecurity = false
      ∧ (∀ e ∈ (fwState 0 2 { state := 4 }).doms, e.2.busy = false) ∧ (fwState 0 2 { state := 4 }).fw.meas.length ≤ 59
      ∧ ({ fwState 0 4 { state := 4 } with fw := { ready.fw with actState := 4, active := 1 } } : State).trialSlot = some 1
      ∧ AcceptedReg mb .fwControl 3 (fwState 0 4 { state := 4 })
      ∧ AcceptedReg mb .fwControl 4 (fwState 2 0 {}) ∧ (fwState 2 0 {}).fw.staging = true
      ∧ (fwState 0 1 { state := 4 }).fw.staging = false ∧ (fwState 0 1 { state := 4 }).fw.actState = 1
      ∧ (fwState 0 2 { state := 4 }).dev.restarting = [] := by
  unfold AcceptedReg Accepted; decide +kernel

/-- A draining activation switches while no step is open, and drains while one is. -/
theorem witness_draining :
    (fwState 0 2 { state := 4 }).switching = true ∧ ({ fwState 0 2 { state := 4 } with doms := (stepOpen 9 1 running).doms } : State).switching = false
      ∧ AcceptedReg mb .fwControl 4 { fwState 0 2 { state := 4 } with doms := (stepOpen 9 1 running).doms }
      ∧ (fwState 0 2 { state := 4 }).fw.staging = false := by
  unfold AcceptedReg Accepted; decide +kernel

theorem witness_activationSwitch :
    (∀ i ∈ [2, 3, 4], ((fwState 0 2 goodSlot).flash.slot 1).imageOk i = true)
      ∧ ((fwState 0 2 { state := 4, manifest := fwManifest 1, images := [] }).flash.slot 1).imageOk 6 = false := by
  refine ⟨fun i hi => List.all_eq_true.1 goodSlot_images i (by revert hi; decide +revert), by decide +kernel⟩

theorem witness_activationRefused :
    AcceptedReg mb .fwControl 2 ready ∧ ready.fw.stageState ≠ 4 ∧ ready.fw.actState ≠ 2 ∧ AcceptedReg mb .fwControl 3 ready
      ∧ ready.trialSlot = none ∧ AcceptedReg mb .fwControl 4 ready ∧ ready.fw.actState ≠ 1
      ∧ AcceptedReg mb .fwControl 1 (staged 4 2) ∧ Accepted mb .fwChunk 0x8010 [1#8] ready := by
  unfold AcceptedReg Accepted; decide +kernel

theorem witness_inhibitClear :
    testBit ({ ready.fw with inhibit := 8 } : Firmware).inhibit 3 = true ∧ testBit ({ ready.fw with inhibit := 8 } : Firmware).inhibitOn 3 = false
      ∧ testBit ({ ready.fw with inhibit := 1 } : Firmware).inhibit 0 = true := by decide

/-- The identity key is ready, and a report is under way. -/
def keyed : State := { ready with fw := { ready.fw with keyReady := true } }
def reporting : State := { ready with fw := { keyed.fw with attest := 1, nonce := List.replicate 32 7#8 } }

theorem witness_attestation :
    Accepted mb .attestNonce 0x9000 (List.replicate 32 7#8) keyed ∧ keyed.fw.keyReady = true ∧ keyed.fw.keyBad = false
      ∧ Accepted mb .attestNonce 0x9000 (List.replicate 32 7#8) ready ∧ ready.fw.keyReady = false
      ∧ reporting.fw.attest = 1 ∧ reporting.fw.nonce.length = 32 ∧ reporting.dev.restarting.contains coreSecurity = false
      ∧ ready.dev.pgood = true ∧ Accepted mb .attestNonce 0x9000 [7#8] ready ∧ standby.dev.pgood = false := by
  unfold Accepted; decide +kernel

/-- A module whose IDENTITY is the digest of the key that its seed gives, and one that carries no IDENTITY. -/
theorem witness_identity (x : List Byte) :
    let input := ascii "PT16-ID" ++ padTo 32 x
    digest (Config.falconPublic input)
        = ({ ready with ident := { ready.ident with identityDigest := digest (Config.falconPublic input) } } : State).ident.identityDigest
      ∧ digest (Config.falconPublic input) ≠ ready.ident.identityDigest := by
  refine ⟨rfl, fun h => ?_⟩
  have hl := digest_length (Config.falconPublic (ascii "PT16-ID" ++ padTo 32 x))
  rw [h] at hl
  exact absurd hl (by decide)

/-- A token for a challenge: its magic, SCOPE 1, the challenge, two lengths, a certificate of kind 4 and a signature of one byte. -/
def token (c : List Byte) : List Byte := ascii "PTDU" ++ leBytes 4 1 ++ (c ++ (leBytes 4 (1866 + 65536) ++ (certOf 4 ++ [0#8])))

theorem token_parts (c : List Byte) (hc : c.length = 48) :
    (token c).length = 1927 ∧ (token c).take 4 = ascii "PTDU" ∧ ((token c).drop 8).take 48 = c
      ∧ (token c).drop 56 = leBytes 4 (1866 + 65536) ++ (certOf 4 ++ [0#8]) := by
  have l8 : (ascii "PTDU" ++ leBytes 4 1).length = 8 := by decide
  have lc : (certOf 4).length = 1866 := (cert_parts 4).2.2.1
  have lr : (leBytes 4 (1866 + 65536) ++ (certOf 4 ++ [0#8])).length = 1871 := by
    rw [List.length_append, List.length_append, lc]; rfl
  have d8 : (token c).drop 8 = c ++ (leBytes 4 (1866 + 65536) ++ (certOf 4 ++ [0#8])) := by
    unfold token; rw [List.drop_append_of_le_length (by omega), List.drop_eq_nil_of_le (by omega), List.nil_append]
  refine ⟨?_, ?_, ?_, ?_⟩
  · unfold token; rw [List.length_append, l8, List.length_append, hc, lr]
  · unfold token; rw [List.take_append_of_le_length (by omega)]; decide
  · rw [d8, List.take_append_of_le_length (by omega), List.take_of_length_le (by omega)]
  · rw [show (56 : Nat) = 8 + 48 from rfl, ← List.drop_drop, d8, List.drop_append_of_le_length (by omega), List.drop_eq_nil_of_le (by omega),
      List.nil_append]

/-- Where every signature verifies, that token is valid for the challenge that stands. -/
theorem witness_token (h : ∀ k m g, Config.falcon k m g = true) : tokenValid (made service) (token (debugChallenge (made service))) = true := by
  have hc : (debugChallenge (made service)).length = 48 := by
    unfold debugChallenge; simp only [List.length_append, padTo_length]
  obtain ⟨hl, hm, hk, hd⟩ := token_parts _ hc
  have lc : (certOf 4).length = 1866 := (cert_parts 4).2.2.1
  have hn : leAt (token (debugChallenge (made service))) 56 2 = 1866 := by
    unfold leAt; rw [hd, List.take_append_of_le_length (by simp [leBytes])]; decide
  have d58 : (token (debugChallenge (made service))).drop 58 = (leBytes 4 (1866 + 65536)).drop 2 ++ (certOf 4 ++ [0#8]) := by
    rw [show (58 : Nat) = 56 + 2 from rfl, ← List.drop_drop, hd, List.drop_append_of_le_length (by simp [leBytes])]
  have hg : leAt (token (debugChallenge (made service))) 58 2 = 1 := by
    unfold leAt; rw [d58, List.take_append_of_le_length (by simp [leBytes])]; decide
  have hx : ((token (debugChallenge (made service))).drop 60).take 1866 = certOf 4 := by
    rw [show (60 : Nat) = 56 + 4 from rfl, ← List.drop_drop, hd, List.drop_append_of_le_length (by simp [leBytes]),
      List.drop_eq_nil_of_le (by simp [leBytes]), List.nil_append, List.take_append_of_le_length (by omega), List.take_of_length_le (by omega)]
  have hi : (made service).ident.issued 4 (certOf 4) = true := made_issues h service 4 (by decide)
  unfold tokenValid
  simp [hm, hk, hn, hg, hl, hx, h, hi]

theorem witness_badToken :
    Accepted mb .debugResponse 0x9010 (List.replicate 60 0#8) service ∧ service.dev.state = .service
      ∧ tokenValid service (List.replicate 60 0#8) = false := by
  refine ⟨by unfold Accepted; decide +kernel, by decide, ?_⟩
  have h : ((List.replicate 60 0#8).take 4 == ascii "PTDU") = false := by decide +kernel
  unfold tokenValid
  rw [h]; rfl

theorem witness_tap : service.dev.state ≠ .off ∧ ready.dev.state ≠ .off ∧ service.fw.meas.length < 63 := by decide

/-- OFF; and a boot of slot 0 that has not begun to read. -/
def off : State := { State.reset with dev := { State.reset.dev with state := .off, pwrEn := true } }
def booting (slotA slotB : Slot) : State :=
  { made standby with
    dev := { standby.dev with booting := true, pgood := true }
    flash := { standby.flash with slotA := slotA, slotB := slotB } }

/-- The same once the boot has read the DATA area. -/
def booted (slotA slotB : Slot) : State := (bootData {} (booting slotA slotB)).getD (booting slotA slotB)

theorem booted_holds (a b : Slot) :
    bootData {} (booting a b) = some (booted a b) ∧ (booted a b).ident = (made standby).ident
      ∧ (booted a b).flash.slotA = a ∧ (booted a b).flash.slotB = b := by
  have h : (bootData {} (booting a b)).isSome = true := by
    unfold bootData; rw [Option.isSome_map]; rfl
  unfold booted
  cases e : bootData {} (booting a b) with
  | none => rw [e] at h; cases h
  | some u =>
    unfold bootData at e
    rw [Option.map_eq_some_iff] at e
    obtain ⟨c, -, rfl⟩ := e
    exact ⟨rfl, rfl, rfl, rfl⟩

theorem witness_boot :
    off.dev.state = .off ∧ standby.dev.state = .standby ∧ standby.dev.booting = false ∧ ready.dev.state ≠ .standby
      ∧ (booting {} {}).dev.booting = true ∧ (booting {} {}).dev.restarting.contains coreSecurity = false
      ∧ (booted {} {}).flash.bootPref ≤ 1
      ∧ (bootData { failA := true, failB := true } (booting {} {})).isNone = true := by decide +kernel

/-- Where every signature verifies, the good slot passes step 3 of R296. -/
theorem goodSlot_verifies (h : ∀ k m g, Config.falcon k m g = true) (s : State) (hi : s.ident = (made standby).ident)
    (hr : s.rollback = 0) : s.slotVerifies goodSlot = true := by
  have hc : s.chainOk goodSlot = true := by
    unfold State.chainOk
    rw [hi, made_rootOk h standby, Bool.true_and, show goodSlot.signer = certOf 3 from rfl]
    exact made_issues h standby 3 (by decide)
  have hf : goodSlot.formOk = true := by decide +kernel
  have hw : goodSlot.hwMin = 0 := by decide +kernel
  have h1 : goodSlot.imageOk 1 = true := List.all_eq_true.1 goodSlot_images 1 (by decide)
  have hg : goodSlot.signedOk = true := h _ _ _
  unfold State.slotVerifies
  rw [hc, hf, hw, h1, hg, hr]
  rfl

/-- A TRIAL slot that holds the good package boots, and so does the other one. -/
theorem goodSlots_boot (h : ∀ k m g, Config.falcon k m g = true) (s : State) (hi : s.ident = (made standby).ident)
    (hr : s.rollback = 0) (h0 : s.flash.slotA = goodSlot) (h1 : s.flash.slotB = goodSlot) :
    Boots {} 0 s ∧ Boots {} 1 s ∧ s.ident.manifestOk = true ∧ ∀ i ∈ [2, 3, 5], (s.flash.slot 0).imageOk i = true := by
  have e0 : s.flash.slot 0 = goodSlot := by unfold Flash.slot; rw [if_pos rfl, h0]
  have e1 : s.flash.slot 1 = goodSlot := by unfold Flash.slot; rw [if_neg (by decide), h1]
  have hv := goodSlot_verifies h s hi hr
  unfold Boots
  rw [e0, e1, hv, hi, made_manifestOk h standby]
  exact ⟨by decide, by decide, rfl, fun i hm => List.all_eq_true.1 goodSlot_images i (by revert hm; decide +revert)⟩

theorem witness_boots (h : ∀ k m g, Config.falcon k m g = true) :
    Boots {} 0 (booted goodSlot goodSlot) ∧ Boots {} 1 (booted goodSlot goodSlot) ∧ (booted goodSlot goodSlot).ident.manifestOk = true
      ∧ ∀ i ∈ [2, 3, 5], ((booted goodSlot goodSlot).flash.slot 0).imageOk i = true :=
  goodSlots_boot h _ (booted_holds _ _).2.1 (by decide +kernel) (booted_holds _ _).2.2.1 (booted_holds _ _).2.2.2

/-- AUTO_READY with the host link in training, and with it up. -/
theorem witness_autoReady :
    (booted {} {}).rd .autoReady = 1 ∧ ((booted {} {}).wr .autoReady 0).rd .autoReady ≠ 1 ∧ (booted {} {}).pairLeft = true
      ∧ (booted {} {}).host.mode = 0 ∧ ({ booted {} {} with host := { (booted {} {}).host with mode := 2 } } : State).host.mode ≠ 0
      ∧ ({ booted {} {} with ident := { (booted {} {}).ident with disabled := 0xFFFF } } : State).pairLeft = false := by decide +kernel

theorem witness_pwrEnDeassert :
    powerRestarts.dev.state ≠ .off ∧ powerRestarts.dev.state ≠ .standby ∧ powerRestarts.dev.restarting.contains corePower = true
      ∧ ({ running with dev := { running.dev with restarting := [corePower] } } : State).dev.jobState = .running
      ∧ ready.dev.restarting.contains corePower = false := by decide

theorem witness_bootFails :
    ¬ Boots {} 0 (booted {} {}) ∧ ¬ Boots {} 1 (booted {} {}) ∧ (booted {} {}).dev.pwrEn = true
      ∧ ({ ready.ident with signature := [] } : Ident).manifestOk = false := by
  refine ⟨fun h => absurd h.1 (by decide +kernel), fun h => absurd h.1 (by decide +kernel), by decide +kernel, ?_⟩
  unfold Ident.manifestOk
  simp

/-- The watchdog record of a core holds one expiry at time 0. -/
def expired (c : Nat) (t : W64) : State := { ready with time := t, dev := { ready.dev with wdog := [(c, (0, 1))], restarting := [c] } }

theorem witness_watchdog :
    [Core.security, .power, .scheduler, .control 0, .control 15].all (fun c => coreRuns ready (coreNo c)) = true
      ∧ [0, 1, 2, 16, 31].all (fun c => decide (0 < (tget (expired c 1000000000#64).dev.wdog c (0, 0)).2)
          && decide ((expired c 1000000000#64).now ≤ (tget (expired c 1000000000#64).dev.wdog c (0, 0)).1 + 1000000000)
          && decide (¬ (expired c 1000000001#64).now ≤ (tget (expired c 1000000001#64).dev.wdog c (0, 0)).1 + 1000000000)) = true
      ∧ (expired 2 0#64).dev.restarting.contains (coreNo .scheduler) = true ∧ (expired 2 0#64).paths.waiting = []
      ∧ ready.hubUp = true ∧ (booting {} {}).dev.state = .standby ∧ standby.hubUp = false ∧ standby.dev.booting = false := by decide +kernel

theorem witness_noLoadWaits : ∀ b, ((expired 2 0#64).board b).loadWaits = [] := fun _ => rfl

/-! ### Snapshots, the fault log, Nines units, counters, freeze -/

/-- A loaded job whose domain 0 has one F8 square at the start of stack 0; SNAP_DOMAINS names domain 0. -/
def snapped : State :=
  { ({ jobIn .loaded with
      doms := [(0, { used := true, mbPerStep := 2, lenLimit := 256, boards := 1, preIntact := true })]
      job := { ready.job with regions := [(0, BitVec.ofNat 128 (1 <<< 116 + 8 <<< 111 + 1 <<< 67 + 4 <<< 10))] } } : State).wrBlob
        .snapDomains (1#8 :: List.replicate 31 0#8) with pending := [] }

/-- Domain 0 waits for its capture, or is being captured. -/
def capturing (pending : Bool) (state : Nat) : State :=
  { snapped.modDom 0 (fun d => { d with snapPending := pending, snapCapturing := !pending }) with
    snap := { state := state, domains := [0], bytes := 100 } }

theorem witness_snapshot :
    AcceptedReg mb .snapControl 1 snapped ∧ copyState snapped = true ∧ snapped.snap.idle = true ∧ snapPlaceOk snapped = true
      ∧ namedDomains snapped = [0] ∧ copyState service = false ∧ (capturing true 1).snap.idle = false
      ∧ snapPlaceOk (snapped.wr .snapTarget 1) = false
      ∧ captureDue (capturing true 1) ((capturing true 1).dom 0) = true ∧ (capturing true 1).powered = true
      ∧ (capturing false 2).snap.state = 2 ∧ (∀ e ∈ (capturing false 2).doms, e.2.snapPending = false)
      ∧ 100 ≤ (capturing false 2).snap.bytes ∧ (capturing false 2).snap.bytes < 101 ∧ (capturing true 1).snap.state = 1 := by
  unfold AcceptedReg Accepted; decide +kernel

/-- The engine reads its one square. -/
def engineReads : State := { capturing false 2 with snap := { state := 2, domains := [0], bytes := 100, left := [(0, 0)] } }

theorem witness_capture :
    SquareClean engineReads 0 0 ∧ ¬ SquareClean (engineReads.modStack 0 (fun x => { x with bad := [0] })) 0 0
      ∧ engineReads.pending = [] ∧ engineReads.dev.moving = none ∧ engineReads.powered = true ∧ (∀ e ∈ engineReads.doms, e.2.passes = [])
      ∧ engineReads.snap.left = [(0, 0)] ∧ engineReads.underTest (stackOf (rBase (engineReads.region 0))) = false
      ∧ (∀ b, (engineReads.board b).gruns = []) := by
  refine ⟨by unfold SquareClean; decide +kernel, by unfold SquareClean; decide +kernel, by decide +kernel, by decide +kernel, by decide +kernel,
    by decide +kernel, rfl, by decide +kernel, fun _ => rfl⟩

/-- A stream of an empty capture into a SNAPSHOT region of 64 KiB, from an address of it on. -/
def capturedInto (addr bytes : Nat) : State :=
  { windowed with snap := { state := 2, target := 1, addr := addr, bytes := bytes } }

theorem witness_snapshotPlace :
    (capturedInto 0 4096).snap.state = 2 ∧ (capturedInto 0 4096).snap.left = [] ∧ (∀ e ∈ (capturedInto 0 4096).doms, e.2.snapPending = false)
      ∧ (capturedInto 0 4096).snap.addr + (snapStream (capturedInto 0 4096)).length ≤ snapLimit (capturedInto 0 4096)
      ∧ (snapStream (capturedInto 0 4096)).length ≤ 4096
      ∧ ¬ (capturedInto 65472 128).snap.addr + min (snapStream (capturedInto 65472 128)).length 128 ≤ snapLimit (capturedInto 65472 128)
      ∧ (capturing false 2).snap.target ≠ 1 := by decide +kernel

theorem witness_export : AcceptedReg mb .snapControl 2 snapped := by unfold AcceptedReg Accepted; decide +kernel

theorem witness_restore :
    AcceptedReg mb .snapControl 3 snapped ∧ snapped.dev.state = .ready ∧ snapped.dev.jobState = .loaded
      ∧ (snapped.wr .restorePoint 1).rd .restorePoint = 1
      ∧ (snapped.wr .snapTarget 2).rd .snapTarget = 2 ∧ (snapped.wr .snapTarget 2).rd .restorePoint = 0
      ∧ (snapped.wr .restoreRetag 1).rd .restoreRetag = 1 := by
  unfold AcceptedReg Accepted; decide +kernel

/-- A loaded job without a region, with group 0 of a kind at an epoch, and domain 0. -/
def loaded (epoch kind members : Nat) : State :=
  { grouped epoch kind members with
    dev := { ready.dev with jobState := .loaded }
    doms := [(0, { used := true, mbPerStep := 2, lenLimit := 256 })] }

/-- The stream of a snapshot of it. -/
def streamOf (epoch kind members : Nat) : List Byte :=
  let s := loaded epoch kind members
  let s := { s.modDom 0 (fun d => { d with snapPending := true, preIntact := true }) with
    snap := { state := 1, domains := [0], bytes := 65536, parts := headParts s } }
  match exec (.captureStart 0) s with
  | .next t => snapStream t
  | _ => []

/-- A restore of domain 0, whose groups have epoch 2 now. -/
def restoring (target epoch : Nat) : State :=
  { loaded 2 5 1 with snap := { state := 5, domains := [0], target := target, epoch := epoch, point := 1 } }

/-- A restore from 64 bytes of a SNAPSHOT region, whose first line is uncorrectable. -/
def restoringBad : State :=
  { (restoring 1 3).modStack 0 (fun x => { x with bad := [0] }) with
    job := { (restoring 1 3).job with regions := [(0, region 0 6 0 1)] }
    snap := { (restoring 1 3).snap with bytes := 64 } }

def hostRead (stream : List Byte) : RestoreSource := { failure := none, stream := stream }

theorem witness_restoreComplete :
    sourceReady (restoring 0 3) = true ∧ sourceReady ready = false ∧ (restoring 0 3).snap.target = 0
      ∧ SourceRead (hostRead []) (restoring 0 3) ∧ ¬ SourceRead (hostRead []) restoringBad ∧ ¬ SourceRead (hostRead []) { restoring 1 3 with snap := { (restoring 1 3).snap with bytes := 64 } }
      ∧ (restoreReason (restoring 0 3) (hostRead [])).1 ≠ 0 ∧ sourceReady restoringBad = true ∧ restoringBad.snap.target ≠ 0 := by
  unfold SourceRead; decide +kernel

theorem witness_restoreSource :
    let r := hostRead (streamOf 2 5 1)
    SourceRead r (restoring 0 3) ∧ (restoreReason (restoring 0 3) r).1 = 0 ∧ (restoreReason (restoring 0 2) r).1 = 0
      ∧ (restoring 0 2).snap.epoch ∈ (sourceOf (restoring 0 2) r).groups.map (fun g => gEpoch g.2)
      ∧ (restoring 0 3).snap.epoch ∉ (sourceOf (restoring 0 3) r).groups.map (fun g => gEpoch g.2)
      ∧ groupsFit (restoreGroups (sourceOf (restoring 0 3) r) (restoring 0 3)) = true
      ∧ ((sourceOf (restoring 0 3) r).domains.map (·.domain)).Nodup ∧ (sourceOf (restoring 0 3) r).domains.map (·.domain) = [0] := by
  unfold SourceRead; decide +kernel

theorem witness_restoreGroups :
    let r := hostRead (streamOf 2 1 65)
    let s := { restoring 0 3 with snap := { (restoring 0 3).snap with keepGroups := false } }
    SourceRead r s ∧ (restoreReason s r).1 = 0 ∧ s.snap.epoch ∉ (sourceOf s r).groups.map (fun g => gEpoch g.2)
      ∧ groupsFit (restoreGroups (sourceOf s r) s) = false := by
  unfold SourceRead; decide +kernel

/-- A snapshot that stands in the module's own stacks, and a restore from it with the epoch of its groups. -/
def ownSnapshot (epoch : Nat) : State :=
  let s := { loaded 2 5 1 with dram := Mem.write [] 0 (streamOf 2 5 1), job := { (loaded 2 5 1).job with regions := [(0, region 0 6 0 1)] } }
  ((((s.wr .snapTarget 1).wr .snapBytes (streamOf 2 5 1).length).wr .restorePoint 1).wr .restoreEpoch epoch).wrBlob .snapDomains
    (1#8 :: List.replicate 31 0#8)

theorem witness_restoreTaken :
    [2, 3].all (fun e =>
      let s := ownSnapshot e
      let w := { s with snap := takeSnap s 5 }
      s.rd .snapTarget == 1 && s.rd .restorePoint == 1 && s.snap.idle && (epochTaken w (streamSource w (sourceBytes w ⟨none, []⟩)) == (e == 2))) = true
      ∧ AcceptedReg mb .snapControl 3 (ownSnapshot 2) := by
  unfold AcceptedReg Accepted; decide +kernel

/-- A restore from the mirror partner. -/
def mirrored (partner : Nat) : State := ((snapped.wr .snapTarget 2).wr .restorePoint 1).wr .mirrorPartner partner

theorem witness_restoreMirror :
    AcceptedReg mb .snapControl 3 (mirrored 32) ∧ (mirrored 32).rd .snapTarget = 2 ∧ (mirrored 32).rd .restorePoint = 1
      ∧ (mirrored 32).rd .mirrorPartner ≠ 0xFFFF ∧ (namedDomains (mirrored 32)).flatMap (allRegions (mirrored 32) ·) ≠ []
      ∧ ((namedDomains (mirrored 32)).flatMap (allRegions (mirrored 32) ·)).length + (mirrored 32).restoreReads ≤ 64
      ∧ (mirrored 0xFFFF).rd .mirrorPartner = 0xFFFF ∧ (mirrored 32).snap.idle = true := by
  unfold AcceptedReg Accepted; decide +kernel

/-- Squares for region 0 of `snapped`: an F8 plane as it is, one of the last commit with its other plane, and one without it. -/
theorem witness_restoreSquare :
    (List.replicate (slotBytes (snapped.region 0)) 1#8).length = slotBytes (snapped.region 0) ∧ ([] : List Byte).length ≠ slotBytes (snapped.region 0) := by
  refine ⟨List.length_replicate, by decide +kernel⟩

theorem witness_cancel :
    AcceptedReg mb .snapControl 4 (capturing true 1) ∧ (capturing true 1).snap.state = 1 ∧ (capturing false 2).snap.state = 2
      ∧ (restoring 0 3).snap.state = 5 ∧ AcceptedReg mb .snapControl 4 (restoring 0 3) ∧ AcceptedReg mb .snapControl 4 ready ∧ ready.snap.state ≠ 1 := by
  unfold AcceptedReg Accepted; decide +kernel

theorem witness_faultLog :
    AcceptedReg mb .logClear 1 ready ∧ AcceptedReg mb .logClear 0 ready ∧ (ready.raise ringFault).log.ram ≠ []
      ∧ ready.log.ram = [] ∧ ready.dev.restarting.contains coreSecurity = false := by
  unfold AcceptedReg Accepted; decide +kernel

/-- Unit 0 (the Board store of Board 0) in a state, over n bytes. -/
def ninesIn (state n flags : Nat) : State := ready.setNines 0 { (ready.nines 0) with state := state, bytes := n, flags := flags }

theorem witness_nines :
    ninesBusy ready 0 = false ∧ AcceptedReg mb .ninesControl 1 ready ∧ AcceptedReg mb .ninesControl 2 ready ∧ ready.powered = true
      ∧ ninesInSource (ninesIn 0 (96 * 1024 * 1024) 0) 0 ((ninesIn 0 (96 * 1024 * 1024) 0).nines 0) = true
      ∧ ninesInSource (ninesIn 0 (96 * 1024 * 1024 + 1) 0) 0 ((ninesIn 0 (96 * 1024 * 1024 + 1) 0).nines 0) = false
      ∧ AcceptedReg mb .ninesControl 3 ready ∧ AcceptedReg mb .ninesRunning 5 ready ∧ ninesBusy (ninesIn 1 9 0) 0 = true
      ∧ AcceptedReg mb .ninesControl 1 (ninesIn 1 9 0) ∧ AcceptedReg mb .ninesControl 4 (ninesIn 1 9 0)
      ∧ testBit ((ninesIn 0 9 20).nines 0).flags 2 = true ∧ testBit ((ninesIn 0 9 20).nines 0).flags 4 = true
      ∧ ninesFinish ((ninesIn 0 9 20).nines 0) 0 ≠ ((ninesIn 0 9 20).nines 0).expected.toNat % 2 ^ 64 := by
  unfold AcceptedReg Accepted; decide +kernel

theorem witness_ninesRun :
    ((ninesIn 1 9 0).nines 0).state = 1 ∧ ninesOwned (ninesIn 1 9 0) 0 = false ∧ ninesBad (ninesIn 1 9 0) 0 ((ninesIn 1 9 0).nines 0) = none
      ∧ testBit ((ninesIn 1 9 0).nines 0).flags 3 = false
      ∧ (ninesBad ((ninesIn 1 9 0).modBoard 0 (fun b => { b with storeBad := [0] })) 0 ((ninesIn 1 9 0).nines 0)).isSome = true := by
  decide +kernel

theorem witness_counters :
    AcceptedReg mb .cntControl 0x16 ready ∧ AcceptedReg mb .cntControl 0x17 ready ∧ bitsOf 0x16 7 0 ≤ 0x16 ∧ 0x16 < bitsOf 0x17 7 0
      ∧ AcceptedReg mb .cntClear 0xFF ready ∧ AcceptedReg mb .blkClear 1 ready ∧ AcceptedReg mb .blkClear 0 ready
      ∧ AcceptedReg mb .readerControl 1 ready ∧ AcceptedReg mb .readerControl 2 ready := by
  unfold AcceptedReg Accepted; decide +kernel

/-- A reader that runs, with a ring of one slot, full or empty. -/
def reading (prod : Nat) : State :=
  { (ready.wr .readerKinds 1).wr .readerRingBytes (recordBytes 1) with cnt := { ready.cnt with readerOn := true, readerProd := prod } }

theorem witness_reader :
    (reading 0).cnt.readerOn = true ∧ (reading 0).hubUp = true
      ∧ ((reading 1).cnt.readerProd + 2 ^ 32 - (reading 1).rd .readerCons) % 2 ^ 32
          = (reading 1).rd .readerRingBytes / recordBytes ((reading 1).rd .readerKinds)
      ∧ ((reading 0).cnt.readerProd + 2 ^ 32 - (reading 0).rd .readerCons) % 2 ^ 32
          ≠ (reading 0).rd .readerRingBytes / recordBytes ((reading 0).rd .readerKinds) := by decide +kernel

theorem witness_freeze :
    AcceptedReg mb .freezeControl 1 ready ∧ AcceptedReg mb .freezeControl 2 ready ∧ AcceptedReg mb .freezeControl 3 (grouped 1 5 1)
      ∧ AcceptedReg mb .freezeControl 4 (grouped 1 5 1) ∧ gKind ((grouped 1 1 1).grp ((grouped 1 1 1).rd .freezeGroup)) ≠ 5
      ∧ gKind ((grouped 1 5 1).grp ((grouped 1 5 1).rd .freezeGroup)) = 5 ∧ gUpPort ((grouped 1 5 1).grp 0) = 31 := by
  unfold AcceptedReg Accepted; decide +kernel

/-- A freeze is due; the counters are frozen. -/
def dueFreeze (on frozen : Bool) : State := { ready with cnt := { ready.cnt with freeze := { due := [(0, on)], frozen := frozen } } }

/-- A FREEZE message from the root's side of a group whose up port is 3: ACTION 1, DOWN set, EPOCH 1, ROUND 1 (Table 16-7). -/
def freezePkt : Pkt :=
  { dest := 16, src := 32, opcode := 0x26, flits := 0, lines := 1
    payload := padTo 64 (leBytes 8 5 ++ [1#8, 1#8, 0#8, 0#8, 1#8, 0#8, 2#8, 0#8, 1#8, 0#8, 0#8, 0#8, 1#8]) }
def below : State :=
  { grouped 1 5 1 with job := { (grouped 1 5 1).job with groups := [(0, BitVec.ofNat 192 (1 <<< 176 + 5 <<< 172 + 1 <<< 156 + 3 <<< 79))] } }

theorem witness_freezeTick :
    (dueFreeze true false).cnt.freeze.due = [(0, true)] ∧ 0 ≤ (dueFreeze true false).now ∧ (dueFreeze true false).cnt.freeze.frozen = false
      ∧ (dueFreeze false true).cnt.freeze.due = [(0, false)] ∧ (dueFreeze false true).cnt.freeze.frozen = true
      ∧ freezePkt.opcode = 0x26 ∧ below.powered = true ∧ below.device ≠ 0xFFFF ∧ pktOk freezePkt = true
      ∧ byteAt freezePkt.payload 8 = 1 ∧ epochOk below (leAt freezePkt.payload 10 2) (leAt freezePkt.payload 12 2) = true
      ∧ gKind (below.grp 0) = 5 ∧ testBit (byteAt freezePkt.payload 16) 0 = true ∧ testBit (byteAt freezePkt.payload 16) 1 = false
      ∧ gUpPort (below.grp 0) = 3 ∧ below.now ≤ leAt freezePkt.payload 0 8
      ∧ (0, 1, 3, leAt freezePkt.payload 20 4) ∉ below.fab.roundIn := by decide +kernel

theorem witness_beads :
    AcceptedReg mb .beadN 8 ready ∧ AcceptedReg mb .beadN 0 ready ∧ (ready.wr .beadOffset 255).rd .beadOffset < 2 ^ 8
      ∧ ready.rd .beadOffset = 0xFFFFFFFF ∧ 2 ^ 8 ≤ (ready.wr .beadOffset 256).rd .beadOffset := by
  unfold AcceptedReg Accepted; decide +kernel

/-! ### Power, temperature, ports and routing -/

/-- The hardware throttle is on in the east half, at a duty. -/
def throttled (duty : Nat) (excursion : Bool) : State :=
  { ready with
    dev := { ready.dev with up := 1000000 }
    pwr := { ready.pwr with east := { hwOn := true, hwDuty := duty, hwExc := true }, excursion := excursion } }

theorem witness_throttle :
    ready.powered = true ∧ (throttled 8 true).pwr.excursion = true ∧ (throttled 8 true).pwr.east.hwOn = true
      ∧ (throttled 3 true).pwr.east.hwDuty = 3 ∧ (throttled 2 true).pwr.east.hwDuty = 2 ∧ (throttled 2 true).pwr.west.hwOn = false
      ∧ (throttled 8 false).pwr.excursion = false := by decide

theorem witness_throttleSteps :
    OnForMs (throttled 8 true) 0 ∧ ((throttled 8 true).pwr.half 0).hwExc = true ∧ ¬ OnForMs (throttled 8 true) 1 ∧ OnForMs (throttled 8 false) 0
      ∧ ¬ OnForMs { throttled 8 true with dev := { ready.dev with up := 999999 } } 0 ∧ service.powered = false := by
  unfold OnForMs; decide

/-- A half whose cap has been low for n ms. -/
def capped (cap n : Nat) : State := { ready with pwr := { ready.pwr with east := { cap := cap, lowMs := n } } }

theorem witness_powerController :
    (capped 8 98).powered = true ∧ (capped 8 98).dev.restarting.contains corePower = false ∧ (capped 8 98).rd .powerLimit = 1800
      ∧ 97 * 1800 < 100 * 1747 ∧ ¬ 97 * 1800 < 100 * 1746 ∧ 100 * 1619 < 90 * 1800 ∧ ¬ 100 * 1620 < 90 * 1800
      ∧ 98 + 1 < 100 ∧ 100 ≤ (capped 8 99).pwr.east.lowMs + 1 ∧ (capped 2 0).pwr.east.cap = 2 ∧ (capped 16 0).pwr.east.cap = 16
      ∧ (capped 8 98).pwr.raiseWait = 0 ∧ (capped 8 98).hubUp = true ∧ standby.hubUp = false ∧ powerRestarts.hubUp = true
      ∧ powerRestarts.dev.restarting.contains corePower = true ∧ service.hubUp = true ∧ service.powered = false := by decide

/-- A half that the power controller holds clocked down, calm for 999 ms. -/
def calm : State := { ready with pwr := { ready.pwr with east := { cap := 16, wantPower := true, calmMs := 999 } } }

theorem witness_calm :
    (calm.pwr.half 0).wantPower = true ∧ (calm.pwr.half 0).cap = 16 ∧ 999 ≤ (calm.pwr.half 0).calmMs ∧ 100 * 1349 < 75 * calm.rd .powerLimit := by
  decide +kernel

/-- The last readings: one sensor. -/
def warm (i : Nat) (t : Int) (s : State) : State := { s with pwr := { s.pwr with temps := [(i, t)] } }
def hot : State := { ready with pwr := { ready.pwr with east := { wantThermal := true, down := true } } }
def tripped : State := { ready with dev := { ready.dev with state := .safe, thermTrip := true } }

theorem witness_rails :
    ready.hubUp = true ∧ ready.dev.state ≠ .safe ∧ standby.dev.state = .standby ∧ off.dev.state = .off ∧ off.hubUp = false := by decide

theorem witness_thermal :
    service.hubUp = true ∧ ready.hubUp = true ∧ safe.hubUp = true
      ∧ (93 < 94 ∧ sensorPowered ready 93 = true ∧ sensorIn 0 93 = true ∧ sensorIn 1 93 = true)
      ∧ (sensorPowered ready 0 = true ∧ sensorIn 0 0 = true ∧ sensorIn 1 0 = false ∧ sensorPowered service 0 = false)
      ∧ (65 + 2 * 11 < 94 ∧ sensorPowered ready (65 + 2 * 11) = true)
      ∧ (hot.pwr.half 0).wantThermal = true ∧ (∀ e ∈ (warm 0 94 hot).pwr.temps, e.2 < 95)
      ∧ tripped.dev.thermTrip = true ∧ (∀ e ∈ (warm 93 89 tripped).pwr.temps, e.2 < 90)
      ∧ ready.dev.thermTrip = false ∧ (ready.pwr.half 0).wantThermal = false
      ∧ (∃ e ∈ (warm 0 95 hot).pwr.temps, sensorIn 0 e.1 = true ∧ sensorPowered (warm 0 95 hot) e.1 = true ∧ 95 ≤ e.2)
      ∧ (∃ e ∈ (warm 93 90 tripped).pwr.temps, sensorPowered (warm 93 90 tripped) e.1 = true ∧ 90 ≤ e.2)
      ∧ tget (warm 65 79 ready).pwr.temps 65 0 < 80 ∧ ¬ tget (warm 65 80 ready).pwr.temps 65 0 < 80 := by decide +kernel

/-- Port 0 in a state, with lanes failed. -/
def portIn (x : PortState) (failed : Nat) : State := ready.modPort 0 (fun p => { p with state := x, width := 4, failed := failed })

theorem witness_training :
    ((portIn .training 0).port 0).state = .training ∧ min (widthOf (goodLanes (portIn .training 0) 0 &&& 15)) 4 ≠ 0
      ∧ min (widthOf (goodLanes (portIn .training 0) 0 &&& 1)) 1 ≠ 0 ∧ min (widthOf (goodLanes (portIn .training 15) 0 &&& 15)) 4 = 0
      ∧ min (widthOf (goodLanes (portIn .training 0) 0 &&& 0)) 4 = 0 ∧ widthOf (goodLanes (portIn .training 0) 0 &&& 15) ≠ 0
      ∧ ((portIn .up 0).port 0).inService = true ∧ ((portIn .down 0).port 0).inService = false
      ∧ ((portIn .down 0).port 0).state ≠ .training := by decide +kernel

theorem witness_lanes :
    ((portIn .up 0).port 0).inService = true ∧ testBit ((portIn .up 0).port 0).failed 3 = false ∧ (portIn .up 0).laneGood 0 3 = true
      ∧ widthOf (commonLanes (withFailed 0 3 (portIn .up 0)) 0) ≠ 0 ∧ testBit ((portIn .up 7).port 0).failed 3 = false
      ∧ widthOf (commonLanes (withFailed 0 3 (portIn .up 7)) 0) = 0 ∧ ((portIn .retrain 8).port 0).inService = true
      ∧ testBit ((portIn .retrain 8).port 0).failed 3 = true ∧ ((portIn .retrain 8).port 0).state = .retrain
      ∧ (portIn .retrain 8).laneGood 0 3 = true ∧ (((portIn .retrain 8).modPort 0 (fun x => { x with failover := true })).port 0).failover = true := by
  decide +kernel

theorem witness_retrain : NothingWaits 0 (portIn .retrain 8) := by unfold NothingWaits; decide +kernel

def switching : State := { portIn .up 0 with fab := { ready.fab with switching := [0, 1, 2, 3] } }

theorem witness_switch :
    switching.fab.switching.filter (fun t => (groupOf switching t).contains 0) ≠ [] ∧ switching.fab.routeWait = []
      ∧ (∀ q ∈ switchPorts switching (switching.fab.switching.filter (fun t => (groupOf switching t).contains 0)),
          (switching.port q).quiet = true ∧ NothingOwed q switching) := by
  unfold NothingOwed NothingWaits; decide +kernel

theorem witness_owed : NothingOwed 0 (portIn .up 0) := by unfold NothingOwed NothingWaits; decide +kernel

/-- A flit with a link word and its CRC. -/
def flitOf (w : Nat) : List Byte :=
  let b := leBytes 8 w ++ List.replicate 240 0#8
  b ++ leBytes 8 (crc64 b).toNat

/-- A link word of class 0 with a sequence number; head and tail, not a NAK. -/
def word (seq : Nat) : Nat := seq * 2 ^ 52 + 2 ^ 34 + 2 ^ 33

theorem witness_crc : crcOk (flitOf (word 0)) ∧ crcOk (flitOf (word 1)) ∧ ¬ crcOk (leBytes 8 (word 0) ++ List.replicate 248 0#8) := by
  unfold crcOk; decide +kernel

theorem witness_flits :
    ((portIn .up 0).port 0).state = .up ∧ flitWord (flitOf (word 0)) = word 0 ∧ bitsOf (word 0) 38 37 ≠ 3
      ∧ bitsOf (word 0) 63 52 = ((portIn .up 0).port 0).rxNext ∧ bitsOf (word 1) 63 52 ≠ ((portIn .up 0).port 0).rxNext
      ∧ testBit (word 0) 39 = false ∧ testBit (word 0) 34 = true ∧ testBit (word 0) 33 = true ∧ bitsOf (word 0) 32 24 = 0
      ∧ testBit (word 0 - 2 ^ 33) 33 = false ∧ testBit (word 0 - 2 ^ 33) 39 = false ∧ (ready.wr .fabricDevice 1).device ≠ 0xFFFF ∧ (portIn .up 0).device = 0xFFFF
      ∧ (packetOf (leAt ((flitOf (word 0)).drop 8) 0 16) (testBit (word 0) 35) (((flitOf (word 0)).drop 8).drop 16)).opcode ≠ 0x25
      ∧ bitsOf (word 0 + 2 ^ 24) 32 24 ≠ 0 ∧ bitsOf (3 * 2 ^ 37) 38 37 = 3 ∧ testBit (3 * 2 ^ 37) 39 = false ∧ ((portIn .down 0).port 0).state ≠ .up := by
  decide +kernel

/-- A module with device number 1 in a ring of two modules, port 0 UP toward it. -/
def routed (x : PortState) : State :=
  ((((ready.wr .fabricDevice 1).wr .topoDims 1).wr .sizeX 2).wr .routeEntry (2 ^ 31 + 1) 0).modPort 0 (fun p => { p with state := x, width := 4 })

/-- A read request of one line for a Board. -/
def readPkt (dest hop : Nat) : Pkt := { dest := dest, src := 32, opcode := 1, flits := 0, lines := 1, hop := hop }

/-- Board 5 is disabled by grade. -/
def without5 : State := { routed .up with ident := { ready.ident with disabled := 32 } }

theorem witness_forwarding :
    (routed .up).powered = true ∧ ready.device = 0xFFFF ∧ (routed .up).device = 1 ∧ pktOk (readPkt 16 0) = true
      ∧ pktOk { readPkt 16 0 with flits := 1 } = false ∧ (routed .up).stopped 0 = false ∧ dieStalled (routed .up) (some 0) (readPkt 16 0) = false
      ∧ dieStalled { routed .up with fab := { ready.fab with stalled := [{ arrival := some 0, pkt := readPkt 16 0 }] } } (some 0) (readPkt 16 0) = true
      ∧ ({ routed .up with fab := { ready.fab with switching := [0] } } : State).stopped 0 = true ∧ routeTarget (routed .up) (readPkt 16 0) / 16 = 1 ∧ (readPkt 31 30).dest / 16 = 1 ∧ (readPkt 31 30).hop ≠ 31 ∧ (readPkt 31 31).hop = 31
      ∧ (routed .up).boardOk 15 = true ∧ without5.boardOk 5 = false ∧ (readPkt 0 0).dest / 16 ≠ 1
      ∧ ((routed .up).wr .topoDims 0).rd .topoDims = 0 ∧ (routed .up).rd .topoDims ≠ 0
      ∧ pickPort (routed .up) (wayTo (routed .up) 0 none false).ports 32 0 = some 0
      ∧ pickPort (routed .down) (wayTo (routed .down) 0 none false).ports 32 0 = none := by decide +kernel

/-- A NOTIFY, a gather request and an update command for a Board here; and Board 0's own packet of 31 hops. -/
theorem witness_handedOver :
    pktOk { readPkt 16 0 with opcode := 0x11, payload := List.replicate 64 0#8 } = true
      ∧ pktOk { readPkt 16 0 with opcode := 0x03, payload := List.replicate 64 0#8 } = true
      ∧ pktOk { readPkt 16 0 with opcode := 0x07, payload := List.replicate 64 0#8 } = true
      ∧ (routed .up).boardOk ((readPkt 16 0).dest % 16) = true ∧ (readPkt 16 0).mc = false := by decide +kernel

theorem witness_portReady : Ready 0 { readPkt 0 0 with hop := 1 } (routed .up) := by unfold Ready NothingWaits; decide +kernel

/-- A directed packet of the control class: an OD_REQ whose path has one entry. -/
def direct (port hop : Nat) : Pkt :=
  { dest := 0, src := 16, opcode := 0x10, flits := 0, dr := true, hop := hop, lines := 1, payload := padTo 64 (leBytes 15 (port + 31 * 32)) }

theorem witness_directed :
    pktOk (direct 0 0) = true ∧ pktOk { direct 0 0 with flits := 1 } = false ∧ ready.device = 0xFFFF ∧ (routed .up).powered = true
      ∧ ({ direct 0 0 with opcode := 0x11 } : Pkt).opcode = 0x11 ∧ (direct 0 0).dr = true ∧ classOf (direct 0 0).opcode = 1 ∧ forwardPath (direct 0 0).payload = [0] ∧ (direct 0 1).hop = 1
      ∧ ({ direct 0 0 with opcode := 0x90 } : Pkt).hop = 0 ∧ (forwardPath (direct 0 0).payload).getD 0 31 = 0
      ∧ ((routed .up).port 1).inService = false ∧ returnAt ({ direct 0 1 with opcode := 0x90 } : Pkt).payload 0 < 24 := by decide +kernel

theorem witness_directedEnds :
    (direct 0 1).hop = (forwardPath (direct 0 1).payload).length ∧ (forwardPath (direct 0 2).payload).length < (direct 0 2).hop
      ∧ pktOk { direct 0 31 with opcode := 0x10 } = true ∧ (direct 0 31).hop = 31 ∧ service.powered = false
      ∧ pktOk { direct 0 1 with opcode := 0x11 } = true := by decide +kernel

theorem witness_directedReady :
    Ready 0 { direct 0 0 with payload := setReturn (direct 0 0).payload 0 3, hop := 1 } (routed .up) := by
  unfold Ready NothingWaits; decide +kernel

/-- Group 0 is a MULTICAST group of epoch 1 with its root here and one child, port 0; or with none. -/
def mcGroup (ports : Nat) : State :=
  { routed .up with job := { ready.job with groups := [(0, BitVec.ofNat 192 (1 <<< 176 + 1 <<< 172 + 1 <<< 156 + ports <<< 100 + 24 <<< 79))]
                                            members := [(0, 16)] } }

/-- The same group, with its root behind a port. -/
def mcBelow (up : Nat) : State :=
  { mcGroup 1 with job := { (mcGroup 1).job with groups := [(0, BitVec.ofNat 192 (1 <<< 176 + 1 <<< 172 + 1 <<< 156 + 1 <<< 100 + up <<< 79))] } }

/-- A multicast of the module, of a group epoch. -/
def mcPkt (ge : Nat) : Pkt :=
  { dest := 0, src := 16, opcode := 4, flits := 0, mc := true, lines := 1, payload := hdrBytes { group := 0, gepoch := ge } }

theorem witness_mcArrives : McArrives none (mcPkt 1) (mcGroup 1) ∧ McArrives none (mcPkt 2) (mcGroup 1) := by
  unfold McArrives; decide +kernel

theorem witness_multicast :
    epochOk (mcGroup 1) 0 (hdrOf (mcPkt 1).payload).gepoch = true ∧ epochOk (mcGroup 1) 0 (hdrOf (mcPkt 2).payload).gepoch = false
      ∧ (hdrOf (mcPkt 1).payload).group = 0 ∧ gKind ((mcGroup 1).grp 0) = 1 ∧ (mcGroup 1).fab.stalled = []
      ∧ ({ mcGroup 1 with fab := { ready.fab with stalled := [{ arrival := none, pkt := mcPkt 1 }] } } : State).fab.stalled ≠ []
      ∧ dieStalled { mcGroup 1 with fab := { ready.fab with stalled := [{ arrival := none, pkt := mcPkt 1 }] } } none (mcPkt 1) = true
      ∧ dieStalled (mcGroup 1) none (mcPkt 1) = false ∧ forkMay (mcGroup 1) none [] (mcPkt 1) = true
      ∧ gForkBoards ((mcGroup 1).grp 0) = 0 ∧ gChildren ((mcGroup 1).grp 0) = [0] ∧ ((mcGroup 1).port 0).inService = true
      ∧ (0, branchTarget (mcGroup 1) 0 0) ∉ (mcGroup 1).job.failed ∧ ((mcGroup 1).port 0).queue = []
      ∧ copyGoes (mcGroup 1) 0 { mcPkt 1 with hop := 1 } = true := by decide +kernel

theorem witness_mcElse :
    gKind ((mcGroup 1).grp 0) ≠ 0 ∧ gEpoch ((mcGroup 1).grp 0) ≠ (hdrOf (mcPkt 2).payload).gepoch
      ∧ gUpPort ((mcGroup 1).grp 0) = 24 ∧ pktOk { mcPkt 1 with flits := 1 } = false ∧ pktOk { mcPkt 1 with hop := 31 } = true
      ∧ gUpPort ((mcBelow 3).grp 0) = 3 ∧ epochOk (mcBelow 3) 0 (hdrOf (mcPkt 1).payload).gepoch = true ∧ ready.device = 0xFFFF := by
  decide +kernel

/-- A copy is held for port 0. -/
def holding : State := { mcGroup 1 with fab := { ready.fab with holds := [{ die := 0, port := 0, pkt := mcPkt 1, since := 0#64 }] } }

/-- A fork with n branches left; and its acknowledgement. -/
def forked (n : Nat) : State := { mcGroup 1 with fab := { ready.fab with forks := [{ group := 0, src := 16, txn := 7, upPort := none, left := n }] } }
def forkedUp : State :=
  { mcGroup 1 with fab := { ready.fab with forks := [{ group := 0, src := 16, txn := 7, upPort := some 0, left := 1 }] } }
def ackPkt : Pkt := { dest := 16, src := 32, opcode := 0x85, flits := 0, lines := 1, txn := 7, payload := List.replicate 64 0#8 }

/-- The module's own multicast, from Board 0's rendezvous entry 3. -/
def ownMc : State := { mcGroup 1 with fab := { ready.fab with txns := [{ id := 7, kind := .multicast 0 3, since := 0#64 }] } }

theorem witness_ackArrives :
    AckArrives none ackPkt (forked 1) ∧ AckArrives none ackPkt ownMc ∧ pktOk { ackPkt with hop := 31 } = true
      ∧ ∀ f ∈ ownMc.fab.forks, ¬ (f.src = ackPkt.dest ∧ f.txn = ackPkt.txn) := by
  unfold AckArrives; decide +kernel

theorem witness_mcAck :
    (holdsOn holding 0)[0]? = some { die := 0, port := 0, pkt := mcPkt 1, since := 0#64 } ∧ holding.fab.stalled = []
      ∧ pktOk ackPkt = true ∧ (forked 1).device ≠ 0xFFFF
      ∧ (forked 1).fab.forks.find? (fun f => f.src == ackPkt.dest && f.txn == ackPkt.txn)
          = some { group := 0, src := 16, txn := 7, upPort := none, left := 1 }
      ∧ (forked 2).fab.forks.find? (fun f => f.src == ackPkt.dest && f.txn == ackPkt.txn)
          = some { group := 0, src := 16, txn := 7, upPort := none, left := 2 }
      ∧ forkedUp.fab.forks.find? (fun f => f.src == ackPkt.dest && f.txn == ackPkt.txn)
          = some { group := 0, src := 16, txn := 7, upPort := some 0, left := 1 }
      ∧ ackPkt.dest / 16 = ownMc.device ∧ ownMc.fab.forks = []
      ∧ ownMc.fab.txns.find? (fun t => t.id == ackPkt.txn) = some { id := 7, kind := .multicast 0 3, since := 0#64 }
      ∧ (ownMc.board 0).rdvWait = [] := by decide +kernel

/-- A port that is UP with nothing in it has room for every acknowledgement. -/
theorem witness_ackRoom : AckRoom 0 forkedUp := by
  refine ⟨by unfold NothingWaits; decide +kernel, fun k ho hf hd => ?_⟩
  have hp : poolOf k = poolOf { ackPkt with flits := 0 } := by unfold poolOf vcOf; rw [ho, hd]; rfl
  unfold roomFor
  rw [ho, hp]
  decide +kernel

/-! ### Packets that reach a Board -/

/-- The module with device number 1, and PLAIN and MIRROR regions of 64 KiB at DPA 0 and DPA 64 KiB. -/
def stored : State :=
  { ready.wr .fabricDevice 1 with job := { ready.job with regions := [(0, region 0 2 0 1), (1, region 0 5 1 1)] } }

def packet (op addr lines : Nat) (payload : List Byte) : Pkt :=
  { dest := 16, src := 32, opcode := op, flits := flitsFor payload.length, lines := lines, txn := 7, addr := addr, payload := payload }

def line64 : List Byte := List.replicate 64 0xA5#8

theorem witness_delivered :
    Delivered 0x01 0 (packet 0x01 0 1 []) stored ∧ Delivered 0x02 0 (packet 0x02 0 1 line64) stored
      ∧ Delivered 0x08 0 (packet 0x08 1024 1 line64) stored ∧ Delivered 0x01 0 (packet 0x01 storeFlag 1 []) stored
      ∧ Delivered 0x02 0 (packet 0x02 storeFlag 1 line64) stored := by
  unfold Delivered; decide +kernel

/-- Board 0 is awake. -/
def awake (s : State) : State := s.modBoard 0 (fun b => { b with asleep := false })

theorem witness_remotePower :
    ((awake stored).board 0).asleep = false ∧ (stored.board 0).asleep = true ∧ storeFlag ≤ (packet 0x01 storeFlag 1 []).addr
      ∧ (packet 0x01 0 1 []).addr < storeFlag ∧ remoteLine (tested stored) 0 = .held
      ∧ Delivered 0x01 0 (packet 0x01 storeFlag 1 []) (awake stored) ∧ Delivered 0x02 0 (packet 0x02 storeFlag 1 line64) (awake stored)
      ∧ Delivered 0x01 0 (packet 0x01 0 1 []) (tested stored) ∧ (packet 0x01 0 1 []).dest / 16 ≠ ready.device ∧ (packet 0x01 0 1 []).dest / 16 = stored.device := by
  unfold Delivered; decide +kernel

theorem witness_remoteRead :
    remoteLine stored 0 = .data 0 (List.replicate 64 0#8) ∧ remoteLine stored (64 * 2048) = .region
      ∧ remoteLine (stored.modStack 0 (fun x => { x with bad := [1] })) 64 = .bad 64
      ∧ 64 * (1572863) + 64 ≤ storeBytes ∧ storeBytes < 64 * 1572864 + 64
      ∧ boardBad stored 0 0 64 = none ∧ (boardBad (stored.modBoard 0 (fun b => { b with storeBad := [0] })) 0 0 64).isSome = true := by
  decide +kernel

theorem witness_remoteWrite :
    stored.regionAt 0 = some (0, region 0 2 0 1) ∧ rKind (region 0 2 0 1) = 2 ∧ 0 + line64.length ≤ rBase (region 0 2 0 1) + rSize (region 0 2 0 1)
      ∧ stored.regionAt (64 * 1024) = some (1, region 0 5 1 1) ∧ rKind (region 0 5 1 1) = 5 ∧ rKind (region 0 5 1 1) ≠ 2
      ∧ stored.regionAt (64 * 2048) = none := by decide +kernel

/-- A GATHER group 0 of epoch 1 with `fans` fans from group 1 on; its one member is fabric address 32. Run 0 of stack 0 holds square 0 of region 0,
a VERSIONED region of one F8 square; the domain's committed tag is 4. -/
def gathering (fans committed : Nat) : State :=
  ({ ready.wr .fabricDevice 1 with
    job := { ready.job with
      groups := [(0, BitVec.ofNat 192 (1 <<< 176 + 2 <<< 172 + 1 <<< 156 + 1 <<< 69 + fans <<< 65)),
                 (1, BitVec.ofNat 192 (1 <<< 176 + 1 <<< 172 + 2 <<< 156))]
      members := [(0, 32), (1, 48)]
      regions := [(0, BitVec.ofNat 128 (1 <<< 116 + 8 <<< 111 + 1 <<< 67 + 4 <<< 10))] } } : State).modStack 0 (fun x => { x with
    runs := [BitVec.ofNat 128 (1 <<< 44 + 16 <<< 28)], regs := [(0, { committedTag := committed })] })

def gatherPkt (src ge tag : Nat) : Pkt :=
  { packet 0x03 0 1 (hdrBytes { tag := tag, group := 0, gepoch := ge }) with src := src }

theorem witness_gather :
    Delivered 0x03 0 (gatherPkt 32 1 5) (gathering 0 4) ∧ Delivered 0x03 0 (gatherPkt 33 1 5) (gathering 0 4)
      ∧ gKind ((gathering 0 4).grp 0) = 2 ∧ 32 ∈ (gathering 0 4).membersOf ((gathering 0 4).grp 0)
      ∧ 33 ∉ (gathering 0 4).membersOf ((gathering 0 4).grp 0) ∧ gEpoch ((gathering 0 4).grp 0) = 1
      ∧ gFanCount ((gathering 0 4).grp 0) = 0 ∧ (hdrOf (gatherPkt 32 1 5).payload).gepoch = 1 ∧ (hdrOf (gatherPkt 32 1 5).payload).comp ≤ 1
      ∧ fanOf (gathering 1 4) ((gathering 1 4).grp 0) 32 = some 1 ∧ ((gathering 1 4).board 0).rdv = []
      ∧ 48 ∈ (gathering 1 4).membersOf ((gathering 1 4).grp 1) := by
  unfold Delivered; decide +kernel

/-- Run 0 of its stack, which holds that square; and the same with its first square past the region's end. -/
def gatherRun : BitVec 128 := BitVec.ofNat 128 (1 <<< 44 + 16 <<< 28)
def gatherPast : BitVec 128 := BitVec.ofNat 128 (1 <<< 88 + 1 <<< 44 + 16 <<< 28)

theorem witness_gatherReads :
    GatherReads (claimed 0x03 32 16 7 (gathering 0 4)) (hdrOf (gatherPkt 32 1 5).payload) (.data 0 (List.replicate 4160 0#8))
      ∧ GatherReads (gathering 0 4) (hdrOf (gatherPkt 32 1 3).payload) .old :=
  ⟨⟨gatherRun, 0, by decide +kernel⟩, gatherRun, 0, by decide +kernel⟩

theorem witness_gatherAhead :
    GatherReads ((gathering 0 4).modStack 0 (fun x => { x with regs := [(0, { isOpen := true, openTag := 5, committedTag := 4 })] }))
      (hdrOf (gatherPkt 32 1 6).payload) .ahead := ⟨gatherRun, 0, by decide +kernel⟩

theorem witness_gatherFails :
    (∃ a, GatherReads ((gathering 0 4).modStack 0 (fun x => { x with bad := [0] })) (hdrOf (gatherPkt 32 1 5).payload) (.bad a))
      ∧ ∃ a, GatherReads ((gathering 0 4).modStack 0 (fun x => { x with runs := [gatherPast] })) (hdrOf (gatherPkt 32 1 5).payload) (.region a) :=
  ⟨⟨0, gatherRun, 0, by decide +kernel⟩, 2 * 4160, gatherPast, 0, by decide +kernel⟩

theorem witness_gatherWaits :
    1 < (hdrOf (hdrBytes { comp := 2 })).comp
      ∧ (((gathering 0 4).modBoard 0 (fun b => { b with rdvWait := [gatherPkt 32 1 5] })).board 0).rdvWait ≠ []
      ∧ ((gathering 0 4).board 0).rdv.length < 256 ∧ ((gathering 0 4).board 0).rdvWait = [] := by decide +kernel

/-- Board 0 has a rendezvous entry 3 with one member that waits. -/
def met : State :=
  (gathering 1 4).modBoard 0 (fun b => { b with rdv := [{
    id := 3, group := 0, gepoch := 1, fan := 1, tag := 5, comp := 0, pgroup := 0, q := 0, stack := 0, waiting := [(32, 7, 16)], since := 0#64 }] })

theorem witness_rendezvous :
    ((met.board 0).rdvAt 3).isSome = true ∧ ((met.board 0).rdvAt 3).all (fun r => !r.sent) = true ∧ met.powered = true
      ∧ (met.board 0).rdvWait = [] := by decide +kernel

/-! ### Answers, reductions and updates -/

/-- Board 0 asked for square 9 of group 2 with transaction 7: entry 0 of a run of n entries, of which `landed` have landed. -/
def asked (n landed : Nat) : State :=
  { (gathering 0 4).modBoard 0 (fun b => { b with
      gruns := [{ id := 4, first := 0, count := n, group := 0, dest := 100, sem := 6, copy := 0, keep := false, work := { tag := 5 }, next := n
                  landed := landed }]
      gslots := [{ run := 4, k := 0, pgroup := 2, q := 9, owner := 32, txn := 7 }] }) with
    fab := { ready.fab with txns := [{ id := 7, kind := .gather 0 4 0, since := 0#64 }] } }

/-- The owner's answer. -/
def gatherAns (op ge q outcome : Nat) : Pkt :=
  packet op 0 66 (hdrBytes { tag := 5, group := 0, gepoch := ge, pgroup := 2, q := q, outcome := outcome } ++ List.replicate 4160 0#8)

def staleAns (ge outcome : Nat) : Pkt :=
  packet 0x84 0 1 (hdrBytes { tag := 5, group := 0, gepoch := ge, pgroup := 2, q := 9, outcome := outcome })

theorem witness_gatherAnswer :
    Delivered 0x83 0 (gatherAns 0x83 1 9 0) (asked 2 0) ∧ Delivered 0x84 0 (staleAns 1 1) (asked 2 0) := by
  unfold Delivered; decide +kernel

theorem witness_gatherLands :
    (let h := hdrOf (gatherAns 0x83 1 9 0).payload
     epochOk (asked 2 0) h.group h.gepoch = true ∧ h.outcome = 0 ∧ (matchSlot ((asked 2 0).board 0) h).isSome = true
      ∧ (matchSlot ((asked 2 0).board 0) h).all (fun x => !(landAt (asked 2 0) 0 x.2.dest x.1.k).1 && x.2.landed + 1 != x.2.count) = true)
      ∧ (matchSlot ((asked 2 1).board 0) (hdrOf (gatherAns 0x83 1 9 0).payload)).any (fun x => x.2.landed + 1 == x.2.count) = true
      ∧ (∀ g ∈ ((asked 2 0).board 0).gruns, g.count ≤ g.next) ∧ ((asked 2 0).board 0).sigs = [] ∧ ((asked 2 0).board 0).sem 6 < 65535
      ∧ matchSlot ((asked 2 0).board 0) (hdrOf (gatherAns 0x83 1 8 0).payload) = none
      ∧ epochOk (asked 2 0) 0 (hdrOf (gatherAns 0x83 2 9 0).payload).gepoch = false
      ∧ (hdrOf (staleAns 1 2).payload).outcome = 2 ∧ epochOk (asked 2 0) 0 (hdrOf (staleAns 2 1).payload).gepoch = false := by
  decide +kernel

/-- Board 0 fills buffer 0 over link 0 from another module: a fill of two lines, of which line 1 may have landed. -/
def filling (landed : List Nat) : State :=
  { stored.modBoard 0 (fun b => { b with
      bufs := [(0, { base := 4, size := 128, state := 1 })]
      links := [(0, { bufFirst := 0, bufCount := 1, state := 1, filling := [0] })]
      fetches := [{ link := 0, src := 3, base := 0, runs := 1, run := 2, stride := 0, fills := 1, fabric := 1, next := 1
                    going := [{ fill := 0, handle := 0, lines := 2, landed := landed }] }] }) with
    fab := { ready.fab with txns := [{ id := 7, kind := .fetch 0 0 0 0, since := 0#64 }] } }

/-- That fill and its run. -/
def fillOf (landed : List Nat) : Filling := { fill := 0, handle := 0, lines := 2, landed := landed }
def fillRun (landed : List Nat) : FetchRun :=
  { link := 0, src := 3, base := 0, runs := 1, run := 2, stride := 0, fills := 1, fabric := 1, next := 1, going := [fillOf landed] }

theorem witness_lineLands :
    Delivered 0x81 0 (packet 0x81 0 1 line64) (filling []) ∧ line64.length = 64
      ∧ (Awaits 0 0 0 0 (fillRun []) (fillOf []) (filling []) ∧ (fillRun []).stash = none ∧ (fillOf []).landed.length + 1 < (fillOf []).lines)
      ∧ (Awaits 0 0 0 0 (fillRun [1]) (fillOf [1]) (filling [1]) ∧ (fillOf [1]).lines ≤ (fillOf [1]).landed.length + 1
          ∧ (fillOf [1]).failed = false ∧ (((filling [1]).board 0).buf (fillOf [1]).handle).state ≠ 4)
      ∧ (filling []).fab.txns.find? (fun y => y.id == (packet 0x81 0 1 line64).txn) = some { id := 7, kind := .fetch 0 0 0 0, since := 0#64 } := by
  unfold Delivered Awaits; decide +kernel

/-- A request of Board 0 that awaits its answer. -/
def awaiting (k : TxnKind) : State := { stored with fab := { ready.fab with txns := [{ id := 7, kind := k, since := 0#64 }] } }

theorem witness_answers :
    Delivered 0x82 0 (packet 0x82 0 0 []) (awaiting (.write 0 0 0)) ∧ Delivered 0x82 0 (packet 0x82 0 0 []) (awaiting .other)
      ∧ Delivered 0x86 0 (packet 0x86 0 1 (padTo 64 (leBytes 2 0x0605))) (awaiting (.write 0 0 0))
      ∧ Delivered 0x82 0 (packet 0x82 0 0 []) stored ∧ Delivered 0x81 0 (packet 0x81 0 1 line64) stored
      ∧ Delivered 0x86 0 (packet 0x86 0 1 (padTo 64 (leBytes 2 0x0605))) stored ∧ stored.fab.txns = [] ∧ (packet 0x82 0 0 []).txn = 7
      ∧ Delivered 0x81 0 (packet 0x81 0 1 line64) (awaiting .other)
      ∧ [TxnKind.write 3 0 0, .update 3, .vote 0, .reduce 3 5, .other, .gather 0 4 0, .multicast 0 3].all
          (fun k => decide ((awaiting k).fab.txns.find? (fun y => y.id == 7) = some { id := 7, kind := k, since := 0#64 })) = true := by
  unfold Delivered; decide +kernel

theorem witness_otherKinds :
    Delivered 0x82 0 (packet 0x82 0 0 []) (awaiting (.fetch 0 0 0 0)) ∧ Delivered 0x82 0 (packet 0x82 0 0 []) (awaiting (.restore 0 0))
      ∧ Delivered 0x86 0 (packet 0x86 0 1 (padTo 64 (leBytes 2 0x0605))) (awaiting .other)
      ∧ gForkBoards ((awaiting (.vote 0)).grp 0) = 0
      ∧ ((asked 2 0).board 0).gslots.find? (fun q => q.txn == 7) = some { run := 4, k := 0, pgroup := 2, q := 9, owner := 32, txn := 7 }
      ∧ (((asked 2 0).board 0).gruns.find? (fun r => r.id == 4)).isSome = true ∧ ((asked 2 0).board 0).fetches = []
      ∧ (hdrOf (gatherAns 0x83 1 9 3).payload).outcome = 3 ∧ (fillRun []).more = false ∧ (fillRun []).squashed = false := by
  unfold Delivered; decide +kernel

/-- Group 0 of a kind, with three members (16 is Board 0 here), epoch 1, its own root, contributors of the boards in `forks`. -/
def ringGroup (kind forks : Nat) : BitVec 192 :=
  BitVec.ofNat 192 (1 <<< 176 + kind <<< 172 + 3 <<< 156 + 16 <<< 140 + forks <<< 84 + 24 <<< 79)

/-- Board 0 is a member of that group; its shard map gives square 0 to Board 0 of module 2 (fabric address 32): stack 3, group 5, q 9. -/
def inRing (kind forks : Nat) : State :=
  (({ ready.wr .fabricDevice 1 with
    job := { ready.job with groups := [(0, ringGroup kind forks)], members := [(0, 16), (1, 32), (2, 48)] } } : State).modBoard 0 (fun b =>
      { b with mapCount := 4, slices := [(0, { mCount := 1, fold := true, state := 2, tag := 5 })] })).stackWrite 0
    (leBytes 8 (32 <<< 48 + 3 <<< 44 + 5 <<< 32 + 9 <<< 10))

/-- A bundle with a REDUCE group of `n` slices from slice 0, ready to act. -/
def reducing (kind n vote : Nat) : State :=
  (inRing kind 1).modBoard 0 (fun b => { b with
    main := { groups := [(8, n <<< 40 + vote <<< 29)], issue := some { offset := 0, header := 0, acts := [8] } } })

/-- A command takes its turn where `turn` finds its action, and what holds then of the issue and the state holds of some. -/
theorem exists_turns {b : BoardNo} {st : StreamSel} {a op : Nat} {s : State} {P : Issue → State → Bool}
    (h : (match turn b.val st a op s with | .act i u => P i u | _ => false) = true) : ∃ i u, Turns b st a op i s u ∧ P i u = true := by
  unfold Turns
  split at h
  · exact ⟨_, _, ‹_›, h⟩
  · cases h

theorem witness_reduceIssue :
    (∃ i u, Turns 0 .main 8 0 i (reducing 3 1 0) u ∧ decide (reduceShape u 0 (issueWork u 0 .main i) (actGroup u 0 .main 8) = false
        ∧ 1 ≤ rSliceCount (actGroup u 0 .main 8) ∧ (u.board 0).rjobs = []) = true)
      ∧ (∃ i u, Turns 0 .main 8 0 i (reducing 3 0 0) u ∧ decide (reduceShape u 0 (issueWork u 0 .main i) (actGroup u 0 .main 8) = false
        ∧ rSliceCount (actGroup u 0 .main 8) = 0 ∧ (u.board 0).rjobs = []) = true)
      ∧ (∃ i u, Turns 0 .main 8 0 i (reducing 4 1 0) u ∧ reduceShape u 0 (issueWork u 0 .main i) (actGroup u 0 .main 8) = true) :=
  ⟨exists_turns (by decide +kernel), exists_turns (by decide +kernel), exists_turns (by decide +kernel)⟩

/-- The REDUCE of slice 0 at the head of Board 0's queue. -/
def rjob (vote : Bool) (read : Nat) (sum : Option (List W32)) : RJob :=
  { id := 0, first := 0, count := 1, group := 0, vote := vote, wire := if vote then 2 else 0, sem := 1, work := { tag := 5 }, read := read
    held := if read = 0 then [] else [(0, List.replicate 8192 0#32)], sigma := 0, sum := sum }

/-- It is at work. -/
def atWork (kind forks : Nat) (j : RJob) (credits : List (Nat × Nat × Nat)) : State :=
  (inRing kind forks).modBoard 0 (fun b => { b with rjobs := [j], credits := credits })

theorem witness_readout :
    (rjob false 0 none).read < (rjob false 0 none).count ∧ (((atWork 3 1 (rjob false 0 none) []).board 0).slice 0).state = 2
      ∧ (atWork 3 1 (rjob false 0 none) []).powered = true ∧ (atWork 3 1 (rjob false 0 none) []).boardOk 0 = true
      ∧ (rjob false 0 none).stuck = false ∧ ({ rjob false 0 none with stuck := true } : RJob).stuck = true
      ∧ (rjob false 1 none).count ≤ (rjob false 1 none).read
      ∧ (((atWork 3 1 (rjob false 0 none) []).modBoard 0 (fun b => { b with slices := [] })).board 0 |>.slice 0).state ≠ 2
      ∧ boardBad (atWork 3 1 (rjob false 0 none) []) 0 (spaceAddr (((atWork 3 1 (rjob false 0 none) []).board 0).slice 0)) 32768 = none
      ∧ (let s := (atWork 3 1 (rjob false 0 none) []).modBoard 0 (fun b => { b with storeBad := [0] })
         (boardBad s 0 (spaceAddr ((s.board 0).slice 0)) 32768).isSome = true)
      ∧ (rjob true 0 none).sigma < (rjob true 0 none).endSquare := by decide +kernel

/-- A hop of that square from fabric address 32. -/
def hop (wire ge ep : Nat) : Pkt :=
  packet 0x05 0 66 (hdrBytes { tag := 5, group := 0, gepoch := ge, pgroup := 5, q := 9, hop := 0, wire := wire, epoch := ep, sigma := 0 }
    ++ List.replicate 4160 0#8)

/-- The values of its square, which have been read out. -/
def squareVals (s : State) (vote : Bool) : List W32 := ((rjob vote 1 none).values (s.board 0)).getD []

theorem witness_atSquare :
    let s := atWork 3 1 (rjob false 1 none) []
    AtSquare 0 (rjob false 1 none) [] (squareVals s false) 32 3 5 9 1 0 s := by unfold AtSquare; decide +kernel

theorem witness_voteAtSquare :
    let s := atWork 4 1 (rjob true 1 none) [(voteKey 0, 0, 16)]
    AtSquare 0 (rjob true 1 none) [] (squareVals s true) 32 3 5 9 1 0 s := by unfold AtSquare; decide +kernel

theorem witness_hopArrives :
    Delivered 0x05 0 (hop 0 1 0) (atWork 3 1 (rjob false 1 none) []) ∧ Delivered 0x05 0 (hop 2 1 0) (atWork 3 1 (rjob false 1 none) []) := by
  unfold Delivered; decide +kernel

theorem witness_hops :
    (hdrOf (hop 0 1 0).payload).wire = 0 ∧ (hdrOf (hop 2 1 0).payload).wire = 2
      ∧ epochOk (inRing 3 1) 0 (hdrOf (hop 0 1 0).payload).gepoch = true ∧ epochOk (inRing 3 1) 0 (hdrOf (hop 0 2 0).payload).gepoch = false
      ∧ (hdrOf (hop 0 1 3).payload).epoch ∈ ({ hopShut := [3] } : Board).hopShut
      ∧ (hdrOf (hop 0 1 0).payload).epoch ∉ ((inRing 3 1).board 0).hopShut ∧ (rjob false 1 none).sent = false ∧ ((inRing 3 1).board 0).rjobs = []
      ∧ ringParts ((inRing 3 1).grp 0) = 1 ∧ nextHop ((inRing 3 1).grp 0) 0 1 (rjob false 1 none) = .add 0
      ∧ (hop 0 1 0).src ≠ (inRing 3 1).addrOf 0 ∧ ((inRing 3 1).board 0).hops = [] := by decide +kernel

/-- The same ring with Board 0 as the owner of square 0: whole, or in two parts of which the first is added. -/
def owner (parts : Nat) : State :=
  let e := BitVec.ofNat 192 (1 <<< 176 + 3 <<< 172 + (2 + parts) <<< 156 + 16 <<< 140 + 24 <<< 79 + (parts - 1) <<< 35)
  let j := if parts = 1 then rjob false 1 none else { rjob false 1 (some (List.replicate 4096 0#32)) with sent := true, part := 1, acc := List.replicate 4096 0#32 }
  let s := atWork 3 1 j []
  { s with job := { s.job with groups := [(0, e)], members := [(0, 16), (1, 32), (2, 48), (3, 64)] } }.stackWrite 0
    (leBytes 8 (16 <<< 48 + 3 <<< 44 + 5 <<< 32 + 9 <<< 10))

/-- A hop to the owner, with its HOP field. -/
def hopTo (n : Nat) : Pkt :=
  packet 0x05 0 66 (hdrBytes { tag := 5, group := 0, gepoch := 1, pgroup := 5, q := 9, hop := n } ++ List.replicate 4160 0#8)

theorem witness_owner :
    [1, 2].all (fun parts =>
      let s := owner parts
      let e := s.grp 0
      match (s.board 0).rjobs with
      | [j] =>
        ringParts e == parts && nextHop e 0 0 j == (if parts = 1 then .add 1 else .addPart 3) && (parts == 1 || (j.sum.isSome && j.sent && j.part + 1 == parts))
          && j.stuck == false && (j.values (s.board 0)).isSome && mapAt s 0 0 0 == .square 16 3 5 9 && posOf (s.membersOf e) 16 == some 0
          && s.addrOf 0 == 16 && (s.board 0).hops == [] && (s.board 0).hopShut == []
      | _ => false) = true
      ∧ (hopTo 1).src ≠ (owner 1).addrOf 0 ∧ (hdrOf (hopTo 3).payload).hop = 3 := by decide +kernel

theorem witness_ownerHop : Delivered 0x05 0 (hopTo 1) (owner 1) ∧ Delivered 0x05 0 (hopTo 3) (owner 2) := by
  unfold Delivered; decide +kernel

/-- Its sum stands, and Board 0 holds n credits of fabric address 32 under epoch 0. -/
def summed (n : Nat) : State := atWork 3 1 (rjob false 1 (some (List.replicate 4096 0#32))) [(32, 0, n)]

theorem witness_hopSend :
    (rjob false 1 (some (List.replicate 4096 0#32))).sum.isSome = true
      ∧ nextHop ((inRing 3 1).grp 0) 0 1 (rjob false 1 (some (List.replicate 4096 0#32))) = .wait
      ∧ ((inRing 3 1).membersOf ((inRing 3 1).grp 0)).getD (hopTarget ((inRing 3 1).grp 0) 0 1).1 0xFFFF = 32
      ∧ ((summed 0).board 0).credits = [(32, 0, 0)] ∧ ((summed 1).board 0).credits = [(32, 0, 0 + 1)]
      ∧ (summed 1).powered = true ∧ (summed 1).boardOk 0 = true := by decide +kernel

/-- A vote packet of Board 0 for square 0, of a group epoch and wire format. -/
def voteOf (ge wire : Nat) : Pkt :=
  { packet 0x06 0 17 (hdrBytes { tag := 5, group := 0, gepoch := ge, pgroup := 5, q := 9, wire := wire } ++ List.replicate 1024 0#8) with
    src := 16 }

/-- The same group below another module (its way to the root is port 3), sixteen of its squares open, and a die that stalls. -/
def belowRoot : State :=
  { inRing 4 1 with job := { (inRing 4 1).job with
      groups := [(0, BitVec.ofNat 192 (1 <<< 176 + 4 <<< 172 + 3 <<< 156 + 16 <<< 140 + 1 <<< 84 + 3 <<< 79))] } }
def fullOfVotes : State :=
  { inRing 4 1 with fab := { (inRing 4 1).fab with
      votes := (List.range 16).map (fun i => { group := 0, sigma := i + 1, tag := 5, pgroup := 5, q := i, counts := [], reserved := [], came := [] }) } }
def stalledVotes : State := { inRing 4 1 with fab := { (inRing 4 1).fab with stalled := [{ arrival := some 0, pkt := mcPkt 1 }] } }

theorem witness_voteWaits :
    voteRoom fullOfVotes (hdrOf (voteOf 1 2).payload) = false ∧ fullOfVotes.fab.voteWait = []
      ∧ dieStalled stalledVotes (some 0) (voteOf 1 2) = true ∧ dieStalled (inRing 4 1) (some 0) (voteOf 1 2) = false
      ∧ contributors (belowRoot.grp 0) = [0] ∧ gUpPort (belowRoot.grp 0) ≠ 24
      ∧ belowRoot.fab.voteSent.countP (fun w => w.1 == (hdrOf (voteOf 1 2).payload).group) < 16
      ∧ pktOk { voteOf 1 2 with flits := 0 } = false ∧ ready.device = 0xFFFF := by decide +kernel

theorem witness_voteRoom : VoteRoom 3 { belowRoot with ports := (portIn .up 0).ports.map (fun e => (3, e.2)) } := by
  refine ⟨by unfold NothingWaits; decide +kernel, fun k ho hd => ?_⟩
  have hp : poolOf k = poolOf { ackPkt with opcode := 0x06 } := by unfold poolOf vcOf; rw [ho, hd]; rfl
  unfold roomFor
  rw [ho, hp]
  decide +kernel

theorem witness_voteFar :
    pktOk { voteOf 1 2 with hop := 31 } = true ∧ ({ voteOf 1 2 with hop := 31 } : Pkt).hop = 31
      ∧ dieStalled (inRing 4 1) (some 0) { voteOf 1 2 with hop := 31 } = false := by decide +kernel

theorem witness_votes :
    pktOk (voteOf 1 2) = true ∧ (voteOf 1 2).src / 16 = (inRing 4 1).device ∧ (inRing 4 1).device ≠ 0xFFFF
      ∧ epochOk (inRing 4 1) 0 (hdrOf (voteOf 1 2).payload).gepoch = true ∧ epochOk (inRing 4 1) 0 (hdrOf (voteOf 2 2).payload).gepoch = false
      ∧ gKind ((inRing 3 1).grp 0) ≠ 4 ∧ 0 ∉ contributors ((inRing 4 2).grp 0) ∧ gKind ((inRing 4 1).grp 0) = 4
      ∧ 0 ∈ contributors ((inRing 4 3).grp 0) ∧ 1 ∈ contributors ((inRing 4 3).grp 0) ∧ (hdrOf (voteOf 1 3).payload).wire ≠ 2
      ∧ (inRing 4 3).fab.votes = [] ∧ contributors ((inRing 4 1).grp 0) = [0] ∧ gUpPort ((inRing 4 1).grp 0) = 24
      ∧ mapAt (inRing 4 1) (gRoot ((inRing 4 1).grp 0) % 16) 0 0 = .square 32 3 5 9 := by decide +kernel

/-- A loaded job whose group 0 (of domain 0) has square 0 in run 0 of stack 0, with m24 weights; the step of tag 5 is open there, and the step record
of tag `armed` has arrived. -/
def updating (armed : Nat) (frozen : Bool) (f : Stack → Stack) : State :=
  (({ ready.wr .fabricDevice 1 with
    dev := { ready.dev with jobState := .loaded }
    doms := [(0, { used := true, mbPerStep := 2, lenLimit := 256, boards := 1, phase := .open, openTag := 5, boardsDone := 1
                   armed := some (BitVec.ofNat 128 armed) })]
    job := { ready.job with
      pgroups := [(0, BitVec.ofNat 64 (2 ^ 6 + (if frozen then 2 ^ 7 else 0)))]
      regions := [(0, BitVec.ofNat 128 (1 <<< 116 + 1 <<< 111 + 1 <<< 67 + 4 <<< 10))] } } : State).modStack 0 (fun x =>
        { x with runs := [BitVec.ofNat 128 (1 <<< 44)], regs := [(0, { isOpen := true, openTag := 5 })] })).modStack 0 f

/-- An update command for square 0 of group 0: its tag and the reserved low bits of its header. -/
def updPkt (tag low : Nat) : Pkt := packet 0x07 0 257 (padTo 64 (leBytes 16 (tag * 2 ^ 96 + low)) ++ List.replicate 16384 0#8)

theorem witness_updateArrives : Delivered 0x07 0 (updPkt 5 0) (updating 5 false id) ∧ Delivered 0x07 0 (updPkt 6 0) (updating 5 false id) := by
  unfold Delivered; decide +kernel

/-- One with a reserved header bit is of a wrong form. -/
theorem witness_updateForm :
    pktOk (updPkt 5 1) = false ∧ (updPkt 5 1).opcode = 0x07 ∧ (updating 5 false id).powered = true ∧ (updating 5 false id).device ≠ 0xFFFF
      ∧ (updPkt 5 1).dest / 16 = (updating 5 false id).device ∧ bitsOf (updOf (updPkt 5 1)).1 61 58 = 0 := by decide +kernel

theorem witness_updateReaches : UpdateReaches 0 (updOf (updPkt 5 0)).2 (BitVec.ofNat 128 (1 <<< 44)) (updating 5 false id) := by
  unfold UpdateReaches; decide +kernel

theorem witness_updates :
    let u := (updOf (updPkt 5 0)).2
    let s := updating 5 false id
    bitsOf (updOf (updPkt 5 0)).1 61 58 = 0 ∧ bitsOf (updOf (updPkt 5 0)).1 55 0 = 0 ∧ bitsOf (updOf (updPkt 5 1)).1 55 0 ≠ 0
      ∧ s.stackOk 0 = true ∧ (s.stack 0).park.length < 32 ∧ (s.stack 0).inq = []
      ∧ pgFrozen ((updating 5 true id).pgroup 0) = true ∧ pgFrozen (s.pgroup 0) = false
      ∧ (s.dreg 0 0).openTag ≠ (updOf (updPkt 6 0)).2.tag ∧ (s.dreg 0 0).openTag = u.tag ∧ (s.dom 0).updFault = false
      ∧ armedTag ((updating 4 false id).dom 0) < u.tag ∧ armedTag (s.dom 0) = u.tag
      ∧ u.mode = modeInput ((s.slotWords (pgSlot (s.pgroup 0))).getD 16 0#32).toNat
      ∧ duplicate s 0 (BitVec.ofNat 128 (1 <<< 44)) u = false := by decide +kernel

/-- The step's frozen groups, its update fault, a rule that takes modes, a square commanded already, a full park buffer. -/
theorem witness_updatesDropped :
    let u := (updOf (updPkt 5 0)).2
    let s := updating 5 false id
    let f := s.modDom 0 (fun d => { d with frozen := [0], strict := true })
    let m := { s with job := { s.job with rules := [(0, List.replicate 16 0#32 ++ [8#32])] } }
    let q := s.modStack 0 (fun x => { x with queue := [u] })
    0 ∈ (f.dom 0).frozen ∧ (f.dom 0).strict = true ∧ UpdateReaches 0 u (BitVec.ofNat 128 (1 <<< 44)) f
      ∧ ((s.modDom 0 (fun d => { d with updFault := true })).dom 0).updFault = true ∧ 0 ∉ (s.dom 0).frozen
      ∧ u.mode ≠ modeInput ((m.slotWords (pgSlot (m.pgroup 0))).getD 16 0#32).toNat
      ∧ duplicate q 0 (BitVec.ofNat 128 (1 <<< 44)) u = true ∧ u.tag < armedTag ((updating 6 false id).dom 0)
      ∧ findRun s 0 u.group 1 = none
      ∧ 32 ≤ ((s.modStack 0 (fun x => { x with park := List.replicate 32 u })).stack 0).park.length := by
  unfold UpdateReaches; decide +kernel

theorem witness_noStepRecord :
    let u := (updOf (updPkt 5 0)).2
    let s := updating 4 false (fun x => { x with park := [u] })
    (s.stack 0).park.filter (fun u => updDomain s u == 0) = [u] ∧ pgUsed (s.pgroup u.group) = true ∧ (s.stack 0).inq = [] := by
  decide +kernel

theorem witness_squareUpdate :
    let u := (updOf (updPkt 5 0)).2
    let n := BitVec.ofNat 128 (1 <<< 44)
    let s := updating 5 false (fun x => { x with queue := [u] })
    (s.stack 0).queue = [u] ∧ s.powered = true ∧ (s.dreg 0 0).settling = false ∧ findRun s 0 u.group u.q = some n
      ∧ (s.vrec 0 (rVtBase (s.region (nRegion n)) + runSquare n u.q)).dirty = false
      ∧ (∀ c, c < 3 → testBit (rComp (s.region (nRegion n))) c = true →
          s.badLine (planeAddr (s.region (nRegion n)) (runSquare n u.q) 0 + (compOffset (s.region (nRegion n)) c).getD 0) (compBytes c) = none) := by
  decide +kernel

/-- What keeps a square from its update: a settling domain, a test, a capture that has still to read it, a place past the region, a bad line. -/
theorem witness_updateWaits :
    let u := (updOf (updPkt 5 0)).2
    let n := BitVec.ofNat 128 (1 <<< 44)
    let s := updating 5 false (fun x => { x with queue := [u] })
    let c := { s.setVrec 0 0 { lastc := true } with snap := { state := 2, left := [(0, 0)] } }
    let z := updating 5 false (fun x => { x with queue := [u], runs := [BitVec.ofNat 128 (1 <<< 88 + 1 <<< 44)] })
    let b := updating 5 false (fun x => { x with queue := [u], bad := [0] })
    (tested s).underTest 0 = true ∧ captureWaits c (nRegion n) (runSquare n u.q) = true ∧ captureWaits s (nRegion n) (runSquare n u.q) = false
      ∧ ((s.setDreg 0 0 { s.dreg 0 0 with settling := true }).dreg 0 0).settling = true
      ∧ (findRun z 0 u.group u.q).any (fun m => decide (rSquares (z.region (nRegion m)) ≤ runSquare m u.q)) = true
      ∧ runSquare n u.q < rSquares (s.region (nRegion n)) ∧ testBit (rComp (s.region (nRegion n))) 0 = true
      ∧ b.badLine (planeAddr (b.region (nRegion n)) (runSquare n u.q) 0 + (compOffset (b.region (nRegion n)) 0).getD 0) (compBytes 0) ≠ none
      ∧ s.vrecBad 0 (rVtBase (s.region (nRegion n)) + runSquare n u.q) = false := by decide +kernel

theorem witness_updateMissing :
    let s := updating 5 false id
    (s.dom 0).phase = .open ∧ (s.dom 0).exch.state = 0 ∧ (s.dom 0).boardsDone = (s.dom 0).boards ∧ testBit (s.dom 0).stacksDone 0 = false
      ∧ s.stackOk 0 = true ∧ schedulerBusy s = false ∧ (s.dom 0).missingRaised = false
      ∧ ((s.modDom 0 (fun d => { d with missingRaised := true })).dom 0).missingRaised = true := by decide +kernel

/-- A STEP_RECORD of tag 6: eta, k1 and k2 zero. -/
theorem witness_stepRecord :
    let s := updating 5 false id
    Accepted mb .stepRecord (0x2200 + 0) (leBytes 16 5) (updating 4 false id) ∧ (leBytes 16 5).length = 16 ∧ s.dev.jobState = .loaded
      ∧ (s.dom 0).used = true
      ∧ (∀ hi lo, (hi, lo) ∈ [(63, 32), (95, 64), (127, 96)] → isFin32 (BitVec.ofNat 32 (bitsOf (leNat (leBytes 16 5)) hi lo)) = true)
      ∧ (s.dom 0).committedTag < bitsOf (leNat (leBytes 16 5)) 31 0
      ∧ ((updating 4 false id).dom 0).openTag = bitsOf (leNat (leBytes 16 5)) 31 0
      ∧ armedTag ((updating 4 false id).dom 0) ≠ bitsOf (leNat (leBytes 16 5)) 31 0 := by
  unfold Accepted
  refine ⟨by decide +kernel, by decide, by decide, by decide +kernel, ?_, by decide +kernel, by decide +kernel, by decide +kernel⟩
  intro hi lo h
  simp only [List.mem_cons, Prod.mk.injEq, List.not_mem_nil, or_false] at h
  obtain ⟨rfl, rfl⟩ | ⟨rfl, rfl⟩ | ⟨rfl, rfl⟩ := h <;> decide +kernel

theorem witness_nothingParked (k : Nat) : ((updating 4 false id).stack k).park = [] ∧ ((updating 4 false id).stack k).inq = [] := by
  have h : ∃ x, (updating 4 false id).stks = [(0, x)] ∧ x.park = [] ∧ x.inq = [] := ⟨_, rfl, rfl, rfl⟩
  obtain ⟨x, h, hp, hi⟩ := h
  unfold State.stack tget
  rw [h]
  by_cases hk : k = 0
  · subst hk; exact ⟨hp, hi⟩
  · simp [List.lookup, beq_false_of_ne hk]

/-! ### The Beam and the time base -/

/-- A SEM_SIGNAL to Board 0: semaphore, amount, kind, epoch, group and group epoch. -/
def sigPkt (sem n kind ep g ge : Nat) : Pkt :=
  packet 0x20 0 1 (padTo 64 (leBytes 2 sem ++ leBytes 2 n ++ leBytes 1 kind ++ leBytes 1 ep ++ leBytes 2 g ++ leBytes 2 ge))

theorem witness_semArrives : Delivered 0x20 0 (sigPkt 1023 1 0 3 0 0) stored ∧ Delivered 0x20 0 (sigPkt 0 5 1 0 0 1) (summed 2) := by
  unfold Delivered; decide +kernel

theorem witness_semSignal :
    byteAt (sigPkt 0 1 2 0 0 0).payload 4 = 2 ∧ leAt (sigPkt 1023 1 0 3 0 0).payload 0 2 = 1023 ∧ byteAt (sigPkt 1023 1 0 3 0 0).payload 4 = 0
      ∧ leAt (sigPkt 1023 1 0 3 0 0).payload 2 2 = 1 ∧ byteAt (sigPkt 1023 1 0 3 0 0).payload 5 = 3 ∧ 3 ∉ (stored.board 0).bsemShut
      ∧ (stored.board 0).bsem 1023 + 65535 ≤ 65535
      ∧ 65535 < ((stored.modBoard 0 (fun b => { b with bsems := [(1023, 1)] })).board 0).bsem 1023 + 65535
      ∧ epochOk (summed 2) 0 1 = true ∧ epochOk (summed 2) 0 2 = false ∧ gKind ((summed 2).grp 0) = 3
      ∧ ((summed 2).board 0).credits = [((sigPkt 0 5 1 0 0 1).src, byteAt (sigPkt 0 5 1 0 0 1).payload 5, 2)] := by decide +kernel

/-- Board 0 has link 0 with a remote producer, paced by Beam semaphore 7; link 0 streams epoch 3. -/
def remoteLinked : State :=
  stored.modBoard 0 (fun b => { b with links := [(0, { bufCount := 1, producer := 5, consumer := 1, fullSem := 7, state := 1, epoch := 3 })] })

/-- Board 0 has link 0 with a remote consumer, which frees its buffers with Beam semaphore 9. -/
def remoteRead : State :=
  stored.modBoard 0 (fun b => { b with
    links := [(0, { bufCount := 1, producer := 1, consumer := 5, emptySem := 9, state := 1, epoch := 3 })]
    bufs := [(0, { base := 4, size := 128, state := 2 })] })

theorem witness_remoteConsumer :
    Delivered 0x20 0 (sigPkt 9 1 0 3 0 0) remoteRead ∧ ((remoteRead.board 0).link 0).remoteConsumer = true
      ∧ ((remoteRead.board 0).link 0).remoteProducer = false ∧ ((remoteRead.board 0).link 0).mode = ((remoteRead.board 0).link 0).want
      ∧ (remoteRead.board 0).links = [(0, (remoteRead.board 0).link 0)] ∧ (remoteRead.board 0).fetches = []
      ∧ ((remoteRead.board 0).buf 0).state = 2 ∧ (remoteRead.board 0).bsem 9 < 65535 ∧ ((remoteLinked.board 0).link 0).remoteConsumer = false
      ∧ ((remoteLinked.board 0).link 0).consumer ≠ 4 ∧ gEpoch (remoteRead.grp 0) = 0 := by unfold Delivered; decide +kernel

theorem witness_noRemoteLink : NoRemoteLink 0 1023 stored ∧ NoRemoteLink 0 8 remoteRead := by unfold NoRemoteLink; decide +kernel

/-- Board 0 holds credits of the vote group; this module has sent a square of it up. -/
def voteCredits : State := atWork 4 1 (rjob true 1 none) [(voteKey 0, 0, 16)]
def voteSentUp : State := { inRing 4 1 with fab := { (inRing 4 1).fab with voteSent := [(0, 0)] } }

theorem witness_semMore :
    leAt (sigPkt 1024 1 0 3 0 0).payload 0 2 = 1024 ∧ 3 ∈ ({ bsemShut := [3] } : Board).bsemShut
      ∧ (∀ l ∈ (stored.board 0).links, ¬ (l.2.remoteProducer = true ∧ l.2.fullSem = 1023)) ∧ gEpoch (stored.grp 0) = 0
      ∧ gEpoch (stored.grp 0) ≠ leAt (sigPkt 7 1 0 3 0 1).payload 8 2
      ∧ Delivered 0x20 0 (sigPkt 7 1 0 3 0 0) remoteLinked ∧ ((remoteLinked.board 0).link 0).remoteProducer = true
      ∧ (remoteLinked.board 0).links = [(0, (remoteLinked.board 0).link 0)] ∧ (remoteLinked.board 0).bsem 7 < 65535
      ∧ Delivered 0x20 0 (sigPkt 0 1 1 0 0 1) voteCredits ∧ gKind (voteCredits.grp 0) = 4 ∧ epochOk voteCredits 0 1 = true
      ∧ ({ sigPkt 0 1 1 0 0 1 with src := 16 } : Pkt).src / 16 = voteCredits.device ∧ (voteCredits.board 0).credits = [(voteKey 0, 0, 16)]
      ∧ Delivered 0x20 0 (sigPkt 0 1 1 0 0 1) voteSentUp ∧ (sigPkt 0 1 1 0 0 1).src / 16 ≠ voteSentUp.device
      ∧ voteSentUp.fab.voteSent.find? (fun w => w.1 == 0) = some (0, 0) ∧ voteSentUp.fab.votes = [] ∧ voteSentUp.fab.voteWait = [] := by
  unfold Delivered; decide +kernel

/-- Group 0 is a COMMIT group of domain 0 and of epoch 1, with one child, port 3, and its root here (up port 24) or beyond port `up`;
domain 0 is in use on it. -/
def committing (up : Nat) (x : Exch) : State :=
  { routed .up with
    job := { ready.job with groups := [(0, BitVec.ofNat 192 (1 <<< 176 + 5 <<< 172 + 1 <<< 156 + 8 <<< 100 + up <<< 79))], members := [(0, 16)] }
    doms := [(0, { used := true, mbPerStep := 2, lenLimit := 256, boards := 1, openTag := 5, phase := .closing, exch := x })] }

/-- A message of the group: opcode, tag, flags (1 DOWN, 2 ACK), group epoch and round. -/
def beamPkt (op tag flags ge round : Nat) : Pkt :=
  packet op 0 1 (padTo 64 (leBytes 4 tag ++ leBytes 1 0 ++ leBytes 1 flags ++ leBytes 2 0 ++ leBytes 2 ge ++ leBytes 2 0xFFFF ++ leBytes 2 1
    ++ leBytes 2 0 ++ leBytes 4 round))

theorem witness_beamArrives :
    [0x21, 0x22, 0x23].all (fun op => [0, 1, 2].all (fun f =>
        let pkt := beamPkt op 5 f 1 1
        let s := committing 24 {}
        pkt.opcode == op && s.powered && s.device != 0xFFFF && pktOk pkt && epochOk s (lineOf pkt.payload).group (lineOf pkt.payload).gepoch
          && gKind (s.grp (lineOf pkt.payload).group) == 5 && tokenOk (lineOf pkt.payload) (s.grp (lineOf pkt.payload).group))) = true
      ∧ epochOk (committing 24 {}) 0 (lineOf (beamPkt 0x21 5 0 2 1).payload).gepoch = false
      ∧ (lineOf (beamPkt 0x21 5 2 1 1).payload).ack = true ∧ (lineOf (beamPkt 0x21 5 1 1 1).payload).ack = false
      ∧ isRepeat ({ committing 24 {} with fab := { ready.fab with roundIn := [(0, 0, 3, 1)] } } : State) 3 (lineOf (beamPkt 0x21 5 0 1 1).payload) = true
      ∧ isRepeat (committing 24 {}) 3 (lineOf (beamPkt 0x21 5 0 1 1).payload) = false := by decide +kernel

theorem witness_beamRefused :
    pktOk { beamPkt 0x21 5 0 1 1 with hop := 31 } = true ∧ (beamPkt 0x21 5 0 1 1).hop ≠ 31 ∧ service.powered = false ∧ ready.device = 0xFFFF
      ∧ tokenOk (lineOf (beamPkt 0x22 5 0 1 1).payload) ((inRing 4 1).grp 0) = false := by decide +kernel

theorem witness_barriers :
    (lineOf (beamPkt 0x21 5 0 1 1).payload).down = false ∧ (lineOf (beamPkt 0x21 5 1 1 1).payload).down = true
      ∧ testBit (gForkPorts ((committing 24 {}).grp 0)) 3 = true ∧ (24 : Nat) ≠ 3 ∧ (committing 24 {}).arrived 0 0 24 = false
      ∧ pktOk { beamPkt 0x21 5 0 1 1 with flits := 1 } = false
      ∧ gUpPort ((committing 7 {}).grp 0) = 7 ∧ (lineOf (beamPkt 0x21 5 1 1 1).payload).barrier = 0
      ∧ ((committing 7 {}).dom 0).used = true ∧ ((committing 7 {}).dom 0).group = 0 := by decide +kernel

theorem witness_tokens :
    ((committing 24 {}).dom 0).exch.state = 0 ∧ ((committing 24 { state := 1, offer := 1 }).dom 0).exch.state = 1
      ∧ ((committing 24 { state := 1, offer := 1 }).dom 0).exch.sentUp = false ∧ gChildren ((committing 24 {}).grp 0) = [3]
      ∧ gUpPort ((committing 24 {}).grp 0) = 24 ∧ (lineOf (beamPkt 0x22 5 0 1 1).payload).tag = ((committing 24 {}).dom 0).openTag := by
  decide +kernel

/-- A message on port 0 that no acknowledgement has ended. -/
def unacked : State := { committing 24 {} with fab := { ready.fab with unacked := [{ port := 0, pkt := beamPkt 0x22 5 0 1 1 }] } }

theorem witness_resend : Ready 0 (beamPkt 0x22 5 0 1 1) unacked ∧ beamGroup (beamPkt 0x22 5 0 1 1) = 0 ∧ (unacked.port 0).inService = true := by
  unfold Ready NothingWaits; decide +kernel

theorem witness_beamTimeout :
    ((committing 24 { state := 1 }).dom 0).exch.state = 1 ∧ ((committing 24 { state := 1 }).dom 0).exch.timeoutRaised = false
      ∧ ((committing 24 { state := 1, timeoutRaised := true }).dom 0).exch.timeoutRaised = true := by decide

/-- Everything of the open step is done in domain 0. -/
def offering (f : Dom → Dom) : State := (updating 5 false id).modDom 0 (fun d => f { d with stacksDone := 4095 })

theorem witness_localOffer :
    offerDue (offering id) 0 = true ∧ offerDue (updating 5 false id) 0 = false ∧ (offering id).powered = true ∧ schedulerBusy (offering id) = false
      ∧ ((offering id).dom 0).watch.voidMark = false ∧ ((offering id).dom 0).updFault = false ∧ ((offering id).dom 0).lost = false
      ∧ ((offering id).dom 0).replay = none ∧ ((offering id).dom 0).mirrorActive = false ∧ ((offering id).dom 0).snapCapturing = false
      ∧ ((offering (fun d => { d with passes := [{ stack := 0, region := 0, set := 0 }] })).dom 0).mirrorActive = true
      ∧ ((offering (fun d => { d with updFault := true })).dom 0).updFault = true
      ∧ replayOk (offering id) ((offering id).dom 0) { lossCount := 1 } = false := by decide +kernel

/-- The time master is device 0. -/
def slaved : State := (routed .up).wr .tbMaster 0

theorem witness_timeBase :
    slaved.powered = true ∧ slaved.rd .tbMaster ≠ 0xFFFF ∧ slaved.rd .tbMaster ≠ slaved.device ∧ slaved.device ≠ 0xFFFF
      ∧ (slaved.port 0).state = .up ∧ pickPort slaved (wayTo slaved 0 none false).ports slaved.ownAddr (0 * 16) = some 0
      ∧ slaved.anyOpen = false ∧ slaved.rd .tbMaster = 0 ∧ (-4000 : Int).natAbs ≤ 4000 ∧ ¬ (4001 : Int).natAbs ≤ 4000
      ∧ 1000 < ((1001000 : Int) / 1000).natAbs := by decide +kernel

theorem witness_syncDropped :
    (slaved.port 1).state ≠ .up ∧ (leaveRx (some 0) 8 1 slaved).rd .tbMaster = 0 ∧ (1000000 : Nat) < (1000001 : Int).natAbs
      ∧ pickPort (leaveRx (some 0) 8 1 slaved) (wayTo slaved 0 none false).ports (leaveRx (some 0) 8 1 slaved).ownAddr 0 = some 0
      ∧ (portIn .up 0).powered = true ∧ (portIn .up 0).device = 0xFFFF ∧ ({ ps := 0, hop := 31 } : SyncStamp).hop = 31
      ∧ ({ ps := 0 } : SyncStamp).hop ≠ 31 ∧ (routed .up).rd .tbMaster ≠ (routed .up).device := by decide +kernel

/-- Ports 0 and 1 are UP: a sync from port 0 goes on to port 1. -/
theorem witness_syncForward :
    (List.range 24).filter (fun r => ((slaved.modPort 1 (fun x => { x with state := .up })).port r).state == .up && r != 0) = [1] := by
  decide +kernel

theorem witness_master :
    ((routed .up).wr .tbMaster 1).rd .tbMaster = ((routed .up).wr .tbMaster 1).device
      ∧ (List.range 24).filter (fun q => (((routed .up).wr .tbMaster 1).port q).state == .up) = [0]
      ∧ (routed .up).rd .tbMaster ≠ (routed .up).device ∧ ((routed .up).port 1).state ≠ .up := by decide +kernel

theorem witness_syncReady :
    Ready 0 { dest := 16, src := 16, opcode := 0x24, flits := 0, lines := 1, payload := padTo 64 (leBytes 8 0 ++ leBytes 8 0) }
      ((routed .up).wr .tbMaster 1) := by
  unfold Ready NothingWaits; decide +kernel

/-- A port that is UP with nothing in it takes every echo at once. -/
theorem witness_echo : ∀ k : Pkt, k.opcode = 0x25 → k.flits = 0 → k.dateline = false → Ready 0 k (routed .up) := by
  intro k ho hf hd
  have hp : poolOf k = poolOf { ackPkt with opcode := 0x25 } := by unfold poolOf vcOf; rw [ho, hd]; rfl
  refine ⟨by unfold NothingWaits; decide +kernel, ?_, by decide +kernel⟩
  unfold roomFor
  rw [ho, hp]
  decide +kernel

theorem witness_holdover :
    ({ ready with fab := { ready.fab with tbState := 2 } } : State).fab.tbState = 2 ∧ ready.fab.tbState ≠ 2 := by decide

/-! ### Stacks -/

/-- Stack 0 with one message in its inbox. -/
def told (m : HubMsg) : State := ready.modStack 0 (fun x => { x with inbox := [m] })

theorem witness_stackMessages :
    nextMsg (told (.openStep 0 5)) 0 = some (.openStep 0 5) ∧ nextMsg (told (.commit 0 5)) 0 = some (.commit 0 5)
      ∧ nextMsg (told (.void 0 5)) 0 = some (.void 0 5) ∧ nextMsg ready 0 = none := by decide +kernel

/-- Stack 0 holds a COMMIT of the open step of domain 0; the other stacks have applied theirs, or not. -/
def closing (applied : Nat) (open0 : Bool) : State :=
  ((stepOpen 5 1 running).modDom 0 (fun d => { d with phase := .closing, appliedBy := applied })).modStack 0 (fun x =>
    { x with held := [.commit 0 5], regs := [(0, { isOpen := open0, openTag := 5, committedTag := 4 })] })

theorem witness_closeApply :
    heldFor ((closing 0 true).stack 0) 0 = some (5, true) ∧ ((closing 0 true).dreg 0 0).isOpen = true ∧ ((closing 0 true).dreg 0 0).openTag = 5
      ∧ writesDone (closing 0 true) 0 0 = true ∧ ((closing 0 true).dreg 0 0).settling = false ∧ (closing 0 true).powered = true
      ∧ ((closing 0 false).dreg 0 0).isOpen = false ∧ ((closing 0 true).stack 0).reads = []
      ∧ ((closing 0 true).stackOk 1 = true ∧ testBit ((closing 0 true).dom 0).appliedBy 1 = false)
      ∧ (closing 4094 true).stackOk 0 = true := by decide +kernel

theorem witness_allApplied (j : Nat) (h : (closing 4094 true).stackOk j = true) (hj : j ≠ 0) :
    testBit ((closing 4094 true).dom 0).appliedBy j = true := by
  have hl : j < 12 := by
    by_contra hn
    simp [State.stackOk] at h
    omega
  have : ∀ j < 12, j ≠ 0 → testBit ((closing 4094 true).dom 0).appliedBy j = true := by decide +kernel
  exact this j hl hj

theorem witness_settle :
    ((ready.modStack 0 (fun x => { x with regs := [(0, { settling := true })] })).dreg 0 0).settling = true ∧ (ready.dreg 0 0).settling = false := by
  decide +kernel

/-- A mirror pass of region 0 is due. -/
def mirroring (partner : Nat) : State :=
  (updating 5 false id).wr .mirrorPartner partner |>.modDom 0 (fun d => { d with passes := [{ stack := 0, region := 0, set := 1 }] })

theorem witness_settled (j : Nat) (h : ready.stackOk j = true) (hj : j ≠ 0) :
    testBit ((ready.modDom 0 (fun d => { d with settledBy := 4094 })).dom 0).settledBy j = true := by
  have hl : j < 12 := by
    by_contra hn
    simp [State.stackOk] at h
    omega
  have : ∀ j < 12, j ≠ 0 → testBit ((ready.modDom 0 (fun d => { d with settledBy := 4094 })).dom 0).settledBy j = true := by decide +kernel
  exact this j hl hj

theorem witness_mirrorPass :
    findPass (mirroring 32) 0 0 0 = some { stack := 0, region := 0, set := 1 } ∧ findPass ready 0 0 0 = none
      ∧ ((mirroring 32).dreg 0 0).settling = false ∧ (mirroring 32).powered = true ∧ (mirroring 32).rd .mirrorPartner ≠ 0xFFFF
      ∧ (mirroring 0xFFFF).rd .mirrorPartner = 0xFFFF := by decide +kernel

/-- A module with a PLAIN region at DPA 0, a MIRROR region at 64 KiB, and a VERSIONED region of one square at 128 KiB. -/
def readable (bad : List Nat) (r : DReg) : State :=
  ({ stored with job := { stored.job with
      regions := [(0, region 0 2 0 1), (1, region 0 5 1 1), (2, region 0 1 2 1 ||| BitVec.ofNat 128 (1 <<< 111 + 1 <<< 67))] } } : State).modStack 0
    (fun x => { x with bad := bad, regs := [(0, r)] })

def readReqAt (dpa tag : Nat) : StackReadReq := { dpa := dpa, lines := 1, board := 0, tag := tag }

theorem witness_stackReads :
    let s := readable [] { committedTag := 4, isOpen := true, openTag := 5 }
    s.stackOk 0 = true ∧ s.powered = true ∧ s.boardOk 0 = true ∧ stackOf stackBytes ≠ 0 ∧ stackOf (0 + 64 * 1 - 1) = 0
      ∧ readLines s 0 0 1 0 = [.data 0 (List.replicate 64 0#8)] ∧ readLines s 0 0x30000 1 0 = [.region]
      ∧ readLines s 0 0x20000 1 6 = [.held] ∧ readLines s 0 0x20000 1 3 = [.stale 1]
      ∧ readLines (readable [0] {}) 0 0 1 0 = [.bad 0] := by decide +kernel

theorem witness_otherStack :
    stackOf (0 + 64 * 0) ≠ 1 ∧ (0 : Nat) < 1 ∧ readLines (readable [] {}) 1 0 1 0 = [.region] ∧ ready.stackOk 1 = true := by decide +kernel

/-- Reads that were held through a test of their stack: from another module, through the window, and of the stash. -/
def heldTested : State :=
  stored.modStack 0 (fun x => { x with reads := [ReadFor.remote (packet 0x01 0 1 []), .window 0, .stash 0 0 0 0].map (fun w =>
    { who := w, dpa := 0, lines := 1, tag := 0, domain := 0xFF, since := 0#64 }) })

theorem witness_heldElse :
    (heldTested.stack 0).reads.map (·.who) = [.remote (packet 0x01 0 1 []), .window 0, .stash 0 0 0 0] ∧ heldTested.underTest 0 = false
      ∧ (tested heldTested).underTest 0 = true := by decide +kernel

/-- Reads of a Board, and of a gather, that run ahead. -/
def heldReads : State :=
  stored.modStack 0 (fun x => { x with reads := [
    { who := .board 0, dpa := 0x20000, lines := 1, tag := 6, domain := 0, since := 0#64 },
    { who := .gather (gatherPkt 32 1 6), dpa := 0x20000, lines := 65, tag := 6, domain := 0, since := 0#64 }] })

theorem witness_heldReads :
    (heldReads.stack 0).reads[0]? = some { who := .board 0, dpa := 0x20000, lines := 1, tag := 6, domain := 0, since := 0#64 }
      ∧ ((heldReads.stack 0).reads[1]?).map (·.who) = some (.gather (gatherPkt 32 1 6)) := by decide +kernel

/-- Reads of a rendezvous, and of a fill of a link, that run ahead. -/
def heldMore : State :=
  { met.modStack 0 (fun x => { x with reads := [
    { who := .rendezvous 0 3, dpa := 0x20000, lines := 65, tag := 6, domain := 0, since := 0#64 },
    { who := .fetch 0 0 0 0, dpa := 0x20000, lines := 1, tag := 6, domain := 0, since := 0#64 }] }) with
    boards := [(0, { (met.board 0) with fetches := [fillRun []] })] }

theorem witness_heldMore :
    ((heldMore.stack 0).reads.map (·.who)) = [.rendezvous 0 3, .fetch 0 0 0 0] ∧ ((heldMore.board 0).rdvAt 3).isSome = true
      ∧ (heldMore.board 0).rdvWait = [] ∧ (fillRun []).squashed = false
      ∧ (heldMore.board 0).awaited 0 0 0 (fun r => r.stash.isNone) = some (fillRun [], fillOf []) := by decide +kernel

/-- A weak line and a weak word; stack 1 and Board 1 retired. -/
def weak : State :=
  { (ready.modStack 0 (fun x => { x with soft := [5], rowTests := [3] })).modBoard 0 (fun b => { b with storeSoft := [5] }) with
    flash := { ready.flash with retiredStacks := 2, retiredBoards := 2 } }

theorem witness_weak :
    5 ∈ (weak.stack 0).soft ∧ 5 ∉ (weak.stack 0).bad ∧ 5 ∈ (weak.board 0).storeSoft ∧ 5 ∉ (weak.board 0).storeBad
      ∧ weak.stackOk 1 = false ∧ weak.boardOk 1 = false ∧ 6 ∉ (weak.stack 0).soft ∧ 6 ∉ (weak.board 0).storeSoft
      ∧ tget weak.flash.stackSpares 0 0 ≤ 16
      ∧ (readable [] {}).regionAt 0x20000 = some (2, region 0 1 2 1 ||| BitVec.ofNat 128 (1 <<< 111 + 1 <<< 67))
      ∧ rKind (region 0 1 2 1 ||| BitVec.ofNat 128 (1 <<< 111 + 1 <<< 67)) = 1
      ∧ squareAt (region 0 1 2 1 ||| BitVec.ofNat 128 (1 <<< 111 + 1 <<< 67)) 0x20000 = some (0, 0) := by decide +kernel

theorem witness_rowsAndScrubs :
    ((ready.modStack 0 (fun x => { x with rowTests := [3] })).stack 0).rowTests = [3]
      ∧ stackBytes ≤ 64 * (stackBytes / 64) ∧ 64 * (stackBytes / 64 - 2) + 64 < stackBytes ∧ (0 : Nat) ∉ (ready.stack 0).bad
      ∧ storeBytes ≤ 8 * (storeBytes / 8) ∧ 8 * (storeBytes / 8 - 1) < storeBytes ∧ (0 : Nat) ∉ (ready.board 0).storeBad
      ∧ ((ready.modBoard 0 (fun b => { b with storeTests := [3] })).board 0).storeTests = [3]
      ∧ tget ready.flash.storeSpares (32 * 0 + storeBank (8 * 3)) 0 < 64 ∧ ready.boardOk 0 = true ∧ ready.stackOk 0 = true
      ∧ ((ready.modStack 0 (fun x => { x with testDue := true })).stack 0).testDue = true
      ∧ inCommitted (readable [] { committedTag := 4 }) 0x20000 = some 0 := by decide +kernel

theorem witness_tests :
    (tested ready).underTest 0 = true ∧ ready.underTest 0 = false ∧ (awake ready).storeUp 0 = true ∧ ready.storeUp 0 = false
      ∧ ((awake (ready.modBoard 0 (fun b => { b with storeTests := [3] }))).board 0).asleep = false
      ∧ ready.dev.restarting.contains (16 + 0) = false ∧ ((tested ready).stack 0).reads = [] ∧ (tested ready).powered = true
      ∧ 64 * (stackBytes / 64 - 1) + 64 = stackBytes := by decide +kernel

theorem witness_storeSparesUsed :
    64 ≤ tget ({ ready with flash := { ready.flash with storeSpares := [(storeBank 24, 64)] } } : State).flash.storeSpares (32 * 0 + storeBank (8 * 3)) 0 := by
  decide +kernel

/-! ### Sequencer -/

/-- Board 0's inactive bank 1 holds some words, in a state of its loading, while a job runs or not. -/
def loadingBank (inact : Nat) (ws : List W32) (s : State) : State :=
  s.modBoard 0 (fun b => { b with inactState := inact, bank1 := (List.range ws.length).map (fun i => (i, ws.getD i 0)) })

theorem witness_bankLoads :
    seqPresent running 0 = true ∧ controlBusy running 0 = false ∧ (running.board 0).inactState = 0
      ∧ ((loadingBank 2 [] running).board 0).inactState ≠ 0 ∧ ((loadingBank 2 [] running).board 0).inactState ≠ 3
      ∧ ((loadingBank 1 [] running).board 0).inactState = 1 ∧ ((loadingBank 1 [] running).board 0).active = 0
      ∧ ((loadingBank 1 [] running).board 0).firstBank = true ∧ running.dev.jobState = .running
      ∧ (checkBank (loadingBank 1 [0#32] running) 0 (bankOf ((loadingBank 1 [0#32] running).board 0).inactiveBank) none).isSome = true
      ∧ checkBank (loadingBank 1 stopBank { running with job := { running.job with epochs := [(0, 0)] } }) 0
          (bankOf ((loadingBank 1 stopBank { running with job := { running.job with epochs := [(0, 0)] } }).board 0).inactiveBank) none = none
      ∧ controlBusy { running with dev := { running.dev with restarting := [16] } } 0 = true
      ∧ running.carries 0 = true ∧ running.carries 1 = false := by decide +kernel

theorem witness_bankSwap :
    let s := (loadingBank 2 stopBank running).modBoard 0 (fun b => { b with main := { b.main with atSwap := true }, fill := { b.fill with stopped := true } })
    (s.board 0).inactState = 2 ∧ (s.board 0).main.atSwap = true ∧ (s.board 0).fill.stopped = true ∧ (s.board 0).halt = .none
      ∧ s.dev.jobState = .running ∧ (running.board 0).inactState ≠ 2 := by decide +kernel

/-- Board 0's main stream has a bundle under issue: a group with a value acts next. -/
def acting (g v : Nat) (s : State) : State :=
  s.modBoard 0 (fun b => { b with main := { b.main with groups := [(g, v)], issue := some { offset := 0, header := 0, acts := if g = 12 then [] else [g] } } })

/-- Domain 0's micro-batch 0 holds 8 units of Board 0's pool. -/
def stashed : State :=
  (planned 1 running).modDom 0 (fun d => { d with
    phase := .open, openTag := 5
    mbs := [{ index := 0, len := 64, record := record 64 64 64 5 0, slotAddr := 0, reserved := [(0, 0, 8)], held := [(0, 0, 8)] }] })

/-- A STASH group: action, offset and size. -/
def stashGroup (a off size : Nat) : Nat := a <<< 62 + off <<< 30 + size <<< 6

/-- Every action of a STASH group, of some bytes or of none, is the next one of its command. -/
theorem witness_stashTurns :
    ∀ a ∈ [0, 1, 2, 3], ∀ n ∈ [0, 8], ∃ i u, Turns 0 .main 6 0 i (acting 6 (stashGroup a 0 n) stashed) u
      ∧ (tAction (actGroup u 0 .main 6) == a && tSize (actGroup u 0 .main 6) == n && (stashPlace u 0 0 0 0 n).isSome
        && fetchMay (u.board 0) 0 0) = true := by
  intro a ha n hn
  have h : ∀ a ∈ [0, 1, 2, 3], ∀ n ∈ [0, 8], (match turn 0 .main 6 0 (acting 6 (stashGroup a 0 n) stashed) with
      | .act _ u => tAction (actGroup u 0 .main 6) == a && tSize (actGroup u 0 .main 6) == n && (stashPlace u 0 0 0 0 n).isSome
        && fetchMay (u.board 0) 0 0
      | _ => false) = true := by decide +kernel
  exact exists_turns (P := fun _ u => tAction (actGroup u 0 .main 6) == a && tSize (actGroup u 0 .main 6) == n
    && (stashPlace u 0 0 0 0 n).isSome && fetchMay (u.board 0) 0 0) (h a ha n hn)

/-- For each group of an action, a state whose next action it is; and none where the stream has no bundle. -/
theorem witness_turns :
    (∀ a ∈ [0, 1, 6, 7, 9, 12], ∃ i u, Turns 0 .main a 0 i (acting a 0 stashed) u ∧ (i.header == 0) = true)
      ∧ (∃ i u, Turns 0 .main 6 0 i (acting 6 (stashGroup 0 0 8) stashed) u ∧ (tAction (actGroup u 0 .main 6) == 0) = true)
      ∧ (∃ i u, Turns 0 .main 11 opStepDone i (acting 11 (2 <<< 28) running) u ∧ (u == acting 11 (2 <<< 28) running) = true)
      ∧ (∃ i u, Turns 0 .main 11 opNop i (acting 11 0 running) u ∧ (i.header == 0) = true)
      ∧ turn 0 .main 12 0 (acting 11 0 running) = .none
      ∧ turn 0 .main 0 0 running = .none ∧ turn 0 .main 11 opNop running = .none := by
  refine ⟨fun a ha => ?_, exists_turns (by decide +kernel), exists_turns (by decide +kernel), exists_turns (by decide +kernel),
    rfl, rfl, rfl⟩
  have h : ∀ a ∈ [0, 1, 6, 7, 9, 12],
      (match turn 0 .main a 0 (acting a 0 stashed) with | .act i _ => i.header == 0 | _ => false) = true := by decide +kernel
  exact exists_turns (h a ha)

/-- A main stream whose next bundle launches on Frame 0, which has been retired. -/
def onRetired : State :=
  let s := running.modBoard 0 (fun b => { b with
    started := true, bank0 := [(0, 0x00808006#32), (1, 0#32), (2, 1 <<< 24), (3, 2 <<< 28), (4, 0#32), (5, 0#32)] })
  { s with
    doms := [(0, { used := true, mbPerStep := 2, lenLimit := 256, boards := 1, phase := .open, openTag := 5 })]
    job := { s.job with epochs := [(0, 0)] }
    flash := { s.flash with retiredFrames := 1 } }

theorem witness_retiredFrame : (match turn 0 .main 11 opStepDone onRetired with | .halted _ => true | _ => false) = true := by decide +kernel

theorem witness_fetch :
    fetchMay ((acting 0 (3 <<< 132) running).board 0) (fLink (3 <<< 132)) 0 = true ∧ 1 ≤ fFills (3 <<< 132)
      ∧ fetchMay ((running.modBoard 0 (fun b => { b with links := [(0, { state := 2 })] })).board 0) 0 0 = false := by decide +kernel

theorem witness_stash :
    tAction (stashGroup 0 0 8) = 0 ∧ tAction (stashGroup 1 0 8) = 1 ∧ tAction (stashGroup 2 0 8) = 2 ∧ tAction (stashGroup 3 0 8) = 3
      ∧ tSize (stashGroup 0 0 8) = 8 ∧ (stashPlace stashed 0 0 0 0 8).isSome = true ∧ stashPlace stashed 0 0 0 0 9 = none
      ∧ stashPlace stashed 0 0 0 1 8 = none ∧ reservedOn stashed 0 0 0 = some (0, 8) := by decide +kernel

theorem witness_gatherIssue :
    gatherFits running 0 (gDest 0) 0 = true ∧ gatherFits running 0 0 1 = false
      ∧ meetsKept (running.board 0) 0 1 = false ∧ meetsKept { kept := [(64, 65, 0, 5)] } 0 1 = true ∧ meetsKept { kept := [(65, 65, 0, 5)] } 0 1 = false := by
  decide +kernel

/-- A SEM action that is not the bundle's last one. -/
def semFirst : State :=
  running.modBoard 0 (fun b => { b with main := { b.main with groups := [(9, 1), (7, 0)], issue := some { offset := 0, header := 0, acts := [9, 7] } } })

theorem witness_semFirst : ∃ i u, Turns 0 .main 9 0 i semFirst u ∧ decide (i.acts.drop 1 ≠ [] ∧ (u.board 0).sigs = []
    ∧ mSigAt (actGroup u 0 .main 9) = false) = true := exists_turns (by decide +kernel)

theorem witness_semFetches : ∃ i u, Turns 0 .main 9 0 i (acting 9 (2 ^ 20 + 65535) running) u
    ∧ decide (mSigAt (actGroup u 0 .main 9) = true ∧ ∀ r ∈ (u.board 0).fetches, r.more = false) = true := exists_turns (by decide +kernel)

theorem witness_sem :
    mSigAt (2 ^ 20 + 65535) = true ∧ mSigKind (2 ^ 20 + 65535) = 0 ∧ (running.board 0).sigs = []
      ∧ (running.board 0).sem (mSigSem (2 ^ 20 + 65535)) + mSigN (2 ^ 20 + 65535) ≤ 65535 ∧ mSigAt 1 = false := by decide +kernel

theorem witness_stepDone : ({ running with job := { running.job with epochs := [(0, 0)] } } : State).domOfEpoch (hEpoch 0) = some 0 := by decide +kernel

/-- FRAME of a launch of one FP8 tile on Frame 0, KLEN 64; FEED with a beat for each of its update cycles. -/
def oneTile : Nat := 1 <<< 56 + 64 <<< 38 + 1 <<< 26 + 1 <<< 14
def feedOf (frame : Nat) : Nat := passCycles frame <<< 16

/-- That launch is the next action of Board 0's main stream. -/
def launching (s : State) : State :=
  s.modBoard 0 (fun b => { b with main := { b.main with
    groups := [(2, feedOf oneTile), (3, oneTile), (4, 0), (11, 1 <<< 28)], issue := some { offset := 0, header := 0, acts := [11] } } })

theorem witness_run :
    (∃ i u, Turns 0 .main 11 opRun i (launching running) u ∧ decide (∀ k ∈ (u.board 0).launches, k.id ≠ i.launch.getD 0) = true)
      ∧ launchMay ((launching running).board 0) (aMask oneTile) = true
      ∧ launchMay ((launching (running.modBoard 0 (fun b => { b with frames := [(0, { passes := [(0, 0), (0, 1)] })] }))).board 0) (aMask oneTile) = false
      ∧ eBeats (feedOf oneTile) = passCycles oneTile ∧ (∀ f ∈ framesOf oneTile, ((running.board 0).frame f).left = [])
      ∧ actGroup (launching running) 0 .main 3 = oneTile ∧ actGroup (launching running) 0 .main 2 = feedOf oneTile
      ∧ framesOf oneTile = [0] ∧ 0 < passCycles oneTile ∧ 0 < passesOf oneTile 0 ∧ tilesOf oneTile = 1 := by
  exact ⟨exists_turns (by decide +kernel), by decide +kernel⟩

/-- Board 0 fills buffer 0 over link 0 from a source, with a base line; its run still issues, or waits among the re-arms. -/
def fetching (src base : Nat) (s : State) : State :=
  s.modBoard 0 (fun b => { b with
    bufs := [(0, { base := 4, size := 128, state := 1 })]
    links := [(0, { bufFirst := 0, bufCount := 1, state := 1, filling := [0] })]
    fetches := [{ link := 0, src := src, base := base, runs := 1, run := 2, stride := 0, fills := 1, fabric := 16, work := { tag := 5 }, next := 1
                  going := [{ fill := 0, handle := 0, lines := 2 }] }] })

/-- That run and its fill; the same of a run that is squashed. -/
def runIn (src base : Nat) (squashed : Bool) : FetchRun :=
  { link := 0, src := src, base := base, runs := 1, run := 2, stride := 0, fills := 1, fabric := 16, work := { tag := 5 }, next := 1
    going := [{ fill := 0, handle := 0, lines := 2 }], squashed := squashed }
def fillIn : Filling := { fill := 0, handle := 0, lines := 2 }
def fetchingLate (src : Nat) (s : State) : State :=
  (fetching src 0 s).modBoard 0 (fun b => { b with
    fetches := [runIn src 0 true], bufs := [(0, { base := 4, size := 128, state := 4 })] })

theorem witness_landing :
    Awaits 0 0 0 0 (runIn 1 0 false) fillIn (fetching 1 0 running) ∧ Awaits 0 0 0 0 (runIn 1 0 true) fillIn (fetchingLate 1 running)
      ∧ Awaits 0 0 0 0 (runIn 0 0 false) fillIn (fetching 0 0 (readable [] {})) ∧ (fetching 0 0 (readable [] {})).isHere 16 = true
      ∧ (fetching 0 0 (readable [] {})).isHere 32 = false ∧ (runIn 1 0 false).stash = none ∧ (fetching 1 0 running).boardOk 0 = true
      ∧ boardBad (fetching 1 0 running) 0 0 64 = none
      ∧ (boardBad ((fetching 1 0 running).modBoard 0 (fun b => { b with storeBad := [0] })) 0 0 64).isSome = true
      ∧ fetchStackLine (readable [] {}) (64 * 0) 5 = .data 0 (List.replicate 64 0#8)
      ∧ fetchStackLine (readable [] { isOpen := true, openTag := 4, committedTag := 3 }) (64 * 2048) 5 = .held
      ∧ fetchStackLine (readable [] { committedTag := 9 }) (64 * 2048) 5 = .stale 1
      ∧ fetchStackLine (readable [] {}) (64 * 1024) 5 = .region ∧ fetchStackLine (readable [0] {}) (64 * 0) 5 = .bad 0
      ∧ ({ running with flash := { running.flash with retiredBoards := 2 } } : State).boardOk 1 = false
      ∧ (running.board 0).awaited 0 0 0 (fun _ => true) = none := by
  unfold Awaits; decide +kernel

/-- The lines of a stack under test, and those of the stores of Boards that are awake, asleep or retired. -/
theorem witness_landingHeld :
    fetchStackLine (tested (readable [] {})) (64 * 0) 5 = .held ∧ plainLine (tested running) 0 = .held
      ∧ plainLine running 0 = .data 0 (List.replicate 64 0#8)
      ∧ (awake (fetching 1 0 running)).storeUp 0 = true ∧ Awaits 0 0 0 0 (runIn 1 0 false) fillIn (awake (fetching 1 0 running))
      ∧ (awake (fetching 1 0 running)).boardOk 0 = true ∧ (fetching 1 0 running).storeUp 0 = false
      ∧ (boardBad ((awake (fetching 1 0 running)).modBoard 0 (fun b => { b with storeBad := [0] })) 0 0 64).isSome = true
      ∧ ({ awake running with flash := { running.flash with retiredBoards := 1 } } : State).storeUp 0 = false := by
  unfold Awaits; decide +kernel

theorem witness_payload :
    (payloadRec (fetching 3 0 stashed) {}).any (fun p => recKind p != 1 && decide (0 < ceilDiv (recPayloadBytes p) 64)) = true
      ∧ (payloadRec (fetching 3 0 stashed) {}).any (fun p => decide (ceilDiv (recPayloadBytes p) 64 ≤ 1000)) = true
      ∧ payloadRec (fetching 3 0 running) {} = none ∧ Awaits 0 0 0 0 (runIn 3 0 false) fillIn (fetching 3 0 stashed)
      ∧ (payloadRec ((fetching 3 0 stashed).modDom 0 (fun d => { d with mbs := d.mbs.map (fun m => { m with record := record 64 64 64 5 0 ||| BitVec.ofNat 512 (2 ^ 32) }) })) {}).any
          (fun p => recKind p == 1) = true := by
  unfold Awaits; decide +kernel

/-- A run of the stash, in the Board's partition or in its stash region. -/
def stashRun (region : Bool) : FetchRun := { runIn 1 0 false with stash := some { region := region, off := 0, addr := 0, left := 8, size := 8, release := false } }

theorem witness_stashLanding :
    Awaits 0 0 0 0 (stashRun false) fillIn ((fetching 1 0 running).modBoard 0 (fun b => { b with fetches := [stashRun false] }))
      ∧ Awaits 0 0 0 0 (stashRun true) fillIn ((fetching 1 0 running).modBoard 0 (fun b => { b with fetches := [stashRun true] })) := by
  unfold Awaits; decide +kernel

/-- A re-arm of link 0 waits; the run before it still issues, or not. -/
def rearmed (more : Bool) : State :=
  (fetching 1 0 running).modBoard 0 (fun b => { b with
    fetches := b.fetches.map (fun q => { q with next := if more then 0 else 1 })
    rearms := [{ link := 0, src := 1, base := 0, runs := 1, run := 2, stride := 0, fills := 1, fabric := 16 }] })

theorem witness_rearm :
    (((rearmed true).board 0).rearms.map (fun r => (r.link, r.more))) = [(0, true)] ∧ (((rearmed true).board 0).issuing 0).isSome = true
      ∧ ((rearmed false).board 0).issuing 0 = none ∧ (running.board 0).fetches = [] ∧ (running.board 0).rearms = [] := by decide +kernel

/-- Board 0 has passed STEP_DONE of the open step of domain 0. -/
def donePassed : State := stashed.modBoard 0 (fun b => { b with stepDone := [0] })

theorem witness_boardDone :
    0 ∈ (donePassed.board 0).stepDone ∧ 0 ∉ (donePassed.board 0).reported ∧ (donePassed.board 0).domainBusy 0 (donePassed.epochsOf 0) = false
      ∧ (donePassed.board 0).halt = .none ∧ (donePassed.dom 0).phase = .open ∧ controlBusy donePassed 0 = false
      ∧ 0 ∉ (stashed.board 0).stepDone := by decide +kernel

/-- Board 0 runs, and its main stream stands at a bundle with START of an operation. -/
def standsAt (op : Nat) : State :=
  running.modBoard 0 (fun b => { b with started := true, bank0 := [(0, 0x00800004#32), (1, BitVec.ofNat 32 (op <<< 28)), (2, 0#32), (3, 0#32)] })

theorem witness_atOp :
    atOp (standsAt opSwap) 0 .main opSwap = true ∧ atOp (standsAt opStop) 0 .main opSwap = false ∧ atOp (standsAt opStop) 0 .main opStop = true
      ∧ atOp (standsAt opSwap) 0 .main opStop = false := by decide +kernel

/-- Board 0 has one launch, with its one tile written out or not. -/
def launched (written : List Nat) : State :=
  running.modBoard 0 (fun b => { b with launches := [{ id := 3, feed := feedOf oneTile, frame := oneTile, written := written }] })

theorem witness_layerOver :
    ((settleSigs 0 (launched [0])).board 0).launches.find? (fun l => l.work.filler == isFiller .main && ((settleSigs 0 (launched [0])).board 0).layerDone l)
        = some { id := 3, feed := feedOf oneTile, frame := oneTile, written := [0] }
      ∧ ((settleSigs 0 (launched [])).board 0).launches.find?
          (fun l => l.work.filler == isFiller .main && ((settleSigs 0 (launched [])).board 0).layerDone l) = none := by
  decide +kernel

/-- Board 0 in a state of its halt. -/
def haltIn (h : HaltState) : State :=
  { running with dev := { running.dev with state := .running } } |>.modBoard 0 (fun b => { b with halt := h, haltFaults := [ringFault] })

theorem witness_halts :
    ((haltIn .halting).board 0).halt = .halting ∧ controlBusy (haltIn .halting) 0 = false ∧ ((haltIn .halting).board 0).launches = []
      ∧ ((haltIn .halting).board 0).unended = false ∧ ((haltIn .ending).board 0).halt = .ending
      ∧ (∀ f ∈ ((haltIn .halting).board 0).haltFaults, (haltIn .halting).recordWaits f = false) ∧ ((haltIn .halting).board 0).haltFaults ≠ [] ∧ (haltIn .halting).dev.state = .running
      ∧ ((haltIn .halted).board 0).halt = .halted ∧ (haltIn .halted).boardOk 0 = true ∧ ((haltIn .halted).board 0).storeTests = []
      ∧ (haltIn .halted).dev.jobState = .running ∧ schedulerBusy (haltIn .halted) = false := by decide +kernel

/-- In HALTED, with no other Board halted. -/
theorem witness_restart : (let s := { haltIn .halted with dev := { (haltIn .halted).dev with state := .halted } }
    s.dev.state = .halted ∧ ∀ c < 16, s.boardOk c = true → c ≠ 0 → (s.board c).halt ≠ .halted) := by decide +kernel

/-- A launch of Board 0 waits in a stream hold. -/
def heldStream : State :=
  running.modBoard 0 (fun b => { b with
    streamHold := some { frame := 0, launch := 3, write := false }, launches := [{ id := 3, work := { epoch := 2 } }]
    frames := [(0, { passes := [(3, 0)] })] })

theorem witness_stall : (heldStream.board 0).halt ≠ .halted ∧ waitingEpochs heldStream 0 ≠ [] ∧ waitingEpochs running 0 = [] := by decide +kernel

/-! ### Frames, Tally, Slate -/

/-- A launch of one tile with no update cycle on Frame 0, holding its operand buffers or not; its pass stands at the Frame's head. -/
def emptyTile : Nat := 1 <<< 56 + 1 <<< 26 + 1 <<< 14
def launchOf (bufs : Tbl Nat) (drain : Nat) : Launch :=
  { id := 3, work := { tag := 5 }, feed := feedOf emptyTile, frame := emptyTile, drain := drain, rowBufs := bufs, rodBufs := bufs }
def heading (bufs : Tbl Nat) : State :=
  running.modBoard 0 (fun b => { b with launches := [launchOf bufs 0], frames := [(0, { passes := [(3, 0)] })], bufs := [(0, { base := 4, size := 1, state := 3 })] })

theorem witness_heads : Heads 0 0 (launchOf [] 0) 0 (heading []) ∧ Heads 0 0 (launchOf [(0, 0)] 0) 0 (heading [(0, 0)]) :=
  ⟨⟨⟨[], by decide +kernel⟩, by decide +kernel⟩, ⟨[], by decide +kernel⟩, by decide +kernel⟩

/-- The pass starts where its launch has its operand buffers, and waits where it has not. -/
def started (bufs : Tbl Nat) : Bool × State := enterPasses 0 0 (((heading bufs).board 0).frame 0).passes (heading bufs)

theorem witness_verdicts :
    (started []).1 = false ∧ (started [(0, 0)]).1 = true ∧ ((started [(0, 0)]).2.board 0).launchAt 3 = some (launchOf [(0, 0)] 0)
      ∧ (launchOf [(0, 0)] 0).garbled = false ∧ (((heading []).board 0).frame 0).drainFree = true
      ∧ operandBad (started [(0, 0)]).2 0 (launchOf [(0, 0)] 0) 0 = none
      ∧ (operandBad ((heading [(0, 0)]).modBoard 0 (fun b => { b with storeBad := [128] })) 0 (launchOf [(0, 0)] 0) 0).isSome = true
      ∧ ({ drains := [{ launch := 2, tile := 0 }] } : Frame).drainFree = false ∧ ((running.board 0).frame 0).passes = []
      ∧ verdictMay { tallyFor := [(0, 0)] } 0 0#64 = false ∧ (0 : Nat) ∉ (launchOf [(0, 0)] 0).dropped := by
  decide +kernel

/-- The same launch after a pop found the wrong beat, or with its tile discarded by a schedule fault. -/
def spoiled (garbled : Bool) (dropped : List Nat) : State :=
  (heading [(0, 0)]).modBoard 0 (fun b => { b with launches := [{ launchOf [(0, 0)] 0 with garbled := garbled, dropped := dropped }] })

/-- Its drain buffer is not free. -/
def blocked : State :=
  (heading [(0, 0)]).modBoard 0 (fun b => { b with
    frames := b.frames.map (fun f => (f.1, { f.2 with drains := [{ launch := 2, tile := 0 }] })) })

theorem witness_spoiled :
    (∀ garbled, Heads 0 0 { launchOf [(0, 0)] 0 with garbled := garbled, dropped := [0] } 0 (spoiled garbled [0]))
      ∧ Heads 0 0 { launchOf [(0, 0)] 0 with garbled := true } 0 (spoiled true [])
      ∧ (((spoiled true []).board 0).frame 0).drainFree = true
      ∧ operandBad (enterPasses 0 0 (((spoiled true []).board 0).frame 0).passes (spoiled true [])).2 0
          { launchOf [(0, 0)] 0 with garbled := true } 0 = none
      ∧ (enterPasses 0 0 (((spoiled false [0]).board 0).frame 0).passes (spoiled false [0])).1 = true
      ∧ ((enterPasses 0 0 (((spoiled false [0]).board 0).frame 0).passes (spoiled false [0])).2.board 0).launchAt 3
          = some { launchOf [(0, 0)] 0 with dropped := [0] }
      ∧ Heads 0 0 (launchOf [(0, 0)] 0) 0 blocked ∧ ((blocked.board 0).frame 0).drainFree = false := by
  refine ⟨fun g => ?_, ?_⟩
  · cases g <;> exact ⟨⟨[], by decide +kernel⟩, by decide +kernel⟩
  · exact ⟨⟨⟨[], by decide +kernel⟩, by decide +kernel⟩, by decide +kernel, by decide +kernel, by decide +kernel, by decide +kernel,
      ⟨⟨[], by decide +kernel⟩, by decide +kernel⟩, by decide +kernel⟩

/-- The Deck of a pass with no update cycle is +0 in every cell, and its check compares +0 with the proof cells. -/
theorem zeroDeck (q : Nat) (o : TileOps) (i : Nat) : (deckOf q 0 o).getD i zero32 = zero32 := by
  have h : ∀ w ∈ deckOf q 0 o, w = zero32 := by
    intro w hw
    simp only [deckOf, cellSum, List.mem_flatMap, List.mem_map] at hw
    obtain ⟨_, _, _, _, rfl⟩ := hw
    rfl
  rw [List.getD_eq_getElem?_getD]
  cases he : (deckOf q 0 o)[i]? with
  | none => rfl
  | some w => exact h w (List.mem_of_getElem? he)

/-- The proof cells of such a pass: +0, but for one that drains another value. -/
def idleCells (faults : CellFaults) : List (W32 × W32) :=
  (List.range 32).map (fun c => ((match faults.find? (fun e => e.1 == 256 && e.2.1 == c) with
    | some e => e.2.2
    | none => zero32), zero32))

theorem zeroChecks (o : TileOps) (faults : CellFaults) :
    proofChecks emptyTile o (deckOf (passRank emptyTile) (passCycles emptyTile) o) faults
      = (idleCells faults).map (fun k => rodCheck zero32 k.1 k.2 (aProofExp emptyTile)) := by
  have hn : passCycles emptyTile = 0 := by decide +kernel
  have hs : (List.range 256).foldl (fun a _ => fadd a zero32) zero32 = zero32 := by decide +kernel
  have hc : proofCells emptyTile o faults = idleCells faults := by
    unfold proofCells idleCells
    rw [hn]
    rfl
  unfold proofChecks
  rw [hc, hn]
  unfold checkRods
  simp only [zeroDeck, hs]
  have hz : ∀ (ks : List (W32 × W32)) (i : Nat), (ks.zipIdx i).map (fun e => rodCheck zero32 e.1.1 e.1.2 (aProofExp emptyTile))
      = ks.map (fun k => rodCheck zero32 k.1 k.2 (aProofExp emptyTile)) := by
    intro ks
    induction ks with
    | nil => exact fun _ => rfl
    | cons k ks ih => intro i; rw [List.zipIdx_cons, List.map_cons, List.map_cons, ih]
  exact hz _ 0

/-- Without a fault no Rod mismatches; with a proof cell that drains 1.0 its Rod does. -/
theorem witness_rods (s : State) : rodsAfter s 0 (launchOf [(0, 0)] 0) 0 [] = 0
    ∧ rodsAfter s 0 (launchOf [(0, 0)] 0) 0 [(256, 31, 0x3F800000#32)] = 2 ^ 31 := by
  have e : ∀ faults : CellFaults, (∀ d : List W32, withFaults (aFold emptyTile) faults d = d) →
      rodsAfter s 0 (launchOf [(0, 0)] 0) 0 faults
        = mismatchBits ((idleCells faults).map (fun k => rodCheck zero32 k.1 k.2 (aProofExp emptyTile))) := by
    intro faults h
    unfold rodsAfter deckAfter
    rw [show (launchOf [(0, 0)] 0).frame = emptyTile from rfl, h, zeroChecks]
  exact ⟨(e _ fun _ => rfl).trans (by decide +kernel), (e _ fun _ => rfl).trans (by decide +kernel)⟩

/-- The pass is held after a mismatch of Rod 31. -/
def proofHeld (tested : Bool) : State :=
  (heading [(0, 0)]).modBoard 0 (fun b => { b with hold := [{ frame := 0, launch := 3, tile := 0, rods := 2 ^ 31, tested := tested }] })

theorem witness_proofHold :
    (∀ tested, ((proofHeld tested).board 0).hold = [{ frame := 0, launch := 3, tile := 0, rods := 2 ^ 31, tested := tested }])
      ∧ ((proofHeld true).board 0).launchAt 3 = some (launchOf [(0, 0)] 0) ∧ operandBad (proofHeld true) 0 (launchOf [(0, 0)] 0) 0 = none
      ∧ ((proofHeld true).board 0).launchAt 4 = none ∧ controlBusy (proofHeld true) 0 = false
      ∧ (∀ h ∈ (running.board 0).hold.head?, h.frame ≠ 0 ∨ h.tested = true) := by decide +kernel

/-- DRAIN words: MODE, and TALLY. -/
def drainOf (mode : Nat) (tally : Bool) : Nat := mode <<< 52 + (if tally then 2 ^ 46 else 0) + 1 <<< 8

/-- A tile of that launch waits in a drain buffer of Frame 0; its destination buffer is held or not. -/
def drainLaunch (mode : Nat) (tally : Bool) (dst : Tbl Nat) : Launch := { launchOf [] (drainOf mode tally) with dstBufs := dst }
def drainTile (waited : Bool) : Tile := { launch := 3, tile := 0, values := [0x3F800000#32], infIn := [false], waited := waited }
def draining (mode : Nat) (tally : Bool) (dst : Tbl Nat) (waited : Bool) : State :=
  running.modBoard 0 (fun b => { b with
    launches := [drainLaunch mode tally dst]
    bufs := [(0, { base := 4, size := 65, state := 1 })]
    frames := [(0, { passes := [(3, 1)], drains := [drainTile waited] })] })

theorem witness_writeOut :
    (∀ mode < 2, drainedTile ((draining mode false [] false).board 0) 0 (fun l => dMode l.drain == mode && !dTally l.drain)
        = some (drainLaunch mode false [], drainTile false)
      ∧ takeDst 0 (dLink (drainOf mode false)) 0 0 64 [] (draining mode false [] false) = none
      ∧ (takeDst 0 (dLink (drainOf mode false)) 0 0 64 [(0, 0)] (draining mode false [(0, 0)] false)).isSome = true
      ∧ writeMay ((draining mode false [] false).board 0) 0 = true
      ∧ (((draining mode false [] false).board 0).link (dLink (drainOf mode false))).consumer ≠ 4
      ∧ drainedTile (running.board 0) 0 (fun l => dMode l.drain == mode && !dTally l.drain) = none)
    ∧ boardBad (draining 1 false [(0, 0)] false) 0 (4 * 256) (65 * 256) = none
    ∧ (boardBad ((draining 1 false [(0, 0)] false).modBoard 0 (fun b => { b with storeBad := [128] })) 0 (4 * 256) (65 * 256)).isSome = true
    ∧ writeMay ((proofHeld false).board 0) 0 = false := by decide +kernel

/-- A Slate operation of the same bundle that takes the tiles of the Frames. -/
def slateOf (grp : Nat) : SlateOp := { id := 1, grp := grp, work := { tag := 5 } }

theorem witness_handoff :
    drainedTile ((draining 2 false [] false).board 0) 0 (fun l => dMode l.drain == 2) = some (drainLaunch 2 false [], drainTile false)
      ∧ ([slateOf (2 ^ 97)].find? (fun o => o.work.bundle == (0 : Nat) && sADrain o.grp)) = some (slateOf (2 ^ 97))
      ∧ ((draining 2 false [] false).board 0).slates = [] ∧ ((draining 2 false [] false).board 0).hold = []
      ∧ ((draining 2 false [] false).board 0).streamHold = none ∧ ((draining 2 false [] false).board 0).dutyHold = false := by decide +kernel

/-- Slice 0 of two micro-batches, in a state with its key; a tile of MODE add with TALLY waits for it, with a second one behind it. -/
def tallying (z : Slice) (waited : Bool) : State :=
  (draining 1 true [] waited).modBoard 0 (fun b => { b with
    slices := [(0, z)]
    frames := b.frames.map (fun f => (f.1, { f.2 with drains := f.2.drains ++ [{ launch := 3, tile := 9, buf := 1, waited := true }] })) })
def freshSlice : Slice := { mCount := 2, uCount := 1, pCount := 1 }
def laterSlice : Slice := { freshSlice with state := 1, nextMb := 1 }

theorem witness_tally :
    (∀ waited, contribTile ((tallying freshSlice waited).board 0) 0 = some (drainLaunch 1 true [], drainTile waited)
        ∧ contribMay ((tallying freshSlice waited).board 0) (drainLaunch 1 true []) (drainTile waited) = true)
      ∧ contribTile ((tallying laterSlice false).board 0) 0 = some (drainLaunch 1 true [], drainTile false)
      ∧ contribMay ((tallying laterSlice false).board 0) (drainLaunch 1 true []) (drainTile false) = false
      ∧ contribTile ((tallying laterSlice true).board 0) 0 = none ∧ contribKey (drainLaunch 1 true []) = (0, 0, 0)
      ∧ boardBad (tallying freshSlice true) 0 0 32768 = none ∧ ((tallying freshSlice true).board 0).hold = []
      ∧ ((tallying freshSlice true).board 0).streamHold = none ∧ ((tallying freshSlice true).board 0).dutyHold = false := by decide +kernel

/-- A contribution of the second micro-batch is the next one of its slice, whose space has an uncorrectable word. -/
def secondLaunch : Launch := { launchOf [] (drainOf 1 true + 1 <<< 80) with id := 4 }
def tallyBad : State :=
  running.modBoard 0 (fun b => { b with
    launches := [secondLaunch], slices := [(0, laterSlice)], storeBad := [0]
    frames := [(0, { drains := [{ launch := 4, tile := 0 }] })] })

theorem witness_tallyBad :
    contribTile (tallyBad.board 0) 0 = some (secondLaunch, { launch := 4, tile := 0 })
      ∧ contribMay (tallyBad.board 0) secondLaunch { launch := 4, tile := 0 } = true ∧ (contribKey secondLaunch == (0, 0, 0)) = false
      ∧ (boardBad tallyBad 0 (spaceAddr ((tallyBad.board 0).slice 0)) 32768).isSome = true := by decide +kernel

/-- The pass behind the waiting tile needs its drain buffer; the awaited contribution lies in Frame 1's, or nowhere. -/
def tallyBlocked (awaited : Bool) : State :=
  (tallying laterSlice true).modBoard 0 (fun b => { b with
    launches := b.launches ++ [secondLaunch]
    frames := b.frames ++ (if awaited then [(1, { drains := [{ launch := 4, tile := 0 }] })] else []) })

theorem witness_tallyHold :
    (∀ awaited, (drainedTiles ((tallyBlocked awaited).board 0) 0).find? (fun p => isContrib p.1 && p.2.buf == 0)
          = some (drainLaunch 1 true [], drainTile true)
        ∧ awaitedVerdicted ((tallyBlocked awaited).board 0) 0 = awaited ∧ (((tallyBlocked awaited).board 0).frame 0).passes ≠ []
        ∧ ((tallyBlocked awaited).board 0).held = false
        ∧ contribMay ((tallyBlocked awaited).board 0) (drainLaunch 1 true []) (drainTile true) = false)
      ∧ (((tallyBlocked true).board 0).frame 0).sel = 0
      ∧ (drainedTiles ((draining 2 false [] false).board 0) 0).find? (fun p => isContrib p.1 && p.2.buf == 0) = none
      ∧ ((tallyBlocked true).board 0).tallyFor = [] := by decide +kernel

/-- A Board that stands in a Tally hold for the tile of another Frame; and one in a duty hold. -/
def joining (for' : List (Nat × Nat)) (duty : Bool) : Board := { ((tallyBlocked true).board 0) with tallyFor := for', dutyHold := duty }

theorem witness_joining :
    (joining [(4, 0)] false).tallyHold = true ∧ ((3, 0) : Nat × Nat) ∉ (joining [(4, 0)] false).tallyFor
      ∧ ((3, 0) : Nat × Nat) ∈ (joining [(3, 0)] false).tallyFor ∧ (joining [] false).tallyHold = false
      ∧ (joining [] true).dutyHold = true ∧ writeMay (joining [] true) 0 = false ∧ verdictMay (joining [] true) 0 0#64 = false := by
  decide +kernel

/-- A Slate group: an operation over `rows` rows of 64 elements from link 1. -/
def slateGroup (op rows : Nat) : Nat := op <<< 104 + 1 <<< 64 + 64 <<< 16 + rows

/-- An operation stands at the head of Board 0's queue, without operands, and a SLATE group of an operation acts next. -/
def slating (op : Nat) : State :=
  (acting 5 (slateGroup op 64) running).modBoard 0 (fun b => { b with slates := [slateOf (slateGroup 0x02 64)] })

theorem witness_slate :
    (∃ i u, Turns 0 .main 5 0 i (slating 0x01) u ∧ decide (sOp (actGroup u 0 .main 5) = 0x01
        ∧ ∀ o ∈ ((popAct 0 .main (queueSlate 0 .main i .m24 .bf16 .fp32 u)).board 0).slates.head?,
            slateBand 0 o (popAct 0 .main (queueSlate 0 .main i .m24 .bf16 .fp32 u)) |>.isNone) = true)
      ∧ (∃ i u, Turns 0 .main 5 0 i (slating 0x03) u ∧ decide (sOp (actGroup u 0 .main 5) ≠ 0x01) = true)
      ∧ turn 0 .main 5 0 running = .none
      ∧ SlateCommand (.fma 0 .main .m24 .bf16 .fp32) 0 .main 0x01 .m24 .bf16 .fp32 ∧ SlateCommand (.dropout 0 .main .bf16) 0 .main 0x16 .bf16 .fp32 .fp32
      ∧ (running.board 0).slates.head? = none :=
  ⟨exists_turns (by decide +kernel), exists_turns (by decide +kernel), rfl, by unfold SlateCommand; decide, by unfold SlateCommand; decide, rfl⟩

/-- A band that finds its operands and destination gives an operation and a state. -/
theorem exists_band {b : Nat} {o : SlateOp} {s : State} {P : SlateOp → Bool}
    (h : (match slateBand b o s with | some r => P r.1 | none => false) = true) :
    ∃ o' v, slateBand b o s = some (o', v) ∧ P o' = true := by
  split at h
  · exact ⟨_, _, ‹_›, h⟩
  · cases h

/-- CVT of one row of 64 elements: its operand and its destination lie in buffers that it holds. -/
def converting : SlateOp := { slateOf (0x06 <<< 104 + 63 <<< 16 + 1) with curA := some (0, 0), curD := some (1, 0) }
def atSlate (bad : List Nat) : State :=
  running.modBoard 0 (fun b => { b with
    slates := [converting], storeBad := bad
    bufs := [(0, { base := 4, size := 128, state := 3 }), (1, { base := 132, size := 128, state := 1 })] })

theorem witness_slateEnds :
    (∃ o v, slateBand 0 converting (atSlate []) = some (o, v)
        ∧ decide (ceilDiv (sRows converting.grp) 64 ≤ o.band ∧ o.band < badBand) = true)
      ∧ (∃ o v, slateBand 0 converting (atSlate [128]) = some (o, v) ∧ decide (badBand ≤ o.band) = true)
      ∧ ((atSlate []).board 0).stashWrs = [] ∧ (((atSlate []).board 0).link (sDst converting.grp)).consumer ≠ 4
      ∧ (((atSlate []).board 0).link (sDst2 converting.grp)).consumer ≠ 4
      ∧ isFin32 0xBF800000#32 = true ∧ 0x80000000 < (0xBF800000#32 : W32).toNat ∧ sOp (slateGroup 0x15 64) = 0x15
      ∧ ((atSlate []).board 0).slates = [converting] ∧ sOp converting.grp = 0x06 ∧ converting.work.filler = isFiller .main
      ∧ sOp (slateGroup 0x10 64) = 0x10 ∧ sOp (slateGroup 0x16 64) = 0x16 :=
  ⟨exists_band (by decide +kernel), exists_band (by decide +kernel), by decide +kernel⟩

/-! ### What no command changes, and numbers -/

theorem witness_steps :
    (match step { ready with pending := [.irqCauseClear (.dict mb) 1#64] } with | .next _ => true | _ => false) = true
      ∧ (match step ready with | .next _ => true | _ => false) = true ∧ ready.memWf = true := by decide +kernel

theorem witness_numbers :
    1 ≤ gridFp32.p ∧ 1 ≤ gridBf16.p
      ∧ (match decElem .f8 127 0x08 with | .fin _ _ _ => true | _ => false) = true ∧ isInf32 (widen (decElem .f8 127 0x7E)) = false
      ∧ (match decElem .f8 254 0x7E with | .fin _ _ _ => true | _ => false) = true ∧ isInf32 (widen (decElem .f8 254 0x7E)) = true := by
  decide +kernel

/-! ### The spec's own figures -/

/-- Table 16-2: the check values over the nine ASCII bytes "123456789". -/
def digits : List Byte := [0x31#8, 0x32#8, 0x33#8, 0x34#8, 0x35#8, 0x36#8, 0x37#8, 0x38#8, 0x39#8]
def checkOf (x : Nines) : Nat := ninesFinish x ({ x with running := x.init }.take digits).running.toNat

theorem test_nines_check_values :
    checkOf {} = 0x62EC59E3F1A4F00A
      ∧ checkOf { width := 32, poly := 0x04C11DB7#64, init := 0xFFFFFFFF#64, xorout := 0xFFFFFFFF#64, flags := 3 } = 0xCBF43926
      ∧ checkOf { width := 32, poly := 0x1EDC6F41#64, init := 0xFFFFFFFF#64, xorout := 0xFFFFFFFF#64, flags := 3 } = 0xE3069283
      ∧ checkOf { width := 16, poly := 0x1021#64, init := 0xFFFF#64, xorout := 0#64 } = 0x29B1
      ∧ checkOf { width := 8, poly := 7#64, init := 0#64, xorout := 0#64 } = 0xF4 := by decide +kernel

/-- The link's CRC-64 (R203) is the reset default of the Nines. -/
theorem test_link_crc : crc64 digits = 0x62EC59E3F1A4F00A#64 := by decide +kernel

/-- Chapter 02, "encoding one F8 block": 3.75, −0.703125, 2^−14, 2^−20 and zeros. -/
def f8Block : List W32 := [0x40700000#32, 0xBF340000#32, 0x38800000#32, 0x35800000#32, 0#32]

theorem test_f8_block :
    blockExp .f8 f8Block = 0x78 ∧ f8Block.map (encBlockElem .f8 0x78 .rne) = [0x7E, 0xEB, 0x04, 0x00, 0x00]
      ∧ encBlockElem .f8 0x78 (.sr 0x2A000000) 0xBF340000#32 = 0xEC
      ∧ encBlockElem .f8 0x78 (.sr 0x0FFFFFFF) 0x35800000#32 = 1 ∧ encBlockElem .f8 0x78 (.sr 0x10000000) 0x35800000#32 = 0 := by decide +kernel

/-- Chapter 08, "a sign-momentum rule in vote mode": count −34. -/
def signRule : RuleIn :=
  { c := [0x3F600000#32, 0x3E000000#32, 0#32, 0#32, 0x3F400000#32, 0x3E800000#32, 0#32, 0#32, 0#32, 0x3C000000#32, 0x3F800000#32, 0x3F800000#32]
    mode := 0x19, eta := 0x3A800000#32, k1 := 0x3F800000#32, k2 := 0x3F800000#32 }
def signOut : RuleOut := recurrence signRule 0x3F000000#32 0x3E200000#32 0#32 0xBF800000#32 false

theorem test_sign_rule :
    inputX signRule { tag := 2201, group := 0, q := 0, mode := true, voteW := false, payload := [0xDE#8] } 0 = (0xBF800000#32, false)
      ∧ signOut.s1 = 0x3C400000#32 ∧ signOut.f = 0xBF800000#32 ∧ signOut.w = 0x3F003FC0#32 ∧ signOut.codes = [0, 0, 0, 0, 0]
      ∧ encBlockElem .m24 0x7E .rne signOut.w = 0x401FE0 ∧ encBlockElem .s16s 0x79 .rne signOut.s1 = 0x3000
      ∧ encBlockElem .f8 0x76 (.sr 0x9B3104C2) signOut.w = 0x78 := by decide +kernel

/-- Chapter 08, "an adaptive-moment rule in value mode": g = −3.0 at step 1. -/
def adaptiveRule : RuleIn :=
  { c := [0x3F000000#32, 0x3F000000#32, 0x3F400000#32, 0x3E800000#32, 0#32, 0#32, 0x3F800000#32, 0x35800000#32, 0#32, 0x3C000000#32, 0x3F800000#32,
          0x3B000000#32]
    mode := 0x32, eta := 0x39800000#32, k1 := 0x40000000#32, k2 := 0x40800000#32 }
def adaptiveOut : RuleOut := recurrence adaptiveRule 0x3F000000#32 0#32 0#32 0xBBC00000#32 false

theorem test_adaptive_rule :
    inputX adaptiveRule { tag := 1, group := 0, q := 0, mode := false, voteW := false, payload := leBytes 4 0xC0400000 } 0 = (0xBBC00000#32, false)
      ∧ adaptiveOut.f = 0xBF7FF556#32 ∧ adaptiveOut.codes = [0, 0, 0, 0, 0]
      ∧ decFp32 adaptiveOut.w = .fin false 8392687 (-24)
      ∧ encBlockElem .m24 0x7E (.sr 0x5E1D9A07) adaptiveOut.w = 0x4007F8 ∧ encBlockElem .s16s 0x76 .rne adaptiveOut.s1 = 0xA000
      ∧ encBlockElem .s16u 0x6E .rne adaptiveOut.s2 = 0x9000 ∧ encBlockElem .f8 0x76 (.sr 0xC4A01B3E) adaptiveOut.w = 0x78 := by decide +kernel

/-- Chapter 10, "one element around a ring": D to A, A to B, B to C, and the owner's sum. -/
theorem test_ring_element :
    encBf16 (.sr 0x3C1F0A55) (decFp32 0x3F808000#32) = 0x3F81
      ∧ encBf16 (.sr 0xD2E47710) (decFp32 (fadd 0x3F810000#32 0xBF004000#32)) = 0x3F01
      ∧ encBf16 (.sr 0x7A0013C4) (decFp32 (fadd 0x3F010000#32 0x3B000000#32)) = 0x3F02
      ∧ fadd 0x3F020000#32 0xBC000000#32 = 0x3F000000#32 := by decide +kernel

/-- Table 06-23: the encoded bundle, word by word. -/
def bundleWords : List Nat :=
  [0x05A1E410, 0x000A0000, 0, 0x04000000, 0x10110120, 0x04081264, 0xFF020000, 0x00122000, 0x07040000, 0x41, 0x3000, 0x04000001, 0x00600001, 0x10000000,
   0x0100FF09, 0x00150000]
def bundleOf (g : Nat) : Nat := grpAt (bundleGroups (fun o => bundleWords.getD o 0) 0) g

theorem test_bundle_fields :
    lengthOf 0x05A1E410 = 16 ∧ hLength 0x05A1E410 = 16 ∧ hEpoch 0x05A1E410 = 5 ∧ hGroups 0x05A1E410 = [1, 2, 3, 4, 9, 11] ∧ hRearm 0x05A1E410 = true
      ∧ fBase (bundleOf 1) = 0x0A0000
      ∧ [eRowLink (bundleOf 2), eRodLink (bundleOf 2), eRowPerBuf (bundleOf 2), eRodPerBuf (bundleOf 2), eBeats (bundleOf 2), eTagBase (bundleOf 2)]
          = [0x10, 0x11, 1, 32, 1024, 0]
      ∧ [aMask (bundleOf 3), aKLen (bundleOf 3), aRowTiles (bundleOf 3), aRodTiles (bundleOf 3), aRowFmt (bundleOf 3), aRodFmt (bundleOf 3),
         aProofExp (bundleOf 3)] = [0xFF, 2048, 1, 32, 2, 2, 6]
      ∧ aTurnRow (bundleOf 3) = true ∧ aTurnRod (bundleOf 3) = false ∧ aFold (bundleOf 3) = false
      ∧ [dMode (bundleOf 4), dFmt (bundleOf 4), dLink (bundleOf 4), dTilesPerBuf (bundleOf 4), dTensor (bundleOf 4), dSlot (bundleOf 4), dClass (bundleOf 4),
         dKeyMb (bundleOf 4), dTileBase (bundleOf 4)] = [0, 2, 0x12, 32, 0x41, 7, 0, 0, 0x3000]
      ∧ [mWaitKind (bundleOf 9), mWaitSem (bundleOf 9), mWaitN (bundleOf 9), mSigKind (bundleOf 9), mSigSem (bundleOf 9), mSigN (bundleOf 9)]
          = [0, 3, 1, 0, 0x20, 1]
      ∧ [oLayer (bundleOf 11), oMb (bundleOf 11), oWakeLead (bundleOf 11), oWakeMask (bundleOf 11), oScale (bundleOf 11), oUnit (bundleOf 11), oOp (bundleOf 11)]
          = [0x15, 0, 256, 0xFF, 4, 2, 1] := by decide +kernel

/-- At 2,048 tokens ROW_TILES becomes 8 and the launch has 256 tiles. -/
theorem test_bundle_scaled :
    let gs := scaleGroups (bundleGroups (fun o => bundleWords.getD o 0) 0) 2048
    aRowTiles (grpAt gs 3) = 8 ∧ tilesOf (grpAt gs 3) = 256 ∧ framesOf (grpAt gs 3) = [0, 1, 2, 3, 4, 5, 6, 7] ∧ passCycles (grpAt gs 3) = 1024 := by
  decide +kernel

/-- The table gives the commands no bits. -/
theorem test_no_table_word : decodeTableWord 32 0 = none ∧ (ready.withFetchWord 32 0).pending = ready.pending := ⟨rfl, rfl⟩

/-- A block with a magnitude of 1.5, one with a NaN, one with an infinity, and one of zeros; of unsigned S16, one with a negative value. -/
theorem witness_blocks :
    Fmt.f8.scaled = true ∧ Fmt.g8.scaled = true ∧ Fmt.s16u.scaled = true
      ∧ decFp32 0x3FC00000#32 = .fin false 0xC00000 (-23) ∧ decFp32 0xBFC00000#32 = .fin true 0xC00000 (-23)
      ∧ decFp32 nan32 = .nan ∧ decFp32 0xFF800000#32 = .inf true ∧ decFp32 0#32 = .fin false 0 (-149)
      ∧ isNan32 0x3FC00000#32 = false ∧ isInf32 0x3FC00000#32 = false
      ∧ (encBlock .f8 none (fun k => k) [0x3FC00000#32, 0x7F800000#32]).exp = 0xFF
      ∧ (encBlock .g8 none (fun k => k) [0x3F800000#32, 0xFF800000#32]).codes.getD 1 0 = 0xFC
      ∧ (encBlock .f8 none (fun k => k) [0#32, 0#32]).exp = 0
      ∧ (encBlock .s16u none (fun k => k) [0x3FC00000#32, 0xBFC00000#32]).codes.getD 1 1 = 0 := by decide +kernel

/-- The magnitude 1.5 lies between 2^0 and 2^1. -/
theorem witness_blockMax : (2 : ℚ) ^ (0 : Int) ≤ ratOf (.fin false 0xC00000 (-23)) ∧ ratOf (.fin false 0xC00000 (-23)) < (2 : ℚ) ^ (0 + 1 : Int) := by
  norm_num [ratOf]

/-- Domain 0 has not yet marked a value, or marked one at an earlier or a later time. -/
def watched (info time : Nat) : State := running.modDom 0 (fun d => { d with watch := { d.watch with firstInfo := info, firstTime := time } })

theorem witness_watch :
    let w : WatchAt := { board := 0, domain := 0, layer := 0, mb := 0, tensor := 7, slot := 0, cls := 1, site := 0 }
    w.cls ≠ 0 ∧ (∃ c ∈ [0, 3], 1 ≤ c ∧ c ≤ 3) ∧ (¬ ∃ c ∈ [0, 4], 1 ≤ c ∧ c ≤ 3)
      ∧ ((watched 0 0).dom 0).watch.firstInfo = 0 ∧ (watched 1 5).now < ((watched 1 5).dom 0).watch.firstTime
      ∧ ({ watched 1 5 with time := 6#64 } : State).now > ((watched 1 5).dom 0).watch.firstTime
      ∧ ((watched 1 5).dom 0).watch.firstInfo ≠ 0 := by decide +kernel

/-- The bounds of KeptByEveryStep hold right after reset. -/
theorem reset_inBounds : InBounds State.reset where
  rings _ := ⟨.inl rfl, ⟨fun _ => rfl, fun _ => rfl⟩, fun _ => rfl, show 0 < 2 ^ 32 by decide, show 0 < 2 ^ 32 by decide⟩
  exchange _ := ⟨fun _ => rfl, fun h => (nomatch (show Phase.closed = .closing from h)), fun h => (nomatch (show 0 = 1 from h))⟩
  sems _ _ := ⟨Nat.zero_le _, Nat.zero_le _⟩
  links _ _ := ⟨show 0 < 64 by decide, show 0 < 1 by decide, show 0 < 1 by decide⟩
  ports _ := ⟨fun _ => Nat.le_refl _, Nat.zero_le _⟩

end Sys2Proof.Tests
end

