-- ==== Sys2Proof/Proofs/Reset.lean ====
section
/-!
PROOFS. Proofs/Reset.lean: the step with a command at the front of the queue, and the state after reset.
-/
namespace Sys2Proof.Machine

/-- Settles O1: `step` looks at the front of the queue alone, and hands `exec` the state with the queue's rest. -/
theorem stepRunsTheFrontCommand : Obligations.StepRunsTheFrontCommand := fun _ _ _ => rfl

/-! ### What the tables of the reset state read as: nothing is listed, so every unit and entry has its default -/

@[simp] theorem reset_rd (r : Reg) (unit : Nat) : State.reset.rd r unit = r.dflt := rfl
@[simp] theorem reset_dom (d : Nat) : State.reset.dom d = {} := rfl
@[simp] theorem reset_board (b : Nat) : State.reset.board b = {} := rfl
@[simp] theorem reset_port (p : Nat) : State.reset.port p = {} := rfl

/-- Every unit is its default at reset, and the bounds hold of the defaults. -/
theorem inBounds_reset : InBounds State.reset where
  rings d := by rw [reset_dom]; decide
  exchange d := by rw [reset_dom]; decide
  sems b i := by rw [reset_board]; exact ⟨Nat.zero_le _, Nat.zero_le _⟩
  links b l := by rw [reset_board]; exact ⟨show 0 < 64 by decide, Nat.one_pos, Nat.one_pos⟩
  ports p := by rw [reset_port]; exact ⟨fun _ => le_rfl, Nat.zero_le _⟩

/-- Settles O3: each field of the state after reset is its default, and the bounds hold of the defaults. -/
theorem resetState : Obligations.ResetState :=
  ⟨reset_rd, rfl, rfl, rfl, rfl, rfl, fun _ => ⟨rfl, rfl⟩, fun _ => rfl, rfl, rfl, rfl, rfl, rfl, rfl, inBounds_reset⟩

end Sys2Proof.Machine
end

