-- ==== Sys2Proof/Proofs/Refusals.lean ====
section
/-!
PROOFS. Proofs/Refusals.lean: what the rule of an entry leaves when it refuses a value (R10). Each rule is followed branch by branch: a
branch that answers OK asks for nothing, and one that refuses hands back the state that it was given, but for the traces of
DEBUG_RESPONSE (R303) and SNAP_CONTROL (R339).
-/
namespace Sys2Proof.Machine

/-! ### Answers of a rule -/

/-- What a rule answers, a status with a state, meets `P` in its state where the status refuses the value. -/
def OnRefusal (P : State → Prop) (x : Nat × State) : Prop := x.1 ≠ stOk → P x.2

section
variable {P Q : State → Prop} {x y : Nat × State}

theorem OnRefusal.ok {t : State} : OnRefusal P (stOk, t) := fun h => absurd rfl h

theorem OnRefusal.refused {st : Nat} {t : State} (h : P t) : OnRefusal P (st, t) := fun _ => h

theorem OnRefusal.same {s : State} {st : Nat} : OnRefusal (· = s) (st, s) := .refused rfl

theorem OnRefusal.ite {c : Prop} [Decidable c] (hx : OnRefusal P x) (hy : OnRefusal P y) : OnRefusal P (if c then x else y) := by
  split
  · exact hx
  · exact hy

theorem OnRefusal.mono (hx : OnRefusal P x) (h : ∀ t, P t → Q t) : OnRefusal Q x := fun hr => h _ (hx hr)

end

/-- Where the rule refuses a value, the state is as it was. -/
def CleanRefusals (rule : Rule) : Prop := ∀ bs s, OnRefusal (· = s) (rule bs s)

/-! ### The rules that refuse no value -/

theorem keepRule_clean (r : Reg) (unit : Nat) : CleanRefusals (keepRule r unit) := fun _ _ => .ok

theorem nodeIdWrite_clean : CleanRefusals nodeIdWrite := fun _ _ => .ok

theorem nodeIdPersistWrite_clean : CleanRefusals nodeIdPersistWrite := fun _ _ => .ite .ok .ok

theorem fabricDevice_clean : CleanRefusals fabricDevice := fun _ _ => .ok

theorem irqCauseRule_clean : CleanRefusals irqCauseRule := fun _ _ => .ok

theorem domainCauseRule_clean (k : Nat) : CleanRefusals (domainCauseRule k) := fun _ _ => .ok

theorem domainBitsRule_clean (d : Nat) : CleanRefusals (domainBitsRule d) := fun _ _ => .ok

theorem cwClear_clean (d : Nat) : CleanRefusals (cwClear d) := fun _ _ => .ite .ok .ok

theorem halfClock_clean : CleanRefusals halfClock := fun _ _ => .ok

theorem portEnable_clean (p : Nat) : CleanRefusals (portEnable p) := fun _ _ => .ite .ok (.ite .ok .ok)

theorem portRestore_clean (p : Nat) : CleanRefusals (portRestore p) := fun _ _ => .ite .ok (.ite .ok .ok)

theorem cntClearRule_clean (b : Nat) : CleanRefusals (cntClearRule b) := fun _ _ => .ok

theorem blkClearRule_clean (id : Nat) : CleanRefusals (blkClearRule id) := fun _ _ => .ok

theorem readerRule_clean : CleanRefusals readerRule := fun _ _ => .ite .ok .ok

theorem logClear_clean : CleanRefusals logClear := fun _ _ => .ite .ok .ok

/-! ### The rules that may refuse, without a trace -/

theorem stateRequest_clean : CleanRefusals stateRequest := fun _ _ =>
  .ite .same (.ite (.ite .ok .same) (.ite (.ite .ok (.ite .ok (.ite .ok .same))) (.ite .ok .same)))

theorem resetRequest_clean : CleanRefusals resetRequest := fun _ _ => .ite .same .ok

theorem jobControl_clean : CleanRefusals jobControl := fun _ _ =>
  .ite (.ite .ok .same) (.ite (.ite .ok .same) (.ite (.ite .ok (.ite .ok .same)) (.ite .ok .same)))

theorem barrierStart_clean : CleanRefusals barrierStart := fun _ _ => .ite .same .ok

theorem writePathsRule_clean (p : Path) : CleanRefusals (writePathsRule p) := fun _ _ => .ite .ok .same

theorem frozenRule_clean (g : Nat) : CleanRefusals (frozenRule g) := fun _ _ => .ite .same .ok

theorem stepRecord_clean (d : Nat) : CleanRefusals (stepRecord d) := fun _ _ => .ite .same (.ite .ok .same)

theorem ruleSlot_clean (slot sub : Nat) : CleanRefusals (ruleSlot slot sub) := fun _ _ =>
  .ite .same (.ite .same (.ite .same (.ite .same (.ite .same .ok))))

theorem groupEntry_clean (g : Nat) : CleanRefusals (groupEntry g) := fun _ _ => .ite .same (.ite .same .ok)

theorem memberAddr_clean (m : Nat) : CleanRefusals (memberAddr m) := fun _ _ => .ite .same .ok

theorem cntControlRule_clean (b k : Nat) : CleanRefusals (cntControlRule b k) := fun _ _ => .ite .same .ok

theorem readerConfig_clean (r : Reg) : CleanRefusals (readerConfig r) := fun _ _ => .ite .same .ok

theorem freezeRule_clean : CleanRefusals freezeRule := fun _ _ => .ite .ok (.ite .same .ok)

theorem beadNRule_clean : CleanRefusals beadNRule := fun _ _ => .ite .same .ok

theorem beadOffsetRule_clean : CleanRefusals beadOffsetRule := fun _ _ => .ite .same .ok

theorem ninesSet_clean (u : Nat) (f : Nat → Nines → Nines) : CleanRefusals (ninesSet u f) := fun _ _ => .ite .same .ok

theorem ninesConfigRule_clean (sub u : Nat) : CleanRefusals (ninesConfigRule sub u) := by
  unfold ninesConfigRule
  split <;> exact ninesSet_clean u _

theorem ninesControl_clean (u done : Nat) : CleanRefusals (ninesControl u done) := fun _ _ =>
  .ite (.ite .ok .ok) (.ite .same (.ite .ok (.ite (.ite .same (.ite .same .ok)) .ok)))

/-- An ABORT of a unit that runs is not refused. -/
theorem ninesControl_abort {u done : Nat} {bs : List Byte} {s : State} (hv : leNat bs = 4) (hx : (s.nines u).state = 1) :
    (ninesControl u done bs s).1 = stOk := by
  simp [ninesControl, hv, hx]

/-- A value is drawn only for the ABORT of a unit that runs. -/
theorem ninesAnyRule_clean (u : Nat) : CleanRefusals (ninesAnyRule u) := by
  intro bs s
  unfold ninesAnyRule
  split
  · rename_i h
    obtain ⟨hv, hx⟩ := by simpa only [Bool.and_eq_true, decide_eq_true_eq] using h
    exact fun hr => absurd (ninesControl_abort (s := (s.draw 38).2) hv hx) hr
  · exact ninesControl_clean u 0 bs s

theorem confirmRule_refusal (s : State) : OnRefusal (· = s) (confirmRule s) := by
  unfold confirmRule
  split
  · exact .same
  · exact .ok

theorem cancelRule_refusal (s : State) : OnRefusal (· = s) (cancelRule s) := by
  refine .ite .ok (.ite .ok ?_)
  split
  · exact .ok
  · exact .same

theorem fwControl_clean : CleanRefusals fwControl := by
  intro bs s
  unfold fwControl
  split
  · exact .ite .same (.ite .ok .ok)
  · exact .ite .same .ok
  · exact confirmRule_refusal s
  · exact cancelRule_refusal s
  · exact .same

theorem fwChunk_clean : CleanRefusals fwChunk := fun _ _ => .ite .same .ok

theorem attestNonce_clean : CleanRefusals attestNonce := fun _ _ => .ite .same (.ite .same (.ite .same .ok))

/-! ### The two rules that leave a trace -/

/-- A refused restore leaves at most its reason in SNAP_ERROR (R339). -/
theorem restoreRule_refusal (bs : List Byte) (s : State) : OnRefusal (fun t => t = { s with snap := t.snap }) (restoreRule bs s) :=
  .ite (.refused rfl) (.ite (.refused rfl) (.ite .ok (.ite (.refused rfl) .ok)))

theorem snapRule_refusal (bs : List Byte) (s : State) : OnRefusal (fun t => t = { s with snap := t.snap }) (snapRule bs s) := by
  unfold snapRule
  split
  · exact .ite (.refused rfl) .ok
  · exact .ite (.refused rfl) .ok
  · exact restoreRule_refusal bs s
  · exact .ite .ok (.ite .ok .ok)

/-- A refused token leaves a new challenge and a count of refusals (R303). -/
theorem debugResponse_refusal (bs : List Byte) (s : State) :
    OnRefusal (fun t => t = { s with fw := t.fw, vers := t.vers }) (debugResponse bs s) :=
  .ite .ok (.refused rfl)

/-! ### The rule of any entry -/

/-- What the rule of `r` may change of `s` where it refuses: it writes no entry and nothing that is stored. A draw of a free value apart,
only DEBUG_RESPONSE (R303) and SNAP_CONTROL (R339) leave a trace. -/
def RefusalTrace (r : Reg) (s t : State) : Prop :=
  t = { s with fresh := t.fresh, fw := t.fw, vers := t.vers, snap := t.snap }
    ∧ (r.index ≠ 0x9010 → t.fw = s.fw ∧ t.vers = s.vers)
    ∧ (r.index ≠ 0x7000 → t.snap = s.snap)

/-- Where the rule refuses a value for `r`, it leaves no more than the trace of `r`. -/
def TracedRefusals (r : Reg) (rule : Rule) : Prop := ∀ bs s, OnRefusal (RefusalTrace r s) (rule bs s)

section
variable {r : Reg} {rule : Rule}

theorem CleanRefusals.traced (h : CleanRefusals rule) : TracedRefusals r rule := fun bs s =>
  (h bs s).mono fun t e => by rw [e]; exact ⟨rfl, fun _ => ⟨rfl, rfl⟩, fun _ => rfl⟩

theorem snapRule_traced (hr : r.index = 0x7000) : TracedRefusals r snapRule := fun bs s =>
  (snapRule_refusal bs s).mono fun t e => by rw [e]; exact ⟨rfl, fun _ => ⟨rfl, rfl⟩, fun n => absurd hr n⟩

theorem debugResponse_traced (hr : r.index = 0x9010) : TracedRefusals r debugResponse := fun bs s =>
  (debugResponse_refusal bs s).mono fun t e => by rw [e]; exact ⟨rfl, fun n => absurd hr n, fun _ => rfl⟩

end

/-- Whichever entry it is, its rule leaves no more than the trace of that entry. -/
theorem entryRule_traced (s : State) (p : Path) (r : Reg) (unit : Nat) : TracedRefusals r (entryRule s p r unit) := by
  unfold entryRule
  split
  · exact nodeIdWrite_clean.traced
  · exact nodeIdPersistWrite_clean.traced
  · exact (writePathsRule_clean p).traced
  · exact fabricDevice_clean.traced
  · exact stateRequest_clean.traced
  · exact resetRequest_clean.traced
  · exact irqCauseRule_clean.traced
  · exact (domainCauseRule_clean _).traced
  · exact jobControl_clean.traced
  · exact barrierStart_clean.traced
  · exact (frozenRule_clean unit).traced
  · exact (stepRecord_clean unit).traced
  · exact (ruleSlot_clean unit _).traced
  · exact (cwClear_clean unit).traced
  · exact (domainBitsRule_clean unit).traced
  · exact halfClock_clean.traced
  · exact (portEnable_clean unit).traced
  · exact (portRestore_clean unit).traced
  · exact (groupEntry_clean unit).traced
  · exact (memberAddr_clean unit).traced
  · exact (cntControlRule_clean _ _).traced
  · exact (cntClearRule_clean unit).traced
  · exact (blkClearRule_clean unit).traced
  · exact (readerConfig_clean r).traced
  · exact (readerConfig_clean r).traced
  · exact (readerConfig_clean r).traced
  · exact (readerConfig_clean r).traced
  · exact (readerConfig_clean r).traced
  · exact readerRule_clean.traced
  · exact freezeRule_clean.traced
  · exact beadNRule_clean.traced
  · exact beadOffsetRule_clean.traced
  · exact (keepRule_clean r unit).traced
  · exact (ninesAnyRule_clean _).traced
  · exact (ninesSet_clean unit _).traced
  · exact (ninesConfigRule_clean _ unit).traced
  · exact logClear_clean.traced
  · rename_i h _
    exact snapRule_traced h
  · exact fwControl_clean.traced
  · exact fwChunk_clean.traced
  · exact attestNonce_clean.traced
  · rename_i h _
    exact debugResponse_traced h
  · exact (keepRule_clean r unit).traced

/-- Settles O8: the rule of each entry, followed to its refusals, leaves at most the trace of that entry. -/
theorem refusingRuleWritesNoEntry : Obligations.RefusingRuleWritesNoEntry :=
  fun p r unit bs s => entryRule_traced s p r unit bs s

end Sys2Proof.Machine
end

