-- ==== Sys2Proof/Proofs/Sending.lean ====
section
/-!
PROOFS. Proofs/Sending.lean: what a response changes: along the mailbox, the field bus or a routed path, and as a directed packet on a
port that is in service, where no fault is raised.
-/
namespace Sys2Proof.Machine

/-- t is s but for its ports, its fabric state, its counters and what has left the module: what sending on a port changes. -/
def Transmits (s t : State) : Prop := t = { s with ports := t.ports, fab := t.fab, cnt := t.cnt, out := t.out }

theorem Transmits.refl (s : State) : Transmits s s := rfl

theorem Transmits.trans {r s t : State} (h : Transmits r s) (k : Transmits s t) : Transmits r t := by
  unfold Transmits at *
  rw [h] at k
  exact k

theorem transmits_forEach {α : Type} (l : List α) (f : α → State → State) (h : ∀ a s, Transmits s (f a s)) (s : State) :
    Transmits s (forEach l f s) := by
  unfold forEach
  induction l generalizing s with
  | nil => exact .refl s
  | cons a l ih => exact (h a s).trans (ih (f a s))

theorem transmits_emit (o : Out) (s : State) : Transmits s (s.emit o) := rfl

theorem transmits_countBlock (id n : Nat) (s : State) : Transmits s (countBlock id n s) := by
  unfold Transmits
  rw [countBlock_frame]

theorem transmits_countRoute (p q : MeshPos) (n : Nat) (s : State) : Transmits s (countRoute p q n s) :=
  transmits_forEach _ _ (fun _ _ => transmits_countBlock ..) s

theorem transmits_flushLink (p n : Nat) (s : State) : Transmits s (flushLink p n s) := by
  induction n generalizing s with
  | zero => rfl
  | succ n ih =>
    unfold flushLink
    dsimp only
    split
    · rfl
    · exact .trans (by rfl) (ih _)

theorem transmits_leaveRx (arrival : Option Nat) (pool n : Nat) (s : State) : Transmits s (leaveRx arrival pool n s) := by
  cases arrival with
  | none => rfl
  | some p =>
    unfold leaveRx
    dsimp only
    split
    · rfl
    · split
      · exact .trans (by rfl) (transmits_flushLink ..)
      · rfl

theorem transmits_startPacket (p : Nat) (c : Cand) (s : State) : Transmits s (startPacket p c s) := by
  unfold startPacket
  cases c.held with
  | none => rfl
  | some h => exact .trans (.trans (by rfl) (transmits_countRoute ..)) (transmits_emit ..)

theorem transmits_sendFlit (p : Nat) (c : Cand) (s : State) : Transmits s (sendFlit p c s) := by
  have start : Transmits s (if c.next = 0 then startPacket p c s else s) := by
    split
    · exact transmits_startPacket ..
    · rfl
  unfold sendFlit
  dsimp only
  generalize (if c.next = 0 then startPacket p c s else s) = u at start ⊢
  have flit (x : Port) (bs : List Byte) : Transmits s (countBlock (4 * p) 1 ((u.setPort p x).emit (.flit p bs))) :=
    start.trans (.trans (s := (u.setPort p x).emit (.flit p bs)) rfl (transmits_countBlock ..))
  split
  · exact (flit _ _).trans (transmits_leaveRx ..)
  · exact flit _ _

theorem transmits_drainPort (p n : Nat) (s : State) : Transmits s (drainPort p n s) := by
  induction n generalizing s with
  | zero => rfl
  | succ n ih =>
    unfold drainPort
    split
    · exact transmits_flushLink ..
    · exact (transmits_sendFlit ..).trans (ih _)

theorem transmits_transmitFrom (q : Queued) (p : Nat) (s : State) : Transmits s (transmitFrom q p s) := by
  unfold transmitFrom
  split
  · exact .trans (s := s.modPort p _) rfl (transmits_drainPort ..)
  · exact transmits_leaveRx ..

/-- A directed packet on a port that is in service raises no fault. -/
theorem transmits_directTo (a : Option Nat) {q : Nat} (k : Pkt) {s : State} (hq : q < 24) (up : (s.port q).inService = true) :
    Transmits s (directTo a q k s) := by
  simpa only [directTo, hq, up, decide_true, Bool.and_self, if_true] using transmits_transmitFrom ..

/-- A response that is not directed changes the mailbox with its cause, the field bus's held responses, or what has left the module. -/
theorem respond_undirected {c : Client} (h : c.directed = none) (bs : List Byte) (s : State) :
    respond c bs s = { s with host := (respond c bs s).host, can := (respond c bs s).can, out := (respond c bs s).out } := by
  unfold respond
  split
  · unfold mailboxDone
    dsimp only
    split
    · rw [signal_zero]
    · rfl
  · unfold canRespond
    dsimp only
    split
    · rfl
    · split <;> rfl
  · rw [h]
    rfl

theorem respond_directed {c : Client} {d : Directed} (hc : c.path = .fabric) (h : c.directed = some d) (bs : List Byte) {s : State}
    (hd : d.port < 24) (up : (s.port d.port).inService = true) : Transmits s (respond c bs s) := by
  unfold respond
  rw [hc, h]
  exact transmits_directTo _ _ hd up

end Sys2Proof.Machine
end

