-- ==== Sys2Proof/Proofs/Requests.lean ====
section
/-!
PROOFS. Proofs/Requests.lean: how a request that arrives reaches the rule of its entry, and what a refused write leaves (R10).
-/
namespace Sys2Proof.Machine

/-! ### What a path has staged matters to no check -/

theorem unitOf_setStaged (p : Path) (s : State) (r : Reg) (i : Nat) : unitOf (setStaged p none s) p r i = unitOf s p r i :=
  unitOf_unstaged { path := p } s p r i

theorem writeStatus_setStaged (p : Path) (s : State) (r : Reg) (u : Nat) (bs : List Byte) :
    writeStatus (setStaged p none s) p r u bs = writeStatus s p r u bs :=
  writeStatus_unstaged { path := p } s p r u bs

theorem setStaged_frame (p : Path) (g : Option Staged) (s : State) :
    setStaged p g s = { s with paths := (setStaged p g s).paths } := by
  cases p <;> rfl

/-! ### A request that arrives -/

/-- Only a request of the fabric is directed. -/
theorem path_of_directed {op : Nat} {src : ReqSource} {c : Client} {bs : List Byte} {r : Reg} {s : State} {d : Directed}
    (h : Arrives op src c bs r s) (hd : c.directed = some d) : c.path = .fabric := by
  obtain ⟨h, -⟩ := h
  cases src with
  | fabric => cases h; rfl
  | mailbox | can =>
    simp only [arrived, Option.ite_none_right_eq_some, Option.some.injEq, Prod.mk.injEq] at h
    obtain ⟨-, rfl, -⟩ := h
    cases hd

/-- A request that arrives, and that its command takes, is served at once. -/
theorem takeRequest_arrives {op : Nat} {src : ReqSource} {c : Client} {bs : List Byte} {r : Reg} {s : State}
    (h : Arrives op src c bs r s) : takeRequest op src s = serveNow c bs s := by
  obtain ⟨ha, hp, hu, hop, -, -, hl, hb, hg⟩ := h
  simp [takeRequest, serveRequest, ha, hp, hu, hop, hl, hb, hg]

theorem exec_odWrite_arrives {src : ReqSource} {c : Client} {bs : List Byte} {r : Reg} {s : State} (h : Arrives 2 src c bs r s) :
    exec (.odWrite src) s = .next (serveWrite c (parseReq bs) r (stagedOf s c.path) (setStaged c.path none s)) := by
  have served : serveNow c bs s = serveWrite c (parseReq bs) r (stagedOf s c.path) (setStaged c.path none s) := by
    obtain ⟨-, -, -, hop, hrsv, hentry, -⟩ := h
    simp [serveNow, hop, hrsv, hentry]
  rw [← served, ← takeRequest_arrives h]
  rfl

/-! ### A WRITE of a whole value -/

theorem serveWrite_fixed {c : Client} {q : Req} {r : Reg} (h : WholeFixed c q r) (g : Option Staged) (s : State) :
    serveWrite c q r g s = serveValue c q r (writeData c q) s := by
  obtain ⟨hty, hoff, hcount, hlen⟩ := h
  simp [serveWrite, serveFixed, hty, hoff, hcount, hlen.trans hcount]

theorem serveSegment_whole {c : Client} {q : Req} {r : Reg} {staged : List Byte} (hmax : q.count ≤ r.maxLen)
    (hlen : (staged ++ writeData c q).length = q.count) (s : State) :
    serveSegment c q r staged s = serveValue c q r (staged ++ writeData c q) s := by
  unfold serveSegment
  simp only [hlen]
  simp [Nat.not_lt.2 hmax]

theorem serveWrite_segments {c : Client} {q : Req} {r : Reg} {s : State} {all : List Byte} (h : Segments c q r s all)
    (hlen : all.length = q.count) (t : State) : serveWrite c q r (stagedOf s c.path) t = serveValue c q r all t := by
  obtain ⟨hty, hmax, -, ⟨hoff, rfl⟩ | ⟨hoff, g, hg, hcont, rfl⟩⟩ := h
  · simpa [serveWrite, hty, hoff] using serveSegment_whole (staged := []) hmax hlen t
  · simpa [serveWrite, hty, hoff, hg, hcont] using serveSegment_whole hmax hlen t

/-- Whether the entry's write is answered before it acts or after it, a value that fails a check is refused with the check's status. -/
theorem serveValue_unchecked {c : Client} {q : Req} {r : Reg} {bs : List Byte} {s : State}
    (h : writeStatus s c.path r (unitOf s c.path r q.index) bs ≠ stOk) :
    serveValue c q r bs s
      = refuseWrite c q (writeStatus s c.path r (unitOf s c.path r q.index) bs) r (unitOf s c.path r q.index) s := by
  have h0 : (writeStatus s c.path r (unitOf s c.path r q.index) bs != 0) = true := bne_iff_ne.2 h
  unfold serveValue applyWriteFirst applyWrite
  simp only [h0, if_true, ite_self]

/-- A value that the entry's rule refuses is answered with the rule's status, in the state that the rule left. -/
theorem serveValue_refused {c : Client} {q : Req} {r : Reg} {bs : List Byte} {s : State}
    (hs : writeStatus s c.path r (unitOf s c.path r q.index) bs = stOk)
    (h : (entryRule s c.path r (unitOf s c.path r q.index) bs s).1 ≠ stOk) :
    serveValue c q r bs s = refuseWrite c q (entryRule s c.path r (unitOf s c.path r q.index) bs s).1 r (unitOf s c.path r q.index)
      (entryRule s c.path r (unitOf s c.path r q.index) bs s).2 := by
  have h0 : ((entryRule s c.path r (unitOf s c.path r q.index) bs s).1 != 0) = true := bne_iff_ne.2 h
  unfold serveValue applyWriteFirst applyWrite
  simp only [hs, h0, stOk, bne_self_eq_false, Bool.false_eq_true, if_false, if_true, ite_self]

/-- A WRITE that brings a whole value, at once or with its last segment, is the service of that value. -/
theorem exec_odWrite_whole {src : ReqSource} {c : Client} {bs : List Byte} {r : Reg} {s : State} {all : List Byte}
    (h : Arrives 2 src c bs r s)
    (whole : WholeFixed c (parseReq bs) r ∧ all = writeData c (parseReq bs)
      ∨ Segments c (parseReq bs) r s all ∧ all.length = (parseReq bs).count) :
    exec (.odWrite src) s = .next (serveValue c (parseReq bs) r all (setStaged c.path none s)) := by
  rw [exec_odWrite_arrives h]
  rcases whole with ⟨fixed, rfl⟩ | ⟨segs, hlen⟩
  · rw [serveWrite_fixed fixed]
  · rw [serveWrite_segments segs hlen]

/-! ### A refused WRITE -/

/-- The answer to a check, on the path that the request came by, is all that changes, but for what the path had staged. -/
theorem refused_undirected {c : Client} (h : c.directed = none) (bs : List Byte) (s : State) :
    let t := respond c bs (setStaged c.path none s)
    t = { s with host := t.host, can := t.can, out := t.out, paths := t.paths } := by
  dsimp only
  rw [respond_undirected h, setStaged_frame]

theorem refused_directed {c : Client} {d : Directed} (hc : c.path = .fabric) (h : c.directed = some d) (bs : List Byte) {s : State}
    (hd : d.port < 24) (up : (s.port d.port).inService = true) :
    let t := respond c bs (setStaged c.path none s)
    t = { s with ports := t.ports, fab := t.fab, cnt := t.cnt, out := t.out, paths := t.paths } := by
  have up' : ((setStaged c.path none s).port d.port).inService = true := by rw [setStaged_frame]; exact up
  have k := respond_directed hc h bs hd up'
  dsimp only
  unfold Transmits at k
  rw [k, setStaged_frame]

/-- The answer to a rule's refusal adds to what the rule left. -/
theorem ruleRefused_undirected {c : Client} (h : c.directed = none) (bs : List Byte) {r : Reg} {s u : State}
    (hu : RefusalTrace r (setStaged c.path none s) u) :
    let t := respond c bs u
    t = { s with host := t.host, can := t.can, out := t.out, paths := t.paths, fresh := t.fresh, fw := t.fw, vers := t.vers,
                 snap := t.snap } := by
  obtain ⟨hu, -⟩ := hu
  dsimp only
  rw [respond_undirected h, hu, setStaged_frame]

/-- Settles O7: a whole value reaches the checks and then the entry's rule; each refusal is the answer to the state before the write, but
for the trace of the rule (O8). -/
theorem refusedWriteChangesNothing : Obligations.RefusedWriteChangesNothing := by
  intro src c bs r s all h q u st t0 whole
  have hexec := exec_odWrite_whole h whole
  have hu : unitOf t0 c.path r q.index = u := unitOf_setStaged ..
  have hst : writeStatus t0 c.path r u all = st := writeStatus_setStaged ..
  refine ⟨fun bad => ?_, fun good refused => ?_⟩
  · rw [serveValue_unchecked (by rwa [hu, hst]), hu, hst] at hexec
    exact ⟨_, hexec, rfl, fun hd => refused_undirected hd _ s,
      fun d hd up lt => refused_directed (path_of_directed h hd) hd _ lt up⟩
  · rw [serveValue_refused (by rwa [hu, hst]) (by rwa [hu]), hu] at hexec
    exact ⟨_, hexec, rfl, fun hd => ruleRefused_undirected hd _ (entryRule_traced t0 c.path r u all t0 refused)⟩

end Sys2Proof.Machine
end

