-- ==== Sys2Proof/Proofs/RuleSlots.lean ====
section
/-!
PROOFS. Proofs/RuleSlots.lean: the writes of CW_CLEAR (R54) and of the words of a rule slot (R181).
-/
namespace Sys2Proof.Machine

/-! ### A WRITE that its entry's rule refuses -/

/-- An accepted write that a rule without a trace refuses is answered, and no more. -/
theorem viaWrite_refused {v : Via} {r : Reg} {i : Nat} {bs : List Byte} {s : State} {rule : Rule} (h : Accepted v r i bs s)
    (hf : answersFirst r (leNat bs) = false) (clean : CleanRefusals rule) (hr : (rule bs (unstaged v s)).1 ≠ stOk) :
    AnswerOnly v s (viaWrite v r i bs rule s) := by
  have same : (rule bs (unstaged v s)).2 = unstaged v s := clean bs _ hr
  obtain ⟨h1, hm, h0, h2, h3, h4, h5⟩ := h
  have hp : (viaClient v).path = v.path := rfl
  have hw := writeStatus_unstaged v s v.path r (unitOf s v.path r i) bs
  have h0' : ((rule bs (unstaged v s)).1 != 0) = true := bne_iff_ne.2 hr
  simp only [viaWrite, hp, hm, h0, h1, h2, h3, h4, hf, Bool.not_true, Bool.false_eq_true, if_false]
  rw [show setStaged v.path none s = unstaged v s from rfl, unitOf_unstaged]
  simp only [applyWrite, hp, hw, h5, h0', same, stOk, bne_self_eq_false, Bool.false_eq_true, if_false, if_true]
  exact ⟨_, rfl⟩

/-! ### CW_CLEAR (R54) -/

theorem cwClear_one (d : Nat) (s : State) : cwClear d (leBytes 1 1) s
    = (stOk, s.modDom d (fun x => { x with watch := { x.watch with totOvf := 0, totInf := 0, totNan := 0, sticky := 0 } })) := rfl

theorem cwClear_zero (d : Nat) (s : State) : cwClear d (leBytes 1 0) s = (stOk, s) := rfl

theorem exec_cwClear {v : Via} {d : DomainNo} {b : Byte} {s u : State} (h : Accepted v .cwClear (0x2400 + d.val) (leBytes 1 b.toNat) s)
    (hr : cwClear d.val (leBytes 1 b.toNat) (unstaged v s) = (stOk, u)) :
    exec (.cwClear v d b) s = .next (answeredOk v .cwClear (0x2400 + d.val) (leBytes 1 b.toNat) s u) := by
  have hv := viaWrite_accepted h rfl (congrArg Prod.fst hr)
  rw [hr] at hv
  exact congrArg _ hv

/-! ### Words of a rule slot (R181) -/

/-- INPUT, USES_S1 and USES_S2 are bits 5:3 of RULE_MODE. -/
theorem modeSources_ne_iff (m n : Nat) :
    (modeInput m != modeInput n || modeUsesS1 m != modeUsesS1 n || modeUsesS2 m != modeUsesS2 n) = true
      ↔ (n / 8) % 8 ≠ (m / 8) % 8 := by
  simp only [modeInput, modeUsesS1, modeUsesS2, testBit, Nat.shiftRight_eq_div_pow, Bool.or_eq_true, bne_iff_ne, ne_eq,
    Bool.beq_eq_decide_eq, decide_eq_decide]
  omega

theorem ofNat_leNat_leBytes (w : W32) : BitVec.ofNat 32 (leNat (leBytes 4 w.toNat)) = w := by
  rw [leNat_leBytes, show 8 * 4 = 32 from rfl, BitVec.toNat_mod_cancel, BitVec.ofNat_toNat, BitVec.setWidth_eq]

section
variable {slot : Fin 256} {sub : Nat} {w : W32} {s : State}

/-- A word that keeps R181 is put at its place among the slot's words. -/
theorem ruleSlot_taken (h : ¬ RuleWordRefused slot sub w s) : ruleSlot slot.val sub (leBytes 4 w.toNat) s
    = (stOk, { s with job := { s.job with rules := tset s.job.rules slot.val ((s.slotWords slot.val).set (sub - 1) w) } }) := by
  simp only [RuleWordRefused, not_or, ← modeSources_ne_iff] at h
  obtain ⟨hfin, hrsv, hclip, hmode, hkept⟩ := h
  simp only [ruleSlot, ofNat_leNat_leBytes]
  rw [if_neg (by simpa using fun _ => by simpa using hfin), if_neg (by simpa using hrsv), if_neg (by simpa using hclip), if_neg (by simpa using hmode),
    if_neg (by simpa using hkept)]

/-- A word that breaks R181 is refused. -/
theorem ruleSlot_refused (h1 : 1 ≤ sub) (h : RuleWordRefused slot sub w s) :
    (ruleSlot slot.val sub (leBytes 4 w.toNat) s).1 ≠ stOk := by
  simp only [RuleWordRefused, ← modeSources_ne_iff] at h
  simp only [ruleSlot, ofNat_leNat_leBytes]
  split_ifs with c1 c2 c3 c4 c5
  case neg =>
    rcases h with h | h | h | h | h
    · exact absurd (by simp [h1, h]) c1
    · exact absurd (by simp [h]) c2
    · exact absurd (by simp [h]) c3
    · exact absurd (by simp [h]) c4
    · obtain ⟨hsub, hnamed, hmode⟩ := h
      exact absurd (by rw [hmode]; simp [hsub, hnamed]) c5
  all_goals exact (by decide : stRefused ≠ stOk)

end

theorem ruleWordRefused_unstaged (v : Via) (slot : Fin 256) (sub : Nat) (w : W32) (s : State) :
    RuleWordRefused slot sub w (unstaged v s) ↔ RuleWordRefused slot sub w s := by
  rw [unstaged, setStaged_frame]
  rfl

theorem ruleReg_answersLater (sub n : Nat) : answersFirst (ruleReg sub) n = false := by
  simp [answersFirst, ruleReg, Reg.ruleWord1]

theorem exec_ruleSlotWrite {sub : Nat} (h1 : 1 ≤ sub) (h17 : sub ≤ 17) (v : Via) (slot : Fin 256) (w : W32) (s : State) :
    exec (.ruleSlotWrite v slot sub w) s
      = .next (viaWrite v (ruleReg sub) (0x2300 + slot.val) (leBytes 4 w.toNat) (ruleSlot slot.val sub) s) := by
  simp [exec, execRuleSlotWrite, h1, h17]

theorem exec_ruleSlotWrite_outside {sub : Nat} (h : sub = 0 ∨ 17 < sub) (v : Via) (slot : Fin 256) (w : W32) (s : State) :
    exec (.ruleSlotWrite v slot sub w) s = .next s := by
  have : ¬ (1 ≤ sub ∧ sub ≤ 17) := by omega
  simp [exec, execRuleSlotWrite, this]

/-- Settles O19: each write is accepted, so its rule decides: it gives the totals' zeros or the slot's new word, or refuses and leaves no
trace. -/
theorem carryWatchAndRuleSlots : Obligations.CarryWatchAndRuleSlots := by
  refine ⟨fun v d s h => exec_cwClear h (cwClear_one ..), fun v d s h => exec_cwClear h (cwClear_zero ..),
    fun v slot sub w s h => exec_ruleSlotWrite_outside h v slot w s, fun v slot sub w s h1 h17 h => ⟨fun ok => ?_, fun bad => ?_⟩⟩
  · rw [← ruleWordRefused_unstaged v] at ok
    have taken := ruleSlot_taken ok
    rw [exec_ruleSlotWrite h1 h17, viaWrite_accepted h (ruleReg_answersLater ..) (congrArg Prod.fst taken), taken]
    unfold unstaged
    rw [setStaged_frame]
    rfl
  · rw [← ruleWordRefused_unstaged v] at bad
    exact ⟨_, exec_ruleSlotWrite h1 h17 .., viaWrite_refused h (ruleReg_answersLater ..) (ruleSlot_clean _ _) (ruleSlot_refused h1 bad)⟩

end Sys2Proof.Machine
end

