-- ==== Sys2Proof/Proofs/Rounding.lean ====
section
/-!
PROOFS. Proofs/Rounding.lean: exact values, what a rounding does with the fraction of a step, and R40 and R41 on the fixed-point and the
floating grids.
-/
namespace Sys2Proof

/-! ### The exact value of a finite number -/

theorem ratOf_fin (neg : Bool) (m : Nat) (e : Int) : ratOf (.fin neg m e) = (if neg then -1 else 1) * ((m : ℚ) * 2 ^ e) := by
  simp [ratOf]

theorem ratOf_mag (m : Nat) (e : Int) : ratOf (.fin false m e) = (m : ℚ) * 2 ^ e := by simp [ratOf_fin]

theorem ratOf_sign (neg : Bool) (m : Nat) (e : Int) :
    ratOf (.fin neg m e) = (if neg then -1 else 1) * ratOf (.fin false m e) := by
  rw [ratOf_fin, ratOf_mag]

theorem ratOf_scale (v : Val) (k : Int) : ratOf (v.scale k) = ratOf v * 2 ^ k := by
  cases v with
  | nan | inf => simp [Val.scale, ratOf]
  | fin neg m e => simp [Val.scale, ratOf_fin, zpow_add₀, mul_assoc]

theorem two_zpow_pos (k : Int) : (0 : ℚ) < 2 ^ k := zpow_pos two_pos k

theorem two_pow_mul_zpow (n : Nat) (k : Int) : (2 : ℚ) ^ n * 2 ^ k = 2 ^ (n + k) := by
  rw [← zpow_natCast, ← zpow_add₀ two_ne_zero]

/-! ### A magnitude on the grid 2^g: its whole steps, and the fraction that a rounding decides on (R40, R41) -/

/-- Whether a rounding goes up from `q` whole steps and the fraction `rem / 2^s` of a step. -/
def Rnd.up (r : Rnd) (s q rem : Nat) : Prop :=
  match r with
  | .rne => 2 ^ s < 2 * rem ∨ 2 * rem = 2 ^ s ∧ q % 2 = 1
  | .sr n32 => n32 < rem * 2 ^ 32 / 2 ^ s

/-- m × 2^e is `q` steps of 2^g and the fraction `rem / 2^s` of one. -/
structure Steps (m : Nat) (e g : Int) (s q rem : Nat) : Prop where
  lt : rem < 2 ^ s
  eq : (m : ℚ) * 2 ^ e / 2 ^ g = q + (rem : ℚ) / 2 ^ s

theorem steps_of_le {m : Nat} {e g : Int} (h : g ≤ e) : Steps m e g 0 (m <<< (e - g).toNat) 0 where
  lt := Nat.one_pos
  eq := by
    have k : ((e - g).toNat : Int) = e - g := Int.toNat_of_nonneg (by omega)
    generalize (e - g).toNat = s at k
    rw [mul_div_assoc, ← zpow_sub₀ two_ne_zero, ← k, Nat.shiftLeft_eq]
    simp

theorem steps_of_lt {m : Nat} {e g : Int} (h : e < g) :
    Steps m e g (g - e).toNat (m >>> (g - e).toNat) (m % 2 ^ (g - e).toNat) where
  lt := Nat.mod_lt _ (by positivity)
  eq := by
    have k : ((g - e).toNat : Int) = g - e := Int.toNat_of_nonneg (by omega)
    generalize (g - e).toNat = s at k
    have parts : (m : ℚ) = (m / 2 ^ s : Nat) * 2 ^ s + (m % 2 ^ s : Nat) := by exact_mod_cast (Nat.div_add_mod' m (2 ^ s)).symm
    rw [mul_div_assoc, ← zpow_sub₀ two_ne_zero, show e - g = -(s : Int) by omega, Nat.shiftRight_eq_div_pow, zpow_neg, zpow_natCast,
      ← div_eq_mul_inv, parts, add_div, mul_div_assoc, div_self (by positivity), mul_one]

/-- The rounded magnitude is the number of whole steps, or one more. -/
theorem roundMag_steps (m : Nat) (e g : Int) :
    ∃ s q rem, Steps m e g s q rem ∧ ∀ r, (r.up s q rem → roundMag r m e g = q + 1) ∧ (¬ r.up s q rem → roundMag r m e g = q) := by
  rcases le_or_gt g e with h | h
  · refine ⟨0, _, 0, steps_of_le h, fun r => ?_⟩
    have still : ¬ r.up 0 (m <<< (e - g).toNat) 0 := by cases r <;> simp [Rnd.up]
    exact ⟨fun c => absurd c still, fun _ => by simp [roundMag, h]⟩
  · refine ⟨_, _, _, steps_of_lt h, fun r => ?_⟩
    have h' : ¬ g ≤ e := not_le.2 h
    cases r with
    | rne =>
      simp only [roundMag, h', Rnd.up, if_false]
      constructor
      · rintro (c | ⟨c, odd⟩)
        · rw [if_pos c]
        · rw [if_neg (by omega), if_pos c, odd]
      · intro c
        rw [if_neg (by tauto)]
        split <;> omega
    | sr n32 =>
      simp only [roundMag, h', Rnd.up, if_false, Nat.shiftLeft_eq, Nat.shiftRight_eq_div_pow]
      exact ⟨fun c => if_pos c, fun c => if_neg c⟩

section
variable {m s q rem : Nat} {e g : Int}

theorem Steps.frac_nonneg : (0 : ℚ) ≤ (rem : ℚ) / 2 ^ s := by positivity

theorem Steps.frac_lt_one (h : Steps m e g s q rem) : (rem : ℚ) / 2 ^ s < 1 := by
  rw [div_lt_one (by positivity)]
  exact_mod_cast h.lt

/-- RNE compares the fraction with a half. -/
theorem Steps.frac_half (s rem : Nat) :
    (1 / 2 < (rem : ℚ) / 2 ^ s ↔ 2 ^ s < 2 * rem) ∧ ((rem : ℚ) / 2 ^ s = 1 / 2 ↔ 2 * rem = 2 ^ s) := by
  have p : (0 : ℚ) < 2 ^ s := by positivity
  rw [lt_div_iff₀ p, div_eq_iff p.ne', ← Nat.cast_lt (α := ℚ), ← Nat.cast_inj (R := ℚ)]
  push_cast
  constructor <;> constructor <;> intro <;> linarith

theorem Steps.floor (h : Steps m e g s q rem) : ⌊(m : ℚ) * 2 ^ e / 2 ^ g⌋ = q := by
  rw [Int.floor_eq_iff, h.eq]
  have := h.frac_lt_one
  have := frac_nonneg (s := s) (rem := rem)
  constructor <;> push_cast <;> linarith

end

/-- No rounding leaves the two multiples around a magnitude. -/
theorem roundMag_floor (r : Rnd) (m : Nat) (e g : Int) :
    (roundMag r m e g : Int) = ⌊(m : ℚ) * 2 ^ e / 2 ^ g⌋ ∨ (roundMag r m e g : Int) = ⌊(m : ℚ) * 2 ^ e / 2 ^ g⌋ + 1 := by
  obtain ⟨s, q, rem, h, round⟩ := roundMag_steps m e g
  rw [h.floor]
  by_cases c : r.up s q rem
  · right; rw [(round r).1 c]; rfl
  · left; rw [(round r).2 c]

theorem le_roundMag {r : Rnd} {m n : Nat} {e g : Int} (h : (n : ℚ) * 2 ^ g ≤ m * 2 ^ e) : n ≤ roundMag r m e g := by
  have : (n : Int) ≤ ⌊(m : ℚ) * 2 ^ e / 2 ^ g⌋ := Int.le_floor.2 (by rw [le_div_iff₀ (two_zpow_pos g)]; exact_mod_cast h)
  have := roundMag_floor r m e g
  omega

theorem roundMag_le {r : Rnd} {m n : Nat} {e g : Int} (h : (m : ℚ) * 2 ^ e < n * 2 ^ g) : roundMag r m e g ≤ n := by
  have : ⌊(m : ℚ) * 2 ^ e / 2 ^ g⌋ < (n : Int) := Int.floor_lt.2 (by rw [div_lt_iff₀ (two_zpow_pos g)]; exact_mod_cast h)
  have := roundMag_floor r m e g
  omega

/-- A magnitude on the grid is its own rounding. -/
theorem roundMag_exact {r : Rnd} {m : Nat} {e g : Int} (h : g ≤ e) : (roundMag r m e g : ℚ) * 2 ^ g = m * 2 ^ e := by
  have k := (steps_of_le (m := m) h).eq
  have : roundMag r m e g = m <<< (e - g).toNat := by simp [roundMag, h]
  rw [this, ← eq_div_iff (two_zpow_pos g).ne', k]
  simp

/-- RNE is at most half a step away, and exactly half a step only at an even multiple. -/
theorem roundMag_rne_half (m : Nat) (e g : Int) :
    |(roundMag .rne m e g : ℚ) - m * 2 ^ e / 2 ^ g| ≤ 1 / 2
      ∧ (|(roundMag .rne m e g : ℚ) - m * 2 ^ e / 2 ^ g| = 1 / 2 → roundMag .rne m e g % 2 = 0) := by
  obtain ⟨s, q, rem, h, round⟩ := roundMag_steps m e g
  rw [h.eq]
  have f0 := Steps.frac_nonneg (s := s) (rem := rem)
  have f1 := h.frac_lt_one
  obtain ⟨above, mid⟩ := Steps.frac_half s rem
  generalize (rem : ℚ) / 2 ^ s = f at *
  by_cases c : Rnd.up .rne s q rem
  · rw [(round .rne).1 c]
    have hf : 1 / 2 ≤ f := by
      rcases c with c | ⟨c, -⟩
      · exact (above.2 c).le
      · exact (mid.2 c).ge
    rw [show ((q + 1 : Nat) : ℚ) - (q + f) = 1 - f by push_cast; ring, abs_of_pos (by linarith)]
    refine ⟨by linarith, fun eq => ?_⟩
    have tie := mid.1 (by linarith)
    rcases c with c | ⟨-, odd⟩ <;> omega
  · rw [(round .rne).2 c]
    simp only [Rnd.up, not_or, not_and] at c
    obtain ⟨below, even⟩ := c
    have hf : f ≤ 1 / 2 := not_lt.1 fun lt => below (above.1 lt)
    rw [show (q : ℚ) - (q + f) = -f by ring, abs_neg, abs_of_nonneg f0]
    refine ⟨hf, fun eq => ?_⟩
    have := even (mid.1 eq)
    omega

/-- R40 on a fixed-point grid. -/
theorem roundMag_rne_nearest (m : Nat) (e g : Int) (q' : Nat) :
    |(roundMag .rne m e g : ℚ) * 2 ^ g - m * 2 ^ e| ≤ |(q' : ℚ) * 2 ^ g - m * 2 ^ e|
      ∧ (q' ≠ roundMag .rne m e g → |(q' : ℚ) * 2 ^ g - m * 2 ^ e| = |(roundMag .rne m e g : ℚ) * 2 ^ g - m * 2 ^ e| →
          roundMag .rne m e g % 2 = 0) := by
  obtain ⟨near, even⟩ := roundMag_rne_half m e g
  generalize roundMag .rne m e g = q at *
  have scale : ∀ n : Nat, |(n : ℚ) * 2 ^ g - m * 2 ^ e| = |(n : ℚ) - m * 2 ^ e / 2 ^ g| * 2 ^ g := by
    intro n
    have p := two_zpow_pos g
    rw [← abs_of_pos p, ← abs_mul, abs_of_pos p, sub_mul, div_mul_cancel₀ _ p.ne']
  rw [scale, scale, mul_le_mul_iff_left₀ (two_zpow_pos g), mul_left_inj' (two_zpow_pos g).ne']
  generalize (m : ℚ) * 2 ^ e / 2 ^ g = a at *
  rcases eq_or_ne q' q with rfl | ne
  · exact ⟨le_rfl, fun c => absurd rfl c⟩
  · have apart : 1 ≤ |(q' : ℚ) - q| := by
      have : (1 : Int) ≤ |(q' : Int) - q| := Int.one_le_abs (by omega)
      exact_mod_cast this
    have tri : |(q' : ℚ) - q| ≤ |(q' : ℚ) - a| + |(q : ℚ) - a| := by
      rw [abs_sub_comm (q : ℚ) a]
      exact abs_sub_le ..
    exact ⟨by linarith, fun _ eq => even (by linarith)⟩

/-- SR goes up exactly when its draw lies below the 32 bits under the target's last bit (R41). -/
theorem roundMag_sr (m n32 : Nat) (e g : Int) :
    (roundMag (.sr n32) m e g : Int) = ⌊(m : ℚ) * 2 ^ e / 2 ^ g⌋
      + if (n32 : Int) < ⌊((m : ℚ) * 2 ^ e / 2 ^ g - ⌊(m : ℚ) * 2 ^ e / 2 ^ g⌋) * 2 ^ 32⌋ then 1 else 0 := by
  obtain ⟨s, q, rem, h, round⟩ := roundMag_steps m e g
  have bits : ⌊((m : ℚ) * 2 ^ e / 2 ^ g - ⌊(m : ℚ) * 2 ^ e / 2 ^ g⌋) * 2 ^ 32⌋ = (rem * 2 ^ 32 / 2 ^ s : Nat) := by
    rw [h.floor, h.eq, show ((q : ℚ) + rem / 2 ^ s - (q : Int)) * 2 ^ 32 = ((rem * 2 ^ 32 : Nat) : ℚ) / (2 ^ s : Nat) by push_cast; ring]
    exact_mod_cast Rat.floor_natCast_div_natCast _ _
  rw [bits, h.floor]
  by_cases c : Rnd.up (.sr n32) s q rem
  · rw [(round _).1 c, if_pos (by exact_mod_cast c)]
    rfl
  · rw [(round _).2 c, if_neg (by exact_mod_cast c)]
    simp

/-! ### Floating grids -/

/-- The magnitude of a code on a floating grid. -/
def FGrid.mag (g : FGrid) (c : Nat) : ℚ := ratOf (g.val false c)

/-- Binade `k` of a grid, of step 2^(emin - p + k), holds the code c as `q` steps; binade 0 takes the subnormal codes too. -/
structure FGrid.InBinade (g : FGrid) (c k q : Nat) : Prop where
  code : c = k * 2 ^ g.p + q
  low : k = 0 ∨ 2 ^ g.p ≤ q
  high : q ≤ 2 ^ (g.p + 1)

section
variable {g : FGrid} {c k q : Nat}

theorem FGrid.mag_subnormal (h : c < 2 ^ g.p) : g.mag c = c * 2 ^ (g.emin - g.p) := by
  simp [FGrid.mag, FGrid.val, Nat.shiftRight_eq_div_pow, Nat.div_eq_of_lt h, Nat.mod_eq_of_lt h, ratOf_mag]

theorem FGrid.mag_normal {f : Nat} (h : f < 2 ^ g.p) :
    g.mag ((k + 1) * 2 ^ g.p + f) = (f + 2 ^ g.p) * 2 ^ (g.emin - g.p + k) := by
  have quot : ((k + 1) * 2 ^ g.p + f) / 2 ^ g.p = k + 1 := by
    rw [Nat.mul_comm, Nat.mul_add_div (by positivity), Nat.div_eq_of_lt h, Nat.add_zero]
  have rest : ((k + 1) * 2 ^ g.p + f) % 2 ^ g.p = f := by rw [Nat.mul_add_mod', Nat.mod_eq_of_lt h]
  simp [FGrid.mag, FGrid.val, Nat.shiftRight_eq_div_pow, quot, rest, ratOf_mag]

/-- Codes count the grid points of a binade up to the first point of the next one. -/
theorem FGrid.InBinade.mag (h : g.InBinade c k q) : g.mag c = q * 2 ^ (g.emin - g.p + k) := by
  obtain ⟨rfl, low, high⟩ := h
  rcases Nat.lt_or_ge q (2 ^ g.p) with sub | ge
  · obtain rfl : k = 0 := by omega
    simpa using FGrid.mag_subnormal sub
  obtain ⟨f, rfl⟩ := Nat.exists_eq_add_of_le ge
  rw [pow_succ, Nat.mul_two] at high
  rcases (Nat.add_le_add_iff_left.1 high).lt_or_eq with lt | rfl
  · rw [← Nat.add_assoc, ← Nat.succ_mul, FGrid.mag_normal lt]
    push_cast
    ring
  · have first := FGrid.mag_normal (g := g) (k := k + 1) (f := 0) (by positivity)
    rw [show k * 2 ^ g.p + (2 ^ g.p + 2 ^ g.p) = (k + 1 + 1) * 2 ^ g.p + 0 by ring, first]
    push_cast
    rw [← add_assoc, zpow_add₀ two_ne_zero _ 1]
    ring

/-- Every code lies in a binade, and not at its end. -/
theorem FGrid.exists_binade (g : FGrid) (c : Nat) : ∃ k q, g.InBinade c k q ∧ q < 2 ^ (g.p + 1) := by
  have p1 : 2 ^ (g.p + 1) = 2 * 2 ^ g.p := by ring
  rcases Nat.lt_or_ge c (2 ^ g.p) with lt | ge
  · exact ⟨0, c, ⟨by simp, .inl rfl, by omega⟩, by omega⟩
  · have parts := Nat.div_add_mod' c (2 ^ g.p)
    have lt := Nat.mod_lt c (show 2 ^ g.p > 0 by positivity)
    have one : 1 ≤ c / 2 ^ g.p := (Nat.one_le_div_iff (by positivity)).2 ge
    obtain ⟨k, hk⟩ : ∃ k, c / 2 ^ g.p = k + 1 := ⟨_, (Nat.sub_add_cancel one).symm⟩
    rw [hk, Nat.succ_mul] at parts
    exact ⟨k, 2 ^ g.p + c % 2 ^ g.p, ⟨by omega, .inr (by omega), by omega⟩, by omega⟩

/-- The magnitudes of the codes rise with the codes. -/
theorem FGrid.mag_strictMono (g : FGrid) : StrictMono g.mag := by
  refine strictMono_nat_of_lt_succ fun c => ?_
  obtain ⟨k, q, h, lt⟩ := g.exists_binade c
  have next : g.InBinade (c + 1) k (q + 1) := ⟨by rw [h.code, Nat.add_assoc], h.low.imp_right (by omega), lt⟩
  rw [h.mag, next.mag]
  exact mul_lt_mul_of_pos_right (by push_cast; linarith) (two_zpow_pos _)

/-- Seen from binade k, a grid point is a multiple of the binade's step, or lies below the binade. -/
theorem FGrid.mag_from_binade (g : FGrid) (c k : Nat) :
    (∃ n : Nat, g.mag c = n * 2 ^ (g.emin - g.p + k)) ∨ (k ≠ 0 ∧ g.mag c < 2 ^ (g.emin + k)) := by
  obtain ⟨j, q, h, lt⟩ := g.exists_binade c
  rw [h.mag]
  rcases Nat.lt_or_ge j k with below | within
  · right
    refine ⟨by omega, ?_⟩
    calc (q : ℚ) * 2 ^ (g.emin - g.p + j) < 2 ^ (g.p + 1) * 2 ^ (g.emin - g.p + j) :=
          mul_lt_mul_of_pos_right (by exact_mod_cast lt) (two_zpow_pos _)
      _ = (2 : ℚ) ^ (g.emin + j + 1) := by rw [two_pow_mul_zpow]; congr 1; push_cast; ring
      _ ≤ 2 ^ (g.emin + k) := zpow_le_zpow_right₀ one_le_two (by omega)
  · left
    refine ⟨q * 2 ^ (j - k), ?_⟩
    push_cast
    rw [mul_assoc, two_pow_mul_zpow]
    congr 2
    push_cast [Nat.cast_sub within]
    ring

end

/-! ### Rounding to a floating grid -/

theorem floorLog2_le {m : Nat} (h : m ≠ 0) (e : Int) : (2 : ℚ) ^ floorLog2 m e ≤ m * 2 ^ e := by
  rw [floorLog2, zpow_add₀ two_ne_zero, zpow_natCast]
  exact mul_le_mul_of_nonneg_right (by exact_mod_cast Nat.log2_self_le h) (two_zpow_pos e).le

theorem lt_floorLog2 (m : Nat) (e : Int) : (m : ℚ) * 2 ^ e < 2 ^ (floorLog2 m e + 1) := by
  rw [floorLog2, add_right_comm, zpow_add₀ two_ne_zero]
  exact mul_lt_mul_of_pos_right (by exact_mod_cast Nat.lt_log2_self) (two_zpow_pos e)

/-- The binade of a nonzero magnitude x: x does not lie under it, unless it is binade 0, nor past its end. -/
structure FGrid.Binade (g : FGrid) (m : Nat) (e : Int) (k : Nat) : Prop where
  low : k ≠ 0 → (2 : ℚ) ^ (g.emin + k) ≤ m * 2 ^ e
  high : (m : ℚ) * 2 ^ e < 2 ^ (g.emin + k + 1)

/-- The code of a rounded magnitude is its multiple in the binade of x. -/
theorem FGrid.code_binade (g : FGrid) (r : Rnd) {m : Nat} (h : m ≠ 0) (e : Int) :
    ∃ k, g.Binade m e k ∧ g.InBinade (g.code r m e) k (roundMag r m e (g.emin - g.p + k)) := by
  obtain ⟨k, hk⟩ := Int.eq_ofNat_of_zero_le (show 0 ≤ max (floorLog2 m e) g.emin - g.emin by omega)
  have hx : max (floorLog2 m e) g.emin = g.emin + k := by omega
  have b : g.Binade m e k := by
    constructor
    · intro k0
      rw [← hx, max_eq_left (by omega)]
      exact floorLog2_le h e
    · exact (lt_floorLog2 m e).trans_le (zpow_le_zpow_right₀ one_le_two (by omega))
  refine ⟨k, b, ?_, ?_, ?_⟩
  · simp only [FGrid.code, h, if_false, hx, add_sub_cancel_left, Int.toNat_natCast, Nat.shiftLeft_eq]
    rw [show g.emin + (k : Int) - g.p = g.emin - g.p + k by ring]
  · rw [or_iff_not_imp_left]
    refine fun k0 => le_roundMag ?_
    push_cast
    rw [two_pow_mul_zpow]
    convert b.low k0 using 2
    ring
  · refine roundMag_le ?_
    push_cast
    rw [two_pow_mul_zpow]
    convert b.high using 2
    push_cast
    ring

theorem FGrid.code_zero (g : FGrid) (r : Rnd) (e : Int) : g.code r 0 e = 0 := rfl

theorem FGrid.mag_zero (g : FGrid) : g.mag 0 = 0 := by simp [FGrid.mag, FGrid.val, ratOf_mag]

/-- R40 on a floating grid. -/
theorem FGrid.code_rne_nearest (g : FGrid) (hp : 1 ≤ g.p) (m : Nat) (e : Int) (c' : Nat) :
    |g.mag (g.code .rne m e) - m * 2 ^ e| ≤ |g.mag c' - m * 2 ^ e|
      ∧ (c' ≠ g.code .rne m e → |g.mag c' - m * 2 ^ e| = |g.mag (g.code .rne m e) - m * 2 ^ e| → g.code .rne m e % 2 = 0) := by
  rcases eq_or_ne m 0 with rfl | hm
  · simp [FGrid.code_zero, FGrid.mag_zero]
  obtain ⟨k, b, h⟩ := g.code_binade .rne hm e
  rcases g.mag_from_binade c' k with ⟨n, hn⟩ | ⟨k0, below⟩
  · obtain ⟨near, even⟩ := roundMag_rne_nearest m e (g.emin - g.p + k) n
    rw [← hn, ← h.mag] at near even
    refine ⟨near, fun ne eq => ?_⟩
    have parity : g.code .rne m e % 2 = roundMag .rne m e (g.emin - g.p + k) % 2 := by
      obtain ⟨j, hj⟩ : ∃ j, g.p = j + 1 := ⟨_, (Nat.sub_add_cancel hp).symm⟩
      rw [h.code, hj, pow_succ, ← mul_assoc]
      omega
    rw [parity]
    refine even ?_ eq
    rintro rfl
    exact ne (g.mag_strictMono.injective (by rw [hn, h.mag]))
  · -- the first point of the binade is nearer than a point under it
    obtain ⟨near, -⟩ := roundMag_rne_nearest m e (g.emin - g.p + k) (2 ^ g.p)
    have first : ((2 ^ g.p : Nat) : ℚ) * 2 ^ (g.emin - g.p + k) = 2 ^ (g.emin + k) := by
      push_cast
      rw [two_pow_mul_zpow]
      congr 1
      ring
    rw [first, ← h.mag] at near
    have low := b.low k0
    rw [abs_of_nonpos (by linarith : (2 : ℚ) ^ (g.emin + k) - m * 2 ^ e ≤ 0)] at near
    have far : |g.mag c' - m * 2 ^ e| = -(g.mag c' - m * 2 ^ e) := abs_of_nonpos (by linarith)
    exact ⟨by linarith, fun _ eq => by linarith⟩

/-- A magnitude that the grid holds is its own rounding. -/
theorem FGrid.mag_code_exact (g : FGrid) (r : Rnd) {m : Nat} {e : Int} (hm : m < 2 ^ (g.p + 1)) (he : g.emin - g.p ≤ e) :
    g.mag (g.code r m e) = m * 2 ^ e := by
  rcases eq_or_ne m 0 with rfl | h0
  · simp [FGrid.code_zero, FGrid.mag_zero]
  obtain ⟨k, b, h⟩ := g.code_binade r h0 e
  rw [h.mag, roundMag_exact]
  rcases eq_or_ne k 0 with rfl | k0
  · simpa using he
  · have lt : (2 : ℚ) ^ (g.emin + k) < 2 ^ (g.p + 1 + e) := by
      refine (b.low k0).trans_lt ?_
      rw [zpow_add₀ two_ne_zero]
      exact mul_lt_mul_of_pos_right (by exact_mod_cast hm) (two_zpow_pos e)
    have := (zpow_lt_zpow_iff_right₀ (one_lt_two (α := ℚ))).1 lt
    omega

end Sys2Proof
end

