-- ==== Sys2Proof/Proofs/Narrowing.lean ====
section
/-!
PROOFS. Proofs/Narrowing.lean: the values of codes, FP32 and BF16 written and read again (R27, R39), and the widening of an element (R38).
-/
namespace Sys2Proof

/-! ### Values of the codes -/

/-- The sign of a code goes into its value alone. -/
theorem FGrid.val_fin (g : FGrid) (c : Nat) :
    ∃ m e, m < 2 ^ (g.p + 1) ∧ g.emin - g.p ≤ e ∧ ∀ neg, g.val neg c = .fin neg m e := by
  have lt := Nat.mod_lt c (show 2 ^ g.p > 0 by positivity)
  rw [pow_succ]
  by_cases h : c >>> g.p = 0
  · exact ⟨c % 2 ^ g.p, g.emin - g.p, by omega, le_rfl, fun neg => if_pos h⟩
  · exact ⟨c % 2 ^ g.p + 2 ^ g.p, g.emin - g.p + (c >>> g.p - 1 : Nat), by omega, by omega, fun neg => if_neg h⟩

theorem FGrid.val_bounds {g : FGrid} {c m : Nat} {neg neg' : Bool} {e : Int} (h : g.val neg c = .fin neg' m e) :
    m < 2 ^ (g.p + 1) ∧ g.emin - g.p ≤ e := by
  obtain ⟨m', e', hm, he, hv⟩ := g.val_fin c
  rw [hv] at h
  cases h
  exact ⟨hm, he⟩

/-- The codes of NaN and of the infinities have no finite value. -/
theorem FGrid.special_bounds {g : FGrid} {p q : Prop} [Decidable p] [Decidable q] {c m : Nat} {neg neg' : Bool} {e : Int}
    (h : (if p then .nan else if q then .inf neg else g.val neg c) = .fin neg' m e) : m < 2 ^ (g.p + 1) ∧ g.emin - g.p ≤ e := by
  split at h
  · cases h
  · split at h
    · cases h
    · exact FGrid.val_bounds h

theorem FGrid.ratOf_val (g : FGrid) (neg : Bool) (c : Nat) : ratOf (g.val neg c) = (if neg then -1 else 1) * g.mag c := by
  obtain ⟨m, e, -, -, hv⟩ := g.val_fin c
  rw [FGrid.mag, hv, hv, ratOf_sign]

theorem FGrid.val_ne_nan (g : FGrid) (neg : Bool) (c : Nat) : g.val neg c ≠ .nan := by
  obtain ⟨m, e, -, -, hv⟩ := g.val_fin c
  rw [hv]
  exact nofun

/-! ### FP32 (R58, R59) -/

theorem decFp32_ofNat {c : Nat} (h : c < 2 ^ 31) (neg : Bool) : decFp32 (BitVec.ofNat 32 (c + if neg then 2 ^ 31 else 0))
    = if c > 0x7F800000 then .nan else if c = 0x7F800000 then .inf neg else gridFp32.val neg c := by
  have hn : (BitVec.ofNat 32 (c + if neg then 2 ^ 31 else 0)).toNat = c + if neg then 2 ^ 31 else 0 := by
    rw [BitVec.toNat_ofNat, Nat.mod_eq_of_lt (by split <;> omega)]
  have hc : (c + if neg then 2 ^ 31 else 0) % 2 ^ 31 = c := by split <;> omega
  have hs : decide (2 ^ 31 ≤ c + if neg then 2 ^ 31 else 0) = neg := by
    cases neg
    · simpa using h
    · simp
  simp only [decFp32, hn, hc, hs]

theorem decFp32_encFp32_inf (r : Rnd) (neg : Bool) : decFp32 (encFp32 r (.inf neg)) = .inf neg := decFp32_ofNat (by norm_num) neg

/-- A magnitude that rounds to 2^128 or more becomes an infinity, and every other one its nearest code's value. -/
theorem decFp32_encFp32_fin (r : Rnd) (neg : Bool) (m : Nat) (e : Int) : decFp32 (encFp32 r (.fin neg m e))
    = if 0x7F800000 ≤ gridFp32.code r m e then .inf neg else gridFp32.val neg (gridFp32.code r m e) := by
  simp only [encFp32]
  rw [decFp32_ofNat (by omega), if_neg (by omega)]
  split_ifs with h1 h2 h2
  · rfl
  · omega
  · omega
  · rw [min_eq_left (by omega)]

/-- Every NaN written in FP32 is canonical (R27). -/
theorem encFp32_nan {r : Rnd} {v : Val} (h : isNan32 (encFp32 r v) = true) : encFp32 r v = nan32 := by
  cases v with
  | nan => rfl
  | inf neg =>
    rw [isNan32, decFp32_encFp32_inf] at h
    cases h
  | fin neg m e =>
    rw [isNan32, decFp32_encFp32_fin] at h
    split at h
    · cases h
    · obtain ⟨m', e', -, -, hv⟩ := gridFp32.val_fin (gridFp32.code r m e)
      rw [hv] at h
      cases h

/-! ### BF16 (R29, R39, R42) -/

theorem decBf16_signed {c : Nat} (h : c < 2 ^ 15) (neg : Bool) : decBf16 (c + if neg then 0x8000 else 0)
    = if c > 0x7F80 then .nan else if c = 0x7F80 then .inf neg else gridBf16.val neg c := by
  have hc : (c + if neg then 0x8000 else 0) % 2 ^ 15 = c := by split <;> omega
  have hs : decide (2 ^ 15 ≤ (c + if neg then 0x8000 else 0) % 2 ^ 16) = neg := by
    cases neg <;> simp <;> omega
  simp only [decBf16, hc, hs]

theorem decBf16_encBf16_inf (r : Rnd) (neg : Bool) : decBf16 (encBf16 r (.inf neg)) = .inf neg := decBf16_signed (by norm_num) neg

theorem encBf16_fin (r : Rnd) (neg : Bool) (m : Nat) (e : Int) :
    encBf16 r (.fin neg m e) = min (gridBf16.code r m e) 0x7F80 + if neg then 0x8000 else 0 := rfl

theorem encBf16_over {r : Rnd} {m : Nat} {e : Int} (h : 0x7F7F < gridBf16.code r m e) (neg : Bool) :
    encBf16 r (.fin neg m e) = 0x7F80 + if neg then 0x8000 else 0 := by
  rw [encBf16_fin, min_eq_right h]

theorem decBf16_encBf16 {r : Rnd} {m : Nat} {e : Int} (h : gridBf16.code r m e ≤ 0x7F7F) (neg : Bool) :
    decBf16 (encBf16 r (.fin neg m e)) = gridBf16.val neg (gridBf16.code r m e) := by
  rw [encBf16_fin, min_eq_left (by omega), decBf16_signed (by omega), if_neg (by omega), if_neg (by omega)]

/-- Every NaN written in BF16 is canonical (R27). -/
theorem encBf16_nan {r : Rnd} {v : Val} (h : decBf16 (encBf16 r v) = .nan) : encBf16 r v = nan16 := by
  cases v with
  | nan => rfl
  | inf neg =>
    rw [decBf16_encBf16_inf] at h
    cases h
  | fin neg m e =>
    rcases Nat.lt_or_ge 0x7F7F (gridBf16.code r m e) with big | le
    · rw [encBf16_over big, decBf16_signed (by norm_num)] at h
      cases h
    · rw [decBf16_encBf16 le] at h
      exact absurd h (gridBf16.val_ne_nan _ _)

/-! ### Widening (R38) -/

/-- 2^128 is the point past the largest finite number. -/
theorem gridFp32_mag_inf : gridFp32.mag 0x7F800000 = 2 ^ 128 := by
  have h := FGrid.mag_normal (g := gridFp32) (k := 254) (f := 0) (by positivity)
  norm_num [gridFp32] at h ⊢
  exact h

theorem decFp32_bounds {w : W32} {neg : Bool} {m : Nat} {e : Int} (h : decFp32 w = .fin neg m e) : m < 2 ^ 24 ∧ -149 ≤ e :=
  FGrid.special_bounds h

theorem decBf16_bounds {c : Nat} {neg : Bool} {m : Nat} {e : Int} (h : decBf16 c = .fin neg m e) : m < 2 ^ 8 ∧ -133 ≤ e :=
  FGrid.special_bounds h

/-- The elements of a block-scaled format: at most 24 bits, and a lowest place of 2^-22. -/
theorem elemVal_bounds {f : Fmt} (hf : f.scaled = true) {c m : Nat} {neg : Bool} {e : Int} (h : elemVal f c = .fin neg m e) :
    m < 2 ^ 24 ∧ -22 ≤ e := by
  have grid {g : FGrid} (hg : g.p < 24 ∧ -22 ≤ g.emin - g.p) (h : m < 2 ^ (g.p + 1) ∧ g.emin - g.p ≤ e) : m < 2 ^ 24 ∧ -22 ≤ e :=
    ⟨h.1.trans_le (Nat.pow_le_pow_right two_pos hg.1), hg.2.trans h.2⟩
  cases f with
  | fp32 | bf16 => cases hf
  | f8 =>
    simp only [elemVal] at h
    split at h
    · cases h
    · exact grid (g := gridF8) (by decide) (FGrid.val_bounds h)
  | g8 => exact grid (g := gridG8) (by decide) (FGrid.special_bounds h)
  | f4 => exact grid (g := gridF4) (by decide) (FGrid.val_bounds h)
  | m24 | s16s =>
    simp only [elemVal] at h
    split at h <;> cases h <;> omega
  | s16u =>
    cases h
    omega

/-- Every finite element has at most 24 bits and lies on the grid of FP32. -/
theorem decElem_bounds {f : Fmt} {ex c m : Nat} {neg : Bool} {e : Int} (h : decElem f ex c = .fin neg m e) :
    m < 2 ^ 24 ∧ -149 ≤ e := by
  unfold decElem at h
  split at h
  · rename_i hf
    split at h
    · cases h
    · cases hv : elemVal f c with
      | nan | inf => rw [hv] at h; cases h
      | fin n m' e' =>
        rw [hv] at h
        cases h
        have := elemVal_bounds hf hv
        omega
  · rename_i hf
    cases f with
    | fp32 => exact decFp32_bounds h
    | bf16 =>
      have := decBf16_bounds h
      omega
    | _ => exact absurd rfl hf

theorem widen_exact {neg : Bool} {m : Nat} {e : Int} (hm : m < 2 ^ 24) (he : -149 ≤ e) :
    let x := ratOf (.fin false m e)
    (x < 2 ^ 128 → ∃ m' e', decFp32 (widen (.fin neg m e)) = .fin neg m' e' ∧ ratOf (.fin false m' e') = x)
      ∧ (2 ^ 128 ≤ x → decFp32 (widen (.fin neg m e)) = .inf neg) := by
  have exact := gridFp32.mag_code_exact .rne (e := e) hm he
  intro x
  rw [show x = _ from ratOf_mag m e, ← exact, ← gridFp32_mag_inf, gridFp32.mag_strictMono.lt_iff_lt,
    gridFp32.mag_strictMono.le_iff_le, widen, rne32, decFp32_encFp32_fin]
  refine ⟨fun lt => ?_, fun ge => if_pos ge⟩
  obtain ⟨m', e', -, -, hv⟩ := gridFp32.val_fin (gridFp32.code .rne m e)
  exact ⟨m', e', by rw [if_neg (by omega), hv], by rw [FGrid.mag, hv]⟩

end Sys2Proof
end

