-- ==== Sys2Proof/Proofs/Blocks.lean ====
section
/-!
PROOFS. Proofs/Blocks.lean: the shared exponent of a block and the codes of its elements (R35, R36).
-/
namespace Sys2Proof

/-! ### The largest magnitude of a block -/

theorem isNan32_iff {w : W32} : isNan32 w = true ↔ decFp32 w = .nan := by
  unfold isNan32
  cases decFp32 w <;> simp [Val.isNan]

theorem isInf32_iff {w : W32} : isInf32 w = true ↔ ∃ neg, decFp32 w = .inf neg := by
  unfold isInf32
  cases decFp32 w <;> simp [Val.isInf]

theorem scaleTo_val {m : Nat} {e t : Int} (h : t ≤ e) : (scaleTo m e t : ℚ) * 2 ^ t = m * 2 ^ e := by
  have k : ((e - t).toNat : Int) = e - t := Int.toNat_of_nonneg (by omega)
  rw [scaleTo, Nat.shiftLeft_eq]
  push_cast
  rw [mul_assoc, two_pow_mul_zpow, k, sub_add_cancel]

/-- `absGt` compares the exact magnitudes. -/
theorem absGt_fin (neg neg' : Bool) (m m' : Nat) (e e' : Int) :
    Val.absGt (.fin neg m e) (.fin neg' m' e') = true ↔ (m' : ℚ) * 2 ^ e' < m * 2 ^ e := by
  rw [← scaleTo_val (min_le_left e e'), ← scaleTo_val (min_le_right e e'), mul_lt_mul_iff_left₀ (two_zpow_pos _)]
  simp [Val.absGt]

theorem amaxOf_cons_fin {w : W32} {neg : Bool} {m : Nat} {e : Int} (h : decFp32 w = .fin neg m e) (ws : List W32) :
    amaxOf (w :: ws) = if Val.absGt (.fin false m e) (.fin false (amaxOf ws).1 (amaxOf ws).2) then (m, e) else amaxOf ws := by
  simp [amaxOf, h]

theorem amaxOf_cons_special {w : W32} (h : ∀ neg m e, decFp32 w ≠ .fin neg m e) (ws : List W32) : amaxOf (w :: ws) = amaxOf ws := by
  cases hw : decFp32 w with
  | nan | inf => simp [amaxOf, hw]
  | fin neg m e => exact absurd hw (h neg m e)

/-- No finite input exceeds the largest magnitude. -/
theorem le_amaxOf {xs : List W32} {w : W32} (hw : w ∈ xs) {neg : Bool} {m : Nat} {e : Int} (h : decFp32 w = .fin neg m e) :
    (m : ℚ) * 2 ^ e ≤ (amaxOf xs).1 * 2 ^ (amaxOf xs).2 := by
  induction xs with
  | nil => cases hw
  | cons x xs ih =>
    rcases List.mem_cons.1 hw with rfl | hw
    · rw [amaxOf_cons_fin h]
      split
      · exact le_rfl
      · rename_i c
        exact not_lt.1 (mt (absGt_fin ..).2 c)
    · refine (ih hw).trans ?_
      cases hx : decFp32 x with
      | nan | inf => rw [amaxOf_cons_special (by simp [hx])]
      | fin n m' e' =>
        rw [amaxOf_cons_fin hx]
        split
        · rename_i c
          exact ((absGt_fin ..).1 c).le
        · exact le_rfl

/-- The largest magnitude is 0, or that of an input. -/
theorem amaxOf_mem (xs : List W32) :
    (amaxOf xs).1 = 0 ∨ ∃ w ∈ xs, ∃ neg, decFp32 w = .fin neg (amaxOf xs).1 (amaxOf xs).2 := by
  induction xs with
  | nil => exact .inl rfl
  | cons x xs ih =>
    have rest : (amaxOf xs).1 = 0 ∨ ∃ w ∈ x :: xs, ∃ neg, decFp32 w = .fin neg (amaxOf xs).1 (amaxOf xs).2 :=
      ih.imp_right fun ⟨w, hw, h⟩ => ⟨w, List.mem_cons_of_mem x hw, h⟩
    cases hx : decFp32 x with
    | nan | inf => rwa [amaxOf_cons_special (by simp [hx])]
    | fin n m e =>
      rw [amaxOf_cons_fin hx]
      split
      · exact .inr ⟨x, List.mem_cons_self, n, hx⟩
      · exact rest

/-! ### The shared exponent (R35) -/

/-- The block holds a NaN, or an infinity that the format cannot hold. -/
def NanBlock (f : Fmt) (xs : List W32) : Prop :=
  (∃ w ∈ xs, decFp32 w = .nan) ∨ (f ≠ .g8 ∧ ∃ w ∈ xs, ∃ neg, decFp32 w = .inf neg)

section
variable {f : Fmt} {xs : List W32}

theorem blockExp_nan (h : NanBlock f xs) : blockExp f xs = 0xFF := by
  unfold blockExp
  split
  · rfl
  · rename_i noNan
    rcases h with ⟨w, hw, h⟩ | ⟨hf, w, hw, h⟩
    · exact absurd (List.any_eq_true.2 ⟨w, hw, isNan32_iff.2 h⟩) noNan
    · have : xs.any isInf32 = true := List.any_eq_true.2 ⟨w, hw, isInf32_iff.2 h⟩
      simp [hf, this]

theorem blockExp_fin (h : ¬ NanBlock f xs) : blockExp f xs = if (amaxOf xs).1 = 0 then 0
    else (min (max (floorLog2 (amaxOf xs).1 (amaxOf xs).2 - f.emax + 127) 0) 254).toNat := by
  obtain ⟨noNan, noInf⟩ := not_or.1 h
  have hn : xs.any isNan32 = false := by
    simp only [List.any_eq_false, isNan32_iff]
    exact fun w hw h => noNan ⟨w, hw, h⟩
  have hi : (f != .g8 && xs.any isInf32) = false := by
    by_contra c
    simp only [Bool.not_eq_false, Bool.and_eq_true, bne_iff_ne, List.any_eq_true, isInf32_iff] at c
    exact noInf c
  simp [blockExp, hn, hi]

theorem blockExp_ne_nan (h : ¬ NanBlock f xs) : blockExp f xs ≠ 0xFF := by
  rw [blockExp_fin h]
  split <;> omega

theorem blockExp_zeros (h : ¬ NanBlock f xs) (zero : ∀ w ∈ xs, ∀ neg m e, decFp32 w = .fin neg m e → m = 0) : blockExp f xs = 0 := by
  rw [blockExp_fin h, if_pos]
  rcases amaxOf_mem xs with h0 | ⟨w, hw, neg, hd⟩
  · exact h0
  · exact zero w hw neg _ _ hd

theorem floorLog2_unique {m : Nat} {e l : Int} (low : (2 : ℚ) ^ l ≤ m * 2 ^ e) (high : (m : ℚ) * 2 ^ e < 2 ^ (l + 1)) :
    m ≠ 0 ∧ floorLog2 m e = l := by
  have hm : m ≠ 0 := by
    rintro rfl
    have := two_zpow_pos l
    simp at low
    linarith
  have h1 := (zpow_lt_zpow_iff_right₀ (one_lt_two (α := ℚ))).1 (low.trans_lt (lt_floorLog2 m e))
  have h2 := (zpow_lt_zpow_iff_right₀ (one_lt_two (α := ℚ))).1 ((floorLog2_le hm e).trans_lt high)
  exact ⟨hm, by omega⟩

/-- The exponent is the clamped one of the largest magnitude. -/
theorem blockExp_largest (h : ¬ NanBlock f xs) {w : W32} (hw : w ∈ xs) {neg : Bool} {m : Nat} {e l : Int}
    (hd : decFp32 w = .fin neg m e)
    (largest : ∀ w' ∈ xs, ∀ neg' m' e', decFp32 w' = .fin neg' m' e' → ratOf (.fin false m' e') ≤ ratOf (.fin false m e))
    (low : (2 : ℚ) ^ l ≤ ratOf (.fin false m e)) (high : ratOf (.fin false m e) < (2 : ℚ) ^ (l + 1)) :
    (blockExp f xs : Int) = min (max (l - f.emax + 127) 0) 254 := by
  have same : ((amaxOf xs).1 : ℚ) * 2 ^ (amaxOf xs).2 = ratOf (.fin false m e) := by
    refine le_antisymm ?_ (by rw [ratOf_mag]; exact le_amaxOf hw hd)
    rcases amaxOf_mem xs with h0 | ⟨w', hw', neg', hd'⟩
    · rw [h0, ratOf_mag]
      simpa using mul_nonneg m.cast_nonneg (two_zpow_pos e).le
    · rw [← ratOf_mag]
      exact largest w' hw' neg' _ _ hd'
  rw [← same] at low high
  obtain ⟨h0, hl⟩ := floorLog2_unique low high
  rw [blockExp_fin h, if_neg h0, hl]
  omega

end

/-! ### Elements (R35, R36) -/

/-- The code `c` of x = ±(m × 2^e) stands for a multiple up to the largest, and where it is rounded to nearest, for the nearest one. -/
def EncodesAs (f : Fmt) (r : Rnd) (neg : Bool) (m : Nat) (e : Int) (c : Nat) : Prop :=
  ∃ q ≤ f.maxCode, ratOf (elemVal f c) = (if neg then -1 else 1) * ratOf (elemVal f q)
    ∧ (r = .rne → ∀ q' ≤ f.maxCode, |ratOf (elemVal f q) - m * 2 ^ e| ≤ |ratOf (elemVal f q') - m * 2 ^ e|)

/-- The point nearest to x of those up to a largest one is the nearest of all, clamped. -/
theorem nearest_clamped {v : Nat → ℚ} (mono : StrictMono v) {x : ℚ} {c M : Nat} (near : ∀ c', |v c - x| ≤ |v c' - x|) {q' : Nat}
    (hq : q' ≤ M) : |v (min c M) - x| ≤ |v q' - x| := by
  rcases le_or_gt c M with le | gt
  · rw [min_eq_left le]
    exact near q'
  · rw [min_eq_right gt.le]
    have h1 : v M < v c := mono gt
    have h2 : v q' ≤ v M := mono.monotone hq
    have hx : v M ≤ x := by
      by_contra lt
      have := near M
      rw [abs_of_pos (by linarith), abs_of_pos (by linarith)] at this
      linarith
    rw [abs_of_nonpos (by linarith), abs_of_nonpos (by linarith)]
    linarith

theorem encodesAs_clamped {f : Fmt} {r : Rnd} {neg : Bool} {m c c0 : Nat} {e : Int} {v : Nat → ℚ} (mono : StrictMono v)
    (values : ∀ q ≤ f.maxCode, ratOf (elemVal f q) = v q)
    (near : r = .rne → ∀ c', |v c0 - m * 2 ^ e| ≤ |v c' - m * 2 ^ e|)
    (code : ratOf (elemVal f c) = (if neg then -1 else 1) * v (min c0 f.maxCode)) : EncodesAs f r neg m e c := by
  refine ⟨min c0 f.maxCode, min_le_right .., by rw [code, values _ (min_le_right ..)], fun hr q' hq => ?_⟩
  rw [values _ (min_le_right ..), values _ hq]
  exact nearest_clamped mono (near hr) hq

theorem fixedGrid_strictMono (g : Int) : StrictMono fun q : Nat => (q : ℚ) * 2 ^ g := fun _ _ lt =>
  mul_lt_mul_of_pos_right (by exact_mod_cast lt) (two_zpow_pos g)

/-- A code of sign and magnitude on a floating grid, whose special codes lie past the largest element. -/
theorem encodesAs_floating {f : Fmt} {g : FGrid} (hp : 1 ≤ g.p) (codes : ∀ neg, ∀ q ≤ f.maxCode,
    elemVal f (q + if neg then f.signBit else 0) = g.val neg q) (r : Rnd) (neg : Bool) (m : Nat) (e : Int) :
    EncodesAs f r neg m e (min (g.code r m e) f.maxCode + if neg then f.signBit else 0) := by
  refine encodesAs_clamped (c0 := g.code r m e) g.mag_strictMono (fun q hq => ?_) (fun hr c' => ?_) ?_
  · exact congrArg ratOf (codes false q hq)
  · rw [hr]
    exact (g.code_rne_nearest hp m e c').1
  · rw [codes neg _ (min_le_right ..), g.ratOf_val]

/-- A two's complement code of a magnitude on a fixed-point grid. -/
theorem encodesAs_fixed {f : Fmt} {g : Int} {neg : Bool} {c : Nat → Nat} (values : ∀ q ≤ f.maxCode, ratOf (elemVal f q) = q * 2 ^ g)
    (codes : ∀ q ≤ f.maxCode, ratOf (elemVal f (c q)) = (if neg then -1 else 1) * (q * 2 ^ g)) (r : Rnd) (m : Nat) (e : Int) :
    EncodesAs f r neg m e (c (min (roundMag r m e g) f.maxCode)) := by
  refine encodesAs_clamped (c0 := roundMag r m e g) (fixedGrid_strictMono g) values (fun hr c' => ?_) (codes _ (min_le_right ..))
  rw [hr]
  exact (roundMag_rne_nearest m e g c').1

theorem elemVal_f8 (neg : Bool) {q : Nat} (hq : q ≤ 0x7E) : elemVal .f8 (q + if neg then 0x80 else 0) = gridF8.val neg q := by
  have hc : (q + if neg then 0x80 else 0) % 128 = q := by split <;> omega
  have hs : decide (0x80 ≤ (q + if neg then 0x80 else 0) % 256) = neg := by cases neg <;> simp <;> omega
  simp only [elemVal, hc, hs]
  exact if_neg (by omega)

theorem elemVal_g8 (neg : Bool) {q : Nat} (hq : q ≤ 0x7B) : elemVal .g8 (q + if neg then 0x80 else 0) = gridG8.val neg q := by
  have hc : (q + if neg then 0x80 else 0) % 128 = q := by split <;> omega
  have hs : decide (0x80 ≤ (q + if neg then 0x80 else 0) % 256) = neg := by cases neg <;> simp <;> omega
  simp only [elemVal, hc, hs]
  rw [if_neg (by omega), if_neg (by omega)]

theorem elemVal_f4 (neg : Bool) {q : Nat} (hq : q ≤ 7) : elemVal .f4 (q + if neg then 8 else 0) = gridF4.val neg q := by
  have hc : (q + if neg then 8 else 0) % 8 = q := by split <;> omega
  have hs : decide (8 ≤ (q + if neg then 8 else 0) % 16) = neg := by cases neg <;> simp <;> omega
  simp only [elemVal, hc, hs]

/-- A code of w bits in two's complement, of at most the largest positive magnitude, is read as its signed magnitude. -/
theorem twos_signed {w q : Nat} (g : Int) (neg : Bool) (hq : q < 2 ^ w) :
    ratOf (if twos (w + 1) neg q % 2 ^ (w + 1) < 2 ^ w then .fin false (twos (w + 1) neg q % 2 ^ (w + 1)) g
      else .fin true (2 ^ (w + 1) - twos (w + 1) neg q % 2 ^ (w + 1)) g) = (if neg then -1 else 1) * (q * 2 ^ g) := by
  have p1 : 2 ^ (w + 1) = 2 * 2 ^ w := by ring
  cases neg with
  | false => simp [twos, Nat.mod_eq_of_lt (show q < 2 ^ (w + 1) by omega), hq, ratOf_fin]
  | true =>
    rcases q.eq_zero_or_pos with rfl | pos
    · simp [twos, ratOf_fin]
    · have hc : twos (w + 1) true q % 2 ^ (w + 1) = 2 ^ (w + 1) - q := by
        simp [twos, Nat.mod_eq_of_lt (show 2 ^ (w + 1) - q < 2 ^ (w + 1) by omega)]
      rw [hc, if_neg (by omega), Nat.sub_sub_self (by omega), ratOf_fin]

theorem elemVal_m24 (neg : Bool) {q : Nat} (hq : q ≤ 2 ^ 23 - 1) :
    ratOf (elemVal .m24 (twos 24 neg q)) = (if neg then -1 else 1) * (q * 2 ^ (-22 : Int)) :=
  twos_signed (w := 23) _ neg (by omega)

theorem elemVal_s16s (neg : Bool) {q : Nat} (hq : q ≤ 2 ^ 15 - 1) :
    ratOf (elemVal .s16s (twos 16 neg q)) = (if neg then -1 else 1) * (q * 2 ^ (-14 : Int)) :=
  twos_signed (w := 15) _ neg (by omega)

theorem elemVal_s16u {q : Nat} (hq : q ≤ 2 ^ 16 - 1) : ratOf (elemVal .s16u q) = q * 2 ^ (-15 : Int) := by
  simp only [elemVal]
  rw [Nat.mod_eq_of_lt (by omega), ratOf_mag]

/-- A finite value that its format can hold the sign of is rounded to the format's grid, and clamped. -/
theorem encScaledFin_encodes {f : Fmt} (hf : f.scaled = true) (r : Rnd) {neg : Bool} (sign : f ≠ .s16u ∨ neg = false) (m : Nat)
    (e : Int) : EncodesAs f r neg m e (encScaledFin f r neg m e) := by
  cases f with
  | fp32 | bf16 => cases hf
  | f8 => exact encodesAs_floating (by decide) (fun _ _ => elemVal_f8 _) r neg m e
  | g8 => exact encodesAs_floating (by decide) (fun _ _ => elemVal_g8 _) r neg m e
  | f4 => exact encodesAs_floating (by decide) (fun _ _ => elemVal_f4 _) r neg m e
  | m24 =>
    exact encodesAs_fixed (f := .m24) (c := twos 24 neg) (fun _ h => by simpa [twos] using elemVal_m24 false h)
      (fun _ => elemVal_m24 neg) r m e
  | s16s =>
    exact encodesAs_fixed (f := .s16s) (c := twos 16 neg) (fun _ h => by simpa [twos] using elemVal_s16s false h)
      (fun _ => elemVal_s16s neg) r m e
  | s16u =>
    obtain rfl : neg = false := by simpa using sign
    exact encodesAs_fixed (f := .s16u) (c := id) (fun _ => elemVal_s16u) (fun _ h => by simpa using elemVal_s16u h) r m e

/-! ### A whole block -/

theorem encElem_scaled {f : Fmt} (hf : f.scaled = true) (E : Nat) (r : Rnd) (w : W32) : encElem f E r w = encBlockElem f E r w := by
  cases f with
  | fp32 | bf16 => cases hf
  | _ => rfl

section
variable {f : Fmt} {xs : List W32} {key : Option W64} {elt : Nat → Nat}

theorem encBlock_exp_ne_nan (h : ¬ NanBlock f xs) : (encBlock f key elt xs).exp ≠ 0xFF := blockExp_ne_nan h

theorem encBlock_codes (hf : f.scaled = true) {k : Nat} {w : W32} (hk : xs[k]? = some w) :
    (encBlock f key elt xs).codes[k]? = some (encBlockElem f (encBlock f key elt xs).exp (rndAt key (elt k)) w) := by
  simp [encBlock, hk, encElem_scaled hf]

theorem encBlock_nan (hf : f.scaled = true) (h : NanBlock f xs) : encBlock f key elt xs = ⟨0xFF, xs.map fun _ => 0⟩ := by
  simp only [encBlock, blockExp_nan h, Block.mk.injEq, true_and]
  refine List.ext_getElem? fun k => ?_
  cases hk : xs[k]? <;> simp [encElem_scaled hf, encBlockElem]

theorem encBlock_inf (hf : f.scaled = true) (h : ¬ NanBlock f xs) {k : Nat} {w : W32} {neg : Bool} (hk : xs[k]? = some w)
    (hw : decFp32 w = .inf neg) : (encBlock f key elt xs).codes[k]? = some (if neg then 0xFC else 0x7C) := by
  rw [encBlock_codes hf hk, encBlockElem, if_neg (encBlock_exp_ne_nan h), hw]
  cases neg <;> rfl

theorem decElem_scaled (hf : f.scaled = true) {E : Nat} (hE : E ≠ 0xFF) (c : Nat) :
    ratOf (decElem f E c) = ratOf (elemVal f c) * 2 ^ ((E : Int) - 127) := by
  rw [decElem, if_pos hf, if_neg hE, ratOf_scale]

theorem encBlock_fin (hf : f.scaled = true) (h : ¬ NanBlock f xs) {k : Nat} {w : W32} {neg : Bool} {m : Nat} {e : Int}
    (hk : xs[k]? = some w) (hw : decFp32 w = .fin neg m e) (sign : f ≠ .s16u ∨ neg = false) :
    let y := encBlock f key elt xs
    let scale := (2 : ℚ) ^ ((y.exp : Int) - 127)
    let x := ratOf (.fin false m e)
    ∃ c q, y.codes[k]? = some c ∧ q ≤ f.maxCode ∧ ratOf (decElem f y.exp c) = (if neg then -1 else 1) * ratOf (elemVal f q) * scale
      ∧ (key = none → ∀ q', q' ≤ f.maxCode → |ratOf (elemVal f q) * scale - x| ≤ |ratOf (elemVal f q') * scale - x|) := by
  intro y scale x
  have hE : y.exp ≠ 0xFF := encBlock_exp_ne_nan h
  obtain ⟨q, hq, value, near⟩ := encScaledFin_encodes hf (rndAt key (elt k)) sign m (e - ((y.exp : Int) - 127))
  refine ⟨_, q, encBlock_codes hf hk, hq, ?_, fun hkey q' hq' => ?_⟩
  · rw [decElem_scaled hf hE, encBlockElem, if_neg hE, hw]
    exact congrArg (· * scale) value
  · have scaled (v : ℚ) : |v * scale - x| = |v - m * 2 ^ (e - ((y.exp : Int) - 127))| * scale := by
      have pos : 0 < scale := two_zpow_pos _
      rw [← abs_of_pos pos, ← abs_mul, abs_of_pos pos, sub_mul, mul_assoc (m : ℚ), ← zpow_add₀ two_ne_zero, sub_add_cancel,
        ← ratOf_mag]
    rw [scaled, scaled]
    exact mul_le_mul_of_nonneg_right (near (by rw [hkey]; rfl) q' hq') (two_zpow_pos _).le

end

end Sys2Proof
end

