-- ==== Sys2Proof/Proofs/CarryWatch.lean ====
section
/-!
PROOFS. Proofs/CarryWatch.lean: the counters of a watch point, the void mark and the record of the first event (R48 to R53).
-/
namespace Sys2Proof.Machine

/-! ### Bits -/

theorem testBit_eq (n i : Nat) : testBit n i = n.testBit i := by
  rw [testBit, Nat.testBit_eq_decide_div_mod_eq, Nat.shiftRight_eq_div_pow]
  rfl

theorem testBit_or (m n i : Nat) : testBit (m ||| n) i = (testBit m i || testBit n i) := by
  simp only [testBit_eq, Nat.testBit_or]

theorem testBit_stickyOf (bit step total i : Nat) :
    testBit (stickyOf bit step total) i = (decide (i = bit) && (decide (step = 2 ^ 32 - 1) || decide (total = 2 ^ 64 - 1))) := by
  rw [testBit_eq, stickyOf]
  split
  · rename_i h
    rw [h, Nat.testBit_two_pow, Bool.and_true]
    exact decide_eq_decide.2 eq_comm
  · rename_i h
    rw [Bool.not_eq_true _ |>.mp h, Nat.zero_testBit, Bool.and_false]

/-! ### The counters of a domain (R53) -/

/-- The counters of y are those of x with the results of `codes` by kind, saturating; the sticky bit of a kind is set where one of its
counters has reached its largest value, and stays. -/
structure Counted (x : Watch) (codes : List Nat) (y : Watch) : Prop where
  stepOvf : y.stepOvf = satAdd 32 x.stepOvf (codes.countP (fun c => c == 1 || c == 4))
  stepInf : y.stepInf = satAdd 32 x.stepInf (codes.countP (fun c => c == 1 || c == 2))
  stepNan : y.stepNan = satAdd 32 x.stepNan (codes.countP (· == 3))
  totOvf : y.totOvf = satAdd 64 x.totOvf (codes.countP (fun c => c == 1 || c == 4))
  totInf : y.totInf = satAdd 64 x.totInf (codes.countP (fun c => c == 1 || c == 2))
  totNan : y.totNan = satAdd 64 x.totNan (codes.countP (· == 3))
  sticky : ∀ p ∈ [(0, y.stepOvf, y.totOvf), (1, y.stepInf, y.totInf), (2, y.stepNan, y.totNan)],
    testBit y.sticky p.1 = (testBit x.sticky p.1 || decide (p.2.1 = 2 ^ 32 - 1) || decide (p.2.2 = 2 ^ 64 - 1))

theorem watchAdd_counted (x : Watch) (codes : List Nat) : Counted x codes (x.add (watchSums codes)) where
  stepOvf := rfl
  stepInf := rfl
  stepNan := rfl
  totOvf := rfl
  totInf := rfl
  totNan := rfl
  sticky := by
    simp only [List.forall_mem_cons, Watch.add, testBit_or, testBit_stickyOf]
    simp [Bool.or_assoc]

/-- y is x but for the void mark and the record of the first event. -/
def SameCounts (x y : Watch) : Prop :=
  y = { x with voidMark := y.voidMark, firstTensor := y.firstTensor, firstInfo := y.firstInfo, firstTime := y.firstTime }

theorem Counted.of_sameCounts {x y z : Watch} {codes : List Nat} (h : Counted x codes y) (same : SameCounts y z) : Counted x codes z := by
  obtain ⟨h1, h2, h3, h4, h5, h6, h7⟩ := h
  unfold SameCounts at same
  rw [same]
  exact ⟨h1, h2, h3, h4, h5, h6, h7⟩

/-! ### A watch point at work -/

/-- A result of class 1, 2 or 3 is an infinity or a NaN (R50). -/
def WatchEvent (w : WatchAt) (codes : List Nat) : Prop := w.cls ≠ 0 ∧ ∃ c ∈ codes, 1 ≤ c ∧ c ≤ 3

/-- The results have been counted, in the domain and in the Board's slot. -/
def watchCounted (w : WatchAt) (codes : List Nat) (s : State) : State :=
  watchSlot w (watchSums codes) (s.modDom w.domain (fun d => { d with watch := d.watch.add (watchSums codes) }))

section
variable (w : WatchAt) (codes : List Nat) (s : State)

theorem watchSlot_frame (n : Nat × Nat × Nat) : watchSlot w n s = { s with boards := (watchSlot w n s).boards } := by
  unfold watchSlot
  split <;> rfl

theorem watchCounted_frame :
    watchCounted w codes s = { s with doms := (watchCounted w codes s).doms, boards := (watchCounted w codes s).boards } := by
  unfold watchCounted
  rw [watchSlot_frame]
  rfl

theorem watchCounted_now : (watchCounted w codes s).now = s.now := by
  rw [watchCounted_frame]
  rfl

theorem watchCounted_dom (d : Nat) : (watchCounted w codes s).dom d
    = (s.modDom w.domain (fun d => { d with watch := d.watch.add (watchSums codes) })).dom d := by
  rw [watchCounted, watchSlot_frame]
  rfl

theorem watchCounted_watch :
    ((watchCounted w codes s).dom w.domain).watch = (s.dom w.domain).watch.add (watchSums codes) := by
  rw [watchCounted_dom, State.modDom_dom]

theorem watchCount_quiet (h : ¬ WatchEvent w codes) : watchCount w codes s = watchCounted w codes s := by
  unfold watchCount
  dsimp only
  split
  · rename_i c hc
    refine if_pos (not_not.1 fun hcls => h ⟨hcls, c, List.mem_of_find?_eq_some hc, ?_⟩)
    simpa using List.find?_some hc
  · rfl

theorem watchCount_event (h : WatchEvent w codes) : ∃ kind, watchCount w codes s = watchMark w kind (watchCounted w codes s) := by
  obtain ⟨hcls, c, hc, range⟩ := h
  unfold watchCount
  dsimp only
  split
  · exact ⟨_, if_neg hcls⟩
  · rename_i unfound
    exact absurd (by simpa using range) (List.find?_eq_none.1 unfound c hc)

variable (kind : Nat)

theorem watchMark_dom_of_ne {d : Nat} (h : d ≠ w.domain) : (watchMark w kind s).dom d = s.dom d := State.modDom_dom_of_ne _ _ _ _ h

/-- An event that comes first is recorded; any other leaves the record. -/
theorem watchMark_watch :
    let x := (s.dom w.domain).watch
    ((watchMark w kind s).dom w.domain).watch = if firstBefore { x with voidMark := true } s.now (w.lb s) w.tensor
      then { x with voidMark := true, firstTensor := w.tensor, firstInfo := firstInfo s w kind, firstTime := s.now }
      else { x with voidMark := true } := by
  dsimp only
  rw [watchMark, State.modDom_dom]
  exact apply_ite Dom.watch ..

end

section
variable {w : WatchAt} {codes : List Nat} {s : State}

/-- Results are counted once, whether or not they mark the domain. -/
theorem watchCount_counted : Counted (s.dom w.domain).watch codes ((watchCount w codes s).dom w.domain).watch := by
  refine (watchAdd_counted ..).of_sameCounts ?_
  rw [← watchCounted_watch]
  by_cases h : WatchEvent w codes
  · obtain ⟨kind, hk⟩ := watchCount_event w codes s h
    rw [hk, watchMark_watch]
    split <;> rfl
  · rw [watchCount_quiet w codes s h]
    rfl

theorem watchCount_quiet_watch (h : ¬ WatchEvent w codes) :
    ((watchCount w codes s).dom w.domain).watch = (s.dom w.domain).watch.add (watchSums codes) := by
  rw [watchCount_quiet w codes s h, watchCounted_watch]

/-- R50: only an infinity or a NaN of class 1 to 3 sets the void mark. -/
theorem watchCount_voidMark :
    ((watchCount w codes s).dom w.domain).watch.voidMark = true ↔ (s.dom w.domain).watch.voidMark = true ∨ WatchEvent w codes := by
  by_cases h : WatchEvent w codes
  · obtain ⟨kind, hk⟩ := watchCount_event w codes s h
    rw [hk, watchMark_watch]
    refine iff_of_true ?_ (.inr h)
    split <;> rfl
  · rw [watchCount_quiet_watch h]
    simp [h, Watch.add]

/-- R52: the first event is recorded, and an earlier one replaces it. -/
theorem watchCount_recorded (h : WatchEvent w codes)
    (first : (s.dom w.domain).watch.firstInfo = 0 ∨ s.now < (s.dom w.domain).watch.firstTime) :
    ((watchCount w codes s).dom w.domain).watch.firstTime = s.now
      ∧ ((watchCount w codes s).dom w.domain).watch.firstTensor = w.tensor := by
  obtain ⟨kind, hk⟩ := watchCount_event w codes s h
  rw [hk, watchMark_watch, watchCounted_watch, watchCounted_now, if_pos]
  · exact ⟨rfl, rfl⟩
  · rcases first with h0 | lt
    · simp [firstBefore, Watch.add, h0]
    · simp [firstBefore, Watch.add, lt]

/-- R52: a later event leaves the record. -/
theorem watchCount_kept (h : WatchEvent w codes) (recorded : (s.dom w.domain).watch.firstInfo ≠ 0)
    (later : (s.dom w.domain).watch.firstTime < s.now) :
    ((watchCount w codes s).dom w.domain).watch.firstInfo = (s.dom w.domain).watch.firstInfo
      ∧ ((watchCount w codes s).dom w.domain).watch.firstTime = (s.dom w.domain).watch.firstTime
      ∧ ((watchCount w codes s).dom w.domain).watch.firstTensor = (s.dom w.domain).watch.firstTensor := by
  obtain ⟨kind, hk⟩ := watchCount_event w codes s h
  rw [hk, watchMark_watch, watchCounted_watch, watchCounted_now, if_neg]
  · exact ⟨rfl, rfl, rfl⟩
  · simp [firstBefore, Watch.add, recorded, later.not_gt, later.ne']

theorem watchCount_dom_of_ne {d : Nat} (hd : d ≠ w.domain) : (watchCount w codes s).dom d = s.dom d := by
  have counted : (watchCounted w codes s).dom d = s.dom d := by rw [watchCounted_dom, State.modDom_dom_of_ne _ _ _ _ hd]
  by_cases h : WatchEvent w codes
  · obtain ⟨kind, hk⟩ := watchCount_event w codes s h
    rw [hk, watchMark_dom_of_ne w _ kind hd, counted]
  · rw [watchCount_quiet w codes s h, counted]

theorem watchCount_frame :
    watchCount w codes s = { s with doms := (watchCount w codes s).doms, boards := (watchCount w codes s).boards } := by
  by_cases h : WatchEvent w codes
  · obtain ⟨kind, hk⟩ := watchCount_event w codes s h
    rw [hk, watchCounted_frame]
    rfl
  · rw [watchCount_quiet w codes s h, watchCounted_frame]

end

/-! ### Codes of results (R48) -/

theorem watchCode_fin {v : Val} (h : v.isFin = true) (infIn : Bool) : watchCode v infIn = 0 := by
  cases v with
  | nan | inf => cases h
  | fin => rfl

end Sys2Proof.Machine
end

