-- ==== Sys2Proof/Proofs/NumberFormats.lean ====
section
/-!
PROOFS. Proofs/NumberFormats.lean: the statement on rounding, narrowing, blocks and the carry watch, from the lemmas of its parts.
-/
namespace Sys2Proof.Machine

/-- Settles O60: RNE is nearest on a fixed-point grid, and so in the binade of x on a floating one, whose codes rise with their values; BF16,
FP32 and the elements of a block follow; the carry watch counts first and marks then. -/
theorem roundingAndNarrowing : Obligations.RoundingAndNarrowing := by
  refine ⟨?_, ?_, ?_, ?_, ?_, ?_, ?_, ?_, ?_⟩
  · intro g m e hp
    dsimp only
    rw [ratOf_mag]
    exact g.code_rne_nearest hp m e
  · intro m e g
    dsimp only
    rw [ratOf_mag]
    exact roundMag_rne_nearest m e g
  · intro m n32 e g
    dsimp only
    rw [ratOf_mag]
    exact roundMag_sr m n32 e g
  · intro r
    refine ⟨rfl, fun neg => ⟨rfl, fun m e => ⟨fun big => ?_, fun le => ?_⟩⟩⟩
    · exact encBf16_over (gridBf16.mag_strictMono.lt_iff_lt.1 big) neg
    · exact decBf16_encBf16 (gridBf16.mag_strictMono.le_iff_le.1 le) neg
  · intro f ex c neg m e _ h
    obtain ⟨hm, he⟩ := decElem_bounds h
    rw [h]
    exact widen_exact hm he
  · exact fun r v => ⟨encFp32_nan, encBf16_nan⟩
  · intro f key elt xs hf
    refine ⟨encBlock_nan hf, fun h => ⟨blockExp_zeros h, ?_, fun k w neg hk hw => encBlock_inf hf h hk hw,
      fun k w neg m e hk hw sign => encBlock_fin hf h hk hw sign⟩⟩
    exact fun w hw neg m e l hd largest low high => blockExp_largest h hw hd largest low high
  · exact fun v infIn => ⟨fun h => by rw [h]; rfl, fun neg h => by rw [h]; rfl, fun h => watchCode_fin h infIn⟩
  · intro w codes s
    obtain ⟨ho, hi, hn, hto, hti, htn, sticky⟩ := watchCount_counted (w := w) (codes := codes) (s := s)
    refine ⟨ho, hi, hn, hto, hti, htn, sticky, watchCount_voidMark, fun quiet => ?_, watchCount_recorded, watchCount_kept,
      fun d => watchCount_dom_of_ne, watchCount_frame⟩
    rw [watchCount_quiet_watch quiet]
    exact ⟨rfl, rfl, rfl⟩

end Sys2Proof.Machine
end

