-- ==== Sys2Proof/Proofs/Traffic.lean ====
section
/-!
PROOFS. Proofs/Traffic.lean: what the passing of buffers leaves of a state: full and free buffers, semaphores, fetch runs, stash copies,
store-outs, beads, counts and reports. Whatever a Board's links do, its Frames, launches, slices and proof hold stay (`Flows`); and
most of it moves no memory and no domain either (`Still`).
-/
-- One proof after another: in parallel, behind the tests' long evaluations, they ask for too many threads' stacks.
set_option Elab.async false

namespace Sys2Proof.Machine

/-! ### The relations -/

/-- y has the Frames, launches, slices and proof hold of x, and its links their consumers. -/
structure Board.SameUnits (x y : Board) : Prop where
  frames : y.frames = x.frames
  launches : y.launches = x.launches
  hold : y.hold = x.hold
  slices : y.slices = x.slices
  consumer : ∀ i, (y.link i).consumer = (x.link i).consumer

theorem Board.SameUnits.refl (x : Board) : x.SameUnits x := ⟨rfl, rfl, rfl, rfl, fun _ => rfl⟩

theorem Board.SameUnits.trans {x y z : Board} (h : x.SameUnits y) (k : y.SameUnits z) : x.SameUnits z where
  frames := k.frames.trans h.frames
  launches := k.launches.trans h.launches
  hold := k.hold.trans h.hold
  slices := k.slices.trans h.slices
  consumer i := (k.consumer i).trans (h.consumer i)

theorem Board.SameUnits.after {x y z : Board} (k : y.SameUnits z) (h : x.SameUnits y) : x.SameUnits z := h.trans k

/-- An update of other fields of a Board. -/
theorem Board.SameUnits.upd {x y : Board} (frames : y.frames = x.frames := by rfl) (launches : y.launches = x.launches := by rfl)
    (hold : y.hold = x.hold := by rfl) (slices : y.slices = x.slices := by rfl) (links : y.links = x.links := by rfl) : x.SameUnits y :=
  ⟨frames, launches, hold, slices, fun i => by rw [Board.link, Board.link, links]⟩

theorem Board.SameUnits.ite {c : Prop} [Decidable c] {x y z : Board} (hy : x.SameUnits y) (hz : x.SameUnits z) :
    x.SameUnits (if c then y else z) := by
  split
  · exact hy
  · exact hz

/-- t has the time, the device, the retired Frames, the counts of verdicts and the Boards' units of s, and every cause of s. -/
structure Flows (s t : State) : Prop where
  time : t.time = s.time
  dev : t.dev = s.dev
  retired : t.flash.retiredFrames = s.flash.retiredFrames
  verdicts : ∀ u, t.rd .proofVerdicts u = s.rd .proofVerdicts u
  irq : ∀ i, s.host.irqCause.getLsbD i = true → t.host.irqCause.getLsbD i = true
  boards : ∀ c, (s.board c).SameUnits (t.board c)

/-- And its memories and domains are those of s. -/
structure Still (s t : State) : Prop extends Flows s t where
  doms : t.doms = s.doms
  dram : t.dram = s.dram
  store : t.store = s.store

theorem Flows.refl (s : State) : Flows s s := ⟨rfl, rfl, rfl, fun _ => rfl, fun _ h => h, fun _ => .refl _⟩

theorem Flows.trans {r s t : State} (h : Flows r s) (k : Flows s t) : Flows r t where
  time := k.time.trans h.time
  dev := k.dev.trans h.dev
  retired := k.retired.trans h.retired
  verdicts u := (k.verdicts u).trans (h.verdicts u)
  irq i hi := k.irq i (h.irq i hi)
  boards c := (h.boards c).trans (k.boards c)

theorem Still.refl (s : State) : Still s s := ⟨.refl s, rfl, rfl, rfl⟩

theorem Still.trans {r s t : State} (h : Still r s) (k : Still s t) : Still r t :=
  ⟨h.toFlows.trans k.toFlows, k.doms.trans h.doms, k.dram.trans h.dram, k.store.trans h.store⟩

/-- Two steps, the later one named first. -/
theorem Flows.after {r s t : State} (k : Flows s t) (h : Flows r s) : Flows r t := h.trans k

theorem Still.after {r s t : State} (k : Still s t) (h : Still r s) : Still r t := h.trans k

theorem Flows.ite {c : Prop} [Decidable c] {s t u : State} (ht : Flows s t) (hu : Flows s u) : Flows s (if c then t else u) := by
  split
  · exact ht
  · exact hu

theorem Still.ite {c : Prop} [Decidable c] {s t u : State} (ht : Still s t) (hu : Still s u) : Still s (if c then t else u) := by
  split
  · exact ht
  · exact hu

/-- An update of fields that Flows does not speak of. -/
theorem Flows.upd {s t : State} (time : t.time = s.time := by rfl) (dev : t.dev = s.dev := by rfl)
    (retired : t.flash.retiredFrames = s.flash.retiredFrames := by rfl) (regs : t.regs = s.regs := by rfl)
    (irq : t.host.irqCause = s.host.irqCause := by rfl) (boards : t.boards = s.boards := by rfl) : Flows s t where
  time := time
  dev := dev
  retired := retired
  verdicts u := by rw [State.rd, State.rd, regs]
  irq _ h := irq ▸ h
  boards c := by rw [State.board, State.board, boards]; exact .refl _

/-- An update of fields that Still does not speak of. -/
theorem Still.upd {s t : State} (flows : Flows s t := by exact .upd) (doms : t.doms = s.doms := by rfl) (dram : t.dram = s.dram := by rfl)
    (store : t.store = s.store := by rfl) : Still s t := ⟨flows, doms, dram, store⟩

theorem flows_forEach {α : Type} (l : List α) (f : α → State → State) (h : ∀ a s, Flows s (f a s)) (s : State) :
    Flows s (forEach l f s) := by
  unfold forEach
  induction l generalizing s with
  | nil => exact .refl s
  | cons a l ih => exact (h a s).trans (ih (f a s))

theorem still_forEach {α : Type} (l : List α) (f : α → State → State) (h : ∀ a s, Still s (f a s)) (s : State) :
    Still s (forEach l f s) := by
  unfold forEach
  induction l generalizing s with
  | nil => exact .refl s
  | cons a l ih => exact (h a s).trans (ih (f a s))

/-! ### Boards and registers -/

theorem still_setBoard (b : Nat) {x : Board} {s : State} (h : (s.board b).SameUnits x) : Still s (s.setBoard b x) := by
  refine ⟨⟨rfl, rfl, rfl, fun _ => rfl, fun _ h => h, fun c => ?_⟩, rfl, rfl, rfl⟩
  by_cases hc : c = b
  · rw [hc, State.setBoard_board]
    exact h
  · rw [show (s.setBoard b x).board c = s.board c from tget_tset_of_ne _ _ _ _ _ hc]
    exact .refl _

theorem still_modBoard (b : Nat) (f : Board → Board) (s : State) (h : ∀ x : Board, x.SameUnits (f x) := by exact fun _ => .upd) :
    Still s (s.modBoard b f) := still_setBoard b (h _)

@[simp] theorem State.wr_board (s : State) (r : Reg) (v u c : Nat) : (s.wr r v u).board c = s.board c := rfl
@[simp] theorem State.bump_board (s : State) (r : Reg) (u c : Nat) : (s.bump r u).board c = s.board c := rfl

/-- A register of the dictionary that is not the count of verdicts. -/
abbrev Reg.NoVerdicts (r : Reg) : Prop :=
  r.index < 65536 ∧ r.sub < 256 ∧ ¬ (r.index = Reg.proofVerdicts.index ∧ r.sub = Reg.proofVerdicts.sub)

theorem Reg.NoVerdicts.key_ne {r : Reg} (h : r.NoVerdicts) (w u : Nat) : Reg.proofVerdicts.key w ≠ r.key u := by
  obtain ⟨hi, hs, hne⟩ := h
  simp only [Reg.key, Reg.proofVerdicts] at hne ⊢
  omega

theorem still_wr {r : Reg} (h : r.NoVerdicts) (v u : Nat) (s : State) : Still s (s.wr r v u) := by
  refine ⟨⟨rfl, rfl, ?_, fun w => State.wr_rd_of_ne s r .proofVerdicts v u w (h.key_ne w u), fun _ h => h, fun _ => .refl _⟩, rfl, rfl, rfl⟩
  unfold State.wr
  dsimp only
  split <;> rfl

theorem still_bumpBy {r : Reg} (h : r.NoVerdicts) (n u : Nat) (s : State) : Still s (s.bumpBy r n u) := still_wr h _ u s

theorem still_bump {r : Reg} (h : r.NoVerdicts) (u : Nat) (s : State) : Still s (s.bump r u) := still_bumpBy h 1 u s

theorem still_touch (s : State) (b : Nat) : Still s (touch s b) := still_modBoard b _ s

theorem still_draw (n : Nat) (s : State) : Still s (s.draw n).2 := .upd

/-! ### Reports -/

theorem still_emit (o : Out) (s : State) : Still s (s.emit o) := .upd

theorem still_send (p : Pkt) (s : State) : Still s (s.send p) := still_emit _ s

theorem still_canNotify (bs : List Byte) (s : State) : Still s (canNotify s bs) := by
  unfold canNotify
  split
  · exact .refl s
  · split
    · dsimp only
      split
      · exact .upd
      · exact (still_bump (r := .canIgnored) (by decide) 0 s).trans .upd
    · exact still_emit _ s

theorem still_fabricNotify (bs : List Byte) (s : State) : Still s (fabricNotify s bs) := .ite (.refl s) (still_send _ s)

theorem still_report (c v d q : Nat) (s : State) : Still s (report s c v d q) := by
  have can : Still s (if testBit (s.rd .notifyMaskCan) v then canNotify s (notifyBytes s c v d q) else s) :=
    .ite (still_canNotify ..) (.refl s)
  exact .ite (.refl s) (can.trans (.ite (still_fabricNotify ..) (.refl _)))

theorem still_vector (v : Nat) (s : State) : Still s (s.vector v) := by
  unfold State.vector
  split
  · exact .upd
  · exact still_emit _ s

theorem still_signal (v c d q : Nat) (s : State) : Still s (s.signal v c d q) := by
  have cause : Still s { s with host := { s.host with irqCause := s.host.irqCause ||| BitVec.ofNat 64 (2 ^ v) } } :=
    .upd ⟨rfl, rfl, rfl, fun _ => rfl, fun i h => by simp [h], fun _ => .refl _⟩
  exact cause.trans ((still_vector v _).trans (still_report ..))

theorem still_domCause (d b : Nat) (s : State) : Still s (s.domCause d b) := (still_wr (by decide) ..).trans (still_vector ..)

theorem still_logFault (f : Flt) (s : State) : Still s (logFault s f).1 := by
  unfold logFault
  split
  · exact .upd
  · split
    · exact still_wr (by decide) _ 0 s
    · exact .upd

theorem still_reportFault (f : Flt) (s : State) : Still s (reportFault f s) := by
  have signals := ((still_logFault f s).trans (still_signal 1 f.code (f.domain.getD 0xFF) (logFault s f).2 _)).trans
    (still_forEach (alsoVectors f.code) (fun v u => u.signal v f.code (f.domain.getD 0xFF) (logFault s f).2)
      (fun _ _ => still_signal ..) _)
  unfold reportFault
  dsimp only
  split
  · exact signals.trans (still_domCause ..)
  · exact signals

theorem still_raise (f : Flt) (s : State) : Still s (s.raise f) := .ite (still_modBoard _ _ s) (still_reportFault f s)

theorem still_countEvent (b ev : Nat) (d f : Option Nat) (n : Nat) (s : State) : Still s (countEvent b ev d f n s) := by
  unfold countEvent
  refine .ite (.refl s) (still_forEach _ _ (fun k u => ?_) s)
  exact .ite (.trans (still_modBoard b _ u) (.ite (still_signal ..) (.refl _))) (.refl u)

/-! ### Beads -/

theorem still_writeBead (b : Nat) (k : Bead) (flags : Nat) (s : State) : Still s (writeBead b k flags s) := by
  have counted : ∀ (u : State) (r : Reg) (i : Nat), Still u (u.bumpVer r i) := fun _ _ _ => .upd
  exact .ite (still_bump (by decide) b s) (.after (counted ..) (.after (still_wr (by decide) ..) (still_modBoard b _ s)))

theorem still_endBeads (b : Nat) (p : Bead → Bool) (flags : Nat) (s : State) : Still s (endBeads b p flags s) :=
  .after (still_forEach _ _ (fun k u => still_writeBead b k flags u) _) (still_modBoard b _ s)

theorem still_markBead (b bundle : Nat) (f : Nat → Bead → Bead) (s : State) : Still s (markBead b bundle f s) := still_modBoard b _ s

/-! ### Links -/

section
variable (x : Board)

theorem Board.sameUnits_setLink {i : Nat} {l : Link} (h : l.consumer = (x.link i).consumer) : x.SameUnits (x.setLink i l) := by
  refine ⟨rfl, rfl, rfl, rfl, fun j => ?_⟩
  by_cases hj : j = i
  · rw [hj, Board.link, Board.setLink, tget_tset_self, h]
  · rw [Board.link, Board.setLink, tget_tset_of_ne _ _ _ _ _ hj, Board.link]

theorem Board.sameUnits_setBuf (h : Nat) (u : Buf) : x.SameUnits (x.setBuf h u) := .upd

theorem Board.sameUnits_setSem (i n : Nat) : x.SameUnits (x.setSem i n) := .upd

theorem Board.sameUnits_setBsem (i n : Nat) : x.SameUnits (x.setBsem i n) := .upd

theorem Board.sameUnits_setLinkSem (beam : Bool) (i n : Nat) : x.SameUnits (x.setLinkSem beam i n) :=
  .ite (x.sameUnits_setBsem i n) (x.sameUnits_setSem i n)

theorem Board.sameUnits_initSems (l : Link) : x.SameUnits (x.initSems l) := by
  have full : x.SameUnits (if l.remoteProducer then x.setBsem l.fullSem 0 else if l.remoteConsumer then x else x.setSem l.fullSem 0) :=
    .ite (x.sameUnits_setBsem ..) (.ite (.refl x) (x.sameUnits_setSem ..))
  exact full.trans (.ite (Board.sameUnits_setBsem ..) (.ite (.refl _) (Board.sameUnits_setSem ..)))

theorem Board.sameUnits_activate (i e : Nat) : x.SameUnits (x.activate i e) :=
  .ite (.after (Board.sameUnits_initSems ..) (x.sameUnits_setLink rfl)) (.ite (x.sameUnits_setLink rfl) (.refl x))

theorem Board.sameUnits_settleLink (i : Nat) : x.SameUnits (x.settleLink i) :=
  .ite (.after (Board.sameUnits_initSems ..) (x.sameUnits_setLink rfl)) (.ite (x.sameUnits_setLink rfl) (.refl x))

theorem Board.sameUnits_beginFill (l h e : Nat) : x.SameUnits (x.beginFill l h e) :=
  (x.sameUnits_setBuf ..).trans (Board.sameUnits_setLink _ rfl)

end

theorem still_settleLink (b l : Nat) (s : State) : Still s (s.modBoard b (fun x => x.settleLink l)) :=
  still_modBoard b _ s (fun x => x.sameUnits_settleLink l)

theorem still_takeEmpty {b l e h : Nat} {s t : State} (taken : takeEmpty b l e s = some (h, t)) : Still s t := by
  have fill : ∀ y, ((s.board b).activate l e).SameUnits y → ∀ h, Still s (touch (s.setBoard b (y.beginFill l h e)) b) := fun y hy h =>
    (still_setBoard b (((Board.sameUnits_activate ..).trans hy).trans (Board.sameUnits_beginFill ..))).trans (still_touch ..)
  unfold takeEmpty at taken
  dsimp only at taken
  split at taken
  · cases taken
  · split at taken
    · split at taken
      · cases taken
      · cases taken
        exact fill _ (Board.sameUnits_setLinkSem ..) _
    · split at taken
      · split at taken
        · cases taken
          exact fill _ (.refl _) _
        · cases taken
      · cases taken

theorem still_takeFull {b l h : Nat} {s t : State} (taken : takeFull b l s = some (h, t)) : Still s t := by
  unfold takeFull at taken
  dsimp only at taken
  split at taken
  · cases taken
  · split at taken
    · split at taken
      · cases taken
      · cases taken
        refine .after (still_touch ..) (still_setBoard b ?_)
        have used := (s.board b).sameUnits_setLinkSem ((s.board b).link l).remoteProducer ((s.board b).link l).fullSem
          ((s.board b).linkSem ((s.board b).link l).remoteProducer ((s.board b).link l).fullSem - 1)
        exact .after (Board.sameUnits_setLink _ (used.consumer l).symm) (.after (Board.sameUnits_setBuf ..) used)
    · split at taken
      · cases taken
      · cases taken
        exact .after (still_touch ..) (still_setBoard b (.after (Board.sameUnits_setLink _ rfl) (Board.sameUnits_setBuf ..)))

theorem still_takeUpTo {b l idx n : Nat} {t t' : Tbl Nat} {s u : State} (taken : takeUpTo b l idx n t s = some (t', u)) : Still s u := by
  induction n generalizing t s with
  | zero =>
    unfold takeUpTo at taken
    split at taken
    · cases taken
      exact .refl _
    · cases taken
  | succ n ih =>
    unfold takeUpTo at taken
    split at taken
    · cases taken
      exact .refl _
    · split at taken
      · rename_i full
        exact (still_takeFull full).trans (ih taken)
      · cases taken

theorem still_takeDst {b l e idx n : Nat} {t t' : Tbl Nat} {s u : State} (taken : takeDst b l e idx n t s = some (t', u)) : Still s u := by
  induction n generalizing t s with
  | zero =>
    unfold takeDst at taken
    split at taken
    · cases taken
      exact .refl _
    · cases taken
  | succ n ih =>
    unfold takeDst at taken
    split at taken
    · cases taken
      exact .refl _
    · split at taken
      · rename_i empty
        exact (still_takeEmpty empty).trans (ih taken)
      · cases taken

/-! ### Halts -/

theorem still_haltBoard (b : Nat) (f : Flt) (s : State) : Still s (haltBoard b f s) := still_modBoard b _ s

theorem still_haltAll (b : Nat) (f : Flt) (s : State) : Still s (haltAll b f s) := by
  unfold haltAll
  exact .after (still_modBoard b _ _) (still_haltBoard b f s)

theorem still_ueFlt (code : Nat) (at_ : Option Nat) (a reader : Nat) (d : Option Nat) (s : State) : Still s (ueFlt code at_ a reader d s).2 :=
  still_draw 32 s

theorem still_queueMarch (b w : Nat) (s : State) : Still s (queueMarch b w s) := still_modBoard b _ s

theorem still_storeUe (b w reader : Nat) (s : State) : Still s (storeUe b w reader s) :=
  .after (still_haltAll ..) (.after (still_bump (by decide) ..) (.after (still_ueFlt ..) (still_queueMarch b w s)))

/-! ### Fetch runs and semaphores -/

theorem still_newTxn (k : TxnKind) (s : State) : Still s (newTxn k s).2 := .upd

theorem still_sendReads (b : Nat) (r : FetchRun) (fill : Nat) (s : State) : Still s (sendReads b r fill s) :=
  still_forEach _ _ (fun _ s => still_forEach _ _ (fun _ s => (still_newTxn _ s).trans (still_send ..)) s) s

theorem still_startFills (b l n : Nat) (s : State) : Still s (startFills b l n s) := by
  induction n generalizing s with
  | zero => exact .refl s
  | succ n ih =>
    unfold startFills
    split
    · exact .refl s
    · split
      · exact .refl s
      · rename_i empty
        refine (still_takeEmpty empty).trans ?_
        dsimp only
        split
        · exact .after (ih _) (still_modBoard b _ _)
        · refine .after (ih _) (.after (.ite (still_sendReads ..) (.refl _)) ?_)
          exact .after (still_modBoard b _ _) (.ite (still_markBead ..) (.refl _))

theorem still_resumeFills (b : Nat) (beam : Bool) (sem : Nat) (s : State) : Still s (resumeFills b beam sem s) :=
  still_forEach _ _ (fun l u => still_startFills b l 64 u) s

theorem still_signalSem (b k n : Nat) (s : State) : Still s (signalSem b k n s) := by
  rcases signalSem_cases b k n s with ⟨-, h⟩ | ⟨-, h⟩ | ⟨-, h⟩ <;> rw [h]
  · exact .refl s
  · exact still_haltAll ..
  · exact .after (still_resumeFills ..) (.after (still_touch ..) (still_modBoard b _ s))

theorem still_signalEntry (b k n e : Nat) (s : State) : Still s (signalEntry b k n e s) := by
  unfold signalEntry
  split
  · exact .ite (.refl s) (still_send ..)
  · exact .refl s

theorem still_sendSig (b e : Nat) (g : SemSig) (s : State) : Still s (sendSig b e g s) := .ite (still_signalSem ..) (still_signalEntry ..)

theorem still_settleSigs (b : Nat) (s : State) : Still s (settleSigs b s) :=
  .after (still_forEach _ _ (fun _ _ => still_sendSig ..) _) (still_modBoard b _ s)

theorem still_settleWork (b : Nat) (s : State) : Still s (settleWork b s) := (still_settleSigs b s).trans (still_endBeads ..)

/-- Full buffers are passed on by semaphores, handles and packets alone. -/
theorem still_passFull (b l n : Nat) (s : State) : Still s (passFull b l n s) := by
  induction n generalizing s with
  | zero => exact .refl s
  | succ n ih =>
    unfold passFull
    dsimp only
    split
    · exact .refl s
    · refine .ite (.refl s) (.after (ih _) (.after (.ite (still_touch ..) (.ite (still_signalEntry ..) (still_signalSem ..))) ?_))
      exact still_setBoard b (Board.sameUnits_setLink _ rfl)

theorem still_noteSquash (b : Nat) (s : State) : Still s (noteSquash b s) :=
  .ite (.after (still_wr (by decide) ..) (still_modBoard b _ s)) (.refl s)

/-! ### A Board's store -/

theorem flows_putStore (b a : Nat) (bs : List Byte) (s : State) : Flows s (putStore b a bs s) := by
  have written : Flows s (s.storeWrite b a bs) := .upd
  unfold putStore
  exact .after (still_modBoard b _ _).toFlows written

theorem flows_boardWrite (b a : Nat) (bs : List Byte) (s : State) : Flows s (boardWrite b a bs s) :=
  (flows_putStore b a bs s).trans (still_countEvent ..).toFlows

theorem still_correctWords (b : Nat) (ws : List Nat) (s : State) : Still s (correctWords b ws s) :=
  .after (still_forEach _ _ (fun _ _ => .after (still_queueMarch ..) (still_bump (by decide) ..)) _) (still_modBoard b _ s)

/-- A read that is served corrects single-bit errors, and changes no byte. -/
theorem still_storeServed (b a n : Nat) (s : State) : Still s (storeServed b a n s) :=
  (still_countEvent b 0x0D none none (accesses 256 a n) s).trans (.ite (.refl _) (still_correctWords ..))

theorem flows_countBlock (id n : Nat) (s : State) : Flows s (countBlock id n s) := by
  rw [countBlock_frame]
  exact .upd

theorem flows_countRoute (p q : MeshPos) (n : Nat) (s : State) : Flows s (countRoute p q n s) :=
  flows_forEach _ _ (fun _ _ => flows_countBlock ..) s

theorem flows_boardStackWrite (b a : Nat) (bs : List Byte) (s : State) : Flows s (s.boardStackWrite b a bs) := by
  have written : Flows s (s.stackWrite a bs) := by
    rw [stackWrite_frame]
    exact .upd
  exact written.trans (.ite ((flows_countRoute ..).trans (flows_countRoute ..)) (.refl _))

/-! ### Buffers that are released, or leave the module -/

theorem flows_stashCopies (b l h : Nat) (s : State) : Flows s (stashCopies b l h s) := by
  unfold stashCopies
  refine .after (still_settleWork b _).toFlows (.after (still_modBoard b _ _).toFlows (flows_forEach _ _ (fun w u => ?_) s))
  dsimp only
  split
  · exact (still_storeUe ..).toFlows
  · split
    · exact .after (flows_boardStackWrite ..) (still_storeServed ..).toFlows
    · exact .after (flows_boardWrite ..) (still_storeServed ..).toFlows

theorem flows_freeBuf (b l h : Nat) (s : State) : Flows s (freeBuf b l h s) := by
  unfold freeBuf
  refine (flows_stashCopies b l h s).trans (Still.toFlows ?_)
  generalize stashCopies b l h s = u
  dsimp only
  refine .after (still_noteSquash ..) (.after (still_startFills ..) (.after (still_settleLink ..) ?_))
  exact .after (.ite (still_touch ..) (.ite (still_signalEntry ..) (still_signalSem ..))) (still_modBoard b _ u)

theorem flows_storeOutStack (b a e : Nat) (bs : List Byte) (s : State) : Flows s (storeOutStack b a e bs s) := by
  have denied : ∀ d, Flows s (haltBoard b (ueFlt 0x0402 none a 1 d s).1 ((ueFlt 0x0402 none a 1 d s).2.bump .regionFaults (stackOf a))) :=
    fun _ => (((still_ueFlt ..).trans (still_bump (by decide) ..)).trans (still_haltBoard ..)).toFlows
  unfold storeOutStack
  split
  · exact .ite (flows_boardStackWrite ..) (denied _)
  · exact denied _

theorem still_sendWrites (b l h dest addr : Nat) (bs : List Byte) (s : State) : Still s (sendWrites b l h dest addr bs s) :=
  still_forEach _ _ (fun _ s => (still_newTxn _ s).trans (still_send ..)) s

theorem flows_storeOutBoard (b dest a e : Nat) (bs : List Byte) (s : State) : Flows s (storeOutBoard b dest a e bs s) :=
  .ite (still_haltBoard ..).toFlows (flows_boardWrite ..)

theorem flows_storeOutBuf (b l h : Nat) (s : State) : Flows s (storeOutBuf b l h s) := by
  unfold storeOutBuf
  dsimp only
  split
  · exact .after (still_storeUe ..).toFlows (flows_freeBuf ..)
  · refine .after (flows_freeBuf ..) (.after (.ite (still_sendWrites ..).toFlows (.ite (flows_storeOutBoard ..) (flows_storeOutStack ..))) ?_)
    exact (Still.after (still_draw ..) (.after (still_draw ..) (still_storeServed ..))).toFlows

theorem flows_storeOut (b l n : Nat) (s : State) : Flows s (storeOut b l n s) := by
  induction n generalizing s with
  | zero => exact .refl s
  | succ n ih =>
    unfold storeOut
    refine .ite (.refl s) ?_
    split
    · rename_i full
      exact ((still_takeFull full).toFlows.trans (flows_storeOutBuf ..)).trans (ih _)
    · exact .refl s

theorem flows_bufferFull (b l h : Nat) (s : State) : Flows s (bufferFull b l h s) :=
  ((still_modBoard b _ s).trans (still_passFull ..)).toFlows.trans (flows_storeOut ..)

/-- A store-out is done for a link whose consumer is the store-out alone (R111). -/
theorem storeOut_other {b l : Nat} {s : State} (h : ((s.board b).link l).consumer ≠ 4) (n : Nat) : storeOut b l n s = s := by
  cases n with
  | zero => rfl
  | succ n => exact if_pos (by simpa using h)

/-- A full buffer of a link that another unit of the Board, or another Board, consumes moves no memory. -/
theorem still_bufferFull {b l : Nat} {s : State} (h : ((s.board b).link l).consumer ≠ 4) (i : Nat) : Still s (bufferFull b l i s) := by
  have passed : Still s (passFull b l 64 (s.modBoard b (fun x => x.setBuf i { x.buf i with state := 2 }))) :=
    (still_modBoard b _ s).trans (still_passFull ..)
  unfold bufferFull
  rw [storeOut_other (by rw [(passed.boards b).consumer l]; exact h)]
  exact passed

/-! ### Watch points -/

theorem flows_modDom (d : Nat) (f : Dom → Dom) (s : State) : Flows s (s.modDom d f) := .upd

theorem still_watchSlot (w : WatchAt) (n : Nat × Nat × Nat) (s : State) : Still s (watchSlot w n s) := .ite (.refl s) (still_modBoard _ _ s)

theorem flows_watchCount (w : WatchAt) (codes : List Nat) (s : State) : Flows s (watchCount w codes s) := by
  have counted : Flows s (watchCounted w codes s) := (flows_modDom ..).trans (still_watchSlot ..).toFlows
  by_cases h : WatchEvent w codes
  · obtain ⟨kind, hk⟩ := watchCount_event w codes s h
    rw [hk]
    exact counted.trans (flows_modDom ..)
  · rw [watchCount_quiet w codes s h]
    exact counted

theorem flows_watchPut (w : WatchAt) (es : List (Nat × Nat × Nat)) (s : State) : Flows s (watchPut w es s) :=
  (flows_watchCount w _ s).trans (.ite (.refl _) (flows_modDom ..))

end Sys2Proof.Machine
end

