-- ==== Sys2Proof/Proofs/Tiles.lean ====
section
/-!
PROOFS. Proofs/Tiles.lean: the rules of Frames and tiles: what a Frame holds after an update of its Board, how a tile is dropped or
counted as written, halts, and the watch point at which a tile's results are counted once.
-/
-- One proof after another: in parallel, behind the tests' long evaluations, they ask for too many threads' stacks.
set_option Elab.async false

namespace Sys2Proof.Machine

/-! ### A Board's Frames and launches -/

section
variable (x : Board) (f : Nat) (y : Frame) (l : Launch)

@[simp] theorem Board.setFrame_frame : (x.setFrame f y).frame f = y := by simp [Board.frame, Board.setFrame]

theorem Board.setFrame_frame_of_ne {g : Nat} (h : g ≠ f) : (x.setFrame f y).frame g = x.frame g := tget_tset_of_ne _ _ _ _ _ h

@[simp] theorem Board.setFrame_launches : (x.setFrame f y).launches = x.launches := rfl
@[simp] theorem Board.setFrame_hold : (x.setFrame f y).hold = x.hold := rfl
@[simp] theorem Board.setLaunch_frame : (x.setLaunch l).frame f = x.frame f := rfl
@[simp] theorem Board.setLaunch_hold : (x.setLaunch l).hold = x.hold := rfl

@[simp] theorem Board.setSlice_slice (e : Nat) (z : Slice) : (x.setSlice e z).slice e = z := by simp [Board.slice, Board.setSlice]

theorem Board.setSlice_slice_of_ne {e k : Nat} (z : Slice) (h : k ≠ e) : (x.setSlice e z).slice k = x.slice k :=
  tget_tset_of_ne _ _ _ _ _ h

end

theorem Board.SameUnits.frame {x y : Board} (h : x.SameUnits y) (f : Nat) : y.frame f = x.frame f := by
  rw [Board.frame, Board.frame, h.frames]

theorem Board.SameUnits.launchAt {x y : Board} (h : x.SameUnits y) (id : Nat) : y.launchAt id = x.launchAt id := by
  rw [Board.launchAt, Board.launchAt, h.launches]

theorem Board.SameUnits.slice {x y : Board} (h : x.SameUnits y) (e : Nat) : y.slice e = x.slice e := by
  rw [Board.slice, Board.slice, h.slices]

theorem Board.mem_of_launchAt {x : Board} {id : Nat} {l : Launch} (h : x.launchAt id = some l) : l ∈ x.launches ∧ l.id = id :=
  ⟨List.mem_of_find?_eq_some h, by simpa using List.find?_some h⟩

/-- A launch that is replaced stands under its number. -/
theorem Board.mem_setLaunch {x : Board} {k l : Launch} (h : k ∈ x.launches) (id : k.id = l.id) : l ∈ (x.setLaunch l).launches :=
  List.mem_map.2 ⟨k, h, if_pos id⟩

/-- Gates are a Frame's only field that gating changes, and Frames the Board's only field. -/
theorem regate_frames (x : Board) :
    regate x = { x with frames := (regate x).frames } ∧ ∀ f, ∃ g, (regate x).frame f = { x.frame f with gated := g } := by
  unfold regate
  refine List.foldlRecOn (motive := fun (y : Board) => y = { x with frames := y.frames } ∧ ∀ f, ∃ g, y.frame f = { x.frame f with gated := g })
    _ _ ⟨rfl, fun f => ⟨_, rfl⟩⟩ (fun y hy k _ => ?_)
  obtain ⟨hx, hf⟩ := hy
  split
  · exact ⟨hx, hf⟩
  · refine ⟨congrArg (Board.setFrame · k _) hx, fun f => ?_⟩
    obtain ⟨g, hg⟩ := hf f
    by_cases h : f = k
    · subst h
      exact ⟨_, by rw [Board.setFrame_frame, hg]⟩
    · exact ⟨g, by rw [Board.setFrame_frame_of_ne _ _ _ h, hg]⟩

section
variable (x : Board)

@[simp] theorem regate_hold : (regate x).hold = x.hold := by rw [(regate_frames x).1]
@[simp] theorem regate_launches : (regate x).launches = x.launches := by rw [(regate_frames x).1]
@[simp] theorem regate_slices : (regate x).slices = x.slices := by rw [(regate_frames x).1]
@[simp] theorem regate_tallyFor : (regate x).tallyFor = x.tallyFor := by rw [(regate_frames x).1]

@[simp] theorem regate_passes (f : Nat) : ((regate x).frame f).passes = (x.frame f).passes := by
  obtain ⟨g, h⟩ := (regate_frames x).2 f
  rw [h]

@[simp] theorem regate_drains (f : Nat) : ((regate x).frame f).drains = (x.frame f).drains := by
  obtain ⟨g, h⟩ := (regate_frames x).2 f
  rw [h]

end

/-! ### Halts (R150) -/

theorem haltBoard_haltsWith (b : Nat) (f : Flt) (s : State) : HaltsWith b f.code (haltBoard b f s) := by
  refine ⟨(haltBoard_frame b f s).2.1, { f with flags := f.flags ||| fHalted }, ?_, rfl⟩
  rw [haltBoard, State.modBoard_board]
  exact List.mem_append_right _ (List.mem_singleton_self _)

theorem haltAll_haltsWith (b : Nat) (f : Flt) (s : State) : HaltsWith b f.code (haltAll b f s) := by
  unfold haltAll
  dsimp only
  rw [HaltsWith, State.modBoard_board]
  exact haltBoard_haltsWith b f s

theorem haltWork_haltsWith (b : Nat) (w : Work) (f : Flt) (s : State) : HaltsWith b f.code (haltWork b w f s) := haltBoard_haltsWith ..

/-- An uncorrectable word halts its reader's Board with UE_MEM (R100). -/
theorem storeUe_haltsWith (b w reader : Nat) (s : State) : HaltsWith b 0x0401 (storeUe b w reader s) := haltAll_haltsWith ..

/-! ### Tiles that leave their drain buffers -/

section
variable (b f id tile : Nat) (s : State)

theorem forgetPass_frame (x : Board) : (x.forgetPass f id tile).frame f = { x.frame f with
    passes := (x.frame f).passes.filter (· != (id, tile))
    drains := (x.frame f).drains.filter (fun t => !(t.launch == id && t.tile == tile)) } := Board.setFrame_frame ..

/-- The tile that a Board forgets lies in no drain buffer of its Frame. -/
theorem forgetPass_drains (x : Board) {z : Tile} (h : z ∈ ((x.forgetPass f id tile).frame f).drains) :
    ¬ (z.launch = id ∧ z.tile = tile) := by
  rw [forgetPass_frame] at h
  rintro ⟨rfl, rfl⟩
  simp at h

theorem forgetPass_passes (x : Board) : (id, tile) ∉ ((x.forgetPass f id tile).frame f).passes := by
  rw [forgetPass_frame]
  simp

theorem dropTile_drains {z : Tile} (h : z ∈ (((dropTile b f id tile s).board b).frame f).drains) : ¬ (z.launch = id ∧ z.tile = tile) := by
  rw [dropTile, State.modBoard_board, regate_drains] at h
  exact forgetPass_drains f id tile (s.board b) h

theorem dropTile_hold (c : Nat) : ((dropTile b f id tile s).board c).hold = (s.board c).hold := by
  by_cases h : c = b
  · rw [h, dropTile, State.modBoard_board, regate_hold]
    rfl
  · rw [dropTile, State.modBoard_board_of_ne _ _ _ _ h]

end

theorem writtenOut_flows {b f : Nat} {l : Launch} {y : Tile} {s t : State} (h : WrittenOut b f l y s) (k : Flows s t) :
    WrittenOut b f l y t := by
  rw [WrittenOut, (k.boards b).frame f, (k.boards b).launches]
  exact h

/-- A tile of a launch that the Board has is written out: it leaves its drain buffer, and its launch counts it (R68). -/
theorem tileWritten_writtenOut {b f : Nat} {l : Launch} {s : State} (launched : ∃ k ∈ (s.board b).launches, k.id = l.id) (y : Tile) :
    WrittenOut b f l y (tileWritten b f l y s) := by
  obtain ⟨k, hk, id⟩ := launched
  unfold tileWritten
  dsimp only
  generalize hu : s.modBoard b _ = u
  have out : WrittenOut b f l y u := by
    rw [← hu, WrittenOut, State.modBoard_board]
    refine ⟨fun z hz => ?_, _, Board.mem_setLaunch (l := { l with written := y.tile :: l.written }) hk id, rfl, List.mem_cons_self ..⟩
    rw [Board.setLaunch_frame, Board.setFrame_frame] at hz
    rintro ⟨hl, ht⟩
    simp [hl, ht] at hz
  exact writtenOut_flows out (.ite (.refl u) (.ite (flows_bufferFull ..) (.refl u)))

/-- A tile whose link no store-out empties is written out without any memory moving. -/
theorem tileWritten_memories {b f : Nat} {l : Launch} {y : Tile} {s : State} (h : ((s.board b).link (dLink l.drain)).consumer ≠ 4) :
    (tileWritten b f l y s).store = s.store ∧ (tileWritten b f l y s).doms = s.doms ∧ (tileWritten b f l y s).dram = s.dram := by
  unfold tileWritten
  dsimp only
  generalize hu : s.modBoard b _ = u
  have link : ((u.board b).link (dLink l.drain)).consumer ≠ 4 := by
    rw [← hu, State.modBoard_board]
    exact h
  have memories : u.store = s.store ∧ u.doms = s.doms ∧ u.dram = s.dram := by
    rw [← hu]
    exact ⟨rfl, rfl, rfl⟩
  split
  · exact memories
  · split
    · have full := fun i => still_bufferFull link i
      exact ⟨(full _).store.trans memories.1, (full _).doms.trans memories.2.1, (full _).dram.trans memories.2.2⟩
    · exact memories

/-- Of a tile that goes into the Tally or to the Slate nothing is passed on. -/
theorem tileWritten_tally {b f : Nat} {l : Launch} (h : dTally l.drain = true) (y : Tile) (s : State) :
    tileWritten b f l y s = s.modBoard b (fun x => (x.setFrame f { x.frame f with
      drains := (x.frame f).drains.filter (fun d => !(d.launch == y.launch && d.tile == y.tile)) }).setLaunch
        { l with written := y.tile :: l.written }) := by
  unfold tileWritten
  simp [h]

/-! ### Drained tiles -/

theorem mem_drainedTiles {x : Board} {f : Nat} {l : Launch} {y : Tile} (h : (l, y) ∈ drainedTiles x f) :
    y ∈ (x.frame f).drains ∧ y.ok = true ∧ x.launchAt y.launch = some l := by
  obtain ⟨t, ht, hp⟩ := List.mem_filterMap.1 h
  split at hp
  · rename_i ok
    obtain ⟨k, hk, e⟩ := Option.map_eq_some_iff.1 hp
    cases e
    exact ⟨ht, ok, hk⟩
  · cases hp

/-- The launch of a drained tile is one of its Board's. -/
theorem drainedTiles_launched {x : Board} {f : Nat} {l : Launch} {y : Tile} (h : (l, y) ∈ drainedTiles x f) :
    ∃ k ∈ x.launches, k.id = l.id :=
  ⟨l, (Board.mem_of_launchAt (mem_drainedTiles h).2.2).1, rfl⟩

theorem drainedTile_mem {x : Board} {f : Nat} {ok : Launch → Bool} {l : Launch} {y : Tile} (h : drainedTile x f ok = some (l, y)) :
    (l, y) ∈ drainedTiles x f := List.mem_of_find?_eq_some h

/-! ### Results that are written, and counted once (R90) -/

theorem flows_writeBlock (b base : Nat) (f : Fmt) (place : Nat × Nat × Nat) (blk : Block) (s : State) :
    Flows s (writeBlock b base f place blk s) := by
  unfold writeBlock
  dsimp only
  split
  · exact (flows_boardWrite ..).after (flows_boardWrite ..)
  · exact flows_boardWrite ..

theorem flows_putOnce (b : Nat) (w : WatchAt) (key : Nat × Nat × Nat × Nat × Bool) (es : List (Nat × Nat × Nat)) (s : State) :
    Flows s (putOnce b w key es s) := by
  unfold putOnce
  exact .ite (.refl s) ((flows_watchPut ..).after (still_modBoard b _ s).toFlows)

theorem flows_storeTile (b : Nat) (l : Launch) (y : Tile) (s : State) : Flows s (storeTile b l y s) := by
  unfold storeTile
  exact (flows_putOnce ..).after (flows_forEach _ _ (fun _ _ => flows_writeBlock ..) s)

theorem flows_addTile (b : Nat) (l : Launch) (y : Tile) (s : State) : Flows s (addTile b l y s) := by
  unfold addTile
  exact (flows_putOnce ..).after (flows_forEach _ _ (fun _ _ => flows_writeBlock ..) s)

theorem still_endStreamHold (b : Nat) (s : State) : Still s (endStreamHold b s) := by
  unfold endStreamHold
  split
  · exact (still_touch ..).after (still_modBoard b _ s)
  · exact .refl s

end Sys2Proof.Machine
end

