-- ==== Sys2Proof/Proofs/SlateTraffic.lean ====
section
/-!
PROOFS. Proofs/SlateTraffic.lean: the Slate's queue leaves the Frames: its operands and results pass through the links of its Board.
-/
-- One proof after another: in parallel, behind the tests' long evaluations, they ask for too many threads' stacks.
set_option Elab.async false

namespace Sys2Proof.Machine

section
variable {b l n : Nat} {s t : State}

/-- The next place in a link is the one reached in its buffer, or the start of its next buffer. -/
theorem still_place {cur : Option (Nat × Nat)} {next : Option (Nat × State)} {c : Nat × Nat}
    (hn : ∀ {h u}, next = some (h, u) → Still s u)
    (place : (match cur with | some c => some (c, s) | none => next.map (fun (r : Nat × State) => ((r.1, 0), r.2))) = some (c, t)) :
    Still s t := by
  split at place
  · cases place
    exact .refl _
  · obtain ⟨r, hr, e⟩ := Option.map_eq_some_iff.1 place
    cases e
    exact hn hr

theorem still_takeUnits {size : Nat} {cur cur' : Option (Nat × Nat)} {as hs : List Nat}
    (taken : takeUnits b l size n cur s = some (as, hs, cur', t)) : Still s t := by
  induction n generalizing cur s as hs with
  | zero =>
    cases taken
    exact .refl _
  | succ n ih =>
    unfold takeUnits at taken
    split at taken
    · cases taken
    · rename_i place
      dsimp only at taken
      split at taken
      · cases taken
      · split at taken
        · cases taken
        · rename_i rest
          cases taken
          exact (still_place still_takeFull place).trans (ih rest)

theorem still_giveUnits {e size : Nat} {cur cur' : Option (Nat × Nat)} {as hs : List Nat}
    (given : giveUnits b l e size n cur s = some (as, hs, cur', t)) : Still s t := by
  induction n generalizing cur s as hs with
  | zero =>
    cases given
    exact .refl _
  | succ n ih =>
    unfold giveUnits at given
    split at given
    · cases given
    · rename_i place
      dsimp only at given
      split at given
      · cases given
      · split at given
        · cases given
        · rename_i rest
          cases given
          exact (still_place still_takeEmpty place).trans (ih rest)

theorem still_fetchBand {f : Fmt} {rows width : Nat} {cur : Option (Nat × Nat)} {r : Fetched}
    (fetched : fetchBand b l f rows width cur s = some (r, t)) : Still s t := by
  unfold fetchBand at fetched
  split at fetched
  · cases fetched
  · rename_i taken
    cases fetched
    exact still_takeUnits taken

theorem still_vecOperand {f : Fmt} {width : Nat} {v : List (W32 × Bool)} {hs : List Nat} {rd : List (Nat × Nat)}
    (read : vecOperand b l f width s = some (v, hs, rd, t)) : Still s t := by
  unfold vecOperand at read
  split at read
  · cases read
  · rename_i fetched
    cases read
    exact still_fetchBand fetched

end

section
variable {b : Nat} {s t : State} {i j : BandIn}

theorem still_bandA {o : SlateOp} (taken : bandA b o s = some (i, t)) : Still s t := by
  unfold bandA at taken
  split at taken
  · split at taken
    · cases taken
      exact .refl _
    · cases taken
  · split at taken
    · cases taken
    · rename_i fetched
      cases taken
      exact still_fetchBand fetched

theorem still_bandB (taken : bandB b i s = some (j, t)) : Still s t := by
  unfold bandB at taken
  dsimp only at taken
  split at taken
  · cases taken
    exact .refl _
  · split at taken
    · split at taken
      · cases taken
      · rename_i units
        cases taken
        exact still_takeUnits units
    · split at taken
      · split at taken
        · cases taken
          exact .refl _
        · split at taken
          · cases taken
          · rename_i read
            cases taken
            exact still_vecOperand read
      · split at taken
        · cases taken
        · rename_i fetched
          cases taken
          exact still_fetchBand fetched

theorem still_bandC (taken : bandC b i s = some (j, t)) : Still s t := by
  unfold bandC at taken
  dsimp only at taken
  split at taken
  · cases taken
    exact .refl _
  · split at taken
    · split at taken
      · cases taken
        exact .refl _
      · split at taken
        · cases taken
        · rename_i read
          cases taken
          exact still_vecOperand read
    · split at taken
      · cases taken
      · rename_i fetched
        cases taken
        exact still_fetchBand fetched

end

theorem flows_writeSquares (b : Nat) (f : Fmt) (sqs : List (List Block)) (addrs : List Nat) (s : State) :
    Flows s (writeSquares b f sqs addrs s) := flows_forEach _ _ (fun _ _ => flows_boardWrite ..) s

theorem flows_putBand (b l : Nat) (o : SlateOp) (tensor slot cls width : Nat) (rows : List (List W32)) (infs : List (List Bool))
    (addrs done : List Nat) (s : State) : Flows s (putBand b l o tensor slot cls width rows infs addrs done s) := by
  unfold putBand
  refine (flows_forEach _ _ (fun _ _ => flows_bufferFull ..) _).after ?_
  have counted : ∀ (sqs : List (List Block)) f n, Flows s (countEvent b 0x10 (some o.work.domain) none n (writeSquares b f sqs addrs s)) :=
    fun _ _ _ => (still_countEvent ..).toFlows.after (flows_writeSquares ..)
  split
  · exact counted ..
  · exact (flows_watchPut ..).after (counted ..)

theorem flows_putMask (b l : Nat) (bs : List Byte) (addrs done : List Nat) (s : State) : Flows s (putMask b l bs addrs done s) :=
  (flows_forEach _ _ (fun _ _ => flows_bufferFull ..) _).after (flows_forEach _ _ (fun _ _ => flows_boardWrite ..) s)

/-- A band passes through its links, and is written and counted. -/
theorem flows_slateBand {b : Nat} {o o' : SlateOp} {s t : State} (h : slateBand b o s = some (o', t)) : Flows s t := by
  unfold slateBand at h
  split at h
  · cases h
  rename_i hA
  split at h
  · cases h
  rename_i hB
  split at h
  · cases h
  rename_i hC
  dsimp only at h
  split at h
  · cases h
  rename_i hD
  split at h
  · cases h
  rename_i hE
  have taken := ((((still_bandA hA).trans (still_bandB hB)).trans (still_bandC hC)).trans (still_giveUnits hD)).trans (still_giveUnits hE)
  split at h
  · cases h
    exact (taken.trans (still_storeUe ..)).toFlows
  · cases h
    refine taken.toFlows.trans ?_
    refine (flows_forEach _ _ (fun _ _ => flows_freeBuf ..) _).after ?_
    refine Flows.trans ?_ (.ite (flows_putBand ..) (.ite (flows_putMask ..) (.refl _)))
    refine (flows_putBand ..).after ?_
    have served := fun (rd : List (Nat × Nat)) u =>
      (still_forEach rd (fun r s => storeServed b r.1 r.2 s) (fun _ _ => still_storeServed ..) u).toFlows
    split
    · exact served ..
    · exact (flows_watchCount ..).after (served ..)

theorem flows_slateEnd (b : Nat) (o : SlateOp) (s : State) : Flows s (slateEnd b o s) := by
  have full : ∀ l (c : Option (Nat × Nat)) s, Flows s (match c with | some c => bufferFull b l c.1 s | none => s) := fun l c s => by
    cases c
    · exact .refl s
    · exact flows_bufferFull ..
  have free : ∀ l (c : Option (Nat × Nat)) s, Flows s (match c with | some c => freeBuf b l c.1 s | none => s) := fun l c s => by
    cases c
    · exact .refl s
    · exact flows_freeBuf ..
  unfold slateEnd
  dsimp only
  refine (Still.after (still_settleWork ..) (.after (still_bump (by decide) ..) (.after (still_modBoard b _ _) (still_markBead ..)))).toFlows.after ?_
  refine (flows_forEach _ _ (fun _ _ => flows_freeBuf ..) _).after ?_
  exact (free ..).after ((free ..).after ((free ..).after ((full ..).after (full ..))))

theorem flows_slateRun (b n : Nat) (s : State) : Flows s (slateRun b n s) := by
  induction n generalizing s with
  | zero => exact .refl s
  | succ n ih =>
    unfold slateRun
    split
    · exact .refl s
    · split
      · exact .refl s
      · rename_i o _ o' u band
        refine (flows_slateBand band).trans ?_
        have marked : ∀ f, Flows u (if o'.band = 1 then markBead b o'.work.bundle f u else u) := fun _ =>
          .ite (still_markBead ..).toFlows (.refl u)
        refine .ite ((still_modBoard b _ _).toFlows.after (marked _)) (.ite ?_ ?_)
        · exact (ih _).after ((flows_slateEnd ..).after (marked _))
        · exact (ih _).after ((still_modBoard b _ _).toFlows.after (marked _))

end Sys2Proof.Machine
end

