-- ==== Sys2Proof/Proofs/TileWrites.lean ====
section
/-!
PROOFS. Proofs/TileWrites.lean: the writing of a tile: it depends on the stores, the domains, the job, the time and its Board's buffers
and counted keys alone, and moves no stack memory.
-/
-- One proof after another: in parallel, behind the tests' long evaluations, they ask for too many threads' stacks.
set_option Elab.async false

namespace Sys2Proof.Machine

/-! ### What a tile's write-out reads -/

/-- t agrees with s on what the writing of a tile on Board b reads: the stores, the domains, the job, the time, and the Board's buffers
and the keys of the results that it has counted. -/
structure SameSource (b : Nat) (s t : State) : Prop where
  store : t.store = s.store
  doms : t.doms = s.doms
  job : t.job = s.job
  time : t.time = s.time
  bufs : (t.board b).bufs = (s.board b).bufs
  seen : (t.board b).seen = (s.board b).seen

section
variable {b : Nat} {s t : State}

theorem SameSource.refl (b : Nat) (s : State) : SameSource b s s := ⟨rfl, rfl, rfl, rfl, rfl, rfl⟩

theorem SameSource.symm (h : SameSource b s t) : SameSource b t s :=
  ⟨h.store.symm, h.doms.symm, h.job.symm, h.time.symm, h.bufs.symm, h.seen.symm⟩

theorem SameSource.trans {r : State} (h : SameSource b r s) (k : SameSource b s t) : SameSource b r t :=
  ⟨k.store.trans h.store, k.doms.trans h.doms, k.job.trans h.job, k.time.trans h.time, k.bufs.trans h.bufs, k.seen.trans h.seen⟩

theorem SameSource.ite {c : Prop} [Decidable c] {u : State} (ht : SameSource b s t) (hu : SameSource b s u) :
    SameSource b s (if c then t else u) := by
  split
  · exact ht
  · exact hu

theorem sameSource_forEach {α : Type} (l : List α) (f : α → State → State) (h : ∀ a s, SameSource b s (f a s)) (s : State) :
    SameSource b s (forEach l f s) := by
  unfold forEach
  induction l generalizing s with
  | nil => exact .refl b s
  | cons a l ih => exact (h a s).trans (ih (f a s))

/-- An update of another field of a Board. -/
theorem sameSource_modBoard (c : Nat) (f : Board → Board) (s : State) (bufs : ∀ x, (f x).bufs = x.bufs := by exact fun _ => rfl)
    (seen : ∀ x, (f x).seen = x.seen := by exact fun _ => rfl) : SameSource b s (s.modBoard c f) := by
  by_cases h : b = c
  · exact h ▸ ⟨rfl, rfl, rfl, rfl, by rw [State.modBoard_board, bufs], by rw [State.modBoard_board, seen]⟩
  · exact ⟨rfl, rfl, rfl, rfl, by rw [State.modBoard_board_of_ne _ _ _ _ h], by rw [State.modBoard_board_of_ne _ _ _ _ h]⟩

theorem Reports.sameSource (h : Reports s t) : SameSource b s t := by
  unfold Reports at h
  rw [h]
  exact ⟨rfl, rfl, rfl, rfl, rfl, rfl⟩

end

section
variable {b : Nat}

theorem sameSource_countEvent (c ev : Nat) (d f : Option Nat) (n : Nat) (s : State) : SameSource b s (countEvent c ev d f n s) := by
  unfold countEvent
  refine .ite (.refl b s) (sameSource_forEach _ _ (fun k u => ?_) s)
  dsimp only
  split
  · split
    · exact (sameSource_modBoard c _ u).trans (reports_signal ..).sameSource
    · exact sameSource_modBoard c _ u
  · exact .refl b u

theorem sameSource_storeServed (c a n : Nat) (s : State) : SameSource b s (storeServed c a n s) := by
  have served := sameSource_countEvent (b := b) c 0x0D none none (accesses 256 a n) s
  unfold storeServed correctWords
  dsimp only
  split
  · exact served
  · refine (served.trans (sameSource_modBoard c _ _)).trans (sameSource_forEach _ _ (fun w u => ?_) _)
    exact (reports_bump .storeCorrected c u).sameSource.trans (sameSource_modBoard c _ _)

theorem sameSource_endStreamHold (c : Nat) (s : State) : SameSource b s (endStreamHold c s) := by
  unfold endStreamHold touch
  split
  · exact (sameSource_modBoard c _ s).trans (sameSource_modBoard c _ _)
  · exact .refl b s

theorem sameSource_watchSlot (w : WatchAt) (n : Nat × Nat × Nat) (s : State) : SameSource b s (watchSlot w n s) :=
  .ite (.refl b s) (sameSource_modBoard _ _ s)

end

/-! ### The same writes from the same source -/

section
variable {b : Nat} {s t : State}

theorem SameSource.forEach {α : Type} {f : α → State → State} (hf : ∀ a {s t}, SameSource b s t → SameSource b (f a s) (f a t))
    (l : List α) (h : SameSource b s t) : SameSource b (forEach l f s) (forEach l f t) := by
  unfold Machine.forEach
  induction l generalizing s t with
  | nil => exact h
  | cons a l ih => exact ih (hf a h)

theorem SameSource.boardWrite (h : SameSource b s t) (c a : Nat) (bs : List Byte) :
    SameSource b (boardWrite c a bs s) (boardWrite c a bs t) := by
  have put : SameSource b (s.storeWrite c a bs) (t.storeWrite c a bs) :=
    ⟨congrArg (Mem.write · _ bs) h.store, h.doms, h.job, h.time, h.bufs, h.seen⟩
  have clear : ∀ u : State, SameSource b (u.storeWrite c a bs) (Machine.boardWrite c a bs u) := fun u =>
    (sameSource_modBoard c _ _).trans (sameSource_countEvent ..)
  exact ((clear s).symm.trans put).trans (clear t)

theorem SameSource.modDom (h : SameSource b s t) (d : Nat) (f : Dom → Dom) : SameSource b (s.modDom d f) (t.modDom d f) := by
  refine ⟨h.store, ?_, h.job, h.time, h.bufs, h.seen⟩
  simp only [State.modDom, State.setDom, State.dom, h.doms]

theorem SameSource.watchMark (h : SameSource b s t) (w : WatchAt) (kind : Nat) : SameSource b (watchMark w kind s) (watchMark w kind t) := by
  have lb : w.lb t = w.lb s := by rw [WatchAt.lb, WatchAt.lb, State.logicalOf, State.logicalOf, h.job]
  have now : t.now = s.now := by rw [State.now, State.now, h.time]
  unfold Machine.watchMark firstInfo
  rw [lb, now]
  exact h.modDom ..

theorem SameSource.watchCount (h : SameSource b s t) (w : WatchAt) (codes : List Nat) :
    SameSource b (watchCount w codes s) (watchCount w codes t) := by
  have counted : SameSource b (watchCounted w codes s) (watchCounted w codes t) :=
    ((sameSource_watchSlot ..).symm.trans (h.modDom ..)).trans (sameSource_watchSlot ..)
  unfold Machine.watchCount
  dsimp only
  split
  · split
    · exact counted
    · exact counted.watchMark ..
  · exact counted

theorem SameSource.watchPut (h : SameSource b s t) (w : WatchAt) (es : List (Nat × Nat × Nat)) :
    SameSource b (watchPut w es s) (watchPut w es t) := by
  unfold Machine.watchPut lossAdd
  split
  · exact h.watchCount ..
  · exact (h.watchCount ..).modDom ..

theorem SameSource.putOnce (h : SameSource b s t) (w : WatchAt) (key : Nat × Nat × Nat × Nat × Bool) (es : List (Nat × Nat × Nat)) :
    SameSource b (putOnce b w key es s) (putOnce b w key es t) := by
  unfold Machine.putOnce
  rw [h.seen]
  split
  · exact h
  · refine SameSource.watchPut (b := b) ?_ w es
    refine ⟨h.store, h.doms, h.job, h.time, ?_, ?_⟩
    · simpa using h.bufs
    · simpa using h.seen

theorem SameSource.writeBlock (h : SameSource b s t) (base : Nat) (f : Fmt) (place : Nat × Nat × Nat) (blk : Block) :
    SameSource b (writeBlock b base f place blk s) (writeBlock b base f place blk t) := by
  unfold Machine.writeBlock
  dsimp only
  split
  · exact (h.boardWrite ..).boardWrite ..
  · exact h.boardWrite ..

theorem SameSource.buf (h : SameSource b s t) (i : Nat) : (t.board b).buf i = (s.board b).buf i := by
  rw [Board.buf, Board.buf, h.bufs]

theorem SameSource.storeTile (h : SameSource b s t) (l : Launch) (y : Tile) : SameSource b (storeTile b l y s) (storeTile b l y t) := by
  have key : drainKey t b l y.tile = drainKey s b l y.tile := by rw [drainKey, drainKey, State.logicalOf, State.logicalOf, h.job]
  unfold Machine.storeTile
  simp -zeta only [key, h.buf]
  extract_lets fold C f tpb base key done u out v
  have written : SameSource b u v := by
    refine SameSource.forEach (fun d s t k => ?_) done h
    exact k.writeBlock ..
  clear_value u v out
  exact written.putOnce ..

theorem SameSource.addTile (h : SameSource b s t) (l : Launch) (y : Tile) : SameSource b (addTile b l y s) (addTile b l y t) := by
  have read : ∀ a n, t.storeRead b a n = s.storeRead b a n := fun a n => by rw [State.storeRead, State.storeRead, h.store]
  unfold Machine.addTile
  simp -zeta only [read, h.buf]
  extract_lets fold C tpb base done u out v
  have written : SameSource b u v := by
    refine SameSource.forEach (fun d s t k => ?_) done h
    exact k.writeBlock ..
  clear_value u v out
  exact written.putOnce ..

end

/-! ### Stack memory -/

theorem forEach_dram {α : Type} {f : α → State → State} (h : ∀ a s, (f a s).dram = s.dram) (l : List α) (s : State) :
    (forEach l f s).dram = s.dram := by
  unfold forEach
  induction l generalizing s with
  | nil => rfl
  | cons a l ih => exact (ih (f a s)).trans (h a s)

theorem boardWrite_dram (b a : Nat) (bs : List Byte) (s : State) : (boardWrite b a bs s).dram = s.dram := by rw [boardWrite_frame]

theorem writeBlock_dram (b base : Nat) (f : Fmt) (place : Nat × Nat × Nat) (blk : Block) (s : State) :
    (writeBlock b base f place blk s).dram = s.dram := by
  unfold writeBlock
  dsimp only
  split <;> simp only [boardWrite_dram]

/-- A watch point changes domains and Boards alone. -/
theorem watchPut_frame (w : WatchAt) (es : List (Nat × Nat × Nat)) (s : State) :
    watchPut w es s = { s with doms := (watchPut w es s).doms, boards := (watchPut w es s).boards } := by
  unfold watchPut lossAdd
  rw [watchCount_frame]
  split <;> rfl

theorem putOnce_dram (b : Nat) (w : WatchAt) (key : Nat × Nat × Nat × Nat × Bool) (es : List (Nat × Nat × Nat)) (s : State) :
    (putOnce b w key es s).dram = s.dram := by
  unfold putOnce
  split
  · rfl
  · rw [watchPut_frame]
    rfl

theorem storeTile_dram (b : Nat) (l : Launch) (y : Tile) (s : State) : (storeTile b l y s).dram = s.dram :=
  (putOnce_dram ..).trans (forEach_dram (fun _ _ => writeBlock_dram ..) _ s)

theorem addTile_dram (b : Nat) (l : Launch) (y : Tile) (s : State) : (addTile b l y s).dram = s.dram :=
  (putOnce_dram ..).trans (forEach_dram (fun _ _ => writeBlock_dram ..) _ s)

end Sys2Proof.Machine
end

