-- ==== Sys2Proof/Proofs/WriteOuts.lean ====
section
/-!
PROOFS. Proofs/WriteOuts.lean: the statement on write-outs, hand-overs and contributions, each command from the rules of its parts.
-/
-- One proof after another: in parallel, behind the tests' long evaluations, they ask for too many threads' stacks.
set_option Elab.async false

namespace Sys2Proof.Machine

/-! ### Write-outs into the destination link (R68, R69, R117) -/

/-- What a write-out does with its tile: STORE mode or ADD mode. -/
def writeTile (mode b : Nat) (l : Launch) (y : Tile) (s : State) : State := if mode = 0 then storeTile b l y s else addTile b l y s

section
variable (mode : Nat) {b : Nat} (l : Launch) (y : Tile) {s t : State}

theorem flows_writeTile (s : State) : Flows s (writeTile mode b l y s) := .ite (flows_storeTile ..) (flows_addTile ..)

theorem SameSource.writeTile (h : SameSource b s t) : SameSource b (writeTile mode b l y s) (writeTile mode b l y t) := by
  unfold Machine.writeTile
  split
  · exact h.storeTile l y
  · exact h.addTile l y

theorem writeTile_dram (s : State) : (writeTile mode b l y s).dram = s.dram := by
  unfold writeTile
  split
  · exact storeTile_dram ..
  · exact addTile_dram ..

end

theorem exec_writeOut (mode : Fin 2) (b : BoardNo) (f : FrameNo) (s : State) :
    exec (if mode.val = 0 then .storeWriteOut b f else .drainAdd b f) s
      = writeOut b.val f.val mode.val (0x11 + mode.val) (writeTile mode.val) s :=
  match mode with
  | 0 => rfl
  | 1 => rfl

theorem boardBad_congr {b : Nat} {s t : State} (h : (t.board b).storeBad = (s.board b).storeBad) (a n : Nat) :
    boardBad t b a n = boardBad s b a n := by rw [boardBad, boardBad, h]

theorem endStreamHold_storeBad (b : Nat) (s : State) : ((endStreamHold b s).board b).storeBad = (s.board b).storeBad := by
  unfold endStreamHold touch
  split <;> simp

section
variable {b f mode event : Nat} {write : Nat → Launch → Tile → State → State} {s : State}

theorem writeOut_none (h : drainedTile (s.board b) f (fun l => dMode l.drain == mode && !dTally l.drain) = none) :
    writeOut b f mode event write s = .next s := by
  unfold writeOut
  rw [h]

theorem writeOut_held (h : writeMay (s.board b) f = false) : writeOut b f mode event write s = .next s := by
  unfold writeOut
  split
  · rfl
  · rw [h]
    rfl

variable {l : Launch} {y : Tile} (drained : drainedTile (s.board b) f (fun l => dMode l.drain == mode && !dTally l.drain) = some (l, y))
  (may : writeMay (s.board b) f = true)

include drained may

theorem writeOut_waits
    (taken : takeDst b (dLink l.drain) l.work.epoch (y.tile / max 1 (dTilesPerBuf l.drain)) 64 l.dstBufs s = none) :
    writeOut b f mode event write s = .next (beginStreamHold b { frame := f, launch := l.id, write := true } s) := by
  unfold writeOut
  simp [drained, may, taken]

variable {ds : Tbl Nat} {u : State}
  (taken : takeDst b (dLink l.drain) l.work.epoch (y.tile / max 1 (dTilesPerBuf l.drain)) 64 l.dstBufs s = some (ds, u))

include taken

/-- With its buffer at hand a tile is written in a state that differs from that after the taking in the launch's buffers, the hold and
counts, and leaves its drain buffer. -/
theorem writeOut_writes (fine : mode = 0 ∨ (let z := (u.board b).buf (tget ds (y.tile / max 1 (dTilesPerBuf l.drain)) spent)
      boardBad u b (z.base * 256) (z.size * 256) = none)) :
    ∃ v, writeOut b f mode event write s = .next (tileWritten b f { l with dstBufs := ds } y (write b { l with dstBufs := ds } y v))
      ∧ Still (u.modBoard b (fun x => x.setLaunch { l with dstBufs := ds })) v ∧ SameSource b u v := by
  have set : SameSource b u (u.modBoard b (fun x => x.setLaunch { l with dstBufs := ds })) := sameSource_modBoard b _ u
  have ended := set.trans (sameSource_endStreamHold b _)
  have good : (if mode = 1 then
      boardBad (endStreamHold b (u.modBoard b (fun x => x.setLaunch { l with dstBufs := ds }))) b
        (((u.board b).buf (tget ds (y.tile / max 1 (dTilesPerBuf l.drain)) spent)).base * 256)
        (((u.board b).buf (tget ds (y.tile / max 1 (dTilesPerBuf l.drain)) spent)).size * 256)
      else none) = none := by
    rw [boardBad_congr (s := u) (by rw [endStreamHold_storeBad, State.modBoard_board]; rfl)]
    rcases fine with rfl | fine
    · rfl
    · rw [fine, ite_self]
  unfold writeOut
  simp only [drained, may, taken, ended.buf, good]
  refine ⟨_, rfl, (still_countEvent ..).after (Still.trans (still_endStreamHold ..) (.ite (still_storeServed ..) (.refl _))), ?_⟩
  exact (ended.trans (.ite (sameSource_storeServed ..) (.refl b _))).trans (sameSource_countEvent ..)

/-- A destination square with an uncorrectable word halts the Board; its tile is dropped. -/
theorem writeOut_bad {w : Nat} (added : mode = 1)
    (bad : (let z := (u.board b).buf (tget ds (y.tile / max 1 (dTilesPerBuf l.drain)) spent)
      boardBad u b (z.base * 256) (z.size * 256) = some w)) :
    ∃ v, writeOut b f mode event write s = .next (storeUe b w 1 (dropTile b f y.launch y.tile v)) ∧ v.store = u.store := by
  subst added
  have set : SameSource b u (u.modBoard b (fun x => x.setLaunch { l with dstBufs := ds })) := sameSource_modBoard b _ u
  have ended := set.trans (sameSource_endStreamHold b _)
  have found := boardBad_congr (b := b) (s := u)
    (t := endStreamHold b (u.modBoard b (fun x => x.setLaunch { l with dstBufs := ds })))
    (by rw [endStreamHold_storeBad, State.modBoard_board]; rfl)
  unfold writeOut
  simp only [drained, may, taken, ended.buf, found, bad]
  exact ⟨_, rfl, ended.store⟩

end

/-- A tile that is written out is stored or added as from the state after the taking of its buffer, unless a store-out empties its link. -/
theorem writeOut_done {b f mode event : Nat} {s : State} {l : Launch} {y : Tile}
    (drained : drainedTile (s.board b) f (fun l => dMode l.drain == mode && !dTally l.drain) = some (l, y))
    (may : writeMay (s.board b) f = true) {ds : Tbl Nat} {u : State}
    (taken : takeDst b (dLink l.drain) l.work.epoch (y.tile / max 1 (dTilesPerBuf l.drain)) 64 l.dstBufs s = some (ds, u))
    (fine : mode = 0 ∨ (let z := (u.board b).buf (tget ds (y.tile / max 1 (dTilesPerBuf l.drain)) spent)
      boardBad u b (z.base * 256) (z.size * 256) = none)) :
    ∃ t, writeOut b f mode event (writeTile mode) s = .next t ∧ WrittenOut b f l y t
      ∧ (let w := writeTile mode b { l with dstBufs := ds } y u
        ((s.board b).link (dLink l.drain)).consumer ≠ 4 → t.store = w.store ∧ t.doms = w.doms ∧ t.dram = s.dram) := by
  obtain ⟨v, hv, still, same⟩ := writeOut_writes (event := event) (write := writeTile mode) drained may taken fine
  have took := still_takeDst taken
  have wrote := flows_writeTile mode (b := b) { l with dstBufs := ds } y v
  refine ⟨_, hv, ?_, fun consumer => ?_⟩
  · obtain ⟨k, hk, id⟩ := drainedTiles_launched (drainedTile_mem drained)
    refine tileWritten_writtenOut (l := { l with dstBufs := ds }) ⟨{ l with dstBufs := ds }, ?_, rfl⟩ y
    rw [(wrote.boards b).launches, (still.boards b).launches, State.modBoard_board]
    exact Board.mem_setLaunch ((took.boards b).launches ▸ hk) id
  · have link : (((writeTile mode b { l with dstBufs := ds } y v).board b).link (dLink l.drain)).consumer ≠ 4 := by
      rw [(wrote.boards b).consumer, (still.boards b).consumer, State.modBoard_board]
      exact fun h => consumer (((took.boards b).consumer _).symm.trans h)
    obtain ⟨store, doms, dram⟩ := tileWritten_memories (f := f) (l := { l with dstBufs := ds }) (y := y) link
    have source := same.writeTile mode { l with dstBufs := ds } y
    refine ⟨store.trans source.store, doms.trans source.doms, dram.trans ?_⟩
    rw [writeTile_dram, still.dram]
    exact took.dram

/-! ### Hand-overs to the Slate (R68, R141) -/

/-- A hold of another kind than the Tally's: neither hand-overs nor contributions go on (R72, R117, R315). -/
theorem stands_iff (x : Board) : (!x.hold.isEmpty || x.streamHold.isSome || x.dutyHold) = true
    ↔ x.hold ≠ [] ∨ x.streamHold ≠ none ∨ x.dutyHold = true := by
  simp [Option.isSome_iff_ne_none, or_assoc]

theorem stands_false {x : Board} (hold : x.hold = []) (stream : x.streamHold = none) (duty : x.dutyHold = false) :
    (!x.hold.isEmpty || x.streamHold.isSome || x.dutyHold) = false := by
  simp [hold, stream, duty]

section
variable {b : BoardNo} {f : FrameNo} {s : State}

theorem exec_slateHandoff_stands (h : drainedTile (s.board b.val) f.val (fun l => dMode l.drain == 2) = none ∨ (s.board b.val).hold ≠ []
    ∨ (s.board b.val).streamHold ≠ none ∨ (s.board b.val).dutyHold = true) : exec (.slateHandoff b f) s = .next s := by
  show execSlateHandoff b f s = _
  unfold execSlateHandoff
  dsimp only
  split
  · rfl
  · rename_i drained
    rcases h with none | stands
    · rw [none] at drained
      cases drained
    · exact if_pos ((stands_iff _).2 stands)

variable {l : Launch} {y : Tile} (drained : drainedTile (s.board b.val) f.val (fun l => dMode l.drain == 2) = some (l, y))
  (goes : (!(s.board b.val).hold.isEmpty || (s.board b.val).streamHold.isSome || (s.board b.val).dutyHold) = false)

include drained goes

theorem exec_slateHandoff_dropped
    (alone : (s.board b.val).slates.find? (fun o => o.work.bundle == l.work.bundle && sADrain o.grp) = none) :
    exec (.slateHandoff b f) s = .next (dropTile b.val f.val y.launch y.tile s) := by
  show execSlateHandoff b f s = _
  unfold execSlateHandoff
  simp [drained, goes, alone]

theorem exec_slateHandoff_handed {o : SlateOp}
    (found : (s.board b.val).slates.find? (fun o => o.work.bundle == l.work.bundle && sADrain o.grp) = some o) :
    ∃ t, exec (.slateHandoff b f) s = .next t ∧ WrittenOut b.val f.val l y t := by
  show ∃ t, execSlateHandoff b f s = .next t ∧ _
  unfold execSlateHandoff
  simp only [drained, goes, found]
  refine ⟨_, rfl, writtenOut_flows (tileWritten_writtenOut ?_ y) (flows_slateRun ..)⟩
  rw [((still_countEvent ..).boards b.val).launches, State.modBoard_board]
  exact (drainedTiles_launched (drainedTile_mem drained) : ∃ k ∈ (s.board b.val).launches, k.id = l.id)

end

/-! ### Contributions to slices (R92 to R96) -/

theorem stored_write (m : Mem) (a : Nat) (bs : List Byte) : Stored m (m.write a bs) a bs := by
  refine ⟨fun i hi => ?_, fun x hx => ?_⟩
  · rw [Mem.get_write, if_pos (by omega), Nat.add_sub_cancel_left]
    rfl
  · rw [Mem.get_write, if_neg (by omega)]

theorem sliceGoesOn_refl (z : Slice) : SliceGoesOn z z := .inl rfl

/-- A read-out begins with a COMPLETE slice, and changes no other (R96). -/
theorem beginReadout_goesOn (b : Nat) (s : State) (k : Nat) : SliceGoesOn ((s.board b).slice k) (((beginReadout b s).board b).slice k) := by
  unfold beginReadout
  split
  · exact sliceGoesOn_refl _
  · rename_i j _ _
    dsimp only
    split
    · exact sliceGoesOn_refl _
    · rename_i ready
      rw [State.modBoard_board]
      by_cases h : k = j.first + j.read
      · subst h
        rw [Board.setSlice_slice]
        exact .inr ⟨by simp at ready; exact ready.2, rfl⟩
      · rw [Board.setSlice_slice_of_ne _ _ h]
        exact sliceGoesOn_refl _

/-- The start of a read-out changes slices alone. -/
theorem beginReadout_frame (b : Nat) (s : State) :
    beginReadout b s = { s with boards := (beginReadout b s).boards }
      ∧ ((beginReadout b s).board b).frames = (s.board b).frames ∧ ((beginReadout b s).board b).launches = (s.board b).launches := by
  unfold beginReadout
  split
  · exact ⟨rfl, rfl, rfl⟩
  · dsimp only
    split
    · exact ⟨rfl, rfl, rfl⟩
    · simp only [State.modBoard_board]
      exact ⟨rfl, rfl, rfl⟩

theorem still_endTallyHold (b : Nat) (s : State) : Still s (endTallyHold b s) := by
  unfold endTallyHold
  dsimp only
  have left := still_modBoard b (fun x => { x with tallyFor := x.tallyLeft }) s
  split
  · exact .refl s
  · split
    · exact left
    · exact (still_touch ..).after left

/-- A contribution's tile leaves its drain buffer; of the slices only the read-out's may change. -/
theorem contribution_ends {b f : Nat} {l : Launch} {u : State} (launched : ∃ k ∈ (u.board b).launches, k.id = l.id)
    (tally : dTally l.drain = true) (y : Tile) :
    let t := beginReadout b (endTallyHold b (tileWritten b f l y u))
    WrittenOut b f l y t ∧ t.store = u.store ∧ ∀ k, SliceGoesOn ((u.board b).slice k) ((t.board b).slice k) := by
  have ended := still_endTallyHold b (tileWritten b f l y u)
  have out := writtenOut_flows (tileWritten_writtenOut (f := f) launched y) ended.toFlows
  obtain ⟨frame, frames, launches⟩ := beginReadout_frame b (endTallyHold b (tileWritten b f l y u))
  refine ⟨?_, ?_, fun k => ?_⟩
  · rw [WrittenOut, Board.frame, frames, launches]
    exact out
  · rw [frame]
    exact ended.store.trans (by rw [tileWritten_tally tally]; rfl)
  · have kept : ((endTallyHold b (tileWritten b f l y u)).board b).slice k = (u.board b).slice k := by
      rw [(ended.boards b).slice, tileWritten_tally tally, State.modBoard_board]
      rfl
    rw [← kept]
    exact beginReadout_goesOn b _ k

/-- Once a contribution's words are stored its slice's key moves on, and its results are counted. -/
theorem contribution_lands {b f e : Nat} {l : Launch} {y : Tile} {s v : State} (mem : (l, y) ∈ drainedTiles (s.board b) f)
    (tally : dTally l.drain = true) (wrote : Flows s v) (z : Slice) (w : WatchAt) (es : List (Nat × Nat × Nat)) (ev n : Nat)
    (d g : Option Nat) :
    let t := beginReadout b (endTallyHold b (tileWritten b f l y
      (countEvent b ev d g n (watchPut w es (v.modBoard b (fun x => x.setSlice e z))))))
    WrittenOut b f l y t ∧ t.store = v.store ∧ SliceGoesOn z ((t.board b).slice e)
      ∧ ∀ k, k ≠ e → SliceGoesOn ((s.board b).slice k) ((t.board b).slice k) := by
  have store : (countEvent b ev d g n (watchPut w es (v.modBoard b (fun x => x.setSlice e z)))).store = v.store := by
    rw [(still_countEvent ..).store, watchPut_frame]
    rfl
  have units := ((still_countEvent b ev d g n _).toFlows.after (flows_watchPut w es (v.modBoard b (fun x => x.setSlice e z)))).boards b
  rw [State.modBoard_board] at units
  obtain ⟨out, kept, goesOn⟩ := contribution_ends (f := f)
    (by rw [units.launches]; exact (wrote.boards b).launches ▸ drainedTiles_launched mem) tally y
  simp only [units.slice] at goesOn
  refine ⟨out, kept.trans store, ?_, fun k hk => ?_⟩
  · exact (congrArg (SliceGoesOn · _) (Board.setSlice_slice ..)).mp (goesOn e)
  · exact (congrArg (SliceGoesOn · _) ((Board.setSlice_slice_of_ne _ z hk).trans ((wrote.boards b).slice k))).mp (goesOn k)

section
variable {b : BoardNo} {f : FrameNo} {s : State}

theorem exec_tallyContribution_stands (h : contribTile (s.board b.val) f.val = none ∨ (s.board b.val).hold ≠ []
    ∨ (s.board b.val).streamHold ≠ none ∨ (s.board b.val).dutyHold = true) : exec (.tallyContribution b f) s = .next s := by
  show execTallyContribution b f s = _
  unfold execTallyContribution
  dsimp only
  split
  · rfl
  · rename_i tried
    rcases h with none | stands
    · rw [none] at tried
      cases tried
    · exact if_pos ((stands_iff _).2 stands)

variable {l : Launch} {y : Tile} (tried : contribTile (s.board b.val) f.val = some (l, y))
  (goes : (!(s.board b.val).hold.isEmpty || (s.board b.val).streamHold.isSome || (s.board b.val).dutyHold) = false)

include tried goes

theorem exec_tallyContribution_waits (next : contribMay (s.board b.val) l y = false) :
    exec (.tallyContribution b f) s = .next (contribWait b.val f.val y s) := by
  show execTallyContribution b f s = _
  unfold execTallyContribution
  simp [tried, goes, next]

theorem exec_tallyContribution_bad {w : Nat} (next : contribMay (s.board b.val) l y = true) (first : (contribKey l == (0, 0, 0)) = false)
    (bad : boardBad s b.val (spaceAddr ((s.board b.val).slice (sliceNo l y))) 32768 = some w) :
    ∃ t, exec (.tallyContribution b f) s = .next t ∧ HaltsWith b.val 0x0401 t ∧ t.store = s.store := by
  show ∃ t, execTallyContribution b f s = .next t ∧ _
  unfold execTallyContribution
  simp only [tried, goes, next, first, bad]
  exact ⟨_, rfl, storeUe_haltsWith .., ((still_storeUe ..).after (still_endTallyHold ..)).store⟩

omit goes in
theorem contribTile_mem : (l, y) ∈ drainedTiles (s.board b.val) f.val ∧ isContrib l = true := by
  have mem : (l, y) ∈ (drainedTiles (s.board b.val) f.val).filter (fun p => isContrib p.1) := by
    rcases (Option.orElse_eq_some _ _ _).1 tried with found | ⟨-, found⟩ <;> exact List.mem_of_find?_eq_some found
  exact List.mem_filter.1 mem

/-- The next contribution is added to its slice's space, one rounding for each element, and moves the slice's key on. -/
theorem exec_tallyContribution_adds (next : contribMay (s.board b.val) l y = true) (fine : (contribKey l == (0, 0, 0)) = true
      ∨ boardBad s b.val (spaceAddr ((s.board b.val).slice (sliceNo l y))) 32768 = none) :
    let e := sliceNo l y
    let z := (s.board b.val).slice e
    let ws := contribWords (contribKey l == (0, 0, 0)) (readSpace s b.val z) y.values
    ∃ t, exec (.tallyContribution b f) s = .next t ∧ WrittenOut b.val f.val l y t
      ∧ Stored s.store t.store (storeKey b.val (spaceAddr z)) (ws.flatMap (fun w => leBytes 4 w.1.toNat))
      ∧ SliceGoesOn (z.advance l.work.tag) ((t.board b.val).slice e)
      ∧ ∀ k, k ≠ e → SliceGoesOn ((s.board b.val).slice k) ((t.board b.val).slice k) := by
  intro e z ws
  obtain ⟨mem, contrib⟩ := contribTile_mem tried
  have tally : dTally l.drain = true := by
    rw [isContrib, Bool.and_eq_true] at contrib
    exact contrib.2
  have good : (if contribKey l == (0, 0, 0) then none else boardBad s b.val (spaceAddr z) 32768) = none := by
    rcases fine with first | fine
    · rw [first]
      rfl
    · exact (congrArg _ fine).trans (ite_self _)
  show ∃ t, execTallyContribution b f s = .next t ∧ _
  unfold execTallyContribution
  simp only [tried, goes, next, good, z, e]
  have served : Still s (if (contribKey l == (0, 0, 0)) = true then s else storeServed b.val (spaceAddr z) 32768 s) :=
    .ite (.refl s) (still_storeServed ..)
  obtain ⟨out, store, own, others⟩ := contribution_lands (e := e) mem tally
    ((flows_boardWrite b.val (spaceAddr z) (ws.flatMap (fun w => leBytes 4 w.1.toNat)) _).after served.toFlows) (z.advance l.work.tag)
    { drainWatch b.val l 2 with tensor := z.tensor, cls := 2 } (ws.zipIdx.map (fun (v, i) => (i, v.1.toNat, watchCode (decFp32 v.1) v.2)))
    0x12 256 (some l.work.domain) (some f.val)
  refine ⟨_, rfl, out, ?_, own, others⟩
  rw [boardWrite_store, served.store] at store
  exact (congrArg (Stored s.store · _ _) store).mpr (stored_write ..)

end

/-! ### Tally holds (R95) -/

section
variable {b : BoardNo} {f : FrameNo} {s : State}

theorem exec_tallyHold_stands (h : (drainedTiles (s.board b.val) f.val).find? (fun p => isContrib p.1 && p.2.buf == ((s.board b.val).frame f.val).sel)
      = none ∨ ((s.board b.val).frame f.val).passes = [] ∨ (s.board b.val).hold ≠ [] ∨ (s.board b.val).streamHold ≠ none
      ∨ (s.board b.val).dutyHold = true) : exec (.tallyHold b f) s = .next s := by
  show execTallyHold b f s = _
  unfold execTallyHold
  dsimp only
  split
  · rfl
  · rename_i inWay
    refine if_pos ?_
    rcases h with none | idle | held | stream | duty
    · rw [none] at inWay
      cases inWay
    · simp [idle]
    · simp [held]
    · simp [Option.isSome_iff_ne_none, stream]
    · simp [duty]

variable {l : Launch} {y : Tile}
  (inWay : (drainedTiles (s.board b.val) f.val).find? (fun p => isContrib p.1 && p.2.buf == ((s.board b.val).frame f.val).sel) = some (l, y))

include inWay

theorem exec_tallyHold_later (h : y.waited = false ∨ contribMay (s.board b.val) l y = true ∨ (y.launch, y.tile) ∈ (s.board b.val).tallyFor) :
    exec (.tallyHold b f) s = .next s := by
  show execTallyHold b f s = _
  unfold execTallyHold
  simp only [inWay]
  refine if_pos ?_
  rcases h with fresh | next | held
  · simp [fresh]
  · simp [next]
  · simp [held]

variable (passes : ((s.board b.val).frame f.val).passes ≠ []) (hold : (s.board b.val).hold = []) (stream : (s.board b.val).streamHold = none)
  (duty : (s.board b.val).dutyHold = false) (waits : y.waited = true) (late : contribMay (s.board b.val) l y = false)
  (new : (y.launch, y.tile) ∉ (s.board b.val).tallyFor)

include passes hold stream duty waits late new

/-- The wait of a contribution whose predecessor lies in a drain buffer holds its Board, or joins the hold. -/
theorem exec_tallyHold_holds (awaited : awaitedVerdicted (s.board b.val) (sliceNo l y) = true) :
    ∃ u, exec (.tallyHold b f) s = .next u ∧ (u.board b.val).tallyFor = (s.board b.val).tallyFor ++ [(y.launch, y.tile)]
      ∧ (u.board b.val).tallyHold = true
      ∧ u.rd .tallyHolds b.val = (if (s.board b.val).tallyHold then s.rd .tallyHolds b.val else satAdd 32 (s.rd .tallyHolds b.val) 1)
      ∧ u.store = s.store := by
  show ∃ u, execTallyHold b f s = .next u ∧ _
  unfold execTallyHold
  simp only [inWay]
  rw [if_neg (by simp [passes, hold, stream, duty, waits, late, new]), if_pos awaited]
  refine ⟨_, rfl, ?_⟩
  cases (s.board b.val).tallyHold with
  | true => exact ⟨by simp, by simp [Board.tallyHold], rfl, rfl⟩
  | false => exact ⟨by simp [touch], by simp [touch, Board.tallyHold], State.wr_rd .., rfl⟩

/-- A contribution that waits for one that no drain buffer holds waits for ever: it is dropped, and the Board halts. -/
theorem exec_tallyHold_never (awaited : awaitedVerdicted (s.board b.val) (sliceNo l y) = false) :
    ∃ u, exec (.tallyHold b f) s = .next u ∧ HaltsWith b.val 0x0105 u
      ∧ (∀ z ∈ ((u.board b.val).frame f.val).drains, ¬ (z.launch = y.launch ∧ z.tile = y.tile)) ∧ u.store = s.store := by
  show ∃ u, execTallyHold b f s = .next u ∧ _
  unfold execTallyHold
  simp only [inWay]
  rw [if_neg (by simp [passes, hold, stream, duty, waits, late, new]), if_neg (by simp [awaited])]
  have still : ∀ h, Still (dropTile b.val f.val y.launch y.tile s)
      (haltBoard b.val h ((endTallyHold b.val (dropTile b.val f.val y.launch y.tile s)).bump .tallyOrderCount b.val)) := fun h =>
    (still_haltBoard ..).after ((still_bump (by decide) ..).after (still_endTallyHold ..))
  refine ⟨_, rfl, haltWork_haltsWith .., fun z hz => dropTile_drains b.val f.val y.launch y.tile s ?_, (still _).store⟩
  exact ((still _).boards b.val).frame f.val ▸ hz

end

/-- Settles O57: each command by the cases of its meaning; a write-out from the taking of its buffer on, and a contribution from the
storing of its words on, go through the rules of tiles and of the links' traffic. -/
theorem writeOuts : Obligations.WriteOuts := by
  refine ⟨fun mode b f s => ⟨fun none => ?_, fun held => ?_, fun l y drained may => ⟨fun taken => ?_, fun ds u taken =>
      ⟨fun fine => ?_, fun w added bad => ?_⟩⟩⟩,
    fun b f s => ⟨exec_slateHandoff_stands, fun l y drained hold stream duty => ?_⟩,
    fun b f s => ⟨exec_tallyContribution_stands, fun l y tried hold stream duty => ?_⟩,
    fun b f s => ⟨exec_tallyHold_stands, fun l y inWay passes hold stream duty => ?_⟩⟩
  · exact (exec_writeOut mode b f s).trans (writeOut_none none)
  · exact (exec_writeOut mode b f s).trans (writeOut_held held)
  · exact (exec_writeOut mode b f s).trans (writeOut_waits drained may taken)
  · obtain ⟨t, ht, out, memories⟩ := writeOut_done (event := 0x11 + mode.val) drained may taken fine
    exact ⟨t, (exec_writeOut mode b f s).trans ht, out, memories⟩
  · obtain ⟨v, hv, store⟩ := writeOut_bad (event := 0x11 + mode.val) (write := writeTile mode.val) drained may taken added bad
    refine ⟨_, (exec_writeOut mode b f s).trans hv, storeUe_haltsWith .., ?_⟩
    exact (still_storeUe ..).store.trans (store.trans (still_takeDst taken).store)
  · have goes := stands_false hold stream duty
    exact ⟨fun o found => exec_slateHandoff_handed drained goes found, exec_slateHandoff_dropped drained goes⟩
  · have goes := stands_false hold stream duty
    exact ⟨exec_tallyContribution_waits tried goes, exec_tallyContribution_adds tried goes,
      fun w next first bad => exec_tallyContribution_bad tried goes next first bad⟩
  · exact ⟨exec_tallyHold_later inWay, fun waits late new => ⟨exec_tallyHold_holds inWay passes hold stream duty waits late new,
      exec_tallyHold_never inWay passes hold stream duty waits late new⟩⟩

end Sys2Proof.Machine
end

