-- ==== Sys2Proof/Proofs/Retirement.lean ====
section
/-!
PROOFS. Proofs/Retirement.lean: a Frame with a lasting fault is retired and its Board halts, also where the module loses its working
set by it and enters SAFE: on the way no Frame joins a proof hold, and no retirement is undone.
-/
-- One proof after another: in parallel, behind the tests' long evaluations, they ask for too many threads' stacks.
set_option Elab.async false

namespace Sys2Proof.Machine

/-! ### Work that ends -/

/-- Every Frame that is in a proof hold in t was in it in s, and the retired Frames are those of s. -/
structure Ends (s t : State) : Prop where
  retired : t.flash.retiredFrames = s.flash.retiredFrames
  hold : ∀ c, ∀ k ∈ (t.board c).hold, k ∈ (s.board c).hold

theorem Ends.refl (s : State) : Ends s s := ⟨rfl, fun _ _ h => h⟩

theorem Ends.trans {r s t : State} (h : Ends r s) (k : Ends s t) : Ends r t :=
  ⟨k.retired.trans h.retired, fun c p hp => h.hold c p (k.hold c p hp)⟩

/-- Two steps, the later one named first. -/
theorem Ends.after {r s t : State} (k : Ends s t) (h : Ends r s) : Ends r t := h.trans k

theorem Flows.ends {s t : State} (h : Flows s t) : Ends s t := ⟨h.retired, fun c _ hk => (h.boards c).hold ▸ hk⟩

theorem Still.ends {s t : State} (h : Still s t) : Ends s t := h.toFlows.ends

theorem Ends.ite {c : Prop} [Decidable c] {s t u : State} (ht : Ends s t) (hu : Ends s u) : Ends s (if c then t else u) := by
  split
  · exact ht
  · exact hu

theorem ends_forEach {α : Type} (l : List α) (f : α → State → State) (h : ∀ a s, Ends s (f a s)) (s : State) : Ends s (forEach l f s) := by
  unfold forEach
  induction l generalizing s with
  | nil => exact .refl s
  | cons a l ih => exact (h a s).trans (ih (f a s))

theorem ends_modBoard (b : Nat) (f : Board → Board) (s : State) (h : ∀ x : Board, (f x).hold = x.hold := by exact fun _ => rfl) :
    Ends s (s.modBoard b f) := by
  refine ⟨rfl, fun c k hk => ?_⟩
  by_cases hc : c = b
  · rw [hc, State.modBoard_board, h] at hk
    exact hc ▸ hk
  · rwa [State.modBoard_board_of_ne _ _ _ _ hc] at hk

theorem ends_modDom (d : Nat) (f : Dom → Dom) (s : State) : Ends s (s.modDom d f) := (flows_modDom d f s).ends

theorem ends_modStack (k : Nat) (f : Stack → Stack) (s : State) : Ends s (s.modStack k f) := ⟨rfl, fun _ _ h => h⟩

/-! ### Squashes and voids (R123, R124, R240) -/

theorem squashLinks_hold (e : Nat) (x : Board) : (squashLinks e x).hold = x.hold := by
  unfold squashLinks
  refine List.foldlRecOn (motive := fun (y : Board) => y.hold = x.hold) _ _ rfl (fun y hy l _ => ?_)
  split
  · rw [((y.setLink l.1 _).sameUnits_settleLink l.1).hold]
    exact hy
  · exact hy

theorem squashBoard_hold (e : Nat) (now : W64) (x : Board) : (squashBoard e now x).hold = x.hold := by
  unfold squashBoard settleHolds
  dsimp only
  rw [squashLinks_hold, regate_hold]

theorem ends_squash (b e : Nat) (s : State) : Ends s (squash b e s) := by
  unfold squash
  generalize hu : endBeads b (fun k => k.epoch == e) 1 s = u
  have beads : Ends s u := hu ▸ (still_endBeads ..).ends
  dsimp only
  have squashed : Ends s (((((u.modBoard b (squashBoard e u.time)).modBoard b (fun x => { x with
      fetches := x.fetches.filter (fun f => !(f.squashed && f.going.isEmpty)) })).bump .squashes b).wr .squashLastEpoch e b).wr
        .squashLastDuration 0 b) := by
    refine (Still.after (still_wr (by decide) ..) (.after (still_wr (by decide) ..) (still_bump (by decide) ..))).ends.after ?_
    exact (ends_modBoard b _ _).after ((ends_modBoard b _ u (squashBoard_hold e _)).after beads)
  split
  · exact squashed
  · exact (ends_modBoard b _ _).after squashed

theorem ends_discardSlices (d : Nat) (s : State) : Ends s (discardSlices d s) := ends_forEach _ _ (fun b u => ends_modBoard b _ u) s

theorem ends_toStacks (m : HubMsg) (s : State) : Ends s (toStacks m s) := ends_forEach _ _ (fun k u => ends_modStack k _ u) s

/-- A decision that goes down no tree reaches the stacks alone. -/
theorem ends_takeDecision (d : Nat) (commit : Bool) (tag fv count : Nat) (s : State) : Ends s (takeDecision d commit tag fv count false s) := by
  have closing : ∀ x, Ends s (s.setDom d x) := fun _ => Flows.ends .upd
  unfold takeDecision
  simp only [Bool.false_eq_true, if_false]
  refine .ite ?_ ?_
  · exact (ends_toStacks ..).after ((ends_modDom ..).after (closing _))
  · refine (ends_toStacks ..).after ((ends_modDom ..).after ?_)
    split
    · exact (ends_discardSlices ..).after (closing _)
    · exact (still_raise ..).ends.after ((ends_discardSlices ..).after (closing _))

/-! ### The job ends, and the power (R256, R280, R288) -/

theorem ends_abortRing (d : Nat) (s : State) : Ends s (abortRing d s) := by
  unfold abortRing
  exact (ends_modDom ..).after (still_forEach _ _ (fun _ _ => still_emit ..) s).ends

theorem ends_abortJob (s : State) : Ends s (abortJob s) := by
  have state : ∀ u : State, Ends u ((u.setJob .loaded).setState .ready) := fun u => by
    unfold State.setState
    split
    · exact ⟨rfl, fun _ _ h => h⟩
    · exact (still_signal ..).ends.after ⟨rfl, fun _ _ h => h⟩
  unfold abortJob
  refine (state _).after ((ends_forEach _ _ (fun b u => ends_modBoard b _ u) _).after ((ends_forEach _ _ ends_abortRing _).after ?_))
  refine (ends_forEach _ _ (fun d u => ?_) _).after ((ends_forEach _ _ (fun b u => ?_) _).after (ends_forEach _ _ (fun b u => ?_) s))
  · exact .ite ((ends_takeDecision ..).after ((still_raise ..).ends.after (ends_modDom ..))) (.refl u)
  · exact (still_forEach _ _ (fun f v => still_raise f v) u).ends
  · exact ends_forEach _ _ (fun e v => ends_squash b e v) u

theorem lookup_map {α β : Type} (f : α → β) (t : Tbl α) (k : Nat) :
    List.lookup k (t.map (fun e => (e.1, f e.2))) = (List.lookup k t).map f := by
  induction t with
  | nil => rfl
  | cons e t ih =>
    rw [List.map_cons, List.lookup_cons, List.lookup_cons]
    split
    · rfl
    · exact ih

/-- No Board that has lost its job is in a proof hold. -/
theorem ends_boards {f : Board → Board} (hf : ∀ x, (f x).hold = []) {s t : State} (retired : t.flash.retiredFrames = s.flash.retiredFrames)
    (boards : t.boards = s.boards.map (fun e => (e.1, f e.2))) : Ends s t := by
  refine ⟨retired, fun c k hk => ?_⟩
  rw [State.board, tget, boards, lookup_map] at hk
  cases hx : List.lookup c s.boards with
  | none =>
    rw [hx] at hk
    cases hk
  | some x =>
    rw [hx, Option.map_some, Option.getD_some, hf] at hk
    cases hk

theorem ends_unloadJob (s : State) : Ends s (unloadJob s) := by
  have version : ∀ (r : Reg) (i : Nat) (u : State), Still u (u.bumpVer r i) := fun _ _ _ => .upd
  have noted : Ends s (noteTables s) := ((still_forEach _ _ (fun _ _ => version ..) _).after (still_forEach _ _ (fun _ _ => version ..) s)).ends
  refine ends_boards (f := Board.noJob) (fun _ => rfl) ?_ rfl
  exact noted.retired

theorem ends_powerDown (s : State) : Ends s (powerDown s) :=
  (still_forEach _ _ still_reportFault _).ends.after (ends_boards (f := Board.dark) (fun _ => rfl) rfl rfl)

theorem ends_enterSafe (bit : Nat) (s : State) : Ends s (enterSafe bit s) := by
  have same : ∀ (u : State) (d : Dev), Ends u { u with dev := d } := fun _ _ => ⟨rfl, fun _ _ h => h⟩
  have state : ∀ u : State, Ends u ((setInhibit 2 { u with dev := { u.dev with moving := none } }).setState .safe) := fun u => by
    unfold State.setState
    split
    · exact ⟨rfl, fun _ _ h => h⟩
    · exact (still_signal ..).ends.after ⟨rfl, fun _ _ h => h⟩
  unfold enterSafe
  dsimp only
  split
  · refine (state _).after ((ends_powerDown _).after ((ends_unloadJob _).after ?_))
    split
    · exact (ends_abortJob _).after (same s _)
    · exact same s _
  · exact same s _

/-! ### Retirements (R325, R327) -/

theorem ends_checkWorkingSet (s : State) : Ends s (checkWorkingSet s) := .ite ((ends_enterSafe ..).after (still_raise ..).ends) (.refl s)

theorem ends_retireBoard (b : Nat) (s : State) : Ends s (retireBoard b s) := by
  have marked : Ends s { s with flash := { s.flash with retiredBoards := orBit s.flash.retiredBoards b } } := ⟨rfl, fun _ _ h => h⟩
  exact .ite (.refl s) ((ends_checkWorkingSet _).after ((still_raise ..).ends.after marked))

theorem testBit_orBit (n i : Nat) : testBit (orBit n i) i = true := by
  unfold orBit
  split
  · assumption
  · rename_i clear
    rw [testBit_eq, Nat.add_comm, Nat.testBit_two_pow_add_eq, ← testBit_eq]
    simpa using clear

/-- A Frame that is retired is marked in flash, and joins no hold. -/
theorem retireFrame_retires (b f : Nat) (s : State) : testBit (retireFrame b f s).flash.retiredFrames (8 * b + f) = true
    ∧ ∀ c, ∀ k ∈ ((retireFrame b f s).board c).hold, k ∈ (s.board c).hold := by
  unfold retireFrame
  dsimp only
  split
  · rename_i already
    exact ⟨already, fun _ _ h => h⟩
  · generalize hu : (State.bumpVer _ _ _ : State) = u
    have marked : testBit u.flash.retiredFrames (8 * b + f) = true := by
      rw [← hu]
      exact testBit_orBit ..
    have boards : ∀ c, u.board c = s.board c := fun c => by
      rw [← hu]
      rfl
    have ends : Ends u (if 4 ≤ popCount (bitsOf (unitRetired 2 (8 * b + f) u).flash.retiredFrames (8 * b + 7) (8 * b)) 8
        then retireBoard b (unitRetired 2 (8 * b + f) u) else unitRetired 2 (8 * b + f) u) :=
      .ite ((ends_retireBoard ..).after (still_raise ..).ends) (still_raise ..).ends
    exact ⟨by rw [ends.retired]; exact marked, fun c k hk => boards c ▸ ends.hold c k hk⟩

theorem ends_dropTile (b f id tile : Nat) (s : State) : Ends s (dropTile b f id tile s) :=
  ⟨rfl, fun c _ hk => dropTile_hold b f id tile s c ▸ hk⟩

/-- A lasting fault: the Frame leaves the hold and is retired, and its Board halts (R73). -/
theorem lastingFault_frameLost {b : BoardNo} {f : FrameNo} {h : ProofHold} {hs : List ProofHold} {s : State}
    (hold : (s.board b.val).hold = h :: hs) (frame : h.frame = f.val) (test second : Nat) :
    FrameLost b f hs (lastingFault b.val h test second s) := by
  unfold lastingFault
  dsimp only
  have drop : ∀ ps : List (Nat × Nat), Ends (nextHold b.val s) (forEach ps (fun p u => dropTile b.val h.frame p.1 p.2 u) (nextHold b.val s)) :=
    fun ps => ends_forEach _ _ (fun _ _ => ends_dropTile ..) _
  obtain ⟨retired, holds⟩ := retireFrame_retires b.val h.frame
    (forEach (((nextHold b.val s).board b.val).frame h.frame).passes (fun p u => dropTile b.val h.frame p.1 p.2 u) (nextHold b.val s))
  refine ⟨fun k hk => ?_, frame ▸ retired, ?_⟩
  · have next := (drop _).hold b.val k (holds b.val k ((still_haltBoard ..).ends.hold b.val k hk))
    rw [nextHold, State.modBoard_board, hold] at next
    exact next
  · split <;> exact haltBoard_haltsWith ..

end Sys2Proof.Machine
end

