-- ==== Sys2Proof/Proofs/Passes.lean ====
section
/-!
PROOFS. Proofs/Passes.lean: a pass through its Frame: the taking of its operand buffers, the run to its verdict, and what the verdict
leaves: the tile in its drain buffer, the counts, and the release of its operands.
-/
-- One proof after another: in parallel, behind the tests' long evaluations, they ask for too many threads' stacks.
set_option Elab.async false

namespace Sys2Proof.Machine

/-! ### What neither operand buffers nor launches touch -/

/-- t has the time, the retired Frames, the counts of verdicts and the Boards' Frames and proof holds of s, and every cause of s. -/
structure Steady (s t : State) : Prop where
  time : t.time = s.time
  dev : t.dev = s.dev
  retired : t.flash.retiredFrames = s.flash.retiredFrames
  verdicts : ∀ u, t.rd .proofVerdicts u = s.rd .proofVerdicts u
  irq : ∀ i, s.host.irqCause.getLsbD i = true → t.host.irqCause.getLsbD i = true
  frames : ∀ c, (t.board c).frames = (s.board c).frames
  hold : ∀ c, (t.board c).hold = (s.board c).hold

theorem Flows.steady {s t : State} (h : Flows s t) : Steady s t :=
  ⟨h.time, h.dev, h.retired, h.verdicts, h.irq, fun c => (h.boards c).frames, fun c => (h.boards c).hold⟩

theorem Steady.refl (s : State) : Steady s s := (Flows.refl s).steady

theorem Steady.trans {r s t : State} (h : Steady r s) (k : Steady s t) : Steady r t where
  time := k.time.trans h.time
  dev := k.dev.trans h.dev
  retired := k.retired.trans h.retired
  verdicts u := (k.verdicts u).trans (h.verdicts u)
  irq i hi := k.irq i (h.irq i hi)
  frames c := (k.frames c).trans (h.frames c)
  hold c := (k.hold c).trans (h.hold c)

/-- Two steps, the later one named first. -/
theorem Steady.after {r s t : State} (k : Steady s t) (h : Steady r s) : Steady r t := h.trans k

theorem Steady.ite {c : Prop} [Decidable c] {s t u : State} (ht : Steady s t) (hu : Steady s u) : Steady s (if c then t else u) := by
  split
  · exact ht
  · exact hu

theorem Steady.frame {s t : State} (h : Steady s t) (c f : Nat) : (t.board c).frame f = (s.board c).frame f := by
  rw [Board.frame, Board.frame, h.frames]

theorem steady_setLaunch (b : Nat) (l : Launch) (s : State) : Steady s (s.modBoard b (fun x => x.setLaunch l)) := by
  refine ⟨rfl, rfl, rfl, fun _ => rfl, fun _ h => h, fun c => ?_, fun c => ?_⟩
  all_goals
    by_cases h : c = b
    · rw [h, State.modBoard_board]
      rfl
    · rw [State.modBoard_board_of_ne _ _ _ _ h]

/-! ### The operand buffers of a pass (R117) -/

theorem still_beginStreamHold (b : Nat) (h : StreamHold) (s : State) : Still s (beginStreamHold b h s) := by
  unfold beginStreamHold
  exact .ite (.refl s) ((still_touch ..).after ((still_bump (by decide) ..).after (still_modBoard b _ s)))

theorem beginStreamHold_holds (b : Nat) (h : StreamHold) (s : State) : ((beginStreamHold b h s).board b).streamHold.isSome = true := by
  unfold beginStreamHold
  split
  · assumption
  · simp [touch]

theorem still_acquire {b tile : Nat} {l l' : Launch} {s t : State} (taken : acquire b l tile s = some (l', t)) : Still s t := by
  unfold acquire at taken
  split at taken
  · cases taken
  · rename_i rows
    split at taken
    · cases taken
    · rename_i rods
      cases taken
      exact (still_takeUpTo rows).trans (still_takeUpTo rods)

/-- The taking of operand buffers changes launches, buffers and holds on streams alone; it moves no memory. -/
theorem enterPasses_steady (b f : Nat) (ps : List (Nat × Nat)) (s : State) :
    Steady s (enterPasses b f ps s).2 ∧ (enterPasses b f ps s).2.store = s.store := by
  induction ps generalizing s with
  | nil => exact ⟨(still_endStreamHold b s).toFlows.steady, (still_endStreamHold b s).store⟩
  | cons p ps ih =>
    unfold enterPasses
    split
    · exact ih s
    · split
      · exact ⟨(still_beginStreamHold ..).toFlows.steady, (still_beginStreamHold ..).store⟩
      · rename_i l t taken
        have still := still_acquire taken
        obtain ⟨steady, store⟩ := ih (t.modBoard b (fun x => x.setLaunch l))
        exact ⟨(still.toFlows.steady.trans (steady_setLaunch b l t)).trans steady, store.trans still.store⟩

/-- A pass without its operand buffers leaves its Board in a stream hold. -/
theorem enterPasses_waits {b f : Nat} {ps : List (Nat × Nat)} {s u : State} (h : enterPasses b f ps s = (false, u)) :
    (u.board b).streamHold.isSome = true := by
  induction ps generalizing s with
  | nil => cases h
  | cons p ps ih =>
    unfold enterPasses at h
    split at h
    · exact ih h
    · split at h
      · cases h
        exact beginStreamHold_holds ..
      · exact ih h

theorem still_operandsServed (b : Nat) (l : Launch) (tile : Nat) (s : State) : Still s (operandsServed b l tile s) := by
  unfold operandsServed
  exact (still_storeServed ..).after (still_storeServed ..)

/-! ### The run of a pass to its verdict (R58, R66, R67, R70) -/

/-- The Frame after the update cycles, the swap and the drain of a pass. -/
def Frame.ran (y : Frame) (launch tile : Nat) (infs : List Bool) (deck : List W32) (cells : List (W32 × W32)) : Frame :=
  ((y.fillDeck deck cells).swapFront).drainDeck y.sel launch tile infs

section
variable (y : Frame) (launch tile : Nat) (infs : List Bool) (deck : List W32) (cells : List (W32 × W32))

theorem Frame.ran_drains : (y.ran launch tile infs deck cells).drains
    = y.drains ++ [{ launch := launch, tile := tile, values := deck, infIn := infs, buf := y.sel, ok := false }] := by
  simp [Frame.ran, Frame.drainDeck, Frame.swapFront, Frame.fillDeck]

/-- The check registers hold what the proof cells held (R66). -/
theorem Frame.ran_checks : (y.ran launch tile infs deck cells).checks = cells := by
  simp [Frame.ran, Frame.drainDeck, Frame.swapFront, Frame.fillDeck, List.zip_map']

end

/-- A pass has run in a Frame: its tile lies in a drain buffer, without a verdict yet. -/
structure Ran (b f id tile : Nat) (vs : List W32) (s t : State) : Prop where
  passes : ((t.board b).frame f).passes = ((s.board b).frame f).passes
  hold : (t.board b).hold = (s.board b).hold
  drain : ∃ z ∈ ((t.board b).frame f).drains, z.launch = id ∧ z.tile = tile ∧ z.values = vs

theorem Ran.sameUnits {b f id tile : Nat} {vs : List W32} {s t u : State} (h : Ran b f id tile vs s t)
    (k : (t.board b).SameUnits (u.board b)) : Ran b f id tile vs s u := by
  refine ⟨?_, k.hold.trans h.hold, ?_⟩
  · rw [k.frame]
    exact h.passes
  · rw [k.frame]
    exact h.drain

theorem mismatchBits_nil : mismatchBits [] = 0 := rfl

/-- What a pass does: the values of its tile, and its mismatching Rods. -/
theorem runPass_runs (b f : Nat) (l : Launch) (tile : Nat) (faults : CellFaults) (s : State) :
    ∃ vs y, (runPass b f l tile faults s).2 = s.modBoard b (fun x => x.setFrame f y)
      ∧ Ran b f l.id tile vs s (runPass b f l tile faults s).2
      ∧ (l.garbled = true → mismatchBits (runPass b f l tile faults s).1 = 0)
      ∧ (l.garbled = false → vs = deckAfter s b l tile faults
          ∧ mismatchBits (runPass b f l tile faults s).1 = rodsAfter s b l tile faults) := by
  have ran : ∀ infs deck cells, Ran b f l.id tile deck s
      (s.modBoard b (fun x => x.setFrame f ((((s.board b).frame f).takeTurns s b l tile).ran l.id tile infs deck cells))) := fun infs deck cells => by
    refine ⟨?_, ?_, ?_⟩
    · rw [State.modBoard_board, Board.setFrame_frame]
      rfl
    · rw [State.modBoard_board]
      rfl
    · rw [State.modBoard_board, Board.setFrame_frame, Frame.ran_drains]
      exact ⟨_, List.mem_append_right _ (List.mem_singleton_self _), rfl, rfl, rfl⟩
  have checks := fun infs deck cells => (((s.board b).frame f).takeTurns s b l tile).ran_checks l.id tile infs deck cells
  cases garbled : l.garbled with
  | true =>
    refine ⟨strayDeck s b ((s.board b).frame f) l tile, (((s.board b).frame f).takeTurns s b l tile).ran l.id tile (List.replicate 8192 false)
      (strayDeck s b ((s.board b).frame f) l tile) [], ?_, ?_, fun _ => ?_, nofun⟩
    · unfold runPass
      simp only [garbled]
      rfl
    · unfold runPass
      simp only [garbled]
      exact ran ..
    · unfold runPass
      simp only [garbled]
      exact (congrArg (fun c => mismatchBits (checkRods l.frame _ c)) (checks ..)).trans mismatchBits_nil
  | false =>
    refine ⟨deckAfter s b l tile faults, (((s.board b).frame f).takeTurns s b l tile).ran l.id tile (deckInf (tileOps s b l tile))
      (deckAfter s b l tile faults) (proofCells l.frame (tileOps s b l tile) faults), ?_, ?_, nofun, fun _ => ⟨rfl, ?_⟩⟩
    · unfold runPass
      simp only [garbled]
      rfl
    · unfold runPass
      simp only [garbled]
      exact ran ..
    · unfold runPass
      simp only [garbled]
      exact congrArg (fun c => mismatchBits (checkRods l.frame _ c)) (checks ..)

end Sys2Proof.Machine
end

