-- ==== Sys2Proof/Proofs/Verdicts.lean ====
section
/-!
PROOFS. Proofs/Verdicts.lean: the verdict of a pass, the self-test of a held Frame and its replay: what each outcome leaves in the Frame,
in the proof hold and in the counts.
-/
-- One proof after another: in parallel, behind the tests' long evaluations, they ask for too many threads' stacks.
set_option Elab.async false

namespace Sys2Proof.Machine

/-! ### What the end of a pass leaves to holds and counts -/

/-- t has the retired Frames, the counts of verdicts and the proof holds of s, and every cause of s. -/
structure KeepsHolds (s t : State) : Prop where
  retired : t.flash.retiredFrames = s.flash.retiredFrames
  verdicts : ∀ u, t.rd .proofVerdicts u = s.rd .proofVerdicts u
  irq : ∀ i, s.host.irqCause.getLsbD i = true → t.host.irqCause.getLsbD i = true
  hold : ∀ c, (t.board c).hold = (s.board c).hold

theorem Steady.keepsHolds {s t : State} (h : Steady s t) : KeepsHolds s t := ⟨h.retired, h.verdicts, h.irq, h.hold⟩

theorem KeepsHolds.trans {r s t : State} (h : KeepsHolds r s) (k : KeepsHolds s t) : KeepsHolds r t where
  retired := k.retired.trans h.retired
  verdicts u := (k.verdicts u).trans (h.verdicts u)
  irq i hi := k.irq i (h.irq i hi)
  hold c := (k.hold c).trans (h.hold c)

theorem keepsHolds_modBoard (b : Nat) (f : Board → Board) (s : State) (h : ∀ x : Board, (f x).hold = x.hold) :
    KeepsHolds s (s.modBoard b f) := by
  refine ⟨rfl, fun _ => rfl, fun _ h => h, fun c => ?_⟩
  by_cases hc : c = b
  · rw [hc, State.modBoard_board, h]
  · rw [State.modBoard_board_of_ne _ _ _ _ hc]

theorem steady_releaseOperands (b : Nat) (l : Launch) (tile : Nat) (s : State) : Steady s (releaseOperands b l tile s) := by
  unfold releaseOperands
  dsimp only
  generalize hl : ({ l with rowBufs := _, rodBufs := _ } : Launch) = k
  have launch := steady_setLaunch b k s
  refine .ite ((flows_freeBuf ..).steady.after ?_) ?_
  all_goals exact .ite ((flows_freeBuf ..).steady.after launch) launch

/-! ### The outcomes of a verdict -/

/-- A verdict that has passed changes no hold and no count. -/
theorem passOk_keepsHolds (b f : Nat) (l : Launch) (tile : Nat) (s : State) : KeepsHolds s (passOk b f l tile s) := by
  unfold passOk
  dsimp only
  refine (keepsHolds_modBoard b _ s fun x => ?_).trans
    ((still_markBead ..).toFlows.steady.trans (steady_releaseOperands ..)).keepsHolds
  rw [regate_hold]
  rfl

/-- The tile of a pass that is right has its verdict in the drain buffer, and the pass leaves its Frame. -/
theorem passOk_drained {b f id tile : Nat} {vs : List W32} {l : Launch} {s : State} (launch : l.id = id)
    (drain : ∃ z ∈ ((s.board b).frame f).drains, z.launch = id ∧ z.tile = tile ∧ z.values = vs) :
    Drained b f id tile vs (passOk b f l tile s) ∧ (id, tile) ∉ (((passOk b f l tile s).board b).frame f).passes := by
  obtain ⟨z, hz, hl, ht, hv⟩ := drain
  subst launch
  unfold passOk
  dsimp only
  generalize hu : s.modBoard b _ = u
  have frame : ((u.board b).frame f).passes = ((s.board b).frame f).passes.filter (· != (l.id, tile))
      ∧ ((u.board b).frame f).drains
        = ((s.board b).frame f).drains.map (fun t => if t.launch == l.id && t.tile == tile then { t with ok := true } else t) := by
    rw [← hu, State.modBoard_board, regate_passes, regate_drains, Board.setLaunch_frame, Board.setFrame_frame]
    exact ⟨rfl, rfl⟩
  obtain ⟨passes, drains⟩ := frame
  have released := (still_markBead b l.work.bundle (fun d k => { k with execEnd := d }) u).toFlows.steady.trans
    (steady_releaseOperands b { l with verdicts := tile :: l.verdicts } tile _)
  rw [Drained, released.frame, passes, drains]
  refine ⟨⟨{ z with ok := true }, List.mem_map.2 ⟨z, hz, ?_⟩, hl, ht, hv, rfl⟩, ?_⟩
  · rw [hl, ht]
    simp
  · simp

theorem discardedVerdict_keepsHolds (b f : Nat) (l : Launch) (tile rods : Nat) (s : State) :
    KeepsHolds s (discardedVerdict b f l tile rods s) := by
  unfold discardedVerdict
  dsimp only
  have counted : Still s (if rods = 0 then s else countEvent b 0x05 (some l.work.domain) (some f) 1 s) :=
    .ite (.refl s) (still_countEvent ..)
  refine counted.toFlows.steady.keepsHolds.trans ((keepsHolds_modBoard b _ _ fun x => ?_).trans (steady_releaseOperands ..).keepsHolds)
  rw [regate_hold]
  rfl

/-- A discarded tile, and its pass, leave the Frame. -/
theorem discardedVerdict_forgets (b f : Nat) (l : Launch) (tile rods : Nat) (s : State) :
    (l.id, tile) ∉ (((discardedVerdict b f l tile rods s).board b).frame f).passes
      ∧ ∀ z ∈ (((discardedVerdict b f l tile rods s).board b).frame f).drains, ¬ (z.launch = l.id ∧ z.tile = tile) := by
  unfold discardedVerdict
  dsimp only
  rw [(steady_releaseOperands ..).frame, State.modBoard_board, regate_passes, regate_drains]
  exact ⟨forgetPass_passes f l.id tile _, fun _ => forgetPass_drains f l.id tile _⟩

theorem mem_joinHold (h : ProofHold) (ks : List ProofHold) : h ∈ joinHold h ks := by
  induction ks with
  | nil => exact List.mem_singleton_self h
  | cons k ks ih =>
    rw [joinHold]
    split
    · exact List.mem_cons_of_mem _ ih
    · exact List.mem_cons_self ..

/-- A mismatch holds the Board (R72): the pass stays, and no memory moves. -/
theorem proofMismatch_holds (b f : Nat) (l : Launch) (tile rods : Nat) (s : State) :
    (((proofMismatch b f l tile rods s).board b).frame f).passes = ((s.board b).frame f).passes
      ∧ { frame := f, launch := l.id, tile := tile, rods := rods, since := s.time } ∈ ((proofMismatch b f l tile rods s).board b).hold
      ∧ (proofMismatch b f l tile rods s).store = s.store := by
  have counted := (still_countEvent b 0x05 (some l.work.domain) (some f) 1 _).after
    ((still_wr (r := .proofLastLayer) (by decide) l.work.layer (8 * b + f) _).after
      (still_wr (r := .proofLastTime) (by decide) s.now (8 * b + f) s))
  unfold proofMismatch
  dsimp only
  rw [State.modBoard_board]
  refine ⟨congrArg Frame.passes ((counted.boards b).frame f), ?_, counted.store⟩
  rw [counted.time]
  exact mem_joinHold ..

/-- A verdict is counted once; its further counts leave that one. -/
theorem countVerdict_counts (b f : Nat) (l : Launch) (checks : List RodCheck) (s : State) :
    Still (s.bump .proofVerdicts (8 * b + f)) (countVerdict b f l checks s) := by
  unfold countVerdict
  exact (still_countEvent ..).after ((still_countEvent ..).after ((still_countEvent ..).after (still_bumpBy (by decide) ..)))

theorem countVerdict_verdicts (b f : Nat) (l : Launch) (checks : List RodCheck) (s : State) :
    (countVerdict b f l checks s).rd .proofVerdicts (8 * b + f) = satAdd 64 (s.rd .proofVerdicts (8 * b + f)) 1 := by
  rw [(countVerdict_counts ..).verdicts]
  exact State.wr_rd ..

/-- What follows a verdict: a tile that a schedule fault has discarded goes, one whose Rods all pass drains, one with a mismatch stays. -/
def judge (b f : Nat) (l : Launch) (tile rods : Nat) (s : State) : State :=
  if l.dropped.contains tile then discardedVerdict b f l tile rods s
  else if rods = 0 then passOk b f l tile s else proofMismatch b f l tile rods s

/-- A pass has run to a verdict, which is counted: its tile lies in a drain buffer, and the pass and the hold are as they were. -/
structure Verdicted (b f id tile : Nat) (vs : List W32) (s t : State) : Prop where
  time : t.time = s.time
  store : t.store = s.store
  passes : ((t.board b).frame f).passes = ((s.board b).frame f).passes
  hold : (t.board b).hold = (s.board b).hold
  verdicts : t.rd .proofVerdicts (8 * b + f) = satAdd 64 (s.rd .proofVerdicts (8 * b + f)) 1
  drain : ∃ z ∈ ((t.board b).frame f).drains, z.launch = id ∧ z.tile = tile ∧ z.values = vs

section
variable {b f tile : Nat} {l : Launch} {vs : List W32} {s v : State} (verdict : Verdicted b f l.id tile vs s v)
include verdict

/-- A discarded tile ends without a hold, and is counted. -/
theorem judge_dropped (dropped : tile ∈ l.dropped) (rods : Nat) :
    (l.id, tile) ∉ (((judge b f l tile rods v).board b).frame f).passes
      ∧ (∀ z ∈ (((judge b f l tile rods v).board b).frame f).drains, ¬ (z.launch = l.id ∧ z.tile = tile))
      ∧ ((judge b f l tile rods v).board b).hold = (s.board b).hold
      ∧ (judge b f l tile rods v).rd .proofVerdicts (8 * b + f) = satAdd 64 (s.rd .proofVerdicts (8 * b + f)) 1 := by
  rw [judge, if_pos (by simpa using dropped)]
  have kept := discardedVerdict_keepsHolds b f l tile rods v
  obtain ⟨passes, drains⟩ := discardedVerdict_forgets b f l tile rods v
  exact ⟨passes, drains, (kept.hold b).trans verdict.hold, (kept.verdicts _).trans verdict.verdicts⟩

theorem judge_passes (kept : tile ∉ l.dropped) :
    Drained b f l.id tile vs (judge b f l tile 0 v) ∧ (l.id, tile) ∉ (((judge b f l tile 0 v).board b).frame f).passes
      ∧ ((judge b f l tile 0 v).board b).hold = (s.board b).hold
      ∧ (judge b f l tile 0 v).rd .proofVerdicts (8 * b + f) = satAdd 64 (s.rd .proofVerdicts (8 * b + f)) 1 := by
  rw [judge, if_neg (by simpa using kept), if_pos rfl]
  have ok := passOk_keepsHolds b f l tile v
  obtain ⟨drained, passes⟩ := passOk_drained rfl verdict.drain
  exact ⟨drained, passes, (ok.hold b).trans verdict.hold, (ok.verdicts _).trans verdict.verdicts⟩

theorem judge_mismatches (kept : tile ∉ l.dropped) {rods : Nat} (mismatch : rods ≠ 0)
    (pass : (l.id, tile) ∈ ((s.board b).frame f).passes) :
    (l.id, tile) ∈ (((judge b f l tile rods v).board b).frame f).passes
      ∧ { frame := f, launch := l.id, tile := tile, rods := rods, since := s.time } ∈ ((judge b f l tile rods v).board b).hold
      ∧ (judge b f l tile rods v).store = s.store := by
  rw [judge, if_neg (by simpa using kept), if_neg mismatch]
  obtain ⟨passes, hold, store⟩ := proofMismatch_holds b f l tile rods v
  exact ⟨by rwa [passes, verdict.passes], verdict.time ▸ hold, store.trans verdict.store⟩

end

/-! ### Passes that reach their verdict, and passes that do not -/

theorem passVerdict_noPass {b : BoardNo} {f : FrameNo} {s : State} (none : ((s.board b.val).frame f.val).passes = [])
    (faults : CellFaults) : exec (.passVerdict b f faults) s = .next s := by
  show execPassVerdict b f faults s = _
  unfold execPassVerdict
  dsimp only
  rw [none]

theorem passVerdict_mayNot {b : BoardNo} {f : FrameNo} {s : State} (mayNot : verdictMay (s.board b.val) f.val s.time = false)
    (faults : CellFaults) : exec (.passVerdict b f faults) s = .next s := by
  show execPassVerdict b f faults s = _
  unfold execPassVerdict
  dsimp only
  split
  · rfl
  · rw [if_pos (by simp [mayNot])]

section
variable {b : BoardNo} {f : FrameNo} {l : Launch} {tile : Nat} {s u : State} (heads : Heads b f l tile s)
include heads

/-- A pass without its operand buffers waits. -/
theorem passVerdict_waits (enters : enterPasses b.val f.val (((s.board b.val).frame f.val).passes.take 2) s = (false, u))
    (faults : CellFaults) : exec (.passVerdict b f faults) s = .next u := by
  obtain ⟨⟨ps, passes⟩, launched, may⟩ := heads
  show execPassVerdict b f faults s = _
  rw [passes, List.take_succ_cons] at enters
  simp [execPassVerdict, passes, launched, may, enters]

section
variable {k : Launch} (enters : enterPasses b.val f.val (((s.board b.val).frame f.val).passes.take 2) s = (true, u))
  (launched : (u.board b.val).launchAt l.id = some k)
include enters launched

/-- A pass whose drain buffer is not free waits for it. -/
theorem passVerdict_full (full : ((s.board b.val).frame f.val).drainFree = false) (faults : CellFaults) :
    exec (.passVerdict b f faults) s = .next u := by
  obtain ⟨⟨ps, passes⟩, launch, may⟩ := heads
  show execPassVerdict b f faults s = _
  rw [passes, List.take_succ_cons] at enters
  simp [execPassVerdict, passes, launch, may, enters, launched, full]

section
variable (free : ((s.board b.val).frame f.val).drainFree = true)
include free

theorem passVerdict_bad {w : Nat} (bad : operandBad u b.val k tile = some w) (faults : CellFaults) :
    exec (.passVerdict b f faults) s = .next (storeUe b.val w 1 (dropTile b.val f.val l.id tile u)) := by
  obtain ⟨⟨ps, passes⟩, launch, may⟩ := heads
  show execPassVerdict b f faults s = _
  rw [passes, List.take_succ_cons] at enters
  simp [execPassVerdict, passes, launch, may, enters, launched, free, bad]

/-- The state in which a pass that has run is judged. -/
theorem passVerdict_judges (good : operandBad u b.val k tile = none) (faults : CellFaults) {r : List RodCheck × State}
    (run : runPass b.val f.val k tile faults (operandsServed b.val k tile u) = r) :
    exec (.passVerdict b f faults) s = .next (judge b.val f.val k tile (mismatchBits r.1) (countVerdict b.val f.val k r.1 r.2)) := by
  obtain ⟨⟨ps, passes⟩, launch, may⟩ := heads
  show execPassVerdict b f faults s = _
  rw [passes, List.take_succ_cons] at enters
  simp [execPassVerdict, passes, launch, may, enters, launched, free, good, run, judge]
  split
  · rfl
  · split <;> rfl
end

/-- A pass that has its operands and a free drain buffer runs to its verdict. -/
theorem passVerdict_judged (free : ((s.board b.val).frame f.val).drainFree = true) (good : operandBad u b.val k tile = none)
    (faults : CellFaults) :
    ∃ rods vs v, exec (.passVerdict b f faults) s = .next (judge b.val f.val k tile rods v) ∧ Verdicted b.val f.val l.id tile vs s v
      ∧ (k.garbled = true → rods = 0)
      ∧ (k.garbled = false → vs = deckAfter (operandsServed b.val k tile u) b.val k tile faults
          ∧ rods = rodsAfter (operandsServed b.val k tile u) b.val k tile faults) := by
  obtain ⟨-, id⟩ := Board.mem_of_launchAt launched
  obtain ⟨taken, store⟩ := enterPasses_steady b.val f.val (((s.board b.val).frame f.val).passes.take 2) s
  simp only [enters] at taken store
  have served := still_operandsServed b.val k tile u
  have ready := taken.trans served.toFlows.steady
  obtain ⟨vs, y, run, ran, stray, deck⟩ := runPass_runs b.val f.val k tile faults (operandsServed b.val k tile u)
  have exec := passVerdict_judges heads enters launched free good faults rfl
  generalize runPass b.val f.val k tile faults (operandsServed b.val k tile u) = r at run ran stray deck exec
  have counted := countVerdict_counts b.val f.val k r.1 r.2
  obtain ⟨passes, hold, drain⟩ := id ▸ ran.sameUnits (counted.boards b.val)
  refine ⟨mismatchBits r.1, vs, _, exec, ⟨?_, ?_, ?_, hold.trans (ready.hold b.val), ?_, drain⟩, stray, deck⟩
  · rw [counted.time, State.bump_time, run, State.modBoard_time, ready.time]
  · rw [counted.store, State.bump_store, run, State.modBoard_store, served.store, store]
  · rw [passes, ready.frame]
  · rw [countVerdict_verdicts, run, State.rd, State.modBoard_regs, ← State.rd, ready.verdicts]

end
end

/-- A pass of a launch that popped wrong beats, and one whose Rods all pass, has no mismatching Rods. -/
theorem noRods {garbled : Bool} {rods n : Nat} (right : garbled = true ∨ n = 0) (stray : garbled = true → rods = 0)
    (count : garbled = false → rods = n) : rods = 0 := by
  cases garbled with
  | true => exact stray rfl
  | false => exact (count rfl).trans (right.resolve_left nofun)

/-! ### The self-test of a held Frame (R72, R73) -/

section
variable {b : BoardNo} {f : FrameNo} {s : State}

theorem frameSelfTest_idle (idle : ∀ h ∈ (s.board b.val).hold.head?, h.frame ≠ f.val ∨ h.tested = true) (pass : Bool) :
    exec (.frameSelfTest b f pass) s = .next s := by
  show execFrameSelfTest b f pass s = _
  unfold execFrameSelfTest
  dsimp only
  split
  · rfl
  · rename_i h hs hold
    rw [hold] at idle
    rw [if_pos (by simpa using idle h rfl)]

section
variable {h : ProofHold} {hs : List ProofHold} (hold : (s.board b.val).hold = h :: hs) (frame : h.frame = f.val)
include hold frame

theorem frameSelfTest_fails (untested : h.tested = false) :
    exec (.frameSelfTest b f false) s = .next (lastingFault b.val h 1 0 (s.bump .selftestRuns (8 * b.val + f.val))) := by
  show execFrameSelfTest b f false s = _
  simp [execFrameSelfTest, hold, frame, untested]

/-- A Frame that passes leaves the hold where its launch is gone. -/
theorem frameSelfTest_gone (untested : h.tested = false) (gone : (s.board b.val).launchAt h.launch = none) :
    exec (.frameSelfTest b f true) s = .next (nextHold b.val (s.bump .selftestRuns (8 * b.val + f.val))) := by
  show execFrameSelfTest b f true s = _
  simp [execFrameSelfTest, hold, frame, untested, gone]

/-- A Frame that passes is to replay its pass. -/
theorem frameSelfTest_tested {l : Launch} (untested : h.tested = false) (launched : (s.board b.val).launchAt h.launch = some l) :
    exec (.frameSelfTest b f true) s = .next ((s.bump .selftestRuns (8 * b.val + f.val)).modBoard b.val
      (fun x => { x with hold := { h with tested := true } :: x.hold.drop 1 })) := by
  show execFrameSelfTest b f true s = _
  simp [execFrameSelfTest, hold, frame, untested, launched]

end

/-! ### The replay (R72) -/

theorem proofReplay_idle (idle : ∀ h ∈ (s.board b.val).hold.head?, h.frame ≠ f.val ∨ h.tested = false) (faults : CellFaults) :
    exec (.proofReplay b f faults) s = .next s := by
  show execProofReplay b f faults s = _
  unfold execProofReplay
  dsimp only
  split
  · rfl
  · rename_i h hs hold
    rw [hold] at idle
    rw [if_pos (by simpa using idle h rfl)]

section
variable {h : ProofHold} {hs : List ProofHold} (hold : (s.board b.val).hold = h :: hs) (frame : h.frame = f.val) (tested : h.tested = true)
include hold frame tested

/-- A Frame whose launch is gone leaves the hold. -/
theorem proofReplay_gone (gone : (s.board b.val).launchAt h.launch = none) (faults : CellFaults) :
    exec (.proofReplay b f faults) s = .next (nextHold b.val s) := by
  show execProofReplay b f faults s = _
  simp [execProofReplay, hold, frame, tested, gone]

section
variable {l : Launch} (launched : (s.board b.val).launchAt h.launch = some l)
include launched

theorem proofReplay_bad {w : Nat} (bad : operandBad s b.val l h.tile = some w) (faults : CellFaults) : exec (.proofReplay b f faults) s
    = .next (storeUe b.val w 1 (dropTile b.val f.val h.launch h.tile (nextHold b.val s))) := by
  show execProofReplay b f faults s = _
  simp [execProofReplay, hold, frame, tested, launched, bad]

theorem proofReplay_runs (good : operandBad s b.val l h.tile = none) (faults : CellFaults) {r : List RodCheck × State}
    (run : runPass b.val f.val l h.tile faults ((operandsServed b.val l h.tile s).modBoard b.val (fun x =>
      x.setFrame f.val ((x.frame f.val).rewind h.launch h.tile))) = r) :
    exec (.proofReplay b f faults) s = .next (if mismatchBits r.1 = 0 then passOk b.val f.val l h.tile
        (((nextHold b.val r.2).bump .proofTransient (8 * b.val + f.val)).raise (proofFlt b.val h l.work fTransient 0 0))
      else lastingFault b.val h 0 1 r.2) := by
  show execProofReplay b f faults s = _
  simp [execProofReplay, hold, frame, tested, launched, good, run]
  split <;> rfl

/-- A pass that is replayed runs to its second verdict, its Frame the first in the hold. -/
theorem proofReplay_judged (good : operandBad s b.val l h.tile = none) (faults : CellFaults) {v : State}
    (rewound : (operandsServed b.val l h.tile s).modBoard b.val (fun x => x.setFrame f.val ((x.frame f.val).rewind h.launch h.tile)) = v) :
    ∃ rods vs t, exec (.proofReplay b f faults) s = .next (if rods = 0 then passOk b.val f.val l h.tile
        (((nextHold b.val t).bump .proofTransient (8 * b.val + f.val)).raise (proofFlt b.val h l.work fTransient 0 0))
      else lastingFault b.val h 0 1 t)
      ∧ (t.dev = s.dev ∧ t.flash.retiredFrames = s.flash.retiredFrames) ∧ (t.board b.val).hold = h :: hs
      ∧ (∃ z ∈ ((t.board b.val).frame f.val).drains, z.launch = l.id ∧ z.tile = h.tile ∧ z.values = vs)
      ∧ (l.garbled = true → rods = 0)
      ∧ (l.garbled = false → vs = deckAfter v b.val l h.tile faults ∧ rods = rodsAfter v b.val l h.tile faults) := by
  have exec := proofReplay_runs hold frame tested launched good faults rfl
  rw [rewound] at exec
  have served := still_operandsServed b.val l h.tile s
  obtain ⟨vs, y, run, ran, stray, deck⟩ := runPass_runs b.val f.val l h.tile faults v
  refine ⟨_, vs, _, exec, ⟨?_, ?_⟩, ran.hold.trans ?_, ran.drain, stray, deck⟩
  · rw [run, State.modBoard_dev, ← rewound, State.modBoard_dev, served.dev]
  · rw [run, State.modBoard_flash, ← rewound, State.modBoard_flash, served.retired]
  · rw [← rewound, State.modBoard_board, Board.setFrame_hold, (served.boards b.val).hold, hold]

end
end
end

/-- A second verdict that passes: a transient fault is reported, the hold goes on, and the tile drains (R72). -/
theorem transient_drains {b : BoardNo} {f : FrameNo} {h : ProofHold} {hs : List ProofHold} {l : Launch} {vs : List W32} {s : State}
    (hold : (s.board b.val).hold = h :: hs) (frame : h.frame = f.val)
    (drain : ∃ z ∈ ((s.board b.val).frame f.val).drains, z.launch = l.id ∧ z.tile = h.tile ∧ z.values = vs) {t : State}
    (ended : passOk b.val f.val l h.tile
      (((nextHold b.val s).bump .proofTransient (8 * b.val + f.val)).raise (proofFlt b.val h l.work fTransient 0 0)) = t) :
    (t.board b.val).hold = hs ∧ Drained b.val f.val l.id h.tile vs t ∧ t.flash.retiredFrames = s.flash.retiredFrames
      ∧ (controlBusy s b.val = false → testBit t.host.irqCause.toNat 1 = true) := by
  have counted := still_bump (r := .proofTransient) (by decide) (8 * b.val + f.val) (nextHold b.val s)
  generalize hu : (nextHold b.val s).bump .proofTransient (8 * b.val + f.val) = u at ended counted
  have raised := still_raise (proofFlt b.val h l.work fTransient 0 0) u
  have flows := counted.toFlows.trans raised.toFlows
  have ok := passOk_keepsHolds b.val f.val l h.tile (u.raise (proofFlt b.val h l.work fTransient 0 0))
  rw [ended] at ok
  refine ⟨?_, ?_, ok.retired.trans flows.retired, fun idle => ?_⟩
  · rw [ok.hold, (flows.boards b.val).hold, nextHold, State.modBoard_board, hold]
    rfl
  · rw [← ended]
    refine (passOk_drained rfl ?_).1
    rw [(flows.boards b.val).frame, nextHold, State.modBoard_board]
    exact drain
  · have reported : u.recordWaits (proofFlt b.val h l.work fTransient 0 0) = false := by
      have unit : (8 * b.val + f.val) / 8 = b.val := by omega
      rw [State.recordWaits, counted.dev]
      simp only [Flt.board, proofFlt, frame, unit, Option.any_some]
      exact idle
    rw [testBit_eq, ← BitVec.getLsbD]
    exact ok.irq 1 (by rw [raise_reported reported]; exact reportFault_irqCause ..)

/-- Settles O56: a pass runs in its Frame, its verdict is counted, and its outcome drains the tile, forgets it or holds the Board; the
self-test and the replay of a held Frame end in a retired Frame or in the replayed tile. -/
theorem verdicts : Obligations.Verdicts := by
  refine ⟨fun b f faults s => ⟨fun none => passVerdict_noPass none faults, fun mayNot => passVerdict_mayNot mayNot faults,
    fun l tile heads => ⟨fun u enters => ⟨passVerdict_waits heads enters faults, enterPasses_waits enters⟩, fun u k enters launched => ?_⟩⟩,
    fun b f pass s => ⟨fun idle => frameSelfTest_idle idle pass, fun h hs hold frame untested => ?_⟩,
    fun b f faults s => ⟨fun idle => proofReplay_idle idle faults, fun h hs hold frame tested => ⟨fun gone => ?_, fun l launched => ?_⟩⟩⟩
  · obtain ⟨-, id⟩ := Board.mem_of_launchAt launched
    refine ⟨fun full => passVerdict_full heads enters launched full faults,
      fun w free bad => ⟨_, passVerdict_bad heads enters launched free bad faults, storeUe_haltsWith ..⟩, ?_, ?_⟩
    · intro free good dropped
      obtain ⟨rods, vs, v, exec, verdict, -⟩ := passVerdict_judged heads enters launched free good faults
      rw [← id] at verdict ⊢
      exact ⟨_, exec, judge_dropped verdict dropped rods⟩
    · intro free good kept
      obtain ⟨rods, vs, v, exec, verdict, stray, deck⟩ := passVerdict_judged heads enters launched free good faults
      have pass : (k.id, tile) ∈ ((s.board b.val).frame f.val).passes := by
        obtain ⟨⟨ps, passes⟩, -⟩ := heads
        rw [passes, id]
        exact List.mem_cons_self ..
      rw [← id] at verdict ⊢
      refine ⟨fun right => ?_, fun clean mismatch => ?_⟩
      · rw [noRods right stray fun clean => (deck clean).2] at exec
        obtain ⟨drained, rest⟩ := judge_passes verdict kept
        exact ⟨_, vs, exec, drained, fun clean => (deck clean).1, rest⟩
      · obtain ⟨-, count⟩ := deck clean
        rw [count] at exec
        exact ⟨_, exec, judge_mismatches verdict kept mismatch pass⟩
  · have runs : (s.bump .selftestRuns (8 * b.val + f.val)).rd .selftestRuns (8 * b.val + f.val)
        = satAdd 32 (s.rd .selftestRuns (8 * b.val + f.val)) 1 := State.wr_rd ..
    cases pass with
    | false => exact ⟨_, frameSelfTest_fails hold frame untested, fun _ =>
      lastingFault_frameLost (s := s.bump .selftestRuns (8 * b.val + f.val)) hold frame 1 0, nofun⟩
    | true =>
      cases launch : (s.board b.val).launchAt h.launch with
      | none =>
        refine ⟨_, frameSelfTest_gone hold frame untested launch, nofun, fun _ => ⟨?_, runs, rfl⟩⟩
        rw [nextHold, State.modBoard_board, State.bump_board, hold]
        rfl
      | some l =>
        refine ⟨_, frameSelfTest_tested hold frame untested launch, nofun, fun _ => ⟨?_, runs, rfl⟩⟩
        rw [State.modBoard_board, State.bump_board, hold]
        rfl
  · rw [proofReplay_gone hold frame tested gone, nextHold, State.modBoard, State.modBoard, hold]
    rfl
  · refine ⟨fun w bad => ⟨_, proofReplay_bad hold frame tested launched bad faults, storeUe_haltsWith ..⟩, fun good => ?_⟩
    obtain ⟨rods, vs, t, exec, ⟨dev, retired⟩, held, drain, stray, deck⟩ :=
      proofReplay_judged hold frame tested launched good faults rfl
    refine ⟨fun right => ?_, fun clean mismatch => ?_⟩
    · rw [if_pos (noRods right stray fun clean => (deck clean).2)] at exec
      obtain ⟨next, drained, kept, reported⟩ := transient_drains held frame drain rfl
      refine ⟨_, vs, exec, next, drained, fun clean => (deck clean).1, kept.trans retired, fun idle => reported ?_⟩
      rw [controlBusy, dev]
      exact idle
    · obtain ⟨-, count⟩ := deck clean
      rw [if_neg (count ▸ mismatch)] at exec
      exact ⟨_, exec, lastingFault_frameLost held frame 0 1⟩

end Sys2Proof.Machine
end

