-- ==== Sys2Proof/Proofs/Upkeep.lean ====
section
/-!
PROOFS. Proofs/Upkeep.lean: what the upkeep of a Board does beside its streams and its work: links, semaphores, beads, counters, reports
and halts. It ends no work and starts none, a fetch run only goes on, and what has left the module stays sent (`Upkeep`).
-/
-- One proof after another: in parallel, behind the tests' long evaluations, they ask for too many threads' stacks.
set_option Elab.async false

namespace Sys2Proof.Machine

/-! ### The relations -/

/-- q is r further on: more of its fills are under way, and less of its stash range is left. -/
structure FetchRun.Grown (r q : FetchRun) : Prop where
  frame : q = { r with next := q.next, going := q.going, stash := q.stash }
  stash : ∀ z, r.stash = some z → ∃ y, q.stash = some y ∧ y = { z with addr := y.addr, left := y.left }
  plain : r.stash = none → q.stash = none
  going : q = r ∨ q.going ≠ []

theorem FetchRun.Grown.refl (r : FetchRun) : r.Grown r := ⟨rfl, fun z h => ⟨z, h, rfl⟩, id, .inl rfl⟩

theorem FetchRun.Grown.trans {r q p : FetchRun} (h : r.Grown q) (k : q.Grown p) : r.Grown p where
  frame := by
    rw [k.frame, h.frame]
  stash z hz := by
    obtain ⟨y, hy, ey⟩ := h.stash z hz
    obtain ⟨w, hw, ew⟩ := k.stash y hy
    exact ⟨w, hw, by rw [ew, ey]⟩
  plain := k.plain ∘ h.plain
  going := by
    rcases k.going with rfl | going
    · exact h.going
    · exact .inr going

/-- y is x after upkeep: other links, buffers, semaphores, signals, beads and counters, fetch runs that have gone on, and perhaps a halt
with further faults. -/
structure Board.Upkept (x y : Board) : Prop where
  frame : y = { x with
    links := y.links, bufs := y.bufs, sems := y.sems, bsems := y.bsems, sigs := y.sigs, fetches := y.fetches, halt := y.halt
    haltFaults := y.haltFaults, haltDomains := y.haltDomains, squashing := y.squashing, lastChange := y.lastChange
    counters := y.counters, beads := y.beads, beadBuf := y.beadBuf, loadWaits := y.loadWaits }
  halt : x.halt ≠ .none → y.halt ≠ .none
  faults : ∀ f ∈ x.haltFaults, f ∈ y.haltFaults
  runs : ∀ r ∈ x.fetches, ∃ q ∈ y.fetches, r.Grown q

section
variable {x y z : Board}

theorem Board.Upkept.refl (x : Board) : x.Upkept x := ⟨rfl, id, fun _ h => h, fun r h => ⟨r, h, .refl r⟩⟩

theorem Board.Upkept.trans (h : x.Upkept y) (k : y.Upkept z) : x.Upkept z where
  frame := by
    rw [k.frame, h.frame]
  halt := k.halt ∘ h.halt
  faults f hf := k.faults f (h.faults f hf)
  runs r hr := by
    obtain ⟨q, hq, g⟩ := h.runs r hr
    obtain ⟨p, hp, g'⟩ := k.runs q hq
    exact ⟨p, hp, g.trans g'⟩

/-- Two steps, the later one named first. -/
theorem Board.Upkept.after (k : y.Upkept z) (h : x.Upkept y) : x.Upkept z := h.trans k

/-- An update that leaves fetch runs and halts. -/
theorem Board.Upkept.upd (frame : y = { x with
      links := y.links, bufs := y.bufs, sems := y.sems, bsems := y.bsems, sigs := y.sigs, fetches := y.fetches, halt := y.halt
      haltFaults := y.haltFaults, haltDomains := y.haltDomains, squashing := y.squashing, lastChange := y.lastChange
      counters := y.counters, beads := y.beads, beadBuf := y.beadBuf, loadWaits := y.loadWaits } := by rfl)
    (halt : y.halt = x.halt := by rfl) (faults : y.haltFaults = x.haltFaults := by rfl) (runs : y.fetches = x.fetches := by rfl) :
    x.Upkept y :=
  ⟨frame, fun h => halt ▸ h, fun _ h => faults ▸ h, fun r h => ⟨r, runs ▸ h, .refl r⟩⟩

theorem Board.Upkept.ite {c : Prop} [Decidable c] (hy : x.Upkept y) (hz : x.Upkept z) : x.Upkept (if c then y else z) := by
  split
  · exact hy
  · exact hz

end

section
variable {x y : Board} (h : x.Upkept y)
include h

theorem Board.Upkept.main : y.main = x.main := by rw [h.frame]
theorem Board.Upkept.fill : y.fill = x.fill := by rw [h.frame]
theorem Board.Upkept.launches : y.launches = x.launches := by rw [h.frame]
theorem Board.Upkept.frames : y.frames = x.frames := by rw [h.frame]
theorem Board.Upkept.slices : y.slices = x.slices := by rw [h.frame]
theorem Board.Upkept.rearms : y.rearms = x.rearms := by rw [h.frame]
theorem Board.Upkept.stashWrs : y.stashWrs = x.stashWrs := by rw [h.frame]
theorem Board.Upkept.gruns : y.gruns = x.gruns := by rw [h.frame]
theorem Board.Upkept.kept : y.kept = x.kept := by rw [h.frame]
theorem Board.Upkept.rjobs : y.rjobs = x.rjobs := by rw [h.frame]
theorem Board.Upkept.hops : y.hops = x.hops := by rw [h.frame]
theorem Board.Upkept.credits : y.credits = x.credits := by rw [h.frame]
theorem Board.Upkept.stepDone : y.stepDone = x.stepDone := by rw [h.frame]
theorem Board.Upkept.mapDpa : y.mapDpa = x.mapDpa := by rw [h.frame]
theorem Board.Upkept.mapCount : y.mapCount = x.mapCount := by rw [h.frame]

theorem Board.Upkept.strm (st : StreamSel) : y.strm st = x.strm st := by
  cases st
  · exact h.main
  · exact h.fill

end

/-- Registers that the upkeep of a Board does not write: the module's number, and counts of other work. -/
def Reg.steady : List Reg := [.fabricDevice, .reduceHops, .voteSquares, .stashDeniedCount]

/-- t is s after upkeep. -/
structure Upkeep (s t : State) : Prop where
  frame : t = { s with boards := t.boards, fab := t.fab, regs := t.regs, vers := t.vers, flash := t.flash, host := t.host, can := t.can
                       log := t.log, out := t.out }
  boards : ∀ c, (s.board c).Upkept (t.board c)
  out : ∀ o ∈ s.out, o ∈ t.out
  rd : ∀ r ∈ Reg.steady, ∀ u, t.rd r u = s.rd r u

section
variable {r s t u : State}

theorem Upkeep.refl (s : State) : Upkeep s s := ⟨rfl, fun _ => .refl _, fun _ h => h, fun _ _ _ => rfl⟩

theorem Upkeep.trans (h : Upkeep r s) (k : Upkeep s t) : Upkeep r t where
  frame := by
    rw [k.frame, h.frame]
  boards c := (h.boards c).trans (k.boards c)
  out o ho := k.out o (h.out o ho)
  rd q hq i := (k.rd q hq i).trans (h.rd q hq i)

/-- Two steps, the later one named first. -/
theorem Upkeep.after (k : Upkeep s t) (h : Upkeep r s) : Upkeep r t := h.trans k

theorem Upkeep.ite {c : Prop} [Decidable c] (ht : Upkeep s t) (hu : Upkeep s u) : Upkeep s (if c then t else u) := by
  split
  · exact ht
  · exact hu

/-- An update that leaves Boards, registers and what has left the module. -/
theorem Upkeep.upd (frame : t = { s with boards := t.boards, fab := t.fab, regs := t.regs, vers := t.vers, flash := t.flash
                                         host := t.host, can := t.can, log := t.log, out := t.out } := by rfl)
    (boards : t.boards = s.boards := by rfl) (out : t.out = s.out := by rfl) (regs : t.regs = s.regs := by rfl) : Upkeep s t where
  frame := frame
  boards c := by rw [State.board, State.board, boards]; exact .refl _
  out _ h := out ▸ h
  rd q _ i := by rw [State.rd, State.rd, regs]

theorem upkeep_forEach {α : Type} (l : List α) (f : α → State → State) (h : ∀ a s, Upkeep s (f a s)) (s : State) :
    Upkeep s (forEach l f s) := by
  unfold forEach
  induction l generalizing s with
  | nil => exact .refl s
  | cons a l ih => exact (h a s).trans (ih (f a s))

end

section
variable {s t : State} (h : Upkeep s t)
include h

theorem Upkeep.store : t.store = s.store := by rw [h.frame]
theorem Upkeep.dram : t.dram = s.dram := by rw [h.frame]
theorem Upkeep.doms : t.doms = s.doms := by rw [h.frame]
theorem Upkeep.job : t.job = s.job := by rw [h.frame]
theorem Upkeep.stks : t.stks = s.stks := by rw [h.frame]

theorem Upkeep.dom (d : Nat) : t.dom d = s.dom d := by rw [State.dom, State.dom, h.doms]

theorem Upkeep.haltsWith {b code : Nat} (k : HaltsWith b code s) : HaltsWith b code t := by
  obtain ⟨halt, f, hf, hc⟩ := k
  exact ⟨(h.boards b).halt halt, f, (h.boards b).faults f hf, hc⟩

end

/-! ### Boards, registers and what leaves the module -/

theorem upkeep_setBoard (b : Nat) {x : Board} {s : State} (h : (s.board b).Upkept x) : Upkeep s (s.setBoard b x) := by
  refine ⟨rfl, fun c => ?_, fun _ h => h, fun _ _ _ => rfl⟩
  by_cases hc : c = b
  · rw [hc, State.setBoard_board]
    exact h
  · rw [show (s.setBoard b x).board c = s.board c from tget_tset_of_ne _ _ _ _ _ hc]
    exact .refl _

theorem upkeep_modBoard (b : Nat) (f : Board → Board) (s : State) (h : ∀ x : Board, x.Upkept (f x) := by exact fun _ => .upd) :
    Upkeep s (s.modBoard b f) := upkeep_setBoard b (h _)

/-- A register of the dictionary that is none of those that upkeep leaves. -/
abbrev Reg.Unsteady (r : Reg) : Prop :=
  r.index < 65536 ∧ r.sub < 256 ∧ ∀ q ∈ Reg.steady, ¬ (q.index = r.index ∧ q.sub = r.sub)

theorem Reg.steady_size {q : Reg} (h : q ∈ Reg.steady) : q.index < 65536 ∧ q.sub < 256 := by
  revert q
  decide

theorem Reg.Unsteady.key_ne {r q : Reg} (h : r.Unsteady) (hq : q ∈ Reg.steady) (w u : Nat) : q.key w ≠ r.key u := by
  obtain ⟨hi, hs, apart⟩ := h
  have ne := apart q hq
  obtain ⟨qi, qs⟩ := Reg.steady_size hq
  simp only [Reg.key]
  omega

theorem upkeep_wr {r : Reg} (h : r.Unsteady) (v u : Nat) (s : State) : Upkeep s (s.wr r v u) :=
  ⟨rfl, fun _ => .refl _, fun _ h => h, fun q hq w => State.wr_rd_of_ne s r q v u w (h.key_ne hq w u)⟩

theorem upkeep_bump {r : Reg} (h : r.Unsteady) (u : Nat) (s : State) : Upkeep s (s.bump r u) := upkeep_wr h _ u s

theorem upkeep_emit (o : Out) (s : State) : Upkeep s (s.emit o) :=
  ⟨rfl, fun _ => .refl _, fun _ h => List.mem_cons_of_mem _ h, fun _ _ _ => rfl⟩

theorem upkeep_send (p : Pkt) (s : State) : Upkeep s (s.send p) := upkeep_emit _ s

theorem upkeep_touch (s : State) (b : Nat) : Upkeep s (touch s b) := upkeep_modBoard b _ s

/-! ### Reports and counts -/

theorem upkeep_canNotify (bs : List Byte) (s : State) : Upkeep s (canNotify s bs) := by
  unfold canNotify
  split
  · exact .refl s
  · split
    · dsimp only
      split
      · exact .upd
      · exact (upkeep_bump (r := .canIgnored) (by decide) 0 s).trans .upd
    · exact upkeep_emit _ s

theorem upkeep_report (c v d q : Nat) (s : State) : Upkeep s (report s c v d q) := by
  have fabric : ∀ bs u, Upkeep u (fabricNotify u bs) := fun _ u => .ite (.refl u) (upkeep_send _ u)
  have can : Upkeep s (if testBit (s.rd .notifyMaskCan) v then canNotify s (notifyBytes s c v d q) else s) :=
    .ite (upkeep_canNotify ..) (.refl s)
  exact .ite (.refl s) (can.trans (.ite (fabric ..) (.refl _)))

theorem upkeep_vector (v : Nat) (s : State) : Upkeep s (s.vector v) := by
  unfold State.vector
  split
  · exact .upd
  · exact upkeep_emit _ s

theorem upkeep_signal (v c d q : Nat) (s : State) : Upkeep s (s.signal v c d q) := by
  have cause : Upkeep s { s with host := { s.host with irqCause := s.host.irqCause ||| BitVec.ofNat 64 (2 ^ v) } } := .upd
  exact cause.trans ((upkeep_vector v _).trans (upkeep_report ..))

theorem upkeep_logFault (f : Flt) (s : State) : Upkeep s (logFault s f).1 := by
  unfold logFault
  split
  · exact .upd
  · split
    · exact upkeep_wr (by decide) _ 0 s
    · exact .upd

theorem upkeep_reportFault (f : Flt) (s : State) : Upkeep s (reportFault f s) := by
  have signals := ((upkeep_logFault f s).trans (upkeep_signal 1 f.code (f.domain.getD 0xFF) (logFault s f).2 _)).trans
    (upkeep_forEach (alsoVectors f.code) (fun v u => u.signal v f.code (f.domain.getD 0xFF) (logFault s f).2)
      (fun _ _ => upkeep_signal ..) _)
  unfold reportFault
  dsimp only
  split
  · exact signals.trans ((upkeep_wr (by decide) ..).trans (upkeep_vector ..))
  · exact signals

theorem upkeep_raise (f : Flt) (s : State) : Upkeep s (s.raise f) := .ite (upkeep_modBoard _ _ s) (upkeep_reportFault f s)

theorem upkeep_countEvent (b ev : Nat) (d f : Option Nat) (n : Nat) (s : State) : Upkeep s (countEvent b ev d f n s) := by
  unfold countEvent
  refine .ite (.refl s) (upkeep_forEach _ _ (fun k u => ?_) s)
  exact .ite (.trans (upkeep_modBoard b _ u) (.ite (upkeep_signal ..) (.refl _))) (.refl u)

/-! ### Beads -/

theorem upkeep_endBeads (b : Nat) (p : Bead → Bool) (flags : Nat) (s : State) : Upkeep s (endBeads b p flags s) := by
  have counted : ∀ (u : State) (r : Reg) (i : Nat), Upkeep u (u.bumpVer r i) := fun _ _ _ => .upd
  refine (upkeep_modBoard b _ s).trans (upkeep_forEach _ _ (fun k u => ?_) _)
  exact .ite (upkeep_bump (by decide) b u) (.after (counted ..) (.after (upkeep_wr (by decide) ..) (upkeep_modBoard b _ u)))

theorem upkeep_markBead (b bundle : Nat) (f : Nat → Bead → Bead) (s : State) : Upkeep s (markBead b bundle f s) := upkeep_modBoard b _ s

/-! ### Links and buffers -/

section
variable (x : Board)

theorem Board.upkept_initSems (l : Link) : x.Upkept (x.initSems l) := by
  have full : x.Upkept (if l.remoteProducer then x.setBsem l.fullSem 0 else if l.remoteConsumer then x else x.setSem l.fullSem 0) :=
    .ite .upd (.ite (.refl x) .upd)
  exact full.trans (.ite .upd (.ite (.refl _) .upd))

theorem Board.upkept_activate (i e : Nat) : x.Upkept (x.activate i e) :=
  .ite (.after (Board.upkept_initSems ..) .upd) (.ite .upd (.refl x))

theorem Board.upkept_settleLink (i : Nat) : x.Upkept (x.settleLink i) :=
  .ite (.after (Board.upkept_initSems ..) .upd) (.ite .upd (.refl x))

theorem Board.upkept_setLinkSem (beam : Bool) (i n : Nat) : x.Upkept (x.setLinkSem beam i n) := .ite .upd .upd

theorem Board.upkept_beginFill (l h e : Nat) : x.Upkept (x.beginFill l h e) := .upd

end

theorem upkeep_settleLink (b l : Nat) (s : State) : Upkeep s (s.modBoard b (fun x => x.settleLink l)) :=
  upkeep_modBoard b _ s (fun x => x.upkept_settleLink l)

theorem upkeep_takeEmpty {b l e h : Nat} {s t : State} (taken : takeEmpty b l e s = some (h, t)) : Upkeep s t := by
  have fill : ∀ y, ((s.board b).activate l e).Upkept y → ∀ h, Upkeep s (touch (s.setBoard b (y.beginFill l h e)) b) := fun y hy h =>
    (upkeep_setBoard b (((Board.upkept_activate ..).trans hy).trans (Board.upkept_beginFill ..))).trans (upkeep_touch ..)
  unfold takeEmpty at taken
  dsimp only at taken
  split at taken
  · cases taken
  · split at taken
    · split at taken
      · cases taken
      · cases taken
        exact fill _ (Board.upkept_setLinkSem ..) _
    · split at taken
      · split at taken
        · cases taken
          exact fill _ (.refl _) _
        · cases taken
      · cases taken

theorem upkeep_takeFull {b l h : Nat} {s t : State} (taken : takeFull b l s = some (h, t)) : Upkeep s t := by
  unfold takeFull at taken
  dsimp only at taken
  split at taken
  · cases taken
  · split at taken
    · split at taken
      · cases taken
      · cases taken
        exact .after (upkeep_touch ..) (upkeep_setBoard b (.after .upd (Board.upkept_setLinkSem ..)))
    · split at taken
      · cases taken
      · cases taken
        exact .after (upkeep_touch ..) (upkeep_setBoard b .upd)

/-! ### Halts -/

theorem upkeep_haltBoard (b : Nat) (f : Flt) (s : State) : Upkeep s (haltBoard b f s) := by
  refine upkeep_modBoard b _ s (fun x => ⟨rfl, fun h => ?_, fun _ h => List.mem_append_left _ h, fun r h => ⟨r, h, .refl r⟩⟩)
  dsimp only
  split
  · nofun
  · exact h

theorem upkeep_haltAll (b : Nat) (f : Flt) (s : State) : Upkeep s (haltAll b f s) := by
  unfold haltAll
  exact .after (upkeep_modBoard b _ _) (upkeep_haltBoard b f s)

theorem upkeep_haltWork (b : Nat) (w : Work) (f : Flt) (s : State) : Upkeep s (haltWork b w f s) := upkeep_haltBoard ..

/-! ### Fetch runs and semaphores -/

theorem upkeep_newTxn (k : TxnKind) (s : State) : Upkeep s (newTxn k s).2 := .upd

theorem upkeep_sendReads (b : Nat) (r : FetchRun) (fill : Nat) (s : State) : Upkeep s (sendReads b r fill s) :=
  upkeep_forEach _ _ (fun _ s => upkeep_forEach _ _ (fun _ s => (upkeep_newTxn _ s).trans (upkeep_send ..)) s) s

/-- A run replaced by itself further on. -/
theorem Board.upkept_setRun (x : Board) {old new : FetchRun} (h : old.Grown new) : x.Upkept (x.setRun old new) := by
  refine ⟨rfl, id, fun _ h => h, fun r hr => ?_⟩
  by_cases e : r = old
  · exact ⟨new, List.mem_map.2 ⟨r, hr, by simp [e]⟩, e ▸ h⟩
  · exact ⟨r, List.mem_map.2 ⟨r, hr, by simp [e]⟩, .refl r⟩

/-- A run that has started a fill. -/
theorem FetchRun.grown_fill (r : FetchRun) (g : Filling) : r.Grown { r with next := r.next + 1, going := r.going ++ [g] } :=
  ⟨rfl, fun z hz => ⟨z, hz, rfl⟩, id, .inr (by simp)⟩

/-- A stash read that has started a fill. -/
theorem FetchRun.grown_stash {r : FetchRun} {q : StashRd} (hq : r.stash = some q) (g : Filling) (addr left : Nat) :
    r.Grown { r with next := r.next + 1, going := r.going ++ [g], stash := some { q with addr := addr, left := left } } := by
  refine ⟨rfl, fun z hz => ?_, fun none => ?_, .inr (by simp)⟩
  · obtain rfl : q = z := Option.some.inj (hq.symm.trans hz)
    exact ⟨_, rfl, rfl⟩
  · cases hq.symm.trans none

theorem upkeep_startFills (b l n : Nat) (s : State) : Upkeep s (startFills b l n s) := by
  have started : ∀ {r q : FetchRun} (_ : r.Grown q) (i : Nat) (f : Board → Buf) (u : State),
      Upkeep u (u.modBoard b (fun x => (x.setRun r q).setBuf i (f x))) :=
    fun grown _ _ u => upkeep_modBoard b _ u (fun x => .after .upd (x.upkept_setRun grown))
  induction n generalizing s with
  | zero => exact .refl s
  | succ n ih =>
    unfold startFills
    split
    · exact .refl s
    · split
      · exact .refl s
      · rename_i empty
        refine (upkeep_takeEmpty empty).trans ?_
        dsimp only
        split
        · rename_i stash
          exact .after (ih _) (started (FetchRun.grown_stash stash ..) ..)
        · refine .after (ih _) (.after (.ite (upkeep_sendReads ..) (.refl _)) ?_)
          exact .after (started (FetchRun.grown_fill ..) ..) (.ite (upkeep_markBead ..) (.refl _))

theorem upkeep_resumeFills (b : Nat) (beam : Bool) (sem : Nat) (s : State) : Upkeep s (resumeFills b beam sem s) :=
  upkeep_forEach _ _ (fun l u => upkeep_startFills b l 64 u) s

theorem upkeep_signalSem (b k n : Nat) (s : State) : Upkeep s (signalSem b k n s) := by
  rcases signalSem_cases b k n s with ⟨-, h⟩ | ⟨-, h⟩ | ⟨-, h⟩ <;> rw [h]
  · exact .refl s
  · exact upkeep_haltAll ..
  · exact .after (upkeep_resumeFills ..) (.after (upkeep_touch ..) (upkeep_modBoard b _ s))

theorem upkeep_sendSemSignal (b dest sem n kind e g ge : Nat) (s : State) : Upkeep s (sendSemSignal b dest sem n kind e g ge s) :=
  upkeep_send ..

theorem upkeep_signalEntry (b k n e : Nat) (s : State) : Upkeep s (signalEntry b k n e s) := by
  unfold signalEntry
  split
  · exact .ite (.refl s) (upkeep_sendSemSignal ..)
  · exact .refl s

theorem upkeep_sendSig (b e : Nat) (g : SemSig) (s : State) : Upkeep s (sendSig b e g s) :=
  .ite (upkeep_signalSem ..) (upkeep_signalEntry ..)

theorem upkeep_settleSigs (b : Nat) (s : State) : Upkeep s (settleSigs b s) :=
  .after (upkeep_forEach _ _ (fun _ _ => upkeep_sendSig ..) _) (upkeep_modBoard b _ s)

theorem upkeep_settleBeads (b : Nat) (s : State) : Upkeep s (settleBeads b s) := upkeep_endBeads ..

theorem upkeep_settleWork (b : Nat) (s : State) : Upkeep s (settleWork b s) := (upkeep_settleSigs b s).trans (upkeep_settleBeads ..)

theorem upkeep_noteSquash (b : Nat) (s : State) : Upkeep s (noteSquash b s) :=
  .ite (.after (upkeep_wr (by decide) ..) (upkeep_modBoard b _ s)) (.refl s)

end Sys2Proof.Machine
end

