-- ==== Sys2Proof/Proofs/Admission.lean ====
section
/-!
PROOFS. Proofs/Admission.lean: the admission of a micro-batch, the opening of a step and the admission watchdog (R9, R84, R85, R89, R168).
-/
-- One proof after another: in parallel, behind the tests' long evaluations, they ask for too many threads' stacks.
set_option Elab.async false

namespace Sys2Proof.Machine

/-! ### The opening of a step (R9, R168, R191) -/

theorem forEach_modBoard_frame (l : List Nat) (f : Board → Board) (s : State) :
    forEach l (fun b s => s.modBoard b f) s = { s with boards := (forEach l (fun b s => s.modBoard b f) s).boards } := by
  unfold forEach
  induction l generalizing s with
  | nil => rfl
  | cons b l ih =>
    rw [List.foldl_cons, ih]
    rfl

theorem forEach_modStack_frame (l : List Nat) (f : Stack → Stack) (s : State) :
    forEach l (fun k s => s.modStack k f) s = { s with stks := (forEach l (fun k s => s.modStack k f) s).stks } := by
  unfold forEach
  induction l generalizing s with
  | nil => rfl
  | cons k l ih =>
    rw [List.foldl_cons, ih]
    rfl

theorem forEach_modStack_of_notMem {l : List Nat} {k : Nat} (h : k ∉ l) (f : Stack → Stack) (s : State) :
    (forEach l (fun k s => s.modStack k f) s).stack k = s.stack k := by
  unfold forEach
  induction l generalizing s with
  | nil => rfl
  | cons j l ih =>
    obtain ⟨hj, hl⟩ := not_or.1 (mt List.mem_cons.2 h)
    exact (ih hl _).trans (State.modStack_stack_of_ne _ _ _ _ hj)

/-- Each stack of a list without repetitions is updated once. -/
theorem forEach_modStack_of_mem {l : List Nat} {k : Nat} (nodup : l.Nodup) (h : k ∈ l) (f : Stack → Stack) (s : State) :
    (forEach l (fun k s => s.modStack k f) s).stack k = f (s.stack k) := by
  unfold forEach
  induction l generalizing s with
  | nil => cases h
  | cons j l ih =>
    obtain ⟨hj, hl⟩ := List.nodup_cons.1 nodup
    rcases List.mem_cons.1 h with rfl | hk
    · exact (forEach_modStack_of_notMem hj f _).trans (State.modStack_stack ..)
    · refine (ih hl hk _).trans (congrArg f (State.modStack_stack_of_ne _ _ _ _ ?_))
      rintro rfl
      exact hj hk

theorem toStacks_frame (m : HubMsg) (s : State) : toStacks m s = { s with stks := (toStacks m s).stks } := forEach_modStack_frame ..

theorem toStacks_inbox {k : Nat} {s : State} (ok : s.stackOk k = true) (m : HubMsg) :
    ((toStacks m s).stack k).inbox = (s.stack k).inbox ++ [m] := by
  have lt : k < 12 := by
    rw [State.stackOk, Bool.and_eq_true, decide_eq_true_eq] at ok
    exact ok.1
  have mem : k ∈ s.stacksOk := List.mem_filter.2 ⟨List.mem_range.2 lt, ok⟩
  exact congrArg Stack.inbox (forEach_modStack_of_mem (List.nodup_range.filter _) mem _ s)

theorem openStep_frame (d t : Nat) (s : State) :
    openStep d t s = { s with doms := (openStep d t s).doms, boards := (openStep d t s).boards, stks := (openStep d t s).stks } := by
  unfold openStep latchFrozen
  dsimp only
  rw [toStacks_frame, forEach_modBoard_frame]
  rfl

/-- A domain whose step of tag t has been started. -/
def Dom.stepStarted (x : Dom) (t : Nat) (time : W64) : Dom :=
  { x with
    phase := .opening, openTag := t, mbs := [], openedAt := time, appliedBy := 0
    watch := { totOvf := x.watch.totOvf, totInf := x.watch.totInf, totNan := x.watch.totNan, sticky := x.watch.sticky }
    updFault := false, updFaultCode := 0
    boardsDone := 0, stacksDone := 0, missingRaised := false, immediate := false, voidCause := 0
    lossDigest := 0#64, lossCount := 0, stepPositions := []
    exch := { x.exch with state := 0, offer := 0, sentUp := false, timeoutRaised := false } }

theorem openStep_doms (d t : Nat) (s : State) :
    (openStep d t s).doms = (latchFrozen d (s.modDom d (fun x => x.stepStarted t s.time))).doms := by
  unfold openStep
  dsimp only
  rw [toStacks_frame, forEach_modBoard_frame]
  rfl

theorem openStep_dom (d t : Nat) (s : State) : (openStep d t s).dom d = { (s.dom d).stepStarted t s.time with
    frozen := (s.job.pgroups.filter (fun g => pgUsed g.2 && pgDomain g.2 == d && pgFrozen g.2)).map (·.1)
    strict := s.rd .strict d == 1 } := by
  rw [State.dom, openStep_doms, ← State.dom, latchFrozen, State.modDom_dom, State.modDom_dom]
  rfl

section
variable (d t : Nat) (s : State)

theorem openStep_phase : ((openStep d t s).dom d).phase = .opening := by
  rw [openStep_dom]
  rfl

theorem openStep_openTag : ((openStep d t s).dom d).openTag = t := by
  rw [openStep_dom]
  rfl

theorem openStep_mbs : ((openStep d t s).dom d).mbs = [] := by
  rw [openStep_dom]
  rfl

theorem openStep_ring : ((openStep d t s).dom d).ring = (s.dom d).ring := by
  rw [openStep_dom]
  rfl

theorem openStep_strict : ((openStep d t s).dom d).strict = (s.rd .strict d == 1) := by rw [openStep_dom]

theorem openStep_frozen (g : Nat) : g ∈ ((openStep d t s).dom d).frozen
    ↔ ∃ e, (g, e) ∈ s.job.pgroups ∧ pgUsed e = true ∧ pgDomain e = d ∧ pgFrozen e = true := by
  rw [openStep_dom]
  simp [and_assoc]

end

theorem openStep_dom_of_ne {d e : Nat} (h : e ≠ d) (t : Nat) (s : State) : (openStep d t s).dom e = s.dom e := by
  rw [State.dom, openStep_doms, ← State.dom, latchFrozen, State.modDom_dom_of_ne _ _ _ _ h, State.modDom_dom_of_ne _ _ _ _ h]

theorem openStep_inbox (d t : Nat) {k : Nat} {s : State} (ok : s.stackOk k = true) :
    ((openStep d t s).stack k).inbox = (s.stack k).inbox ++ [.openStep d t] := by
  unfold openStep latchFrozen
  dsimp only
  rw [forEach_modBoard_frame]
  exact toStacks_inbox (by exact ok) _

/-! ### Admission (R84, R85) -/

/-- The micro-batch that a record becomes in a domain. -/
def mbatchOf (x : Dom) (r : BitVec 512) (slotAddr : Nat) (res : List (Nat × Nat × Nat)) (written : Bool) : MBatch :=
  { index := x.mbs.length, len := recLen r, record := r, slotAddr := slotAddr, reserved := res
    held := res.map (fun e => (e.1, e.2.1, e.2.1 + e.2.2)), statusWritten := written }

/-- A record enters its step, whose opening is complete or not. -/
def admitRecord (d : Nat) (r : BitVec 512) (slotAddr : Nat) (res : List (Nat × Nat × Nat)) (written : Bool) (s : State) : State :=
  (dispose d 1 (s.dom d).mbs.length written s).modDom d (fun y => { y with mbs := y.mbs ++ [mbatchOf (s.dom d) r slotAddr res written] })

theorem admitRecord_eq (d : Nat) (r : BitVec 512) (slotAddr : Nat) (res : List (Nat × Nat × Nat)) (written : Bool) (s : State) :
    admitRecord d r slotAddr res written s
      = (if written then s.emit (.hostWrite (s.dom d).ring.slotAddr (leBytes 4 (1 + (s.dom d).mbs.length <<< 16))) else s).modDom d
        (fun y => { y with
          ring := { y.ring with
            cons := ((s.dom d).ring.cons + 1) % 2 ^ 32, lastStatus := 1, head := none, reported := false, state := .active }
          mbs := y.mbs ++ [mbatchOf (s.dom d) r slotAddr res written] }) := by
  unfold admitRecord dispose
  dsimp only
  rw [if_neg (by decide), State.modDom_modDom]

section
variable {d : DomainNo} {r : BitVec 512} {res : List (Nat × Nat × Nat)} {s : State}
  (head : (s.dom d.val).ring.head = some r) (idle : schedulerBusy s = false)
  (fits : s.reservation d.val (recLenMax r) = some res)
include head idle fits

/-- In a step that is under way, before its offer, a record whose reservation fits is admitted. -/
theorem exec_microBatchAdmit_busy (busy : (s.dom d.val).busy = true) (exch : (s.dom d.val).exch.state = 0) :
    exec (.microBatchAdmit d) s
      = .next (admitRecord d.val r (s.dom d.val).ring.slotAddr res ((s.dom d.val).phase == .open) s) := by
  show execMicroBatchAdmit d s = _
  unfold execMicroBatchAdmit
  simp only [head, idle, fits, busy, exch]
  rfl

/-- Where no step is open, and one may start, the first record opens it. -/
theorem exec_microBatchAdmit_opens (closed : (s.dom d.val).busy = false) (may : s.mayOpen d.val = true) :
    exec (.microBatchAdmit d) s
      = .next (admitRecord d.val r (s.dom d.val).ring.slotAddr res false (openStep d.val (recTag r) s)) := by
  have opening : (((openStep d.val (recTag r) s).dom d.val).phase == .open) = false := by
    rw [openStep_phase]
    rfl
  show execMicroBatchAdmit d s = _
  unfold execMicroBatchAdmit
  simp only [head, idle, fits, closed, may, Bool.and_false, Bool.not_true, Bool.or_false, Bool.false_eq_true, if_false, opening]
  rfl

end

/-! ### The end of an opening (R168) -/

theorem forEach_emit {α : Type} (l : List α) (g : α → Out) (s : State) :
    forEach l (fun a s => s.emit (g a)) s = { s with out := (l.map g).reverse ++ s.out } := by
  unfold forEach
  induction l generalizing s with
  | nil => rfl
  | cons a l ih =>
    rw [List.foldl_cons, ih]
    simp [State.emit]

/-- The step counts as open, and the STATUS words that were held back are written. -/
def stepOpened (d : Nat) (s : State) : State := writeStatuses d (s.modDom d (fun x => { x with phase := .open }))

theorem exec_openingComplete_opens {d : DomainNo} {s : State} (opening : (s.dom d.val).phase = .opening)
    (applied : ∀ k, s.stackOk k = true → (s.dreg k d.val).isOpen = true ∧ (s.dreg k d.val).openTag = (s.dom d.val).openTag) :
    exec (.openingComplete d) s = .next (stepOpened d.val s) := by
  have all : s.stacksOk.all (fun k => (s.dreg k d.val).isOpen && (s.dreg k d.val).openTag == (s.dom d.val).openTag) = true := by
    refine List.all_eq_true.2 (fun k hk => ?_)
    obtain ⟨isOpen, tag⟩ := applied k (List.mem_filter.1 hk).2
    simp [isOpen, tag]
  show execOpeningComplete d s = _
  unfold execOpeningComplete
  simp only [opening, all]
  rfl

section
variable (d : Nat) (s : State)

theorem stepOpened_eq : stepOpened d s
    = State.modDom { s with out := (((s.dom d).mbs.filter (fun m => !m.statusWritten)).map
        (fun m => Out.hostWrite m.slotAddr (leBytes 4 (1 + m.index <<< 16)))).reverse ++ s.out } d
        (fun x => { x with phase := .open, mbs := x.mbs.map (fun m => { m with statusWritten := true }) }) := by
  unfold stepOpened writeStatuses
  rw [forEach_emit, State.modDom_dom]
  simp [State.modDom, State.setDom, State.dom, tset_tset]

theorem stepOpened_dom : (stepOpened d s).dom d
    = { s.dom d with phase := .open, mbs := (s.dom d).mbs.map (fun m => { m with statusWritten := true }) } := by
  rw [stepOpened_eq, State.modDom_dom]
  rfl

theorem stepOpened_dom_of_ne {e : Nat} (h : e ≠ d) : (stepOpened d s).dom e = s.dom e := by
  rw [stepOpened_eq, State.modDom_dom_of_ne _ _ _ _ h]
  rfl

theorem stepOpened_frame : stepOpened d s = { s with doms := (stepOpened d s).doms, out := (stepOpened d s).out } := by
  rw [stepOpened_eq]
  rfl

/-- A STATUS word that was held back is written. -/
theorem stepOpened_status {m : MBatch} (h : m ∈ (s.dom d).mbs) (held : m.statusWritten = false) :
    Out.hostWrite m.slotAddr (leBytes 4 (1 + m.index <<< 16)) ∈ (stepOpened d s).out := by
  rw [stepOpened_eq]
  exact List.mem_append_left _ (List.mem_reverse.2 (List.mem_map.2 ⟨m, List.mem_filter.2 ⟨h, by rw [held]; rfl⟩, rfl⟩))

end

/-! ### The watchdog (R89) -/

/-- STASH_DENIED of a micro-batch that waits: its unit of stash that is short, in KiB (Table 15-6). -/
def waitFlt (d : Nat) (r : BitVec 512) (s : State) : Flt :=
  { code := 0x0201, kind := 11, unit := d, domain := some d, mb := if (s.dom d).busy then (s.dom d).mbs.length else 0, user := recUser r
    detail := packAt [(0, 1, 1),
      (4, 4, ceilDiv ((s.stashBoards d).foldl (fun a b => max a (s.stashNeed b d (recLenMax r))) 0) 4)] }

/-- The state that reports a wait: it is marked and counted. -/
def waitNoted (d : Nat) (s : State) : State := (setRing d (fun q => { q with reported := true }) s).bump .stashDeniedCount d

theorem waitNoted_dom (d : Nat) (s : State) :
    (waitNoted d s).dom d = { s.dom d with ring := { (s.dom d).ring with reported := true } } :=
  State.modDom_dom s d (fun x => { x with ring := { x.ring with reported := true } })

theorem exec_admitWatchdog_reports {d : DomainNo} {r : BitVec 512} {s : State} (head : (s.dom d.val).ring.head = some r)
    (first : (s.dom d.val).ring.reported = false) (waits : s.reservation d.val (recLenMax r) = none) :
    exec (.admitWatchdog d) s = .next ((waitNoted d.val s).raise (waitFlt d.val r s)) := by
  show execAdmitWatchdog d s = _
  unfold execAdmitWatchdog
  simp only [head, first, waits]
  rfl

theorem exec_admitWatchdog_reported {d : DomainNo} {s : State} (h : (s.dom d.val).ring.reported = true) :
    exec (.admitWatchdog d) s = .next s := by
  show execAdmitWatchdog d s = _
  unfold execAdmitWatchdog
  dsimp only
  split
  · rfl
  · rw [h]
    rfl

/-- A cause that a fault's row names besides vector 1. -/
theorem reportFault_also {f : Flt} {v : Nat} (h : v ∈ alsoVectors f.code) (lt : v < 64) (s : State) :
    (reportFault f s).host.irqCause.getLsbD v = true := by
  have rises : ∀ (vs : List Nat) (u : State), v ∈ vs →
      (forEach vs (fun w u => u.signal w f.code (f.domain.getD 0xFF) (logFault s f).2) u).host.irqCause.getLsbD v = true := fun vs u hv => by
    unfold forEach
    induction vs generalizing u with
    | nil => cases hv
    | cons w vs ih =>
      rcases List.mem_cons.1 hv with rfl | hv
      · exact forEach_signal_irqCause vs _ _ _ v _ (by rw [signal_irqCause, BitVec.getLsbD_or, BitVec.getLsbD_ofNat, Nat.testBit_two_pow_self]; simp [lt])
      · exact ih _ hv
  unfold reportFault
  dsimp only
  split
  · rw [domCause_irqCause]
    exact rises _ _ h
  · exact rises _ _ h

/-- Settles O13: what an admission writes, in a step that is open, opening or opened by it; what the end of an opening writes; and the
report of a wait. -/
theorem admissionOfAMicroBatch : Obligations.AdmissionOfAMicroBatch := by
  refine ⟨fun d r res s head idle fits => ⟨fun phase exch => ?_, fun phase exch => ?_, fun phase may => ?_⟩,
    fun d s opening applied => ?_, fun d r s head first waits => ?_⟩
  · rw [exec_microBatchAdmit_busy head idle fits (by simp [Dom.busy, Dom.isOpen, phase]) exch, admitRecord_eq, phase]
    rfl
  · rw [exec_microBatchAdmit_busy head idle fits (by simp [Dom.busy, phase]) exch, admitRecord_eq, phase]
    rfl
  · have closed : (s.dom d.val).busy = false := by simp [Dom.busy, Dom.isOpen, phase]
    refine ⟨_, exec_microBatchAdmit_opens head idle fits closed may, ?_⟩
    rw [admitRecord_eq, if_neg (by decide)]
    simp only [State.modDom_dom, State.modDom_out]
    refine ⟨openStep_phase .., openStep_openTag .., ?_, ?_, ?_, openStep_strict .., fun g => openStep_frozen ..,
      fun k ok => openStep_inbox _ _ ok, fun e he => ?_⟩
    · rw [openStep_frame]
    · rw [mbatchOf, openStep_mbs]
      rfl
    · rw [openStep_ring]
    · rw [State.modDom_dom_of_ne _ _ _ _ he]
      exact openStep_dom_of_ne he ..
  · refine ⟨_, exec_openingComplete_opens opening applied, ?_, fun m hm => ?_, fun m hm held => stepOpened_status _ _ hm held,
      stepOpened_frame .., fun e he => stepOpened_dom_of_ne _ _ he⟩
    · rw [stepOpened_dom]
    · rw [stepOpened_dom] at hm
      obtain ⟨k, -, rfl⟩ := List.mem_map.1 hm
      rfl
  · have kept := upkeep_raise (waitFlt d.val r s) (waitNoted d.val s)
    have reported : (waitNoted d.val s).raise (waitFlt d.val r s) = reportFault (waitFlt d.val r s) (waitNoted d.val s) :=
      raise_reported (recordWaits_none rfl _)
    have ring := (kept.dom d.val).trans (waitNoted_dom d.val s)
    refine ⟨_, exec_admitWatchdog_reports head first waits, ?_, ?_, ?_, ring, exec_admitWatchdog_reported (by rw [ring])⟩
    · rw [kept.rd .stashDeniedCount (by decide)]
      exact State.wr_rd ..
    · rw [reported, testBit_eq]
      exact reportFault_irqCause ..
    · rw [reported, testBit_eq]
      exact reportFault_also (v := 4) (by decide : 4 ∈ alsoVectors 0x0201) (by decide) _

end Sys2Proof.Machine
end

