-- ==== Sys2Proof/Proofs/Turns.lean ====
section
/-!
PROOFS. Proofs/Turns.lean: the turn of a bundle's action (R136): what the issue of a bundle leaves, how a command meets its stream, and what
the end of an action changes.
-/
-- One proof after another: in parallel, behind the tests' long evaluations, they ask for too many threads' stacks.
set_option Elab.async false

namespace Sys2Proof.Machine

/-! ### Streams -/

@[simp] theorem Board.setStrm_strm (x : Board) (st : StreamSel) (y : Stream) : (x.setStrm st y).strm st = y := by
  cases st <;> rfl

theorem Board.sameUnits_setStrm (x : Board) (st : StreamSel) (y : Stream) : x.SameUnits (x.setStrm st y) := by
  cases st <;> exact .upd

/-! ### The issue of a bundle (R136) -/

theorem still_countIssue (b : Nat) (st : StreamSel) (d : Option Nat) (s : State) : Still s (countIssue b st d s) := by
  cases st with
  | main => exact .after (still_countEvent ..) (still_bump (by decide) ..)
  | filler => exact .after (still_countEvent ..) (.after (still_bump (by decide) ..) (still_bump (by decide) ..))

theorem still_openBead (b : Nat) (st : StreamSel) (n : Next) (id layer mb : Nat) (layered : Bool) (s : State) :
    Still s (openBead b st n id layer mb layered s) := by
  have counted := still_modBoard b (fun y => { y with beadK := ((s.board b).beadK + 1) % 2 ^ 32 }) s
  exact .ite (.refl s) (.ite counted (.ite (.after (still_modBoard b _ _) counted) (.after (still_bump (by decide) ..) counted)))

/-- The issue of a bundle moves no memory and no domain, and enters no Frame. -/
theorem still_beginIssue (b : Nat) (st : StreamSel) (n : Next) (d : Nat) (s : State) : Still s (beginIssue b st n d s) := by
  refine .after (still_openBead ..) (.after (still_countIssue ..) (.after (still_modBoard b _ _ fun x => ?_) (.ite (.refl s) ?_)))
  · exact .trans .upd (Board.sameUnits_setStrm _ st _)
  · exact .after (still_touch ..) (still_modBoard b _ s fun x => .ite (x.sameUnits_setSem ..) (x.sameUnits_setBsem ..))

section
variable {b : BoardNo} {st : StreamSel} {a op : Nat} {i : Issue} {s u : State}

/-- A bundle whose turn has come is under issue. -/
theorem turns_issue (h : Turns b st a op i s u) : ((u.board b.val).strm st).issue = some i := by
  rcases turn_act h with ⟨issue, -, rfl⟩ | ⟨-, d, -, -, issue⟩
  · exact issue
  · exact issue

theorem turns_still (h : Turns b st a op i s u) : Still s u := by
  rcases turn_act h with ⟨-, -, rfl⟩ | ⟨-, d, -, rfl, -⟩
  · exact .refl _
  · exact still_beginIssue ..

/-! ### How a command meets its stream -/

/-- The halt of a turn is that of Table 06-3. -/
theorem turn_halted (h : turn b.val st a op s = .halted u) : HaltsWith b.val 0x0104 u := by
  cases hi : ((s.board b.val).strm st).issue with
  | some j =>
    rw [turn_issued hi] at h
    split at h <;> cases h
  | none =>
    simp only [turn, hi] at h
    split at h
    · cases h
    split at h
    · cases h
    split at h
    · cases h
    split at h
    · cases h
      exact haltWork_haltsWith ..
    · split at h <;> cases h

variable {ok : Issue → State → Bool} {f : Issue → State → State}

theorem onTurnIf_none (h : turn b.val st a op s = .none) : onTurnIf b st a op ok f s = .next s := by
  unfold onTurnIf
  rw [h]

theorem onTurnIf_halted (h : turn b.val st a op s = .halted u) : onTurnIf b st a op ok f s = .next u := by
  unfold onTurnIf
  rw [h]

/-- An action whose turn it is, and that still has to wait. -/
theorem onTurnIf_waits (h : Turns b st a op i s u) (wait : ok i u = false) : onTurnIf b st a op ok f s = .next s := by
  unfold onTurnIf
  rw [show turn b.val st a op s = .act i u from h]
  simp [wait]

theorem onTurnIf_acts (h : Turns b st a op i s u) (may : ok i u = true) :
    onTurnIf b st a op ok f s = .next (popAct b.val st (f i u)) := by
  unfold onTurnIf
  rw [show turn b.val st a op s = .act i u from h]
  simp [may]

theorem onTurn_acts (h : Turns b st a op i s u) : onTurn b st a op f s = .next (popAct b.val st (f i u)) := by
  unfold onTurn
  rw [show turn b.val st a op s = .act i u from h]

/-- An action without a wait of its own. -/
theorem onTurn_eq (f : Issue → State → State) (s : State) : onTurn b st a op f s = onTurnIf b st a op (fun _ _ => true) f s := by
  unfold onTurn onTurnIf
  cases turn b.val st a op s <;> rfl

/-- Each command of an action meets its stream in one way. -/
theorem bundleAction_onTurnIf {c : Instr} (h : BundleAction b st a op c) : ∃ ok f, ∀ s, exec c s = onTurnIf b st a op ok f s := by
  rcases h with ⟨rfl, rfl, rfl⟩ | ⟨rfl, rfl, rfl⟩ | ⟨rfl, rfl, rfl⟩ | ⟨rfl, rfl, rfl⟩ | ⟨rfl, rfl, rfl⟩ | ⟨rfl, rfl, rfl⟩ | ⟨rfl, rfl, rfl⟩
    | ⟨rfl, rfl, rfl⟩ | ⟨rfl, rfl, rfl⟩ | ⟨rfl, rfl, rfl⟩ | ⟨rfl, rfl, m, rfl⟩
  case inr.inr.inr.inr.inr.inr.inl => exact ⟨_, _, onTurn_eq _⟩
  case inr.inr.inr.inr.inr.inr.inr.inl => exact ⟨_, _, onTurn_eq _⟩
  case inr.inr.inr.inr.inr.inr.inr.inr.inl => exact ⟨_, _, onTurn_eq _⟩
  case inr.inr.inr.inr.inr.inr.inr.inr.inr.inl => exact ⟨_, _, onTurn_eq _⟩
  all_goals exact ⟨_, _, fun _ => rfl⟩

end

/-! ### The end of an action -/

/-- What a bundle has left to issue after the action at its head. -/
def Issue.rest (i : Issue) : Option Issue :=
  match i.acts.drop 1 with
  | [] => none
  | a :: as => some { i with acts := a :: as }

section
variable {b : Nat} {st : StreamSel} {i : Issue} {v : State} (issue : ((v.board b).strm st).issue = some i)
include issue

/-- The end of an action changes its stream and the signals that wait; what follows is upkeep. -/
theorem popAct_upkeep : ∃ sigs y, y.issue = i.rest ∧ Upkeep (v.modBoard b (fun x => ({ x with sigs := sigs }).setStrm st y)) (popAct b st v) := by
  unfold popAct
  simp only [issue]
  cases acts : i.acts.drop 1 with
  | nil => exact ⟨_, _, by simp only [Issue.rest, acts], upkeep_settleWork ..⟩
  | cons a as =>
    refine ⟨(v.board b).sigs, { (v.board b).strm st with issue := some { i with acts := a :: as } }, by simp only [Issue.rest, acts], ?_⟩
    cases st <;> exact .refl _

theorem popAct_still : Still v (popAct b st v) := by
  have set : ∀ y, Still v (v.modBoard b (fun x => x.setStrm st y)) := fun y => still_modBoard b _ v fun x => x.sameUnits_setStrm st y
  unfold popAct
  simp only [issue]
  split
  · exact set _
  · exact .after (still_settleWork ..) (still_modBoard b _ v fun x => .trans .upd (Board.sameUnits_setStrm _ st _))

theorem popAct_done {c : BoardNo} (hc : c.val = b) : ActionDone c st i (popAct b st v) := by
  obtain ⟨sigs, y, done, kept⟩ := popAct_upkeep issue
  have rest : (((popAct b st v).board b).strm st).issue = i.rest := by
    rw [(kept.boards b).strm, State.modBoard_board, Board.setStrm_strm, done]
  rw [ActionDone, hc, rest]
  cases acts : i.acts.drop 1 <;> simp only [Issue.rest, acts]

theorem popAct_haltsWith {code : Nat} (h : HaltsWith b code v) : HaltsWith b code (popAct b st v) := by
  obtain ⟨sigs, y, -, kept⟩ := popAct_upkeep issue
  refine kept.haltsWith ?_
  rw [HaltsWith, State.modBoard_board]
  cases st <;> exact h

end

end Sys2Proof.Machine
end

