-- ==== Sys2Proof/Proofs/Actions.lean ====
section
/-!
PROOFS. Proofs/Actions.lean: what each action of a bundle does when its turn has come (R136 to R145, R148): fetch runs and stash reads that
start, stash writes, releases, gather runs, signals, and the end of a step.
-/
-- One proof after another: in parallel, behind the tests' long evaluations, they ask for too many threads' stacks.
set_option Elab.async false

namespace Sys2Proof.Machine

/-! ### What the end of an action leaves -/

/-- y has the work of x in hand: launches, runs and writes, jobs and slices, and the marks of steps; fetch runs may have gone on. -/
structure Board.SameWork (x y : Board) : Prop where
  frames : y.frames = x.frames
  launches : y.launches = x.launches
  stashWrs : y.stashWrs = x.stashWrs
  gruns : y.gruns = x.gruns
  rjobs : y.rjobs = x.rjobs
  slices : y.slices = x.slices
  stepDone : y.stepDone = x.stepDone
  kept : y.kept = x.kept
  rearms : y.rearms = x.rearms
  runs : ∀ r ∈ x.fetches, ∃ q ∈ y.fetches, r.Grown q

theorem Board.Upkept.sameWork {x y : Board} (h : x.Upkept y) : x.SameWork y :=
  ⟨h.frames, h.launches, h.stashWrs, h.gruns, h.rjobs, h.slices, h.stepDone, h.kept, h.rearms, h.runs⟩

theorem Board.SameWork.trans {x y z : Board} (h : x.SameWork y) (k : y.SameWork z) : x.SameWork z where
  frames := k.frames.trans h.frames
  launches := k.launches.trans h.launches
  stashWrs := k.stashWrs.trans h.stashWrs
  gruns := k.gruns.trans h.gruns
  rjobs := k.rjobs.trans h.rjobs
  slices := k.slices.trans h.slices
  stepDone := k.stepDone.trans h.stepDone
  kept := k.kept.trans h.kept
  rearms := k.rearms.trans h.rearms
  runs r hr := by
    obtain ⟨q, hq, g⟩ := h.runs r hr
    obtain ⟨p, hp, g'⟩ := k.runs q hq
    exact ⟨p, hp, g.trans g'⟩

theorem Board.sameWork_setStrm (x : Board) (sigs : List (Nat × Nat × SemSig)) (st : StreamSel) (y : Stream) :
    x.SameWork (({ x with sigs := sigs } : Board).setStrm st y) := by
  cases st <;> exact ⟨rfl, rfl, rfl, rfl, rfl, rfl, rfl, rfl, rfl, fun r h => ⟨r, h, .refl r⟩⟩

theorem popAct_sameWork {b : Nat} {st : StreamSel} {i : Issue} {v : State} (issue : ((v.board b).strm st).issue = some i) :
    (v.board b).SameWork ((popAct b st v).board b) := by
  obtain ⟨sigs, y, -, kept⟩ := popAct_upkeep issue
  have after := (kept.boards b).sameWork
  rw [State.modBoard_board] at after
  exact (Board.sameWork_setStrm ..).trans after

/-! ### NOP (R134, R148) -/

section
variable {b : BoardNo} {st : StreamSel} {i : Issue} {s u : State}

theorem exec_nop_later (h : turn b.val st 12 0 s = .none) : exec (.nop b st) s = onTurn b st 11 opNop (fun _ s => s) s := by
  show execNop b st s = _
  unfold execNop
  rw [h]

theorem exec_nop_halted (h : turn b.val st 12 0 s = .halted u) : exec (.nop b st) s = .next u := by
  show execNop b st s = _
  unfold execNop
  rw [h]

theorem exec_nop_acts (h : Turns b st 12 0 i s u) : exec (.nop b st) s = .next (popAct b.val st u) := by
  show execNop b st s = _
  unfold execNop
  rw [show turn b.val st 12 0 s = .act i u from h]

theorem nop_does_its_turn (h : Turns b st 12 0 i s u ∨ (turn b.val st 12 0 s = .none ∧ Turns b st 11 opNop i s u)) :
    ∃ t, exec (.nop b st) s = .next t ∧ ActionDone b st i t ∧ (t.board b.val).launches = (u.board b.val).launches
      ∧ t.store = s.store ∧ t.dram = s.dram := by
  have acts : exec (.nop b st) s = .next (popAct b.val st u) := by
    rcases h with h | ⟨none, h⟩
    · exact exec_nop_acts h
    · rw [exec_nop_later none, onTurn_acts h]
  have issue : ((u.board b.val).strm st).issue = some i := h.elim turns_issue (turns_issue ·.2)
  have still : Still s (popAct b.val st u) := (popAct_still issue).after (h.elim turns_still (turns_still ·.2))
  exact ⟨_, acts, popAct_done issue rfl, (popAct_sameWork issue).launches, still.store, still.dram⟩

/-! ### STEP_DONE (R148) -/

theorem stepDone_marks (h : Turns b st 11 opStepDone i s u) :
    ∃ t, exec (.stepDone b st) s = .next t ∧ ActionDone b st i t
      ∧ ∀ d, u.domOfEpoch (hEpoch i.header) = some d → d ∈ (t.board b.val).stepDone ∧ ∀ k ∈ (t.board b.val).kept, k.2.2.1 ≠ d := by
  refine ⟨_, onTurn_acts h, ?_⟩
  cases hd : u.domOfEpoch (hEpoch i.header) with
  | none => exact ⟨popAct_done (turns_issue h) rfl, nofun⟩
  | some d =>
    dsimp only
    generalize marked : u.modBoard b.val (fun x => { x with
      stepDone := d :: x.stepDone.filter (· != d), kept := x.kept.filter (fun k => k.2.2.1 != d) }) = v
    have issue : ((v.board b.val).strm st).issue = some i := by
      rw [← marked, State.modBoard_board]
      have := turns_issue h
      cases st <;> exact this
    refine ⟨popAct_done issue rfl, fun e he => ?_⟩
    cases he
    rw [(popAct_sameWork issue).stepDone, (popAct_sameWork issue).kept, ← marked, State.modBoard_board]
    exact ⟨List.mem_cons_self .., fun k hk => by simpa using (List.mem_filter.1 hk).2⟩

/-! ### SEM (R136, R145) -/

theorem modBoard_sems (n : Nat) (f : Board → Board) (v : State) (h : ∀ x : Board, (f x).sems = x.sems := by exact fun _ => rfl) :
    ((v.modBoard n f).board n).sems = (v.board n).sems := by
  rw [State.modBoard_board, h]

theorem endBeads_sems (n : Nat) (p : Bead → Bool) (flags : Nat) (v : State) : ((endBeads n p flags v).board n).sems = (v.board n).sems := by
  have step : ∀ (k : Bead) (w : State), ((writeBead n k flags w).board n).sems = (w.board n).sems := by
    intro k w
    unfold writeBead
    dsimp only
    split
    · rfl
    · generalize beadEntry k _ flags = e
      exact modBoard_sems n (fun x => { x with beadBuf := tset x.beadBuf (w.rd .beadHead n % 1024) e }) w
  have all : ∀ (ks : List Bead) (w : State), ((forEach ks (fun k s => writeBead n k flags s) w).board n).sems = (w.board n).sems := by
    intro ks
    unfold forEach
    induction ks with
    | nil => exact fun _ => rfl
    | cons k ks ih => exact fun w => (ih _).trans (step k w)
  unfold endBeads
  exact (all _ _).trans (modBoard_sems n _ v)

/-- Without signals that wait, work that ends signals nothing. -/
theorem settleWork_sems {n : Nat} {v : State} (none : (v.board n).sigs = []) : ((settleWork n v).board n).sems = (v.board n).sems := by
  have sent : ((settleSigs n v).board n).sems = (v.board n).sems := by
    unfold settleSigs
    simp [none, forEach]
  exact (endBeads_sems ..).trans sent

/-- An action whose bundle signals nothing at its end leaves the semaphores. -/
theorem popAct_sems {n : Nat} {v : State} (issue : ((v.board n).strm st).issue = some i) (none : (v.board n).sigs = [])
    (quiet : i.acts.drop 1 ≠ [] ∨ mSigAt (actGroup v n st 9) = true) : ((popAct n st v).board n).sems = (v.board n).sems := by
  unfold popAct
  simp only [issue]
  split
  · rw [State.modBoard_board]
    cases st <;> rfl
  · rename_i last
    have at_ : mSigAt (grpAt ((v.board n).strm st).groups 9) = true := quiet.resolve_left (· last)
    rw [settleWork_sems]
    · rw [State.modBoard_board]
      cases st <;> rfl
    · rw [State.modBoard_board]
      simp only [at_]
      cases st <;> simpa [Board.setStrm] using none

/-- Where no run has a fill to start, a signal is added, and nothing else follows. -/
theorem signalSem_adds {n k m : Nat} {v : State} (fits : (v.board n).sem k + m ≤ 65535) (idle : ∀ r ∈ (v.board n).fetches, r.more = false) :
    (signalSem n k m v).board n = v.board n ∧ m = 0
      ∨ (signalSem n k m v).board n = { (v.board n).setSem k ((v.board n).sem k + m) with lastChange := v.time } := by
  rcases signalSem_cases n k m v with ⟨zero, e⟩ | ⟨excess, -⟩ | ⟨-, e⟩
  · exact .inl ⟨by rw [e], zero⟩
  · omega
  · right
    rw [e]
    generalize added : touch (v.modBoard n (fun x => x.setSem k (x.sem k + m))) n = w
    have board : w.board n = { (v.board n).setSem k ((v.board n).sem k + m) with lastChange := v.time } := by
      rw [← added]
      simp [touch]
    have waits : ∀ l, startFills n l 64 w = w := by
      intro l
      have none : (w.board n).issuing l = .none := by
        rw [Board.issuing, List.find?_eq_none]
        intro r hr
        rw [board] at hr
        simp [idle r hr]
      rw [startFills, none]
    have still : ∀ ls : List Nat, forEach ls (fun l s => startFills n l 64 s) w = w := by
      intro ls
      unfold forEach
      induction ls with
      | nil => rfl
      | cons l ls ih => exact (congrArg (ls.foldl _) (waits l)).trans ih
    rw [resumeFills, still, board]

theorem sem_signals (h : Turns b st 9 0 i s u) :
    let g := actGroup u b.val st 9
    ∃ t, exec (.sem b st) s = .next t ∧ ActionDone b st i t
      ∧ (mSigAt g = true → mSigKind g = 0 → (u.board b.val).sigs = [] → (u.board b.val).sem (mSigSem g) + mSigN g ≤ 65535 →
          (∀ r ∈ (u.board b.val).fetches, r.more = false) →
          (t.board b.val).sem (mSigSem g) = (u.board b.val).sem (mSigSem g) + mSigN g)
      ∧ (mSigAt g = false → (u.board b.val).sigs = [] → i.acts.drop 1 ≠ [] → (t.board b.val).sems = (u.board b.val).sems) := by
  intro g
  have issue := turns_issue h
  generalize signalled : (if mSigAt g then
    sendSig b.val (hEpoch i.header) { kind := mSigKind g, sem := mSigSem g, n := mSigN g } u else u) = v
  have kept : Upkeep u v := by
    rw [← signalled]
    exact .ite (upkeep_sendSig ..) (.refl u)
  have issue' : ((v.board b.val).strm st).issue = some i := by rw [(kept.boards b.val).strm, issue]
  refine ⟨popAct b.val st v, signalled ▸ onTurn_acts h, popAct_done issue' rfl, fun at_ local_ none fits idle => ?_, fun later none more => ?_⟩
  · have now : v = signalSem b.val (mSigSem g) (mSigN g) u := by
      rw [← signalled, if_pos at_, sendSig]
      exact if_pos local_
    have group : actGroup v b.val st 9 = g := by rw [actGroup, (kept.boards b.val).strm]; rfl
    have sum := signalSem_adds fits idle
    rw [← now] at sum
    have sigs : (v.board b.val).sigs = [] := by
      rcases sum with ⟨e, -⟩ | e <;> rw [e] <;> exact none
    have sems := popAct_sems issue' sigs (.inr (group ▸ at_))
    rw [Board.sem, sems]
    rcases sum with ⟨e, zero⟩ | e <;> rw [e]
    · rw [zero, Nat.add_zero]
      rfl
    · exact tget_tset_self ..
  · have same : v = u := by
      rw [← signalled, later]
      rfl
    subst same
    exact popAct_sems issue none (.inl more)

end

end Sys2Proof.Machine
end

