-- ==== Sys2Proof/Proofs/Fetches.lean ====
section
/-!
PROOFS. Proofs/Fetches.lean: the fetches and the STASH actions of bundles (R87, R121, R138, R142): a run that starts on its link, or is held
behind the run that still issues; the space that a release gives back; and a range outside the reservation.
-/
-- One proof after another: in parallel, behind the tests' long evaluations, they ask for too many threads' stacks.
set_option Elab.async false

namespace Sys2Proof.Machine

/-! ### Upkeep that also releases stash space -/

/-- t is s after upkeep and releases of stash space. -/
def Releases (s t : State) : Prop := Upkeep { s with doms := t.doms } t

section
variable {r s t : State}

theorem Upkeep.withDoms (h : Upkeep s t) (d : Tbl Dom) : Upkeep { s with doms := d } { t with doms := d } where
  frame := congrArg (fun z : State => { z with doms := d }) h.frame
  boards := h.boards
  out := h.out
  rd := h.rd

theorem Upkeep.releases (h : Upkeep s t) : Releases s t := by
  rw [Releases, h.doms]
  exact h

theorem Releases.refl (s : State) : Releases s s := (Upkeep.refl s).releases

theorem Releases.trans (h : Releases r s) (k : Releases s t) : Releases r t := (Upkeep.withDoms h t.doms).trans k

/-- Two steps, the later one named first. -/
theorem Releases.after (k : Releases s t) (h : Releases r s) : Releases r t := h.trans k

theorem releases_forEach {α : Type} (l : List α) (f : α → State → State) (h : ∀ a s, Releases s (f a s)) (s : State) :
    Releases s (forEach l f s) := by
  unfold forEach
  induction l generalizing s with
  | nil => exact .refl s
  | cons a l ih => exact (h a s).trans (ih (f a s))

theorem Releases.boards (h : Releases s t) (c : Nat) : (s.board c).Upkept (t.board c) := Upkeep.boards h c

theorem Releases.store (h : Releases s t) : t.store = s.store := Upkeep.store (s := { s with doms := t.doms }) h

end

theorem releases_stashRelease (b d m off size : Nat) (s : State) : Releases s (stashRelease b d m off size s) := by
  unfold stashRelease
  split
  · exact .refl s
  · dsimp only
    split
    · exact .refl s
    · exact Upkeep.refl _

/-! ### Runs that start (R121) -/

/-- The end of runs is the only step of a start that drops a run, and it keeps those with a fill to start or under way. -/
theorem endRuns_keeps (b : Nat) (s : State) :
    Releases (s.modBoard b (fun x => { x with fetches := x.fetches.filter (fun r => r.more || !r.going.isEmpty) })) (endRuns b s) := by
  unfold endRuns
  refine .after (upkeep_settleWork ..).releases (.after (upkeep_noteSquash ..).releases ?_)
  refine .after (upkeep_forEach _ _ (fun l u => upkeep_settleLink b l u) _).releases (releases_forEach _ _ (fun r u => ?_) _)
  split
  · split
    · exact releases_stashRelease ..
    · exact .refl u
  · exact (Upkeep.ite (.refl u) (upkeep_markBead ..)).releases

section
variable {b : Nat} {r : FetchRun} {s : State}

theorem startRun_held (h : ((s.board b).issuing r.link).isSome = true) :
    startRun b r s = s.modBoard b (fun x => { x with rearms := x.rearms ++ [r] }) := if_pos h

theorem startRun_issues (h : ((s.board b).issuing r.link).isSome = false) : ∃ u,
    Upkeep (s.modBoard b (fun x => { x with fetches := x.fetches ++ [r] })) u ∧ startRun b r s = endRuns b u :=
  ⟨_, upkeep_startFills b r.link 64 _, if_neg (by simp [h])⟩

/-- A run that starts is among the runs of its link, or behind the one that still issues; streams and stores stay. -/
theorem startRun_starts (b : Nat) (r : FetchRun) (s : State) :
    (startRun b r s).store = s.store ∧ (∀ st, ((startRun b r s).board b).strm st = (s.board b).strm st)
      ∧ (r.more = true → ∃ q, q ∈ ((startRun b r s).board b).fetches ++ ((startRun b r s).board b).rearms ∧ r.Grown q) := by
  cases held : ((s.board b).issuing r.link).isSome with
  | true =>
    rw [startRun_held held, State.modBoard_board]
    exact ⟨rfl, fun st => by cases st <;> rfl, fun _ => ⟨r, by simp, .refl r⟩⟩
  | false =>
    obtain ⟨u, started, e⟩ := startRun_issues held
    have ended := endRuns_keeps b u
    have before := started.boards b
    have after := ended.boards b
    rw [State.modBoard_board] at before after
    rw [e]
    refine ⟨ended.store.trans started.store, fun st => ?_, fun more => ?_⟩
    · rw [after.strm, show Board.strm _ st = (u.board b).strm st from by cases st <;> rfl, before.strm]
      cases st <;> rfl
    · obtain ⟨q, hq, grown⟩ := before.runs r (by simp)
      have stays : (q.more || !q.going.isEmpty) = true := by
        rcases grown.going with rfl | going
        · rw [more]
          rfl
        · simp [going]
      obtain ⟨p, hp, grown'⟩ := after.runs q (List.mem_filter.2 ⟨hq, stays⟩)
      exact ⟨p, List.mem_append_left _ hp, grown.trans grown'⟩

end

/-- A run further on is still the run that was asked for. -/
theorem FetchRun.Grown.same {r q : FetchRun} (h : r.Grown q) : q.link = r.link ∧ q.src = r.src ∧ q.base = r.base ∧ q.runs = r.runs
    ∧ q.run = r.run ∧ q.stride = r.stride ∧ q.fills = r.fills ∧ q.fabric = r.fabric ∧ q.work = r.work := by
  rw [h.frame]
  exact ⟨rfl, rfl, rfl, rfl, rfl, rfl, rfl, rfl, rfl⟩

/-! ### FETCH_A and FETCH_B (R138) -/

section
variable {b : BoardNo} {st : StreamSel} {i : Issue} {s u : State}

/-- The register group of a fetch. -/
def fetchGroup : FetchSel → Nat
  | .a => 0
  | .b => 1

/-- The run that a fetch asks for. -/
def fetchRun (u : State) (b : Nat) (st : StreamSel) (k : Nat) (i : Issue) : FetchRun :=
  let g := actGroup u b st k
  { link := fLink g, src := fSrc g, base := fBase g, runs := fRuns g, run := fRun g, stride := fStride g, fills := fFills g
    fabric := fFabric g, work := issueWork u b st i }

theorem exec_fetch (f : FetchSel) (s : State) : exec (.fetch b st f) s = onTurnIf b st (fetchGroup f) 0
    (fun i s => fetchMay (s.board b.val) (fLink (actGroup s b.val st (fetchGroup f))) (hEpoch i.header))
    (fun i s => startRun b.val (fetchRun s b.val st (fetchGroup f) i) s) s := by
  cases f <;> rfl

/-- A start in its turn ends its action and moves no store. -/
theorem startRun_popAct (h : Turns b st a op i s u) (r : FetchRun) :
    ActionDone b st i (popAct b.val st (startRun b.val r u)) ∧ (popAct b.val st (startRun b.val r u)).store = s.store
      ∧ (r.more = true → ∃ q, q ∈ ((popAct b.val st (startRun b.val r u)).board b.val).fetches
          ++ ((popAct b.val st (startRun b.val r u)).board b.val).rearms ∧ r.Grown q) := by
  obtain ⟨store, strm, starts⟩ := startRun_starts b.val r u
  have issue : (((startRun b.val r u).board b.val).strm st).issue = some i := by rw [strm, turns_issue h]
  refine ⟨popAct_done issue rfl, (popAct_still issue).store.trans (store.trans (turns_still h).store), fun more => ?_⟩
  obtain ⟨q, hq, grown⟩ := starts more
  have kept := popAct_sameWork issue
  rcases List.mem_append.1 hq with hq | hq
  · obtain ⟨p, hp, grown'⟩ := kept.runs q hq
    exact ⟨p, List.mem_append_left _ hp, grown.trans grown'⟩
  · exact ⟨q, List.mem_append_right _ (kept.rearms ▸ hq), grown⟩

theorem fetch_starts (f : FetchSel) (h : Turns b st (fetchGroup f) 0 i s u) :
    let g := actGroup u b.val st (fetchGroup f)
    (fetchMay (u.board b.val) (fLink g) (hEpoch i.header) = false → exec (.fetch b st f) s = .next s)
    ∧ (fetchMay (u.board b.val) (fLink g) (hEpoch i.header) = true →
      ∃ t, exec (.fetch b st f) s = .next t ∧ ActionDone b st i t ∧ t.store = s.store
        ∧ (1 ≤ fFills g →
          ∃ r, r ∈ (t.board b.val).fetches ++ (t.board b.val).rearms ∧ r.link = fLink g ∧ r.src = fSrc g ∧ r.base = fBase g
            ∧ r.runs = fRuns g ∧ r.run = fRun g ∧ r.stride = fStride g ∧ r.fills = fFills g ∧ r.fabric = fFabric g ∧ r.stash = none
            ∧ r.work = issueWork u b.val st i)) := by
  intro g
  refine ⟨fun waits => (exec_fetch f s).trans (onTurnIf_waits h waits), fun may => ?_⟩
  obtain ⟨done, store, starts⟩ := startRun_popAct h (fetchRun u b.val st (fetchGroup f) i)
  refine ⟨_, (exec_fetch f s).trans (onTurnIf_acts h may), done, store, fun fills => ?_⟩
  obtain ⟨q, hq, grown⟩ := starts (decide_eq_true fills)
  obtain ⟨link, src, base, runs, run, stride, fills, fabric, work⟩ := grown.same
  exact ⟨q, hq, link, src, base, runs, run, stride, fills, fabric, grown.plain rfl, work⟩

/-! ### STASH (R87, R142) -/

/-- The write that a STASH WRITE asks for: from the first buffer that the link's consumer takes up after this. -/
def stashWr (s : State) (b : Nat) (st : StreamSel) (i : Issue) (p : Bool × Nat) (x : Board) : StashWr :=
  let g := actGroup s b st 6
  { link := tLink g, region := p.1, addr := p.2, left := tSize g, work := issueWork s b st i
    skip := ((x.linkBufs (tLink g)).filter (fun u => u.state == 3)).length }

/-- The run that a stash read asks for. -/
def stashRun (s : State) (b : Nat) (st : StreamSel) (i : Issue) (p : Bool × Nat) (release : Bool) : FetchRun :=
  let g := actGroup s b st 6
  { link := tLink g, src := 1, base := 0, runs := 1, run := 1, stride := 0, fills := 0, fabric := 0, work := issueWork s b st i
    stash := some { region := p.1, addr := p.2, left := tSize g, off := tOffset g, size := tSize g, release := release } }

/-- What each STASH command does in its turn. -/
def stashAct (b : Nat) (st : StreamSel) (a : Nat) (i : Issue) (s : State) : State :=
  let g := actGroup s b st 6
  let w := issueWork s b st i
  match stashPlace s b w.domain w.mb (tOffset g) (tSize g) with
  | none => stashDenied b w s
  | some p =>
    if a = 0 then
      if tSize g = 0 then s
      else s.modBoard b (fun x => { x with stashWrs := x.stashWrs ++ [stashWr s b st i p x] })
    else startRun b (stashRun s b st i p (decide (a = 2))) s

/-- Whether a STASH command may act: its group names its action, and a read's link can take it. -/
def stashMay (b : Nat) (st : StreamSel) (a : Nat) (i : Issue) (s : State) : Bool :=
  let g := actGroup s b st 6
  isStash a g && (a == 0 || fetchMay (s.board b) (tLink g) (hEpoch i.header))

theorem exec_stashWrite (s : State) : exec (.stashWrite b st) s
    = onTurnIf b st 6 0 (stashMay b.val st 0) (stashAct b.val st 0) s := by
  show execStashWrite b st s = _
  unfold execStashWrite onTurnIf
  simp only [stashMay, beq_self_eq_true, Bool.true_or, Bool.and_true]
  rfl

theorem exec_stashRead (s : State) : exec (.stashRead b st) s = onTurnIf b st 6 0 (stashMay b.val st 1) (stashAct b.val st 1) s := by
  show execStashRead b st s = _
  rfl

theorem exec_stashReadRelease (s : State) : exec (.stashReadRelease b st) s
    = onTurnIf b st 6 0 (stashMay b.val st 2) (stashAct b.val st 2) s := by
  show execStashReadRelease b st s = _
  rfl

/-- A STASH command meets its stream, and acts in its turn. -/
theorem exec_stash {a : Nat} {c : Instr} (h : StashCommand b st a c) (release : a ≠ 3) (s : State) :
    exec c s = onTurnIf b st 6 0 (stashMay b.val st a) (stashAct b.val st a) s := by
  rcases h with ⟨rfl, rfl⟩ | ⟨rfl, rfl⟩ | ⟨rfl, rfl⟩ | ⟨rfl, rfl⟩
  · exact exec_stashWrite s
  · exact exec_stashRead s
  · exact exec_stashReadRelease s
  · exact absurd rfl release

theorem exec_stashRelease (s : State) : exec (.stashRelease b st) s
    = onTurnIf b st 6 0 (fun _ s => isStash 3 (actGroup s b.val st 6)) (fun i s =>
      let g := actGroup s b.val st 6
      let w := issueWork s b.val st i
      stashRelease b.val w.domain w.mb (tOffset g) (tSize g) s) s := rfl

section
variable (h : Turns b st 6 0 i s u)
include h

/-- A command whose action the group does not name waits for the one that it names. -/
theorem stash_other {a : Nat} {c : Instr} (command : StashCommand b st a c) (other : tAction (actGroup u b.val st 6) ≠ a) :
    exec c s = .next s := by
  have not : isStash a (actGroup u b.val st 6) = false := by simpa [isStash] using other
  by_cases release : a = 3
  · subst release
    obtain rfl : c = .stashRelease b st := by simpa [StashCommand] using command
    rw [exec_stashRelease]
    exact onTurnIf_waits h not
  · rw [exec_stash command release]
    exact onTurnIf_waits h (by simp [stashMay, not])

theorem stash_acts {a : Nat} {c : Instr} (command : StashCommand b st a c) (named : tAction (actGroup u b.val st 6) = a)
    (may : a = 0 ∨ fetchMay (u.board b.val) (tLink (actGroup u b.val st 6)) (hEpoch i.header) = true) (release : a ≠ 3) :
    exec c s = .next (popAct b.val st (stashAct b.val st a i u)) := by
  rw [exec_stash command release]
  refine onTurnIf_acts h ?_
  rcases may with rfl | may
  · simp [stashMay, isStash, named]
  · simp [stashMay, isStash, named, may]

/-- A range outside the reservation halts the Board with STASH_DENIED (R87). -/
theorem stash_denied {a : Nat} {c : Instr} (command : StashCommand b st a c) (named : tAction (actGroup u b.val st 6) = a)
    (may : a = 0 ∨ fetchMay (u.board b.val) (tLink (actGroup u b.val st 6)) (hEpoch i.header) = true) (release : a ≠ 3)
    (outside : stashPlace u b.val (issueWork u b.val st i).domain (issueWork u b.val st i).mb (tOffset (actGroup u b.val st 6))
      (tSize (actGroup u b.val st 6)) = none) :
    ∃ t, exec c s = .next t ∧ ActionDone b st i t ∧ HaltsWith b.val 0x0201 t := by
  have denied : stashAct b.val st a i u = stashDenied b.val (issueWork u b.val st i) u := by
    simp only [stashAct, outside]
  have halted : HaltsWith b.val 0x0201 (stashDenied b.val (issueWork u b.val st i) u) := haltWork_haltsWith ..
  have issue : (((stashDenied b.val (issueWork u b.val st i) u).board b.val).strm st).issue = some i := by
    unfold stashDenied
    rw [((upkeep_haltWork ..).boards b.val).strm, State.bump_board]
    exact turns_issue h
  exact ⟨_, stash_acts h command named may release, popAct_done (denied ▸ issue) rfl,
    popAct_haltsWith (denied ▸ issue) (denied ▸ halted)⟩

/-- A stash write stands ready for the buffers that its link's consumer takes up (R142). -/
theorem stashWrite_ready {p : Bool × Nat} (named : tAction (actGroup u b.val st 6) = 0)
    (place : stashPlace u b.val (issueWork u b.val st i).domain (issueWork u b.val st i).mb (tOffset (actGroup u b.val st 6))
      (tSize (actGroup u b.val st 6)) = some p) :
    let g := actGroup u b.val st 6
    ∃ t, exec (.stashWrite b st) s = .next t ∧ ActionDone b st i t ∧ t.store = s.store
      ∧ (tSize g = 0 → (t.board b.val).stashWrs = (u.board b.val).stashWrs)
      ∧ (tSize g ≠ 0 → ∃ x, (t.board b.val).stashWrs = (u.board b.val).stashWrs ++ [x] ∧ x.link = tLink g ∧ x.region = p.1
          ∧ x.addr = p.2 ∧ x.left = tSize g ∧ x.work = issueWork u b.val st i) := by
  intro g
  have acts := stash_acts h (.inl ⟨rfl, rfl⟩) named (.inl rfl) (by decide)
  by_cases empty : tSize (actGroup u b.val st 6) = 0
  · have same : stashAct b.val st 0 i u = u := by
      simp only [stashAct, place, if_pos empty, if_true]
    rw [same] at acts
    refine ⟨_, acts, popAct_done (turns_issue h) rfl, (popAct_still (turns_issue h)).store.trans (turns_still h).store,
      fun _ => (popAct_sameWork (turns_issue h)).stashWrs, fun size => absurd empty size⟩
  · generalize ready : stashAct b.val st 0 i u = v at acts
    simp only [stashAct, place, if_neg empty, if_true] at ready
    have issue : ((v.board b.val).strm st).issue = some i := by
      rw [← ready, State.modBoard_board]
      have := turns_issue h
      cases st <;> exact this
    have store : v.store = u.store := by rw [← ready]; rfl
    refine ⟨_, acts, popAct_done issue rfl, (popAct_still issue).store.trans (store.trans (turns_still h).store),
      fun none => absurd none empty, fun _ => ⟨stashWr u b.val st i p (u.board b.val), ?_, rfl, rfl, rfl, rfl, rfl⟩⟩
    rw [(popAct_sameWork issue).stashWrs, ← ready, State.modBoard_board]

/-- A stash read starts on its link (R142). -/
theorem stashRead_starts {release : Bool} {c : Instr} {p : Bool × Nat} (command : StashCommand b st (if release then 2 else 1) c)
    (named : tAction (actGroup u b.val st 6) = (if release then 2 else 1))
    (may : fetchMay (u.board b.val) (tLink (actGroup u b.val st 6)) (hEpoch i.header) = true)
    (place : stashPlace u b.val (issueWork u b.val st i).domain (issueWork u b.val st i).mb (tOffset (actGroup u b.val st 6))
      (tSize (actGroup u b.val st 6)) = some p) :
    let g := actGroup u b.val st 6
    ∃ t, exec c s = .next t ∧ ActionDone b st i t ∧ t.store = s.store
      ∧ (tSize g ≠ 0 → ∃ r q, r ∈ (t.board b.val).fetches ++ (t.board b.val).rearms ∧ r.link = tLink g
          ∧ r.work = issueWork u b.val st i ∧ r.stash = some q ∧ q.region = p.1 ∧ q.off = tOffset g ∧ q.size = tSize g
          ∧ q.release = release) := by
  intro g
  have acts := stash_acts h command named (.inr may) (by cases release <;> decide)
  have starts : stashAct b.val st (if release then 2 else 1) i u = startRun b.val (stashRun u b.val st i p release) u := by
    simp only [stashAct, place]
    cases release <;> rfl
  rw [starts] at acts
  obtain ⟨done, store, run⟩ := startRun_popAct h _
  refine ⟨_, acts, done, store, fun size => ?_⟩
  obtain ⟨q, hq, grown⟩ := run (bne_iff_ne.2 size)
  obtain ⟨z, hz, e⟩ := grown.stash _ rfl
  obtain ⟨link, -, -, -, -, -, -, -, work⟩ := grown.same
  exact ⟨q, z, hq, link, work, hz, by rw [e], by rw [e], by rw [e], by rw [e]⟩

theorem stashRead_waits {release : Bool} {c : Instr} (command : StashCommand b st (if release then 2 else 1) c)
    (waits : fetchMay (u.board b.val) (tLink (actGroup u b.val st 6)) (hEpoch i.header) = false) : exec c s = .next s := by
  rw [exec_stash command (by cases release <;> decide)]
  refine onTurnIf_waits h ?_
  cases release <;> simp [stashMay, waits]

end

end

/-! ### The release of stash space (R87) -/

/-- What a Board still holds of its reservation lies outside the range that it has released. -/
theorem stashRelease_releases {b d m off size : Nat} {r : Nat × Nat} {s : State} (some_ : size ≠ 0) (reserved : reservedOn s b d m = some r) :
    ∀ y ∈ ((stashRelease b d m off size s).dom d).mbs, y.index = m → ∀ h ∈ y.held, h.1 = b →
      h.2.2 ≤ r.1 + off ∨ r.1 + off + size ≤ h.2.1 := by
  unfold stashRelease
  simp only [reserved, if_neg some_]
  intro y hy index h hh mine
  rw [State.modDom_dom] at hy
  obtain ⟨z, -, rfl⟩ := List.mem_map.1 hy
  split at hh
  · obtain ⟨k, -, hk⟩ := List.mem_flatMap.1 hh
    split at hk
    · rename_i other
      obtain rfl := List.mem_singleton.1 hk
      simp [mine] at other
    · rcases List.mem_append.1 hk with below | above
      · split at below
        · obtain rfl := List.mem_singleton.1 below
          exact .inl (Nat.min_le_right ..)
        · cases below
      · split at above
        · obtain rfl := List.mem_singleton.1 above
          exact .inr (Nat.le_max_right ..)
        · cases above
  · rename_i other
    simp [other] at index

theorem stashRelease_nothing (b d m off : Nat) (s : State) : stashRelease b d m off 0 s = s := by
  unfold stashRelease
  split <;> rfl

theorem stashRelease_ends {b : BoardNo} {st : StreamSel} {i : Issue} {s u : State} (h : Turns b st 6 0 i s u)
    (named : tAction (actGroup u b.val st 6) = 3) :
    let g := actGroup u b.val st 6
    let w := issueWork u b.val st i
    ∃ t, exec (.stashRelease b st) s = .next t ∧ ActionDone b st i t ∧ t.store = s.store
      ∧ (tSize g = 0 → t.doms = u.doms)
      ∧ ∀ r, tSize g ≠ 0 → reservedOn u b.val w.domain w.mb = some r → ∀ m ∈ (t.dom w.domain).mbs, m.index = w.mb → ∀ h ∈ m.held, h.1 = b.val →
          h.2.2 ≤ r.1 + tOffset g ∨ r.1 + tOffset g + tSize g ≤ h.2.1 := by
  intro g w
  have released := releases_stashRelease b.val w.domain w.mb (tOffset g) (tSize g) u
  have issue : (((stashRelease b.val w.domain w.mb (tOffset g) (tSize g) u).board b.val).strm st).issue = some i := by
    rw [(released.boards b.val).strm]
    exact turns_issue h
  have ended := popAct_still issue
  refine ⟨_, (exec_stashRelease s).trans (onTurnIf_acts h (by simp [isStash, named])), popAct_done issue rfl,
    ended.store.trans (released.store.trans (turns_still h).store), fun empty => ?_, fun r size reserved => ?_⟩
  · rw [ended.doms]
    show (stashRelease b.val w.domain w.mb (tOffset g) (tSize g) u).doms = u.doms
    rw [empty, stashRelease_nothing]
  · rw [State.dom, ended.doms]
    exact stashRelease_releases size reserved

end Sys2Proof.Machine
end

