-- ==== Sys2Proof/Proofs/Gathers.lean ====
section
/-!
PROOFS. Proofs/Gathers.lean: a GATHER group (R143, R225): the requests that its run sends while a pending slot is free, and its halts.
-/
-- One proof after another: in parallel, behind the tests' long evaluations, they ask for too many threads' stacks.
set_option Elab.async false

namespace Sys2Proof.Machine

/-! ### What reads of stack memory note -/

/-- t is s after notes of accesses to stack memory: counts, corrections and errors, and free values. No byte, no Board and no steady register changes. -/
structure Noted (s t : State) : Prop where
  frame : t = { s with regs := t.regs, flash := t.flash, stks := t.stks, cnt := t.cnt, fresh := t.fresh }
  rd : ∀ r ∈ Reg.steady, ∀ u, t.rd r u = s.rd r u

section
variable {r s t u : State}

theorem Noted.refl (s : State) : Noted s s := ⟨rfl, fun _ _ _ => rfl⟩

theorem Noted.trans (h : Noted r s) (k : Noted s t) : Noted r t where
  frame := by
    rw [k.frame, h.frame]
  rd q hq i := (k.rd q hq i).trans (h.rd q hq i)

/-- Two steps, the later one named first. -/
theorem Noted.after (k : Noted s t) (h : Noted r s) : Noted r t := h.trans k

theorem Noted.ite {c : Prop} [Decidable c] (ht : Noted s t) (hu : Noted s u) : Noted s (if c then t else u) := by
  split
  · exact ht
  · exact hu

theorem noted_forEach {α : Type} (l : List α) (f : α → State → State) (h : ∀ a s, Noted s (f a s)) (s : State) : Noted s (forEach l f s) := by
  unfold forEach
  induction l generalizing s with
  | nil => exact .refl s
  | cons a l ih => exact (h a s).trans (ih (f a s))

theorem Noted.board (h : Noted s t) (c : Nat) : t.board c = s.board c := by rw [h.frame]; rfl
theorem Noted.store (h : Noted s t) : t.store = s.store := by rw [h.frame]
theorem Noted.dram (h : Noted s t) : t.dram = s.dram := by rw [h.frame]
theorem Noted.doms (h : Noted s t) : t.doms = s.doms := by rw [h.frame]
theorem Noted.out (h : Noted s t) : t.out = s.out := by rw [h.frame]

end

theorem noted_modStack (k : Nat) (f : Stack → Stack) (s : State) : Noted s (s.modStack k f) := ⟨rfl, fun _ _ _ => rfl⟩

theorem noted_wr {r : Reg} (h : r.Unsteady) (v u : Nat) (s : State) : Noted s (s.wr r v u) := ⟨rfl, (upkeep_wr h v u s).rd⟩

theorem noted_bump {r : Reg} (h : r.Unsteady) (u : Nat) (s : State) : Noted s (s.bump r u) := noted_wr h _ u s

theorem noted_countBlock (id n : Nat) (s : State) : Noted s (countBlock id n s) := by
  rw [countBlock_frame]
  exact ⟨rfl, fun _ _ _ => rfl⟩

theorem noted_countLines (k a n : Nat) (s : State) : Noted s (countLines k a n s) := by
  rw [countLines_frame]
  exact ⟨rfl, fun _ _ _ => rfl⟩

theorem noted_countRoute (p q : MeshPos) (n : Nat) (s : State) : Noted s (countRoute p q n s) :=
  noted_forEach _ _ (fun _ _ => noted_countBlock ..) s

theorem noted_boardServed (b a n : Nat) (s : State) : Noted s (boardServed b a n s) := by
  have corrected : ∀ k ls, Noted s (correctLines k ls s) := fun k ls =>
    .after (noted_modStack k _ _) (noted_forEach _ _ (fun _ _ => noted_bump (by decide) ..) s)
  have served : Noted s (stackServed a n s) := .after (noted_countLines ..) (.ite (.refl s) (corrected ..))
  exact served.trans (.ite (.after (noted_countRoute ..) (noted_countRoute ..)) (.refl _))

theorem noted_noteUe (dpa : Nat) (s : State) : Noted s (noteUe dpa s) := by
  unfold noteUe
  exact .after (noted_modStack ..) (.after (noted_wr (by decide) ..) (noted_bump (by decide) ..))

theorem noted_ueFlt (code : Nat) (at_ : Option Nat) (a reader : Nat) (d : Option Nat) (s : State) :
    Noted s (ueFlt code at_ a reader d s).2 := ⟨rfl, fun _ _ _ => rfl⟩

/-! ### Gather runs that issue (R225) -/

/-- t is s after gather runs have issued: the runs are further on; streams, stores and stacks' bytes stay. -/
structure Issues (b : Nat) (s t : State) : Prop where
  store : t.store = s.store
  dram : t.dram = s.dram
  strm : ∀ st, (t.board b).strm st = (s.board b).strm st
  runs : ∀ r ∈ (s.board b).gruns, ∃ q ∈ (t.board b).gruns, q = { r with next := q.next }

section
variable {b : Nat} {r s t : State}

theorem Issues.refl (s : State) : Issues b s s := ⟨rfl, rfl, fun _ => rfl, fun r h => ⟨r, h, rfl⟩⟩

theorem Issues.trans (h : Issues b r s) (k : Issues b s t) : Issues b r t where
  store := k.store.trans h.store
  dram := k.dram.trans h.dram
  strm st := (k.strm st).trans (h.strm st)
  runs x hx := by
    obtain ⟨q, hq, e⟩ := h.runs x hx
    obtain ⟨p, hp, e'⟩ := k.runs q hq
    exact ⟨p, hp, by rw [e', e]⟩

theorem Upkeep.issues (h : Upkeep s t) : Issues b s t :=
  ⟨h.store, h.dram, (h.boards b).strm, fun r hr => ⟨r, (h.boards b).gruns ▸ hr, rfl⟩⟩

theorem Noted.issues (h : Noted s t) : Issues b s t :=
  ⟨h.store, h.dram, fun _ => by rw [h.board], fun r hr => ⟨r, by rw [h.board]; exact hr, rfl⟩⟩

end

/-- The run that has sent a request is one further. -/
def GRun.sent (g : GRun) (id : Nat) : GRun := if g.id = id then { g with next := g.next + 1 } else g

theorem GRun.sent_frame (g : GRun) (id : Nat) : g.sent id = { g with next := (g.sent id).next } := by
  unfold GRun.sent
  split <;> rfl

theorem issues_sendGather (b : Nat) (r : GRun) (s : State) : Issues b s (sendGather b r s) := by
  have counted : Issues b s (s.modBoard b (fun x => { x with
      gruns := x.gruns.map (fun g => g.sent r.id) })) := by
    refine ⟨rfl, rfl, fun st => ?_, fun g hg => ⟨g.sent r.id, ?_, g.sent_frame r.id⟩⟩
    · rw [State.modBoard_board]
      cases st <;> rfl
    · rw [State.modBoard_board]
      exact List.mem_map.2 ⟨g, hg, rfl⟩
  have slotted : ∀ (v : State) (q : GSlot), Issues b v (v.modBoard b (fun x => { x with gslots := x.gslots ++ [q] })) := by
    refine fun v q => ⟨rfl, rfl, fun st => ?_, fun g hg => ⟨g, ?_, rfl⟩⟩
    · rw [State.modBoard_board]
      cases st <;> rfl
    · rw [State.modBoard_board]
      exact hg
  unfold sendGather
  refine counted.trans ?_
  dsimp only
  split
  · exact (noted_ueFlt ..).issues.trans ((noted_noteUe ..).issues.trans (upkeep_haltWork ..).issues)
  · exact ((noted_boardServed ..).issues.trans (upkeep_newTxn ..).issues).trans ((slotted ..).trans (upkeep_send ..).issues)

theorem issues_issueGathers (b n : Nat) (s : State) : Issues b s (issueGathers b n s) := by
  induction n generalizing s with
  | zero => exact .refl s
  | succ n ih =>
    unfold issueGathers
    split
    · exact .refl s
    · split
      · exact .refl s
      · exact (issues_sendGather ..).trans (ih _)

/-! ### GATHER (R143) -/

section
variable {b : BoardNo} {st : StreamSel} {i : Issue} {s u : State}

/-- The run that a GATHER group asks for. -/
def gatherRun (s : State) (b : Nat) (st : StreamSel) (i : Issue) : GRun :=
  let g := actGroup s b st 7
  { id := (s.board b).nextId, first := gMapFirst g, count := gMapCount g, group := gGroup g, dest := gDest g, sem := gLandSem g
    copy := gCopy g, keep := gKeep g, work := issueWork s b st i }

/-- What a GATHER group does in its turn. -/
def gatherAct (b : Nat) (st : StreamSel) (i : Issue) (s : State) : State :=
  let g := actGroup s b st 7
  if !gatherFits s b (gDest g) (gMapCount g) then errorHalt b (issueWork s b st i) 0x0206 s
  else if meetsKept (s.board b) (gDest g) (gMapCount g) then errorHalt b (issueWork s b st i) 0x0207 s
  else issueGathers b 256 (s.modBoard b (fun x => { x with nextId := x.nextId + 1, gruns := x.gruns ++ [gatherRun s b st i] }))

theorem exec_gather (h : Turns b st 7 0 i s u) : exec (.gather b st) s = .next (popAct b.val st (gatherAct b.val st i u)) := onTurn_acts h

/-- A group that may not be done halts the Board. -/
theorem gather_halts (h : Turns b st 7 0 i s u) {code : Nat} (e : gatherAct b.val st i u = errorHalt b.val (issueWork u b.val st i) code u) :
    ∃ t, exec (.gather b st) s = .next t ∧ ActionDone b st i t ∧ HaltsWith b.val code t := by
  have issue : (((gatherAct b.val st i u).board b.val).strm st).issue = some i := by
    rw [e, errorHalt, ((upkeep_haltWork ..).boards b.val).strm, turns_issue h]
  refine ⟨_, exec_gather h, popAct_done issue rfl, popAct_haltsWith issue ?_⟩
  rw [e]
  exact haltWork_haltsWith ..

theorem gather_runs (h : Turns b st 7 0 i s u) :
    let g := actGroup u b.val st 7
    gatherFits u b.val (gDest g) (gMapCount g) = true → meetsKept (u.board b.val) (gDest g) (gMapCount g) = false →
      ∃ t r, exec (.gather b st) s = .next t ∧ ActionDone b st i t ∧ r ∈ (t.board b.val).gruns ∧ r.first = gMapFirst g
        ∧ r.count = gMapCount g ∧ r.group = gGroup g ∧ r.dest = gDest g ∧ r.sem = gLandSem g ∧ r.copy = gCopy g ∧ r.keep = gKeep g
        ∧ r.work = issueWork u b.val st i ∧ r.landed = 0 ∧ t.store = s.store ∧ t.dram = s.dram := by
  intro g fits apart
  generalize queued : u.modBoard b.val (fun x => { x with nextId := x.nextId + 1, gruns := x.gruns ++ [gatherRun u b.val st i] }) = v
  have act : gatherAct b.val st i u = issueGathers b.val 256 v := by
    rw [gatherAct, ← queued]
    simp only [show gatherFits u b.val (gDest (actGroup u b.val st 7)) (gMapCount (actGroup u b.val st 7)) = true from fits,
      show meetsKept (u.board b.val) (gDest (actGroup u b.val st 7)) (gMapCount (actGroup u b.val st 7)) = false from apart]
    rfl
  obtain ⟨store, dram, strm, runs⟩ := issues_issueGathers b.val 256 v
  rw [← act] at store dram strm runs
  have issue : (((gatherAct b.val st i u).board b.val).strm st).issue = some i := by
    rw [strm, ← queued, State.modBoard_board]
    have := turns_issue h
    cases st <;> exact this
  obtain ⟨q, hq, e⟩ := runs (gatherRun u b.val st i) (by rw [← queued, State.modBoard_board]; simp)
  have still := popAct_still issue
  refine ⟨_, q, exec_gather h, popAct_done issue rfl, (popAct_sameWork issue).gruns ▸ hq, ?_⟩
  rw [e, still.store, still.dram, store, dram, ← queued]
  exact ⟨rfl, rfl, rfl, rfl, rfl, rfl, rfl, rfl, rfl, (turns_still h).store, (turns_still h).dram⟩

end

end Sys2Proof.Machine
end

