-- ==== Sys2Proof/Proofs/Launches.lean ====
section
/-!
PROOFS. Proofs/Launches.lean: a launch (R139, R147, R155 to R158): its passes enter their Frames, the first of them take their operand
buffers, a schedule without a fault drops no tile, and a push that missed its cycle halts the Board. And the statement on the actions of
bundles.
-/
-- One proof after another: in parallel, behind the tests' long evaluations, they ask for too many threads' stacks.
set_option Elab.async false

namespace Sys2Proof.Machine

/-! ### The launch that is under way -/

/-- One launch stands under the number of l, and it is l but for the operand buffers that it holds. -/
structure Board.Carries (x : Board) (l : Launch) : Prop where
  stands : ∃ k ∈ x.launches, k.id = l.id
  only : ∀ k ∈ x.launches, k.id = l.id → k = { l with rowBufs := k.rowBufs, rodBufs := k.rodBufs }

/-- t is s after steps of a launch: l is carried on, and streams, Frames and stores stay. -/
structure Launching (b : Nat) (l : Launch) (s t : State) : Prop where
  strm : ∀ st, (t.board b).strm st = (s.board b).strm st
  frames : (t.board b).frames = (s.board b).frames
  store : t.store = s.store
  carried : (s.board b).Carries l → (t.board b).Carries l

section
variable {b : Nat} {l : Launch} {r s t u : State}

theorem Launching.refl (s : State) : Launching b l s s := ⟨fun _ => rfl, rfl, rfl, id⟩

theorem Launching.trans (h : Launching b l r s) (k : Launching b l s t) : Launching b l r t :=
  ⟨fun st => (k.strm st).trans (h.strm st), k.frames.trans h.frames, k.store.trans h.store, k.carried ∘ h.carried⟩

/-- Two steps, the later one named first. -/
theorem Launching.after (k : Launching b l s t) (h : Launching b l r s) : Launching b l r t := h.trans k

theorem Launching.ite {c : Prop} [Decidable c] (ht : Launching b l s t) (hu : Launching b l s u) :
    Launching b l s (if c then t else u) := by
  split
  · exact ht
  · exact hu

theorem Board.Carries.of_launches {x y : Board} (h : x.Carries l) (launches : y.launches = x.launches) : y.Carries l :=
  ⟨launches ▸ h.stands, launches ▸ h.only⟩

theorem Upkeep.launching (h : Upkeep s t) : Launching b l s t :=
  ⟨(h.boards b).strm, (h.boards b).frames, h.store, fun carries => carries.of_launches (h.boards b).launches⟩

theorem launching_modBoard (f : Board → Board) (s : State) (main : ∀ x : Board, (f x).main = x.main := by exact fun _ => rfl)
    (fill : ∀ x : Board, (f x).fill = x.fill := by exact fun _ => rfl) (frames : ∀ x : Board, (f x).frames = x.frames := by exact fun _ => rfl)
    (launches : ∀ x : Board, (f x).launches = x.launches := by exact fun _ => rfl) : Launching b l s (s.modBoard b f) := by
  refine ⟨fun st => ?_, ?_, rfl, fun carries => carries.of_launches ?_⟩
  · rw [State.modBoard_board]
    cases st
    · exact main _
    · exact fill _
  · rw [State.modBoard_board, frames]
  · rw [State.modBoard_board, launches]

/-! ### The operand buffers of its first passes (R117) -/

theorem upkeep_takeUpTo {link idx n : Nat} {held held' : Tbl Nat} (taken : takeUpTo b link idx n held s = some (held', t)) : Upkeep s t := by
  induction n generalizing held s with
  | zero =>
    unfold takeUpTo at taken
    split at taken
    · cases taken
      exact .refl _
    · cases taken
  | succ n ih =>
    unfold takeUpTo at taken
    split at taken
    · cases taken
      exact .refl _
    · split at taken
      · rename_i full
        exact (upkeep_takeFull full).trans (ih taken)
      · cases taken

/-- A launch that takes buffers changes no more than the buffers that it holds. -/
theorem upkeep_acquire {k k' : Launch} {tile : Nat} (taken : acquire b k tile s = some (k', t)) :
    Upkeep s t ∧ k' = { k with rowBufs := k'.rowBufs, rodBufs := k'.rodBufs } := by
  unfold acquire at taken
  split at taken
  · cases taken
  · rename_i rows
    split at taken
    · cases taken
    · rename_i rods
      cases taken
      exact ⟨(upkeep_takeUpTo rows).trans (upkeep_takeUpTo rods), rfl⟩

/-- A launch that holds further buffers takes its own place. -/
theorem Board.Carries.setLaunch {x : Board} (h : x.Carries l) {k k' : Launch} (mem : k ∈ x.launches)
    (more : k' = { k with rowBufs := k'.rowBufs, rodBufs := k'.rodBufs }) : (x.setLaunch k').Carries l := by
  have id : k'.id = k.id := by rw [more]
  have own : k'.id = l.id → k' = { l with rowBufs := k'.rowBufs, rodBufs := k'.rodBufs } := fun e => by
    rw [more, h.only k mem (id ▸ e)]
  refine ⟨?_, fun q hq e => ?_⟩
  · obtain ⟨q, hq, e⟩ := h.stands
    refine ⟨_, List.mem_map.2 ⟨q, hq, rfl⟩, ?_⟩
    split
    · rename_i same
      exact same ▸ e
    · exact e
  · obtain ⟨p, hp, rfl⟩ := List.mem_map.1 hq
    split at e
    · rename_i same
      rw [if_pos same]
      exact own e
    · rename_i other
      rw [if_neg other]
      exact h.only p hp e

theorem launching_setLaunch {k k' : Launch} (mem : k ∈ (s.board b).launches)
    (more : k' = { k with rowBufs := k'.rowBufs, rodBufs := k'.rodBufs }) : Launching b l s (s.modBoard b (fun x => x.setLaunch k')) := by
  refine ⟨fun st => ?_, by rw [State.modBoard_board]; rfl, rfl, fun carries => ?_⟩
  · rw [State.modBoard_board]
    cases st <;> rfl
  · rw [State.modBoard_board]
    exact carries.setLaunch mem more

theorem launching_enterPasses (f : Nat) (ps : List (Nat × Nat)) (s : State) : Launching b l s (enterPasses b f ps s).2 := by
  induction ps generalizing s with
  | nil => exact .ite (.after (upkeep_touch ..).launching (launching_modBoard _ s)) (.refl s)
  | cons p ps ih =>
    unfold enterPasses
    split
    · exact ih s
    · rename_i k found
      split
      · exact .ite (.refl s) (.after (upkeep_touch ..).launching (.after (upkeep_bump (by decide) ..).launching (launching_modBoard _ s)))
      · rename_i k' t taken
        obtain ⟨kept, more⟩ := upkeep_acquire taken
        have mem : k ∈ (t.board b).launches := (kept.boards b).launches ▸ (Board.mem_of_launchAt found).1
        exact kept.launching.trans ((launching_setLaunch mem more).trans (ih _))

theorem launching_startLayer (id : Nat) (fs : List Nat) (s : State) : Launching b l s (startLayer b id fs s) := by
  induction fs generalizing s with
  | nil => exact .refl s
  | cons f fs ih =>
    unfold startLayer
    dsimp only
    split
    · exact (launching_enterPasses ..).trans (ih _)
    · exact launching_enterPasses ..

end

/-! ### The schedule (R155 to R158) -/

section
variable (b : Nat) (st : StreamSel) (i : Issue) (missed : Option MissedPush) (s : State)

/-- The schedules of the Frames that a launch names. -/
def launchScheds : List (Nat × Sched) :=
  let feed := actGroup s b st 2
  let frame := actGroup s b st 3
  (framesOf frame).zipIdx.map (fun (f, k) =>
    (f, schedOf (eTagBase feed) (eBeats feed) (passCycles frame) (passesOf frame k) ((s.board b).frame f).left))

/-- The fault of a launch's schedule that is recorded. -/
def launchFault : Option SchedFault :=
  firstFault (schedFaults (actGroup s b st 2) (actGroup s b st 3) (launchScheds b st s) missed)

end

section
variable (b : Nat) (st : StreamSel) (i : Issue) (first : Option SchedFault) (s : State)

/-- The tiles of a launch that a fault of its schedule discards (R158). -/
def launchDrop : List Nat :=
  match first with
  | some c => (List.range (tilesOf (actGroup s b st 3))).filter (fun t =>
      decide (c.cycle < (t / max 1 (framesOf (actGroup s b st 3)).length + 1) * max (passCycles (actGroup s b st 3)) 256 + 515))
  | none => []

/-- The launch that a START.OP RUN begins. -/
def newLaunch : Launch :=
  { id := i.launch.getD 0, work := issueWork s b st i, feed := actGroup s b st 2, frame := actGroup s b st 3, drain := actGroup s b st 4
    dropped := launchDrop b st first s, garbled := (launchScheds b st s).any (fun p => p.2.garbled) }

/-- The pass of a tile begins before the fault. -/
def passBegins (t : Nat) : Bool :=
  match first with
  | some c => decide (t / max 1 (framesOf (actGroup s b st 3)).length * max (passCycles (actGroup s b st 3)) 256 ≤ c.cycle)
  | none => true

/-- The passes of the k-th Frame of a launch. -/
def launchPasses (k : Nat) : List (Nat × Nat) :=
  ((List.range (tilesOf (actGroup s b st 3))).filter (fun t => t % max 1 (framesOf (actGroup s b st 3)).length == k
    && (passBegins b st first s t || !(launchDrop b st first s).contains t))).map (fun t => ((newLaunch b st i first s).id, t))

/-- A launch on a Frame that is still gated is counted. -/
def wakeCounted : State :=
  if (framesOf (actGroup s b st 3)).any (fun f => ((s.board b).frame f).gated) then s.bump .wakeLate b else s

/-- A Frame of a launch with its passes, and what its feeder queues keep. -/
def launchFrame (x : Board) (f k : Nat) : Frame :=
  let w := issueWork s b st i
  ({ x.frame f with passes := (x.frame f).passes ++ launchPasses b st i first s k } : Frame).rest (actGroup s b st 3)
    (wakeCounted b st s).job.seed
    [w.tag, w.mb, w.layer, actGroup s b st 2, actGroup s b st 3, b, f] (tget (launchScheds b st s) f {}).left

/-- A Board after some of the Frames that a launch names have their passes. -/
def launchFrames (ps : List (Nat × Nat)) (x : Board) : Board :=
  ps.foldl (fun x (f, k) => x.setFrame f (launchFrame b st i first s x f k)) x

/-- The Board with the passes of a launch in its Frames. -/
def launchBoard (x : Board) : Board :=
  let x := launchFrames b st i first s (framesOf (actGroup s b st 3)).zipIdx x
  regate { x with launches := x.launches ++ [newLaunch b st i first s]
                  wakeMask := newWake x.wakeMask (oWakeMask (actGroup s b st 11)) st }

/-- The state with the passes of a launch in its Frames. -/
def launched : State := (wakeCounted b st s).modBoard b (launchBoard b st i first s)

/-- The first passes of a launch have started. -/
def launchStarted : State :=
  markBead b (newLaunch b st i first s).id (fun t k => { k with execStart := t })
    (startLayer b (newLaunch b st i first s).id (framesOf (actGroup s b st 3)) (launched b st i first s))

/-- A fault of the schedule is recorded, and halts the Board (R103, R158). -/
def launchEnd (missed : Option MissedPush) (v : State) : State :=
  match first with
  | none => v
  | some c =>
    let info := seqFaultInfo (issueWork s b st i).layer c
    let v := v.modBoard b (fun x => { x with seqFaultInfo := info })
    let faults := schedFaults (actGroup s b st 2) (actGroup s b st 3) (launchScheds b st s) missed
    haltWork b (issueWork s b st i)
      { code := (if c.kind = 1 then 0x0101 else if c.kind = 2 then 0x0102 else 0x0103), kind := 1, unit := b, detail := packAt [(0, 8, info)] }
      (((v.wr .seqFaultInfo info b).wr .seqFaultTime v.now b).bumpBy .seqFaults (faultCount faults missed c.cycle) b)

end

section
variable {b : Nat} {st : StreamSel} {i : Issue} {missed : Option MissedPush} {first : Option SchedFault} {s : State}

/-- A launch enters its passes, starts the first of them, and then halts the Board if its schedule has a fault. -/
theorem launchOn_eq (fault : launchFault b st missed s = first) :
    launchOn b st i missed s = launchEnd b st i first s missed (launchStarted b st i first s) := by
  unfold launchOn
  extract_lets x y feed frame fs F T n w late scheds faults first'
  have same : first' = first := fault
  clear_value first'
  subst same
  rfl

theorem still_wakeCounted (b : Nat) (st : StreamSel) (s : State) : Still s (wakeCounted b st s) := .ite (still_bump (by decide) ..) (.refl s)

/-- The end of a launch leaves what it has begun. -/
theorem launching_launchEnd (l : Launch) (v : State) : Launching b l v (launchEnd b st i first s missed v) := by
  unfold launchEnd
  split
  · exact .refl v
  · refine .after (upkeep_haltWork ..).launching (.after (upkeep_wr (by decide) ..).launching (.after (upkeep_wr (by decide) ..).launching ?_))
    exact .after (upkeep_wr (by decide) ..).launching (launching_modBoard _ v)

/-- The fault of a missed push halts the Board. -/
theorem launchEnd_haltsWith {c : SchedFault} (fault : first = some c) (kind : c.kind = 1) (v : State) :
    HaltsWith b 0x0101 (launchEnd b st i first s missed v) := by
  subst fault
  unfold launchEnd
  simp only [kind]
  exact haltWork_haltsWith ..

/-- From the entry of its passes on a launch is carried on. -/
theorem launching_launchOn (fault : launchFault b st missed s = first) (l : Launch) :
    Launching b l (launched b st i first s) (launchOn b st i missed s) := by
  rw [launchOn_eq fault]
  exact .after (launching_launchEnd ..) (.after (upkeep_markBead ..).launching (launching_startLayer ..))

/-! ### The passes that enter the Frames -/

theorem Frame.rest_passes (y : Frame) (frame : Nat) (seed : W64) (key tags : List Nat) : (y.rest frame seed key tags).passes = y.passes := by
  unfold Frame.rest
  split <;> rfl

theorem launchFrame_passes (x : Board) (f k : Nat) :
    (launchFrame b st i first s x f k).passes = (x.frame f).passes ++ launchPasses b st i first s k := by
  unfold launchFrame
  exact Frame.rest_passes ..

theorem launchFrames_frame (ps : List (Nat × Nat)) (x : Board) :
    launchFrames b st i first s ps x = { x with frames := (launchFrames b st i first s ps x).frames } := by
  unfold launchFrames
  induction ps generalizing x with
  | nil => rfl
  | cons p ps ih => exact (ih _).trans rfl

/-- Frames gain passes, and lose none. -/
theorem launchFrames_keeps (ps : List (Nat × Nat)) (x : Board) (f : Nat) {a : Nat × Nat} (h : a ∈ (x.frame f).passes) :
    a ∈ ((launchFrames b st i first s ps x).frame f).passes := by
  unfold launchFrames
  induction ps generalizing x with
  | nil => exact h
  | cons p ps ih =>
    refine ih _ ?_
    dsimp only
    by_cases e : f = p.1
    · rw [e, Board.setFrame_frame, launchFrame_passes]
      exact List.mem_append_left _ (e ▸ h)
    · rw [Board.setFrame_frame_of_ne _ _ _ e]
      exact h

/-- Each Frame that a launch names gains its passes. -/
theorem launchFrames_enters {ps : List (Nat × Nat)} {f k : Nat} (mem : (f, k) ∈ ps) (x : Board) {a : Nat × Nat}
    (h : a ∈ launchPasses b st i first s k) : a ∈ ((launchFrames b st i first s ps x).frame f).passes := by
  induction ps generalizing x with
  | nil => cases mem
  | cons p ps ih =>
    rcases List.mem_cons.1 mem with rfl | mem
    · refine launchFrames_keeps ps _ f ?_
      dsimp only
      rw [Board.setFrame_frame, launchFrame_passes]
      exact List.mem_append_right _ h
    · exact ih mem _

theorem launched_board : (launched b st i first s).board b = launchBoard b st i first s (s.board b) := by
  rw [launched, State.modBoard_board]
  unfold wakeCounted
  split <;> rfl

theorem launched_store : (launched b st i first s).store = s.store := (still_wakeCounted b st s).store

/-- The launch stands under its number, and the streams stay, when its passes have entered. -/
theorem launched_carries (own : ∀ k ∈ (s.board b).launches, k.id ≠ i.launch.getD 0) :
    ((launched b st i first s).board b).Carries (newLaunch b st i first s) := by
  have launches : ((launched b st i first s).board b).launches = (s.board b).launches ++ [newLaunch b st i first s] := by
    rw [launched_board, launchBoard, regate_launches, launchFrames_frame]
  refine ⟨⟨newLaunch b st i first s, by rw [launches]; simp, rfl⟩, fun k hk same => ?_⟩
  rw [launches] at hk
  rcases List.mem_append.1 hk with old | new
  · exact absurd same (own k old)
  · rw [List.mem_singleton.1 new]

theorem launched_strm (z : StreamSel) : ((launched b st i first s).board b).strm z = (s.board b).strm z := by
  rw [launched_board, launchBoard, (regate_frames _).1, launchFrames_frame]
  cases z <;> rfl

theorem launched_passes {f k : Nat} (named : (framesOf (actGroup s b st 3))[k]? = some f) {a : Nat × Nat}
    (h : a ∈ launchPasses b st i first s k) : a ∈ (((launched b st i first s).board b).frame f).passes := by
  rw [launched_board, launchBoard, regate_passes]
  exact launchFrames_enters (List.mem_zipIdx_iff_getElem?.2 named) (s.board b) h

/-! ### The schedule's faults -/

/-- Equal beats and empty queues leave no Frame a fault of its own. -/
theorem launchScheds_fine (beats : eBeats (actGroup s b st 2) = passCycles (actGroup s b st 3))
    (empty : ∀ f ∈ framesOf (actGroup s b st 3), ((s.board b).frame f).left = []) : ∀ p ∈ launchScheds b st s, p.2.fault = none := by
  intro p hp
  obtain ⟨⟨f, k⟩, hf, rfl⟩ := List.mem_map.1 hp
  have mem : f ∈ framesOf (actGroup s b st 3) := List.mem_of_getElem? (List.mem_zipIdx_iff_getElem?.1 hf)
  simp [schedOf, beats, empty f mem]

theorem own_faults_none {scheds : List (Nat × Sched)} (fine : ∀ p ∈ scheds, p.2.fault = none) (feed frame : Nat) :
    schedFaults feed frame scheds none = [] := by
  unfold schedFaults
  simp only [List.append_nil, List.filterMap_eq_nil_iff]
  intro p hp
  rw [fine p hp]
  rfl

theorem missed_fault {scheds : List (Nat × Sched)} (fine : ∀ p ∈ scheds, p.2.fault = none) (feed frame : Nat) {m : MissedPush}
    (named : m.frame.val ∈ framesOf frame) (beat : m.beat < passCycles frame)
    (pass : m.pass < passesOf frame ((framesOf frame).idxOf m.frame.val)) (queue : m.queue < if m.rodSide then 32 else 256) :
    ∃ c : SchedFault, firstFault (schedFaults feed frame scheds (some m)) = some c ∧ c.kind = 1 := by
  have own : scheds.filterMap (fun p => p.2.fault.map (fun f =>
      { cycle := f.1, frame := p.1, rod := false, queue := 0, kind := f.2.1, expected := f.2.2.1, found := f.2.2.2 : SchedFault })) = [] := by
    rw [List.filterMap_eq_nil_iff]
    intro p hp
    rw [fine p hp]
    rfl
  unfold schedFaults
  simp only [own, List.nil_append]
  rw [if_pos (by simp [named, beat, pass, queue])]
  exact ⟨_, rfl, rfl⟩

end

/-! ### START.OP RUN -/

section
variable {b : BoardNo} {st : StreamSel} {i : Issue} {missed : Option MissedPush} {s u : State}

theorem run_waits (h : Turns b st 11 opRun i s u) (held : launchMay (u.board b.val) (aMask (actGroup u b.val st 3)) = false) :
    exec (.run b st missed) s = .next s := onTurnIf_waits h held

theorem run_launches (h : Turns b st 11 opRun i s u) (may : launchMay (u.board b.val) (aMask (actGroup u b.val st 3)) = true)
    (own : ∀ k ∈ (u.board b.val).launches, k.id ≠ i.launch.getD 0) :
    let feed := actGroup u b.val st 2
    let frame := actGroup u b.val st 3
    ∃ t l, exec (.run b st missed) s = .next t ∧ ActionDone b st i t ∧ t.store = s.store ∧ l ∈ (t.board b.val).launches
      ∧ l.id = i.launch.getD 0 ∧ l.work = issueWork u b.val st i ∧ l.feed = feed ∧ l.frame = frame ∧ l.drain = actGroup u b.val st 4
      ∧ (eBeats feed = passCycles frame → (∀ f ∈ framesOf frame, ((u.board b.val).frame f).left = []) →
        (missed = none → l.dropped = []
          ∧ ∀ f k tile, (framesOf frame)[k]? = some f → tile < tilesOf frame → tile % (framesOf frame).length = k →
              (l.id, tile) ∈ ((t.board b.val).frame f).passes)
        ∧ (∀ m, missed = some m → m.frame.val ∈ framesOf frame → m.beat < passCycles frame →
            m.pass < passesOf frame ((framesOf frame).idxOf m.frame.val) → m.queue < (if m.rodSide then 32 else 256) →
            HaltsWith b.val 0x0101 t)) := by
  intro feed frame
  generalize fault : launchFault b.val st missed u = first
  obtain ⟨strm, frames, store, carried⟩ := launching_launchOn (i := i) fault (newLaunch b.val st i first u)
  obtain ⟨⟨k, mem, id⟩, only⟩ := carried (launched_carries own)
  have same := only k mem id
  have issue : (((launchOn b.val st i missed u).board b.val).strm st).issue = some i := by rw [strm, launched_strm, turns_issue h]
  have ended := popAct_sameWork issue
  refine ⟨_, k, onTurnIf_acts h may, popAct_done issue rfl, ?_, ended.launches ▸ mem, id, by rw [same]; rfl, by rw [same]; rfl,
    by rw [same]; rfl, by rw [same]; rfl, fun beats empty => ⟨fun fine => ?_, fun m push named beat pass queue => ?_⟩⟩
  · exact (popAct_still issue).store.trans (store.trans (launched_store.trans (turns_still h).store))
  · have none_ : first = none := by
      rw [← fault, launchFault, fine, own_faults_none (launchScheds_fine beats empty)]
      rfl
    subst none_
    refine ⟨by rw [same]; rfl, fun f j tile at_ tiles place => ?_⟩
    have passes : (k.id, tile) ∈ (((launched b.val st i none u).board b.val).frame f).passes := by
      refine launched_passes at_ (List.mem_map.2 ⟨tile, List.mem_filter.2 ⟨List.mem_range.2 tiles, ?_⟩, by rw [id]⟩)
      obtain ⟨some_, -⟩ := List.getElem?_eq_some_iff.1 at_
      have pos : 1 ≤ (framesOf frame).length := by omega
      rw [show max 1 (framesOf (actGroup u b.val st 3)).length = (framesOf frame).length from Nat.max_eq_right pos, place]
      simp [passBegins]
    rw [Board.frame, ended.frames, frames]
    exact passes
  · obtain ⟨c, first_, kind⟩ := missed_fault (launchScheds_fine beats empty) feed frame named beat pass queue
    refine popAct_haltsWith issue ?_
    rw [launchOn_eq fault]
    refine launchEnd_haltsWith (c := c) ?_ kind _
    rw [← fault, launchFault, push]
    exact first_

end

/-! ### The statement on the actions of bundles -/

/-- Settles O53: each action from its turn, through what it does, to the end of the action. -/
theorem bundleActions : Obligations.BundleActions := by
  refine ⟨fun b st a op c s action => ?_, fun b st s => ⟨fun first later => ?_, fun u halted => ?_, fun i u acts => nop_does_its_turn acts⟩,
    fun b st f i s u h => ?_, fun b st i s u h => ?_, fun b st i s u h => ?_, fun b st i s u h => sem_signals h,
    fun b st i s u h => stepDone_marks h, fun b st missed i s u h => ⟨run_waits h, run_launches h⟩⟩
  · obtain ⟨ok, f, e⟩ := bundleAction_onTurnIf action
    rw [e]
    exact ⟨onTurnIf_none, fun u halted => ⟨onTurnIf_halted halted, turn_halted halted⟩⟩
  · rw [exec_nop_later first, onTurn_eq]
    exact onTurnIf_none later
  · rcases halted with halted | ⟨later, halted⟩
    · exact ⟨exec_nop_halted halted, turn_halted halted⟩
    · rw [exec_nop_later later, onTurn_eq]
      exact ⟨onTurnIf_halted halted, turn_halted halted⟩
  · cases f
    · exact fetch_starts .a h
    · exact fetch_starts .b h
  · exact ⟨fun a c => stash_other h, fun a c command named may release => stash_denied h command named may release,
      fun p named place => stashWrite_ready h named place,
      fun release c command named => ⟨stashRead_waits h command, fun p may place => stashRead_starts h command named may place⟩,
      stashRelease_ends h⟩
  · refine ⟨fun outside => gather_halts h ?_, fun fits kept => gather_halts h ?_, gather_runs h⟩
    · simp [gatherAct, outside]
    · simp [gatherAct, fits, kept]

end Sys2Proof.Machine
end

