-- ==== Sys2Proof/Proofs/Reducing.lean ====
section
/-!
PROOFS. Proofs/Reducing.lean: what the work of the reduce queue leaves (R96, R231 to R235): stores, slices, streams and credits, whatever
the jobs at its head do; and when the queue stands.
-/
-- One proof after another: in parallel, behind the tests' long evaluations, they ask for too many threads' stacks.
set_option Elab.async false

namespace Sys2Proof.Machine

/-! ### The relations -/

/-- t is s after work of Board b's reduce queue. -/
structure Reducing (b : Nat) (s t : State) : Prop where
  job : t.job = s.job
  store : t.store = s.store
  dram : t.dram = s.dram
  rd : ∀ r ∈ Reg.steady, ∀ u, t.rd r u = s.rd r u
  out : ∀ o ∈ s.out, o ∈ t.out
  slices : (t.board b).slices = (s.board b).slices
  credits : (t.board b).credits = (s.board b).credits
  strm : ∀ st, (t.board b).strm st = (s.board b).strm st
  mapDpa : (t.board b).mapDpa = (s.board b).mapDpa
  mapCount : (t.board b).mapCount = (s.board b).mapCount

/-- And the stacks are as they were: no map line was found unreadable. -/
structure Hopping (b : Nat) (s t : State) : Prop extends Reducing b s t where
  stks : t.stks = s.stks

section
variable {b : Nat} {r s t u : State}

theorem Reducing.refl (s : State) : Reducing b s s := ⟨rfl, rfl, rfl, fun _ _ _ => rfl, fun _ h => h, rfl, rfl, fun _ => rfl, rfl, rfl⟩

theorem Reducing.trans (h : Reducing b r s) (k : Reducing b s t) : Reducing b r t where
  job := k.job.trans h.job
  store := k.store.trans h.store
  dram := k.dram.trans h.dram
  rd q hq i := (k.rd q hq i).trans (h.rd q hq i)
  out o ho := k.out o (h.out o ho)
  slices := k.slices.trans h.slices
  credits := k.credits.trans h.credits
  strm st := (k.strm st).trans (h.strm st)
  mapDpa := k.mapDpa.trans h.mapDpa
  mapCount := k.mapCount.trans h.mapCount

/-- Two steps, the later one named first. -/
theorem Reducing.after (k : Reducing b s t) (h : Reducing b r s) : Reducing b r t := h.trans k

theorem Hopping.refl (s : State) : Hopping b s s := ⟨.refl s, rfl⟩

theorem Hopping.trans (h : Hopping b r s) (k : Hopping b s t) : Hopping b r t := ⟨h.toReducing.trans k.toReducing, k.stks.trans h.stks⟩

/-- Two steps, the later one named first. -/
theorem Hopping.after (k : Hopping b s t) (h : Hopping b r s) : Hopping b r t := h.trans k

theorem Hopping.ite {c : Prop} [Decidable c] (ht : Hopping b s t) (hu : Hopping b s u) : Hopping b s (if c then t else u) := by
  split
  · exact ht
  · exact hu

theorem Hopping.device (h : Reducing b s t) : t.device = s.device := h.rd .fabricDevice (by decide) 0

theorem Hopping.addrOf (h : Reducing b s t) (c : Nat) : t.addrOf c = s.addrOf c := by
  rw [State.addrOf, State.addrOf, Hopping.device h]

theorem Hopping.membersOf (h : Reducing b s t) (e : BitVec 192) : t.membersOf e = s.membersOf e := by
  rw [State.membersOf, State.membersOf, h.job]

theorem Upkeep.hopping (h : Upkeep s t) : Hopping b s t where
  job := h.job
  store := h.store
  dram := h.dram
  rd := h.rd
  out := h.out
  slices := (h.boards b).slices
  credits := (h.boards b).credits
  strm := (h.boards b).strm
  mapDpa := (h.boards b).mapDpa
  mapCount := (h.boards b).mapCount
  stks := h.stks

theorem Noted.reducing (h : Noted s t) : Reducing b s t where
  job := by rw [h.frame]
  store := h.store
  dram := h.dram
  rd := h.rd
  out o ho := h.out ▸ ho
  slices := by rw [h.board]
  credits := by rw [h.board]
  strm _ := by rw [h.board]
  mapDpa := by rw [h.board]
  mapCount := by rw [h.board]

end

/-- An update of a Board's jobs, of its hops, or of other fields that its reductions may change. -/
theorem hopping_modBoard (b : Nat) (f : Board → Board) (s : State) (slices : ∀ x : Board, (f x).slices = x.slices := by exact fun _ => rfl)
    (credits : ∀ x : Board, (f x).credits = x.credits := by exact fun _ => rfl) (main : ∀ x : Board, (f x).main = x.main := by exact fun _ => rfl)
    (fill : ∀ x : Board, (f x).fill = x.fill := by exact fun _ => rfl) (dpa : ∀ x : Board, (f x).mapDpa = x.mapDpa := by exact fun _ => rfl)
    (count : ∀ x : Board, (f x).mapCount = x.mapCount := by exact fun _ => rfl) : Hopping b s (s.modBoard b f) where
  job := rfl
  store := rfl
  dram := rfl
  rd _ _ _ := rfl
  out _ h := h
  slices := by rw [State.modBoard_board, slices]
  credits := by rw [State.modBoard_board, credits]
  strm st := by
    rw [State.modBoard_board]
    cases st
    · exact main _
    · exact fill _
  mapDpa := by rw [State.modBoard_board, dpa]
  mapCount := by rw [State.modBoard_board, count]
  stks := rfl

theorem hopping_setRJob (b : Nat) (j : RJob) (s : State) : Hopping b s (s.modBoard b (fun x => x.setRJob j)) := hopping_modBoard b _ s

/-- A watch point changes its domain and its Board's slot. -/
theorem watchCount_board (w : WatchAt) (codes : List Nat) (s : State) (c : Nat) :
    (watchCount w codes s).board c = { s.board c with slot := ((watchCount w codes s).board c).slot } := by
  have slot : ∀ (n : Nat × Nat × Nat) (u : State), (watchSlot w n u).board c = { u.board c with slot := ((watchSlot w n u).board c).slot } := by
    intro n u
    unfold watchSlot
    split
    · rfl
    · by_cases h : c = w.board
      · rw [h, State.modBoard_board]
      · rw [State.modBoard_board_of_ne _ _ _ _ h]
  by_cases h : WatchEvent w codes
  · obtain ⟨kind, e⟩ := watchCount_event w codes s h
    rw [e]
    exact slot _ _
  · rw [watchCount_quiet w codes s h]
    exact slot _ _

theorem hopping_watchCount (b : Nat) (w : WatchAt) (codes : List Nat) (s : State) : Hopping b s (watchCount w codes s) where
  job := by rw [watchCount_frame]
  store := by rw [watchCount_frame]
  dram := by rw [watchCount_frame]
  rd _ _ _ := by rw [watchCount_frame]; rfl
  out o h := by rw [watchCount_frame]; exact h
  slices := by rw [watchCount_board]
  credits := by rw [watchCount_board]
  strm st := by
    rw [watchCount_board]
    cases st <;> rfl
  mapDpa := by rw [watchCount_board]
  mapCount := by rw [watchCount_board]
  stks := by rw [watchCount_frame]

/-! ### What the jobs at the head of the queue do -/

theorem upkeep_answer (p : Pkt) (op : Nat) (bs : List Byte) (s : State) : Upkeep s (answer p op bs s) := upkeep_send _ s

theorem upkeep_sendErr (p : Pkt) (c : Nat) (s : State) : Upkeep s (sendErr p c s) :=
  .ite (.refl s) (.after (upkeep_answer ..) (upkeep_bump (by decide) ..))

theorem upkeep_sendUpdate (b owner stack tag pg q : Nat) (mode voteW : Bool) (bs : List Byte) (s : State) :
    Upkeep s (sendUpdate b owner stack tag pg q mode voteW bs s) := (upkeep_newTxn ..).trans (upkeep_send ..)

section
variable (b : Nat) (j : RJob) (s : State)

theorem hopping_nextSquare : Hopping b s (nextSquare b j s) := by
  unfold nextSquare
  exact hopping_setRJob ..

theorem hopping_endReduce : Hopping b s (endReduce b j s) :=
  .after (upkeep_settleWork ..).hopping (.after (upkeep_signalSem ..).hopping (hopping_modBoard b _ s))

theorem hopping_reduceMap : Hopping b s (reduceMap b j s) := .after (upkeep_haltWork ..).hopping (hopping_modBoard b _ s)

theorem reducing_mapUe (dpa : Nat) : Reducing b s (mapUe b j dpa s) :=
  .after (upkeep_haltWork ..).hopping.toReducing (.after (noted_noteUe ..).reducing (.after (noted_ueFlt ..).reducing
    (hopping_modBoard b (fun x => x.setRJob { j with stuck := true }) s).toReducing))

theorem hopping_deliverSum (stack pg q : Nat) (g : List W32) : Hopping b s (deliverSum b j stack pg q g s) :=
  .after (hopping_nextSquare ..) (upkeep_sendUpdate ..).hopping

theorem hopping_hopAdded (k : RHop) : Hopping b s (hopAdded b k s) := by
  have erased : Hopping b s (s.modBoard b (fun x => { x with hops := x.hops.erase k })) := hopping_modBoard b _ s
  exact .after (.ite (.refl _) (.after (upkeep_sendSemSignal ..).hopping (upkeep_answer ..).hopping)) erased

theorem hopping_hopWrong (k : RHop) (wire : Bool) : Hopping b s (hopWrong b j k wire s) := by
  have erased : Hopping b s (s.modBoard b (fun x => { x with hops := x.hops.erase k })) := hopping_modBoard b _ s
  exact .after (hopping_reduceMap ..) (.after (.ite (upkeep_sendErr ..).hopping (.refl _)) erased)

theorem hopping_addHop (pg wire : Nat) (data : List Byte) (v : List W32) : Hopping b s (addHop b pg wire data v s).2 := by
  unfold addHop
  generalize dequantSquare wire data = d
  exact .after (hopping_watchCount ..) (hopping_watchCount ..)

theorem hopping_takeHop (pg q : Nat) (k : RHop) (v : List W32) (f : List W32 → RJob) : Hopping b s (takeHop b pg q j k v f s).1 := by
  unfold takeHop
  dsimp only
  split
  · exact hopping_hopWrong ..
  · split
    · exact hopping_hopWrong ..
    · exact .after (hopping_hopAdded ..) (.after (hopping_modBoard b _ _) (hopping_addHop ..))

theorem reducing_hopAct (v : List W32) : Reducing b s (hopAct b j v s).1 := by
  unfold hopAct
  dsimp only
  split
  · exact (hopping_reduceMap ..).toReducing
  · exact reducing_mapUe ..
  · split
    · split
      · exact .refl s
      · exact (hopping_setRJob ..).toReducing
      · split
        · exact (hopping_takeHop ..).toReducing
        · exact .refl s
      · split
        · exact (hopping_takeHop ..).toReducing
        · exact .refl s
      · generalize quantSquare _ _ _ _ _ _ _ = d
        exact ((hopping_watchCount b _ _ s).trans (hopping_modBoard b (fun y => Board.setRJob { y with hops := y.hops ++ _ } _) _)).toReducing
      · exact (hopping_deliverSum ..).toReducing
      · exact (hopping_nextSquare ..).toReducing
    · exact (hopping_reduceMap ..).toReducing

end

theorem reducing_advance (b n : Nat) (s : State) : Reducing b s (advance b n s) := by
  induction n generalizing s with
  | zero => exact .refl s
  | succ n ih =>
    unfold advance
    split
    · exact .refl s
    · split
      · exact .refl s
      · split
        · exact (hopping_endReduce ..).toReducing.trans (ih _)
        · split
          · exact .refl s
          · split
            · exact .refl s
            · dsimp only
              split
              · exact (reducing_hopAct ..).trans (ih _)
              · exact reducing_hopAct ..

/-- Everything but the slices is as the queue's work leaves it when a read-out begins. -/
theorem beginReadout_board (b : Nat) (s : State) :
    ∃ slices, (beginReadout b s).board b = { s.board b with slices := slices } := by
  unfold beginReadout
  split
  · exact ⟨_, rfl⟩
  · dsimp only
    split
    · exact ⟨_, rfl⟩
    · exact ⟨_, State.modBoard_board ..⟩

/-! ### When the queue stands -/

/-- The job at the head of the queue waits: for its slices to be read out, or as a vote for its credit. -/
def RJob.Waits (j : RJob) (x : Board) : Prop := j.stuck = true ∨ (j.sigma < j.endSquare ∧ (j.vote = true ∨ j.values x = none))

theorem advance_waits {b n : Nat} {s : State} (h : ∀ j js, (s.board b).rjobs = j :: js → j.Waits (s.board b)) : advance b n s = s := by
  cases n with
  | zero => rfl
  | succ n =>
    unfold advance
    split
    · rfl
    · rename_i j js head
      rcases h j js head with stuck | ⟨square, vote | none⟩
      · exact if_pos stuck
      · rw [if_neg (by omega : ¬ j.endSquare ≤ j.sigma), if_pos vote]
        exact ite_self _
      · rw [if_neg (by omega : ¬ j.endSquare ≤ j.sigma), none]
        simp

theorem goOn_waits {b : Nat} {s : State} (h : ∀ j js, (s.board b).rjobs = j :: js → j.Waits (s.board b)) : goOn b s = beginReadout b s := by
  rw [goOn, advance_waits h]

/-- What the queue's work leaves, and then the start of a read-out. -/
theorem goOn_leaves (b : Nat) (s : State) : (goOn b s).store = s.store ∧ (goOn b s).dram = s.dram
    ∧ (∀ r ∈ Reg.steady, ∀ u, (goOn b s).rd r u = s.rd r u) ∧ (∀ o ∈ s.out, o ∈ (goOn b s).out)
    ∧ ((goOn b s).board b).credits = (s.board b).credits ∧ (∀ st, ((goOn b s).board b).strm st = (s.board b).strm st)
    ∧ ∀ k, SliceGoesOn ((s.board b).slice k) (((goOn b s).board b).slice k) := by
  have work := reducing_advance b advanceSpan s
  have slice : ∀ k, ((advance b advanceSpan s).board b).slice k = (s.board b).slice k := fun k => by
    rw [Board.slice, Board.slice, work.slices]
  have reads := beginReadout_goesOn b (advance b advanceSpan s)
  obtain ⟨slices, board⟩ := beginReadout_board b (advance b advanceSpan s)
  have frame := (beginReadout_frame b (advance b advanceSpan s)).1
  unfold goOn
  refine ⟨?_, ?_, fun r hr u => ?_, fun o ho => ?_, ?_, fun st => ?_, fun k => slice k ▸ reads k⟩
  · rw [frame]
    exact work.store
  · rw [frame]
    exact work.dram
  · rw [frame]
    exact work.rd r hr u
  · rw [frame]
    exact work.out o ho
  · rw [board]
    exact work.credits
  · rw [board, ← work.strm st]
    cases st <;> rfl

end Sys2Proof.Machine
end

