-- ==== Sys2Proof/Proofs/Reduces.lean ====
section
/-!
PROOFS. Proofs/Reduces.lean: a REDUCE that joins the queue of its Board (R144, R231, R232), and the read-out of the slices of the one at its
head (R96).
-/
-- One proof after another: in parallel, behind the tests' long evaluations, they ask for too many threads' stacks.
set_option Elab.async false

namespace Sys2Proof.Machine

/-! ### The buffers and credits of a REDUCE (R235, R237) -/

/-- t is s after Board b has granted buffers, or taken credits, and told their holders. -/
structure Grants (b : Nat) (s t : State) : Prop where
  frame : t = { s with boards := t.boards, out := t.out }
  board : ∃ shut granted credits, t.board b = { s.board b with hopShut := shut, granted := granted, credits := credits }

section
variable {b : Nat} {r s t : State}

theorem Grants.refl (s : State) : Grants b s s := ⟨rfl, _, _, _, rfl⟩

theorem Grants.trans (h : Grants b r s) (k : Grants b s t) : Grants b r t where
  frame := by
    rw [k.frame, h.frame]
  board := by
    obtain ⟨_, _, _, e⟩ := h.board
    obtain ⟨_, _, _, e'⟩ := k.board
    exact ⟨_, _, _, by rw [e', e]⟩

theorem grants_forEach {α : Type} (l : List α) (f : α → State → State) (h : ∀ a s, Grants b s (f a s)) (s : State) :
    Grants b s (forEach l f s) := by
  unfold forEach
  induction l generalizing s with
  | nil => exact .refl s
  | cons a l ih => exact (h a s).trans (ih (f a s))

end

theorem grants_grantBuffers (b g ep : Nat) (s : State) : Grants b s (grantBuffers b g ep s) := by
  unfold grantBuffers
  refine .trans (s := s.modBoard b (fun y => { y with hopShut := y.hopShut.filter (· != ep) }))
    ⟨rfl, _, _, _, by rw [State.modBoard_board]⟩ (grants_forEach _ _ (fun r u => ?_) _)
  dsimp only
  split
  · exact .refl u
  · exact .trans ⟨rfl, _, _, _, by rw [State.modBoard_board]⟩ ⟨rfl, _, _, _, rfl⟩

theorem grants_grantVotes (b g ep : Nat) (s : State) : Grants b s (grantVotes b g ep s) := by
  unfold grantVotes
  split
  all_goals exact ⟨rfl, _, _, _, by rw [State.modBoard_board]⟩

/-! ### REDUCE (R144, R231) -/

section
variable {b : BoardNo} {st : StreamSel} {i : Issue} {s u : State}

/-- The job that a REDUCE group asks for. -/
def newRJob (u : State) (b : Nat) (st : StreamSel) (i : Issue) : RJob :=
  let g := actGroup u b st 8
  { id := (u.board b).nextId, first := rSliceFirst g, count := rSliceCount g, group := rGroup g, vote := rVote g
    wire := if rVote g then 2 else rWire g, sem := rDoneSem g, work := issueWork u b st i, sigma := 2 * rSliceFirst g }

/-- The job stands in the queue, with its buffers or credits. -/
def rjobQueued (b : Nat) (st : StreamSel) (i : Issue) (u : State) : State :=
  let g := actGroup u b st 8
  let w := issueWork u b st i
  let s := u.modBoard b (fun x => { x with nextId := x.nextId + 1, rjobs := x.rjobs ++ [newRJob u b st i] })
  if rVote g then grantVotes b (rGroup g) w.epoch s else grantBuffers b (rGroup g) w.epoch s

theorem rjobQueued_store : (rjobQueued b.val st i u).store = u.store ∧ (rjobQueued b.val st i u).dram = u.dram := by
  unfold rjobQueued
  dsimp only
  split
  · rw [(grants_grantVotes ..).frame]
    exact ⟨rfl, rfl⟩
  · rw [(grants_grantBuffers ..).frame]
    exact ⟨rfl, rfl⟩

/-- Beside the new job the queue, the slices and the streams are as they were. -/
theorem rjobQueued_board : ((rjobQueued b.val st i u).board b.val).rjobs = (u.board b.val).rjobs ++ [newRJob u b.val st i]
    ∧ ((rjobQueued b.val st i u).board b.val).slices = (u.board b.val).slices
    ∧ ∀ z, ((rjobQueued b.val st i u).board b.val).strm z = (u.board b.val).strm z := by
  have granted : Grants b.val (u.modBoard b.val (fun x => { x with nextId := x.nextId + 1, rjobs := x.rjobs ++ [newRJob u b.val st i] }))
      (rjobQueued b.val st i u) := by
    unfold rjobQueued
    dsimp only
    split
    · exact grants_grantVotes ..
    · exact grants_grantBuffers ..
  obtain ⟨_, _, _, e⟩ := granted.board
  rw [e, State.modBoard_board]
  exact ⟨rfl, rfl, fun z => by cases z <;> rfl⟩

theorem exec_reduce_halts (h : Turns b st 8 0 i s u)
    (shape : reduceShape u b.val (issueWork u b.val st i) (actGroup u b.val st 8) = true) :
    exec (.reduce b st) s = .next (popAct b.val st (errorHalt b.val (issueWork u b.val st i) 0x0208 u)) := by
  refine (onTurn_acts h).trans ?_
  simp only [shape]
  rfl

theorem exec_reduce_joins (h : Turns b st 8 0 i s u)
    (shape : reduceShape u b.val (issueWork u b.val st i) (actGroup u b.val st 8) = false) :
    exec (.reduce b st) s = .next (popAct b.val st (goOn b.val (rjobQueued b.val st i u))) := by
  refine (onTurn_acts h).trans ?_
  simp only [shape]
  rfl

/-- A REDUCE whose group or slices are not of its form halts the Board. -/
theorem reduce_halts (h : Turns b st 8 0 i s u)
    (shape : reduceShape u b.val (issueWork u b.val st i) (actGroup u b.val st 8) = true) :
    ∃ t, exec (.reduce b st) s = .next t ∧ HaltsWith b.val 0x0208 t ∧ (t.board b.val).rjobs = (u.board b.val).rjobs := by
  have kept := (upkeep_haltWork b.val (issueWork u b.val st i) { code := 0x0208, kind := 1, unit := b.val } u).boards b.val
  have issue : (((errorHalt b.val (issueWork u b.val st i) 0x0208 u).board b.val).strm st).issue = some i := by
    rw [errorHalt, kept.strm]
    exact turns_issue h
  exact ⟨_, exec_reduce_halts h shape, popAct_haltsWith issue (haltWork_haltsWith ..), (popAct_sameWork issue).rjobs.trans kept.rjobs⟩

/-- Its slices are of one shape; those that are not folded come in pairs. -/
theorem reduceShape_first {w : Work} {g : Nat} (shape : reduceShape u b.val w g = false) :
    ((u.board b.val).slice (rSliceFirst g)).fold = true ∨ rSliceFirst g % 2 = 0 := by
  unfold reduceShape at shape
  simp only [Bool.or_eq_false_iff, Bool.and_eq_false_iff] at shape
  obtain ⟨-, folded | even⟩ := shape
  · exact .inl (by simpa using folded)
  · exact .inr (by simpa using even.1)

/-- A new job waits for its first slices, or as a vote for its credit. -/
theorem newRJob_waits (shape : reduceShape u b.val (issueWork u b.val st i) (actGroup u b.val st 8) = false)
    (some_ : 1 ≤ rSliceCount (actGroup u b.val st 8)) {x : Board} (slices : x.slices = (u.board b.val).slices) :
    (newRJob u b.val st i).Waits x := by
  have square : (newRJob u b.val st i).sigma < (newRJob u b.val st i).endSquare := by
    simp only [newRJob, RJob.endSquare]
    omega
  refine .inr ⟨square, .inr (if_neg fun read => ?_)⟩
  have fold : (newRJob u b.val st i).fold x = ((u.board b.val).slice (rSliceFirst (actGroup u b.val st 8))).fold := by
    rw [RJob.fold, Board.slice, slices]
    rfl
  have all := (Bool.and_eq_true_iff.1 read).2
  rw [fold] at all
  rcases reduceShape_first shape with folded | even
  · simp [folded, squareSlices, newRJob] at all
  · cases folded : ((u.board b.val).slice (rSliceFirst (actGroup u b.val st 8))).fold with
    | true => simp [folded, squareSlices, newRJob] at all
    | false =>
      simp [folded, squareSlices, newRJob] at all
      omega

/-- Any other REDUCE joins the queue, at its first square. -/
theorem reduce_joins (h : Turns b st 8 0 i s u)
    (shape : reduceShape u b.val (issueWork u b.val st i) (actGroup u b.val st 8) = false)
    (waiting : ∀ j ∈ (u.board b.val).rjobs, j.sigma < j.endSquare ∧ j.values (u.board b.val) = none)
    (some_ : 1 ≤ rSliceCount (actGroup u b.val st 8)) :
    ∃ t j, exec (.reduce b st) s = .next t ∧ (t.board b.val).rjobs = (u.board b.val).rjobs ++ [j]
      ∧ QueuedReduce (issueWork u b.val st i) (actGroup u b.val st 8) j ∧ t.store = u.store ∧ t.dram = u.dram := by
  obtain ⟨rjobs, slices, strm⟩ := rjobQueued_board (b := b) (st := st) (i := i) (u := u)
  have waits : ∀ j js, ((rjobQueued b.val st i u).board b.val).rjobs = j :: js → j.Waits ((rjobQueued b.val st i u).board b.val) := by
    intro j js head
    rw [rjobs] at head
    cases queue : (u.board b.val).rjobs with
    | nil =>
      rw [queue] at head
      obtain ⟨rfl, -⟩ := List.cons_eq_cons.1 head
      exact newRJob_waits shape some_ slices
    | cons k ks =>
      rw [queue] at head
      obtain ⟨rfl, -⟩ := List.cons_eq_cons.1 head
      obtain ⟨square, none⟩ := waiting k (by rw [queue]; exact List.mem_cons_self ..)
      refine .inr ⟨square, .inr ?_⟩
      rw [← none, RJob.values, RJob.values, RJob.fold, RJob.fold, Board.slice, Board.slice, slices]
  have stands := goOn_waits waits
  obtain ⟨store, dram, -, -, -, streams, -⟩ := goOn_leaves b.val (rjobQueued b.val st i u)
  obtain ⟨zs, board⟩ := beginReadout_board b.val (rjobQueued b.val st i u)
  have issue : (((goOn b.val (rjobQueued b.val st i u)).board b.val).strm st).issue = some i := by
    rw [streams, strm]
    exact turns_issue h
  have ended := popAct_still issue
  refine ⟨_, newRJob u b.val st i, exec_reduce_joins h shape, ?_, ⟨rfl, rfl, rfl, rfl, rfl, rfl, rfl⟩, ?_, ?_⟩
  · rw [(popAct_sameWork issue).rjobs, stands, board]
    exact rjobs
  · exact ended.store.trans (store.trans rjobQueued_store.1)
  · exact ended.dram.trans (dram.trans rjobQueued_store.2)

/-- A REDUCE of no slices, alone in the queue, is over at once. -/
theorem reduce_empty (h : Turns b st 8 0 i s u)
    (shape : reduceShape u b.val (issueWork u b.val st i) (actGroup u b.val st 8) = false)
    (none : rSliceCount (actGroup u b.val st 8) = 0) (alone : (u.board b.val).rjobs = []) :
    ∃ t, exec (.reduce b st) s = .next t ∧ (t.board b.val).rjobs = [] := by
  obtain ⟨rjobs, -, strm⟩ := rjobQueued_board (b := b) (st := st) (i := i) (u := u)
  obtain ⟨-, -, -, -, -, streams, -⟩ := goOn_leaves b.val (rjobQueued b.val st i u)
  have issue : (((goOn b.val (rjobQueued b.val st i u)).board b.val).strm st).issue = some i := by
    rw [streams, strm]
    exact turns_issue h
  refine ⟨_, exec_reduce_joins h shape, (popAct_sameWork issue).rjobs.trans ?_⟩
  generalize rjobQueued b.val st i u = v at rjobs
  rw [alone, List.nil_append] at rjobs
  have over_ : ((endReduce b.val (newRJob u b.val st i) v).board b.val).rjobs = [] := by
    unfold endReduce
    rw [((upkeep_settleWork ..).boards b.val).rjobs, ((upkeep_signalSem ..).boards b.val).rjobs, State.modBoard_board, rjobs]
    simp
  have left : advance b.val advanceSpan v = endReduce b.val (newRJob u b.val st i) v := by
    obtain ⟨n, span⟩ : ∃ n, advanceSpan = n + 1 := ⟨32767, rfl⟩
    rw [span, advance]
    rw [rjobs]
    dsimp only
    rw [if_neg (by simp [newRJob]), if_pos (by simp [newRJob, RJob.endSquare, none])]
    exact advance_waits fun j js head => by rw [over_] at head; cases head
  obtain ⟨zs, board⟩ := beginReadout_board b.val (advance b.val advanceSpan v)
  rw [goOn, board, left]
  exact over_

end

/-! ### The read-out of slices (R96) -/

/-- A read of a store leaves the reduce queue of its Board. -/
theorem storeServed_rjobs (b a n : Nat) (s : State) : ((storeServed b a n s).board b).rjobs = (s.board b).rjobs := by
  have marched : ∀ (ws : List Nat) (u : State),
      ((forEach ws (fun w s => queueMarch b w (s.bump .storeCorrected b)) u).board b).rjobs = (u.board b).rjobs := by
    intro ws
    unfold forEach
    induction ws with
    | nil => exact fun _ => rfl
    | cons w ws ih =>
      intro u
      refine (ih _).trans ?_
      dsimp only
      rw [queueMarch, State.modBoard_board, State.bump_board]
  have counted := ((upkeep_countEvent b 0x0D none none (accesses 256 a n) s).boards b).rjobs
  unfold storeServed
  dsimp only
  split
  · exact counted
  · rw [correctWords, marched, State.modBoard_board]
    exact counted

/-- A job that holds the values of its next slice. -/
def RJob.readOut (j : RJob) (v : List W32) : RJob := { j with read := j.read + 1, held := j.held ++ [(j.first + j.read, v)] }

/-- A job that is replaced heads the queue that it headed. -/
theorem Board.setRJob_head {x : Board} {j k : RJob} {js : List RJob} (head : x.rjobs = j :: js) (id : k.id = j.id) :
    ∃ ks, (x.setRJob k).rjobs = k :: ks := by
  refine ⟨js.map (fun r => if r.id = k.id then k else r), ?_⟩
  rw [Board.setRJob, head, List.map_cons, if_pos id.symm]

/-- The values of a slice are held by its job, and the slice is idle. -/
def sliceHeld (b : Nat) (j : RJob) (z : Slice) (v : List W32) (s : State) : State :=
  touch (s.modBoard b (fun y => (y.setSlice (j.first + j.read) z.idle).setRJob (j.readOut v))) b

section
variable {b : Nat} {j : RJob} {z : Slice} {v : List W32} {s : State}

theorem sliceHeld_slice : ((sliceHeld b j z v s).board b).slice (j.first + j.read) = z.idle := by
  rw [sliceHeld, touch, State.modBoard_board, State.modBoard_board]
  exact Board.setSlice_slice ..

theorem sliceHeld_rjobs {js : List RJob} (head : (s.board b).rjobs = j :: js) :
    ∃ ks, ((sliceHeld b j z v s).board b).rjobs = j.readOut v :: ks := by
  rw [sliceHeld, touch, State.modBoard_board, State.modBoard_board]
  exact Board.setRJob_head (x := Board.setSlice _ _ _) head rfl

/-- Then the queue goes on; as a vote the job keeps its values for its credit. -/
theorem sliceHeld_goOn {js : List RJob} (head : (s.board b).rjobs = j :: js) :
    ((goOn b (sliceHeld b j z v s)).board b).slice (j.first + j.read) = z.idle
      ∧ (goOn b (sliceHeld b j z v s)).store = s.store
      ∧ (j.vote = true → j.sigma < j.endSquare → j.readOut v ∈ ((goOn b (sliceHeld b j z v s)).board b).rjobs) := by
  obtain ⟨store, -, -, -, -, -, slices⟩ := goOn_leaves b (sliceHeld b j z v s)
  refine ⟨?_, store, fun vote square => ?_⟩
  · rcases slices (j.first + j.read) with same | ⟨complete, -⟩
    · exact same.trans sliceHeld_slice
    · rw [sliceHeld_slice] at complete
      cases complete
  · obtain ⟨ks, queue⟩ := sliceHeld_rjobs (z := z) (v := v) head
    obtain ⟨zs, board⟩ := beginReadout_board b (sliceHeld b j z v s)
    rw [goOn_waits fun j' js' head' => ?_, board]
    · exact queue ▸ List.mem_cons_self ..
    · rw [queue] at head'
      obtain ⟨rfl, -⟩ := List.cons_eq_cons.1 head'
      exact .inr ⟨square, .inl vote⟩

end

section
variable {b : BoardNo} {j : RJob} {js : List RJob} {s : State} (head : (s.board b.val).rjobs = j :: js)
include head

theorem exec_sliceReadout_waits (h : j.stuck = true ∨ j.count ≤ j.read
      ∨ (((s.board b.val).slice (j.first + j.read)).state ≠ 2 ∧ ((s.board b.val).slice (j.first + j.read)).state ≠ 3)
      ∨ s.boardOk b.val = false ∨ s.powered = false) : exec (.sliceReadout b) s = .next s := by
  show execSliceReadout b s = _
  unfold execSliceReadout
  simp only [head]
  refine if_pos ?_
  rcases h with stuck | done | ⟨complete, reading⟩ | out | off
  · simp [stuck]
  · simp [done]
  · simp [complete, reading]
  · simp [out]
  · simp [off]

variable (stuck : j.stuck = false) (more : j.read < j.count)
  (state : ((s.board b.val).slice (j.first + j.read)).state = 2 ∨ ((s.board b.val).slice (j.first + j.read)).state = 3)
  (ok : s.boardOk b.val = true) (powered : s.powered = true)
include stuck more state ok powered

/-- A slice with an uncorrectable word stays REDUCING. -/
theorem exec_sliceReadout_bad {w : Nat} (bad : boardBad s b.val (spaceAddr ((s.board b.val).slice (j.first + j.read))) 32768 = some w) :
    ∃ t, exec (.sliceReadout b) s = .next t ∧ HaltsWith b.val 0x0401 t
      ∧ (t.board b.val).slice (j.first + j.read) = { (s.board b.val).slice (j.first + j.read) with state := 3 } := by
  show ∃ t, execSliceReadout b s = .next t ∧ _
  unfold execSliceReadout
  simp only [head]
  rw [if_neg (by rcases state with e | e <;> simp [stuck, more, e, ok, powered])]
  simp only [bad]
  refine ⟨_, rfl, storeUe_haltsWith .., ?_⟩
  rw [((still_storeUe ..).boards b.val).slice, State.modBoard_board]
  exact Board.setSlice_slice ..

theorem exec_sliceReadout_reads (fine : boardBad s b.val (spaceAddr ((s.board b.val).slice (j.first + j.read))) 32768 = none) :
    let z := (s.board b.val).slice (j.first + j.read)
    exec (.sliceReadout b) s
      = .next (goOn b.val (sliceHeld b.val j z (readSpace s b.val z) (storeServed b.val (spaceAddr z) 32768 s))) := by
  show execSliceReadout b s = _
  unfold execSliceReadout
  simp only [head]
  rw [if_neg (by rcases state with e | e <;> simp [stuck, more, e, ok, powered])]
  simp only [fine]
  rfl

/-- A slice that has been read out is idle, and its values are held by the job. -/
theorem sliceReadout_reads (fine : boardBad s b.val (spaceAddr ((s.board b.val).slice (j.first + j.read))) 32768 = none) :
    let k := j.first + j.read
    let z := (s.board b.val).slice k
    ∃ t, exec (.sliceReadout b) s = .next t ∧ (t.board b.val).slice k = z.idle ∧ t.store = s.store
      ∧ (j.vote = true → j.sigma < j.endSquare →
          ∃ j' ∈ (t.board b.val).rjobs, j'.id = j.id ∧ j'.read = j.read + 1 ∧ j'.held = j.held ++ [(k, readSpace s b.val z)]) := by
  intro k z
  have reads := exec_sliceReadout_reads head stuck more state ok powered fine
  have served := (still_storeServed b.val (spaceAddr z) 32768 s).store
  have queue := (storeServed_rjobs b.val (spaceAddr z) 32768 s).trans head
  obtain ⟨idle, store, held⟩ := sliceHeld_goOn (z := z) (v := readSpace s b.val z) queue
  exact ⟨_, reads, idle, store.trans served, fun vote square => ⟨_, held vote square, rfl, rfl, rfl⟩⟩

end

end Sys2Proof.Machine
end

