-- ==== Sys2Proof/Proofs/Packets.lean ====
section
/-!
PROOFS. Proofs/Packets.lean: packets that reach a Board, that are rejected (R217) or answered (R379), and what the headers of a square's packet
and of an update command carry (Table 08-1, Table 10-3).
-/
-- One proof after another: in parallel, behind the tests' long evaluations, they ask for too many threads' stacks.
set_option Elab.async false

namespace Sys2Proof.Machine

/-! ### Fields of headers -/

theorem bitsOf_eq (n hi lo : Nat) : bitsOf n hi lo = n / 2 ^ lo % 2 ^ (hi + 1 - lo) := by
  rw [bitsOf, Nat.shiftRight_eq_div_pow]

theorem bitsOf_lt (n hi lo : Nat) : bitsOf n hi lo < 2 ^ (hi + 1 - lo) := Nat.mod_lt _ (Nat.two_pow_pos _)

theorem length_padTo (n : Nat) (bs : List Byte) : (padTo n bs).length = n := by
  simp [padTo]

theorem hdrBytes_length (h : Hdr) : (hdrBytes h).length = 64 := length_padTo ..

/-- After the header line a packet carries its data. -/
theorem drop_hdrBytes (h : Hdr) (data : List Byte) : (hdrBytes h ++ data).drop 64 = data := List.drop_left' (hdrBytes_length h)

theorem leBytes_length (n v : Nat) : (leBytes n v).length = n := by
  induction n generalizing v with
  | zero => rfl
  | succ n ih => exact congrArg (· + 1) (ih _)

/-- A field of a header is what stands between the bytes before and those after it. -/
theorem leAt_field (front back : List Byte) (n v : Nat) {o : Nat} (at_ : front.length = o) :
    leAt (front ++ (leBytes n v ++ back)) o n = v % 2 ^ (8 * n) := by
  rw [leAt, List.drop_left' at_, List.take_left' (leBytes_length n v), leNat_leBytes]

theorem padTo_eq {n : Nat} {bs : List Byte} (h : bs.length ≤ n) : padTo n bs = bs ++ (List.replicate n 0#8).take (n - bs.length) := by
  rw [padTo, List.take_append, List.take_of_length_le h]

/-- The header line is its fields, and zeros. -/
theorem hdrBytes_eq (h : Hdr) : ∃ zeros, hdrBytes h = leBytes 4 h.tag ++ leBytes 2 h.comp ++ leBytes 2 h.group ++ leBytes 2 h.gepoch
    ++ leBytes 2 h.pgroup ++ leBytes 4 h.q ++ leBytes 1 h.stack ++ leBytes 1 h.outcome ++ leBytes 2 h.hop ++ leBytes 1 h.wire ++ leBytes 2 h.err
    ++ leBytes 1 h.epoch ++ leBytes 4 h.sigma ++ zeros := by
  refine ⟨_, padTo_eq ?_⟩
  simp only [List.length_append, leBytes_length]
  omega

theorem hdrOf_fields (bs : List Byte) :
    (hdrOf bs).sigma = leAt bs 24 4 ∧ (hdrOf bs).group = leAt bs 6 2 ∧ (hdrOf bs).wire = byteAt bs 20 := ⟨rfl, rfl, rfl⟩

theorem hdrOf_sigma (h : Hdr) (data : List Byte) : (hdrOf (hdrBytes h ++ data)).sigma = h.sigma % 2 ^ 32 := by
  obtain ⟨zeros, e⟩ := hdrBytes_eq h
  rw [(hdrOf_fields _).1, e, List.append_assoc, List.append_assoc]
  refine leAt_field _ _ 4 h.sigma ?_
  simp only [List.length_append, leBytes_length]

theorem hdrOf_group (h : Hdr) (data : List Byte) : (hdrOf (hdrBytes h ++ data)).group = h.group % 2 ^ 16 := by
  obtain ⟨zeros, e⟩ := hdrBytes_eq h
  rw [(hdrOf_fields _).2.1, e]
  iterate 12 rw [List.append_assoc]
  refine leAt_field _ _ 2 h.group ?_
  simp only [List.length_append, leBytes_length]

theorem hdrOf_wire (h : Hdr) (data : List Byte) : (hdrOf (hdrBytes h ++ data)).wire = h.wire % 2 ^ 8 := by
  obtain ⟨zeros, e⟩ := hdrBytes_eq h
  rw [(hdrOf_fields _).2.2, e]
  iterate 5 rw [List.append_assoc]
  rw [byteAt, List.getD_append_right]
  · simp only [List.length_append, leBytes_length]
    exact BitVec.toNat_ofNat ..
  · simp only [List.length_append, leBytes_length]
    omega

/-! ### Packets that are answered or rejected -/

/-- An answer has left the module. -/
theorem answer_answered (p : Pkt) (op : Nat) (bs : List Byte) (s : State) : Answered p op bs (answer p op bs s) :=
  ⟨_, List.mem_cons_self .., rfl, rfl, rfl, rfl⟩

/-- What has left the module stays sent. -/
theorem answered_of_out {p : Pkt} {op : Nat} {bs : List Byte} {s t : State} (h : Answered p op bs s) (out : ∀ o ∈ s.out, o ∈ t.out) :
    Answered p op bs t := by
  obtain ⟨k, mem, rest⟩ := h
  exact ⟨k, out _ mem, rest⟩

theorem raise_irqCause (code : Nat) (s : State) : (s.raise { code := code }).host.irqCause.getLsbD 1 = true := by
  rw [raise_reported (recordWaits_none rfl s)]
  exact reportFault_irqCause ..

theorem rejectPkt_rejected (p : Pkt) {code : Nat} (h : code < 65536) (s : State) : Rejected p code (rejectPkt p code s) := by
  have cause := raise_irqCause code s
  have carried : leAt (padTo 64 (leBytes 2 code)) 0 2 = code := (leNat_leBytes 2 code).trans (Nat.mod_eq_of_lt h)
  unfold rejectPkt
  generalize s.raise { code := code } = u at cause
  refine ⟨?_, fun told => ?_⟩
  · have same : (sendErr p code u).host = u.host := by
      unfold sendErr
      split <;> rfl
    rw [same, testBit_eq, BitVec.testBit_toNat]
    exact cause
  · unfold sendErr
    rw [if_neg told]
    exact ⟨_, List.mem_cons_self .., rfl, rfl, rfl, carried⟩

theorem rejectPkt_boards (p : Pkt) (code : Nat) (s : State) : (rejectPkt p code s).boards = s.boards := by
  rw [show Reports s (rejectPkt p code s) from reports_rejectPkt ..]

/-- A packet of the opcode reaches its Board. -/
theorem deliver_delivered {op b : Nat} {p : Pkt} {s : State} (h : Delivered op b p s) (f : Nat → State → State) : deliver op p f s = f b s := by
  obtain ⟨opcode, powered, device, dest, rfl, ok, board⟩ := h
  unfold deliver
  simp [opcode, powered, device, dest, ok, board]

/-! ### Update commands (Table 08-1) -/

theorem mapAt_square {s : State} {b g n owner stack pg q : Nat} (h : mapAt s b g n = .square owner stack pg q) :
    stack < 2 ^ 4 ∧ pg < 2 ^ 12 ∧ q < 2 ^ 22 := by
  unfold mapAt at h
  dsimp only at h
  split at h
  · cases h
  · split at h
    · cases h
    · rename_i m entry
      cases h
      unfold shardEntry at entry
      dsimp only at entry
      split at entry
      · cases entry
      · cases entry
        exact ⟨bitsOf_lt _ 47 44, bitsOf_lt _ 43 32, bitsOf_lt _ 31 10⟩

/-- The header word of an update command. -/
def updWord (tag pg q stack : Nat) (mode voteW : Bool) : Nat :=
  tag * 2 ^ 96 + pg * 2 ^ 84 + q * 2 ^ 62 + stack * 2 ^ 58 + (if mode then 2 ^ 57 else 0) + (if voteW then 2 ^ 56 else 0)

/-- The packet of an update command. -/
theorem sendUpdate_sends (b owner stack tag pg q : Nat) (mode voteW : Bool) (bs : List Byte) (s : State) :
    ∃ k, Out.packet none k ∈ (sendUpdate b owner stack tag pg q mode voteW bs s).out ∧ k.opcode = 0x07 ∧ k.dest = owner
      ∧ k.payload = padTo 64 (leBytes 16 (updWord tag pg q stack mode voteW)) ++ bs :=
  ⟨_, List.mem_cons_self .., rfl, rfl, rfl⟩

theorem updOf_fields {k : Pkt} {w : Nat} {bs : List Byte} (payload : k.payload = padTo 64 (leBytes 16 w) ++ bs) :
    (updOf k).1 = w % 2 ^ 128 ∧ k.payload.drop 64 = bs := by
  refine ⟨?_, ?_⟩
  · rw [updOf, payload]
    exact leNat_leBytes 16 w
  · rw [payload]
    exact List.drop_left' (length_padTo ..)

section
variable {tag pg q stack : Nat} (mode voteW : Bool) (hs : stack < 2 ^ 4) (hp : pg < 2 ^ 12) (hq : q < 2 ^ 22)
include hs hp hq

theorem updWord_fields : bitsOf (updWord tag pg q stack mode voteW % 2 ^ 128) 127 96 = tag % 2 ^ 32
    ∧ bitsOf (updWord tag pg q stack mode voteW % 2 ^ 128) 95 84 = pg ∧ bitsOf (updWord tag pg q stack mode voteW % 2 ^ 128) 83 62 = q
    ∧ bitsOf (updWord tag pg q stack mode voteW % 2 ^ 128) 61 58 = stack
    ∧ testBit (updWord tag pg q stack mode voteW % 2 ^ 128) 57 = mode ∧ testBit (updWord tag pg q stack mode voteW % 2 ^ 128) 56 = voteW := by
  simp only [bitsOf_eq, testBit, Nat.shiftRight_eq_div_pow, updWord]
  norm_num at *
  cases mode <;> cases voteW <;> simp <;> omega

/-- It goes to the owner's Board as Table 08-1 spells it. -/
theorem toReckoner {k : Pkt} {bs : List Byte} (opcode : k.opcode = 0x07)
    (payload : k.payload = padTo 64 (leBytes 16 (updWord tag pg q stack mode voteW)) ++ bs) :
    ToReckoner k tag pg q stack mode ∧ (updOf k).2.voteW = voteW ∧ (updOf k).2.payload = bs := by
  obtain ⟨word, data⟩ := updOf_fields payload
  obtain ⟨htag, hpg, hq', hstack, hmode, hvote⟩ := updWord_fields (tag := tag) mode voteW hs hp hq
  have fields : (updOf k).2 = { (updOf k).2 with
      tag := bitsOf (updOf k).1 127 96, group := bitsOf (updOf k).1 95 84, q := bitsOf (updOf k).1 83 62
      mode := testBit (updOf k).1 57, voteW := testBit (updOf k).1 56, payload := k.payload.drop 64 } := rfl
  rw [ToReckoner, fields, word]
  exact ⟨⟨opcode, htag, hpg, hq', hstack, hmode⟩, hvote, data⟩

end

end Sys2Proof.Machine
end

