-- ==== Sys2Proof/Proofs/Hops.lean ====
section
/-!
PROOFS. Proofs/Hops.lean: the hops of a square around its ring (R232 to R235): a hop that arrives and is added, at the owner delivered, and a sum
or a square of trits that goes out with a credit.
-/
-- One proof after another: in parallel, behind the tests' long evaluations, they ask for too many threads' stacks.
set_option Elab.async false

namespace Sys2Proof.Machine

/-! ### A REDUCE at work on its square -/

section
variable {b : Nat} {j j' : RJob} {js js' : List RJob} {v : List W32} {owner stack pg q o x : Nat} {s t : State}

theorem RJob.values_square {y : Board} (h : j.values y = some v) : j.sigma < j.endSquare := by
  unfold RJob.values at h
  split at h
  · rename_i read
    simpa using (Bool.and_eq_true_iff.1 read).1
  · cases h

theorem Hopping.grp (k : Reducing b s t) (g : Nat) : t.grp g = s.grp g := by rw [State.grp, State.grp, k.job]

theorem Hopping.mapAt (k : Hopping b s t) (g n : Nat) : mapAt t b g n = mapAt s b g n := by
  have entry : ∀ m, shardEntry t b m = shardEntry s b m := fun m => by
    rw [shardEntry, shardEntry, k.mapDpa, State.badLine, State.badLine, State.stack, State.stack, k.stks, State.dramRead, State.dramRead, k.dram]
  rw [Machine.mapAt, Machine.mapAt, Hopping.grp k.toReducing, k.mapCount, k.mapDpa]
  simp only [entry]

/-- Work on the square leaves it the square at work. -/
theorem atSquare_after (h : AtSquare b j js v owner stack pg q o x s) (k : Hopping b s t) (queue : (t.board b).rjobs = j' :: js')
    (same : j' = { j with sum := j'.sum, sent := j'.sent, part := j'.part, acc := j'.acc }) :
    AtSquare b j' js' v owner stack pg q o x t := by
  obtain ⟨-, stuck, values, map, own, mine⟩ := h
  refine ⟨queue, by rw [same]; exact stuck, ?_, ?_, ?_, ?_⟩
  · have fold : j'.fold (t.board b) = j.fold (s.board b) := by
      rw [RJob.fold, RJob.fold, Board.slice, Board.slice, k.slices, same]
    rw [← values, RJob.values, RJob.values, fold, same]
    rfl
  · rw [k.mapAt, same]
    exact map
  · rw [Hopping.membersOf k.toReducing, Hopping.grp k.toReducing, same]
    exact own
  · rw [Hopping.membersOf k.toReducing, Hopping.grp k.toReducing, Hopping.addrOf k.toReducing, same]
    exact mine

theorem posOf_lt {e : BitVec 192} {a i : Nat} (h : posOf (s.membersOf e) a = some i) : i < gMembers e := by
  obtain ⟨lt, -⟩ := List.findIdx?_eq_some_iff_getElem.1 h
  simpa [State.membersOf] using lt

/-- The head of the queue does its next action for the square. -/
theorem advance_acts (h : AtSquare b j js v owner stack pg q o x s) (value : j.vote = false) (n : Nat) :
    advance b (n + 1) s = (if (hopAct b j v s).2 then advance b n (hopAct b j v s).1 else (hopAct b j v s).1) := by
  obtain ⟨head, stuck, values, -, -, -⟩ := h
  have square := RJob.values_square values
  rw [advance, head]
  dsimp only
  rw [if_neg (by simp [stuck]), if_neg (by omega), if_neg (by simp [value]), values]

section
variable (h : AtSquare b j js v owner stack pg q o x s)
include h

theorem hopAct_waits (next : nextHop (s.grp j.group) x o j = .wait) : hopAct b j v s = (s, false) := by
  obtain ⟨-, -, -, map, own, mine⟩ := h
  simp only [hopAct, map, own, mine, next]

theorem hopAct_takes {hop : Nat} {k : RHop} (next : nextHop (s.grp j.group) x o j = .add hop) (found : (s.board b).hopFor j hop = some k) :
    hopAct b j v s = takeHop b pg q j k v (fun z => { j with sum := some z }) s := by
  obtain ⟨-, -, -, map, own, mine⟩ := h
  simp only [hopAct, map, own, mine, next, found]

/-- A part after the first is added to the sum of those before it. -/
theorem hopAct_takesPart {hop : Nat} {k : RHop} (next : nextHop (s.grp j.group) x o j = .addPart hop)
    (found : (s.board b).hopFor j hop = some k) (later : j.part ≠ 0) :
    hopAct b j v s = takeHop b pg q j k j.acc (fun z => { j with part := j.part + 1, acc := z }) s := by
  obtain ⟨-, -, -, map, own, mine⟩ := h
  simp only [hopAct, map, own, mine, next, found, if_neg later]

theorem hopAct_delivers (next : nextHop (s.grp j.group) x o j = .deliver) : hopAct b j v s
    = (deliverSum b j stack pg q (if ringParts (s.grp j.group) = 1 then j.sum.getD [] else j.acc) s, true) := by
  obtain ⟨-, -, -, map, own, mine⟩ := h
  simp only [hopAct, map, own, mine, next]

end

theorem advance_waiting (h : AtSquare b j js v owner stack pg q o x s) (value : j.vote = false)
    (waits : nextHop (s.grp j.group) x o j = .wait) (n : Nat) : advance b (n + 1) s = s := by
  rw [advance_acts h value, hopAct_waits h waits]
  rfl

end

/-! ### The next action after a hop has been added -/

section
variable {e : BitVec 192} {x o : Nat} {j : RJob} (z : List W32)

/-- Away from the owner the sum waits for a credit. -/
theorem nextHop_added (parts : ringParts e = 1) (sent : j.sent = false) (hx : x < gMembers e) (ho : o < gMembers e) (ne : x ≠ o) :
    nextHop e x o { j with sum := some z } = .wait := by
  have rel : (x + gMembers e - o) % max 1 (gMembers e) ≠ 0 := by
    rw [Nat.max_eq_right (by omega)]
    rcases Nat.lt_or_gt_of_ne ne with below | above
    · rw [Nat.mod_eq_of_lt (by omega)]
      omega
    · rw [show x + gMembers e - o = (x - o) + gMembers e by omega, Nat.add_mod_right, Nat.mod_eq_of_lt (by omega)]
      omega
  simp [nextHop, parts, sent, rel]

/-- At the owner the sum is complete. -/
theorem nextHop_complete (parts : ringParts e = 1) (sent : j.sent = false) (ho : o < gMembers e) :
    nextHop e o o { j with sum := some z } = .deliver := by
  have rel : gMembers e % max 1 (gMembers e) = 0 := by
    rw [Nat.max_eq_right (by omega), Nat.mod_self]
  simp [nextHop, parts, sent, rel]

/-- At the owner of a split sum it is complete with the last part. -/
theorem nextHop_lastPart (parts : ringParts e ≠ 1) (own : j.sum.isSome = true) (sent : j.sent = true) (last : j.part + 1 = ringParts e) :
    nextHop e o o { j with part := j.part + 1, acc := z } = .deliver := by
  simp [nextHop, parts, Option.isNone_eq_false_iff.2 own, sent, last]

end

/-! ### A hop that is added (R233 to R235) -/

section
variable {b : Nat} {j : RJob} {js : List RJob} {k : RHop} {pg q : Nat} {v : List W32} {f : List W32 → RJob} {s : State}

/-- The sums of a hop's values and others, one rounding for each element. -/
def hopSums (j : RJob) (k : RHop) (v : List W32) : List W32 :=
  (((dequantSquare j.wire (k.pkt.payload.drop 64)).map (·.1)).zip v).map (fun e => fadd e.1 e.2)

theorem addHop_sums (b pg : Nat) (s : State) : (addHop b pg j.wire (k.pkt.payload.drop 64) v s).1 = hopSums j k v := by
  unfold addHop hopSums
  generalize dequantSquare j.wire (k.pkt.payload.drop 64) = d
  rfl

theorem addHop_rjobs (b pg wire : Nat) (data : List Byte) (s : State) : ((addHop b pg wire data v s).2.board b).rjobs = (s.board b).rjobs
    ∧ ((addHop b pg wire data v s).2.board b).hops = (s.board b).hops := by
  unfold addHop
  generalize dequantSquare wire data = d
  dsimp only
  rw [watchCount_board, watchCount_board]
  exact ⟨rfl, rfl⟩

theorem hopAdded_board (b : Nat) (k : RHop) (s : State) : (hopAdded b k s).board b = { s.board b with hops := (s.board b).hops.erase k } := by
  have freed : (s.modBoard b (fun x => { x with hops := x.hops.erase k })).board b
      = { s.board b with hops := (s.board b).hops.erase k } := State.modBoard_board ..
  unfold hopAdded
  dsimp only
  split
  · exact freed
  · exact freed

theorem hopAdded_answered (remote : k.pkt.src ≠ s.addrOf b) : Answered k.pkt 0x82 [] (hopAdded b k s) := by
  unfold hopAdded
  dsimp only
  split
  · rename_i own
    exact absurd own remote
  · exact answered_of_out (answer_answered ..) (upkeep_sendSemSignal ..).out

/-- A hop of the square at work is added, and acknowledged. -/
theorem takeHop_adds (head : (s.board b).rjobs = j :: js) (wire : (hdrOf k.pkt.payload).wire = j.wire) (group : (hdrOf k.pkt.payload).pgroup = pg)
    (place : (hdrOf k.pkt.payload).q = q) (id : ∀ z, (f z).id = j.id) (remote : k.pkt.src ≠ s.addrOf b) :
    ∃ t, takeHop b pg q j k v f s = (t, true) ∧ Hopping b s t ∧ (∃ ks, (t.board b).rjobs = f (hopSums j k v) :: ks)
      ∧ (t.board b).hops = (s.board b).hops.erase k ∧ Answered k.pkt 0x82 [] t := by
  have sums := addHop_sums (j := j) (k := k) (v := v) b pg s
  have added := hopping_addHop b s pg j.wire (k.pkt.payload.drop 64) v
  obtain ⟨queue, hops⟩ := addHop_rjobs (v := v) b pg j.wire (k.pkt.payload.drop 64) s
  have takes : takeHop b pg q j k v f s = (hopAdded b k ((addHop b pg j.wire (k.pkt.payload.drop 64) v s).2.modBoard b
      (fun x => x.setRJob (f (addHop b pg j.wire (k.pkt.payload.drop 64) v s).1))), true) := by
    unfold takeHop
    dsimp only
    rw [if_neg (by simp [wire]), if_neg (by simp [group, place])]
  rw [sums] at takes
  generalize (addHop b pg j.wire (k.pkt.payload.drop 64) v s).2 = u at takes added queue hops
  have set := hopping_setRJob b (f (hopSums j k v)) u
  refine ⟨_, takes, (hopping_hopAdded ..).after (set.after added), ?_, ?_, ?_⟩
  · rw [hopAdded_board, State.modBoard_board]
    exact Board.setRJob_head (queue.trans head) (id _)
  · rw [hopAdded_board, State.modBoard_board, ← hops]
    rfl
  · refine hopAdded_answered ?_
    rw [Hopping.addrOf (set.after added).toReducing]
    exact remote

end

/-! ### A hop that arrives (R223, R235) -/

section
variable {b : Nat} {pkt : Pkt} {s : State}

/-- The hop that a packet carries. -/
def hopOf (pkt : Pkt) : RHop := { pkt := pkt, epoch := (hdrOf pkt.payload).epoch, sigma := (hdrOf pkt.payload).sigma }

/-- The hop waits in a buffer of its Board. -/
def hopArrived (b : Nat) (pkt : Pkt) (s : State) : State := s.modBoard b (fun x => { x with hops := x.hops ++ [hopOf pkt] })

theorem exec_reduceVal (h : Delivered 0x05 b pkt s) : exec (.reduceVal pkt) s = .next (
    let h := hdrOf pkt.payload
    if 1 < h.wire then rejectPkt pkt 0x0606 s
    else if !epochOk s h.group h.gepoch then rejectPkt pkt 0x060B s
    else if (s.board b).hopShut.contains h.epoch then s
    else goOn b (hopArrived b pkt s)) := congrArg Host.Outcome.next (deliver_delivered h _)

theorem reduceVal_wire (h : Delivered 0x05 b pkt s) (wire : 1 < (hdrOf pkt.payload).wire) :
    ∃ t, exec (.reduceVal pkt) s = .next t ∧ Rejected pkt 0x0606 t ∧ t.boards = s.boards := by
  refine ⟨rejectPkt pkt 0x0606 s, ?_, rejectPkt_rejected pkt (by decide) s, rejectPkt_boards ..⟩
  rw [exec_reduceVal h]
  simp only [wire, if_true]

variable (h : Delivered 0x05 b pkt s) (wire : (hdrOf pkt.payload).wire ≤ 1)
include h wire

theorem reduceVal_stale (stale : epochOk s (hdrOf pkt.payload).group (hdrOf pkt.payload).gepoch = false) :
    ∃ t, exec (.reduceVal pkt) s = .next t ∧ Rejected pkt 0x060B t ∧ t.boards = s.boards := by
  refine ⟨rejectPkt pkt 0x060B s, ?_, rejectPkt_rejected pkt (by decide) s, rejectPkt_boards ..⟩
  rw [exec_reduceVal h]
  simp [Nat.not_lt.2 wire, stale]

variable (epoch : epochOk s (hdrOf pkt.payload).group (hdrOf pkt.payload).gepoch = true)
include epoch

/-- A hop of a squashed epoch is discarded. -/
theorem reduceVal_shut (shut : (hdrOf pkt.payload).epoch ∈ (s.board b).hopShut) : exec (.reduceVal pkt) s = .next s := by
  rw [exec_reduceVal h]
  simp [Nat.not_lt.2 wire, epoch, shut]

variable (up : (hdrOf pkt.payload).epoch ∉ (s.board b).hopShut)
include up

theorem reduceVal_arrives : exec (.reduceVal pkt) s = .next (goOn b (hopArrived b pkt s)) := by
  rw [exec_reduceVal h]
  simp [Nat.not_lt.2 wire, epoch, up]

/-- Without a REDUCE the hop waits. -/
theorem reduceVal_waits (idle : (s.board b).rjobs = []) : exec (.reduceVal pkt) s = .next (hopArrived b pkt s) := by
  have none : ((hopArrived b pkt s).board b).rjobs = [] := by
    rw [hopArrived, State.modBoard_board]
    exact idle
  rw [reduceVal_arrives h wire epoch up, goOn_waits (fun j js head => nomatch none.symm.trans head), beginReadout, none]

end

section
variable {b : Nat} {pkt : Pkt} {s : State} {j : RJob} {js : List RJob} {v : List W32} {owner stack pg q o x : Nat}

theorem hopArrived_at (square : AtSquare b j js v owner stack pg q o x s) : AtSquare b j js v owner stack pg q o x (hopArrived b pkt s) := by
  refine atSquare_after square (hopping_modBoard b _ s) ?_ rfl
  exact (congrArg Board.rjobs (State.modBoard_board ..)).trans square.1

/-- The hop that has arrived is the one for the square at work. -/
theorem hopArrived_found (group : (hdrOf pkt.payload).group = j.group) (sigma : (hdrOf pkt.payload).sigma = j.sigma)
    (empty : (s.board b).hops = []) : ((hopArrived b pkt s).board b).hopFor j (hdrOf pkt.payload).hop = some (hopOf pkt) := by
  rw [hopArrived, State.modBoard_board, Board.hopFor, empty]
  exact List.find?_cons_of_pos (by simp [hopOf, group, sigma])

theorem hopArrived_erase (empty : (s.board b).hops = []) : ((hopArrived b pkt s).board b).hops.erase (hopOf pkt) = [] := by
  rw [hopArrived, State.modBoard_board, empty]
  exact List.erase_cons_head (hopOf pkt) []

variable (square : AtSquare b j js v owner stack (hdrOf pkt.payload).pgroup (hdrOf pkt.payload).q o x s) (value : j.vote = false)
  (wire : (hdrOf pkt.payload).wire = j.wire) (remote : pkt.src ≠ s.addrOf b) (empty : (s.board b).hops = [])
include square value wire remote empty

/-- The hop is added by the member's next action. -/
theorem hopAct_adds {f : List W32 → RJob} {w : List W32} (id : ∀ z, (f z).id = j.id)
    (act : hopAct b j v (hopArrived b pkt s) = takeHop b (hdrOf pkt.payload).pgroup (hdrOf pkt.payload).q j (hopOf pkt) w f (hopArrived b pkt s)) :
    ∃ t, (∀ n, advance b (n + 1) (hopArrived b pkt s) = advance b n t) ∧ Hopping b s t
      ∧ (∃ ks, (t.board b).rjobs = f (hopSums j (hopOf pkt) w) :: ks) ∧ (t.board b).hops = [] ∧ Answered pkt 0x82 [] t := by
  have arrived := hopArrived_at (pkt := pkt) square
  obtain ⟨t, takes, hopping, queue, hops, answered⟩ := takeHop_adds (k := hopOf pkt) (v := w) (f := f) arrived.1 wire rfl rfl id remote
  refine ⟨t, fun n => ?_, hopping.after (hopping_modBoard b _ s), queue, hops.trans (hopArrived_erase empty), answered⟩
  rw [advance_acts arrived value, act.trans takes]
  rfl

end

section
variable {b : Nat} {pkt : Pkt} {s : State} {j : RJob} {js : List RJob} {v : List W32} {owner stack o x : Nat}
  (h : Delivered 0x05 b pkt s) (form : (hdrOf pkt.payload).wire ≤ 1)
  (epoch : epochOk s (hdrOf pkt.payload).group (hdrOf pkt.payload).gepoch = true) (up : (hdrOf pkt.payload).epoch ∉ (s.board b).hopShut)
  (square : AtSquare b j js v owner stack (hdrOf pkt.payload).pgroup (hdrOf pkt.payload).q o x s) (value : j.vote = false)
  (group : (hdrOf pkt.payload).group = j.group) (sigma : (hdrOf pkt.payload).sigma = j.sigma) (wire : (hdrOf pkt.payload).wire = j.wire)
  (remote : pkt.src ≠ s.addrOf b) (empty : (s.board b).hops = [])
include h form epoch up square value group sigma wire remote empty

/-- A hop for the square at work is added to the Board's own values, and its sum then waits for a credit. -/
theorem reduceVal_adds (unsent : j.sent = false) (parts : ringParts (s.grp j.group) = 1) (other : x ≠ o)
    (next : nextHop (s.grp j.group) x o j = .add (hdrOf pkt.payload).hop) :
    ∃ t j', exec (.reduceVal pkt) s = .next t ∧ j' ∈ (t.board b).rjobs ∧ j'.id = j.id ∧ j'.sigma = j.sigma
      ∧ j'.sum = some (hopSums j (hopOf pkt) v) ∧ (t.board b).hops = [] ∧ Answered pkt 0x82 [] t := by
  have act : hopAct b j v (hopArrived b pkt s) = takeHop b (hdrOf pkt.payload).pgroup (hdrOf pkt.payload).q j (hopOf pkt) v
      (fun z => { j with sum := some z }) (hopArrived b pkt s) :=
    hopAct_takes (hopArrived_at square) next (hopArrived_found group sigma empty)
  obtain ⟨t, goes, hopping, ⟨ks, queue⟩, hops, answered⟩ := hopAct_adds (f := fun z => { j with sum := some z }) square value wire remote empty
    (fun _ => rfl) act
  have after := atSquare_after square hopping queue rfl
  have waits : nextHop (t.grp j.group) x o { j with sum := some (hopSums j (hopOf pkt) v) } = .wait := by
    rw [Hopping.grp hopping.toReducing]
    exact nextHop_added _ parts unsent (posOf_lt square.2.2.2.2.2) (posOf_lt square.2.2.2.2.1) other
  obtain ⟨zs, board⟩ := beginReadout_board b t
  have final : goOn b (hopArrived b pkt s) = beginReadout b t := by
    obtain ⟨n, span⟩ : ∃ n, advanceSpan = n + 2 := ⟨32766, rfl⟩
    rw [goOn, span, goes, advance_waiting after value waits]
  refine ⟨_, { j with sum := some (hopSums j (hopOf pkt) v) }, reduceVal_arrives h form epoch up, ?_, rfl, rfl, rfl, ?_, ?_⟩
  · rw [final, board]
    exact queue ▸ List.mem_cons_self ..
  · rw [final, board]
    exact hops
  · rw [final]
    refine answered_of_out answered fun o ho => ?_
    rw [(beginReadout_frame b t).1]
    exact ho

end

/-! ### The sum at its owner (R233, R234) -/

/-- The owner sends the sum to its stack as an update command in value mode, whatever the queue does next. -/
theorem advance_delivers {b n : Nat} {j : RJob} {js : List RJob} {v z : List W32} {owner stack pg q o : Nat} {s : State}
    (square : AtSquare b j js v owner stack pg q o o s) (value : j.vote = false) (next : nextHop (s.grp j.group) o o j = .deliver)
    (sum : (if ringParts (s.grp j.group) = 1 then j.sum.getD [] else j.acc) = z) :
    ∃ k, Out.packet none k ∈ (beginReadout b (advance b (n + 1) s)).out ∧ ToReckoner k j.work.tag pg q stack false ∧ k.dest = s.addrOf b
      ∧ (updOf k).2.payload = z.flatMap (fun w => leBytes 4 w.toNat)
      ∧ ∀ o ∈ s.out, o ∈ (beginReadout b (advance b (n + 1) s)).out := by
  obtain ⟨hs, hp, hq⟩ := mapAt_square square.2.2.2.1
  obtain ⟨k, sent, opcode, dest, payload⟩ := sendUpdate_sends b (s.addrOf b) stack j.work.tag pg q false false
    (z.flatMap (fun w => leBytes 4 w.toNat)) s
  obtain ⟨reckoner, -, data⟩ := toReckoner false false hs hp hq opcode payload
  have goes : advance b (n + 1) s = advance b n (deliverSum b j stack pg q z s) := by
    rw [advance_acts square value, hopAct_delivers square next, sum]
    rfl
  have out : ∀ o ∈ (deliverSum b j stack pg q z s).out, o ∈ (beginReadout b (advance b (n + 1) s)).out := fun o ho => by
    rw [goes, (beginReadout_frame ..).1]
    exact (reducing_advance b n _).out o ho
  refine ⟨k, out _ ?_, reckoner, dest, data, fun o ho => out o ((hopping_deliverSum b j s stack pg q z).out o ho)⟩
  exact (hopping_nextSquare ..).out _ sent

section
variable {b : Nat} {pkt : Pkt} {s : State} {j : RJob} {js : List RJob} {v : List W32} {owner stack o : Nat}
  (h : Delivered 0x05 b pkt s) (form : (hdrOf pkt.payload).wire ≤ 1)
  (epoch : epochOk s (hdrOf pkt.payload).group (hdrOf pkt.payload).gepoch = true) (up : (hdrOf pkt.payload).epoch ∉ (s.board b).hopShut)
  (square : AtSquare b j js v owner stack (hdrOf pkt.payload).pgroup (hdrOf pkt.payload).q o o s) (value : j.vote = false)
include h form epoch up square value

/-- A hop that the owner's next action adds, and that completes the sum. -/
theorem reduceVal_completes {f : List W32 → RJob} {w : List W32}
    (adds : ∃ t, (∀ n, advance b (n + 1) (hopArrived b pkt s) = advance b n t) ∧ Hopping b s t
      ∧ (∃ ks, (t.board b).rjobs = f (hopSums j (hopOf pkt) w) :: ks) ∧ (t.board b).hops = [] ∧ Answered pkt 0x82 [] t)
    (same : ∀ z, f z = { j with sum := (f z).sum, sent := (f z).sent, part := (f z).part, acc := (f z).acc })
    (next : ∀ z, nextHop (s.grp j.group) o o (f z) = .deliver)
    (sum : ∀ z, (if ringParts (s.grp j.group) = 1 then (f z).sum.getD [] else (f z).acc) = z) :
    ∃ t k, exec (.reduceVal pkt) s = .next t ∧ Answered pkt 0x82 [] t ∧ Out.packet none k ∈ t.out
      ∧ ToReckoner k j.work.tag (hdrOf pkt.payload).pgroup (hdrOf pkt.payload).q stack false ∧ k.dest = s.addrOf b
      ∧ (updOf k).2.payload = (((dequantSquare j.wire (pkt.payload.drop 64)).map (·.1)).zip w).flatMap
          (fun x => leBytes 4 (fadd x.1 x.2).toNat) := by
  obtain ⟨t, goes, hopping, ⟨ks, queue⟩, -, answered⟩ := adds
  generalize sums : hopSums j (hopOf pkt) w = z at queue
  have after := atSquare_after square hopping queue (same z)
  have group : (f z).group = j.group := by rw [same z]
  have tag : (f z).work.tag = j.work.tag := by rw [same z]
  obtain ⟨n, span⟩ : ∃ n, advanceSpan = n + 2 := ⟨32766, rfl⟩
  obtain ⟨k, sent, reckoner, dest, data, out⟩ := advance_delivers (n := n) (z := z) after (by rw [same z]; exact value)
    (by rw [Hopping.grp hopping.toReducing, group]; exact next z) (by rw [Hopping.grp hopping.toReducing, group]; exact sum z)
  have final : goOn b (hopArrived b pkt s) = beginReadout b (advance b (n + 1) t) := by
    rw [goOn, span, goes]
  refine ⟨_, k, reduceVal_arrives h form epoch up, answered_of_out answered (final ▸ out), final ▸ sent, tag ▸ reckoner,
    dest.trans (Hopping.addrOf hopping.toReducing b), ?_⟩
  rw [data, ← sums, hopSums, List.flatMap_map]
  rfl

variable (group : (hdrOf pkt.payload).group = j.group) (sigma : (hdrOf pkt.payload).sigma = j.sigma) (wire : (hdrOf pkt.payload).wire = j.wire)
  (remote : pkt.src ≠ s.addrOf b) (empty : (s.board b).hops = [])
include group sigma wire remote empty

/-- At the owner the last hop, or the last part, completes the sum, which goes to its stack. -/
theorem reduceVal_delivers
    (last : (ringParts (s.grp j.group) = 1 ∧ j.sum = none ∧ j.sent = false ∧ nextHop (s.grp j.group) o o j = .add (hdrOf pkt.payload).hop)
      ∨ (ringParts (s.grp j.group) ≠ 1 ∧ j.sum.isSome = true ∧ j.sent = true ∧ j.part + 1 = ringParts (s.grp j.group)
        ∧ nextHop (s.grp j.group) o o j = .addPart (hdrOf pkt.payload).hop)) :
    ∃ t k, exec (.reduceVal pkt) s = .next t ∧ Answered pkt 0x82 [] t ∧ Out.packet none k ∈ t.out
      ∧ ToReckoner k j.work.tag (hdrOf pkt.payload).pgroup (hdrOf pkt.payload).q stack false ∧ k.dest = s.addrOf b
      ∧ (updOf k).2.payload = (((dequantSquare j.wire (pkt.payload.drop 64)).map (·.1)).zip
          (if ringParts (s.grp j.group) = 1 then v else j.acc)).flatMap (fun x => leBytes 4 (fadd x.1 x.2).toNat) := by
  rcases last with ⟨parts, -, unsent, next⟩ | ⟨parts, own, sent, final, next⟩
  · rw [if_pos parts]
    refine reduceVal_completes h form epoch up square value (f := fun z => { j with sum := some z })
      (hopAct_adds (f := fun z => { j with sum := some z }) square value wire remote empty (fun _ => rfl)
        (hopAct_takes (hopArrived_at square) next (hopArrived_found group sigma empty)))
      (fun _ => rfl) (fun z => nextHop_complete z parts unsent (posOf_lt square.2.2.2.2.1)) (fun z => ?_)
    rw [if_pos parts]
    rfl
  · rw [if_neg parts]
    refine reduceVal_completes h form epoch up square value (f := fun z => { j with part := j.part + 1, acc := z })
      (hopAct_adds (f := fun z => { j with part := j.part + 1, acc := z }) square value wire remote empty (fun _ => rfl)
        (hopAct_takesPart (hopArrived_at square) next (hopArrived_found group sigma empty) (by omega)))
      (fun _ => rfl) (fun z => nextHop_lastPart z parts own sent final) (fun z => ?_)
    rw [if_neg parts]

end

end Sys2Proof.Machine
end

