-- ==== Sys2Proof/Proofs/HopSends.lean ====
section
/-!
PROOFS. Proofs/HopSends.lean: with a credit a sum, or a square of trits, goes out to the next member, and without one it waits (R235, R237).
-/
-- One proof after another: in parallel, behind the tests' long evaluations, they ask for too many threads' stacks.
set_option Elab.async false

namespace Sys2Proof.Machine

/-! ### Credits -/

section
variable {b m : Nat} {s : State}

theorem useCredit_none (none : ∀ c ∈ (s.board b).credits, c.1 = m → c.2.2 = 0) : useCredit b m s = .none := by
  have absent : (s.board b).credits.find? (fun c => c.1 == m && decide (0 < c.2.2)) = .none := by
    rw [List.find?_eq_none]
    intro c hc found
    simp only [Bool.and_eq_true, beq_iff_eq, decide_eq_true_eq] at found
    have := none c hc found.1
    omega
  rw [useCredit, absent]

/-- The Board with one credit fewer of its one holder. -/
def creditUsed (b m ep n : Nat) (s : State) : State := s.modBoard b (fun x =>
  { x with credits := x.credits.map (fun d => if d == (m, ep, n + 1) then (m, ep, n) else d) })

theorem useCredit_some {ep n : Nat} (credits : (s.board b).credits = [(m, ep, n + 1)]) :
    useCredit b m s = some (ep, creditUsed b m ep n s) := by
  rw [useCredit, credits]
  simp only [List.find?_cons, beq_self_eq_true, Nat.zero_lt_succ, decide_true, Bool.and_self]
  rfl

theorem creditUsed_credits {ep n : Nat} (credits : (s.board b).credits = [(m, ep, n + 1)]) :
    ((creditUsed b m ep n s).board b).credits = [(m, ep, n)] := by
  rw [creditUsed, State.modBoard_board]
  simp [credits]

end

/-! ### Sends (R235, R237) -/

section
variable {b : BoardNo} {j : RJob} {js : List RJob} {v : List W32} {owner stack pg q o x : Nat} {s : State}
  (ok : s.boardOk b.val = true) (powered : s.powered = true) (square : AtSquare b.val j js v owner stack pg q o x s)
include ok powered square

theorem exec_reduceHopSend : exec (.reduceHopSend b) s = .next (if j.vote then goOn b.val (sendTrits b.val j v s)
    else if j.sum.isSome && !j.sent then goOn b.val (sendHop b.val j s) else s) := by
  obtain ⟨head, stuck, values, -, -, -⟩ := square
  show execReduceHopSend b s = _
  unfold execReduceHopSend
  simp only [ok, powered, head, stuck, values, Bool.not_true, Bool.or_self, Bool.false_eq_true, if_false]
  split
  · rfl
  · split <;> rfl

theorem reduceHopSend_nothing (value : j.vote = false) (h : j.sum = none ∨ j.sent = true) : exec (.reduceHopSend b) s = .next s := by
  rw [exec_reduceHopSend ok powered square]
  rcases h with fresh | sent
  · simp [value, fresh]
  · simp [value, sent]

section
variable (vote : j.vote = true)
include vote

theorem reduceHopSend_trits : exec (.reduceHopSend b) s = .next (goOn b.val (sendTrits b.val j v s)) := by
  rw [exec_reduceHopSend ok powered square, if_pos vote]

/-- A vote waits for a credit of its combine point. -/
theorem tritSend_waits (none : ∀ c ∈ (s.board b.val).credits, c.1 = voteKey j.group → c.2.2 = 0) :
    exec (.reduceHopSend b) s = .next (beginReadout b.val s) := by
  rw [reduceHopSend_trits ok powered square vote, sendTrits, useCredit_none none, goOn_waits fun j' js' head => ?_]
  obtain ⟨rfl, -⟩ := List.cons_eq_cons.1 (square.1.symm.trans head)
  exact .inr ⟨RJob.values_square square.2.2.1, .inl vote⟩

end

section
variable (value : j.vote = false) (formed : j.sum.isSome = true) (unsent : j.sent = false)
include value formed unsent

theorem reduceHopSend_hop : exec (.reduceHopSend b) s = .next (goOn b.val (sendHop b.val j s)) := by
  rw [exec_reduceHopSend ok powered square]
  simp [value, formed, unsent]

/-- A sum waits for a credit of the next member. -/
theorem hopSend_waits (next : nextHop (s.grp j.group) x o j = .wait) (none : ∀ c ∈ (s.board b.val).credits,
    c.1 = (s.membersOf (s.grp j.group)).getD (hopTarget (s.grp j.group) x o).1 0xFFFF → c.2.2 = 0) :
    exec (.reduceHopSend b) s = .next (beginReadout b.val s) := by
  have stays : sendHop b.val j s = s := by
    obtain ⟨-, -, -, map, own, mine⟩ := square
    simp only [sendHop, map, own, mine, next, useCredit_none none]
    simp
  obtain ⟨n, span⟩ : ∃ n, advanceSpan = n + 1 := ⟨32767, rfl⟩
  rw [reduceHopSend_hop ok powered square value formed unsent, stays, goOn, span, advance_waiting square value next]

end

end

/-- A packet goes out, and is counted. -/
def countedSend (r : Reg) (b : Nat) (k : Pkt) (s : State) : State := (s.bump r b).send k

/-- What goes out after a credit is used is counted, and the queue goes on. -/
theorem goOn_counted {r : Reg} (steady : r ∈ Reg.steady) {b m ep n : Nat} {k : Pkt} {s u v : State}
    (credits : (s.board b).credits = [(m, ep, n + 1)]) (before : Hopping b (creditUsed b m ep n s) u)
    (after : Hopping b (countedSend r b k u) v) :
    Out.packet none k ∈ (goOn b v).out ∧ ((goOn b v).board b).credits = [(m, ep, n)]
      ∧ (goOn b v).rd r b = satAdd r.bits (s.rd r b) 1 := by
  obtain ⟨-, -, rd, out, kept, -, -⟩ := goOn_leaves b v
  refine ⟨out _ (after.out _ (List.mem_cons_self ..)), ?_, ?_⟩
  · rw [kept, after.credits, ← creditUsed_credits credits]
    exact before.credits
  · rw [rd r steady, after.rd r steady]
    exact (State.wr_rd ..).trans (congrArg (satAdd r.bits · 1) (before.rd r steady b))

section
variable {b : BoardNo} {j : RJob} {js : List RJob} {v : List W32} {owner stack pg q o x ep n : Nat} {s : State}
  (ok : s.boardOk b.val = true) (powered : s.powered = true) (square : AtSquare b.val j js v owner stack pg q o x s)
include ok powered square

/-- With a credit the sum goes to the next member, quantised for the wire. -/
theorem hopSend_sends (value : j.vote = false) (formed : j.sum.isSome = true) (unsent : j.sent = false)
    (next : nextHop (s.grp j.group) x o j = .wait)
    (credits : (s.board b.val).credits = [((s.membersOf (s.grp j.group)).getD (hopTarget (s.grp j.group) x o).1 0xFFFF, ep, n + 1)]) :
    let e := s.grp j.group
    let dest := (s.membersOf e).getD (hopTarget e x o).1 0xFFFF
    ∃ t k, exec (.reduceHopSend b) s = .next t ∧ Out.packet none k ∈ t.out ∧ k.opcode = 0x05 ∧ k.dest = dest ∧ k.src = s.addrOf b.val
      ∧ k.payload.drop 64 = (quantSquare s j.wire j.work.tag j.group (hopTarget e x o).2 j.sigma (j.sum.getD [])).1
      ∧ (t.board b.val).credits = [(dest, ep, n)] ∧ t.rd .reduceHops b.val = satAdd 64 (s.rd .reduceHops b.val) 1 := by
  intro e dest
  generalize pushed : quantSquare s j.wire j.work.tag j.group (hopTarget e x o).2 j.sigma (j.sum.getD []) = d
  obtain ⟨u, k, before, sends, opcode, aim, src, data⟩ : ∃ u k, Hopping b.val (creditUsed b.val dest ep n s) u
      ∧ sendHop b.val j s = (countEvent b.val 0x15 (some j.work.domain) none 1 (countedSend .reduceHops b.val k u)).modBoard b.val
        (fun y => y.setRJob { j with sent := true })
      ∧ k.opcode = 0x05 ∧ k.dest = dest ∧ k.src = s.addrOf b.val ∧ k.payload.drop 64 = d.1 := by
    have watched := hopping_watchCount b.val (hopWatch s b.val pg 4) d.2 (creditUsed b.val dest ep n s)
    obtain ⟨-, -, -, map, own, mine⟩ := square
    generalize counted : watchCount (hopWatch s b.val pg 4) d.2 (creditUsed b.val dest ep n s) = w at watched
    refine ⟨(newTxn (.reduce b.val ep) w).2, hopPkt w b.val j dest (hopTarget e x o).2 pg q stack ep (newTxn (.reduce b.val ep) w).1 d.1,
      (upkeep_newTxn ..).hopping.after watched, ?_, rfl, rfl, Hopping.addrOf watched.toReducing b.val, drop_hdrBytes ..⟩
    simp only [sendHop, map, own, mine, next, useCredit_some credits]
    rw [← counted, ← pushed]
    rfl
  have after : Hopping b.val (countedSend .reduceHops b.val k u) (sendHop b.val j s) := by
    rw [sends]
    exact (hopping_setRJob ..).after (upkeep_countEvent ..).hopping
  obtain ⟨out, left, counted⟩ := goOn_counted (by decide) credits before after
  exact ⟨_, k, reduceHopSend_hop ok powered square value formed unsent, out, opcode, aim, src, data, left, counted⟩

/-- With a credit the trits of the square go to the combine point. -/
theorem tritSend_sends (vote : j.vote = true) (credits : (s.board b.val).credits = [(voteKey j.group, ep, n + 1)]) :
    ∃ t k, exec (.reduceHopSend b) s = .next t ∧ Out.packet none k ∈ t.out ∧ k.opcode = 0x06 ∧ k.dest = gRoot (s.grp j.group)
      ∧ k.src = s.addrOf b.val ∧ k.payload.drop 64 = packTrits (v.map tritOf) ∧ (t.board b.val).credits = [(voteKey j.group, ep, n)]
      ∧ t.rd .voteSquares b.val = satAdd 64 (s.rd .voteSquares b.val) 1 := by
  obtain ⟨u, k, before, sends, opcode, aim, src, data⟩ : ∃ u k, Hopping b.val (creditUsed b.val (voteKey j.group) ep n s) u
      ∧ sendTrits b.val j v s = nextSquare b.val j (countEvent b.val 0x15 (some j.work.domain) none 1 (countedSend .voteSquares b.val k u))
      ∧ k.opcode = 0x06 ∧ k.dest = gRoot (s.grp j.group) ∧ k.src = s.addrOf b.val ∧ k.payload.drop 64 = packTrits (v.map tritOf) := by
    simp only [sendTrits, useCredit_some credits]
    exact ⟨_, _, (upkeep_newTxn ..).hopping, rfl, rfl, rfl, rfl, drop_hdrBytes ..⟩
  have after : Hopping b.val (countedSend .voteSquares b.val k u) (sendTrits b.val j v s) := by
    rw [sends]
    exact (hopping_nextSquare ..).after (upkeep_countEvent ..).hopping
  obtain ⟨out, left, counted⟩ := goOn_counted (by decide) credits before after
  exact ⟨_, k, reduceHopSend_trits ok powered square vote, out, opcode, aim, src, data, left, counted⟩

end

end Sys2Proof.Machine
end

