-- ==== Sys2Proof/Proofs/Ports.lean ====
section
/-!
PROOFS. Proofs/Ports.lean: a packet taken up from its port, and one that goes out on a port at which nothing waits (R204 to R208).
-/
-- One proof after another: in parallel, behind the tests' long evaluations, they ask for too many threads' stacks.
set_option Elab.async false

namespace Sys2Proof.Machine

/-! ### A packet that is taken up -/

/-- t is s after credits and acknowledgements were returned, and packets sent within the module. -/
structure PortsKept (s t : State) : Prop where
  frame : t = { s with ports := t.ports, out := t.out }
  out : ∀ o ∈ s.out, o ∈ t.out
  port : ∀ q, t.port q = { s.port q with rx := (t.port q).rx, owed := (t.port q).owed, owesAck := (t.port q).owesAck }

section
variable {r s t : State}

theorem PortsKept.refl (s : State) : PortsKept s s := ⟨rfl, fun _ h => h, fun _ => rfl⟩

theorem PortsKept.trans (h : PortsKept r s) (k : PortsKept s t) : PortsKept r t where
  frame := by
    rw [k.frame, h.frame]
  out o ho := k.out o (h.out o ho)
  port q := by
    rw [k.port, h.port]

/-- The fabric state is another. -/
theorem PortsKept.withFab (h : PortsKept s t) (f : Fabric) : PortsKept { s with fab := f } { t with fab := f } where
  frame := congrArg (fun z : State => { z with fab := f }) h.frame
  out := h.out
  port := h.port

theorem portsKept_forEach {α : Type} (l : List α) (f : α → State → State) (h : ∀ a s, PortsKept s (f a s)) (s : State) :
    PortsKept s (forEach l f s) := by
  unfold forEach
  induction l generalizing s with
  | nil => exact .refl s
  | cons a l ih => exact (h a s).trans (ih (f a s))

end

theorem portsKept_emit (o : Out) (s : State) : PortsKept s (s.emit o) := ⟨rfl, fun _ h => List.mem_cons_of_mem _ h, fun _ => rfl⟩

theorem portsKept_modPort (p : Nat) (f : Port → Port) (s : State)
    (h : ∀ x : Port, f x = { x with rx := (f x).rx, owed := (f x).owed, owesAck := (f x).owesAck } := by exact fun _ => rfl) :
    PortsKept s (s.modPort p f) := by
  refine ⟨rfl, fun _ h => h, fun q => ?_⟩
  by_cases e : q = p
  · rw [e, show (s.modPort p f).port p = f (s.port p) from tget_tset_self ..]
    exact h _
  · rw [show (s.modPort p f).port q = s.port q from tget_tset_of_ne _ _ _ _ _ e]

theorem portsKept_flushLink (p n : Nat) (s : State) : PortsKept s (flushLink p n s) := by
  induction n generalizing s with
  | zero => exact .refl s
  | succ n ih =>
    unfold flushLink
    dsimp only
    split
    · exact .refl s
    · exact ((portsKept_modPort p (fun x => { x.takeOwed.2 with owesAck := false }) s).trans (portsKept_emit ..)).trans (ih _)

/-- What arrived is taken up: its credits are owed, or returned at once. -/
theorem portsKept_takenUp (a : Option Nat) (k : Pkt) (s : State) : PortsKept s (takenUp a k s) := by
  unfold takenUp leaveRx
  cases a with
  | none => exact .refl s
  | some p =>
    dsimp only
    split
    · exact .refl s
    · split
      · exact (portsKept_modPort p _ s).trans (portsKept_flushLink ..)
      · exact portsKept_modPort p _ s

/-! ### What goes out on a port -/

/-- t is s after flits went out on its ports: copies that were held may have gone. -/
structure Drains (s t : State) : Prop where
  frame : t = { s with ports := t.ports, fab := { s.fab with holds := t.fab.holds }, cnt := t.cnt, out := t.out }
  out : ∀ o ∈ s.out, o ∈ t.out

section
variable {r s t : State}

theorem Drains.refl (s : State) : Drains s s := ⟨rfl, fun _ h => h⟩

theorem Drains.trans (h : Drains r s) (k : Drains s t) : Drains r t where
  frame := by
    rw [k.frame, h.frame]
  out o ho := k.out o (h.out o ho)

/-- Two steps, the later one named first. -/
theorem Drains.after (k : Drains s t) (h : Drains r s) : Drains r t := h.trans k

theorem drains_forEach {α : Type} (l : List α) (f : α → State → State) (h : ∀ a s, Drains s (f a s)) (s : State) :
    Drains s (forEach l f s) := by
  unfold forEach
  induction l generalizing s with
  | nil => exact .refl s
  | cons a l ih => exact (h a s).trans (ih (f a s))

theorem PortsKept.drains (h : PortsKept s t) : Drains s t where
  frame := by
    rw [h.frame]
  out := h.out

end

theorem drains_countBlock (id n : Nat) (s : State) : Drains s (countBlock id n s) := by
  rw [countBlock_frame]
  exact ⟨rfl, fun _ h => h⟩

theorem drains_setPort (p : Nat) (x : Port) (s : State) : Drains s (s.setPort p x) := ⟨rfl, fun _ h => h⟩

theorem drains_startPacket (p : Nat) (c : Cand) (s : State) : Drains s (startPacket p c s) := by
  have emitted : ∀ u o, Drains u (u.emit o) := fun u o => (portsKept_emit o u).drains
  unfold startPacket
  cases c.held with
  | none => exact (emitted ..).after (drains_setPort ..)
  | some h =>
    have erased : Drains s { s with fab := { s.fab with holds := s.fab.holds.erase h } } := ⟨rfl, fun _ h => h⟩
    exact (emitted ..).after ((drains_forEach _ _ (fun _ _ => drains_countBlock ..) _).after erased)

/-- A packet's transmission begins with its first flit. -/
theorem startPacket_sent (p : Nat) (c : Cand) (s : State) : Out.packet (some p) c.q.pkt ∈ (startPacket p c s).out := List.mem_cons_self ..

theorem drains_leaveRx (a : Option Nat) (pool n : Nat) (s : State) : Drains s (leaveRx a pool n s) := by
  unfold leaveRx
  cases a with
  | none => exact .refl s
  | some p =>
    dsimp only
    split
    · exact .refl s
    · split
      · exact (portsKept_flushLink ..).drains.after (drains_setPort ..)
      · exact drains_setPort ..

/-- A flit goes out; the first one of a packet after the packet's start. -/
theorem drains_sendFlit (p : Nat) (c : Cand) (s : State) : Drains (if c.next = 0 then startPacket p c s else s) (sendFlit p c s) := by
  unfold sendFlit
  dsimp only
  generalize (if c.next = 0 then startPacket p c s else s) = u
  have flit : ∀ (x : Port) (bs : List Byte), Drains u (countBlock (4 * p) 1 ((u.setPort p x).emit (.flit p bs))) := fun x bs =>
    (drains_countBlock ..).after ((portsKept_emit ..).drains.after (drains_setPort p x u))
  split
  · exact (drains_leaveRx ..).after (flit _ _)
  · exact flit _ _

theorem drains_drainPort (p n : Nat) (s : State) : Drains s (drainPort p n s) := by
  induction n generalizing s with
  | zero => exact .refl s
  | succ n ih =>
    unfold drainPort
    split
    · exact (portsKept_flushLink ..).drains
    · rename_i c next
      have start : Drains s (if c.next = 0 then startPacket p c s else s) := by
        split
        · exact drains_startPacket ..
        · exact .refl s
      exact (ih _).after ((drains_sendFlit ..).after start)

theorem drains_transmit (p : Nat) (k : Pkt) (s : State) : Drains s (transmit p k s) := by
  unfold transmit transmitFrom
  split
  · exact (drains_drainPort ..).after (drains_setPort ..)
  · exact drains_leaveRx ..

/-! ### A port that can take a vote packet at once -/

section
variable {q : Nat} {k : Queued} {s : State}

/-- A packet that is alone at its port is the next that goes out. -/
theorem nextOut_alone (alone : (s.port q).queue = [k]) (idle : (s.port q).sending = []) (free : ∀ h ∈ s.fab.holds, h.port ≠ q)
    (bulk : classOf k.pkt.opcode = 0) (room : roomFor s q k.pkt = true) : nextOut s q = some { q := k } := by
  have holds : s.fab.holds.filter (fun h => h.port == q) = [] := by
    rw [List.filter_eq_nil_iff]
    exact fun h hh => by simpa using free h hh
  have first : heldFirst s q k.pkt = false := by
    rw [heldFirst, List.any_eq_false]
    exact fun h hh => by simp [free h hh]
  have cands : candidates s q = [{ q := k }] := by
    simp [candidates, holds, idle, alone, room, first]
  have pick : pickClass (s.port q) [({ q := k } : Cand)] 0 = some { q := k } := by
    simp only [pickClass, bulk, List.filter_cons, beq_self_eq_true, if_true, List.filter_nil]
    split
    · rename_i found
      exact (List.mem_singleton.1 (List.mem_of_find?_eq_some found)) ▸ rfl
    · rfl
  have none : ∀ c, c ≠ 0 → pickClass (s.port q) [({ q := k } : Cand)] c = .none := fun c hc => by
    simp [pickClass, bulk, Ne.symm hc]
  simp only [nextOut, cands, none 2 (by decide), none 1 (by decide), pick]

theorem drainPort_next {c : Cand} (next : nextOut s q = some c) (n : Nat) : drainPort q (n + 1) s = drainPort q n (sendFlit q c s) := by
  rw [drainPort, next]

/-- A vote packet that finds room goes out at once. -/
theorem transmit_sent {p : Pkt} (vote : p.opcode = 0x06) (fresh : p.dateline = false) (room : VoteRoom q s) :
    Out.packet (some q) { p with hop := p.hop + 1 } ∈ (transmit q p s).out := by
  obtain ⟨⟨queue, sending, holds, -⟩, free⟩ := room
  have may := free { p with hop := p.hop + 1 } vote fresh
  have up : (s.port q).inService = true := by
    simp only [roomFor, flitRoom, Bool.and_eq_true] at may
    simp [Port.inService, may.1.1.1.1]
  generalize queued : s.modPort q (fun x => { x with queue := x.queue ++ [{ pkt := { p with hop := p.hop + 1 }, bound := true }] }) = u
  have port : u.port q = { s.port q with queue := [{ pkt := { p with hop := p.hop + 1 }, bound := true }] } := by
    rw [← queued, show (s.modPort q _).port q = _ from tget_tset_self .., queue]
    rfl
  have next : nextOut u q = some { q := { pkt := { p with hop := p.hop + 1 }, bound := true } } := by
    refine nextOut_alone (by rw [port]) (by rw [port]; exact sending) (by rw [← queued]; exact holds) (by simp [vote, classOf]) ?_
    rw [← may, roomFor, roomFor, flitRoom, flitRoom, port, ← queued]
    rfl
  have goes : transmit q p s = drainPort q 1024 u := by
    unfold transmit transmitFrom
    rw [if_pos up, queued]
  rw [goes, drainPort_next next 1023]
  exact (drains_drainPort ..).out _ ((drains_sendFlit ..).out _ (startPacket_sent ..))

end

end Sys2Proof.Machine
end

