-- ==== Sys2Proof/Proofs/Votes.lean ====
section
/-!
PROOFS. Proofs/Votes.lean: the combine point of a vote (R236, R237): what it refuses, a contribution that is combined or waits, and a square that
is complete and leaves. And the statement on reductions.
-/
-- One proof after another: in parallel, behind the tests' long evaluations, they ask for too many threads' stacks.
set_option Elab.async false

namespace Sys2Proof.Machine

/-! ### What a vote packet meets -/

/-- The contributor of a vote packet: its Board, or the port that it came by. -/
def voter (a : Option Nat) (pkt : Pkt) : Nat :=
  match a with
  | none => pkt.src % 16
  | some p => 32 + p

/-- The port that a contributor is. -/
theorem voter_port (a : Option Nat) (pkt : Pkt) : (if 32 ≤ voter a pkt then some (voter a pkt - 32) else none) = a := by
  cases a with
  | none => exact if_neg (by simp only [voter]; omega)
  | some p => simp [voter]

section
variable {p : Option PortNo} {pkt : Pkt} {s : State} (vote : pkt.opcode = 0x06) (powered : s.powered = true)
  (local_ : p = none → pkt.src / 16 = s.device)
include vote powered local_

theorem exec_reduceVote_stalls (far : (p.map (·.val)).isSome = true) (stalled : dieStalled s (p.map (·.val)) pkt = true) :
    exec (.reduceVote p pkt) s = .next (stall (p.map (·.val)) pkt s) := by
  show execReduceVote p pkt s = _
  unfold execReduceVote
  cases p with
  | none => cases far
  | some n => simp_all

theorem exec_reduceVote_in (goes : p.map (·.val) = none ∨ dieStalled s (p.map (·.val)) pkt = false) :
    exec (.reduceVote p pkt) s = .next (voteIn (p.map (·.val)) pkt s) := by
  show execReduceVote p pkt s = _
  unfold execReduceVote
  cases p with
  | none => simp [vote, powered, local_ rfl]
  | some n =>
    have live : dieStalled s (some n.val) pkt = false := by simpa using goes
    simp [vote, powered, live]

end

section
variable {a : Option Nat} {pkt : Pkt} {s : State}

theorem takenUp_fab : (takenUp a pkt s).fab = s.fab := by rw [(portsKept_takenUp a pkt s).frame]

theorem rejectPkt_fab (p : Pkt) (code : Nat) (s : State) : (rejectPkt p code s).fab = s.fab := by
  rw [show Reports s (rejectPkt p code s) from reports_rejectPkt ..]

/-- A refused vote packet is taken up, and rejected. -/
theorem voteRefused {code : Nat} (h : code < 65536) :
    Rejected pkt code (rejectPkt pkt code (takenUp a pkt s)) ∧ (rejectPkt pkt code (takenUp a pkt s)).fab.votes = s.fab.votes :=
  ⟨rejectPkt_rejected pkt h _, by rw [rejectPkt_fab, takenUp_fab]⟩

theorem voteIn_unnumbered (h : s.device = 0xFFFF) : voteIn a pkt s = dropPkt (takenUp a pkt s) := if_pos h

variable (numbered : s.device ≠ 0xFFFF)
include numbered

theorem voteIn_form (bad : pktOk pkt = false) : voteIn a pkt s = rejectPkt pkt 0x0606 (takenUp a pkt s) := by
  simp [voteIn, numbered, bad]

variable (ok : pktOk pkt = true)
include ok

theorem voteIn_far (far : a.isSome = true ∧ pkt.hop = 31) : voteIn a pkt s = rejectPkt pkt 0x0609 (takenUp a pkt s) := by
  simp [voteIn, numbered, ok, far]

variable (near : ¬ (a.isSome = true ∧ pkt.hop = 31))
include near

theorem voteIn_stale (stale : epochOk s (hdrOf pkt.payload).group (hdrOf pkt.payload).gepoch = false) :
    voteIn a pkt s = rejectPkt pkt 0x060B (takenUp a pkt s) := by
  simp only [voteIn, if_neg numbered, ok, stale]
  simp [near]

variable (epoch : epochOk s (hdrOf pkt.payload).group (hdrOf pkt.payload).gepoch = true)
include epoch

/-- The checks that a numbered module's near packet of a current epoch still meets. -/
theorem voteIn_current : voteIn a pkt s
    = if gKind (s.grp (hdrOf pkt.payload).group) != 4 || !(contributors (s.grp (hdrOf pkt.payload).group)).contains (voter a pkt) then
        rejectPkt pkt 0x060C (takenUp a pkt s)
      else if (hdrOf pkt.payload).wire != (if a.isNone then 2 else countWire (s.grp (hdrOf pkt.payload).group)) then
        rejectPkt pkt 0x0606 (takenUp a pkt s)
      else takeVote (voter a pkt) pkt s := by
  unfold voteIn
  dsimp only
  rw [if_neg numbered, if_neg (by simp [ok]), if_neg (by simpa using near), if_neg (by simp [epoch])]
  rfl

theorem voteIn_stranger (stranger : gKind (s.grp (hdrOf pkt.payload).group) ≠ 4
      ∨ voter a pkt ∉ contributors (s.grp (hdrOf pkt.payload).group)) :
    voteIn a pkt s = rejectPkt pkt 0x060C (takenUp a pkt s) := by
  rw [voteIn_current numbered ok near epoch, if_pos (by simpa using stranger)]

variable (kind : gKind (s.grp (hdrOf pkt.payload).group) = 4) (known : voter a pkt ∈ contributors (s.grp (hdrOf pkt.payload).group))
include kind known

theorem voteIn_wire (wire : (hdrOf pkt.payload).wire ≠ if a.isNone then 2 else countWire (s.grp (hdrOf pkt.payload).group)) :
    voteIn a pkt s = rejectPkt pkt 0x0606 (takenUp a pkt s) := by
  rw [voteIn_current numbered ok near epoch, if_neg (by simp [kind, known]), if_pos (by simpa using wire)]

theorem voteIn_takes (wire : (hdrOf pkt.payload).wire = if a.isNone then 2 else countWire (s.grp (hdrOf pkt.payload).group)) :
    voteIn a pkt s = takeVote (voter a pkt) pkt s := by
  rw [voteIn_current numbered ok near epoch, if_neg (by simp [kind, known]), if_neg (by simpa using wire)]

end

/-! ### Contributions that are combined -/

theorem retryVotes_none {s : State} (none : s.fab.voteWait = []) (n : Nat) : retryVotes n s = s := by
  cases n with
  | zero => rfl
  | succ n => rw [retryVotes, none]; rfl

theorem closeVotes_none {s : State} (none : s.fab.votes.find? (voteMay s) = .none) (n : Nat) : closeVotes n s = s := by
  cases n with
  | zero => rfl
  | succ n => rw [closeVotes, none]

theorem closeVotes_some {s : State} {v : Vote} (complete : s.fab.votes.find? (voteMay s) = some v) (n : Nat) :
    closeVotes (n + 1) s = closeVotes n (closeVote v s) := by
  rw [closeVotes, complete]

theorem closeVote_last {s : State} {v : Vote} (only : s.fab.votes = [v]) (may : voteMay s v = true)
    (gone : (closeVote v s).fab.votes = []) (n : Nat) : closeVotes (n + 1) s = closeVote v s := by
  rw [closeVotes_some (v := v) (by rw [only, List.find?_singleton, if_pos may]), closeVotes_none (by rw [gone]; rfl)]

theorem voteElems_length (wire : Nat) (data : List Byte) : (voteElems wire data).length = 4096 := by
  rw [voteElems, List.length_map, List.length_range]

/-- The first contribution's elements are its square's counts. -/
theorem zip_replicate_map {α β γ : Type} (f : α → β → γ) (z : α) (l : List β) {n : Nat} (h : l.length = n) :
    ((List.replicate n z).zip l).map (fun e => f e.1 e.2) = l.map (f z) := by
  subst h
  induction l with
  | nil => rfl
  | cons b l ih => exact congrArg (f z b :: ·) ih

/-- A square with its first contribution. -/
def firstVote (who : Nat) (pkt : Pkt) : Vote :=
  let h := hdrOf pkt.payload
  { group := h.group, sigma := h.sigma, tag := h.tag, pgroup := h.pgroup, q := h.q
    counts := (voteElems h.wire (pkt.payload.drop 64)).map (fun c => c.getD 0)
    reserved := (voteElems h.wire (pkt.payload.drop 64)).map (·.isNone), came := [(who, pkt.src)] }

/-- The first contribution of a square, alone, with its acknowledgement. -/
def firstTaken (who : Nat) (pkt : Pkt) (s : State) : State :=
  answer pkt 0x82 [] { s with fab := { s.fab with votes := [firstVote who pkt] } }

theorem firstVote_add (who : Nat) (pkt : Pkt) :
    ({ firstVote who pkt with counts := List.replicate 4096 0, reserved := List.replicate 4096 false, came := [] } : Vote).add who pkt.src
      (voteElems (hdrOf pkt.payload).wire (pkt.payload.drop 64)) = firstVote who pkt := by
  have elems := voteElems_length (hdrOf pkt.payload).wire (pkt.payload.drop 64)
  have counts := zip_replicate_map (fun (n : Int) (c : Option Int) => n + c.getD 0) 0 _ elems
  have reserved := zip_replicate_map (fun (r : Bool) (c : Option Int) => r || c.isNone) false _ elems
  simp only [Int.zero_add, Bool.false_or] at counts reserved
  rw [Vote.add, counts, reserved]
  rfl

theorem combineVote_first {who : Nat} {pkt : Pkt} {s : State} (none : s.fab.votes = []) :
    combineVote who pkt (hdrOf pkt.payload) s = closeVotes 4096 (firstTaken who pkt s) := by
  rw [firstTaken, ← firstVote_add]
  unfold combineVote
  dsimp only
  rw [none, List.any_nil, if_neg Bool.false_ne_true, List.nil_append, List.map_singleton, if_pos (by simp)]
  rfl

end Sys2Proof.Machine
end

