-- ==== Sys2Proof/Proofs/VoteSquares.lean ====
section
/-!
PROOFS. Proofs/VoteSquares.lean: a vote's square after its first contribution (R236, R237): it stays open, or its counts leave, at the root to the
owner's stack, elsewhere toward the root.
-/
-- One proof after another: in parallel, behind the tests' long evaluations, they ask for too many threads' stacks.
set_option Elab.async false

namespace Sys2Proof.Machine

/-! ### A packet that waits for room -/

theorem voteRoom_of_none {s : State} (none : s.fab.votes = []) (h : Hdr) : voteRoom s h = true := by
  simp [voteRoom, none]

section
variable {who : Nat} {pkt : Pkt} {s : State} (only : s.fab.voteWait = [(who, pkt)])
include only

theorem retryVotes_full (full : voteRoom s (hdrOf pkt.payload) = false) (n : Nat) : retryVotes n s = s := by
  cases n with
  | zero => rfl
  | succ n => rw [retryVotes, only, List.find?_singleton, if_neg (by exact ne_true_of_eq_false full)]

theorem retryVotes_only (room : voteRoom s (hdrOf pkt.payload) = true) (n : Nat) : retryVotes (n + 1) s
    = retryVotes n (combineVote who pkt (hdrOf pkt.payload)
        (takenUp (if 32 ≤ who then some (who - 32) else none) pkt { s with fab := { s.fab with voteWait := [] } })) := by
  rw [retryVotes, only, List.find?_singleton, if_pos room]
  dsimp only
  rw [List.erase_cons_head]

end

/-- A contribution that finds no room waits, in the receive buffer of its port. -/
theorem takeVote_waits {who : Nat} {pkt : Pkt} {s : State} (waiting : s.fab.voteWait = []) (full : voteRoom s (hdrOf pkt.payload) = false) :
    takeVote who pkt s = { s with fab := { s.fab with voteWait := [(who, pkt)] } } := by
  rw [takeVote, waiting, List.nil_append]
  exact retryVotes_full (s := { s with fab := { s.fab with voteWait := [(who, pkt)] } }) rfl full _

section
variable {a : Option Nat} {pkt : Pkt} {s : State}

/-- The first contribution of all is combined at once. -/
theorem takeVote_first (waiting : s.fab.voteWait = []) (none : s.fab.votes = [])
    (rest : (closeVotes 4096 (firstTaken (voter a pkt) pkt (takenUp a pkt s))).fab.voteWait = []) :
    takeVote (voter a pkt) pkt s = closeVotes 4096 (firstTaken (voter a pkt) pkt (takenUp a pkt s)) := by
  have room : voteRoom { s with fab := { s.fab with voteWait := [(voter a pkt, pkt)] } } (hdrOf pkt.payload) = true := voteRoom_of_none none _
  have same : ({ s with fab := { s.fab with voteWait := [] } } : State) = s := by rw [← waiting]
  calc takeVote (voter a pkt) pkt s
    _ = retryVotes 4096 { s with fab := { s.fab with voteWait := [(voter a pkt, pkt)] } } := by rw [takeVote, waiting, List.nil_append]
    _ = retryVotes 4095 (combineVote (voter a pkt) pkt (hdrOf pkt.payload) (takenUp a pkt { s with fab := { s.fab with voteWait := [] } })) := by
      rw [retryVotes_only rfl room, voter_port]
    _ = retryVotes 4095 (closeVotes 4096 (firstTaken (voter a pkt) pkt (takenUp a pkt s))) := by
      rw [same, combineVote_first (by rw [takenUp_fab]; exact none)]
    _ = _ := retryVotes_none rest _

theorem firstTaken_kept {who : Nat} : PortsKept { s with fab := { s.fab with votes := [firstVote who pkt] } }
    (firstTaken who pkt (takenUp a pkt s)) := by
  have kept := (portsKept_takenUp a pkt s).withFab { s.fab with votes := [firstVote who pkt] }
  rw [firstTaken, takenUp_fab]
  exact kept.trans (portsKept_emit ..)

end

/-! ### A square that stays open -/

section
variable {who : Nat} {pkt : Pkt} {s : State}

theorem firstVote_fields (who : Nat) (pkt : Pkt) : (firstVote who pkt).group = (hdrOf pkt.payload).group
    ∧ (firstVote who pkt).sigma = (hdrOf pkt.payload).sigma ∧ (firstVote who pkt).tag = (hdrOf pkt.payload).tag
    ∧ (firstVote who pkt).pgroup = (hdrOf pkt.payload).pgroup ∧ (firstVote who pkt).came = [(who, pkt.src)] := ⟨rfl, rfl, rfl, rfl, rfl⟩

/-- A square that still misses a contributor is not closed. -/
theorem voteMay_missing {c : Nat} (missing : c ∈ contributors (s.grp (hdrOf pkt.payload).group)) (other : c ≠ who) :
    voteMay s (firstVote who pkt) = false := by
  have miss : (contributors (s.grp (hdrOf pkt.payload).group)).all (fun c => [(who, pkt.src)].any (fun w => w.1 == c)) = false := by
    rw [List.all_eq_false]
    exact ⟨c, missing, by simp [Ne.symm other]⟩
  obtain ⟨group, -, -, -, came⟩ := firstVote_fields who pkt
  simp only [voteMay, group, came, miss, Bool.false_and]

/-- A square whose only contributor has come may leave, at the root or when less than sixteen of its group are on the way. -/
theorem voteMay_alone (alone : contributors (s.grp (hdrOf pkt.payload).group) = [who])
    (way : gUpPort (s.grp (hdrOf pkt.payload).group) = 24 ∨ s.fab.voteSent.countP (fun w => w.1 == (hdrOf pkt.payload).group) < 16) :
    voteMay s (firstVote who pkt) = true := by
  obtain ⟨group, -, -, -, came⟩ := firstVote_fields who pkt
  simpa [voteMay, group, came, alone] using way

end

section
variable {a : Option Nat} {pkt : Pkt} {s : State} (waiting : s.fab.voteWait = []) (none : s.fab.votes = [])
include waiting none

theorem takeVote_opens {c : Nat} (missing : c ∈ contributors (s.grp (hdrOf pkt.payload).group)) (other : c ≠ voter a pkt) :
    takeVote (voter a pkt) pkt s = firstTaken (voter a pkt) pkt (takenUp a pkt s) := by
  have kept := firstTaken_kept (a := a) (pkt := pkt) (s := s) (who := voter a pkt)
  have stays := takeVote_first (a := a) (pkt := pkt) waiting none
  generalize firstTaken (voter a pkt) pkt (takenUp a pkt s) = t at kept stays
  have still : closeVotes 4096 t = t := by
    refine closeVotes_none ?_ _
    rw [kept.frame]
    exact List.find?_singleton.trans (if_neg (ne_true_of_eq_false (voteMay_missing missing other)))
  rw [still] at stays
  exact stays (by rw [kept.frame]; exact waiting)

/-! ### A square that leaves -/

/-- The packet of a complete square toward the root. -/
def votePkt (v : Vote) (txn : Nat) (s : State) : Pkt :=
  let pl := hdrBytes { tag := v.tag, group := v.group, gepoch := gEpoch (s.grp v.group), pgroup := v.pgroup, q := v.q
                       wire := countWire (s.grp v.group), sigma := v.sigma } ++ countBytes (countWire (s.grp v.group)) v
  { dest := gRoot (s.grp v.group), src := s.ownAddr, opcode := 0x06, flits := flitsFor pl.length, lines := ceilDiv pl.length 64
    txn := txn, payload := pl }

/-- A square on its way to the root, of which an acknowledgement is expected. -/
def voteUnderway (v : Vote) (s : State) : State :=
  let t := (newTxn (.vote v.group) s).2
  { t with fab := { t.fab with voteSent := t.fab.voteSent ++ [(v.group, pgDomain (s.pgroup v.pgroup))] } }

/-- A complete square goes one port up. -/
def voteUp (v : Vote) (s : State) : State :=
  transmit (gUpPort (s.grp v.group)) (votePkt v (newTxn (.vote v.group) s).1 s) (voteUnderway v s)

omit waiting in
/-- The only square is closed: its contributors get their credits back, and its counts leave. -/
theorem closeVote_first {who : Nat} : ∃ w, PortsKept s w ∧ Answered pkt 0x82 [] w
    ∧ closeVote (firstVote who pkt) (firstTaken who pkt (takenUp a pkt s))
      = if gUpPort (s.grp (hdrOf pkt.payload).group) = 24 then voteAtRoot (firstVote who pkt) w else voteUp (firstVote who pkt) w := by
  have kept := firstTaken_kept (a := a) (pkt := pkt) (s := s) (who := who)
  have answered : Answered pkt 0x82 [] (firstTaken who pkt (takenUp a pkt s)) := answer_answered ..
  generalize firstTaken who pkt (takenUp a pkt s) = t at kept answered
  have same : ({ s with fab := { s.fab with votes := [] } } : State) = s := by rw [← none]
  have shut : PortsKept s { t with fab := { t.fab with votes := [] } } := by
    have k := kept.withFab { s.fab with votes := [] }
    rw [show t.fab = { s.fab with votes := [firstVote who pkt] } by rw [kept.frame]]
    rw [← same]
    exact k
  have returned : ∀ u, PortsKept u (returnVotes (firstVote who pkt) u) := fun u => portsKept_forEach _ _ (fun _ _ => portsKept_emit ..) u
  have only : t.fab.votes.filter (fun x => !(x.group == (firstVote who pkt).group && x.sigma == (firstVote who pkt).sigma
      && x.tag == (firstVote who pkt).tag)) = [] := by
    rw [kept.frame]
    simp
  have group : t.grp (firstVote who pkt).group = s.grp (hdrOf pkt.payload).group := by rw [kept.frame]; rfl
  unfold closeVote
  dsimp only
  rw [only, group]
  have after := shut.trans (returned _)
  refine ⟨_, after, answered_of_out (answered_of_out answered (fun _ h => h)) (returned _).out, ?_⟩
  generalize returnVotes (firstVote who pkt) { t with fab := { t.fab with votes := [] } } = w at after
  have up : w.grp (firstVote who pkt).group = s.grp (hdrOf pkt.payload).group := by rw [after.frame]; rfl
  unfold voteUp votePkt voteUnderway
  rw [up]
  rfl

/-- A complete square of one contributor leaves at once. -/
theorem takeVote_leaves (alone : contributors (s.grp (hdrOf pkt.payload).group) = [voter a pkt])
    (way : gUpPort (s.grp (hdrOf pkt.payload).group) = 24 ∨ s.fab.voteSent.countP (fun w => w.1 == (hdrOf pkt.payload).group) < 16)
    {t : State} (closed : closeVote (firstVote (voter a pkt) pkt) (firstTaken (voter a pkt) pkt (takenUp a pkt s)) = t)
    (votes : t.fab.votes = []) (rest : t.fab.voteWait = []) : takeVote (voter a pkt) pkt s = t := by
  have kept := firstTaken_kept (a := a) (pkt := pkt) (s := s) (who := voter a pkt)
  have may : voteMay (firstTaken (voter a pkt) pkt (takenUp a pkt s)) (firstVote (voter a pkt) pkt) = true := by
    rw [kept.frame]
    exact voteMay_alone alone way
  have last : closeVotes 4096 (firstTaken (voter a pkt) pkt (takenUp a pkt s)) = t := by
    rw [← closed]
    exact closeVote_last (by rw [kept.frame]) may (by rw [closed]; exact votes) 4095
  rw [takeVote_first waiting none (by rw [last]; exact rest), last]

end

/-! ### Where its counts go -/

section
variable {q : Nat} {s t : State}

/-- A port with room for a vote packet keeps it while packets are taken up. -/
theorem PortsKept.voteRoom (h : PortsKept s t) (room : VoteRoom q s) : VoteRoom q t := by
  obtain ⟨⟨queue, sending, holds, stalled⟩, free⟩ := room
  refine ⟨⟨by rw [h.port]; exact queue, by rw [h.port]; exact sending, by rw [h.frame]; exact holds, by rw [h.frame]; exact stalled⟩,
    fun k vote fresh => ?_⟩
  rw [← free k vote fresh, roomFor, roomFor, flitRoom, flitRoom, h.port, show t.stopped q = s.stopped q by rw [h.frame]; rfl]
  rfl

theorem voteUnderway_voteRoom {v : Vote} (room : VoteRoom q s) : VoteRoom q (voteUnderway v s) := room

theorem voteUp_kept (v : Vote) (s : State) : Drains (voteUnderway v s) (voteUp v s) := drains_transmit ..

theorem voteUp_sends {v : Vote} (room : VoteRoom (gUpPort (s.grp v.group)) s) : ∃ txn,
    Out.packet (some (gUpPort (s.grp v.group))) { votePkt v txn s with hop := 1 } ∈ (voteUp v s).out :=
  ⟨_, transmit_sent rfl rfl (voteUnderway_voteRoom room)⟩

end

/-- The count of a square at the root goes to its owner's stack. -/
theorem voteAtRoot_square {v : Vote} {owner stack pg q : Nat} {s : State}
    (square : mapAt s (gRoot (s.grp v.group) % 16) v.group v.sigma = .square owner stack pg q) :
    voteAtRoot v s = sendUpdate (gRoot (s.grp v.group) % 16) owner stack v.tag pg q true (countWire (s.grp v.group) == 4)
      (countBytes (countWire (s.grp v.group)) v) s := by
  unfold voteAtRoot
  dsimp only
  rw [square]

theorem sendUpdate_votes (b owner stack tag pg q : Nat) (mode voteW : Bool) (bs : List Byte) (s : State) :
    (sendUpdate b owner stack tag pg q mode voteW bs s).fab.votes = s.fab.votes
      ∧ (sendUpdate b owner stack tag pg q mode voteW bs s).fab.voteWait = s.fab.voteWait
      ∧ ∀ o ∈ s.out, o ∈ (sendUpdate b owner stack tag pg q mode voteW bs s).out :=
  ⟨rfl, rfl, fun _ h => List.mem_cons_of_mem _ h⟩

section
variable {a : Option Nat} {pkt : Pkt} {s : State} (waiting : s.fab.voteWait = []) (none : s.fab.votes = [])
  (alone : contributors (s.grp (hdrOf pkt.payload).group) = [voter a pkt])
include waiting none alone

/-- At the root a complete square's counts are an update command of its owner's stack. -/
theorem takeVote_root {owner stack pg q : Nat} (top : gUpPort (s.grp (hdrOf pkt.payload).group) = 24)
    (square : mapAt s (gRoot (s.grp (hdrOf pkt.payload).group) % 16) (hdrOf pkt.payload).group (hdrOf pkt.payload).sigma
      = .square owner stack pg q) :
    let e := s.grp (hdrOf pkt.payload).group
    ∃ t k, takeVote (voter a pkt) pkt s = t ∧ t.fab.votes = [] ∧ Out.packet .none k ∈ t.out ∧ k.dest = owner
      ∧ ToReckoner k (hdrOf pkt.payload).tag pg q stack true ∧ (updOf k).2.voteW = (countWire e == 4)
      ∧ k.payload.drop 64 = countBytes (countWire e) (firstVote (voter a pkt) pkt) ∧ Answered pkt 0x82 [] t := by
  intro e
  obtain ⟨w, kept, answered, closed⟩ := closeVote_first (a := a) (pkt := pkt) none (who := voter a pkt)
  obtain ⟨hstack, hpg, hq⟩ := mapAt_square square
  have grp : w.grp (firstVote (voter a pkt) pkt).group = e := by rw [kept.frame]; rfl
  have map : mapAt w (gRoot (w.grp (firstVote (voter a pkt) pkt).group) % 16) (firstVote (voter a pkt) pkt).group
      (firstVote (voter a pkt) pkt).sigma = .square owner stack pg q := by
    rw [grp, kept.frame]
    exact square
  rw [if_pos top, voteAtRoot_square map, grp] at closed
  obtain ⟨k, sent, opcode, dest, payload⟩ := sendUpdate_sends (gRoot e % 16) owner stack (firstVote (voter a pkt) pkt).tag pg q true
    (countWire e == 4) (countBytes (countWire e) (firstVote (voter a pkt) pkt)) w
  obtain ⟨votes, rest, out⟩ := sendUpdate_votes (gRoot e % 16) owner stack (firstVote (voter a pkt) pkt).tag pg q true
    (countWire e == 4) (countBytes (countWire e) (firstVote (voter a pkt) pkt)) w
  have gone : w.fab = s.fab := by rw [kept.frame]
  rw [gone] at votes rest
  obtain ⟨aim, voteW, -⟩ := toReckoner true (countWire e == 4) hstack hpg hq opcode payload
  exact ⟨_, k, takeVote_leaves waiting none alone (.inl top) closed (votes.trans none) (rest.trans waiting), votes.trans none, sent, dest, aim,
    voteW, (updOf_fields payload).2, answered_of_out answered out⟩

/-- Elsewhere they go toward the root, in a packet of the wider wire format. -/
theorem takeVote_up (below : gUpPort (s.grp (hdrOf pkt.payload).group) ≠ 24)
    (few : s.fab.voteSent.countP (fun w => w.1 == (hdrOf pkt.payload).group) < 16) (current : (hdrOf pkt.payload).group < 1024) :
    let h := hdrOf pkt.payload
    let e := s.grp h.group
    ∃ t, takeVote (voter a pkt) pkt s = t ∧ t.fab.votes = [] ∧ Answered pkt 0x82 [] t
      ∧ (VoteRoom (gUpPort e) s → ∃ k, Out.packet (some (gUpPort e)) k ∈ t.out ∧ k.opcode = 0x06 ∧ k.dest = gRoot e ∧ k.hop = 1
        ∧ (hdrOf k.payload).sigma = h.sigma % 2 ^ 32 ∧ (hdrOf k.payload).group = h.group ∧ (hdrOf k.payload).wire = countWire e
        ∧ k.payload.drop 64 = countBytes (countWire e) (firstVote (voter a pkt) pkt))
      ∧ t.fab.voteSent = s.fab.voteSent ++ [(h.group, pgDomain (s.pgroup h.pgroup))] := by
  intro h e
  obtain ⟨w, kept, answered, closed⟩ := closeVote_first (a := a) (pkt := pkt) none (who := voter a pkt)
  rw [if_neg below] at closed
  have grp : w.grp (firstVote (voter a pkt) pkt).group = e := by rw [kept.frame]; rfl
  have drains := voteUp_kept (firstVote (voter a pkt) pkt) w
  have votes : (voteUp (firstVote (voter a pkt) pkt) w).fab.votes = [] := by
    rw [drains.frame, ← none]
    exact congrArg (·.fab.votes) kept.frame
  have rest : (voteUp (firstVote (voter a pkt) pkt) w).fab.voteWait = [] := by
    rw [drains.frame, ← waiting]
    exact congrArg (·.fab.voteWait) kept.frame
  refine ⟨_, takeVote_leaves waiting none alone (.inr few) closed votes rest, votes, answered_of_out answered drains.out, fun room => ?_, ?_⟩
  · obtain ⟨txn, sent⟩ := voteUp_sends (v := firstVote (voter a pkt) pkt) (s := w) (by rw [grp]; exact kept.voteRoom room)
    rw [grp] at sent
    refine ⟨_, sent, rfl, congrArg gRoot grp, rfl, hdrOf_sigma ..,
      (hdrOf_group ..).trans (Nat.mod_eq_of_lt (by exact Nat.lt_trans current (by decide))), ?_, ?_⟩
    · refine (hdrOf_wire ..).trans ?_
      rw [grp]
      unfold countWire
      split <;> rfl
    · rw [← grp]
      exact drop_hdrBytes ..
  · rw [drains.frame, kept.frame]
    rfl

end

end Sys2Proof.Machine
end

