-- ==== Sys2Proof/Proofs/Reductions.lean ====
section
/-!
PROOFS. Proofs/Reductions.lean: a vote packet by what it meets (R236, R237). And the statement on reductions.
-/
-- One proof after another: in parallel, behind the tests' long evaluations, they ask for too many threads' stacks.
set_option Elab.async false

namespace Sys2Proof.Machine

theorem firstVote_elems (who : Nat) (pkt : Pkt) :
    (firstVote who pkt).counts = (voteElems (hdrOf pkt.payload).wire (pkt.payload.drop 64)).map (fun c => c.getD 0)
      ∧ (firstVote who pkt).reserved = (voteElems (hdrOf pkt.payload).wire (pkt.payload.drop 64)).map (·.isNone) := by
  simp only [firstVote, and_self]

theorem hopSums_hopOf (j : RJob) (pkt : Pkt) (v : List W32) : hopSums j (hopOf pkt) v
    = (((dequantSquare j.wire (pkt.payload.drop 64)).map (·.1)).zip v).map (fun e => fadd e.1 e.2) := rfl

section
variable {p : Option PortNo} {pkt : Pkt} {s : State} (goes : exec (.reduceVote p pkt) s = .next (voteIn (p.map (·.val)) pkt s))
include goes

/-- A refused vote packet enters no square. -/
theorem reduceVote_refuses {code : Nat} (h : code < 65536)
    (refuses : voteIn (p.map (·.val)) pkt s = rejectPkt pkt code (takenUp (p.map (·.val)) pkt s)) :
    ∃ t, exec (.reduceVote p pkt) s = .next t ∧ Rejected pkt code t ∧ t.fab.votes = s.fab.votes := by
  rw [refuses] at goes
  exact ⟨_, goes, voteRefused h⟩

/-- One of a wrong form, or of another wire format than its contributor's, is refused. -/
theorem reduceVote_form (numbered : s.device ≠ 0xFFFF) (bad : pktOk pkt = false
      ∨ (¬ ((p.map (·.val)).isSome = true ∧ pkt.hop = 31) ∧ epochOk s (hdrOf pkt.payload).group (hdrOf pkt.payload).gepoch = true
        ∧ gKind (s.grp (hdrOf pkt.payload).group) = 4 ∧ voter (p.map (·.val)) pkt ∈ contributors (s.grp (hdrOf pkt.payload).group)
        ∧ (hdrOf pkt.payload).wire ≠ if (p.map (·.val)).isNone then 2 else countWire (s.grp (hdrOf pkt.payload).group))) :
    ∃ t, exec (.reduceVote p pkt) s = .next t ∧ Rejected pkt 0x0606 t ∧ t.fab.votes = s.fab.votes := by
  refine reduceVote_refuses goes (by decide) ?_
  cases ok : pktOk pkt with
  | false => exact voteIn_form numbered ok
  | true =>
    obtain form | ⟨near, epoch, kind, known, wire⟩ := bad
    · exact absurd (ok.symm.trans form) (by decide)
    · exact voteIn_wire numbered ok near epoch kind known wire

variable (takes : voteIn (p.map (·.val)) pkt s = takeVote (voter (p.map (·.val)) pkt) pkt s) (waiting : s.fab.voteWait = [])
include takes waiting

theorem reduceVote_waits (full : voteRoom s (hdrOf pkt.payload) = false) :
    exec (.reduceVote p pkt) s = .next { s with fab := { s.fab with voteWait := [(voter (p.map (·.val)) pkt, pkt)] } } := by
  rw [goes, takes, takeVote_waits waiting full]

variable (none : s.fab.votes = [])
include none

/-- The first contribution of several opens its square, and nothing else changes. -/
theorem reduceVote_opens (missing : ∃ c ∈ contributors (s.grp (hdrOf pkt.payload).group), c ≠ voter (p.map (·.val)) pkt) :
    let h := hdrOf pkt.payload
    let es := voteElems h.wire (pkt.payload.drop 64)
    ∃ t v, exec (.reduceVote p pkt) s = .next t ∧ t.fab.votes = [v] ∧ v.group = h.group ∧ v.sigma = h.sigma ∧ v.tag = h.tag
      ∧ v.counts = es.map (fun c => c.getD 0) ∧ v.reserved = es.map (·.isNone) ∧ v.came = [(voter (p.map (·.val)) pkt, pkt.src)]
      ∧ Answered pkt 0x82 [] t
      ∧ t = { s with fab := { s.fab with votes := t.fab.votes }, out := t.out, ports := t.ports } := by
  intro h es
  obtain ⟨c, mem, other⟩ := missing
  have kept := firstTaken_kept (a := p.map (·.val)) (pkt := pkt) (s := s) (who := voter (p.map (·.val)) pkt)
  have votes : (firstTaken (voter (p.map (·.val)) pkt) pkt (takenUp (p.map (·.val)) pkt s)).fab.votes
      = [firstVote (voter (p.map (·.val)) pkt) pkt] := by
    rw [kept.frame]
  rw [takes, takeVote_opens waiting none mem other] at goes
  refine ⟨_, _, goes, votes, rfl, rfl, rfl, (firstVote_elems _ pkt).1, (firstVote_elems _ pkt).2, rfl, answer_answered .., ?_⟩
  rw [votes]
  exact kept.frame

variable (alone : contributors (s.grp (hdrOf pkt.payload).group) = [voter (p.map (·.val)) pkt])
include alone

/-- A square of one contributor is complete; at the root it goes to its owner's stack. -/
theorem reduceVote_root {owner stack pg q : Nat} (top : gUpPort (s.grp (hdrOf pkt.payload).group) = 24)
    (square : mapAt s (gRoot (s.grp (hdrOf pkt.payload).group) % 16) (hdrOf pkt.payload).group (hdrOf pkt.payload).sigma
      = .square owner stack pg q) :
    let h := hdrOf pkt.payload
    let e := s.grp h.group
    let es := voteElems h.wire (pkt.payload.drop 64)
    ∃ t k v, exec (.reduceVote p pkt) s = .next t ∧ t.fab.votes = [] ∧ Out.packet .none k ∈ t.out ∧ k.dest = owner
      ∧ ToReckoner k h.tag pg q stack true ∧ (updOf k).2.voteW = (countWire e == 4) ∧ v.counts = es.map (fun c => c.getD 0)
      ∧ v.reserved = es.map (·.isNone) ∧ k.payload.drop 64 = countBytes (countWire e) v ∧ Answered pkt 0x82 [] t := by
  intro h e es
  obtain ⟨t, k, leaves, votes, sent, dest, aim, wide, data, answered⟩ := takeVote_root waiting none alone top square
  obtain ⟨counts, reserved⟩ := firstVote_elems (voter (p.map (·.val)) pkt) pkt
  exact ⟨t, k, _, goes.trans (congrArg _ (takes.trans leaves)), votes, sent, dest, aim, wide, counts, reserved, data, answered⟩

theorem reduceVote_up (below : gUpPort (s.grp (hdrOf pkt.payload).group) ≠ 24)
    (few : s.fab.voteSent.countP (fun w => w.1 == (hdrOf pkt.payload).group) < 16) (current : (hdrOf pkt.payload).group < 1024) :
    let h := hdrOf pkt.payload
    let e := s.grp h.group
    let es := voteElems h.wire (pkt.payload.drop 64)
    ∃ t, exec (.reduceVote p pkt) s = .next t ∧ t.fab.votes = [] ∧ Answered pkt 0x82 [] t
      ∧ (VoteRoom (gUpPort e) s → ∃ k v, Out.packet (some (gUpPort e)) k ∈ t.out ∧ k.opcode = 0x06 ∧ k.dest = gRoot e ∧ k.hop = 1
        ∧ (hdrOf k.payload).sigma = h.sigma % 2 ^ 32 ∧ (hdrOf k.payload).group = h.group ∧ (hdrOf k.payload).wire = countWire e
        ∧ v.counts = es.map (fun c => c.getD 0) ∧ v.reserved = es.map (·.isNone) ∧ k.payload.drop 64 = countBytes (countWire e) v)
      ∧ t.fab.voteSent = s.fab.voteSent ++ [(h.group, pgDomain (s.pgroup h.pgroup))] := by
  intro h e es
  obtain ⟨t, leaves, votes, answered, up, way⟩ := takeVote_up waiting none alone below few current
  obtain ⟨counts, reserved⟩ := firstVote_elems (voter (p.map (·.val)) pkt) pkt
  refine ⟨t, goes.trans (congrArg _ (takes.trans leaves)), votes, answered, fun room => ?_, way⟩
  obtain ⟨k, sent, opcode, dest, hop, sigma, group, wire, data⟩ := up room
  exact ⟨k, _, sent, opcode, dest, hop, sigma, group, wire, counts, reserved, data⟩

end

theorem epochOk_lt {s : State} {g ge : Nat} (h : epochOk s g ge = true) : g < 1024 := by
  simp only [epochOk, Bool.and_eq_true, decide_eq_true_eq] at h
  exact h.1.1

/-! ### Without a REDUCE -/

section
variable {b : BoardNo} {s : State} (idle : (s.board b.val).rjobs = [])
include idle

theorem exec_sliceReadout_empty : exec (.sliceReadout b) s = .next s := by
  show execSliceReadout b s = _
  simp only [execSliceReadout, idle]

theorem exec_reduceHopSend_empty : exec (.reduceHopSend b) s = .next s := by
  show execReduceHopSend b s = _
  simp only [execReduceHopSend, idle, ite_self]

end

/-- Settles O46: each clause is what one lemma says of its instruction: a REDUCE and its slices, the hops that arrive, those that leave,
and the votes. -/
theorem reductions : Obligations.Reductions := by
  refine ⟨fun b st i s u h => ⟨reduce_halts h, fun shape waiting => ⟨reduce_joins h shape waiting, reduce_empty h shape⟩⟩,
    fun b j js s head => ⟨fun stuck more state ok powered => ⟨sliceReadout_reads head stuck more state ok powered,
      fun w bad => exec_sliceReadout_bad head stuck more state ok powered bad⟩, exec_sliceReadout_waits head⟩,
    fun b s none => ⟨exec_sliceReadout_empty none, exec_reduceHopSend_empty none⟩,
    fun b pkt s h => ⟨reduceVal_wire h, reduceVal_stale h, reduceVal_shut h, fun form epoch up => ⟨reduceVal_waits h form epoch up, ?_, ?_⟩⟩,
    fun b j js v owner stack pg q o x s ok powered square => ⟨fun value formed unsent next => ⟨
      hopSend_waits ok powered square value formed unsent next,
      fun ep n => hopSend_sends ok powered square value formed unsent next⟩, reduceHopSend_nothing ok powered square,
      fun vote => ⟨tritSend_waits ok powered square vote, fun ep n => tritSend_sends ok powered square vote⟩⟩,
    fun p pkt s vote powered local_ => ?_⟩
  · intro j js v owner stack o x square value fresh unsent parts other next group sigma wire remote empty
    obtain ⟨t, j', goes, mem, id, same, sum, hops, answered⟩ :=
      reduceVal_adds h form epoch up square value group sigma wire remote empty unsent parts other next
    exact ⟨t, j', goes, mem, id, same, sum.trans (congrArg some (hopSums_hopOf j pkt v)), hops, answered⟩
  · exact fun j js v owner stack o square value group sigma wire remote empty last =>
      reduceVal_delivers h form epoch up square value group sigma wire remote empty last
  · refine ⟨?_, fun way => ?_⟩
    · exact exec_reduceVote_stalls vote powered local_
    · have goes := exec_reduceVote_in vote powered local_ way
      rcases p with _ | n <;> exact ⟨fun off => goes.trans (congrArg _ (voteIn_unnumbered off)),
        fun numbered ok far => reduceVote_refuses goes (by decide) (voteIn_far numbered ok far),
        fun numbered ok near stale => reduceVote_refuses goes (by decide) (voteIn_stale numbered ok near stale),
        fun numbered ok near epoch stranger => reduceVote_refuses goes (by decide) (voteIn_stranger numbered ok near epoch stranger),
        fun numbered bad => reduceVote_form goes numbered bad,
        fun ⟨numbered, ok, near, epoch, kind, known, wire⟩ waiting =>
          reduceVote_waits goes (voteIn_takes numbered ok near epoch kind known wire) waiting,
        fun ⟨numbered, ok, near, epoch, kind, known, wire⟩ waiting none => ⟨
          reduceVote_opens goes (voteIn_takes numbered ok near epoch kind known wire) waiting none,
          fun owner stack pg q alone =>
            reduceVote_root goes (voteIn_takes numbered ok near epoch kind known wire) waiting none alone,
          fun alone below few =>
            reduceVote_up goes (voteIn_takes numbered ok near epoch kind known wire) waiting none alone below few (epochOk_lt epoch)⟩⟩

end Sys2Proof.Machine
end

