-- ==== Sys2Proof/Proofs/SlateQueue.lean ====
section
/-!
PROOFS. Proofs/SlateQueue.lean: the statement on the Slate's operations fails: of an operation whose last band is also the last before the
mark of an uncorrectable operand, it asks for a halt that nothing causes.
-/
-- One proof after another: in parallel, behind the tests' long evaluations, they ask for too many threads' stacks.
set_option Elab.async false

namespace Sys2Proof.Machine

/-- A CVT of one row and one column at band 65,535, with room left in the buffer that it reads and in the one that it writes. A SLATE group
names 65,535 rows at most, in 1,024 bands, so that no queued operation comes to this band. -/
def lastBandOp : SlateOp :=
  { id := 0, grp := 0x06 * 2 ^ 104 + 1, band := badBand - 1, curA := some (0, 0), curD := some (1, 0) }

/-- The state after reset, with this operation at the head of Board 0's queue and its two buffers of 64 KiB. -/
def lastBandState : State :=
  { State.reset with boards :=
      [(0, { slates := [lastBandOp], bufs := [(0, { base := 0, size := 256 }), (1, { base := 256, size := 256 })] })] }

/-- Every word that the band reads is good: it is written, the operation's next band is `badBand`, and nothing has halted the Board. -/
theorem lastBand_written : ∃ o v, slateBand 0 lastBandOp lastBandState = some (o, v) ∧ badBand ≤ o.band ∧ (v.board 0).halt = .none := by
  have eval : (slateBand 0 lastBandOp lastBandState).any (fun r => decide (badBand ≤ r.1.band) && (r.2.board 0).halt == .none) = true := by
    decide +kernel
  obtain ⟨⟨o, v⟩, band, holds⟩ := (Option.any_eq_true _ _).1 eval
  simp only [Bool.and_eq_true, decide_eq_true_eq, beq_iff_eq] at holds
  exact ⟨o, v, band, holds⟩

/-- A band that marks its operation as bad ends the queue's run, and the Board is halted only if the band has halted it. -/
theorem slateRun_bad_halt {b n : Nat} {o o' : SlateOp} {s v : State} (queue : (s.board b).slates = [o])
    (band : slateBand b o s = some (o', v)) (bad : badBand ≤ o'.band) : ((slateRun b (n + 1) s).board b).halt = (v.board b).halt := by
  have later : o'.band ≠ 1 := fun h => by
    rw [h] at bad
    exact absurd bad (by decide)
  simp only [slateRun, queue, band, if_neg later, if_pos bad, State.modBoard_board]

/-- The command finds no group of its own to queue, and lets the queue go on. -/
theorem exec_cvt_lastBand : exec (.cvt 0 .main .fp32) lastBandState = .next (slateRun 0 slateSpan lastBandState) := rfl

/-- Refutes O58: its clause for an operation alone in the queue takes a next band of `badBand` or more as the sign of an uncorrectable
operand, and asks for the halt with 0401h. The band after 65,535 is `badBand` as well, and every operand of it may be good. No reachable
state has an operation at that band; the statement lacks the premise that o.band is below it. -/
theorem not_slateOperations : ¬ Obligations.SlateOperations := by
  rintro ⟨commands, -⟩
  obtain ⟨idle, -⟩ := commands (.cvt 0 .main .fp32) 0 .main 0x06 .fp32 .fp32 .fp32 lastBandState (by simp [SlateCommand])
  obtain ⟨-, head⟩ := idle rfl
  obtain ⟨o, v, band, bad, runs⟩ := lastBand_written
  obtain ⟨t, ends, -, halts, -⟩ := (head lastBandOp o v rfl rfl rfl band).1 bad
  have run : slateRun 0 slateSpan lastBandState = t := Host.Outcome.next.inj (exec_cvt_lastBand.symm.trans ends)
  have halt := (slateRun_bad_halt (n := 8191) rfl band bad).trans runs
  rw [show 8191 + 1 = slateSpan from rfl, run] at halt
  exact halts halt

end Sys2Proof.Machine
end

