-- ==== Sys2Proof/Proofs/Pacing.lean ====
section
/-!
PROOFS. Proofs/Pacing.lean: what the passing of buffers and signals leaves of a Board's fetch runs (R115, R121): a fill under way stays
under way, and while no run has a fill to start, runs and buffers stay as they are (`Board.Paced`).
-/
-- One proof after another: in parallel, behind the tests' long evaluations, they ask for too many threads' stacks.
set_option Elab.async false

namespace Sys2Proof.Machine

/-! ### The relation -/

/-- The fills under way in x are under way in y; and where no run of x has a fill to start, y has the runs and the buffers of x. -/
structure Board.Paced (x y : Board) : Prop where
  going : ∀ r ∈ x.fetches, ∃ q ∈ y.fetches, q.link = r.link ∧ ∀ g ∈ r.going, g ∈ q.going
  idle : (∀ r ∈ x.fetches, r.more = false) → y.fetches = x.fetches ∧ y.bufs = x.bufs

/-- A Board's runs and buffers of t are those of s, further on. -/
structure Paced (b : Nat) (s t : State) : Prop where
  board : (s.board b).Paced (t.board b)

section
variable {x y z : Board}

/-- An update of other fields. -/
theorem Board.Paced.upd (fetches : y.fetches = x.fetches := by rfl) (bufs : y.bufs = x.bufs := by rfl) : x.Paced y :=
  ⟨fun r h => ⟨r, fetches ▸ h, rfl, fun _ h => h⟩, fun _ => ⟨fetches, bufs⟩⟩

theorem Board.Paced.refl (x : Board) : x.Paced x := .upd

theorem Board.Paced.trans (h : x.Paced y) (k : y.Paced z) : x.Paced z where
  going r hr := by
    obtain ⟨q, hq, link, sub⟩ := h.going r hr
    obtain ⟨p, hp, link', sub'⟩ := k.going q hq
    exact ⟨p, hp, link'.trans link, fun g hg => sub' g (sub g hg)⟩
  idle none := by
    obtain ⟨runs, bufs⟩ := h.idle none
    obtain ⟨runs', bufs'⟩ := k.idle (runs ▸ none)
    exact ⟨runs'.trans runs, bufs'.trans bufs⟩

theorem Board.Paced.ite {c : Prop} [Decidable c] (hy : x.Paced y) (hz : x.Paced z) : x.Paced (if c then y else z) := by
  split
  · exact hy
  · exact hz

/-- Where a run has a fill to start, only the fills under way count. -/
theorem Board.Paced.of_more {r : FetchRun} (mem : r ∈ x.fetches) (more : r.more = true)
    (going : ∀ r ∈ x.fetches, ∃ q ∈ y.fetches, q.link = r.link ∧ ∀ g ∈ r.going, g ∈ q.going) : x.Paced y :=
  ⟨going, fun none => by rw [none r mem] at more; cases more⟩

/-- A run replaced by itself with more fills under way. -/
theorem Board.setRun_going (x : Board) {old new : FetchRun} (link : new.link = old.link) (sub : ∀ g ∈ old.going, g ∈ new.going) :
    ∀ r ∈ x.fetches, ∃ q ∈ (x.setRun old new).fetches, q.link = r.link ∧ ∀ g ∈ r.going, g ∈ q.going := fun r hr => by
  by_cases e : r = old
  · exact ⟨new, List.mem_map.2 ⟨r, hr, by simp [e]⟩, by rw [e]; exact link, by rw [e]; exact sub⟩
  · exact ⟨r, List.mem_map.2 ⟨r, hr, by simp [e]⟩, rfl, fun _ h => h⟩

end

section
variable {b : Nat} {r s t u : State}

/-- An update that leaves the Board. -/
theorem Paced.same (board : t.board b = s.board b := by rfl) : Paced b s t := ⟨board ▸ .refl _⟩

theorem Paced.refl (s : State) : Paced b s s := .same

theorem Paced.trans (h : Paced b r s) (k : Paced b s t) : Paced b r t := ⟨h.board.trans k.board⟩

/-- Two steps, the later one named first. -/
theorem Paced.after (k : Paced b s t) (h : Paced b r s) : Paced b r t := h.trans k

theorem Paced.ite {c : Prop} [Decidable c] (ht : Paced b s t) (hu : Paced b s u) : Paced b s (if c then t else u) := by
  split
  · exact ht
  · exact hu

theorem paced_forEach {α : Type} (l : List α) (f : α → State → State) (h : ∀ a s, Paced b s (f a s)) (s : State) :
    Paced b s (forEach l f s) := by
  unfold forEach
  induction l generalizing s with
  | nil => exact .refl s
  | cons a l ih => exact (h a s).trans (ih (f a s))

theorem paced_modBoard (b : Nat) (f : Board → Board) (s : State) (h : ∀ x : Board, x.Paced (f x) := by exact fun _ => .upd) :
    Paced b s (s.modBoard b f) := by
  refine ⟨?_⟩
  rw [State.modBoard_board]
  exact h _

theorem paced_wr (b : Nat) (r : Reg) (v i : Nat) (s : State) : Paced b s (s.wr r v i) := .same

theorem Board.paced_initSems (x : Board) (l : Link) : x.Paced (x.initSems l) := by
  have full : x.Paced (if l.remoteProducer then x.setBsem l.fullSem 0 else if l.remoteConsumer then x else x.setSem l.fullSem 0) :=
    .ite .upd (.ite (.refl x) .upd)
  exact full.trans (.ite .upd (.ite (.refl _) .upd))

theorem Board.paced_settleLink (x : Board) (i : Nat) : x.Paced (x.settleLink i) :=
  .ite (.trans .upd (Board.paced_initSems ..)) (.ite .upd (.refl x))

theorem paced_settleLink (b l : Nat) (s : State) : Paced b s (s.modBoard b (fun x => x.settleLink l)) :=
  paced_modBoard b _ s (fun x => x.paced_settleLink l)

end

/-! ### Fills that start (R115) -/

theorem Board.activate_fetches (x : Board) (i e : Nat) : (x.activate i e).fetches = x.fetches := by
  unfold Board.activate Board.initSems
  dsimp only
  repeat' split
  all_goals rfl

/-- The producer's next buffer is taken on the Board alone, and no run changes. -/
theorem takeEmpty_fetches {b l e h : Nat} {s t : State} (taken : takeEmpty b l e s = some (h, t)) :
    (t.board b).fetches = (s.board b).fetches := by
  have fill : ∀ y : Board, ((touch (s.setBoard b (y.beginFill l h e)) b).board b).fetches = y.fetches := fun y => by
    simp [touch, Board.beginFill, Board.setBuf, Board.setLink]
  unfold takeEmpty at taken
  dsimp only at taken
  split at taken
  · cases taken
  · split at taken
    · split at taken
      · cases taken
      · cases taken
        refine (fill _).trans ?_
        unfold Board.setLinkSem
        split <;> exact Board.activate_fetches ..
    · split at taken
      · split at taken
        · cases taken
          exact (fill _).trans (Board.activate_fetches ..)
        · cases taken
      · cases taken

theorem paced_sendReads (b : Nat) (r : FetchRun) (fill : Nat) (s : State) : Paced b s (sendReads b r fill s) :=
  paced_forEach _ _ (fun _ s => paced_forEach _ _ (fun _ _ => .same) s) s

/-- Fills that start leave those under way; without a run that has one to start nothing happens. -/
theorem paced_startFills (b l n : Nat) (s : State) : Paced b s (startFills b l n s) := by
  induction n generalizing s with
  | zero => exact .refl _
  | succ n ih =>
    unfold startFills
    split
    · exact .refl _
    · rename_i r issuing
      obtain ⟨mem, some_⟩ : r ∈ (s.board b).fetches ∧ r.more = true := by
        rw [Board.issuing] at issuing
        have found := List.find?_some issuing
        simp only [Bool.and_eq_true] at found
        exact ⟨List.mem_of_find?_eq_some issuing, found.2⟩
      split
      · exact .refl _
      · rename_i i u taken
        -- the fill that starts joins those of its run
        have started : ∀ (q : FetchRun) (h : Nat) (f : Board → Buf) (w : State), q.link = r.link → (∀ g ∈ r.going, g ∈ q.going) →
            (w.board b).fetches = (s.board b).fetches → Paced b s (w.modBoard b (fun x => (x.setRun r q).setBuf h (f x))) :=
          fun q h f w link sub same => by
            refine ⟨.of_more mem some_ ?_⟩
            rw [← same, State.modBoard_board]
            exact Board.setRun_going _ link sub
        dsimp only
        split
        · refine .after (ih _) (started _ _ _ _ rfl ?_ (takeEmpty_fetches taken))
          exact fun g hg => List.mem_append_left _ hg
        · refine .after (ih _) (.after (.ite (paced_sendReads ..) (.refl _)) (started _ _ _ _ rfl ?_ ?_))
          · exact fun g hg => List.mem_append_left _ hg
          · split
            · exact (congrArg Board.fetches (State.modBoard_board ..)).trans (takeEmpty_fetches taken)
            · exact takeEmpty_fetches taken

/-! ### Signals, beads and full buffers -/

theorem paced_touch (s : State) (b : Nat) : Paced b s (touch s b) := paced_modBoard b _ s

theorem paced_resumeFills (b : Nat) (beam : Bool) (sem : Nat) (s : State) : Paced b s (resumeFills b beam sem s) :=
  paced_forEach _ _ (fun l u => paced_startFills b l 64 u) s

theorem paced_haltAll (b : Nat) (f : Flt) (s : State) : Paced b s (haltAll b f s) := by
  unfold haltAll haltBoard
  exact .after (paced_modBoard b _ _) (paced_modBoard b _ s)

theorem paced_signalSem (b k n : Nat) (s : State) : Paced b s (signalSem b k n s) := by
  rcases signalSem_cases b k n s with ⟨-, h⟩ | ⟨-, h⟩ | ⟨-, h⟩ <;> rw [h]
  · exact .refl _
  · exact paced_haltAll ..
  · exact .after (paced_resumeFills ..) (.after (paced_touch ..) (paced_modBoard b _ s))

theorem paced_signalEntry (b k n e : Nat) (s : State) : Paced b s (signalEntry b k n e s) := by
  unfold signalEntry
  split
  · exact .ite (.refl _) .same
  · exact .refl _

theorem paced_sendSig (b e : Nat) (g : SemSig) (s : State) : Paced b s (sendSig b e g s) :=
  .ite (paced_signalSem ..) (paced_signalEntry ..)

theorem paced_endBeads (b : Nat) (p : Bead → Bool) (flags : Nat) (s : State) : Paced b s (endBeads b p flags s) := by
  have counted : ∀ (u : State) (r : Reg) (i : Nat), Paced b u (u.bumpVer r i) := fun _ _ _ => .same
  refine (paced_modBoard b _ s).trans (paced_forEach _ _ (fun k u => ?_) _)
  exact .ite .same (.after (counted ..) (.after (paced_wr ..) (paced_modBoard b _ u)))

theorem paced_settleWork (b : Nat) (s : State) : Paced b s (settleWork b s) := by
  unfold settleWork settleSigs
  exact .after (paced_endBeads ..) (.after (paced_forEach _ _ (fun _ _ => paced_sendSig ..) _) (paced_modBoard b _ s))

theorem paced_noteSquash (b : Nat) (s : State) : Paced b s (noteSquash b s) := .ite (.after (paced_wr ..) (paced_modBoard b _ s)) (.refl _)

theorem paced_passFull (b l n : Nat) (s : State) : Paced b s (passFull b l n s) := by
  induction n generalizing s with
  | zero => exact .refl _
  | succ n ih =>
    unfold passFull
    dsimp only
    split
    · exact .refl _
    · exact .ite (.refl _) (.after (ih _)
        (.after (.ite (paced_touch ..) (.ite (paced_signalEntry ..) (paced_signalSem ..))) (paced_modBoard b _ s)))

/-- The end of runs drops those that have no fill to start and none under way, and paces the rest. -/
theorem paced_endRuns (b : Nat) (s : State) :
    Paced b (s.modBoard b (fun x => { x with fetches := x.fetches.filter (fun r => r.more || !r.going.isEmpty) })) (endRuns b s) := by
  have release : ∀ d m off size u, Paced b u (stashRelease b d m off size u) := fun d m off size u => by
    unfold stashRelease
    split
    · exact .refl _
    · exact .ite (.refl _) .same
  unfold endRuns
  refine .after (paced_settleWork ..) (.after (paced_noteSquash ..) ?_)
  refine .after (paced_forEach _ _ (fun l u => paced_settleLink b l u) _) (paced_forEach _ _ (fun r u => ?_) _)
  split
  · exact .ite (release ..) (.refl _)
  · exact .ite (.refl _) (paced_modBoard b _ u)

end Sys2Proof.Machine
end

