-- ==== Sys2Proof/Proofs/Landings.lean ====
section
/-!
PROOFS. Proofs/Landings.lean: a line that lands in the buffer of its fill (R115, R121, R124): its bytes are written there and nowhere else,
it is counted among the fill's lines, and the last one makes the buffer FULL.
-/
-- One proof after another: in parallel, behind the tests' long evaluations, they ask for too many threads' stacks.
set_option Elab.async false

namespace Sys2Proof.Machine

/-! ### What moves no byte -/

/-- t has the memories, the device and the job of s. -/
structure Unmoved (s t : State) : Prop where
  store : t.store = s.store
  dram : t.dram = s.dram
  dev : t.dev = s.dev
  job : t.job = s.job

section
variable {r s t : State}

theorem Unmoved.refl (s : State) : Unmoved s s := ⟨rfl, rfl, rfl, rfl⟩

theorem Unmoved.trans (h : Unmoved r s) (k : Unmoved s t) : Unmoved r t :=
  ⟨k.store.trans h.store, k.dram.trans h.dram, k.dev.trans h.dev, k.job.trans h.job⟩

/-- Two steps, the later one named first. -/
theorem Unmoved.after (k : Unmoved s t) (h : Unmoved r s) : Unmoved r t := h.trans k

theorem unmoved_modBoard (b : Nat) (f : Board → Board) (s : State) : Unmoved s (s.modBoard b f) := ⟨rfl, rfl, rfl, rfl⟩

theorem Upkeep.unmoved (h : Upkeep s t) : Unmoved s t := by
  rw [h.frame]
  exact ⟨rfl, rfl, rfl, rfl⟩

theorem Releases.unmoved (h : Releases s t) : Unmoved s t := by
  rw [Upkeep.frame h]
  exact ⟨rfl, rfl, rfl, rfl⟩

theorem Probes.unmoved (h : Probes s t) : Unmoved s t := by
  unfold Probes at h
  rw [h]
  exact ⟨rfl, rfl, rfl, rfl⟩

theorem Noted.unmoved (h : Noted s t) : Unmoved s t := by
  rw [h.frame]
  exact ⟨rfl, rfl, rfl, rfl⟩

end

theorem upkeep_passFull (b l n : Nat) (s : State) : Upkeep s (passFull b l n s) := by
  induction n generalizing s with
  | zero => exact .refl s
  | succ n ih =>
    unfold passFull
    dsimp only
    split
    · exact .refl s
    · refine .ite (.refl s) (.after (ih _) (.after (.ite (upkeep_touch ..) (.ite (upkeep_signalEntry ..) (upkeep_signalSem ..))) ?_))
      exact upkeep_setBoard b .upd

/-- A full buffer that the store-out does not take is passed on, and no more. -/
theorem bufferFull_passes {b l : Nat} {s : State} (h : ((s.board b).link l).consumer ≠ 4) (i : Nat) :
    bufferFull b l i s = passFull b l 64 (s.modBoard b (fun x => x.setBuf i { x.buf i with state := 2 })) := by
  unfold bufferFull
  refine storeOut_other ?_ 64
  rw [(((still_modBoard b _ s).trans (still_passFull ..)).boards b).consumer l]
  exact h

theorem unmoved_endRuns (b : Nat) (s : State) : Unmoved s (endRuns b s) := (unmoved_modBoard b _ s).trans (endRuns_keeps b s).unmoved

/-! ### Reads and writes of a store, seen from its Board -/

/-- y is x but for its counters, and the marks and due tests of its store's words. -/
def Board.Scanned (x y : Board) : Prop :=
  y = { x with counters := y.counters, storeBad := y.storeBad, storeSoft := y.storeSoft, storeTests := y.storeTests }

/-- Each Board of t is that of s but for counters, and the marks and due tests of store words. -/
structure Scans (s t : State) : Prop where
  boards : ∀ c, (s.board c).Scanned (t.board c)

section
variable {r s t u : State}

theorem Scans.refl (s : State) : Scans s s := ⟨fun _ => rfl⟩

theorem Scans.trans (h : Scans r s) (k : Scans s t) : Scans r t := ⟨fun c => by
  have hc := h.boards c
  have kc := k.boards c
  unfold Board.Scanned at *
  rw [hc] at kc
  exact kc⟩

theorem Scans.ite {c : Prop} [Decidable c] (ht : Scans s t) (hu : Scans s u) : Scans s (if c then t else u) := by
  split
  · exact ht
  · exact hu

theorem scans_forEach {α : Type} (l : List α) (f : α → State → State) (h : ∀ a s, Scans s (f a s)) (s : State) : Scans s (forEach l f s) := by
  unfold forEach
  induction l generalizing s with
  | nil => exact .refl s
  | cons a l ih => exact (h a s).trans (ih (f a s))

theorem scans_modBoard (b : Nat) (f : Board → Board) (s : State) (h : ∀ x : Board, x.Scanned (f x) := by exact fun _ => rfl) :
    Scans s (s.modBoard b f) := ⟨fun c => by
  by_cases e : c = b
  · rw [e, State.modBoard_board]
    exact h _
  · rw [State.modBoard_board_of_ne _ _ _ _ e]
    rfl⟩

theorem Reports.scans (h : Reports s t) : Scans s t := ⟨fun c => by
  unfold Reports at h
  rw [h]
  rfl⟩

theorem scans_countEvent (b ev : Nat) (d f : Option Nat) (n : Nat) (s : State) : Scans s (countEvent b ev d f n s) := by
  unfold countEvent
  refine .ite (.refl s) (scans_forEach _ _ (fun k u => ?_) s)
  exact .ite (.trans (scans_modBoard b _ u) (.ite (reports_signal ..).scans (.refl _))) (.refl u)

theorem scans_boardWrite (b a : Nat) (bs : List Byte) (s : State) : Scans s (boardWrite b a bs s) := by
  have written : Scans s (s.storeWrite b a bs) := ⟨fun _ => rfl⟩
  unfold boardWrite putStore
  exact .trans (written.trans (scans_modBoard b _ _)) (scans_countEvent ..)

theorem scans_storeServed (b a n : Nat) (s : State) : Scans s (storeServed b a n s) := by
  have corrected : ∀ ws u, Scans u (correctWords b ws u) := fun ws u =>
    .trans (scans_modBoard b _ u) (scans_forEach _ _ (fun w v => .trans (reports_bump ..).scans (scans_modBoard b _ _)) _)
  exact (scans_countEvent ..).trans (.ite (.refl _) (corrected ..))

end

section
variable {s t : State} (h : Scans s t) (c : Nat)
include h

theorem Scans.fetches : (t.board c).fetches = (s.board c).fetches := by rw [h.boards c]
theorem Scans.bufs : (t.board c).bufs = (s.board c).bufs := by rw [h.boards c]
theorem Scans.links : (t.board c).links = (s.board c).links := by rw [h.boards c]

end

theorem awaits_scans {b link fill line : Nat} {q : FetchRun} {g : Filling} {s t : State} (h : Awaits b link fill line q g s)
    (k : Scans s t) : Awaits b link fill line q g t := by
  unfold Awaits Board.buf Board.link at *
  rw [k.fetches, k.bufs, k.links]
  exact h

/-! ### One line -/

/-- A fill with one more line ended. -/
def Filling.land (g : Filling) (line : Nat) (data : Option (List Byte)) : Filling :=
  { g with landed := line :: g.landed, failed := g.failed || data.isNone }

/-- A run with one more line of a fill ended; the fill leaves it with its last line. -/
def FetchRun.land (r : FetchRun) (g : Filling) (line : Nat) (data : Option (List Byte)) : FetchRun :=
  { r with going := if g.lines ≤ g.landed.length + 1 then r.going.filter (· != g)
                    else r.going.map (fun f => if f == g then g.land line data else f) }

/-- The bytes of a line are in its buffer. -/
def lineStored (b : Nat) (r : FetchRun) (g : Filling) (line : Nat) (bs : List Byte) (s : State) : State :=
  boardWrite b (((s.board b).buf g.handle).base * 256 + 64 * line) (padTo 64 bs)
    (if !r.squashed then countEvent b 0x13 (some r.work.domain) none 1 s else s)

/-- The line is counted among those of its fill. -/
def lineCounted (b : Nat) (r : FetchRun) (g : Filling) (line : Nat) (bs : List Byte) (s : State) : State :=
  (lineStored b r g line bs s).modBoard b (fun x => (x.setRun r (r.land g line (some bs))).setBuf g.handle
    { (s.board b).buf g.handle with outstanding := min 4095 (g.lines - (g.landed.length + 1)) })

section
variable {b : Nat} {r : FetchRun} {g : Filling} {line : Nat} {bs : List Byte} {s : State}

/-- The state after a line of a fill, before runs end: its buffer is free again in quarantine, unfilled after an error, or FULL. -/
def lineFilled (b : Nat) (r : FetchRun) (g : Filling) (u : Buf) (v : State) : State :=
  if u.state = 4 then v.modBoard b (fun x => (x.setBuf g.handle { x.buf g.handle with state := 0 }).settleLink r.link)
  else if g.failed then v
  else bufferFull b r.link g.handle v

theorem landLine_eq (lands : r.squashed = true → ((s.board b).buf g.handle).state = 4) : landLine b r g line (some bs) s
    = endRuns b (if g.lines ≤ g.landed.length + 1 then
        lineFilled b r g ((s.board b).buf g.handle) (lineCounted b r g line bs s) else lineCounted b r g line bs s) := by
  have written : (r.squashed && ((s.board b).buf g.handle).state != 4) = false := by
    cases e : r.squashed
    · rfl
    · simp [lands e]
  unfold landLine lineFilled lineCounted lineStored FetchRun.land Filling.land
  simp only [written, Option.isSome_some, Bool.true_and, Bool.false_eq_true, if_false, Option.isNone_some, Bool.or_false, List.length_cons,
    decide_eq_true_eq, Bool.not_eq_eq_eq_not, Bool.not_true, decide_eq_false_iff_not]
  by_cases last : g.lines ≤ g.landed.length + 1
  · simp only [last, not_true_eq_false, if_true, if_false]
  · simp only [last, not_false_eq_true, if_true, if_false]

theorem scans_lineStored (b : Nat) (r : FetchRun) (g : Filling) (line : Nat) (bs : List Byte) (s : State) :
    Scans s (lineStored b r g line bs s) := .trans (.ite (scans_countEvent ..) (.refl s)) (scans_boardWrite ..)

theorem lineStored_unmoved : Unmoved (s.storeWrite b (((s.board b).buf g.handle).base * 256 + 64 * line) (padTo 64 bs))
    (lineStored b r g line bs s) := by
  have counted : Unmoved s (if !r.squashed then countEvent b 0x13 (some r.work.domain) none 1 s else s) := by
    split
    · exact (probes_countEvent ..).unmoved
    · exact .refl s
  have written := (boardWrite_frame b (((s.board b).buf g.handle).base * 256 + 64 * line) (padTo 64 bs)
    (if !r.squashed then countEvent b 0x13 (some r.work.domain) none 1 s else s)).unmoved
  exact ⟨written.store.trans (congrArg (fun m : Mem => m.write _ _) counted.store), written.dram.trans counted.dram,
    written.dev.trans counted.dev, written.job.trans counted.job⟩

section
variable (h : Awaits b link fill line r g s)
include h

/-- The runs of the Board once the line is counted: the one that awaited it, a line further. -/
theorem lineCounted_fetches : ((lineCounted b r g line bs s).board b).fetches = [r.land g line (some bs)] := by
  obtain ⟨runs, -⟩ := awaits_scans h (scans_lineStored b r g line bs s)
  rw [lineCounted, State.modBoard_board]
  simp only [Board.setBuf, Board.setRun, runs, List.map_cons, List.map_nil, beq_self_eq_true, if_true]

theorem lineCounted_consumer : ((((lineCounted b r g line bs s).board b).link r.link).consumer ≠ 4) := by
  obtain ⟨-, same, -, -, -, -, -, consumer⟩ := awaits_scans h (scans_lineStored b r g line bs s)
  rw [lineCounted, State.modBoard_board, same]
  exact consumer

end

theorem lineCounted_unmoved : Unmoved (s.storeWrite b (((s.board b).buf g.handle).base * 256 + 64 * line) (padTo 64 bs))
    (lineCounted b r g line bs s) := lineStored_unmoved.trans (unmoved_modBoard ..)

theorem lineFilled_unmoved {v : State} (consumer : ((v.board b).link r.link).consumer ≠ 4) (u : Buf) :
    Unmoved v (lineFilled b r g u v) := by
  unfold lineFilled
  split
  · exact unmoved_modBoard ..
  · split
    · exact .refl v
    · rw [bufferFull_passes consumer]
      exact (unmoved_modBoard ..).trans (upkeep_passFull ..).unmoved

/-- While the fill awaits further lines it stays under way. -/
theorem lineCounted_stays (h : Awaits b link fill line r g s) (more : g.landed.length + 1 < g.lines) :
    ∃ q ∈ ((endRuns b (lineCounted b r g line bs s)).board b).fetches, q.link = r.link ∧ ∃ f ∈ q.going, f.fill = g.fill ∧ f.landed = line :: g.landed := by
  have going : (r.land g line (some bs)).going = [g.land line (some bs)] := by
    obtain ⟨-, -, going, -⟩ := h
    simp [FetchRun.land, going, Nat.not_le.2 more]
  obtain ⟨q, mem, link, sub⟩ := (paced_endRuns b (lineCounted b r g line bs s)).board.going (r.land g line (some bs)) (by
    rw [State.modBoard_board, lineCounted_fetches h]
    simp [going])
  exact ⟨q, mem, link, g.land line (some bs), sub _ (by simp [going]), rfl, rfl⟩

/-- With its last line a buffer is FULL; the run, without a fill to start, takes no other. -/
theorem lineFilled_full (h : Awaits b link fill line r g s) (last : g.lines ≤ g.landed.length + 1) (fine : g.failed = false)
    (own : ((s.board b).buf g.handle).state ≠ 4) (done : r.more = false) :
    (((endRuns b (lineFilled b r g ((s.board b).buf g.handle) (lineCounted b r g line bs s))).board b).buf g.handle).state = 2 := by
  have going : (r.land g line (some bs)).going = [] := by
    obtain ⟨-, -, going, -⟩ := h
    simp [FetchRun.land, going, last]
  have more : (r.land g line (some bs)).more = false := done
  have runs := lineCounted_fetches (bs := bs) h
  rw [lineFilled, if_neg own, fine, if_neg (by simp), bufferFull_passes (lineCounted_consumer h)]
  generalize lineCounted b r g line bs s = v at runs ⊢
  -- the buffer is full, and the run has no fill to start
  have passed := (paced_passFull b r.link 64 (v.modBoard b (fun x => x.setBuf g.handle { x.buf g.handle with state := 2 }))).board.idle
  rw [State.modBoard_board] at passed
  obtain ⟨runs', bufs⟩ := passed (by simp [Board.setBuf, runs, more])
  generalize passFull b r.link 64 _ = w at runs' bufs ⊢
  have ended := (paced_endRuns b w).board.idle
  rw [State.modBoard_board, runs'] at ended
  obtain ⟨-, bufs'⟩ := ended (by simp [Board.setBuf, runs, more])
  rw [Board.buf, bufs']
  dsimp only
  rw [bufs]
  simp [Board.setBuf]

/-- A line that a fill awaits lands (R115). -/
theorem landLine_lands (h : Awaits b link fill line r g s) (bs : List Byte) : LineLanded b r g line bs s (landLine b r g line (some bs) s) := by
  obtain ⟨-, -, -, -, -, -, quarantined, -⟩ := id h
  rw [landLine_eq quarantined]
  have moved : Unmoved (s.storeWrite b (((s.board b).buf g.handle).base * 256 + 64 * line) (padTo 64 bs))
      (endRuns b (if g.lines ≤ g.landed.length + 1 then
        lineFilled b r g ((s.board b).buf g.handle) (lineCounted b r g line bs s) else lineCounted b r g line bs s)) := by
    refine (lineCounted_unmoved (r := r)).trans (.after (unmoved_endRuns ..) ?_)
    split
    · exact lineFilled_unmoved (lineCounted_consumer h) _
    · exact .refl _
  refine ⟨?_, fun more => ?_, fun last fine own done => ?_, moved.dram, moved.dev, moved.job⟩
  · rw [moved.store]
    exact stored_write ..
  · rw [if_neg (Nat.not_le.2 more)]
    exact lineCounted_stays h more
  · rw [if_pos last]
    exact lineFilled_full h last fine own done

end

end Sys2Proof.Machine
end

