-- ==== Sys2Proof/Proofs/FetchedLines.lean ====
section
/-!
PROOFS. Proofs/FetchedLines.lean: where a fetched line comes from and how it ends (R16, R100, R138, R142, R164, R171, R255), and re-arms that
were held (R121). And the statement on fetched lines.
-/
-- One proof after another: in parallel, behind the tests' long evaluations, they ask for too many threads' stacks.
set_option Elab.async false

namespace Sys2Proof.Machine

/-! ### The end of a line's read -/

theorem Noted.scans {s t : State} (h : Noted s t) : Scans s t := ⟨fun c => by rw [h.board]; rfl⟩

/-- A stack holds a read once. -/
theorem heldOnce (who : ReadFor) (dpa lines tag : Nat) (s : State) :
    let t := if (s.stack (stackOf dpa)).reads.any (fun h => h.who == who) then s else holdRead who dpa lines tag s
    (∃ h ∈ (t.stack (stackOf dpa)).reads, h.who = who) ∧ t = { s with stks := t.stks } := by
  dsimp only
  split
  · rename_i held
    simp only [List.any_eq_true, beq_iff_eq] at held
    exact ⟨held, rfl⟩
  · refine ⟨?_, rfl⟩
    rw [holdRead, State.modStack_stack]
    exact ⟨_, List.mem_append_right _ (List.mem_singleton_self _), rfl⟩

/-- A line that landed after its read was served has landed. -/
theorem lineLanded_served {b line : Nat} {q : FetchRun} {g : Filling} {bs : List Byte} {s u t : State}
    (h : LineLanded b q g line bs u t) (scans : Scans s u) (unmoved : Unmoved s u) : LineLanded b q g line bs s t := by
  unfold LineLanded Board.buf at *
  rw [scans.bufs, unmoved.store, unmoved.dram, unmoved.dev, unmoved.job] at h
  exact h

section
variable {b : BoardNo} {link fill line : Nat} {q : FetchRun} {g : Filling} {s : State} {c : Instr}
  (h : Awaits b.val link fill line q g s)
include h

theorem landStackRead_ends {dpa : Nat} {r : LineRead} (e : exec c s = .next (landStackRead b.val q g line dpa r s)) :
    StackLineEnds b q g line dpa c r s := by
  refine ⟨fun a bs hr => ?_, fun hr => ?_, fun live => ⟨fun k hr => ?_, fun hr => ?_, fun a hr => ?_⟩⟩ <;>
    (subst hr; refine ⟨_, e, ?_⟩)
  · have served := noted_boardServed b.val a 64 s
    exact lineLanded_served (landLine_lands (awaits_scans h served.scans) bs) served.scans served.unmoved
  · exact heldOnce (if q.stash.isSome then .stash b.val q.link g.fill line else .fetch b.val q.link g.fill line) dpa 1 q.work.tag s
  · simp only [landStackRead, live, Bool.false_eq_true, if_false]
    exact haltWork_haltsWith ..
  · simp only [landStackRead, live, Bool.false_eq_true, if_false]
    exact haltWork_haltsWith ..
  · simp only [landStackRead, live, Bool.false_eq_true, if_false]
    exact haltAll_haltsWith ..

theorem landStoreRead_ends {owner a : Nat} (e : exec c s = .next (landStoreRead b.val q g line owner a s)) :
    StoreLineEnds b q g line owner a c s := by
  refine ⟨fun up fine => ⟨_, e, ?_⟩, fun w up bad => ⟨_, e, ?_⟩, fun down live => ⟨_, e, ?_⟩⟩
  · have scans := scans_storeServed owner a 64 s
    have still := still_storeServed owner a 64 s
    have same := sameSource_storeServed (b := b.val) owner a 64 s
    simp only [landStoreRead, up, fine, Bool.not_true, Bool.false_eq_true, if_false]
    exact lineLanded_served (landLine_lands (awaits_scans h scans) _) scans ⟨still.store, still.dram, still.dev, same.job⟩
  · simp only [landStoreRead, up, bad, Bool.not_true, Bool.false_eq_true, if_false]
    exact storeUe_haltsWith ..
  · simp only [landStoreRead, down, live, Bool.not_false, Bool.false_eq_true, if_true, if_false]
    exact haltWork_haltsWith ..

/-- The run that awaits the line is found, where it is of the kind asked for. -/
theorem awaits_awaited (ok : FetchRun → Bool) :
    (s.board b.val).awaited link fill line ok = if ok q = true then some (q, g) else none := by
  obtain ⟨runs, same, going, own, within, waits, -⟩ := h
  unfold Board.awaited
  by_cases hq : ok q = true
  · simp [runs, same, going, own, within, waits, hq]
  · simp [runs, hq]

end

/-! ### Where a line comes from -/

section
variable {b : BoardNo} {l : LinkNo} {fill line : Nat} {q : FetchRun} {g : Filling} {s : State}
  (h : Awaits b.val l.val fill line q g s)
include h

section
variable (ok : s.boardOk b.val = true)
include ok

/-- A line of a run of the stash. -/
theorem exec_fetchLineLand_stash {k : StashRd} (stash : q.stash = some k) : exec (.fetchLineLand b l fill line) s
    = .next (if k.region then landStackRead b.val q g line (g.base + 64 * line) (plainLine s (g.base + 64 * line)) s
        else landStoreRead b.val q g line b.val (g.base + 64 * line) s) := by
  show execFetchLineLand b l fill line s = _
  simp only [execFetchLineLand, awaits_awaited h, if_true, ok, Bool.not_true, Bool.false_eq_true, if_false, stash]
  cases k.region <;> rfl

/-- A line of another run: of a stack, of the Board's own store, of a store of the module, or of a payload. -/
theorem exec_fetchLineLand_plain (stash : q.stash = none) :
    let c := Instr.fetchLineLand b l fill line
    let a := q.runStart fill (line / max 1 q.run) + line % max 1 q.run
    (q.src = 0 → exec c s = .next (if s.isHere q.fabric then
        landStackRead b.val q g line (64 * a) (fetchStackLine s (64 * a) q.work.tag) s else s))
      ∧ (q.src = 1 → exec c s = .next (landStoreRead b.val q g line b.val (64 * a) s))
      ∧ (q.src = 2 → exec c s = .next (if s.isHere q.fabric then landStoreRead b.val q g line (q.fabric % 16) (64 * a) s else s))
      ∧ (q.src = 3 → payloadRec s q.work = none → exec c s = .next s)
      ∧ (∀ p, q.src = 3 → payloadRec s q.work = some p → exec c s = .next (
          if ceilDiv (recPayloadBytes p) 64 ≤ a then landLine b.val q g line (some []) s
          else if recKind p = 1 then landStackRead b.val q g line (recPayloadAddr p + 64 * a) (plainLine s (recPayloadAddr p + 64 * a)) s
          else s)) := by
  have awaited := awaits_awaited h (fun _ => true)
  refine ⟨fun src => ?_, fun src => ?_, fun src => ?_, fun src rec => ?_, fun p src rec => ?_⟩ <;>
    (show execFetchLineLand b l fill line s = _
     simp only [execFetchLineLand, awaited, if_true, ok, Bool.not_true, Bool.false_eq_true, if_false, stash, src])
  · cases s.isHere q.fabric <;> rfl
  · rfl
  · cases s.isHere q.fabric <;> rfl
  · simp [rec]
  · simp only [rec, (by decide : ¬ (3 : Nat) = 0), (by decide : ¬ (3 : Nat) = 1), (by decide : ¬ (3 : Nat) = 2), if_false]
    by_cases past : ceilDiv (recPayloadBytes p) 64 ≤ q.runStart fill (line / max 1 q.run) + line % max 1 q.run
    · simp only [past, if_true]
    · by_cases stack : recKind p = 1 <;> simp only [past, stack, if_true, if_false]

end

/-- PAYLOAD_READ serves runs of payload in host memory alone. -/
theorem exec_payloadRead_other (other : q.src ≠ 3 ∨ q.stash.isSome = true) (data : Option (List Byte)) :
    exec (.payloadRead b l fill line data) s = .next s := by
  show execPayloadRead b l fill line data s = _
  have no : ¬ (q.src == 3 && q.stash.isNone) = true := by
    rcases other with src | stash
    · simp [src]
    · obtain ⟨k, stash⟩ := Option.isSome_iff_exists.1 stash
      simp [stash]
  simp only [execPayloadRead, awaits_awaited h, no, Bool.false_eq_true, if_false]

section
variable (stash : q.stash = none) (src : q.src = 3)
include stash src

theorem exec_payloadRead_unknown (rec : payloadRec s q.work = none) (data : Option (List Byte)) :
    exec (.payloadRead b l fill line data) s = .next s := by
  show execPayloadRead b l fill line data s = _
  simp [execPayloadRead, awaits_awaited h, stash, src, rec]

variable {p : BitVec 512} (rec : payloadRec s q.work = some p)
include rec

/-- A line of payload in a stack, or past its end, does not come from the host. -/
theorem exec_payloadRead_elsewhere (where_ : recKind p = 1
      ∨ ceilDiv (recPayloadBytes p) 64 ≤ q.runStart fill (line / max 1 q.run) + line % max 1 q.run) (data : Option (List Byte)) :
    exec (.payloadRead b l fill line data) s = .next s := by
  show execPayloadRead b l fill line data s = _
  have elsewhere : (decide (recKind p = 1) || !s.boardOk b.val
      || decide (ceilDiv (recPayloadBytes p) 64 ≤ q.runStart fill (line / max 1 q.run) + line % max 1 q.run)) = true := by
    rcases where_ with kind | past
    · simp [kind]
    · simp [past]
  simp [execPayloadRead, awaits_awaited h, stash, src, rec, elsewhere]

/-- Another line comes from the host, or its read fails. -/
theorem exec_payloadRead_host (ok : s.boardOk b.val = true) (kind : recKind p ≠ 1)
    (within : q.runStart fill (line / max 1 q.run) + line % max 1 q.run < ceilDiv (recPayloadBytes p) 64) :
    (∀ bs, exec (.payloadRead b l fill line (some bs)) s = .next (landLine b.val q g line (some bs) s))
      ∧ (q.squashed = false → ∃ t, exec (.payloadRead b l fill line none) s = .next t ∧ HaltsWith b.val 0x0704 t) := by
  have awaited := awaits_awaited h (fun r => r.src == 3 && r.stash.isNone)
  simp only [src, stash, beq_self_eq_true, Option.isNone_none, Bool.and_self, if_true] at awaited
  have here : (decide (recKind p = 1) || !s.boardOk b.val
      || decide (ceilDiv (recPayloadBytes p) 64 ≤ q.runStart fill (line / max 1 q.run) + line % max 1 q.run)) = false := by
    simp [kind, ok, Nat.not_le.2 within]
  refine ⟨fun bs => ?_, fun live => ?_⟩
  · show execPayloadRead b l fill line (some bs) s = _
    simp only [execPayloadRead, awaited, rec, here, Bool.false_eq_true, if_false]
  · refine ⟨haltWork b.val q.work { code := 0x0704, kind := 1, unit := b.val, user := recUser p, detail := packAt [(0, 4, recSeq p)] }
      (landLine b.val q g line none s), ?_, haltWork_haltsWith ..⟩
    show execPayloadRead b l fill line none s = _
    simp only [execPayloadRead, awaited, rec, here, live, Bool.false_eq_true, if_false]

end

end

/-! ### Lines that nothing awaits, and re-arms -/

theorem awaited_of_none {x : Board} {link fill line : Nat} (none_ : x.awaited link fill line (fun _ => true) = none) (ok : FetchRun → Bool) :
    x.awaited link fill line ok = none := by
  unfold Board.awaited at *
  split at none_
  · rename_i r found
    have holds := List.find?_some found
    simp only [Bool.and_eq_true, List.any_eq_true] at holds
    obtain ⟨-, g, mem, ⟨own, -⟩, -⟩ := holds
    simp only [Option.map_eq_none_iff, List.find?_eq_none] at none_
    exact absurd own (none_ g mem)
  · rename_i found
    rw [List.find?_eq_none] at found
    rw [List.find?_eq_none.2 (fun r mem holds => found r mem ?_)]
    simp only [Bool.and_eq_true] at holds ⊢
    exact ⟨⟨holds.1.1, trivial⟩, holds.2⟩

section
variable {b : BoardNo} {l : LinkNo} {fill line : Nat} {s : State}

theorem exec_fetchedLine_nothing (nothing : s.boardOk b.val = false ∨ (s.board b.val).awaited l.val fill line (fun _ => true) = none)
    (data : Option (List Byte)) :
    exec (.fetchLineLand b l fill line) s = .next s ∧ exec (.payloadRead b l fill line data) s = .next s := by
  show execFetchLineLand b l fill line s = _ ∧ execPayloadRead b l fill line data s = _
  unfold execFetchLineLand execPayloadRead
  dsimp only
  rcases nothing with out | none_
  · simp only [out, Bool.not_false, if_true, Bool.or_true, Bool.true_or]
    constructor
    · split <;> rfl
    · split
      · rfl
      · split <;> rfl
  · rw [none_, awaited_of_none none_]
    exact ⟨rfl, rfl⟩

/-- A re-arm takes effect: the run, further on, is among those of its link, and no byte moves. -/
theorem exec_rearm_starts {r : FetchRun} (held : (s.board b.val).rearms.find? (fun r => r.link == l.val) = some r)
    (idle : (s.board b.val).issuing l.val = none) : ∃ t, exec (.rearmTakeEffect b l) s = .next t ∧ r ∉ (t.board b.val).rearms
      ∧ t.store = s.store ∧ (r.more = true → ∃ q ∈ (t.board b.val).fetches, r.Grown q) := by
  let u := s.modBoard b.val (fun x => { x with rearms := x.rearms.filter (· != r), fetches := x.fetches ++ [r] })
  have started := upkeep_startFills b.val l.val 64 u
  have ended := endRuns_keeps b.val (startFills b.val l.val 64 u)
  have before := started.boards b.val
  have after := ended.boards b.val
  rw [State.modBoard_board] at before after
  refine ⟨endRuns b.val (startFills b.val l.val 64 u), ?_, ?_, ended.store.trans started.store, fun more => ?_⟩
  · show execRearmTakeEffect b l s = _
    simp only [execRearmTakeEffect, held, idle, Option.isSome_none, Bool.false_eq_true, if_false]
    rfl
  · rw [after.rearms, before.rearms]
    simp
  · obtain ⟨q, hq, grown⟩ := before.runs r (by simp)
    have stays : (q.more || !q.going.isEmpty) = true := by
      rcases grown.going with rfl | going
      · rw [more]
        rfl
      · simp [going]
    obtain ⟨p, hp, grown'⟩ := after.runs q (List.mem_filter.2 ⟨hq, stays⟩)
    exact ⟨p, hp, grown.trans grown'⟩

end

/-! ### The statement -/

section
variable {b : BoardNo} {l : LinkNo} {fill line : Nat} {q : FetchRun} {g : Filling} {s : State}
  (h : Awaits b.val l.val fill line q g s) (ok : s.boardOk b.val = true)
include h ok

/-- A line of a payload whose record is known: past its end, in a stack, or in host memory. -/
theorem payloadLine_ends (stash : q.stash = none) (src : q.src = 3) {p : BitVec 512} (rec : payloadRec s q.work = some p) :
    let c := Instr.fetchLineLand b l fill line
    let a := q.runStart fill (line / max 1 q.run) + line % max 1 q.run
    (ceilDiv (recPayloadBytes p) 64 ≤ a →
        (∃ t, exec c s = .next t ∧ LineLanded b.val q g line [] s t) ∧ ∀ data, exec (.payloadRead b l fill line data) s = .next s)
      ∧ (a < ceilDiv (recPayloadBytes p) 64 → recKind p = 1 →
        StackLineEnds b q g line (recPayloadAddr p + 64 * a) c (plainLine s (recPayloadAddr p + 64 * a)) s
          ∧ ∀ data, exec (.payloadRead b l fill line data) s = .next s)
      ∧ (a < ceilDiv (recPayloadBytes p) 64 → recKind p ≠ 1 →
        exec c s = .next s
          ∧ (∀ bs, ∃ t, exec (.payloadRead b l fill line (some bs)) s = .next t ∧ LineLanded b.val q g line bs s t)
          ∧ (q.squashed = false → ∃ t, exec (.payloadRead b l fill line none) s = .next t ∧ HaltsWith b.val 0x0704 t)) := by
  intro c a
  have comes := (exec_fetchLineLand_plain h ok stash).2.2.2.2 p src rec
  refine ⟨fun past => ⟨⟨_, ?_, landLine_lands h []⟩, exec_payloadRead_elsewhere h stash src rec (.inr past)⟩,
    fun within stack => ⟨landStackRead_ends h ?_, exec_payloadRead_elsewhere h stash src rec (.inl stack)⟩,
    fun within host => ⟨?_, fun bs => ⟨_, (exec_payloadRead_host h stash src rec ok host within).1 bs, landLine_lands h bs⟩,
      (exec_payloadRead_host h stash src rec ok host within).2⟩⟩
  · rw [comes, if_pos past]
  · rw [comes, if_neg (Nat.not_le.2 within), if_pos stack]
  · rw [comes, if_neg (Nat.not_le.2 within), if_neg host]

end

/-- Settles O54: each source's line ends as its read does, and the read's data go into the buffer by `landLine_lands`. -/
theorem fetchedLines : Obligations.FetchedLines := by
  refine ⟨fun b l fill line q g s h ok => ⟨fun stash => ?_, fun k stash => ?_⟩,
    fun b l fill line data s nothing => exec_fetchedLine_nothing nothing data, fun b l s => ⟨fun none_ => ?_, fun r held => ⟨fun busy => ?_, fun idle => ?_⟩⟩⟩
  · obtain ⟨stack, own, other, unknown, -⟩ := exec_fetchLineLand_plain h ok stash
    refine ⟨fun src here => landStackRead_ends h ?_, fun src => landStoreRead_ends h (own src), fun src here => landStoreRead_ends h ?_,
      fun src away => ?_, fun src => ⟨fun rec => ⟨unknown src rec, exec_payloadRead_unknown h stash src rec⟩,
        fun p rec => payloadLine_ends h ok stash src rec⟩, fun src => exec_payloadRead_other h (.inl src)⟩
    · rw [stack src, if_pos here]
    · rw [other src, if_pos here]
    · rcases src with src | src
      · rw [stack src, away]
        rfl
      · rw [other src, away]
        rfl
  · have comes := exec_fetchLineLand_stash h ok stash
    refine ⟨fun region => landStackRead_ends h ?_, fun region => landStoreRead_ends h ?_, exec_payloadRead_other h (.inr (by rw [stash]; rfl))⟩
    · rw [comes, region]
      rfl
    · rw [comes, region]
      rfl
  · show execRearmTakeEffect b l s = _
    simp only [execRearmTakeEffect, none_]
  · show execRearmTakeEffect b l s = _
    simp only [execRearmTakeEffect, held, busy, if_true]
  · obtain ⟨t, e, gone, store, starts⟩ := exec_rearm_starts held idle
    refine ⟨t, e, gone, store, fun more => ?_⟩
    obtain ⟨p, mem, grown⟩ := starts more
    refine ⟨p, mem, ?_⟩
    rw [grown.frame]
    exact ⟨rfl, rfl, rfl, rfl, rfl⟩

end Sys2Proof.Machine
end

