-- ==== Sys2Proof/Proofs/FlashKept.lean ====
section
/-!
PROOFS. Proofs/FlashKept.lean: reports, and the end of a job, write nothing to the flash but the fault log and persistent entries
(`FlashKept`); so a retirement stays in flash while the module enters SAFE for it (R288, R325, R327).
-/
-- One proof after another: in parallel, behind the tests' long evaluations, they ask for too many threads' stacks.
set_option Elab.async false

namespace Sys2Proof.Machine

/-! ### The relation -/

/-- The flash of t is that of s but for the fault log and the persistent entries. -/
def FlashKept (s t : State) : Prop := t.flash = { s.flash with log := t.flash.log, od := t.flash.od }

section
variable {r s t u : State}

theorem FlashKept.refl (s : State) : FlashKept s s := rfl

/-- An update of other fields. -/
theorem FlashKept.upd (h : t.flash = s.flash := by rfl) : FlashKept s t := by
  rw [FlashKept, h]

theorem FlashKept.trans (h : FlashKept r s) (k : FlashKept s t) : FlashKept r t := by
  unfold FlashKept at *
  rw [k, h]

/-- Two steps, the later one named first. -/
theorem FlashKept.after (k : FlashKept s t) (h : FlashKept r s) : FlashKept r t := h.trans k

theorem FlashKept.ite {c : Prop} [Decidable c] (ht : FlashKept s t) (hu : FlashKept s u) : FlashKept s (if c then t else u) := by
  split
  · exact ht
  · exact hu

theorem FlashKept.stackSpares (h : FlashKept s t) : t.flash.stackSpares = s.flash.stackSpares := by rw [h]
theorem FlashKept.stackRemaps (h : FlashKept s t) : t.flash.stackRemaps = s.flash.stackRemaps := by rw [h]
theorem FlashKept.storeSpares (h : FlashKept s t) : t.flash.storeSpares = s.flash.storeSpares := by rw [h]
theorem FlashKept.storeRemaps (h : FlashKept s t) : t.flash.storeRemaps = s.flash.storeRemaps := by rw [h]
theorem FlashKept.retiredBoards (h : FlashKept s t) : t.flash.retiredBoards = s.flash.retiredBoards := by rw [h]
theorem FlashKept.retiredStacks (h : FlashKept s t) : t.flash.retiredStacks = s.flash.retiredStacks := by rw [h]

end

theorem flashKept_forEach {α : Type} (l : List α) (f : α → State → State) (h : ∀ a s, FlashKept s (f a s)) (s : State) :
    FlashKept s (forEach l f s) := by
  unfold forEach
  induction l generalizing s with
  | nil => exact .refl s
  | cons a l ih => exact (h a s).trans (ih (f a s))

theorem flashKept_modBoard (b : Nat) (f : Board → Board) (s : State) : FlashKept s (s.modBoard b f) := .upd

theorem flashKept_modDom (d : Nat) (f : Dom → Dom) (s : State) : FlashKept s (s.modDom d f) := .upd

/-! ### Registers and reports -/

theorem flashKept_bumpVer (r : Reg) (u : Nat) (s : State) : FlashKept s (s.bumpVer r u) := .upd

theorem flashKept_wr (r : Reg) (v u : Nat) (s : State) : FlashKept s (s.wr r v u) := by
  unfold FlashKept State.wr
  dsimp only
  split <;> rfl

theorem flashKept_bump (r : Reg) (u : Nat) (s : State) : FlashKept s (s.bump r u) := flashKept_wr ..

theorem flashKept_canNotify (bs : List Byte) (s : State) : FlashKept s (canNotify s bs) := by
  unfold canNotify
  split
  · exact .refl s
  · split
    · dsimp only
      split
      · exact .upd
      · exact (flashKept_bump .canIgnored 0 s).trans .upd
    · exact .upd

theorem flashKept_report (c v d q : Nat) (s : State) : FlashKept s (report s c v d q) := by
  have can : FlashKept s (if testBit (s.rd .notifyMaskCan) v then canNotify s (notifyBytes s c v d q) else s) :=
    .ite (flashKept_canNotify ..) (.refl s)
  exact .ite (.refl s) (can.trans (.ite (.ite (.refl _) .upd) (.refl _)))

theorem flashKept_vector (v : Nat) (s : State) : FlashKept s (s.vector v) := .ite .upd .upd

theorem flashKept_signal (v c d q : Nat) (s : State) : FlashKept s (s.signal v c d q) :=
  .after (flashKept_report ..) (.after (flashKept_vector ..) .upd)

theorem flashKept_logFault (f : Flt) (s : State) : FlashKept s (logFault s f).1 := by
  unfold logFault
  split
  · exact rfl
  · split
    · exact flashKept_wr ..
    · exact .upd

theorem flashKept_reportFault (f : Flt) (s : State) : FlashKept s (reportFault f s) := by
  have signals := ((flashKept_logFault f s).trans (flashKept_signal 1 f.code (f.domain.getD 0xFF) (logFault s f).2 _)).trans
    (flashKept_forEach (alsoVectors f.code) (fun v u => u.signal v f.code (f.domain.getD 0xFF) (logFault s f).2)
      (fun _ _ => flashKept_signal ..) _)
  unfold reportFault
  dsimp only
  split
  · exact .after (flashKept_vector ..) (.after (flashKept_wr ..) signals)
  · exact signals

theorem flashKept_raise (f : Flt) (s : State) : FlashKept s (s.raise f) := .ite .upd (flashKept_reportFault f s)

/-! ### The end of a job, and the power (R256, R280, R288) -/

theorem flashKept_squash (b e : Nat) (s : State) : FlashKept s (squash b e s) := by
  have bead : ∀ k u, FlashKept u (writeBead b k 1 u) := fun k u => .ite (flashKept_bump ..) 
    (.after (flashKept_bumpVer ..) (.after (flashKept_wr ..) (flashKept_modBoard ..)))
  have beads : FlashKept s (endBeads b (fun k => k.epoch == e) 1 s) := .after (flashKept_forEach _ _ bead _) (flashKept_modBoard ..)
  unfold squash
  dsimp only
  generalize hv : (State.wr _ .squashLastDuration 0 b) = v
  have counted : FlashKept s v := by
    rw [← hv]
    exact .after (flashKept_wr ..) (.after (flashKept_wr ..) (.after (flashKept_bump ..)
      (.after (flashKept_modBoard ..) (.after (flashKept_modBoard ..) beads))))
  exact .ite counted (.after (flashKept_modBoard ..) counted)

theorem flashKept_toStacks (m : HubMsg) (s : State) : FlashKept s (toStacks m s) := flashKept_forEach _ _ (fun _ _ => .upd) s

theorem flashKept_discardSlices (d : Nat) (s : State) : FlashKept s (discardSlices d s) := flashKept_forEach _ _ (fun _ _ => .upd) s

/-- A decision that goes down no tree. -/
theorem flashKept_takeDecision (d : Nat) (commit : Bool) (tag fv count : Nat) (s : State) :
    FlashKept s (takeDecision d commit tag fv count false s) := by
  unfold takeDecision
  simp only [Bool.false_eq_true, if_false]
  refine .ite ?_ ?_
  · exact .after (flashKept_toStacks ..) .upd
  · refine .after (flashKept_toStacks ..) ?_
    refine .after .upd (FlashKept.ite ?_ (.after (flashKept_raise ..) ?_)) <;>
      exact .after (flashKept_discardSlices ..) .upd

theorem flashKept_setState (st : DevState) (s : State) : FlashKept s (s.setState st) := .ite (.refl s) (.after (flashKept_signal ..) .upd)

theorem flashKept_setJob (j : JobState) (s : State) : FlashKept s (s.setJob j) := .upd

theorem flashKept_emit (o : Out) (s : State) : FlashKept s (s.emit o) := .upd

theorem flashKept_abortRing (d : Nat) (s : State) : FlashKept s (abortRing d s) :=
  .after (flashKept_modDom ..) (flashKept_forEach _ _ (fun _ _ => flashKept_emit ..) s)

theorem flashKept_abortJob (s : State) : FlashKept s (abortJob s) := by
  unfold abortJob
  refine .after (flashKept_setState ..) (.after (flashKept_setJob ..) (.after (flashKept_forEach _ _ (fun b u => flashKept_modBoard b _ u) _) ?_))
  refine .after (flashKept_forEach _ _ flashKept_abortRing _) (.after (flashKept_forEach _ _ (fun d u => ?_) _) ?_)
  · exact .ite (.after (flashKept_takeDecision ..) (.after (flashKept_raise ..) (flashKept_modDom ..))) (.refl u)
  · exact .after (flashKept_forEach _ _ (fun b u => flashKept_forEach _ _ (fun f v => flashKept_raise f v) u) _)
      (flashKept_forEach _ _ (fun b u => flashKept_forEach _ _ (fun e v => flashKept_squash b e v) u) s)

theorem flashKept_unloadJob (s : State) : FlashKept s (unloadJob s) :=
  .after .upd (.after (flashKept_forEach _ _ (fun _ _ => .upd) _) (flashKept_forEach _ _ (fun _ _ => .upd) s))

theorem flashKept_powerDown (s : State) : FlashKept s (powerDown s) := .after (flashKept_forEach _ _ flashKept_reportFault _) .upd

theorem flashKept_enterSafe (bit : Nat) (s : State) : FlashKept s (enterSafe bit s) := by
  unfold enterSafe
  dsimp only
  refine .ite (.after (flashKept_setState ..) (.after .upd (.after (flashKept_powerDown _) (.after (flashKept_unloadJob _) ?_)))) .upd
  exact .ite (.after (flashKept_abortJob _) .upd) .upd

/-- A module that is powered is SAFE once a cause of SAFE has arisen. -/
theorem enterSafe_state {s : State} (on : s.powered = true) (bit : Nat) : (enterSafe bit s).dev.state = .safe := by
  have safe : ∀ u : State, (u.setState .safe).dev.state = .safe := fun u => by
    unfold State.setState
    split
    · assumption
    · rw [(still_signal ..).dev]
  unfold enterSafe
  dsimp only
  rw [if_pos]
  · exact safe _
  · exact Bool.or_eq_true_iff.2 (.inr on)

/-! ### Retirements (R325, R327) -/

theorem flashKept_checkWorkingSet (s : State) : FlashKept s (checkWorkingSet s) :=
  .ite (.after (flashKept_enterSafe ..) (flashKept_raise ..)) (.refl s)

theorem flashKept_setLost (d : Nat) (s : State) : FlashKept s (setLost d s) := .after (flashKept_forEach _ _ (fun _ _ => .upd) _) .upd

/-- After a retirement the module goes on as it is, or it is SAFE. -/
theorem checkWorkingSet_cases (s : State) : checkWorkingSet s = s ∨ (checkWorkingSet s).dev.state = .safe := by
  unfold checkWorkingSet
  split
  · rename_i lost
    simp only [Bool.and_eq_true] at lost
    refine .inr (enterSafe_state ?_ 3)
    rw [State.powered, (still_raise ..).dev]
    exact lost.1
  · exact .inl rfl

/-- A fault, reported or waiting, changes of a Board at most what its control core has to write. -/
theorem raise_board (f : Flt) (s : State) (b : Nat) : ∃ ws, (s.raise f).board b = { s.board b with loadWaits := ws } := by
  by_cases waits : s.recordWaits f = true
  · rw [raise_waits waits]
    by_cases at_ : b = f.board.getD 0
    · rw [at_, State.modBoard_board]
      exact ⟨_, rfl⟩
    · rw [State.modBoard_board_of_ne _ _ _ _ at_]
      exact ⟨_, rfl⟩
  · rw [raise_reported (by simpa using waits), State.board, reports_reportFault f s]
    exact ⟨_, rfl⟩

/-- A Board that is retired is marked in flash. -/
theorem retireBoard_retired (b : Nat) (s : State) : testBit (retireBoard b s).flash.retiredBoards b = true := by
  unfold retireBoard
  split
  · assumption
  · dsimp only
    have kept : ∀ u, FlashKept u (checkWorkingSet (unitRetired 1 b u)) := fun u => .after (flashKept_checkWorkingSet _) (flashKept_raise _ u)
    rw [(kept _).retiredBoards]
    exact testBit_orBit ..

/-- The halt of a Board that is retired stays, unless the module enters SAFE. -/
theorem retireBoard_halt {b : Nat} {s : State} (halted : (s.board b).halt ≠ .none) :
    ((retireBoard b s).board b).halt ≠ .none ∨ (retireBoard b s).dev.state = .safe := by
  unfold retireBoard
  split
  · exact .inl halted
  · dsimp only
    refine (checkWorkingSet_cases _).imp (fun same => ?_) id
    obtain ⟨ws, board⟩ := raise_board _ _ b
    rw [same, unitRetired, board]
    exact halted

/-- A stack that is retired is marked in flash. -/
theorem retireStack_retired (k : Nat) (s : State) : testBit (retireStack k s).flash.retiredStacks k = true := by
  unfold retireStack
  split
  · assumption
  · dsimp only
    have reported : ∀ f u, FlashKept u (unitRetired 4 k (State.raise u f)) := fun f u => .after (flashKept_raise ..) (flashKept_raise f u)
    rw [(flashKept_checkWorkingSet _).retiredStacks]
    show testBit (forEach _ setLost _).flash.retiredStacks k = true
    rw [((flashKept_forEach _ _ flashKept_setLost _).after (reported _ _)).retiredStacks]
    exact testBit_orBit ..

end Sys2Proof.Machine
end

