-- ==== Sys2Proof/Proofs/StackReads.lean ====
section
/-!
PROOFS. Proofs/StackReads.lean: what a Board's own read of stack lines returns (R164, R167, R171), and how a held read ends after 1 ms.
-/
-- One proof after another: in parallel, behind the tests' long evaluations, they ask for too many threads' stacks.
set_option Elab.async false

namespace Sys2Proof.Machine

/-! ### What the service of a line changes -/

/-- t is s but for registers, marks of stacks, and counters. -/
def Corrects (s t : State) : Prop := t = { s with regs := t.regs, stks := t.stks, cnt := t.cnt }

section
variable {r s t u : State}

theorem Corrects.refl (s : State) : Corrects s s := rfl

theorem Corrects.trans (h : Corrects r s) (k : Corrects s t) : Corrects r t := by
  unfold Corrects at *
  rw [h] at k
  exact k

/-- Two steps, the later one named first. -/
theorem Corrects.after (k : Corrects s t) (h : Corrects r s) : Corrects r t := h.trans k

theorem Corrects.ite {c : Prop} [Decidable c] (ht : Corrects s t) (hu : Corrects s u) : Corrects s (if c then t else u) := by
  split
  · exact ht
  · exact hu

end

theorem corrects_forEach {α : Type} (l : List α) (f : α → State → State) (h : ∀ a s, Corrects s (f a s)) (s : State) :
    Corrects s (forEach l f s) := by
  unfold forEach
  induction l generalizing s with
  | nil => exact .refl s
  | cons a l ih => exact (h a s).trans (ih (f a s))

theorem corrects_modStack (k : Nat) (f : Stack → Stack) (s : State) : Corrects s (s.modStack k f) := rfl

theorem corrects_countLines (k a n : Nat) (s : State) : Corrects s (countLines k a n s) := by
  rw [countLines_frame]
  rfl

theorem corrects_countRoute (p q : MeshPos) (n : Nat) (s : State) : Corrects s (countRoute p q n s) :=
  corrects_forEach _ _ (fun _ u => by rw [countBlock_frame]; rfl) s

theorem corrects_correctLines (k : Nat) (ls : List Nat) (s : State) : Corrects s (correctLines k ls s) :=
  .after (corrects_modStack ..) (corrects_forEach _ _ (fun _ u => (rfl : Corrects u (u.bump .eccCorrected k))) s)

theorem corrects_boardServed (b a n : Nat) (s : State) : Corrects s (boardServed b a n s) := by
  have served : Corrects s (stackServed a n s) := .after (corrects_countLines ..) (.ite (.refl s) (corrects_correctLines ..))
  exact served.trans (.ite (.after (corrects_countRoute ..) (corrects_countRoute ..)) (.refl _))

theorem corrects_countRead (b : Nat) (ls : List LineRead) (s : State) : Corrects s (countRead (fun a => boardServed b a 64) ls s) :=
  corrects_forEach _ _ (fun l u => by
    cases l
    case data a bs => exact corrects_boardServed ..
    all_goals exact .refl u) s

theorem Corrects.emit {s t : State} (h : Corrects s t) (o : Out) :
    (t.emit o).out = o :: s.out ∧ t.emit o = { s with out := (t.emit o).out, cnt := t.cnt, regs := t.regs, stks := t.stks } := by
  rw [h]
  exact ⟨rfl, rfl⟩

/-! ### A Board's own read -/

/-- What leaves the module lifts no halt. -/
theorem HaltsWith.emit {b code : Nat} {s : State} (h : HaltsWith b code s) (o : Out) : HaltsWith b code (s.emit o) := h

section
variable {s : State} {k : Nat} {r : StackReadReq}

/-- A read has no line of a kind exactly when its list does not hold it. -/
theorem lines_ne_iff (v : LineRead) : Lines s k r (· ≠ v) ↔ (readLines s k r.dpa r.lines r.tag).contains v = false := by
  simp only [Lines, List.contains_eq_mem, decide_eq_false_iff_not]
  exact ⟨fun h mem => h v mem rfl, fun h l mem same => h (same ▸ mem)⟩

theorem not_lines_ne_iff (v : LineRead) : ¬ Lines s k r (· ≠ v) ↔ (readLines s k r.dpa r.lines r.tag).contains v = true := by
  rw [lines_ne_iff, Bool.not_eq_false]

/-- A line that is not in the stack is at no address of it. -/
theorem readLines_elsewhere (h : ∃ i < r.lines, stackOf (r.dpa + 64 * i) ≠ k) : ¬ Lines s k r (· ≠ .region) := by
  obtain ⟨i, lt, ne⟩ := h
  exact fun lines => lines .region (List.mem_map.2 ⟨i, List.mem_range.2 lt, if_neg ne⟩) rfl

/-- The first line of a read that has lines, if it is in the stack. -/
theorem stackOf_readLines (region : Lines s k r (· ≠ .region)) (some_ : readLines s k r.dpa r.lines r.tag ≠ []) : stackOf r.dpa = k := by
  by_contra ne
  refine readLines_elsewhere ⟨0, ?_, ne⟩ region
  rw [Nat.pos_iff_ne_zero]
  rintro none_
  exact some_ (by rw [readLines, none_]; rfl)

variable (b : Nat)

theorem boardRead_region (h : ¬ Lines s k r (· ≠ .region)) :
    HaltsWith b 0x0402 (boardRead b k r.dpa r.lines r.tag s) ∧ (boardRead b k r.dpa r.lines r.tag s).out = .readError 0x0402 :: s.out
      ∧ (boardRead b k r.dpa r.lines r.tag s).dram = s.dram := by
  rw [not_lines_ne_iff, List.contains_iff_mem] at h
  unfold boardRead
  dsimp only
  split
  · rename_i l found
    exact ⟨HaltsWith.emit (haltBoard_haltsWith ..) _, rfl, rfl⟩
  · rename_i found
    obtain ⟨i, at_⟩ := List.mem_iff_getElem?.1 h
    rw [List.find?_eq_none] at found
    exact absurd (beq_self_eq_true LineRead.region) (found (.region, i) (List.mem_zipIdx_iff_getElem?.2 at_))

section
variable (region : Lines s k r (· ≠ .region))
include region

theorem regionLine_none : (readLines s k r.dpa r.lines r.tag).zipIdx.find? (fun l => l.1 == .region) = none := by
  refine List.find?_eq_none.2 fun l mem same => ?_
  obtain ⟨v, i⟩ := l
  exact region v (List.mem_of_getElem? (List.mem_zipIdx_iff_getElem?.1 mem)) (by simpa using same)

theorem boardRead_stale (stale : ¬ Lines s k r (· ≠ .stale 1)) : boardRead b k r.dpa r.lines r.tag s = s.emit (.readStale 1) := by
  rw [not_lines_ne_iff] at stale
  unfold boardRead
  simp only [regionLine_none region, stale, if_true]
  rfl

variable (fresh : Lines s k r (· ≠ .stale 1))
include fresh

theorem boardRead_bad (bad : ¬ Lines s k r (fun l => ∀ a, l ≠ .bad a)) :
    HaltsWith b 0x0401 (boardRead b k r.dpa r.lines r.tag s) ∧ (boardRead b k r.dpa r.lines r.tag s).out = .readError 0x0401 :: s.out
      ∧ (boardRead b k r.dpa r.lines r.tag s).dram = s.dram := by
  rw [lines_ne_iff] at fresh
  unfold boardRead
  simp only [regionLine_none region, fresh, Bool.false_eq_true, if_false]
  split
  · rename_i a found
    have noted := (noted_noteUe a _).after (noted_ueFlt 0x0401 none a 1 none s)
    exact ⟨HaltsWith.emit (haltAll_haltsWith ..) _, congrArg _ noted.out, noted.dram⟩
  · rename_i found
    refine absurd (fun l mem a same => ?_) bad
    have := List.findSome?_eq_none_iff.1 found l mem
    rw [same] at this
    cases this

theorem boardRead_data (good : Lines s k r (fun l => ∀ a, l ≠ .bad a)) :
    boardRead b k r.dpa r.lines r.tag s
      = (countRead (fun a => boardServed b a 64) (readLines s k r.dpa r.lines r.tag) s).emit
          (.readData ((readLines s k r.dpa r.lines r.tag).flatMap lineBytes)) := by
  rw [lines_ne_iff] at fresh
  have none_ : badAmong (readLines s k r.dpa r.lines r.tag) = none :=
    List.findSome?_eq_none_iff.2 fun l mem => by
      cases l
      case bad a => exact absurd rfl (good _ mem a)
      all_goals rfl
  unfold boardRead
  simp only [regionLine_none region, fresh, none_, Bool.false_eq_true, if_false]

end

end

section
variable {s : State} {k : StackNo} {r : StackReadReq}

theorem exec_stackRead_idle (h : ¬ (s.stackOk k.val = true ∧ s.powered = true ∧ s.boardOk r.board = true)) :
    exec (.stackRead k r) s = .next s := by
  show execStackRead k r s = _
  refine if_pos ?_
  revert h
  cases s.stackOk k.val <;> cases s.powered <;> cases s.boardOk r.board <;> decide

section
variable (served : s.stackOk k.val = true ∧ s.powered = true ∧ s.boardOk r.board = true)
include served

/-- A read whose lines are not held, or one of which is at no address, is answered at once. -/
theorem exec_stackRead_answers (h : ¬ Lines s k.val r (· ≠ .region) ∨ Lines s k.val r (· ≠ .held)) :
    exec (.stackRead k r) s = .next (boardRead r.board k.val r.dpa r.lines r.tag s) := by
  rw [not_lines_ne_iff, lines_ne_iff] at h
  obtain ⟨ok, on, board⟩ := served
  show execStackRead k r s = _
  simp only [execStackRead, ok, on, board, Bool.not_true, Bool.or_self, Bool.false_eq_true, if_false]
  rw [if_neg]
  rcases h with region | held
  · rw [region, Bool.not_true, Bool.and_false]
    decide
  · rw [held, Bool.false_and]
    decide

theorem exec_stackRead_held (region : Lines s k.val r (· ≠ .region)) (held : ¬ Lines s k.val r (· ≠ .held)) :
    exec (.stackRead k r) s = .next (holdRead (.board r.board) r.dpa r.lines r.tag s) := by
  rw [lines_ne_iff] at region
  rw [not_lines_ne_iff] at held
  obtain ⟨ok, on, board⟩ := served
  show execStackRead k r s = _
  simp only [execStackRead, ok, on, board, region, held, Bool.not_true, Bool.not_false, Bool.and_self, Bool.or_self, Bool.false_eq_true,
    if_false, if_true]

end

/-- Lines that are all data are nothing else. -/
theorem lines_data {P : LineRead → Prop} (h : Lines s k.val r (fun l => ∃ a bs, l = .data a bs)) (data : ∀ a bs, P (.data a bs)) :
    Lines s k.val r P := fun l mem => by
  obtain ⟨a, bs, rfl⟩ := h l mem
  exact data a bs

/-- Each way a Board's own read ends. -/
theorem stackRead_ends (served : s.stackOk k.val = true ∧ s.powered = true ∧ s.boardOk r.board = true) :
    (Lines s k.val r (fun l => ∃ a bs, l = .data a bs) →
        ∃ t, exec (.stackRead k r) s = .next t ∧ t.out = .readData ((readLines s k.val r.dpa r.lines r.tag).flatMap lineBytes) :: s.out
          ∧ t = { s with out := t.out, cnt := t.cnt, regs := t.regs, stks := t.stks })
      ∧ (¬ Lines s k.val r (· ≠ .region) →
        ∃ t, exec (.stackRead k r) s = .next t ∧ HaltsWith r.board 0x0402 t ∧ t.out = .readError 0x0402 :: s.out ∧ t.dram = s.dram)
      ∧ (Lines s k.val r (· ≠ .region) → ¬ Lines s k.val r (· ≠ .held) →
        exec (.stackRead k r) s = .next (s.modStack k.val (fun x => { x with reads := x.reads ++
          [{ who := .board r.board, dpa := r.dpa, lines := r.lines, tag := r.tag, domain := ((s.regionAt r.dpa).map (fun e => rDomain e.2)).getD 0xFF, since := s.time }] })))
      ∧ (Lines s k.val r (fun l => l ≠ .region ∧ l ≠ .held) → ¬ Lines s k.val r (· ≠ .stale 1) → exec (.stackRead k r) s = .next (s.emit (.readStale 1)))
      ∧ (Lines s k.val r (fun l => l ≠ .region ∧ l ≠ .held ∧ l ≠ .stale 1) → ¬ Lines s k.val r (fun l => ∀ a, l ≠ .bad a) →
        ∃ t, exec (.stackRead k r) s = .next t ∧ HaltsWith r.board 0x0401 t ∧ t.out = .readError 0x0401 :: s.out ∧ t.dram = s.dram) := by
  refine ⟨fun data => ?_, fun region => ⟨_, exec_stackRead_answers served (.inl region), boardRead_region _ region⟩, fun region held => ?_,
    fun within stale => ?_, fun within bad => ?_⟩
  · refine ⟨_, exec_stackRead_answers served (.inr (lines_data data nofun)), ?_⟩
    rw [boardRead_data _ (lines_data data nofun) (lines_data data nofun) (lines_data data nofun)]
    exact (corrects_countRead r.board _ s).emit _
  · have at_ : stackOf r.dpa = k.val := stackOf_readLines region fun none_ => held (by rw [lines_ne_iff, none_]; rfl)
    rw [exec_stackRead_held served region held, holdRead, at_]
  · rw [exec_stackRead_answers served (.inr fun l mem => (within l mem).2), boardRead_stale _ (fun l mem => (within l mem).1) stale]
  · exact ⟨_, exec_stackRead_answers served (.inr fun l mem => (within l mem).2.1),
      boardRead_bad _ (fun l mem => (within l mem).1) (fun l mem => (within l mem).2.2) bad⟩

end

/-! ### A read that was held for 1 ms (R171) -/

section
variable {s : State} {k : StackNo} {i : Nat}

theorem exec_aheadHoldTimeout_waits (h : (s.stack k.val).reads[i]? = none ∨ s.underTest k.val = true) :
    exec (.aheadHoldTimeout k i) s = .next s := by
  show execAheadHoldTimeout k i s = _
  unfold execAheadHoldTimeout
  split
  · rfl
  · rename_i found
    rcases h with none_ | tested
    · rw [none_] at found
      cases found
    · rw [if_pos tested]

/-- A stack without one of the reads that it holds. -/
def readDropped (k i : Nat) (s : State) : State := s.modStack k (fun x => { x with reads := x.reads.eraseIdx i })

/-- The answers to the members of a rendezvous that runs ahead of its domain. -/
theorem aheadReplies_out (ps : List Pkt) (s : State) {p : Pkt} (mem : p ∈ ps) :
    Answered p 0x84 (hdrBytes { hdrOf p.payload with outcome := 2, err := 0 }) (forEach ps (fun p s => gatherReply p 2 0 [] s) s) := by
  have reply : ∀ (p : Pkt) (u : State), Answered p 0x84 (hdrBytes { hdrOf p.payload with outcome := 2, err := 0 }) (gatherReply p 2 0 [] u) :=
    fun p u => by
      have := answer_answered p 0x84 (hdrBytes { hdrOf p.payload with outcome := 2, err := 0 } ++ []) u
      rwa [List.append_nil] at this
  have stays : ∀ (qs : List Pkt) (u : State), ∀ o ∈ u.out, o ∈ (forEach qs (fun p s => gatherReply p 2 0 [] s) u).out := fun qs => by
    unfold forEach
    induction qs with
    | nil => exact fun _ _ h => h
    | cons q qs ih => exact fun u o h => ih _ o (List.mem_cons_of_mem _ h)
  unfold forEach
  induction ps generalizing s with
  | nil => cases mem
  | cons q qs ih =>
    rcases List.mem_cons.1 mem with rfl | mem
    · exact answered_of_out (reply p s) (stays qs _)
    · exact ih _ mem

theorem aheadReplies_frame (ps : List Pkt) (s : State) : forEach ps (fun p s => gatherReply p 2 0 [] s) s
    = { s with out := (forEach ps (fun p s => gatherReply p 2 0 [] s) s).out } := by
  unfold forEach
  induction ps generalizing s with
  | nil => rfl
  | cons q qs ih => exact ih (gatherReply q 2 0 [] s)

theorem retryGathers_none {b n : Nat} {s : State} (h : (s.board b).rdvWait = []) : retryGathers b n s = s := by
  cases n with
  | zero => rfl
  | succ n =>
    unfold retryGathers
    rw [h]

theorem dropRdv_rdvAt (x : Board) (id : Nat) : (x.dropRdv id).rdvAt id = none := by
  refine List.find?_eq_none.2 fun r mem same => ?_
  have := (List.mem_filter.1 mem).2
  simp only [bne_iff_ne, ne_eq] at this
  exact this (by simpa using same)

section
variable {h : HeldRead} (held : (s.stack k.val).reads[i]? = some h) (free : s.underTest k.val = false)
include held free

theorem exec_aheadHoldTimeout_late : exec (.aheadHoldTimeout k i) s = .next (heldLate h (readDropped k.val i s)) := by
  show execAheadHoldTimeout k i s = _
  simp only [execAheadHoldTimeout, held, free, Bool.false_eq_true, if_false]
  rfl

/-- The members of a rendezvous are answered, and it ends. -/
theorem aheadHoldTimeout_rendezvous {b id : Nat} {r : Rdv} (who : h.who = .rendezvous b id) (at_ : (s.board b).rdvAt id = some r)
    (none_ : (s.board b).rdvWait = []) :
    ∃ t, exec (.aheadHoldTimeout k i) s = .next t ∧ (t.board b).rdvAt id = none
      ∧ ∀ w ∈ r.waiting, ∃ q, Out.packet none q ∈ t.out ∧ q.dest = w.1 ∧ q.txn = w.2.1 ∧ q.opcode = 0x84 := by
  let v := (forEach (r.waiting.map (rdvPkt r)) (fun p s => gatherReply p 2 0 [] s) (readDropped k.val i s)).modBoard b (fun x => x.dropRdv id)
  have board : v.board b = (s.board b).dropRdv id := by
    rw [State.modBoard_board, State.board, aheadReplies_frame]
    rfl
  have late : heldLate h (readDropped k.val i s) = v := by
    have entry : ((readDropped k.val i s).board b).rdvAt id = some r := at_
    unfold heldLate
    rw [who]
    dsimp only [heldRdv]
    rw [entry]
    refine retryGathers_none (s := v) ?_
    rw [board]
    exact none_
  refine ⟨v, late ▸ exec_aheadHoldTimeout_late held free, board ▸ dropRdv_rdvAt _ _, fun w mem => ?_⟩
  obtain ⟨q, out, op, dest, txn, -⟩ := aheadReplies_out _ (readDropped k.val i s) (List.mem_map_of_mem (f := rdvPkt r) mem)
  exact ⟨q, out, dest, txn, op⟩

/-- The line of a held fetch is stale: its run's Board halts. -/
theorem aheadHoldTimeout_fetch {b link fill line : Nat} {r : FetchRun} {g : Filling} (who : h.who = .fetch b link fill line)
    (awaits : (s.board b).awaited link fill line (fun r => r.stash.isNone) = some (r, g)) (live : r.squashed = false) :
    ∃ t, exec (.aheadHoldTimeout k i) s = .next t ∧ HaltsWith b 0x0205 t := by
  have plain : (fun r : FetchRun => r.stash.isSome == false) = fun r => r.stash.isNone := funext fun r => by cases r.stash <;> rfl
  have awaits' : ((readDropped k.val i s).board b).awaited link fill line (fun r => r.stash.isSome == false) = some (r, g) := by
    rw [plain]
    exact awaits
  refine ⟨_, exec_aheadHoldTimeout_late held free, ?_⟩
  unfold heldLate
  rw [who]
  dsimp only [heldFetch]
  rw [awaits']
  simp only [landStackRead, live, Bool.false_eq_true, if_false]
  exact haltWork_haltsWith ..

/-- Each way a read ends that was held for 1 ms. -/
theorem aheadHoldTimeout_ends :
    let rest := s.modStack k.val (fun x => { x with reads := x.reads.eraseIdx i })
    (∀ b, h.who = .board b → exec (.aheadHoldTimeout k i) s = .next (rest.emit (.readStale 2)))
      ∧ ((∃ p, h.who = .remote p) ∨ (∃ a, h.who = .window a) ∨ (∃ b l f n, h.who = .stash b l f n) →
        exec (.aheadHoldTimeout k i) s = .next rest)
      ∧ (∀ p, h.who = .gather p →
        ∃ t, exec (.aheadHoldTimeout k i) s = .next t ∧ Answered p 0x84 (hdrBytes { hdrOf p.payload with outcome := 2, err := 0 }) t
          ∧ t = { rest with out := t.out })
      ∧ (∀ b id r, h.who = .rendezvous b id → (s.board b).rdvAt id = some r → (s.board b).rdvWait = [] →
        ∃ t, exec (.aheadHoldTimeout k i) s = .next t ∧ (t.board b).rdvAt id = none
          ∧ ∀ w ∈ r.waiting, ∃ q, Out.packet none q ∈ t.out ∧ q.dest = w.1 ∧ q.txn = w.2.1 ∧ q.opcode = 0x84)
      ∧ (∀ b link fill line r g, h.who = .fetch b link fill line →
        (s.board b).awaited link fill line (fun r => r.stash.isNone) = some (r, g) → r.squashed = false →
        ∃ t, exec (.aheadHoldTimeout k i) s = .next t ∧ HaltsWith b 0x0205 t) := by
  intro rest
  have late := exec_aheadHoldTimeout_late held free
  refine ⟨fun b who => ?_, fun whose => ?_, fun p who => ⟨_, late, ?_⟩,
    fun b id r who at_ none_ => aheadHoldTimeout_rendezvous held free who at_ none_,
    fun b link fill line r g who awaits live => aheadHoldTimeout_fetch held free who awaits live⟩
  · rw [late, heldLate, who]
    rfl
  · rw [late]
    rcases whose with ⟨p, who⟩ | ⟨a, who⟩ | ⟨b, l, f, n, who⟩ <;> rw [heldLate, who] <;> rfl
  · rw [heldLate, who]
    exact ⟨aheadReplies_out [p] _ (List.mem_singleton_self p), aheadReplies_frame [p] rest⟩

end

end

end Sys2Proof.Machine
end

