-- ==== Sys2Proof/Proofs/Scrubs.lean ====
section
/-!
PROOFS. Proofs/Scrubs.lean: what a scrub's read of a stack line, or of a word of a board store, leaves by its outcome (R100, R165 to R168).
-/
-- One proof after another: in parallel, behind the tests' long evaluations, they ask for too many threads' stacks.
set_option Elab.async false

namespace Sys2Proof.Machine

/-! ### Outcomes -/

theorem scrubOutcome_same {bad soft : Bool} (clear : bad = false) (firm : soft = false) (o : LineOutcome) : scrubOutcome bad soft o = o := by
  rw [clear, firm]
  rfl

theorem scrubOutcome_corrected {bad soft : Bool} {o : LineOutcome} (clear : bad = false)
    (h : o = .corrected ∨ (soft = true ∧ o ≠ .uncorrectable)) : scrubOutcome bad soft o = .corrected := by
  rw [clear]
  rcases h with rfl | ⟨rfl, ne⟩
  · cases soft <;> rfl
  · cases o
    case uncorrectable => exact absurd rfl ne
    all_goals rfl

theorem scrubOutcome_uncorrectable {bad soft : Bool} {o : LineOutcome} (h : bad = true ∨ o = .uncorrectable) :
    scrubOutcome bad soft o = .uncorrectable := by
  rcases h with rfl | rfl
  · rfl
  · cases bad <;> cases soft <;> rfl

/-! ### An error that is found -/

/-- Every byte, every mark of a bad line or version word, and every cause of s stands in t. -/
structure Finds (s t : State) : Prop where
  dram : t.dram = s.dram
  bad : ∀ c, (t.stack c).bad = (s.stack c).bad
  vtBad : ∀ c, (t.stack c).vtBad = (s.stack c).vtBad
  irq : ∀ i, s.host.irqCause.getLsbD i = true → t.host.irqCause.getLsbD i = true

section
variable {r s t : State}

theorem Finds.refl (s : State) : Finds s s := ⟨rfl, fun _ => rfl, fun _ => rfl, fun _ h => h⟩

theorem Finds.trans (h : Finds r s) (k : Finds s t) : Finds r t where
  dram := k.dram.trans h.dram
  bad c := (k.bad c).trans (h.bad c)
  vtBad c := (k.vtBad c).trans (h.vtBad c)
  irq i hi := k.irq i (h.irq i hi)

/-- Two steps, the later one named first. -/
theorem Finds.after (k : Finds s t) (h : Finds r s) : Finds r t := h.trans k

end

theorem finds_modStack (k : Nat) (f : Stack → Stack) (s : State)
    (h : ∀ x : Stack, (f x).bad = x.bad ∧ (f x).vtBad = x.vtBad := by exact fun _ => ⟨rfl, rfl⟩) : Finds s (s.modStack k f) := by
  have stack : ∀ c, (s.modStack k f).stack c = s.stack c ∨ (s.modStack k f).stack c = f (s.stack c) := fun c => by
    by_cases at_ : c = k
    · exact .inr (at_ ▸ State.modStack_stack ..)
    · exact .inl (State.modStack_stack_of_ne _ _ _ _ at_)
  refine ⟨rfl, fun c => ?_, fun c => ?_, fun _ h => h⟩ <;> rcases stack c with e | e <;> rw [e]
  · exact (h _).1
  · exact (h _).2

theorem finds_forEach {α : Type} (l : List α) (f : α → State → State) (h : ∀ a s, Finds s (f a s)) (s : State) : Finds s (forEach l f s) := by
  unfold forEach
  induction l generalizing s with
  | nil => exact .refl s
  | cons a l ih => exact (h a s).trans (ih (f a s))

theorem finds_setLost (d : Nat) (s : State) : Finds s (setLost d s) := by
  have dom : Finds s (s.modDom d (fun x => { x with lost := true })) := ⟨rfl, fun _ => rfl, fun _ => rfl, fun _ h => h⟩
  exact .after (finds_forEach _ _ (fun k u => finds_modStack k _ u) _) dom

theorem setLost_lost (d : Nat) (s : State) : ((setLost d s).dom d).lost = true := by
  have same : ∀ (ks : List Nat) (u : State), (forEach ks (fun k s => s.setDreg k d { s.dreg k d with lost := true }) u).doms = u.doms := fun ks => by
    unfold forEach
    induction ks with
    | nil => exact fun _ => rfl
    | cons k ks ih => exact fun u => ih _
  unfold setLost State.dom
  rw [same]
  exact congrArg Dom.lost (State.modDom_dom s d _)

theorem finds_raise {f : Flt} (none_ : f.board = none) (s : State) : Finds s (s.raise f) := by
  have reports := reports_raise none_ s
  refine ⟨by rw [reports], fun c => ?_, fun c => ?_, (still_raise f s).irq⟩ <;> (rw [State.stack, reports]; rfl)

theorem finds_noteUe (dpa : Nat) (s : State) : Finds s (noteUe dpa s) := by
  unfold noteUe
  exact .after (finds_modStack ..) ⟨rfl, fun _ => rfl, fun _ => rfl, fun _ h => h⟩

theorem finds_raiseUe (dpa reader : Nat) (d : Option Nat) (s : State) : Finds s (raiseUe dpa reader d s) :=
  .after (finds_noteUe ..) (.after (finds_raise rfl _) ⟨rfl, fun _ => rfl, fun _ => rfl, fun _ h => h⟩)

/-- An uncorrectable line is a cause of vectors 1 and 2 (Table 15-4). -/
theorem raiseUe_causes (dpa reader : Nat) (d : Option Nat) (s : State) :
    (raiseUe dpa reader d s).host.irqCause.getLsbD 1 = true ∧ (raiseUe dpa reader d s).host.irqCause.getLsbD 2 = true := by
  have causes : ∀ i, i = 1 ∨ i = 2 →
      ((ueFlt 0x0401 none dpa reader d s).2.raise (ueFlt 0x0401 none dpa reader d s).1).host.irqCause.getLsbD i = true := fun i hi => by
    rw [raise_reported (recordWaits_none rfl _)]
    rcases hi with rfl | rfl
    · exact reportFault_irqCause ..
    · exact reportFault_also (List.mem_singleton_self 2 : 2 ∈ alsoVectors 0x0401) (by decide) _
  exact ⟨(finds_noteUe ..).irq 1 (causes 1 (.inl rfl)), (finds_noteUe ..).irq 2 (causes 2 (.inr rfl))⟩

/-! ### The scrub of a stack -/

/-- LOST for the domain that a lost line belongs to. -/
def lostIn (d : Option Nat) (s : State) : State :=
  match d with
  | some d => setLost d s
  | none => s

/-- A stack marks an uncorrectable line. -/
def lineMarked (k l : Nat) (s : State) : State :=
  s.modStack k (fun x => { x with bad := if x.bad.contains l then x.bad else x.bad ++ [l], soft := x.soft.filter (· != l) })

/-- An uncorrectable line is marked and reported, and a domain that has it in a committed plane is LOST (R167). -/
def lineLost (k dpa : Nat) (u : State) : State :=
  let v := lineMarked k (dpa / 64) u
  lostIn (inCommitted v dpa) (raiseUe dpa 3 (inCommitted v dpa) v)

/-- A line after the scrub's read of it. -/
def lineScrubbed (k dpa : Nat) (o : LineOutcome) (u : State) : State :=
  match o with
  | .clean => u
  | .weak => u.modStack k (fun x => { x with soft := x.soft ++ [dpa / 64] })
  | .versionWord => loseRecord dpa u
  | .corrected => correctLines k [dpa / 64] u
  | .uncorrectable => lineLost k dpa u

/-- The scrub's read of a line of stack k. -/
def scrubRead (k dpa : Nat) (o : LineOutcome) (s : State) : State :=
  lineScrubbed k dpa (scrubOutcome ((s.stack k).bad.contains (dpa / 64)) ((s.stack k).soft.contains (dpa / 64)) o) (countLines 0 dpa 64 s)

section
variable {k : StackNo} {line : Nat} {s : State}

theorem exec_patrolScrub_idle (h : stackBytes ≤ 64 * line ∨ s.stackOk k.val = false ∨ s.powered = false ∨ s.underTest k.val = true)
    (o : LineOutcome) : exec (.patrolScrub k line o) s = .next s := by
  show execPatrolScrub k line o s = _
  have idle : (decide (stackBytes ≤ 64 * line) || !s.stackOk k.val || !s.powered || s.underTest k.val) = true := by
    rcases h with beyond | out | off | tested
    · simp [beyond]
    · simp [out]
    · simp [off]
    · simp [tested]
  unfold execPatrolScrub
  exact if_pos idle

theorem exec_patrolScrub (within : 64 * line < stackBytes) (ok : s.stackOk k.val = true) (on : s.powered = true) (free : s.underTest k.val = false)
    (o : LineOutcome) : exec (.patrolScrub k line o) s
      = .next (if 64 * line + 64 = stackBytes then wrFree .scrubPassTime k.val (scrubRead k.val (k.val * stackBytes + 64 * line) o s)
          else scrubRead k.val (k.val * stackBytes + 64 * line) o s) := by
  have works : ¬ (decide (stackBytes ≤ 64 * line) || !s.stackOk k.val || !s.powered || s.underTest k.val) = true := by
    simp [within, ok, on, free]
  have stack : ∀ a, (countLines 0 a 64 s).stack k.val = s.stack k.val := fun a => by
    rw [State.stack, countLines_frame]
    rfl
  unfold scrubRead
  rw [← stack (k.val * stackBytes + 64 * line)]
  show execPatrolScrub k line o s = _
  unfold execPatrolScrub
  refine (if_neg works).trans ?_
  generalize countLines 0 (k.val * stackBytes + 64 * line) 64 s = u
  generalize k.val * stackBytes + 64 * line = dpa
  -- `id` keeps the two terms general in the proof: the kernel is not to evaluate them.
  revert u dpa
  refine id fun u dpa => ?_
  dsimp only
  cases scrubOutcome ((u.stack k.val).bad.contains (dpa / 64)) ((u.stack k.val).soft.contains (dpa / 64)) o <;> rfl

/-- A line that is not its stack's last. -/
theorem exec_patrolScrub_inner (within : 64 * line + 64 < stackBytes) (ok : s.stackOk k.val = true) (on : s.powered = true)
    (free : s.underTest k.val = false) (o : LineOutcome) :
    exec (.patrolScrub k line o) s = .next (scrubRead k.val (k.val * stackBytes + 64 * line) o s) := by
  rw [exec_patrolScrub (Nat.lt_of_le_of_lt (Nat.le_add_right _ 64) within) ok on free o, if_neg (Nat.ne_of_lt within)]

end

/-! ### What the outcomes leave -/

theorem finds_lostIn (d : Option Nat) (s : State) : Finds s (lostIn d s) := by
  cases d with
  | none => exact .refl s
  | some d => exact finds_setLost d s

theorem lineMarked_bad (k l : Nat) (s : State) : l ∈ ((lineMarked k l s).stack k).bad := by
  rw [lineMarked, State.modStack_stack]
  dsimp only
  split
  · rename_i marked
    exact List.contains_iff_mem.1 marked
  · exact List.mem_append_right _ (List.mem_singleton_self l)

/-- Marks of lines move no square. -/
theorem inCommitted_lineMarked (k l dpa : Nat) (s : State) : inCommitted (lineMarked k l s) dpa = inCommitted s dpa := by
  have stack : ∀ c, ((lineMarked k l s).stack c).vt = (s.stack c).vt ∧ ((lineMarked k l s).stack c).regs = (s.stack c).regs := fun c => by
    by_cases at_ : c = k
    · rw [at_, lineMarked, State.modStack_stack]
      exact ⟨rfl, rfl⟩
    · rw [lineMarked, State.modStack_stack_of_ne _ _ _ _ at_]
      exact ⟨rfl, rfl⟩
  have region : (lineMarked k l s).regionAt dpa = s.regionAt dpa := rfl
  unfold inCommitted State.vrec State.dreg
  rw [region]
  simp only [stack]

section
variable {k dpa : Nat} {s u : State} (count : u = { s with cnt := u.cnt })
include count

/-- A corrected line is counted, its mark goes, and the test of its row is due (R166). -/
theorem correctLines_one :
    let t := correctLines k [dpa / 64] u
    t.rd .eccCorrected k = satAdd 64 (s.rd .eccCorrected k) 1 ∧ dpa / 64 ∈ (t.stack k).rowTests ∧ dpa / 64 ∉ (t.stack k).soft
      ∧ t = { s with regs := t.regs, flash := t.flash, stks := t.stks, cnt := t.cnt } := by
  have counted : (u.bump .eccCorrected k).rd .eccCorrected k = satAdd 64 (s.rd .eccCorrected k) 1 := by
    rw [State.bump, State.bumpBy, State.wr_rd, State.rd, count]
    rfl
  have frame := corrects_correctLines k [dpa / 64] u
  refine ⟨counted, ?_, ?_, ?_⟩
  · rw [correctLines, State.modStack_stack, List.mem_append]
    generalize State.stack _ k = x
    by_cases due : dpa / 64 ∈ x.rowTests
    · exact .inl due
    · exact .inr (List.mem_filter.2 ⟨List.mem_singleton_self _, by simpa using due⟩)
  · rw [correctLines, State.modStack_stack]
    simp [List.mem_filter]
  · rw [frame, count]

/-- The version word of a square's record is lost: it is marked and reported, and the domain is LOST (R167, Table 07-3). -/
theorem loseRecord_loses {e : Nat × BitVec 128} {i off : Nat} (at_ : s.regionAt dpa = some e) (kind : rKind e.2 = 1)
    (square : squareAt e.2 dpa = some (i, off)) :
    let t := loseRecord dpa u
    (t.dom (rDomain e.2)).lost = true ∧ testBit t.host.irqCause.toNat 1 = true ∧ testBit t.host.irqCause.toNat 2 = true
      ∧ t.vrecBad (stackOf dpa) (rVtBase e.2 + i) = true ∧ t.dram = s.dram := by
  have region : u.regionAt dpa = some e := by
    rw [count]
    exact at_
  let w := (rVtBase e.2 + i) / 4
  let v := u.modStack (stackOf dpa) (fun x => { x with vtBad := if x.vtBad.contains w then x.vtBad else x.vtBad ++ [w] })
  have lost : loseRecord dpa u = setLost (rDomain e.2) (raiseUe dpa 3 (some (rDomain e.2)) v) := by
    unfold loseRecord
    rw [region]
    dsimp only
    rw [if_pos kind, square]
  have finds : Finds v (loseRecord dpa u) := lost ▸ (finds_setLost ..).after (finds_raiseUe ..)
  obtain ⟨fault, memory⟩ := raiseUe_causes dpa 3 (some (rDomain e.2)) v
  dsimp only
  refine ⟨?_, ?_, ?_, ?_, ?_⟩
  · rw [lost]
    exact setLost_lost ..
  · rw [lost, testBit_eq]
    exact (finds_setLost ..).irq 1 fault
  · rw [lost, testBit_eq]
    exact (finds_setLost ..).irq 2 memory
  · rw [State.vrecBad, finds.vtBad, State.modStack_stack, List.contains_iff_mem]
    dsimp only
    split
    · rename_i marked
      exact List.contains_iff_mem.1 marked
    · exact List.mem_append_right _ (List.mem_singleton_self w)
  · rw [finds.dram, State.modStack_dram, count]

/-- An uncorrectable line is marked and reported; a domain that has it in a committed plane is LOST (R167). -/
theorem lineLost_loses :
    let t := lineLost k dpa u
    dpa / 64 ∈ (t.stack k).bad ∧ testBit t.host.irqCause.toNat 1 = true ∧ testBit t.host.irqCause.toNat 2 = true ∧ t.dram = s.dram
      ∧ ∀ d, inCommitted s dpa = some d → (t.dom d).lost = true := by
  have committed : inCommitted u dpa = inCommitted s dpa := by
    rw [count]
    rfl
  have marked := lineMarked_bad k (dpa / 64) u
  have memory : (lineMarked k (dpa / 64) u).dram = s.dram := by
    rw [lineMarked, State.modStack_dram, count]
  have lostBy : lineLost k dpa u = lostIn (inCommitted s dpa) (raiseUe dpa 3 (inCommitted s dpa) (lineMarked k (dpa / 64) u)) := by
    rw [lineLost, inCommitted_lineMarked, committed]
  rw [lostBy]
  generalize lineMarked k (dpa / 64) u = v at marked memory
  obtain ⟨fault, error⟩ := raiseUe_causes dpa 3 (inCommitted s dpa) v
  have finds := (finds_lostIn (inCommitted s dpa) _).after (finds_raiseUe dpa 3 (inCommitted s dpa) v)
  refine ⟨finds.bad k ▸ marked, ?_, ?_, finds.dram.trans memory, fun d at_ => ?_⟩
  · rw [testBit_eq]
    exact (finds_lostIn ..).irq 1 fault
  · rw [testBit_eq]
    exact (finds_lostIn ..).irq 2 error
  · rw [at_]
    exact setLost_lost ..

end

/-- The scrub of a stack by the outcomes of its reads. -/
theorem patrolScrub_reads {k : StackNo} {line dpa : Nat} {o : LineOutcome} {s : State} (at_ : dpa = k.val * stackBytes + 64 * line)
    (within : 64 * line + 64 < stackBytes) (ok : s.stackOk k.val = true) (on : s.powered = true) (free : s.underTest k.val = false) :
    let l := dpa / 64
    let x := s.stack k.val
    (l ∉ x.bad → l ∉ x.soft →
      (o = .clean → ∃ t, exec (.patrolScrub k line o) s = .next t ∧ t = { s with cnt := t.cnt })
      ∧ (o = .weak → ∃ t, exec (.patrolScrub k line o) s = .next t
          ∧ t = { s.modStack k.val (fun x => { x with soft := x.soft ++ [l] }) with cnt := t.cnt })
      ∧ (∀ e i off, o = .versionWord → s.regionAt dpa = some e → rKind e.2 = 1 → squareAt e.2 dpa = some (i, off) →
        ∃ t, exec (.patrolScrub k line o) s = .next t ∧ (t.dom (rDomain e.2)).lost = true ∧ testBit t.host.irqCause.toNat 1 = true
          ∧ testBit t.host.irqCause.toNat 2 = true ∧ t.vrecBad (stackOf dpa) (rVtBase e.2 + i) = true ∧ t.dram = s.dram))
    ∧ (l ∉ x.bad → o = .corrected ∨ (l ∈ x.soft ∧ o ≠ .uncorrectable) →
      ∃ t, exec (.patrolScrub k line o) s = .next t ∧ t.rd .eccCorrected k.val = satAdd 64 (s.rd .eccCorrected k.val) 1
        ∧ l ∈ (t.stack k.val).rowTests ∧ l ∉ (t.stack k.val).soft ∧ t = { s with regs := t.regs, flash := t.flash, stks := t.stks, cnt := t.cnt })
    ∧ (l ∈ x.bad ∨ o = .uncorrectable →
      ∃ t, exec (.patrolScrub k line o) s = .next t ∧ l ∈ (t.stack k.val).bad
        ∧ testBit t.host.irqCause.toNat 1 = true ∧ testBit t.host.irqCause.toNat 2 = true ∧ t.dram = s.dram
        ∧ (∀ d, inCommitted s dpa = some d → (t.dom d).lost = true)) := by
  intro l x
  have reads := exec_patrolScrub_inner within ok on free o
  rw [← at_] at reads
  have count := countLines_frame 0 dpa 64 s
  have gives : ∀ r, scrubOutcome (x.bad.contains l) (x.soft.contains l) o = r →
      exec (.patrolScrub k line o) s = .next (lineScrubbed k.val dpa r (countLines 0 dpa 64 s)) := fun r hr => hr ▸ reads
  generalize countLines 0 dpa 64 s = u at count gives
  refine ⟨fun bad soft => ?_, fun bad h => ?_, fun h => ?_⟩
  · have same := scrubOutcome_same (bad := x.bad.contains l) (soft := x.soft.contains l) (by simpa using bad) (by simpa using soft) o
    refine ⟨fun clean => ⟨u, gives _ (same.trans clean), count⟩, fun weak => ⟨_, gives _ (same.trans weak), ?_⟩,
      fun e i off word region kind square => ⟨_, gives _ (same.trans word), loseRecord_loses count region kind square⟩⟩
    rw [lineScrubbed, count]
    rfl
  · exact ⟨_, gives _ (scrubOutcome_corrected (by simpa using bad) (by simpa using h)), correctLines_one count⟩
  · exact ⟨_, gives _ (scrubOutcome_uncorrectable (by simpa using h)), lineLost_loses count⟩

/-- A clean last line ends the pass of the scrub, whose time is a measured value. -/
theorem patrolScrub_passes {k : StackNo} {line dpa : Nat} {s : State} (at_ : dpa = k.val * stackBytes + 64 * line)
    (last : 64 * line + 64 = stackBytes) (ok : s.stackOk k.val = true) (on : s.powered = true) (free : s.underTest k.val = false)
    (bad : dpa / 64 ∉ (s.stack k.val).bad) (soft : dpa / 64 ∉ (s.stack k.val).soft) :
    ∃ t, exec (.patrolScrub k line .clean) s = .next t ∧ t = { s with regs := t.regs, fresh := t.fresh, cnt := t.cnt } := by
  have reads := exec_patrolScrub (k := k) (s := s) (line := line) (by omega) ok on free .clean
  have count := countLines_frame 0 dpa 64 s
  rw [← at_, if_pos last, scrubRead, scrubOutcome_same (by simpa using bad) (by simpa using soft), lineScrubbed] at reads
  refine ⟨_, reads, ?_⟩
  rw [count]
  rfl

/-! ### The scrub of a board store (R100) -/

section
variable {b : BoardNo} {w : Nat} {s : State}

theorem exec_boardStoreScrub_idle (h : storeBytes ≤ 8 * w ∨ s.storeUp b.val = false ∨ s.powered = false) (o : LineOutcome) :
    exec (.boardStoreScrub b w o) s = .next s := by
  show execBoardStoreScrub b w o s = _
  refine if_pos ?_
  rcases h with beyond | down | off
  · simp [beyond]
  · simp [down]
  · simp [off]

/-- A word after the scrub's read of it. -/
def wordScrubbed (b w : Nat) (o : LineOutcome) (s : State) : State :=
  match o with
  | .clean => s
  | .versionWord => s
  | .weak => s.modBoard b (fun x => { x with storeSoft := x.storeSoft ++ [w] })
  | .corrected => correctWords b [w] s
  | .uncorrectable => storeUe b w 3 (s.modBoard b (fun x =>
      { x with storeBad := if x.storeBad.contains w then x.storeBad else x.storeBad ++ [w]
               storeSoft := x.storeSoft.filter (· != w) }))

theorem exec_boardStoreScrub (within : 8 * w < storeBytes) (up : s.storeUp b.val = true) (on : s.powered = true) (o : LineOutcome) :
    exec (.boardStoreScrub b w o) s = .next (wordScrubbed b.val w
      (scrubOutcome ((s.board b.val).storeBad.contains w) ((s.board b.val).storeSoft.contains w) o) s) := by
  show execBoardStoreScrub b w o s = _
  simp only [execBoardStoreScrub, Nat.not_le.2 within, up, on, decide_false, Bool.not_true, Bool.or_self, Bool.false_eq_true, if_false]
  cases scrubOutcome ((s.board b.val).storeBad.contains w) ((s.board b.val).storeSoft.contains w) o <;> rfl

/-- A corrected word is counted, its mark goes, and the March test of its row is due (R100). -/
theorem correctWords_one (b w : Nat) (s : State) :
    let t := correctWords b [w] s
    t.rd .storeCorrected b = satAdd 32 (s.rd .storeCorrected b) 1 ∧ w ∈ (t.board b).storeTests ∧ w ∉ (t.board b).storeSoft
      ∧ t = { s with regs := t.regs, flash := t.flash, boards := t.boards } := by
  have board : (correctWords b [w] s).board b = { s.board b with
      storeSoft := (s.board b).storeSoft.filter (fun v => !([w].contains v))
      storeTests := if (s.board b).storeTests.contains w then (s.board b).storeTests else (s.board b).storeTests ++ [w] } := by
    unfold correctWords queueMarch forEach
    simp only [List.foldl_cons, List.foldl_nil, State.modBoard_board, State.bump_board]
  refine ⟨State.wr_rd .., ?_, ?_, rfl⟩
  · rw [board]
    dsimp only
    split
    · rename_i due
      exact List.contains_iff_mem.1 due
    · exact List.mem_append_right _ (List.mem_singleton_self w)
  · rw [board]
    simp [List.mem_filter]

/-- The mark of an uncorrectable word stays while it is reported. -/
theorem storeUe_storeBad (b w reader : Nat) (s : State) : ((storeUe b w reader s).board b).storeBad = (s.board b).storeBad := by
  unfold storeUe haltAll haltBoard queueMarch
  simp only [State.modBoard_board, State.bump_board]
  rw [show ∀ (code : Nat) (at_ : Option Nat) (a r : Nat) (d : Option Nat) (u : State), (ueFlt code at_ a r d u).2.board b = u.board b from
    fun _ _ _ _ _ _ => rfl, State.modBoard_board]

/-- The scrub of a board store by the outcomes of its reads. -/
theorem boardStoreScrub_reads {o : LineOutcome} (within : 8 * w < storeBytes) (up : s.storeUp b.val = true) (on : s.powered = true) :
    let x := s.board b.val
    (w ∉ x.storeBad → w ∉ x.storeSoft →
      (o = .clean ∨ o = .versionWord → exec (.boardStoreScrub b w o) s = .next s)
      ∧ (o = .weak → exec (.boardStoreScrub b w o) s = .next (s.modBoard b.val (fun x => { x with storeSoft := x.storeSoft ++ [w] }))))
    ∧ (w ∉ x.storeBad → o = .corrected ∨ (w ∈ x.storeSoft ∧ o ≠ .uncorrectable) →
      ∃ t, exec (.boardStoreScrub b w o) s = .next t ∧ t.rd .storeCorrected b.val = satAdd 32 (s.rd .storeCorrected b.val) 1
        ∧ w ∈ (t.board b.val).storeTests ∧ w ∉ (t.board b.val).storeSoft ∧ t = { s with regs := t.regs, flash := t.flash, boards := t.boards })
    ∧ (w ∈ x.storeBad ∨ o = .uncorrectable →
      ∃ t, exec (.boardStoreScrub b w o) s = .next t ∧ w ∈ (t.board b.val).storeBad ∧ HaltsWith b.val 0x0401 t ∧ t.store = s.store) := by
  intro x
  have gives : ∀ r, scrubOutcome (x.storeBad.contains w) (x.storeSoft.contains w) o = r →
      exec (.boardStoreScrub b w o) s = .next (wordScrubbed b.val w r s) := fun r hr => hr ▸ exec_boardStoreScrub within up on o
  refine ⟨fun bad soft => ?_, fun bad h => ?_, fun h => ?_⟩
  · have same := scrubOutcome_same (bad := x.storeBad.contains w) (soft := x.storeSoft.contains w) (by simpa using bad) (by simpa using soft) o
    refine ⟨fun h => ?_, fun weak => gives _ (same.trans weak)⟩
    rcases h with clean | word
    · exact gives _ (same.trans clean)
    · exact gives _ (same.trans word)
  · exact ⟨_, gives _ (scrubOutcome_corrected (by simpa using bad) (by simpa using h)), correctWords_one ..⟩
  · refine ⟨_, gives _ (scrubOutcome_uncorrectable (by simpa using h)), ?_, storeUe_haltsWith .., (still_storeUe ..).store⟩
    rw [wordScrubbed, storeUe_storeBad, State.modBoard_board]
    dsimp only
    split
    · rename_i marked
      exact List.contains_iff_mem.1 marked
    · exact List.mem_append_right _ (List.mem_singleton_self w)

end

end Sys2Proof.Machine
end

