-- ==== Sys2Proof/Proofs/RowTests.lean ====
section
/-!
PROOFS. Proofs/RowTests.lean: the tests of stack rows, of board-store rows and of whole stacks (R166, R324, R325), and the statement on
reads, scrubs and tests.
-/
-- One proof after another: in parallel, behind the tests' long evaluations, they ask for too many threads' stacks.
set_option Elab.async false

namespace Sys2Proof.Machine

/-! ### Rows of a stack (R166, R324) -/

/-- A test that is done is no longer due. -/
def rowTested (k : Nat) (ls : List Nat) (s : State) : State := s.modStack k (fun x => { x with rowTests := ls })

/-- The bank that a failed row of stack k lies in, a free value. -/
def failedRow (k : Nat) (s : State) : Nat := k * 2 ^ 20 + (s.draw 20).1

/-- The flash notes that n spares of a bank are used, and the rows that are remapped. -/
def sparesSet (key n : Nat) (remaps : List (Nat × Nat)) (s : State) : State :=
  { s with flash := { s.flash with stackSpares := tset s.flash.stackSpares key n, stackRemaps := remaps } }

/-- The report of a spared row leaves rows, bytes and spares as they are, and is a cause of vector 1. -/
theorem sparesRaised {k : Nat} {f : Flt} (none_ : f.board = none) (s : State) :
    ((s.raise f).stack k).rowTests = (s.stack k).rowTests ∧ (s.raise f).dram = s.dram ∧ FlashKept s (s.raise f)
      ∧ testBit (s.raise f).host.irqCause.toNat 1 = true := by
  have reports := reports_raise none_ s
  refine ⟨?_, (still_raise f s).dram, flashKept_raise f s, ?_⟩
  · rw [State.stack, reports]
    rfl
  · rw [testBit_eq, raise_reported (recordWaits_none none_ s)]
    exact reportFault_irqCause ..

section
variable {k : StackNo} {s : State}

theorem exec_rowTest_idle (h : (s.stack k.val).rowTests = [] ∨ s.underTest k.val = true) (ok : Bool) : exec (.rowTest k ok) s = .next s := by
  show execRowTest k ok s = _
  have none_ : (if s.underTest k.val then [] else (s.stack k.val).rowTests) = [] := by
    rcases h with none_ | tested
    · rw [none_, ite_self]
    · rw [if_pos tested]
  simp only [execRowTest, none_]

section
variable {l : Nat} {ls : List Nat} (due : (s.stack k.val).rowTests = l :: ls) (free : s.underTest k.val = false)
include due free

theorem exec_rowTest_out (out : s.stackOk k.val = false) (ok : Bool) : exec (.rowTest k ok) s = .next (rowTested k.val ls s) := by
  have still_ : (rowTested k.val ls s).stackOk k.val = false := out
  show execRowTest k ok s = _
  unfold rowTested at still_ ⊢
  simp only [execRowTest, due, free, still_, Bool.false_eq_true, if_false, Bool.not_false, if_true]

section
variable (ok : s.stackOk k.val = true)
include ok

/-- A row that passes was a transient event. -/
theorem exec_rowTest_passes : exec (.rowTest k true) s
    = .next (s.modStack k.val (fun x => { x with rowTests := ls, transients := satAdd 32 x.transients 1 })) := by
  have still_ : (rowTested k.val ls s).stackOk k.val = true := ok
  show execRowTest k true s = _
  unfold rowTested at still_
  simp only [execRowTest, due, free, still_, Bool.false_eq_true, if_false, Bool.not_true, if_true, State.modStack_modStack]

/-- A row that fails is spared, or the end of its bank's spares is reported, or nothing is left to be done. -/
theorem exec_rowTest_fails :
    let v := rowTested k.val ls s
    let key := failedRow k.val v
    let used := tget s.flash.stackSpares key 0
    let f : Flt := { code := 0x0404, flags := fLasting, kind := 5, unit := 32 * k.val + channelOf (64 * l) }
    let u := sparesSet key (used + 1) (s.flash.stackRemaps ++ [(key, l)]) (v.draw 20).2
    (used < 16 → exec (.rowTest k false) s = .next (((u.draw 32).2.maxReg .spareStallMax (min (u.draw 32).1 30000) k.val).raise f))
    ∧ (used = 16 → exec (.rowTest k false) s
      = .next ((sparesSet key 17 s.flash.stackRemaps (v.draw 20).2).raise { f with code := 0x0405 }))
    ∧ (16 < used → exec (.rowTest k false) s = .next (v.draw 20).2) := by
  intro v key used f u
  have still_ : (rowTested k.val ls s).stackOk k.val = true := ok
  have fails : exec (.rowTest k false) s = execRowTest k false s := rfl
  unfold rowTested at still_
  simp only [fails, execRowTest, due, free, still_, Bool.false_eq_true, if_false, Bool.not_true]
  refine ⟨fun lt => ?_, fun last => ?_, fun gt => ?_⟩
  · exact if_pos lt
  · have no : ¬ used < 16 := by omega
    exact (if_neg no).trans (if_pos last)
  · have no : ¬ used < 16 ∧ used ≠ 16 := by omega
    exact (if_neg no.1).trans (if_neg no.2)

/-- What a test that fails leaves. -/
theorem rowTest_fails : ∃ t key, exec (.rowTest k false) s = .next t ∧ (t.stack k.val).rowTests = ls ∧ t.dram = s.dram
    ∧ tget t.flash.stackSpares key 0 = (if tget s.flash.stackSpares key 0 ≤ 16 then tget s.flash.stackSpares key 0 + 1
        else tget s.flash.stackSpares key 0)
    ∧ (∀ j, j ≠ key → tget t.flash.stackSpares j 0 = tget s.flash.stackSpares j 0)
    ∧ (tget s.flash.stackSpares key 0 < 16 → t.flash.stackRemaps = s.flash.stackRemaps ++ [(key, l)])
    ∧ (tget s.flash.stackSpares key 0 ≤ 16 → testBit t.host.irqCause.toNat 1 = true) := by
  obtain ⟨spared, exhausted, spent⟩ := exec_rowTest_fails due free ok
  have tests : ((rowTested k.val ls s).stack k.val).rowTests = ls := by
    rw [rowTested, State.modStack_stack]
  generalize failedRow k.val (rowTested k.val ls s) = key at spared exhausted spent
  rcases Nat.lt_trichotomy (tget s.flash.stackSpares key 0) 16 with lt | last | gt
  · have stalled : ∀ n u, FlashKept u (u.maxReg .spareStallMax n k.val) := fun n u => flashKept_wr ..
    obtain ⟨row, memory, flash, cause⟩ := sparesRaised (k := k.val)
      (f := { code := 0x0404, flags := fLasting, kind := 5, unit := 32 * k.val + channelOf (64 * l) }) rfl _
    refine ⟨_, key, spared lt, row.trans tests, memory, ?_, fun j ne => ?_, fun _ => ?_, fun _ => cause⟩
    · rw [(flash.after (stalled ..)).stackSpares, if_pos lt.le]
      exact tget_tset_self ..
    · rw [(flash.after (stalled ..)).stackSpares]
      exact tget_tset_of_ne _ _ _ _ _ ne
    · rw [(flash.after (stalled ..)).stackRemaps]
      rfl
  · obtain ⟨row, memory, flash, cause⟩ := sparesRaised (k := k.val)
      (f := { code := 0x0405, flags := fLasting, kind := 5, unit := 32 * k.val + channelOf (64 * l) }) rfl _
    refine ⟨_, key, exhausted last, row.trans tests, memory, ?_, fun j ne => ?_, fun lt => absurd last (Nat.ne_of_lt lt), fun _ => cause⟩
    · rw [flash.stackSpares, if_pos last.le, last]
      exact tget_tset_self ..
    · rw [flash.stackSpares]
      exact tget_tset_of_ne _ _ _ _ _ ne
  · refine ⟨_, key, spent gt, tests, rfl, ?_, fun j ne => rfl, fun lt => absurd lt (Nat.lt_asymm gt), fun le => absurd le (Nat.not_le.2 gt)⟩
    rw [if_neg (Nat.not_le.2 gt)]
    rfl

end

end

end

/-! ### Rows of a board store (R100, R118, R324) -/

theorem storeBank_lt (a : Nat) : storeBank a < 32 :=
  Nat.xor_lt_two_pow (n := 5) (Nat.xor_lt_two_pow (bitsOf_lt a 12 8) (bitsOf_lt a 17 13)) (bitsOf_lt a 22 18)

theorem haltQuiet_halts (b : Nat) (s : State) : ((haltQuiet b s).board b).halt ≠ .none := by
  rw [haltQuiet, State.modBoard_board]
  dsimp only
  split
  · nofun
  · rename_i halted
    exact fun none_ => halted (by rw [none_]; rfl)

/-- A March test that is done is no longer due. -/
def storeTested (b : Nat) (ws : List Nat) (s : State) : State := s.modBoard b (fun x => { x with storeTests := ws })

/-- The spare for word w's row: the flash notes it, and the buffers on the row are withdrawn. -/
def wordSpared (b w : Nat) (s : State) : State :=
  let bank := 32 * b + storeBank (8 * w)
  { s.modBoard b (fun x => { x with withdrawn := x.withdrawn ++ x.bufsAt w }) with
    flash := { s.flash with storeSpares := tset s.flash.storeSpares bank (tget s.flash.storeSpares bank 0 + 1)
                            storeRemaps := s.flash.storeRemaps ++ [(bank, w)] } }

theorem storeTested_board (b : Nat) (ws : List Nat) (s : State) : (storeTested b ws s).board b = { s.board b with storeTests := ws } :=
  State.modBoard_board s b (fun x => { x with storeTests := ws })

theorem wordSpared_board (b w : Nat) (s : State) :
    (wordSpared b w s).board b = { s.board b with withdrawn := (s.board b).withdrawn ++ (s.board b).bufsAt w } :=
  State.modBoard_board s b (fun x => { x with withdrawn := x.withdrawn ++ x.bufsAt w })

section
variable {b : BoardNo} {s : State}

theorem exec_marchTest_idle (h : (s.board b.val).storeTests = [] ∨ (s.board b.val).asleep = true) (ok : Bool) :
    exec (.marchTest b ok) s = .next s := by
  show execMarchTest b ok s = _
  have none_ : (if (s.board b.val).asleep then [] else (s.board b.val).storeTests) = [] := by
    rcases h with none_ | asleep
    · rw [none_, ite_self]
    · rw [if_pos asleep]
  simp only [execMarchTest, none_]

section
variable {w : Nat} {ws : List Nat} (due : (s.board b.val).storeTests = w :: ws) (awake : (s.board b.val).asleep = false)
include due awake

theorem exec_marchTest_out (out : s.boardOk b.val = false) (ok : Bool) : exec (.marchTest b ok) s = .next (storeTested b.val ws s) := by
  have still_ : (storeTested b.val ws s).boardOk b.val = false := out
  show execMarchTest b ok s = _
  unfold storeTested at still_ ⊢
  simp only [execMarchTest, due, awake, still_, Bool.false_eq_true, if_false, Bool.not_false, if_true]

section
variable (ok : s.boardOk b.val = true)
include ok

/-- A row that passes was a transient event. -/
theorem exec_marchTest_passes : exec (.marchTest b true) s
    = .next (s.modBoard b.val (fun x => { x with storeTests := ws, transients := satAdd 32 x.transients 1 })) := by
  have still_ : (storeTested b.val ws s).boardOk b.val = true := ok
  show execMarchTest b true s = _
  unfold storeTested at still_
  simp only [execMarchTest, due, awake, still_, Bool.false_eq_true, if_false, Bool.not_true, if_true, State.modBoard_modBoard]

/-- A row that fails is spared, or its Board is retired. -/
theorem exec_marchTest_fails :
    let v := storeTested b.val ws s
    let bank := 32 * b.val + storeBank (8 * w)
    (tget s.flash.storeSpares bank 0 < 64 → exec (.marchTest b false) s
      = .next ((wordSpared b.val w v).raise { code := 0x0404, flags := fLasting, kind := 3, unit := bank }))
    ∧ (64 ≤ tget s.flash.storeSpares bank 0 → exec (.marchTest b false) s = .next (retireBoard b.val (haltQuiet b.val
      (v.modBoard b.val (fun x => { x with haltDomains := (x.haltDomains ++ openDomsOn b.val v).eraseDups }))))) := by
  intro v bank
  have still_ : (storeTested b.val ws s).boardOk b.val = true := ok
  have fails : exec (.marchTest b false) s = execMarchTest b false s := rfl
  unfold storeTested at still_
  simp only [fails, execMarchTest, due, awake, still_, Bool.false_eq_true, if_false, Bool.not_true]
  exact ⟨fun spare => if_pos spare, fun none_ => if_neg (Nat.not_lt.2 none_)⟩

/-- What the sparing of a row leaves. -/
theorem marchTest_spares (spare : tget s.flash.storeSpares (32 * b.val + storeBank (8 * w)) 0 < 64) :
    let bank := 32 * b.val + storeBank (8 * w)
    ∃ t, exec (.marchTest b false) s = .next t ∧ tget t.flash.storeSpares bank 0 = tget s.flash.storeSpares bank 0 + 1
      ∧ t.flash.storeRemaps = s.flash.storeRemaps ++ [(bank, w)] ∧ (t.board b.val).storeTests = ws
      ∧ (∀ h ∈ (s.board b.val).bufsAt w, h ∈ (t.board b.val).withdrawn)
      ∧ (s.dev.restarting.contains (16 + b.val) = false → testBit t.host.irqCause.toNat 1 = true)
      ∧ t.flash.retiredBoards = s.flash.retiredBoards := by
  intro bank
  let f : Flt := { code := 0x0404, flags := fLasting, kind := 3, unit := bank }
  have owner : f.board = some b.val := by
    show some (bank / 32) = some b.val
    have := storeBank_lt (8 * w)
    congr 1
    omega
  have kept := flashKept_raise f (wordSpared b.val w (storeTested b.val ws s))
  obtain ⟨ls, board⟩ := raise_board f (wordSpared b.val w (storeTested b.val ws s)) b.val
  rw [wordSpared_board, storeTested_board] at board
  refine ⟨_, (exec_marchTest_fails due awake ok).1 spare, ?_, ?_, ?_, fun h mem => ?_, fun idle => ?_, ?_⟩
  · rw [kept.storeSpares]
    exact tget_tset_self ..
  · rw [kept.storeRemaps]
    rfl
  · rw [board]
  · rw [board]
    exact List.mem_append_right _ mem
  · rw [raise_reported, testBit_eq]
    · exact reportFault_irqCause ..
    · rw [State.recordWaits, owner]
      exact idle
  · rw [kept.retiredBoards]
    rfl

/-- Without a spare the Board is retired; it halts, or the module is SAFE. -/
theorem marchTest_retires (none_ : 64 ≤ tget s.flash.storeSpares (32 * b.val + storeBank (8 * w)) 0) :
    ∃ t, exec (.marchTest b false) s = .next t ∧ testBit t.flash.retiredBoards b.val = true
      ∧ ((t.board b.val).halt ≠ .none ∨ t.dev.state = .safe) :=
  ⟨_, (exec_marchTest_fails due awake ok).2 none_, retireBoard_retired .., retireBoard_halt (haltQuiet_halts _ _)⟩

end

end

end

/-! ### The test of all channels of a stack (Table 15-2) -/

section
variable {k : StackNo} {s : State}

theorem exec_stackSelfTest_idle (h : (s.stack k.val).testDue = false ∨ s.powered = false) (ok : Bool) :
    exec (.stackSelfTest k ok) s = .next s := by
  show execStackSelfTest k ok s = _
  refine if_pos ?_
  rcases h with done | off
  · simp [done]
  · simp [off]

theorem exec_stackSelfTest (due : (s.stack k.val).testDue = true) (on : s.powered = true) (ok : Bool) :
    let v := retryReads k.val (s.modStack k.val (fun x => { x with testDue := false, ueTimes := [] }))
    exec (.stackSelfTest k ok) s = .next (if ok then v else retireStack k.val v) := by
  show execStackSelfTest k ok s = _
  simp only [execStackSelfTest, due, on, Bool.not_true, Bool.or_self, Bool.false_eq_true, if_false]

/-- A stack that holds no read serves none. -/
theorem retryReads_none {k : Nat} {s : State} (none_ : (s.stack k).reads = []) : retryReads k s = s.modStack k id := by
  unfold retryReads
  rw [none_]
  simp only [List.filter_nil, forEach, List.foldl_nil]
  rw [State.modStack, State.modStack, ← none_]
  rfl

end

/-! ### The statement -/

/-- Settles O51: reads by their lines, scrubs by the outcome of their reads, and tests by their verdicts; a retirement stays in flash by `FlashKept`. -/
theorem stackReadsAndTests : Obligations.StackReadsAndTests := by
  refine ⟨fun k r s => ⟨exec_stackRead_idle, fun served => ⟨readLines_elsewhere, stackRead_ends served⟩⟩,
    fun k i s => ⟨exec_aheadHoldTimeout_waits, fun h held free => aheadHoldTimeout_ends held free⟩,
    fun k s => ⟨fun ok idle => exec_rowTest_idle idle ok, fun l ls due free =>
      ⟨fun ok => ⟨exec_rowTest_passes due free ok, rowTest_fails due free ok⟩, fun ok out => exec_rowTest_out due free out ok⟩⟩,
    fun k line o s => ⟨fun idle => exec_patrolScrub_idle idle o, fun within ok on free => patrolScrub_reads rfl within ok on free,
      fun last ok on free bad soft clean => clean ▸ patrolScrub_passes rfl last ok on free bad soft⟩,
    fun b w o s => ⟨fun idle => exec_boardStoreScrub_idle idle o, fun within up on => boardStoreScrub_reads within up on⟩,
    fun b s => ⟨fun ok idle => exec_marchTest_idle idle ok, fun w ws due awake =>
      ⟨exec_marchTest_passes due awake, marchTest_spares due awake, marchTest_retires due awake,
        fun ok out => exec_marchTest_out due awake out ok⟩⟩,
    fun k s => ⟨fun due on => ⟨fun none_ => ?_, ?_⟩, fun ok idle => exec_stackSelfTest_idle idle ok⟩⟩
  · rw [exec_stackSelfTest due on true, if_pos rfl, retryReads_none, State.modStack_modStack]
    · rfl
    · rw [State.modStack_stack]
      exact none_
  · exact ⟨_, exec_stackSelfTest due on false, retireStack_retired ..⟩

end Sys2Proof.Machine
end

