-- ==== Sys2Proof/Proofs/Aborts.lean ====
section
/-!
PROOFS. Proofs/Aborts.lean: what the abort of a running job leaves as it is: the identity, the job's tables, the memories, the registers of
refused table loads, and every cause that has risen (`Aborting`); and the state in which it leaves the module and its Boards (R280, Table 12-13).
-/
-- One proof after another: in parallel, behind the tests' long evaluations, they ask for too many threads' stacks.
set_option Elab.async false

namespace Sys2Proof.Machine

/-! ### The relation -/

/-- The registers of refused table loads (R131). -/
def Reg.refusals : List Reg := [.loadRefusals, .lastRefusal]

/-- t is s while a job is aborted: Boards, domains, stacks, the device's state and reports may have changed, but no register of refused
loads, and every cause of s stands. -/
structure Aborting (s t : State) : Prop where
  frame : t = { s with
    regs := t.regs, vers := t.vers, flash := t.flash, dev := t.dev, host := t.host, can := t.can, doms := t.doms, stks := t.stks
    boards := t.boards, log := t.log, out := t.out }
  refusals : ∀ q ∈ Reg.refusals, ∀ u, t.rd q u = s.rd q u
  irq : ∀ i, s.host.irqCause.getLsbD i = true → t.host.irqCause.getLsbD i = true

section
variable {r s t u : State}

theorem Aborting.refl (s : State) : Aborting s s := ⟨rfl, fun _ _ _ => rfl, fun _ h => h⟩

theorem Aborting.trans (h : Aborting r s) (k : Aborting s t) : Aborting r t where
  frame := by
    rw [k.frame, h.frame]
  refusals q hq i := (k.refusals q hq i).trans (h.refusals q hq i)
  irq i := k.irq i ∘ h.irq i

/-- Two steps, the later one named first. -/
theorem Aborting.after (k : Aborting s t) (h : Aborting r s) : Aborting r t := h.trans k

theorem Aborting.ite {c : Prop} [Decidable c] (ht : Aborting s t) (hu : Aborting s u) : Aborting s (if c then t else u) := by
  split
  · exact ht
  · exact hu

/-- An update that leaves registers and causes. -/
theorem Aborting.upd (frame : t = { s with
      regs := t.regs, vers := t.vers, flash := t.flash, dev := t.dev, host := t.host, can := t.can, doms := t.doms, stks := t.stks
      boards := t.boards, log := t.log, out := t.out } := by rfl)
    (regs : t.regs = s.regs := by rfl) (irq : t.host.irqCause = s.host.irqCause := by rfl) : Aborting s t where
  frame := frame
  refusals q _ i := by rw [State.rd, State.rd, regs]
  irq _ h := irq ▸ h

theorem Aborting.ident (h : Aborting s t) : t.ident = s.ident := by rw [h.frame]

end

theorem aborting_forEach {α : Type} (l : List α) (f : α → State → State) (h : ∀ a s, Aborting s (f a s)) (s : State) :
    Aborting s (forEach l f s) := by
  unfold forEach
  induction l generalizing s with
  | nil => exact .refl s
  | cons a l ih => exact (h a s).trans (ih (f a s))

theorem aborting_modBoard (b : Nat) (f : Board → Board) (s : State) : Aborting s (s.modBoard b f) := .upd

theorem aborting_modDom (d : Nat) (f : Dom → Dom) (s : State) : Aborting s (s.modDom d f) := .upd

theorem aborting_modStack (k : Nat) (f : Stack → Stack) (s : State) : Aborting s (s.modStack k f) := .upd

/-! ### Registers and reports -/

/-- A register of the dictionary that is not one of refused loads. -/
abbrev Reg.NoRefusals (r : Reg) : Prop :=
  r.index < 65536 ∧ r.sub < 256 ∧ ∀ q ∈ Reg.refusals, ¬ (q.index = r.index ∧ q.sub = r.sub)

theorem Reg.NoRefusals.key_ne {r q : Reg} (h : r.NoRefusals) (hq : q ∈ Reg.refusals) (w u : Nat) : q.key w ≠ r.key u := by
  obtain ⟨index, sub, apart⟩ := h
  have ne := apart q hq
  have size : q.index < 65536 ∧ q.sub < 256 := (by decide : ∀ q ∈ Reg.refusals, q.index < 65536 ∧ q.sub < 256) q hq
  simp only [Reg.key]
  omega

theorem aborting_wr {r : Reg} (h : r.NoRefusals) (v u : Nat) (s : State) : Aborting s (s.wr r v u) :=
  ⟨rfl, fun q hq w => State.wr_rd_of_ne s r q v u w (h.key_ne hq w u), fun _ h => h⟩

theorem aborting_bump {r : Reg} (h : r.NoRefusals) (u : Nat) (s : State) : Aborting s (s.bump r u) := aborting_wr h _ u s

theorem aborting_bumpVer (r : Reg) (u : Nat) (s : State) : Aborting s (s.bumpVer r u) := .upd

theorem aborting_emit (o : Out) (s : State) : Aborting s (s.emit o) := .upd

theorem aborting_canNotify (bs : List Byte) (s : State) : Aborting s (canNotify s bs) := by
  unfold canNotify
  split
  · exact .refl s
  · split
    · dsimp only
      split
      · exact .upd
      · exact (aborting_bump (r := .canIgnored) (by decide) 0 s).trans .upd
    · exact aborting_emit _ s

theorem aborting_report (c v d q : Nat) (s : State) : Aborting s (report s c v d q) := by
  have can : Aborting s (if testBit (s.rd .notifyMaskCan) v then canNotify s (notifyBytes s c v d q) else s) :=
    .ite (aborting_canNotify ..) (.refl s)
  exact .ite (.refl s) (can.trans (.ite (.ite (.refl _) (aborting_emit ..)) (.refl _)))

theorem aborting_vector (v : Nat) (s : State) : Aborting s (s.vector v) := .ite .upd (aborting_emit _ s)

/-- A cause that rises ends no other. -/
theorem aborting_signal (v c d q : Nat) (s : State) : Aborting s (s.signal v c d q) := by
  have cause : Aborting s { s with host := { s.host with irqCause := s.host.irqCause ||| BitVec.ofNat 64 (2 ^ v) } } :=
    ⟨rfl, fun _ _ _ => rfl, fun i h => by simp [h]⟩
  exact cause.trans ((aborting_vector v _).trans (aborting_report ..))

theorem aborting_logFault (f : Flt) (s : State) : Aborting s (logFault s f).1 := by
  unfold logFault
  split
  · exact .upd
  · split
    · exact aborting_wr (by decide) _ 0 s
    · exact .upd

theorem aborting_reportFault (f : Flt) (s : State) : Aborting s (reportFault f s) := by
  have signals := ((aborting_logFault f s).trans (aborting_signal 1 f.code (f.domain.getD 0xFF) (logFault s f).2 _)).trans
    (aborting_forEach (alsoVectors f.code) (fun v u => u.signal v f.code (f.domain.getD 0xFF) (logFault s f).2)
      (fun _ _ => aborting_signal ..) _)
  unfold reportFault
  dsimp only
  split
  · exact signals.trans ((aborting_wr (by decide) ..).trans (aborting_vector ..))
  · exact signals

theorem aborting_raise (f : Flt) (s : State) : Aborting s (s.raise f) := .ite (aborting_modBoard ..) (aborting_reportFault f s)

/-! ### Squashes and decisions (R124, R240) -/

theorem aborting_endBeads (b : Nat) (p : Bead → Bool) (flags : Nat) (s : State) : Aborting s (endBeads b p flags s) := by
  refine (aborting_modBoard b _ s).trans (aborting_forEach _ _ (fun k u => ?_) _)
  exact .ite (aborting_bump (by decide) b u) (.after (aborting_bumpVer ..) (.after (aborting_wr (by decide) ..) (aborting_modBoard b _ u)))

theorem aborting_squash (b e : Nat) (s : State) : Aborting s (squash b e s) := by
  unfold squash
  dsimp only
  generalize hv : (State.wr _ .squashLastDuration 0 b) = v
  have counted : Aborting s v := by
    rw [← hv]
    exact .after (aborting_wr (by decide) ..) (.after (aborting_wr (by decide) ..) (.after (aborting_bump (by decide) ..)
      (.after (aborting_modBoard ..) (.after (aborting_modBoard ..) (aborting_endBeads ..)))))
  exact .ite counted (.after (aborting_modBoard ..) counted)

theorem aborting_toStacks (m : HubMsg) (s : State) : Aborting s (toStacks m s) :=
  aborting_forEach _ _ (fun _ _ => aborting_modStack ..) s

theorem aborting_discardSlices (d : Nat) (s : State) : Aborting s (discardSlices d s) :=
  aborting_forEach _ _ (fun _ _ => aborting_modBoard ..) s

/-- A decision that goes down no tree. -/
theorem aborting_takeDecision (d : Nat) (commit : Bool) (tag fv count : Nat) (s : State) :
    Aborting s (takeDecision d commit tag fv count false s) := by
  have closing : ∀ x, Aborting s (s.setDom d x) := fun _ => .upd
  unfold takeDecision
  simp only [Bool.false_eq_true, if_false]
  refine .ite ?_ ?_
  · exact (aborting_toStacks ..).after ((aborting_modDom ..).after (closing _))
  · refine (aborting_toStacks ..).after ((aborting_modDom ..).after ?_)
    refine .ite ?_ ((aborting_raise ..).after ?_) <;> exact (aborting_discardSlices ..).after (closing _)

theorem aborting_abortRing (d : Nat) (s : State) : Aborting s (abortRing d s) := by
  unfold abortRing
  exact .after (aborting_modDom ..) (aborting_forEach _ _ (fun _ _ => aborting_emit ..) s)

/-! ### A change of every Board -/

section
variable {P : Board → Prop} {f : Board → Board} {b : Nat}

/-- What an update of Boards keeps holds of each Board after it. -/
theorem forEach_modBoard_keeps (keeps : ∀ x, P x → P (f x)) (l : List Nat) {s : State} (h : P (s.board b)) :
    P ((forEach l (fun c s => s.modBoard c f) s).board b) := by
  unfold forEach
  induction l generalizing s with
  | nil => exact h
  | cons c l ih =>
    refine ih ?_
    by_cases hc : b = c
    · rw [hc, State.modBoard_board]
      exact keeps _ (hc ▸ h)
    · rwa [State.modBoard_board_of_ne _ _ _ _ hc]

/-- What an update of Boards brings about holds of each Board that it reaches. -/
theorem forEach_modBoard_sets (sets : ∀ x, P (f x)) {l : List Nat} (mem : b ∈ l) (s : State) :
    P ((forEach l (fun c s => s.modBoard c f) s).board b) := by
  induction l generalizing s with
  | nil => cases mem
  | cons c l ih =>
    rcases List.mem_cons.1 mem with rfl | mem
    · exact forEach_modBoard_keeps (fun x _ => sets x) l (by rw [State.modBoard_board]; exact sets _)
    · exact ih mem _

end

theorem mem_boardsOk {s : State} {b : Nat} (ok : s.boardOk b = true) : b ∈ s.boardsOk := by
  refine List.mem_filter.2 ⟨List.mem_range.2 ?_, ok⟩
  simp only [State.boardOk, Bool.and_eq_true, decide_eq_true_eq] at ok
  omega

/-! ### The end of an abort (R280) -/

theorem State.setState_state (s : State) (st : DevState) : (s.setState st).dev.state = st := by
  unfold State.setState
  split
  · assumption
  · rw [(still_signal ..).dev]

theorem State.setState_jobState (s : State) (st : DevState) : (s.setState st).dev.jobState = s.dev.jobState := by
  unfold State.setState
  split
  · rfl
  · rw [(still_signal ..).dev]

theorem State.setState_board (s : State) (st : DevState) (b : Nat) : (s.setState st).board b = s.board b := by
  unfold State.setState
  split
  · rfl
  · rw [State.board, reports_signal]
    rfl

theorem aborting_setState (st : DevState) (s : State) : Aborting s (s.setState st) := .ite (.refl s) (.after (aborting_signal ..) .upd)

/-- An abort ends with the Boards in service: their streams stop, and the module is READY with the job LOADED. -/
theorem abortJob_ends (s : State) :
    ∃ v, Aborting s v ∧ abortJob s = ((forEach v.boardsOk abortBoard v).setJob .loaded).setState .ready := by
  refine ⟨_, ?_, rfl⟩
  refine .after (aborting_forEach _ _ aborting_abortRing _) (.after (aborting_forEach _ _ (fun d u => ?_) _) ?_)
  · exact .ite (.after (aborting_takeDecision ..) (.after (aborting_raise ..) (aborting_modDom ..))) (.refl u)
  · exact .after (aborting_forEach _ _ (fun _ u => aborting_forEach _ _ aborting_raise u) _)
      (aborting_forEach _ _ (fun b u => aborting_forEach _ _ (aborting_squash b) u) s)

theorem aborting_abortJob (s : State) : Aborting s (abortJob s) := by
  obtain ⟨v, aborting, ends⟩ := abortJob_ends s
  rw [ends]
  exact .after (aborting_setState ..) (.after .upd (.after (aborting_forEach _ _ (fun _ _ => aborting_modBoard ..) v) aborting))

theorem aborting_sleepBoards (s : State) : Aborting s (sleepBoards s) := aborting_forEach _ _ (fun _ _ => aborting_modBoard ..) s

theorem abortJob_dev (s : State) : (abortJob s).dev.jobState = .loaded ∧ (abortJob s).dev.state = .ready := by
  obtain ⟨v, -, ends⟩ := abortJob_ends s
  rw [ends]
  exact ⟨State.setState_jobState .., State.setState_state ..⟩

theorem sleepBoards_dev (s : State) : (sleepBoards s).dev = s.dev := by
  rw [sleepBoards, forEach_modBoard_frame]

/-- The Boards in service are the same ones all through an abort. -/
theorem abortJob_boardsOk {s v : State} (aborting : Aborting s v)
    (ends : abortJob s = ((forEach v.boardsOk abortBoard v).setJob .loaded).setState .ready) (b : Nat) : v.boardOk b = s.boardOk b := by
  have later : FlashKept v (abortJob s) := by
    rw [ends]
    exact .after (flashKept_setState ..) (.after (flashKept_setJob ..) (flashKept_forEach _ _ (fun _ _ => flashKept_modBoard ..) v))
  rw [State.boardOk, State.boardOk, aborting.ident, ← later.retiredBoards, (flashKept_abortJob s).retiredBoards]

/-- An abort leaves the inactive bank of each Board in service EMPTY. -/
theorem abortJob_inactState {s : State} {b : Nat} (ok : s.boardOk b = true) : ((abortJob s).board b).inactState = 0 := by
  obtain ⟨v, aborting, ends⟩ := abortJob_ends s
  rw [ends, State.setState_board]
  exact forEach_modBoard_sets (P := fun x => x.inactState = 0) (fun _ => rfl)
    (mem_boardsOk ((abortJob_boardsOk aborting ends b).trans ok)) v

theorem sleepBoards_inactState {s : State} {b n : Nat} (h : (s.board b).inactState = n) : ((sleepBoards s).board b).inactState = n :=
  forEach_modBoard_keeps (P := fun x => x.inactState = n) (f := fun x => { x with asleep := true }) (fun _ h => h) _ h

end Sys2Proof.Machine
end

