-- ==== Sys2Proof/Proofs/BankLoads.lean ====
section
/-!
PROOFS. Proofs/BankLoads.lean: table loads by the state of the inactive bank and the verdict of its checks (R130, R131), and the swap of banks
(R132): what the issue of the streams' SWAP bundles leaves to it.
-/
-- One proof after another: in parallel, behind the tests' long evaluations, they ask for too many threads' stacks.
set_option Elab.async false

namespace Sys2Proof.Machine

/-! ### How a write of a load meets its Board (R285) -/

section
variable {b : Nat} {s : State} (r : LoadReq)

theorem takeLoad_absent (absent : seqPresent s b = false) : takeLoad b r s = s := by
  simp [takeLoad, absent]

theorem takeLoad_waits (present : seqPresent s b = true) (busy : controlBusy s b = true) :
    takeLoad b r s = s.modBoard b (fun x => { x with loadWaits := x.loadWaits ++ [r] }) := by
  simp [takeLoad, present, busy]

theorem takeLoad_performs (present : seqPresent s b = true) (idle : controlBusy s b = false) : takeLoad b r s = performLoad b r s := by
  simp [takeLoad, present, idle]

end

/-! ### LOAD_BEGIN and the words of a bank (R130) -/

section
variable {b : Nat} {s : State}

theorem beginLoad_opens (h : (s.board b).inactState = 0 ∨ (s.board b).inactState = 3) :
    beginLoad b s = s.modBoard b (fun x => { x with inactState := 1 }) := by
  simp [beginLoad, h]

theorem beginLoad_refused (empty : (s.board b).inactState ≠ 0) (invalid : (s.board b).inactState ≠ 3) :
    beginLoad b s = s.bump .loadRefusals b := by
  simp [beginLoad, loadRefused, empty, invalid]

variable {bank : Bool} (off : Nat) (w : W32)

theorem loadOneWord_writes (loading : (s.board b).inactState = 1) (inactive : (if bank then 1 else 0) ≠ (s.board b).active) :
    loadOneWord b bank off w s = s.modBoard b (fun x => x.setInactive (tset x.inactiveBank off w)) := by
  unfold loadOneWord
  exact if_pos (by simpa [loading] using inactive)

theorem loadOneWord_refused (h : (s.board b).inactState ≠ 1 ∨ (if bank then 1 else 0) = (s.board b).active) :
    loadOneWord b bank off w s = s.bump .loadRefusals b := by
  unfold loadOneWord
  refine if_neg ?_
  rcases h with other | active
  · simp [other]
  · simp [active]

end

/-! ### LOAD_END (R131) -/

/-- The last sequence number that a bank's checks compare with: none before the first bank. -/
def Board.prevSeq (x : Board) : Option Nat := if x.firstBank then none else some (bankOf x.activeBank 1)

/-- The inactive bank of Board b is INVALID. -/
def invalidBank (b : Nat) (s : State) : State := s.modBoard b (fun x => { x with inactState := 3 })

section
variable {b : Nat} {s : State}

theorem finishLoad_refused (other : (s.board b).inactState ≠ 1) : finishLoad b s = s.bump .loadRefusals b := by
  simp [finishLoad, loadRefused, other]

variable (loading : (s.board b).inactState = 1)
include loading

theorem finishLoad_passes (good : checkBank s b (bankOf (s.board b).inactiveBank) (s.board b).prevSeq = none) :
    finishLoad b s = if (s.board b).firstBank = true ∧ s.dev.jobState = .running then
        s.modBoard b (fun x => { swapBanks ({ x with inactState := 2 }.wantModes (s.replaying b)) with
          started := s.carries b, asleep := !s.carries b })
      else s.modBoard b (fun x => { x with inactState := 2 }) := by
  unfold finishLoad
  rw [Board.prevSeq] at good
  simp only [loading, good, bne_self_eq_false, Bool.false_eq_true, if_false]
  exact if_congr (by simp) (State.modBoard_modBoard ..) rfl

theorem finishLoad_fails {f : Nat × Nat} (bad : checkBank s b (bankOf (s.board b).inactiveBank) (s.board b).prevSeq = some f) :
    let u := bundleRefused b f.1 f.2 (invalidBank b s)
    finishLoad b s = if u.dev.jobState = .running then sleepBoards (abortJob u) else u := by
  unfold finishLoad
  rw [Board.prevSeq] at bad
  simp only [loading, bad, bne_self_eq_false, Bool.false_eq_true, if_false]
  exact if_congr beq_iff_eq rfl rfl

end

/-! ### The bank that becomes active (R132) -/

theorem Board.upkept_wantModes (x : Board) (handles : Bool) : x.Upkept (x.wantModes handles) := by
  unfold Board.wantModes
  refine List.foldlRecOn (motive := fun (y : Board) => x.Upkept y) _ _ (.refl x) (fun y hy l _ => ?_)
  exact .after (Board.upkept_settleLink ..) (.after .upd hy)

/-- y has the banks of x, and the same one of them is active. -/
structure Board.SameBanks (x y : Board) : Prop where
  active : y.active = x.active
  bank0 : y.bank0 = x.bank0
  bank1 : y.bank1 = x.bank1

section
variable {x y z : Board}

theorem Board.SameBanks.trans (h : x.SameBanks y) (k : y.SameBanks z) : x.SameBanks z :=
  ⟨k.active.trans h.active, k.bank0.trans h.bank0, k.bank1.trans h.bank1⟩

theorem Board.SameBanks.inactiveBank (h : x.SameBanks y) : y.inactiveBank = x.inactiveBank := by
  rw [Board.inactiveBank, Board.inactiveBank, h.active, h.bank0, h.bank1]

theorem Board.Upkept.sameBanks (h : x.Upkept y) : x.SameBanks y := by
  rw [h.frame]
  exact ⟨rfl, rfl, rfl⟩

end

/-- y runs on from the start of x's inactive bank. -/
structure Board.Swapped (x y : Board) : Prop where
  active : y.active = 1 - x.active
  inactState : y.inactState = 0
  main : y.main.pos = bankOf x.inactiveBank 0 % 65536
  fill : y.fill.pos = bankOf x.inactiveBank 0 / 65536

theorem Board.SameBanks.swapped {x y : Board} (h : x.SameBanks y) : x.Swapped (swapBanks y) where
  active := congrArg (1 - ·) h.active
  inactState := rfl
  main := congrArg (bankOf · 0 % 65536) h.inactiveBank
  fill := congrArg (bankOf · 0 / 65536) h.inactiveBank

/-- The first bank of a running job that passes becomes active at once. -/
theorem finishLoad_activates {b : Nat} {s : State} (loading : (s.board b).inactState = 1)
    (good : checkBank s b (bankOf (s.board b).inactiveBank) (s.board b).prevSeq = none)
    (first : (s.board b).firstBank = true) (running : s.dev.jobState = .running) :
    (s.board b).Swapped ((finishLoad b s).board b) ∧ ((finishLoad b s).board b).started = s.carries b
      ∧ ((finishLoad b s).board b).asleep = !s.carries b ∧ finishLoad b s = { s with boards := (finishLoad b s).boards } := by
  rw [finishLoad_passes loading good, if_pos ⟨first, running⟩, State.modBoard_board]
  have banks : (s.board b).SameBanks ({ s.board b with inactState := 2 }.wantModes (s.replaying b)) :=
    .trans (y := { s.board b with inactState := 2 }) ⟨rfl, rfl, rfl⟩ (Board.upkept_wantModes ..).sameBanks
  obtain ⟨active, inactState, main, fill⟩ := banks.swapped
  exact ⟨⟨active, inactState, main, fill⟩, rfl, rfl, rfl⟩

/-! ### A bank that fails its checks (R131) -/

/-- t notes the refusal of a bank of Board b: the offset and the reason of its bundle, one more refusal, and a cause of vector 1. -/
structure BankRefused (b o reason : Nat) (s t : State) : Prop where
  last : t.rd .lastRefusal b = o * 65536 + reason
  count : t.rd .loadRefusals b = satAdd 32 (s.rd .loadRefusals b) 1
  irq : testBit t.host.irqCause.toNat 1 = true

theorem BankRefused.aborting {b o reason : Nat} {s t u : State} (h : BankRefused b o reason s t) (k : Aborting t u) :
    BankRefused b o reason s u where
  last := (k.refusals _ (by decide) b).trans h.last
  count := (k.refusals _ (by decide) b).trans h.count
  irq := by
    have set := h.irq
    rw [testBit_eq] at set ⊢
    exact k.irq 1 set

section
variable {b o reason : Nat} {s : State}

/-- The refusal of a bank whose control core runs is reported at once. -/
theorem bundleRefused_refused (idle : controlBusy s b = false) : BankRefused b o reason s (bundleRefused b o reason s) := by
  have key : Reg.loadRefusals.key b ≠ Reg.lastRefusal.key b := by
    simp [Reg.key, Reg.loadRefusals, Reg.lastRefusal]
  unfold bundleRefused
  refine ⟨((aborting_raise ..).refusals _ (by decide) b).trans (State.wr_rd ..), ?_, ?_⟩
  · exact ((aborting_raise ..).refusals _ (by decide) b).trans ((State.wr_rd_of_ne _ _ _ _ _ _ key).trans (State.wr_rd ..))
  · rw [raise_reported, testBit_eq]
    · exact reportFault_irqCause ..
    · exact idle

theorem bundleRefused_still : Still s (bundleRefused b o reason s) :=
  .after (still_raise ..) (.after (still_wr (by decide) ..) (still_bump (by decide) ..))

theorem bundleRefused_inactState : ((bundleRefused b o reason s).board b).inactState = (s.board b).inactState := by
  obtain ⟨ws, board⟩ := raise_board { code := 0x0104, kind := 1, unit := b, detail := packAt [(0, 2, o), (2, 1, reason)] }
    ((s.bump .loadRefusals b).wr .lastRefusal (o * 65536 + reason) b) b
  rw [bundleRefused, board]
  rfl

theorem bundleRefused_boardOk : (bundleRefused b o reason s).boardOk b = s.boardOk b := by
  have flash : FlashKept s (bundleRefused b o reason s) := .after (flashKept_raise ..) (.after (flashKept_wr ..) (flashKept_bump ..))
  have ident : (bundleRefused b o reason s).ident = s.ident :=
    (aborting_raise _ ((s.bump .loadRefusals b).wr .lastRefusal (o * 65536 + reason) b)).ident
  rw [State.boardOk, State.boardOk, ident, flash.retiredBoards]

/-- A bank that fails is INVALID and its refusal is noted; where a job runs it is aborted too, and the bank is EMPTY. -/
theorem finishLoad_invalid (ok : s.boardOk b = true) (idle : controlBusy s b = false) (loading : (s.board b).inactState = 1)
    (bad : checkBank s b (bankOf (s.board b).inactiveBank) (s.board b).prevSeq = some (o, reason)) :
    ((finishLoad b s).board b).inactState = (if s.dev.jobState = .running then 0 else 3) ∧ BankRefused b o reason s (finishLoad b s)
      ∧ (s.dev.jobState = .running → (finishLoad b s).dev.jobState = .loaded ∧ (finishLoad b s).dev.state = .ready) := by
  have refused : BankRefused b o reason s (bundleRefused b o reason (invalidBank b s)) := by
    obtain ⟨last, count, irq⟩ := bundleRefused_refused (s := invalidBank b s) (o := o) (reason := reason) idle
    exact ⟨last, count, irq⟩
  have dev : (bundleRefused b o reason (invalidBank b s)).dev = s.dev := bundleRefused_still.dev
  have present : (bundleRefused b o reason (invalidBank b s)).boardOk b = true := bundleRefused_boardOk.trans ok
  rw [finishLoad_fails loading bad, dev]
  by_cases running : s.dev.jobState = .running
  · simp only [running, if_true]
    refine ⟨sleepBoards_inactState (abortJob_inactState present), refused.aborting ?_, fun _ => ?_⟩
    · exact (aborting_sleepBoards _).after (aborting_abortJob _)
    · rw [sleepBoards_dev]
      exact abortJob_dev _
  · simp only [running, if_false]
    refine ⟨bundleRefused_inactState.trans ?_, refused, nofun⟩
    rw [invalidBank, State.modBoard_board]

end

/-! ### The issue of a SWAP bundle (R132) -/

theorem reports_bumpVer (r : Reg) (u : Nat) (s : State) : Reports s (s.bumpVer r u) := rfl

/-- t is s after work of Board b that moves no memory: its banks stay, and so does every other Board. -/
structure OnBoard (b : Nat) (s t : State) : Prop where
  banks : (s.board b).SameBanks (t.board b)
  others : ∀ c, c ≠ b → t.board c = s.board c
  store : t.store = s.store
  dram : t.dram = s.dram

section
variable {b : Nat} {r s t u : State}

theorem OnBoard.refl (s : State) : OnBoard b s s := ⟨⟨rfl, rfl, rfl⟩, fun _ _ => rfl, rfl, rfl⟩

theorem OnBoard.trans (h : OnBoard b r s) (k : OnBoard b s t) : OnBoard b r t where
  banks := h.banks.trans k.banks
  others c hc := (k.others c hc).trans (h.others c hc)
  store := k.store.trans h.store
  dram := k.dram.trans h.dram

/-- Two steps, the later one named first. -/
theorem OnBoard.after (k : OnBoard b s t) (h : OnBoard b r s) : OnBoard b r t := h.trans k

theorem OnBoard.ite {c : Prop} [Decidable c] (ht : OnBoard b s t) (hu : OnBoard b s u) : OnBoard b s (if c then t else u) := by
  split
  · exact ht
  · exact hu

/-- Reports reach no Board and no memory. -/
theorem Reports.onBoard (h : Reports s t) : OnBoard b s t := by
  have boards : ∀ c, t.board c = s.board c := fun c => by rw [State.board, h]; rfl
  exact ⟨by rw [boards]; exact ⟨rfl, rfl, rfl⟩, fun c _ => boards c, by rw [h], by rw [h]⟩

end

section
variable (b : Nat)

theorem onBoard_modBoard (f : Board → Board) (s : State) (h : ∀ x : Board, x.SameBanks (f x) := by exact fun _ => ⟨rfl, rfl, rfl⟩) :
    OnBoard b s (s.modBoard b f) where
  banks := by
    rw [State.modBoard_board]
    exact h _
  others c hc := State.modBoard_board_of_ne _ _ _ _ hc
  store := rfl
  dram := rfl

theorem onBoard_forEach {α : Type} (l : List α) (f : α → State → State) (h : ∀ a s, OnBoard b s (f a s)) (s : State) :
    OnBoard b s (forEach l f s) := by
  unfold forEach
  induction l generalizing s with
  | nil => exact .refl s
  | cons a l ih => exact (h a s).trans (ih (f a s))

theorem Board.sameBanks_setStrm (x : Board) (st : StreamSel) (y : Stream) : x.SameBanks (x.setStrm st y) := by
  cases st <;> exact ⟨rfl, rfl, rfl⟩

theorem onBoard_countEvent (ev : Nat) (d f : Option Nat) (n : Nat) (s : State) : OnBoard b s (countEvent b ev d f n s) := by
  unfold countEvent
  refine .ite (.refl s) (onBoard_forEach b _ _ (fun k u => ?_) s)
  exact .ite (.trans (onBoard_modBoard b _ u) (.ite (reports_signal ..).onBoard (.refl _))) (.refl u)

theorem onBoard_countIssue (st : StreamSel) (d : Option Nat) (s : State) : OnBoard b s (countIssue b st d s) := by
  cases st with
  | main => exact .after (onBoard_countEvent ..) (reports_bump ..).onBoard
  | filler => exact .after (onBoard_countEvent ..) (.after (reports_bump ..).onBoard (reports_bump ..).onBoard)

theorem onBoard_openBead (st : StreamSel) (n : Next) (id layer mb : Nat) (layered : Bool) (s : State) :
    OnBoard b s (openBead b st n id layer mb layered s) := by
  have counted := onBoard_modBoard b (fun y => { y with beadK := ((s.board b).beadK + 1) % 2 ^ 32 }) s
  exact .ite (.refl s) (.ite counted (.ite (.after (onBoard_modBoard b _ _) counted) (.after (reports_bump ..).onBoard counted)))

theorem onBoard_settleBeads (s : State) : OnBoard b s (settleBeads b s) := by
  refine (onBoard_modBoard b _ s).trans (onBoard_forEach b _ _ (fun k u => ?_) _)
  exact .ite (reports_bump ..).onBoard (.after (reports_bumpVer ..).onBoard (.after (reports_wr ..).onBoard (onBoard_modBoard b _ u)))

theorem onBoard_issueOp (st : StreamSel) (n : Next) (s : State) : OnBoard b s (issueOp b st n s) :=
  .after (onBoard_settleBeads ..) (.after (onBoard_openBead ..) (.after (onBoard_countIssue ..) (onBoard_modBoard b _ s)))

/-- The SWAP bundle at which a stream stands issues. -/
def swapIssued (st : StreamSel) (s : State) : State :=
  if ((s.board b).strm st).atSwap then
    let n := nextBundle (s.board b) st
    issueOp b st n (s.modBoard b (fun x => x.setStrm st { x.strm st with groups := tset (x.strm st).groups 11 (grpAt n.gs 11) }))
  else s

theorem onBoard_swapIssued (st : StreamSel) (s : State) : OnBoard b s (swapIssued b st s) :=
  .ite (.after (onBoard_issueOp ..) (onBoard_modBoard b _ s fun x => x.sameBanks_setStrm st _)) (.refl s)

end

/-! ### BANK_SWAP -/

/-- The banks of a Board swap: the inactive one is READY, both streams stand at SWAP or the filler has stopped, and the job runs (R132). -/
def SwapDue (x : Board) (s : State) : Prop :=
  x.inactState = 2 ∧ x.main.atSwap = true ∧ (x.fill.atSwap = true ∨ x.fill.stopped = true) ∧ x.halt = .none ∧ s.dev.jobState = .running

section
variable {b : BoardNo} {s : State}

theorem exec_bankSwap_idle (h : ¬ SwapDue (s.board b.val) s) : exec (.bankSwap b) s = .next s := by
  show execBankSwap b s = _
  unfold execBankSwap
  exact if_neg (by simpa [SwapDue, and_assoc] using h)

theorem exec_bankSwap_swaps (h : SwapDue (s.board b.val) s) :
    exec (.bankSwap b) s = .next ((swapIssued b.val .filler (swapIssued b.val .main s)).modBoard b.val swapBanks) := by
  show execBankSwap b s = _
  unfold execBankSwap
  exact if_pos (by simpa [SwapDue, and_assoc] using h)

end

/-! ### The statement -/

/-- Settles O52: each write of a load by the state of the inactive bank and the verdict of its checks, where the abort of a job keeps the
refusal that it follows (`Aborting`); the swap by what the issue of the SWAP bundles leaves of the banks (`OnBoard`). -/
theorem bankLoads : Obligations.BankLoads := by
  refine ⟨fun b s present idle => ?_, fun b bank off w s => ⟨fun present busy => ?_, fun absent => ?_⟩,
    fun b s => ⟨exec_bankSwap_idle, fun due => ?_⟩⟩
  · have performs : ∀ r, takeLoad b.val r s = performLoad b.val r s := fun r => takeLoad_performs r present idle
    have begins : exec (.loadBegin b) s = .next (beginLoad b.val s) := congrArg _ (performs .begin)
    have writes : ∀ bank off w, exec (.loadWord b bank off w) s = .next (loadOneWord b.val bank off.toNat w s) :=
      fun bank off w => congrArg _ (performs (.word bank off.toNat w))
    have finishes : exec (.loadEnd b) s = .next (finishLoad b.val s) := congrArg _ (performs .finish)
    refine ⟨fun free => begins.trans (congrArg _ (beginLoad_opens free)),
      fun empty invalid => begins.trans (congrArg _ (beginLoad_refused empty invalid)),
      fun bank off w loading inactive => (writes bank off w).trans (congrArg _ (loadOneWord_writes _ w loading inactive)),
      fun bank off w refused => (writes bank off w).trans (congrArg _ (loadOneWord_refused _ w refused)),
      fun other => finishes.trans (congrArg _ (finishLoad_refused other)), fun loading => ⟨fun good => ⟨?_, ?_⟩, fun o reason bad => ?_⟩⟩
    · rintro ⟨first, running⟩
      obtain ⟨⟨active, inactState, main, fill⟩, started, asleep, frame⟩ := finishLoad_activates loading good first running
      exact ⟨_, finishes, active, inactState, started, asleep, main, fill, frame⟩
    · intro later
      rw [finishes, finishLoad_passes loading good, if_neg later]
    · have ok : s.boardOk b.val = true := (Bool.and_eq_true_iff.1 present).1
      obtain ⟨inactState, ⟨last, count, irq⟩, aborted⟩ := finishLoad_invalid ok idle loading bad
      exact ⟨_, finishes, inactState, last, count, irq, aborted⟩
  · have waits : ∀ r, takeLoad b.val r s = _ := fun r => takeLoad_waits r present busy
    exact ⟨congrArg _ (waits .begin), congrArg _ (waits (.word bank off.toNat w)), congrArg _ (waits .finish)⟩
  · have stays : ∀ r, takeLoad b.val r s = s := fun r => takeLoad_absent r absent
    exact ⟨congrArg _ (stays .begin), congrArg _ (stays (.word bank off.toNat w)), congrArg _ (stays .finish)⟩
  · have issued := (onBoard_swapIssued b.val .main s).trans (onBoard_swapIssued b.val .filler _)
    obtain ⟨active, inactState, main, fill⟩ := issued.banks.swapped
    refine ⟨_, exec_bankSwap_swaps due, ?_, ?_, ?_, ?_, ?_, ?_,
      fun c other => (State.modBoard_board_of_ne _ _ _ _ other).trans (issued.others c other), issued.store, issued.dram⟩ <;>
      rw [State.modBoard_board]
    · exact active
    · exact inactState
    · exact main
    · exact fill
    · rfl
    · rfl

end Sys2Proof.Machine
end

