-- ==== Sys2Proof/Proofs/StrayRuns.lean ====
section
/-!
PROOFS. Proofs/StrayRuns.lean: the statement on gather requests fails: of a run whose region lies in another stack, it asks that the stack of
the run hold a read that runs ahead, where the stack of the region holds it (R171, R180).
-/
-- One proof after another: in parallel, behind the tests' long evaluations, they ask for too many threads' stacks.
set_option Elab.async false

namespace Sys2Proof.Machine

/-- A VERSIONED region of one F8 square at the start of stack 1. -/
def strayRegion : BitVec 128 := BitVec.ofNat 128 (1 <<< 116 + 8 <<< 111 + 1 <<< 67 + 0x180000 <<< 31 + 4 <<< 10)

/-- A run that places square 0 of parameter group 0 in region 0. -/
def strayRun : BitVec 128 := BitVec.ofNat 128 (1 <<< 44 + 16 <<< 28)

/-- Module 1 in READY, with the run in stack 0, and all channels of stack 1 under test. Its one group is a GATHER group of epoch 1 without
fans, whose one member is fabric address 32. -/
def strayState : State :=
  { State.reset.wr .fabricDevice 1 with
    dev := { State.reset.dev with state := .ready }
    job := { State.reset.job with
      groups := [(0, BitVec.ofNat 192 (1 <<< 176 + 2 <<< 172 + 1 <<< 156)) ], members := [(0, 32)], regions := [(0, strayRegion)] }
    stks := [(0, { runs := [strayRun] }), (1, { testDue := true })] }

/-- The member asks Board 0 for that square. -/
def strayRequest : Pkt :=
  { dest := 16, src := 32, opcode := 0x03, flits := flitsFor 64, lines := 1, txn := 7, payload := hdrBytes { tag := 5, gepoch := 1 } }

theorem strayRequest_delivered : Delivered 0x03 0 strayRequest strayState := by
  unfold Delivered
  decide +kernel

/-- The request is a member's, of the group's epoch, of component 0, and the rendezvous table is empty. -/
theorem strayRequest_served :
    let h := hdrOf strayRequest.payload
    let e := strayState.grp h.group
    (h.group < 1024 ∧ gKind e = 2 ∧ strayRequest.src ∈ strayState.membersOf e) ∧ gEpoch e = h.gepoch ∧ h.comp ≤ 1
      ∧ (strayState.board 0).rdv.length < 256 ∧ (strayState.board 0).rdvWait = [] ∧ gFanCount e = 0 := by
  decide +kernel

/-- The square's stack, stack 1, is under test, so that its read is held. -/
theorem strayRequest_ahead :
    GatherReads (claimed 0x03 strayRequest.src strayRequest.dest strayRequest.txn strayState) (hdrOf strayRequest.payload) .ahead :=
  ⟨strayRun, 0, by decide +kernel⟩

/-- The stack that the request names holds no read afterwards. -/
theorem strayRequest_elsewhere {t : State} (h : exec (.gatherReq strayRequest) strayState = .next t) :
    (t.stack (hdrOf strayRequest.payload).stack).reads = [] := by
  have held : execGatherReq strayRequest strayState = .next t := h
  unfold execGatherReq at held
  obtain rfl := Host.Outcome.next.inj held
  rw [← List.isEmpty_iff]
  decide +kernel

/-- Refutes O44: its clause for a read that runs ahead asks that the stack which the request names hold the read. The model holds it in the
stack in which the square lies. No loaded job has a run whose region lies in another stack (R180); the statement lacks that premise. -/
theorem not_gatherRequests : ¬ Obligations.GatherRequests := by
  rintro ⟨requests, -⟩
  obtain ⟨-, -, -, -, alone, -⟩ := requests 0 strayRequest strayState strayRequest_delivered
  obtain ⟨member, epoch, comp, room, none_, fans⟩ := strayRequest_served
  obtain ⟨-, -, ahead, -⟩ := alone member epoch comp room none_ fans
  obtain ⟨t, served, -, x, held, -⟩ := ahead strayRequest_ahead
  rw [strayRequest_elsewhere served] at held
  cases held

end Sys2Proof.Machine
end

