-- ==== Sys2Proof/Proofs/Standing.lean ====
section
/-!
PROOFS. Proofs/Standing.lean: reports, counts of traffic, corrections and packets leave the memories, what has left the module, every cause,
and a register in which they do not count (`Stands`); and the record that a fault leaves in the log (R329, Table 15-5).
-/
-- One proof after another: in parallel, behind the tests' long evaluations, they ask for too many threads' stacks.
set_option Elab.async false

namespace Sys2Proof.Machine

/-- A relation that holds of each step of an iteration holds of the whole. -/
theorem forEach_relates {α : Type} {R : State → State → Prop} (refl : ∀ s, R s s) (trans : ∀ {r s t}, R r s → R s t → R r t) (l : List α)
    {f : α → State → State} (h : ∀ a s, R s (f a s)) (s : State) : R s (forEach l f s) := by
  unfold forEach
  induction l generalizing s with
  | nil => exact refl s
  | cons a l ih => exact trans (h a s) (ih (f a s))

/-! ### The relation -/

/-- Two entries of the dictionary, each with registers of its own. -/
abbrev Reg.Apart (q r : Reg) : Prop :=
  q.index < 65536 ∧ q.sub < 256 ∧ r.index < 65536 ∧ r.sub < 256 ∧ ¬ (q.index = r.index ∧ q.sub = r.sub)

theorem Reg.Apart.key_ne {q r : Reg} (h : q.Apart r) (w u : Nat) : q.key w ≠ r.key u := by
  obtain ⟨qi, qs, ri, rs, ne⟩ := h
  simp only [Reg.key]
  omega

/-- An entry that no report writes. -/
abbrev Reg.Unreported (q : Reg) : Prop := q.Apart .canIgnored ∧ q.Apart .logDropped ∧ q.Apart .domainCauseBits

/-- What stands in t as in s: the memories, all that has left the module, every cause, and the registers of entry q. -/
structure Stands (q : Reg) (s t : State) : Prop where
  dram : t.dram = s.dram
  store : t.store = s.store
  out : ∀ o ∈ s.out, o ∈ t.out
  irq : ∀ i, s.host.irqCause.getLsbD i = true → t.host.irqCause.getLsbD i = true
  rd : ∀ u, t.rd q u = s.rd q u

section
variable {q : Reg} {r s t u : State}

theorem Stands.refl (s : State) : Stands q s s := ⟨rfl, rfl, fun _ h => h, fun _ h => h, fun _ => rfl⟩

theorem Stands.trans (h : Stands q r s) (k : Stands q s t) : Stands q r t where
  dram := k.dram.trans h.dram
  store := k.store.trans h.store
  out o := k.out o ∘ h.out o
  irq i := k.irq i ∘ h.irq i
  rd u := (k.rd u).trans (h.rd u)

/-- Two steps, the later one named first. -/
theorem Stands.after (k : Stands q s t) (h : Stands q r s) : Stands q r t := h.trans k

theorem Stands.ite {c : Prop} [Decidable c] (ht : Stands q s t) (hu : Stands q s u) : Stands q s (if c then t else u) := by
  split
  · exact ht
  · exact hu

/-- An update of fields that Stands does not speak of. -/
theorem Stands.upd (dram : t.dram = s.dram := by rfl) (store : t.store = s.store := by rfl) (out : t.out = s.out := by rfl)
    (irq : t.host.irqCause = s.host.irqCause := by rfl) (regs : t.regs = s.regs := by rfl) : Stands q s t where
  dram := dram
  store := store
  out _ h := out ▸ h
  irq _ h := irq ▸ h
  rd u := by rw [State.rd, State.rd, regs]

theorem Stands.testBit {i : Nat} (h : Stands q s t) (k : testBit s.host.irqCause.toNat i = true) : testBit t.host.irqCause.toNat i = true := by
  rw [testBit_eq] at *
  exact h.irq i k

theorem Stands.answered {p : Pkt} {op : Nat} {bs : List Byte} (h : Stands q s t) (k : Answered p op bs s) : Answered p op bs t :=
  answered_of_out k h.out

end

theorem stands_forEach {q : Reg} {α : Type} (l : List α) (f : α → State → State) (h : ∀ a s, Stands q s (f a s)) (s : State) :
    Stands q s (forEach l f s) := forEach_relates .refl .trans l h s

section
variable {q : Reg}

theorem stands_emit (o : Out) (s : State) : Stands q s (s.emit o) :=
  ⟨rfl, rfl, fun _ h => List.mem_cons_of_mem _ h, fun _ h => h, fun _ => rfl⟩

theorem stands_send (p : Pkt) (s : State) : Stands q s (s.send p) := stands_emit _ s

theorem stands_newTxn (k : TxnKind) (s : State) : Stands q s (newTxn k s).2 := .upd

theorem stands_wr {r : Reg} (h : q.Apart r) (v u : Nat) (s : State) : Stands q s (s.wr r v u) :=
  ⟨rfl, rfl, fun _ h => h, fun _ h => h, fun w => State.wr_rd_of_ne s r q v u w (h.key_ne w u)⟩

theorem stands_bump {r : Reg} (h : q.Apart r) (u : Nat) (s : State) : Stands q s (s.bump r u) := stands_wr h _ u s

theorem stands_modDom (d : Nat) (f : Dom → Dom) (s : State) : Stands q s (s.modDom d f) := .upd

theorem stands_modStack (k : Nat) (f : Stack → Stack) (s : State) : Stands q s (s.modStack k f) := .upd

theorem stands_modBoard (b : Nat) (f : Board → Board) (s : State) : Stands q s (s.modBoard b f) := .upd

/-! ### Reports -/

theorem stands_canNotify (h : q.Apart .canIgnored) (bs : List Byte) (s : State) : Stands q s (canNotify s bs) := by
  unfold canNotify
  split
  · exact .refl s
  · split
    · dsimp only
      split
      · exact .upd
      · exact (stands_bump h 0 s).trans .upd
    · exact stands_emit _ s

theorem stands_report (h : q.Apart .canIgnored) (c v d n : Nat) (s : State) : Stands q s (report s c v d n) := by
  have can : Stands q s (if testBit (s.rd .notifyMaskCan) v then canNotify s (notifyBytes s c v d n) else s) :=
    .ite (stands_canNotify h ..) (.refl s)
  exact .ite (.refl s) (can.trans (.ite (.ite (.refl _) (stands_send ..)) (.refl _)))

theorem stands_vector (v : Nat) (s : State) : Stands q s (s.vector v) := .ite .upd (stands_emit _ s)

theorem stands_signal (h : q.Apart .canIgnored) (v c d n : Nat) (s : State) : Stands q s (s.signal v c d n) := by
  have cause : Stands q s { s with host := { s.host with irqCause := s.host.irqCause ||| BitVec.ofNat 64 (2 ^ v) } } :=
    ⟨rfl, rfl, fun _ h => h, fun i h => by simp [h], fun _ => rfl⟩
  exact cause.trans ((stands_vector v _).trans (stands_report h ..))

section
variable (h : q.Unreported)
include h

theorem stands_logFault (f : Flt) (s : State) : Stands q s (logFault s f).1 := by
  obtain ⟨-, dropped, -⟩ := h
  unfold logFault
  split
  · exact .upd
  · split
    · exact stands_wr dropped _ 0 s
    · exact .upd

theorem stands_reportFault (f : Flt) (s : State) : Stands q s (reportFault f s) := by
  obtain ⟨ignored, dropped, bits⟩ := h
  have signals := ((stands_logFault ⟨ignored, dropped, bits⟩ f s).trans (stands_signal ignored 1 f.code (f.domain.getD 0xFF) (logFault s f).2 _)).trans
    (stands_forEach (alsoVectors f.code) (fun v u => u.signal v f.code (f.domain.getD 0xFF) (logFault s f).2)
      (fun _ _ => stands_signal ignored ..) _)
  unfold reportFault
  dsimp only
  split
  · exact signals.trans ((stands_wr bits ..).trans (stands_vector ..))
  · exact signals

theorem stands_raise (f : Flt) (s : State) : Stands q s (s.raise f) := .ite (stands_modBoard ..) (stands_reportFault h f s)

end

/-! ### Traffic and corrections -/

theorem stands_countLines (k a n : Nat) (s : State) : Stands q s (countLines k a n s) := by
  rw [countLines_frame]
  exact .upd

theorem stands_stackServed (h : q.Apart .eccCorrected) (a n : Nat) (s : State) : Stands q s (stackServed a n s) :=
  .after (stands_countLines ..) (.ite (.refl s)
    (.after (stands_modStack ..) (stands_forEach _ (fun _ u => u.bump .eccCorrected (stackOf a)) (fun _ _ => stands_bump h ..) s)))

end

/-! ### Records of faults -/

theorem report_log (c v d n : Nat) (s : State) : (report s c v d n).log = s.log := by
  have can : ∀ bs, (canNotify s bs).log = s.log := fun bs => by
    unfold canNotify
    split
    · rfl
    · split
      · dsimp only
        split <;> rfl
      · rfl
  have notified : (if testBit (s.rd .notifyMaskCan) v then canNotify s (notifyBytes s c v d n) else s).log = s.log := by
    split
    · exact can _
    · rfl
  unfold report
  split
  · rfl
  · dsimp only
    generalize (if testBit (s.rd .notifyMaskCan) v then canNotify s (notifyBytes s c v d n) else s) = u at notified
    unfold fabricNotify
    split
    · split <;> exact notified
    · exact notified

theorem vector_log (v : Nat) (s : State) : (s.vector v).log = s.log := by
  unfold State.vector
  split <;> rfl

/-- Causes write no record. -/
theorem signal_log (v c d n : Nat) (s : State) : (s.signal v c d n).log = s.log := by
  unfold State.signal
  rw [report_log, vector_log]

theorem reportFault_log (f : Flt) (s : State) : (reportFault f s).log = (logFault s f).1.log := by
  have also_ : ∀ (vs : List Nat) (u : State),
      (forEach vs (fun v u => u.signal v f.code (f.domain.getD 0xFF) (logFault s f).2) u).log = u.log := fun vs u =>
    forEach_relates (R := fun s t => t.log = s.log) (fun _ => rfl) (fun h k => k.trans h) vs (fun _ _ => signal_log ..) u
  unfold reportFault
  dsimp only
  split
  · rw [State.domCause, vector_log, State.wr_log, also_, signal_log]
  · rw [also_, signal_log]

/-- CODE stands in its place in a record (Table 15-5). -/
theorem faultRecord_code (s : State) (f : Flt) (seq : Nat) : bitsOf (faultRecord s f seq).toNat 415 400 = f.code % 2 ^ 16 := by
  rw [bitsOf_eq, faultRecord, BitVec.toNat_ofNat]
  simp only [Nat.shiftLeft_eq]
  omega

/-- A fault that no other record can stand for has a record of its own, with its code. -/
theorem logFault_logs (f : Flt) (s : State) : LogsCode (f.code % 2 ^ 16) s (logFault s f).1 := by
  intro none_ room
  have recent : recentRecord s f = none := by
    rw [recentRecord, none_]
    rfl
  unfold logFault
  rw [recent]
  dsimp only
  rw [if_neg (by simp [room])]
  exact ⟨_, List.mem_append_right _ (List.mem_singleton_self _), rfl, faultRecord_code s f _⟩

/-- The log is looked at, and nothing else. -/
theorem LogsCode.of_log {code : Nat} {s s' t t' : State} (h : LogsCode code s t) (before : s.log = s'.log) (later : t'.log = t.log) :
    LogsCode code s' t' := by
  unfold LogsCode at *
  rwa [later, ← before]

/-- A fault of no Board is recorded at once. -/
theorem raise_logs {f : Flt} (none_ : f.board = none) (code : f.code < 2 ^ 16) (s : State) : LogsCode f.code s (s.raise f) := by
  have logs := logFault_logs f s
  rw [Nat.mod_eq_of_lt code] at logs
  rw [raise_reported (recordWaits_none none_ s)]
  exact LogsCode.of_log logs rfl (reportFault_log f s)

/-- And is a cause of vector 1 (R328). -/
theorem raise_fault {f : Flt} (none_ : f.board = none) (s : State) : testBit (s.raise f).host.irqCause.toNat 1 = true := by
  rw [raise_reported (recordWaits_none none_ s), testBit_eq]
  exact reportFault_irqCause f s

end Sys2Proof.Machine
end

