-- ==== Sys2Proof/Proofs/StackMessages.lean ====
section
/-!
PROOFS. Proofs/StackMessages.lean: the hub's messages at a stack, and the commands that a step has disposed of: what they leave of the stacks
and of the domains (R168, R173, R192).
-/
-- One proof after another: in parallel, behind the tests' long evaluations, they ask for too many threads' stacks.
set_option Elab.async false

namespace Sys2Proof.Machine

/-! ### Registers of domains and version records -/

section
variable (s : State) (k d : Nat)

@[simp] theorem State.setDreg_dreg (r : DReg) : (s.setDreg k d r).dreg k d = r := by
  simp [State.setDreg, State.dreg]

theorem State.setDreg_dreg_of_ne {e : Nat} (ne : e ≠ d) (r : DReg) : (s.setDreg k d r).dreg k e = s.dreg k e := by
  rw [State.dreg, State.setDreg, State.modStack_stack]
  exact tget_tset_of_ne _ _ _ _ _ ne

variable {s k} {t : State}

theorem dreg_congr (h : (t.stack k).regs = (s.stack k).regs) : t.dreg k d = s.dreg k d := by rw [State.dreg, State.dreg, h]

theorem vrec_congr (h : (t.stack k).vt = (s.stack k).vt) (i : Nat) : t.vrec k i = s.vrec k i := by rw [State.vrec, State.vrec, h]

theorem stackOk_congr (h : t.flash.retiredStacks = s.flash.retiredStacks) : t.stackOk k = s.stackOk k := by rw [State.stackOk, State.stackOk, h]

theorem stacksOk_all (p : Nat → Bool) : s.stacksOk.all p = true ↔ ∀ j, s.stackOk j = true → p j = true := by
  rw [State.stacksOk, List.all_filter, List.all_eq_true]
  simp only [List.mem_range, Bool.or_eq_true, Bool.not_eq_eq_eq_not, Bool.not_true]
  refine ⟨fun h j ok => ?_, fun h j _ => ?_⟩
  · have lt : j < 12 := by
      rw [State.stackOk, Bool.and_eq_true, decide_eq_true_eq] at ok
      exact ok.1
    exact (h j lt).resolve_left (by simp [ok])
  · cases ok : s.stackOk j
    · exact .inl rfl
    · exact .inr (h j ok)

end

/-! ### Commands that are disposed of (R192) -/

/-- t is s after commands have been disposed of and answered: a stack counts them, and the hub hears that a stack is done. -/
structure Disposes (s t : State) : Prop where
  frame : t = { s with stks := t.stks, doms := t.doms, cnt := t.cnt, out := t.out }
  stack : ∀ c, t.stack c = { s.stack c with disposed := (t.stack c).disposed, doneSent := (t.stack c).doneSent }
  dom : ∀ e, t.dom e = { s.dom e with stacksDone := (t.dom e).stacksDone, doneTime := (t.dom e).doneTime }
  out : ∀ o ∈ s.out, o ∈ t.out

section
variable {r s t u : State}

theorem Disposes.refl (s : State) : Disposes s s := ⟨rfl, fun _ => rfl, fun _ => rfl, fun _ h => h⟩

theorem Disposes.trans (h : Disposes r s) (k : Disposes s t) : Disposes r t where
  frame := by
    rw [k.frame, h.frame]
  stack c := by
    rw [k.stack, h.stack]
  dom e := by
    rw [k.dom, h.dom]
  out o := k.out o ∘ h.out o

/-- Two steps, the later one named first. -/
theorem Disposes.after (k : Disposes s t) (h : Disposes r s) : Disposes r t := h.trans k

theorem Disposes.ite {c : Prop} [Decidable c] (ht : Disposes s t) (hu : Disposes s u) : Disposes s (if c then t else u) := by
  split
  · exact ht
  · exact hu

theorem Disposes.answered {p : Pkt} {op : Nat} {bs : List Byte} (h : Disposes s t) (k : Answered p op bs s) : Answered p op bs t :=
  answered_of_out k h.out

end

section
variable {s t : State} (h : Disposes s t)
include h

theorem Disposes.dram : t.dram = s.dram := by rw [h.frame]
theorem Disposes.store : t.store = s.store := by rw [h.frame]
theorem Disposes.log : t.log = s.log := by rw [h.frame]
theorem Disposes.host : t.host = s.host := by rw [h.frame]
theorem Disposes.rd (q : Reg) (u : Nat) : t.rd q u = s.rd q u := by rw [State.rd, h.frame]; rfl
theorem Disposes.queue (c : Nat) : (t.stack c).queue = (s.stack c).queue := by rw [h.stack]
theorem Disposes.park (c : Nat) : (t.stack c).park = (s.stack c).park := by rw [h.stack]
theorem Disposes.inq (c : Nat) : (t.stack c).inq = (s.stack c).inq := by rw [h.stack]
theorem Disposes.inbox (c : Nat) : (t.stack c).inbox = (s.stack c).inbox := by rw [h.stack]
theorem Disposes.vrec (c i : Nat) : t.vrec c i = s.vrec c i := vrec_congr (by rw [h.stack]) i
theorem Disposes.dreg (c d : Nat) : t.dreg c d = s.dreg c d := dreg_congr d (by rw [h.stack])
theorem Disposes.updFault (e : Nat) : (t.dom e).updFault = (s.dom e).updFault := by rw [h.dom]
theorem Disposes.lost (e : Nat) : (t.dom e).lost = (s.dom e).lost := by rw [h.dom]

end

theorem disposes_modStack (k : Nat) (f : Stack → Stack) (s : State)
    (h : ∀ x : Stack, f x = { x with disposed := (f x).disposed, doneSent := (f x).doneSent } := by exact fun _ => rfl) :
    Disposes s (s.modStack k f) := by
  refine ⟨rfl, fun c => ?_, fun _ => rfl, fun _ h => h⟩
  by_cases at_ : c = k
  · rw [at_, State.modStack_stack]
    exact h _
  · rw [State.modStack_stack_of_ne _ _ _ _ at_]

theorem disposes_modDom (d : Nat) (f : Dom → Dom) (s : State)
    (h : ∀ x : Dom, f x = { x with stacksDone := (f x).stacksDone, doneTime := (f x).doneTime } := by exact fun _ => rfl) :
    Disposes s (s.modDom d f) := by
  refine ⟨rfl, fun _ => rfl, fun e => ?_, fun _ h => h⟩
  by_cases at_ : e = d
  · rw [at_, State.modDom_dom]
    exact h _
  · rw [State.modDom_dom_of_ne _ _ _ _ at_]

theorem disposes_emit (o : Out) (s : State) : Disposes s (s.emit o) := ⟨rfl, fun _ => rfl, fun _ => rfl, fun _ h => List.mem_cons_of_mem _ h⟩

theorem disposes_countBlock (id n : Nat) (s : State) : Disposes s (countBlock id n s) := by
  rw [countBlock_frame]
  exact ⟨rfl, fun _ => rfl, fun _ => rfl, fun _ h => h⟩

theorem disposes_forEach {α : Type} (l : List α) {f : α → State → State} (h : ∀ a s, Disposes s (f a s)) (s : State) :
    Disposes s (forEach l f s) := forEach_relates .refl .trans l h s

theorem disposes_checkUpdates (k d : Nat) (s : State) : Disposes s (checkUpdates k d s) :=
  .ite (.refl s) (.after (disposes_modDom ..) (disposes_modStack ..))

theorem checkUpdates_frame (k d : Nat) (s : State) :
    checkUpdates k d s = { s with stks := (checkUpdates k d s).stks, doms := (checkUpdates k d s).doms } := by
  unfold checkUpdates
  dsimp only
  split <;> rfl

/-! ### Messages of the hub (R168, R173) -/

section
variable {k : StackNo} {d tag : Nat} {s : State}

theorem exec_openCmd (next : nextMsg s k.val = some (.openStep d tag)) :
    exec (.openCmd k) s = .next (applyOpen k.val d tag (popMsg k.val s)) := by
  show execOpen k s = _
  simp only [execOpen, next]

theorem exec_commit (next : nextMsg s k.val = some (.commit d tag)) : exec (.commit k) s =
    .next (s.modStack k.val (fun x => { x with inbox := x.inbox.drop 1, held := x.held ++ [.commit d tag] })) := by
  show execCommit k s = _
  simp only [execCommit, next, popMsg, State.modStack_modStack]

theorem exec_stackVoid (next : nextMsg s k.val = some (.void d tag)) : exec (.stackVoid k) s =
    .next (s.modStack k.val (fun x => { x with inbox := x.inbox.drop 1, held := x.held ++ [.void d tag] })) := by
  show execStackVoid k s = _
  simp only [execStackVoid, next, popMsg, State.modStack_modStack]

theorem exec_message_none (next : nextMsg s k.val = none) :
    exec (.openCmd k) s = .next s ∧ exec (.commit k) s = .next s ∧ exec (.stackVoid k) s = .next s := by
  refine ⟨?_, ?_, ?_⟩
  · show execOpen k s = _
    simp only [execOpen, next]
  · show execCommit k s = _
    simp only [execCommit, next]
  · show execStackVoid k s = _
    simp only [execStackVoid, next]

/-- OPEN opens the domain's register; the squares of frozen groups are disposed of. -/
theorem applyOpen_opens (k d tag : Nat) (s : State) :
    let t := applyOpen k d tag (popMsg k s)
    t.dreg k d = { s.dreg k d with isOpen := true, openTag := tag } ∧ (∀ e, e ≠ d → t.dreg k e = s.dreg k e)
      ∧ (t.stack k).inbox = (s.stack k).inbox.drop 1 ∧ t = { s with stks := t.stks, doms := t.doms } := by
  have popped : ∀ e, (popMsg k s).dreg k e = s.dreg k e := fun e => dreg_congr e (by rw [popMsg, State.modStack_stack])
  let v := (popMsg k s).setDreg k d { (popMsg k s).dreg k d with isOpen := true, openTag := tag }
  let w := v.modStack k (fun x => { x with
    disposed := tset x.disposed d (frozenCount v k d), doneSent := x.doneSent.filter (· != d) })
  have opens : Disposes v (applyOpen k d tag (popMsg k s)) := .after (disposes_checkUpdates k d w) (disposes_modStack k _ v)
  have frame : applyOpen k d tag (popMsg k s) = checkUpdates k d w := rfl
  refine ⟨?_, fun e ne => ?_, ?_, ?_⟩
  · rw [opens.dreg, State.setDreg_dreg, popped]
  · rw [opens.dreg, State.setDreg_dreg_of_ne _ _ _ ne, popped]
  · rw [opens.inbox]
    simp only [v, State.setDreg, popMsg, State.modStack_stack]
  · rw [frame, checkUpdates_frame]
    rfl

end

end Sys2Proof.Machine
end

