-- ==== Sys2Proof/Proofs/StackCloses.lean ====
section
/-!
PROOFS. Proofs/StackCloses.lean: the close of a domain's register in a stack, the close of the step for the hub, and the settle walk (R173, R174,
R331).
-/
-- One proof after another: in parallel, behind the tests' long evaluations, they ask for too many threads' stacks.
set_option Elab.async false

namespace Sys2Proof.Machine

/-! ### Held reads (R171) -/

/-- The read rule finds in t what it finds in s. -/
structure SameReads (s t : State) : Prop where
  job : t.job = s.job
  dram : t.dram = s.dram
  testDue : ∀ c, (t.stack c).testDue = (s.stack c).testDue
  bad : ∀ c, (t.stack c).bad = (s.stack c).bad
  vt : ∀ c, (t.stack c).vt = (s.stack c).vt
  vtBad : ∀ c, (t.stack c).vtBad = (s.stack c).vtBad
  regs : ∀ c, (t.stack c).regs = (s.stack c).regs

section
variable {s t : State} (h : SameReads s t)
include h

theorem SameReads.regionAt (a : Nat) : t.regionAt a = s.regionAt a := by rw [State.regionAt, State.regionAt, h.job]

theorem SameReads.underTest (c : Nat) : t.underTest c = s.underTest c := h.testDue c

theorem SameReads.plainLine (a : Nat) : plainLine t a = plainLine s a := by
  have bad : t.badLine a 64 = s.badLine a 64 := by rw [State.badLine, State.badLine, h.bad]
  rw [Machine.plainLine, Machine.plainLine, h.underTest, bad, State.dramRead, State.dramRead, h.dram]

theorem SameReads.fetchStackLine (a g : Nat) : fetchStackLine t a g = fetchStackLine s a g := by
  simp only [Machine.fetchStackLine, h.regionAt, h.underTest, h.plainLine, State.vrecBad, State.vrec, State.dreg, h.vtBad, h.vt, h.regs] <;> rfl

theorem SameReads.readSquare (e : BitVec 128) (i off n g : Nat) : readSquare t e i off n g = readSquare s e i off n g := by
  simp only [Machine.readSquare, h.underTest, State.badLine, State.dramRead, h.dram, h.bad, State.vrecBad, State.vrec, State.dreg, h.vtBad, h.vt,
    h.regs] <;> rfl

/-- A held read waits in t as in s. -/
theorem SameReads.heldStill (r : HeldRead) : heldStill t r = heldStill s r := by
  have square : heldSquare t r = heldSquare s r := by simp only [heldSquare, h.regionAt, h.readSquare]
  have remote : ∀ a, remoteLine t a = remoteLine s a := fun a => by
    simp only [remoteLine, h.regionAt, h.plainLine, h.fetchStackLine, ownTag, State.dreg, h.regs] <;> rfl
  simp only [Machine.heldStill, square, remote, heldLine, readLines, h.regionAt, h.underTest, h.plainLine, h.fetchStackLine]

end

/-- Reads that have all to wait go on waiting. -/
theorem retryReads_waits {k : Nat} {s : State} (h : ∀ r ∈ (s.stack k).reads, heldStill s r = true) :
    retryReads k s = s.modStack k (fun x => { x with reads := (s.stack k).reads }) := by
  have none_ : (s.stack k).reads.filter (fun r => !heldStill s r) = [] := List.filter_eq_nil_iff.2 fun r mem => by simp [h r mem]
  have all_ : (s.stack k).reads.filter (heldStill s) = (s.stack k).reads := List.filter_eq_self.2 h
  rw [retryReads, none_, all_]
  rfl

/-! ### The close of a stack's register (R173) -/

/-- A domain's register once its step has closed, before its settle walk. -/
def DReg.closed (r : DReg) (tag : Nat) (commit : Bool) : DReg :=
  { r with isOpen := false, settling := true, lastTag := tag, lastOut := if commit then 1 else 2
           committedTag := if commit then tag else r.committedTag }

/-- A message that a stack holds can be applied: it is for the open step, whose writes are done, and the walk of the step before has ended. -/
def CloseDue (k d tag : Nat) (s : State) : Prop :=
  (s.dreg k d).isOpen = true ∧ (s.dreg k d).openTag = tag ∧ writesDone s k d = true ∧ (s.dreg k d).settling = false ∧ s.powered = true

/-- The messages that a stack still holds once one for domain d is applied. -/
def heldOthers (d : Nat) (ms : List HubMsg) : List HubMsg :=
  ms.filter (fun m => match m with
    | .commit e _ => e != d
    | .void e _ => e != d
    | .openStep _ _ => true)

/-- The register has closed, and the stack is noted among those that have applied the message. -/
def closeApplied (k d tag : Nat) (commit : Bool) (s : State) : State :=
  (retryReads k (s.setDreg k d ((s.dreg k d).closed tag commit))).modDom d (fun y => { y with appliedBy := orBit y.appliedBy k })

theorem applyClose_eq (k d tag : Nat) (commit : Bool) (s : State) : applyClose k d tag commit s
    = if (closeApplied k d tag commit s).stacksOk.all (testBit ((closeApplied k d tag commit s).dom d).appliedBy) then
        hubClose d tag commit (closeApplied k d tag commit s) else closeApplied k d tag commit s := rfl

section
variable {k : StackNo} {d : DomainNo} {tag : Nat} {commit : Bool} {s : State} (held : heldFor (s.stack k.val) d.val = some (tag, commit))
include held

theorem exec_closeApply_waits (h : ¬ CloseDue k.val d.val tag s) : exec (.closeApply k d) s = .next s := by
  show execCloseApply k d s = _
  unfold execCloseApply
  dsimp only
  rw [held]
  exact if_neg (by simpa [CloseDue, and_assoc] using h)

/-- The message leaves those that the stack holds, and the register closes. -/
theorem exec_closeApply_due (h : CloseDue k.val d.val tag s) : exec (.closeApply k d) s
    = .next (applyClose k.val d.val tag commit (s.modStack k.val (fun x => { x with held := heldOthers d.val x.held }))) := by
  obtain ⟨isOpen, openTag, done, settled, on⟩ := h
  show execCloseApply k d s = _
  unfold execCloseApply
  dsimp only
  rw [held]
  exact if_pos (by simp [isOpen, openTag, done, settled, on])

end

section
variable {k d tag : Nat} {commit : Bool} {s : State} (f : List HubMsg → List HubMsg)
  (waits : ∀ h ∈ (s.stack k).reads, heldStill (s.setDreg k d ((s.dreg k d).closed tag commit)) h = true)
include waits

/-- The state of a close, where no held read has waited for it. -/
theorem closeApplied_eq : closeApplied k d tag commit (s.modStack k (fun x => { x with held := f x.held }))
    = (s.modStack k (fun x => { x with held := f x.held, regs := tset x.regs d ((s.dreg k d).closed tag commit) })).modDom d
        (fun y => { y with appliedBy := orBit y.appliedBy k }) := by
  let v := s.modStack k (fun x => { x with held := f x.held })
  have dreg : v.dreg k d = s.dreg k d := dreg_congr d (by rw [State.modStack_stack])
  have closed : v.setDreg k d ((s.dreg k d).closed tag commit)
      = s.modStack k (fun x => { x with held := f x.held, regs := tset x.regs d ((s.dreg k d).closed tag commit) }) :=
    State.modStack_modStack ..
  have stack : ∀ c, ((v.setDreg k d ((s.dreg k d).closed tag commit)).stack c) =
      { (s.setDreg k d ((s.dreg k d).closed tag commit)).stack c with held := (v.stack c).held } := fun c => by
    rw [closed, State.setDreg]
    by_cases at_ : c = k
    · rw [at_]
      simp only [v, State.modStack_stack]
    · simp only [v, State.modStack_stack_of_ne _ _ _ _ at_]
  have same : SameReads (s.setDreg k d ((s.dreg k d).closed tag commit)) (v.setDreg k d ((s.dreg k d).closed tag commit)) := by
    refine ⟨rfl, rfl, fun c => ?_, fun c => ?_, fun c => ?_, fun c => ?_, fun c => ?_⟩ <;> rw [stack]
  have reads : ((v.setDreg k d ((s.dreg k d).closed tag commit)).stack k).reads = (s.stack k).reads := by
    rw [closed, State.modStack_stack]
  unfold closeApplied
  rw [dreg, retryReads_waits (fun r mem => by rw [same.heldStill]; exact waits r (reads ▸ mem)), reads, closed, State.modStack_modStack]
  refine congrArg (fun z : State => z.modDom d _) ?_
  unfold State.modStack
  rfl

/-- The register is closed, and the stack has applied the message. -/
theorem closeApplied_closes :
    let t := closeApplied k d tag commit (s.modStack k (fun x => { x with held := f x.held }))
    t.dreg k d = (s.dreg k d).closed tag commit ∧ t.dom d = { s.dom d with appliedBy := orBit (s.dom d).appliedBy k }
      ∧ t = { s with stks := t.stks, doms := t.doms } := by
  rw [closeApplied_eq f waits]
  refine ⟨?_, State.modDom_dom .., rfl⟩
  rw [State.dreg, show ∀ (v : State) (g : Dom → Dom), (v.modDom d g).stack k = v.stack k from fun _ _ => rfl, State.modStack_stack]
  exact tget_tset_self ..

end

/-! ### The close of the step for the hub -/

/-- What the hub's close leaves to the rest of it: stacks and memories, and how domain d closed. -/
structure ClosedKept (d : Nat) (s t : State) : Prop where
  stks : t.stks = s.stks
  dram : t.dram = s.dram
  store : t.store = s.store
  phase : (t.dom d).phase = (s.dom d).phase
  committedTag : (t.dom d).committedTag = (s.dom d).committedTag
  lastTag : (t.dom d).lastTag = (s.dom d).lastTag
  lastOutcome : (t.dom d).lastOutcome = (s.dom d).lastOutcome

section
variable {d : Nat} {r s t u : State}

theorem ClosedKept.refl (s : State) : ClosedKept d s s := ⟨rfl, rfl, rfl, rfl, rfl, rfl, rfl⟩

theorem ClosedKept.trans (h : ClosedKept d r s) (k : ClosedKept d s t) : ClosedKept d r t where
  stks := k.stks.trans h.stks
  dram := k.dram.trans h.dram
  store := k.store.trans h.store
  phase := k.phase.trans h.phase
  committedTag := k.committedTag.trans h.committedTag
  lastTag := k.lastTag.trans h.lastTag
  lastOutcome := k.lastOutcome.trans h.lastOutcome

/-- Two steps, the later one named first. -/
theorem ClosedKept.after (k : ClosedKept d s t) (h : ClosedKept d r s) : ClosedKept d r t := h.trans k

theorem ClosedKept.ite {c : Prop} [Decidable c] (ht : ClosedKept d s t) (hu : ClosedKept d s u) : ClosedKept d s (if c then t else u) := by
  split
  · exact ht
  · exact hu

/-- An update of other parts of the state. -/
theorem ClosedKept.upd (stks : t.stks = s.stks := by rfl) (doms : t.doms = s.doms := by rfl) (dram : t.dram = s.dram := by rfl)
    (store : t.store = s.store := by rfl) : ClosedKept d s t := by
  refine ⟨stks, dram, store, ?_, ?_, ?_, ?_⟩ <;> rw [State.dom, State.dom, doms]

end

section
variable (d : Nat)

theorem closedKept_reports {s t : State} (h : Reports s t) : ClosedKept d s t := by
  unfold Reports at h
  exact .upd (by rw [h]) (by rw [h]) (by rw [h]) (by rw [h])

theorem closedKept_takenUp (a : Option Nat) (k : Pkt) (s : State) : ClosedKept d s (takenUp a k s) := by
  have kept := (portsKept_takenUp a k s).frame
  exact .upd (by rw [kept]) (by rw [kept]) (by rw [kept]) (by rw [kept])

theorem closedKept_forEach {α : Type} (l : List α) {f : α → State → State} (h : ∀ a s, ClosedKept d s (f a s)) (s : State) :
    ClosedKept d s (forEach l f s) := forEach_relates .refl .trans l h s

theorem closedKept_startPasses (s : State) : ClosedKept d s (startPasses d s) := by
  unfold startPasses
  dsimp only
  refine ⟨rfl, rfl, rfl, ?_, ?_, ?_, ?_⟩ <;> rw [State.modDom_dom]

theorem closedKept_checkJobEnd (s : State) : ClosedKept d s (checkJobEnd s) := by
  have ready : ClosedKept d s ((s.setJob .loaded).setState .ready) :=
    .ite .upd (.after (closedKept_reports d (reports_signal ..)) .upd)
  exact .ite (.after (closedKept_forEach d _ (fun _ _ => .upd) _) ready) (.refl s)

theorem stands_checkJobEnd {q : Reg} (h : q.Apart .canIgnored) (s : State) : Stands q s (checkJobEnd s) := by
  have ready : Stands q s ((s.setJob .loaded).setState .ready) := .ite .upd (.after (stands_signal h ..) .upd)
  exact .ite (.after (stands_forEach _ _ (fun _ _ => stands_modBoard ..) _) ready) (.refl s)

/-- The step is closed for the hub, with its outcome, and DOMAIN_CAUSE bit 1 is set. -/
theorem hubClose_closes (tag : Nat) (commit : Bool) (s : State) :
    let t := hubClose d tag commit s
    t.stks = s.stks ∧ t.dram = s.dram ∧ t.store = s.store ∧ (t.dom d).phase = .closed
      ∧ (t.dom d).committedTag = (if commit then tag else (s.dom d).committedTag) ∧ (t.dom d).lastTag = tag
      ∧ (t.dom d).lastOutcome = (if commit then 1 else 2) ∧ testBit (t.rd .domainCauseBits d) 1 = true := by
  have statuses : ClosedKept d s (writeStatuses d s) := by
    have emitted : ClosedKept d s (forEach ((s.dom d).mbs.filter (fun m => !m.statusWritten)) (fun m s =>
        s.emit (.hostWrite m.slotAddr (leBytes 4 (1 + m.index <<< 16)))) s) := closedKept_forEach d _ (fun _ _ => .upd) s
    refine emitted.trans ⟨rfl, rfl, rfl, ?_, ?_, ?_, ?_⟩ <;> (unfold writeStatuses; rw [State.modDom_dom])
  unfold hubClose
  dsimp only
  generalize writeStatuses d s = u at statuses
  -- The domain has closed.
  generalize hclosed : u.modDom d _ = v
  have closed : v.stks = u.stks ∧ v.dram = u.dram ∧ v.store = u.store ∧ (v.dom d).phase = .closed
      ∧ (v.dom d).committedTag = (if commit then tag else (u.dom d).committedTag) ∧ (v.dom d).lastTag = tag
      ∧ (v.dom d).lastOutcome = (if commit then 1 else 2) := by
    rw [← hclosed, State.modDom_dom]
    exact ⟨rfl, rfl, rfl, rfl, rfl, rfl, rfl⟩
  -- What follows leaves it so.
  generalize hboards : forEach v.boardsOk _ v = w
  have boards : ClosedKept d v w := hboards ▸ closedKept_forEach d _ (fun _ _ => .upd) v
  generalize hpasses : (if commit && mirrorDue w d then startPasses d w else w) = x
  have passes : ClosedKept d w x := hpasses ▸ .ite (closedKept_startPasses d w) (.refl w)
  generalize htaken : forEach _ _ x = y
  have taken : ClosedKept d x y := htaken ▸ closedKept_forEach d _ (fun _ _ => closedKept_takenUp d ..) x
  generalize hfab : ({ y with fab := _ } : State) = z
  have fab : ClosedKept d y z := hfab ▸ .upd
  have last := (closedKept_checkJobEnd d (z.domCause d 1)).after (closedKept_reports d (reports_domCause d 1 z))
  have rest := last.after (fab.after (taken.after (passes.after boards)))
  have bit : testBit ((checkJobEnd (z.domCause d 1)).rd .domainCauseBits d) 1 = true := by
    rw [(stands_checkJobEnd (q := .domainCauseBits) (by decide) _).rd, State.domCause,
      (stands_vector (q := .domainCauseBits) ..).rd, State.wr_rd]
    exact testBit_orBit ..
  obtain ⟨stks, dram, store, phase, committed, lastTag, outcome⟩ := closed
  exact ⟨rest.stks.trans (stks.trans statuses.stks), rest.dram.trans (dram.trans statuses.dram), rest.store.trans (store.trans statuses.store),
    rest.phase.trans phase, rest.committedTag.trans (statuses.committedTag ▸ committed), rest.lastTag.trans lastTag,
    rest.lastOutcome.trans outcome, bit⟩

end

/-! ### Bits of the stacks that have answered -/

theorem testBit_orBit_of_ne {n i j : Nat} (ne : j ≠ i) : testBit (orBit n i) j = testBit n j := by
  unfold orBit
  split
  · rfl
  · rename_i clear
    rw [testBit_eq, testBit_eq]
    rcases Nat.lt_or_gt_of_ne ne with lt | gt
    · rw [Nat.add_comm, Nat.testBit_two_pow_add_gt lt]
    · obtain ⟨m, rfl⟩ := Nat.exists_eq_add_of_lt gt
      have carry : (n + 2 ^ i) / 2 ^ (i + 1) = n / 2 ^ (i + 1) := by
        simp only [testBit, Nat.shiftRight_eq_div_pow, beq_iff_eq, Nat.mod_two_not_eq_one] at clear
        rw [Nat.pow_succ, ← Nat.div_div_eq_div_mul, ← Nat.div_div_eq_div_mul, Nat.add_div_right _ (Nat.two_pow_pos i)]
        omega
      rw [show i + m + 1 = m + (i + 1) by omega, ← Nat.testBit_div_two_pow, carry, Nat.testBit_div_two_pow]

/-- All stacks have answered once the last of them has, and not before. -/
theorem stacksOk_all_orBit {s : State} {n k : Nat} : s.stacksOk.all (testBit (orBit n k)) = true
    ↔ ∀ j, s.stackOk j = true → j ≠ k → testBit n j = true := by
  rw [stacksOk_all]
  refine forall₂_congr fun j _ => ?_
  by_cases at_ : j = k
  · simp [at_, testBit_orBit]
  · simp [at_, testBit_orBit_of_ne]

/-! ### A close that is applied -/

section
variable {k : StackNo} {d : DomainNo} {tag : Nat} {commit : Bool} {s : State} (held : heldFor (s.stack k.val) d.val = some (tag, commit))
  (due : CloseDue k.val d.val tag s)
  (waits : ∀ h ∈ (s.stack k.val).reads, heldStill (s.setDreg k.val d.val ((s.dreg k.val d.val).closed tag commit)) h = true)
include held due waits

/-- While another stack has still to apply the message, the step stays open for the hub. -/
theorem closeApply_earlier (h : ∃ j, s.stackOk j = true ∧ j ≠ k.val ∧ testBit (s.dom d.val).appliedBy j = false) :
    ∃ t, exec (.closeApply k d) s = .next t ∧ t.dreg k.val d.val = (s.dreg k.val d.val).closed tag commit
      ∧ (t.dom d.val).phase = (s.dom d.val).phase ∧ t = { s with stks := t.stks, doms := t.doms } := by
  obtain ⟨dreg, dom, frame⟩ := closeApplied_closes (d := d.val) (heldOthers d.val) waits
  refine ⟨_, exec_closeApply_due held due, ?_⟩
  rw [applyClose_eq]
  generalize closeApplied k.val d.val tag commit _ = t at *
  have flash : t.flash = s.flash := by rw [frame]
  rw [if_neg, dom]
  · exact ⟨dreg, rfl, frame⟩
  · rw [dom, stacksOk_all_orBit]
    obtain ⟨j, ok, ne, clear⟩ := h
    intro all
    rw [all j ((stackOk_congr (by rw [flash])).trans ok) ne] at clear
    cases clear

/-- The last stack's close closes the step for the hub. -/
theorem closeApply_last (h : ∀ j, s.stackOk j = true → j ≠ k.val → testBit (s.dom d.val).appliedBy j = true) :
    ∃ t, exec (.closeApply k d) s = .next t ∧ t.dreg k.val d.val = (s.dreg k.val d.val).closed tag commit ∧ (t.dom d.val).phase = .closed
      ∧ (t.dom d.val).committedTag = (if commit then tag else (s.dom d.val).committedTag) ∧ (t.dom d.val).lastTag = tag
      ∧ (t.dom d.val).lastOutcome = (if commit then 1 else 2) ∧ testBit (t.rd .domainCauseBits d.val) 1 = true
      ∧ t.dram = s.dram ∧ t.store = s.store := by
  obtain ⟨dreg, dom, frame⟩ := closeApplied_closes (d := d.val) (heldOthers d.val) waits
  refine ⟨_, exec_closeApply_due held due, ?_⟩
  rw [applyClose_eq]
  generalize closeApplied k.val d.val tag commit _ = t at *
  obtain ⟨stks, dram, store, phase, committed, lastTag, outcome, bit⟩ := hubClose_closes d.val tag commit t
  have flash : t.flash = s.flash := by rw [frame]
  rw [if_pos]
  · refine ⟨(dreg_congr _ (by rw [State.stack, stks]; rfl)).trans dreg, phase, ?_, lastTag, outcome, bit, ?_, ?_⟩
    · rw [committed, dom]
    · rw [dram, frame]
    · rw [store, frame]
  · rw [dom, stacksOk_all_orBit]
    exact fun j ok ne => h j ((stackOk_congr (by rw [flash])).symm.trans ok) ne

end

/-! ### The settle walk (R173, R174, R331) -/

/-- A table whose entries in some places are changed, by a change that leaves the default. -/
theorem tget_mapWhere {α : Type} (t : Tbl α) (p : Nat → Bool) {f : α → α} {dflt : α} (same : f dflt = dflt) (i : Nat) :
    tget (t.map (fun e => if p e.1 then (e.1, f e.2) else e)) i dflt = if p i then f (tget t i dflt) else tget t i dflt := by
  unfold tget
  induction t with
  | nil => simp [same]
  | cons e t ih =>
    obtain ⟨j, v⟩ := e
    have key : (if p j then (j, f v) else (j, v)) = (j, if p j then f v else v) := by
      split <;> rfl
    simp only [List.map_cons, key, List.lookup_cons]
    by_cases at_ : i = j
    · simp [at_]
    · have other : (i == j) = false := by simpa using at_
      simpa [other] using ih

/-- A settle walk visits record i: a region of the domain in the stack has it. -/
def walked (s : State) (k d i : Nat) : Bool :=
  (domRegions s k d).any (fun r => decide (rVtBase r.2 ≤ i) && decide (i < rVtBase r.2 + rSquares r.2))

theorem walked_iff {s : State} {k d i : Nat} :
    walked s k d i = true ↔ ∃ e ∈ domRegions s k d, rVtBase e.2 ≤ i ∧ i < rVtBase e.2 + rSquares e.2 := by
  simp [walked]

theorem settleWalk_vrec (k d : Nat) (s : State) (i : Nat) : (settleWalk k d s).vrec k i
    = if walked s k d i then walkRec ((s.dreg k d).lastOut == 1) (s.vrec k i) else s.vrec k i := by
  have clear : ∀ c, walkRec c {} = {} := fun c => by cases c <;> rfl
  rw [State.vrec, settleWalk, State.modStack_stack]
  exact tget_mapWhere (s.stack k).vt (walked s k d) (clear _) i

/-- A walk clears DIRTY; that of a step that was not committed turns P, and gives the old plane its tag back. -/
theorem walkRec_settles (c : Bool) (v : VRec) : (walkRec c v).dirty = false ∧ (walkRec c v).p = (v.p != (v.dirty && !c))
    ∧ (walkRec c v).tag8 = (if v.dirty && !c then v.was else v.tag8) := by
  obtain ⟨dirty, p, _, _, _, _, _⟩ := v
  cases c <;> cases dirty <;> cases p <;> exact ⟨rfl, rfl, rfl⟩

section
variable {k : StackNo} {d : DomainNo} {s : State}

theorem exec_settleWalkDone_idle (h : (s.dreg k.val d.val).settling = false) : exec (.settleWalkDone k d) s = .next s := by
  show execSettleWalkDone k d s = _
  exact if_pos (by simp [h])

/-- The walk of a stack has ended. -/
theorem settleWalkDone_settles (settling : (s.dreg k.val d.val).settling = true) :
    ∃ t, exec (.settleWalkDone k d) s = .next t ∧ t.dreg k.val d.val = { s.dreg k.val d.val with settling := false }
      ∧ (∀ i, t.vrec k.val i
          = if walked s k.val d.val i then walkRec ((s.dreg k.val d.val).lastOut == 1) (s.vrec k.val i) else s.vrec k.val i)
      ∧ ((∀ j, s.stackOk j = true → j ≠ k.val → testBit (s.dom d.val).settledBy j = true) → (s.dreg k.val d.val).lastOut = 1 →
          (t.dom d.val).preIntact = !(s.dom d.val).preDirty)
      ∧ t = { s with stks := t.stks, doms := t.doms } := by
  have dreg : (settleWalk k.val d.val s).dreg k.val d.val = s.dreg k.val d.val := dreg_congr _ (by rw [settleWalk, State.modStack_stack])
  let v := (settleWalk k.val d.val s).setDreg k.val d.val { s.dreg k.val d.val with settling := false }
  have stack : ∀ f, ((v.modDom d.val f).stack k.val) = v.stack k.val := fun _ => rfl
  refine ⟨_, (if_neg (by simp [settling]) : execSettleWalkDone k d s = _), ?_, fun i => ?_, fun all last => ?_, rfl⟩
  · rw [dreg, State.dreg, stack]
    exact State.setDreg_dreg ..
  · rw [dreg, ← settleWalk_vrec, State.vrec, stack]
    exact vrec_congr (by simp only [v, State.setDreg, State.modStack_stack]) i
  · rw [dreg, State.modDom_dom, State.setDreg_dreg]
    have above : v.stacksOk.all (testBit (orBit (v.dom d.val).settledBy k.val)) = true := stacksOk_all_orBit.2 all
    show (if _ then _ else _) = _
    rw [if_pos]
    · rfl
    · rw [last]
      exact (Bool.and_true _).trans above

end

end Sys2Proof.Machine
end

