-- ==== Sys2Proof/Proofs/MirrorStarts.lean ====
section
/-!
PROOFS. Proofs/MirrorStarts.lean: how a mirror pass starts (R334), and the statement on the close of a step in a stack.
-/
-- One proof after another: in parallel, behind the tests' long evaluations, they ask for too many threads' stacks.
set_option Elab.async false

namespace Sys2Proof.Machine

/-! ### MIRROR_SEALED while a pass goes on -/

theorem stands_setLost {q : Reg} (d : Nat) (s : State) : Stands q s (setLost d s) :=
  .after (stands_forEach _ _ (fun _ _ => stands_modStack ..) _) (stands_modDom ..)

/-- An uncorrectable line is reported and counted. -/
theorem stands_raiseUe {q : Reg} (h : q.Unreported) (count : q.Apart .eccUncorrected) (last : q.Apart .lastUeDpa) (dpa reader : Nat)
    (d : Option Nat) (s : State) : Stands q s (raiseUe dpa reader d s) := by
  have drawn : Stands q s (ueFlt 0x0401 none dpa reader d s).2 := .upd
  unfold raiseUe noteUe
  exact .after (stands_modStack ..) (.after (stands_wr last ..) (.after (stands_bump count ..) (.after (stands_raise h ..) drawn)))

theorem stands_copyUe (dpa : Nat) (s : State) : Stands .mirrorSealed s (copyUe dpa s) := by
  have raised : ∀ d, Stands .mirrorSealed s (raiseUe dpa 4 d s) := fun d => stands_raiseUe (by decide) (by decide) (by decide) dpa 4 d s
  unfold copyUe
  split
  · exact .after (stands_setLost ..) (raised _)
  · exact raised none

theorem stands_dropPass {q : Reg} (d k r : Nat) (s : State) : Stands q s (dropPass d k r s) := .upd

theorem stands_failPass {q : Reg} (h : q.Unreported) (d k r : Nat) (s : State) : Stands q s (failPass d k r s) :=
  .after (stands_raise h ..) (stands_dropPass ..)

theorem stands_setPass {q : Reg} (d : Nat) (m : MPass) (s : State) : Stands q s (setPass d m s) := stands_modDom ..

theorem stands_sendMirror {q : Reg} (d k r what dpa : Nat) (bs : List Byte) (s : State) : Stands q s (sendMirror d k r what dpa bs s) :=
  .after (stands_send ..) (stands_newTxn ..)

/-- The packet of a pass. -/
theorem sendMirror_sends (d k r what dpa : Nat) (bs : List Byte) (s : State) :
    ∃ q, Out.packet none q ∈ (sendMirror d k r what dpa bs s).out ∧ q.opcode = 0x08 ∧ q.dest = s.rd .mirrorPartner ∧ q.addr = dpa / 64
      ∧ q.payload = bs := ⟨_, List.mem_cons_self .., rfl, rfl, rfl, rfl⟩

theorem stands_sendSquare (d : Nat) (m : MPass) (i : Nat) (s : State) : Stands .mirrorSealed s (sendSquare d m i s) := by
  unfold sendSquare
  dsimp only
  split
  · exact .after (stands_failPass (by decide) ..) (stands_copyUe ..)
  · exact .after (stands_forEach _ _ (fun _ _ => .after (stands_sendMirror ..) (stands_stackServed (by decide) ..)) _) (stands_setPass ..)

theorem stands_sendBlock {q : Reg} (d : Nat) (m : MPass) (s : State) : Stands q s (sendBlock d m s) :=
  .after (stands_sendMirror ..) (.after (stands_sendMirror ..) (stands_setPass ..))

theorem stands_runMirror (d k r n : Nat) (s : State) : Stands .mirrorSealed s (runMirror d k r n s) := by
  induction n generalizing s with
  | zero => exact .refl s
  | succ n ih =>
    unfold runMirror
    split
    · exact .refl s
    · refine .ite (.refl s) ?_
      split
      · exact .after (ih _) (stands_sendSquare ..)
      · exact .ite (stands_sendBlock ..) (.refl s)

/-- The packet that starts a pass stays on its way while the pass goes on. -/
theorem runMirror_starts (d k r n dpa : Nat) (bs : List Byte) (m : MPass) (u : State) :
    let t := runMirror d k r n (sendMirror d k r mWriting dpa bs (setPass d m u))
    ∃ q, Out.packet none q ∈ t.out ∧ q.opcode = 0x08 ∧ q.dest = u.rd .mirrorPartner ∧ q.addr = dpa / 64 ∧ q.payload = bs
      ∧ Stands .mirrorSealed u t := by
  obtain ⟨q, out, opcode, dest, addr, payload⟩ := sendMirror_sends d k r mWriting dpa bs (setPass d m u)
  have sent : Stands .mirrorSealed u (sendMirror d k r mWriting dpa bs (setPass d m u)) :=
    .after (stands_sendMirror ..) (stands_setPass ..)
  generalize sendMirror d k r mWriting dpa bs (setPass d m u) = v at out sent ⊢
  have runs := stands_runMirror d k r n v
  exact ⟨q, runs.out _ out, opcode, dest, addr, payload, sent.trans runs⟩

/-! ### A pass that starts, or fails at once -/

/-- A field that is set to zero reads as zero. -/
theorem bitsOf_setBits_zero (n hi lo : Nat) : bitsOf (setBits n hi lo 0) hi lo = 0 := by
  rw [setBits, Nat.zero_mod, Nat.zero_shiftLeft, Nat.add_zero, bitsOf_eq, bitsOf_eq, Nat.shiftLeft_eq, Nat.mul_comm, Nat.sub_mul_div]
  exact Nat.mod_eq_zero_of_dvd (Nat.dvd_sub_mod _)

theorem setSealed_rd {q : Reg} (h : q.Apart .mirrorSealed) (r set tag u : Nat) (s : State) : (setSealed r set tag s).rd q u = s.rd q u :=
  (stands_wr h ..).rd u

theorem setSealed_clear (r set : Nat) (s : State) :
    bitsOf ((setSealed r set 0 s).rd .mirrorSealed r) (32 * set + 31) (32 * set) = 0 := by
  rw [setSealed, State.wr_rd]
  exact bitsOf_setBits_zero ..

theorem findPass_dropPass (d k r : Nat) (s : State) : findPass (dropPass d k r s) d k r = none := by
  have passes : ((dropPass d k r s).dom d).passes = (s.dom d).passes.filter (fun n => !(n.stack == k && n.region == r)) :=
    congrArg Dom.passes (State.modDom_dom s d (fun x => { x with passes := x.passes.filter (fun n => !(n.stack == k && n.region == r)) }))
  rw [findPass, passes]
  refine List.find?_eq_none.2 fun m mem found => ?_
  rw [List.mem_filter, found] at mem
  cases mem.2

/-- A pass that ends without its seal is gone, and reported. -/
theorem failPass_fails (d k r : Nat) (s : State) :
    let t := failPass d k r s
    findPass t d k r = none ∧ testBit t.host.irqCause.toNat 1 = true ∧ LogsCode 0x0508 s t := by
  have reports := reports_raise (f := { code := 0x0508, kind := 4, unit := k, domain := some d }) rfl (dropPass d k r s)
  refine ⟨?_, raise_fault rfl _, raise_logs rfl (by simp only; decide) (dropPass d k r s)⟩
  rw [findPass, State.dom, show (failPass d k r s).doms = (dropPass d k r s).doms by rw [failPass, reports]]
  exact findPass_dropPass d k r s

section
variable {k : StackNo} {d : DomainNo} {r : Fin 64} {s : State}

theorem exec_mirrorPass_none (h : findPass s d.val k.val r.val = none) : exec (.mirrorPass k d r) s = .next s := by
  show execMirrorPass k d r s = _
  simp only [execMirrorPass, h]

variable {m : MPass} (pass : findPass s d.val k.val r.val = some m)
include pass

theorem exec_mirrorPass_idle (h : m.phase ≠ 0 ∨ (s.dreg k.val d.val).settling = true ∨ s.powered = false) :
    exec (.mirrorPass k d r) s = .next s := by
  show execMirrorPass k d r s = _
  unfold execMirrorPass
  dsimp only
  rw [pass]
  exact if_pos (by simpa [or_assoc] using h)

variable (new : m.phase = 0) (settled : (s.dreg k.val d.val).settling = false) (on : s.powered = true)
include new settled on

/-- A pass that is due goes on by whether the module has a partner. -/
theorem exec_mirrorPass_due : exec (.mirrorPass k d r) s = .next (
    let u := setSealed r.val m.set 0 s
    let m' := { m with phase := 1, crec := (s.dom d.val).commitRec, block := stateBlock u d.val (s.dom d.val).commitRec }
    if s.rd .mirrorPartner = 0xFFFF then failPass d.val k.val r.val u
    else runMirror d.val k.val r.val 65
      (sendMirror d.val k.val r.val mWriting (mirrorTail u r.val + 64 * m.set) (sealLine u d.val m' false) (setPass d.val m' u))) := by
  have due : ¬ (m.phase != 0 || (s.dreg k.val d.val).settling || !s.powered) = true := by simp [new, settled, on]
  have partner : (setSealed r.val m.set 0 s).rd .mirrorPartner = s.rd .mirrorPartner := setSealed_rd (by decide) ..
  show execMirrorPass k d r s = _
  unfold execMirrorPass
  dsimp only
  rw [pass]
  refine (if_neg due).trans ?_
  rw [partner]
  split <;> rfl

theorem mirrorPass_fails (none_ : s.rd .mirrorPartner = 0xFFFF) :
    ∃ t, exec (.mirrorPass k d r) s = .next t ∧ findPass t d.val k.val r.val = none ∧ testBit t.host.irqCause.toNat 1 = true
      ∧ LogsCode 0x0508 s t := by
  refine ⟨_, exec_mirrorPass_due pass new settled on, ?_⟩
  dsimp only
  rw [if_pos none_]
  exact failPass_fails d.val k.val r.val (setSealed r.val m.set 0 s)

/-- The seal goes out in state WRITING, and MIRROR_SEALED shows no tag for its set. -/
theorem mirrorPass_starts (partner : s.rd .mirrorPartner ≠ 0xFFFF) :
    let m' := { m with phase := 1, crec := (s.dom d.val).commitRec
                       block := stateBlock (setSealed r.val m.set 0 s) d.val (s.dom d.val).commitRec }
    ∃ t q, exec (.mirrorPass k d r) s = .next t ∧ Out.packet none q ∈ t.out ∧ q.opcode = 0x08 ∧ q.dest = s.rd .mirrorPartner
      ∧ q.addr = (mirrorTail s r.val + 64 * m.set) / 64 ∧ q.payload = sealLine (setSealed r.val m.set 0 s) d.val m' false
      ∧ bitsOf (t.rd .mirrorSealed r.val) (32 * m.set + 31) (32 * m.set) = 0 ∧ t.dram = s.dram := by
  intro m'
  have clear := setSealed_clear r.val m.set s
  have tail : mirrorTail (setSealed r.val m.set 0 s) r.val = mirrorTail s r.val := by
    rw [mirrorTail, mirrorTail, setSealed_rd (by decide)]
    rfl
  obtain ⟨q, out, opcode, dest, addr, payload, stands⟩ := runMirror_starts d.val k.val r.val 65
    (mirrorTail (setSealed r.val m.set 0 s) r.val + 64 * m.set) (sealLine (setSealed r.val m.set 0 s) d.val m' false) m' (setSealed r.val m.set 0 s)
  refine ⟨_, q, (exec_mirrorPass_due pass new settled on).trans (congrArg Host.Outcome.next (if_neg partner)), out, opcode,
    dest.trans (setSealed_rd (by decide) ..), by rw [addr, tail], payload, ?_, stands.dram⟩
  rw [stands.rd]
  exact clear

end

/-! ### The statement -/

/-- Settles O50: the messages of the hub by what they leave in the stack (`applyOpen_opens`), the close by its two parts, in the stack and, with
the last stack, at the hub (`hubClose_closes`), the walk by its records (`settleWalk_vrec`), and a mirror pass by what stands while it goes on
(`stands_runMirror`). -/
theorem stackClose : Obligations.StackClose := by
  refine ⟨fun k d tag s next => ⟨_, exec_openCmd next, applyOpen_opens k.val d tag s⟩,
    fun k d tag s => ⟨exec_commit, exec_stackVoid, exec_message_none⟩,
    fun k d tag commit s held => ⟨exec_closeApply_waits held, fun due waits => ⟨closeApply_earlier held due waits,
      fun all _ => closeApply_last held due waits all⟩⟩,
    fun k d s => ⟨exec_settleWalkDone_idle, fun settling => ?_⟩,
    fun k d r s => ⟨exec_mirrorPass_none, fun m pass new settled on =>
      ⟨mirrorPass_fails pass new settled on, mirrorPass_starts pass new settled on⟩, fun m pass => exec_mirrorPass_idle pass⟩⟩
  obtain ⟨t, done, dreg, vrec, intact, frame⟩ := settleWalkDone_settles settling
  refine ⟨t, done, dreg, fun i within => ?_, intact, fun i apart => ?_, frame⟩
  · rw [vrec, if_pos (walked_iff.2 within)]
    exact walkRec_settles ..
  · refine (vrec i).trans (if_neg fun within => ?_)
    obtain ⟨e, mem, first, last⟩ := walked_iff.1 within
    have := apart e mem
    omega

end Sys2Proof.Machine
end

