-- ==== Sys2Proof/Proofs/RemoteAccess.lean ====
section
/-!
PROOFS. Proofs/RemoteAccess.lean: reads, writes and mirror copies from other modules (R164, R209, R217, R379), and what a programmable counter
that saturates changes (R352).
-/
-- One proof after another: in parallel, behind the tests' long evaluations, they ask for too many threads' stacks.
set_option Elab.async false

namespace Sys2Proof.Machine

/-! ### Counters that saturate -/

/-- t is s but for its Boards, registers, and what a programmable counter that saturates may change. -/
def Saturates (s t : State) : Prop :=
  t = { s with out := t.out, boards := t.boards, regs := t.regs, host := t.host, can := t.can } ∧ SaturationOnly s t

section
variable {r s t u : State}

/-- Neither the host link nor the field bus takes part. -/
theorem Saturates.upd (frame : t = { s with out := t.out, boards := t.boards, regs := t.regs } := by rfl) : Saturates s t := by
  have host : t.host = s.host := by rw [frame]
  have can : t.can = s.can := by rw [frame]
  refine ⟨by rw [frame], ?_⟩
  rw [SaturationOnly, host, can]
  exact ⟨rfl, fun _ _ => ⟨rfl, rfl⟩, rfl⟩

theorem Saturates.refl (s : State) : Saturates s s := .upd

theorem Saturates.trans (h : Saturates r s) (k : Saturates s t) : Saturates r t := by
  obtain ⟨frame, host, bits, can⟩ := h
  obtain ⟨frame', host', bits', can'⟩ := k
  refine ⟨by rw [frame', frame], by rw [host', host], fun v ne => ?_, by rw [can', can]⟩
  obtain ⟨cause, pending⟩ := bits v ne
  obtain ⟨cause', pending'⟩ := bits' v ne
  exact ⟨cause'.trans cause, pending'.trans pending⟩

/-- Two steps, the later one named first. -/
theorem Saturates.after (k : Saturates s t) (h : Saturates r s) : Saturates r t := h.trans k

theorem Saturates.ite {c : Prop} [Decidable c] (ht : Saturates s t) (hu : Saturates s u) : Saturates s (if c then t else u) := by
  split
  · exact ht
  · exact hu

end

theorem saturates_forEach {α : Type} (l : List α) (f : α → State → State) (h : ∀ a s, Saturates s (f a s)) (s : State) :
    Saturates s (forEach l f s) := forEach_relates .refl .trans l h s

theorem saturates_emit (o : Out) (s : State) : Saturates s (s.emit o) := .upd

theorem saturates_modBoard (b : Nat) (f : Board → Board) (s : State) : Saturates s (s.modBoard b f) := .upd

theorem saturates_canNotify (bs : List Byte) (s : State) : Saturates s (canNotify s bs) := by
  have queued : ∀ q, Saturates s { s with can := { s.can with notify := q } } := fun _ => ⟨rfl, rfl, fun _ _ => ⟨rfl, rfl⟩, rfl⟩
  unfold canNotify
  split
  · exact .refl s
  · split
    · dsimp only
      split
      · exact queued _
      · exact ⟨rfl, rfl, fun _ _ => ⟨rfl, rfl⟩, rfl⟩
    · exact saturates_emit ..

theorem saturates_report (c v d q : Nat) (s : State) : Saturates s (report s c v d q) := by
  have can : Saturates s (if testBit (s.rd .notifyMaskCan) v then canNotify s (notifyBytes s c v d q) else s) :=
    .ite (saturates_canNotify ..) (.refl s)
  exact .ite (.refl s) (can.trans (.ite (.ite (.refl _) (saturates_emit ..)) (.refl _)))

theorem saturates_vector (s : State) : Saturates s (s.vector 7) := by
  refine .ite ⟨rfl, rfl, fun v ne => ⟨rfl, testBit_orBit_of_ne ne⟩, rfl⟩ (saturates_emit ..)

/-- A cause of vector 7 leaves every other cause. -/
theorem saturates_signal (s : State) : Saturates s (s.signal 7) := by
  have cause : Saturates s { s with host := { s.host with irqCause := s.host.irqCause ||| BitVec.ofNat 64 (2 ^ 7) } } := by
    refine ⟨rfl, rfl, fun v ne => ⟨?_, rfl⟩, rfl⟩
    simp only [testBit_eq, BitVec.testBit_toNat, BitVec.getLsbD_or]
    rw [← BitVec.testBit_toNat (BitVec.ofNat 64 (2 ^ 7)), show (BitVec.ofNat 64 (2 ^ 7)).toNat = 2 ^ 7 from rfl,
      Nat.testBit_two_pow_of_ne (Ne.symm ne), Bool.or_false]
  exact cause.trans ((saturates_vector _).trans (saturates_report ..))

theorem saturates_countEvent (b ev : Nat) (d f : Option Nat) (n : Nat) (s : State) : Saturates s (countEvent b ev d f n s) := by
  unfold countEvent
  split
  · exact .refl s
  · refine saturates_forEach _ _ (fun k u => ?_) s
    dsimp only
    split
    · split
      · exact (saturates_modBoard ..).trans (saturates_signal _)
      · exact saturates_modBoard ..
    · exact .refl u

/-- A read of a store that is served. -/
theorem saturates_storeServed (b a n : Nat) (s : State) : Saturates s (storeServed b a n s) := by
  have corrected : ∀ ws (u : State), Saturates u (correctWords b ws u) := fun ws u =>
    .after (saturates_forEach _ _ (fun _ _ => .after (saturates_modBoard ..) .upd) _) (saturates_modBoard ..)
  exact (saturates_countEvent ..).trans (.ite (.refl _) (corrected ..))

theorem saturates_boardWrite (b a : Nat) (bs : List Byte) (s : State) :
    Saturates { s with store := s.store.write (storeKey b a) bs } (boardWrite b a bs s) :=
  .after (saturates_countEvent ..) .upd

/-! ### Answers and errors -/

theorem sendErr_answered {p : Pkt} (told : p.opcode ≠ 0x86) (code : Nat) (s : State) :
    Answered p 0x86 (padTo 64 (leBytes 2 code)) (sendErr p code s) := by
  unfold sendErr
  rw [if_neg told]
  exact answer_answered ..

theorem sendErr_host (p : Pkt) (code : Nat) (s : State) : (sendErr p code s).host = s.host := by
  unfold sendErr
  split <;> rfl

theorem sendErr_boards (p : Pkt) (code : Nat) (s : State) : (sendErr p code s).boards = s.boards := by
  rw [show Reports s (sendErr p code s) from reports_sendErr ..]

theorem sendErr_dram (p : Pkt) (code : Nat) (s : State) : (sendErr p code s).dram = s.dram := by
  rw [show Reports s (sendErr p code s) from reports_sendErr ..]

theorem sendErr_store (p : Pkt) (code : Nat) (s : State) : (sendErr p code s).store = s.store := by
  rw [show Reports s (sendErr p code s) from reports_sendErr ..]

/-- An error whose fault has been reported. -/
theorem sendErr_rejected (p : Pkt) {code : Nat} (h : code < 65536) {s : State} (fault : s.host.irqCause.getLsbD 1 = true) :
    Rejected p code (sendErr p code s) := by
  refine ⟨?_, fun told => ?_⟩
  · rw [sendErr_host, testBit_eq, BitVec.testBit_toNat]
    exact fault
  · obtain ⟨k, mem, opcode, dest, txn, payload⟩ := sendErr_answered told code s
    refine ⟨k, mem, opcode, dest, txn, ?_⟩
    rw [payload]
    exact (leNat_leBytes 2 code).trans (Nat.mod_eq_of_lt h)

/-- The fault of an access that is not performed. -/
theorem regionFault_raised (dpa : Nat) (s : State) :
    let u := ((regionFaultFlt dpa 1 s).2.bump .regionFaults (stackOf dpa)).raise (regionFaultFlt dpa 1 s).1
    u.host.irqCause.getLsbD 1 = true ∧ u.dram = s.dram ∧ u.store = s.store := by
  have reports : Reports _ (((regionFaultFlt dpa 1 s).2.bump .regionFaults (stackOf dpa)).raise (regionFaultFlt dpa 1 s).1) :=
    reports_raise rfl _
  refine ⟨?_, by rw [reports]; rfl, by rw [reports]; rfl⟩
  rw [raise_reported (recordWaits_none rfl _)]
  exact reportFault_irqCause ..

theorem rejectAccess_rejected (p : Pkt) (dpa : Nat) (s : State) :
    Rejected p 0x0402 (rejectAccess p dpa s) ∧ (rejectAccess p dpa s).dram = s.dram ∧ (rejectAccess p dpa s).store = s.store := by
  obtain ⟨fault, dram, store⟩ := regionFault_raised dpa s
  exact ⟨sendErr_rejected p (by decide) fault, (sendErr_dram ..).trans dram, (sendErr_store ..).trans store⟩

/-- An answer changes what leaves the module, and nothing else. -/
theorem Corrects.answer {s t : State} (h : Corrects s t) (p : Pkt) (op : Nat) (bs : List Byte) :
    answer p op bs t = { s with cnt := t.cnt, out := (answer p op bs t).out, regs := t.regs, stks := t.stks } := by
  rw [show Sys2Proof.Machine.answer p op bs t = { t with out := (Sys2Proof.Machine.answer p op bs t).out } from rfl, h]

theorem Saturates.answer {s t : State} (h : Saturates s t) (p : Pkt) (op : Nat) (bs : List Byte) : Saturates s (answer p op bs t) :=
  h.trans (saturates_emit ..)

/-! ### Reads of stack lines -/

section
variable {p : Pkt} {s : State}

/-- The lines of a read, with their addresses. -/
def remoteLines (s : State) (p : Pkt) : List (Nat × LineRead) :=
  (List.range p.lines).map (fun i => (64 * (p.addr + i), remoteLine s (64 * (p.addr + i))))

theorem mem_remoteLines {l : Nat × LineRead} :
    l ∈ remoteLines s p ↔ ∃ i, i < p.lines ∧ l = (64 * (p.addr + i), remoteLine s (64 * (p.addr + i))) := by
  rw [remoteLines, List.mem_map]
  exact ⟨fun ⟨i, mem, same⟩ => ⟨i, List.mem_range.1 mem, same.symm⟩, fun ⟨i, lt, same⟩ => ⟨i, List.mem_range.2 lt, same.symm⟩⟩

/-- No line of the read is of a kind. -/
theorem remoteLines_find_none {v : LineRead} (h : ∀ i, i < p.lines → remoteLine s (64 * (p.addr + i)) ≠ v) :
    (remoteLines s p).find? (fun l => l.2 == v) = none := by
  refine List.find?_eq_none.2 fun l mem same => ?_
  obtain ⟨i, lt, rfl⟩ := mem_remoteLines.1 mem
  exact h i lt (by simpa using same)

/-- The first line of a kind. -/
theorem remoteLines_find {v : LineRead} (h : ∃ i, i < p.lines ∧ remoteLine s (64 * (p.addr + i)) = v) :
    ∃ l, (remoteLines s p).find? (fun l => l.2 == v) = some l := by
  obtain ⟨i, lt, at_⟩ := h
  refine Option.isSome_iff_exists.1 (List.find?_isSome.2 ⟨_, mem_remoteLines.2 ⟨i, lt, rfl⟩, ?_⟩)
  simp [at_]

theorem corrects_stackServed (a n : Nat) (s : State) : Corrects s (stackServed a n s) :=
  .after (corrects_countLines ..) (.ite (.refl s) (corrects_correctLines ..))

theorem serveStackRead_region (h : ∃ i, i < p.lines ∧ remoteLine s (64 * (p.addr + i)) = .region) :
    ∃ a, serveStackRead p s = rejectAccess p a s := by
  obtain ⟨l, found⟩ := remoteLines_find h
  rw [remoteLines] at found
  unfold serveStackRead
  dsimp only
  rw [found]
  exact ⟨_, rfl⟩

section
variable (region : ∀ i, i < p.lines → remoteLine s (64 * (p.addr + i)) ≠ .region)
include region

/-- A read that meets a stack under test, or is ahead, waits there once. -/
theorem serveStackRead_held (h : ∃ i, i < p.lines ∧ remoteLine s (64 * (p.addr + i)) = .held) :
    serveStackRead p s = { s with stks := (serveStackRead p s).stks }
      ∧ ∃ k, ∃ x ∈ ((serveStackRead p s).stack k).reads, x.who = .remote p := by
  obtain ⟨l, found⟩ := remoteLines_find h
  have none_ := remoteLines_find_none region
  rw [remoteLines] at found none_
  unfold serveStackRead
  dsimp only
  rw [none_, found]
  dsimp only
  split
  · rename_i waits
    obtain ⟨x, mem, same⟩ := List.any_eq_true.1 waits
    exact ⟨rfl, stackOf l.1, x, mem, by simpa using same⟩
  · refine ⟨rfl, stackOf l.1, ?_⟩
    rw [holdRead, State.modStack_stack]
    exact ⟨_, List.mem_append_right _ (List.mem_singleton_self _), rfl⟩

variable (held : ∀ i, i < p.lines → remoteLine s (64 * (p.addr + i)) ≠ .held)
include held

theorem serveStackRead_ready : serveStackRead p s =
    match badAmong ((remoteLines s p).map (·.2)) with
    | some a => sendErr p 0x0401 (raiseUe a 1 none s)
    | none => answer p 0x81 ((remoteLines s p).flatMap (fun l => lineBytes l.2))
        (countRead (fun a => stackServed a 64) ((remoteLines s p).map (·.2)) s) := by
  have none_ := remoteLines_find_none region
  have nothing := remoteLines_find_none held
  rw [remoteLines] at none_ nothing
  unfold serveStackRead
  dsimp only
  rw [none_]
  dsimp only
  rw [nothing]
  rfl

theorem serveStackRead_bad (h : ∃ i a, i < p.lines ∧ remoteLine s (64 * (p.addr + i)) = .bad a) :
    ∃ a, serveStackRead p s = sendErr p 0x0401 (raiseUe a 1 none s) := by
  rw [serveStackRead_ready region held]
  obtain ⟨i, a, lt, at_⟩ := h
  cases found : badAmong ((remoteLines s p).map (·.2)) with
  | some a => exact ⟨a, rfl⟩
  | none =>
    have := List.findSome?_eq_none_iff.1 found _ (List.mem_map_of_mem (mem_remoteLines.2 ⟨i, lt, rfl⟩))
    rw [at_] at this
    cases this

end

theorem serveStackRead_data (h : ∀ i, i < p.lines → ∃ a bs, remoteLine s (64 * (p.addr + i)) = .data a bs) :
    let t := serveStackRead p s
    Answered p 0x81 ((List.range p.lines).flatMap (fun i => lineBytes (remoteLine s (64 * (p.addr + i))))) t
      ∧ t = { s with cnt := t.cnt, out := t.out, regs := t.regs, stks := t.stks } := by
  have good : badAmong ((remoteLines s p).map (·.2)) = none := by
    refine List.findSome?_eq_none_iff.2 fun l mem => ?_
    obtain ⟨v, line, rfl⟩ := List.mem_map.1 mem
    obtain ⟨i, lt, rfl⟩ := mem_remoteLines.1 line
    obtain ⟨a, bs, at_⟩ := h i lt
    rw [at_]
  have bytes : (remoteLines s p).flatMap (fun l => lineBytes l.2)
      = (List.range p.lines).flatMap (fun i => lineBytes (remoteLine s (64 * (p.addr + i)))) := List.flatMap_map ..
  have served : Corrects s (countRead (fun a => stackServed a 64) ((remoteLines s p).map (·.2)) s) :=
    corrects_forEach _ _ (fun l u => by
      cases l
      case data a bs => exact corrects_stackServed ..
      all_goals exact .refl u) s
  intro t
  have ends : t = answer p 0x81 ((remoteLines s p).flatMap (fun l => lineBytes l.2))
      (countRead (fun a => stackServed a 64) ((remoteLines s p).map (·.2)) s) := by
    refine (serveStackRead_ready (fun i lt same => ?_) (fun i lt same => ?_)).trans (by rw [good])
    all_goals
      obtain ⟨a, bs, at_⟩ := h i lt
      rw [at_] at same
      cases same
  rw [ends, bytes]
  exact ⟨answer_answered .., served.answer ..⟩

/-- An uncorrectable line is reported; no byte changes. -/
theorem raiseUe_rejected (p : Pkt) (a : Nat) (s : State) :
    let t := sendErr p 0x0401 (raiseUe a 1 none s)
    Rejected p 0x0401 t ∧ testBit t.host.irqCause.toNat 2 = true ∧ t.dram = s.dram := by
  obtain ⟨fault, memory⟩ := raiseUe_causes a 1 none s
  refine ⟨sendErr_rejected p (by decide) fault, ?_, (sendErr_dram ..).trans (finds_raiseUe ..).dram⟩
  rw [sendErr_host, testBit_eq]
  exact memory

/-! ### Packets that reach their Board -/

variable {b : Nat}

theorem exec_rdReq_stack (h : Delivered 0x01 b p s) (stack : p.addr < storeFlag) : exec (.rdReq p) s = .next (serveStackRead p s) :=
  congrArg Host.Outcome.next ((deliver_delivered h _).trans (if_neg (by omega)))

theorem exec_rdReq_store (h : Delivered 0x01 b p s) (store : storeFlag ≤ p.addr) : exec (.rdReq p) s = .next (serveStoreRead b p s) :=
  congrArg Host.Outcome.next ((deliver_delivered h _).trans (if_pos store))

theorem exec_wr_store (h : Delivered 0x02 b p s) (store : storeFlag ≤ p.addr) :
    exec (.wr p) s = .next (
      if !s.storeUp b then sendErr p 0x060A s
      else if storeBytes < 64 * (p.addr - storeFlag) + p.payload.length then rejectAccess p (64 * (p.addr - storeFlag)) s
      else answer p 0x82 [] (boardWrite b (64 * (p.addr - storeFlag)) p.payload s)) :=
  congrArg Host.Outcome.next ((deliver_delivered h _).trans (if_pos store))

theorem exec_wr_inside {e : Nat × BitVec 128} (h : Delivered 0x02 b p s) (stack : p.addr < storeFlag)
    (at_ : s.regionAt (64 * p.addr) = some e) (kind : rKind e.2 = 2) (fits : 64 * p.addr + p.payload.length ≤ rBase e.2 + rSize e.2) :
    exec (.wr p) s = .next (answer p 0x82 [] (s.stackWrite (64 * p.addr) p.payload)) := by
  refine congrArg Host.Outcome.next ((deliver_delivered h _).trans ((if_neg (by omega)).trans ?_))
  dsimp only
  rw [at_]
  exact if_pos (by simp [kind, fits])

theorem exec_wr_outside (h : Delivered 0x02 b p s) (stack : p.addr < storeFlag)
    (outside : ∀ e, s.regionAt (64 * p.addr) = some e → rKind e.2 ≠ 2 ∨ rBase e.2 + rSize e.2 < 64 * p.addr + p.payload.length) :
    exec (.wr p) s = .next (rejectAccess p (64 * p.addr) s) := by
  refine congrArg Host.Outcome.next ((deliver_delivered h _).trans ((if_neg (by omega)).trans ?_))
  dsimp only
  split
  · rename_i e at_
    refine if_neg ?_
    have := outside e at_
    simp only [Bool.and_eq_true, decide_eq_true_eq]
    omega
  · rfl

theorem exec_mirrorWr_inside {e : Nat × BitVec 128} (h : Delivered 0x08 b p s)
    (at_ : s.regionAt (64 * p.addr) = some e) (kind : rKind e.2 = 5) (fits : 64 * p.addr + p.payload.length ≤ rBase e.2 + rSize e.2) :
    exec (.mirrorWr p) s = .next (answer p 0x82 [] (s.stackWrite (64 * p.addr) p.payload)) := by
  refine congrArg Host.Outcome.next ((deliver_delivered h _).trans ?_)
  dsimp only
  rw [at_]
  exact if_pos (by simp [kind, fits])

theorem exec_mirrorWr_outside (h : Delivered 0x08 b p s)
    (outside : ∀ e, s.regionAt (64 * p.addr) = some e → rKind e.2 ≠ 5 ∨ rBase e.2 + rSize e.2 < 64 * p.addr + p.payload.length) :
    exec (.mirrorWr p) s = .next (rejectAccess p (64 * p.addr) s) := by
  refine congrArg Host.Outcome.next ((deliver_delivered h _).trans (if_neg ?_))
  split
  · rename_i e at_
    have := outside e at_
    simp only [Bool.and_eq_true, decide_eq_true_eq, beq_iff_eq]
    omega
  · exact Bool.false_ne_true

/-- A packet for another module passes by. -/
theorem deliver_elsewhere {op : Nat} (known : s.device ≠ 0xFFFF) (other : p.dest / 16 ≠ s.device) (f : Nat → State → State) :
    deliver op p f s = s := by
  unfold deliver
  simp [known, other]

/-! ### What they leave -/

theorem storeUp_asleep (h : (s.board b).asleep = true) : s.storeUp b = false := by
  rw [State.storeUp, h, Bool.not_true, Bool.and_false]

theorem storeUp_awake {op : Nat} (h : Delivered op b p s) (awake : (s.board b).asleep = false) : s.storeUp b = true := by
  obtain ⟨-, -, -, -, -, -, board⟩ := h
  rw [State.storeUp, board, awake]
  rfl

theorem serveStoreRead_asleep (h : (s.board b).asleep = true) : serveStoreRead b p s = sendErr p 0x060A s := by
  unfold serveStoreRead
  simp only [storeUp_asleep h, Bool.not_false, if_true]

section
variable (up : s.storeUp b = true)
include up

theorem serveStoreRead_past (past : storeBytes < 64 * (p.addr - storeFlag) + 64 * p.lines) :
    serveStoreRead b p s = rejectAccess p (64 * (p.addr - storeFlag)) s := by
  unfold serveStoreRead
  simp only [up, Bool.not_true, Bool.false_eq_true, if_false]
  exact if_pos past

variable (within : 64 * (p.addr - storeFlag) + 64 * p.lines ≤ storeBytes)
include within

theorem serveStoreRead_good (good : boardBad s b (64 * (p.addr - storeFlag)) (64 * p.lines) = none) :
    serveStoreRead b p s = answer p 0x81 (s.storeRead b (64 * (p.addr - storeFlag)) (64 * p.lines))
      (storeServed b (64 * (p.addr - storeFlag)) (64 * p.lines) s) := by
  unfold serveStoreRead
  simp only [up, Bool.not_true, Bool.false_eq_true, if_false]
  rw [if_neg (by omega), good]

theorem serveStoreRead_bad {w : Nat} (bad : boardBad s b (64 * (p.addr - storeFlag)) (64 * p.lines) = some w) :
    serveStoreRead b p s = sendErr p 0x0401 (storeUe b w 1 s) := by
  unfold serveStoreRead
  simp only [up, Bool.not_true, Bool.false_eq_true, if_false]
  rw [if_neg (by omega), bad]

end

/-- A copy into a stack is acknowledged. -/
theorem stackWrite_acknowledged (p : Pkt) (a : Nat) (s : State) :
    let t := answer p 0x82 [] (s.stackWrite a p.payload)
    Answered p 0x82 [] t ∧ Stored s.dram t.dram a p.payload ∧ t = { s with dram := t.dram, stks := t.stks, cnt := t.cnt, out := t.out } := by
  have frame := stackWrite_frame a p.payload s
  generalize s.stackWrite a p.payload = u at frame
  refine ⟨answer_answered .., ?_, ?_⟩
  · rw [show (answer p 0x82 [] u).dram = u.dram from rfl, frame]
    exact stored_write ..
  · rw [show answer p 0x82 [] u = { u with out := (answer p 0x82 [] u).out } from rfl, frame]

theorem boardWrite_acknowledged (p : Pkt) (a : Nat) (s : State) :
    let t := answer p 0x82 [] (boardWrite b a p.payload s)
    Answered p 0x82 [] t ∧ Stored s.store t.store (storeKey b a) p.payload
      ∧ t = { s with store := t.store, boards := t.boards, out := t.out, regs := t.regs, host := t.host, can := t.can } ∧ SaturationOnly s t := by
  obtain ⟨frame, saturation⟩ := (saturates_boardWrite b a p.payload s).answer p 0x82 []
  refine ⟨answer_answered .., ?_, ?_, saturation⟩
  · rw [show (answer p 0x82 [] (boardWrite b a p.payload s)).store = (boardWrite b a p.payload s).store from rfl, boardWrite_store]
    exact stored_write ..
  · generalize answer p 0x82 [] (boardWrite b a p.payload s) = t at frame
    rw [frame]

/-! ### The accesses, from the packet to what they leave -/

theorem rdReq_region (h : Delivered 0x01 b p s) (stack : p.addr < storeFlag)
    (region : ∃ i, i < p.lines ∧ remoteLine s (64 * (p.addr + i)) = .region) :
    ∃ t, exec (.rdReq p) s = .next t ∧ Rejected p 0x0402 t ∧ t.dram = s.dram := by
  obtain ⟨a, rejects⟩ := serveStackRead_region region
  obtain ⟨rejected, dram, -⟩ := rejectAccess_rejected p a s
  rw [exec_rdReq_stack h stack, rejects]
  exact ⟨_, rfl, rejected, dram⟩

theorem rdReq_bad (h : Delivered 0x01 b p s) (stack : p.addr < storeFlag)
    (ready : ∀ i, i < p.lines → remoteLine s (64 * (p.addr + i)) ≠ .region ∧ remoteLine s (64 * (p.addr + i)) ≠ .held)
    (bad : ∃ i a, i < p.lines ∧ remoteLine s (64 * (p.addr + i)) = .bad a) :
    ∃ t, exec (.rdReq p) s = .next t ∧ Rejected p 0x0401 t ∧ testBit t.host.irqCause.toNat 2 = true ∧ t.dram = s.dram := by
  obtain ⟨a, rejects⟩ := serveStackRead_bad (fun i lt => (ready i lt).1) (fun i lt => (ready i lt).2) bad
  rw [exec_rdReq_stack h stack, rejects]
  exact ⟨_, rfl, raiseUe_rejected p a s⟩

/-- The answer for a store that cannot be accessed (R311). -/
theorem sendErr_asleep (told : p.opcode ≠ 0x86) :
    ∃ t, (.next (sendErr p 0x060A s) : Host.Outcome State Fault Refusal) = .next t ∧ Answered p 0x86 (padTo 64 (leBytes 2 0x060A)) t
      ∧ t.store = s.store := ⟨_, rfl, sendErr_answered told 0x060A s, sendErr_store ..⟩

theorem rdReq_asleep (h : Delivered 0x01 b p s) (store : storeFlag ≤ p.addr) (asleep : (s.board b).asleep = true) :
    ∃ t, exec (.rdReq p) s = .next t ∧ Answered p 0x86 (padTo 64 (leBytes 2 0x060A)) t ∧ t.store = s.store := by
  have told : p.opcode ≠ 0x86 := by rw [h.1]; decide
  rw [exec_rdReq_store h store, serveStoreRead_asleep asleep]
  exact sendErr_asleep told

theorem wr_asleep (h : Delivered 0x02 b p s) (store : storeFlag ≤ p.addr) (asleep : (s.board b).asleep = true) :
    ∃ t, exec (.wr p) s = .next t ∧ Answered p 0x86 (padTo 64 (leBytes 2 0x060A)) t ∧ t.store = s.store := by
  have told : p.opcode ≠ 0x86 := by rw [h.1]; decide
  rw [exec_wr_store h store, storeUp_asleep asleep, Bool.not_false, if_pos rfl]
  exact sendErr_asleep told

section
variable (awake : (s.board b).asleep = false) (store : storeFlag ≤ p.addr)
include awake store

theorem rdReq_past (h : Delivered 0x01 b p s) (past : storeBytes < 64 * (p.addr - storeFlag) + 64 * p.lines) :
    ∃ t, exec (.rdReq p) s = .next t ∧ Rejected p 0x0402 t ∧ t.store = s.store := by
  obtain ⟨rejected, -, kept⟩ := rejectAccess_rejected p (64 * (p.addr - storeFlag)) s
  rw [exec_rdReq_store h store, serveStoreRead_past (storeUp_awake h awake) past]
  exact ⟨_, rfl, rejected, kept⟩

theorem rdReq_good (h : Delivered 0x01 b p s) (within : 64 * (p.addr - storeFlag) + 64 * p.lines ≤ storeBytes)
    (good : boardBad s b (64 * (p.addr - storeFlag)) (64 * p.lines) = none) :
    ∃ t, exec (.rdReq p) s = .next t ∧ Answered p 0x81 (s.storeRead b (64 * (p.addr - storeFlag)) (64 * p.lines)) t
      ∧ t = { s with out := t.out, boards := t.boards, regs := t.regs, host := t.host, can := t.can } ∧ SaturationOnly s t := by
  rw [exec_rdReq_store h store, serveStoreRead_good (storeUp_awake h awake) within good]
  exact ⟨_, rfl, answer_answered .., (saturates_storeServed ..).answer ..⟩

theorem rdReq_uncorrectable {w : Nat} (h : Delivered 0x01 b p s) (within : 64 * (p.addr - storeFlag) + 64 * p.lines ≤ storeBytes)
    (bad : boardBad s b (64 * (p.addr - storeFlag)) (64 * p.lines) = some w) :
    ∃ t, exec (.rdReq p) s = .next t ∧ Answered p 0x86 (padTo 64 (leBytes 2 0x0401)) t ∧ (t.board b).halt ≠ .none ∧ t.store = s.store := by
  have told : p.opcode ≠ 0x86 := by rw [h.1]; decide
  obtain ⟨halts, -⟩ := storeUe_haltsWith b w 1 s
  rw [exec_rdReq_store h store, serveStoreRead_bad (storeUp_awake h awake) within bad]
  refine ⟨_, rfl, sendErr_answered told .., ?_, (sendErr_store ..).trans (still_storeUe ..).store⟩
  rw [State.board, sendErr_boards]
  exact halts

theorem wr_past (h : Delivered 0x02 b p s) (past : storeBytes < 64 * (p.addr - storeFlag) + p.payload.length) :
    ∃ t, exec (.wr p) s = .next t ∧ Rejected p 0x0402 t ∧ t.store = s.store := by
  obtain ⟨rejected, -, kept⟩ := rejectAccess_rejected p (64 * (p.addr - storeFlag)) s
  rw [exec_wr_store h store, storeUp_awake h awake, if_neg (by simp), if_pos past]
  exact ⟨_, rfl, rejected, kept⟩

theorem wr_within (h : Delivered 0x02 b p s) (within : 64 * (p.addr - storeFlag) + p.payload.length ≤ storeBytes) :
    ∃ t, exec (.wr p) s = .next t ∧ Answered p 0x82 [] t ∧ Stored s.store t.store (storeKey b (64 * (p.addr - storeFlag))) p.payload
      ∧ t = { s with store := t.store, boards := t.boards, out := t.out, regs := t.regs, host := t.host, can := t.can } ∧ SaturationOnly s t := by
  rw [exec_wr_store h store, storeUp_awake h awake, if_neg (by simp), if_neg (Nat.not_lt.2 within)]
  exact ⟨_, rfl, boardWrite_acknowledged ..⟩

end

end

/-! ### The statement -/

/-- Settles O43: each packet that reaches its Board by what the service of its access does (`serveStackRead_data`, `serveStoreRead_good`,
`stackWrite_acknowledged`, `rejectAccess_rejected`), and an access of a store by what a counter that saturates changes (`Saturates`). -/
theorem remoteReadsAndWrites : Obligations.RemoteReadsAndWrites := by
  refine ⟨fun b p s h stack => ⟨fun data => ⟨_, exec_rdReq_stack h stack, serveStackRead_data data⟩, rdReq_region h stack,
      fun region held => ⟨_, exec_rdReq_stack h stack, serveStackRead_held region held⟩, rdReq_bad h stack⟩,
    fun b p s asleep store => ⟨fun h => rdReq_asleep h store asleep, fun h => wr_asleep h store asleep⟩,
    fun b p s h awake store => ⟨rdReq_past awake store h, rdReq_good awake store h, fun w => rdReq_uncorrectable awake store h⟩,
    fun b p s h awake store => ⟨wr_past awake store h, wr_within awake store h⟩,
    fun b p s h stack => ⟨fun e at_ kind fits => ⟨_, exec_wr_inside h stack at_ kind fits, stackWrite_acknowledged ..⟩, fun outside => ?_⟩,
    fun b p s h => ⟨fun e at_ kind fits => ⟨_, exec_mirrorWr_inside h at_ kind fits, stackWrite_acknowledged ..⟩, fun outside => ?_⟩,
    fun p s known other => ⟨?_, ?_, ?_⟩⟩
  · obtain ⟨rejected, dram, -⟩ := rejectAccess_rejected p (64 * p.addr) s
    exact ⟨_, exec_wr_outside h stack outside, rejected, dram⟩
  · obtain ⟨rejected, dram, -⟩ := rejectAccess_rejected p (64 * p.addr) s
    exact ⟨_, exec_mirrorWr_outside h outside, rejected, dram⟩
  all_goals exact congrArg Host.Outcome.next (deliver_elsewhere known other _)

end Sys2Proof.Machine
end

