-- ==== Sys2Proof/Proofs/UpdateChecks.lean ====
section
/-!
PROOFS. Proofs/UpdateChecks.lean: the checks of an update command at its stack (Table 08-8, R179, R189 to R191), commands without their step
record (R190), and a missing update (R193).
-/
-- One proof after another: in parallel, behind the tests' long evaluations, they ask for too many threads' stacks.
set_option Elab.async false

namespace Sys2Proof.Machine

/-! ### A command that leaves the network -/

/-- A request that is taken up changes ports and fabric, and what leaves the module. -/
theorem claimed_eq (op src dest txn : Nat) (s : State) :
    ∃ ports fab out, claimed op src dest txn s = { s with ports := ports, fab := fab, out := out } := by
  unfold claimed
  split
  · rename_i e found
    exact ⟨_, _, _, (portsKept_takenUp (some e.1) e.2 { s with fab := { s.fab with onPackage := s.fab.onPackage.erase e } }).frame⟩
  · exact ⟨s.ports, s.fab, s.out, rfl⟩

/-! ### A command's fault (R179, Table 15-6) -/

/-- t is s after a fault with this code has been reported, and marks of domains set. -/
structure FaultRaised (code : Nat) (s t : State) : Prop where
  stks : t.stks = s.stks
  fault : testBit t.host.irqCause.toNat 1 = true
  logs : LogsCode code s t
  stands : ∀ q : Reg, q.Unreported → Stands q s t

section
variable {code : Nat} {s t v : State}

theorem faultRaised_raise {f : Flt} (none_ : f.board = none) (lt : f.code < 2 ^ 16) (s : State) : FaultRaised f.code s (s.raise f) where
  stks := by rw [reports_raise none_ s]
  fault := raise_fault none_ s
  logs := raise_logs none_ lt s
  stands _ h := stands_raise h f s

/-- A mark of a domain is no part of the report. -/
theorem FaultRaised.modDom (h : FaultRaised code s t) (d : Nat) (f : Dom → Dom) : FaultRaised code s (t.modDom d f) where
  stks := h.stks
  fault := h.fault
  logs := LogsCode.of_log h.logs rfl rfl
  stands q apart := (h.stands q apart).trans (stands_modDom ..)

theorem setUpdFault_updFault (d code : Nat) (s : State) : ((setUpdFault d code s).dom d).updFault = true := by
  rw [setUpdFault, State.modDom_dom]

end

section
variable (k : Nat) (u : Upd) {code : Nat} (lt : code < 2 ^ 16) (expected : Nat) (s : State)
include lt

theorem raiseUpd_raised : FaultRaised code s (raiseUpd k u code expected s) := by
  have raised := faultRaised_raise (f := updFlt k u code expected (if pgUsed (s.pgroup u.group) then pgSlot (s.pgroup u.group) else 0)
    (if pgUsed (s.pgroup u.group) then pgLayer (s.pgroup u.group) else 0)
    (if pgUsed (s.pgroup u.group) then some (pgDomain (s.pgroup u.group)) else none)) rfl lt s
  unfold raiseUpd
  dsimp only
  generalize s.raise _ = t at raised
  split
  · exact raised.modDom ..
  · exact raised

omit lt in
theorem raiseUpd_updFault (used : pgUsed (s.pgroup u.group) = true) :
    ((raiseUpd k u code expected s).dom (updDomain s u)).updFault = true := by
  unfold raiseUpd
  simp only [used, if_true]
  exact setUpdFault_updFault ..

end

/-! ### A command that is disposed of (R192, R379) -/

theorem disposes_updAck (u : Upd) (s : State) : Disposes s (updAck u s) := by
  unfold updAck
  split
  · exact disposes_emit ..
  · exact .refl s

theorem disposes_disposeUpd (k d : Nat) (u : Upd) (s : State) : Disposes s (disposeUpd k d u s) := by
  have counted : ∀ v : State, Disposes v
      (checkUpdates k d (v.modStack k (fun x => { x with disposed := tset x.disposed d (tget x.disposed d 0 + 1) }))) := fun v =>
    .after (disposes_checkUpdates ..) (disposes_modStack k _ v)
  exact (disposes_updAck u s).trans (.ite (counted _) (.refl _))

theorem disposes_dropUpd (k d : Nat) (u : Upd) (s : State) : Disposes s (dropUpd k d u s) :=
  .after (disposes_disposeUpd ..) (disposes_countBlock ..)

theorem updAck_answered (p : Pkt) (s : State) : Answered p 0x82 [] (updAck (updOf p).2 s) := ⟨_, List.mem_cons_self .., rfl, rfl, rfl, rfl⟩

theorem dropUpd_answered (k d : Nat) (p : Pkt) (s : State) : Answered p 0x82 [] (dropUpd k d (updOf p).2 s) := by
  have counted : ∀ v : State, Disposes v (if ((v.dreg k d).isOpen && (v.dreg k d).openTag == (updOf p).2.tag) = true then
      checkUpdates k d (v.modStack k (fun x => { x with disposed := tset x.disposed d (tget x.disposed d 0 + 1) })) else v) := fun v =>
    .ite (.after (disposes_checkUpdates ..) (disposes_modStack k _ v)) (.refl v)
  exact (counted _).answered (updAck_answered p (countDrop k s))

/-! ### The checks, in their order (Table 08-8) -/

/-- A command that runs ahead of the record is parked (R190). -/
def parkUpd (k : Nat) (u : Upd) (s : State) : State :=
  let t := (s.bump .updateParked (updDomain s u)).modStack k (fun y => { y with park := y.park ++ [{ u with since := s.time }] })
  (countBlock (0x520 + 3 * k + 1) 1 t).maxReg .rkParkMax (t.stack k).park.length k

theorem parkUpd_parks (k : Nat) (u : Upd) (s : State) :
    let t := parkUpd k u s
    (t.stack k).park = (s.stack k).park ++ [{ u with since := s.time }] ∧ (t.stack k).queue = (s.stack k).queue
      ∧ t = { s with stks := t.stks, regs := t.regs, flash := t.flash, cnt := t.cnt } := by
  have parked := State.modStack_stack (s.bump .updateParked (updDomain s u)) k
    (fun y => { y with park := y.park ++ [{ u with since := s.time }] })
  have stks : ∀ id w m (v : State), ((countBlock id 1 v).maxReg .rkParkMax w m).stks = v.stks := fun id w m v => by
    rw [State.maxReg, countBlock_frame]
    rfl
  dsimp only
  refine ⟨?_, ?_, ?_⟩
  · rw [State.stack, parkUpd, stks]
    exact (congrArg Stack.park parked :)
  · rw [State.stack, parkUpd, stks]
    exact (congrArg Stack.queue parked :)
  · rw [parkUpd, countBlock_frame]
    rfl

section
variable {k : Nat} {u : Upd} {s : State}

theorem takeUpd_none (none_ : findRun s k u.group u.q = none) :
    ∃ e, takeUpd k u s = if pgUsed (s.pgroup u.group) && !(s.dom (updDomain s u)).frozen.contains u.group
      then dropUpd k (updDomain s u) u (raiseUpd k u 0x0402 e (s.bump .regionFaults k))
      else updAck u (countDrop k (raiseUpd k u 0x0402 e (s.bump .regionFaults k))) := by
  have run : (if s.dev.jobState == .loaded || s.dev.jobState == .running then findRun s k u.group u.q else none) = none := by
    rw [none_, ite_self]
  refine ⟨if pgUsed (s.pgroup u.group) && (s.dreg k (updDomain s u)).isOpen then (s.dom (updDomain s u)).openTag else 0, ?_⟩
  unfold takeUpd
  dsimp only
  rw [run]
  rfl

variable {n : BitVec 128} (reach : UpdateReaches k u n s)
include reach

theorem taken_run : (if s.dev.jobState == .loaded || s.dev.jobState == .running then findRun s k u.group u.q else none) = some n := by
  obtain ⟨job, run, -, -⟩ := reach
  rw [run]
  exact if_pos (by simpa using job)

theorem takeUpd_frozen (frozen : u.group ∈ (s.dom (updDomain s u)).frozen) :
    takeUpd k u s = updAck u (countDrop k (
      if (s.dom (updDomain s u)).strict
      then raiseUpd k u 0x0503 (armedTag (s.dom (updDomain s u))) (s.bump .frozenDrops (updDomain s u))
      else s.bump .frozenDrops (updDomain s u))) := by
  unfold takeUpd
  dsimp only
  rw [taken_run reach]
  exact if_pos (List.contains_iff_mem.2 frozen)

variable (live : u.group ∉ (s.dom (updDomain s u)).frozen)
include live

theorem takeUpd_live : takeUpd k u s =
    let d := updDomain s u
    let x := s.dom d
    if !(s.dreg k d).isOpen || (s.dreg k d).openTag != u.tag
    then dropUpd k d u (raiseUpd k u 0x0501 (if (s.dreg k d).isOpen then (s.dreg k d).openTag else 0) s)
    else if x.updFault then dropUpd k d u s
    else if armedTag x < u.tag then parkUpd k u s
    else if u.tag < armedTag x then dropUpd k d u (raiseUpd k u 0x0501 (armedTag x) s)
    else if u.mode != modeInput ((s.slotWords (pgSlot (s.pgroup u.group))).getD 16 0#32).toNat
    then dropUpd k d u (raiseUpd k u 0x0504 (armedTag x) s)
    else if duplicate s k n u then dropUpd k d u (raiseUpd k u 0x0505 (armedTag x) s)
    else s.modStack k (fun y => { y with queue := y.queue ++ [u] }) := by
  unfold takeUpd
  dsimp only
  rw [taken_run reach]
  exact if_neg (mt List.contains_iff_mem.1 live)

end

/-! ### A dropped command, and one that is taken -/

/-- A fault, and a command that is disposed of with it. -/
theorem FaultRaised.disposes {code : Nat} {s t v : State} (h : FaultRaised code s t) (k : Disposes t v) :
    testBit v.host.irqCause.toNat 1 = true ∧ LogsCode code s v ∧ (∀ c, (v.stack c).queue = (s.stack c).queue)
      ∧ (∀ c, (v.stack c).park = (s.stack c).park) ∧ (∀ q : Reg, q.Unreported → ∀ w, v.rd q w = s.rd q w) ∧ v.dram = s.dram := by
  refine ⟨by rw [k.host]; exact h.fault, LogsCode.of_log h.logs rfl k.log, fun c => ?_, fun c => ?_, fun q apart w => ?_, ?_⟩
  · rw [k.queue, State.stack, State.stack, h.stks]
  · rw [k.park, State.stack, State.stack, h.stks]
  · rw [k.rd, (h.stands q apart).rd]
  · rw [k.dram, (h.stands .regionFaults (by decide)).dram]

section
variable {k : Nat} {p : Pkt} {s : State} {code : Nat}

/-- What a command leaves that is dropped with a fault that sets the flag. -/
theorem dropUpd_dropped (lt : code < 2 ^ 16) (expected : Nat) (used : pgUsed (s.pgroup (updOf p).2.group) = true) :
    let d := updDomain s (updOf p).2
    let t := dropUpd k d (updOf p).2 (raiseUpd k (updOf p).2 code expected s)
    Answered p 0x82 [] t ∧ testBit t.host.irqCause.toNat 1 = true ∧ LogsCode code s t ∧ (t.dom d).updFault = true
      ∧ (t.stack k).queue = (s.stack k).queue ∧ (t.stack k).park = (s.stack k).park := by
  have disposed := disposes_dropUpd k (updDomain s (updOf p).2) (updOf p).2 (raiseUpd k (updOf p).2 code expected s)
  obtain ⟨fault, logs, queue, park, -, -⟩ := (raiseUpd_raised k (updOf p).2 lt expected s).disposes disposed
  exact ⟨dropUpd_answered .., fault, logs, (disposed.updFault _).trans (raiseUpd_updFault k _ expected s used), queue k, park k⟩

/-- A command of no run is dropped with REGION_FAULT, which is counted. -/
theorem takeUpd_none_drops (none_ : findRun s k (updOf p).2.group (updOf p).2.q = none) :
    let t := takeUpd k (updOf p).2 s
    Answered p 0x82 [] t ∧ testBit t.host.irqCause.toNat 1 = true ∧ LogsCode 0x0402 s t
      ∧ t.rd .regionFaults k = satAdd 32 (s.rd .regionFaults k) 1 ∧ (t.stack k).queue = (s.stack k).queue := by
  obtain ⟨e, ends⟩ := takeUpd_none none_
  have raised := raiseUpd_raised k (updOf p).2 (code := 0x0402) (by decide) e (s.bump .regionFaults k)
  generalize raiseUpd k (updOf p).2 0x0402 e (s.bump .regionFaults k) = v at ends raised
  have disposed : Disposes v (takeUpd k (updOf p).2 s) := by
    rw [ends]
    exact .ite (disposes_dropUpd ..) (.after (disposes_updAck ..) (disposes_countBlock ..))
  obtain ⟨fault, logs, queue, -, counted, -⟩ := raised.disposes disposed
  refine ⟨?_, fault, LogsCode.of_log logs rfl rfl, (counted _ (by decide) k).trans (State.wr_rd ..), queue k⟩
  rw [ends]
  split
  · exact dropUpd_answered ..
  · exact updAck_answered ..

variable {n : BitVec 128} (reach : UpdateReaches k (updOf p).2 n s)
include reach

/-- A command of a frozen group is counted, and a fault for a strict domain alone. -/
theorem takeUpd_frozen_drops (frozen : (updOf p).2.group ∈ (s.dom (updDomain s (updOf p).2)).frozen) :
    let d := updDomain s (updOf p).2
    let t := takeUpd k (updOf p).2 s
    Answered p 0x82 [] t ∧ t.rd .frozenDrops d = satAdd 64 (s.rd .frozenDrops d) 1 ∧ t.stks = s.stks
      ∧ ((s.dom d).strict = true → (t.dom d).updFault = true ∧ testBit t.host.irqCause.toNat 1 = true ∧ LogsCode 0x0503 s t) := by
  intro d t
  have ends : t = _ := takeUpd_frozen reach frozen
  have acked : ∀ v : State, Disposes v (updAck (updOf p).2 (countDrop k v)) := fun v => .after (disposes_updAck ..) (disposes_countBlock ..)
  have stks : ∀ v : State, (updAck (updOf p).2 (countDrop k v)).stks = v.stks := fun v => by
    rw [countDrop, countBlock_frame]
    rfl
  have counted : (s.bump .frozenDrops d).rd .frozenDrops d = satAdd 64 (s.rd .frozenDrops d) 1 := State.wr_rd ..
  rw [ends]
  cases strict : (s.dom d).strict with
  | false =>
    rw [if_neg Bool.false_ne_true]
    exact ⟨updAck_answered .., ((acked _).rd ..).trans counted, stks _, fun h => by cases h⟩
  | true =>
    rw [if_pos rfl]
    have raised := raiseUpd_raised k (updOf p).2 (code := 0x0503) (by decide) (armedTag (s.dom d)) (s.bump .frozenDrops d)
    have ⟨_, _, used, _⟩ := reach
    have flag := raiseUpd_updFault k (updOf p).2 (code := 0x0503) (armedTag (s.dom d)) (s.bump .frozenDrops d) used
    obtain ⟨fault, logs, -, -, kept, -⟩ := raised.disposes (acked _)
    exact ⟨updAck_answered .., (kept _ (by decide) d).trans counted, (stks _).trans raised.stks,
      fun _ => ⟨((acked _).updFault _).trans flag, fault, LogsCode.of_log logs rfl rfl⟩⟩

variable (live : (updOf p).2.group ∉ (s.dom (updDomain s (updOf p).2)).frozen)
include live

theorem takeUpd_otherStep (h : (s.dreg k (updDomain s (updOf p).2)).openTag ≠ (updOf p).2.tag) :
    ∃ e, takeUpd k (updOf p).2 s = dropUpd k (updDomain s (updOf p).2) (updOf p).2 (raiseUpd k (updOf p).2 0x0501 e s) :=
  ⟨_, (takeUpd_live reach live).trans (if_pos (by simp [h]))⟩

variable (step : (s.dreg k (updDomain s (updOf p).2)).openTag = (updOf p).2.tag)
include step

theorem takeUpd_step : takeUpd k (updOf p).2 s =
    let u := (updOf p).2
    let d := updDomain s u
    let x := s.dom d
    if x.updFault then dropUpd k d u s
    else if armedTag x < u.tag then parkUpd k u s
    else if u.tag < armedTag x then dropUpd k d u (raiseUpd k u 0x0501 (armedTag x) s)
    else if u.mode != modeInput ((s.slotWords (pgSlot (s.pgroup u.group))).getD 16 0#32).toNat
    then dropUpd k d u (raiseUpd k u 0x0504 (armedTag x) s)
    else if duplicate s k n u then dropUpd k d u (raiseUpd k u 0x0505 (armedTag x) s)
    else s.modStack k (fun y => { y with queue := y.queue ++ [u] }) := by
  have ⟨_, _, _, open_⟩ := reach
  have isOpen : (s.dreg k (updDomain s (updOf p).2)).isOpen = true := open_
  exact (takeUpd_live reach live).trans (if_neg (by simp [step, isOpen]))

theorem takeUpd_flagged (flag : (s.dom (updDomain s (updOf p).2)).updFault = true) :
    takeUpd k (updOf p).2 s = dropUpd k (updDomain s (updOf p).2) (updOf p).2 s :=
  (takeUpd_step reach live step).trans (if_pos flag)

variable (clear : (s.dom (updDomain s (updOf p).2)).updFault = false)
include clear

theorem takeUpd_parks (ahead : armedTag (s.dom (updDomain s (updOf p).2)) < (updOf p).2.tag) :
    takeUpd k (updOf p).2 s = parkUpd k (updOf p).2 s :=
  (takeUpd_step reach live step).trans ((if_neg (by simp [clear])).trans (if_pos ahead))

theorem takeUpd_behind (behind : (updOf p).2.tag < armedTag (s.dom (updDomain s (updOf p).2))) :
    ∃ e, takeUpd k (updOf p).2 s = dropUpd k (updDomain s (updOf p).2) (updOf p).2 (raiseUpd k (updOf p).2 0x0501 e s) :=
  ⟨_, (takeUpd_step reach live step).trans ((if_neg (by simp [clear])).trans ((if_neg (by omega)).trans (if_pos behind)))⟩

variable (armed : armedTag (s.dom (updDomain s (updOf p).2)) = (updOf p).2.tag)
include armed

theorem takeUpd_armed : takeUpd k (updOf p).2 s =
    let u := (updOf p).2
    let d := updDomain s u
    let x := s.dom d
    if u.mode != modeInput ((s.slotWords (pgSlot (s.pgroup u.group))).getD 16 0#32).toNat
    then dropUpd k d u (raiseUpd k u 0x0504 (armedTag x) s)
    else if duplicate s k n u then dropUpd k d u (raiseUpd k u 0x0505 (armedTag x) s)
    else s.modStack k (fun y => { y with queue := y.queue ++ [u] }) :=
  (takeUpd_step reach live step).trans ((if_neg (by simp [clear])).trans ((if_neg (by omega)).trans (if_neg (by omega))))

theorem takeUpd_otherMode
    (h : (updOf p).2.mode ≠ modeInput ((s.slotWords (pgSlot (s.pgroup (updOf p).2.group))).getD 16 0#32).toNat) :
    ∃ e, takeUpd k (updOf p).2 s = dropUpd k (updDomain s (updOf p).2) (updOf p).2 (raiseUpd k (updOf p).2 0x0504 e s) :=
  ⟨_, (takeUpd_armed reach live step clear armed).trans (if_pos (by simpa using h))⟩

variable (mode : (updOf p).2.mode = modeInput ((s.slotWords (pgSlot (s.pgroup (updOf p).2.group))).getD 16 0#32).toNat)
include mode

theorem takeUpd_duplicate (h : duplicate s k n (updOf p).2 = true) :
    ∃ e, takeUpd k (updOf p).2 s = dropUpd k (updDomain s (updOf p).2) (updOf p).2 (raiseUpd k (updOf p).2 0x0505 e s) :=
  ⟨_, (takeUpd_armed reach live step clear armed).trans ((if_neg (by simp [mode])).trans (if_pos h))⟩

theorem takeUpd_queues (h : duplicate s k n (updOf p).2 = false) :
    takeUpd k (updOf p).2 s = s.modStack k (fun y => { y with queue := y.queue ++ [(updOf p).2] }) :=
  (takeUpd_armed reach live step clear armed).trans ((if_neg (by simp [mode])).trans (if_neg (by simp [h])))

end

end Sys2Proof.Machine
end

