-- ==== Sys2Proof/Proofs/UpdateCommands.lean ====
section
/-!
PROOFS. Proofs/UpdateCommands.lean: an update command as it comes from the network (R190, R206, Table 08-1), the parked commands of a step
without a record (R190), and a missing update (R193).
-/
-- One proof after another: in parallel, behind the tests' long evaluations, they ask for too many threads' stacks.
set_option Elab.async false

namespace Sys2Proof.Machine

/-! ### The header -/

/-- The first bytes of a list give the number modulo a power of 256. -/
theorem leNat_mod (n : Nat) (bs : List Byte) : leNat bs % 2 ^ (8 * n) = leNat (bs.take n) := by
  induction n generalizing bs with
  | zero => simp [leNat, Nat.mod_one]
  | succ n ih =>
    cases bs with
    | nil => simp [leNat]
    | cons b bs =>
      have low := b.isLt
      rw [List.take_succ_cons, leNat, leNat, ← ih, show 2 ^ (8 * (n + 1)) = 256 * 2 ^ (8 * n) by ring, Nat.mod_mul,
        Nat.add_mul_mod_self_left, Nat.mod_eq_of_lt low, Nat.add_mul_div_left _ _ (by decide), Nat.div_eq_of_lt low, Nat.zero_add]

theorem leNat_zeros {bs : List Byte} (h : ∀ b ∈ bs, b = 0#8) : leNat bs = 0 := by
  induction bs with
  | nil => rfl
  | cons b bs ih => rw [leNat, h b (List.mem_cons_self ..), ih fun c mem => h c (List.mem_cons_of_mem _ mem)]; rfl

/-- A packet of the right form has no reserved bit in the header of its command. -/
theorem updateHeader_clear {p : Pkt} (opcode : p.opcode = 0x07) (ok : pktOk p = true) : bitsOf (updOf p).1 55 0 = 0 := by
  have zero : zeroIn p.payload 0 6 = true := by
    simp only [pktOk, Bool.and_eq_true] at ok
    obtain ⟨-, reserved⟩ := ok
    rw [opcode] at reserved
    exact reserved
  have bytes : ∀ b ∈ p.payload.take 7, b = 0#8 := fun b mem => by
    have := List.all_eq_true.1 zero b mem
    simpa using this
  have mod := leNat_mod 7 ((p.payload.drop 0).take 16)
  rw [List.take_take, List.drop_zero] at mod
  rw [bitsOf_eq, Nat.pow_zero, Nat.div_one]
  exact mod.trans (leNat_zeros bytes)

/-! ### A command at its stack -/

section
variable {b : Nat} {k : StackNo} {p : Pkt} {s : State} (mine : bitsOf (updOf p).1 61 58 = k.val)
include mine

/-- Another stack lets a command pass. -/
theorem exec_updateCmd_other {j : StackNo} (ne : j ≠ k) : exec (.updateCmd j p) s = .next s := by
  show execUpdateCmd j p s = _
  have other : (k.val < 12 && k.val != j.val) = true := by
    have : k.val ≠ j.val := fun same => ne (Fin.ext same.symm)
    simp [k.isLt, this]
  unfold execUpdateCmd
  dsimp only
  rw [mine]
  exact if_pos other

theorem exec_updateCmd_own : exec (.updateCmd k p) s =
    .next (deliver 0x07 p (fun _ s =>
      if bitsOf (updOf p).1 55 0 != 0 then rejectPkt p 0x0606 (takenCmd (updOf p).2 s)
      else if !s.stackOk k.val then takeUpd k.val (updOf p).2 (takenCmd (updOf p).2 s)
      else if 32 ≤ (s.stack k.val).park.length || !(s.stack k.val).inq.isEmpty then
        s.modStack k.val (fun x => { x with inq := x.inq ++ [(updOf p).2] })
      else takeUpd k.val (updOf p).2 (takenCmd (updOf p).2 s)) s) := by
  show execUpdateCmd k p s = _
  unfold execUpdateCmd
  dsimp only
  rw [mine]
  exact if_neg (by simp)

theorem exec_updateCmd_rejected (h : pktOk p = false) (opcode : p.opcode = 0x07) (on : s.powered = true) (known : s.device ≠ 0xFFFF)
    (here : p.dest / 16 = s.device) : exec (.updateCmd k p) s = .next (rejectPkt p 0x0606 s) := by
  rw [exec_updateCmd_own mine]
  unfold deliver
  simp [h, opcode, on, known, here]

variable (h : Delivered 0x07 b p s) (up : s.stackOk k.val = true)
include h up

/-- Behind a full park buffer a command waits in the network. -/
theorem exec_updateCmd_waits (full : 32 ≤ (s.stack k.val).park.length ∨ (s.stack k.val).inq ≠ []) :
    exec (.updateCmd k p) s = .next (s.modStack k.val (fun y => { y with inq := y.inq ++ [(updOf p).2] })) := by
  have ⟨opcode, _, _, _, _, ok, _⟩ := h
  have clear := updateHeader_clear opcode ok
  rw [exec_updateCmd_own mine, deliver_delivered h, if_neg (by simp [clear]), if_neg (by simp [up]), if_pos (by simpa using full)]

theorem exec_updateCmd_taken (room : (s.stack k.val).park.length < 32) (empty : (s.stack k.val).inq = []) :
    exec (.updateCmd k p) s = .next (takeUpd k.val (updOf p).2 (claimed 0x07 p.src p.dest p.txn s)) := by
  have ⟨opcode, _, _, _, _, ok, _⟩ := h
  have clear := updateHeader_clear opcode ok
  rw [exec_updateCmd_own mine, deliver_delivered h, if_neg (by simp [clear]), if_neg (by simp [up]), if_neg (by simp [empty, room])]
  rfl

end

/-! ### Parked commands without their record -/

/-- Nothing is held by the network. -/
theorem drainInq_empty {k : Nat} {s : State} (empty : (s.stack k).inq = []) (n : Nat) : drainInq k n s = s := by
  cases n with
  | zero => rfl
  | succ n =>
    unfold drainInq
    rw [empty]

section
variable {k : StackNo} {d : DomainNo} {s : State}

theorem exec_noStepRecord_none (none_ : (s.stack k.val).park.filter (fun u => updDomain s u == d.val) = []) :
    exec (.noStepRecord k d) s = .next s := by
  show execNoStepRecord k d s = _
  unfold execNoStepRecord
  dsimp only
  rw [none_]

variable {u : Upd} {us : List Upd} (mine : (s.stack k.val).park.filter (fun u => updDomain s u == d.val) = u :: us)
  (used : pgUsed (s.pgroup u.group) = true) (empty : (s.stack k.val).inq = [])
include mine used empty

theorem noStepRecord_drops :
    ∃ t, exec (.noStepRecord k d) s = .next t ∧ (t.stack k.val).park = (s.stack k.val).park.filter (fun u => updDomain s u != d.val)
      ∧ (t.dom d.val).updFault = true ∧ testBit t.host.irqCause.toNat 1 = true ∧ LogsCode 0x0502 s t ∧ t.dram = s.dram := by
  have domain : updDomain s u = d.val := by
    have mem : u ∈ (s.stack k.val).park.filter (fun u => updDomain s u == d.val) := by
      rw [mine]
      exact List.mem_cons_self ..
    simpa using (List.mem_filter.1 mem).2
  let v := s.modStack k.val (fun x => { x with park := x.park.filter (fun u => updDomain s u != d.val) })
  have left : v.stack k.val = { s.stack k.val with park := (s.stack k.val).park.filter (fun u => updDomain s u != d.val) } :=
    State.modStack_stack ..
  have raised := raiseUpd_raised k.val u (code := 0x0502) (by decide) (armedTag (v.dom d.val)) v
  have flag := raiseUpd_updFault k.val u (code := 0x0502) (armedTag (v.dom d.val)) v used
  generalize ends : raiseUpd k.val u 0x0502 (armedTag (v.dom d.val)) v = w at raised flag
  have disposed : Disposes w (forEach (u :: us) (fun u s => dropUpd k.val d.val u s) w) := disposes_forEach _ (fun _ _ => disposes_dropUpd ..) w
  obtain ⟨fault, logs, -, park, -, dram⟩ := raised.disposes disposed
  have drained : drainInq k.val 4096 (forEach (u :: us) (fun u s => dropUpd k.val d.val u s) w)
      = forEach (u :: us) (fun u s => dropUpd k.val d.val u s) w := by
    refine drainInq_empty ?_ 4096
    rw [disposed.inq, State.stack, raised.stks]
    exact (congrArg Stack.inq left).trans empty
  refine ⟨forEach (u :: us) (fun u s => dropUpd k.val d.val u s) w, ?_, ?_, ?_, fault, LogsCode.of_log logs rfl rfl, dram⟩
  · show execNoStepRecord k d s = _
    unfold execNoStepRecord
    dsimp only
    rw [mine]
    dsimp only
    rw [← drained, ← ends]
  · rw [park, left]
  · rw [disposed.updFault, ← domain]
    exact flag

end

/-! ### A missing update -/

section
variable {k : StackNo} {d : DomainNo} {s : State}

/-- A stack that has not reported, once every Board has, and before the flag is set (R193). -/
def UpdateDue (k d : Nat) (s : State) : Prop :=
  (s.dom d).phase = .open ∧ (s.dom d).exch.state = 0 ∧ (s.dom d).boardsDone = (s.dom d).boards
    ∧ testBit (s.dom d).stacksDone k = false ∧ s.stackOk k = true ∧ schedulerBusy s = false ∧ (s.dom d).missingRaised = false

theorem updateDue_iff {k d : Nat} : UpdateDue k d s ↔ (((s.dom d).phase == .open) && (s.dom d).exch.state == 0 && (s.dom d).boardsDone == (s.dom d).boards
    && !testBit (s.dom d).stacksDone k && s.stackOk k && !(s.dom d).missingRaised && !schedulerBusy s) = true := by
  simp only [UpdateDue, Bool.and_eq_true, beq_iff_eq, Bool.not_eq_true']
  tauto

theorem exec_updateMissing_early (h : ¬ UpdateDue k.val d.val s) : exec (.updateMissing d k) s = .next s := by
  show execUpdateMissing d k s = _
  unfold execUpdateMissing
  exact if_neg (mt updateDue_iff.2 h)

theorem updateMissing_raises (h : UpdateDue k.val d.val s) :
    ∃ t, exec (.updateMissing d k) s = .next t ∧ (t.dom d.val).missingRaised = true ∧ (t.dom d.val).updFault = true
      ∧ testBit t.host.irqCause.toNat 1 = true ∧ LogsCode 0x0506 s t ∧ (∀ e, e ≠ d.val → t.dom e = s.dom e) ∧ t.stks = s.stks := by
  let f : Flt := { code := 0x0506, kind := 11, unit := d.val, domain := some d.val
                   detail := packAt [(0, 1, k.val), (4, 4, tget (s.stack k.val).disposed d.val 0)] }
  have raised : FaultRaised 0x0506 s (s.raise f) := faultRaised_raise (f := f) rfl (by simp only [f]; decide) s
  have doms : (s.raise f).doms = s.doms := by rw [reports_raise (f := f) rfl s]
  have exec_ : exec (.updateMissing d k) s
      = .next ((setUpdFault d.val 0x0506 (s.raise f)).modDom d.val (fun x => { x with missingRaised := true })) := by
    show execUpdateMissing d k s = _
    unfold execUpdateMissing
    exact if_pos (updateDue_iff.1 h)
  generalize s.raise f = v at raised doms exec_
  have marked := (raised.modDom d.val (fun x => { x with updFault := true, updFaultCode := if x.updFault then x.updFaultCode else 0x0506 })).modDom
    d.val (fun x => { x with missingRaised := true })
  refine ⟨_, exec_, ?_, ?_, marked.fault, marked.logs, fun e ne => ?_, marked.stks⟩
  · rw [State.modDom_dom]
  · rw [State.modDom_dom]
    exact setUpdFault_updFault ..
  · rw [State.modDom_dom_of_ne _ _ _ _ ne, setUpdFault, State.modDom_dom_of_ne _ _ _ _ ne, State.dom, doms]
    rfl

end

end Sys2Proof.Machine
end

