-- ==== Sys2Proof/Proofs/NewSquares.lean ====
section
/-!
PROOFS. Proofs/NewSquares.lean: the recurrence of one element (R182, R183), the components of a new square, and the room that they take (R163,
Table 02-4).
-/
-- One proof after another: in parallel, behind the tests' long evaluations, they ask for too many threads' stacks.
set_option Elab.async false

namespace Sys2Proof.Machine

/-! ### The recurrence -/

section
variable (r : RuleIn) (w s1 s2 x : W32) (gInf : Bool)

/-- A negative second moment is none (R183). -/
theorem recurrence_s2 :
    let raw := rne32 (((r.coef 2).mul (decFp32 s2)).add (((r.coef 3).mul (decFp32 x)).mul (decFp32 x)))
    (recurrence r w s1 s2 x gInf).s2 = if modeUsesS2 r.mode && !(decFp32 raw).lt (.fin false 0 0) then raw else 0#32 := by
  unfold recurrence
  dsimp only
  cases modeUsesS2 r.mode with
  | false => simp [zero32]
  | true =>
    simp only [if_true, Bool.true_and]
    cases (decFp32 (rne32 (((r.coef 2).mul (decFp32 s2)).add (((r.coef 3).mul (decFp32 x)).mul (decFp32 x))))).lt (.fin false 0 0) <;> rfl

theorem recurrence_f :
    let y := recurrence r w s1 s2 x gInf
    let c := r.coef
    let clip := r.c.getD 8 0#32
    let t := rne32 ((((c 4).mul (decFp32 s1)).add ((c 5).mul (decFp32 x))).add ((c 6).mul (decFp32 y.s1)))
    let f := if r.mode % 4 = 0 then rne32 (decFp32 (fmul r.k1 t)) else if r.mode % 4 = 1 then fsgn (fmul r.k1 t)
      else fdiv (fmul r.k1 t) (rne32 ((decFp32 (fsqrt (fmul r.k2 y.s2))).add (c 7)))
    y.f = if testBit r.mode 2 then fmin (fmax f (rne32 (decFp32 clip).neg)) clip else f := by
  unfold recurrence
  dsimp only
  generalize r.mode % 4 = m
  match m with
  | 0 => rfl
  | 1 => rfl
  | m + 2 =>
    have other : m + 2 ≠ 0 ∧ m + 2 ≠ 1 := by omega
    simp only [other.1, other.2, if_false]
    rfl

end

/-! ### The components of a new square -/

section
variable (s : State) (u : Upd) (r : RuleIn) (old : Nat → List Byte) (has : Nat → Bool)

theorem newSquare_comps :
    let out := fun (b k : Nat) =>
      let x := inputX r u (elemIndex b k)
      recurrence r (widened .m24 (old 0) b k).1 (if modeUsesS1 r.mode then (widened .s16s (old 1) b k).1 else 0#32)
        (if modeUsesS2 r.mode then (widened .s16u (old 2) b k).1 else 0#32) x.1 x.2
    let enc := fun (f : Fmt) (use : Nat) (sel : RuleOut → W32) => (List.range 64).map (fun b =>
      encBlock f (some (streamKey s.job.seed u.tag (0x40 + use) u.group u.q)) (fun k => elemIndex b k) ((List.range 64).map (fun k => sel (out b k))))
    (newSquare s u r old has).1 = ([(0, squareOf .m24 (enc .m24 0 (·.w))),
      (1, if modeUsesS1 r.mode then squareOf .s16s (enc .s16s 1 (·.s1)) else old 1),
      (2, if modeUsesS2 r.mode then squareOf .s16u (enc .s16u 2 (·.s2)) else old 2),
      (3, squareOf .f8 (enc .f8 3 (·.w))), (4, squareOf .f8 (turnBlocks (enc .f8 3 (·.w))))] : List (Nat × List Byte)).filter (fun c => has c.1) := by
  intro out enc
  unfold newSquare
  simp only [List.map_map, Function.comp_def, apply_ite Prod.fst]
  rfl

end

/-! ### The bytes of a component (Table 02-4) -/

theorem packCodes_length {f : Fmt} (whole : f ≠ .f4) (cs : List Nat) : (packCodes f cs).length = cs.length * (f.bits / 8) := by
  fun_induction packCodes f cs with
  | case1 => simp
  | case2 c f4 => exact absurd (by simpa using f4) whole
  | case3 c => simp [leBytes_length]
  | case4 c d cs f4 => exact absurd (by simpa using f4) whole
  | case5 c d cs _ ih =>
    simp only [List.length_append, leBytes_length, ih, List.length_cons]
    ring

/-- 64 blocks of 64 codes, and their exponents. -/
theorem squareOf_length {f : Fmt} (whole : f ≠ .f4) (scaled : f.scaled = true) {bs : List Block} (blocks : bs.length = 64)
    (codes : ∀ b ∈ bs, b.codes.length = 64) : (squareOf f bs).length = 64 * (64 * (f.bits / 8)) + 64 := by
  have each : bs.map (fun b => (packCodes f b.codes).length) = bs.map (fun _ => 64 * (f.bits / 8)) :=
    List.map_congr_left fun b mem => by rw [packCodes_length whole, codes b mem]
  rw [squareOf, List.length_append, List.length_flatMap, each, List.map_const', List.sum_replicate, if_pos scaled, List.length_map, blocks]
  rfl

/-- The blocks that an encoder makes. -/
theorem encBlocks_codes (f : Fmt) (key : Option W64) (elt : Nat → Nat → Nat) (w : Nat → Nat → W32) :
    ∀ b ∈ (List.range 64).map (fun b => encBlock f key (elt b) ((List.range 64).map (w b))), b.codes.length = 64 := by
  intro b mem
  obtain ⟨i, -, rfl⟩ := List.mem_map.1 mem
  simp [encBlock]

theorem encBlocks_length {f : Fmt} (whole : f ≠ .f4) (scaled : f.scaled = true) (key : Option W64) (elt : Nat → Nat → Nat) (w : Nat → Nat → W32) :
    (squareOf f ((List.range 64).map (fun b => encBlock f key (elt b) ((List.range 64).map (w b))))).length = 64 * (64 * (f.bits / 8)) + 64 :=
  squareOf_length whole scaled (by simp) (encBlocks_codes f key elt w)

theorem turnBlocks_length {f : Fmt} (whole : f ≠ .f4) (scaled : f.scaled = true) (bs : List Block) :
    (squareOf f (turnBlocks bs)).length = 64 * (64 * (f.bits / 8)) + 64 := by
  refine squareOf_length whole scaled (by simp [turnBlocks]) fun b mem => ?_
  obtain ⟨i, -, rfl⟩ := List.mem_map.1 mem
  simp [turnBlock]

/-- Each component of a new square is as long as Table 02-4 says, if the old ones are. -/
theorem newSquare_length (s : State) (u : Upd) (r : RuleIn) {old : Nat → List Byte} (has : Nat → Bool)
    (length : ∀ c, (old c).length = compBytes c) : ∀ c ∈ (newSquare s u r old has).1, c.1 < 5 ∧ c.2.length = compBytes c.1 := by
  intro c mem
  rw [newSquare_comps] at mem
  have mem := List.mem_of_mem_filter mem
  simp only [List.mem_cons, List.not_mem_nil, or_false] at mem
  rcases mem with rfl | rfl | rfl | rfl | rfl
  · exact ⟨show 0 < 5 by decide, encBlocks_length (by decide) rfl ..⟩
  · refine ⟨show 1 < 5 by decide, ?_⟩
    dsimp only
    split
    · exact encBlocks_length (by decide) rfl ..
    · exact length 1
  · refine ⟨show 2 < 5 by decide, ?_⟩
    dsimp only
    split
    · exact encBlocks_length (by decide) rfl ..
    · exact length 2
  · exact ⟨show 3 < 5 by decide, encBlocks_length (by decide) rfl ..⟩
  · exact ⟨show 4 < 5 by decide, turnBlocks_length (by decide) rfl _⟩

/-! ### The place of a component in a slot (R163) -/

/-- The lines of the first n components that a region has. -/
def linesBefore (e : BitVec 128) (n : Nat) : Nat := (List.range n).foldl (fun a k => if testBit (rComp e) k then a + compLines k else a) 0

theorem linesBefore_succ (e : BitVec 128) (n : Nat) :
    linesBefore e (n + 1) = if testBit (rComp e) n then linesBefore e n + compLines n else linesBefore e n := by
  rw [linesBefore, List.range_succ, List.foldl_append]
  rfl

theorem linesBefore_mono (e : BitVec 128) {m n : Nat} (le : m ≤ n) : linesBefore e m ≤ linesBefore e n := by
  induction le with
  | refl => exact Nat.le_refl _
  | step _ ih =>
    rw [linesBefore_succ]
    split <;> omega

/-- A component ends before its slot does. -/
theorem compOffset_within {e : BitVec 128} {c o : Nat} (lt : c < 5) (at_ : compOffset e c = some o) : o + compBytes c ≤ slotBytes e := by
  have slot : slotBytes e = 64 * linesBefore e 5 := rfl
  have fits : linesBefore e (c + 1) ≤ linesBefore e 5 := linesBefore_mono e lt
  unfold compOffset at at_
  split at at_
  · rename_i has
    cases at_
    rw [linesBefore_succ, if_pos has] at fits
    rw [slot, compBytes, show (List.range c).foldl (fun a k => if testBit (rComp e) k then a + compLines k else a) 0 = linesBefore e c from rfl]
    omega
  · cases at_

/-! ### The bytes of the new plane (R172) -/

/-- The memory once the components of a square are written. -/
def squareWrites (e : BitVec 128) (i : Nat) (p : Bool) (comps : List (Nat × List Byte)) (m : Mem) : Mem :=
  comps.foldl (fun m c => match compOffset e c.1 with
    | none => m
    | some o => m.write (planeAddr e i (if p then 1 else 0) + o) c.2) m

theorem stackWrite_dram (a : Nat) (bs : List Byte) (s : State) : (s.stackWrite a bs).dram = s.dram.write a bs := by
  rw [stackWrite_frame]

theorem writeSquare_dram (d : Nat) (e : BitVec 128) (i : Nat) (p : Bool) (comps : List (Nat × List Byte)) (s : State) :
    (writeSquare d e i p comps s).dram = squareWrites e i p comps s.dram := by
  unfold writeSquare squareWrites forEach
  dsimp only
  induction comps generalizing s with
  | nil => rfl
  | cons c comps ih =>
    rw [List.foldl_cons, List.foldl_cons, ih]
    cases compOffset e c.1 with
    | none => rfl
    | some o =>
      dsimp only
      rw [stackWrite_dram]

/-- No byte outside the plane's slot changes. -/
theorem squareWrites_outside {e : BitVec 128} {i : Nat} {p : Bool} {comps : List (Nat × List Byte)} (m : Mem)
    (length : ∀ c ∈ comps, c.1 < 5 ∧ c.2.length = compBytes c.1) {a : Nat}
    (outside : a < planeAddr e i (if p then 1 else 0) ∨ planeAddr e i (if p then 1 else 0) + slotBytes e ≤ a) :
    (squareWrites e i p comps m).get a = m.get a := by
  unfold squareWrites
  induction comps generalizing m with
  | nil => rfl
  | cons c comps ih =>
    rw [List.foldl_cons, ih _ fun c mem => length c (List.mem_cons_of_mem _ mem)]
    obtain ⟨lt, whole⟩ := length c (List.mem_cons_self ..)
    cases at_ : compOffset e c.1 with
    | none => rfl
    | some o =>
      have within := compOffset_within lt at_
      dsimp only
      rw [Mem.get_write, if_neg (by omega)]

end Sys2Proof.Machine
end

