-- ==== Sys2Proof/Proofs/SquareUpdates.lean ====
section
/-!
PROOFS. Proofs/SquareUpdates.lean: a queued command's square (R164, R167, R172, R336): the hold, the capture, the faults, and the new plane.
-/
-- One proof after another: in parallel, behind the tests' long evaluations, they ask for too many threads' stacks.
set_option Elab.async false

namespace Sys2Proof.Machine

/-! ### Steps that leave version records and queues -/

/-- What each stack holds by g is as it was. -/
theorem State.modStack_kept {α : Type} (g : Stack → α) (s : State) (k : Nat) (f : Stack → Stack) (h : ∀ x, g (f x) = g x) (c : Nat) :
    g ((s.modStack k f).stack c) = g (s.stack c) := by
  by_cases at_ : c = k
  · rw [at_, State.modStack_stack, h]
  · rw [State.modStack_stack_of_ne _ _ _ _ at_]

/-- The version records, the queues and the Boards' stores are as they were. -/
structure KeepsRecords (s t : State) : Prop where
  store : t.store = s.store
  vt : ∀ c, (t.stack c).vt = (s.stack c).vt
  queue : ∀ c, (t.stack c).queue = (s.stack c).queue

section
variable {r s t u : State}

theorem KeepsRecords.trans (h : KeepsRecords r s) (k : KeepsRecords s t) : KeepsRecords r t where
  store := k.store.trans h.store
  vt c := (k.vt c).trans (h.vt c)
  queue c := (k.queue c).trans (h.queue c)

/-- Two steps, the later one named first. -/
theorem KeepsRecords.after (k : KeepsRecords s t) (h : KeepsRecords r s) : KeepsRecords r t := h.trans k

theorem KeepsRecords.upd (store : t.store = s.store := by rfl) (stks : t.stks = s.stks := by rfl) : KeepsRecords s t where
  store := store
  vt c := by rw [State.stack, State.stack, stks]
  queue c := by rw [State.stack, State.stack, stks]

theorem KeepsRecords.refl (s : State) : KeepsRecords s s := .upd

theorem KeepsRecords.ite {c : Prop} [Decidable c] (ht : KeepsRecords s t) (hu : KeepsRecords s u) : KeepsRecords s (if c then t else u) := by
  split
  · exact ht
  · exact hu

theorem Disposes.keepsRecords (h : Disposes s t) : KeepsRecords s t where
  store := h.store
  vt c := by rw [h.stack]
  queue := h.queue

end

theorem keeps_forEach {α : Type} (l : List α) (f : α → State → State) (h : ∀ a s, KeepsRecords s (f a s)) (s : State) :
    KeepsRecords s (forEach l f s) := forEach_relates .refl .trans l h s

theorem keeps_modStack (k : Nat) (f : Stack → Stack) (s : State) (vt : ∀ x : Stack, (f x).vt = x.vt := by exact fun _ => rfl)
    (queue : ∀ x : Stack, (f x).queue = x.queue := by exact fun _ => rfl) : KeepsRecords s (s.modStack k f) where
  store := rfl
  vt := State.modStack_kept Stack.vt s k f vt
  queue := State.modStack_kept Stack.queue s k f queue

theorem keeps_countLines (k a n : Nat) (s : State) : KeepsRecords s (countLines k a n s) := by
  rw [countLines_frame]
  exact .upd

theorem keeps_stackServed (a n : Nat) (s : State) : KeepsRecords s (stackServed a n s) :=
  .after (keeps_countLines ..) (.ite (.refl s) (.after (keeps_modStack ..) (keeps_forEach _ _ (fun _ _ => .upd) s)))

theorem keeps_stackWrite (a : Nat) (bs : List Byte) (s : State) : KeepsRecords s (s.stackWrite a bs) :=
  .after (keeps_modStack ..) (.after (keeps_countLines ..) .upd)

theorem keeps_watchCount (w : WatchAt) (codes : List Nat) (s : State) : KeepsRecords s (watchCount w codes s) := by
  rw [watchCount_frame]
  exact .upd

theorem keeps_noteUe (dpa : Nat) (s : State) : KeepsRecords s (noteUe dpa s) := by
  unfold noteUe
  exact .after (keeps_modStack ..) .upd

theorem keeps_writeSquare (d : Nat) (e : BitVec 128) (i : Nat) (p : Bool) (comps : List (Nat × List Byte)) (s : State) :
    KeepsRecords s (writeSquare d e i p comps s) := by
  refine keeps_forEach _ _ (fun c v => ?_) s
  split
  · exact .refl v
  · exact .after (keeps_stackWrite ..) .upd

theorem setLost_log (d : Nat) (s : State) : (setLost d s).log = s.log := by
  have one : ∀ (k : Nat) (u : State), (u.setDreg k d { u.dreg k d with lost := true }).log = u.log := fun _ _ => rfl
  exact forEach_relates (R := fun s t => t.log = s.log) (fun _ => rfl) (fun h k => k.trans h) _ one _

theorem keeps_setLost (d : Nat) (s : State) : KeepsRecords s (setLost d s) :=
  .after (keeps_forEach _ _ (fun _ _ => keeps_modStack ..) _) .upd

/-! ### The queue of a stack -/

section
variable {k : StackNo} {u : Upd} {s : State}

theorem exec_squareUpdate_idle (h : s.stackOk k.val = false ∨ s.powered = false ∨ (s.stack k.val).queue = []) :
    exec (.squareUpdate k) s = .next s := by
  show execSquareUpdate k s = _
  unfold execSquareUpdate
  dsimp only
  rcases h with down | off | empty
  · exact if_pos (by simp [down])
  · exact if_pos (by simp [off])
  · rw [empty]
    exact ite_self _

variable (queue : (s.stack k.val).queue = [u])
include queue

theorem exec_squareUpdate_waits (h : (s.dreg k.val (updDomain s u)).settling = true ∨ s.underTest k.val = true) :
    exec (.squareUpdate k) s = .next s := by
  show execSquareUpdate k s = _
  unfold execSquareUpdate
  dsimp only
  rcases h with settling | tested
  · rw [queue, List.find?_cons_of_neg (by simp [settling])]
    exact ite_self _
  · exact if_pos (by simp [tested])

variable (up : s.stackOk k.val = true) (on : s.powered = true) (settled : (s.dreg k.val (updDomain s u)).settling = false)
  (free_ : s.underTest k.val = false) {n : BitVec 128} (run : findRun s k.val u.group u.q = some n)
include up on settled free_ run

/-- The command that is due is computed, unless a capture has still to read its square. -/
theorem exec_squareUpdate_due : exec (.squareUpdate k) s =
    if captureWaits s (nRegion n) (runSquare n u.q) then .next (captureOne (nRegion n) (runSquare n u.q) s)
    else .next (updateSquare k.val u n (s.modStack k.val (fun x => { x with queue := x.queue.erase u }))) := by
  show execSquareUpdate k s = _
  unfold execSquareUpdate
  dsimp only
  rw [if_neg (by simp [up, on, free_]), queue, List.find?_cons_of_pos (by simp [settled])]
  dsimp only
  rw [run]

end

/-! ### An uncorrectable line at the Reckoner (R167) -/

theorem committedPlane_clean {v : VRec} (clean : v.dirty = false) (r : DReg) : committedPlane v r = v.p := by
  simp [committedPlane, clean]

/-- The line is reported as UE_MEM, and the domain is LOST. -/
theorem rkLost_loses (k dpa d : Nat) (u : Upd) (s : State) :
    let t := rkLost 0x0401 k dpa d u s
    (t.dom d).lost = true ∧ testBit t.host.irqCause.toNat 2 = true ∧ LogsCode 0x0401 s t ∧ t.dram = s.dram ∧ KeepsRecords s t := by
  let f := ueFlt 0x0401 none dpa 2 (some d) s
  let v := noteUe dpa f.2
  have noted : KeepsRecords s v := .after (keeps_noteUe ..) .upd
  have dram : v.dram = s.dram := (noted_noteUe dpa f.2).dram
  have log : v.log = s.log := rfl
  have raised : FaultRaised 0x0401 v (v.raise f.1) := faultRaised_raise (f := f.1) rfl (show 0x0401 < 2 ^ 16 by decide) v
  have memory : testBit (v.raise f.1).host.irqCause.toNat 2 = true := by
    rw [raise_reported (recordWaits_none rfl v), testBit_eq]
    exact reportFault_also (List.mem_singleton_self 2 : 2 ∈ alsoVectors 0x0401) (by decide) v
  have ends : rkLost 0x0401 k dpa d u s = disposeUpd k d u (setLost d (v.raise f.1)) := rfl
  intro t
  have disposed : Disposes (setLost d (v.raise f.1)) t := disposes_disposeUpd k d u (setLost d (v.raise f.1))
  generalize v.raise f.1 = w at raised memory disposed
  have lost : Stands .regionFaults w (setLost d w) := stands_setLost ..
  refine ⟨(disposed.lost d).trans (setLost_lost ..), ?_, ?_, ?_, ?_⟩
  · rw [disposed.host]
    exact lost.testBit memory
  · refine LogsCode.of_log raised.logs log ?_
    rw [disposed.log, setLost_log]
  · rw [disposed.dram, lost.dram, (raised.stands .regionFaults (by decide)).dram, dram]
  · exact .after disposed.keepsRecords (.after (keeps_setLost ..) (noted.trans (.upd (raised.stands .regionFaults (by decide)).store raised.stks)))

/-! ### What becomes of a queued command's square -/

section
variable {k : Nat} {u : Upd} {n : BitVec 128} {s : State}

/-- A square at or past SQUARES is dropped with REGION_FAULT. -/
theorem updateSquare_past (past : rSquares (s.region (nRegion n)) ≤ runSquare n u.q) :
    let t := updateSquare k u n s
    (∀ c, (t.stack c).queue = (s.stack c).queue) ∧ testBit t.host.irqCause.toNat 1 = true ∧ LogsCode 0x0402 s t
      ∧ t.rd .regionFaults k = satAdd 32 (s.rd .regionFaults k) 1 ∧ t.dram = s.dram := by
  have ends : updateSquare k u n s = dropUpd k (updDomain s u) u
      (raiseUpd k u 0x0402 (armedTag (s.dom (updDomain s u))) (s.bump .regionFaults k)) := by
    unfold updateSquare
    exact if_pos past
  have raised := raiseUpd_raised k u (code := 0x0402) (by decide) (armedTag (s.dom (updDomain s u))) (s.bump .regionFaults k)
  obtain ⟨fault, logs, queue, -, counted, dram⟩ := raised.disposes (disposes_dropUpd k (updDomain s u) u _)
  dsimp only
  rw [ends]
  exact ⟨queue, fault, LogsCode.of_log logs rfl rfl, (counted _ (by decide) k).trans (State.wr_rd ..), dram⟩

variable (within : runSquare n u.q < rSquares (s.region (nRegion n)))
  (clean : (s.vrec k (rVtBase (s.region (nRegion n)) + runSquare n u.q)).dirty = false)
include within clean

/-- Where a component of the committed plane stands. -/
def committedAt (s : State) (k : Nat) (u : Upd) (n : BitVec 128) (c : Nat) : Nat :=
  let e := s.region (nRegion n)
  planeAddr e (runSquare n u.q) (if (s.vrec k (rVtBase e + runSquare n u.q)).p then 1 else 0) + (compOffset e c).getD 0

theorem updateSquare_lost (bad : ∃ c, c < 3 ∧ testBit (rComp (s.region (nRegion n))) c = true ∧ s.badLine (committedAt s k u n c) (compBytes c) ≠ none) :
    ∃ l, updateSquare k u n s = rkLost 0x0401 k (64 * l) (updDomain s u) u s := by
  obtain ⟨c, lt, has, ne⟩ := bad
  have found : ([0, 1, 2].filter (fun c => testBit (rComp (s.region (nRegion n))) c)).findSome?
      (fun c => s.badLine (committedAt s k u n c) (compBytes c)) ≠ none := by
    intro none_
    refine ne (List.findSome?_eq_none_iff.1 none_ c (List.mem_filter.2 ⟨?_, has⟩))
    have : c = 0 ∨ c = 1 ∨ c = 2 := by omega
    simpa using this
  obtain ⟨l, found⟩ := Option.ne_none_iff_exists'.1 found
  refine ⟨l, ?_⟩
  unfold updateSquare
  dsimp only
  rw [committedPlane_clean clean, if_neg (Nat.not_le.2 within)]
  unfold committedAt at found
  dsimp only at found
  rw [found]
  rfl

/-- The rule of a command's domain, with the step record that is armed (R180, R187). -/
def squareRule (s : State) (u : Upd) : RuleIn :=
  let w := s.slotWords (pgSlot (s.pgroup u.group))
  let word := fun (hi lo : Nat) => BitVec.ofNat 32 (bitsOf ((s.dom (updDomain s u)).armed.getD 0#128).toNat hi lo)
  { c := w, mode := (w.getD 16 0#32).toNat, eta := word 63 32, k1 := word 95 64, k2 := word 127 96 }

/-- The new components of the square, and the codes for its watch point. -/
def squareResult (s : State) (k : Nat) (u : Upd) (n : BitVec 128) : List (Nat × List Byte) × List Nat × List Nat :=
  newSquare s u (squareRule s u) (fun c => s.dramRead (committedAt s k u n c) (compBytes c)) (fun c => testBit (rComp (s.region (nRegion n))) c)

/-- The record of a square that is written (R172). -/
def VRec.turned (v : VRec) (u : Upd) : VRec := { v with p := !v.p, dirty := true, tag8 := u.tag % 256, was := v.tag8 }

/-- The state before the components are written: the old ones are read, the results counted, and the record turned. -/
def squarePrepared (k : Nat) (u : Upd) (n : BitVec 128) (s : State) : State :=
  let g := s.pgroup u.group
  let e := s.region (nRegion n)
  let vi := rVtBase e + runSquare n u.q
  let v := s.vrec k vi
  let r := forEach ([0, 1, 2].filter (fun c => testBit (rComp e) c)) (fun c t => stackServed (committedAt s k u n c) (compBytes c) t) s
  let t := watchCount (rkWatch r n g 5) (squareResult s k u n).2.2 (watchCount (rkWatch r n g 6) (squareResult s k u n).2.1 r)
  let t := t.setVrec k vi (v.turned u)
  if v.lastc then t.modDom (pgDomain g) (fun x => { x with preIntact := false, preDirty := true }) else t

omit within clean in
theorem squarePrepared_keeps :
    let t := squarePrepared k u n s
    let vi := rVtBase (s.region (nRegion n)) + runSquare n u.q
    t.dram = s.dram ∧ t.store = s.store ∧ t.vrec k vi = (s.vrec k vi).turned u ∧ ∀ c, (t.stack c).queue = (s.stack c).queue := by
  let e := s.region (nRegion n)
  have keeps : KeepsRecords s (forEach ([0, 1, 2].filter (fun c => testBit (rComp e) c))
      (fun c t => stackServed (committedAt s k u n c) (compBytes c) t) s) := keeps_forEach _ _ (fun _ _ => keeps_stackServed ..) s
  have corrects : Corrects s (forEach ([0, 1, 2].filter (fun c => testBit (rComp e) c))
      (fun c t => stackServed (committedAt s k u n c) (compBytes c) t) s) := corrects_forEach _ _ (fun _ _ => corrects_stackServed ..) s
  have turned : ∀ (t : State) (i : Nat) (v : VRec), (t.setVrec k i v).vrec k i = v := fun t i v => by
    simp [State.setVrec, State.vrec]
  have queued : ∀ (t : State) (i : Nat) (v : VRec) (c : Nat), ((t.setVrec k i v).stack c).queue = (t.stack c).queue := fun t i v =>
    State.modStack_kept Stack.queue t k (fun x => { x with vt := tset x.vt i v }) (fun _ => rfl)
  dsimp only
  unfold squarePrepared
  dsimp only
  generalize forEach ([0, 1, 2].filter _) _ s = r at keeps corrects
  have counted : KeepsRecords r (watchCount (rkWatch r n (s.pgroup u.group) 5) (squareResult s k u n).2.2
      (watchCount (rkWatch r n (s.pgroup u.group) 6) (squareResult s k u n).2.1 r)) := .after (keeps_watchCount ..) (keeps_watchCount ..)
  have dram : (watchCount (rkWatch r n (s.pgroup u.group) 5) (squareResult s k u n).2.2
      (watchCount (rkWatch r n (s.pgroup u.group) 6) (squareResult s k u n).2.1 r)).dram = s.dram := by
    rw [watchCount_frame, watchCount_frame, corrects]
  generalize watchCount _ _ _ = t at counted dram
  have read := keeps.trans counted
  split
  · exact ⟨dram, read.store, turned .., fun c => (queued t _ _ c).trans (read.queue c)⟩
  · exact ⟨dram, read.store, turned .., fun c => (queued t _ _ c).trans (read.queue c)⟩

variable (intact : s.vrecBad k (rVtBase (s.region (nRegion n)) + runSquare n u.q) = false)
  (readable : ∀ c, c < 3 → testBit (rComp (s.region (nRegion n))) c = true → s.badLine (committedAt s k u n c) (compBytes c) = none)
include intact readable

theorem updateSquare_writes :
    let e := s.region (nRegion n)
    let i := runSquare n u.q
    let d := updDomain s u
    let w := writeSquare d e i (!(s.vrec k (rVtBase e + i)).p) (squareResult s k u n).1 (squarePrepared k u n s)
    updateSquare k u n s = disposeUpd k d u (countBlock (0x520 + 3 * k) 64 (((w.bump .updatesApplied d).bump .rkSquares k).bumpBy .rkBusyCycles 64 k)) := by
  have none_ : ([0, 1, 2].filter (fun c => testBit (rComp (s.region (nRegion n))) c)).findSome?
      (fun c => s.badLine (committedAt s k u n c) (compBytes c)) = none := by
    refine List.findSome?_eq_none_iff.2 fun c mem => ?_
    obtain ⟨mem, has⟩ := List.mem_filter.1 mem
    refine readable c ?_ has
    simp only [List.mem_cons, List.not_mem_nil, or_false] at mem
    omega
  unfold committedAt at none_
  dsimp only at none_
  dsimp only
  unfold updateSquare
  dsimp only
  rw [committedPlane_clean clean, if_neg (Nat.not_le.2 within), none_]
  dsimp only
  rw [intact, clean]
  rfl

/-- The square is computed into the plane that is not committed. -/
theorem updateSquare_computes :
    let e := s.region (nRegion n)
    let i := runSquare n u.q
    let v := s.vrec k (rVtBase e + i)
    let t := updateSquare k u n s
    (∀ c, (t.stack c).queue = (s.stack c).queue) ∧ t.vrec k (rVtBase e + i) = v.turned u
      ∧ t.dram = squareWrites e i (!v.p) (squareResult s k u n).1 s.dram ∧ t.store = s.store := by
  obtain ⟨dram, store, vrec, queue⟩ := squarePrepared_keeps (k := k) (u := u) (n := n) (s := s)
  have ends := updateSquare_writes within clean intact readable
  have written := writeSquare_dram (updDomain s u) (s.region (nRegion n)) (runSquare n u.q)
    (!(s.vrec k (rVtBase (s.region (nRegion n)) + runSquare n u.q)).p) (squareResult s k u n).1 (squarePrepared k u n s)
  have keeps := keeps_writeSquare (updDomain s u) (s.region (nRegion n)) (runSquare n u.q)
    (!(s.vrec k (rVtBase (s.region (nRegion n)) + runSquare n u.q)).p) (squareResult s k u n).1 (squarePrepared k u n s)
  dsimp only at ends ⊢
  rw [ends]
  generalize writeSquare _ _ _ _ _ _ = w at written keeps
  have disposed : Disposes (((w.bump .updatesApplied (updDomain s u)).bump .rkSquares k).bumpBy .rkBusyCycles 64 k)
    (disposeUpd k (updDomain s u) u (countBlock (0x520 + 3 * k) 64
      (((w.bump .updatesApplied (updDomain s u)).bump .rkSquares k).bumpBy .rkBusyCycles 64 k))) :=
    .after (disposes_disposeUpd ..) (disposes_countBlock ..)
  have kept : KeepsRecords _ _ := disposed.keepsRecords.after (keeps.trans .upd)
  refine ⟨fun c => (kept.queue c).trans (queue c), (vrec_congr (kept.vt k) _).trans vrec, ?_, kept.store.trans store⟩
  rw [disposed.dram]
  exact written.trans (congrArg _ dram)

end

/-! ### The stack once the command is taken from its queue -/

/-- The queue without the command. -/
def popped (k : Nat) (u : Upd) (s : State) : State := s.modStack k (fun x => { x with queue := x.queue.erase u })

section
variable (k : Nat) (u : Upd) (s : State)

theorem popped_stack (c : Nat) : (popped k u s).stack c = { s.stack c with queue := ((popped k u s).stack c).queue } := by
  by_cases at_ : c = k
  · rw [at_, popped, State.modStack_stack]
  · rw [popped, State.modStack_stack_of_ne _ _ _ _ at_]

theorem popped_vrec (c i : Nat) : (popped k u s).vrec c i = s.vrec c i := vrec_congr (by rw [popped_stack]) i

theorem popped_badLine (a m : Nat) : (popped k u s).badLine a m = s.badLine a m := by
  rw [State.badLine, State.badLine, popped_stack]

theorem popped_vrecBad (c i : Nat) : (popped k u s).vrecBad c i = s.vrecBad c i := by
  rw [State.vrecBad, State.vrecBad, popped_stack]

theorem popped_queue {s : State} (queue : (s.stack k).queue = [u]) : ((popped k u s).stack k).queue = [] := by
  rw [popped, State.modStack_stack, queue]
  simp

theorem popped_committedAt (n : BitVec 128) (c : Nat) : committedAt (popped k u s) k u n c = committedAt s k u n c := by
  unfold committedAt
  dsimp only
  rw [popped_vrec]
  rfl

theorem popped_squareResult (n : BitVec 128) : squareResult (popped k u s) k u n = squareResult s k u n := by
  have seed : ∀ r old has, newSquare (popped k u s) u r old has = newSquare s u r old has := fun _ _ _ => rfl
  unfold squareResult
  rw [seed]
  simp only [popped_committedAt]
  rfl

theorem dramRead_length (s : State) (a n : Nat) : (s.dramRead a n).length = n := by
  simp [State.dramRead, Mem.read]

end

section
variable {k : StackNo} {u : Upd} {n : BitVec 128} {s : State} (queue : (s.stack k.val).queue = [u])
  (computes : exec (.squareUpdate k) s = .next (updateSquare k.val u n (popped k.val u s)))
include queue computes

theorem squareUpdate_past (past : rSquares (s.region (nRegion n)) ≤ runSquare n u.q) :
    ∃ t, exec (.squareUpdate k) s = .next t ∧ (t.stack k.val).queue = [] ∧ testBit t.host.irqCause.toNat 1 = true ∧ LogsCode 0x0402 s t
      ∧ t.rd .regionFaults k.val = satAdd 32 (s.rd .regionFaults k.val) 1 ∧ t.dram = s.dram := by
  obtain ⟨left, fault, logs, counted, dram⟩ := updateSquare_past (k := k.val) (u := u) (n := n) (s := popped k.val u s) past
  exact ⟨_, computes, (left k.val).trans (popped_queue _ _ queue), fault, logs, counted, dram⟩

variable (within : runSquare n u.q < rSquares (s.region (nRegion n)))
  (clean : (s.vrec k.val (rVtBase (s.region (nRegion n)) + runSquare n u.q)).dirty = false)
include within clean

omit queue in
theorem squareUpdate_lost (bad : ∃ c, c < 3 ∧ testBit (rComp (s.region (nRegion n))) c = true ∧ s.badLine (committedAt s k.val u n c) (compBytes c) ≠ none) :
    ∃ t, exec (.squareUpdate k) s = .next t ∧ (t.dom (updDomain s u)).lost = true ∧ testBit t.host.irqCause.toNat 2 = true ∧ LogsCode 0x0401 s t
      ∧ t.dram = s.dram ∧ t.vrec k.val (rVtBase (s.region (nRegion n)) + runSquare n u.q)
        = s.vrec k.val (rVtBase (s.region (nRegion n)) + runSquare n u.q) := by
  obtain ⟨c, lt, has, ne⟩ := bad
  obtain ⟨l, ends⟩ := updateSquare_lost (k := k.val) (s := popped k.val u s) within ((congrArg VRec.dirty (popped_vrec ..)).trans clean)
    ⟨c, lt, has, by rwa [popped_committedAt, popped_badLine]⟩
  obtain ⟨lost, memory, logs, dram, keeps⟩ := rkLost_loses k.val (64 * l) (updDomain s u) u (popped k.val u s)
  rw [computes, ends]
  exact ⟨_, rfl, lost, memory, logs, dram, (vrec_congr (keeps.vt k.val) _).trans (popped_vrec ..)⟩

variable (intact : s.vrecBad k.val (rVtBase (s.region (nRegion n)) + runSquare n u.q) = false)
  (readable : ∀ c, c < 3 → testBit (rComp (s.region (nRegion n))) c = true → s.badLine (committedAt s k.val u n c) (compBytes c) = none)
include intact readable

theorem squareUpdate_computes :
    let e := s.region (nRegion n)
    let i := runSquare n u.q
    let v := s.vrec k.val (rVtBase e + i)
    let next := planeAddr e i (if v.p then 0 else 1)
    ∃ t, exec (.squareUpdate k) s = .next t ∧ (t.stack k.val).queue = [] ∧ t.vrec k.val (rVtBase e + i) = v.turned u
      ∧ t.dram = (writeSquare (updDomain s u) e i (!v.p) (squareResult s k.val u n).1 s).dram
      ∧ (∀ a, a < next ∨ next + slotBytes e ≤ a → t.dram.get a = s.dram.get a) ∧ t.store = s.store := by
  intro e i v next
  obtain ⟨left, vrec, dram, store⟩ := updateSquare_computes (k := k.val) (s := popped k.val u s) within
    ((congrArg VRec.dirty (popped_vrec ..)).trans clean) ((popped_vrecBad ..).trans intact)
    (fun c lt has => by rw [popped_committedAt, popped_badLine]; exact readable c lt has)
  rw [popped_vrec] at vrec
  rw [popped_vrec, popped_squareResult] at dram
  have dram : (updateSquare k.val u n (popped k.val u s)).dram = squareWrites e i (!v.p) (squareResult s k.val u n).1 s.dram := dram
  refine ⟨_, computes, (left k.val).trans (popped_queue _ _ queue), vrec, dram.trans (writeSquare_dram ..).symm, fun a outside => ?_, store⟩
  rw [dram]
  refine squareWrites_outside _ (newSquare_length s u _ _ fun c => dramRead_length ..) ?_
  have plane : (if (!v.p) = true then 1 else 0) = if v.p = true then 0 else 1 := by cases v.p <;> rfl
  rw [plane]
  exact outside

end

end Sys2Proof.Machine
end

