-- ==== Sys2Proof/Proofs/StepRecords.lean ====
section
/-!
PROOFS. Proofs/StepRecords.lean: a step record at the hub (R187, R188), and the statement on update commands, step records and computed squares.
-/
-- One proof after another: in parallel, behind the tests' long evaluations, they ask for too many threads' stacks.
set_option Elab.async false

namespace Sys2Proof.Machine

/-! ### Commands that a record releases -/

/-- No stack holds a command. -/
def NoneHeld (s : State) : Prop := ∀ k, (s.stack k).park = [] ∧ (s.stack k).inq = []

/-- Without a held command a record releases none. -/
theorem releaseParked_none {s : State} (none_ : NoneHeld s) (d : Nat) :
    releaseParked d s = { s with stks := (releaseParked d s).stks } ∧ ∀ k, (releaseParked d s).stack k = s.stack k := by
  let R : State → State → Prop := fun s t => NoneHeld s → t = { s with stks := t.stks } ∧ ∀ k, t.stack k = s.stack k
  have refl : ∀ s, R s s := fun _ _ => ⟨rfl, fun _ => rfl⟩
  have trans : ∀ {r s t}, R r s → R s t → R r t := fun {r s t} h k none_ => by
    obtain ⟨frame, stack⟩ := h none_
    obtain ⟨frame', stack'⟩ := k fun c => by rw [stack]; exact none_ c
    exact ⟨by rw [frame', frame], fun c => (stack' c).trans (stack c)⟩
  refine forEach_relates (R := R) refl trans s.stacksOk (fun k t => ?_) s none_
  intro none_
  obtain ⟨park, inq⟩ := none_ k
  let w := t.modStack k (fun x => { x with park := x.park.filter (fun u => !(updDomain t u == d && decide (u.tag ≤ armedTag (s.dom d)))) })
  have stack : ∀ c, w.stack c = t.stack c := fun c => by
    by_cases at_ : c = k
    · rw [at_, State.modStack_stack, park, List.filter_nil, ← park]
    · exact State.modStack_stack_of_ne _ _ _ _ at_
  dsimp only
  rw [park, List.filter_nil]
  have drained : drainInq k 4096 w = w := drainInq_empty (by rw [stack, inq]) 4096
  exact (congrArg (fun v : State => v = { t with stks := v.stks } ∧ ∀ c, v.stack c = t.stack c) drained).mpr ⟨rfl, stack⟩

/-! ### The step record (R187, R188) -/

/-- The domain may take a record: of finite words, of a tag ahead of the committed one, and of the open step if one is open and has none. -/
def RecordDue (d : Nat) (bs : List Byte) (s : State) : Prop :=
  bs.length = 16 ∧ (s.dev.jobState = .loaded ∨ s.dev.jobState = .running) ∧ (s.dom d).used = true
    ∧ (∀ hi lo, (hi, lo) ∈ [(63, 32), (95, 64), (127, 96)] → isFin32 (BitVec.ofNat 32 (bitsOf (leNat bs) hi lo)) = true)
    ∧ (s.dom d).committedTag < bitsOf (leNat bs) 31 0
    ∧ ((s.dom d).isOpen = false ∨ ((s.dom d).openTag = bitsOf (leNat bs) 31 0 ∧ armedTag (s.dom d) ≠ bitsOf (leNat bs) 31 0))

theorem recordDue_unstaged (v : Via) (d : Nat) (bs : List Byte) (s : State) : RecordDue d bs (unstaged v s) ↔ RecordDue d bs s := by
  rw [unstaged, setStaged_frame]
  rfl

section
variable {d : Nat} {bs : List Byte} {s : State}

/-- The checks that STEP_RECORD makes of a value of the right length. -/
theorem recordDue_iff (length : bs.length = 16) : RecordDue d bs s ↔
    ((s.dev.jobState == .loaded || s.dev.jobState == .running) && (s.dom d).used
      && isFin32 (BitVec.ofNat 32 (bitsOf (leNat bs) 63 32)) && isFin32 (BitVec.ofNat 32 (bitsOf (leNat bs) 95 64))
      && isFin32 (BitVec.ofNat 32 (bitsOf (leNat bs) 127 96)) && decide ((s.dom d).committedTag < bitsOf (leNat bs) 31 0)
      && (!(s.dom d).isOpen || ((s.dom d).openTag == bitsOf (leNat bs) 31 0 && armedTag (s.dom d) != bitsOf (leNat bs) 31 0))) = true := by
  have words : (∀ hi lo, (hi, lo) ∈ [(63, 32), (95, 64), (127, 96)] → isFin32 (BitVec.ofNat 32 (bitsOf (leNat bs) hi lo)) = true)
      ↔ isFin32 (BitVec.ofNat 32 (bitsOf (leNat bs) 63 32)) = true ∧ isFin32 (BitVec.ofNat 32 (bitsOf (leNat bs) 95 64)) = true
        ∧ isFin32 (BitVec.ofNat 32 (bitsOf (leNat bs) 127 96)) = true := by
    refine ⟨fun h => ⟨h 63 32 (by simp), h 95 64 (by simp), h 127 96 (by simp)⟩, fun ⟨h1, h2, h3⟩ hi lo mem => ?_⟩
    simp only [List.mem_cons, Prod.mk.injEq, List.not_mem_nil, or_false] at mem
    rcases mem with ⟨rfl, rfl⟩ | ⟨rfl, rfl⟩ | ⟨rfl, rfl⟩
    · exact h1
    · exact h2
    · exact h3
  unfold RecordDue
  rw [words]
  simp only [length, true_and, Bool.and_eq_true, Bool.or_eq_true, beq_iff_eq, decide_eq_true_eq, Bool.not_eq_true', bne_iff_ne, and_assoc]

/-- The state once the record stands. -/
def recordArmed (d : Nat) (bs : List Byte) (s : State) : State :=
  s.modDom d (fun x => { x with armed := some (BitVec.ofNat 128 (leNat bs)), armTime := s.now })

theorem stepRecord_armed (due : RecordDue d bs s) : stepRecord d bs s = (stOk, releaseParked d (recordArmed d bs s)) := by
  have ⟨length, _⟩ := due
  unfold stepRecord
  dsimp only
  rw [if_neg (by simp [length])]
  exact if_pos ((recordDue_iff length).1 due)

theorem stepRecord_refused (h : ¬ RecordDue d bs s) : (stepRecord d bs s).1 ≠ stOk := by
  unfold stepRecord
  dsimp only
  split
  · exact (by decide : stLength ≠ stOk)
  · rename_i length
    rw [if_neg (mt (recordDue_iff (by simpa using length)).2 h)]
    exact (by decide : stRefused ≠ stOk)

end

section
variable {v : Via} {d : DomainNo} {data : List Byte} {s : State} (h : Accepted v .stepRecord (0x2200 + d.val) data s)
include h

theorem exec_stepRecord_refused (undue : ¬ RecordDue d.val data s) : ∃ t, exec (.stepRecord v d data) s = .next t ∧ AnswerOnly v s t := by
  rw [← recordDue_unstaged v] at undue
  exact ⟨_, rfl, viaWrite_refused h rfl (stepRecord_clean d.val) (stepRecord_refused undue)⟩

theorem exec_stepRecord_armed (due : RecordDue d.val data s) (none_ : NoneHeld s) :
    ∃ u, exec (.stepRecord v d data) s = .next (answeredOk v .stepRecord (0x2200 + d.val) data s u)
      ∧ (u.dom d.val).armed = some (BitVec.ofNat 128 (leNat data)) ∧ (u.dom d.val).armTime = s.now ∧ (∀ e, e ≠ d.val → u.dom e = s.dom e)
      ∧ u = { unstaged v s with doms := u.doms, stks := u.stks } ∧ ∀ k, u.stack k = s.stack k := by
  obtain ⟨paths, staged⟩ : ∃ p, unstaged v s = { s with paths := p } := ⟨_, setStaged_frame ..⟩
  rw [← recordDue_unstaged v] at due
  have rule := stepRecord_armed due
  have exec_ := viaWrite_accepted h rfl (congrArg Prod.fst rule)
  rw [rule] at exec_
  rw [staged] at exec_ ⊢
  obtain ⟨frame, stack⟩ := releaseParked_none (s := recordArmed d.val data { s with paths := paths }) none_ d.val
  have doms : (releaseParked d.val (recordArmed d.val data { s with paths := paths })).doms = (recordArmed d.val data { s with paths := paths }).doms := by
    rw [frame]
  have own : (recordArmed d.val data { s with paths := paths }).dom d.val
      = { s.dom d.val with armed := some (BitVec.ofNat 128 (leNat data)), armTime := s.now } := State.modDom_dom ..
  refine ⟨releaseParked d.val (recordArmed d.val data { s with paths := paths }), congrArg Host.Outcome.next exec_, ?_, ?_, fun e ne => ?_, ?_, stack⟩
  · rw [State.dom, doms]
    exact congrArg Dom.armed own
  · rw [State.dom, doms]
    exact congrArg Dom.armTime own
  · rw [State.dom, doms]
    exact State.modDom_dom_of_ne _ _ _ _ ne
  · rw [frame]
    rfl

end

/-! ### The statement -/

section
variable {k : StackNo} {p : Pkt} {s : State}

/-- A command that its stack takes up leaves the receive buffer of its port first. -/
theorem updateCmd_takes {b : Nat} (mine : bitsOf (updOf p).1 61 58 = k.val) (h : Delivered 0x07 b p s) (up : s.stackOk k.val = true)
    (room : (s.stack k.val).park.length < 32) (empty : (s.stack k.val).inq = []) :
    ∃ ports fab out, claimed 0x07 p.src p.dest p.txn s = { s with ports := ports, fab := fab, out := out }
      ∧ exec (.updateCmd k p) s = .next (takeUpd k.val (updOf p).2 { s with ports := ports, fab := fab, out := out }) := by
  obtain ⟨ports, fab, out, claims⟩ := claimed_eq 0x07 p.src p.dest p.txn s
  exact ⟨ports, fab, out, claims, (exec_updateCmd_taken mine h up room empty).trans (by rw [claims])⟩

end

/-- Settles O47: a command by the check that decides it (`takeUpd_live` and the lemmas after it), a queued one by what becomes of its square
(`updateSquare_computes`, `squareWrites_outside`), a step record by its rule (`stepRecord_armed`), and the new elements by the recurrence. -/
theorem updates : Obligations.Updates := by
  refine ⟨fun b k p s h => ?_, fun k p s opcode => ⟨fun reserved => ?_, fun on known here bad mine => ?_⟩,
    fun k d s => ⟨exec_noStepRecord_none, fun u us mine used empty => noStepRecord_drops mine used empty⟩,
    fun k u n s up on queue => ?_, fun k s => exec_squareUpdate_idle,
    fun d k s => ⟨updateMissing_raises, exec_updateMissing_early⟩,
    fun v d data s h => ⟨fun due none_ => exec_stepRecord_armed h due none_, exec_stepRecord_refused h⟩,
    fun r w s1 s2 x gInf => ⟨rfl, recurrence_s2 .., recurrence_f .., rfl⟩, newSquare_comps⟩
  · intro u head g d x v mine
    refine ⟨exec_updateCmd_waits mine h, fun up room empty => ?_, fun j ne => exec_updateCmd_other mine ne⟩
    obtain ⟨ports, fab, out, claims, exec_⟩ := updateCmd_takes mine h up room empty
    let t : State := { s with ports := ports, fab := fab, out := out }
    have drops : ∀ {code : Nat}, code < 2 ^ 16 → pgUsed g = true → (∃ e, takeUpd k.val u t = dropUpd k.val d u (raiseUpd k.val u code e t)) →
        ∃ w, exec (.updateCmd k p) s = .next w ∧ Answered p 0x82 [] w ∧ testBit w.host.irqCause.toNat 1 = true ∧ LogsCode code s w
          ∧ (w.dom d).updFault = true ∧ (w.stack k.val).queue = (s.stack k.val).queue ∧ (w.stack k.val).park = (s.stack k.val).park :=
      fun lt used ⟨e, ends⟩ => ⟨_, exec_.trans (congrArg Host.Outcome.next ends), dropUpd_dropped (s := t) lt e used⟩
    refine ⟨fun none_ => ⟨_, exec_, takeUpd_none_drops (s := t) none_⟩, fun n reach => ?_⟩
    have ⟨_, _, used, _⟩ := reach
    refine ⟨fun frozen => ⟨_, exec_, takeUpd_frozen_drops (s := t) reach frozen⟩,
      fun live step => drops (by decide) used (takeUpd_otherStep (s := t) reach live step),
      fun live step flag => ?_, fun live step clear => ⟨fun ahead => ?_,
        fun behind => drops (by decide) used (takeUpd_behind (s := t) reach live step clear behind),
        fun armed mode => drops (by decide) used (takeUpd_otherMode (s := t) reach live step clear armed mode),
        fun armed mode twice => drops (by decide) used (takeUpd_duplicate (s := t) reach live step clear armed mode twice),
        fun armed mode once => ?_⟩⟩
    · have disposed := disposes_dropUpd k.val d u t
      exact ⟨_, exec_.trans (congrArg Host.Outcome.next (takeUpd_flagged (s := t) reach live step flag)), dropUpd_answered ..,
        disposed.queue k.val, disposed.park k.val⟩
    · obtain ⟨park, queue, frame⟩ := parkUpd_parks k.val u t
      refine ⟨_, exec_.trans (congrArg Host.Outcome.next (takeUpd_parks (s := t) reach live step clear ahead)), park, queue, ?_⟩
      rw [show v = t from claims]
      exact frame
    · rw [show v = t from claims]
      exact exec_.trans (congrArg Host.Outcome.next (takeUpd_queues (s := t) reach live step clear armed mode once))
  · cases ok : pktOk p with
    | false => rfl
    | true => exact absurd (updateHeader_clear opcode ok) reserved
  · refine ⟨_, exec_updateCmd_rejected mine bad opcode on known here, rejectPkt_rejected p (by decide) s, ?_⟩
    rw [show Reports s (rejectPkt p 0x0606 s) from reports_rejectPkt ..]
  · intro g d e i v has place next w word rule
    have computes : (s.dreg k.val d).settling = false → s.underTest k.val = false → findRun s k.val u.group u.q = some n →
        captureWaits s (nRegion n) i = false → exec (.squareUpdate k) s = .next (updateSquare k.val u n (popped k.val u s)) :=
      fun settled free_ run free => (exec_squareUpdate_due queue up on settled free_ run).trans (if_neg (by rw [free]; exact Bool.false_ne_true))
    refine ⟨exec_squareUpdate_waits queue, fun settled free_ run waits => ?_, fun settled free_ run free past => ?_,
      fun settled free_ run free within clean bad => ?_, fun settled free_ run free within clean intact readable => ?_⟩
    · exact (exec_squareUpdate_due queue up on settled free_ run).trans (if_pos waits)
    · exact squareUpdate_past queue (computes settled free_ run free) past
    · exact squareUpdate_lost (computes settled free_ run free) within clean bad
    · exact squareUpdate_computes queue (computes settled free_ run free) within clean intact readable

end Sys2Proof.Machine
end
